-- ==== Sys2Proof/Word.lean ====
section
/-!
DEFINITION. The bit-vector types the Tremir computes with (R12, R9): a byte, an 8-byte word, a
32-bit code word and a 256-bit vector register or atom. Little-endian order is decided in
Machine/Mem.lean, once.
-/

namespace Sys2Proof

/-- One byte of memory. -/
abbrev Byte := BitVec 8

/-- A *word* of R12: 8 bytes. -/
abbrev Word := BitVec 64

/-- One of the two 32-bit words of a bundle (R87). -/
abbrev Half32 := BitVec 32

/-- A `v` register, or the data of one atom (R12, R160). -/
abbrev Vec := BitVec 256

end Sys2Proof
end

