-- ==== Sys2Proof/Syntax.lean ====
section
/-!
DEFINITION. The instructions and events of the Tremir: one constructor of `Instr` for every row of
spec/opcode_table.json. The first 151 rows are instructions of a bundle (R87 to R225); the others are
the device's own steps (spec/95_what_each_step_holds.md) and the commands of the host (R321).
Field types follow R94 to R96: a 6-bit register field that is not reserved is a `Reg`.
-/

namespace Sys2Proof

/-- The read-only specials of R20, field values 40 to 47. -/
inductive Special where
  | slot | core | square | ward | lane | clkl | clkh | level
  deriving DecidableEq, Repr

/-- A 6-bit register field whose value is not 48 to 63 (R20, R90). -/
inductive Reg where
  | g (n : BitVec 5)
  | q (n : BitVec 3)
  | sp (x : Special)
  deriving DecidableEq, Repr

/-- The data register of a load or store: a register field, or a `v` register in a `.v` form (R95). -/
inductive MemReg where
  | r (x : Reg)
  | v (n : BitVec 3)
  deriving DecidableEq, Repr

/-- Access widths of R95: 1, 2, 4, 8 and 32 bytes. -/
inductive Width where
  | b | h | w | d | v
  deriving DecidableEq, Repr

/-- Full/empty forms of a load (R95, R127). -/
inductive LdForm where
  | plain | waitFull | takeEmpty
  deriving DecidableEq, Repr

/-- Full/empty forms of a store (R95, R127). -/
inductive StForm where
  | plain | fillEmpty | setFull
  deriving DecidableEq, Repr

/-- Index scales of R95. -/
inductive Scale where
  | x1 | x2 | x4 | x8 | x32
  deriving DecidableEq, Repr

/-- Operations of `amo` and `red` (R130). -/
inductive AmoOp where
  | add | and | or | xor | min | max | swap | cas
  deriving DecidableEq, Repr

/-- Scope classes of R130 and R232. -/
inductive Scope where
  | core | device | host
  deriving DecidableEq, Repr

/-- Conditions of `cmp` (R95). -/
inductive Cond where
  | eq | ne | lt | le | gt | ge
  deriving DecidableEq, Repr

/-- Types of `cmp` (R122). -/
inductive CmpTy where
  | i64 | n64 | i32 | n32
  deriving DecidableEq, Repr

/-- The three values of `hx` of `li` (R97): sign copies, zero, 0x8000. -/
inductive LiTop where
  | sign | zero | localSpace
  deriving DecidableEq, Repr

/-- The system registers of R148. -/
inductive SysReg where
  | status | tags | tagerr | fmtp | sclp | quant | ownq | lmflt | lmaddr | fexc | ftrap | itin
  | asid | level | clock
  deriving DecidableEq, Repr

/-- Rounding modes of R65 and R160. -/
inductive Rm where
  | rn | rz | rd | ru
  deriving DecidableEq, Repr

/-- Integer element types, codes 0 to 7 of R161. -/
inductive IntTy where
  | i8 | i16 | i32 | i64 | n8 | n16 | n32 | n64
  deriving DecidableEq, Repr

/-- Float element types, codes 8 to 10 of R161. -/
inductive FloatTy where
  | f16 | bf16 | f32
  deriving DecidableEq, Repr

/-- Element types 0 to 10 of R161. -/
inductive NumTy where
  | int (t : IntTy)
  | flt (t : FloatTy)
  deriving DecidableEq, Repr

/-- Matrix formats of R176. -/
inductive MatFmt where
  | f16 | bf16 | c8 | i8 | n8
  deriving DecidableEq, Repr

/-- Reasons of an *illegal bundle* (R93, cause 0x10 of R322). -/
inductive Illegal where
  | opcode | function | field | register | doubleWrite | prefixMisuse
  deriving DecidableEq, Repr

/-- The half of a bundle that a report names (R93, R324). -/
inductive Part where
  | c | a | lone | none
  deriving DecidableEq, Repr

/-- What every Delilatur command carries (R320): the service core that owns its queue, the command
id and the host address of its completion word. -/
structure Cmd where
  sc : Nat
  cid : BitVec 16
  cw : Nat
  deriving DecidableEq, Repr

/-- The arguments of Submit launch (R271, R321). -/
structure LaunchArgs where
  /-- physical address of the launch record -/
  record : Word
  /-- for each die: die, width and height in wards -/
  shape : List (Nat × Nat × Nat)
  /-- owner queue of each of slots 0 to 14 -/
  slotMap : List (BitVec 4)
  /-- weight of each of the 16 owner queues -/
  weights : List (BitVec 4)
  /-- host address of the end word, or 0 -/
  endWord : Nat
  deriving DecidableEq, Repr

/-- Where a link stands: a street link of a die square, a lane link of a core, a hub gate (R289, R327). -/
inductive LinkId where
  | street (die square : Nat) (dir : BitVec 2)
  | lane (core : Nat) (dir : BitVec 2)
  | gate (die g : Nat)
  /-- the direction of such a hub link that leads to the die -/
  | hub (die g : Nat)
  deriving DecidableEq, Repr

/-- One constructor for each row of spec/opcode_table.json. -/
inductive Instr where
  -- C-slot instructions (R98)
  | nop
  | br (s : Bool) (p : BitVec 3) (o : BitVec 21)
  | bra (o : BitVec 25)
  | callLabel (d : Reg) (o : BitVec 19)
  | jmp (a : Reg)
  | callReg (d a : Reg)
  | ret (a : Reg)
  | brt (a b : Reg)
  | brq (s : Bool) (q : BitVec 3) (o : BitVec 21)
  | ld (wd : Width) (t : MemReg) (b : Reg) (f : LdForm) (o : BitVec 11)
  | ldIdx (wd : Width) (t : MemReg) (b x : Reg) (f : LdForm) (k : Scale)
  | st (wd : Width) (t : MemReg) (b : Reg) (f : StForm) (o : BitVec 11)
  | stIdx (wd : Width) (t : MemReg) (b x : Reg) (f : StForm) (k : Scale)
  | feClr (b : Reg) (o : BitVec 11)
  | amo (d a b : Reg) (op : AmoOp) (c : Scope) (f : BitVec 2)
  | red (a b : Reg) (op : AmoOp) (c : Scope) (f : BitVec 2)
  | fenceFar (a : Reg)
  | bar (n : BitVec 3)
  | rget (d a : Reg) (f : LdForm)
  | rput (a b : Reg) (f : StForm)
  | mig (a : Reg)
  -- A-slot instructions (R99)
  | add (d a b : Reg) (sat uns w32 : Bool)
  | sub (d a b : Reg) (sat uns w32 : Bool)
  | andR (d a b : Reg)
  | orR (d a b : Reg)
  | xorR (d a b : Reg)
  | andn (d a b : Reg)
  | shl (d a b : Reg)
  | shr (d a b : Reg)
  | sar (d a b : Reg)
  | minR (d a b : Reg) (uns w32 : Bool)
  | maxR (d a b : Reg) (uns w32 : Bool)
  | mul (d a b : Reg) (sat uns w32 : Bool)
  | mulh (d a b : Reg) (uns w32 : Bool)
  | div (d a b : Reg) (uns w32 : Bool)
  | rem (d a b : Reg) (uns w32 : Bool)
  | cmp (p : BitVec 3) (a b : Reg) (cc : Cond) (ty : CmpTy)
  | cmpImm (p : BitVec 3) (a : Reg) (i : BitVec 13) (cc : Cond) (ty : CmpTy)
  | sel (d a b : Reg) (s : Bool) (p : BitVec 3)
  | extN64 (d a b : Reg)
  | extI64 (d a b : Reg)
  | ins (d a b : Reg)
  | clz (d a : Reg)
  | ctz (d a : Reg)
  | popc (d a : Reg)
  | addImm (d a : Reg) (i : BitVec 13)
  | mov (d a : Reg) (i : BitVec 13)
  | andImm (d a : Reg) (i : BitVec 13)
  | orImm (d a : Reg) (i : BitVec 13)
  | xorImm (d a : Reg) (i : BitVec 13)
  | shlImm (d a : Reg) (k : BitVec 6)
  | shrImm (d a : Reg) (k : BitVec 6)
  | sarImm (d a : Reg) (k : BitVec 6)
  | mulImm (d a : Reg) (i : BitVec 13)
  -- lone instructions (R100)
  | li (d : Reg) (hx : LiTop) (imm : BitVec 48)
  | trap (n : BitVec 16)
  | tret (a : Reg)
  | sysr (d : Reg) (r : SysReg)
  | sysw (r : SysReg) (a : Reg)
  | sysrFexc (d : Reg)
  | syswItin (a : Reg)
  | spill (a b : Reg)
  | fill (a b : Reg)
  | tlbinv (a b : Reg)
  | idle (a : Reg)
  | send (d a b : Reg) (npay : BitVec 3) (tag : BitVec 4)
  | spawn (p : BitVec 3) (a : Reg) (k : BitVec 2) (o : BitVec 30)
  | sync (a : Reg)
  | syncEnd (a : Reg)
  | post (p : BitVec 3) (a : Reg) (k : BitVec 2)
  | steal (r : BitVec 2)
  | tnum (d : Reg) (t : BitVec 5)
  | tnset (t : BitVec 5) (a : Reg)
  | tndrain (t : BitVec 5)
  | tnsave (t : BitVec 5) (a : Reg)
  | tnload (t : BitVec 5) (a : Reg)
  | stow (a : Reg)
  | unstow (a : Reg)
  | eins (d a : Reg) (h : BitVec 6)
  | efind (d a : Reg) (h : BitVec 6)
  | emrg (d a b : Reg) (h : BitVec 6)
  | eeq (d a b : Reg) (h : BitVec 6)
  | esettle (h : BitVec 6)
  | ematch (d a : Reg) (h : BitVec 6)
  | ecost (d a b : Reg) (h : BitVec 6)
  | enode (d a : Reg) (h : BitVec 6)
  | eclass (d a : Reg) (h : BitVec 6)
  | mma (d : BitVec 3) (a b : Reg) (fmt : MatFmt) (sat : Bool) (n : BitVec 6)
  | mrot (d : BitVec 3) (fmt : MatFmt) (sat : Bool)
  | mrotMem (d : BitVec 3) (a b : Reg) (fmt : MatFmt) (sat : Bool)
  | mzero (d : BitVec 3)
  | mmovF32ToV (d : BitVec 3) (acc : BitVec 3) (row : BitVec 3)
  | mmovBf16ToV (d : BitVec 3) (acc : BitVec 3) (row : BitVec 3) (rm : Rm)
  | mmovF16ToV (d : BitVec 3) (acc : BitVec 3) (row : BitVec 3) (rm : Rm)
  | mmovF32Store (a : Reg) (acc : BitVec 3)
  | mmovBf16Store (a : Reg) (acc : BitVec 3) (rm : Rm)
  | mmovF16Store (a : Reg) (acc : BitVec 3) (rm : Rm)
  | mmovF32Load (d : BitVec 3) (a : Reg)
  | mtab (p : BitVec 3)
  | cpy (t : BitVec 6) (vf : BitVec 3)
  | cwait (a : Reg)
  | cany (d a : Reg)
  | cfirst (d a : Reg)
  | vaddF (ty : FloatTy) (rm : Rm) (d a b : BitVec 3)
  | vsubF (ty : FloatTy) (rm : Rm) (d a b : BitVec 3)
  | vmulF (ty : FloatTy) (rm : Rm) (d a b : BitVec 3)
  | vdiv (ty : FloatTy) (rm : Rm) (d a b : BitVec 3)
  | vfma (ty : FloatTy) (rm : Rm) (d a b c : BitVec 3)
  | vminF (ty : FloatTy) (d a b : BitVec 3)
  | vmaxF (ty : FloatTy) (d a b : BitVec 3)
  | vsqrt (ty : FloatTy) (rm : Rm) (d a : BitVec 3)
  | vneg (ty : FloatTy) (d a : BitVec 3)
  | vabs (ty : FloatTy) (d a : BitVec 3)
  | vcmpEq (ty : FloatTy) (d a b : BitVec 3)
  | vcmpLt (ty : FloatTy) (d a b : BitVec 3)
  | vcmpLe (ty : FloatTy) (d a b : BitVec 3)
  | vcmpUn (ty : FloatTy) (d a b : BitVec 3)
  | vaddI (ty : IntTy) (sat : Bool) (d a b : BitVec 3)
  | vsubI (ty : IntTy) (sat : Bool) (d a b : BitVec 3)
  | vmulI (ty : IntTy) (sat : Bool) (d a b : BitVec 3)
  | vminI (ty : IntTy) (d a b : BitVec 3)
  | vmaxI (ty : IntTy) (d a b : BitVec 3)
  | vand (ty : IntTy) (d a b : BitVec 3)
  | vor (ty : IntTy) (d a b : BitVec 3)
  | vxor (ty : IntTy) (d a b : BitVec 3)
  | vshl (ty : IntTy) (d a b : BitVec 3)
  | vshr (ty : IntTy) (d a b : BitVec 3)
  | vsar (ty : IntTy) (d a b : BitVec 3)
  | vcvt (dt st : NumTy) (rm : Rm) (sat : Bool) (d a : BitVec 3) (p : BitVec 3)
  | vdec (dt : FloatTy) (rm : Rm) (d a b : BitVec 3) (t : BitVec 2) (p : BitVec 2)
  | venc (auto : Bool) (d a b : BitVec 3) (t : BitVec 2) (p : BitVec 2)
  | vscl (rm : Rm) (d a b : BitVec 3) (t : BitVec 2) (p : BitVec 2)
  | vsauto (d a : BitVec 3) (t : BitVec 2) (p : BitVec 2)
  | vsum (ty : NumTy) (rm : Rm) (sat : Bool) (d : Reg) (a : BitVec 3)
  | vrmax (ty : NumTy) (d : Reg) (a : BitVec 3)
  | vrmin (ty : NumTy) (d : Reg) (a : BitVec 3)
  | vperm (d a b : BitVec 3)
  | vbcast (ty : NumTy) (d : BitVec 3) (a : Reg)
  | vext (ty : NumTy) (d : Reg) (a : BitVec 3) (i : BitVec 5)
  | vins (ty : NumTy) (d : BitVec 3) (a : Reg) (i : BitVec 5)
  | vsel (d a b c : BitVec 3)
  | vmov (d a : BitVec 3)
  | vrcp (d a : BitVec 3)
  | vrsqrt (d a : BitVec 3)
  | vexp2 (d a : BitVec 3)
  -- steps of the engines
  | vectorComplete (core : Nat)
  | matrixComplete (core : Nat)
  | mrotSliceArrive (core : Nat) (isB : Bool)
  | laneWordArrive (core : Nat) (dir : BitVec 2)
  | copyAccept (core : Nat)
  | copyAccess (core copy pos : Nat)
  | copyEnd (core copy : Nat)
  | bankLoad (core : Nat) (bank : Bool)
  -- steps of homes, networks and messages; `id` names a packet in flight
  | homeAccess (id : Nat)
  | loadReply (id : Nat)
  | storeAck (id : Nat)
  | porterAccess (id : Nat)
  | messageArrive (id : Nat)
  | heldRecordEnter (core : Nat)
  | ringStall (core : Nat)
  | migrationArrive (id : Nat)
  | amoAtHome (id : Nat)
  | remoteUpdate (id : Nat)
  | farDrain (id : Nat)
  -- tasks
  | taskTake (core slot : Nat)
  | stealRequest (core slot victim : Nat)
  | taskParkTimeout (core slot : Nat)
  | taskFrameStep (id : Nat)
  | syncAnswer (id : Nat)
  -- timers, traps, gangs, translation
  | deadlineExpire (launch level unit : Nat)
  | quantumExpire (core slot : Nat)
  | idleTimeout (core slot : Nat)
  | trapTake (tid : Nat)
  | oncePost (id : Nat)
  | icacheFill (square : Nat) (asid : BitVec 12) (line : Nat)
  | pageWalk (square : Nat) (asid : BitVec 12) (page : Nat)
  | arbiterBoundary (core : Nat)
  | spillEngineEvict (core : Nat)
  | withdraw (id : Nat)
  | roomMessage (id : Nat)
  | contextReadyTimeout (core rec : Nat)
  | refusedResendTimeout (core slot : Nat)
  -- tumblers
  | tumblerToken (t k : Nat)
  | tumblerDrainEnd (t k : Nat)
  -- the symbolic heap
  | einsLookup (id : Nat)
  | appendParent (id : Nat)
  | insertWithdraw (id : Nat)
  | accept (id : Nat)
  | clear (id : Nat)
  | best (id : Nat)
  | ecostStep (id : Nat)
  | repair (heap chan : Nat)
  | splice (id : Nat)
  | rehash (id : Nat)
  | unindex (id : Nat)
  | index (id : Nat)
  | merge (id : Nat)
  | settleWave (heap : Nat)
  | esettleAtAnchor (id : Nat)
  | matchScan (heap chan : Nat)
  -- the Hamper
  | stowProcess (hamper req : Nat)
  | unstowProcess (hamper req : Nat)
  | unstowPageArrive (hamper req page : Nat)
  -- Delilatur commands (R321)
  | identify (c : Cmd) (buf : Nat)
  | readSensors (c : Cmd) (buf : Nat)
  | submitLaunch (c : Cmd) (args : LaunchArgs)
  | suspendLaunch (c : Cmd) (launch : Nat)
  | resumeLaunch (c : Cmd) (launch : Nat)
  | killLaunch (c : Cmd) (launch : Nat)
  | writeDeviceMemory (c : Cmd) (dev : Nat) (hostA : Nat) (len : Nat) (w4 : Word)
  | readDeviceMemory (c : Cmd) (dev : Nat) (hostA : Nat) (len : Nat) (w4 : Word)
  | setRootTableAddress (c : Cmd) (a : Word)
  | writeRootEntry (c : Cmd) (asid : BitVec 12) (e : Word)
  | invalidateTranslations (c : Cmd) (asid : BitVec 12) (page ctl : Word)
  | createHeap (c : Cmd) (h : BitVec 6) (asid : BitVec 12) (w1 w2 seg segsz : Word)
  | releaseHeap (c : Cmd) (h : BitVec 6)
  | heapReleaseComplete (heap : Nat)
  | writeTurnMasks (c : Cmd) (die plane : Nat) (mask : BitVec 16)
  | markDown (c : Cmd) (l : LinkId)
  | markUp (c : Cmd) (l : LinkId)
  | createNamespace (c : Cmd) (drive : Nat) (asid : BitVec 12) (lbas : Nat)
  | deleteNamespace (c : Cmd) (drive : Nat) (asid : BitVec 12)
  | readObject (c : Cmd) (drive : Nat) (asid : BitVec 12) (obj : BitVec 48) (buf : Nat)
  | deleteObject (c : Cmd) (drive : Nat) (asid : BitVec 12) (obj : BitVec 48)
  | installPatch (c : Cmd) (stack : Nat) (atom : Nat)
  | scrubberControl (c : Cmd) (stack : Nat) (period : Nat)
  | readCertificate (c : Cmd) (buf : Nat)
  | attest (c : Cmd) (launch : Nat) (nonce : BitVec 512) (buf : Nat)
  -- links, memory controllers, scrubbers and the board
  | linkReplay (l : LinkId)
  | linkFail (l : LinkId)
  | routeDrop (id : Nat)
  | scrubStep (stack atom : Nat)
  | hotListScrub (stack : Nat)
  | windowRollover
  | activationAlert (chan bank postponed cycles : Nat)
  | temperatureReport (die : Nat) (temp : Nat)
  | powerRemoval (temp : Nat)
  | coldReset (romOk : Bool)
  -- rows added last in the table
  | vectorCommandStart (core : Nat)
  | insertConfirm (id : Nat)
  | illegalBundle (r : Illegal) (h : Part)
  | invalidEntry (c : Cmd)
  | objectDurable (hamper req : Nat)
  | refreshManagementDone (chan bank : Nat)
  -- instructions without operands, last: the compiler numbers constructors with fields only so far
  | fence
  | fenceR
  | fenceOwn
  | done
  | home
  | once
  deriving DecidableEq, Repr

end Sys2Proof
end

