-- ==== Sys2Proof/WellFormed.lean ====
section
/-!
DEFINITION. Which terms of `Instr` stand for an encoding that is not reserved (R101), beyond what the
types of the fields already say, and which index ranges an event may name (R5).
-/

namespace Sys2Proof

/-- Width in bits of an integer element (R161). -/
def IntTy.bits : IntTy → Nat
  | .i8 => 8 | .i16 => 16 | .i32 => 32 | .i64 => 64
  | .n8 => 8 | .n16 => 16 | .n32 => 32 | .n64 => 64

/-- The `.i` types are signed, the `.n` types unsigned (R64). -/
def IntTy.signed : IntTy → Bool
  | .i8 | .i16 | .i32 | .i64 => true
  | _ => false

/-- Width in bits of a float element (R62, R161). -/
def FloatTy.bits : FloatTy → Nat
  | .f16 => 16 | .bf16 => 16 | .f32 => 32

/-- Width in bits of an element (R161). -/
def NumTy.bits : NumTy → Nat
  | .int t => t.bits
  | .flt t => t.bits

/-- An integer type of R161. -/
def NumTy.isInt : NumTy → Bool
  | .int _ => true
  | .flt _ => false

/-- The integer matrix formats, which alone may set `.sat` (R176). -/
def MatFmt.isInt : MatFmt → Bool
  | .i8 | .n8 => true
  | _ => false

/-- The data register of a load or store is a `v` register exactly in the `.v` forms (R95). -/
def MemReg.fits : MemReg → Width → Bool
  | .v _, .v => true
  | .r _, .b | .r _, .h | .r _, .w | .r _, .d => true
  | _, _ => false

/-- `red` has no swap and no cas (R132). -/
def AmoOp.reduces : AmoOp → Bool
  | .swap | .cas => false
  | _ => true

/-- The number of parts k of a conversion: wider width over narrower width (R164). -/
def cvtParts (dt st : NumTy) : Nat := max dt.bits st.bits / min dt.bits st.bits

/-- The `mov` spelling of the add-immediate major: `a` = 0 or `imm13` = 0 (R103). -/
def isMovForm (a : Reg) (i : BitVec 13) : Bool := a == .g 0 || i == 0

/-- The module's compute cores (R5). -/
def coreCount : Nat := 8192

/-- Instructions and events that stand for no reserved encoding and name only parts the module has. -/
def wellFormed : Instr → Bool
  | .ld wd t _ _ _ => t.fits wd
  | .ldIdx wd t _ _ _ _ => t.fits wd
  | .st wd t _ _ _ => t.fits wd
  | .stIdx wd t _ _ _ _ => t.fits wd
  | .red _ _ op _ _ => op.reduces
  | .addImm _ a i => !isMovForm a i
  | .mov _ a i => isMovForm a i
  | .sysr _ r => r != .fexc
  | .sysw r _ => r != .itin
  | .send _ _ b npay _ => npay != 7 && (npay != 0 || b == .g 0)
  | .mma _ _ _ fmt sat _ => !sat || fmt.isInt
  | .mrot _ fmt sat => !sat || fmt.isInt
  | .mrotMem _ _ _ fmt sat => !sat || fmt.isInt
  | .mmovBf16ToV _ _ row _ => !row.getLsbD 0
  | .mmovF16ToV _ _ row _ => !row.getLsbD 0
  | .vcvt dt st rm sat _ _ p =>
    p.toNat < cvtParts dt st
      && (if dt.isInt && st.isInt then rm == .rn else !sat)
  | .vdec dt _ _ _ _ _ p => dt == .f32 || p.toNat < 2
  | .vsum ty rm sat _ _ => if ty.isInt then rm == .rn else !sat
  | .vext ty _ _ i => i.toNat * ty.bits < 256
  | .vins ty _ _ i => i.toNat * ty.bits < 256
  | .vectorComplete c | .matrixComplete c | .copyAccept c | .vectorCommandStart c => c < coreCount
  | .mrotSliceArrive c _ | .laneWordArrive c _ | .bankLoad c _ => c < coreCount
  | .copyAccess c _ _ | .copyEnd c _ => c < coreCount
  | .heldRecordEnter c => c < coreCount + 256
  | .ringStall c | .arbiterBoundary c | .spillEngineEvict c => c < coreCount
  | .taskTake c s | .taskParkTimeout c s | .stealRequest c s _ => c < coreCount && s < 15
  | .quantumExpire c s | .idleTimeout c s | .refusedResendTimeout c s => c < coreCount && s < 16
  | .contextReadyTimeout c _ => c < coreCount
  | .tumblerToken t _ | .tumblerDrainEnd t _ => t < 32
  | .repair h ch | .matchScan h ch => h < 64 && ch < 256
  | .settleWave h | .heapReleaseComplete h => h < 64
  | .stowProcess k _ | .unstowProcess k _ | .unstowPageArrive k _ _ | .objectDurable k _ => k < 4
  | .writeTurnMasks _ d p _ => d < 4 && p < 6
  | _ => true

end Sys2Proof
end

