-- ==== Sys2Proof/Decode.lean ====
section
/-!
DEFINITION. From the 64 bits of a bundle to the instructions it holds (R87 to R103, R160 to R192), total,
refusing every reserved encoding by its reason (R101); and, after it, the encoder written from the same
formats. A short bundle holds a C-slot and an A-slot instruction, a lone bundle one instruction.
-/

namespace Sys2Proof

/-! ### Field helpers -/

/-- Bits lo+n-1 to lo of x. -/
abbrev fld {w : Nat} (x : BitVec w) (lo n : Nat) : BitVec n := BitVec.extractLsb' lo n x

/-- `need c r` goes on when c holds and refuses with reason r otherwise. -/
def need (c : Bool) (r : Illegal) : Except Illegal Unit := if c then .ok () else .error r

/-- An optional value, or a refusal with reason r. -/
def orBad {α : Type} (r : Illegal) : Option α → Except Illegal α
  | some x => .ok x
  | none => .error r

/-- The specials, field values 40 to 47 (R20). -/
def Special.ofCode (n : BitVec 3) : Special :=
  if n = 0 then .slot else if n = 1 then .core else if n = 2 then .square else if n = 3 then .ward
  else if n = 4 then .lane else if n = 5 then .clkl else if n = 6 then .clkh else .level

/-- The place of a special after field value 40 (R20). -/
def Special.code : Special → BitVec 3
  | .slot => 0 | .core => 1 | .square => 2 | .ward => 3
  | .lane => 4 | .clkl => 5 | .clkh => 6 | .level => 7

/-- A 6-bit register field (R20, R90); 48 to 63 are reserved. -/
def regField (x : BitVec 6) : Except Illegal Reg :=
  if fld x 5 1 = 0 then .ok (.g (fld x 0 5))
  else if fld x 3 3 = 4 then .ok (.q (fld x 0 3))
  else if fld x 3 3 = 5 then .ok (.sp (Special.ofCode (fld x 0 3)))
  else .error .register

/-- The 6-bit value of a register field (R20). -/
def Reg.code : Reg → BitVec 6
  | .g n => (0#1 ++ n : BitVec 6)
  | .q n => (4#3 ++ n : BitVec 6)
  | .sp x => (5#3 ++ x.code : BitVec 6)

/-- A 3-bit number in a 6-bit field, whose high bits are reserved (R91). -/
def lowField (x : BitVec 6) : Except Illegal (BitVec 3) :=
  if fld x 3 3 = 0 then .ok (fld x 0 3) else .error .field

/-- A 3-bit number placed in a 6-bit field (R91). -/
def lowCode (n : BitVec 3) : BitVec 6 := (0#3 ++ n : BitVec 6)

def Width.ofCode (n : BitVec 3) : Option Width :=
  if n = 0 then some .b else if n = 1 then some .h else if n = 2 then some .w
  else if n = 3 then some .d else if n = 4 then some .v else none

def Width.code : Width → BitVec 3
  | .b => 0 | .h => 1 | .w => 2 | .d => 3 | .v => 4

def LdForm.ofCode (n : BitVec 2) : Option LdForm :=
  if n = 0 then some .plain else if n = 1 then some .waitFull else if n = 2 then some .takeEmpty else none

def LdForm.code : LdForm → BitVec 2
  | .plain => 0 | .waitFull => 1 | .takeEmpty => 2

def StForm.ofCode (n : BitVec 2) : Option StForm :=
  if n = 0 then some .plain else if n = 1 then some .fillEmpty else if n = 2 then some .setFull else none

def StForm.code : StForm → BitVec 2
  | .plain => 0 | .fillEmpty => 1 | .setFull => 2

def Scale.ofCode (n : BitVec 3) : Option Scale :=
  if n = 0 then some .x1 else if n = 1 then some .x2 else if n = 2 then some .x4
  else if n = 3 then some .x8 else if n = 4 then some .x32 else none

def Scale.code : Scale → BitVec 3
  | .x1 => 0 | .x2 => 1 | .x4 => 2 | .x8 => 3 | .x32 => 4

def AmoOp.ofCode (n : BitVec 3) : AmoOp :=
  if n = 0 then .add else if n = 1 then .and else if n = 2 then .or else if n = 3 then .xor
  else if n = 4 then .min else if n = 5 then .max else if n = 6 then .swap else .cas

def AmoOp.code : AmoOp → BitVec 3
  | .add => 0 | .and => 1 | .or => 2 | .xor => 3 | .min => 4 | .max => 5 | .swap => 6 | .cas => 7

def Scope.ofCode (n : BitVec 2) : Option Scope :=
  if n = 0 then some .core else if n = 1 then some .device else if n = 2 then some .host else none

def Scope.code : Scope → BitVec 2
  | .core => 0 | .device => 1 | .host => 2

def Cond.ofCode (n : BitVec 3) : Option Cond :=
  if n = 0 then some .eq else if n = 1 then some .ne else if n = 2 then some .lt
  else if n = 3 then some .le else if n = 4 then some .gt else if n = 5 then some .ge else none

def Cond.code : Cond → BitVec 3
  | .eq => 0 | .ne => 1 | .lt => 2 | .le => 3 | .gt => 4 | .ge => 5

def CmpTy.ofCode (n : BitVec 2) : CmpTy :=
  if n = 0 then .i64 else if n = 1 then .n64 else if n = 2 then .i32 else .n32

def CmpTy.code : CmpTy → BitVec 2
  | .i64 => 0 | .n64 => 1 | .i32 => 2 | .n32 => 3

def LiTop.ofCode (n : BitVec 2) : Option LiTop :=
  if n = 0 then some .sign else if n = 1 then some .zero else if n = 2 then some .localSpace else none

def LiTop.code : LiTop → BitVec 2
  | .sign => 0 | .zero => 1 | .localSpace => 2

/-- System register numbers of R148; 15 to 63 are reserved. -/
def SysReg.ofCode (n : BitVec 6) : Option SysReg :=
  if n = 0 then some .status else if n = 1 then some .tags else if n = 2 then some .tagerr
  else if n = 3 then some .fmtp else if n = 4 then some .sclp else if n = 5 then some .quant
  else if n = 6 then some .ownq else if n = 7 then some .lmflt else if n = 8 then some .lmaddr
  else if n = 9 then some .fexc else if n = 10 then some .ftrap else if n = 11 then some .itin
  else if n = 12 then some .asid else if n = 13 then some .level else if n = 14 then some .clock
  else none

def SysReg.code : SysReg → BitVec 6
  | .status => 0 | .tags => 1 | .tagerr => 2 | .fmtp => 3 | .sclp => 4 | .quant => 5 | .ownq => 6
  | .lmflt => 7 | .lmaddr => 8 | .fexc => 9 | .ftrap => 10 | .itin => 11 | .asid => 12 | .level => 13
  | .clock => 14

def Rm.ofCode (n : BitVec 2) : Rm :=
  if n = 0 then .rn else if n = 1 then .rz else if n = 2 then .rd else .ru

def Rm.code : Rm → BitVec 2
  | .rn => 0 | .rz => 1 | .rd => 2 | .ru => 3

def IntTy.ofCode (n : BitVec 4) : Option IntTy :=
  if n = 0 then some .i8 else if n = 1 then some .i16 else if n = 2 then some .i32
  else if n = 3 then some .i64 else if n = 4 then some .n8 else if n = 5 then some .n16
  else if n = 6 then some .n32 else if n = 7 then some .n64 else none

def IntTy.code : IntTy → BitVec 4
  | .i8 => 0 | .i16 => 1 | .i32 => 2 | .i64 => 3 | .n8 => 4 | .n16 => 5 | .n32 => 6 | .n64 => 7

def FloatTy.ofCode (n : BitVec 4) : Option FloatTy :=
  if n = 8 then some .f16 else if n = 9 then some .bf16 else if n = 10 then some .f32 else none

def FloatTy.code : FloatTy → BitVec 4
  | .f16 => 8 | .bf16 => 9 | .f32 => 10

def NumTy.ofCode (n : BitVec 4) : Option NumTy :=
  match IntTy.ofCode n with
  | some t => some (.int t)
  | none =>
    match FloatTy.ofCode n with
    | some t => some (.flt t)
    | none => none

def NumTy.code : NumTy → BitVec 4
  | .int t => t.code
  | .flt t => t.code

def MatFmt.ofCode (n : BitVec 3) : Option MatFmt :=
  if n = 0 then some .f16 else if n = 1 then some .bf16 else if n = 2 then some .c8
  else if n = 3 then some .i8 else if n = 4 then some .n8 else none

def MatFmt.code : MatFmt → BitVec 3
  | .f16 => 0 | .bf16 => 1 | .c8 => 2 | .i8 => 3 | .n8 => 4

/-! ### C-slot words (R98) -/

/-- The data register of a memory form of width w (R95). -/
def memReg (w : Width) (t : BitVec 6) : Except Illegal MemReg :=
  if w = .v then do return .v (← lowField t) else do return .r (← regField t)

/-- Register transfers, C-slot major 0x04 (R118). -/
def decodeJump (w : Half32) : Except Illegal Instr := do
  let d := fld w 19 6; let a := fld w 13 6; let b := fld w 7 6; let fn := fld w 0 7
  if fn = 0 then do
    need (d = 0 && b = 0) .field
    return .jmp (← regField a)
  else if fn = 1 then do
    need (b = 0) .field
    return .callReg (← regField d) (← regField a)
  else if fn = 2 then do
    need (d = 0 && b = 0) .field
    return .ret (← regField a)
  else if fn = 3 then do
    need (d = 0) .field
    return .brt (← regField a) (← regField b)
  else .error .function

/-- Mem-format loads and stores (R94, R95, R125). -/
def decodeMem (load : Bool) (w : Half32) : Except Illegal Instr := do
  let wd ← orBad .opcode (Width.ofCode (fld w 25 3))
  if load then do
    let f ← orBad .field (LdForm.ofCode (fld w 11 2))
    return .ld wd (← memReg wd (fld w 19 6)) (← regField (fld w 13 6)) f (fld w 0 11)
  else do
    let f ← orBad .field (StForm.ofCode (fld w 11 2))
    return .st wd (← memReg wd (fld w 19 6)) (← regField (fld w 13 6)) f (fld w 0 11)

/-- Idx-format loads and stores (R94, R95, R125). -/
def decodeIdx (load : Bool) (w : Half32) : Except Illegal Instr := do
  let wd ← orBad .opcode (Width.ofCode (fld w 25 3))
  need (fld w 0 2 = 0) .field
  let k ← orBad .field (Scale.ofCode (fld w 2 3))
  if load then do
    let f ← orBad .field (LdForm.ofCode (fld w 5 2))
    return .ldIdx wd (← memReg wd (fld w 19 6)) (← regField (fld w 13 6)) (← regField (fld w 7 6)) f k
  else do
    let f ← orBad .field (StForm.ofCode (fld w 5 2))
    return .stIdx wd (← memReg wd (fld w 19 6)) (← regField (fld w 13 6)) (← regField (fld w 7 6)) f k

/-- `amo` and `red` (R130). -/
def decodeAmo (isRed : Bool) (w : Half32) : Except Illegal Instr := do
  let op := AmoOp.ofCode (fld w 4 3)
  let c ← orBad .function (Scope.ofCode (fld w 2 2))
  if isRed then do
    need op.reduces .function
    need (fld w 19 6 = 0) .field
    return .red (← regField (fld w 13 6)) (← regField (fld w 7 6)) op c (fld w 0 2)
  else
    return .amo (← regField (fld w 19 6)) (← regField (fld w 13 6)) (← regField (fld w 7 6)) op c (fld w 0 2)

/-- The fences, C-slot major 0x15 (R133). -/
def decodeFence (w : Half32) : Except Illegal Instr := do
  let d := fld w 19 6; let a := fld w 13 6; let b := fld w 7 6; let fn := fld w 0 7
  if fn = 3 then do
    need (d = 0 && b = 0) .field
    return .fenceFar (← regField a)
  else do
    need (fn = 0 || fn = 1 || fn = 2) .function
    need (d = 0 && a = 0 && b = 0) .field
    return if fn = 0 then .fence else if fn = 1 then .fenceR else .fenceOwn

/-- `done`, `rget`, `rput`, `mig` and `home`, C-slot major 0x1D (R138). The spec does not order the reasons of a word that breaks
two rules: set reserved `fn` bits 1:0 are a field, reported before a form that is not listed (notes/assumptions/35). -/
def decodeRemote (w : Half32) : Except Illegal Instr := do
  let d := fld w 19 6; let a := fld w 13 6; let b := fld w 7 6
  let form := fld w 4 3; let fe := fld w 2 2
  need (fld w 0 2 = 0) .field
  if form = 0 then do
    need (fe = 0) .field
    need (d = 0 && a = 0 && b = 0) .field
    return .done
  else if form = 1 then do
    let f ← orBad .field (LdForm.ofCode fe)
    need (b = 0) .field
    return .rget (← regField d) (← regField a) f
  else if form = 2 then do
    let f ← orBad .field (StForm.ofCode fe)
    need (d = 0) .field
    return .rput (← regField a) (← regField b) f
  else if form = 3 then do
    need (fe = 0) .field
    need (d = 0 && b = 0) .field
    return .mig (← regField a)
  else if form = 4 then do
    need (fe = 0) .field
    need (d = 0 && a = 0 && b = 0) .field
    return .home
  else .error .function

/-- The C-slot instruction of a word whose bit 31 is clear (R98). -/
def decodeC (w : Half32) : Except Illegal Instr :=
  let op := fld w 25 6
  if op = 0x00 then do
    need (fld w 0 25 = 0) .field
    return .nop
  else if op = 0x01 then .ok (.br (fld w 24 1 = 1) (fld w 21 3) (fld w 0 21))
  else if op = 0x02 then .ok (.bra (fld w 0 25))
  else if op = 0x03 then do return .callLabel (← regField (fld w 19 6)) (fld w 0 19)
  else if op = 0x04 then decodeJump w
  else if op = 0x05 then .ok (.brq (fld w 24 1 = 1) (fld w 21 3) (fld w 0 21))
  else if op = 0x0D then do
    need (fld w 19 6 = 0 && fld w 11 2 = 0) .field
    return .feClr (← regField (fld w 13 6)) (fld w 0 11)
  else if op = 0x0E then decodeAmo false w
  else if op = 0x0F then decodeAmo true w
  else if op = 0x15 then decodeFence w
  else if op = 0x16 then do
    need (fld w 3 4 = 0) .field
    need (fld w 7 18 = 0) .field
    return .bar (fld w 0 3)
  else if op = 0x1D then decodeRemote w
  else if fld op 3 3 = 1 then decodeMem true w
  else if fld op 3 3 = 2 then decodeMem false w
  else if fld op 3 3 = 3 then decodeIdx true w
  else if fld op 3 3 = 4 then decodeIdx false w
  else .error .opcode

/-! ### A-slot words (R99) -/

/-- A-slot major 0x01 (R119). -/
def decodeAlu (w : Half32) : Except Illegal Instr := do
  let sat := fld w 2 1 = 1; let u := fld w 1 1 = 1; let n := fld w 0 1 = 1
  let k := fld w 3 4
  need (k.toNat ≤ 10) .function
  need (k = 0 || k = 1 || fld w 2 1 = 0) .field
  need (k = 0 || k = 1 || k = 9 || k = 10 || fld w 0 2 = 0) .field
  let d ← regField (fld w 19 6); let a ← regField (fld w 13 6); let b ← regField (fld w 7 6)
  return if k = 0 then .add d a b sat u n else if k = 1 then .sub d a b sat u n
    else if k = 2 then .andR d a b else if k = 3 then .orR d a b else if k = 4 then .xorR d a b
    else if k = 5 then .andn d a b else if k = 6 then .shl d a b else if k = 7 then .shr d a b
    else if k = 8 then .sar d a b else if k = 9 then .minR d a b u n else .maxR d a b u n

/-- A-slot major 0x02 (R120). -/
def decodeMul (w : Half32) : Except Illegal Instr := do
  let sat := fld w 2 1 = 1; let u := fld w 1 1 = 1; let n := fld w 0 1 = 1
  let k := fld w 3 4
  need (k.toNat ≤ 3) .function
  need (k = 0 || fld w 2 1 = 0) .field
  let d ← regField (fld w 19 6); let a ← regField (fld w 13 6); let b ← regField (fld w 7 6)
  return if k = 0 then .mul d a b sat u n else if k = 1 then .mulh d a b u n
    else if k = 2 then .div d a b u n else .rem d a b u n

/-- A-slot major 0x05 (R124). -/
def decodeBits (w : Half32) : Except Illegal Instr := do
  let k := fld w 4 3
  need (k.toNat ≤ 5) .function
  need (fld w 0 4 = 0) .field
  need (k.toNat ≤ 2 || fld w 7 6 = 0) .field
  let d ← regField (fld w 19 6); let a ← regField (fld w 13 6); let b ← regField (fld w 7 6)
  return if k = 0 then .extN64 d a b else if k = 1 then .extI64 d a b else if k = 2 then .ins d a b
    else if k = 3 then .clz d a else if k = 4 then .ctz d a else .popc d a

/-- The immediate majors 0x08 to 0x0F (R121, R103). -/
def decodeImm (w : Half32) : Except Illegal Instr := do
  let k := fld w 25 3; let i := fld w 0 13
  need (!(k = 4 || k = 5 || k = 6) || fld i 6 7 = 0) .field
  let d ← regField (fld w 19 6); let a ← regField (fld w 13 6)
  return if k = 0 then (if isMovForm a i then .mov d a i else .addImm d a i)
    else if k = 1 then .andImm d a i else if k = 2 then .orImm d a i else if k = 3 then .xorImm d a i
    else if k = 4 then .shlImm d a (fld i 0 6) else if k = 5 then .shrImm d a (fld i 0 6)
    else if k = 6 then .sarImm d a (fld i 0 6) else .mulImm d a i

/-- The A-slot instruction of a word (R99); bit 31 is reserved. Where it is set and the opcode reserved too, the spec does not
order the two reasons: the model reports the field (notes/assumptions/35). -/
def decodeA (w : Half32) : Except Illegal Instr :=
  let op := fld w 25 6
  if fld w 31 1 = 1 then .error .field
  else if op = 0x00 then do
    need (fld w 0 25 = 0) .field
    return .nop
  else if op = 0x01 then decodeAlu w
  else if op = 0x02 then decodeMul w
  else if op = 0x03 then do
    let cc ← orBad .field (Cond.ofCode (fld w 4 3))
    need (fld w 0 2 = 0) .field
    let p ← lowField (fld w 19 6)
    return .cmp p (← regField (fld w 13 6)) (← regField (fld w 7 6)) cc (CmpTy.ofCode (fld w 2 2))
  else if op = 0x04 then do
    need (fld w 4 3 = 0) .field
    return .sel (← regField (fld w 19 6)) (← regField (fld w 13 6)) (← regField (fld w 7 6))
      (fld w 3 1 = 1) (fld w 0 3)
  else if op = 0x05 then decodeBits w
  else if fld op 3 3 = 1 then decodeImm w
  else if fld op 2 4 = 4 then do
    let cc ← orBad .field (Cond.ofCode (fld w 22 3))
    return .cmpImm (fld w 19 3) (← regField (fld w 13 6)) (fld w 0 13) cc (CmpTy.ofCode (fld w 25 2))
  else .error .opcode

/-! ### Lone bundles (R96, R100) -/

/-- The system instructions, lone major 0x02 (R192). -/
def decodeSystem (w0 e : Half32) : Except Illegal Instr := do
  let d := fld w0 19 6; let a := fld w0 13 6; let b := fld w0 7 6; let fn := fld w0 0 7
  need (fn.toNat ≤ 7) .function
  need (fn = 2 || d = 0) .field
  need (!(fn = 0 || fn = 2) || a = 0) .field
  need (fn = 4 || fn = 5 || fn = 6 || b = 0) .field
  if fn = 0 then do
    need (fld e 16 16 = 0) .field
    return .trap (fld e 0 16)
  else if fn = 2 then do
    need (fld e 6 26 = 0) .field
    let r ← orBad .field (SysReg.ofCode (fld e 0 6))
    let d ← regField d
    return if r = .fexc then .sysrFexc d else .sysr d r
  else if fn = 3 then do
    need (fld e 6 26 = 0) .field
    let r ← orBad .field (SysReg.ofCode (fld e 0 6))
    let a ← regField a
    return if r = .itin then .syswItin a else .sysw r a
  else do
    need (e = 0) .field
    let a ← regField a; let b ← regField b
    return if fn = 1 then .tret a else if fn = 4 then .spill a b else if fn = 5 then .fill a b
      else if fn = 6 then .tlbinv a b else .idle a

/-- `send`, lone major 0x03 (R136). -/
def decodeSend (w0 e : Half32) : Except Illegal Instr := do
  let npay := fld w0 4 3
  need (npay != 7) .function
  need (e = 0) .field
  need (npay != 0 || fld w0 7 6 = 0) .field
  return .send (← regField (fld w0 19 6)) (← regField (fld w0 13 6)) (← regField (fld w0 7 6)) npay (fld w0 0 4)

/-- The task instructions, lone major 0x04 (R141). -/
def decodeTask (w0 e : Half32) : Except Illegal Instr := do
  let d := fld w0 19 6; let a := fld w0 13 6; let b := fld w0 7 6; let fn := fld w0 0 7
  need (fn.toNat ≤ 4) .function
  need (b = 0) .field
  if fn = 0 then do
    return .spawn (← lowField d) (← regField a) (fld e 30 2) (fld e 0 30)
  else if fn = 1 then do
    need (d = 0 && e = 0) .field
    return .sync (← regField a)
  else if fn = 2 then do
    need (d = 0 && e = 0) .field
    return .syncEnd (← regField a)
  else if fn = 3 then do
    need (fld e 2 30 = 0) .field
    return .post (← lowField d) (← regField a) (fld e 0 2)
  else do
    need (d = 0 && a = 0 && fld e 2 30 = 0) .field
    return .steal (fld e 0 2)

/-- The tumbler instructions, lone major 0x05 (R192). -/
def decodeTumbler (w0 e : Half32) : Except Illegal Instr := do
  let d := fld w0 19 6; let a := fld w0 13 6; let fn := fld w0 0 7; let t := fld e 0 5
  need (fn.toNat ≤ 4) .function
  need (fld w0 7 6 = 0 && fld e 5 27 = 0) .field
  need (fn = 0 || d = 0) .field
  need (!(fn = 0 || fn = 2) || a = 0) .field
  let d ← regField d; let a ← regField a
  return if fn = 0 then .tnum d t else if fn = 1 then .tnset t a else if fn = 2 then .tndrain t
    else if fn = 3 then .tnsave t a else .tnload t a

/-- The heap instructions, lone majors 0x08 to 0x10 (R192). -/
def decodeHeap (w0 e : Half32) : Except Illegal Instr := do
  let op := fld w0 25 6; let h := fld e 0 6
  need (fld w0 0 7 = 0) .function
  need (fld e 6 26 = 0) .field
  need (op != 0x0C || (fld w0 19 6 = 0 && fld w0 13 6 = 0)) .field
  need (op = 0x0A || op = 0x0B || op = 0x0E || fld w0 7 6 = 0) .field
  let d ← regField (fld w0 19 6); let a ← regField (fld w0 13 6); let b ← regField (fld w0 7 6)
  return if op = 0x08 then .eins d a h else if op = 0x09 then .efind d a h
    else if op = 0x0A then .emrg d a b h else if op = 0x0B then .eeq d a b h
    else if op = 0x0C then .esettle h else if op = 0x0D then .ematch d a h
    else if op = 0x0E then .ecost d a b h else if op = 0x0F then .enode d a h else .eclass d a h

/-- The matrix commands with a format, lone majors 0x18 to 0x1A (R176). -/
def decodeMatrix (w0 e : Half32) : Except Illegal Instr := do
  let op := fld w0 25 6; let d := fld w0 19 6; let a := fld w0 13 6; let b := fld w0 7 6
  if op = 0x1A then do
    need (fld w0 0 7 = 0) .function
    need (a = 0 && b = 0 && e = 0) .field
    return .mzero (← lowField d)
  else do
    let fmt ← orBad .function (MatFmt.ofCode (fld w0 4 3))
    let sat := fld w0 3 1 = 1
    need (fld w0 0 3 = 0 && (!sat || fmt.isInt)) .field
    if op = 0x18 then do
      need (fld e 6 26 = 0) .field
      return .mma (← lowField d) (← regField a) (← regField b) fmt sat (fld e 0 6)
    else do
      need (fld e 1 31 = 0) .field
      if fld e 0 1 = 0 then do
        need (a = 0 && b = 0) .field
        return .mrot (← lowField d) fmt sat
      else
        return .mrotMem (← lowField d) (← regField a) (← regField b) fmt sat

/-- `mmov`, lone major 0x1B (R180). -/
def decodeMmov (w0 e : Half32) : Except Illegal Instr := do
  let d := fld w0 19 6; let a := fld w0 13 6; let b := fld w0 7 6
  let k := fld w0 4 3
  let row := fld e 0 3; let rm := Rm.ofCode (fld e 8 2)
  need (k != 7) .function
  need (fld w0 0 4 = 0) .field
  need (fld e 10 22 = 0 && fld e 3 5 = 0) .field
  need (k = 0 || k = 1 || k = 2 || row = 0) .field
  need (!(k = 1 || k = 2) || fld e 0 1 = 0) .field
  need (k = 1 || k = 2 || k = 4 || k = 5 || fld e 8 2 = 0) .field
  if k = 0 || k = 1 || k = 2 then do
    need (b = 0) .field
    let d ← lowField d; let s ← lowField a
    return if k = 0 then .mmovF32ToV d s row else if k = 1 then .mmovBf16ToV d s row rm
      else .mmovF16ToV d s row rm
  else if k = 6 then do
    need (b = 0) .field
    return .mmovF32Load (← lowField d) (← regField a)
  else do
    need (d = 0) .field
    let a ← regField a; let s ← lowField b
    return if k = 3 then .mmovF32Store a s else if k = 4 then .mmovBf16Store a s rm
      else .mmovF16Store a s rm

/-- The fields of a vector command's `ext` word (R160). -/
structure VExt where
  auto : BitVec 1
  idx : BitVec 5
  c : BitVec 3
  sat : BitVec 1
  rm : BitVec 2
  ty2 : BitVec 4
  ty : BitVec 4
  deriving DecidableEq, Repr

/-- The `ext` word of a vector command (R160); bits 31:20 are reserved. -/
def VExt.ofWord (e : Half32) : Except Illegal VExt := do
  need (fld e 20 12 = 0) .field
  return { auto := fld e 19 1, idx := fld e 14 5, c := fld e 11 3, sat := fld e 10 1,
           rm := fld e 8 2, ty2 := fld e 4 4, ty := fld e 0 4 }

/-- Which fields of `ext` a vector form uses; the others are reserved (R160). -/
structure VUse where
  auto : Bool := false
  idx : Bool := false
  c : Bool := false
  sat : Bool := false
  rm : Bool := false
  ty2 : Bool := false
  ty : Bool := true

/-- Every field a form does not use is zero (R101, R160). -/
def VExt.checked (x : VExt) (u : VUse) : Bool :=
  (u.auto || x.auto == 0) && (u.idx || x.idx == 0) && (u.c || x.c == 0) && (u.sat || x.sat == 0)
    && (u.rm || x.rm == 0) && (u.ty2 || x.ty2 == 0) && (u.ty || x.ty == 0)

/-- Vector float arithmetic, major 0x28 (R162). -/
def decodeVFloat (w0 : Half32) (x : VExt) : Except Illegal Instr := do
  let fn := fld w0 0 7; let rm := Rm.ofCode x.rm
  need (fn.toNat ≤ 13) .function
  need (x.checked { c := fn = 4, rm := fn.toNat ≤ 4 || fn = 7 }) .field
  need (!(fn = 7 || fn = 8 || fn = 9) || fld w0 7 6 = 0) .field
  let ty ← orBad .field (FloatTy.ofCode x.ty)
  let d ← lowField (fld w0 19 6); let a ← lowField (fld w0 13 6); let b ← lowField (fld w0 7 6)
  return if fn = 0 then .vaddF ty rm d a b else if fn = 1 then .vsubF ty rm d a b
    else if fn = 2 then .vmulF ty rm d a b else if fn = 3 then .vdiv ty rm d a b
    else if fn = 4 then .vfma ty rm d a b x.c else if fn = 5 then .vminF ty d a b
    else if fn = 6 then .vmaxF ty d a b else if fn = 7 then .vsqrt ty rm d a
    else if fn = 8 then .vneg ty d a else if fn = 9 then .vabs ty d a
    else if fn = 10 then .vcmpEq ty d a b else if fn = 11 then .vcmpLt ty d a b
    else if fn = 12 then .vcmpLe ty d a b else .vcmpUn ty d a b

/-- Vector integer, major 0x29 (R163). -/
def decodeVInt (w0 : Half32) (x : VExt) : Except Illegal Instr := do
  let fn := fld w0 0 7; let sat := x.sat = 1
  need (fn.toNat ≤ 10) .function
  need (x.checked { sat := fn.toNat ≤ 2 }) .field
  let ty ← orBad .field (IntTy.ofCode x.ty)
  let d ← lowField (fld w0 19 6); let a ← lowField (fld w0 13 6); let b ← lowField (fld w0 7 6)
  return if fn = 0 then .vaddI ty sat d a b else if fn = 1 then .vsubI ty sat d a b
    else if fn = 2 then .vmulI ty sat d a b else if fn = 3 then .vminI ty d a b
    else if fn = 4 then .vmaxI ty d a b else if fn = 5 then .vand ty d a b
    else if fn = 6 then .vor ty d a b else if fn = 7 then .vxor ty d a b
    else if fn = 8 then .vshl ty d a b else if fn = 9 then .vshr ty d a b else .vsar ty d a b

/-- Conversions, `vdec` and `venc`, major 0x2A (R164 to R166). -/
def decodeVConv (w0 : Half32) (x : VExt) : Except Illegal Instr := do
  let fn := fld w0 0 7
  need (fn.toNat ≤ 2) .function
  let d ← lowField (fld w0 19 6); let a ← lowField (fld w0 13 6); let b ← lowField (fld w0 7 6)
  let t := fld x.idx 3 2; let p := fld x.idx 0 3
  if fn = 0 then do
    let dt ← orBad .field (NumTy.ofCode x.ty); let st ← orBad .field (NumTy.ofCode x.ty2)
    let ints := dt.isInt && st.isInt
    need (x.checked { idx := true, ty2 := true, rm := !ints, sat := ints }) .field
    need (b = 0 && t = 0 && p.toNat < cvtParts dt st) .field
    return .vcvt dt st (Rm.ofCode x.rm) (x.sat = 1) d a p
  else if fn = 1 then do
    let dt ← orBad .field (FloatTy.ofCode x.ty)
    need (x.checked { idx := true, ty2 := true, rm := true }) .field
    need (x.ty2 = 11 && (if dt = .f32 then p.toNat < 4 else p.toNat < 2)) .field
    return .vdec dt (Rm.ofCode x.rm) d a b t (fld p 0 2)
  else do
    need (x.checked { auto := true, idx := true, ty2 := true }) .field
    need (x.ty = 11 && x.ty2 = 10 && p.toNat < 4) .field
    return .venc (x.auto = 1) d a b t (fld p 0 2)

/-- Block scales, major 0x2B (R167). -/
def decodeVScale (w0 : Half32) (x : VExt) : Except Illegal Instr := do
  let fn := fld w0 0 7
  need (fn.toNat ≤ 1) .function
  let d ← lowField (fld w0 19 6); let a ← lowField (fld w0 13 6); let b ← lowField (fld w0 7 6)
  let t := fld x.idx 3 2; let p := fld x.idx 0 3
  need (x.checked { idx := true, rm := fn = 0 } && x.ty = 10 && p.toNat < 4) .field
  need (fn = 0 || b = 0) .field
  return if fn = 0 then .vscl (Rm.ofCode x.rm) d a b t (fld p 0 2) else .vsauto d a t (fld p 0 2)

/-- Reductions, major 0x2C (R168). -/
def decodeVReduce (w0 : Half32) (x : VExt) : Except Illegal Instr := do
  let fn := fld w0 0 7
  need (fn.toNat ≤ 2) .function
  let ty ← orBad .field (NumTy.ofCode x.ty)
  need (x.checked { rm := fn = 0 && !ty.isInt, sat := fn = 0 && ty.isInt }) .field
  need (fld w0 7 6 = 0) .field
  let d ← regField (fld w0 19 6); let a ← lowField (fld w0 13 6)
  return if fn = 0 then .vsum ty (Rm.ofCode x.rm) (x.sat = 1) d a else if fn = 1 then .vrmax ty d a
    else .vrmin ty d a

/-- Permutes, major 0x2D (R169). -/
def decodeVPermute (w0 : Half32) (x : VExt) : Except Illegal Instr := do
  let d := fld w0 19 6; let a := fld w0 13 6; let b := fld w0 7 6; let fn := fld w0 0 7
  need (fn.toNat ≤ 5) .function
  let typed := fn = 1 || fn = 2 || fn = 3
  need (x.checked { idx := fn = 2 || fn = 3, c := fn = 4, ty := typed }) .field
  need (fn = 0 || fn = 4 || b = 0) .field
  if fn = 1 then do
    return .vbcast (← orBad .field (NumTy.ofCode x.ty)) (← lowField d) (← regField a)
  else if fn = 2 then do
    let ty ← orBad .field (NumTy.ofCode x.ty)
    need (x.idx.toNat * ty.bits < 256) .field
    return .vext ty (← regField d) (← lowField a) x.idx
  else if fn = 3 then do
    let ty ← orBad .field (NumTy.ofCode x.ty)
    need (x.idx.toNat * ty.bits < 256) .field
    return .vins ty (← lowField d) (← regField a) x.idx
  else do
    let d ← lowField d; let a ← lowField a; let b ← lowField b
    return if fn = 0 then .vperm d a b else if fn = 4 then .vsel d a b x.c else .vmov d a

/-- Approximations, major 0x2E (R170). -/
def decodeVApprox (w0 : Half32) (x : VExt) : Except Illegal Instr := do
  let fn := fld w0 0 7
  need (fn.toNat ≤ 2) .function
  need (x.checked {} && x.ty = 10 && fld w0 7 6 = 0) .field
  let d ← lowField (fld w0 19 6); let a ← lowField (fld w0 13 6)
  return if fn = 0 then .vrcp d a else if fn = 1 then .vrsqrt d a else .vexp2 d a

/-- The copy engine's instructions, lone majors 0x20 to 0x23 (R187, R190). -/
def decodeCopy (w0 e : Half32) : Except Illegal Instr := do
  let op := fld w0 25 6; let d := fld w0 19 6; let a := fld w0 13 6
  need (fld w0 0 7 = 0) .function
  need (fld w0 7 6 = 0) .field
  if op = 0x20 then do
    need (d = 0 && fld e 6 26 = 0) .field
    return .cpy (fld e 0 6) (← lowField a)
  else do
    need (e = 0 && (op != 0x21 || d = 0)) .field
    let d ← regField d; let a ← regField a
    return if op = 0x21 then .cwait a else if op = 0x22 then .cany d a else .cfirst d a

/-- The lone instruction of a bundle whose first word has bit 31 set (R96, R100). -/
def decodeLone (w0 e : Half32) : Except Illegal Instr :=
  let op := fld w0 25 6
  if op = 0x00 then do
    need (fld w0 0 25 = 0 && e = 0) .field
    return .once
  else if op = 0x01 then do
    let hx ← orBad .field (LiTop.ofCode (fld w0 17 2))
    need (fld w0 16 1 = 0) .field
    return .li (← regField (fld w0 19 6)) hx (fld w0 0 16 ++ e)
  else if op = 0x02 then decodeSystem w0 e
  else if op = 0x03 then decodeSend w0 e
  else if op = 0x04 then decodeTask w0 e
  else if op = 0x05 then decodeTumbler w0 e
  else if op = 0x06 then do
    let fn := fld w0 0 7
    need (fn = 0 || fn = 1) .function
    need (fld w0 19 6 = 0 && fld w0 7 6 = 0 && e = 0) .field
    let a ← regField (fld w0 13 6)
    return if fn = 0 then .stow a else .unstow a
  else if fld op 3 3 = 1 || op = 0x10 then decodeHeap w0 e
  else if op = 0x18 || op = 0x19 || op = 0x1A then decodeMatrix w0 e
  else if op = 0x1B then decodeMmov w0 e
  else if op = 0x1C then do
    need (fld w0 0 7 = 0) .function
    need (fld w0 7 12 = 0 && e = 0) .field
    return .mtab (← lowField (fld w0 19 6))
  else if fld op 2 4 = 8 then decodeCopy w0 e
  else if op = 0x28 then do decodeVFloat w0 (← VExt.ofWord e)
  else if op = 0x29 then do decodeVInt w0 (← VExt.ofWord e)
  else if op = 0x2A then do decodeVConv w0 (← VExt.ofWord e)
  else if op = 0x2B then do decodeVScale w0 (← VExt.ofWord e)
  else if op = 0x2C then do decodeVReduce w0 (← VExt.ofWord e)
  else if op = 0x2D then do decodeVPermute w0 (← VExt.ofWord e)
  else if op = 0x2E then do decodeVApprox w0 (← VExt.ofWord e)
  else .error .opcode

/-! ### Bundles (R87) -/

/-- The instructions of a bundle: two short ones, or one lone one. -/
inductive Bundle where
  | short (c a : Instr)
  | lone (i : Instr)
  deriving DecidableEq, Repr

/-- Decode one half, naming the half in a refusal (R93). -/
def inPart {α : Type} (p : Part) : Except Illegal α → Except (Illegal × Part) α
  | .ok x => .ok x
  | .error r => .error (r, p)

/-- The bundle held in 64 bits read little-endian (R87): the first word is bits 31:0. A reserved
encoding is refused with its reason and half; the C-slot half is checked first (R93, R101). -/
def decodeBundle (b : Word) : Except (Illegal × Part) Bundle :=
  let w0 : Half32 := fld b 0 32
  let w1 : Half32 := fld b 32 32
  if fld b 31 1 = 1 then do
    return .lone (← inPart .lone (decodeLone w0 w1))
  else do
    let c ← inPart .c (decodeC w0)
    let a ← inPart .a (decodeA w1)
    return .short c a

/-! ### The encoder -/

/-- The code of one instruction: a word of one half, or a whole lone bundle. -/
inductive Code where
  | c (w : Half32)
  | a (w : Half32)
  | lone (w0 w1 : Half32)
  deriving DecidableEq, Repr

/-- Decode the code of one instruction. -/
def decodeCode : Code → Except Illegal Instr
  | .c w => decodeC w
  | .a w => decodeA w
  | .lone w0 w1 => decodeLone w0 w1

/-- Reg and Ext first words (R94, R96): bit 31, `op`, `d`, `a`, `b`, `fn`. -/
def fmtReg (l : BitVec 1) (op d a b : BitVec 6) (fn : BitVec 7) : Half32 := l ++ op ++ d ++ a ++ b ++ fn

/-- The Imm format (R94). -/
def fmtImm (op d a : BitVec 6) (i : BitVec 13) : Half32 := 0#1 ++ op ++ d ++ a ++ i

/-- The Cmp format (R94). -/
def fmtCmp (op : BitVec 6) (cc p : BitVec 3) (a : BitVec 6) (i : BitVec 13) : Half32 :=
  0#1 ++ op ++ cc ++ p ++ a ++ i

/-- The Mem format (R94). -/
def fmtMem (op t b : BitVec 6) (fe : BitVec 2) (o : BitVec 11) : Half32 := 0#1 ++ op ++ t ++ b ++ fe ++ o

/-- The Idx format (R94). -/
def fmtIdx (op t b x : BitVec 6) (fe : BitVec 2) (sc : BitVec 3) : Half32 :=
  0#1 ++ op ++ t ++ b ++ x ++ fe ++ sc ++ 0#2

/-- The Brc format (R94). -/
def fmtBrc (op : BitVec 6) (s : Bool) (p : BitVec 3) (o : BitVec 21) : Half32 :=
  0#1 ++ op ++ BitVec.ofBool s ++ p ++ o

/-- The Link format (R94). -/
def fmtLink (op d : BitVec 6) (o : BitVec 19) : Half32 := 0#1 ++ op ++ d ++ o

/-- The Far format (R94). -/
def fmtFar (op : BitVec 6) (o : BitVec 25) : Half32 := 0#1 ++ op ++ o

/-- The first word of the Long format (R96). -/
def fmtLong (op d : BitVec 6) (hx : BitVec 2) (hi : BitVec 16) : Half32 := 1#1 ++ op ++ d ++ hx ++ 0#1 ++ hi

/-- The `ext` word of a vector command (R160). -/
def VExt.word (x : VExt) : Half32 :=
  0#12 ++ x.auto ++ x.idx ++ x.c ++ x.sat ++ x.rm ++ x.ty2 ++ x.ty

/-- No field set. -/
def VExt.zero : VExt := { auto := 0, idx := 0, c := 0, sat := 0, rm := 0, ty2 := 0, ty := 0 }

/-- The 6-bit data register field of a memory form (R95). -/
def MemReg.code : MemReg → BitVec 6
  | .r x => x.code
  | .v n => lowCode n

/-- `fn` of the typed operations of R119 and R120: operation, `.sat`, unsigned, 32-bit. -/
def fnAlu (k : BitVec 4) (sat uns w32 : Bool) : BitVec 7 :=
  k ++ BitVec.ofBool sat ++ BitVec.ofBool uns ++ BitVec.ofBool w32

def codeAlu (op : BitVec 6) (k : BitVec 4) (d a b : Reg) (sat uns w32 : Bool) : Code :=
  .a (fmtReg 0 op d.code a.code b.code (fnAlu k sat uns w32))

def codeImm (op : BitVec 6) (d a : Reg) (i : BitVec 13) : Code := .a (fmtImm op d.code a.code i)

def codeBits (k : BitVec 3) (d a : Reg) (b : BitVec 6) : Code := .a (fmtReg 0 0x05 d.code a.code b (k ++ 0#4))

/-- A lone Ext bundle (R96). -/
def codeExt (op d a b : BitVec 6) (fn : BitVec 7) (e : Half32) : Code := .lone (fmtReg 1 op d a b fn) e

/-- A vector command naming `v` registers only (R160). -/
def codeV (op : BitVec 6) (d a b : BitVec 3) (fn : BitVec 7) (x : VExt) : Code :=
  codeExt op (lowCode d) (lowCode a) (lowCode b) fn x.word

def codeHeap (op d a b : BitVec 6) (h : BitVec 6) : Code := codeExt op d a b 0 (0#26 ++ h)

def codeTumbler (d a : BitVec 6) (fn : BitVec 7) (t : BitVec 5) : Code := codeExt 0x05 d a 0 fn (0#27 ++ t)

def codeMmov (k : BitVec 3) (d a b : BitVec 6) (rm : BitVec 2) (row : BitVec 3) : Code :=
  codeExt 0x1B d a b (k ++ 0#4) (0#22 ++ rm ++ 0#5 ++ row)

/-- The `fn` of a matrix command (R176). -/
def fnMat (fmt : MatFmt) (sat : Bool) : BitVec 7 := fmt.code ++ BitVec.ofBool sat ++ 0#3

/-- The scale-group field t and part p of R160. -/
def idxTP (t p : BitVec 2) : BitVec 5 := t ++ 0#1 ++ p

/-- The code of an instruction, written from the formats and the opcode maps (R94 to R100, R160, R192);
events and commands have none. -/
def encode : Instr → Option Code
  | .nop => some (.c 0)
  | .br s p o => some (.c (fmtBrc 0x01 s p o))
  | .bra o => some (.c (fmtFar 0x02 o))
  | .callLabel d o => some (.c (fmtLink 0x03 d.code o))
  | .jmp a => some (.c (fmtReg 0 0x04 0 a.code 0 0))
  | .callReg d a => some (.c (fmtReg 0 0x04 d.code a.code 0 1))
  | .ret a => some (.c (fmtReg 0 0x04 0 a.code 0 2))
  | .brt a b => some (.c (fmtReg 0 0x04 0 a.code b.code 3))
  | .brq s q o => some (.c (fmtBrc 0x05 s q o))
  | .ld wd t b f o => some (.c (fmtMem (1#3 ++ wd.code) t.code b.code f.code o))
  | .ldIdx wd t b x f k => some (.c (fmtIdx (3#3 ++ wd.code) t.code b.code x.code f.code k.code))
  | .st wd t b f o => some (.c (fmtMem (2#3 ++ wd.code) t.code b.code f.code o))
  | .stIdx wd t b x f k => some (.c (fmtIdx (4#3 ++ wd.code) t.code b.code x.code f.code k.code))
  | .feClr b o => some (.c (fmtMem 0x0D 0 b.code 0 o))
  | .amo d a b op c f => some (.c (fmtReg 0 0x0E d.code a.code b.code (op.code ++ c.code ++ f)))
  | .red a b op c f => some (.c (fmtReg 0 0x0F 0 a.code b.code (op.code ++ c.code ++ f)))
  | .fence => some (.c (fmtReg 0 0x15 0 0 0 0))
  | .fenceR => some (.c (fmtReg 0 0x15 0 0 0 1))
  | .fenceOwn => some (.c (fmtReg 0 0x15 0 0 0 2))
  | .fenceFar a => some (.c (fmtReg 0 0x15 0 a.code 0 3))
  | .bar n => some (.c (fmtReg 0 0x16 0 0 0 (0#4 ++ n)))
  | .done => some (.c (fmtReg 0 0x1D 0 0 0 0))
  | .rget d a f => some (.c (fmtReg 0 0x1D d.code a.code 0 (1#3 ++ f.code ++ 0#2)))
  | .rput a b f => some (.c (fmtReg 0 0x1D 0 a.code b.code (2#3 ++ f.code ++ 0#2)))
  | .mig a => some (.c (fmtReg 0 0x1D 0 a.code 0 (3#3 ++ 0#4)))
  | .home => some (.c (fmtReg 0 0x1D 0 0 0 (4#3 ++ 0#4)))
  | .add d a b sat uns w32 => some (codeAlu 0x01 0 d a b sat uns w32)
  | .sub d a b sat uns w32 => some (codeAlu 0x01 1 d a b sat uns w32)
  | .andR d a b => some (codeAlu 0x01 2 d a b false false false)
  | .orR d a b => some (codeAlu 0x01 3 d a b false false false)
  | .xorR d a b => some (codeAlu 0x01 4 d a b false false false)
  | .andn d a b => some (codeAlu 0x01 5 d a b false false false)
  | .shl d a b => some (codeAlu 0x01 6 d a b false false false)
  | .shr d a b => some (codeAlu 0x01 7 d a b false false false)
  | .sar d a b => some (codeAlu 0x01 8 d a b false false false)
  | .minR d a b uns w32 => some (codeAlu 0x01 9 d a b false uns w32)
  | .maxR d a b uns w32 => some (codeAlu 0x01 10 d a b false uns w32)
  | .mul d a b sat uns w32 => some (codeAlu 0x02 0 d a b sat uns w32)
  | .mulh d a b uns w32 => some (codeAlu 0x02 1 d a b false uns w32)
  | .div d a b uns w32 => some (codeAlu 0x02 2 d a b false uns w32)
  | .rem d a b uns w32 => some (codeAlu 0x02 3 d a b false uns w32)
  | .cmp p a b cc ty => some (.a (fmtReg 0 0x03 (lowCode p) a.code b.code (cc.code ++ ty.code ++ 0#2)))
  | .cmpImm p a i cc ty => some (.a (fmtCmp (4#4 ++ ty.code) cc.code p a.code i))
  | .sel d a b s p => some (.a (fmtReg 0 0x04 d.code a.code b.code (0#3 ++ BitVec.ofBool s ++ p)))
  | .extN64 d a b => some (codeBits 0 d a b.code)
  | .extI64 d a b => some (codeBits 1 d a b.code)
  | .ins d a b => some (codeBits 2 d a b.code)
  | .clz d a => some (codeBits 3 d a 0)
  | .ctz d a => some (codeBits 4 d a 0)
  | .popc d a => some (codeBits 5 d a 0)
  | .addImm d a i => some (codeImm 0x08 d a i)
  | .mov d a i => some (codeImm 0x08 d a i)
  | .andImm d a i => some (codeImm 0x09 d a i)
  | .orImm d a i => some (codeImm 0x0A d a i)
  | .xorImm d a i => some (codeImm 0x0B d a i)
  | .shlImm d a k => some (codeImm 0x0C d a (0#7 ++ k))
  | .shrImm d a k => some (codeImm 0x0D d a (0#7 ++ k))
  | .sarImm d a k => some (codeImm 0x0E d a (0#7 ++ k))
  | .mulImm d a i => some (codeImm 0x0F d a i)
  | .once => some (.lone (fmtReg 1 0x00 0 0 0 0) 0)
  | .li d hx imm => some (.lone (fmtLong 0x01 d.code hx.code (fld imm 32 16)) (fld imm 0 32))
  | .trap n => some (codeExt 0x02 0 0 0 0 (0#16 ++ n))
  | .tret a => some (codeExt 0x02 0 a.code 0 1 0)
  | .sysr d r => some (codeExt 0x02 d.code 0 0 2 (0#26 ++ r.code))
  | .sysw r a => some (codeExt 0x02 0 a.code 0 3 (0#26 ++ r.code))
  | .sysrFexc d => some (codeExt 0x02 d.code 0 0 2 (0#26 ++ SysReg.fexc.code))
  | .syswItin a => some (codeExt 0x02 0 a.code 0 3 (0#26 ++ SysReg.itin.code))
  | .spill a b => some (codeExt 0x02 0 a.code b.code 4 0)
  | .fill a b => some (codeExt 0x02 0 a.code b.code 5 0)
  | .tlbinv a b => some (codeExt 0x02 0 a.code b.code 6 0)
  | .idle a => some (codeExt 0x02 0 a.code 0 7 0)
  | .send d a b npay tag => some (codeExt 0x03 d.code a.code b.code (npay ++ tag) 0)
  | .spawn p a k o => some (codeExt 0x04 (lowCode p) a.code 0 0 (k ++ o))
  | .sync a => some (codeExt 0x04 0 a.code 0 1 0)
  | .syncEnd a => some (codeExt 0x04 0 a.code 0 2 0)
  | .post p a k => some (codeExt 0x04 (lowCode p) a.code 0 3 (0#30 ++ k))
  | .steal r => some (codeExt 0x04 0 0 0 4 (0#30 ++ r))
  | .tnum d t => some (codeTumbler d.code 0 0 t)
  | .tnset t a => some (codeTumbler 0 a.code 1 t)
  | .tndrain t => some (codeTumbler 0 0 2 t)
  | .tnsave t a => some (codeTumbler 0 a.code 3 t)
  | .tnload t a => some (codeTumbler 0 a.code 4 t)
  | .stow a => some (codeExt 0x06 0 a.code 0 0 0)
  | .unstow a => some (codeExt 0x06 0 a.code 0 1 0)
  | .eins d a h => some (codeHeap 0x08 d.code a.code 0 h)
  | .efind d a h => some (codeHeap 0x09 d.code a.code 0 h)
  | .emrg d a b h => some (codeHeap 0x0A d.code a.code b.code h)
  | .eeq d a b h => some (codeHeap 0x0B d.code a.code b.code h)
  | .esettle h => some (codeHeap 0x0C 0 0 0 h)
  | .ematch d a h => some (codeHeap 0x0D d.code a.code 0 h)
  | .ecost d a b h => some (codeHeap 0x0E d.code a.code b.code h)
  | .enode d a h => some (codeHeap 0x0F d.code a.code 0 h)
  | .eclass d a h => some (codeHeap 0x10 d.code a.code 0 h)
  | .mma d a b fmt sat n => some (codeExt 0x18 (lowCode d) a.code b.code (fnMat fmt sat) (0#26 ++ n))
  | .mrot d fmt sat => some (codeExt 0x19 (lowCode d) 0 0 (fnMat fmt sat) 0)
  | .mrotMem d a b fmt sat => some (codeExt 0x19 (lowCode d) a.code b.code (fnMat fmt sat) 1)
  | .mzero d => some (codeExt 0x1A (lowCode d) 0 0 0 0)
  | .mmovF32ToV d acc row => some (codeMmov 0 (lowCode d) (lowCode acc) 0 0 row)
  | .mmovBf16ToV d acc row rm => some (codeMmov 1 (lowCode d) (lowCode acc) 0 rm.code row)
  | .mmovF16ToV d acc row rm => some (codeMmov 2 (lowCode d) (lowCode acc) 0 rm.code row)
  | .mmovF32Store a acc => some (codeMmov 3 0 a.code (lowCode acc) 0 0)
  | .mmovBf16Store a acc rm => some (codeMmov 4 0 a.code (lowCode acc) rm.code 0)
  | .mmovF16Store a acc rm => some (codeMmov 5 0 a.code (lowCode acc) rm.code 0)
  | .mmovF32Load d a => some (codeMmov 6 (lowCode d) a.code 0 0 0)
  | .mtab p => some (codeExt 0x1C (lowCode p) 0 0 0 0)
  | .cpy t vf => some (codeExt 0x20 0 (lowCode vf) 0 0 (0#26 ++ t))
  | .cwait a => some (codeExt 0x21 0 a.code 0 0 0)
  | .cany d a => some (codeExt 0x22 d.code a.code 0 0 0)
  | .cfirst d a => some (codeExt 0x23 d.code a.code 0 0 0)
  | .vaddF ty rm d a b => some (codeV 0x28 d a b 0 { VExt.zero with ty := ty.code, rm := rm.code })
  | .vsubF ty rm d a b => some (codeV 0x28 d a b 1 { VExt.zero with ty := ty.code, rm := rm.code })
  | .vmulF ty rm d a b => some (codeV 0x28 d a b 2 { VExt.zero with ty := ty.code, rm := rm.code })
  | .vdiv ty rm d a b => some (codeV 0x28 d a b 3 { VExt.zero with ty := ty.code, rm := rm.code })
  | .vfma ty rm d a b c => some (codeV 0x28 d a b 4 { VExt.zero with ty := ty.code, rm := rm.code, c := c })
  | .vminF ty d a b => some (codeV 0x28 d a b 5 { VExt.zero with ty := ty.code })
  | .vmaxF ty d a b => some (codeV 0x28 d a b 6 { VExt.zero with ty := ty.code })
  | .vsqrt ty rm d a => some (codeV 0x28 d a 0 7 { VExt.zero with ty := ty.code, rm := rm.code })
  | .vneg ty d a => some (codeV 0x28 d a 0 8 { VExt.zero with ty := ty.code })
  | .vabs ty d a => some (codeV 0x28 d a 0 9 { VExt.zero with ty := ty.code })
  | .vcmpEq ty d a b => some (codeV 0x28 d a b 10 { VExt.zero with ty := ty.code })
  | .vcmpLt ty d a b => some (codeV 0x28 d a b 11 { VExt.zero with ty := ty.code })
  | .vcmpLe ty d a b => some (codeV 0x28 d a b 12 { VExt.zero with ty := ty.code })
  | .vcmpUn ty d a b => some (codeV 0x28 d a b 13 { VExt.zero with ty := ty.code })
  | .vaddI ty sat d a b => some (codeV 0x29 d a b 0 { VExt.zero with ty := ty.code, sat := BitVec.ofBool sat })
  | .vsubI ty sat d a b => some (codeV 0x29 d a b 1 { VExt.zero with ty := ty.code, sat := BitVec.ofBool sat })
  | .vmulI ty sat d a b => some (codeV 0x29 d a b 2 { VExt.zero with ty := ty.code, sat := BitVec.ofBool sat })
  | .vminI ty d a b => some (codeV 0x29 d a b 3 { VExt.zero with ty := ty.code })
  | .vmaxI ty d a b => some (codeV 0x29 d a b 4 { VExt.zero with ty := ty.code })
  | .vand ty d a b => some (codeV 0x29 d a b 5 { VExt.zero with ty := ty.code })
  | .vor ty d a b => some (codeV 0x29 d a b 6 { VExt.zero with ty := ty.code })
  | .vxor ty d a b => some (codeV 0x29 d a b 7 { VExt.zero with ty := ty.code })
  | .vshl ty d a b => some (codeV 0x29 d a b 8 { VExt.zero with ty := ty.code })
  | .vshr ty d a b => some (codeV 0x29 d a b 9 { VExt.zero with ty := ty.code })
  | .vsar ty d a b => some (codeV 0x29 d a b 10 { VExt.zero with ty := ty.code })
  | .vcvt dt st rm sat d a p => some (codeV 0x2A d a 0 0
      { VExt.zero with ty := dt.code, ty2 := st.code, rm := rm.code, sat := BitVec.ofBool sat, idx := 0#2 ++ p })
  | .vdec dt rm d a b t p => some (codeV 0x2A d a b 1
      { VExt.zero with ty := dt.code, ty2 := 11, rm := rm.code, idx := idxTP t p })
  | .venc auto d a b t p => some (codeV 0x2A d a b 2
      { VExt.zero with ty := 11, ty2 := 10, auto := BitVec.ofBool auto, idx := idxTP t p })
  | .vscl rm d a b t p => some (codeV 0x2B d a b 0 { VExt.zero with ty := 10, rm := rm.code, idx := idxTP t p })
  | .vsauto d a t p => some (codeV 0x2B d a 0 1 { VExt.zero with ty := 10, idx := idxTP t p })
  | .vsum ty rm sat d a => some (codeExt 0x2C d.code (lowCode a) 0 0
      { VExt.zero with ty := ty.code, rm := rm.code, sat := BitVec.ofBool sat }.word)
  | .vrmax ty d a => some (codeExt 0x2C d.code (lowCode a) 0 1 { VExt.zero with ty := ty.code }.word)
  | .vrmin ty d a => some (codeExt 0x2C d.code (lowCode a) 0 2 { VExt.zero with ty := ty.code }.word)
  | .vperm d a b => some (codeV 0x2D d a b 0 VExt.zero)
  | .vbcast ty d a => some (codeExt 0x2D (lowCode d) a.code 0 1 { VExt.zero with ty := ty.code }.word)
  | .vext ty d a i => some (codeExt 0x2D d.code (lowCode a) 0 2 { VExt.zero with ty := ty.code, idx := i }.word)
  | .vins ty d a i => some (codeExt 0x2D (lowCode d) a.code 0 3 { VExt.zero with ty := ty.code, idx := i }.word)
  | .vsel d a b c => some (codeV 0x2D d a b 4 { VExt.zero with c := c })
  | .vmov d a => some (codeV 0x2D d a 0 5 VExt.zero)
  | .vrcp d a => some (codeV 0x2E d a 0 0 { VExt.zero with ty := 10 })
  | .vrsqrt d a => some (codeV 0x2E d a 0 1 { VExt.zero with ty := 10 })
  | .vexp2 d a => some (codeV 0x2E d a 0 2 { VExt.zero with ty := 10 })
  | _ => none

/-- Whether a term is an instruction of a bundle; the others are events and commands. -/
def isInstruction (i : Instr) : Bool := (encode i).isSome

/-! ### The host's question -/

/-- The bundle that holds, as the hardware stores it, an instruction whose bits the opcode table gives
as w (R87): a word of 32 bits is the second word of a bundle whose first word is `nop` where it is an
A-slot word, and otherwise the first word of a bundle whose second word is `nop`. The table does not say
in which slot a 32-bit row stands, so a word that both maps hold is read as an A-slot word: most rows of 32
bits are. -/
def tableBundle (nbits w : Nat) : Word :=
  let low : Word := BitVec.ofNat 64 (w % 2 ^ nbits)
  if nbits ≤ 32 then
    if fld low 31 1 = 1 then low
    else
      match decodeA (fld low 0 32) with
      | .ok _ => low <<< 32
      | .error _ => low
  else low

/-- The instruction that a bundle runs for the table's row: the lone one, the C-slot one, or the A-slot
one where the C-slot half is `nop`. -/
def decodeTableWord (nbits w : Nat) : Option Instr :=
  match decodeBundle (tableBundle nbits w) with
  | .ok (.lone i) => some i
  | .ok (.short .nop a) => some a
  | .ok (.short c _) => some c
  | .error _ => none

end Sys2Proof
end

