-- ==== Sys2Proof/Machine/Flags.lean ====
section
/-!
DEFINITION. The arithmetic promise: integer narrowing (R64), float formats and values (R62, R63), `Round`
(R65, R66), the IEEE operations with their flags (R67), conversions (R68), the approximations (R170). A
result is a pair of bits and flags; flags stand at the places of R69.
-/

namespace Sys2Proof.Machine

/-! ### Flags (R69) -/

abbrev FlagBits := BitVec 6

def nx : FlagBits := 1
def uf : FlagBits := 2
def off : FlagBits := 4
def dz : FlagBits := 8
def nv : FlagBits := 16
def sv : FlagBits := 32

/-! ### Integers (R64) -/

/-- A w-bit pattern read as signed or unsigned. -/
def readInt (signed : Bool) (w n : Nat) : Int :=
  let m := n % 2 ^ w
  if signed && decide (2 ^ (w - 1) ≤ m) then (m : Int) - 2 ^ w else m

/-- The w-bit pattern of an integer, modulo 2^w. -/
def wrapInt (w : Nat) (e : Int) : Nat := (e % (2 ^ w : Int)).toNat

/-- Bring an exact integer to w bits: wrap, or clamp with `sv` (R64). -/
def narrow (signed sat : Bool) (w : Nat) (e : Int) : Nat × FlagBits :=
  if !sat then (wrapInt w e, 0)
  else
    let lo : Int := if signed then -(2 ^ (w - 1)) else 0
    let hi : Int := if signed then 2 ^ (w - 1) - 1 else 2 ^ w - 1
    if e < lo then (wrapInt w lo, sv) else if hi < e then (wrapInt w hi, sv) else (wrapInt w e, 0)

/-- Extend a w-bit pattern to 64 bits (R36). -/
def extend (signed : Bool) (w n : Nat) : Word := BitVec.ofInt 64 (readInt signed w n)

/-! ### Float formats (R62) -/

/-- Exponent and fraction widths of a format; the bias is 2^(eb-1) - 1. -/
structure Fmt where
  eb : Nat
  fb : Nat
  deriving DecidableEq, Repr

def fp32 : Fmt := { eb := 8, fb := 23 }
def fp16 : Fmt := { eb := 5, fb := 10 }
def bf16 : Fmt := { eb := 8, fb := 7 }
def e8m10 : Fmt := { eb := 8, fb := 10 }
/-- F32S of R170. -/
def f32s : Fmt := { eb := 8, fb := 15 }

def fmtOf : FloatTy → Fmt
  | .f16 => fp16
  | .bf16 => bf16
  | .f32 => fp32

def Fmt.width (f : Fmt) : Nat := 1 + f.eb + f.fb
def Fmt.bias (f : Fmt) : Nat := 2 ^ (f.eb - 1) - 1
/-- Exponent of the smallest normal value. -/
def Fmt.emin (f : Fmt) : Int := 1 - (f.bias : Int)
/-- The canonical quiet NaN (R63). -/
def Fmt.qnan (f : Fmt) : Nat := (2 ^ f.eb - 1) * 2 ^ f.fb + 2 ^ (f.fb - 1)
def Fmt.signBit (f : Fmt) (neg : Bool) : Nat := if neg then 2 ^ (f.eb + f.fb) else 0
def Fmt.inf (f : Fmt) (neg : Bool) : Nat := f.signBit neg + (2 ^ f.eb - 1) * 2 ^ f.fb
def Fmt.maxFinite (f : Fmt) (neg : Bool) : Nat := f.signBit neg + (2 ^ f.eb - 1) * 2 ^ f.fb - 1
def Fmt.zero (f : Fmt) (neg : Bool) : Nat := f.signBit neg

/-- The value of an encoding (R63): a finite one is ±m·2^e. -/
inductive FVal where
  | nan (signalling : Bool)
  | inf (neg : Bool)
  | fin (neg : Bool) (m : Nat) (e : Int)
  deriving DecidableEq, Repr

def Fmt.decode (f : Fmt) (n : Nat) : FVal :=
  let s := n / 2 ^ (f.eb + f.fb) % 2 = 1
  let e := n / 2 ^ f.fb % 2 ^ f.eb
  let fr := n % 2 ^ f.fb
  if e = 2 ^ f.eb - 1 then
    if fr = 0 then .inf s else .nan (fr < 2 ^ (f.fb - 1))
  else if e = 0 then .fin s fr (f.emin - f.fb)
  else .fin s (fr + 2 ^ f.fb) ((e : Int) - f.bias - f.fb)

def FVal.isNan : FVal → Bool
  | .nan _ => true
  | _ => false

def FVal.isSnan : FVal → Bool
  | .nan b => b
  | _ => false

def FVal.isInf : FVal → Bool
  | .inf _ => true
  | _ => false

def FVal.neg : FVal → Bool
  | .nan _ => false
  | .inf s => s
  | .fin s _ _ => s

/-- `nv` for a signalling operand. -/
def snanFlag (xs : List FVal) : FlagBits := if xs.any FVal.isSnan then nv else 0

/-! ### Rounding (R65, R66) -/

/-- Whether the magnitude goes up from k, with remainder rem of 2·half: the choice of `RoundInt`. -/
def roundUp (mode : Rm) (neg : Bool) (k rem full : Nat) : Bool :=
  match mode with
  | .rn => full < 2 * rem || (full = 2 * rem && k % 2 = 1)
  | .rz => false
  | .rd => neg && rem != 0
  | .ru => !neg && rem != 0

/-- `RoundInt` of m·2^e: the integer and whether it is inexact. -/
def roundInt (mode : Rm) (neg : Bool) (m : Nat) (e : Int) : Nat × Bool :=
  if 0 ≤ e then (m * 2 ^ e.toNat, false)
  else
    let full := 2 ^ (-e).toNat
    let k := m / full; let rem := m % full
    (if roundUp mode neg k rem full then k + 1 else k, rem != 0)

/-- `OverflowResult` (R66). -/
def Fmt.overflow (f : Fmt) (mode : Rm) (neg : Bool) : Nat :=
  match mode, neg with
  | .rn, _ => f.inf neg
  | .rz, _ => f.maxFinite neg
  | .rd, true => f.inf true
  | .rd, false => f.maxFinite false
  | .ru, true => f.maxFinite true
  | .ru, false => f.inf false

/-- `Round` of the exact value ±m·2^e (R65). -/
def Fmt.round (f : Fmt) (mode : Rm) (neg : Bool) (m : Nat) (e : Int) : Nat × FlagBits :=
  if m = 0 then (f.zero neg, 0)
  else
    let ee := max ((Nat.log2 m : Int) + e) f.emin
    let qe := ee - f.fb
    let (k, inexact) := roundInt mode neg m (e - qe)
    if (f.bias : Int) < (Nat.log2 k : Int) + qe && k != 0 then (f.overflow mode neg, off ||| nx)
    else
      let flags : FlagBits := (if inexact then nx else 0)
        ||| (if inexact && decide ((k : Int) < 2 ^ f.fb) then uf else 0)
      if k < 2 ^ f.fb then (f.signBit neg + k, flags)
      else
        let (k, qe) := if k = 2 ^ (f.fb + 1) then (k / 2, qe + 1) else (k, qe)
        (f.signBit neg + (qe + f.fb + f.bias).toNat * 2 ^ f.fb + (k - 2 ^ f.fb), flags)

/-- `Round` of any value: NaN gives the canonical NaN, an infinity itself. -/
def Fmt.roundVal (f : Fmt) (mode : Rm) : FVal → Nat × FlagBits
  | .nan _ => (f.qnan, 0)
  | .inf s => (f.inf s, 0)
  | .fin s m e => f.round mode s m e

/-- A value with a sticky bit: the exact value lies strictly between m and m + 1 (times 2^e) where
`more` holds. The extra low bit stands for all dropped ones. -/
def sticky (m : Nat) (e : Int) (more : Bool) : Nat × Int := (2 * m + (if more then 1 else 0), e - 1)

/-! ### IEEE operations (R67) -/

/-- The exact sum of two finite values as a signed integer and an exponent. -/
def addExact (s1 : Bool) (m1 : Nat) (e1 : Int) (s2 : Bool) (m2 : Nat) (e2 : Int) : Int × Int :=
  let e := min e1 e2
  let a : Int := (m1 * 2 ^ (e1 - e).toNat : Nat)
  let b : Int := (m2 * 2 ^ (e2 - e).toNat : Nat)
  ((if s1 then -a else a) + (if s2 then -b else b), e)

/-- Round an exact sum; an exact zero has the sign `zneg`. -/
def Fmt.roundSum (f : Fmt) (mode : Rm) (x : Int × Int) (zneg : Bool) : Nat × FlagBits :=
  if x.1 = 0 then (f.zero zneg, 0) else f.round mode (x.1 < 0) x.1.natAbs x.2

/-- x + y of values (R67). -/
def Fmt.addVal (f : Fmt) (mode : Rm) (x y : FVal) : Nat × FlagBits :=
  match x, y with
  | .nan _, _ => (f.qnan, 0)
  | _, .nan _ => (f.qnan, 0)
  | .inf a, .inf b => if a == b then (f.inf a, 0) else (f.qnan, nv)
  | .inf a, _ => (f.inf a, 0)
  | _, .inf b => (f.inf b, 0)
  | .fin s1 m1 e1, .fin s2 m2 e2 =>
    let zneg := if s1 == s2 then s1 else mode == .rd
    f.roundSum mode (addExact s1 m1 e1 s2 m2 e2) zneg

def FVal.negate : FVal → FVal
  | .nan b => .nan b
  | .inf s => .inf (!s)
  | .fin s m e => .fin (!s) m e

def Fmt.add (f : Fmt) (mode : Rm) (a b : Nat) : Nat × FlagBits :=
  let x := f.decode a; let y := f.decode b
  let (r, fl) := f.addVal mode x y
  (r, fl ||| snanFlag [x, y])

def Fmt.sub (f : Fmt) (mode : Rm) (a b : Nat) : Nat × FlagBits :=
  let x := f.decode a; let y := f.decode b
  let (r, fl) := f.addVal mode x y.negate
  (r, fl ||| snanFlag [x, y])

/-- The exact product as a value; 0·∞ is none (R69). -/
def mulVal (x y : FVal) : Option FVal :=
  match x, y with
  | .nan _, _ => some (.nan false)
  | _, .nan _ => some (.nan false)
  | .inf a, .inf b => some (.inf (a != b))
  | .inf a, .fin s m _ => if m = 0 then none else some (.inf (a != s))
  | .fin s m _, .inf b => if m = 0 then none else some (.inf (s != b))
  | .fin s1 m1 e1, .fin s2 m2 e2 => some (.fin (s1 != s2) (m1 * m2) (e1 + e2))

def Fmt.mul (f : Fmt) (mode : Rm) (a b : Nat) : Nat × FlagBits :=
  let x := f.decode a; let y := f.decode b
  match mulVal x y with
  | none => (f.qnan, nv)
  | some v => let (r, fl) := f.roundVal mode v; (r, fl ||| snanFlag [x, y])

/-- x·y + z with one rounding. -/
def Fmt.fma (f : Fmt) (mode : Rm) (a b c : Nat) : Nat × FlagBits :=
  let x := f.decode a; let y := f.decode b; let z := f.decode c
  match mulVal x y with
  | none => (f.qnan, nv)
  | some v => let (r, fl) := f.addVal mode v z; (r, fl ||| snanFlag [x, y, z])

/-- The quotient of two magnitudes with a sticky bit, to more than 64 significant bits. -/
def divMag (m1 : Nat) (e1 : Int) (m2 : Nat) (e2 : Int) : Nat × Int :=
  let k := 64 + Nat.log2 m2
  let n := m1 * 2 ^ k
  sticky (n / m2) (e1 - e2 - k) (n % m2 != 0)

/-- Division (R67, R69). 0/0 and ∞/∞ are NaN and raise `nv` alone, and ∞/0 raises no flag: R69 names neither
for `nv`, and its `dz` could be read to take in both divisions by zero; the model follows IEEE 754-2019, where `dz` marks
a finite number that is divided by zero (notes/assumptions/36). -/
def Fmt.div (f : Fmt) (mode : Rm) (a b : Nat) : Nat × FlagBits :=
  let x := f.decode a; let y := f.decode b
  match x, y with
  | .nan _, _ => (f.qnan, snanFlag [x, y])
  | _, .nan _ => (f.qnan, snanFlag [x, y])
  | .inf _, .inf _ => (f.qnan, nv)
  | .inf s, .fin s2 _ _ => (f.inf (s != s2), 0)
  | .fin s _ _, .inf s2 => (f.zero (s != s2), 0)
  | .fin s1 m1 e1, .fin s2 m2 e2 =>
    if m2 = 0 then if m1 = 0 then (f.qnan, nv) else (f.inf (s1 != s2), dz)
    else if m1 = 0 then (f.zero (s1 != s2), 0)
    else let (m, e) := divMag m1 e1 m2 e2; f.round mode (s1 != s2) m e

/-- The integer square root, bit by bit from bit k - 1 of the root. -/
def isqrtBits (n : Nat) : Nat → Nat → Nat
  | 0, r => r
  | k + 1, r => let r' := r + 2 ^ k; isqrtBits n k (if r' * r' ≤ n then r' else r)

def isqrt (n : Nat) : Nat := isqrtBits n (Nat.log2 n / 2 + 1) 0

/-- The square root of m·2^e with a sticky bit. -/
def sqrtMag (m : Nat) (e : Int) : Nat × Int :=
  let k : Nat := if e % 2 = 0 then 128 else 129
  let n := m * 2 ^ k
  let r := isqrt n
  sticky r ((e - k) / 2) (r * r != n)

def Fmt.sqrt (f : Fmt) (mode : Rm) (a : Nat) : Nat × FlagBits :=
  match f.decode a with
  | .nan b => (f.qnan, if b then nv else 0)
  | .inf s => if s then (f.qnan, nv) else (f.inf false, 0)
  | .fin s m e =>
    if m = 0 then (f.zero s, 0)
    else if s then (f.qnan, nv)
    else let (r, re) := sqrtMag m e; f.round mode false r re

/-- Order of two values that are not NaN: by value; −0 and +0 equal. -/
def fcmp (x y : FVal) : Ordering :=
  match x, y with
  | .inf a, .inf b => if a == b then .eq else if a then .lt else .gt
  | .inf a, _ => if a then .lt else .gt
  | _, .inf b => if b then .gt else .lt
  | .fin s1 m1 e1, .fin s2 m2 e2 =>
    let d := (addExact s1 m1 e1 (!s2) m2 e2).1
    if d < 0 then .lt else if d = 0 then .eq else .gt
  | _, _ => .eq

/-- Lesser or greater (R67): the other operand for one quiet NaN; −0 below +0. For one signalling NaN and a number R67 has
two answers, the canonical NaN of every signalling operand and the number: the model gives the canonical NaN with `nv`
(notes/assumptions/36). -/
def Fmt.minmax (f : Fmt) (greater : Bool) (a b : Nat) : Nat × FlagBits :=
  let x := f.decode a; let y := f.decode b
  if x.isSnan || y.isSnan then (f.qnan, nv)
  else if x.isNan then (if y.isNan then f.qnan else b, 0)
  else if y.isNan then (a, 0)
  else
    let less := fcmp x y == .lt || (fcmp x y == .eq && x.neg && !y.neg)
    (if less != greater then a else b, 0)

/-- `vneg` and `vabs` (R162). -/
def Fmt.signOp (f : Fmt) (abs : Bool) (a : Nat) : Nat × FlagBits :=
  match f.decode a with
  | .nan b => (f.qnan, if b then nv else 0)
  | x =>
    let mag := a % 2 ^ (f.eb + f.fb)
    (if abs then mag else f.signBit (!x.neg) + mag, 0)

/-- The four compares (R162): eq and un quiet, lt and le signalling. -/
inductive FRel where
  | eq | lt | le | un
  deriving DecidableEq, Repr

def Fmt.compare (f : Fmt) (r : FRel) (a b : Nat) : Bool × FlagBits :=
  let x := f.decode a; let y := f.decode b
  let nan := x.isNan || y.isNan
  match r with
  | .eq => (!nan && fcmp x y == .eq, snanFlag [x, y])
  | .un => (nan, snanFlag [x, y])
  | .lt => (!nan && fcmp x y == .lt, if nan then nv else 0)
  | .le => (!nan && fcmp x y != .gt, if nan then nv else 0)

/-! ### Conversions (R68) -/

/-- Float to float. -/
def cvtFF (dst src : Fmt) (mode : Rm) (a : Nat) : Nat × FlagBits :=
  let x := src.decode a
  let (r, fl) := dst.roundVal mode x
  (r, fl ||| snanFlag [x])

/-- Integer to float. -/
def cvtIF (dst : Fmt) (mode : Rm) (x : Int) : Nat × FlagBits := dst.round mode (x < 0) x.natAbs 0

/-- Float to integer: rounded by the mode, clamped with `nv`. -/
def cvtFI (src : Fmt) (mode : Rm) (signed : Bool) (w : Nat) (a : Nat) : Nat × FlagBits :=
  let lo : Int := if signed then -(2 ^ (w - 1)) else 0
  let hi : Int := if signed then 2 ^ (w - 1) - 1 else 2 ^ w - 1
  match src.decode a with
  | .nan _ => (0, nv)
  | .inf s => (wrapInt w (if s then lo else hi), nv)
  | .fin s m e =>
    let (k, inexact) := roundInt mode s m e
    let v : Int := if s then -(k : Int) else k
    if v < lo then (wrapInt w lo, nv) else if hi < v then (wrapInt w hi, nv)
    else (wrapInt w v, if inexact then nx else 0)

/-- One element of `vcvt` (R164, R68). -/
def convert (dt st : NumTy) (mode : Rm) (sat : Bool) (a : Nat) : Nat × FlagBits :=
  match dt, st with
  | .flt d, .flt s => cvtFF (fmtOf d) (fmtOf s) mode a
  | .flt d, .int s => cvtIF (fmtOf d) mode (readInt s.signed s.bits a)
  | .int d, .flt s => cvtFI (fmtOf s) mode d.signed d.bits a
  | .int d, .int s => narrow d.signed sat d.bits (readInt s.signed s.bits a)

/-! ### Approximations (R170) -/

/-- Round to F32S and deliver as binary32 with bits 7:0 zero. -/
def roundF32S (neg : Bool) (m : Nat) (e : Int) : Nat × FlagBits :=
  let (r, fl) := f32s.round .rn neg m e
  (r * 256, fl)

def rcpF32 (a : Nat) : Nat × FlagBits :=
  match fp32.decode a with
  | .nan b => (fp32.qnan, if b then nv else 0)
  | .inf s => (fp32.zero s, 0)
  | .fin s m e =>
    if m = 0 then (fp32.inf s, dz)
    else let (q, qe) := divMag 1 0 m e; roundF32S s q qe

def rsqrtF32 (a : Nat) : Nat × FlagBits :=
  match fp32.decode a with
  | .nan b => (fp32.qnan, if b then nv else 0)
  | .inf s => if s then (fp32.qnan, nv) else (fp32.zero false, 0)
  | .fin s m e =>
    if m = 0 then (fp32.inf s, dz)
    else if s then (fp32.qnan, nv)
    else
      -- 1/√(m·2^e) = √(2^k/m) · 2^(-(k+e)/2) with k + e even
      let k : Nat := if e % 2 = 0 then 200 else 201
      let r := isqrt (2 ^ k / m)
      let (q, qe) := sticky r (-((k + e) / 2)) (r * r * m != 2 ^ k)
      roundF32S false q qe

/-- ln 2 · 2^320 from the series Σ 1/(k·2^k), the first n terms from k = i on. -/
def ln2Terms : Nat → Nat → Nat
  | 0, _ => 0
  | n + 1, i => 2 ^ 320 / (i * 2 ^ i) + ln2Terms n (i + 1)

/-- e^y · 2^320 for y·2^320 given: n terms of the exponential series, t the i-th term. -/
def expTerms (y : Nat) : Nat → Nat → Nat → Nat
  | 0, _, _ => 0
  | n + 1, i, t => t + expTerms y n (i + 1) (t * y / (2 ^ 320 * (i + 1)))

/-- 2^f · 2^320 for 0 ≤ f·2^320 < 2^320, to within 2^-290. -/
def pow2Frac (f : Nat) : Nat := expTerms (f * ln2Terms 330 1 / 2 ^ 320) 90 0 (2 ^ 320)

/-- 2^x for x = ±m·2^e (R170): the fraction of x to 320 bits; beyond ±1024 the result is out of range
anyway. An integer x is exact; any other x gives an irrational result. -/
def exp2F32 (a : Nat) : Nat × FlagBits :=
  match fp32.decode a with
  | .nan b => (fp32.qnan, if b then nv else 0)
  | .inf s => if s then (fp32.zero false, 0) else (fp32.inf false, 0)
  | .fin s m e =>
    if m = 0 then (2 ^ 23 * 127, 0)
    else if 10 ≤ (Nat.log2 m : Int) + e then
      if s then roundF32S false 1 (-1024) else roundF32S false 1 1024
    else
      let x : Int := if 0 ≤ e + 320 then m * 2 ^ (e + 320).toNat else 0
      let x := if s then -x else x
      let n := x / (2 ^ 320 : Int)
      let f := (x % (2 ^ 320 : Int)).toNat
      if f = 0 then roundF32S false 1 n
      else let (q, qe) := sticky (pow2Frac f) (n - 320) true; roundF32S false q qe

end Sys2Proof.Machine
end

