-- ==== Sys2Proof/Machine/C8.lean ====
section
/-!
DEFINITION. The table-coded format C8: decode tables and their encodable test (R72, R76), `DecodeC8` (R74),
`AutoScale` (R77), `EncodeC8` (R78); and the two digests the spec names, CRC-32C (R85) and SHA-512 (R318).
-/

namespace Sys2Proof.Machine

/-! ### Decode tables -/

/-- Entry c of a 1,024-byte table (R72). -/
def tableEntry (t : BitVec 8192) (c : Nat) : Nat := (t.extractLsb' (32 * c) 32).toNat

/-- The E8M10 value of bits 31:13 of an entry (R72). -/
def entryVal (t : BitVec 8192) (c : Nat) : FVal := e8m10.decode (tableEntry t c / 2 ^ 13)

/-- a·2^e ≤ b·2^f for magnitudes. -/
def magLe (m1 : Nat) (e1 : Int) (m2 : Nat) (e2 : Int) : Bool :=
  let e := min e1 e2
  decide (m1 * 2 ^ (e1 - e).toNat ≤ m2 * 2 ^ (e2 - e).toNat)

/-- Whether x ≤ y for non-negative values that are not NaN. -/
def valLe (x y : FVal) : Bool :=
  match x, y with
  | _, .inf _ => true
  | .inf _, _ => false
  | .fin _ m1 e1, .fin _ m2 e2 => magLe m1 e1 m2 e2
  | _, _ => false

/-- The encodable test of R76. -/
def tableEncodable (t : BitVec 8192) : Bool :=
  let low := List.range 128
  ((List.range 256).all fun c => tableEntry t c % 2 ^ 13 = 0)
    && (low.all fun c => !(entryVal t c).isNan && tableEntry t c < 2 ^ 31)
    && ((List.range 127).all fun c => valLe (entryVal t c) (entryVal t (c + 1)))
    && (low.all fun c => tableEntry t (c + 128) = tableEntry t c + 2 ^ 31)
    && (low.any fun c => !(entryVal t c).isInf && !(entryVal t c).isNan)

/-- M of R77: the largest finite value among entries 0x00 to 0x7F, as magnitude and exponent. -/
def tableMax (t : BitVec 8192) : Nat × Int :=
  (List.range 128).foldl (fun acc c =>
    match entryVal t c with
    | .fin _ m e => if magLe acc.1 acc.2 m e then (m, e) else acc
    | _ => acc) (0, 0)

/-- The value of code c under scale byte s other than 0xFF, before rounding (R74). -/
def c8Val (t : BitVec 8192) (c s : Nat) : FVal :=
  match entryVal t c with
  | .fin n m e => .fin n m (e + s - 127)
  | v => v

/-- Decode into a format with one rounding (R74, R165). -/
def decodeC8 (f : Fmt) (mode : Rm) (t : BitVec 8192) (c s : Nat) : Nat × FlagBits :=
  if s = 255 then (f.qnan, 0) else f.roundVal mode (c8Val t c s)

/-- The least s from i on, n scales still to try, with m·2^(127 - s) ≤ M (R77). -/
def leastScale (m : Nat) (e : Int) (mx : Nat × Int) : Nat → Nat → Nat
  | 0, _ => 254
  | n + 1, i => if magLe m (e + 127 - i) mx.1 mx.2 then i else leastScale m e mx n (i + 1)

/-- `AutoScale` of four FP32 encodings (R77). -/
def autoScale (t : BitVec 8192) (xs : List Nat) : Nat :=
  let vs := xs.map fp32.decode
  if vs.any FVal.isNan then 255
  else if vs.any FVal.isInf then 254
  else
    let m := vs.foldl (fun (acc : Nat × Int) v =>
      match v with
      | .fin _ m e => if magLe acc.1 acc.2 m e then (m, e) else acc
      | _ => acc) (0, 0)
    leastScale m.1 m.2 (tableMax t) 255 0

/-- The least even code of a list in rising order, else the first (R78). -/
def evenFirst (cs : List Nat) : Nat :=
  match cs.find? fun c => c % 2 = 0 with
  | some c => c
  | none => cs.headD 0

/-- |Table[c] - y| as magnitude and exponent. -/
def distance (m1 : Nat) (e1 : Int) (m2 : Nat) (e2 : Int) : Nat × Int :=
  let d := addExact false m1 e1 true m2 e2
  (d.1.natAbs, d.2)

/-- `EncodeC8` (R78): the code and the flags. -/
def encodeC8 (t : BitVec 8192) (x s : Nat) : Nat × FlagBits :=
  let v := fp32.decode x
  if s = 255 || v.isNan then (0, if v.isSnan then nv else 0)
  else
    let codes := List.range 128
    let sign := if v.neg then 128 else 0
    let mx := tableMax t
    let clamp :=
      let cs := codes.filter fun c =>
        match entryVal t c with
        | .fin _ m e => magLe m e mx.1 mx.2 && magLe mx.1 mx.2 m e
        | _ => false
      (evenFirst cs + sign, off ||| nx)
    match v with
    | .fin _ m e =>
      let e := e + 127 - s
      if !magLe m e mx.1 mx.2 then clamp
      else
        let dist := codes.filterMap fun c =>
          match entryVal t c with
          | .fin _ m' e' => some (c, distance m' e' m e)
          | _ => none
        let best := dist.foldl (fun (acc : Option (Nat × Int)) p =>
          match acc with
          | none => some p.2
          | some b => if magLe b.1 b.2 p.2.1 p.2.2 then some b else some p.2) none
        match best with
        | none => (0, 0)
        | some b =>
          let cs := (dist.filter fun p => magLe p.2.1 p.2.2 b.1 b.2).map fun p => p.1
          (evenFirst cs + sign, if b.1 = 0 then 0 else nx)
    | _ =>
      match codes.find? fun c => (entryVal t c).isInf with
      | some c => (c + sign, 0)
      | none => clamp

/-! ### CRC-32C (R85) -/

/-- One bit of the reflected polynomial 0x1EDC_6F41. -/
def crcBit (c : Nat) : Nat := if c % 2 = 1 then (c / 2) ^^^ 0x82F63B78 else c / 2

def crcByte (c : Nat) (b : Nat) : Nat :=
  let x := c ^^^ b
  crcBit (crcBit (crcBit (crcBit (crcBit (crcBit (crcBit (crcBit x)))))))

def crcBytes (c : Nat) : List Byte → Nat
  | [] => c
  | b :: r => crcBytes (crcByte c b.toNat) r

/-- The CRC-32C of a list of bytes. -/
def crc32c (bs : List Byte) : Nat := crcBytes 0xFFFFFFFF bs ^^^ 0xFFFFFFFF

/-! ### SHA-512 (R318; FIPS 180-4) -/

/-- The first 80 primes. -/
def shaPrimes : List Nat :=
  [2, 3, 5, 7, 11, 13, 17, 19, 23, 29, 31, 37, 41, 43, 47, 53, 59, 61, 67, 71]
    ++ [73, 79, 83, 89, 97, 101, 103, 107, 109, 113, 127, 131, 137, 139, 149, 151, 157, 163, 167, 173]
    ++ [179, 181, 191, 193, 197, 199, 211, 223, 227, 229, 233, 239, 241, 251, 257, 263, 269, 271, 277, 281]
    ++ [283, 293, 307, 311, 313, 317, 331, 337, 347, 349, 353, 359, 367, 373, 379, 383, 389, 397, 401, 409]

/-- The integer cube root, bit by bit. -/
def icbrtBits (n : Nat) : Nat → Nat → Nat
  | 0, r => r
  | k + 1, r => let r' := r + 2 ^ k; icbrtBits n k (if r' * r' * r' ≤ n then r' else r)

/-- Round constants: the first 64 fraction bits of the cube roots of the primes. -/
def shaK : List Word := shaPrimes.map fun p => BitVec.ofNat 64 (icbrtBits (p * 2 ^ 192) 68 0)

/-- Initial hash: the first 64 fraction bits of the square roots of the first eight primes. -/
def shaInit : List Word := (shaPrimes.take 8).map fun p => BitVec.ofNat 64 (isqrtBits (p * 2 ^ 128) 68 0)

def shaBig0 (x : Word) : Word := x.rotateRight 28 ^^^ x.rotateRight 34 ^^^ x.rotateRight 39
def shaBig1 (x : Word) : Word := x.rotateRight 14 ^^^ x.rotateRight 18 ^^^ x.rotateRight 41
def shaSmall0 (x : Word) : Word := x.rotateRight 1 ^^^ x.rotateRight 8 ^^^ (x >>> 7)
def shaSmall1 (x : Word) : Word := x.rotateRight 19 ^^^ x.rotateRight 61 ^^^ (x >>> 6)

/-- Extend a schedule, newest word first, by n words. -/
def shaSchedule : Nat → List Word → List Word
  | 0, ws => ws
  | n + 1, ws =>
    let w := shaSmall1 (ws.getD 1 0) + ws.getD 6 0 + shaSmall0 (ws.getD 14 0) + ws.getD 15 0
    shaSchedule n (w :: ws)

def shaRound (h : List Word) (kw : Word × Word) : List Word :=
  let a := h.getD 0 0; let b := h.getD 1 0; let c := h.getD 2 0; let d := h.getD 3 0
  let e := h.getD 4 0; let f := h.getD 5 0; let g := h.getD 6 0; let hh := h.getD 7 0
  let t1 := hh + shaBig1 e + ((e &&& f) ^^^ (~~~e &&& g)) + kw.1 + kw.2
  let t2 := shaBig0 a + ((a &&& b) ^^^ (a &&& c) ^^^ (b &&& c))
  [t1 + t2, a, b, c, d + t1, e, f, g]

/-- One block of 16 words. -/
def shaBlock (h ws : List Word) : List Word :=
  let sched := (shaSchedule 64 ws.reverse).reverse
  let r := (shaK.zip sched).foldl shaRound h
  (h.zip r).map fun p => p.1 + p.2

/-- n big-endian words of a byte list. -/
def bigWords : Nat → List Byte → List Word
  | 0, _ => []
  | n + 1, bs =>
    BitVec.ofNat 64 ((bs.take 8).foldl (fun acc b => acc * 256 + b.toNat) 0) :: bigWords n (bs.drop 8)

def shaBlocks : Nat → List Word → List Byte → List Word
  | 0, h, _ => h
  | n + 1, h, bs => shaBlocks n (shaBlock h (bigWords 16 bs)) (bs.drop 128)

/-- The SHA-512 digest of a byte list as a 512-bit number, first byte most significant. -/
def sha512 (bs : List Byte) : BitVec 512 :=
  let blocks := (bs.length + 17 + 127) / 128
  let pad := blocks * 128 - bs.length - 17
  let len := (List.range 16).map fun i => BitVec.ofNat 8 (bs.length * 8 / 256 ^ (15 - i))
  let h := shaBlocks blocks shaInit (bs ++ [0x80] ++ List.replicate pad 0 ++ len)
  BitVec.ofNat 512 (h.foldl (fun acc w => acc * 2 ^ 64 + w.toNat) 0)

end Sys2Proof.Machine
end

