-- ==== Sys2Proof/Config.lean ====
section
/-!
DEFINITION. What one Tremir fixes and the spec leaves open: constants without a body, so that no proof
can lean on a value of them. Each is named in a row of notes/assumptions.
-/

namespace Sys2Proof.Config

/-- The word the boot ROM writes in entry e (0 to 767) of the itinerary table of a square, on the n-th writing of the
tables, where it has the properties of R113 (the choice among such routes is not architected), or where the spec
says nothing of the entry. Log 5. -/
opaque romRoute : (writing square entry : Nat) → Word

/-- The command of a submission entry whose arguments stand where the spec does not say (R320 gives the words, and
R339 the arguments of two commands only). Log 28. -/
opaque entryCommand : List Word → Option Instr

/-- A host memory byte that nothing in the model has written: the host is outside the machine. Log 4. -/
opaque hostByte : Nat → Byte

/-- The entry a full translation unit replaces (R310 gives no policy): an index below 512. Log 9. -/
opaque tuVictim : Nat → Nat

/-- The line a full instruction cache replaces (R109 gives a size and no policy): an index below 1,024. Log 9. -/
opaque lineVictim : Nat → Nat

/-- The register or memory bits that an uncorrectable error leaves; read by no correct path. Log 18. -/
opaque freeWord : Nat → Word

/-- The DRAM bank of a physical address within its channel (R333 names banks and gives no map). Log 29. -/
opaque bankOf : Nat → Nat

/-- First address of the HBM row of a physical address (R330 and R332 name rows and give no size). Log 29. -/
opaque rowOf : Nat → Nat

/-- A reading of a die's temperature sensor or coolant alarm (R321 command 0x02 gives no layout). Log 30. -/
opaque sensorByte : (reading offset : Nat) → Byte

/-- The bytes of Kilvon's certificate for the device key (R317). Log 31. -/
opaque certificateByte : Nat → Byte

/-- The length of that certificate in bytes (R317). Log 31. -/
opaque certificateLength : Nat

/-- The SHA-512 digest of the boot ROM (R318, R319): the ROM's contents are not in the spec. Log 31. -/
opaque romDigest : BitVec 512

/-- The ECDSA P-521 signature (r, s) of the n-th attestation report over a digest (R318). Log 31. -/
opaque signature : (n : Nat) → BitVec 512 → BitVec 528 × BitVec 528

end Sys2Proof.Config
end

