-- ==== Sys2Proof/Machine/State.lean ====
section
/-!
DEFINITION. The state of a Tremir as plain data: clock, memory, threads, cores with their engines, squares,
the network's packets, launches, tumblers, heaps, Hamper, street map and recovery counters; the reasons a
step can stop; and the state right after cold reset. INVENTORY.md lists every field with its rule.
Core numbers in the state are physical: compute core 64·ward + lane below 8192, channel core c at 8192 + c,
plaza core k at 8448 + k (service cores k < 4, Hamper cores 4 to 7).
-/

namespace Sys2Proof.Machine

/-- A finite map: pairs of a key and a value in rising order of key. -/
abbrev Tbl (α : Type) := List (Nat × α)

/-! ### Threads -/

/-- The registers a bundle reads and writes (R48): values and full/empty bits, predicates. -/
structure Regs where
  g : Vector Word 32
  gfull : BitVec 32
  v : Vector Vec 8
  vfull : BitVec 8
  preds : BitVec 8
  deriving DecidableEq, Repr

/-- A condition a thread parks on; when it holds the parked bundle issues again from its start (R38). -/
inductive Cond where
  /-- `g` register n becomes full -/
  | gFull (n : Nat)
  /-- `v` register n becomes full -/
  | vFull (n : Nat)
  /-- port q holds a word -/
  | portWord (q : Nat)
  /-- port q has room -/
  | portRoom (q : Nat)
  /-- store-queue entry id is acknowledged -/
  | acked (id : Nat)
  /-- every store-queue entry of the slot is acknowledged (class release, R111) -/
  | released
  /-- every store-queue entry of the slot to this home is acknowledged (R131) -/
  | releasedHome (home : Nat)
  /-- every engine command of the thread has performed its accesses (`fence`, R133) -/
  | enginesDone
  /-- every vector and matrix command of the thread has completed (R70) -/
  | commandsDone
  | vecRoom
  | copyRoom
  /-- all (or any) of the tags of the mask are ready (R190) -/
  | tagsAll (m : Word)
  | tagsAny (m : Word)
  /-- the translation unit's walk for the page of an address has ended (R310): for an access, for a fetch -/
  | walk (addr : Nat)
  | fetchWalk (addr : Nat)
  /-- the instruction-cache line has arrived (R109) -/
  | line (addr : Nat)
  /-- bank b's load has ended (R172) -/
  | bankLoad (b : Nat)
  /-- a bank has no bound thread (R172) -/
  | bankFree
  /-- a once record is retired (R225) -/
  | onceRoom
  /-- Hamper queue k has room (R214) -/
  | hamperRoom (k : Nat)
  /-- injections on the die are open (R293) -/
  | injectOpen
  /-- the ward accepts more `mrot` commands (R284) -/
  | mrotOpen
  /-- slot s of the core may be spilled now (R220) -/
  | spillReady (s : Nat)
  /-- the porter of a core of a launch holds no thread (R57) -/
  | porterFree (core : Nat)
  /-- no alert holds the HBM bank of a key (R333) -/
  | bankOpen (key : Nat)
  /-- no earlier request of the core is on its way to a home by the same itinerary (R233) -/
  | wayFree (home : Nat)
  deriving DecidableEq, Repr

/-- Why a thread does not issue. -/
inductive Wait where
  /-- parked on a condition; the bundle issues again -/
  | cond (c : Cond)
  /-- parked on the reply with packet id -/
  | reply (id : Nat)
  /-- arrived at the barrier of a unit of a level (R135) -/
  | barrier (level unit : Nat)
  /-- held by matrix command n of the core (R156) -/
  | matrix (n : Nat)
  /-- in `idle`, with the cycle at which it goes on (R223) -/
  | idle (until? : Option Nat)
  /-- until entry 1023 of the itinerary table is written (R153) -/
  | itin (until? : Nat)
  /-- fault or trap being taken: until the store queue is drained (R323, R215) -/
  | drain
  deriving DecidableEq, Repr

/-- Where a thread stands. -/
inductive Place where
  /-- in slot s of core c -/
  | slot (c s : Nat)
  /-- in flight as packet id, or held in a link -/
  | flying (id : Nat)
  /-- in the inbox ring of a core -/
  | ring (c : Nat)
  /-- a waiting context of a core's run queue (R279) -/
  | context (c : Nat)
  /-- in the suspension entry of a task frame (R145); the frame's key -/
  | frame (key : Nat)
  /-- spilled by `spill` to the save area at a key (R220); kept while it counts for its level units -/
  | spilled (key : Nat)
  /-- a waiting context of a suspended launch, of slot s of district core c (R284) -/
  | saved (c s : Nat)
  /-- suspended by `sync`, or spilled by `spill`, at a key of its suspended launch's saved local memory: district
  core and offset -/
  | savedFrame (c off : Nat)
  | savedSpill (c off : Nat)
  deriving DecidableEq, Repr

/-- What is known of a bundle for reports and policies: address, instructions, next address. -/
structure BundleInfo where
  pc : Word
  instrs : List Instr
  next : Word
  deriving DecidableEq, Repr

/-- A fault before containment (R322, R324). -/
structure Flt where
  cause : Nat
  qual : Nat := 0
  half : Part := .none
  pc : Word := 0
  detail : Word := 0
  detail2 : Word := 0
  /-- the bundle that ignore completes as a no-op and retry reissues -/
  bundle : Option BundleInfo := none
  /-- level at which the offering starts: `none` for the innermost (R47) -/
  level : Option Nat := none
  /-- registers that ignore and retry make zero and full (R224, *once orphan*): `g` n, `v` 32 + k -/
  zero : List Nat := []
  deriving DecidableEq, Repr

/-- The three traps (R215). -/
inductive TrapKind where
  | software (n : BitVec 16)
  | float (flags : BitVec 6)
  | quantum
  deriving DecidableEq, Repr

/-- An event due at a thread's next bundle boundary (R323). -/
inductive Due where
  | fault (f : Flt)
  | trap (k : TrapKind) (pc : Word) (order : Nat)
  /-- acknowledgements with an error, charged to the bundle that waits for them (R129) -/
  | errs (b : BundleInfo)
  /-- a kill that waits for the matrix command that holds the thread (R183) -/
  | kill
  deriving DecidableEq, Repr

/-- What a bundle whose access has left took from its thread, given back if the access faults (R88). -/
structure Undo where
  /-- the registers before the bundle -/
  regs : Regs
  /-- flags the bundle itself set in `FEXC` -/
  flags : BitVec 6
  pops : List (BitVec 3 × Word)
  /-- words that its other half pushes when the bundle is complete, with room kept for them in their ports -/
  pushes : List (BitVec 3 × Word)
  /-- cycle of issue -/
  order : Nat
  deriving DecidableEq, Repr

/-- A thread (R37, R48, R340). -/
structure Thread where
  launch : Nat
  /-- home core and slot (R57) -/
  homeCore : Nat
  homeSlot : Nat
  place : Place
  pc : Word
  regs : Regs
  gregs : Nat
  vregs : Nat
  fexc : BitVec 6
  ftrap : BitVec 6
  left : BitVec 32
  reload : BitVec 32
  lmflt : Bool
  lmaddr : Word
  fmtp : Word
  sclp : Word
  level : Word
  hand : Bool
  task : Bool
  nack : Bool
  rflt : Bool
  wait : Option Wait
  /-- resume address while trapped (R215) -/
  trapped : Option Word
  /-- the thread's outstanding request and its destination `g` (0 to 31) or `v` (32 to 39) registers -/
  outst : Option (Nat × List Nat)
  undo : Option Undo
  due : List Due
  /-- the bundle last issued or tried -/
  bundle : Option BundleInfo
  /-- address of the last bundle issued, for the quantum trap (R215) -/
  lastPc : Word
  /-- reissues of the current fault's bundle (R325) -/
  retries : Nat
  /-- a launch thread in its own slot: counts for `once` (R224) -/
  gang : Bool
  occ : BitVec 32
  /-- registers that a `once` unit has emptied and whose post is still to come, with its occurrence (R224) -/
  awaited : List (Nat × BitVec 32)
  /-- belongs to the level units of district core and slot (R325) -/
  units : Option (Nat × Nat)
  /-- decode bank the thread is bound to (R172) -/
  bank : Option Nat
  /-- the quantum ran out in this cycle (R152) -/
  qhit : Bool
  /-- `g` (n) and `v` (32 + k) registers with an uncorrectable error (R329) -/
  badRegs : List Nat
  deriving DecidableEq, Repr

/-! ### Accesses and packets -/

/-- What an access does at its home (R127, R130). -/
inductive AccKind where
  | load (f : LdForm)
  | store (f : StForm)
  | clear
  | red (op : AmoOp) (sc : Scope)
  deriving DecidableEq, Repr

/-- An access on its way to its home. `key` is the home-space key of its first byte. -/
structure Access where
  kind : AccKind
  size : Nat
  key : Nat
  data : Vec
  /-- issuing core and slot, whose store queue holds a posted access -/
  core : Nat
  slot : Nat
  tid : Nat
  pc : Word
  addr : Word
  /-- carried by a porter message to another core (R57) -/
  porter : Bool
  deriving DecidableEq, Repr

/-- The route an `amo` takes to its word (R131). -/
inductive AmoPath where
  | own
  | porter
  /-- a trip to a core, not yet arrived -/
  | flying
  /-- in slot s of the core it visits -/
  | slot (c s : Nat)
  | ring (c : Nat)
  deriving DecidableEq, Repr

/-- An `amo` under way (R131). -/
structure Amo where
  op : AmoOp
  scope : Scope
  key : Nat
  y0 : Word
  y1 : Word
  core : Nat
  slot : Nat
  tid : Nat
  addr : Word
  path : AmoPath
  deriving DecidableEq, Repr

/-- The way of a packet that a switch carries (R113, R233, R293): the core it left, the square it started from,
its itinerary as it stood at the injection, its class, and its place in the order of injections. A reply runs its
request's way backward. -/
structure Way where
  src : Nat
  start : Nat
  words : Word × Word
  cls : Nat
  back : Bool
  stamp : Nat
  deriving DecidableEq, Repr

/-- An active message (R53, R136). -/
structure Msg where
  /-- physical core that sent it, for the order of R233 -/
  src : Nat
  dst : Nat
  /-- itinerary words -/
  route : Word × Word
  score : Nat
  sslot : Nat
  npay : Nat
  tag : BitVec 4
  handler : Word
  payload : List Word
  launch : Nat
  /-- thread and store-queue entry of a `send` -/
  tid : Option Nat
  deriving DecidableEq, Repr

/-- What a reply brings: values for the destinations, or a fault (R112, R193). -/
inductive Answer where
  | vals (xs : List Vec)
  | fault (cause qual : Nat) (detail : Word)
  deriving DecidableEq, Repr

/-- A `sync` or `sync.end` at its frame's home (R143, R144). -/
structure FrameReq where
  ending : Bool
  tid : Nat
  core : Nat
  slot : Nat
  key : Nat
  addr : Word
  next : Word
  fmtp : Word
  sclp : Word
  task : Bool
  launch : Nat
  deriving DecidableEq, Repr

/-- The outcome of a frame step (R143, R144). -/
inductive FrameAns where
  | goOn
  | suspend
  | ended
  | busy
  | underflow
  | uncorrectable
  /-- restart at waitpc with FMTP, SCLP and, for a launch thread, the suspended thread -/
  | restart (waitpc fmtp sclp : Word) (sus : Option Nat)
  deriving DecidableEq, Repr

/-- A read of heap records (R195, R199, R201); `eq` is made in stages, each one load. -/
inductive HeapRead where
  | find (x : Nat)
  /-- stage, the two ids, and the epoch the first mailbox read found settled -/
  | eq (stage x y : Nat) (epoch : Option Nat)
  /-- an insert found a node: its id and class -/
  | found (m cls : Nat)
  | node (m : Nat)
  | cls (x : Nat)
  deriving DecidableEq, Repr

/-- Who asked for a heap step: the thread and the packet id its reply carries, or the heap itself. -/
abbrev Asker := Option (Nat × Nat)

/-- A heap request or repair message in flight (R196 to R205, R252 to R257). A stage counts the finds made. -/
inductive HeapMsg where
  | read (h : Nat) (r : HeapRead) (who : Asker)
  | einsLookup (h stage : Nat) (w0 w1 : Word) (who : Asker)
  | append (h c m : Nat) (ins : Nat)
  | insert (h m k : Nat) (w0 w1 : Word) (ch : Nat) (outst : Nat) (notroot full : Bool) (who : Asker)
  | accept (h stage x y : Nat) (who : Asker)
  | clear (h ch : Nat)
  | best (h c : Nat) (cost : Word) (node : Nat)
  | ecost (h c node : Nat) (cost : Word) (who : Asker)
  | rehash (h m : Nat)
  | unindex (h m : Nat) (hash : Half32)
  /-- `held`: it waits for an index record (R257) -/
  | index (h m : Nat) (w0 w1 : Word) (hash : Half32) (cls : Nat) (held : Bool)
  | merge (h stage x y : Nat)
  | splice (h r ph pt mh mt : Nat)
  /-- a splice's stores to other channels, still to be made: key and value -/
  | spliceStore (h r : Nat) (left : List (Nat × Nat))
  | esettle (h : Nat) (who : Asker)
  /-- the pattern record of an `ematch` as far as it has been read: the keys of the atoms still to be read, with
  their addresses; none for one out of range (R203) -/
  | pattern (h : Nat) (left : List (Word × Option Nat)) (words : List Word) (launch : Nat) (who : Asker)
  | ematch (h : Nat) (words : List Word) (launch dst : Nat) (who : Asker)
  deriving DecidableEq, Repr

/-- A packet, or another step that has been started and not yet made. -/
inductive Body where
  | access (a : Access)
  /-- a no-room reply: the access or `amo` is back at its source, unperformed (R280) -/
  | refusedAccess (a : Access)
  | refusedAmo (a : Amo)
  /-- a `sync` that found no entry for its thread (R145) -/
  | refusedFrame (r : FrameReq)
  /-- a reply, with the home it comes from and the address of its access where it has one -/
  | reply (tid : Nat) (back : Option (Nat × Word)) (a : Answer)
  | ack (entry : Nat) (err : Option (Nat × Nat))
  | amo (a : Amo)
  | msg (m : Msg)
  /-- a thread that moves to core dst, from core src by a route, out of a slot there -/
  | migr (tid dst src : Nat) (route : Word × Word) (slot : Nat)
  /-- `fence.far` (R134): the core to drain, the asking thread, the entries to wait for once arrived -/
  | far (core : Nat) (tid : Nat) (left : Option (List Nat))
  | frame (r : FrameReq)
  | frameAns (r : FrameReq) (a : FrameAns)
  | withdraw (target : Nat) (core slot : Nat)
  | room (core home : Nat)
  /-- a `once` value on its way to a member: square, slot, member position, occurrence, unit, destination -/
  | post (square slot pos : Nat) (occ : BitVec 32) (unit : Word) (dst : Nat) (val : Vec)
  | heap (m : HeapMsg)
  deriving DecidableEq, Repr

/-- State of a store-queue entry (R126, R129). -/
inductive SqState where
  | inFlight
  /-- acknowledged with an error: cause and qualifier; whether a bundle has waited for it -/
  | failed (cause qual : Nat) (hit : Bool)
  deriving DecidableEq, Repr

/-- A store-queue entry; its number is its packet's id. -/
structure SqEntry where
  core : Nat
  slot : Nat
  tid : Nat
  home : Nat
  key : Nat
  size : Nat
  /-- a `.f` store, `rput.d.f` or `red`, which may wait at its home: the slot's later accesses to that home stay
  unsent until it is acknowledged (R230, R280) -/
  fills : Bool
  pc : Word
  addr : Word
  state : SqState
  deriving DecidableEq, Repr

/-! ### Cores -/

/-- A slot of a core. -/
structure Slot where
  tid : Option Nat
  /-- reserved for a thread away from home (R57) -/
  reserved : Option Nat
  /-- held for the thread that spilled it (R299) -/
  held : Option Nat
  /-- cycle of the last issue, plus 1; 0 for none -/
  issued : Nat
  ownq : BitVec 4
  event : Bool
  /-- cycle at which the task unit may look again (R277) -/
  seekAt : Nat
  /-- victims the current rotation has still to ask (R277) -/
  victims : List Nat
  /-- `LEVEL` of the slot's first launch thread (R155) -/
  level : Word
  /-- cycle at which a refused access without a run-queue record is sent again (R281) -/
  resendAt : Option Nat
  /-- the fetch buffer, two bundles of global code by address (R108) -/
  buf : List (Word × Word)
  deriving DecidableEq, Repr

/-- A vector command in the queue or the engine (R157, R171). -/
structure VecCmd where
  tid : Nat
  pc : Word
  order : Nat
  issued : Nat
  busy : Nat
  flags : BitVec 6
  /-- destinations: `g` n as n, `v` k as 32 + k -/
  dsts : List (Nat × Vec)
  /-- the `once` unit it belongs to -/
  unit : Option (BitVec 32 × Word)
  deriving DecidableEq, Repr

/-- What a matrix command does (R176 to R180). -/
inductive MatOp where
  | mma (d : Nat) (a b : Word) (fmt : MatFmt) (sat : Bool) (n : Nat)
  | rot (d : Nat) (src : Option (Word × Word)) (fmt : MatFmt) (sat : Bool)
  | zero (d : Nat)
  | toV (d s row : Nat) (ty : FloatTy) (rm : Rm)
  | store (a : Word) (s : Nat) (ty : FloatTy) (rm : Rm)
  | load (d : Nat) (a : Word)
  deriving DecidableEq, Repr

/-- Where a matrix command stands (R178, R182). -/
inductive MatPhase where
  | queued
  /-- `mrot`: product step made, exchange under way -/
  | exchange (sendA sendB : Bool)
  | ending
  deriving DecidableEq, Repr

/-- A matrix command accepted by the engine (R181, R182). -/
structure MatCmd where
  num : Nat
  tid : Nat
  pc : Word
  order : Nat
  op : MatOp
  bank : Nat
  /-- first and last busy cycles, once known -/
  start : Option Nat
  last : Option Nat
  phase : MatPhase
  flags : BitVec 6
  deriving DecidableEq, Repr

/-- The page walk that an engine's access waits for (R310): its page, and its fault once it has ended in one, as cause and
qualifier. -/
structure EngineWalk where
  page : Nat
  fault : Option (Nat × Nat)
  deriving DecidableEq, Repr

/-- A copy command, queued or in flight (R187, R188). -/
structure Copy where
  num : Nat
  words : List Word
  tag : BitVec 6
  tid : Nat
  launch : Nat
  pc : Word
  issued : Nat
  /-- store-queue entries that must be acknowledged first -/
  waits : List Nat
  /-- elements read and not yet written -/
  vals : Tbl Word
  /-- elements finished -/
  done : List Nat
  failed : Bool
  walk : Option EngineWalk
  deriving DecidableEq, Repr

/-- A decode bank (R172). -/
structure Bank where
  table : BitVec 8192
  tag : Option (BitVec 12 × Word)
  encodable : Bool
  /-- being loaded: by which thread, for which `asid` and address -/
  loading : Option (Nat × BitVec 12 × Word)
  walk : Option EngineWalk
  deriving DecidableEq, Repr

/-- A task lane's ends and count (R140, R301); the entries stand in local memory. -/
structure Lane where
  near : Nat
  far : Nat
  count : Nat
  /-- positions whose `kids` increment is not acknowledged: position and store-queue entry -/
  pend : List (Nat × Nat)
  deriving DecidableEq, Repr

/-- A record in the inbox ring (R55): its offset and length, and the thread of a migration. -/
structure RingRec where
  off : Nat
  len : Nat
  /-- 1 message, 2 migration, 3 skip -/
  kind : Nat
  tid : Option Nat
  /-- packet of an `amo` that waits in a ring -/
  amo : Option Nat
  launch : Nat
  deriving DecidableEq, Repr

/-- A waiting context of the run queue (R279). -/
structure RunRec where
  tid : Nat
  ownq : BitVec 4
  /-- 0 share, 1 wait table, 2 suspension -/
  cause : Nat
  ready : Bool
  /-- cycle at which a refused context becomes ready by itself (R281) -/
  readyAt : Option Nat
  slot : Nat
  home : Nat
  /-- held accesses in issue order, with the packet numbers they had -/
  held : List (Nat × Body)
  deriving DecidableEq, Repr

/-- What the spill engine is doing (R275, R280, R284). -/
structure SpillJob where
  slot : Nat
  tid : Nat
  cause : Nat
  /-- owner queue the freed slot goes to -/
  toQueue : Option (BitVec 4)
  /-- withdraw requests in flight -/
  asked : List Nat
  /-- accesses withdrawn, with their packet numbers -/
  held : List (Nat × Body)
  deriving DecidableEq, Repr

/-- One core: a compute core, or the slots and ring of a channel core. -/
structure Core where
  slots : Vector Slot 16
  /-- slot that issued last (R37) -/
  last : Nat
  accs : Vector (BitVec 2048) 8
  afull : BitVec 8
  badAccs : List Nat
  curA : BitVec 1280
  curB : BitVec 1280
  incA : Option (BitVec 1280)
  incB : Option (BitVec 1280)
  mrotCount : Nat
  /-- most `mrot` commands accepted while the launch closes (R284) -/
  mrotMax : Option Nat
  /-- inter-slot queues `q0` to `q3`, oldest first (R60) -/
  qs : Vector (List Word) 4
  /-- lane-port words that have arrived from N, E, S, W (R61) -/
  ports : Vector (List Word) 4
  /-- lane-port words under way from N, E, S, W -/
  flying : Vector (List Word) 4
  tags : Word
  tagerr : Word
  reach : BitVec 2
  weights : Vector (BitVec 4) 16
  lanes : Vector Lane 4
  ring : List RingRec
  ringHead : Nat
  ringTail : Nat
  ringUsed : Nat
  /-- records held in the link: packet id and the cycle since which its stall timer runs (R56, R286) -/
  held : List (Nat × Nat)
  /-- retries of *ring stall* of each record held in the link, by packet id (R286) -/
  stallTries : Tbl Nat
  vecQ : List VecCmd
  /-- cycle after the engine's last busy cycle -/
  vecFree : Nat
  /-- started commands with the cycle of their completion -/
  vecRun : List (Nat × VecCmd)
  matQ : List MatCmd
  matFree : Nat
  matNum : Nat
  copyQ : List Copy
  copies : List Copy
  copyNum : Nat
  /-- cycle after the copy engine's last access (R188) -/
  copyFree : Nat
  banks : Vector Bank 2
  runq : List RunRec
  spill : Option SpillJob
  /-- restarts that wait for the next free slot (R143): frame answers -/
  restarts : List (FrameReq × FrameAns)
  deriving DecidableEq, Repr

/-! ### Squares -/

/-- A once record (R225). -/
structure OnceRec where
  occ : BitVec 32
  reached : BitVec 16
  elect : Nat
  posted : Bool
  unit : Word
  dsts : List Nat
  vals : List (Option Vec)
  deriving DecidableEq, Repr

/-- A translation held by a unit (R310). -/
structure Trans where
  asid : BitVec 12
  /-- virtual page number in units of 64 KiB; for a 32 MiB page its first -/
  page : Nat
  big : Bool
  frame : Nat
  x : Bool
  w : Bool
  rd : Bool
  deriving DecidableEq, Repr

/-- A line of the instruction cache (R109). -/
structure Line where
  asid : BitVec 12
  addr : Nat
  data : BitVec 512
  deriving DecidableEq, Repr

/-- A load of itinerary entries 768 to 1023 under way (R153): whether the cycle of its first read has ended, next
entry, its word as read, the writing core, `base` and the writer. -/
structure ItinLoad where
  started : Bool
  next : Nat
  word : Word
  core : Nat
  base : Nat
  tid : Nat
  deriving DecidableEq, Repr

/-- The street map as the switches hold it (R289, R291); the copy in HBM is written with it. -/
structure Streets where
  present : BitVec 4
  /-- turn mask of plane p on die d at index 6·d + p -/
  masks : Vector (BitVec 16) 24
  down : List LinkId
  failed : List LinkId
  deriving DecidableEq, Repr

/-- A writing of itinerary entries 0 to 767 of a square by its service core (R113): its number, the street map it
was made from, and the wards of the district in order. -/
structure Writing where
  num : Nat
  streets : Streets
  wards : List Nat
  deriving DecidableEq, Repr

/-- One square's shared parts. -/
structure Square where
  /-- entries 0 to 767 of the itinerary table, as they were last written -/
  service : Option Writing
  /-- itinerary entries 768 to 1023 that are not zero (R113) -/
  itin : Tbl Word
  /-- entries of the whole table with an uncorrectable error (R322) -/
  badItin : List Nat
  /-- `ITIN.base` (R153) -/
  itinBase : BitVec 16
  itinLoad : List ItinLoad
  trans : List Trans
  /-- walks running or waiting, in order of arrival: `asid` and 64 KiB page -/
  walks : List (BitVec 12 × Nat)
  /-- how far running walks have come: the levels still to go, and the table whose entry is read next (R306) -/
  walkAt : List ((BitVec 12 × Nat) × (Nat × Nat))
  lines : List Line
  /-- once records of the gangs of slots 0 to 14 -/
  once : Vector (List OnceRec) 16
  deriving DecidableEq, Repr

/-! ### Launches -/

/-- A level entry (R43). -/
structure Level where
  count : Nat
  retries : Nat
  policy : Nat
  scope : Nat
  barrier : Bool
  domain : Nat
  deadline : Nat
  deriving DecidableEq, Repr

/-- Arrivals at the barrier of one unit (R135). -/
structure Bar where
  level : Nat
  unit : Nat
  arrived : List Nat
  /-- in a level of scope `.host`: reads of the host received before this number are awaited (R232) -/
  bound : Nat
  deriving DecidableEq, Repr

/-- What a suspended launch keeps (R284, R285): images by district core and square, local memory by
district core, tumblers. -/
structure Saved where
  cores : Tbl Core
  squares : Tbl Square
  mem : List Host.Cell
  empt : List Nat
  tumblers : List (Nat × Word × BitVec 672 × BitVec 2048)
  deriving DecidableEq, Repr

/-- A loaded launch (R42, R271, R338). -/
structure Launch where
  asid : BitVec 12
  /-- service core that handled the request -/
  sc : Nat
  /-- the record's 24 words as loaded -/
  words : List Word
  entry : Word
  lmLo : Nat
  lmHi : Nat
  lanesOff : Nat
  ringOff : Nat
  ringSize : Nat
  lanex : Bool
  anyslot : Bool
  gregs : Nat
  vregs : Nat
  qmap : BitVec 32
  stall : Nat
  tumblers : BitVec 32
  fmtp : Word
  sclp : Word
  levels : List Level
  /-- physical wards in district order (R41) -/
  wards : List Nat
  shape : List (Nat × Nat × Nat)
  slotMap : List (BitVec 4)
  weights : List (BitVec 4)
  endWord : Nat
  /-- it is suspended, and no longer running (R284) -/
  suspended : Bool
  /-- it is being suspended (R284) -/
  closing : Bool
  start : Nat
  /-- (level, unit) whose deadline has been raised or ignored -/
  fired : List (Nat × Nat)
  bars : List Bar
  /-- distinct decode tables loaded since launch (R318) -/
  tables : List (BitVec 8192)
  /-- units (level, unit) whose ring stalls have been ignored (R325) -/
  stallOff : List (Nat × Nat)
  saved : Option Saved
  deriving DecidableEq, Repr

/-! ### Tumblers, heaps, Hamper -/

/-- A drain with the step that follows it (R210). -/
structure TnOp where
  /-- 0 tndrain, 1 tnset, 2 tnsave, 3 tnload -/
  kind : Nat
  arg : Word
  tid : Nat
  id : Nat
  core : Nat
  /-- it has reached the tumbler, whose entry is held -/
  begun : Bool
  /-- the page walk that its step waits for (R310) -/
  walk : Option EngineWalk
  deriving DecidableEq, Repr

/-- A token inside a tumbler, or on its way or held at its entry (R208, R210). -/
structure Token where
  wire : Nat
  layer : Nat
  tid : Nat
  id : Nat
  pc : Word
  parity : Option Word
  deriving DecidableEq, Repr

/-- A tumbler (R207, R334). -/
structure Tumbler where
  owner : Option Nat
  base : Word
  /-- bit n = 32·layer + balancer -/
  bits : BitVec 672
  /-- balancers whose parity is wrong -/
  badParity : List Nat
  counters : BitVec 2048
  /-- tokens at their balancers, in order of arrival there -/
  inside : List Token
  /-- tokens on their way to the entry -/
  entry : List Token
  /-- tokens held at the entry by a drain, in order of arrival (R288) -/
  arrived : List Token
  /-- balancers that pass two inputs alternately now, and the wire passed last (R288) -/
  turns : Tbl Nat
  ops : List TnOp
  deriving DecidableEq, Repr

/-- What a match walk has still to do (R203, R263). -/
inductive Goal where
  /-- a reference of the pattern is matched with the child class of a node -/
  | child (ref cls : Nat)
  /-- pattern node j is matched with the members of a class from one on -/
  | members (j node : Nat)
  deriving DecidableEq, Repr

/-- A partial match: the class of node 0, the variables bound, what is left. -/
structure Search where
  top : Nat
  vars : List (Option Nat)
  goals : List Goal
  deriving DecidableEq, Repr

/-- A match job at one channel (R203, R263). -/
structure Job where
  j : Half32
  words : List Word
  launch : Nat
  /-- district core index of the receiver -/
  dst : Nat
  next : Nat
  sent : Nat
  /-- partial matches of the scanned node, the first to go on -/
  front : List Search
  deriving DecidableEq, Repr

/-- Totals of one wave (R258). -/
structure WaveSum where
  s : Word
  r : Word
  a : Word
  busy : Bool
  deriving DecidableEq, Repr

/-- A wave pair under way: which wave, the channels already visited, the totals of both (R258). -/
structure Wave where
  second : Bool
  visited : Nat
  one : WaveSum
  two : WaveSum
  deriving DecidableEq, Repr

/-- A heap number (R244 to R258). The records stand in HBM. -/
structure Heap where
  /-- 0 free, 1 live, 2 releasing -/
  state : Nat
  asid : BitVec 12
  nodecap : Nat
  classcap : Nat
  pcap : Nat
  bktlog : Nat
  seg : Word
  segsz : Nat
  /-- physical 64 KiB frames of each channel's segment -/
  frames : List (List Nat)
  /-- classes held by a splice (R256) -/
  spliceHold : List Nat
  /-- channels whose worklist holds `classcap` entries, so that head and tail agree -/
  full : List Nat
  wave : Option Wave
  /-- `esettle` requests in the anchor's waiting table -/
  waiting : List (Nat × Nat)
  jobs : Vector (List Job) 256
  /-- service core, command and completion word of a release under way -/
  releasing : Option Cmd
  deriving DecidableEq, Repr

/-- A Hamper request (R214). -/
structure HReq where
  num : Nat
  stow : Bool
  ctl : Word
  asid : BitVec 12
  sc : Nat
  /-- word 3 of the control block as the thread read it at the issue -/
  done : Word
  /-- 0 queued, 1 it has left the queue and its block is read, 2 data written on the drive (`stow`) or header accepted
  (`unstow`) -/
  phase : Nat
  stamp : Word
  /-- `stow`: the pages read; `unstow`: the object read, its header first -/
  data : List (List Host.Cell)
  /-- pages finished -/
  pages : List Nat
  /-- atoms moved so far of pages under way (R236) -/
  atoms : Tbl Nat
  block : List Word
  /-- the drive has failed to read or write for it -/
  media : Bool
  deriving DecidableEq, Repr

/-- A stored object: header page and fold pages (R314). -/
structure Obj where
  header : List Host.Cell
  pages : List (List Host.Cell)
  deriving DecidableEq, Repr

/-- A drive namespace of an `asid` (R312). -/
structure Namespace where
  lbas : Nat
  objects : Tbl Obj
  deriving DecidableEq, Repr

/-- A Hamper core with its drive (R214, R312). -/
structure Hamper where
  queue : List HReq
  num : Nat
  namespaces : Tbl Namespace
  trans : List Trans
  deriving DecidableEq, Repr

/-! ### Recovery -/

/-- A row of a hot list (R330). -/
structure HotRow where
  row : Nat
  score : Nat
  age : Nat
  reported : Bool
  deriving DecidableEq, Repr

/-- A counter of R332: row of its table, what it counts for, and its value in this window. -/
structure Counter where
  row : Nat
  what : Nat
  count : Nat
  deriving DecidableEq, Repr

/-- A bank whose activates are held by an alert, and the postponed refreshes that still go before its refresh-management
command (R333). -/
structure Alert where
  chan : Nat
  bank : Nat
  postponed : Nat
  deriving DecidableEq, Repr

/-- What happens next, where the spec leaves an order open or the outside world acts: plain data. -/
inductive Choice where
  /-- the device's own step, or a command of the host -/
  | event (i : Instr)
  /-- core c has its issue turn -/
  | issue (c : Nat)
  /-- the machine goes on in the model's own order for n steps -/
  | course (n : Nat)
  /-- the cycle ends, with the turns that are still to come in it -/
  | cycle
  /-- a protected unit becomes correctable (false) or uncorrectable (true) -/
  | upset (unit : Nat) (bad : Bool)
  /-- an access finds and corrects an error in a register of a thread, in an accumulator, or in an itinerary entry
  of a square (R329) -/
  | fixReg (tid reg : Nat)
  | fixAcc (core acc : Nat)
  | fixItin (square entry : Nat)
  /-- a parity error is found in the k-th line or the k-th translation that a square holds, or the k-th of a
  Hamper core (R329) -/
  | parityLine (square k : Nat)
  | parityTrans (square k : Nat)
  | parityHamper (hamper k : Nat)
  /-- a submission entry of 64 bytes comes to a service core (R320) -/
  | entry (sc : Nat) (words : List Word)
  /-- a register of a thread (R329: `g` n, `v` 32 + k) becomes uncorrectable -/
  | upsetReg (tid reg : Nat)
  /-- an accumulator of a core becomes uncorrectable -/
  | upsetAcc (core acc : Nat)
  /-- an itinerary-table entry becomes uncorrectable -/
  | upsetItin (square entry : Nat)
  /-- a balancer's bit changes: tumbler, bit number -/
  | upsetTumbler (t n : Nat)
  /-- a drive fails for a request: Hamper core, request -/
  | upsetDrive (hamper req : Nat)
  deriving DecidableEq, Repr

/-- How far the bundle being issued has come (R88). -/
inductive Phase where
  /-- the issue checks and readiness are still to be made -/
  | fresh
  /-- they have passed; only effects remain -/
  | checked
  deriving DecidableEq, Repr

/-- The bundle that is issuing. -/
structure Ctx where
  tid : Nat
  core : Nat
  slot : Nat
  phase : Phase
  pc : Word
  /-- where the thread goes on: the next bundle, or a branch target -/
  target : Word
  instrs : List Instr
  /-- the registers as the bundle reads them (R88 step 3) -/
  pre : Regs
  /-- `FEXC` before the bundle -/
  flags : BitVec 6
  /-- words pushed to ports when the bundle completes -/
  pushes : List (BitVec 3 × Word)
  /-- the `once` unit whose governed bundle this is: address of the prefix, occurrence -/
  unit : Option (Word × BitVec 32)
  /-- a `once` bundle asks that its governed bundle runs -/
  governed : Bool
  /-- a transfer of the bundle is taken -/
  taken : Bool
  deriving DecidableEq, Repr

/-- The whole machine. -/
structure State where
  /-- `CLOCK` (R153) -/
  clock : Nat
  /-- HBM by physical address, local memory of compute core n from 2^40 + 65536·n; unlisted bytes are 0 -/
  mem : List Host.Cell
  /-- word keys (byte key / 8) whose full/empty bit is empty, rising -/
  empt : List Nat
  /-- protected units, as the word key of their first word, with a correctable and with an uncorrectable
  error (R329): an atom of HBM, a word of local memory -/
  soft : List Nat
  bad : List Nat
  /-- patched atoms of each stack (R331) -/
  patched : List Nat
  /-- host memory as far as the device or the host has written it -/
  hostMem : List Host.Cell
  threads : Tbl Thread
  cores : Tbl Core
  squares : Tbl Square
  launches : Tbl Launch
  sq : Tbl SqEntry
  net : Tbl Body
  /-- the ways of packets under way, by packet id (R233, R293) -/
  ways : Tbl Way
  /-- packets injected on a way so far -/
  stamp : Nat
  /-- replies and acknowledgements of `.host` scope: packet, key of the word, and the number below which the host reads
  of the word were received that they wait for (R131, R132, R232) -/
  hostHold : List (Nat × Nat × Nat)
  /-- waiting tables in order of entry: id and access (R39) -/
  waits : Tbl Body
  /-- contexts that wait for room at a home: home, core (R281) -/
  roomAsk : List (Nat × Nat)
  tumblers : Tbl Tumbler
  heaps : Tbl Heap
  hampers : Vector Hamper 4
  streets : Streets
  rootTable : Word
  ringAddr : Vector Nat 4
  smapAddr : Nat
  sensors : Vector Nat 4
  scrubPeriod : Vector Nat 8
  /-- cycle at which the scrubber's period of a stack was set; atoms read and hot-list passes made since (R330) -/
  scrubBase : Vector Nat 8
  scrubNext : Vector Nat 8
  hotNext : Vector Nat 8
  hot : Vector (List HotRow) 8
  counters : List Counter
  alerts : List Alert
  /-- cycles of refresh delay in this window, by die (R333) -/
  delay : Vector Nat 4
  /-- times the itinerary tables have been written (R113) -/
  writing : Nat
  /-- injections are held on these dies (R293) -/
  hold : List Nat
  nextId : Nat
  nextTid : Nat
  nextLid : Nat
  /-- counter the free values of Config are read at -/
  free : Nat
  /-- the security block holds the device in reset (R319) -/
  halted : Bool
  /-- mismatches of the boot ROM reported on the management interface (R319) -/
  mismatches : Nat
  /-- refusals of `unstow` as the service cores report them to the host beside the record of cause 0x47: the identifier, the
  object, and `layoutsig` and `npages` of the control block and of the header (R316) -/
  refusals : List (List Word)
  /-- the board has removed power (R4) -/
  unpowered : Bool
  ctx : Ctx
  /-- cores whose issue turn in this cycle is still to come -/
  turn : List Nat
  plan : List Choice
  /-- commands of the host that have been accepted and wait to go on (R284, R293) -/
  pending : List Instr
  /-- commands received by busy service cores, by number, oldest first (R241) -/
  queue : Tbl Instr
  deriving DecidableEq, Repr

/-! ### The reasons a step stops -/

/-- Reasons the machine stops with a fault. The faults of R322 are not among them: they are contained
(R325) and give a next state. -/
inductive Fault where
  /-- `exec` of an instruction of a bundle while no thread is issuing: raised by every instruction's
  meaning. Safe: `step` issues only from a slot that holds a thread. -/
  | noThread
  deriving DecidableEq, Repr

/-- Reasons the model gives no meaning. -/
inductive Refusal where
  /-- an instruction of the table without a meaning yet: raised by `exec`'s refused arms. Safe. -/
  | notModelled (mnemonic : String)
  deriving DecidableEq, Repr

/-! ### Reset -/

/-- Registers of a new thread: zero and full, `p1` to `p7` false, `p0` true (R48). -/
def Regs.fresh : Regs :=
  { g := Vector.replicate 32 0, gfull := BitVec.allOnes 32, v := Vector.replicate 8 0,
    vfull := BitVec.allOnes 8, preds := 1 }

/-- A free slot. -/
def Slot.free : Slot :=
  { tid := none, reserved := none, held := none, issued := 0, ownq := 0, event := false, seekAt := 0,
    victims := [], level := 0, resendAt := none, buf := [] }

def Lane.empty : Lane := { near := 0, far := 0, count := 0, pend := [] }

def Bank.empty : Bank := { table := 0, tag := none, encodable := false, loading := none, walk := none }

/-- A core as it is granted (R272, R304): everything clear, accumulators +0 and full, tags ready. -/
def Core.clear : Core :=
  { slots := Vector.replicate 16 Slot.free, last := 15, accs := Vector.replicate 8 0,
    afull := BitVec.allOnes 8, badAccs := [], curA := 0, curB := 0, incA := none, incB := none,
    mrotCount := 0, mrotMax := none, qs := Vector.replicate 4 [], ports := Vector.replicate 4 [],
    flying := Vector.replicate 4 [], tags := BitVec.allOnes 64, tagerr := 0, reach := 3,
    weights := Vector.replicate 16 0, lanes := Vector.replicate 4 Lane.empty, ring := [], ringHead := 0,
    ringTail := 0, ringUsed := 0, held := [], stallTries := [], vecQ := [], vecFree := 0, vecRun := [],
    matQ := [], matFree := 0, matNum := 0, copyQ := [], copies := [], copyNum := 0, copyFree := 0,
    banks := Vector.replicate 2 Bank.empty, runq := [], spill := none, restarts := [] }

def Square.clear : Square :=
  { service := none, itin := [], badItin := [], itinBase := 0, itinLoad := [], trans := [], walks := [], walkAt := [], lines := [],
    once := Vector.replicate 16 [] }

/-- A tumbler as it is allocated (R304). -/
def Tumbler.clear : Tumbler :=
  { owner := none, base := 0, bits := 0, badParity := [], counters := 0, inside := [], entry := [],
    arrived := [], turns := [], ops := [] }

/-- A heap number that is free. -/
def Heap.free : Heap :=
  { state := 0, asid := 0, nodecap := 0, classcap := 0, pcap := 0, bktlog := 0, seg := 0, segsz := 0,
    frames := [], spliceHold := [], full := [], wave := none, waiting := [], jobs := Vector.replicate 256 [],
    releasing := none }

/-- Requests that wait in the queue (R214). -/
def Hamper.waiting (h : Hamper) : Nat := (h.queue.filter fun r => r.phase = 0).length

def Hamper.idle : Hamper := { queue := [], num := 0, namespaces := [], trans := [] }

/-- No bundle is issuing. -/
def Ctx.idle : Ctx :=
  { tid := 0, core := 0, slot := 0, phase := .fresh, pc := 0, target := 0, instrs := [], pre := Regs.fresh,
    flags := 0, pushes := [], unit := none, governed := false, taken := false }

/-- The street map at reset: four dies, the reset turn masks of R291, no link or gate down. -/
def Streets.reset : Streets :=
  { present := 0xF, masks := Vector.replicate 24 0xDE33, down := [], failed := [] }

/-- Where the street map stands in HBM (notes/assumptions/6). -/
def smapBase : Nat := 0x5FFFDF0000

/-- The bytes of the street map at reset that are not zero: the dies present, the turn masks (R289, R291, R341). -/
def resetMap : List Host.Cell :=
  (smapBase, 0x0F) :: (List.range 24).flatMap fun k =>
    [(smapBase + 64 + 2 * k, 0x33), (smapBase + 65 + 2 * k, 0xDE)]

/-- The machine right after cold reset (R319, R336): no launch; HBM zero and full but for the street map, which is at
its reset values. The places of the report rings and of the street map in HBM, the root table's address and
the temperatures are the model's choices (notes/assumptions 6 and 7). -/
def State.reset : State :=
  { clock := 0, mem := resetMap, empt := [], soft := [], bad := [], patched := [], hostMem := [], threads := [],
    cores := [], squares := [], launches := [], sq := [], net := [], ways := [], stamp := 0, hostHold := [],
    waits := [], roomAsk := [], tumblers := [], heaps := [], hampers := Vector.replicate 4 Hamper.idle, streets := Streets.reset,
    rootTable := 0,
    ringAddr := #v[0x5FFFE00000, 0x5FFFE80000, 0x5FFFF00000, 0x5FFFF80000], smapAddr := smapBase,
    sensors := Vector.replicate 4 25, scrubPeriod := Vector.replicate 8 86400,
    scrubBase := Vector.replicate 8 0, scrubNext := Vector.replicate 8 0, hotNext := Vector.replicate 8 0,
    hot := Vector.replicate 8 [], counters := [], alerts := [], delay := Vector.replicate 4 0, writing := 0, hold := [],
    nextId := 1, nextTid := 1, nextLid := 1, free := 0, halted := false, mismatches := 0, refusals := [], unpowered := false,
    ctx := Ctx.idle, turn := [], plan := [], pending := [], queue := [] }

end Sys2Proof.Machine
end

