-- ==== Sys2Proof/Machine/Mem.lean ====
section
/-!
DEFINITION. Finite maps in canonical form, memory as such a map, little-endian accesses (R9), and the
full/empty bits of words (R228). Byte order and the canonical form are decided here, once.
-/

namespace Sys2Proof.Machine

/-! ### Finite maps -/

/-- The value at a key. -/
def tget {α : Type} : Tbl α → Nat → Option α
  | [], _ => none
  | (k, x) :: r, i => if k = i then some x else tget r i

/-- Set the value at a key, keeping the keys in rising order. -/
def tput {α : Type} : Tbl α → Nat → α → Tbl α
  | [], i, y => [(i, y)]
  | (k, x) :: r, i, y =>
    if i < k then (i, y) :: (k, x) :: r else if k = i then (i, y) :: r else (k, x) :: tput r i y

/-- Remove a key. -/
def tdel {α : Type} (l : Tbl α) (i : Nat) : Tbl α := l.filter fun p => p.1 != i

/-- Change the value at a key, where there is one. -/
def tmod {α : Type} (l : Tbl α) (i : Nat) (f : α → α) : Tbl α :=
  match tget l i with
  | some x => tput l i (f x)
  | none => l

/-! ### Memory -/

/-- An unlisted byte reads as zero (R336, R304). -/
def readByte (m : List Host.Cell) (k : Nat) : Byte := (tget m k).getD 0

/-- Write one byte; a zero is not listed. -/
def writeByte (m : List Host.Cell) (k : Nat) (b : Byte) : List Host.Cell :=
  if b = 0 then tdel m k else tput m k b

/-- The n bytes from k as a little-endian number (R9). -/
def readLE (m : List Host.Cell) (k : Nat) : Nat → Nat
  | 0 => 0
  | n + 1 => (readByte m k).toNat + 256 * readLE m (k + 1) n

/-- Write the low n bytes of v from k, little-endian. -/
def writeLE (m : List Host.Cell) (k : Nat) : Nat → Nat → List Host.Cell
  | 0, _ => m
  | n + 1, v => writeLE (writeByte m k (BitVec.ofNat 8 v)) (k + 1) n (v / 256)

/-- The keys of a map rise strictly. -/
def rising {α : Type} : Tbl α → Bool
  | [] => true
  | [_] => true
  | (k, _) :: (k', x') :: r => k < k' && rising ((k', x') :: r)

/-- The canonical form of memory: rising addresses, no zero listed. -/
def memWf (m : List Host.Cell) : Bool := rising m && m.all fun p => p.2 != 0

/-- The bytes of a list from k on, for records that are written whole. -/
def writeBytes (m : List Host.Cell) (k : Nat) : List Byte → List Host.Cell
  | [] => m
  | b :: r => writeBytes (writeByte m k b) (k + 1) r

/-- n bytes from k. -/
def readBytes (m : List Host.Cell) (k : Nat) : Nat → List Byte
  | 0 => []
  | n + 1 => readByte m k :: readBytes m (k + 1) n

/-- n words of 8 bytes from k. -/
def readWords (m : List Host.Cell) (k : Nat) : Nat → List Word
  | 0 => []
  | n + 1 => BitVec.ofNat 64 (readLE m k 8) :: readWords m (k + 8) n

/-- Write words of 8 bytes from k. -/
def writeWords (m : List Host.Cell) (k : Nat) : List Word → List Host.Cell
  | [] => m
  | w :: r => writeWords (writeLE m k 8 w.toNat) (k + 8) r

/-- Drop every cell from k to k + n - 1. -/
def dropCells (m : List Host.Cell) (k n : Nat) : List Host.Cell :=
  m.filter fun p => p.1 < k || k + n ≤ p.1

/-- The cells from k to k + n - 1, numbered from j. -/
def moveCells (m : List Host.Cell) (k n j : Nat) : List Host.Cell :=
  (m.filter fun p => k ≤ p.1 && p.1 < k + n).map fun p => (p.1 - k + j, p.2)

/-- Put a block of cells into memory. -/
def mergeCells (m : List Host.Cell) (b : List Host.Cell) : List Host.Cell :=
  b.foldl (fun m p => writeByte m p.1 p.2) m

/-! ### Sorted sets -/

/-- Insert into a rising list. -/
def sadd : List Nat → Nat → List Nat
  | [], i => [i]
  | k :: r, i => if i < k then i :: k :: r else if k = i then k :: r else k :: sadd r i

/-- Remove from a list. -/
def sdel (l : List Nat) (i : Nat) : List Nat := l.filter fun k => k != i

/-- Whether a list of numbers rises strictly. -/
def risingNat : List Nat → Bool
  | [] => true
  | [_] => true
  | k :: k' :: r => k < k' && risingNat (k' :: r)

/-! ### The machine's memory -/

/-- Key of the first byte of local memory. -/
def localBase : Nat := 2 ^ 40

/-- Key of byte `off` of the local memory of compute core n (R228). -/
def localKey (core off : Nat) : Nat := localBase + 65536 * core + off

/-- First physical address past HBM: 384 GiB (R308). -/
def hbmEnd : Nat := 384 * 2 ^ 30

def State.load (s : State) (k n : Nat) : Nat := readLE s.mem k n

def State.loadWord (s : State) (k : Nat) : Word := BitVec.ofNat 64 (readLE s.mem k 8)

def State.store (s : State) (k n v : Nat) : State := { s with mem := writeLE s.mem k n v }

def State.storeWord (s : State) (k : Nat) (v : Word) : State := s.store k 8 v.toNat

/-- The full/empty bit of the 8-byte word that holds byte k (R127). -/
def State.isFull (s : State) (k : Nat) : Bool := !s.empt.contains (k / 8)

def State.setFull (s : State) (k : Nat) : State := { s with empt := sdel s.empt (k / 8) }

def State.setEmpty (s : State) (k : Nat) : State := { s with empt := sadd s.empt (k / 8) }

/-- The first bytes of the words an access of n bytes at k acts on (R127: the four of the atom for 32). -/
def wordsOf (k n : Nat) : List Nat :=
  if n = 32 then [k, k + 8, k + 16, k + 24] else [k / 8 * 8]

def State.allFull (s : State) (k n : Nat) : Bool := (wordsOf k n).all s.isFull

def State.allEmpty (s : State) (k n : Nat) : Bool := (wordsOf k n).all fun w => !s.isFull w

def State.fillWords (s : State) (k n : Nat) : State := (wordsOf k n).foldl State.setFull s

def State.emptyWords (s : State) (k n : Nat) : State := (wordsOf k n).foldl State.setEmpty s

/-- Protected units, as the key of their first word: an atom of HBM, a word of local memory (R329). -/
def errUnit (k : Nat) : Nat := if k < localBase then k / 32 * 4 else k / 8

/-- The protected units that n bytes from k touch. -/
def errUnits (k n : Nat) : List Nat :=
  if localBase ≤ k && n = 32 then [k / 8, k / 8 + 1, k / 8 + 2, k / 8 + 3] else [errUnit k]

/-- An uncorrectable error stands in a unit that n bytes from k touch (R329). -/
def State.isBad (s : State) (k n : Nat) : Bool := (errUnits k n).any s.bad.contains

/-- Units that are written whole carry fresh ECC (R329). -/
def State.healed (s : State) (k n : Nat) : State :=
  { s with bad := s.bad.filter fun u => !(errUnits k n).contains u,
           soft := s.soft.filter fun u => !(errUnits k n).contains u }

/-! ### Host memory -/

/-- The bytes of a word, low byte first (R9). -/
def wordBytes (w : Word) : List Byte := (List.range 8).map fun i => w.extractLsb' (8 * i) 8

/-- A byte of host memory: as it was last written, else as the host has it. -/
def State.hostByte (s : State) (a : Nat) : Byte :=
  match tget s.hostMem a with
  | some b => b
  | none => Config.hostByte a

/-- Put bytes at rising keys of a map from k on, zeros too. -/
def putBytes (m : List Host.Cell) (k : Nat) : List Byte → List Host.Cell
  | [] => m
  | b :: r => putBytes (tput m k b) (k + 1) r

/-- Write bytes to host memory. -/
def State.toHost (s : State) (a : Nat) (bs : List Byte) : State := { s with hostMem := putBytes s.hostMem a bs }

end Sys2Proof.Machine
end

