-- ==== Sys2Proof/Machine/Layout.lean ====
section
/-!
DEFINITION. Where things stand: the numbering of cores, squares, wards and dies (R40, R41, R289, R290),
the district of a launch, and the accessors of the state's tables.
-/

namespace Sys2Proof.Machine

/-! ### Numbering -/

/-- First number of the channel cores and of the plaza cores. -/
def channelBase : Nat := 8192
def plazaBase : Nat := 8448

/-- Column and row of a core in its ward's lane torus (R41). -/
def laneX (core : Nat) : Nat := core % 8
def laneY (core : Nat) : Nat := core / 8 % 8

/-- The physical square of a compute core. -/
def squareOf (core : Nat) : Nat := core / 64 * 4 + laneY core / 4 * 2 + laneX core / 4

/-- Position of a core in its square, row-major (R136). -/
def posInSquare (core : Nat) : Nat := laneY core % 4 * 4 + laneX core % 4

/-- The core at a position of a square. -/
def coreAt (square pos : Nat) : Nat :=
  square / 4 * 64 + (square % 4 / 2 * 4 + pos / 4) * 8 + square % 2 * 4 + pos % 4

/-- Die of a physical square. -/
def dieOfSquare (square : Nat) : Nat := square / 128

/-- Die of a core; a plaza core counts under the die it serves. -/
def dieOf (core : Nat) : Nat :=
  if core < channelBase then core / 2048 else if core < plazaBase then (core - channelBase) / 64
  else (core - plazaBase) % 4

/-- Column and row of a square in its die's torus: wards stand row-major, eight to a row (R289). -/
def squareX (square : Nat) : Nat := square / 4 % 8 * 2 + square % 2
def squareY (square : Nat) : Nat := square / 4 % 32 / 8 * 2 + square % 4 / 2

/-- The square of die d at column x and row y. -/
def squareAt (d x y : Nat) : Nat := (d * 32 + y / 2 * 8 + x / 2) * 4 + y % 2 * 2 + x % 2

/-- The square a channel core attaches to (R290). -/
def channelSquare (c : Nat) : Nat :=
  squareAt (c / 64) (c % 32 / 2) (if c % 64 < 32 then 0 else 7)

/-- The HBM4 channel of a physical address (R308). -/
def channelOf (phys : Nat) : Nat := phys / 65536 % 256

/-- The home of a byte key: the core that owns it (R228). -/
def homeOf (key : Nat) : Nat :=
  if key < localBase then channelBase + channelOf key else (key - localBase) / 65536

/-- The street square from which a core's packets start. -/
def streetSquare (core : Nat) : Nat :=
  if core < channelBase then squareOf core else channelSquare (core - channelBase)

/-! ### Accessors -/

def State.core (s : State) (c : Nat) : Core := (tget s.cores c).getD Core.clear

def State.setCore (s : State) (c : Nat) (x : Core) : State := { s with cores := tput s.cores c x }

def State.modCore (s : State) (c : Nat) (f : Core → Core) : State := s.setCore c (f (s.core c))

def State.square (s : State) (q : Nat) : Square := (tget s.squares q).getD Square.clear

def State.modSquare (s : State) (q : Nat) (f : Square → Square) : State :=
  { s with squares := tput s.squares q (f (s.square q)) }

def State.thread? (s : State) (t : Nat) : Option Thread := tget s.threads t

def State.setThread (s : State) (t : Nat) (x : Thread) : State := { s with threads := tput s.threads t x }

/-- Change a thread that lives. -/
def State.modThread (s : State) (t : Nat) (f : Thread → Thread) : State :=
  { s with threads := tmod s.threads t f }

def State.launch? (s : State) (l : Nat) : Option Launch := tget s.launches l

def State.modLaunch (s : State) (l : Nat) (f : Launch → Launch) : State :=
  { s with launches := tmod s.launches l f }

def State.tumbler (s : State) (t : Nat) : Tumbler := (tget s.tumblers t).getD Tumbler.clear

def State.modTumbler (s : State) (t : Nat) (f : Tumbler → Tumbler) : State :=
  { s with tumblers := tput s.tumblers t (f (s.tumbler t)) }

def State.heap (s : State) (h : Nat) : Heap := (tget s.heaps h).getD Heap.free

def State.modHeap (s : State) (h : Nat) (f : Heap → Heap) : State :=
  { s with heaps := tput s.heaps h (f (s.heap h)) }

/-- Free for a message, a visitor or a context: no thread, not reserved, not held. -/
def Slot.isFree (x : Slot) : Bool := x.tid.isNone && x.reserved.isNone && x.held.isNone

/-- Slot n of a core. -/
def Core.slot (c : Core) (n : Nat) : Slot := if h : n < 16 then c.slots[n] else Slot.free

def Core.modSlot (c : Core) (n : Nat) (f : Slot → Slot) : Core :=
  if h : n < 16 then { c with slots := c.slots.set n (f c.slots[n]) } else c

def State.slot (s : State) (c n : Nat) : Slot := (s.core c).slot n

def State.modSlot (s : State) (c n : Nat) (f : Slot → Slot) : State := s.modCore c fun x => x.modSlot n f

/-- A fresh packet number. -/
def State.fresh (s : State) : Nat × State := (s.nextId, { s with nextId := s.nextId + 1 })

/-- Put a packet on the network under a fresh number. -/
def State.inject (s : State) (b : Body) : State :=
  { s with net := tput s.net s.nextId b, nextId := s.nextId + 1 }

def State.packet? (s : State) (id : Nat) : Option Body := tget s.net id

def State.dropPacket (s : State) (id : Nat) : State := { s with net := tdel s.net id }

/-- The clock as a word (R153). -/
def State.clockWord (s : State) : Word := BitVec.ofNat 64 s.clock

/-! ### Districts -/

/-- Number of cores of the district. -/
def Launch.cores (l : Launch) : Nat := l.wards.length * 64

/-- The physical core of a district core index (R41). -/
def Launch.coreOf (l : Launch) (c : Nat) : Nat := l.wards.getD (c / 64) 0 * 64 + c % 64

/-- The physical square of a district square index (R41). -/
def Launch.squareOf (l : Launch) (q : Nat) : Nat := l.wards.getD (q / 4) 0 * 4 + q % 4

/-- The district ward of a physical core. -/
def Launch.wardIdx (l : Launch) (core : Nat) : Nat := l.wards.findIdx fun w => w == core / 64

/-- The district core index of a physical core. -/
def Launch.coreIdx (l : Launch) (core : Nat) : Nat := l.wardIdx core * 64 + core % 64

def Launch.squareIdx (l : Launch) (core : Nat) : Nat := l.wardIdx core * 4 + Machine.squareOf core % 4

/-- Whether a physical compute core belongs to the district. -/
def Launch.owns (l : Launch) (core : Nat) : Bool :=
  !l.suspended && core < channelBase && l.wards.contains (core / 64)

/-- Physical cores of the district in order. -/
def Launch.allCores (l : Launch) : List Nat :=
  l.wards.flatMap fun w => (List.range 64).map fun n => w * 64 + n

/-- Physical squares of the district in order. -/
def Launch.allSquares (l : Launch) : List Nat :=
  l.wards.flatMap fun w => (List.range 4).map fun n => w * 4 + n

/-- The launch that holds a compute core. -/
def State.launchOn (s : State) (core : Nat) : Option (Nat × Launch) :=
  s.launches.find? fun p => p.2.owns core

/-- A launch with nothing in it, for threads whose launch has ended. -/
def Launch.blank : Launch :=
  { asid := 0, sc := 0, words := [], entry := 0, lmLo := 0, lmHi := 0, lanesOff := 0, ringOff := 0,
    ringSize := 0, lanex := false, anyslot := false, gregs := 0, vregs := 0, qmap := 0, stall := 0,
    tumblers := 0, fmtp := 0, sclp := 0, levels := [], wards := [], shape := [], slotMap := [],
    weights := [], endWord := 0, suspended := false, closing := false, start := 0, fired := [], bars := [], tables := [],
    stallOff := [], saved := none }

def State.launchOf (s : State) (t : Thread) : Launch := (s.launch? t.launch).getD Launch.blank

/-- The core where a thread stands, for the identity specials. -/
def Thread.coreNow (t : Thread) : Nat :=
  match t.place with
  | .slot c _ => c
  | .ring c => c
  | .context c => c
  | _ => t.homeCore

/-- Away from its home core and slot (R50). -/
def Thread.away (t : Thread) : Bool :=
  match t.place with
  | .slot c s => !(c == t.homeCore && s == t.homeSlot)
  | .ring _ => true
  | _ => false

/-- The neighbour of a core in direction 0 N, 1 E, 2 S, 3 W in its ward's torus. Rows rise to the north, columns to the east. -/
def wrapOf (core dir : Nat) : Nat :=
  let x := laneX core; let y := laneY core; let w := core / 64
  if dir = 0 then w * 64 + (y + 1) % 8 * 8 + x
  else if dir = 1 then w * 64 + y * 8 + (x + 1) % 8
  else if dir = 2 then w * 64 + (y + 7) % 8 * 8 + x
  else w * 64 + y * 8 + (x + 7) % 8

/-- The core that a lane port of a direction sends to: the ward's torus, or the plain link to the neighbouring ward where
`lanex` allows it (R61). -/
def State.neighbour (s : State) (core dir : Nat) : Nat :=
  let x := laneX core; let y := laneY core; let w := core / 64
  let wrap := wrapOf core dir
  let edge := (dir = 0 && y = 7) || (dir = 1 && x = 7) || (dir = 2 && y = 0) || (dir = 3 && x = 0)
  if !edge then wrap
  else
    match s.launchOn core with
    | none => wrap
    | some (_, l) =>
      if !l.lanex then wrap
      else
        let d := w / 32; let wx := w % 8; let wy := w % 32 / 8
        let out := (dir = 0 && wy = 3) || (dir = 1 && wx = 7) || (dir = 2 && wy = 0) || (dir = 3 && wx = 0)
        if out then wrap
        else
          let w' := if dir = 0 then w + 8 else if dir = 1 then w + 1 else if dir = 2 then w - 8 else w - 1
          if w' / 32 = d && l.wards.contains w' then
            if dir = 0 then w' * 64 + x else if dir = 1 then w' * 64 + y * 8
            else if dir = 2 then w' * 64 + 56 + x else w' * 64 + y * 8 + 7
          else wrap

/-- The direction from which a neighbour sees a word sent in direction d. -/
def oppositeDir (d : Nat) : Nat := (d + 2) % 4

/-- The cores whose links of a direction end at a core: at the edge of a district under `lanex` there may be two, or none. -/
def State.sendersTo (s : State) (core dir : Nat) : List Nat :=
  ([s.neighbour core (oppositeDir dir), wrapOf core (oppositeDir dir)].eraseDups).filter fun c => s.neighbour c dir == core

end Sys2Proof.Machine
end

