-- ==== Sys2Proof/Machine/Route.lean ====
section
/-!
DEFINITION. Itineraries (R113 to R115), the checks made at injection (R292), the street map's copy in HBM
(R289), the dependence-graph check of turn masks (R294), and the routes of the device's own traffic.
-/

namespace Sys2Proof.Machine

/-! ### Parsing -/

/-- A segment of an itinerary: a run of squares in a direction, or a crossing to a die (R114). -/
inductive Seg where
  | run (dir n : Nat)
  | hub (die : Nat)
  deriving DecidableEq, Repr

/-- Bits hi to lo of a word as a number. -/
abbrev bits (w : Word) (lo n : Nat) : Nat := (w.extractLsb' lo n).toNat

/-- The plane class of an itinerary word (R114). -/
def planeOf (w : Word) : Nat := bits w 62 2

/-- Whether the itinerary continues in the next entry (R114). -/
def contOf (w : Word) : Bool := w.getLsbD 61

/-- Read the fields i to 9: segments so far reversed, whether a hub field and the end have been seen. The
result is none where a field breaks R114 or R115, else the segments, hub seen, ended. -/
def parseFields (w : Word) (hubx : Bool) : Nat → List Seg → Bool → Bool → Option (List Seg × Bool × Bool)
  | 0, acc, hub, ended => some (acc.reverse, hub, ended)
  | n + 1, acc, hub, ended =>
    let f := bits w (6 * (9 - n)) 6
    let dir := f / 16; let run := f % 16
    if ended then if f = 0 then parseFields w hubx n acc hub true else none
    else if run != 0 then parseFields w hubx n (.run dir run :: acc) hub false
    else if hubx && !hub then parseFields w hubx n (.hub dir :: acc) true false
    else if dir = 0 then parseFields w hubx n acc hub true
    else none

/-- The segments of an itinerary of one or two words, where it is well formed (R115). -/
def parseItinerary (w0 w1 : Word) : Option (List Seg) :=
  if planeOf w0 = 3 then none
  else
    match parseFields w0 (w0.getLsbD 60) 10 [] false false with
    | none => none
    | some (s0, hub0, end0) =>
      if !contOf w0 then some s0
      else if end0 || contOf w1 || planeOf w1 != planeOf w0 then none
      else
        match parseFields w1 (w1.getLsbD 60) 10 [] false false with
        | none => none
        | some (s1, hub1, _) => if hub0 && hub1 then none else some (s0 ++ s1)

/-! ### The injection checks -/

/-- Number of a link for LinkId comparisons: the out-link of a die square (R289). -/
def Streets.linkDown (t : Streets) (square dir : Nat) : Bool :=
  t.down.contains (.street (dieOfSquare square) (16 * squareY square + squareX square) (BitVec.ofNat 2 dir))

def Streets.gateDown (t : Streets) (die g : Nat) : Bool := t.down.contains (.gate die g)

/-- The square one step away in a street direction, and whether the step is a wrap (R114, R290). -/
def streetStep (square dir : Nat) : Nat × Bool :=
  let d := dieOfSquare square; let x := squareX square; let y := squareY square
  if dir = 0 then (squareAt d ((x + 1) % 16) y, x = 15)
  else if dir = 1 then (squareAt d x ((y + 1) % 8), y = 7)
  else if dir = 2 then (squareAt d ((x + 15) % 16) y, x = 0)
  else (squareAt d x ((y + 7) % 8), y = 0)

/-- Whether a turn mask lets a packet that travelled in direction i leave in direction o (R291). -/
def turnAllowed (mask : BitVec 16) (i o : Nat) : Bool :=
  if i = o then true else if (i + 2) % 4 = o then false else mask.getLsbD (4 * i + o)

/-- Where a packet stands on its way (R292). -/
structure Hop where
  sq : Nat
  post : Bool
  last : Option Nat
  deriving DecidableEq, Repr

/-- What the checks of a packet need beside the map. -/
structure Trip where
  cls : Nat
  /-- squares of the district -/
  inDistrict : Nat → Bool
  /-- an `amo` trip to or from a channel core (R113) -/
  amo : Bool
  send : Bool

/-- One link of a run: `Except` with the qualifier of R322. -/
def Streets.step (t : Streets) (p : Trip) (dir : Nat) (h : Hop) : Except Nat Hop :=
  let mask := (t.masks.toList.getD (6 * dieOfSquare h.sq + 2 * p.cls + if h.post then 1 else 0) 0)
  let turn := match h.last with | none => true | some l => turnAllowed mask l dir
  if !turn then .error 3
  else if t.linkDown h.sq dir then .error 4
  else
    let (sq, wrap) := streetStep h.sq dir
    if wrap && h.post then .error 5
    else if p.cls = 2 && !p.inDistrict sq && !p.amo then .error 7
    else .ok { sq := sq, post := h.post || wrap, last := some dir }

def Streets.run (t : Streets) (p : Trip) (dir : Nat) : Nat → Hop → Except Nat Hop
  | 0, h => .ok h
  | n + 1, h =>
    match t.step p dir h with
    | .error q => .error q
    | .ok h' => t.run p dir n h'

/-- A crossing through the Plaza die (R290, R292). -/
def Streets.cross (t : Streets) (die : Nat) (h : Hop) : Except Nat Hop :=
  let g := squareY h.sq
  if h.post then .error 5
  else if squareX h.sq != 0 || t.gateDown (dieOfSquare h.sq) g || t.gateDown die g || !t.present.getLsbD die
  then .error 6
  else .ok { sq := squareAt die 0 g, post := true, last := none }

def Streets.walk (t : Streets) (p : Trip) : List Seg → Hop → Except Nat Hop
  | [], h => .ok h
  | .run dir n :: r, h =>
    match t.run p dir n h with
    | .error q => .error q
    | .ok h' => t.walk p r h'
  | .hub die :: r, h =>
    match t.cross die h with
    | .error q => .error q
    | .ok h' => t.walk p r h'

/-- `Route` of R292: the square of ejection, or the qualifier of *itinerary check*. -/
def Streets.route (t : Streets) (p : Trip) (w0 w1 : Word) (src : Nat) : Except Nat Nat :=
  match parseItinerary w0 w1 with
  | none => .error 1
  | some segs =>
    match t.walk p segs { sq := src, post := false, last := none } with
    | .error q => .error q
    | .ok h =>
      let y := squareY h.sq
      if p.inDistrict h.sq then .ok h.sq
      else if p.send then .error 7
      else if y = 0 || y = 7 then .ok h.sq
      else .error 7

/-! ### Routes the service core writes (R113) -/

/-- Put segments into one itinerary word; at most ten are used here. -/
def segWord (cls : Nat) (segs : List Seg) : Word :=
  let hub := segs.any fun s => match s with | .hub _ => true | _ => false
  let field := fun s => match s with | Seg.run d n => 16 * d + n | Seg.hub d => 16 * d
  BitVec.ofNat 64 (cls * 2 ^ 62 + (if hub then 2 ^ 60 else 0)
    + (segs.foldr (fun s acc => field s + 64 * acc) 0))

/-- Runs between two squares of a die that the mask 0xDE33 lets pass and that cross no wrap link: negative
directions first (R291, R294). -/
def directSegs (src dst : Nat) : List Seg :=
  let x := squareX src; let y := squareY src; let x' := squareX dst; let y' := squareY dst
  (if x' < x then [Seg.run 2 (x - x')] else []) ++ (if y' < y then [Seg.run 3 (y - y')] else [])
    ++ (if x < x' then [Seg.run 0 (x' - x)] else []) ++ (if y < y' then [Seg.run 1 (y' - y)] else [])

/-- A route from a square to a square: direct on one die, through the gate of its row between dies. -/
def defaultRoute (cls src dst : Nat) : Word :=
  if dieOfSquare src = dieOfSquare dst then segWord cls (directSegs src dst)
  else
    let g := squareAt (dieOfSquare src) 0 (squareY src)
    let g' := squareAt (dieOfSquare dst) 0 (squareY src)
    segWord cls (directSegs src g ++ [Seg.hub (dieOfSquare dst)] ++ directSegs g' dst)

def hubCount (w0 w1 : Word) : Nat :=
  match parseItinerary w0 w1 with
  | none => 0
  | some segs => (segs.filter fun s => match s with | .hub _ => true | _ => false).length

/-- What entry e (0 to 767) leads to: a channel core's square, or a square of the district; nothing beyond it. -/
def Writing.target (x : Writing) (e : Nat) : Option Nat :=
  if e < 256 then some (channelSquare e)
  else if (e - 256) / 4 < x.wards.length then some (x.wards.getD ((e - 256) / 4) 0 * 4 + (e - 256) % 4)
  else none

/-- The trip that entry e serves, for the checks of R113. -/
def Writing.trip (x : Writing) (e : Nat) : Trip :=
  { cls := if e < 256 then 0 else 2, inDistrict := fun q => x.wards.contains (q / 4), amo := false, send := false }

/-- One or two words that have the properties of R113 for an entry that leads to square q. -/
def Writing.admits (x : Writing) (square e q : Nat) (w0 w1 : Word) : Bool :=
  planeOf w0 = (x.trip e).cls && hubCount w0 w1 ≤ 1
    && (match x.streets.route (x.trip e) w0 w1 square with
        | .ok q' => q' = q
        | .error _ => false)

/-- Every segment an itinerary may hold. -/
def allSegs : List Seg :=
  ((List.range 4).flatMap fun d => (List.range 15).map fun n => Seg.run d (n + 1)) ++ (List.range 4).map Seg.hub

/-- The first way of at most n segments to a square, breadth first, over places not seen before. -/
def Streets.findWay (t : Streets) (p : Trip) (q : Nat) : Nat → List (Hop × List Seg) → List Hop → Option (List Seg)
  | 0, front, _ => (front.find? fun x => x.1.sq == q).map Prod.snd
  | n + 1, front, seen =>
    match front.find? fun x => x.1.sq == q with
    | some x => some x.2
    | none =>
      let next := front.foldl (fun (acc : List (Hop × List Seg) × List Hop) x =>
        allSegs.foldl (fun (acc : List (Hop × List Seg) × List Hop) g =>
          match t.walk p [g] x.1 with
          | .error _ => acc
          | .ok h => if acc.2.contains h then acc else (acc.1 ++ [(h, x.2 ++ [g])], h :: acc.2)) acc) ([], seen)
      t.findWay p q n next.1 next.2

/-- A route of one word to a square, where there is one. -/
def Writing.found (x : Writing) (square e q : Nat) : Option Word :=
  let start : Hop := { sq := square, post := false, last := none }
  (x.streets.findWay (x.trip e) q 10 [(start, [])] [start]).map (segWord (x.trip e).cls)

/-- The word written in entry e, given the entry after it: the boot ROM's choice where it has the properties of R113,
else the direct route, else any route of one word; where there is none, and in an entry that leads nowhere, whatever
the boot ROM writes. A writing numbered 0 holds no choice of the boot ROM. -/
def Writing.pick (x : Writing) (square e : Nat) (next : Unit → Word) : Word :=
  let rom := Config.romRoute x.num square e
  match x.target e with
  | none => rom
  | some q =>
    let admits (w : Word) : Bool := x.admits square e q w (if contOf w then next () else 0)
    let direct := defaultRoute (x.trip e).cls square q
    if x.num != 0 && admits rom then rom else if admits direct then direct else (x.found square e q).getD rom

/-- Entry 767 - n of a square. -/
def Writing.below (x : Writing) (square : Nat) : Nat → Word
  | 0 => x.pick square 767 fun _ => 0
  | n + 1 => x.pick square (766 - n) fun _ => x.below square n

/-- Entry e of a square's itinerary table (R113): as the service core wrote it, or as the program did. -/
def State.entryAt (s : State) (square e : Nat) : Word :=
  if e < 768 then
    match (s.square square).service with
    | some x => x.below square (767 - e)
    | none => 0
  else (tget (s.square square).itin e).getD 0

/-- Entry e of a square's itinerary table and the entry after it; there is none after entry 1023, and its word reads
as zero (notes/assumptions/5). -/
def State.itinEntry (s : State) (square e : Nat) : Word × Word := (s.entryAt square e, s.entryAt square (e + 1))

/-- The district of a thread's launch as a test on squares. -/
def Launch.hasSquare (l : Launch) (q : Nat) : Bool := l.wards.contains (q / 4)

/-- An itinerary word with its plane class replaced (R113). -/
def withClass (cls : Nat) (w : Word) : Word :=
  (w.extractLsb' 0 62).setWidth 64 ||| (BitVec.ofNat 64 cls <<< 62)

/-- Check the hardware route of entry e from a square for traffic of a class (R113, R292). -/
def State.hwRoute (s : State) (l : Launch) (square e cls : Nat) (amo : Bool) : Except Nat (Word × Word) :=
  let ws := s.itinEntry square e
  let w0 := withClass cls ws.1
  let w1 := if contOf ws.1 then withClass cls ws.2 else 0
  match s.streets.route { cls := cls, inDistrict := l.hasSquare, amo := amo, send := false } w0 w1 square with
  | .error q => .error q
  | .ok _ => .ok (w0, w1)

/-! ### Packets on their way (R113, R233, R293) -/

/-- A trip checked for links and turns alone. -/
def freeTrip (cls : Nat) : Trip := { cls := cls, inDistrict := fun _ => true, amo := true, send := false }

/-- Where a run ends, whatever is down. -/
def runEnd (dir : Nat) : Nat → Nat → Nat
  | 0, sq => sq
  | k + 1, sq => runEnd dir k (streetStep sq dir).1

/-- The square where segments end, and the same way backward. -/
def reverseWay : Nat → List Seg → Nat × List Seg
  | sq, [] => (sq, [])
  | sq, .run dir n :: r =>
    let x := reverseWay (runEnd dir n sq) r
    (x.1, x.2 ++ [.run ((dir + 2) % 4) n])
  | sq, .hub die :: r =>
    let x := reverseWay (squareAt die 0 (squareY sq)) r
    (x.1, x.2 ++ [.hub (dieOfSquare sq)])

/-- Every link and turn of a packet's way is open: none has failed, is marked down, or is forbidden by the masks as
they stand (R293, R328). -/
def Streets.carries (t : Streets) (w : Way) : Bool :=
  match parseItinerary w.words.1 w.words.2 with
  | none => true
  | some segs =>
    let x := if w.back then reverseWay w.start segs else (w.start, segs)
    match ({ t with down := t.down ++ t.failed } : Streets).walk (freeTrip w.cls) x.2 { sq := x.1, post := false, last := none } with
    | .ok _ => true
    | .error q => q != 3 && q != 4 && q != 6

/-- A packet that a switch on its way drops. -/
def State.lost (s : State) (id : Nat) : Bool :=
  match tget s.ways id with
  | some w => !s.streets.carries w
  | none => false

/-- The launch whose table a core's traffic uses: its thread's, else the core's own. -/
def State.routing (s : State) (tid core : Nat) : Launch :=
  match s.thread? tid with
  | some t => s.launchOf t
  | none => match s.launchOn core with
    | some (_, l) => l
    | none => Launch.blank

/-- The entry of the itinerary table that leads from a district's square to a home (R113). -/
def Launch.entryFor (l : Launch) (home : Nat) : Nat :=
  if home < channelBase then 256 + l.squareIdx home else home - channelBase

/-- A packet of a core sets out on an itinerary. -/
def State.sendOn (s : State) (id src cls : Nat) (words : Word × Word) : State :=
  let w : Way := { src := src, start := streetSquare src, words := words, cls := cls, back := false, stamp := s.stamp }
  { s with ways := tput s.ways id w, stamp := s.stamp + 1 }

/-- A packet of a core of a launch sets out to a home, by the entry of the core's square as it stands; none passes a
switch to the core's own home (R113). -/
def State.sendTo (s : State) (id : Nat) (l : Launch) (core home cls : Nat) : State :=
  if home = core || channelBase ≤ core then s
  else
    let ws := s.itinEntry (squareOf core) (l.entryFor home)
    s.sendOn id core cls (withClass cls ws.1, if contOf ws.1 then withClass cls ws.2 else 0)

/-- A reply sets out from a home by the reverse of its request's way, on the reply class, or on the message class
where the request was a trip. -/
def State.sendBack (s : State) (id home : Nat) : State :=
  match tget s.ways id with
  | none => s
  | some w =>
    { s with ways := tput s.ways id { w with src := home, back := true, cls := if w.cls = 2 then 2 else 1, stamp := s.stamp },
             stamp := s.stamp + 1 }

/-- A packet of a home sets out to a core, by the reverse of the way from the core to the home. -/
def State.sendFrom (s : State) (id : Nat) (l : Launch) (core home : Nat) : State :=
  (s.sendTo id l core home 0).sendBack id home

/-- A packet that switches carry still: it has not arrived. -/
def Body.travels : Body → Bool
  | .refusedAccess _ | .refusedAmo _ | .refusedFrame _ => false
  | .amo a => match a.path with
    | .porter | .flying => true
    | _ => false
  | .far _ _ left => left.isNone
  | _ => true

/-- Its acknowledgement is still awaited. -/
def SqEntry.inFlight (e : SqEntry) : Bool := e.state == .inFlight

/-- The store queue keeps a packet back, unsent: it is an access behind an unacknowledged one of its slot that may wait
at the same home, or a `red` of class 1 or 2 behind any (R132, R280). -/
def State.unsent (s : State) (id : Nat) (b : Body) : Bool :=
  match b with
  | .access a =>
    s.sq.any fun p => p.1 < id && p.2.core == a.core && p.2.slot == a.slot && p.2.inFlight
      && (p.2.home == homeOf a.key && p.2.fills || (match a.kind with
        | .red _ .core => false
        | .red _ _ => true
        | _ => false))
  | _ => false

/-- A record stands in the link of the core it goes to (R56). -/
def State.heldAt (s : State) (id : Nat) (b : Body) : Bool :=
  let at_ (c : Nat) : Bool := (s.core c).held.any fun q => q.1 == id
  match b with
  | .msg m => at_ m.dst
  | .migr _ dst _ _ _ => at_ dst
  | .amo a => at_ (homeOf a.key)
  | _ => false

/-- No switch carries the packet: it has arrived, stands in its receiver's link, or is unsent. -/
def State.offStreets (s : State) (id : Nat) (b : Body) : Bool := !b.travels || s.heldAt id b || s.unsent id b

/-- Nothing that left the same core before it, by the same itinerary and on the same plane, is still on its way (R233). -/
def State.nextOnWay (s : State) (id : Nat) : Bool :=
  match tget s.ways id with
  | none => true
  | some w =>
    s.net.all fun p => p.1 == id || s.offStreets p.1 p.2 || (match tget s.ways p.1 with
      | some v => !(v.src == w.src && v.words == w.words && v.cls == w.cls && v.start == w.start && v.stamp < w.stamp)
      | none => true)

/-- A packet has arrived: no switch carries it any more. -/
def State.landedAt (s : State) (id : Nat) : State :=
  match tget s.ways id with
  | some _ => { s with ways := tdel s.ways id }
  | none => s

/-- A packet may arrive as far as the switches go. -/
def State.carried (s : State) (id : Nat) : Bool := !s.lost id && s.nextOnWay id

/-- A request of a core to a home, by the entry of the core's square as it stands, would pass one of the same core that is still
on its way by the same itinerary (R233). -/
def State.wayBusy (s : State) (l : Launch) (core home : Nat) : Bool :=
  if home = core || channelBase ≤ core then false
  else
    let ws := s.itinEntry (squareOf core) (l.entryFor home)
    let words := (withClass 0 ws.1, if contOf ws.1 then withClass 0 ws.2 else 0)
    s.net.any fun p => !s.offStreets p.1 p.2 && (match tget s.ways p.1 with
      | some v => v.src == core && v.cls == 0 && !v.back && v.words == words && v.start == streetSquare core
      | none => false)

/-- The dies whose switches a packet's way crosses. -/
def Way.dies (w : Way) : List Nat :=
  dieOfSquare w.start :: ((parseItinerary w.words.1 w.words.2).getD []).filterMap fun x => match x with
    | .hub die => some die
    | .run _ _ => none

/-- The switches of a die are empty: no packet is in them (R293). One that waits in the link for a porter has left them. -/
def State.switchesEmpty (s : State) (die : Nat) : Bool :=
  let porter (b : Body) : Bool := match b with
    | .access a => a.porter && !(s.slot (homeOf a.key) 15).isFree
    | .amo a => a.path == .porter && !(s.slot (homeOf a.key) 15).isFree
    | _ => false
  s.net.all fun p => s.offStreets p.1 p.2 || porter p.2 || (match tget s.ways p.1 with
    | some w => !w.dies.contains die
    | none => true)

/-! ### The street map in HBM (R289) -/

/-- The bytes of the street map as the service cores keep it: dies present, masks, down links, down gates. -/
def Streets.bytes (t : Streets) : List Byte :=
  let byteAt (o : Nat) : Byte :=
    if o = 0 then t.present.setWidth 8
    else if 0x40 ≤ o && o < 0x70 then
      let m := t.masks.toList.getD ((o - 0x40) / 2) 0
      if o % 2 = 0 then m.setWidth 8 else (m >>> 8).setWidth 8
    else if 0x100 ≤ o && o < 0x200 then
      let d := (o - 0x100) / 64; let k := (o - 0x100) % 64 * 8
      BitVec.ofNat 8 ((List.range 8).foldr (fun i acc =>
        (if t.down.contains (.street d ((k + i) / 4) (BitVec.ofNat 2 (k + i))) then 2 ^ i else 0) + acc) 0)
    else if 0x200 ≤ o && o < 0x204 then
      BitVec.ofNat 8 ((List.range 8).foldr (fun g acc =>
        (if t.down.contains (.gate (o - 0x200) g) then 2 ^ g else 0) + acc) 0)
    else 0
  (List.range 0x204).map byteAt

/-- Write the street map to its place in HBM. -/
def State.writeMap (s : State) : State := { s with mem := writeBytes s.mem s.smapAddr s.streets.bytes }

/-! ### The dependence graph (R294) -/

/-- Vertices of the graph: the links of a die that are neither down nor wrap links. -/
def Streets.vertices (t : Streets) (die : Nat) : List (Nat × Nat) :=
  (List.range 128).flatMap fun n =>
    let q := squareAt die (n % 16) (n / 16)
    (List.range 4).filterMap fun dir =>
      if t.linkDown q dir || (streetStep q dir).2 then none else some (q, dir)

/-- Remove the vertices that no remaining vertex leads to; what is left after enough rounds has a cycle. -/
def pruneGraph (mask : BitVec 16) : Nat → List (Nat × Nat) → List (Nat × Nat)
  | 0, vs => vs
  | n + 1, vs =>
    let vs' := vs.filter fun b => vs.any fun a => (streetStep a.1 a.2).1 == b.1 && turnAllowed mask a.2 b.2
    if vs'.length = vs.length then vs else pruneGraph mask n vs'

/-- Whether the mask passes R294 on the die. -/
def Streets.maskOk (t : Streets) (die : Nat) (mask : BitVec 16) : Bool :=
  (pruneGraph mask 512 (t.vertices die)).isEmpty

end Sys2Proof.Machine
end

