-- ==== Sys2Proof/Machine/Xlate.lean ====
section
/-!
DEFINITION. Address spaces (R51, R52) and translation: page-table walks, permissions and the translation
units of squares and Hamper cores (R305 to R311).
-/

namespace Sys2Proof.Machine

/-! ### Local space -/

/-- An access of n bytes at a local-space address by a thread on `core` is out of range (R52). -/
def outOfRange (l : Launch) (a : Word) (n : Nat) : Bool :=
  bits a 29 34 != 0
    || !(bits a 16 13 = 0x1FFF || bits a 16 13 < l.cores)
    || bits a 0 16 < l.lmLo || l.lmHi < bits a 0 16 + n

/-- The core a local-space address names, for a thread on `core` (R51). -/
def namedCore (l : Launch) (core : Nat) (a : Word) : Nat :=
  if bits a 16 13 = 0x1FFF then core else l.coreOf (bits a 16 13)

/-- The key of a local-space address in range. -/
def localKeyOf (l : Launch) (core : Nat) (a : Word) : Nat := localKey (namedCore l core a) (bits a 0 16)

def isLocal (a : Word) : Bool := a.getLsbD 63

/-- A global address is canonical (R51). -/
def canonical (a : Word) : Bool := bits a 48 16 = 0

/-! ### Page tables -/

/-- What an access needs of its leaf (R309). -/
inductive Perm where
  | rd
  | w
  | rw
  | x
  deriving DecidableEq, Repr

def Trans.permits (t : Trans) : Perm → Bool
  | .rd => t.rd
  | .w => t.w
  | .rw => t.rd && t.w
  | .x => t.x

/-- A translation's fault: cause and qualifier of R322, and the detail. -/
structure XFault where
  cause : Nat
  qual : Nat
  detail : Word
  deriving DecidableEq, Repr

/-- A table or page address within R308. -/
def physOk (a : Nat) : Bool := a < hbmEnd

/-- A leaf for a page (R307). -/
def leafOf (asid : BitVec 12) (va : Nat) (e : Word) (big : Bool) : Trans :=
  { asid := asid, page := if big then va / 2 ^ 25 * 512 else va / 65536, big := big,
    frame := bits e 12 36 * 4096 / 65536, x := e.getLsbD 4, w := e.getLsbD 3, rd := e.getLsbD 2 }

/-- What an entry gives a walk: the next table, a leaf, or a fault. -/
inductive WalkNext where
  | down (table : Nat)
  | leaf (t : Trans)
  | fault (f : XFault)
  deriving DecidableEq, Repr

/-- The address of the entry that a walk of an address reads in a table: of the root table with 5 entries still to read, and
then of levels 0 to 3 (R305, R306). -/
def walkKey (asid : BitVec 12) (va n table : Nat) : Nat :=
  let v := BitVec.ofNat 64 va
  table + 8 * if n = 5 then asid.toNat else if n = 4 then bits v 41 7 else if n = 3 then bits v 34 7
    else if n = 2 then bits v 25 9 else bits v 16 9

/-- What an entry of level 4 - n gives (R306, R307). -/
def walkLevel (asid : BitVec 12) (va n : Nat) (e : Word) : WalkNext :=
  let v := BitVec.ofNat 64 va
  let leaf := e.getLsbD 1
  let bad := bits e 48 16 != 0 || bits e 5 7 != 0 || (!leaf && bits e 2 3 != 0)
    || !physOk (bits e 12 36 * 4096)
  let entry : WalkNext := .fault { cause := 0x17, qual := 4, detail := v }
  if !e.getLsbD 0 then .fault { cause := 0x17, qual := 2, detail := v }
  else if bad then entry
  else if leaf then
    if n = 1 && bits e 12 4 = 0 then .leaf (leafOf asid va e false)
    else if n = 2 && bits e 12 13 = 0 then .leaf (leafOf asid va e true)
    else entry
  else if n ≤ 1 then entry
  else .down (bits e 12 36 * 4096)

/-- What a root entry gives (R305). A non-zero reserved bit ends the walk as one of a table entry does: R305 does not say what
a walk makes of it (notes/assumptions/12). -/
def walkRoot (va : Nat) (e : Word) : WalkNext :=
  let v := BitVec.ofNat 64 va
  if !e.getLsbD 0 then .fault { cause := 0x17, qual := 2, detail := v }
  else if bits e 1 11 != 0 || bits e 48 16 != 0 || !physOk (bits e 12 36 * 4096) then
    .fault { cause := 0x17, qual := 4, detail := v }
  else .down (bits e 12 36 * 4096)

/-- One read of a walk: an entry, as a plain load at its home (R306, R329). -/
def walkEntry (s : State) (asid : BitVec 12) (va n table : Nat) : WalkNext :=
  let k := walkKey asid va n table
  if !physOk k then .fault { cause := 0x17, qual := 4, detail := BitVec.ofNat 64 va }
  else if s.isBad k 8 then .fault { cause := 0x19, qual := 1, detail := BitVec.ofNat 64 k }
  else if n = 5 then walkRoot va (s.loadWord k) else walkLevel asid va n (s.loadWord k)

/-- A walk from a table on, with n entries to read at most: what it finds, and the keys of the entries it reads. -/
def walkFrom (s : State) (asid : BitVec 12) (va : Nat) : Nat → Nat → Except XFault Trans × List Nat
  | 0, _ => (.error { cause := 0x17, qual := 4, detail := BitVec.ofNat 64 va }, [])
  | n + 1, table =>
    let k := walkKey asid va (n + 1) table
    let read := if physOk k then [k] else []
    match walkEntry s asid va (n + 1) table with
    | .fault f => (.error f, read)
    | .leaf t => (.ok t, read)
    | .down next =>
      let r := walkFrom s asid va n next
      (r.1, read ++ r.2)

/-- A whole walk, from the root entry of an identifier. -/
def pageWalk (s : State) (asid : BitVec 12) (va : Nat) : Except XFault Trans × List Nat :=
  walkFrom s asid va 5 s.rootTable.toNat

/-! ### Translation units -//-! ### Translation units -/

/-- Whether a held translation covers an address of an identifier. -/
def Trans.covers (t : Trans) (asid : BitVec 12) (va : Nat) : Bool :=
  t.asid == asid && (if t.big then t.page / 512 == va / 2 ^ 25 else t.page == va / 65536)

/-- The physical address of an address a translation covers. -/
def Trans.phys (t : Trans) (va : Nat) : Nat :=
  t.frame * 65536 + if t.big then va % 2 ^ 25 else va % 65536

/-- The outcome of looking an address up (R310). -/
inductive Look where
  | hit (phys : Nat)
  | miss
  | fault (f : XFault)
  deriving DecidableEq, Repr

/-- Look an address up in a unit's translations, for an access of a permission. -/
def lookIn (ts : List Trans) (asid : BitVec 12) (a : Word) (p : Perm) : Look :=
  if !canonical a then .fault { cause := 0x17, qual := 1, detail := a }
  else
    match ts.find? fun t => t.covers asid a.toNat with
    | none => .miss
    | some t => if t.permits p then .hit (t.phys a.toNat) else .fault { cause := 0x17, qual := 3, detail := a }

/-- Enter a translation; a full unit gives up one entry (R310; which one is not stated). -/
def addTrans (free : Nat) (ts : List Trans) (t : Trans) : List Trans :=
  if ts.length < 512 then t :: ts else t :: ts.eraseIdx (Config.tuVictim free % 512)

/-- What a `tlbinv` or a command covers of the walks that are under way: they start again (R222). -/
def dropWalks (ws : List ((BitVec 12 × Nat) × (Nat × Nat))) (asid : BitVec 12) (all big : Bool) (va : Nat) :
    List ((BitVec 12 × Nat) × (Nat × Nat)) :=
  ws.filter fun w => !(w.1.1 == asid && (all || (if big then w.1.2 / 512 == va / 2 ^ 25 else w.1.2 == va / 65536)))

/-- A walk for a 64 KiB page is queued at a square's unit, where none is (R310). -/
def State.startWalk (s : State) (q : Nat) (asid : BitVec 12) (page : Nat) : State :=
  s.modSquare q fun x => if x.walks.contains (asid, page) then x else { x with walks := x.walks ++ [(asid, page)] }

/-- Drop translations that a `tlbinv` covers (R222): all of the identifier, or a page of a size. -/
def dropTrans (ts : List Trans) (asid : BitVec 12) (all big : Bool) (va : Nat) : List Trans :=
  ts.filter fun t => !(t.asid == asid && (all || (t.big == big &&
    (if big then t.page / 512 == va / 2 ^ 25 else t.page == va / 65536))))

/-- Drop instruction-cache lines the same way. -/
def dropLines (ls : List Line) (asid : BitVec 12) (all big : Bool) (va : Nat) : List Line :=
  ls.filter fun t => !(t.asid == asid && (all ||
    (if big then t.addr / 2 ^ 25 == va / 2 ^ 25 else t.addr / 65536 == va / 65536)))

/-! ### The way of an engine's access (R113, R292, R293) -/

/-- The route of an engine's access to an address from a core to its home: a fault where R292 or R329 refuses it, or
R293 drops its packet. -/
def State.engineRoute (s : State) (l : Launch) (core home : Nat) (a : Word) : Option XFault :=
  if home = core then none
  else
    let q := squareOf core
    let e := l.entryFor home
    let bad := (s.square q).badItin
    let ws := s.itinEntry q e
    if bad.contains e then some { cause := 0x19, qual := 3, detail := BitVec.ofNat 64 e }
    else if contOf ws.1 && bad.contains (e + 1) then some { cause := 0x19, qual := 3, detail := BitVec.ofNat 64 (e + 1) }
    else
      match s.hwRoute l q e 0 false with
      | .error k => some { cause := 0x18, qual := k, detail := withClass 0 ws.1 }
      | .ok w =>
        let way : Way := { src := core, start := q, words := w, cls := 0, back := false, stamp := 0 }
        if s.streets.carries way then none else some { cause := 0x1A, qual := 0, detail := a }

/-- An engine's access cannot leave its core now: injections on the die are held (R293), or an earlier request goes before it
on its way (R233). -/
def State.engineHeld (s : State) (l : Launch) (core home : Nat) : Bool :=
  home != core && (s.hold.contains (dieOf core) || s.wayBusy l core home)

end Sys2Proof.Machine
end

