-- ==== Sys2Proof/Machine/Report.lean ====
section
/-!
DEFINITION. Reports and the report rings (R324, R337), and the counters of R332.
-/

namespace Sys2Proof.Machine

/-- The fields of a report that its maker gives (R324). -/
structure Report where
  outcome : Nat := 4
  level : Nat := 0
  core : Nat := 0
  slot : Nat := 0
  half : Part := .none
  qual : Nat := 0
  cause : Nat
  pc : Word := 0
  detail : Word := 0
  detail2 : Word := 0
  asid : BitVec 12 := 0

/-- The code of a half in a report (R324). -/
def partCode : Part → Nat
  | .c => 0
  | .a => 1
  | .lone => 2
  | .none => 3

/-- The eight words of a report (R324). -/
def Report.toWords (r : Report) (clock : Word) : List Word :=
  [BitVec.ofNat 64 (r.outcome % 8 * 2 ^ 48 + r.level % 8 * 2 ^ 45 + r.core % 2 ^ 13 * 2 ^ 32 + r.slot % 16 * 2 ^ 26
      + partCode r.half * 2 ^ 24 + r.qual % 256 * 2 ^ 16 + r.cause % 2 ^ 16),
   r.pc, r.detail, r.detail2, r.asid.setWidth 64, clock, 0, 0]

/-- A service core appends a report to its ring, or counts it dropped (R337). -/
def State.report (s : State) (die : Nat) (r : Report) : State :=
  let base := s.ringAddr.toList.getD (die % 4) 0
  let written := s.loadWord base
  let consumed := s.loadWord (base + 8)
  let unread : Nat := if written.toNat < consumed.toNat then 0 else written.toNat - consumed.toNat
  if 4096 ≤ unread then s.storeWord (base + 16) (s.loadWord (base + 16) + 1)
  else
    let s := { s with mem := writeWords s.mem (base + 64 + 64 * (written.toNat % 4096)) (r.toWords s.clockWord) }
    s.storeWord base (written + 1)

/-- The number of a core in a report (R324): the channel or plaza core's own, or the district index. -/
def State.coreLabel (s : State) (c : Nat) : Nat :=
  if plazaBase ≤ c then c - plazaBase
  else if channelBase ≤ c then c - channelBase
  else match s.launchOn c with
    | some (_, l) => l.coreIdx c
    | none => 0

/-- The thresholds of R332 by row. -/
def threshold (row : Nat) : Nat :=
  if row = 1 then 4 else if row = 2 then 16 else if row = 3 then 1024 else 1

/-- Count an event of R332; the count that reaches the threshold makes one report, for the core and the identifier of the
access that met it. -/
def State.count (s : State) (die row what : Nat) (detail : Word) (core : Nat := 0) (asid : BitVec 12 := 0) : State :=
  let old := (s.counters.find? fun c => c.row == row && c.what == what).map Counter.count |>.getD 0
  let s := { s with counters := { row := row, what := what, count := old + 1 }
                :: s.counters.filter fun c => !(c.row == row && c.what == what) }
  if old + 1 = threshold row then s.report die { cause := 0x41, qual := row, core := core, detail := detail, asid := asid } else s

/-- The stack of a physical address: 32 channels each (R2, R5). -/
def stackOf (phys : Nat) : Nat := channelOf phys / 32

/-- Number of the die that holds a key. -/
def dieOfKey (k : Nat) : Nat := dieOf (homeOf k)

/-- The hot-list row with the lowest score, the oldest among equals (R330). -/
def weakest (l : List HotRow) : Option HotRow :=
  l.foldl (fun acc r =>
    match acc with
    | none => some r
    | some b => if r.score < b.score || (r.score = b.score && r.age < b.age) then some r else acc) none

/-- A corrected error in a row raises its score, and enters it in the hot list of its stack (R330). -/
def State.heat (s : State) (phys : Nat) (asid : BitVec 12) : State :=
  let st := stackOf phys; let row := Config.rowOf phys
  let l := s.hot.toList.getD st []
  let old := (l.find? fun r => r.row == row).getD { row := row, score := 0, age := s.clock, reported := false }
  let score := min 255 (old.score + 16)
  let crossing := !old.reported && 128 ≤ score
  let new : HotRow := { old with score := score, reported := old.reported || crossing }
  let rest := l.filter fun r => r.row != row
  let rest := if rest.length < 256 then rest
    else match weakest rest with
      | some w => rest.filter fun r => r.row != w.row
      | none => rest
  let s := { s with hot := if h : st < 8 then s.hot.set st (rest ++ [new]) else s.hot }
  if crossing then s.report (dieOfKey phys) { cause := 0x48, core := channelOf phys, detail := BitVec.ofNat 64 row, asid := asid }
  else s

/-- A correctable unit has been met: it is written back, and the error reported and counted (R329, R330, R332). A patched
atom stands in SRAM, and no row of HBM is counted for it (R331). -/
def State.fixUnit (s : State) (u : Nat) (asid : BitVec 12) : State :=
  if !s.soft.contains u then s
  else
    let key := 8 * u
    let s := { s with soft := sdel s.soft u }
    let hbm := key < localBase
    let s := s.report (dieOfKey key)
      { cause := 0x40, core := s.coreLabel (homeOf key), qual := if hbm then 1 else 2,
        detail := BitVec.ofNat 64 key, asid := asid }
    if s.patched.contains (key / 32 * 32) then s
    else if hbm then
      (s.count (dieOfKey key) 1 (Config.rowOf key) (BitVec.ofNat 64 (Config.rowOf key)) (channelOf key) asid).heat key asid
    else s.count (dieOfKey key) 2 (homeOf key) (BitVec.ofNat 64 key) (s.coreLabel (homeOf key)) asid

/-- A corrected error outside memory is reported, and one of a core's registers counted with those of its local memory
(R329, R332). -/
def State.fixedAt (s : State) (core qual index : Nat) (asid : BitVec 12) : State :=
  let s := s.report (dieOf core)
    { cause := 0x40, core := s.coreLabel core, qual := qual, detail := BitVec.ofNat 64 index, asid := asid }
  if qual = 3 then s.count (dieOf core) 2 core (BitVec.ofNat 64 index) (s.coreLabel core) asid else s

/-- An access of n bytes corrects what it meets (R329). -/
def State.corrected (s : State) (key n : Nat) (asid : BitVec 12) : State :=
  (errUnits key n).foldl (fun s u => s.fixUnit u asid) s

/-- An access has met an uncorrectable atom (R329); HBM errors are counted per stack (R332). -/
def State.uncorrected (s : State) (key : Nat) (asid : BitVec 12 := 0) : State :=
  if key < localBase then s.count (dieOfKey key) 4 (stackOf key) (BitVec.ofNat 64 key) (channelOf key) asid else s

/-! ### The reads of a page walk (R306, R329) -/

/-- Each entry that a walk reads is a plain load at its home: it corrects what it meets, and an uncorrectable one counts. -/
def State.readEntries (s : State) (asid : BitVec 12) (keys : List Nat) : State :=
  keys.foldl (fun (s : State) k => if s.isBad k 8 then s.uncorrected k asid else s.corrected k 8 asid) s

/-- No alert holds the HBM bank of a key (R333); a patched atom stands in SRAM (R331). -/
def State.bankOpen (s : State) (key : Nat) : Bool :=
  s.alerts.all fun a => !(key < localBase && a.chan == channelOf key && a.bank == Config.bankOf key)
    || s.patched.contains (key / 32 * 32)

/-- No alert holds the bank of an entry that a whole walk reads. -/
def State.walkOpen (s : State) (asid : BitVec 12) (va : Nat) : Bool :=
  s.alerts.isEmpty || (pageWalk s asid va).2.all s.bankOpen

/-- A whole walk, made within the step that needs it (notes/assumptions/13). -/
def State.walk (s : State) (asid : BitVec 12) (va : Nat) : State × Except XFault Trans :=
  let r := pageWalk s asid va
  (s.readEntries asid r.2, r.1)

end Sys2Proof.Machine
end

