-- ==== Sys2Proof/Machine/Operands.lean ====
section
/-!
DEFINITION. The thread that issues, its registers and ports, and every operand form of the spec (R20, R90 to
R95, R192): which fields an instruction reads and writes, the issue checks of R93 on them, and readiness
(R88). Operands are read from the registers as they were when the bundle's reads were made.
-/

namespace Sys2Proof.Machine

/-! ### The issuing thread -/

def State.me? (s : State) : Option Thread := s.thread? s.ctx.tid

/-- A thread with nothing in it; read only where the issuing thread is gone. -/
def Thread.blank : Thread :=
  { launch := 0, homeCore := 0, homeSlot := 0, place := .spilled 0, pc := 0, regs := Regs.fresh, gregs := 32,
    vregs := 8, fexc := 0, ftrap := 0, left := 0, reload := 0, lmflt := false, lmaddr := 0, fmtp := 0,
    sclp := 0, level := 0, hand := false, task := false, nack := false, rflt := false, wait := none,
    trapped := none, outst := none, undo := none, due := [], bundle := none, lastPc := 0,
    retries := 0, gang := false, occ := 0, awaited := [], units := none, bank := none, qhit := false,
    badRegs := [] }

def State.me (s : State) : Thread := s.me?.getD Thread.blank

def State.modMe (s : State) (f : Thread → Thread) : State := s.modThread s.ctx.tid f

/-- The launch of the issuing thread. -/
def State.myLaunch (s : State) : Launch := s.launchOf s.me

def State.myCore (s : State) : Core := s.core s.ctx.core

/-! ### Register files -/

def Regs.getG (r : Regs) (n : BitVec 5) : Word := if n = 0 then 0 else r.g[n.toNat]'n.isLt

/-- Write `g` n and set it full; a write of `g0` is discarded (R90). -/
def Regs.setG (r : Regs) (n : BitVec 5) (v : Word) : Regs :=
  if n = 0 then r else { r with g := r.g.set n.toNat v n.isLt, gfull := r.gfull ||| (1#32 <<< n.toNat) }

def Regs.getV (r : Regs) (n : BitVec 3) : Vec := r.v[n.toNat]'n.isLt

def Regs.setV (r : Regs) (n : BitVec 3) (v : Vec) : Regs :=
  { r with v := r.v.set n.toNat v n.isLt, vfull := r.vfull ||| (1#8 <<< n.toNat) }

def Regs.fullG (r : Regs) (n : Nat) : Bool := n = 0 || r.gfull.getLsbD n

def Regs.fullV (r : Regs) (n : Nat) : Bool := r.vfull.getLsbD n

def Regs.emptyG (r : Regs) (n : Nat) : Regs :=
  if n = 0 then r else { r with gfull := r.gfull &&& ~~~(1#32 <<< n) }

def Regs.emptyV (r : Regs) (n : Nat) : Regs := { r with vfull := r.vfull &&& ~~~(1#8 <<< n) }

/-- Predicate p; `p0` is always true (R91, R219). -/
def Regs.getP (r : Regs) (p : BitVec 3) : Bool := p = 0 || r.preds.getLsbD p.toNat

/-- Write a predicate; a write of `p0` is discarded (R91). -/
def Regs.setP (r : Regs) (p : BitVec 3) (b : Bool) : Regs :=
  if p = 0 then r
  else { r with preds := if b then r.preds ||| (1#8 <<< p.toNat) else r.preds &&& ~~~(1#8 <<< p.toNat) }

/-- Empty a destination: `g` n as n, `v` k as 32 + k. -/
def Regs.emptyDst (r : Regs) (d : Nat) : Regs := if d < 32 then r.emptyG d else r.emptyV (d - 32)

def Regs.fullDst (r : Regs) (d : Nat) : Bool := if d < 32 then r.fullG d else r.fullV (d - 32)

/-- Store a value in a destination and set it full. -/
def Regs.setDst (r : Regs) (d : Nat) (v : Vec) : Regs :=
  if d < 32 then r.setG (BitVec.ofNat 5 d) (v.setWidth 64) else r.setV (BitVec.ofNat 3 (d - 32)) v

/-! ### Ports (R60, R61) -/

/-- The words a port holds for its reader. -/
def Core.portWords (c : Core) (q : BitVec 3) : List Word :=
  if q.toNat < 4 then c.qs.toList.getD q.toNat [] else c.ports.toList.getD (q.toNat - 4) []

def Core.setPort (c : Core) (q : BitVec 3) (ws : List Word) : Core :=
  if h : q.toNat < 4 then { c with qs := c.qs.set q.toNat ws h }
  else if h : q.toNat - 4 < 4 then { c with ports := c.ports.set (q.toNat - 4) ws h } else c

/-- A lane link has failed (R328). -/
def State.laneFailed (s : State) (core dir : Nat) : Bool :=
  s.streets.failed.contains (.lane core (BitVec.ofNat 2 dir)) || s.streets.down.contains (.lane core (BitVec.ofNat 2 dir))

/-- Words on the link and in the port of a lane direction of a receiving core. -/
def Core.laneLoad (c : Core) (dir : Nat) : Nat :=
  (c.ports.toList.getD dir []).length + (c.flying.toList.getD dir []).length

/-- The thread's registers and ports are those of its home core now: its launch is not suspended, and it is not spilled. -/
def Thread.onCore (t : Thread) : Bool :=
  match t.place with
  | .saved _ _ | .savedFrame _ _ | .savedSpill _ _ | .spilled _ => false
  | _ => true

/-- Words that bundles of a core which are not complete are still to push to a port (R88). -/
def State.owed (s : State) (core : Nat) (q : BitVec 3) : Nat :=
  (s.threads.map fun p => match p.2.undo with
    | some u => if p.2.homeCore = core && p.2.onCore then (u.pushes.filter fun w => w.1 == q).length else 0
    | none => 0).sum

/-- A port of a core has room for one word (R60, R61). -/
def State.portRoom (s : State) (core : Nat) (q : BitVec 3) : Bool :=
  if q.toNat < 4 then ((s.core core).portWords q).length + s.owed core q < 8
  else
    let dir := q.toNat - 4
    !s.laneFailed core dir
      && (s.core (s.neighbour core dir)).laneLoad (oppositeDir dir) + s.owed core q < 8

/-- A port holds a word for a reader; a failed lane direction gives none (R328). -/
def State.portWord (s : State) (core : Nat) (q : BitVec 3) : Bool :=
  !((s.core core).portWords q).isEmpty
    && (q.toNat < 4 || !s.laneFailed (s.neighbour core (q.toNat - 4)) (oppositeDir (q.toNat - 4)))

/-- Pop a port. -/
def State.popPort (s : State) (core : Nat) (q : BitVec 3) : State :=
  s.modCore core fun c => c.setPort q (c.portWords q).tail

/-- Push a word: into the inter-slot queue, or onto the lane link toward the neighbour. -/
def State.pushPort (s : State) (core : Nat) (q : BitVec 3) (w : Word) : State :=
  if q.toNat < 4 then s.modCore core fun c => c.setPort q (c.portWords q ++ [w])
  else
    let dir := q.toNat - 4; let back := oppositeDir dir
    s.modCore (s.neighbour core dir) fun c =>
      if h : back < 4 then { c with flying := c.flying.set back (c.flying[back] ++ [w]) } else c

/-- The slot that `qmap` wires as producer (true) or consumer of queue k, where it is wired (R60). -/
def Launch.wired (l : Launch) (k : Nat) (producer : Bool) : Option Nat :=
  let b := (l.qmap.extractLsb' (8 * k) 8).toNat
  if b = 0 then none else some (if producer then b / 16 else b % 16)

/-! ### Operand values -/

/-- The value of a special on the core where the bundle issues (R20, R41). -/
def State.special (s : State) (x : Special) : Word :=
  let l := s.myLaunch; let c := s.ctx.core
  match x with
  | .slot => BitVec.ofNat 64 s.ctx.slot
  | .core => BitVec.ofNat 64 (l.coreIdx c)
  | .square => BitVec.ofNat 64 (l.squareIdx c)
  | .ward => BitVec.ofNat 64 (l.wardIdx c)
  | .lane => BitVec.ofNat 64 (c % 64)
  | .clkl => (s.clockWord.extractLsb' 0 32).setWidth 64
  | .clkh => (s.clockWord.extractLsb' 32 32).setWidth 64
  | .level => s.me.level

/-- The value of a source field (R90): a port gives its oldest word, popped when the bundle completes. -/
def State.src (s : State) (r : Reg) : Word :=
  match r with
  | .g n => s.ctx.pre.getG n
  | .q k => (s.myCore.portWords k).headD 0
  | .sp x => s.special x

def State.srcV (s : State) (n : BitVec 3) : Vec := s.ctx.pre.getV n

def State.pred (s : State) (p : BitVec 3) : Bool := s.ctx.pre.getP p

/-- The number of a field that names a `g` register. -/
def gNum (r : Reg) : BitVec 5 :=
  match r with
  | .g n => n
  | _ => 0

/-- The register after the first of a pair. -/
def State.srcPair (s : State) (r : Reg) : Word := s.ctx.pre.getG (gNum r + 1)

/-! ### Results -/

def State.setReg (s : State) (n : BitVec 5) (v : Word) : State :=
  s.modMe fun t => { t with regs := t.regs.setG n v }

/-- Write a destination field (R90): a `g` register, or a port, which receives the word when the bundle
completes. -/
def State.setDst (s : State) (d : Reg) (v : Word) : State :=
  match d with
  | .g n => s.setReg n v
  | .q k => { s with ctx := { s.ctx with pushes := s.ctx.pushes ++ [(k, v)] } }
  | .sp _ => s

def State.setPred (s : State) (p : BitVec 3) (b : Bool) : State :=
  s.modMe fun t => { t with regs := t.regs.setP p b }

/-- A transfer is taken. -/
def State.goto (s : State) (a : Word) : State := { s with ctx := { s.ctx with target := a, taken := true } }

/-- Raise flags of an A-slot or C-slot instruction: they reach `FEXC` at the bundle's end, and an enabled
one makes the float exception trap due (R70, R71). -/
def raiseIn (t : Thread) (fl : FlagBits) (pc : Word) (order : Nat) : Thread :=
  let t' := { t with fexc := t.fexc ||| fl }
  if fl &&& t.ftrap = 0 then t' else { t' with due := t'.due ++ [.trap (.float fl) pc order] }

def State.raiseFlags (s : State) (fl : FlagBits) : State :=
  if fl = 0 then s else s.modMe fun t => raiseIn t fl s.ctx.pc s.clock

/-! ### Operand forms -/

/-- One operand of an instruction, in field order. -/
inductive Opd where
  /-- a source read by R90 -/
  | src (r : Reg)
  /-- a source that must name `g0` to `g31` (R95) -/
  | gsrc (r : Reg)
  /-- a destination written by R90 -/
  | dst (r : Reg)
  /-- a destination that must name `g0` to `g31` -/
  | gdst (r : Reg)
  /-- such a destination that is also read (`ins`) -/
  | gmod (r : Reg)
  /-- an even-odd pair of `g` registers read, or written (R92) -/
  | pairSrc (r : Reg)
  | pairDst (r : Reg)
  /-- n consecutive `g` registers read (R136) -/
  | group (r : Reg) (n : Nat)
  | vsrc (n : BitVec 3)
  | vdst (n : BitVec 3)
  /-- a `v` register read and written -/
  | vmod (n : BitVec 3)
  /-- a `v` triple read (R92) -/
  | triple (n : BitVec 3)
  | pdst (n : BitVec 3)
  | accSrc (n : BitVec 3)
  | accDst (n : BitVec 3)
  /-- a port popped by name (`brq`) -/
  | port (q : BitVec 3)
  deriving DecidableEq, Repr

/-- The data register of a memory form. -/
def memSrc : MemReg → Opd
  | .r x => .src x
  | .v n => .vsrc n

def memDst : MemReg → Opd
  | .r x => .gdst x
  | .v n => .vdst n

/-- The operands of every instruction in field order (R94 to R96 and the entries). -/
def operands : Instr → List Opd
  | .callLabel d _ => [.gdst d]
  | .jmp a | .ret a => [.src a]
  | .callReg d a => [.gdst d, .src a]
  | .brt a b => [.src a, .src b]
  | .brq _ q _ => [.port q]
  | .ld _ t b _ _ => [memDst t, .gsrc b]
  | .ldIdx _ t b x _ _ => [memDst t, .gsrc b, .gsrc x]
  | .st _ t b _ _ => [memSrc t, .gsrc b]
  | .stIdx _ t b x _ _ => [memSrc t, .gsrc b, .gsrc x]
  | .feClr b _ => [.gsrc b]
  | .amo d a b .cas _ _ => [.gdst d, .src a, .pairSrc b]
  | .amo d a b _ _ _ => [.gdst d, .src a, .src b]
  | .red a b _ _ _ => [.src a, .src b]
  | .fenceFar a => [.src a]
  | .rget d a _ => [.gdst d, .src a]
  | .rput a b _ => [.src a, .src b]
  | .mig a => [.src a]
  | .add d a b _ _ _ | .sub d a b _ _ _ | .mul d a b _ _ _ => [.dst d, .src a, .src b]
  | .andR d a b | .orR d a b | .xorR d a b | .andn d a b | .shl d a b | .shr d a b | .sar d a b
  | .extN64 d a b | .extI64 d a b => [.dst d, .src a, .src b]
  | .minR d a b _ _ | .maxR d a b _ _ | .mulh d a b _ _ | .div d a b _ _ | .rem d a b _ _ =>
    [.dst d, .src a, .src b]
  | .cmp p a b _ _ => [.pdst p, .src a, .src b]
  | .cmpImm p a _ _ _ => [.pdst p, .src a]
  | .sel d a b _ _ => [.dst d, .src a, .src b]
  | .ins d a b => [.gmod d, .src a, .src b]
  | .clz d a | .ctz d a | .popc d a => [.dst d, .src a]
  | .addImm d a _ | .mov d a _ | .andImm d a _ | .orImm d a _ | .xorImm d a _ | .mulImm d a _ =>
    [.dst d, .src a]
  | .shlImm d a _ | .shrImm d a _ | .sarImm d a _ => [.dst d, .src a]
  | .li d _ _ => [.dst d]
  | .tret a | .sysw _ a | .syswItin a | .idle a => [.src a]
  | .sysr d _ | .sysrFexc d => [.gdst d]
  | .spill a b | .fill a b | .tlbinv a b => [.src a, .src b]
  | .send d a b npay _ => if npay = 0 then [.src d, .src a] else [.src d, .src a, .group b npay.toNat]
  | .spawn p a _ _ => [.pdst p, .src a]
  | .sync a | .syncEnd a => [.src a]
  | .post p a _ => [.pdst p, .src a]
  | .tnum d _ => [.gdst d]
  | .tnset _ a | .tnsave _ a | .tnload _ a => [.src a]
  | .stow a | .unstow a => [.src a]
  | .eins d a _ => [.gdst d, .pairSrc a]
  | .efind d a _ | .ematch d a _ => [.gdst d, .src a]
  | .emrg d a b _ | .eeq d a b _ | .ecost d a b _ => [.gdst d, .src a, .src b]
  | .enode d a _ | .eclass d a _ => [.pairDst d, .src a]
  | .mma d a b _ _ _ => [.accDst d, .src a, .src b]
  | .mrot d _ _ => [.accDst d]
  | .mrotMem d a b _ _ => [.accDst d, .src a, .src b]
  | .mzero d => [.accDst d]
  | .mmovF32ToV d a _ => [.vdst d, .accSrc a]
  | .mmovBf16ToV d a _ _ | .mmovF16ToV d a _ _ => [.vdst d, .accSrc a]
  | .mmovF32Store a s => [.src a, .accSrc s]
  | .mmovBf16Store a s _ | .mmovF16Store a s _ => [.src a, .accSrc s]
  | .mmovF32Load d a => [.accDst d, .src a]
  | .mtab p => [.pdst p]
  | .cpy _ vf => [.triple vf]
  | .cwait a => [.src a]
  | .cany d a | .cfirst d a => [.gdst d, .src a]
  | .vaddF _ _ d a b | .vsubF _ _ d a b | .vmulF _ _ d a b | .vdiv _ _ d a b => [.vdst d, .vsrc a, .vsrc b]
  | .vfma _ _ d a b c => [.vdst d, .vsrc a, .vsrc b, .vsrc c]
  | .vminF _ d a b | .vmaxF _ d a b | .vcmpEq _ d a b | .vcmpLt _ d a b | .vcmpLe _ d a b
  | .vcmpUn _ d a b => [.vdst d, .vsrc a, .vsrc b]
  | .vsqrt _ _ d a | .vneg _ d a | .vabs _ d a => [.vdst d, .vsrc a]
  | .vaddI _ _ d a b | .vsubI _ _ d a b | .vmulI _ _ d a b => [.vdst d, .vsrc a, .vsrc b]
  | .vminI _ d a b | .vmaxI _ d a b | .vand _ d a b | .vor _ d a b | .vxor _ d a b | .vshl _ d a b
  | .vshr _ d a b | .vsar _ d a b => [.vdst d, .vsrc a, .vsrc b]
  | .vcvt dt st _ _ d a _ => if dt.bits < st.bits then [.vmod d, .vsrc a] else [.vdst d, .vsrc a]
  | .vdec _ _ d a b _ _ => [.vdst d, .vsrc a, .vsrc b]
  | .venc _ d a b _ _ => [.vmod d, .vsrc a, .vmod b]
  | .vscl _ d a b _ _ => [.vdst d, .vsrc a, .vsrc b]
  | .vsauto d a _ _ => [.vmod d, .vsrc a]
  | .vsum _ _ _ d a | .vrmax _ d a | .vrmin _ d a => [.gdst d, .vsrc a]
  | .vperm d a b => [.vdst d, .vsrc a, .vsrc b]
  | .vbcast _ d a => [.vdst d, .gsrc a]
  | .vext _ d a _ => [.gdst d, .vsrc a]
  | .vins _ d a _ => [.vmod d, .gsrc a]
  | .vsel d a b c => [.vdst d, .vsrc a, .vsrc b, .vsrc c]
  | .vmov d a | .vrcp d a | .vrsqrt d a | .vexp2 d a => [.vdst d, .vsrc a]
  | _ => []

/-- Everything a bundle writes that R89 compares: `g` n, `v` 32 + k, `a` 40 + k, ports 48 + k, predicates
56 + p. Writes of `g0` and `p0` do not count. -/
def Opd.writes : Opd → List Nat
  | .dst (.g n) | .gdst (.g n) | .gmod (.g n) => if n = 0 then [] else [n.toNat]
  | .dst (.q k) => [48 + k.toNat]
  | .pairDst (.g n) => (if n = 0 then [] else [n.toNat]) ++ [n.toNat + 1]
  | .vdst n | .vmod n => [32 + n.toNat]
  | .accDst n => [40 + n.toNat]
  | .pdst n => if n = 0 then [] else [56 + n.toNat]
  | _ => []

def writesOf (i : Instr) : List Nat := (operands i).flatMap Opd.writes

/-- The `g` and `v` destinations of an instruction (`g` n, `v` 32 + k). -/
def regDsts (i : Instr) : List Nat := (writesOf i).filter fun d => d < 40

/-- The predicate destinations. -/
def predDsts (i : Instr) : List Nat := (writesOf i).filterMap fun d => if 56 ≤ d then some (d - 56) else none

/-- Ports an operand pops. -/
def Opd.pops : Opd → List (BitVec 3)
  | .src (.q k) => [k]
  | .port k => [k]
  | _ => []

/-- Ports a bundle pops, each once (R60, R88). -/
def popsOf (is : List Instr) : List (BitVec 3) := ((is.flatMap operands).flatMap Opd.pops).eraseDups

/-! ### Issue checks on operands (R93) -/

/-- A field read or written by name must be a wired port of this slot (R60). -/
def State.portOk (s : State) (k : BitVec 3) (writing : Bool) : Bool :=
  4 ≤ k.toNat || s.myLaunch.wired k.toNat writing == some s.ctx.slot

/-- The *illegal operand* check of one operand (R90, R92, R95). -/
def State.operandOk (s : State) : Opd → Bool
  | .src (.q k) => s.portOk k false
  | .src _ => true
  | .gsrc (.g _) | .gdst (.g _) | .gmod (.g _) => true
  | .gsrc _ | .gdst _ | .gmod _ => false
  | .dst (.g _) => true
  | .dst (.q k) => s.portOk k true
  | .dst (.sp _) => false
  | .pairSrc (.g n) | .pairDst (.g n) => n.toNat % 2 = 0
  | .pairSrc _ | .pairDst _ => false
  | .group (.g _) _ => true
  | .group _ _ => false
  | .triple n => n = 0 || n = 4
  | .port k => s.portOk k false
  | _ => true

/-- The registers an operand names, as numbers of R322 (`g` n, `v` 32 + k), lowest first. -/
def Opd.names : Opd → List Nat
  | .src (.g n) | .gsrc (.g n) | .dst (.g n) | .gdst (.g n) | .gmod (.g n) => [n.toNat]
  | .pairSrc (.g n) | .pairDst (.g n) => [n.toNat, n.toNat + 1]
  | .group (.g n) k => (List.range k).map fun i => n.toNat + i
  | .vsrc n | .vdst n | .vmod n => [32 + n.toNat]
  | .triple n => [32 + n.toNat, 33 + n.toNat, 34 + n.toNat]
  | _ => []

/-- Whether an operand is a `v` register. -/
def Opd.isV : Opd → Bool
  | .vsrc _ | .vdst _ | .vmod _ | .triple _ => true
  | _ => false

/-- The first register of an operand beyond the thread's allocation (R48, R92). -/
def Thread.unbound (t : Thread) (o : Opd) : Option Nat :=
  if o.isV then o.names.find? fun n => t.vregs ≤ n - 32 else o.names.find? fun n => t.gregs ≤ n

/-- Operands that a thread away from home may not name (R58). -/
def Opd.homeOnly : Opd → Bool
  | .vsrc _ | .vdst _ | .vmod _ | .triple _ | .accSrc _ | .accDst _ | .port _ => true
  | .src (.q _) | .dst (.q _) => true
  | _ => false

/-! ### Readiness (R88) -/

/-- The registers an operand reads or writes, which must be full (R88, R158, R224). -/
def Regs.waitOn (r : Regs) (o : Opd) : Option Cond :=
  match o.names.find? fun n => !(if o.isV then r.fullV (n - 32) else r.fullG n) with
  | some n => some (if o.isV then .vFull (n - 32) else .gFull n)
  | none => none

/-- The first condition an operand waits for: its register full, its port filled or with room. -/
def State.operandWait (s : State) (o : Opd) : Option Cond :=
  match o with
  | .src (.q k) | .port k => if s.portWord s.ctx.core k then none else some (.portWord k.toNat)
  | .dst (.q k) => if s.portRoom s.ctx.core k then none else some (.portRoom k.toNat)
  | _ => s.ctx.pre.waitOn o

/-- Whether an operand is read. -/
def Opd.isRead : Opd → Bool
  | .src _ | .gsrc _ | .gmod _ | .pairSrc _ | .group _ _ | .vsrc _ | .vmod _ | .triple _ => true
  | _ => false

/-- A register the bundle reads has an uncorrectable error (R329): its number in R322's coding. -/
def Thread.badRead (t : Thread) (o : Opd) : Option Nat :=
  if o.isRead then o.names.find? fun n => t.badRegs.contains n else none

end Sys2Proof.Machine
end

