-- ==== Sys2Proof/Machine/Ops.lean ====
section
/-!
DEFINITION. The shared operations on threads and slots: placing, freeing and ending threads, what a freed slot
takes (R276), inbox rings (R55, R56), migrations (R57), store queues (R126), barriers (R135), the end of a
launch (R338); and TAKING AN EXCEPTION: containment of a fault by the level policies (R46, R325), the drain
before it (R323), the delivery of a trap (R215) and the return from one (R217).
-/

namespace Sys2Proof.Machine

/-! ### Store queues (R126, R129) -/

/-- The entries of a slot's store queue, oldest first. -/
def State.sqOf (s : State) (core slot : Nat) : List (Nat × SqEntry) :=
  s.sq.filter fun p => p.2.core == core && p.2.slot == slot

/-- Entries in use, 0 to 4 (R149). -/
def State.sqUsed (s : State) (core slot : Nat) : Nat :=
  ((s.sqOf core slot).filter fun p => p.2.inFlight).length

/-- Every entry of the slot is acknowledged. -/
def State.drained (s : State) (core slot : Nat) : Bool := (s.sqOf core slot).all fun p => !p.2.inFlight

def State.drainedHome (s : State) (core slot home : Nat) : Bool :=
  (s.sqOf core slot).all fun p => !(p.2.inFlight && p.2.home == home)

/-- Entries acknowledged with an error and not yet charged, in posting order. -/
def State.failedSq (s : State) (core slot : Nat) : List (Nat × SqEntry) :=
  (s.sqOf core slot).filter fun p => !p.2.inFlight

/-- An access that may wait at its home, and so holds back the slot's later accesses to that home (R126, R280). -/
def AccKind.mayWait : AccKind → Bool
  | .store f => f == .fillEmpty
  | .red _ _ => true
  | _ => false

/-- Post an access: it takes a store-queue entry and leaves for its home. -/
def State.postAccess (s : State) (a : Access) : State :=
  let e : SqEntry := { core := a.core, slot := a.slot, tid := a.tid, home := homeOf a.key, key := a.key,
                       size := a.size, fills := a.kind.mayWait, pc := a.pc, addr := a.addr, state := .inFlight }
  let s' := { s with sq := tput s.sq s.nextId e, net := tput s.net s.nextId (.access a), nextId := s.nextId + 1 }
  s'.sendTo s.nextId (s.routing a.tid a.core) a.core (homeOf a.key) 0

/-- A load leaves for its home; its thread waits for packet `nextId`. -/
def State.sendLoad (s : State) (a : Access) : State :=
  (s.inject (.access a)).sendTo s.nextId (s.routing a.tid a.core) a.core (homeOf a.key) 0

/-- An `amo` leaves for its word: a trip on the message class, a porter message on the request class (R113). -/
def State.sendAmo (s : State) (a : Amo) : State :=
  (s.inject (.amo a)).sendTo s.nextId (s.routing a.tid a.core) a.core (homeOf a.key) (if a.path = .flying then 2 else 0)

/-! ### Order at the source (R126, R230, R280) -/

/-- A packet of a slot toward a home that has not been performed. -/
def Body.fromSlot (b : Body) (core slot home : Nat) : Bool :=
  match b with
  | .access a | .refusedAccess a => a.core == core && a.slot == slot && homeOf a.key == home
  | .amo a | .refusedAmo a => a.core == core && a.slot == slot && homeOf a.key == home
  | _ => false

/-- The access of a packet may reach its home now: it has been sent, no switch drops it and none carries an earlier
packet of its way, and nothing of the slot goes before it to this home. -/
def State.mayArrive (s : State) (id : Nat) (a : Access) : Bool :=
  s.bankOpen a.key && s.carried id && !s.unsent id (.access a)
    && s.net.all fun p => !(p.1 < id && p.2.fromSlot a.core a.slot (homeOf a.key))

/-- An access message that waits in the link for the porter of a core (R57). -/
def State.porterWaiting (s : State) (c : Nat) : Bool :=
  s.net.any fun p =>
    match p.2 with
    | .access a => a.porter && homeOf a.key == c && s.mayArrive p.1 a
    | .amo a => a.path == .porter && homeOf a.key == c && s.bankOpen a.key && s.carried p.1
    | _ => false

/-! ### Level units (R43, R44, R155) -/

/-- The unit of a level that holds a district core and slot: a number that is the same exactly for the
slots of one unit. -/
def unitAt (l : Launch) (v : Level) (c n : Nat) : Nat :=
  if v.domain = 0 then c * 16 + n
  else if v.domain = 1 then c
  else if v.domain = 2 then c / 64 * 4 + c % 64 / 32 * 2 + c % 8 / 4
  else if v.domain = 3 then c / 64
  else if v.domain = 5 then dieOf (l.coreOf c)
  else 0

/-- A thread counts for a unit of a level. -/
def Thread.inUnit (t : Thread) (l : Launch) (v : Level) (u : Nat) : Bool :=
  match t.units with
  | some (c, n) => unitAt l v c n == u
  | none => false

/-- First district core of the die that holds a district core. -/
def firstOfDie (l : Launch) (c : Nat) : Nat :=
  64 * l.wards.findIdx fun w => w / 32 == dieOf (l.coreOf c)

/-- Index of the unit of a domain within the unit of the outer domain (R155). -/
def unitIndex (l : Launch) (domain : Nat) (outer : Option Nat) (c n : Nat) : Nat :=
  let base := match outer with
    | some 3 => c / 64 * 64
    | some 5 => firstOfDie l c
    | _ => 0
  if domain = 0 then n
  else if domain = 1 then
    if outer = some 2 then c % 64 / 8 % 4 * 4 + c % 8 % 4 else c - base
  else if domain = 2 then c / 64 * 4 + c % 64 / 32 * 2 + c % 8 / 4 - base / 16
  else if domain = 3 then c / 64 - base / 64
  else if domain = 5 then ((l.wards.map fun w => w / 32).eraseDups).findIdx fun d => d == dieOf (l.coreOf c)
  else 0

/-- `LEVEL` of a launch thread (R155). -/
def levelWord (l : Launch) (c n : Nat) : Word :=
  let rec go : List Level → Nat → Nat
    | [], _ => 0
    | v :: r, k => unitIndex l v.domain (r.head?.map Level.domain) c n % 256 * 256 ^ k + go r (k + 1)
  BitVec.ofNat 64 (go l.levels 0)

/-- A bundle that has waited completes: its thread keeps nothing to give back, and the count of reissues is 0 again
(R325). -/
def Thread.passed (t : Thread) : Thread := { t with wait := none, undo := none, retries := 0 }

/-- A thread that has moved: the bundle that moved it completes; one that is issued anew where it has come to does not. -/
def Thread.landed (t : Thread) : Thread := if t.undo.isSome then t.passed else { t with wait := none }

/-- The words that a bundle which is complete now still owes to its ports (R88). -/
def State.pay (s : State) (tid : Nat) : State :=
  match s.thread? tid with
  | none => s
  | some t =>
    match t.undo with
    | some u => (u.pushes.foldl (fun (s : State) p => s.pushPort t.homeCore p.1 p.2) s).modThread tid fun t => { t with
        undo := t.undo.map fun u => { u with pushes := [] } }
    | none => s

/-! ### Events on a core (R223) -/

/-- An event sets the event bit of every slot; a thread that idles goes on and finds its bit clear. -/
def State.signal (s : State) (c : Nat) : State :=
  (List.range 16).foldl (fun s n =>
    match (s.slot c n).tid with
    | none => s.modSlot c n fun x => { x with event := true }
    | some t =>
      match s.thread? t with
      | some th =>
        match th.wait with
        | some (.idle _) => (s.modThread t Thread.passed).modSlot c n
            fun x => { x with event := false }
        | _ => s.modSlot c n fun x => { x with event := true }
      | none => s) s

/-! ### Slots -/

/-- The lowest-numbered free slot below a bound. -/
def Core.freeSlot (c : Core) (bound : Nat) : Option Nat :=
  (List.range bound).find? fun n => (c.slot n).isFree

/-- A thread is placed in a slot: the event bit is cleared (R223) and the fetch buffer empty (R108). -/
def Slot.seat (x : Slot) (tid : Nat) : Slot := { x with tid := some tid, event := false, buf := [] }

/-- Place a thread in a slot. -/
def State.place (s : State) (tid c n : Nat) : State :=
  (s.modSlot c n fun x => x.seat tid).modThread tid
    fun t => { t with place := .slot c n }

/-- A thread returns to its reserved home slot, an event for the other slots, and finds its event bit as it was
(R57, R223). -/
def State.placeHome (s : State) (tid : Nat) (t : Thread) : State :=
  let bit := (s.slot t.homeCore t.homeSlot).event
  ((s.signal t.homeCore).modSlot t.homeCore t.homeSlot fun x => { x with
    tid := some tid, reserved := none, event := bit, buf := [] }).modThread tid
    fun t => { t with place := .slot t.homeCore t.homeSlot }

/-- A program counter is a multiple of 8 (R107): one read from a memory that software has written since loses its low
bits (notes/assumptions/42). -/
def aligned (pc : Word) : Word := pc &&& ~~~(7 : Word)

/-- The word of R54. -/
def senderWord (m : Msg) : Word :=
  BitVec.ofNat 64 (m.score % 2 ^ 13 * 2 ^ 16 + m.npay % 16 * 2 ^ 12 + m.sslot % 16 * 2 ^ 8 + m.tag.toNat)

/-- The registers of a message handler: payload in `g1` to `g6`, sender word in `g7` (R53). -/
def handlerRegs (payload : List Word) (sender : Word) : Regs :=
  let g := Vector.ofFn fun (i : Fin 32) =>
    if i.val = 7 then sender else if 1 ≤ i.val && i.val ≤ 6 then payload.getD (i.val - 1) 0 else (0 : Word)
  { Regs.fresh with g := g }

/-- Start a message handler in a slot (R53, R340). -/
def State.startHandler (s : State) (lid c n : Nat) (handler : Word) (payload : List Word) (sender : Word) : State :=
  let l := (s.launch? lid).getD Launch.blank
  let t : Thread := { Thread.blank with
    launch := lid, homeCore := c, homeSlot := n, place := .slot c n, pc := aligned handler,
    regs := handlerRegs payload sender, gregs := 8, vregs := 0, fmtp := l.fmtp, sclp := l.sclp,
    level := BitVec.allOnes 64, hand := true }
  let s := { s with threads := tput s.threads s.nextTid t, nextTid := s.nextTid + 1 }
  s.modSlot c n fun x => x.seat (s.nextTid - 1)

/-! ### Inbox rings (R55, R56) -/

/-- Size of a core's ring and its place in local memory. -/
def State.ringSize (s : State) (c : Nat) : Nat :=
  if c < channelBase then match s.launchOn c with | some (_, l) => l.ringSize | none => 0 else 16384

def State.ringKey (s : State) (c off : Nat) : Nat :=
  localKey c (match s.launchOn c with | some (_, l) => l.ringOff + off | none => off)

/-- Where a record of a length would stand: after a skip record of the given length, or none (R56). -/
def Core.ringFit (c : Core) (size len : Nat) : Option (Nat × Nat) :=
  let free := size - c.ringUsed
  if c.ringTail + len ≤ size then if len ≤ free then some (0, c.ringTail) else none
  else if c.ringUsed = 0 && len ≤ size then some (size - c.ringTail, 0)
  else if size - c.ringTail + len ≤ free then some (size - c.ringTail, 0)
  else none

/-- A record of a kind stands in the ring. -/
def Core.ringHas (c : Core) (kind : Nat) : Bool := c.ring.any fun r => r.kind == kind

/-- Put a record at the tail; a skip record fills the end where the record would wrap. -/
def Core.ringPut (c : Core) (size : Nat) (r : RingRec) : Core :=
  match c.ringFit size r.len with
  | none => c
  | some (skip, off) =>
    let r := { r with off := off }
    if skip = 0 then
      { c with ring := c.ring ++ [r], ringTail := (off + r.len) % size, ringUsed := c.ringUsed + r.len }
    else if c.ringUsed = 0 then
      { c with ring := [r], ringHead := 0, ringTail := r.len % size, ringUsed := r.len }
    else
      let k : RingRec := { off := c.ringTail, len := skip, kind := 3, tid := none, amo := none, launch := r.launch }
      { c with ring := c.ring ++ [k, r], ringTail := r.len % size, ringUsed := c.ringUsed + skip + r.len }

/-- Drop the skip records at the head of a ring: records left, offset of the head, bytes in use. -/
def stripRing (size : Nat) : List RingRec → Nat → Nat → List RingRec × Nat × Nat
  | [], h, u => ([], h, u)
  | r :: rest, h, u =>
    if r.kind = 3 then stripRing size rest ((r.off + r.len) % size) (u - r.len) else (r :: rest, h, u)

/-- Skip records never stand at the head. -/
def Core.ringStrip (c : Core) (size : Nat) : Core :=
  let (ring, head, used) := stripRing size c.ring c.ringHead c.ringUsed
  { c with ring := ring, ringHead := head, ringUsed := used }

/-- Remove the record at the head, and skip records behind it. -/
def Core.ringPop (c : Core) (size : Nat) : Core :=
  match c.ring with
  | [] => c
  | r :: rest =>
    ({ c with ring := rest, ringHead := (r.off + r.len) % size, ringUsed := c.ringUsed - r.len } : Core).ringStrip size

/-- The header word of a record (R55). -/
def ringHeader (units score npay sslot tag kind : Nat) : Word :=
  BitVec.ofNat 64 (units % 2 ^ 16 * 2 ^ 32 + score % 2 ^ 13 * 2 ^ 16 + npay % 16 * 2 ^ 12 + sslot % 16 * 2 ^ 8
    + tag % 16 * 16 + kind % 16)

/-- Length of a message record and of a migration record (R55). -/
def msgLen (npay : Nat) : Nat := (16 + 8 * npay + 15) / 16 * 16
def migrLen (gregs : Nat) : Nat := (40 + 8 * gregs + 15) / 16 * 16

/-- The third word of a migration record (R55). -/
def migrWord (t : Thread) : Word :=
  let b (x : Bool) (n : Nat) : Nat := if x then 2 ^ n else 0
  BitVec.ofNat 64 ((t.regs.preds ||| 1).toNat + b t.hand 8 + b t.task 9 + b t.nack 10 + b t.rflt 11 + b t.lmflt 12
    + t.fexc.toNat * 2 ^ 32 + t.ftrap.toNat * 2 ^ 48)

/-- The words of a migration record after its header. -/
def migrRecord (t : Thread) : List Word :=
  [t.pc, migrWord t, t.lmaddr, t.level] ++ (t.regs.g.toList.take t.gregs)

/-- Write a skip record's header where a record made one (R55, R56); in an empty ring it leaves at once. R55 names no sender
of a skip record and no tag of it or of a migration: the model writes 0 there (notes/assumptions/15). -/
def State.writeSkip (s : State) (c : Nat) (before : Core) (skip : Nat) : State :=
  if skip = 0 then s
  else s.storeWord (s.ringKey c before.ringTail) (ringHeader (skip / 16) 0 0 0 0 3)

/-! ### What a freed slot takes (R276) -/

/-- The oldest ready context that may take a slot: of the slot's queue, and of its own slot for a gang member (R276, R282).
The porter belongs to no queue: a handler that was evicted from it takes slot 15 again (notes/assumptions/24). -/
def Core.nextContext (c : Core) (n : Nat) (gang : Nat → Bool) : Option RunRec :=
  c.runq.find? fun r => r.ready && (if n = 15 then r.slot == 15
    else r.slot != 15 && r.ownq == (c.slot n).ownq && (!gang r.tid || r.slot == n))

/-- Re-send a held access of a context that takes a slot again (R281). -/
def State.resend (s : State) (c n : Nat) (b : Body) : State :=
  match b with
  | .access a =>
    let a := { a with core := c, slot := n }
    match a.kind with
    | .load _ => s.sendLoad a
    | _ => s.postAccess a
  | .amo a => s.sendAmo { a with core := c, slot := n }
  | _ => s

/-- A `sync` that was refused is issued again, whole (R145, R280; notes/assumptions/44). -/
def Thread.resync (t : Thread) : Thread :=
  match t.bundle with
  | some b => { t with pc := b.pc, wait := none, outst := none, undo := none }
  | none => t

/-- A held access that is sent again has a new number: the lane entries that wait for it know it (R142). -/
def State.renumber (s : State) (c old new : Nat) : State :=
  s.modCore c fun x => { x with lanes := x.lanes.map fun y => { y with
    pend := y.pend.map fun p => if p.2 = old then (p.1, new) else p } }

/-- A context takes a slot: its held accesses are sent again before its first bundle. -/
def State.resume (s : State) (c n : Nat) (r : RunRec) : State :=
  let s := s.modCore c fun x => { x with runq := x.runq.filter fun q => q.tid != r.tid }
  let s := s.place r.tid c n
  let s := s.modThread r.tid fun t => { t with homeCore := c, homeSlot := n }
  let s := { s with sq := s.sq.map fun p => if p.2.tid = r.tid then (p.1, { p.2 with core := c, slot := n }) else p }
  r.held.foldl (fun (s : State) (h : Nat × Body) =>
    let id := s.nextId
    let b := h.2
    let s := (s.resend c n b).renumber c h.1 id
    match b with
    | .access a => match a.kind with
      | .load _ => s.modThread r.tid fun t =>
          { t with wait := some (.reply id), outst := t.outst.map fun o => (id, o.2) }
      | _ => s
    | .amo _ => s.modThread r.tid fun t =>
        { t with wait := some (.reply id), outst := t.outst.map fun o => (id, o.2) }
    | .frame _ | .refusedFrame _ => s.modThread r.tid Thread.resync
    | _ => s) s

/-- The slot goes to the task unit, which looks at once (R277). -/
def State.toTaskUnit (s : State) (c n : Nat) : State :=
  s.modSlot c n fun x => { x with seekAt := 0, victims := [] }

/-- A table address as it is taken into `FMTP` or `SCLP` (R151). -/
def clear5 (x : Word) : Word := x &&& ~~~(31 : Word)

/-- The registers of a thread started with a word in `g1` (R140). -/
def argRegs (arg : Word) : Regs := { Regs.fresh with g := Regs.fresh.g.set 1 arg }

/-- Start a thread from the four words of a lane entry (R140, R340). `LEVEL` is that of the slot's first launch thread;
in a slot that never held one the spec gives none, and the model gives 0 (notes/assumptions/43). -/
def State.startEntry (s : State) (lid : Nat) (l : Launch) (c n : Nat) (ws : List Word) : State :=
  let t : Thread := { Thread.blank with
    launch := lid, homeCore := c, homeSlot := n, place := .slot c n, pc := aligned (ws.getD 0 0),
    regs := argRegs (ws.getD 1 0), gregs := l.gregs, vregs := l.vregs, fmtp := clear5 (ws.getD 2 0),
    sclp := clear5 (ws.getD 3 0), level := (s.slot c n).level, task := true }
  let s := { s with threads := tput s.threads s.nextTid t, nextTid := s.nextTid + 1 }
  s.modSlot c n fun x => x.seat (s.nextTid - 1)

/-- A suspended parent restarts in a slot at its frame's waitpc (R144, R145). -/
def State.restartIn (s : State) (c n : Nat) (r : FrameReq) (waitpc fmtp sclp : Word) (sus : Option Nat) : State :=
  let l := (s.launch? r.launch).getD Launch.blank
  match sus with
  | some tid =>
    if (s.thread? tid).isNone then s
    else
      (s.place tid c n).modThread tid fun t => { t with
        pc := aligned waitpc, regs := argRegs r.addr, fmtp := clear5 fmtp, sclp := clear5 sclp,
        homeCore := c, homeSlot := n, gang := t.gang && t.homeCore == c && t.homeSlot == n, wait := none,
        bank := none, outst := none, undo := none, retries := 0, badRegs := [], awaited := [] }
  | none => s.startEntry r.launch l c n [waitpc, r.addr, fmtp, sclp]

/-- The launch of a core is being suspended: its slots take nothing more (R284). -/
def State.closingOn (s : State) (c : Nat) : Bool :=
  match s.launchOn c with
  | some (_, l) => l.closing
  | none => false

/-- A thread is parked on a port that it pushes to. -/
def Thread.pushing (t : Thread) : Bool :=
  match t.bundle with
  | some b => b.pc == t.pc && (b.instrs.flatMap operands).any fun o => match o with
    | .dst (.q _) => true
    | _ => false
  | none => false

/-- A handler that was evicted while it was parked on a full queue keeps the porter from the records behind its message
(R269; notes/assumptions/24). -/
def State.porterKept (s : State) (c : Nat) : Bool :=
  (s.core c).runq.any fun r => r.slot == 15 && (match s.thread? r.tid with
    | some t => t.pushing
    | none => false)

/-- The identifier of the launch that a core runs. -/
def State.asidOn (s : State) (core : Nat) : BitVec 12 :=
  match s.launchOn core with
  | some (_, l) => l.asid
  | none => 0

/-- A word of a ring record as its slot takes it (R329): what an uncorrectable one reads as the spec does not say, and it is a
free value (notes/assumptions/18). -/
def State.ringWord (s : State) (key : Nat) : Word := if s.isBad key 8 then Config.freeWord key else s.loadWord key

/-- A slot that becomes free takes a restart that waits (R143), the head of the ring, a waiting context of its queue, or goes
to the task unit (R276). The porter takes a handler that was evicted from it before the ring. -/
def State.takeOne (s : State) (c n : Nat) : State :=
  let x := s.core c
  if !(x.slot n).isFree || s.closingOn c then s
  else if c ≥ channelBase then
    match x.ring with
    | r :: _ =>
      match r.amo with
      | some id =>
        if n < 12 then
          let s := (s.signal c).modCore c fun x => (x.ringPop 16384).modSlot n fun y => { y with tid := r.tid }
          match s.packet? id with
          | some (.amo a) => { s with net := tput s.net id (.amo { a with path := .slot c n }) }
          | _ => s
        else s
      | none => s
    | [] => s
  else
    match if n < 15 then x.restarts else [] with
    | (r, .restart w f p sus) :: rest =>
      let s := (s.modCore c fun x => { x with restarts := rest }).restartIn c n r w f p sus
      if (s.slot c n).isFree then s.toTaskUnit c n else s
    | _ =>
      let anyslot := match s.launchOn c with | some (_, l) => l.anyslot | none => false
      let size := s.ringSize c
      let fromRing : Option State :=
        match x.ring with
        | r :: _ =>
          if r.kind = 1 && ((n = 15 && !s.porterWaiting c && !s.porterKept c) || (n < 15 && anyslot)) then
            let k := s.ringKey c r.off
            let h := s.ringWord k
            let npay := bits h 12 4
            let sender := BitVec.ofNat 64 (bits h 16 13 * 2 ^ 16 + npay * 2 ^ 12 + bits h 8 4 * 2 ^ 8 + bits h 4 4)
            let s' := ((s.corrected k r.len (s.asidOn c)).signal c).modCore c fun x => x.ringPop size
            some (s'.startHandler r.launch c n (s.ringWord (k + 8)) ((List.range (min npay 6)).map fun i =>
              s.ringWord (k + 16 + 8 * i)) sender)
          else if r.kind = 2 && n < 15 then
            match r.tid, r.amo with
            | some t, none => some (((((s.signal c).modCore c fun x => x.ringPop size).place t c n).pay t).modThread t Thread.landed)
            | some t, some id =>
              let s := (s.signal c).modCore c fun x => (x.ringPop size).modSlot n fun y => { y with tid := some t }
              match s.packet? id with
              | some (.amo a) => some { s with net := tput s.net id (.amo { a with path := .slot c n }) }
              | _ => some s
            | none, _ => none
          else none
        | [] => none
      let gang t := match s.thread? t with | some th => th.gang | none => false
      let context := if n = 15 && s.porterWaiting c then none else x.nextContext n gang
      match (if n = 15 && context.isSome then none else fromRing), context with
      | some s', _ => s'
      | none, some r => s.resume c n r
      | none, none => if n = 15 then s else s.toTaskUnit c n

/-- The first free slot that the record at the head of the ring may take (R53, R57). -/
def State.headSlot (s : State) (c : Nat) : Option Nat :=
  let free (n : Nat) : Bool := ((s.core c).slot n).isFree
  let anyslot := match s.launchOn c with | some (_, l) => l.anyslot | none => false
  match (s.core c).ring with
  | [] => none
  | r :: _ =>
    if r.kind = 1 && !s.porterWaiting c && !s.porterKept c && free 15 then some 15
    else if (r.kind = 1 && anyslot) || r.kind = 2 then (List.range 15).find? free
    else none

/-- Records leave the ring while a slot that the head may take is free (R56). -/
def State.drainRing : Nat → Nat → State → State
  | 0, _, s => s
  | k + 1, c, s =>
    match s.headSlot c with
    | none => s
    | some n =>
      let s' := s.takeOne c n
      if (s'.core c).ring.length < (s.core c).ring.length then State.drainRing k c s' else s'

/-- A slot that becomes free takes work, and the ring's new head may take another free slot. -/
def State.takeWork (s : State) (c n : Nat) : State :=
  if c < channelBase then State.drainRing 16 c (s.takeOne c n) else s.takeOne c n

/-- Take a thread out of its slot and let the slot take work. -/
def State.freeSlot (s : State) (c n : Nat) : State :=
  (s.modSlot c n fun x => { x with tid := none }).takeWork c n

/-- Free every slot reserved or held for a thread (R57, R299). -/
def State.freeReserved (s : State) (tid c : Nat) : State :=
  (List.range 16).foldl (fun s n =>
    let x := s.slot c n
    if x.reserved == some tid || x.held == some tid then
      (s.modSlot c n fun y => { y with reserved := if y.reserved == some tid then none else y.reserved,
                                       held := if y.held == some tid then none else y.held }).takeWork c n
    else s) s

/-- Wherever a thread holds slots: a `spill` on another core keeps one there (R299). -/
def State.freeEverywhere (s : State) (tid : Nat) : State :=
  (s.cores.map Prod.fst).foldl (fun (s : State) c => s.freeReserved tid c) s

/-- The records of a ring whose thread is gone become skip records; the new head takes a free slot. -/
def State.cutRing (s : State) (c : Nat) (gone : RingRec → Bool) : State :=
  let size := s.ringSize c
  let s := s.modCore c fun x => ({ x with
    ring := x.ring.map fun (r : RingRec) =>
      if gone r then { r with kind := 3, amo := none, tid := none } else r } : Core).ringStrip size
  if (s.core c).ring.isEmpty then s else (List.range 16).foldl (fun s n => s.takeWork c n) s

/-! ### Barriers (R135, R297) -/

/-- A host read that was received before a number is still to be answered (R232). -/
def State.hostReads (s : State) (bound : Nat) : Bool :=
  s.queue.any fun p => p.1 < bound && (match p.2 with
    | .readDeviceMemory _ _ _ _ _ => true
    | _ => false)

/-- Open every barrier of the launch at which each counted thread has arrived; one of scope `.host` waits for the reads of the
host that were received before (R232), whatever words they read (notes/assumptions/17). -/
def State.openBars (s : State) (lid : Nat) : State :=
  match s.launch? lid with
  | none => s
  | some l => if l.suspended then s else
    let complete (b : Bar) : Bool :=
      match l.levels[b.level]? with
      | none => true
      | some v => !s.hostReads b.bound
          && s.threads.all fun p => p.2.launch != lid || !p.2.inUnit l v b.unit || b.arrived.contains p.1
    let opened := l.bars.filter complete
    let s := s.modLaunch lid fun l => { l with bars := l.bars.filter fun b => !complete b }
    opened.foldl (fun s b => b.arrived.foldl (fun s t => s.modThread t fun th =>
      if th.wait == some (.barrier b.level b.unit) then th.passed else th) (b.arrived.foldl (fun s t => s.pay t) s)) s

/-- Every launch's barriers that may open now, when a read of the host has been answered (R232). -/
def State.openHostBars (s : State) : State :=
  s.launches.foldl (fun (s : State) p => if p.2.bars.isEmpty then s else s.openBars p.1) s

/-- A thread arrives at the barrier of a unit; reads of the host received before a number are awaited too. -/
def Launch.arrive (l : Launch) (level unit tid bound : Nat) : Launch :=
  match l.bars.find? fun b => b.level == level && b.unit == unit with
  | some b => { l with
                  bars := { b with arrived := sadd b.arrived tid, bound := max b.bound bound }
                  :: l.bars.filter fun b => !(b.level == level && b.unit == unit) }
  | none => { l with bars := { level := level, unit := unit, arrived := [tid], bound := bound } :: l.bars }

/-! ### The end of a thread and of a launch -/

/-- What a faulting bundle wrote is given back (R88): its destinations and its flags as they were, and float
traps it made due. -/
def Thread.undone (t : Thread) (u : Undo) : Thread :=
  let is := match t.bundle with | some b => b.instrs | none => []
  let regs := (is.flatMap regDsts).foldl (fun (r : Regs) d =>
    let r' := if d < 32 then r.setG (BitVec.ofNat 5 d) (u.regs.getG (BitVec.ofNat 5 d))
      else r.setV (BitVec.ofNat 3 (d - 32)) (u.regs.getV (BitVec.ofNat 3 (d - 32)))
    if u.regs.fullDst d then r' else r'.emptyDst d) t.regs
  let regs := (is.flatMap predDsts).foldl (fun (r : Regs) p =>
    r.setP (BitVec.ofNat 3 p) (u.regs.getP (BitVec.ofNat 3 p))) regs
  { t with regs := regs, fexc := t.fexc &&& ~~~u.flags, undo := none,
           due := t.due.filter fun d => match d with
             | .trap (.float _) _ o => o != u.order
             | _ => true }

/-- The once unit whose answer is a fault has had no effect: its member has not executed the occurrence. -/
def State.undoOnce (s : State) (t : Thread) : State :=
  let unit := match t.bundle with | some b => b.instrs.contains .once | none => false
  if !unit || !t.gang then s
  else
    let pos := posInSquare t.homeCore
    s.modSquare (squareOf t.homeCore) fun x => { x with
      once := x.once.mapFinIdx fun n rs _ => if n = t.homeSlot then rs.map fun r =>
          if r.occ = t.occ - 1 then { r with reached := r.reached &&& ~~~(1#16 <<< pos) } else r
        else rs }

/-- The trip of an `amo`: its thread is under way to the word, in a ring or slot there. -/
def AmoPath.trip : AmoPath → Bool
  | .own | .porter => false
  | _ => true

/-- Drop the trips of a thread's `amo`: the word keeps its state, and the slot it took elsewhere is free. -/
def State.dropAmos (s : State) (tid : Nat) : State :=
  let mine (p : Nat × Body) : Bool :=
    match p.2 with
    | .amo a => a.tid == tid && a.path.trip
    | _ => false
  let gone := s.net.filter mine ++ s.waits.filter mine
  let s := { s with net := s.net.filter (fun p => !mine p), waits := s.waits.filter fun p => !mine p }
  gone.foldl (fun s p =>
    match p.2 with
    | .amo a => match a.path with
      | .slot c n => s.freeSlot c n
      | .ring c => s.cutRing c fun r => r.amo == some p.1
      | _ => { s with cores := s.cores.map fun x => (x.1, { x.2 with held := x.2.held.filter fun h => h.1 != p.1 }) }
    | _ => s) s

/-- An access that its thread abandons with its wait: a load or an `amo`; a posted access goes on (R239). -/
def Body.abandoned (b : Body) : Bool :=
  match b with
  | .access a | .refusedAccess a => (match a.kind with | .load _ => true | _ => false)
  | .amo _ | .refusedAmo _ | .frame _ | .refusedFrame _ => true
  | _ => false

/-- The accesses that an eviction holds for a thread are those it has posted. -/
def Core.abandon (c : Core) (tid : Nat) : Core :=
  { c with runq := c.runq.map fun r => if r.tid = tid then { r with held := r.held.filter fun h => !h.2.abandoned } else r,
           spill := c.spill.map fun j => if j.tid = tid then { j with held := j.held.filter fun h => !h.2.abandoned } else j }

/-- Leave every wait (R47, R239): the bundle whose access has left gives back what it took; waiting-table entries of the
thread's own loads and atomics go, and a pattern whose request has not left its core; a reply that arrives later is
discarded. -/
def State.leaveWaits (s : State) (tid : Nat) : State :=
  match s.thread? tid with
  | none => s
  | some t =>
    let s := s.dropAmos tid
    let s := match t.place, t.outst with
      | .flying _, some _ => s.placeHome tid t
      | _, _ => s
    let mine (b : Body) : Bool :=
      match b with
      | .access a | .refusedAccess a => a.tid == tid && (match a.kind with | .load _ => true | _ => false)
      | .amo a | .refusedAmo a => a.tid == tid
      | _ => false
    let refused (b : Body) : Bool :=
      match b with
      | .refusedAccess _ | .refusedAmo _ => mine b
      | .refusedFrame r => r.tid == tid
      | .heap (.pattern _ _ _ _ (some w)) => w.1 == tid
      | _ => false
    let s := { s with net := s.net.filter fun p => !refused p.2 }
    let s := { s with waits := s.waits.filter fun p => !mine p.2 }
    let s := { s with heaps := s.heaps.map fun (p : Nat × Heap) =>
      (p.1, { p.2 with waiting := p.2.waiting.filter fun w => w.1 != tid }) }
    let s := s.modLaunch t.launch fun l => { l with
      bars := l.bars.map fun b =>
      { b with arrived := b.arrived.filter fun x => x != tid } }
    let s := if t.onCore then s.modCore t.homeCore fun c => c.abandon tid else s
    match t.undo with
    | some u =>
      let s := (if t.onCore then u.pops else []).foldl (fun (s : State) (p : BitVec 3 × Word) =>
        s.modCore t.homeCore fun c => c.setPort p.1 (p.2 :: c.portWords p.1)) s
      let s := if t.onCore then s.undoOnce t else s
      let unit := match t.bundle with | some b => b.instrs.contains .once && t.gang | none => false
      s.modThread tid fun t => { t.undone u with
        wait := none, outst := none, occ := if unit then t.occ - 1 else t.occ }
    | none => s.modThread tid fun t => { t with wait := none, outst := none }

/-! ### Gangs (R224, R225) -/

/-- The gang of a slot in a square. -/
def State.gangOf (s : State) (launch q n : Nat) : List (Nat × Thread) :=
  s.threads.filter fun p => p.2.gang && p.2.launch == launch && p.2.homeSlot == n && squareOf p.2.homeCore == q

def State.onceRecs (s : State) (q n : Nat) : List OnceRec := (s.square q).once.toList.getD n []

def State.setOnce (s : State) (q n : Nat) (rs : List OnceRec) : State :=
  s.modSquare q fun x => { x with once := if h : n < 16 then x.once.set n rs h else x.once }

/-- Some live member has not reached the occurrence: the record counts among the 16 (R225). -/
def OnceRec.isOpen (r : OnceRec) (members : List (Nat × Thread)) : Bool :=
  members.any fun p => !(r.reached.getLsbD (posInSquare p.2.homeCore))

/-- The elected member lives. -/
def OnceRec.hasElect (r : OnceRec) (members : List (Nat × Thread)) : Bool :=
  members.any fun p => posInSquare p.2.homeCore == r.elect

/-- A record that every live member has reached is retired; one whose values are still to be written stays in
the list and counts no more. -/
def State.retireOnce (s : State) (launch q n : Nat) : State :=
  let ms := s.gangOf launch q n
  s.setOnce q n ((s.onceRecs q n).filter fun r => r.isOpen ms || (!r.posted && r.hasElect ms))

/-- A unit has lost its elected member: every live member that has reached it and has a register of it still
empty takes *once orphan* at its next boundary (R224). -/
def State.orphanOnce (s : State) (members : List (Nat × Thread)) (r : OnceRec) : State :=
  members.foldl (fun (s : State) (p : Nat × Thread) =>
    let left := r.dsts.filter fun d => !p.2.regs.fullDst d
    if r.reached.getLsbD (posInSquare p.2.homeCore) && posInSquare p.2.homeCore != r.elect && !left.isEmpty then
      s.modThread p.1 fun t => { t with
        due := t.due ++ [.fault { cause := 0x28, half := .lone, pc := r.unit, detail := r.unit, zero := left }] }
    else s) s

/-- A gang member that ends, or leaves its slot for good, drops out of its square's records (R225). -/
def State.leaveOnce (s : State) (tid : Nat) (t : Thread) : State :=
  if !t.gang then s
  else
    let q := squareOf t.homeCore; let pos := posInSquare t.homeCore; let n := t.homeSlot
    let s := s.modThread tid fun t => { t with gang := false }
    let ms := s.gangOf t.launch q n
    let s := (s.onceRecs q n).foldl (fun s r =>
      if r.elect = pos && !r.posted then s.orphanOnce ms r else s) s
    s.retireOnce t.launch q n

/-- The elected member has written values of its unit: they go to every other member that lives and has
reached it, and the record keeps them for members still to come (R224). -/
def State.postOnce (s : State) (t : Thread) (occ : BitVec 32) (unit : Word) (vals : List (Nat × Vec)) : State :=
  let q := squareOf t.homeCore; let pos := posInSquare t.homeCore; let n := t.homeSlot
  let rs := s.onceRecs q n
  let upd (r : OnceRec) : OnceRec :=
    if r.occ = occ && r.elect = pos then
      let vs := (r.dsts.zip r.vals).map fun p =>
        match vals.find? fun x => x.1 == p.1 with
        | some x => some x.2
        | none => p.2
      { r with vals := vs, posted := vs.all Option.isSome }
    else r
  match rs.find? fun r => r.occ == occ && r.elect == pos with
  | none => s
  | some r =>
    let s := s.setOnce q n (rs.map upd)
    let ms := (s.gangOf t.launch q n).filter fun p =>
      posInSquare p.2.homeCore != pos && r.reached.getLsbD (posInSquare p.2.homeCore)
    let s := ms.foldl (fun (s : State) (m : Nat × Thread) => vals.foldl (fun (s : State) (v : Nat × Vec) =>
      s.inject (.post q n (posInSquare m.2.homeCore) occ unit v.1 v.2)) s) s
    s.retireOnce t.launch q n

/-- The record a member makes when it is the first to reach an occurrence: the lowest live member is elected. -/
def newOnce (t : Thread) (unit : Word) (dsts : List Nat) (members : List (Nat × Thread)) : OnceRec :=
  { occ := t.occ, reached := 0,
    elect := members.foldl (fun m p => min m (posInSquare p.2.homeCore)) (posInSquare t.homeCore),
    posted := false, unit := unit, dsts := dsts, vals := dsts.map fun _ => none }

/-- The record of a member's next occurrence: there already, made now, or none where 16 are in use. -/
def State.onceRecord (s : State) (t : Thread) (unit : Word) (dsts : List Nat) : State × Option OnceRec :=
  let q := squareOf t.homeCore; let n := t.homeSlot
  let ms := s.gangOf t.launch q n
  let rs := s.onceRecs q n
  match rs.find? fun r => r.occ == t.occ with
  | some r => (s, some r)
  | none =>
    if 16 ≤ (rs.filter fun r => r.isOpen ms).length then (s, none)
    else
      let r := newOnce t unit dsts ms
      (s.setOnce q n (rs ++ [r]), some r)

/-- A member reaches its occurrence: it counts it. -/
def State.reachOnce (s : State) (tid : Nat) (t : Thread) : State :=
  let q := squareOf t.homeCore; let pos := posInSquare t.homeCore; let n := t.homeSlot
  let s := s.setOnce q n ((s.onceRecs q n).map fun r =>
    if r.occ = t.occ then { r with reached := r.reached ||| (1#16 <<< pos) } else r)
  s.modThread tid fun t => { t with occ := t.occ + 1 }

/-- A unit that an ignored fault completes as a no-op counts as executed: the zeros of an elected member are
posted; at another address than the record's, its occurrence is orphaned (R224, R325). -/
def State.skipOnce (s : State) (tid : Nat) (t : Thread) (b : BundleInfo) : State :=
  let dsts := b.instrs.flatMap regDsts
  match s.onceRecord t b.pc dsts with
  | (s, none) => s.modThread tid fun t => { t with occ := t.occ + 1 }
  | (s, some r) =>
    let q := squareOf t.homeCore; let pos := posInSquare t.homeCore; let n := t.homeSlot
    let s := s.reachOnce tid t
    if r.elect != pos || r.posted then s.retireOnce t.launch q n
    else if r.unit = b.pc then
      s.postOnce t t.occ b.pc ((r.dsts.zip r.vals).filterMap fun p => if p.2.isNone then some (p.1, 0) else none)
    else
      let s := s.orphanOnce (s.gangOf t.launch q n) r
      (s.setOnce q n ((s.onceRecs q n).map fun x => if x.occ = t.occ then { x with elect := 16 } else x)).retireOnce
        t.launch q n

/-- `Fill` of a register from outside its thread (R237): a full register keeps its value, and the writer is
charged with *double fill* at the bundle that made the write (R238). -/
def State.fillFor (s : State) (tid dst : Nat) (v : Vec) (writer : Nat) (pc : Word) : State :=
  match s.thread? tid with
  | none => s
  | some t =>
    if t.regs.fullDst dst then
      s.modThread writer fun t => { t with
        due := t.due ++ [.fault { cause := 0x1F, pc := pc, detail := BitVec.ofNat 64 dst }] }
    else s.modThread tid fun t => { t with regs := t.regs.setDst dst v }

/-- A post fills a register that its occurrence has emptied in a member; a member that did not empty it takes nothing
(R224). -/
def State.postFill (s : State) (tid dst : Nat) (occ : BitVec 32) (v : Vec) (writer : Nat) (pc : Word) : State :=
  match s.thread? tid with
  | none => s
  | some t =>
    if t.awaited.contains (dst, occ) then
      (s.fillFor tid dst v writer pc).modThread tid fun t => { t with awaited := t.awaited.filter fun x => x != (dst, occ) }
    else s

/-! ### The end of a launch -/

/-- A message is refused: its sender gets a negative acknowledgement, the refusal is logged (R56, R137). -/
def State.refuse (s : State) (id : Nat) (m : Msg) : State :=
  let s := s.dropPacket id
  let s := { s with sq := tdel s.sq id }
  let s := match m.tid with
    | some t => s.modThread t fun t => { t with nack := true }
    | none => s
  let asid := match s.launch? m.launch with | some l => l.asid | none => 0
  s.report (dieOf m.dst) { cause := 0x43, core := s.coreLabel m.dst, detail := BitVec.ofNat 64 m.score, asid := asid }

/-- Records held in a link toward a core are refused; a held migration goes with its thread. -/
def State.refuseHeld (s : State) (core : Nat) : State :=
  if (s.core core).held.isEmpty then s else
  let s := (s.core core).held.foldl (fun (s : State) h => match s.packet? h.1 with
    | some (.msg m) => s.refuse h.1 m
    | _ => s) s
  s.modCore core fun c => { c with held := c.held.filter fun h => (s.packet? h.1).isSome }

/-- Posted accesses that an eviction took with a thread leave again when the thread ends (R239), from no slot of the
core. -/
def State.releaseHeld (s : State) (c tid : Nat) : State :=
  let x := s.core c
  let held := (x.runq.filter fun r => r.tid == tid).flatMap RunRec.held
    ++ (match x.spill with | some j => if j.tid = tid then j.held else [] | none => [])
  held.foldl (fun (s : State) (h : Nat × Body) => match h.2 with
    | .access a => (match a.kind with
      | .load _ => s
      | _ => ((s.postAccess { a with core := c, slot := 16 + tid }).renumber c h.1 s.nextId))
    | _ => s) s

/-- A packet, or an access that waits, whose purpose ends with a launch: on its way to its local memory, its frames,
its threads or its cores. Local memory is cleared before anyone reads it again (R304), so what a dead launch has
posted to it is not performed. -/
def State.endsWith (s : State) (lid : Nat) (l : Launch) (b : Body) : Bool :=
  let mine (tid : Nat) : Bool := match s.thread? tid with | some t => t.launch == lid | none => false
  match b with
  | .access a | .refusedAccess a => l.owns (homeOf a.key)
  | .amo a | .refusedAmo a => mine a.tid || l.owns (homeOf a.key)
  | .frame r | .frameAns r _ | .refusedFrame r => r.launch == lid
  | .migr t _ _ _ _ => mine t
  | .far c t _ => mine t || l.owns c
  | .withdraw _ c _ | .room c _ => l.owns c
  | .post q _ _ _ _ _ _ => l.hasSquare q
  | .msg _ | .reply _ _ _ | .ack _ _ | .heap _ => false

/-- No core: what a dead launch has posted leaves from it. -/
def noCore : Nat := plazaBase + 8

/-- What a dead launch has posted to HBM is performed (R239); it stands in no core and no slot any more, in the order of its
thread. -/
def Access.orphaned (a : Access) : Access := { a with core := noCore, slot := 16 + a.tid }

def Body.unslotted (l : Launch) (b : Body) : Body :=
  match b with
  | .access a | .refusedAccess a => if l.owns a.core then .access a.orphaned else b
  | b => b

/-- The stores to HBM that the records of a suspended launch hold, when it ends (R239): they leave from no core. -/
def State.releaseSaved (s : State) (l : Launch) : State :=
  let recs := match l.saved with
    | some v => v.cores.flatMap fun (p : Nat × Core) => p.2.runq
    | none => []
  (recs.flatMap RunRec.held).foldl (fun (s : State) (h : Nat × Body) => match h.2 with
    | .access a | .refusedAccess a => if h.2.abandoned || localBase ≤ a.key then s else s.postAccess a.orphaned
    | _ => s) s

/-- Nothing of the launch is left (R338). A thread that stands in a save area alone and belongs to no level unit keeps no
launch; a message or a porter access that is still in flight does, as one held in a link (notes/assumptions/54). -/
def State.launchIdle (s : State) (lid : Nat) (l : Launch) : Bool :=
  let alive (t : Thread) : Bool := t.launch == lid && (t.units.isSome || (match t.place with
    | .spilled _ => false
    | _ => true))
  s.threads.all (fun p => !alive p.2)
    && l.allCores.all (fun c =>
        match tget s.cores c with
        | none => true
        | some x => x.lanes.toList.all (fun y => y.count == 0) && x.ring.isEmpty && x.held.isEmpty
            && x.restarts.isEmpty && x.runq.isEmpty)
    && s.net.all fun p =>
        match p.2 with
        | .msg m => m.launch != lid
        | .access a => !(a.porter && localBase ≤ a.key && l.owns (homeOf a.key))
        | _ => true

/-- The traffic of a launch that ends: messages held toward it are refused, packets and waiting accesses that end with it
go, and what its threads have posted to HBM stands in no slot of the wards any more. -/
def State.endTraffic (s : State) (lid : Nat) (l : Launch) : State :=
  if l.suspended then s.releaseSaved l
  else
    let s := l.allCores.foldl (fun (s : State) c =>
      ((s.core c).runq.foldl (fun (s : State) r => s.releaseHeld c r.tid) s).refuseHeld c) s
    let gone := (s.net.filter fun p => s.endsWith lid l p.2) ++ s.waits.filter fun p => s.endsWith lid l p.2
    let dead (id : Nat) : Bool := gone.any fun p => p.1 == id
    { s with
      net := (s.net.filter fun p => !dead p.1).map fun p => (p.1, p.2.unslotted l),
      waits := (s.waits.filter fun p => !dead p.1).map fun p => (p.1, p.2.unslotted l),
      sq := (s.sq.filter fun p => !dead p.1).map fun (p : Nat × SqEntry) =>
        if l.owns p.2.core then (p.1, { p.2 with core := noCore, slot := 16 + p.2.tid }) else p,
      roomAsk := s.roomAsk.filter fun p => !l.owns p.2 }

/-- A suspended thread whose restart has been decided at its frame's home: it has left the frame's entry (R144). -/
def State.restarting (s : State) (tid : Nat) : Bool :=
  let restarts (a : FrameAns) : Bool := match a with
    | .restart _ _ _ (some k) => k == tid
    | _ => false
  (s.net.any fun p => match p.2 with
    | .frameAns _ a => restarts a
    | _ => false) || s.cores.any fun p => p.2.restarts.any fun x => restarts x.2

/-- The home of a suspended thread that ends clears the `waitpc` of its frame (R145). -/
def State.clearFrameOf (s : State) (tid k : Nat) : State :=
  if s.isBad k 32 || s.restarting tid then s else s.storeWord (k + 8) 0

/-- A launch ends, `how` as the end word has it (R338, R321): its threads end, its district's state is
emptied, its tumblers are freed, its wards are released, records toward it are refused. -/
def State.endLaunch (s : State) (lid how : Nat) : State :=
  match s.launch? lid with
  | none => s
  | some l =>
    let mine := s.threads.filter fun p => p.2.launch == lid
    let s := mine.foldl (fun s p =>
      let s := s.leaveWaits p.1
      match p.2.place with
      | .frame k => s.clearFrameOf p.1 k
      | _ => s) s
    let s := s.endTraffic lid l
    let s := { s with threads := s.threads.filter (fun p => p.2.launch != lid),
                      sq := s.sq.filter fun p => p.2.inFlight || !(mine.any fun q => q.1 == p.2.tid) }
    let s := if l.suspended then s else
      { s with cores := s.cores.filter fun p => !l.owns p.1,
               squares := s.squares.map fun (p : Nat × Square) => if l.hasSquare p.1 && p.1 < 512
                 then (p.1, { p.2 with once := Vector.replicate 16 [], itin := [], itinLoad := [], service := none }) else p }
    let s := { s with
                tumblers := s.tumblers.map fun (p : Nat × Tumbler) => if p.2.owner == some lid
                then (p.1, { p.2 with owner := none }) else p }
    let s := { s with launches := tdel s.launches lid }
    if l.endWord = 0 then s
    else s.toHost l.endWord (wordBytes (BitVec.ofNat 64 (lid * 2 ^ 32 + how)))

/-- The launch ends with its last thread, when nothing keeps it (R338). -/
def State.checkEnd (s : State) (lid : Nat) : State :=
  match s.launch? lid with
  | none => s
  | some l => if !l.suspended && s.launchIdle lid l then s.endLaunch lid 0 else s

/-- A thread ends: it leaves its waits, its slots become free, barriers and once records count it gone. -/
def State.endThread (s : State) (tid : Nat) : State :=
  match s.thread? tid with
  | none => s
  | some t =>
    let s := s.leaveWaits tid
    let t := (s.thread? tid).getD t
    let s := s.leaveOnce tid t
    let s := match t.place with
      | .frame k => s.clearFrameOf tid k
      | _ => s
    let s := s.releaseHeld t.homeCore tid
    let s := { s with threads := tdel s.threads tid,
                      sq := s.sq.filter fun p => p.2.inFlight || p.2.tid != tid }
    let s := s.modCore t.homeCore fun c => { c with
      runq := c.runq.filter fun r => r.tid != tid,
      spill := match c.spill with | some j => if j.tid = tid then none else some j | none => none }
    let s := match t.place with
      | .slot c n => s.freeSlot c n
      | .ring c => s.cutRing c fun r => r.tid == some tid
      | .flying id => s.dropPacket id
      | _ => s
    let s := s.freeEverywhere tid
    let s := s.openBars t.launch
    s.checkEnd t.launch

/-- A thread that gives up its slot to another, or ends with it: it stands in no slot and waits for nothing. -/
def Thread.unplaced (t : Thread) : Thread :=
  { t with place := .spilled 0, wait := none, outst := none, undo := none, due := [] }

/-! ### The matrix engine's schedule (R181 to R183) -/

/-- The accumulator a matrix command writes. -/
def MatOp.writesAcc : MatOp → Option Nat
  | .mma d _ _ _ _ _ | .rot d _ _ _ | .zero d | .load d _ => some d
  | _ => none

/-- The accumulator that an `mmov` of forms 0 to 5 reads. -/
def MatOp.readsAcc : MatOp → Option Nat
  | .toV _ s _ _ _ | .store _ s _ _ => some s
  | _ => none

/-- Busy cycles (R182); an `mrot` goes on until its exchange ends. -/
def MatOp.busy : MatOp → Nat
  | .mma _ _ _ _ _ n => 2 * n
  | .rot _ _ _ _ => 2
  | .zero _ | .toV _ _ _ _ _ => 1
  | .store _ _ _ _ | .load _ _ => 8

def MatOp.isRot : MatOp → Bool
  | .rot _ _ _ _ => true
  | _ => false

/-- Give start and last busy cycle to the commands of a queue whose predecessors have theirs; `free` is the cycle
after the last busy cycle before them. -/
def scheduleMat : List MatCmd → List MatCmd → Nat → List MatCmd × Nat
  | _, [], free => ([], free)
  | done, x :: rest, free =>
    match x.start, x.last with
    | some _, some l =>
      let r := scheduleMat (done ++ [x]) rest (l + 1)
      (x :: r.1, r.2)
    | some _, none => (x :: rest, free)
    | none, _ =>
      let after := done.foldl (fun m y => if y.op.writesAcc.isSome && y.op.writesAcc == x.op.readsAcc then
        max m (y.last.getD 0 + 5) else m) 0
      let st := max (max (x.order + 1) free) after
      if x.op.isRot then ({ x with start := some st } :: rest, free)
      else
        let y := { x with start := some st, last := some (st + x.op.busy - 1) }
        let r := scheduleMat (done ++ [y]) rest (st + x.op.busy)
        (y :: r.1, r.2)

/-- The queue with its schedule, and the full/empty bits of the accumulators (R181). -/
def Core.reschedule (c : Core) : Core :=
  let r := scheduleMat [] c.matQ c.matFree
  let empty := c.matQ.foldl (fun (m : BitVec 8) x => match x.op.writesAcc with
    | some d => m ||| (1#8 <<< d)
    | none => m) 0
  { c with matQ := r.1, afull := ~~~empty }

/-- Take a command out of the queue; the engine is free from a cycle on. -/
def Core.removeMat (c : Core) (num free : Nat) : Core :=
  ({ c with matQ := c.matQ.filter (fun m => m.num != num), matFree := max c.matFree free } : Core).reschedule

/-- An `mrot` that waits in its exchange. -/
def State.inExchange (s : State) (core num : Nat) : Bool :=
  (s.core core).matQ.any fun m => m.num == num && (match m.phase with | .exchange _ _ => true | _ => false)

/-- A kill that was due takes effect: one that meets the exchange of `mrot` abandons it (R183). -/
def State.killDue (s : State) (tid : Nat) : State :=
  match s.thread? tid with
  | none => s
  | some t =>
    match t.wait with
    | some (.matrix k) =>
      (if s.inExchange t.homeCore k then s.modCore t.homeCore fun x => x.removeMat k (s.clock + 1) else s).endThread tid
    | _ => s.endThread tid

/-- A kill of one thread: one that a matrix command holds ends when the command completes, except in the
exchange of `mrot`, which is abandoned (R183). -/
def State.killThread (s : State) (tid : Nat) : State :=
  match s.thread? tid with
  | none => s
  | some t =>
    match t.wait with
    | some (.matrix k) =>
      if s.inExchange t.homeCore k then s.killDue tid
      else s.modThread tid fun t => { t with due := [.kill] }
    | _ => s.endThread tid

/-! ### Containment (R46, R325) -/

/-- The bundle completes as a no-op: its `g`, `v` and predicate destinations become zero and full. -/
def Thread.noop (t : Thread) (b : BundleInfo) : Thread :=
  let regs := (b.instrs.flatMap regDsts).foldl (fun r d => r.setDst d 0) t.regs
  let regs := (b.instrs.flatMap predDsts).foldl (fun r p => r.setP (BitVec.ofNat 3 p) false) regs
  let dsts := b.instrs.flatMap regDsts
  { t with regs := regs, pc := b.next, wait := none, retries := 0,
           badRegs := t.badRegs.filter fun d => !dsts.contains d }

/-- The report of a fault (R324). -/
def faultReport (l : Launch) (t : Thread) (f : Flt) (outcome level : Nat) : Report :=
  { outcome := outcome, level := level, core := l.coreIdx t.coreNow,
    slot := match t.place with | .slot _ n => n | _ => t.homeSlot,
    half := f.half, qual := f.qual, cause := f.cause, pc := f.pc, detail := f.detail, detail2 := f.detail2,
    asid := l.asid }

/-- The first level that absorbs a fault, with its number, from a list of numbered levels. -/
def absorber (tries : Nat) : List (Nat × Level) → Option (Nat × Level)
  | [] => none
  | (n, v) :: r =>
    if v.policy = 0 || (v.policy = 1 && tries < v.retries) || v.policy = 2 then some (n, v) else absorber tries r

/-- The levels a thread's fault is offered to, innermost first (R325). -/
def offered (l : Launch) (t : Thread) (f : Flt) : List (Nat × Level) :=
  let ls := (List.range l.levels.length).zip l.levels
  let ls := match t.units with
    | some _ => ls
    | none => ls.filter fun p => 1 ≤ p.2.domain
  match f.level with
  | some k => ls.filter fun p => k ≤ p.1
  | none => ls

/-- The unit of a level that a fault's thread counts under: its own, or that of its core (R325). -/
def faultUnit (l : Launch) (t : Thread) (v : Level) : Nat :=
  match t.units with
  | some (c, n) => unitAt l v c n
  | none => unitAt l v (l.coreIdx t.coreNow) 0

/-- Every thread of a unit ends (kill self). A thread that belongs to no unit is not one of them. -/
def State.endUnit (s : State) (lid : Nat) (l : Launch) (v : Level) (u : Nat) : State :=
  let dead := s.threads.filter fun p => p.2.launch == lid && p.2.inUnit l v u
  dead.foldl (fun s p => s.killThread p.1) s

/-- Registers that an absorbed fault makes zero and full where they are empty (R224). -/
def Thread.zeroed (t : Thread) (ds : List Nat) : Thread :=
  { t with regs := ds.foldl (fun r d => if r.fullDst d then r else r.setDst d 0) t.regs,
           awaited := t.awaited.filter fun x => !ds.contains x.1 }

/-- A fault is absorbed under ignore: its bundle becomes a no-op. A fault of a boundary has none. -/
def Thread.ignored (t : Thread) (f : Flt) : Thread :=
  match f.bundle with
  | some b => (t.zeroed f.zero).noop b
  | none => { t.zeroed f.zero with wait := none }

/-- Under retry the bundle is issued again, whole, and counted; a fault of a boundary has none, and nothing is issued again. -/
def Thread.retried (t : Thread) (f : Flt) : Thread :=
  match f.bundle with
  | some b => { t.zeroed f.zero with pc := b.pc, wait := none, retries := t.retries + 1 }
  | none => { t.zeroed f.zero with wait := none }

/-- An ignored fault of a `once` unit. -/
def State.skipUnit (s : State) (tid : Nat) (t : Thread) (f : Flt) : State :=
  match f.bundle with
  | some b => if t.gang && b.instrs.contains .once then s.skipOnce tid t b else s
  | none => s

/-- `Contain(f)` for a thread (R325): the fault is offered outward; the level that absorbs it acts, or the
launch ends; one report is made. -/
def State.contain (s : State) (tid : Nat) (f : Flt) : State :=
  match s.thread? tid with
  | none => s
  | some t =>
    let l := s.launchOf t
    match absorber t.retries (offered l t f) with
    | some (n, v) =>
      if v.policy = 0 then
        let s := s.report (dieOf t.coreNow) (faultReport l t f 0 n)
        let s := if f.cause = 0x20 then s.modLaunch t.launch fun l =>
          { l with fired := (n, faultUnit l t v) :: l.fired } else s
        (s.modThread tid fun t => t.ignored f).skipUnit tid t f
      else if v.policy = 1 then
        (s.report (dieOf t.coreNow) (faultReport l t f 1 n)).modThread tid fun t => t.retried f
      else ((s.report (dieOf t.coreNow) (faultReport l t f 2 n)).killThread tid).endUnit t.launch l v (faultUnit l t v)
    | none =>
      let s := s.report (dieOf t.coreNow) (faultReport l t f 3 (l.levels.length - 1))
      s.endLaunch t.launch 1

/-! ### Taking a fault or a trap (R323, R215) -/

/-- A float trap is due: no fault of the next bundle is taken before it (R71). -/
def Thread.floatDue (t : Thread) : Bool :=
  t.due.any fun d => match d with
    | .trap (.float _) _ _ => true
    | _ => false

/-- The core and slot whose store queue a thread uses. -/
def Thread.slotNow (t : Thread) : Nat × Nat :=
  match t.place with
  | .slot c n => (c, n)
  | _ => (t.homeCore, t.homeSlot)

/-- Contain faults one after another; the bundle is reissued once, however many there are (R325). -/
def State.containAll (s : State) (tid : Nat) (fs : List Flt) : State :=
  let tries := match s.thread? tid with | some t => t.retries | none => 0
  fs.foldl (fun s f => (s.modThread tid fun t => { t with retries := tries }).contain tid f) s

/-- Take the entries acknowledged with an error out of the store queue: their faults in posting order, reported
at the posting bundle and charged to the bundle that waits (R129, R323). -/
def State.takeErrs (s : State) (tid : Nat) (b : Option BundleInfo) : State × List Flt :=
  match s.thread? tid with
  | none => (s, [])
  | some t =>
    let (c, n) := t.slotNow
    let errs := s.failedSq c n
    ({ s with sq := s.sq.filter fun p => !(errs.any fun e => e.1 == p.1) },
     errs.filterMap fun p => match p.2.state with
       | .failed cause qual _ => some { cause := cause, qual := qual, pc := p.2.pc, detail := p.2.addr, bundle := b }
       | .inFlight => none)

/-- Charge a bundle, or a boundary, with the errors of the slot's entries. -/
def State.chargeFailed (s : State) (tid : Nat) (b : Option BundleInfo) : State :=
  let x := s.takeErrs tid b
  x.1.containAll tid x.2

/-- Take a fault whose drain has ended (R323). -/
def State.takeFault (s : State) (tid : Nat) (f : Flt) : State :=
  let x := s.takeErrs tid f.bundle
  x.1.containAll tid (x.2 ++ [f])

/-- Raise a fault at a bundle (R323): the bundle has no effect; the fault is taken at once where no posted
access of the slot is outstanding, else when the last is acknowledged. -/
def State.raise (s : State) (tid : Nat) (f : Flt) : State :=
  match s.thread? tid with
  | none => s
  | some t =>
    let (c, n) := t.slotNow
    let s := s.leaveWaits tid
    if s.drained c n then s.takeFault tid f
    else s.modThread tid fun t => { t with due := .fault f :: t.due, wait := some .drain }

/-- The first payload word of a trap's message (R215). -/
def trapWord : TrapKind → Word
  | .software n => BitVec.ofNat 64 (n.toNat * 2 ^ 16 + 1)
  | .float fl => BitVec.ofNat 64 (fl.toNat * 2 ^ 8 + 3)
  | .quantum => 2

/-- Deliver a trap to the launch's own code (R215): the thread keeps its slot, trapped at its resume
address, and the core sends itself an active message. A handler takes no trap but the fault *trap in
handler*. -/
def State.deliver (s : State) (tid : Nat) (k : TrapKind) (pc : Word) : State :=
  match s.thread? tid with
  | none => s
  | some t =>
    let l := s.launchOf t
    if t.hand then
      let b := match k with | .software _ => t.bundle | _ => none
      s.contain tid { cause := 0x29, half := if b.isSome then .lone else .none, pc := pc, detail := trapWord k,
                      bundle := b }
    else
      let (c, n) := t.slotNow
      let m : Msg := { src := c, dst := c, route := (0, 0), score := l.coreIdx c, sslot := n, npay := 3, tag := 15,
                       handler := l.entry, payload := [trapWord k, pc, t.pc], launch := t.launch, tid := none }
      (s.modThread tid fun t => { t with trapped := some t.pc, wait := none, retries := 0 }).inject (.msg m)

/-- The return from a trap (R217): the thread goes on at its resume address. -/
def Thread.resumeTrap (t : Thread) : Thread :=
  match t.trapped with
  | some a => { t with trapped := none, pc := a, wait := none }
  | none => t

/-! ### Migration (R57, R138) -/

/-- Where a thread migrates to, and the check of the itinerary that carries it, on the message class. -/
def State.migrRoute (s : State) (t : Thread) (dst : Nat) : Except Nat (Word × Word) :=
  let l := s.launchOf t
  s.hwRoute l (streetSquare t.coreNow) (256 + l.squareIdx dst) 2 false

/-- Leave the slot for another core: the home slot stays reserved, a visited one becomes free. -/
def State.depart (s : State) (tid dst : Nat) : State :=
  match s.thread? tid with
  | none => s
  | some t =>
    let id := s.nextId
    let route := match s.migrRoute t dst with | .ok r => r | .error _ => (0, 0)
    let s := (s.inject (.migr tid dst t.coreNow route t.slotNow.2)).sendOn id t.coreNow 2 route
    let s := s.modThread tid fun t => { t with place := .flying id, wait := none }
    match t.place with
    | .slot c n =>
      if c = t.homeCore && n = t.homeSlot then
        s.modSlot c n fun x => { x with tid := none, reserved := some tid }
      else s.freeSlot c n
    | _ => s

/-! ### Out-of-range notes (R52) -/

/-- `NoteLocal`: the first out-of-range local access is remembered. -/
def Thread.note (t : Thread) (a : Word) : Thread :=
  if t.lmflt then t else { t with lmflt := true, lmaddr := a }

end Sys2Proof.Machine
end

