-- ==== Sys2Proof/Machine/Admit.lean ====
section
/-!
DEFINITION. The issue of a bundle (R88): the issue checks in the order of R93, readiness, the checks each
instruction makes on its operands (R112 and the entries), and what becomes of a bundle that does not issue.
A meaning says what its instruction does once nothing stops it; `issue` puts these checks before it and
`finish` after it.
-/

namespace Sys2Proof.Machine

/-- Why a bundle does not issue now. -/
inductive Stop where
  /-- it takes a fault (R93, R112 and the entries) -/
  | fault (f : Flt)
  /-- its thread parks (R38) -/
  | park (c : Cond)
  /-- its thread parks and the translation unit starts a walk (R310) -/
  | walk (addr : Nat)
  /-- its thread migrates and issues it there (R57) -/
  | migrate (core : Nat)
  /-- it waits for acknowledgements that carried an error (R129) -/
  | charge
  /-- its thread parks while a decode bank is loaded (R172) -/
  | bankStart (bank : Nat)
  deriving DecidableEq, Repr

/-- A fault with its qualifier and detail. -/
def stopFault (cause : Nat) (qual : Nat := 0) (detail : Word := 0) (detail2 : Word := 0) : Option Stop :=
  some (.fault { cause := cause, qual := qual, detail := detail, detail2 := detail2 })

/-- The half a fault names (R93). -/
def inHalf (p : Part) : Option Stop → Option Stop
  | some (.fault f) => some (.fault { f with half := p })
  | x => x

/-- The first stop of a list. -/
def firstStop : List (Option Stop) → Option Stop
  | [] => none
  | some x :: _ => some x
  | none :: r => firstStop r

/-- The first stop that a check finds over the halves of a bundle, C before A (R93). -/
def overHalves (is : List (Part × Instr)) (f : Instr → Option Stop) : Option Stop :=
  firstStop (is.map fun p => inHalf p.1 (f p.2))

/-! ### Issue checks (R93) -/

/-- Both halves write one register (R89). The report names C: the spec names no half (notes/assumptions/51). -/
def doubleWrite : List (Part × Instr) → Option Stop
  | [(_, c), (_, a)] =>
    if (writesOf c).any fun d => (writesOf a).contains d then inHalf .c (stopFault 0x10 5) else none
  | _ => none

/-- Registers that `sysw` may not name: no writable field (R148). -/
def sysReadOnly : SysReg → Bool
  | .status | .tagerr | .quant | .lmflt | .fexc | .ftrap | .itin => false
  | _ => true

/-- Registers refused to a thread away from home (R50). -/
def sysHomeOnly : SysReg → Bool
  | .tags | .tagerr | .ownq | .itin | .fmtp | .sclp | .quant => true
  | _ => false

/-- The level that `bar n` names, where it may name it (R135, R297). -/
def Launch.barLevel (l : Launch) (t : Thread) (n : Nat) : Option Level :=
  match l.levels[n]? with
  | some v => if v.barrier && !t.hand && t.units.isSome then some v else none
  | none => none

/-- *Illegal operand*: the fields, and the cases that entries name. -/
def State.illegalOperand (s : State) (i : Instr) : Option Stop :=
  let special := match i with
    | .bar n => (s.myLaunch.barLevel s.me n.toNat).isNone
    | .sysw r _ => sysReadOnly r
    | .venc _ d _ b _ _ => d == b
    | _ => false
  if special || !((operands i).all s.operandOk) then stopFault 0x11 else none

/-- *Register bound*, with the lowest register of a group outside the allocation (R48, R92). -/
def State.unbound (s : State) (i : Instr) : Option Stop :=
  match (operands i).findSome? s.me.unbound with
  | some n => stopFault 0x12 0 (BitVec.ofNat 64 n)
  | none => none

/-- Instructions refused to a thread away from home whatever their operands (R50, R58, R147, R224). -/
def homeOnlyInstr : Instr → Bool
  | .mtab _ | .cwait _ | .cany _ _ | .cfirst _ _ | .once | .spawn _ _ _ _ | .sync _ | .syncEnd _ | .post _ _ _
  | .syswItin _ => true
  | .sysr _ r | .sysw r _ => sysHomeOnly r
  | _ => false

def State.notAtHome (s : State) (i : Instr) : Option Stop :=
  if s.me.away && (homeOnlyInstr i || (operands i).any Opd.homeOnly) then stopFault 0x13 else none

/-- The tumbler an instruction names. -/
def tumblerOf : Instr → Option (BitVec 5)
  | .tnum _ t | .tnset t _ | .tndrain t | .tnsave t _ | .tnload t _ => some t
  | _ => none

/-- *Tumbler not allocated*, at issue (R207). -/
def State.noTumbler (s : State) (i : Instr) : Option Stop :=
  match tumblerOf i with
  | some t => if s.myLaunch.tumblers.getLsbD t.toNat then none else stopFault 0x23 0 (t.setWidth 64)
  | none => none

/-- The issue checks, class by class (R93). -/
def State.issueChecks (s : State) (is : List (Part × Instr)) : Option Stop :=
  firstStop [doubleWrite is, overHalves is s.illegalOperand, overHalves is s.unbound,
    overHalves is s.notAtHome, overHalves is s.noTumbler]

/-! ### Decode banks (R172) -/

/-- Instructions that use the thread's decode bank. -/
def usesBank : Instr → Bool
  | .vdec _ _ _ _ _ _ _ | .venc _ _ _ _ _ _ | .vsauto _ _ _ _ | .mtab _ => true
  | .mma _ _ _ f _ _ | .mrot _ f _ | .mrotMem _ _ _ f _ => f == .c8
  | _ => false

/-- Instructions that encode, and so need an encodable table (R79). -/
def needsEncodable : Instr → Bool
  | .venc _ _ _ _ _ _ | .vsauto _ _ _ _ => true
  | _ => false

/-- The tag a thread looks for. -/
def State.bankTag (s : State) : BitVec 12 × Word := (s.myLaunch.asid, s.me.fmtp)

/-- The lowest bank of the core with a property. -/
def Core.findBank (c : Core) (f : Nat → Bank → Bool) : Option Nat :=
  if f 0 c.banks[0] then some 0 else if f 1 c.banks[1] then some 1 else none

/-- A thread of the core is bound to bank k. -/
def State.bankBound (s : State) (core k : Nat) : Bool :=
  s.threads.any fun p => p.2.homeCore == core && p.2.bank == some k

/-- A bank is being loaded for a tag. -/
def Bank.loadingFor (b : Bank) (asid : BitVec 12) (fmtp : Word) : Bool :=
  match b.loading with
  | some (_, a, f) => a == asid && f == fmtp
  | none => false

/-- `Bind` where a bank holds the table, at readiness: the thread is bound. -/
def State.bindNow (s : State) (is : List (Part × Instr)) : State :=
  if is.any (fun p => usesBank p.2) && (s.issueChecks is).isNone && s.me.bank.isNone && s.me.fmtp != 0 then
    match s.myCore.findBank fun _ b => b.tag == some s.bankTag with
    | some k => s.modMe fun t => { t with bank := some k }
    | none => s
  else s

/-- `Bind` where none does: its trap, or what it parks on. -/
def State.bindStop (s : State) (i : Instr) : Option Stop :=
  if !usesBank i then none
  else
    match s.me.bank with
    | some k =>
      if (s.myCore.banks.toList.getD k Bank.empty).loading.isSome then some (.park (.bankLoad k))
      else if needsEncodable i && !(s.myCore.banks.toList.getD k Bank.empty).encodable then
        stopFault 0x14 0 s.me.fmtp
      else none
    | none =>
      if s.me.fmtp = 0 then stopFault 0x15
      else
        match s.myCore.findBank fun _ b => b.loadingFor s.myLaunch.asid s.me.fmtp with
        | some k => some (.park (.bankLoad k))
        | none =>
          match s.myCore.findBank fun k b => !s.bankBound s.ctx.core k && b.loading.isNone with
          | some k => some (.bankStart k)
          | none => some (.park .bankFree)

/-! ### Readiness (R88) -/

def State.readiness (s : State) (i : Instr) : Option Stop :=
  match (operands i).findSome? s.operandWait with
  | some c => some (.park c)
  | none => none

/-- Accumulators an instruction reads, which R329 checks with the registers. -/
def accReads : Instr → List Nat
  | .mma d _ _ _ _ _ | .mrot d _ _ | .mrotMem d _ _ _ _ => [d.toNat]
  | i => (operands i).filterMap fun o => match o with
    | .accSrc n => some n.toNat
    | _ => none

/-- A queued command whose engine queue is full parks at readiness (R157). -/
def State.engineRoom (s : State) (i : Instr) : Option Stop :=
  match i with
  | .cpy _ _ => if s.myCore.copyQ.length < 2 then none else some (.park .copyRoom)
  | .vaddF _ _ _ _ _ | .vsubF _ _ _ _ _ | .vmulF _ _ _ _ _ | .vdiv _ _ _ _ _ | .vfma _ _ _ _ _ _
  | .vminF _ _ _ _ | .vmaxF _ _ _ _ | .vsqrt _ _ _ _ | .vneg _ _ _ | .vabs _ _ _ | .vcmpEq _ _ _ _
  | .vcmpLt _ _ _ _ | .vcmpLe _ _ _ _ | .vcmpUn _ _ _ _ | .vaddI _ _ _ _ _ | .vsubI _ _ _ _ _
  | .vmulI _ _ _ _ _ | .vminI _ _ _ _ | .vmaxI _ _ _ _ | .vand _ _ _ _ | .vor _ _ _ _ | .vxor _ _ _ _
  | .vshl _ _ _ _ | .vshr _ _ _ _ | .vsar _ _ _ _ | .vcvt _ _ _ _ _ _ _ | .vdec _ _ _ _ _ _ _
  | .venc _ _ _ _ _ _ | .vscl _ _ _ _ _ _ | .vsauto _ _ _ _ | .vsum _ _ _ _ _ | .vrmax _ _ _ | .vrmin _ _ _
  | .vperm _ _ _ | .vbcast _ _ _ | .vext _ _ _ _ | .vins _ _ _ _ | .vsel _ _ _ _ | .vmov _ _ | .vrcp _ _
  | .vrsqrt _ _ | .vexp2 _ _ => if s.myCore.vecQ.length < 2 then none else some (.park .vecRoom)
  | _ => none

/-- A register or accumulator the bundle reads is uncorrectable (R329). -/
def State.badOperand (s : State) (i : Instr) : Option Stop :=
  match (operands i).findSome? s.me.badRead with
  | some n => stopFault 0x19 2 (BitVec.ofNat 64 n)
  | none =>
    match (accReads i).find? fun a => s.myCore.badAccs.contains a with
    | some a => stopFault 0x19 2 (BitVec.ofNat 64 (40 + a))
    | none => none

/-! ### Addresses (R112) -/

/-- A local-space access of the issuing thread is out of range (R52). -/
def State.oor (s : State) (a : Word) (n : Nat) : Bool := isLocal a && outOfRange s.myLaunch a n

def State.lookup (s : State) (a : Word) (p : Perm) : Look :=
  lookIn (s.square (squareOf s.ctx.core)).trans s.myLaunch.asid a p

/-- The key of an address that has passed its checks. -/
def State.keyOf (s : State) (a : Word) (p : Perm) : Nat :=
  if isLocal a then localKeyOf s.myLaunch s.ctx.core a
  else match s.lookup a p with
    | .hit k => k
    | _ => 0

/-- `Check(a, n)` as far as the translation (R112). -/
def State.checkAddr (s : State) (a : Word) (n : Nat) (p : Perm) : Option Stop :=
  if s.oor a n then none
  else if a.toNat % n != 0 then stopFault 0x16 0 a
  else if isLocal a then none
  else
    match s.lookup a p with
    | .hit _ => none
    | .miss => some (.walk a.toNat)
    | .fault f => stopFault f.cause f.qual f.detail

/-- The itinerary-table entry that leads to a home, for a thread's own traffic (R113). -/
def State.entryTo (s : State) (home : Nat) : Nat := s.myLaunch.entryFor home

/-- An itinerary-table entry that cannot be read (R322). -/
def State.badEntry (s : State) (e : Nat) (cont : Bool) : Option Stop :=
  let bad := (s.square (squareOf s.ctx.core)).badItin
  if bad.contains e then stopFault 0x19 3 (BitVec.ofNat 64 e)
  else if cont && bad.contains (e + 1) then stopFault 0x19 3 (BitVec.ofNat 64 (e + 1)) else none

/-- A route by an entry on a class: *itinerary check*, or held injections (R292, R293). -/
def State.checkEntry (s : State) (e cls : Nat) (amo : Bool) : Option Stop :=
  let q := squareOf s.ctx.core
  let ws := s.itinEntry q e
  match s.badEntry e (contOf ws.1) with
  | some x => some x
  | none =>
    match s.hwRoute s.myLaunch q e cls amo with
    | .error k => stopFault 0x18 k (withClass cls ws.1)
    | .ok _ => if s.hold.contains (dieOf s.ctx.core) then some (.park .injectOpen) else none

/-- The route of an access to its home; none where the core itself is the home. -/
def State.checkHome (s : State) (home cls : Nat) (amo : Bool) : Option Stop :=
  if home = s.ctx.core then none else s.checkEntry (s.entryTo home) cls amo

/-! ### Store-queue waits (R111, R126, R129) -/

/-- A bundle that has waited for an acknowledgement with an error is charged with it. -/
def State.chargedHit (s : State) : Option Stop :=
  if (s.failedSq s.ctx.core s.ctx.slot).any fun p => match p.2.state with
    | .failed _ _ hit => hit
    | .inFlight => false
  then some .charge else none

/-- The release of classes release, release-load, move and held. -/
def State.releaseStop (s : State) : Option Stop :=
  if !s.drained s.ctx.core s.ctx.slot then some (.park .released)
  else if !(s.failedSq s.ctx.core s.ctx.slot).isEmpty then some .charge else none

/-- The release of a class-0 `amo`: the entries to the word's home (R131). -/
def State.releaseHome (s : State) (home : Nat) : Option Stop :=
  if !s.drainedHome s.ctx.core s.ctx.slot home then some (.park (.releasedHome home))
  else if (s.failedSq s.ctx.core s.ctx.slot).any fun p => p.2.home == home then some .charge else none

/-- Room for one store-queue entry. -/
def State.roomStop (s : State) : Option Stop :=
  match s.chargedHit with
  | some x => some x
  | none =>
    if s.sqUsed s.ctx.core s.ctx.slot < 4 then none
    else
      match (s.sqOf s.ctx.core s.ctx.slot).find? fun p => p.2.inFlight with
      | some p => some (.park (.acked p.1))
      | none => none

/-- Bytes of two accesses overlap. -/
def overlaps (k n k' n' : Nat) : Bool := k < k' + n' && k' < k + n

/-- A load waits for the slot's posted accesses to its bytes. -/
def State.overlapStop (s : State) (k n : Nat) : Option Stop :=
  match s.chargedHit with
  | some x => some x
  | none =>
    match (s.sqOf s.ctx.core s.ctx.slot).find? fun p => overlaps k n p.2.key p.2.size with
    | some p => if p.2.inFlight then some (.park (.acked p.1)) else some .charge
    | none => none

/-! ### Whole accesses -/

/-- A local-space access to a core beyond the square migrates its thread, after a release (R57, R138). -/
def State.migrateStop (s : State) (a : Word) (n : Nat) : Option Stop :=
  if !isLocal a || s.oor a n then none
  else
    let c := namedCore s.myLaunch s.ctx.core a
    if squareOf c = squareOf s.ctx.core then none
    else firstStop [s.checkEntry (256 + s.myLaunch.squareIdx c) 2 false, s.releaseStop, some (.migrate c)]

/-- What stops a load of n bytes (R126); a porter form never migrates (R138). -/
def State.loadStop (s : State) (a : Word) (n : Nat) (porter : Bool) : Option Stop :=
  if s.oor a n then none
  else
    firstStop [s.checkAddr a n .rd, if porter then none else s.migrateStop a n,
      s.checkHome (homeOf (s.keyOf a .rd)) 0 false, s.overlapStop (s.keyOf a .rd) n]

/-- What stops a posted access of n bytes. -/
def State.postStop (s : State) (a : Word) (n : Nat) (p : Perm) (porter : Bool) : Option Stop :=
  if s.oor a n then none
  else
    firstStop [s.checkAddr a n p, if porter then none else s.migrateStop a n,
      s.checkHome (homeOf (s.keyOf a p)) 0 false, s.roomStop]

/-- What stops an `amo` (R131): only a trip to a channel core may leave the district (R292). -/
def State.amoStop (s : State) (a : Word) (c : Scope) : Option Stop :=
  if s.oor a 8 then none
  else
    let home := homeOf (s.keyOf a .rw)
    let far := channelBase ≤ home || squareOf home != squareOf s.ctx.core
    firstStop [s.checkAddr a 8 .rw, s.checkHome home (if far then 2 else 0) (channelBase ≤ home),
      if c = .core then s.releaseHome home else s.releaseStop]

/-- The atoms of a block of n bytes. -/
def blockAtoms (a : Word) (n : Nat) : List Word := (List.range ((n + 31) / 32)).map fun k => a + BitVec.ofNat 64 (32 * k)

/-- Earlier requests of the core by the same itinerary go before an access of an instruction's own step (R233). -/
def State.wayStop (s : State) (home : Nat) : Option Stop :=
  if s.wayBusy s.myLaunch s.ctx.core home then some (.park (.wayFree home)) else none

/-- What stops an instruction that reads or writes n bytes in one step of its own, atom by atom: every atom in
range must translate, and be reached (R112), behind the core's earlier requests (R233); one in another core's local memory is
a porter message, which waits for that core's porter (R57), and one in HBM for its bank (R333). -/
def State.blockStop (s : State) (a : Word) (n align : Nat) (p : Perm) : Option Stop :=
  if !s.oor a 32 && a.toNat % align != 0 then stopFault 0x16 0 a
  else firstStop ((blockAtoms a n).map fun x =>
    if s.oor x 32 then none
    else if isLocal x then
      let c := homeOf (s.keyOf x p)
      firstStop [s.checkHome c 0 false, s.wayStop c,
        if c = s.ctx.core || (s.slot c 15).isFree then none else some (.park (.porterFree c))]
    else match s.lookup x p with
      | .hit k => firstStop [s.checkHome (homeOf k) 0 false, s.wayStop (homeOf k), if s.bankOpen k then none else some (.park (.bankOpen k))]
      | .miss => some (.walk x.toNat)
      | .fault f => stopFault f.cause f.qual f.detail)

/-- A block of a class load waits for the slot's posted accesses to its atoms (R126). -/
def State.blockOverlap (s : State) (a : Word) (n : Nat) (p : Perm) : Option Stop :=
  firstStop ((blockAtoms a n).map fun x => if s.oor x 32 then none else s.overlapStop (s.keyOf x p) 32)

/-- Atoms of a block that cannot be read (R329). -/
def State.blockBad (s : State) (a : Word) (n : Nat) (p : Perm) : Option Stop :=
  firstStop ((blockAtoms a n).map fun x =>
    if !s.oor x 32 && s.isBad (s.keyOf x p) 32 then stopFault 0x19 1 x else none)

/-- The words of a block that has passed its checks; zeros where it is out of range (R52). -/
def State.blockWords (s : State) (a : Word) (n : Nat) (p : Perm) : List Word :=
  (List.range n).map fun k =>
    let x := a + BitVec.ofNat 64 (8 * (k / 4 * 4))
    if s.oor x 32 then 0 else s.loadWord (s.keyOf x p + 8 * (k % 4))

/-- A word that a plain load of an instruction's own reads: zero out of range (R52). -/
def State.readWord (s : State) (a : Word) : Word := if s.oor a 8 then 0 else s.loadWord (s.keyOf a .rd)

/-- An out-of-range word is noted (R52). -/
def State.readNote (s : State) (a : Word) (n : Nat) : State :=
  if s.oor a n then s.modMe fun t => if t.lmflt then t else { t with lmflt := true, lmaddr := a } else s

/-- What stops such a load; it migrates as `ld.d` does (R57). -/
def State.wordStop (s : State) (a : Word) : Option Stop :=
  firstStop [s.loadStop a 8 false, if s.oor a 8 then none else s.wayStop (homeOf (s.keyOf a .rd)),
    if !s.oor a 8 && !s.bankOpen (s.keyOf a .rd) then some (.park (.bankOpen (s.keyOf a .rd))) else none,
    if !s.oor a 8 && s.isBad (s.keyOf a .rd) 8 then stopFault 0x19 1 a else none]

/-- The reads of such a load, and of a block, correct what they meet (R329). -/
def State.correctWord (s : State) (a : Word) : State :=
  if s.oor a 8 then s else s.corrected (s.keyOf a .rd) 8 s.myLaunch.asid

def State.correctBlock (s : State) (a : Word) (n : Nat) : State :=
  (blockAtoms a n).foldl (fun (s : State) x => if s.oor x 32 then s else s.corrected (s.keyOf x .rd) 32 s.myLaunch.asid) s

/-- The first atom of a block that is out of range is noted (R52). -/
def State.noteBlock (s : State) (a : Word) (n : Nat) : State :=
  match (blockAtoms a n).find? fun x => s.oor x 32 with
  | some x => s.modMe fun t => if t.lmflt then t else { t with lmflt := true, lmaddr := x }
  | none => s

/-! ### Addresses of the memory forms (R95) -/

/-- Bytes of an access width (R95). -/
def widthBytes : Width → Nat
  | .b => 1 | .h => 2 | .w => 4 | .d => 8 | .v => 32

/-- The index scale (R95). -/
def scaleTimes : Scale → Nat
  | .x1 => 1 | .x2 => 2 | .x4 => 4 | .x8 => 8 | .x32 => 32

/-- `gB` + `off11`·width. -/
def State.memAddr (s : State) (b : Reg) (o : BitVec 11) (wd : Width) : Word :=
  s.src b + o.signExtend 64 * BitVec.ofNat 64 (widthBytes wd)

/-- `gB` + `gX`·scale. -/
def State.idxAddr (s : State) (b x : Reg) (k : Scale) : Word := s.src b + s.src x * BitVec.ofNat 64 (scaleTimes k)

/-- The word of an `amo` or `red` (R130). -/
def State.amoAddr (s : State) (a : Reg) (f : BitVec 2) : Word := s.src a + f.setWidth 64 * 8

/-! ### Checks of the entries -/

/-- The trapped thread in a slot of the issuing core, where a slot operand names one (R217, R220). -/
def State.trappedIn (s : State) (w : Word) : Option Nat :=
  if bits w 4 60 != 0 then none
  else
    match (s.slot s.ctx.core (bits w 0 4)).tid with
    | some t =>
      match s.thread? t with
      | some th => if th.trapped.isSome && !th.away then some t else none
      | none => none
    | none => none

/-- A slot that `fill` may take (R221, R299). -/
def State.fillSlot (s : State) (w : Word) : Option Nat :=
  let n := bits w 0 4
  let x := s.slot s.ctx.core n
  if bits w 4 60 != 0 || 15 ≤ n || x.tid.isSome || x.reserved.isSome then none
  else match x.held with
    | none => some n
    | some t => if t = s.ctx.tid then some n else none

/-- The queues of `q0` to `q3` that slot n consumes (bits 7:4) and produces (bits 3:0) (R219). -/
def Launch.roles (l : Launch) (n : Nat) : Nat :=
  ((List.range 4).map fun k => (if l.wired k true = some n then 2 ^ k else 0)
    + (if l.wired k false = some n then 2 ^ (4 + k) else 0)).sum

/-- A save area of 80 words that `fill` may start in slot n (R219, R221). -/
def saveOk (l : Launch) (n : Nat) (ws : List Word) : Bool :=
  let w (i : Nat) : Word := ws.getD i 0
  bits (w 0) 0 3 = 0 && bits (w 1) 40 24 = 0 && bits (w 2) 22 42 = 0 && bits (w 2) 8 4 = 0
    && bits (w 2) 16 6 = l.gregs && bits (w 2) 12 4 = l.vregs
    && bits (w 3) 24 40 = 0 && bits (w 3) 19 3 = 0 && bits (w 3) 12 4 = 0 && bits (w 3) 0 7 = 0 && bits (w 4) 0 5 = 0 && bits (w 5) 0 5 = 0
    && bits (w 7) 1 63 = 0 && bits (w 9) 6 58 = 0 && bits (w 10) 6 58 = 0
    && (w 12).toNat = l.roles n && w 13 = 0 && w 14 = 0 && w 15 = 0

/-- An engine command of a thread at a core whose completion is still to come. -/
def State.commandsOf (s : State) (core tid : Nat) : Bool :=
  let x := s.core core
  x.vecQ.any (fun v => v.tid == tid) || x.vecRun.any (fun v => v.2.tid == tid) || x.matQ.any fun m => m.tid == tid

def State.copiesOf (s : State) (core tid : Nat) : Bool :=
  let x := s.core core
  x.copyQ.any (fun c => c.tid == tid) || x.copies.any fun c => c.tid == tid

/-- An engine command, or a copy, that a thread has issued, here or at its home core, is under way (R133, R70). -/
def State.myCommands (s : State) (core tid : Nat) : Bool :=
  s.commandsOf core tid || (match s.thread? tid with
    | some t => s.commandsOf t.homeCore tid
    | none => false)

def State.myCopies (s : State) (core tid : Nat) : Bool :=
  s.copiesOf core tid || (match s.thread? tid with
    | some t => s.copiesOf t.homeCore tid
    | none => false)

/-- Slot n's thread may be spilled now (R220). -/
def State.spillable (s : State) (core n : Nat) : Bool :=
  match (s.slot core n).tid with
  | some t => s.drained core n && !s.commandsOf core t
      && (match s.thread? t with | some th => th.outst.isNone | none => true)
  | none => true

/-- An uncorrectable word of the array that loads the itinerary table (R153, R329). -/
def State.itinStop (s : State) (w : Word) : Option Stop :=
  let l := s.myLaunch
  firstStop ((List.range 256).map fun i =>
    let off := (w.toNat / 8 * 8 + 8 * i) % 65536
    if l.lmLo ≤ off && off + 8 ≤ l.lmHi && s.isBad (localKey s.ctx.core off) 8 then
      stopFault 0x19 1 (BitVec.ofNat 64 (0x800000001FFF0000 + off))
    else none)

/-- The core that `fence.far` names, physical (R134). -/
def State.farCore (s : State) (w : Word) : Option Nat :=
  if w = 0x1FFF then some s.ctx.core
  else if w.toNat < s.myLaunch.cores then some (s.myLaunch.coreOf w.toNat) else none

/-- The words of a `tlbinv` operand: reach, size, all; none where they are reserved (R222). -/
def tlbControl (w : Word) : Option (Bool × Bool × Bool) :=
  if bits w 0 2 ≤ 1 && bits w 2 2 = 0 && bits w 6 58 = 0 then
    some (w.getLsbD 0, w.getLsbD 4, w.getLsbD 5)
  else none

/-- The itinerary words that a `send` names: entry and, where it continues, the next. -/
def State.sendWords (s : State) (d : Word) : Word × Word :=
  s.itinEntry (squareOf s.ctx.core) (bits d 0 10)

/-- What stops a `send` (R136). -/
def State.sendStop (s : State) (d h : Word) : Option Stop :=
  let ws := s.sendWords d
  if bits d 14 50 != 0 then stopFault 0x18 2 d
  else
    match s.badEntry (bits d 0 10) (contOf ws.1) with
    | some x => some x
    | none =>
      let w1 := if contOf ws.1 then ws.2 else 0
      if (parseItinerary ws.1 w1).isNone || planeOf ws.1 != 2 then stopFault 0x18 1 ws.1
      else if h.toNat % 8 != 0 then stopFault 0x11
      else
        match s.streets.route { cls := 2, inDistrict := s.myLaunch.hasSquare, amo := false, send := true }
            ws.1 w1 (squareOf s.ctx.core) with
        | .error q => stopFault 0x18 q ws.1
        | .ok _ => if s.hold.contains (dieOf s.ctx.core) then some (.park .injectOpen) else s.roomStop

/-! ### Heap operands (R193, R194, R202) -/

/-- Heap h is live and attached to the launch's identifier. -/
def State.attached (s : State) (h : BitVec 6) : Bool :=
  let x := s.heap h.toNat
  x.state == 1 && x.asid == s.myLaunch.asid

def State.heapStop (s : State) (h : BitVec 6) (ok : Bool) (qual : Nat) : Option Stop :=
  if !s.attached h then stopFault 0x22 1 (h.setWidth 64)
  else if !ok then stopFault 0x22 qual (h.setWidth 64) else none

/-- A register read as a class id with its upper half reserved. -/
def classOk (w : Word) : Bool := bits w 32 32 = 0 && bits w 0 32 != 0xFFFFFFFF

/-- A node pair is well formed (R194). -/
def nodeOk (w0 w1 : Word) : Bool :=
  let arity := bits w0 16 2
  let kid0 := bits w0 32 32; let kid1 := bits w1 0 32; let kid2 := bits w1 32 32
  let none_ := 0xFFFFFFFF
  bits w0 18 14 = 0 &&
    (if arity = 0 then kid0 = 0
     else kid0 != none_ && (if arity ≥ 2 then kid1 != none_ else kid1 = none_)
       && (if arity = 3 then kid2 != none_ else kid2 = none_))

/-- One node of a pattern record: operator, arity, child references, payload test (R202). -/
def patRef (w : Word) (k : Nat) : Nat := bits w (32 + 8 * k) 8
def patArity (w : Word) : Nat := bits w 16 2

/-- References of the used nodes. -/
def patRefs (ws : List Word) (nodes : Nat) : List Nat :=
  (List.range nodes).flatMap fun i =>
    let w := ws.getD (4 + 2 * i) 0
    (List.range (patArity w)).map fun k => patRef w k

/-- The channel of an id (R193). -/
def idChan (x : Nat) : Nat := x / 2 ^ 24 % 256

/-- The channel that anchors heap h (R245). -/
def anchorOf (h : Nat) : Nat := 4 * h

/-- A class or node id in a register. -/
def lowId (w : Word) : Nat := bits w 0 32

/-- The arity of a pair (R194). -/
def pairArity (w0 : Word) : Nat := bits w0 16 2

/-- Child k of a pair. -/
def pairKid (w0 w1 : Word) (k : Nat) : Nat :=
  if k = 0 then bits w0 32 32 else if k = 1 then bits w1 0 32 else bits w1 32 32

/-- The children of a pair, in order. -/
def pairKids (w0 w1 : Word) : List Nat := (List.range (pairArity w0)).map (pairKid w0 w1)

/-- The hash of a pair. -/
def pairHash (w0 w1 : Word) : Nat :=
  let w0 := w0 &&& 0xFFFFFFFF0003FFFF
  crc32c ((List.range 16).map fun i => BitVec.ofNat 8 (if i < 8 then bits w0 (8 * i) 8 else bits w1 (8 * (i - 8)) 8))

def hashChan (hash : Nat) : Nat := hash / 2 ^ 24

/-- The route to a channel core by its entry (R113, R193). -/
def State.chanStop (s : State) (c : Nat) : Option Stop := s.checkHome (channelBase + c) 0 false

/-- The routes of an insert to the channels of its children. Its owning channel is known when they have been replaced
by their roots (R196), and its route is checked then. -/
def State.pairStop (s : State) (w0 w1 : Word) : Option Stop :=
  firstStop ((pairKids w0 w1).map fun k => s.chanStop (idChan k))

/-- A pattern record of 20 words is well formed (R202). -/
def patternOk (ws : List Word) (cores : Nat) : Bool :=
  let w0 := ws.getD 0 0; let w1 := ws.getD 1 0; let w2 := ws.getD 2 0; let w3 := ws.getD 3 0
  let vars := bits w1 12 3; let nodes := bits w1 9 3 + 1
  let refs := patRefs ws nodes
  bits w1 24 40 = 0 && !w1.getLsbD 15 && bits w1 0 9 = 0 && bits w2 13 51 = 0 && w3 = 0
    && w0 != 0 && w0.toNat % 8 = 0 && bits w2 0 13 < cores && vars ≤ 4
    && ((List.range 8).all fun i =>
      let a := ws.getD (4 + 2 * i) 0; let b := ws.getD (5 + 2 * i) 0
      if i < nodes then
        bits a 56 8 = 0 && bits a 19 13 = 0
          && (!a.getLsbD 18 || patArity a = 0) && (a.getLsbD 18 || b = 0)
          && (List.range 3).all fun k =>
            let r := patRef a k
            if k < patArity a then (i < r && r < nodes) || (128 ≤ r && r < 128 + vars) else r = 255
      else a = 0 && b = 0)
    && ((List.range nodes).all fun i => i = 0 || refs.count i = 1)
    && (List.range vars).all fun v => refs.contains (128 + v)

/-! ### Layout records (R184, R185) -/

/-- The fields of a layout record, unpacked from its 12 words. -/
structure Layout where
  base : Word
  fmt : Nat
  dir : Bool
  dims : Nat
  swz : Nat
  dst : Nat
  fill : Nat
  size : List Nat
  win : List Nat
  stride : List Nat
  org : List Int
  deriving DecidableEq, Repr

/-- Word i of a record held in a triple of `v` registers. -/
def layoutWords (v0 v1 v2 : Vec) : List Word :=
  [v0, v1, v2].flatMap fun v => (List.range 4).map fun i => v.extractLsb' (64 * i) 64

def Layout.ofWords (ws : List Word) : Layout :=
  let w (i : Nat) : Word := ws.getD i 0
  let hi (i : Nat) : Nat := bits (w i) 32 32
  let lo (i : Nat) : Nat := bits (w i) 0 32
  let sg (n : Nat) : Int := (BitVec.ofNat 32 n).toInt
  { base := w 0, fmt := bits (w 1) 60 4, dir := (w 1).getLsbD 59, dims := bits (w 1) 56 3,
    swz := bits (w 1) 48 3, dst := bits (w 1) 32 16, fill := lo 1,
    size := [hi 2, lo 2, hi 3, lo 3, hi 4],
    win := [bits (w 4) 16 16, bits (w 4) 0 16, bits (w 5) 48 16, bits (w 5) 32 16, bits (w 5) 16 16],
    stride := [1, hi 6, lo 6, hi 7, lo 7], org := [sg (hi 8), sg (lo 8), sg (hi 9), sg (lo 9), sg (hi 10)] }

/-- Element width in bytes of a type code (R161). -/
def typeBytes (fmt : Nat) : Nat :=
  if fmt = 0 || fmt = 4 || fmt = 11 then 1
  else if fmt = 1 || fmt = 5 || fmt = 8 || fmt = 9 then 2
  else if fmt = 3 || fmt = 7 then 8 else 4

/-- The lowest set bit of a number below 2^n, from a starting bit. -/
def lowBit (w : Word) : Nat := (List.range 64).find? (fun i => w.getLsbD i) |>.getD 0

/-- The reserved bits of word i of a record. -/
def layoutReserved (i : Nat) : Word :=
  if i = 1 then 0x00F8000000000000 else if i = 5 then 0xFFFF else if i = 10 then 0xFFFFFFFF
  else if i = 11 then BitVec.allOnes 64 else 0

/-- Where field k of the sizes, windows, strides and origins stands: word and lowest bit. -/
def sizeAt (k : Nat) : Nat × Nat := (2 + k / 2, if k % 2 = 0 then 32 else 0)
def winAt (k : Nat) : Nat × Nat := if k < 2 then (4, 16 - 16 * k) else (5, 48 - 16 * (k - 2))
def strideAt (k : Nat) : Nat × Nat := (6 + (k - 1) / 2, if (k - 1) % 2 = 0 then 32 else 0)
def orgAt (k : Nat) : Nat × Nat := (8 + k / 2, if k % 2 = 0 then 32 else 0)

/-- Lowest of several (word, bit) places. -/
def lowestPlace : List (Nat × Nat) → Option (Nat × Nat)
  | [] => none
  | p :: r =>
    match lowestPlace r with
    | none => some p
    | some q => if p.1 < q.1 || (p.1 = q.1 && p.2 ≤ q.2) then some p else some q

/-- The first breach of the value rules of R185, in their order: word and bit. -/
def layoutBreach (ws : List Word) : Option (Nat × Nat) :=
  let l := Layout.ofWords ws
  let w := typeBytes l.fmt
  let word (i : Nat) : Word := ws.getD i 0
  let used := (List.range 5).filter fun k => k < l.dims
  let unused := (List.range 5).filter fun k => l.dims ≤ k
  let zeros := used.flatMap fun k => (if l.size.getD k 0 = 0 then [sizeAt k] else [])
    ++ (if l.win.getD k 0 = 0 then [winAt k] else [])
  let low (p : Nat × Nat) (n : Nat) : List (Nat × Nat) :=
    let v := bits (word p.1) p.2 n
    if v = 0 then [] else [(p.1, p.2 + lowBit (BitVec.ofNat 64 v))]
  let extra := unused.flatMap fun k => low (sizeAt k) 32 ++ low (winAt k) 16 ++ low (orgAt k) 32
    ++ (if k = 0 then [] else low (strideAt k) 32)
  let fillHigh := l.fill / 2 ^ (8 * w)
  let area := l.win.foldl (fun acc n => acc * (if n = 0 then 1 else n)) 1
  if 12 ≤ l.fmt then some (1, 60)
  else if l.dims = 0 || 6 ≤ l.dims then some (1, 56)
  else if 4 ≤ l.swz then some (1, 48)
  else
    match lowestPlace zeros with
    | some p => some p
    | none =>
      match lowestPlace extra with
      | some p => some p
      | none =>
        if fillHigh != 0 then some (1, 8 * w + lowBit (BitVec.ofNat 64 fillHigh))
        else if l.base.toNat % w != 0 then some (0, lowBit l.base)
        else if l.dst % 32 != 0 || (l.swz != 0 && l.dst % 256 != 0) then
          some (1, 32 + lowBit (BitVec.ofNat 64 l.dst))
        else if 65536 < l.dst + w * area then some (1, 32) else none

/-- The detail of a layout fault: first register, word, bit (R322). -/
def layoutDetail (f word bit : Nat) : Word := BitVec.ofNat 64 (f + 256 * word + 65536 * bit)

/-- The checks of R185 on the record of triple f. -/
def layoutStop (f : Nat) (ws : List Word) : Option Stop :=
  match (List.range 12).find? fun i => ws.getD i 0 &&& layoutReserved i != 0 with
  | some i => stopFault 0x1C 0 (layoutDetail f i (lowBit (ws.getD i 0 &&& layoutReserved i)))
  | none =>
    match layoutBreach ws with
    | some (i, b) => stopFault 0x1D 0 (layoutDetail f i b)
    | none => none

/-- The record in the triple of a `cpy`. -/
def State.layoutOf (s : State) (vf : BitVec 3) : List Word :=
  layoutWords (s.srcV vf) (s.srcV (vf + 1)) (s.srcV (vf + 2))

/-! ### The checks each instruction makes once its operands are ready -/

/-- Matrix operands: multiples of 32, then the release of class held (R156, R175). -/
def State.matrixStop (s : State) (addrs : List Word) : Option Stop :=
  match addrs.find? fun a => a.toNat % 32 != 0 with
  | some a => stopFault 0x16 0 a
  | none => s.releaseStop

/-- An `mrot` that the closing of a suspension does not let in (R284). -/
def State.mrotStop (s : State) : Option Stop :=
  match s.myCore.mrotMax with
  | some m => if s.myCore.mrotCount < m then none else some (.park .mrotOpen)
  | none => none

/-- A transfer whose target is not a multiple of 8 (R107). -/
def jumpStop (a : Word) : Option Stop := if a.toNat % 8 != 0 then stopFault 0x11 else none


/-- What stops an instruction after its operands are ready: its entry's checks and waits, in order. `mig` makes no access, so
R52 has no size for its address: the model tests one byte (notes/assumptions/53). R193 gives qualifier 2 to a register read as
a class id: the model gives it to the node id of `enode` too, where bits 63:32 are set or the id is 0xFFFFFFFF
(notes/assumptions/26). -/
def State.late (s : State) (i : Instr) : Option Stop :=
  match i with
  | .jmp a | .ret a | .callReg _ a | .brt a _ => jumpStop (s.src a)
  | .ld wd _ b _ o => s.loadStop (s.memAddr b o wd) (widthBytes wd) false
  | .ldIdx wd _ b x _ k => s.loadStop (s.idxAddr b x k) (widthBytes wd) false
  | .st wd _ b _ o => s.postStop (s.memAddr b o wd) (widthBytes wd) .w false
  | .stIdx wd _ b x _ k => s.postStop (s.idxAddr b x k) (widthBytes wd) .w false
  | .feClr b o => s.postStop (s.memAddr b o .d) 8 .w false
  | .amo _ a _ _ c f => s.amoStop (s.amoAddr a f) c
  | .red a _ _ _ f => s.postStop (s.amoAddr a f) 8 .w true
  | .fence =>
    firstStop [s.releaseStop, if s.myCommands s.ctx.core s.ctx.tid || s.myCopies s.ctx.core s.ctx.tid
      then some (.park .enginesDone) else none]
  | .fenceR | .bar _ | .done => s.releaseStop
  | .fenceFar a =>
    firstStop [s.releaseStop, match s.farCore (s.src a) with
      | some c => s.checkHome c 0 false
      | none => none]
  | .home =>
    firstStop [if s.me.away then s.checkEntry (256 + s.myLaunch.squareIdx s.me.homeCore) 2 false else none,
      s.releaseStop]
  | .mig a =>
    let w := s.src a
    if !isLocal w || s.oor w 1 then s.releaseStop
    else
      let c := namedCore s.myLaunch s.ctx.core w
      firstStop [if c = s.ctx.core then none else s.checkEntry (256 + s.myLaunch.squareIdx c) 2 false, s.releaseStop]
  | .rget _ a _ => s.loadStop (s.src a) 8 true
  | .rput a _ _ => s.postStop (s.src a) 8 .w true
  | .sysrFexc _ => if s.myCommands s.ctx.core s.ctx.tid then some (.park .commandsDone) else none
  | .syswItin a => s.itinStop (s.src a)
  | .tret a => if (s.trappedIn (s.src a)).isSome then none else stopFault 0x11
  | .spill a b =>
    match s.trappedIn (s.src a) with
    | none => stopFault 0x11
    | some _ =>
      firstStop [s.blockStop (s.src b) 640 32 .w, s.blockOverlap (s.src b) 640 .w,
        if s.spillable s.ctx.core (bits (s.src a) 0 4) then none else some (.park (.spillReady (bits (s.src a) 0 4)))]
  | .fill a b =>
    match s.fillSlot (s.src a) with
    | none => stopFault 0x11
    | some n => firstStop [s.blockStop (s.src b) 640 32 .rd, s.blockOverlap (s.src b) 640 .rd, s.blockBad (s.src b) 640 .rd,
        if saveOk s.myLaunch n (s.blockWords (s.src b) 80 .rd) then none else stopFault 0x26 0 (s.src b)]
  | .tlbinv _ b => if (tlbControl (s.src b)).isNone then stopFault 0x11 else s.releaseStop
  | .send d a _ _ _ => s.sendStop (s.src d) (s.src a)
  | .spawn _ a k _ =>
    if (s.myCore.lanes.toList.getD k.toNat Lane.empty).count = 32 then none
    else s.postStop (s.src a) 32 .rw true
  | .sync a | .syncEnd a =>
    firstStop [s.releaseStop, s.checkAddr (s.src a) 32 .rw,
      if s.oor (s.src a) 32 then none else s.checkHome (homeOf (s.keyOf (s.src a) .rw)) 0 false]
  | .post _ a _ => s.loadStop (s.src a) 32 false
  | .tnset _ _ | .tndrain _ => s.releaseStop
  | .tnsave _ a => firstStop [s.releaseStop, s.blockStop (s.src a) 384 32 .w]
  | .tnload _ a => firstStop [s.releaseStop, s.blockStop (s.src a) 384 32 .rd]
  | .stow a | .unstow a =>
    let w := s.src a
    firstStop [s.releaseStop, if w.toNat % 32 != 0 then stopFault 0x16 0 w else none, s.wordStop w, s.wordStop (w + 24),
      if (s.readWord (w + 24)).toNat % 8 != 0 then stopFault 0x16 0 (s.readWord (w + 24)) else none,
      if (s.hampers.toList.getD (bits (s.readWord w) 0 2) Hamper.idle).waiting < 256 then none
      else some (.park (.hamperRoom (bits (s.readWord w) 0 2)))]
  | .eins _ a h =>
    firstStop [s.heapStop h (nodeOk (s.src a) (s.srcPair a)) 3, s.releaseStop, s.pairStop (s.src a) (s.srcPair a)]
  | .efind _ a h | .enode _ a h | .eclass _ a h =>
    firstStop [s.heapStop h (classOk (s.src a)) 2, s.chanStop (idChan (lowId (s.src a)))]
  | .eeq _ a b h =>
    firstStop [s.heapStop h (classOk (s.src a) && classOk (s.src b)) 2, s.chanStop (idChan (lowId (s.src a))),
      s.chanStop (idChan (lowId (s.src b)))]
  | .emrg _ a b h =>
    firstStop [s.heapStop h (classOk (s.src a) && classOk (s.src b)) 2, s.releaseStop,
      s.chanStop (idChan (lowId (s.src a))), s.chanStop (idChan (lowId (s.src b)))]
  | .ecost _ a _ h =>
    firstStop [s.heapStop h (bits (s.src a) 0 32 != 0xFFFFFFFF) 2, s.releaseStop,
      s.chanStop (idChan (lowId (s.src a)))]
  | .esettle h => firstStop [s.heapStop h true 0, s.releaseStop, s.chanStop (anchorOf h.toNat)]
  | .ematch _ a h =>
    firstStop [s.heapStop h true 0, s.releaseStop, s.checkAddr (s.src a) 32 .rd, s.migrateStop (s.src a) 32,
      s.blockStop (s.src a) 160 32 .rd, firstStop ((List.range 256).map s.chanStop)]
  | .mma _ a b _ _ _ => s.matrixStop [s.src a, s.src b]
  | .mrot _ _ _ => firstStop [s.matrixStop [], s.mrotStop]
  | .mrotMem _ a b _ _ => firstStop [s.matrixStop [s.src a, s.src b], s.mrotStop]
  | .mmovF32Store a _ | .mmovBf16Store a _ _ | .mmovF16Store a _ _ | .mmovF32Load _ a => s.matrixStop [s.src a]
  | .mzero _ | .mtab _ | .mmovF32ToV _ _ _ | .mmovBf16ToV _ _ _ _ | .mmovF16ToV _ _ _ _ => s.releaseStop
  | .cpy _ vf => layoutStop vf.toNat (s.layoutOf vf)
  | .cwait a =>
    let m := s.src a; let x := s.myCore
    if x.tags &&& m != m then some (.park (.tagsAll m))
    else if x.tagerr &&& m != 0 then stopFault 0x1E 0 (x.tagerr &&& m) else none
  | .cany _ a =>
    let m := s.src a; let x := s.myCore
    if m = 0 then none
    else if x.tags &&& m = 0 then some (.park (.tagsAny m))
    else
      let u := lowBit (x.tags &&& m)
      if x.tagerr.getLsbD u then stopFault 0x1E 0 (1#64 <<< u) else none
  | _ => none

/-! ### The verdict, and what follows from it -/

/-- What stops the halves of a bundle, in the order of R93, R88 and the entries; none where it issues. -/
def State.firstStopOf (s : State) (is : List (Part × Instr)) : Option Stop :=
  firstStop [s.issueChecks is, overHalves is s.bindStop, overHalves is s.readiness, overHalves is s.engineRoom,
    overHalves is s.badOperand, overHalves is s.late]

/-- The bundle for reports and policies. -/
def State.bundleNow (s : State) (next : Word) : BundleInfo :=
  { pc := s.ctx.pc, instrs := s.ctx.instrs, next := next }

/-- The bundle of the instructions is opened: its registers as they are read, its next address. -/
def State.opened (s : State) (is : List (Part × Instr)) : State :=
  let t := s.me
  let is' := is.map Prod.snd
  let pc := if s.ctx.unit.isSome then s.ctx.pc else t.pc
  let all := if s.ctx.unit.isSome then .once :: is' else is'
  let next := pc + if s.ctx.unit.isSome then 16 else 8
  ({ s with ctx := { s.ctx with
      pc := pc, target := next, instrs := all, pre := t.regs, flags := t.fexc, pushes := [], taken := false } }).modMe
    fun t => { t with bundle := some { pc := pc, instrs := all, next := next } }

/-- Reads that were made before a record was found bad have corrected what they met, and noted an out-of-range address (R52,
R221, R329); an uncorrectable atom that an instruction reads itself counts for its stack (R332). -/
def State.readNotes (s : State) (f : Flt) : State :=
  let met (s : State) : State :=
    if f.cause = 0x19 && f.qual = 1 then s.uncorrected (s.keyOf f.detail .rd) s.myLaunch.asid else s
  s.ctx.instrs.foldl (fun (s : State) i => match i with
    | .fill _ b => if f.cause = 0x26 then (s.correctBlock (s.src b) 640).noteBlock (s.src b) 640 else met s
    | .stow _ | .unstow _ => met s
    | _ => s) s

/-- The bundle does not issue. -/
def State.stopWith (s : State) (x : Stop) : State :=
  let tid := s.ctx.tid
  let core := s.ctx.core
  match x with
  | .fault f => (s.readNotes f).raise tid { f with pc := s.ctx.pc, bundle := s.me.bundle }
  | .park c => s.modMe fun t => { t with wait := some (.cond c) }
  | .walk a =>
    (s.startWalk (squareOf core) s.myLaunch.asid (a / 65536)).modMe fun t => { t with wait := some (.cond (.walk a)) }
  | .migrate c => s.depart tid c
  | .charge =>
    if s.drained core s.ctx.slot then s.chargeFailed tid s.me.bundle
    else
      let b := s.me.bundle.getD (s.bundleNow s.ctx.target)
      s.modMe fun t => { t with wait := some .drain, due := .errs b :: t.due }
  | .bankStart k =>
    let tag := s.bankTag
    let s := s.modCore core fun c =>
      if h : k < 2 then { c with
        banks := c.banks.set k { c.banks[k] with
          loading := some (tid, tag.1, tag.2), tag := none } }
      else c
    s.modMe fun t => { t with bank := some k, wait := some (.cond (.bankLoad k)) }

/-- The issuing thread waits for the answer with the next packet's number. -/
def State.awaitAnswer (s : State) (b : Body) : State :=
  let id := s.nextId
  (s.inject b).modMe fun t => { t with outst := some (id, []), wait := some (.reply id) }

/-- It waits for the answer of a request that leaves for a home, on the request class. -/
def State.ask (s : State) (b : Body) (home : Nat) : State :=
  (s.awaitAnswer b).sendTo s.nextId (s.routing s.ctx.tid s.ctx.core) s.ctx.core home 0

/-- The words a bundle pops, port by port (R60). -/
def State.popped (s : State) : List (BitVec 3 × Word) :=
  (popsOf s.ctx.instrs).filterMap fun q => (s.myCore.portWords q).head?.map fun w => (q, w)

/-- The bundle just issued is not complete: its access has left, or its thread has moved or waits in it. -/
def Thread.pending (t : Thread) : Bool :=
  t.outst.isSome
    || (match t.place with | .flying _ => true | _ => false)
    || (match t.wait with | some (.reply _) | some (.barrier _ _) | some (.idle _) | some (.itin _) => true | _ => false)

/-- What a completed bundle leaves: ports popped and pushed, the program counter, the count of reissues; a bundle that is not
complete keeps what it needs to be undone, and the words it is still to push (R88). -/
def State.finish (s : State) : State :=
  let pops := s.popped
  let s1 := pops.foldl (fun s p => s.popPort s.ctx.core p.1) s
  let s2 := if s.me.pending then s1 else s.ctx.pushes.foldl (fun s p => s.pushPort s.ctx.core p.1 p.2) s1
  let undo (t : Thread) : Undo :=
    { regs := s.ctx.pre, flags := t.fexc &&& ~~~s.ctx.flags, pops := pops, pushes := s.ctx.pushes, order := s.clock }
  s2.modMe fun t =>
    let dsts := s.ctx.instrs.flatMap regDsts
    let t := { t with badRegs := t.badRegs.filter fun d => !dsts.contains d }
    if t.pending then { t with pc := s.ctx.target, lastPc := s.ctx.pc, undo := some (undo t) }
    else { t with pc := s.ctx.target, lastPc := s.ctx.pc, retries := 0 }

/-- Issue the halves of a bundle together, with the effect they have where nothing stops them. -/
def State.issueAll (s : State) (is : List (Part × Instr)) (eff : State → State) : State :=
  let s := (s.opened is).bindNow is
  match s.firstStopOf is with
  | some x => s.stopWith x
  | none => (eff { s with ctx := { s.ctx with phase := .checked } }).finish

/-- The meaning of an instruction of a bundle: alone where its bundle is fresh, its effect alone where the
bundle has passed its checks. -/
def issue (p : Part) (i : Instr) (eff : State → State) (s : State) : Host.Outcome State Fault Refusal :=
  match s.me? with
  | none => .fault .noThread
  | some _ =>
    match s.ctx.phase with
    | .checked => .next (eff s)
    | .fresh => .next (s.issueAll [(p, i)] eff)

end Sys2Proof.Machine
end

