-- ==== Sys2Proof/Machine/Control.lean ====
section
/-!
DEFINITION. Control: `nop`, branches, calls, jumps (R102, R116 to R118), fences and the barrier (R133 to
R135), the end of a thread and its moves (R138).
-/

namespace Sys2Proof.Machine

/-! ### Branches and calls -/

/-- PC + 8·offset, from the address of the bundle (R95). -/
def State.branchTarget (s : State) (w : Nat) (o : BitVec w) : Word := s.ctx.pc + o.signExtend 64 * 8

def execNop (s : State) : Host.Outcome State Fault Refusal := issue .c .nop id s

/-- `br` (R116): taken when the predicate differs from `s`. -/
def brEffect (inv : Bool) (p : BitVec 3) (o : BitVec 21) (s : State) : State :=
  if s.pred p != inv then s.goto (s.branchTarget 21 o) else s

def execBr (inv : Bool) (p : BitVec 3) (o : BitVec 21) (s : State) : Host.Outcome State Fault Refusal :=
  issue .c (.br inv p o) (brEffect inv p o) s

/-- `bra` (R116). -/
def braEffect (o : BitVec 25) (s : State) : State := s.goto (s.branchTarget 25 o)

def execBra (o : BitVec 25) (s : State) : Host.Outcome State Fault Refusal := issue .c (.bra o) (braEffect o) s

/-- `call label` (R118): the link register receives PC + 8. -/
def callLabelEffect (d : Reg) (o : BitVec 19) (s : State) : State :=
  (s.setDst d (s.ctx.pc + 8)).goto (s.branchTarget 19 o)

def execCallLabel (d : Reg) (o : BitVec 19) (s : State) : Host.Outcome State Fault Refusal :=
  issue .c (.callLabel d o) (callLabelEffect d o) s

/-- `jmp` (R118). -/
def jmpEffect (a : Reg) (s : State) : State := s.goto (s.src a)

def execJmp (a : Reg) (s : State) : Host.Outcome State Fault Refusal := issue .c (.jmp a) (jmpEffect a) s

/-- `call` through a register (R118). -/
def callRegEffect (d a : Reg) (s : State) : State := (s.setDst d (s.ctx.pc + 8)).goto (s.src a)

def execCallReg (d a : Reg) (s : State) : Host.Outcome State Fault Refusal :=
  issue .c (.callReg d a) (callRegEffect d a) s

/-- `ret` differs from `jmp` only in its `fn` (R118). -/
def execRet (a : Reg) (s : State) : Host.Outcome State Fault Refusal := issue .c (.ret a) (jmpEffect a) s

/-- `brt` jumps into a table of 16 bundles (R118). -/
def brtEffect (a b : Reg) (s : State) : State := s.goto (s.src a + ((s.src b).extractLsb' 0 4).setWidth 64 * 8)

def execBrt (a b : Reg) (s : State) : Host.Outcome State Fault Refusal := issue .c (.brt a b) (brtEffect a b) s

/-- `brq` tests the word it pops (R117). -/
def brqEffect (inv : Bool) (q : BitVec 3) (o : BitVec 21) (s : State) : State :=
  if (s.src (.q q) != 0) != inv then s.goto (s.branchTarget 21 o) else s

def execBrq (inv : Bool) (q : BitVec 3) (o : BitVec 21) (s : State) : Host.Outcome State Fault Refusal :=
  issue .c (.brq inv q o) (brqEffect inv q o) s

/-! ### Fences (R133, R134) -/

/-- `fence`: its waits are the release and the engines, made before it issues. -/
def execFence (s : State) : Host.Outcome State Fault Refusal := issue .c .fence id s

def execFenceR (s : State) : Host.Outcome State Fault Refusal := issue .c .fenceR id s

def execFenceOwn (s : State) : Host.Outcome State Fault Refusal := issue .c .fenceOwn id s

/-- `fence.far`: a drain request leaves for the core, and the thread parks until the answer. -/
def fenceFarEffect (a : Reg) (s : State) : State :=
  match s.farCore (s.src a) with
  | none => s.modMe fun t =>
      t.note (0x8000000000000000 + ((s.src a).extractLsb' 0 13).setWidth 64 * 65536)
  | some c => s.ask (.far c s.ctx.tid none) c

def execFenceFar (a : Reg) (s : State) : Host.Outcome State Fault Refusal :=
  issue .c (.fenceFar a) (fenceFarEffect a) s

/-! ### The barrier (R135) -/

/-- Arrive at the barrier of the level-n unit that contains the thread, and park until it opens; in a level of scope `.host` it
waits for the reads of the host received so far, too (R232). -/
def barEffect (n : BitVec 3) (s : State) : State :=
  let t := s.me
  match s.myLaunch.levels[n.toNat]?, t.units with
  | some v, some (c, k) =>
    let u := unitAt s.myLaunch v c k
    let s := s.modLaunch t.launch fun l => l.arrive n.toNat u s.ctx.tid (if v.scope = 7 then s.nextId else 0)
    (s.modMe fun t => { t with wait := some (.barrier n.toNat u) }).openBars t.launch
  | _, _ => s

def execBar (n : BitVec 3) (s : State) : Host.Outcome State Fault Refusal := issue .c (.bar n) (barEffect n) s

/-! ### The end of a thread, and moves (R138) -/

def doneEffect (s : State) : State := s.endThread s.ctx.tid

def execDone (s : State) : Host.Outcome State Fault Refusal := issue .c .done doneEffect s

/-- `mig`: an address that names no core of the district is noted; the core the thread is on has no effect. -/
def migEffect (a : Reg) (s : State) : State :=
  let w := s.src a
  if !isLocal w || s.oor w 1 then s.modMe fun t => t.note w
  else
    let c := namedCore s.myLaunch s.ctx.core w
    if c = s.ctx.core then s else s.depart s.ctx.tid c

def execMig (a : Reg) (s : State) : Host.Outcome State Fault Refusal := issue .c (.mig a) (migEffect a) s

/-- `home`: no effect at home. -/
def homeEffect (s : State) : State :=
  if s.me.away then s.depart s.ctx.tid s.me.homeCore else s

def execHome (s : State) : Host.Outcome State Fault Refusal := issue .c .home homeEffect s

end Sys2Proof.Machine
end

