-- ==== Sys2Proof/Machine/Homes.lean ====
section
/-!
DEFINITION. What homes do (R39, R127 to R132, R229, R230, R280): accesses performed as one indivisible step,
waiting tables, refusals; the steps of frames (R143, R144) and of replies, acknowledgements, porters, `amo`
trips and drain requests.
-/

namespace Sys2Proof.Machine

/-! ### Waiting tables (R39) -/

/-- Entries of a home's table: accesses that wait, and launch threads that are suspended, or whose answer is on its way
(R145). -/
def State.waitCount (s : State) (home : Nat) : Nat :=
  (s.waits.filter fun p =>
    match p.2 with
    | .access a => homeOf a.key == home
    | .amo a => homeOf a.key == home
    | .frame r => homeOf r.key == home
    | _ => false).length
  + (s.threads.filter fun p =>
    match p.2.place with
    | .frame k => homeOf k == home && !s.restarting p.1
    | _ => false).length
  + (s.net.filter fun p =>
    match p.2 with
    | .frameAns r .suspend => homeOf r.key == home
    | _ => false).length

def tableSize (home : Nat) : Nat := if home < channelBase then 256 else 4096

def State.roomAt (s : State) (home : Nat) : Bool := s.waitCount home < tableSize home

/-- A home with 16 free entries sends room messages to the cores that wait for them (R281). -/
def State.tellRoom (s : State) (home : Nat) : State :=
  if tableSize home < s.waitCount home + 16 then s
  else
    let asked := s.roomAsk.filter fun p => p.1 == home
    let s := { s with roomAsk := s.roomAsk.filter fun p => p.1 != home }
    asked.foldl (fun (s : State) p => (s.inject (.room p.2 home)).sendFrom s.nextId (s.routing 0 p.2) p.2 home) s

/-! ### Performing -/

/-- An access that replaces every protected unit it touches (R329). -/
def Access.whole (a : Access) : Bool :=
  (a.size == 32 || (a.size == 8 && localBase ≤ a.key)) && (match a.kind with | .store _ => true | _ => false)

/-- The condition of R127, on the words the access acts on. -/
def State.accessReady (s : State) (a : Access) : Bool :=
  match a.kind with
  | .load .plain => true
  | .load _ => s.allFull a.key a.size
  | .store .fillEmpty => s.allEmpty a.key a.size
  | .store _ => true
  | .clear => true
  | .red _ _ => s.isFull a.key

/-- A `sync` that would suspend a launch thread needs an entry for it (R145). -/
def State.frameRoom (s : State) (r : FrameReq) : Bool :=
  r.ending || r.task || s.loadWord r.key = 0 || s.loadWord (r.key + 8) != 0 || s.roomAt (homeOf r.key)

/-- An uncorrectable atom ends every wait: the access is refused (R329). Only `sync` waits for its word to be full
(R143, R144). -/
def State.canPerform (s : State) (b : Body) : Bool :=
  match b with
  | .access a => (s.isBad a.key a.size && !a.whole) || s.accessReady a
  | .amo a => s.isBad a.key 8 || s.isFull a.key
  | .frame r => s.isBad r.key 32 || r.ending || s.isFull r.key
  | _ => false

/-- The new value of a word under an operation (R131). -/
def amoNew (op : AmoOp) (old y0 y1 : Word) : Word :=
  match op with
  | .add => old + y0
  | .and => old &&& y0
  | .or => old ||| y0
  | .xor => old ^^^ y0
  | .min => if old.toInt ≤ y0.toInt then old else y0
  | .max => if y0.toInt ≤ old.toInt then old else y0
  | .swap => y0
  | .cas => if old = y0 then y1 else old

/-- Send an answer under the number of its request. -/
def State.answer (s : State) (id tid : Nat) (a : Answer) : State := { s with net := tput s.net id (.reply tid none a) }

/-- The answer of an access, which travels back from its home. -/
def State.answerFrom (s : State) (id tid key : Nat) (addr : Word) (a : Answer) : State :=
  { s with net := tput s.net id (.reply tid (some (homeOf key, addr)) a) }

def State.ack (s : State) (id : Nat) (err : Option (Nat × Nat)) : State := { s with net := tput s.net id (.ack id err) }

/-- A host read of a word that was received before a number is still to be answered (R131, R232). -/
def State.hostReading (s : State) (key bound : Nat) : Bool :=
  s.queue.any fun p => p.1 < bound && (match p.2 with
    | .readDeviceMemory _ dev _ len _ => dev < key + 8 && key < dev + len
    | _ => false)

/-- The answer of an access of `.host` scope waits for the host reads of its word received before it was performed. -/
def State.holdHost (s : State) (id key : Nat) (c : Scope) : State :=
  if c = .host && s.hostReading key s.nextId then { s with hostHold := s.hostHold ++ [(id, key, s.nextId)] } else s

/-- A reply or acknowledgement may arrive. -/
def State.mayReturn (s : State) (id : Nat) : Bool :=
  s.carried id && s.hostHold.all fun h => h.1 != id || !s.hostReading h.2.1 h.2.2

/-- The scope of a `red`; every other access is of scope `.core`. -/
def AccKind.scope : AccKind → Scope
  | .red _ c => c
  | _ => .core

/-- The identifier a log event of an access carries (R324). -/
def State.asidOf (s : State) (tid : Nat) : BitVec 12 :=
  match s.thread? tid with
  | some t => (s.launchOf t).asid
  | none => 0

/-- The data and full/empty step of an access (R127), and the value a load reads. -/
def State.accessStep (s : State) (a : Access) : State × Vec :=
  match a.kind with
  | .load f =>
    let v := BitVec.ofNat 256 (s.load a.key a.size)
    (if f = .takeEmpty then s.emptyWords a.key a.size else s, v)
  | .store f =>
    let s := s.store a.key a.size a.data.toNat
    (if f = .plain then s else s.fillWords a.key a.size, 0)
  | .clear => (s.setEmpty a.key, 0)
  | .red op _ => (s.storeWord a.key (amoNew op (s.loadWord a.key) (a.data.setWidth 64) 0), 0)

/-- Perform an access; its answer sets out. -/
def State.performAccess (s : State) (id : Nat) (a : Access) : State :=
  let load := match a.kind with | .load _ => true | _ => false
  let asid := s.asidOf a.tid
  let s :=
    if s.isBad a.key a.size && !a.whole then
      let s := s.uncorrected a.key asid
      if load then s.answerFrom id a.tid a.key a.addr (.fault 0x19 1 a.addr) else s.ack id (some (0x19, 1))
    else
      let s := if a.whole then s.healed a.key a.size else s.corrected a.key a.size asid
      let r := s.accessStep a
      if load then r.1.answerFrom id a.tid a.key a.addr (.vals [r.2]) else (r.1.ack id none).holdHost id a.key a.kind.scope
  s.sendBack id (homeOf a.key)

/-- Perform the step of an `amo`; its answer sets out, and a slot it took elsewhere becomes free. -/
def State.performAmo (s : State) (id : Nat) (a : Amo) : State :=
  let asid := s.asidOf a.tid
  let s1 :=
    if s.isBad a.key 8 then (s.uncorrected a.key asid).answerFrom id a.tid a.key a.addr (.fault 0x19 1 a.addr)
    else
      let s := s.corrected a.key 8 asid
      let old := s.loadWord a.key
      ((s.storeWord a.key (amoNew a.op old a.y0 a.y1)).answerFrom id a.tid a.key a.addr
        (.vals [old.setWidth 256])).holdHost id a.key a.scope
  let s1 := s1.sendBack id (homeOf a.key)
  match a.path with
  | .slot c n => s1.freeSlot c n
  | _ => s1

/-- The launch thread that a frame's suspension entry holds: suspended, or with its answer under way. -/
def State.suspendedAt (s : State) (key : Nat) : Option Nat :=
  match s.threads.find? fun p => p.2.place == .frame key && !s.restarting p.1 with
  | some p => some p.1
  | none =>
    (s.net.find? fun p => match p.2 with
      | .frameAns r .suspend => r.key == key && !s.restarting r.tid
      | _ => false).map fun p => match p.2 with
        | .frameAns r _ => r.tid
        | _ => 0

/-- The step of a frame at its home (R143, R144), which corrects what it reads (R329). -/
def State.frameStep (s : State) (r : FrameReq) : State × FrameAns :=
  let s := if s.isBad r.key 32 then s else s.corrected r.key 32 (s.asidOf r.tid)
  let kids := s.loadWord r.key
  let waitpc := s.loadWord (r.key + 8)
  if s.isBad r.key 32 then (s.uncorrected r.key (s.asidOf r.tid), .uncorrectable)
  else if !r.ending then
    if kids = 0 then (s, .goOn)
    else if waitpc != 0 then (s, .busy)
    else
      let s := ((s.storeWord (r.key + 8) r.next).storeWord (r.key + 16) r.fmtp).storeWord (r.key + 24) r.sclp
      (s, if r.task then .ended else .suspend)
  else if kids = 0 then (s, .underflow)
  else
    let s := s.storeWord r.key (kids - 1)
    if kids = 1 && waitpc != 0 then
      (s.storeWord (r.key + 8) 0,
       .restart waitpc (s.loadWord (r.key + 16)) (s.loadWord (r.key + 24)) (s.suspendedAt r.key))
    else (s, .ended)

def State.performFrame (s : State) (id : Nat) (r : FrameReq) : State :=
  let x := s.frameStep r
  ({ x.1 with net := tput x.1.net id (.frameAns r x.2) } : State).sendBack id (homeOf r.key)

def State.perform (s : State) (id : Nat) (b : Body) : State :=
  match b with
  | .access a => s.performAccess id a
  | .amo a => s.performAmo id a
  | .frame r => s.performFrame id r
  | _ => s

/-- After a change, the home performs every waiting access that the new state allows, oldest first (R39). -/
def State.serve : Nat → State → State
  | 0, s => s
  | n + 1, s =>
    match s.waits.find? fun p => s.canPerform p.2 with
    | none => s
    | some p =>
      let s := { s with waits := s.waits.filter fun q => q.1 != p.1 }
      State.serve n (s.perform p.1 p.2)

def State.serveAll (s : State) (home : Nat) : State := (State.serve s.waits.length s).tellRoom home

/-- An access that has reached its home: performed, entered in the waiting table, or refused (R230, R280); a `sync` that
would suspend its thread where no entry is free is refused too (R145). -/
def State.reach (s : State) (id : Nat) (b refused : Body) (home : Nat) : State :=
  let room := match b with
    | .frame r => s.isBad r.key 32 || s.frameRoom r
    | _ => true
  if s.canPerform b then
    if room then (s.perform id b).serveAll home else { s with net := tput s.net id refused }
  else if s.roomAt home then { s.dropPacket id with waits := s.waits ++ [(id, b)] }
  else { s with net := tput s.net id refused }

/-! ### Steps of accesses -/

/-- An access (R127, R229) to the core's own memory or to HBM is performed. -/
def homeAccessStep (id : Nat) (s : State) : State :=
  match s.packet? id with
  | some (.access a) =>
    let isRed := match a.kind with | .red _ _ => true | _ => false
    if a.porter || isRed || !s.mayArrive id a then s else s.reach id (.access a) (.refusedAccess a) (homeOf a.key)
  | _ => s

/-- PORTER_ACCESS (R57): the fixed handler performs an access message while the porter holds no thread. -/
def porterStep (id : Nat) (s : State) : State :=
  match s.packet? id with
  | some (.access a) =>
    let c := homeOf a.key
    let isRed := match a.kind with | .red _ _ => true | _ => false
    if !a.porter || isRed || !s.mayArrive id a || !(s.slot c 15).isFree then s
    else (s.reach id (.access a) (.refusedAccess a) c).takeWork c 15
  | some (.amo a) =>
    let c := homeOf a.key
    if a.path != .porter || !s.bankOpen a.key || !s.carried id || !(s.slot c 15).isFree then s
    else (s.reach id (.amo a) (.refusedAmo a) c).takeWork c 15
  | _ => s

def execPorterAccess (id : Nat) (s : State) : Host.Outcome State Fault Refusal := .next (porterStep id s)

/-- REMOTE_UPDATE (R59, R132): a `red` is performed at its word's home, enters the home's table, or is refused. -/
def remoteUpdateStep (id : Nat) (s : State) : State :=
  match s.packet? id with
  | some (.access a) =>
    let c := homeOf a.key
    let isRed := match a.kind with | .red _ _ => true | _ => false
    if !isRed || !s.mayArrive id a || (a.porter && !(s.slot c 15).isFree) then s
    else
      let s := s.reach id (.access a) (.refusedAccess a) c
      if a.porter then s.takeWork c 15 else s
  | _ => s

def execRemoteUpdate (id : Nat) (s : State) : Host.Outcome State Fault Refusal := .next (remoteUpdateStep id s)

/-! ### `amo` trips (R59, R131) -/

/-- A trip takes a slot of its target core, or a record of its ring where the ring has room (R57, R59). -/
def State.amoEnter (s : State) (id : Nat) (a : Amo) : Option State :=
  let h := homeOf a.key
  let bound := if channelBase ≤ h then 12 else 15
  let x := s.core h
  match (if x.ringHas 2 then none else x.freeSlot bound) with
  | some n =>
    let s := (s.signal h).modSlot h n fun y => y.seat a.tid
    some { s with net := tput s.net id (.amo { a with path := .slot h n }) }
  | none =>
    match s.thread? a.tid with
    | none => some (s.dropPacket id)
    | some t =>
      let len := migrLen t.gregs
      match x.ringFit (s.ringSize h) len with
      | none => none
      | some (skip, off) =>
        let rec_ : RingRec := { off := 0, len := len, kind := 2, tid := some a.tid, amo := some id, launch := t.launch }
        let s := s.writeSkip h x skip
        let ws := ringHeader (len / 16) ((s.launchOf t).coreIdx a.core) 0 a.slot 0 2 :: migrRecord t
        let s := { s with mem := writeWords s.mem (s.ringKey h off) ws }
        let s := s.modCore h fun x => x.ringPut (s.ringSize h) rec_
        some { (s.signal h) with net := tput s.net id (.amo { a with path := .ring h }) }

/-- A record that fits nowhere is held in the link, behind those that are held already (R56). -/
def State.holdRecord (s : State) (c id : Nat) : State :=
  if (s.core c).held.any fun q => q.1 == id then s
  else s.modCore c fun x => { x with held := x.held ++ [(id, s.clock)] }

/-- Arrival of a trip: behind held records it is held too. -/
def State.amoArrive (s : State) (id : Nat) (a : Amo) : State :=
  let h := homeOf a.key
  if !(s.core h).held.isEmpty then s.holdRecord h id
  else match s.amoEnter id a with
    | some s' => s'
    | none => s.holdRecord h id

/-- AMO_AT_HOME (R131): the step on the core's own memory, the arrival of a trip, or the step after it. -/
def amoStep (id : Nat) (s : State) : State :=
  match s.packet? id with
  | some (.amo a) =>
    match a.path with
    | .flying => if s.carried id then s.amoArrive id a else s
    | .own => if s.bankOpen a.key then s.reach id (.amo a) (.refusedAmo a) (homeOf a.key) else s
    | .slot c n =>
      if !s.bankOpen a.key then s
      else
        let s := s.reach id (.amo a) (.refusedAmo { a with path := .flying }) (homeOf a.key)
        match s.packet? id with
        | some (.refusedAmo _) => s.freeSlot c n
        | _ => s
    | _ => s
  | _ => s

def execAmoAtHome (id : Nat) (s : State) : Host.Outcome State Fault Refusal := .next (amoStep id s)

/-! ### Replies and acknowledgements -/

/-- A value of a reply fills its register; a full one keeps its value, and its thread is charged with *double fill* at
the bundle that issued the access (R237, R238). A write of `g0` is discarded. -/
def Thread.fill (t : Thread) (d : Nat) (v : Vec) : Thread :=
  if t.regs.fullDst d && d != 0 then
    { t with due := t.due ++ [.fault { cause := 0x1F, pc := (t.bundle.map BundleInfo.pc).getD 0, detail := BitVec.ofNat 64 d }] }
  else { t with regs := t.regs.setDst d v }

/-- The hart that fills the destinations of an instruction: 2 a mending hart, 3 a match hart (R322). -/
def hartOf : Instr → Option Nat
  | .eins _ _ _ | .efind _ _ _ | .emrg _ _ _ _ | .eeq _ _ _ _ | .ecost _ _ _ _ | .enode _ _ _ | .eclass _ _ _ | .esettle _ => some 2
  | .ematch _ _ _ => some 3
  | _ => none

/-- Give the values of a reply to its destinations; the bundle completes. -/
def Thread.receive (t : Thread) (dsts : List Nat) (vs : List Vec) : Thread :=
  { ((dsts.zip vs).foldl (fun (t : Thread) p => t.fill p.1 p.2) t).passed with outst := none }

/-- A hart's values fill the destinations that are empty; a full register keeps its value, and the double fill is logged
against the hart's channel core (R238). The spec's detail is an address: the model gives the register (notes/assumptions/50). -/
def State.hartFill (s : State) (tid core qual : Nat) (dsts : List Nat) (vs : List Vec) : State :=
  match s.thread? tid with
  | none => s
  | some t =>
    let full (d : Nat) : Bool := t.regs.fullDst d && d != 0
    let xs := (dsts.zip vs).filter fun p => !full p.1
    let s := (dsts.filter full).foldl (fun (s : State) d => s.report (dieOf core)
      { cause := 0x44, qual := qual, core := s.coreLabel core, detail := BitVec.ofNat 64 d, asid := (s.launchOf t).asid }) s
    s.modThread tid fun t => t.receive (xs.map Prod.fst) (xs.map Prod.snd)

/-- The half of the bundle that an access belongs to. -/
def bundleHalf (b : Option BundleInfo) : Part :=
  match b with
  | some x => if x.instrs.length = 2 && !(x.instrs.contains .once) then .c
    else match x.instrs with
      | [.ld _ _ _ _ _] | [.ldIdx _ _ _ _ _ _] | [.rget _ _ _] | [.amo _ _ _ _ _ _] | [.fenceFar _] | [.mig _]
        | [.home] => .c
      | _ => .lone
  | none => .none

/-- Slots of a core that are parked in the task unit look again, from the start, when work is pushed on a lane of the core; one
in the middle of a rotation goes on with it (R277). -/
def State.wakeTasks (s : State) (c : Nat) : State :=
  (List.range 15).foldl (fun s n =>
    s.modSlot c n fun z => if z.isFree && z.seekAt != 0 then { z with seekAt := 0, victims := [] } else z) s

/-- `Push` of a task entry on the near end of a lane: all four words full (R301), and accesses that wait for them are performed
(R39). -/
def State.pushLane (s : State) (c k : Nat) (ws : List Word) (entry : Option Nat) : State :=
  match s.launchOn c with
  | none => s
  | some (_, l) =>
    let x := s.core c
    let y := x.lanes.toList.getD k Lane.empty
    let key := localKey c (l.lanesOff + 1024 * k + 32 * y.near)
    let s := { s with mem := writeWords s.mem key ws }
    let s := s.fillWords key 32
    let y' : Lane := { y with near := (y.near + 1) % 32, count := y.count + 1,
                              pend := match entry with | some e => y.pend ++ [(y.near, e)] | none => y.pend }
    let s := s.modCore c fun x => if h : k < 4 then { x with lanes := x.lanes.set k y' h } else x
    ((s.wakeTasks c).signal c).serveAll c

/-- The reply of a `post` (R146): its entry is pushed, or the lane is full, or the entry is bad. Where the lane is full and
the entry bad at once, the spec gives no order: the model answers that the lane is full (notes/assumptions/45). -/
def State.postReply (s : State) (tid : Nat) (t : Thread) (p : BitVec 3) (k : BitVec 2) (v : Vec) : State :=
  let c := t.coreNow
  let ws := (List.range 4).map fun i => v.extractLsb' (64 * i) 64
  let pc := ws.getD 0 0
  let full := ((s.core c).lanes.toList.getD k.toNat Lane.empty).count = 32
  let done (b : Bool) (s : State) : State := s.modThread tid fun t => { t.receive [] [] with regs := t.regs.setP p b }
  if full then done false s
  else if pc = 0 || pc.toNat % 8 != 0 then
    s.raise tid { cause := 0x21, qual := 3, half := .lone, pc := (t.bundle.map BundleInfo.pc).getD 0, detail := pc,
                  bundle := t.bundle }
  else (done true s).pushLane c k.toNat ws none

/-! ### `once` posts (R224) -/

/-- The `once` unit a thread's last bundle was, where it is a gang member's. -/
def Thread.unitOf (t : Thread) : Option (BitVec 32 × Word) :=
  match t.bundle with
  | some b => if t.gang && b.instrs.contains .once then some (t.occ - 1, b.pc) else none
  | none => none

/-- A gang member of a unit posts the destinations its reply has filled. -/
def State.postReplyOnce (s : State) (t : Thread) (vals : List (Nat × Vec)) : State :=
  match t.unitOf with
  | some u => s.postOnce t u.1 u.2 vals
  | none => s

/-- OncePost (R224): a posted value fills the destination that its occurrence has emptied in a member. -/
def oncePostStep (id : Nat) (s : State) : State :=
  match s.packet? id with
  | some (.post q n pos occ unit dst v) =>
    let s := s.dropPacket id
    match s.threads.find? fun p => p.2.gang && p.2.homeSlot == n && squareOf p.2.homeCore == q
        && posInSquare p.2.homeCore == pos with
    | some p =>
      let elect := ((s.square q).once.toList.getD n []).find? fun r => r.occ == occ
      let writer := match elect with
        | some r => s.threads.find? fun (m : Nat × Thread) => m.2.gang && m.2.homeSlot == n && squareOf m.2.homeCore == q
            && posInSquare m.2.homeCore == r.elect
        | none => none
      s.postFill p.1 dst occ v ((writer.map Prod.fst).getD 0) unit
    | none => s
  | _ => s

def execOncePost (id : Nat) (s : State) : Host.Outcome State Fault Refusal := .next (oncePostStep id s)

/-- LOAD_REPLY: values fill the destinations of the thread that waits for them, and what the bundle still owes its ports is
pushed (R88); a fault is taken at the instruction; a reply that nobody waits for is discarded (R239). -/
def loadReplyStep (id : Nat) (s : State) : State :=
  match s.packet? id with
  | some (.reply tid from? ans) =>
    if !s.mayReturn id then s else
    let s := s.dropPacket id
    match s.thread? tid with
    | none => s
    | some t =>
      match t.outst with
      | none => s
      | some (n, dsts) =>
        if n != id then s
        else
          let s := match t.place with | .flying _ => s.placeHome tid t | _ => s
          match ans with
          | .fault cause qual detail =>
            s.raise tid { cause := cause, qual := qual, half := bundleHalf t.bundle,
                          pc := (t.bundle.map BundleInfo.pc).getD 0, detail := detail, bundle := t.bundle }
          | .vals vs =>
            let s := s.pay tid
            match t.bundle with
            | some { pc := _, instrs := is, next := _ } =>
              match is.findSome? fun i => match i with | .post p _ k => some (p, k) | _ => none with
              | some (p, k) => s.postReply tid t p k (vs.getD 0 0)
              | none =>
                (match is.findSome? hartOf with
                  | some q => s.hartFill tid ((from?.map Prod.fst).getD channelBase) q dsts vs
                  | none => s.modThread tid fun t => t.receive dsts vs).postReplyOnce t (dsts.zip vs)
            | none => s.modThread tid fun t => t.receive dsts vs
  | _ => s

def execLoadReply (id : Nat) (s : State) : Host.Outcome State Fault Refusal := .next (loadReplyStep id s)

/-- A parked thread waits for the acknowledgement of an entry. -/
def Thread.awaits (t : Thread) (id home : Nat) : Bool :=
  match t.wait with
  | some (.cond (.acked n)) => n == id
  | some (.cond .released) => true
  | some (.cond (.releasedHome h)) => h == home
  | some .drain => true
  | _ => false

/-- An entry of a lane whose `kids` increment has been acknowledged; one that failed makes it void (R142). -/
def State.laneAcked (s : State) (c id : Nat) (failed : Bool) : State :=
  match s.launchOn c with
  | none => s
  | some (_, l) =>
    (List.range 4).foldl (fun s k =>
      let y := (s.core c).lanes.toList.getD k Lane.empty
      match y.pend.find? fun p => p.2 == id with
      | none => s
      | some p =>
        let s := if failed then s.storeWord (localKey c (l.lanesOff + 1024 * k + 32 * p.1)) 1 else s
        let s := s.modCore c fun x => if h : k < 4 then
          { x with lanes := x.lanes.set k { y with pend := y.pend.filter fun q => q.2 != id } h } else x
        s) s

/-- STORE_ACK (R129): the entry is free, or keeps its error for the bundle that waits for it; an entry whose
thread is gone is free either way. -/
def storeAckStep (id : Nat) (s : State) : State :=
  match s.packet? id with
  | some (.ack e err) =>
    if !s.mayReturn id then s else
    let s := s.dropPacket id
    match tget s.sq e with
    | none => s
    | some x =>
      let s := s.laneAcked x.core e err.isSome
      match err, s.thread? x.tid with
      | some (cause, qual), some t =>
        { s with sq := tput s.sq e { x with state := .failed cause qual (t.awaits e x.home) } }
      | _, _ => { s with sq := tdel s.sq e }
  | _ => s

def execStoreAck (id : Nat) (s : State) : Host.Outcome State Fault Refusal := .next (storeAckStep id s)

/-! ### `fence.far` (R134) -/

/-- FAR_DRAIN: the request arrives and notes the entries present; when they are acknowledged the answer sets out. -/
def farDrainStep (id : Nat) (s : State) : State :=
  match s.packet? id with
  | some (.far c tid left) =>
    if left.isNone && !s.carried id then s
    else
      let pending := match left with
        | none => (s.sq.filter fun p => p.2.core == c && p.2.inFlight).map Prod.fst
        | some ids => ids.filter fun e => ((tget s.sq e).map SqEntry.inFlight).getD false
      if pending.isEmpty then
        ({ s with net := tput s.net id (.reply tid (some (c, 0)) (.vals [])) } : State).sendBack id c
      else { s with net := tput s.net id (.far c tid (some pending)) }
  | _ => s

def execFarDrain (id : Nat) (s : State) : Host.Outcome State Fault Refusal := .next (farDrainStep id s)

end Sys2Proof.Machine
end

