-- ==== Sys2Proof/Machine/Memory.lean ====
section
/-!
DEFINITION. Loads, stores, `fe.clr`, `rget`, `rput`, `amo` and `red` at issue (R125 to R132, R138): the access
leaves for its home as a packet. What it does there is in Homes.lean.
-/

namespace Sys2Proof.Machine

/-! ### Loads (R126) -/

/-- The destination register of a load: `g` n as n, `v` k as 32 + k. -/
def memDstNum : MemReg → Nat
  | .r x => (gNum x).toNat
  | .v n => 32 + n.toNat

/-- An access of the issuing thread. -/
def State.access (s : State) (kind : AccKind) (a : Word) (n : Nat) (p : Perm) (data : Vec) : Access :=
  let key := s.keyOf a p
  { kind := kind, size := n, key := key, data := data, core := s.ctx.core, slot := s.ctx.slot, tid := s.ctx.tid,
    pc := s.ctx.pc, addr := a, porter := homeOf key < channelBase && homeOf key != s.ctx.core }

/-- An out-of-range access notes its address and goes nowhere (R52). -/
def State.noteLocal (s : State) (a : Word) : State := s.modMe fun t => t.note a

/-- `Load(a, n, F)` into a destination: its register is emptied, the request leaves, the thread parks. An
out-of-range load gives zero. -/
def State.startLoad (s : State) (a : Word) (n : Nat) (f : LdForm) (dst : Nat) : State :=
  if s.oor a n then (s.noteLocal a).modMe fun t => { t with regs := t.regs.setDst dst 0 }
  else
    let id := s.nextId
    (s.sendLoad (s.access (.load f) a n .rd 0)).modMe fun t => { t with
      regs := t.regs.emptyDst dst, outst := some (id, [dst]), wait := some (.reply id) }

def execLd (wd : Width) (t : MemReg) (b : Reg) (f : LdForm) (o : BitVec 11) (s : State) :
    Host.Outcome State Fault Refusal :=
  issue .c (.ld wd t b f o) (fun s => s.startLoad (s.memAddr b o wd) (widthBytes wd) f (memDstNum t)) s

def execLdIdx (wd : Width) (t : MemReg) (b x : Reg) (f : LdForm) (k : Scale) (s : State) :
    Host.Outcome State Fault Refusal :=
  issue .c (.ldIdx wd t b x f k) (fun s => s.startLoad (s.idxAddr b x k) (widthBytes wd) f (memDstNum t)) s

/-- `rget` loads by a porter message to the owning core, even beyond the square (R138). -/
def execRget (d a : Reg) (f : LdForm) (s : State) : Host.Outcome State Fault Refusal :=
  issue .c (.rget d a f) (fun s => s.startLoad (s.src a) 8 f (gNum d).toNat) s

/-! ### Posted accesses (R126, R128, R132) -/

/-- `Post`: the access takes a store-queue entry and leaves; an out-of-range one is noted and dropped. -/
def State.startPost (s : State) (kind : AccKind) (a : Word) (n : Nat) (p : Perm) (data : Vec) : State :=
  if s.oor a n then s.noteLocal a else s.postAccess (s.access kind a n p data)

/-- The value a store takes from its data register, low bytes first. -/
def State.storeData (s : State) : MemReg → Vec
  | .r x => (s.src x).setWidth 256
  | .v n => s.srcV n

def execSt (wd : Width) (t : MemReg) (b : Reg) (f : StForm) (o : BitVec 11) (s : State) :
    Host.Outcome State Fault Refusal :=
  issue .c (.st wd t b f o)
    (fun s => s.startPost (.store f) (s.memAddr b o wd) (widthBytes wd) .w (s.storeData t)) s

def execStIdx (wd : Width) (t : MemReg) (b x : Reg) (f : StForm) (k : Scale) (s : State) :
    Host.Outcome State Fault Refusal :=
  issue .c (.stIdx wd t b x f k)
    (fun s => s.startPost (.store f) (s.idxAddr b x k) (widthBytes wd) .w (s.storeData t)) s

def execFeClr (b : Reg) (o : BitVec 11) (s : State) : Host.Outcome State Fault Refusal :=
  issue .c (.feClr b o) (fun s => s.startPost .clear (s.memAddr b o .d) 8 .w 0) s

def execRput (a b : Reg) (f : StForm) (s : State) : Host.Outcome State Fault Refusal :=
  issue .c (.rput a b f) (fun s => s.startPost (.store f) (s.src a) 8 .w ((s.src b).setWidth 256)) s

/-- `red` never moves its thread; the update holds its entry until it is performed (R59, R132). -/
def execRed (a b : Reg) (op : AmoOp) (c : Scope) (f : BitVec 2) (s : State) : Host.Outcome State Fault Refusal :=
  issue .c (.red a b op c f) (fun s => s.startPost (.red op c) (s.amoAddr a f) 8 .w ((s.src b).setWidth 256)) s

/-! ### `amo` (R131, R59) -/

/-- The path to the word: the core itself, a porter message in the square, or a trip. -/
def State.amoPath (s : State) (key : Nat) : AmoPath :=
  let home := homeOf key
  if home = s.ctx.core then .own
  else if home < channelBase && squareOf home = squareOf s.ctx.core then .porter
  else .flying

/-- What a visitor's store queue still holds stays with its reserved home slot (R131). -/
def State.queueHome (s : State) (tid : Nat) (t : Thread) (c n : Nat) : State :=
  let move (b : Body) : Body := match b with
    | .access a => if a.tid = tid && a.core = c && a.slot = n then .access { a with core := t.homeCore, slot := t.homeSlot } else b
    | .refusedAccess a => if a.tid = tid && a.core = c && a.slot = n then
        .refusedAccess { a with core := t.homeCore, slot := t.homeSlot } else b
    | b => b
  { s with
    sq := s.sq.map fun (p : Nat × SqEntry) => if p.2.tid = tid && p.2.core = c && p.2.slot = n then
      (p.1, { p.2 with core := t.homeCore, slot := t.homeSlot }) else p,
    net := s.net.map fun p => (p.1, move p.2), waits := s.waits.map fun p => (p.1, move p.2) }

/-- `amo` leaves for its word; a thread away from home leaves its visiting slot for the trip. -/
def amoEffect (d a b : Reg) (op : AmoOp) (c : Scope) (f : BitVec 2) (s : State) : State :=
  let addr := s.amoAddr a f
  let dst := (gNum d).toNat
  if s.oor addr 8 then (s.noteLocal addr).modMe fun t => { t with regs := t.regs.setDst dst 0 }
  else
    let id := s.nextId
    let key := s.keyOf addr .rw
    let path := s.amoPath key
    let x : Amo := { op := op, scope := c, key := key, y0 := s.src b,
                     y1 := if op = .cas then s.srcPair b else 0,
                     core := s.ctx.core, slot := s.ctx.slot, tid := s.ctx.tid, addr := addr, path := path }
    let leaves := path = .flying && s.me.away
    let s1 := (s.sendAmo x).modMe fun t => { t with
      regs := t.regs.emptyDst dst, outst := some (id, [dst]), wait := some (.reply id),
      place := if leaves then .flying id else t.place }
    if leaves then (s1.queueHome s.ctx.tid s.me s.ctx.core s.ctx.slot).freeSlot s.ctx.core s.ctx.slot else s1

def execAmo (d a b : Reg) (op : AmoOp) (c : Scope) (f : BitVec 2) (s : State) :
    Host.Outcome State Fault Refusal :=
  issue .c (.amo d a b op c f) (amoEffect d a b op c f) s

end Sys2Proof.Machine
end

