-- ==== Sys2Proof/Machine/Vector.lean ====
section
/-!
DEFINITION. The vector engine (R157 to R171): what each command computes, its place in the queue, its start
and its completion.
-/

namespace Sys2Proof.Machine

/-! ### Elements (R161) -/

/-- Element i of width w of a register. -/
def elem (w : Nat) (v : Vec) (i : Nat) : Nat := (v.extractLsb' (w * i) w).toNat

/-- The elements of a register. -/
def elems (w : Nat) (v : Vec) : List Nat := (List.range (256 / w)).map (elem w v)

/-- Elements side by side, the first lowest. -/
def packElems (w : Nat) : List Nat → Nat
  | [] => 0
  | x :: r => x % 2 ^ w + 2 ^ w * packElems w r

/-- Replace element i. -/
def setElem (w : Nat) (v : Vec) (i x : Nat) : Vec :=
  (v &&& ~~~(BitVec.ofNat 256 (2 ^ w - 1) <<< (w * i))) ||| (BitVec.ofNat 256 (x % 2 ^ w) <<< (w * i))

/-- The flags of a list of results. -/
def flagsOf (xs : List (Nat × FlagBits)) : FlagBits := xs.foldl (fun f x => f ||| x.2) 0

/-- A register of results, and their flags. -/
def gather (w : Nat) (xs : List (Nat × FlagBits)) : Vec × FlagBits :=
  (BitVec.ofNat 256 (packElems w (xs.map Prod.fst)), flagsOf xs)

/-- An operation on every element, or pair or triple of elements. -/
def each1 (w : Nat) (f : Nat → Nat × FlagBits) (a : Vec) : Vec × FlagBits := gather w ((elems w a).map f)

def each2 (w : Nat) (f : Nat → Nat → Nat × FlagBits) (a b : Vec) : Vec × FlagBits :=
  gather w ((List.range (256 / w)).map fun i => f (elem w a i) (elem w b i))

def each3 (w : Nat) (f : Nat → Nat → Nat → Nat × FlagBits) (a b c : Vec) : Vec × FlagBits :=
  gather w ((List.range (256 / w)).map fun i => f (elem w a i) (elem w b i) (elem w c i))

/-! ### The queue (R157, R158) -/

/-- A command enters the queue: its destinations are emptied and its results wait for its completion. -/
def State.queueVec (s : State) (busy : Nat) (dsts : List (Nat × Vec)) (flags : FlagBits) : State :=
  let t := s.me
  let dsts := dsts.filter fun d => d.1 != 0
  let unit := match s.ctx.unit with
    | some (pc, _) => if t.gang then some (t.occ - 1, pc) else none
    | none => none
  let cmd : VecCmd := { tid := s.ctx.tid, pc := s.ctx.pc, order := s.clock, issued := s.clock, busy := busy,
                        flags := flags, dsts := dsts, unit := unit }
  (s.modCore s.ctx.core fun c => { c with vecQ := c.vecQ ++ [cmd] }).modMe fun t => { t with
    regs := dsts.foldl (fun r d => r.emptyDst d.1) t.regs }

/-- A command with one `v` destination. -/
def State.vecV (s : State) (busy : Nat) (d : BitVec 3) (r : Vec × FlagBits) : State :=
  s.queueVec busy [(32 + d.toNat, r.1)] r.2

/-- A command with a `g` destination. -/
def State.vecG (s : State) (busy : Nat) (d : Reg) (r : Word × FlagBits) : State :=
  s.queueVec busy [((gNum d).toNat, r.1.setWidth 256)] r.2

/-- VECTOR_COMMAND_START (R171): the head of the queue starts when the engine is free. -/
def vecStartStep (core : Nat) (s : State) : State :=
  match (s.core core).vecQ with
  | [] => s
  | x :: rest =>
    if s.clock < x.issued + 1 || s.clock < (s.core core).vecFree then s
    else s.modCore core fun c => { c with
      vecQ := rest, vecFree := s.clock + x.busy, vecRun := c.vecRun ++ [(s.clock + x.busy + 3, x)] }

def execVectorCommandStart (core : Nat) (s : State) : Host.Outcome State Fault Refusal := .next (vecStartStep core s)

/-- The flags of a command reach `FEXC` when it completes (R70, R71); a bundle still waiting for its answer does
not take them back. -/
def State.engineFlags (s : State) (tid : Nat) (fl : FlagBits) (pc : Word) (order : Nat) : State :=
  if fl = 0 then s
  else s.modThread tid fun t =>
    let t := raiseIn t fl pc order
    { t with undo := t.undo.map fun u => { u with flags := u.flags &&& ~~~fl } }

/-- VECTOR_COMPLETE: destinations are filled and flags recorded; a unit's values are posted (R224). -/
def vecCompleteStep (core : Nat) (s : State) : State :=
  match (s.core core).vecRun with
  | [] => s
  | (at_, x) :: rest =>
    if s.clock < at_ then s
    else
      let s := s.modCore core fun c => { c with vecRun := rest }
      match s.thread? x.tid with
      | none => s
      | some t =>
        let s := x.dsts.foldl (fun s d => s.fillFor x.tid d.1 d.2 x.tid x.pc) s
        let s := s.engineFlags x.tid x.flags x.pc x.order
        match x.unit with
        | some (occ, pc) => s.postOnce t occ pc x.dsts
        | none => s

def execVectorComplete (core : Nat) (s : State) : Host.Outcome State Fault Refusal := .next (vecCompleteStep core s)

/-! ### Float arithmetic (R162) -/

/-- A compare's element: all ones or zero. -/
def relResult (ty : FloatTy) (r : FRel) (a b : Nat) : Nat × FlagBits :=
  let x := (fmtOf ty).compare r a b
  (if x.1 then 2 ^ ty.bits - 1 else 0, x.2)

/-- `vadd` (R162). -/
def vaddFEffect (ty : FloatTy) (rm : Rm) (d a b : BitVec 3) (s : State) : State :=
  s.vecV 1 d (each2 ty.bits ((fmtOf ty).add rm) (s.srcV a) (s.srcV b))

def execVaddF (ty : FloatTy) (rm : Rm) (d a b : BitVec 3) (s : State) : Host.Outcome State Fault Refusal :=
  issue .lone (.vaddF ty rm d a b) (vaddFEffect ty rm d a b) s

/-- `vsub` (R162). -/
def vsubFEffect (ty : FloatTy) (rm : Rm) (d a b : BitVec 3) (s : State) : State :=
  s.vecV 1 d (each2 ty.bits ((fmtOf ty).sub rm) (s.srcV a) (s.srcV b))

def execVsubF (ty : FloatTy) (rm : Rm) (d a b : BitVec 3) (s : State) : Host.Outcome State Fault Refusal :=
  issue .lone (.vsubF ty rm d a b) (vsubFEffect ty rm d a b) s

/-- `vmul` (R162). -/
def vmulFEffect (ty : FloatTy) (rm : Rm) (d a b : BitVec 3) (s : State) : State :=
  s.vecV 1 d (each2 ty.bits ((fmtOf ty).mul rm) (s.srcV a) (s.srcV b))

def execVmulF (ty : FloatTy) (rm : Rm) (d a b : BitVec 3) (s : State) : Host.Outcome State Fault Refusal :=
  issue .lone (.vmulF ty rm d a b) (vmulFEffect ty rm d a b) s

/-- `vdiv` (R162). -/
def vdivEffect (ty : FloatTy) (rm : Rm) (d a b : BitVec 3) (s : State) : State :=
  s.vecV 8 d (each2 ty.bits ((fmtOf ty).div rm) (s.srcV a) (s.srcV b))

def execVdiv (ty : FloatTy) (rm : Rm) (d a b : BitVec 3) (s : State) : Host.Outcome State Fault Refusal :=
  issue .lone (.vdiv ty rm d a b) (vdivEffect ty rm d a b) s

/-- `vfma` (R162): one rounding. -/
def vfmaEffect (ty : FloatTy) (rm : Rm) (d a b c : BitVec 3) (s : State) : State :=
  s.vecV 1 d (each3 ty.bits ((fmtOf ty).fma rm) (s.srcV a) (s.srcV b) (s.srcV c))

def execVfma (ty : FloatTy) (rm : Rm) (d a b c : BitVec 3) (s : State) : Host.Outcome State Fault Refusal :=
  issue .lone (.vfma ty rm d a b c) (vfmaEffect ty rm d a b c) s

/-- `vmin` of floats (R162). -/
def vminFEffect (ty : FloatTy) (d a b : BitVec 3) (s : State) : State :=
  s.vecV 1 d (each2 ty.bits ((fmtOf ty).minmax false) (s.srcV a) (s.srcV b))

def execVminF (ty : FloatTy) (d a b : BitVec 3) (s : State) : Host.Outcome State Fault Refusal :=
  issue .lone (.vminF ty d a b) (vminFEffect ty d a b) s

/-- `vmax` of floats (R162). -/
def vmaxFEffect (ty : FloatTy) (d a b : BitVec 3) (s : State) : State :=
  s.vecV 1 d (each2 ty.bits ((fmtOf ty).minmax true) (s.srcV a) (s.srcV b))

def execVmaxF (ty : FloatTy) (d a b : BitVec 3) (s : State) : Host.Outcome State Fault Refusal :=
  issue .lone (.vmaxF ty d a b) (vmaxFEffect ty d a b) s

/-- `vsqrt` (R162). -/
def vsqrtEffect (ty : FloatTy) (rm : Rm) (d a : BitVec 3) (s : State) : State :=
  s.vecV 8 d (each1 ty.bits ((fmtOf ty).sqrt rm) (s.srcV a))

def execVsqrt (ty : FloatTy) (rm : Rm) (d a : BitVec 3) (s : State) : Host.Outcome State Fault Refusal :=
  issue .lone (.vsqrt ty rm d a) (vsqrtEffect ty rm d a) s

/-- `vneg` (R162). -/
def vnegEffect (ty : FloatTy) (d a : BitVec 3) (s : State) : State :=
  s.vecV 1 d (each1 ty.bits ((fmtOf ty).signOp false) (s.srcV a))

def execVneg (ty : FloatTy) (d a : BitVec 3) (s : State) : Host.Outcome State Fault Refusal :=
  issue .lone (.vneg ty d a) (vnegEffect ty d a) s

/-- `vabs` (R162). -/
def vabsEffect (ty : FloatTy) (d a : BitVec 3) (s : State) : State :=
  s.vecV 1 d (each1 ty.bits ((fmtOf ty).signOp true) (s.srcV a))

def execVabs (ty : FloatTy) (d a : BitVec 3) (s : State) : Host.Outcome State Fault Refusal :=
  issue .lone (.vabs ty d a) (vabsEffect ty d a) s

/-- `vcmp.eq` (R162). -/
def vcmpEqEffect (ty : FloatTy) (d a b : BitVec 3) (s : State) : State :=
  s.vecV 1 d (each2 ty.bits (relResult ty .eq) (s.srcV a) (s.srcV b))

def execVcmpEq (ty : FloatTy) (d a b : BitVec 3) (s : State) : Host.Outcome State Fault Refusal :=
  issue .lone (.vcmpEq ty d a b) (vcmpEqEffect ty d a b) s

/-- `vcmp.lt` (R162). -/
def vcmpLtEffect (ty : FloatTy) (d a b : BitVec 3) (s : State) : State :=
  s.vecV 1 d (each2 ty.bits (relResult ty .lt) (s.srcV a) (s.srcV b))

def execVcmpLt (ty : FloatTy) (d a b : BitVec 3) (s : State) : Host.Outcome State Fault Refusal :=
  issue .lone (.vcmpLt ty d a b) (vcmpLtEffect ty d a b) s

/-- `vcmp.le` (R162). -/
def vcmpLeEffect (ty : FloatTy) (d a b : BitVec 3) (s : State) : State :=
  s.vecV 1 d (each2 ty.bits (relResult ty .le) (s.srcV a) (s.srcV b))

def execVcmpLe (ty : FloatTy) (d a b : BitVec 3) (s : State) : Host.Outcome State Fault Refusal :=
  issue .lone (.vcmpLe ty d a b) (vcmpLeEffect ty d a b) s

/-- `vcmp.un` (R162). -/
def vcmpUnEffect (ty : FloatTy) (d a b : BitVec 3) (s : State) : State :=
  s.vecV 1 d (each2 ty.bits (relResult ty .un) (s.srcV a) (s.srcV b))

def execVcmpUn (ty : FloatTy) (d a b : BitVec 3) (s : State) : Host.Outcome State Fault Refusal :=
  issue .lone (.vcmpUn ty d a b) (vcmpUnEffect ty d a b) s

/-! ### Integer arithmetic (R163) -/

/-- An exact operation on two elements, narrowed to the element's width. -/
def intResult (ty : IntTy) (sat : Bool) (f : Int → Int → Int) (a b : Nat) : Nat × FlagBits :=
  narrow ty.signed sat ty.bits (f (readInt ty.signed ty.bits a) (readInt ty.signed ty.bits b))

/-- A shift of x by the unsigned count y: the value it has for y < w, and the one from w on. -/
def shiftResult (ty : IntTy) (signed : Bool) (f : Int → Nat → Int) (a b : Nat) : Nat × FlagBits :=
  let x := readInt signed ty.bits a
  let y := b % 2 ^ ty.bits
  (wrapInt ty.bits (if y < ty.bits then f x y else if x < 0 then -1 else 0), 0)

/-- The bits of two elements combined. -/
def bitResult (f : Nat → Nat → Nat) (a b : Nat) : Nat × FlagBits := (f a b, 0)

/-- `vadd` of integers (R163). -/
def vaddIEffect (ty : IntTy) (sat : Bool) (d a b : BitVec 3) (s : State) : State :=
  s.vecV 1 d (each2 ty.bits (intResult ty sat (fun x y => x + y)) (s.srcV a) (s.srcV b))

def execVaddI (ty : IntTy) (sat : Bool) (d a b : BitVec 3) (s : State) : Host.Outcome State Fault Refusal :=
  issue .lone (.vaddI ty sat d a b) (vaddIEffect ty sat d a b) s

/-- `vsub` of integers (R163). -/
def vsubIEffect (ty : IntTy) (sat : Bool) (d a b : BitVec 3) (s : State) : State :=
  s.vecV 1 d (each2 ty.bits (intResult ty sat (fun x y => x - y)) (s.srcV a) (s.srcV b))

def execVsubI (ty : IntTy) (sat : Bool) (d a b : BitVec 3) (s : State) : Host.Outcome State Fault Refusal :=
  issue .lone (.vsubI ty sat d a b) (vsubIEffect ty sat d a b) s

/-- `vmul` of integers (R163). -/
def vmulIEffect (ty : IntTy) (sat : Bool) (d a b : BitVec 3) (s : State) : State :=
  s.vecV 1 d (each2 ty.bits (intResult ty sat (fun x y => x * y)) (s.srcV a) (s.srcV b))

def execVmulI (ty : IntTy) (sat : Bool) (d a b : BitVec 3) (s : State) : Host.Outcome State Fault Refusal :=
  issue .lone (.vmulI ty sat d a b) (vmulIEffect ty sat d a b) s

/-- `vmin` of integers (R163). -/
def vminIEffect (ty : IntTy) (d a b : BitVec 3) (s : State) : State :=
  s.vecV 1 d (each2 ty.bits (intResult ty false (fun x y => min x y)) (s.srcV a) (s.srcV b))

def execVminI (ty : IntTy) (d a b : BitVec 3) (s : State) : Host.Outcome State Fault Refusal :=
  issue .lone (.vminI ty d a b) (vminIEffect ty d a b) s

/-- `vmax` of integers (R163). -/
def vmaxIEffect (ty : IntTy) (d a b : BitVec 3) (s : State) : State :=
  s.vecV 1 d (each2 ty.bits (intResult ty false (fun x y => max x y)) (s.srcV a) (s.srcV b))

def execVmaxI (ty : IntTy) (d a b : BitVec 3) (s : State) : Host.Outcome State Fault Refusal :=
  issue .lone (.vmaxI ty d a b) (vmaxIEffect ty d a b) s

/-- `vand` (R163). -/
def vandEffect (ty : IntTy) (d a b : BitVec 3) (s : State) : State :=
  s.vecV 1 d (each2 ty.bits (bitResult fun x y => x &&& y) (s.srcV a) (s.srcV b))

def execVand (ty : IntTy) (d a b : BitVec 3) (s : State) : Host.Outcome State Fault Refusal :=
  issue .lone (.vand ty d a b) (vandEffect ty d a b) s

/-- `vor` (R163). -/
def vorEffect (ty : IntTy) (d a b : BitVec 3) (s : State) : State :=
  s.vecV 1 d (each2 ty.bits (bitResult fun x y => x ||| y) (s.srcV a) (s.srcV b))

def execVor (ty : IntTy) (d a b : BitVec 3) (s : State) : Host.Outcome State Fault Refusal :=
  issue .lone (.vor ty d a b) (vorEffect ty d a b) s

/-- `vxor` (R163). -/
def vxorEffect (ty : IntTy) (d a b : BitVec 3) (s : State) : State :=
  s.vecV 1 d (each2 ty.bits (bitResult fun x y => x ^^^ y) (s.srcV a) (s.srcV b))

def execVxor (ty : IntTy) (d a b : BitVec 3) (s : State) : Host.Outcome State Fault Refusal :=
  issue .lone (.vxor ty d a b) (vxorEffect ty d a b) s

/-- `vshl` (R163). -/
def vshlEffect (ty : IntTy) (d a b : BitVec 3) (s : State) : State :=
  s.vecV 1 d (each2 ty.bits (shiftResult ty false fun x y => x * 2 ^ y) (s.srcV a) (s.srcV b))

def execVshl (ty : IntTy) (d a b : BitVec 3) (s : State) : Host.Outcome State Fault Refusal :=
  issue .lone (.vshl ty d a b) (vshlEffect ty d a b) s

/-- `vshr` (R163). -/
def vshrEffect (ty : IntTy) (d a b : BitVec 3) (s : State) : State :=
  s.vecV 1 d (each2 ty.bits (shiftResult ty false fun x y => x / 2 ^ y) (s.srcV a) (s.srcV b))

def execVshr (ty : IntTy) (d a b : BitVec 3) (s : State) : Host.Outcome State Fault Refusal :=
  issue .lone (.vshr ty d a b) (vshrEffect ty d a b) s

/-- `vsar` (R163). -/
def vsarEffect (ty : IntTy) (d a b : BitVec 3) (s : State) : State :=
  s.vecV 1 d (each2 ty.bits (shiftResult ty true fun x y => x / 2 ^ y) (s.srcV a) (s.srcV b))

def execVsar (ty : IntTy) (d a b : BitVec 3) (s : State) : Host.Outcome State Fault Refusal :=
  issue .lone (.vsar ty d a b) (vsarEffect ty d a b) s

/-! ### Conversions (R164 to R166) -/

/-- `vcvt`: n elements of the wider width, part p of the narrower register (R164). -/
def vcvtResult (dt st : NumTy) (rm : Rm) (sat : Bool) (old a : Vec) (p : Nat) : Vec × FlagBits :=
  let wd := dt.bits; let ws := st.bits
  let n := 256 / max wd ws
  (List.range n).foldl (fun (acc : Vec × FlagBits) i =>
    let si := if ws < wd then p * n + i else i
    let di := if wd < ws then p * n + i else i
    let r := convert dt st rm sat (elem ws a si)
    (setElem wd acc.1 di r.1, acc.2 ||| r.2)) (old, 0)

def vcvtEffect (dt st : NumTy) (rm : Rm) (sat : Bool) (d a p : BitVec 3) (s : State) : State :=
  s.vecV 1 d (vcvtResult dt st rm sat (s.srcV d) (s.srcV a) p.toNat)

def execVcvt (dt st : NumTy) (rm : Rm) (sat : Bool) (d a p : BitVec 3) (s : State) : Host.Outcome State Fault Refusal :=
  issue .lone (.vcvt dt st rm sat d a p) (vcvtEffect dt st rm sat d a p) s

/-- The decode table of the bank the issuing thread is bound to (R172). -/
def State.table (s : State) : BitVec 8192 :=
  match s.me.bank with
  | some k => (s.myCore.banks.toList.getD k Bank.empty).table
  | none => 0

/-- `vdec` (R165): codes of `va`, scales of `vb`. -/
def vdecResult (dt : FloatTy) (rm : Rm) (tab : BitVec 8192) (a b : Vec) (t p : Nat) : Vec × FlagBits :=
  let n := 256 / dt.bits
  let per := if dt = .f32 then 2 else 4
  gather dt.bits ((List.range n).map fun k =>
    decodeC8 (fmtOf dt) rm tab (elem 8 a (n * p + k)) (elem 8 b (8 * t + per * p + k / 4)))

def vdecEffect (dt : FloatTy) (rm : Rm) (d a b : BitVec 3) (t p : BitVec 2) (s : State) : State :=
  s.vecV 2 d (vdecResult dt rm s.table (s.srcV a) (s.srcV b) t.toNat p.toNat)

def execVdec (dt : FloatTy) (rm : Rm) (d a b : BitVec 3) (t p : BitVec 2) (s : State) : Host.Outcome State Fault Refusal :=
  issue .lone (.vdec dt rm d a b t p) (vdecEffect dt rm d a b t p) s

/-- `venc` (R166): two blocks of four elements; codes go into `vd`, scale bytes into `vb`. -/
def vencResult (auto : Bool) (tab : BitVec 8192) (old a b : Vec) (t p : Nat) : Vec × Vec × FlagBits :=
  (List.range 2).foldl (fun (acc : Vec × Vec × FlagBits) blk =>
    let xs := (List.range 4).map fun k => elem 32 a (4 * blk + k)
    let j := 8 * t + 2 * p + blk
    let sc := if auto then autoScale tab xs else elem 8 acc.2.1 j
    let sc := if xs.any fun x => (fp32.decode x).isNan then 255 else sc
    let codes := xs.map fun x => encodeC8 tab x sc
    let vd := ((List.range 4).zip codes).foldl (fun v c => setElem 8 v (8 * p + 4 * blk + c.1) c.2.1) acc.1
    (vd, setElem 8 acc.2.1 j sc, acc.2.2 ||| flagsOf codes)) (old, b, 0)

def vencEffect (auto : Bool) (d a b : BitVec 3) (t p : BitVec 2) (s : State) : State :=
  let r := vencResult auto s.table (s.srcV d) (s.srcV a) (s.srcV b) t.toNat p.toNat
  s.queueVec 2 [(32 + d.toNat, r.1), (32 + b.toNat, r.2.1)] r.2.2

def execVenc (auto : Bool) (d a b : BitVec 3) (t p : BitVec 2) (s : State) : Host.Outcome State Fault Refusal :=
  issue .lone (.venc auto d a b t p) (vencEffect auto d a b t p) s

/-! ### Block scales (R167) -/

/-- An element under a scale byte: 0xFF and a NaN give the canonical NaN, an infinity stays. -/
def scaled (rm : Rm) (x sc : Nat) : Nat × FlagBits :=
  match fp32.decode x with
  | .nan b => (fp32.qnan, if b then nv else 0)
  | .inf n => if sc = 255 then (fp32.qnan, 0) else (fp32.inf n, 0)
  | .fin n m e => if sc = 255 then (fp32.qnan, 0) else fp32.round rm n m (e + sc - 127)

def vsclEffect (rm : Rm) (d a b : BitVec 3) (t p : BitVec 2) (s : State) : State :=
  s.vecV 2 d (gather 32 ((List.range 8).map fun k =>
    scaled rm (elem 32 (s.srcV a) k) (elem 8 (s.srcV b) (8 * t.toNat + 2 * p.toNat + k / 4))))

def execVscl (rm : Rm) (d a b : BitVec 3) (t p : BitVec 2) (s : State) : Host.Outcome State Fault Refusal :=
  issue .lone (.vscl rm d a b t p) (vsclEffect rm d a b t p) s

/-- `vsauto`: two scale bytes of `vd`. -/
def vsautoResult (tab : BitVec 8192) (old a : Vec) (t p : Nat) : Vec :=
  (List.range 2).foldl (fun v blk =>
    setElem 8 v (8 * t + 2 * p + blk) (autoScale tab ((List.range 4).map fun k => elem 32 a (4 * blk + k)))) old

def vsautoEffect (d a : BitVec 3) (t p : BitVec 2) (s : State) : State :=
  s.vecV 2 d (vsautoResult s.table (s.srcV d) (s.srcV a) t.toNat p.toNat, 0)

def execVsauto (d a : BitVec 3) (t p : BitVec 2) (s : State) : Host.Outcome State Fault Refusal :=
  issue .lone (.vsauto d a t p) (vsautoEffect d a t p) s

/-! ### Reductions (R168) -/

/-- One round of pairing. -/
def pairUp (f : Nat → Nat → Nat × FlagBits) : List Nat → List (Nat × FlagBits)
  | x :: y :: r => f x y :: pairUp f r
  | _ => []

/-- Pairwise reduction of 2^n elements. -/
def reduce (f : Nat → Nat → Nat × FlagBits) : Nat → List Nat → FlagBits → Nat × FlagBits
  | 0, xs, fl => (xs.headD 0, fl)
  | n + 1, xs, fl =>
    let ys := pairUp f xs
    if ys.isEmpty then (xs.headD 0, fl) else reduce f n (ys.map Prod.fst) (fl ||| flagsOf ys)

/-- Extension of an element to a `g` register: the `.i` types by their sign (R168). -/
def extElem (ty : NumTy) (x : Nat) : Word :=
  match ty with
  | .int t => extend t.signed t.bits x
  | .flt t => BitVec.ofNat 64 (x % 2 ^ t.bits)

def vsumResult (ty : NumTy) (rm : Rm) (sat : Bool) (a : Vec) : Nat × FlagBits :=
  match ty with
  | .int t => narrow t.signed sat t.bits ((elems t.bits a).foldl (fun acc x => acc + readInt t.signed t.bits x) 0)
  | .flt t => reduce ((fmtOf t).add rm) 5 (elems t.bits a) 0

/-- `vrmax` and `vrmin`. -/
def vrResult (greater : Bool) (ty : NumTy) (a : Vec) : Nat × FlagBits :=
  match ty with
  | .int t =>
    reduce (intResult t false fun x y => if greater then max x y else min x y) 5 (elems t.bits a) 0
  | .flt t => reduce ((fmtOf t).minmax greater) 5 (elems t.bits a) 0

def vsumEffect (ty : NumTy) (rm : Rm) (sat : Bool) (d : Reg) (a : BitVec 3) (s : State) : State :=
  let r := vsumResult ty rm sat (s.srcV a)
  s.vecG 3 d (extElem ty r.1, r.2)

def execVsum (ty : NumTy) (rm : Rm) (sat : Bool) (d : Reg) (a : BitVec 3) (s : State) : Host.Outcome State Fault Refusal :=
  issue .lone (.vsum ty rm sat d a) (vsumEffect ty rm sat d a) s

def vrmaxEffect (ty : NumTy) (d : Reg) (a : BitVec 3) (s : State) : State :=
  let r := vrResult true ty (s.srcV a)
  s.vecG 3 d (extElem ty r.1, r.2)

def execVrmax (ty : NumTy) (d : Reg) (a : BitVec 3) (s : State) : Host.Outcome State Fault Refusal :=
  issue .lone (.vrmax ty d a) (vrmaxEffect ty d a) s

def vrminEffect (ty : NumTy) (d : Reg) (a : BitVec 3) (s : State) : State :=
  let r := vrResult false ty (s.srcV a)
  s.vecG 3 d (extElem ty r.1, r.2)

def execVrmin (ty : NumTy) (d : Reg) (a : BitVec 3) (s : State) : Host.Outcome State Fault Refusal :=
  issue .lone (.vrmin ty d a) (vrminEffect ty d a) s

/-! ### Permutes (R169) -/

/-- `vperm`. -/
def vpermEffect (d a b : BitVec 3) (s : State) : State :=
  s.vecV 1 d (each1 8 (fun k => (if k < 128 then elem 8 (s.srcV a) (k % 32) else 0, 0)) (s.srcV b))

def execVperm (d a b : BitVec 3) (s : State) : Host.Outcome State Fault Refusal :=
  issue .lone (.vperm d a b) (vpermEffect d a b) s

/-- `vbcast`. -/
def vbcastEffect (ty : NumTy) (d : BitVec 3) (a : Reg) (s : State) : State :=
  s.vecV 1 d (each1 ty.bits (fun _ => ((s.src a).toNat % 2 ^ ty.bits, 0)) 0)

def execVbcast (ty : NumTy) (d : BitVec 3) (a : Reg) (s : State) : Host.Outcome State Fault Refusal :=
  issue .lone (.vbcast ty d a) (vbcastEffect ty d a) s

/-- `vext`. -/
def vextEffect (ty : NumTy) (d : Reg) (a : BitVec 3) (i : BitVec 5) (s : State) : State :=
  s.vecG 1 d (extElem ty (elem ty.bits (s.srcV a) i.toNat), 0)

def execVext (ty : NumTy) (d : Reg) (a : BitVec 3) (i : BitVec 5) (s : State) : Host.Outcome State Fault Refusal :=
  issue .lone (.vext ty d a i) (vextEffect ty d a i) s

/-- `vins`. -/
def vinsEffect (ty : NumTy) (d : BitVec 3) (a : Reg) (i : BitVec 5) (s : State) : State :=
  s.vecV 1 d (setElem ty.bits (s.srcV d) i.toNat (s.src a).toNat, 0)

def execVins (ty : NumTy) (d : BitVec 3) (a : Reg) (i : BitVec 5) (s : State) : Host.Outcome State Fault Refusal :=
  issue .lone (.vins ty d a i) (vinsEffect ty d a i) s

/-- `vsel`. -/
def vselEffect (d a b c : BitVec 3) (s : State) : State :=
  s.vecV 1 d ((s.srcV a &&& s.srcV c) ||| (s.srcV b &&& ~~~(s.srcV c)), 0)

def execVsel (d a b c : BitVec 3) (s : State) : Host.Outcome State Fault Refusal :=
  issue .lone (.vsel d a b c) (vselEffect d a b c) s

/-- `vmov`. -/
def vmovEffect (d a : BitVec 3) (s : State) : State :=
  s.vecV 1 d (s.srcV a, 0)

def execVmov (d a : BitVec 3) (s : State) : Host.Outcome State Fault Refusal :=
  issue .lone (.vmov d a) (vmovEffect d a) s

/-! ### Approximations (R170) -/

/-- `vrcp`. -/
def vrcpEffect (d a : BitVec 3) (s : State) : State :=
  s.vecV 2 d (each1 32 rcpF32 (s.srcV a))

def execVrcp (d a : BitVec 3) (s : State) : Host.Outcome State Fault Refusal :=
  issue .lone (.vrcp d a) (vrcpEffect d a) s

/-- `vrsqrt`. -/
def vrsqrtEffect (d a : BitVec 3) (s : State) : State :=
  s.vecV 2 d (each1 32 rsqrtF32 (s.srcV a))

def execVrsqrt (d a : BitVec 3) (s : State) : Host.Outcome State Fault Refusal :=
  issue .lone (.vrsqrt d a) (vrsqrtEffect d a) s

/-- `vexp2`. -/
def vexp2Effect (d a : BitVec 3) (s : State) : State :=
  s.vecV 2 d (each1 32 exp2F32 (s.srcV a))

def execVexp2 (d a : BitVec 3) (s : State) : Host.Outcome State Fault Refusal :=
  issue .lone (.vexp2 d a) (vexp2Effect d a) s

end Sys2Proof.Machine
end

