-- ==== Sys2Proof/Machine/Wake.lean ====
section
/-!
DEFINITION. When a thread may issue again: the conditions it parks on (R38), and eligibility (R37).
-/

namespace Sys2Proof.Machine

/-- `mrot` commands a core may still accept (R284). -/
def Core.mrotOk (c : Core) : Bool :=
  match c.mrotMax with
  | some m => decide (c.mrotCount < m)
  | none => true

/-- A bank that a thread may bind to now: its table held or being loaded, or a bank to load (R172). -/
def State.bankFreeFor (s : State) (c : Nat) (asid : BitVec 12) (fmtp : Word) : Bool :=
  ((s.core c).findBank fun k b => b.tag == some (asid, fmtp) || b.loadingFor asid fmtp
    || (!s.bankBound c k && b.loading.isNone)).isSome

/-- The condition a thread parks on holds. -/
def State.holds (s : State) (tid : Nat) (t : Thread) (c : Cond) : Bool :=
  let (core, slot) := t.slotNow
  let x := s.core core
  let q := squareOf core
  let asid := (s.launchOf t).asid
  match c with
  | .gFull n => t.regs.fullG n
  | .vFull n => t.regs.fullV n
  | .portWord k => s.portWord core (BitVec.ofNat 3 k)
  | .portRoom k => s.portRoom core (BitVec.ofNat 3 k)
  | .acked id => !((tget s.sq id).map SqEntry.inFlight).getD false
  | .released => s.drained core slot
  | .releasedHome h => s.drainedHome core slot h
  | .enginesDone => !s.myCommands core tid && !s.myCopies core tid
  | .commandsDone => !s.myCommands core tid
  | .vecRoom => decide (x.vecQ.length < 2)
  | .copyRoom => decide (x.copyQ.length < 2)
  | .tagsAll m => x.tags &&& m == m
  | .tagsAny m => x.tags &&& m != 0
  | .walk a | .fetchWalk a => !(s.square q).walks.contains (asid, a / 65536)
  | .line a => (s.square q).lines.any fun y => y.asid == asid && y.addr / 64 == a / 64
  | .bankLoad b => (x.banks.toList.getD b Bank.empty).loading.isNone
  | .bankFree => s.bankFreeFor core asid t.fmtp
  | .onceRoom =>
    let ms := s.gangOf t.launch q t.homeSlot
    let rs := s.onceRecs q t.homeSlot
    rs.any (fun r => r.occ == t.occ) || (rs.filter fun r => r.isOpen ms).length < 16
  | .hamperRoom k => decide ((s.hampers.toList.getD k Hamper.idle).waiting < 256)
  | .injectOpen => !s.hold.contains (dieOf core)
  | .mrotOpen => x.mrotOk
  | .spillReady n => s.spillable core n
  | .porterFree c => (s.slot c 15).isFree
  | .bankOpen k => s.bankOpen k
  | .wayFree h => !s.wayBusy (s.launchOf t) core h

/-- Nothing parks the thread, or what it parks on has come. -/
def State.awake (s : State) (tid : Nat) (t : Thread) : Bool :=
  match t.wait with
  | none => true
  | some (.cond c) => s.holds tid t c
  | some _ => false

/-- A no-room reply has come back to the slot, whose thread is to be evicted (R280). -/
def State.refusedAt (s : State) (core slot : Nat) : Bool :=
  s.net.any fun p => match p.2 with
    | .refusedAccess a => a.core == core && a.slot == slot
    | .refusedAmo a => a.core == core && a.slot == slot
    | .refusedFrame r => r.core == core && r.slot == slot
    | _ => false

/-- Slot n of a core is eligible (R37): its thread stands in it, is not parked, trapped or being evicted, has
nothing due, and the slot has not issued in the last 7 cycles. -/
def State.eligible (s : State) (core n : Nat) : Bool :=
  let x := s.slot core n
  match x.tid with
  | none => false
  | some tid =>
    match s.thread? tid with
    | none => false
    | some t =>
      t.place == .slot core n && (x.issued = 0 || x.issued + 7 ≤ s.clock) && t.due.isEmpty && t.trapped.isNone
        && !t.qhit && (match (s.core t.homeCore).spill with | some j => j.tid != tid | none => true)
        && !s.refusedAt core n && s.awake tid t

/-- The slot that issues in a core's turn: the first eligible one after the last that issued. -/
def State.turnSlot (s : State) (core : Nat) : Option Nat :=
  ((List.range 16).map fun i => ((s.core core).last + 1 + i) % 16).find? fun n => s.eligible core n

end Sys2Proof.Machine
end

