-- ==== Sys2Proof/Machine/Matrix.lean ====
section
/-!
DEFINITION. The matrix engine (R80 to R82, R175 to R183): accumulators, slices, the product step, `mma`, `mrot`
with its exchange, `mzero`, `mmov`, `mtab`; and the load of a decode bank (R172).
-/

namespace Sys2Proof.Machine

/-! ### Accumulators -/

/-- Element (i, j) as number 8i + j (R177). -/
def accElem (a : BitVec 2048) (n : Nat) : Nat := (a.extractLsb' (32 * n) 32).toNat

/-- An accumulator from its 64 elements. -/
def accOf (xs : List Nat) : BitVec 2048 := BitVec.ofNat 2048 (packElems 32 xs)

def Core.acc (c : Core) (d : Nat) : BitVec 2048 := c.accs.toList.getD d 0

/-- Write an accumulator whole; it carries fresh ECC (R329). -/
def Core.setAcc (c : Core) (d : Nat) (v : BitVec 2048) : Core :=
  if h : d < 8 then { c with accs := c.accs.set d v, badAccs := c.badAccs.filter fun n => n != d } else c

/-! ### The product step (R80, R81) -/

/-- `TruncZ(t, 2^q)` in units of 2^q. -/
def truncZ (neg : Bool) (m : Nat) (e q : Int) : Int :=
  let k : Nat := if q ≤ e then m * 2 ^ (e - q).toNat else m / 2 ^ (q - e).toNat
  if neg then -(k : Int) else k

/-- The place of the leading bit of the largest non-zero term. -/
def topBit (ts : List FVal) : Option Int :=
  ts.foldl (fun acc t =>
    match t with
    | .fin _ m e =>
      if m = 0 then acc
      else
        let x : Int := (Nat.log2 m : Int) + e
        match acc with
        | none => some x
        | some y => some (max x y)
    | _ => acc) none

/-- `GroupSum` (R81) of an FP32 element and the pairs of a group. -/
def groupSum (acc : Nat) (ps : List (FVal × FVal)) : Nat × FlagBits :=
  let a := fp32.decode acc
  let prods := ps.map fun p => mulVal p.1 p.2
  let ts := a :: prods.map fun p => p.getD (.nan false)
  let isP (t : FVal) : Bool := match t with | .inf s => !s | _ => false
  let isN (t : FVal) : Bool := match t with | .inf s => s | _ => false
  let both := ts.any isP && ts.any isN
  let zeroInf := prods.any Option.isNone
  let snan := a.isSnan || ps.any fun p => p.1.isSnan || p.2.isSnan
  if ts.any FVal.isNan || both then (fp32.qnan, if snan || zeroInf || both then nv else 0)
  else if ts.any isP then (fp32.inf false, 0)
  else if ts.any isN then (fp32.inf true, 0)
  else
    match topBit ts with
    | none => (fp32.zero (ts.all FVal.neg), 0)
    | some top =>
      let q := top - 27
      let s := ts.foldl (fun (x : Int) t => match t with | .fin n m e => x + truncZ n m e q | _ => x) 0
      if s = 0 then (fp32.zero false, 0)
      else
        let r := fp32.round .rn (s < 0) s.natAbs q
        (r.1, r.2 &&& off)

/-- Inner extent of a step (R175). -/
def matK : MatFmt → Nat
  | .f16 | .bf16 => 8
  | _ => 16

/-- Bytes of a slice (R175). -/
def matSize : MatFmt → Nat
  | .c8 => 160
  | _ => 128

/-- Byte n of a slice. -/
def sliceByte (x : BitVec 1280) (n : Nat) : Nat := (x.extractLsb' (8 * n) 8).toNat

/-- Element (row, k) of an A slice, or (k, column) of a B slice, as a value; the flags a C8 decode records. -/
def sliceVal (f : MatFmt) (t : BitVec 8192) (x : BitVec 1280) (r k : Nat) : FVal × FlagBits :=
  match f with
  | .f16 => (fp16.decode ((x.extractLsb' (8 * (16 * r + 2 * k)) 16).toNat), 0)
  | .bf16 => (bf16.decode ((x.extractLsb' (8 * (16 * r + 2 * k)) 16).toNat), 0)
  | .c8 =>
    let y := decodeC8 fp32 .rn t (sliceByte x (16 * r + k)) (sliceByte x (128 + 4 * r + k / 4))
    (fp32.decode y.1, y.2 &&& off)
  | _ => (.fin false 0 0, 0)

/-- The same element as an integer. -/
def sliceInt (f : MatFmt) (x : BitVec 1280) (r k : Nat) : Int := readInt (f == .i8) 8 (sliceByte x (16 * r + k))

/-- A row of the A slice, or a column of the B slice. -/
def sliceRow (f : MatFmt) (t : BitVec 8192) (x : BitVec 1280) (r : Nat) : List (FVal × FlagBits) :=
  (List.range (matK f)).map fun k => sliceVal f t x r k

def sliceInts (f : MatFmt) (x : BitVec 1280) (r : Nat) : List Int := (List.range (matK f)).map fun k => sliceInt f x r k

/-- One step on the 64 elements: the sum of a group for each (R177). -/
def productStep (f : MatFmt) (sat : Bool) (t : BitVec 8192) (acc : BitVec 2048) (a b : BitVec 1280) :
    BitVec 2048 × FlagBits :=
  let ns := List.range 64
  match f with
  | .i8 | .n8 =>
    let as_ := (List.range 8).map fun i => sliceInts f a i
    let bs := (List.range 8).map fun j => sliceInts f b j
    let rs := ns.map fun n =>
      let ps := ((as_.getD (n / 8) []).zip (bs.getD (n % 8) [])).map fun p => p.1 * p.2
      narrow true sat 32 (ps.foldl (fun x y => x + y) (readInt true 32 (accElem acc n)))
    (accOf (rs.map Prod.fst), flagsOf rs)
  | _ =>
    let as_ := (List.range 8).map fun i => sliceRow f t a i
    let bs := (List.range 8).map fun j => sliceRow f t b j
    let rs := ns.map fun n =>
      groupSum (accElem acc n) (((as_.getD (n / 8) []).zip (bs.getD (n % 8) [])).map fun p => (p.1.1, p.2.1))
    (accOf (rs.map Prod.fst), flagsOf rs ||| ((as_ ++ bs).foldl (fun x r => r.foldl (fun x y => x ||| y.2) x) 0))

/-! ### Operands in local memory (R175) -/

/-- An atom of a matrix operand is out of range: not in the launch's window of the issuing core's own memory. -/
def matOor (l : Launch) (core : Nat) (a : Word) : Bool :=
  !isLocal a || outOfRange l a 32 || namedCore l core a != core

/-- The atoms of n bytes of an operand. -/
def matAtoms (a : Word) (n : Nat) : List Word := (List.range (n / 32)).map fun k => a + BitVec.ofNat 64 (32 * k)

/-- The first atom that cannot be read (R329). -/
def State.matBad (s : State) (l : Launch) (core : Nat) (as_ : List Word) : Option Word :=
  as_.find? fun a => !matOor l core a && s.isBad (localKeyOf l core a) 32

/-- The bytes of a run of atoms, low bytes first; zeros out of range (R52). -/
def State.matRead (s : State) (l : Launch) (core : Nat) (as_ : List Word) : Nat :=
  as_.foldr (fun a acc => (if matOor l core a then 0 else s.load (localKeyOf l core a) 32) + 2 ^ 256 * acc) 0

/-- What a read of atoms leaves: the first out-of-range one noted at the thread (R52), errors corrected (R329). -/
def State.matTouch (s : State) (l : Launch) (core tid : Nat) (as_ : List Word) : State :=
  as_.foldl (fun s a =>
    if matOor l core a then s.modThread tid fun t => t.note a
    else s.corrected (localKeyOf l core a) 32 l.asid) s

/-- Slice number k at an address (R175). -/
def State.slice (s : State) (l : Launch) (core : Nat) (f : MatFmt) (a : Word) (k : Nat) : BitVec 1280 :=
  BitVec.ofNat 1280 (s.matRead l core (matAtoms (a + BitVec.ofNat 64 (matSize f * k)) (matSize f)))

/-- Write bytes atom by atom, full/empty bits unchanged; an atom out of range is noted and dropped. -/
def State.matWrite (s : State) (l : Launch) (core tid : Nat) (a : Word) (atoms : List Nat) : State :=
  ((List.range atoms.length).zip atoms).foldl (fun (s : State) (p : Nat × Nat) =>
    let x := a + BitVec.ofNat 64 (32 * p.1)
    if matOor l core x then s.modThread tid fun t => t.note x
    else
      let key := localKeyOf l core x
      (s.healed key 32).store key 32 p.2) s

/-! ### Acceptance (R181) -/

/-- A command enters the engine's queue and its thread is held (R156). -/
def State.queueMat (s : State) (op : MatOp) : State :=
  let c := s.myCore
  let cmd : MatCmd := { num := c.matNum, tid := s.ctx.tid, pc := s.ctx.pc, order := s.clock, op := op,
                        bank := s.me.bank.getD 0, start := none, last := none, phase := .queued, flags := 0 }
  let s := s.modCore s.ctx.core fun c => ({ c with
    matQ := c.matQ ++ [cmd], matNum := c.matNum + 1,
    mrotCount := c.mrotCount + if op.isRot then 1 else 0 } : Core).reschedule
  let id := s.nextId
  { s with nextId := id + 1 }.modMe fun t => { t with
    wait := some (.matrix cmd.num), outst := some (id, []),
    regs := match op with | .toV d _ _ _ _ => t.regs.emptyV d | _ => t.regs }

/-- `mma` (R177). -/
def execMma (d : BitVec 3) (a b : Reg) (fmt : MatFmt) (sat : Bool) (n : BitVec 6) (s : State) :
    Host.Outcome State Fault Refusal :=
  issue .lone (.mma d a b fmt sat n)
    (fun s => s.queueMat (.mma d.toNat (s.src a) (s.src b) fmt sat (n.toNat + 1))) s

/-- `mrot` of the current latches (R178). -/
def execMrot (d : BitVec 3) (fmt : MatFmt) (sat : Bool) (s : State) : Host.Outcome State Fault Refusal :=
  issue .lone (.mrot d fmt sat) (fun s => s.queueMat (.rot d.toNat none fmt sat)) s

/-- `mrot` of slices in memory (R178). -/
def execMrotMem (d : BitVec 3) (a b : Reg) (fmt : MatFmt) (sat : Bool) (s : State) :
    Host.Outcome State Fault Refusal :=
  issue .lone (.mrotMem d a b fmt sat)
    (fun s => s.queueMat (.rot d.toNat (some (s.src a, s.src b)) fmt sat)) s

/-- `mzero` (R179). -/
def execMzero (d : BitVec 3) (s : State) : Host.Outcome State Fault Refusal :=
  issue .lone (.mzero d) (fun s => s.queueMat (.zero d.toNat)) s

/-- `mmov.f32 vd, aS, row` (R180). -/
def execMmovF32ToV (d acc row : BitVec 3) (s : State) : Host.Outcome State Fault Refusal :=
  issue .lone (.mmovF32ToV d acc row) (fun s => s.queueMat (.toV d.toNat acc.toNat row.toNat .f32 .rn)) s

/-- `mmov.bf16.rm vd, aS, row` (R180). -/
def execMmovBf16ToV (d acc row : BitVec 3) (rm : Rm) (s : State) : Host.Outcome State Fault Refusal :=
  issue .lone (.mmovBf16ToV d acc row rm) (fun s => s.queueMat (.toV d.toNat acc.toNat row.toNat .bf16 rm)) s

/-- `mmov.f16.rm vd, aS, row` (R180). -/
def execMmovF16ToV (d acc row : BitVec 3) (rm : Rm) (s : State) : Host.Outcome State Fault Refusal :=
  issue .lone (.mmovF16ToV d acc row rm) (fun s => s.queueMat (.toV d.toNat acc.toNat row.toNat .f16 rm)) s

/-- `mmov.f32 [ga], aS` (R180). -/
def execMmovF32Store (a : Reg) (acc : BitVec 3) (s : State) : Host.Outcome State Fault Refusal :=
  issue .lone (.mmovF32Store a acc) (fun s => s.queueMat (.store (s.src a) acc.toNat .f32 .rn)) s

/-- `mmov.bf16.rm [ga], aS` (R180). -/
def execMmovBf16Store (a : Reg) (acc : BitVec 3) (rm : Rm) (s : State) : Host.Outcome State Fault Refusal :=
  issue .lone (.mmovBf16Store a acc rm) (fun s => s.queueMat (.store (s.src a) acc.toNat .bf16 rm)) s

/-- `mmov.f16.rm [ga], aS` (R180). -/
def execMmovF16Store (a : Reg) (acc : BitVec 3) (rm : Rm) (s : State) : Host.Outcome State Fault Refusal :=
  issue .lone (.mmovF16Store a acc rm) (fun s => s.queueMat (.store (s.src a) acc.toNat .f16 rm)) s

/-- `mmov.f32 aD, [ga]` (R180). -/
def execMmovF32Load (d : BitVec 3) (a : Reg) (s : State) : Host.Outcome State Fault Refusal :=
  issue .lone (.mmovF32Load d a) (fun s => s.queueMat (.load d.toNat (s.src a))) s

/-- The bank a thread is bound to. -/
def State.myBank (s : State) : Bank := s.myCore.banks.toList.getD (s.me.bank.getD 0) Bank.empty

/-- `mtab` (R174): the predicate gets the bank's encodable flag. -/
def execMtab (p : BitVec 3) (s : State) : Host.Outcome State Fault Refusal :=
  issue .lone (.mtab p) (fun s => s.setPred p s.myBank.encodable) s

/-! ### Completion (R182) -/

/-- An element as `mmov` delivers it: raw for F32, else rounded (R180). -/
def mmovElem (ty : FloatTy) (rm : Rm) (x : Nat) : Nat × FlagBits :=
  match ty with
  | .f32 => (x, 0)
  | _ => cvtFF (fmtOf ty) fp32 rm x

/-- The elements of an accumulator from number n on, as a type. -/
def mmovElems (ty : FloatTy) (rm : Rm) (acc : BitVec 2048) (n count : Nat) : List (Nat × FlagBits) :=
  (List.range count).map fun k => mmovElem ty rm (accElem acc (n + k))

/-- The 32-byte groups of an accumulator as `mmov` stores it. -/
def mmovAtoms (ty : FloatTy) (rm : Rm) (acc : BitVec 2048) : List Nat :=
  let per := 256 / ty.bits
  (List.range (64 / per)).map fun k => packElems ty.bits ((mmovElems ty rm acc (per * k) per).map Prod.fst)

/-- The memory atoms a command reads, in order. -/
def MatOp.reads : MatOp → List Word
  | .mma _ a b f _ n => (List.range n).flatMap fun k =>
      matAtoms (a + BitVec.ofNat 64 (matSize f * k)) (matSize f) ++ matAtoms (b + BitVec.ofNat 64 (matSize f * k)) (matSize f)
  | .rot _ (some (a, b)) f _ => matAtoms a (matSize f) ++ matAtoms b (matSize f)
  | .load _ a => matAtoms a 256
  | _ => []

/-- The steps of an `mma` from step k on (R177). -/
def State.mmaSteps (s : State) (l : Launch) (core : Nat) (f : MatFmt) (sat : Bool) (t : BitVec 8192) (a b : Word) :
    Nat → Nat → BitVec 2048 × FlagBits → BitVec 2048 × FlagBits
  | 0, _, x => x
  | n + 1, k, x =>
    let r := productStep f sat t x.1 (s.slice l core f a k) (s.slice l core f b k)
    s.mmaSteps l core f sat t a b n (k + 1) (r.1, x.2 ||| r.2)

/-- The table of a command's bank. -/
def Core.tableOf (c : Core) (bank : Nat) : BitVec 8192 := (c.banks.toList.getD bank Bank.empty).table

/-- The effect of a command other than `mrot` on accumulators, latches and memory; its flags and its `v` value. -/
def State.matEffect (s : State) (l : Launch) (core : Nat) (x : MatCmd) : State × FlagBits × Option (Nat × Vec) :=
  let c := s.core core
  let touched := s.matTouch l core x.tid x.op.reads
  match x.op with
  | .mma d a b f sat n =>
    let r := s.mmaSteps l core f sat (c.tableOf x.bank) a b n 0 (c.acc d, 0)
    (touched.modCore core fun c => { c.setAcc d r.1 with
      curA := s.slice l core f a (n - 1), curB := s.slice l core f b (n - 1) }, r.2, none)
  | .zero d => (touched.modCore core fun c => c.setAcc d 0, 0, none)
  | .toV d a row ty rm =>
    let r := mmovElems ty rm (c.acc a) (8 * row) (256 / ty.bits)
    (touched, flagsOf r, some (d, BitVec.ofNat 256 (packElems ty.bits (r.map Prod.fst))))
  | .store a d ty rm =>
    (touched.matWrite l core x.tid a (mmovAtoms ty rm (c.acc d)), flagsOf (mmovElems ty rm (c.acc d) 0 64), none)
  | .load d a => (touched.modCore core fun c => c.setAcc d (BitVec.ofNat 2048 (s.matRead l core (matAtoms a 256))), 0, none)
  | .rot _ _ _ _ => (touched, 0, none)

/-- A command leaves the queue, and its thread goes on (R182). -/
def State.matLeave (s : State) (core : Nat) (x : MatCmd) (flags : FlagBits) (v : Option (Nat × Vec)) : State :=
  let s := s.modCore core fun c => c.removeMat x.num (x.last.getD s.clock + 1)
  match s.thread? x.tid with
  | none => s
  | some t =>
    if t.wait != some (.matrix x.num) then s
    else
      let s := match v with
        | some (d, y) => s.fillFor x.tid (32 + d) y x.tid x.pc
        | none => s
      let s := (s.modThread x.tid fun t => t.receive [] []).engineFlags x.tid flags x.pc x.order
      match v with
      | some (d, y) => s.postReplyOnce t [(32 + d, y)]
      | none => s

/-- A command that met an uncorrectable word has no effect: its thread takes the fault (R329). -/
def State.matFault (s : State) (core : Nat) (x : MatCmd) (a : Word) : State :=
  let s := s.modCore core fun c => c.removeMat x.num (s.clock + 1)
  match s.thread? x.tid with
  | none => s
  | some t => s.raise x.tid { cause := 0x19, qual := 1, half := .lone, pc := x.pc, detail := a, bundle := t.bundle }

/-- The launch of a command's thread. -/
def State.launchFor (s : State) (tid : Nat) : Launch :=
  match s.thread? tid with
  | some t => s.launchOf t
  | none => Launch.blank

/-- Change a command of a queue. -/
def Core.modMat (c : Core) (num : Nat) (f : MatCmd → MatCmd) : Core :=
  ({ c with matQ := c.matQ.map fun m => if m.num = num then f m else m } : Core).reschedule

/-- The product step of an `mrot`; its exchange begins (R178). -/
def State.rotStep (s : State) (core : Nat) (x : MatCmd) (d : Nat) (src : Option (Word × Word)) (f : MatFmt)
    (sat : Bool) : State :=
  let l := s.launchFor x.tid
  match s.matBad l core x.op.reads with
  | some a => s.matFault core x a
  | none =>
    let c := s.core core
    let a := match src with | some p => s.slice l core f p.1 0 | none => c.curA
    let b := match src with | some p => s.slice l core f p.2 0 | none => c.curB
    let r := productStep f sat (c.tableOf x.bank) (c.acc d) a b
    (s.matTouch l core x.tid x.op.reads).modCore core fun c =>
      ({ c.setAcc d r.1 with curA := a, curB := b } : Core).modMat x.num fun m =>
        { m with phase := .exchange true true, flags := r.2 }

/-- The exchange ends when both slices have gone and both have come (R178). -/
def State.rotEnd (s : State) (core : Nat) (x : MatCmd) : State :=
  let c := s.core core
  match c.incA, c.incB with
  | some a, some b =>
    s.modCore core fun c => ({ c with curA := a, curB := b, incA := none, incB := none } : Core).modMat x.num fun m =>
      { m with phase := .ending, last := some s.clock }
  | _, _ => s

/-- MATRIX_COMPLETE: the next step of the command at the head: an `mrot`'s product step, the end of its exchange,
or the completion of a command. -/
def matrixStep (core : Nat) (s : State) : State :=
  match (s.core core).matQ with
  | [] => s
  | x :: _ =>
    match x.phase, x.op, x.start, x.last with
    | .queued, .rot d src f sat, some st, _ => if s.clock < st + 1 then s else s.rotStep core x d src f sat
    | .queued, _, _, some last =>
      if s.clock < last + 4 then s
      else
        let l := s.launchFor x.tid
        match s.matBad l core x.op.reads with
        | some a => s.matFault core x a
        | none =>
          let r := s.matEffect l core x
          r.1.matLeave core x r.2.1 r.2.2
    | .exchange false false, _, _, _ => s.rotEnd core x
    | .ending, _, _, some last => if s.clock < last + 4 then s else s.matLeave core x x.flags none
    | _, _, _, _ => s

def execMatrixComplete (core : Nat) (s : State) : Host.Outcome State Fault Refusal := .next (matrixStep core s)

/-! ### The exchange (R178) -/

/-- The `mrot` of a core that still has its A slice (false) or B slice (true) to send, five cycles after its
product step. -/
def State.sending (s : State) (core : Nat) (isB : Bool) : Option MatCmd :=
  match (s.core core).matQ with
  | x :: _ =>
    match x.phase with
    | .exchange a b =>
      if (if isB then b else a) && x.start.getD s.clock + 6 ≤ s.clock then some x else none
    | _ => none
  | [] => none

/-- The core whose slice comes next to a core: A slices travel W and B slices N, each to the sender's own target (R178). -/
def State.sliceFrom (s : State) (core : Nat) (isB : Bool) : Option (Nat × MatCmd) :=
  let dir := if isB then 0 else 3
  (s.sendersTo core dir).findSome? fun c => if s.laneFailed c dir then none else (s.sending c isB).map fun x => (c, x)

/-- MROT_SLICE_ARRIVE: a slice from the E neighbour (A) or the S neighbour (B) fills an empty incoming latch. -/
def sliceStep (core : Nat) (isB : Bool) (s : State) : State :=
  let c := s.core core
  if (if isB then c.incB else c.incA).isSome then s
  else
    match s.sliceFrom core isB with
    | none => s
    | some (src, x) =>
      let y := s.core src
      let s := s.modCore core fun c => if isB then { c with incB := some y.curB } else { c with incA := some y.curA }
      s.modCore src fun c => c.modMat x.num fun m => { m with
        phase := match m.phase with
          | .exchange a b => if isB then .exchange a false else .exchange false b
          | p => p }

def execMrotSliceArrive (core : Nat) (isB : Bool) (s : State) : Host.Outcome State Fault Refusal :=
  .next (sliceStep core isB s)

/-! ### Decode-bank loads (R172) -/

/-- What an engine's access to an address of a core finds. -/
inductive Reached where
  | key (k : Nat)
  /-- out of range (R52) -/
  | out
  | fault (f : XFault)
  /-- it waits for a walk (R310) -/
  | walk (page : Nat)
  /-- it waits for the porter of another core (R57), for a bank of HBM (R333), or for its way (R233, R293) -/
  | busy
  deriving DecidableEq, Repr

/-- An access of n bytes by an engine of a core, whose last wait for a walk is given. -/
def State.engineReach (s : State) (l : Launch) (core : Nat) (a : Word) (n : Nat) (p : Perm) (w : Option EngineWalk) : Reached :=
  let routed (key : Nat) : Reached :=
    match s.engineRoute l core (homeOf key) a with
    | some f => .fault f
    | none =>
      let porter := localBase ≤ key && homeOf key != core && !(s.slot (homeOf key) 15).isFree
      if porter || !s.bankOpen key || s.engineHeld l core (homeOf key) then .busy else .key key
  if isLocal a then if outOfRange l a n then .out else routed (localKeyOf l core a)
  else
    match lookIn (s.square (squareOf core)).trans l.asid a p with
    | .hit k => routed k
    | .fault f => .fault f
    | .miss =>
      match w with
      | some { page := page, fault := some (cause, qual) } =>
        if page = a.toNat / 65536 then .fault { cause := cause, qual := qual, detail := a } else .walk (a.toNat / 65536)
      | _ => .walk (a.toNat / 65536)

/-- The read of a table: its bytes, a fault, or a wait, for a walk or for anything else. -/
inductive TableRead where
  | done (v : Nat)
  | fail (f : XFault)
  | hold (page : Option Nat)
  deriving DecidableEq, Repr

/-- A table with an atom before the atoms read so far. -/
def TableRead.cons (v : Nat) : TableRead → TableRead
  | .done x => .done (v + 2 ^ 256 * x)
  | r => r

/-- The atoms of a table from an address on, n still to come: the bytes and what the reads leave. -/
def State.tableAtoms (s : State) (l : Launch) (core tid : Nat) (w : Option EngineWalk) : Nat → Word → State × TableRead
  | 0, _ => (s, .done 0)
  | n + 1, a =>
    match s.engineReach l core a 32 .rd w with
    | .fault f => (s, .fail f)
    | .walk page => (s, .hold (some page))
    | .busy => (s, .hold none)
    | .out =>
      let r := (s.modThread tid fun t => t.note a).tableAtoms l core tid w n (a + 32)
      (r.1, r.2.cons 0)
    | .key k =>
      if s.isBad k 32 then (s.uncorrected k l.asid, .fail { cause := 0x19, qual := 1, detail := a })
      else
        let r := (s.corrected k 32 l.asid).tableAtoms l core tid w n (a + 32)
        (r.1, r.2.cons (s.load k 32))

/-- Every thread of a core that is bound to a bank calls `Bind` again (R172). -/
def State.unbind (s : State) (core k : Nat) : State :=
  { s with threads := s.threads.map fun (p : Nat × Thread) =>
      if p.2.homeCore = core && p.2.bank = some k then (p.1, { p.2 with bank := none }) else p }

/-- BANK_LOAD: the load of a bank ends, with its table or with a fault at the bundle that caused it, and no thread stays bound
to the bank. A load that a lane entry caused has no bundle (R278): its thread goes on, and its first C8 command binds again. -/
def bankStep (core : Nat) (bank : Bool) (s : State) : State :=
  let k := if bank then 1 else 0
  match ((s.core core).banks.toList.getD k Bank.empty).loading with
  | none => s
  | some (tid, asid, fmtp) =>
    let set (s : State) (f : Bank → Bank) : State := s.modCore core fun c =>
      if h : k < 2 then { c with banks := c.banks.set k (f c.banks[k]) h } else c
    match s.launchOn core with
    | none => set s fun b => { b with loading := none, tag := none, walk := none }
    | some (lid, l) =>
      let r := s.tableAtoms l core tid ((s.core core).banks.toList.getD k Bank.empty).walk 32 fmtp
      match r.2 with
      | .hold none => s
      | .hold (some page) =>
        (set s fun b => { b with walk := some { page := page, fault := none } }).startWalk (squareOf core) l.asid page
      | .done v =>
        let t : BitVec 8192 := BitVec.ofNat 8192 v
        let s := set r.1 fun _ =>
          { table := t, tag := some (asid, fmtp), encodable := tableEncodable t, loading := none, walk := none }
        s.modLaunch lid fun l => if l.tables.contains t then l else { l with tables := l.tables ++ [t] }
      | .fail f =>
        let bound := match s.thread? tid with
          | some t => t.bank == some k
          | none => false
        let s := set r.1 fun b => { b with loading := none, tag := none, walk := none }
        let s := s.unbind core k
        match s.thread? tid with
        | none => s
        | some t =>
          if !bound then s
          else
            let pc := (t.bundle.map BundleInfo.pc).getD t.pc
            let flt : Flt := { cause := f.cause, qual := f.qual, half := bundleHalf t.bundle, pc := pc,
                               detail := f.detail, bundle := t.bundle }
            if t.bundle.isNone || t.floatDue then s.modThread tid fun t => { t with wait := none } else s.raise tid flt

def execBankLoad (core : Nat) (bank : Bool) (s : State) : Host.Outcome State Fault Refusal := .next (bankStep core bank s)

end Sys2Proof.Machine
end

