-- ==== Sys2Proof/Machine/Copy.lean ====
section
/-!
DEFINITION. The copy engine: `cpy`, the window of a layout record (R186), the accesses of a copy (R188, R189),
the end of a copy, and the tag waits `cwait`, `cany` and `cfirst` (R190).
-/

namespace Sys2Proof.Machine

/-! ### Instructions -/

/-- The store-queue entries of a slot that are still in flight. -/
def State.inFlightOf (s : State) (core slot : Nat) : List Nat :=
  ((s.sqOf core slot).filter fun p => p.2.inFlight).map Prod.fst

/-- `cpy` (R187): the tag is cleared and the command enters the copy queue. -/
def cpyEffect (t : BitVec 6) (vf : BitVec 3) (s : State) : State :=
  let x : Copy := { num := s.myCore.copyNum, words := s.layoutOf vf, tag := t, tid := s.ctx.tid, launch := s.me.launch,
                    pc := s.ctx.pc, issued := s.clock, waits := s.inFlightOf s.ctx.core s.ctx.slot, vals := [],
                    done := [], failed := false, walk := none }
  s.modCore s.ctx.core fun c => { c with
    tags := c.tags &&& ~~~(1#64 <<< t.toNat), copyQ := c.copyQ ++ [x], copyNum := c.copyNum + 1 }

def execCpy (t : BitVec 6) (vf : BitVec 3) (s : State) : Host.Outcome State Fault Refusal :=
  issue .lone (.cpy t vf) (cpyEffect t vf) s

/-- `cwait` (R190): nothing is left to do once its tags are ready. -/
def execCwait (a : Reg) (s : State) : Host.Outcome State Fault Refusal := issue .lone (.cwait a) (fun s => s) s

/-- The lowest tag of a mask that is ready, or 64. -/
def State.firstTag (s : State) (m : Word) : Word :=
  if s.myCore.tags &&& m = 0 then 64 else BitVec.ofNat 64 (lowBit (s.myCore.tags &&& m))

/-- `cany` (R190). -/
def execCany (d a : Reg) (s : State) : Host.Outcome State Fault Refusal :=
  issue .lone (.cany d a) (fun s => s.setDst d (s.firstTag (s.src a))) s

/-- `cfirst` (R190): it never parks and never faults. -/
def execCfirst (d a : Reg) (s : State) : Host.Outcome State Fault Refusal :=
  issue .lone (.cfirst d a) (fun s => s.setDst d (s.firstTag (s.src a))) s

/-! ### The window (R186) -/

/-- Window extent of dimension k; 1 where it is unused. -/
def Layout.ext (x : Layout) (k : Nat) : Nat := if k < x.dims then x.win.getD k 1 else 1

/-- Number of elements of the window. -/
def Layout.area (x : Layout) : Nat := x.ext 0 * x.ext 1 * x.ext 2 * x.ext 3 * x.ext 4

/-- The position of a linear index, dimension by dimension. -/
def Layout.position (x : Layout) (lin : Nat) : List Nat :=
  [lin % x.ext 0, lin / x.ext 0 % x.ext 1, lin / (x.ext 0 * x.ext 1) % x.ext 2,
   lin / (x.ext 0 * x.ext 1 * x.ext 2) % x.ext 3, lin / (x.ext 0 * x.ext 1 * x.ext 2 * x.ext 3) % x.ext 4]

/-- Tensor coordinates of a linear index. -/
def Layout.coords (x : Layout) (lin : Nat) : List Int :=
  (List.range x.dims).map fun k => x.org.getD k 0 + ((x.position lin).getD k 0 : Int)

def Layout.inside (x : Layout) (lin : Nat) : Bool :=
  ((x.coords lin).zip x.size).all fun p => decide (0 ≤ p.1) && decide (p.1 < (p.2 : Int))

/-- Tensor address of a linear index. -/
def Layout.addr (x : Layout) (lin : Nat) : Word :=
  x.base + BitVec.ofInt 64 ((typeBytes x.fmt : Int) *
    ((x.coords lin).zip x.stride).foldl (fun acc p => acc + p.1 * (p.2 : Int)) 0)

/-- Local offset of a linear index, with the bank interleave. -/
def Layout.localOff (x : Layout) (lin : Nat) : Nat :=
  x.dst + ((typeBytes x.fmt * lin) ^^^ (lin / x.ext 0 % 2 ^ x.swz * 32))

/-- The same as a local-space address of the issuing core. -/
def Layout.localAddr (x : Layout) (lin : Nat) : Word := BitVec.ofNat 64 (0x800000001FFF0000 + x.localOff lin)

/-- Where an element is read and where it is written: `dir` 0 reads the tensor, 1 the local window. -/
def Layout.source (x : Layout) (lin : Nat) : Word := if x.dir then x.localAddr lin else x.addr lin
def Layout.target (x : Layout) (lin : Nat) : Word := if x.dir then x.addr lin else x.localAddr lin

/-- An element that is not read: the edge fill of `dir` 0, the edge clipping of `dir` 1. -/
def Layout.edge (x : Layout) (lin : Nat) : Bool := !x.inside lin

/-! ### Acceptance (R188) -/

/-- COPY_ACCEPT: the oldest queued copy joins those in flight, while fewer than 512 are. -/
def copyAcceptStep (core : Nat) (s : State) : State :=
  match (s.core core).copyQ with
  | [] => s
  | x :: rest =>
    if 512 ≤ (s.core core).copies.length || s.clock < x.issued + 1 then s
    else s.modCore core fun c => { c with copyQ := rest, copies := c.copies ++ [x] }

def execCopyAccept (core : Nat) (s : State) : Host.Outcome State Fault Refusal := .next (copyAcceptStep core s)

/-! ### Accesses (R188, R189) -/

/-- Change a copy in flight. -/
def State.modCopy (s : State) (core num : Nat) (f : Copy → Copy) : State :=
  s.modCore core fun c => { c with copies := c.copies.map fun x => if x.num = num then f x else x }

/-- The qualifier of cause 0x4A for a fault of an access (R322). -/
def copyQual (cause : Nat) : Nat :=
  if cause = 0x17 then 1 else if cause = 0x18 then 3 else if cause = 0x1A then 4 else 2

/-- COPY_FAIL (R189): the copy stops at an element; its tag's error bit is set and the core logs it. -/
def State.copyFail (s : State) (l : Launch) (core : Nat) (x : Copy) (lin cause : Nat) : State :=
  let s := s.modCopy core x.num fun c => { c with failed := true }
  let s := s.modCore core fun c => { c with tagerr := c.tagerr ||| (1#64 <<< x.tag.toNat) }
  let rep : Report :=
    { cause := 0x4A, qual := copyQual cause, core := s.coreLabel core, pc := x.pc,
      detail := (Layout.ofWords x.words).base, detail2 := BitVec.ofNat 64 (lin * 2 ^ 32 + x.tag.toNat), asid := l.asid }
  s.report (dieOf core) rep

/-- A copy's access waits for a walk, which is queued where none runs (R310). -/
def State.copyWalk (s : State) (l : Launch) (core num page : Nat) : State :=
  (s.modCopy core num fun c => { c with walk := some { page := page, fault := none } }).startWalk (squareOf core) l.asid page

/-- Note an out-of-range access at the thread that issued the copy (R52). -/
def State.copyNote (s : State) (x : Copy) (a : Word) : State := s.modThread x.tid fun t => t.note a

/-- The positions one access serves: those whose address lies in the atom of a first one (R188). -/
def sameAtom (ps : List Nat) (addr : Nat → Word) (lin : Nat) : List Nat :=
  ps.filter fun p => (addr p).toNat / 32 == (addr lin).toNat / 32

/-- Key of another element of an atom, one of whose elements has a key and an address. -/
def atomKey (key : Nat) (first other : Word) : Nat := key - first.toNat % 32 + other.toNat % 32

/-- Read elements of one atom. -/
def State.copyRead (s : State) (l : Launch) (core : Nat) (x : Copy) (ps : List Nat) : State :=
  let r := Layout.ofWords x.words
  let w := typeBytes r.fmt
  match ps with
  | [] => s
  | lin :: _ =>
    match s.engineReach l core (r.source lin) w .rd x.walk with
    | .fault f => s.copyFail l core x lin f.cause
    | .walk page => s.copyWalk l core x.num page
    | .busy => s
    | .out =>
      (s.copyNote x (r.source lin)).modCopy core x.num fun c => { c with
        vals := ps.foldl (fun t p => tput t p 0) c.vals }
    | .key key =>
      let at_ (p : Nat) : Nat := atomKey key (r.source lin) (r.source p)
      match ps.find? fun p => s.isBad (at_ p) w with
      | some p => (s.uncorrected (at_ p) l.asid).copyFail l core x p 0x19
      | none =>
        let vs := ps.map fun p => (p, BitVec.ofNat 64 (s.load (at_ p) w))
        (ps.foldl (fun (s : State) p => s.corrected (at_ p) w l.asid) s).modCopy core x.num fun c => { c with
          vals := vs.foldl (fun t p => tput t p.1 p.2) c.vals }

/-- Elements of w bytes at some keys cover a protected unit whole: an atom of HBM, a word of local memory (R329). Positions that
share an offset (R226) cover its bytes once. -/
def coversUnit (w : Nat) (keys : List Nat) (u : Nat) : Bool :=
  w * ((keys.filter fun k => errUnit k == u).eraseDups).length == if 8 * u < localBase then 32 else 8

/-- Write elements of one atom whose values have been read. Which of the positions that share an offset ends there R226 does not
say: in one access the highest does (notes/assumptions/20). -/
def State.copyWrite (s : State) (l : Launch) (core : Nat) (x : Copy) (ps : List Nat) (val : Nat → Word) : State :=
  let r := Layout.ofWords x.words
  let w := typeBytes r.fmt
  let finish (s : State) : State := s.modCopy core x.num fun c => { c with
    vals := c.vals.filter (fun v => !ps.contains v.1), done := ps.foldl sadd c.done }
  match ps with
  | [] => s
  | lin :: _ =>
    match s.engineReach l core (r.target lin) w .w x.walk with
    | .fault f => s.copyFail l core x lin f.cause
    | .walk page => s.copyWalk l core x.num page
    | .busy => s
    | .out => finish (s.copyNote x (r.target lin))
    | .key key =>
      let at_ (p : Nat) : Nat := atomKey key (r.target lin) (r.target p)
      let keys := ps.map at_
      match ps.find? fun p => !coversUnit w keys (errUnit (at_ p)) && s.isBad (at_ p) w with
      | some p => (s.uncorrected (at_ p) l.asid).copyFail l core x p 0x19
      | none =>
        let s := keys.foldl (fun (s : State) k =>
          if coversUnit w keys (errUnit k) then s.healed k w else s.corrected k w l.asid) s
        finish (ps.foldl (fun s p => s.store (at_ p) w (val p).toNat) s)

/-- An access that was made takes the engine's cycle: it makes at most one in a cycle (R188). -/
def State.copyBusy (s : State) (core : Nat) (before : State) : State :=
  if s = before then s else s.modCore core fun c => { c with copyFree := s.clock + 1 }

/-- COPY_ACCESS: position `pos` is read, or written where it has been read; `65536 + pos` serves with it every
position of its atom that may be read or written now. An element beyond the tensor is not read: it takes the
fill, or is not written (R186). -/
def copyAccessStep (core copy pos : Nat) (s : State) : State :=
  match (s.core core).copies.find? fun x => x.num == copy, s.launchOn core with
  | some x, some (_, l) =>
    let r := Layout.ofWords x.words
    let lin := pos % 65536
    let group := 65536 ≤ pos
    let ready := x.waits.all fun e => !((tget s.sq e).map SqEntry.inFlight).getD false
    if x.failed || !ready || r.area ≤ lin || x.done.contains lin || s.clock < (s.core core).copyFree then s
    else
      let open_ (p : Nat) : Bool := !x.done.contains p
      let all := if group then (List.range r.area).filter open_ else [lin]
      if r.edge lin && r.dir then
        s.modCopy core copy fun c => { c with done := sadd c.done lin }
      else
        let known (p : Nat) : Bool := r.edge p || (tget x.vals p).isSome
        let val (p : Nat) : Word := if r.edge p then BitVec.ofNat 64 r.fill else (tget x.vals p).getD 0
        if known lin then
          let ps := if group then sameAtom (all.filter fun p => known p && !(r.edge p && r.dir)) r.target lin else [lin]
          (s.copyWrite l core x ps val).copyBusy core s
        else
          let ps := if group then sameAtom (all.filter fun p => !known p) r.source lin else [lin]
          (s.copyRead l core x ps).copyBusy core s
  | _, _ => s

def execCopyAccess (core copy pos : Nat) (s : State) : Host.Outcome State Fault Refusal :=
  .next (copyAccessStep core copy pos s)

/-! ### The end of a copy (R188) -/

/-- COPY_END: the copy leaves; its tag is ready when no other copy with it is queued or in flight, which is an event
of its core (R223). -/
def copyEndStep (core copy : Nat) (s : State) : State :=
  match (s.core core).copies.find? fun x => x.num == copy with
  | none => s
  | some x =>
    if !x.failed && x.done.length < (Layout.ofWords x.words).area then s
    else
      let s := s.modCore core fun c => { c with copies := c.copies.filter fun y => y.num != copy }
      let c := s.core core
      if (c.copyQ ++ c.copies).any fun y => y.tag == x.tag then s
      else (s.modCore core fun c => { c with tags := c.tags ||| (1#64 <<< x.tag.toNat) }).signal core

def execCopyEnd (core copy : Nat) (s : State) : Host.Outcome State Fault Refusal := .next (copyEndStep core copy s)

end Sys2Proof.Machine
end

