-- ==== Sys2Proof/Machine/Hamper.lean ====
section
/-!
DEFINITION. The Hamper: `stow` and `unstow`, control blocks and completion words (R212 to R214), session objects
and fold pages (R83 to R86, R312 to R316).
-/

namespace Sys2Proof.Machine

/-! ### Requests -/

def State.hamper (s : State) (k : Nat) : Hamper := s.hampers.toList.getD k Hamper.idle

def State.modHamper (s : State) (k : Nat) (f : Hamper → Hamper) : State :=
  if h : k < 4 then { s with hampers := s.hampers.set k (f s.hampers[k]) h } else s

/-- A request enters the queue of the Hamper core that its object names (R214): the two words are plain loads. -/
def State.queueHamper (s : State) (stow : Bool) (a : Word) : State :=
  let o := s.readWord a
  let r : HReq := { num := 0, stow := stow, ctl := a, asid := s.myLaunch.asid, sc := dieOf s.ctx.core,
                    done := s.readWord (a + 24), phase := 0, stamp := 0, data := [], pages := [], atoms := [], block := [],
                    media := false }
  ((((s.correctWord a).correctWord (a + 24)).readNote a 8).readNote (a + 24) 8).modHamper (bits o 0 2) fun h => { h with
    queue := h.queue ++ [{ r with num := h.num }], num := h.num + 1 }

/-- `stow` (R214). -/
def execStow (a : Reg) (s : State) : Host.Outcome State Fault Refusal :=
  issue .lone (.stow a) (fun s => s.queueHamper true (s.src a)) s

/-- `unstow` (R214). -/
def execUnstow (a : Reg) (s : State) : Host.Outcome State Fault Refusal :=
  issue .lone (.unstow a) (fun s => s.queueHamper false (s.src a)) s

def State.modReq (s : State) (k num : Nat) (f : HReq → HReq) : State :=
  s.modHamper k fun h => { h with queue := h.queue.map fun r => if r.num = num then f r else r }

/-- A request is finished. -/
def State.endReq (s : State) (k num : Nat) : State :=
  s.modHamper k fun h => { h with queue := h.queue.filter fun r => r.num != num }

def blockObj (ws : List Word) : BitVec 48 := (ws.getD 0 0).extractLsb' 0 48
def blockPages (ws : List Word) : Word := ws.getD 1 0
def blockCount (ws : List Word) : Nat := bits (ws.getD 2 0) 0 16
def blockDone (ws : List Word) : Word := ws.getD 3 0
def blockSig (ws : List Word) : Word := ws.getD 4 0

/-- The request of a Hamper core that leaves its queue next (R313). -/
def Hamper.next (h : Hamper) (num : Nat) : Option HReq :=
  match h.queue.find? fun r => r.phase == 0 with
  | some r => if r.num = num then some r else none
  | none => none

/-- A request that has left the queue, and that no earlier one for the same object of the namespace holds back (R313). -/
def Hamper.ready (h : Hamper) (num : Nat) : Option HReq :=
  match h.queue.find? fun r => r.num == num && r.phase != 0 with
  | none => none
  | some r =>
    if h.queue.any fun q => q.num < num && q.phase != 0 && q.asid == r.asid && blockObj q.block == blockObj r.block then none
    else some r

/-! ### Addresses (R310) -/

/-- Translate by the Hamper core's own unit, which keeps what it walks for. -/
def State.hamperXlate (s : State) (k : Nat) (asid : BitVec 12) (a : Word) (p : Perm) : State × Except XFault Nat :=
  match lookIn (s.hamper k).trans asid a p with
  | .hit key => (s, .ok key)
  | .fault f => (s, .error f)
  | .miss =>
    let r := s.walk asid a.toNat
    match r.2 with
    | .error f => (r.1, .error f)
    | .ok t =>
      let s := { r.1 with free := s.free + 1 }.modHamper k fun h => { h with trans := addTrans s.free h.trans t }
      (s, if t.permits p then .ok (t.phys a.toNat) else .error { cause := 0x17, qual := 3, detail := a })

/-- No alert holds a bank of HBM that an access to an address needs, its walk included (R333). -/
def State.hamperOpen (s : State) (k : Nat) (asid : BitVec 12) (a : Word) (p : Perm) : Bool :=
  s.alerts.isEmpty || ((match lookIn (s.hamper k).trans asid a p with
    | .miss => s.walkOpen asid a.toNat
    | _ => true) && (match (s.hamperXlate k asid a p).2 with
    | .ok key => s.bankOpen key
    | .error _ => true))

/-- Read an atom of a control block: its words, none where it cannot be read, or a wait for its bank of HBM (R333). -/
def State.readAtom (s : State) (k : Nat) (r : HReq) (a : Word) : State × Option (Option (List Word)) :=
  let x := s.hamperXlate k r.asid a .rd
  if !s.hamperOpen k r.asid a .rd then (s, none)
  else match x.2 with
  | .error _ => (x.1, some none)
  | .ok key =>
    if x.1.isBad key 32 then (x.1.uncorrected key r.asid, some none)
    else (x.1.corrected key 32 r.asid, some (some (readWords x.1.mem key 4)))

/-- The words of a control block, from atom to atom (R212): all, those of the first atom, or none; or a wait. -/
def State.readControl (s : State) (k : Nat) (r : HReq) : State × Option (List Word) :=
  let x := s.readAtom k r r.ctl
  match x.2 with
  | none => (s, none)
  | some none => (x.1, some [])
  | some (some w0) =>
    let y := x.1.readAtom k r (r.ctl + 32)
    match y.2 with
    | none => (s, none)
    | some none => (y.1, some w0)
    | some (some w1) => (y.1, some (w0 ++ w1))

/-- A control block is valid (R212). -/
def blockOk (ws : List Word) : Bool :=
  bits (ws.getD 0 0) 48 16 = 0 && bits (ws.getD 2 0) 16 48 = 0 && ws.getD 5 0 = 0 && ws.getD 6 0 = 0
    && ws.getD 7 0 = 0 && blockCount ws != 0 && (blockPages ws).toNat % 65536 = 0 && (blockDone ws).toNat % 8 = 0

/-! ### Completion words (R213) -/

/-- Fill completion word p with a status; a word that cannot be written is left and reported (R214), one that is
full already is a double fill (R238). -/
def State.fillDone (s : State) (k : Nat) (r : HReq) (ws : List Word) (p page status : Nat) : State :=
  let a := blockDone ws + BitVec.ofNat 64 (8 * p)
  let x := s.hamperXlate k r.asid a .w
  let s := x.1
  let rep (qual : Nat) : Report :=
    { cause := 0x4B, qual := qual, core := 4 + k, detail := a, detail2 := r.ctl, asid := r.asid }
  match x.2 with
  | .error f => s.report (dieOf (plazaBase + 4 + k)) (rep <| if f.cause = 0x19 then 3 else if f.qual = 3 then 2 else 1)
  | .ok key =>
    if a.toNat % 8 != 0 then s
    else if s.isBad key 8 then (s.uncorrected key r.asid).report (dieOf (plazaBase + 4 + k)) (rep 3)
    else if s.isFull key then
      s.report (dieOf (plazaBase + 4 + k)) { cause := 0x44, qual := 1, core := 4 + k, detail := a, asid := r.asid }
    else
      let s := (s.corrected key 8 r.asid).storeWord key (BitVec.ofNat 64 (page * 2 ^ 32 + status))
      (s.setFull key).serveAll (homeOf key)

/-- No bank alert holds a completion word (R333). -/
def State.wordsOpen (s : State) (k : Nat) (r : HReq) : Bool :=
  s.alerts.isEmpty || (List.range (blockCount r.block + 1)).all fun p =>
    s.hamperOpen k r.asid (blockDone r.block + BitVec.ofNat 64 (8 * p)) .w

/-- Fill every completion word but those already handled. The page field of words 1 to `npages` that a status of the whole
request fills is their own page: R213's table says 0 for the whole request, and the model keeps that to word 0
(notes/assumptions/27). -/
def State.fillRest (s : State) (k : Nat) (r : HReq) (ws : List Word) (handled : List Nat) (status : Nat) : State :=
  (List.range (blockCount ws + 1)).foldl (fun s p =>
    if handled.contains p then s else s.fillDone k r ws p p status) s

/-- Statuses 4 to 8 fill every word and end the request. -/
def State.failReq (s : State) (k : Nat) (r : HReq) (ws : List Word) (handled : List Nat) (status : Nat) : State :=
  (s.fillRest k r ws handled status).endReq k r.num

/-! ### Fold pages (R83 to R86) -/

/-- A page, as its bytes that are not zero, is well formed under a signature (R86). -/
def pageOk (page : List Host.Cell) (sig : Word) : Bool :=
  let h := readWords page 0 8
  let w (i : Nat) : Word := h.getD i 0
  let rows := bits (w 1) 0 16; let len := bits (w 1) 16 16
  let n := rows * len
  bits (w 0) 48 16 = 0 && bits (w 0) 32 16 = 1 && bits (w 0) 0 32 = 0x444C4F46
    && bits (w 1) 36 28 = 0 && bits (w 1) 32 4 < 3 && bits (w 3) 32 32 = 0 && w 6 = 0 && w 7 = 0
    && len % 4 = 0 && 4 ≤ len && len ≤ 52224 && 1 ≤ rows && n ≤ 52224
    && (page.all fun c => !(0x40 + n ≤ c.1 && c.1 < 0xCC40) && !(0xCC40 + n / 4 ≤ c.1 && c.1 < 0xFF40)
        && !(0xFF40 ≤ c.1 && c.1 < 0xFFF8))
    && w 5 = sig
    && readLE page 0xFFF8 8 = crc32c (readBytes page 0 0xFFF8)

/-! ### Session headers (R314, R315) -/

/-- The bytes of a session header. -/
def sessionHeader (asid : BitVec 12) (obj : BitVec 48) (npages : Nat) (sig stamp : Word) : List Host.Cell :=
  let m := writeWords [] 0 [BitVec.ofNat 64 (2 ^ 32 + 0x53534553), obj.setWidth 64,
    BitVec.ofNat 64 (2 ^ 16 + npages % 2 ^ 16), sig, asid.setWidth 64, stamp]
  writeLE m 4088 8 (crc32c (readBytes m 0 4088))

/-- A header is well formed for a request (R315 step 1). -/
def headerOk (h : List Host.Cell) (asid : BitVec 12) (obj : BitVec 48) : Bool :=
  let ws := readWords h 0 6
  let w (i : Nat) : Word := ws.getD i 0
  bits (w 0) 0 32 = 0x53534553 && bits (w 0) 32 32 = 1 && w 1 = obj.setWidth 64 && bits (w 2) 32 32 = 0
    && w 4 = asid.setWidth 64 && (h.all fun c => !(48 ≤ c.1 && c.1 < 4088))
    && readLE h 4088 8 = crc32c (readBytes h 0 4088)

/-- It agrees with the control block (R315 step 2). -/
def headerMatches (h : List Host.Cell) (ws : List Word) : Bool :=
  let hs := readWords h 0 6
  hs.getD 3 0 = blockSig ws && bits (hs.getD 2 0) 0 16 = blockCount ws && bits (hs.getD 2 0) 16 16 = 1

/-! ### Namespaces (R312) -/

/-- LBAs of 4,096 bytes that an object takes. -/
def Obj.lbas (o : Obj) : Nat := 1 + 16 * o.pages.length

def Namespace.used (n : Namespace) : Nat := (n.objects.map fun p => p.2.lbas).sum

/-! ### `stow` (R214) -/

/-- Address of fold page p. -/
def pageAddr (ws : List Word) (p : Nat) : Word := blockPages ws + BitVec.ofNat 64 (65536 * (p - 1))

/-- A request leaves its queue: its whole block is read (R214). Where it cannot be, its faults give status 7 (R310): every
completion word the block lets be found is filled; a block of which nothing was read leaves word 0, at the address that
its thread read (notes/assumptions/46). -/
def State.takeRequest (s : State) (k : Nat) (r : HReq) : State :=
  let x := s.readControl k r
  match x.2 with
  | none => s
  | some ws =>
    if ws.length = 8 then x.1.modReq k r.num fun r => { r with phase := 1, block := ws, stamp := s.clockWord }
    else if ws.length = 4 then x.1.failReq k r ws [] 7
    else (x.1.fillDone k r [0, 0, 0, r.done] 0 0 7).endReq k r.num

/-- A page that a `stow` reads has been read whole: it is checked by R86. -/
def State.pageRead (s : State) (k : Nat) (r : HReq) (p : Nat) : State :=
  if !pageOk (r.data.getD (p - 1) []) (blockSig r.block) then (s.fillDone k r r.block 0 p 2).endReq k r.num
  else s.modReq k r.num fun r => { r with pages := p :: r.pages, atoms := [] }

/-- One atom of the page that a `stow` reads, as a load of 32 bytes (R236); an address fault names its page. -/
def State.readPageAtom (s : State) (k : Nat) (r : HReq) (p n : Nat) : State :=
  let x := s.hamperXlate k r.asid (pageAddr r.block p + BitVec.ofNat 64 (32 * n)) .rd
  let fail (s : State) : State := (((s.fillDone k r r.block 0 p 7).fillRest k r r.block [0] 7)).endReq k r.num
  if !s.hamperOpen k r.asid (pageAddr r.block p + BitVec.ofNat 64 (32 * n)) .rd then s
  else match x.2 with
  | .error _ => fail x.1
  | .ok key =>
    if x.1.isBad key 32 then fail (x.1.uncorrected key r.asid)
    else
      let cells := moveCells x.1.mem key 32 (32 * n)
      (x.1.corrected key 32 r.asid).modReq k r.num fun r => { r with
        data := r.data.take (p - 1) ++ [r.data.getD (p - 1) [] ++ cells], atoms := [(p, n + 1)] }

/-- Every page has been read and checked: the header and the pages are written to the drive. -/
def State.writeObject (s : State) (k : Nat) (r : HReq) (ns : Namespace) : State :=
  let ws := r.block
  if r.media then (s.fillDone k r ws 0 0 3).endReq k r.num
  else if ns.lbas < ns.used + 1 + 16 * blockCount ws then s.failReq k r ws [] 5
  else
    let h := sessionHeader r.asid (blockObj ws) (blockCount ws) (blockSig ws) r.stamp
    s.modReq k r.num fun r => { r with phase := 2, data := h :: r.data }

/-- A `stow` goes on: the next atom of its pages in order, the check of a page, or the write to the drive. -/
def State.stowOn (s : State) (k : Nat) (r : HReq) : State :=
  let ws := r.block
  if !blockOk ws then s.failReq k r ws [] 6
  else
    match tget (s.hamper k).namespaces r.asid.toNat with
    | none => s.failReq k r ws [] 8
    | some ns =>
      let p := r.pages.length + 1
      let n := (tget r.atoms p).getD 0
      if blockCount ws < p then s.writeObject k r ns
      else if n < 2048 then s.readPageAtom k r p n
      else s.pageRead k r p

/-- STOW_PROCESS: a `stow` leaves its queue, or goes on. -/
def stowStep (k num : Nat) (s : State) : State :=
  match (s.hamper k).next num with
  | some r => if r.stow then s.takeRequest k r else s
  | none =>
    match (s.hamper k).ready num with
    | some r => if r.stow && r.phase = 1 && s.wordsOpen k r then s.stowOn k r else s
    | none => s

def execStowProcess (hamper req : Nat) (s : State) : Host.Outcome State Fault Refusal := .next (stowStep hamper req s)

/-- OBJECT_DURABLE: the object is durable and replaces an earlier one; word 0 is filled with status 0 (R214). -/
def durableStep (k num : Nat) (s : State) : State :=
  match (s.hamper k).ready num with
  | none => s
  | some r =>
    if !r.stow || r.phase != 2 || !s.wordsOpen k r then s
    else
      match tget (s.hamper k).namespaces r.asid.toNat with
      | none => s.failReq k r r.block [] 8
      | some _ =>
        if r.media then (s.fillDone k r r.block 0 0 3).endReq k num
        else
          let o : Obj := { header := r.data.headD [], pages := r.data.tail }
          let s := s.modHamper k fun h => { h with
            namespaces := tmod h.namespaces r.asid.toNat fun n => { n with
              objects := tput n.objects (blockObj r.block).toNat o } }
          (s.fillDone k r r.block 0 0 0).endReq k num

def execObjectDurable (hamper req : Nat) (s : State) : Host.Outcome State Fault Refusal :=
  .next (durableStep hamper req s)

/-! ### `unstow` (R214, R315) -/

/-- The refusal of R315 step 2 is reported through the service core of the die that issued the request (R316): the record
of cause 0x47, and what it has no word for. -/
def State.refuseUnstow (s : State) (k : Nat) (r : HReq) (o : Obj) : State :=
  let hs := readWords o.header 0 6
  let obj := (blockObj r.block).setWidth 64
  let told := [r.asid.setWidth 64, obj, blockSig r.block, BitVec.ofNat 64 (blockCount r.block), hs.getD 3 0,
    BitVec.ofNat 64 (bits (hs.getD 2 0) 0 16)]
  ({ s with refusals := s.refusals ++ [told] } : State).report r.sc { cause := 0x47, core := 4 + k, detail := obj, asid := r.asid }

/-- An `unstow` whose block is read: the block and the header are checked before any page moves. -/
def State.unstowOn (s : State) (k : Nat) (r : HReq) : State :=
  let ws := r.block
  if !blockOk ws then s.failReq k r ws [] 6
  else
    match tget (s.hamper k).namespaces r.asid.toNat with
    | none => s.failReq k r ws [] 8
    | some ns =>
      match tget ns.objects (blockObj ws).toNat with
      | none => s.failReq k r ws [] 4
      | some o =>
        if r.media then s.failReq k r ws [] 3
        else if !headerOk o.header r.asid (blockObj ws) then s.failReq k r ws [] 2
        else if !headerMatches o.header ws then (s.refuseUnstow k r o).failReq k r ws [] 1
        else (s.fillDone k r ws 0 0 0).modReq k r.num fun r => { r with phase := 2, data := o.header :: o.pages }

/-- UNSTOW_PROCESS: an `unstow` leaves its queue, or its header is checked. -/
def unstowStep (k num : Nat) (s : State) : State :=
  match (s.hamper k).next num with
  | some r => if r.stow then s else s.takeRequest k r
  | none =>
    match (s.hamper k).ready num with
    | some r => if !r.stow && r.phase = 1 && s.wordsOpen k r then s.unstowOn k r else s
    | none => s

def execUnstowProcess (hamper req : Nat) (s : State) : Host.Outcome State Fault Refusal :=
  .next (unstowStep hamper req s)

/-- Atom n of a page is stored whole, its full/empty bits unchanged (R127, R329). -/
def State.writePageAtom (s : State) (key n : Nat) (page : List Host.Cell) : State :=
  (s.healed key 32).store key 32 (readLE page (32 * n) 32)

/-- UNSTOW_PAGE_ARRIVE: a page is checked on arrival; its atoms are stored one after another, then its word is filled (R213,
R236). A failure ends the request. -/
def unstowPageStep (k num page : Nat) (s : State) : State :=
  match (s.hamper k).ready num with
  | none => s
  | some r =>
    let ws := r.block
    if r.stow || r.phase != 2 || page = 0 || blockCount ws < page || r.pages.contains page || !s.wordsOpen k r then s
    else
      let fail (s : State) (status : Nat) : State := s.failReq k r ws (0 :: r.pages) status
      let data := r.data.getD page []
      let n := (tget r.atoms page).getD 0
      if n = 0 && r.media then fail s 3
      else if n = 0 && !pageOk data (blockSig ws) then fail s 2
      else if n < 2048 then
        let x := s.hamperXlate k r.asid (pageAddr ws page + BitVec.ofNat 64 (32 * n)) .w
        if !s.hamperOpen k r.asid (pageAddr ws page + BitVec.ofNat 64 (32 * n)) .w then s
        else match x.2 with
        | .error _ => fail x.1 7
        | .ok key => (x.1.writePageAtom key n data).modReq k num fun r => { r with atoms := tput r.atoms page (n + 1) }
      else
        let s := s.fillDone k r ws page page 0
        if r.pages.length + 1 = blockCount ws then s.endReq k num
        else s.modReq k num fun r => { r with pages := page :: r.pages }

def execUnstowPageArrive (hamper req page : Nat) (s : State) : Host.Outcome State Fault Refusal :=
  .next (unstowPageStep hamper req page s)

end Sys2Proof.Machine
end

