-- ==== Sys2Proof/Machine/Heap.lean ====
section
/-!
DEFINITION. The symbolic heap: its records in HBM (R244 to R251), the requests of threads (R193 to R203, R205,
R206), the steps of the mending harts and of the settle wave (R252 to R261), and the match harts (R203, R204,
R263, R264).
-/

namespace Sys2Proof.Machine

/-! ### Records (R244 to R251) -/

/-- "None" as a class, node or chunk id. -/
def noId : Nat := 0xFFFFFFFF

/-- Local index of an id, and the id of a local index. -/
def idLocal (x : Nat) : Nat := x % 2 ^ 24
def mkId (chan i : Nat) : Nat := chan * 2 ^ 24 + i

/-- Physical address of an offset in the segment of a channel. -/
def Heap.key (x : Heap) (c off : Nat) : Nat := (x.frames.getD c []).getD (off / 65536) 0 * 65536 + off % 65536

def Heap.classOff (_x : Heap) (i : Nat) : Nat := 0x80 + 32 * i
def Heap.nodeOff (x : Heap) (i : Nat) : Nat := 0x80 + 32 * (x.classcap + i)
def Heap.idxOff (x : Heap) (i : Nat) : Nat := 0x80 + 32 * (x.classcap + x.nodecap + i)
def Heap.bktOff (x : Heap) (b : Nat) : Nat := 0x80 + 32 * (x.classcap + 2 * x.nodecap) + 4 * b
def Heap.chunkOff (x : Heap) (i : Nat) : Nat := x.bktOff (2 ^ x.bktlog) + 32 * i
def Heap.listOff (x : Heap) (i : Nat) : Nat := x.chunkOff x.pcap + 4 * i

/-- Bytes of a segment before rounding (R244). -/
def Heap.total (x : Heap) : Nat := (x.listOff x.classcap + 31) / 32 * 32

/-- A field of n bytes of a segment of heap h. What a hart reads from an uncorrectable atom the spec does not say: it is a
free value (notes/assumptions/18). -/
def State.hget (s : State) (h c off n : Nat) : Nat :=
  let key := (s.heap h).key c off
  if s.isBad key n then (Config.freeWord key).toNat % 256 ^ n else s.load key n

/-- A store of a hart (R329): one that meets an uncorrectable atom is not performed, and is logged against its channel core
(R237). -/
def State.hartStore (s : State) (h key n v : Nat) : State :=
  let asid := (s.heap h).asid
  if s.isBad key n then
    let rep : Report := { cause := 0x19, qual := 1, core := channelOf key, detail := BitVec.ofNat 64 key, asid := asid }
    (s.report (dieOfKey key) rep).uncorrected key asid
  else (s.corrected key n asid).store key n v

def State.hset (s : State) (h c off n v : Nat) : State := s.hartStore h ((s.heap h).key c off) n v

/-- Fields of a class record, by class id. -/
def State.classAt (s : State) (h x field n : Nat) : Nat := s.hget h (idChan x) ((s.heap h).classOff (idLocal x) + field) n
def State.setClass (s : State) (h x field n v : Nat) : State :=
  s.hset h (idChan x) ((s.heap h).classOff (idLocal x) + field) n v

def State.linkOf (s : State) (h x : Nat) : Nat := s.classAt h x 4 4
def State.pheadOf (s : State) (h x : Nat) : Nat := s.classAt h x 0 4
def State.bestOf (s : State) (h x : Nat) : Nat := s.classAt h x 8 8
def State.bestNodeOf (s : State) (h x : Nat) : Nat := s.classAt h x 20 4
def State.mtailOf (s : State) (h x : Nat) : Nat := s.classAt h x 24 4
def State.mheadOf (s : State) (h x : Nat) : Nat := s.classAt h x 28 4

/-- Fields of a node record, by node id. -/
def State.nodeAt (s : State) (h m field n : Nat) : Nat := s.hget h (idChan m) ((s.heap h).nodeOff (idLocal m) + field) n
def State.setNode (s : State) (h m field n v : Nat) : State :=
  s.hset h (idChan m) ((s.heap h).nodeOff (idLocal m) + field) n v

/-- Words 0 and 1 of a node, bits 31:18 of word 0 cleared (R247). -/
def State.nodePair (s : State) (h m : Nat) : Word × Word :=
  (BitVec.ofNat 64 (s.nodeAt h m 0 8) &&& 0xFFFFFFFF0003FFFF, BitVec.ofNat 64 (s.nodeAt h m 8 8))

def State.nodeUsed (s : State) (h m : Nat) : Bool := s.nodeAt h m 0 4 / 2 ^ 18 % 2 = 1

/-- Fields of an index record at a channel. -/
def State.idxAt (s : State) (h c i field n : Nat) : Nat := s.hget h c ((s.heap h).idxOff i + field) n
def State.setIdx (s : State) (h c i field n v : Nat) : State := s.hset h c ((s.heap h).idxOff i + field) n v

/-- Fields of the channel header (R246). -/
def State.headAt (s : State) (h c field n : Nat) : Nat := s.hget h c (0x40 + field) n
def State.setHead (s : State) (h c field n v : Nat) : State := s.hset h c (0x40 + field) n v

/-- A bit of the header's flags: 0 `low`, 1 `cleared`, 2 `busy`. -/
def State.headBit (s : State) (h c b : Nat) : Bool := s.headAt h c 0x38 4 / 2 ^ b % 2 = 1

def State.setHeadBit (s : State) (h c b : Nat) (v : Bool) : State :=
  let w := s.headAt h c 0x38 4
  let w' := w - (if w / 2 ^ b % 2 = 1 then 2 ^ b else 0) + (if v then 2 ^ b else 0)
  s.setHead h c 0x38 4 w'

/-- The settle mailbox at the anchor (R245): `settled`, `veto` and `epoch`. -/
def State.settled (s : State) (h : Nat) : Bool := s.hget h (anchorOf h) 0x28 4 % 2 = 1
def State.vetoed (s : State) (h : Nat) : Bool := s.hget h (anchorOf h) 0x28 4 / 2 % 2 = 1
def State.epoch (s : State) (h : Nat) : Nat := s.hget h (anchorOf h) 0x2C 4

def State.setMailbox (s : State) (h : Nat) (settled veto : Bool) : State :=
  s.hset h (anchorOf h) 0x28 4 ((if settled then 1 else 0) + if veto then 2 else 0)

/-- Count a repair message sent from, or received at, a channel. -/
def State.countSent (s : State) (h c : Nat) : State := s.setHead h c 0 8 (s.headAt h c 0 8 + 1)
def State.countRecv (s : State) (h c : Nat) : State := s.setHead h c 8 8 (s.headAt h c 8 8 + 1)

/-- The channel that a message between harts goes to. -/
def HeapMsg.channel : HeapMsg → Nat
  | .append _ c _ _ | .best _ c _ _ => idChan c
  | .clear h _ => anchorOf h
  | .rehash _ m => idChan m
  | .unindex _ _ hash | .index _ _ _ _ hash _ _ => hashChan hash.toNat
  | .merge _ _ x _ => idChan x
  | .splice _ r _ _ _ _ => idChan r
  | _ => 0

/-- The route of a hart's message from its channel, by the entry of a table that a service core would write now for its
square (R113); the spec gives the harts no table (notes/assumptions/32). -/
def State.hartRoute (s : State) (wards : List Nat) (c e : Nat) : Word × Word :=
  (({ num := 0, streets := s.streets, wards := wards } : Writing).pick (channelSquare c) e fun _ => 0, 0)

/-- A message of a hart leaves its channel, on the request class; one to its own channel passes no switch. -/
def State.sendHart (s : State) (c : Nat) (m : HeapMsg) : State :=
  let t := s.inject (.heap m)
  if m.channel = c then t else t.sendOn s.nextId (channelBase + c) 0 (s.hartRoute [] c m.channel)

/-- Send a repair message from a channel, which counts it (R253). -/
def State.sendRepair (s : State) (h c : Nat) (m : HeapMsg) : State := (s.countSent h c).sendHart c m

/-! ### Finds (R195) -/

/-- The link step bounded by the id, which every link lowers. -/
def State.canonFuel (s : State) (h : Nat) : Nat → Nat → Nat
  | 0, x => x
  | n + 1, x => if s.linkOf h x = noId then x else s.canonFuel h n (s.linkOf h x)

/-- `Canon(h, x)`. -/
def State.canon (s : State) (h x : Nat) : Nat := s.canonFuel h (x + 1) x

/-- A record allocated at its channel: class, or node (R193). -/
def State.classKnown (s : State) (h x : Nat) : Bool := idLocal x < s.headAt h (idChan x) 0x20 4
def State.nodeKnown (s : State) (h m : Nat) : Bool := idLocal m < s.headAt h (idChan m) 0x24 4

/-- The class records that a find reads, by the keys of their atoms. -/
def State.canonKeys (s : State) (h : Nat) : Nat → Nat → List Nat
  | 0, _ => []
  | n + 1, x =>
    (s.heap h).key (idChan x) ((s.heap h).classOff (idLocal x))
      :: if s.linkOf h x = noId then [] else s.canonKeys h n (s.linkOf h x)

/-- The two atoms of a channel's header (R246). -/
def State.headKeys (s : State) (h c : Nat) : List Nat := [(s.heap h).key c 0x40, (s.heap h).key c 0x60]

/-- What a find reads: the header, which says whether the record is there, and the records of the links. -/
def State.findKeys (s : State) (h x : Nat) : List Nat :=
  s.headKeys h (idChan x) ++ if s.classKnown h x then s.canonKeys h (x + 1) x else []

/-- What stops a find for an asker: there is no such record (R193). -/
def State.findFault (s : State) (h x : Nat) : Option Answer :=
  if s.classKnown h x then none else some (.fault 0x22 5 (BitVec.ofNat 64 h))

/-! ### Nodes and hashes (R194, R251) -/

/-- The pair with child k replaced. -/
def pairSet (p : Word × Word) (k c : Nat) : Word × Word :=
  if k = 0 then (BitVec.ofNat 64 (c * 2 ^ 32 + bits p.1 0 32), p.2)
  else if k = 1 then (p.1, BitVec.ofNat 64 (bits p.2 32 32 * 2 ^ 32 + c))
  else (p.1, BitVec.ofNat 64 (c * 2 ^ 32 + bits p.2 0 32))

/-- Every child replaced by its root. -/
def State.canonPair (s : State) (h : Nat) (p : Word × Word) : Word × Word :=
  (List.range (pairArity p.1)).foldl (fun q k => pairSet q k (s.canon h (pairKid q.1 q.2 k))) p

/-! ### Pools (R246) -/

/-- A pool of records: header fields of its free list and top, its capacity, and the place of record i's link. -/
structure Pool where
  free : Nat
  top : Nat
  cap : Nat
  link : Nat → Nat

def Heap.classPool (x : Heap) : Pool := { free := 0x28, top := 0x20, cap := x.classcap, link := fun i => x.classOff i + 28 }
def Heap.nodePool (x : Heap) : Pool := { free := 0x2C, top := 0x24, cap := x.nodecap, link := fun i => x.nodeOff i + 28 }
def Heap.idxPool (x : Heap) : Pool := { free := 0x3C, top := 0x34, cap := x.nodecap, link := fun i => x.idxOff i + 20 }

/-- A record is free at a channel. -/
def State.poolHas (s : State) (h c : Nat) (p : Pool) : Bool :=
  s.headAt h c p.free 4 != noId || s.headAt h c p.top 4 < p.cap

/-- The free record that would be taken next, by the key of its atom. -/
def State.poolKeys (s : State) (h c : Nat) (p : Pool) : List Nat :=
  let f := s.headAt h c p.free 4
  if f = noId then [] else [(s.heap h).key c (p.link f)]

/-- Take a record: the free list before the top grows. -/
def State.take (s : State) (h c : Nat) (p : Pool) : State × Nat :=
  let f := s.headAt h c p.free 4
  if f != noId then (s.setHead h c p.free 4 (s.hget h c (p.link f) 4), f)
  else
    let t := s.headAt h c p.top 4
    (s.setHead h c p.top 4 (t + 1), t)

/-- Give a record back; the one given back last is taken again first (notes/assumptions/26). -/
def State.giveBack (s : State) (h c : Nat) (p : Pool) (i : Nat) : State :=
  (s.hset h c (p.link i) 4 (s.headAt h c p.free 4)).setHead h c p.free 4 i

/-! ### Buckets (R249, R251) -/

/-- The index records of a bucket chain from a local index on. -/
def State.chain (s : State) (h c : Nat) : Nat → Nat → List Nat
  | 0, _ => []
  | n + 1, i => if i = noId then [] else i :: s.chain h c n (s.idxAt h c i 20 4)

/-- The records of the bucket of a hash. -/
def State.bucket (s : State) (h c hash : Nat) : List Nat :=
  let x := s.heap h
  s.chain h c x.nodecap (s.hget h c (x.bktOff (hash % 2 ^ x.bktlog)) 4)

/-- The record of a bucket with a key. -/
def State.findKey (s : State) (h c hash : Nat) (w0 w1 : Word) : Option Nat :=
  (s.bucket h c hash).find? fun i => s.idxAt h c i 0 8 == w0.toNat && s.idxAt h c i 8 8 == w1.toNat

def State.tentative (s : State) (h c i : Nat) : Bool := s.idxAt h c i 24 4 % 2 = 1

/-- Put a record in front of its bucket: R249 gives no place in the chain (notes/assumptions/26). -/
def State.addIndex (s : State) (h c hash : Nat) (w0 w1 : Word) (node cls : Nat) (tent : Bool) : State :=
  let x := s.heap h
  let r := s.take h c x.idxPool
  let b := x.bktOff (hash % 2 ^ x.bktlog)
  let i := r.2
  let s := ((r.1.setIdx h c i 0 8 w0.toNat).setIdx h c i 8 8 w1.toNat).setIdx h c i 16 4 node
  let s := ((s.setIdx h c i 20 4 (s.hget h c b 4)).setIdx h c i 24 4 (if tent then 1 else 0)).setIdx h c i 28 4 cls
  s.hset h c b 4 i

/-- Remove a node's record from the bucket of a hash, if present. -/
def State.removeIndex (s : State) (h c hash node : Nat) : State :=
  let x := s.heap h
  let rs := s.bucket h c hash
  match rs.findIdx? fun i => s.idxAt h c i 16 4 == node with
  | none => s
  | some k =>
    let i := rs.getD k 0
    let next := s.idxAt h c i 20 4
    let s := if k = 0 then s.hset h c (x.bktOff (hash % 2 ^ x.bktlog)) 4 next
      else s.setIdx h c (rs.getD (k - 1) 0) 20 4 next
    s.giveBack h c x.idxPool i

/-- The worklist of a channel is empty. -/
def State.listEmpty (s : State) (h c : Nat) : Bool :=
  s.headAt h c 0x18 4 = s.headAt h c 0x1C 4 && !(s.heap h).full.contains c

/-- A `Clear` of a channel is on its way to the anchor: the acceptance that sent it is in progress there (R254). -/
def State.clearing (s : State) (h c : Nat) : Bool :=
  s.net.any fun p => match p.2 with
    | .heap (.clear h' c') => h' == h && c' == c
    | _ => false

/-- `busy` of a channel: its worklist, an acceptance in progress, a splice or an `INDEX` that waits there. -/
def State.refreshBusy (s : State) (h c : Nat) : State :=
  let holds := (s.heap h).spliceHold.any fun r => idChan r == c
  let waits := s.net.any fun p => match p.2 with
    | .heap (.index h' _ _ _ hash _ true) => h' == h && hashChan hash.toNat == c
    | _ => false
  s.setHeadBit h c 2 (!s.listEmpty h c || holds || waits || s.clearing h c)

/-! ### Requests of threads (R193) -/

/-- The heap a message names. -/
def HeapMsg.heap : HeapMsg → Nat
  | .read h _ _ | .einsLookup h _ _ _ _ | .append h _ _ _ | .insert h _ _ _ _ _ _ _ _ _ | .accept h _ _ _ _
  | .clear h _ | .best h _ _ _ | .ecost h _ _ _ _ | .rehash h _ | .unindex h _ _ | .index h _ _ _ _ _ _
  | .merge h _ _ _ | .splice h _ _ _ _ _ | .spliceStore h _ _ | .esettle h _ | .pattern h _ _ _ _ | .ematch h _ _ _ _ => h

/-- The thread of a heap request. -/
def HeapMsg.asker : HeapMsg → Asker
  | .read _ _ who | .einsLookup _ _ _ _ who | .insert _ _ _ _ _ _ _ _ _ who | .accept _ _ _ _ who | .ecost _ _ _ _ who
  | .esettle _ who | .pattern _ _ _ _ who | .ematch _ _ _ _ who => who
  | _ => none

/-- The channel that a thread's request travels to first; the pattern of an `ematch` is read by its own core. -/
def HeapMsg.target : HeapMsg → Option Nat
  | .read _ (.find x) _ | .read _ (.cls x) _ | .read _ (.node x) _ | .read _ (.eq _ x _ _) _ => some (idChan x)
  | .einsLookup _ _ w0 w1 _ => some (if pairArity w0 = 0 then hashChan (pairHash w0 w1) else idChan (pairKid w0 w1 0))
  | .accept _ _ x _ _ => some (idChan x)
  | .ecost _ c _ _ _ => some (idChan c)
  | .esettle h _ | .ematch h _ _ _ _ => some (anchorOf h)
  | _ => none

/-- A request and its reply get their ways: the reply runs the request's backward (R113, R193). -/
def State.heapWays (s : State) (id rid core : Nat) (l : Launch) (m : HeapMsg) : State :=
  match m.target with
  | none => s
  | some c =>
    let home := channelBase + c
    ((s.sendTo id l core home 0).sendTo rid l core home 0).sendBack rid home

/-- A heap instruction empties its destinations, and its request leaves; the reply comes under a number of its
own. -/
def State.askHeap (s : State) (dsts : List Nat) (m : Asker → HeapMsg) : State :=
  let rid := s.nextId
  let msg := m (some (s.ctx.tid, rid))
  let s := (({ s with nextId := rid + 1 } : State).inject (.heap msg)).heapWays (rid + 1) rid s.ctx.core s.myLaunch msg
  s.modMe fun t => { t with
    regs := dsts.foldl Regs.emptyDst t.regs, outst := some (rid, dsts), wait := some (.reply rid) }

/-- The number of a destination field, and of the pair it starts. -/
def dst1 (d : Reg) : List Nat := [(gNum d).toNat]
def dst2 (d : Reg) : List Nat := [(gNum d).toNat, (gNum d).toNat + 1]

/-- `eins` (R196). -/
def execEins (d a : Reg) (h : BitVec 6) (s : State) : Host.Outcome State Fault Refusal :=
  issue .lone (.eins d a h) (fun s =>
    s.askHeap (dst1 d) (.einsLookup h.toNat 0 (s.src a) (s.srcPair a))) s

/-- `efind` (R197). -/
def execEfind (d a : Reg) (h : BitVec 6) (s : State) : Host.Outcome State Fault Refusal :=
  issue .lone (.efind d a h) (fun s => s.askHeap (dst1 d) (.read h.toNat (.find (lowId (s.src a))))) s

/-- `emrg` (R198). -/
def execEmrg (d a b : Reg) (h : BitVec 6) (s : State) : Host.Outcome State Fault Refusal :=
  issue .lone (.emrg d a b h) (fun s =>
    s.askHeap (dst1 d) (.accept h.toNat 0 (lowId (s.src a)) (lowId (s.src b)))) s

/-- `eeq` (R199). -/
def execEeq (d a b : Reg) (h : BitVec 6) (s : State) : Host.Outcome State Fault Refusal :=
  issue .lone (.eeq d a b h) (fun s =>
    s.askHeap (dst1 d) (.read h.toNat (.eq 0 (lowId (s.src a)) (lowId (s.src b)) none))) s

/-- `esettle` (R205). -/
def execEsettle (h : BitVec 6) (s : State) : Host.Outcome State Fault Refusal :=
  issue .lone (.esettle h) (fun s => s.askHeap [] (.esettle h.toNat)) s

/-- The five atoms of a pattern record, with their keys; one out of range has none (R52). -/
def State.patternAtoms (s : State) (a : Word) : List (Word × Option Nat) :=
  (blockAtoms a 160).map fun x => (x, if s.oor x 32 then none else some (s.keyOf x .rd))

/-- `ematch` (R203): the five reads of the pattern record are made one after another, and then the record is checked. -/
def execEmatch (d a : Reg) (h : BitVec 6) (s : State) : Host.Outcome State Fault Refusal :=
  issue .lone (.ematch d a h) (fun s =>
    (s.noteBlock (s.src a) 160).askHeap (dst1 d) (.pattern h.toNat (s.patternAtoms (s.src a)) [] s.me.launch)) s

/-- `ecost` (R200). -/
def execEcost (d a b : Reg) (h : BitVec 6) (s : State) : Host.Outcome State Fault Refusal :=
  issue .lone (.ecost d a b h) (fun s =>
    s.askHeap (dst1 d) (.ecost h.toNat (lowId (s.src a)) (bits (s.src a) 32 32) (s.src b))) s

/-- `enode` (R201). -/
def execEnode (d a : Reg) (h : BitVec 6) (s : State) : Host.Outcome State Fault Refusal :=
  issue .lone (.enode d a h) (fun s => s.askHeap (dst2 d) (.read h.toNat (.node (lowId (s.src a))))) s

/-- `eclass` (R201). -/
def execEclass (d a : Reg) (h : BitVec 6) (s : State) : Host.Outcome State Fault Refusal :=
  issue .lone (.eclass d a h) (fun s => s.askHeap (dst2 d) (.read h.toNat (.cls (lowId (s.src a))))) s

/-! ### Answers -/

/-- Answer the asker of a request, where there is one, and drop the request. -/
def State.reply (s : State) (id : Nat) (who : Asker) (a : Answer) : State :=
  let s := s.dropPacket id
  match who with
  | some (tid, rid) =>
    (match tget s.ways rid with
      | some w => ({ s with net := tput s.net rid (.reply tid (some (w.src, 0)) a) } : State).sendBack rid w.src
      | none => s.answer rid tid a)
  | none => s

def State.replyWord (s : State) (id : Nat) (who : Asker) (v : Nat) : State :=
  s.reply id who (.vals [BitVec.ofNat 256 v])

/-- A request goes on with its next stage. -/
def State.heapNext (s : State) (id : Nat) (m : HeapMsg) : State := { s with net := tput s.net id (.heap m) }

/-! ### What a step reads -/

/-- The bucket head and the index records of a hash, by the keys of their atoms. -/
def State.bucketKeys (s : State) (h c hash : Nat) : List Nat :=
  let x := s.heap h
  x.key c (x.bktOff (hash % 2 ^ x.bktlog)) :: (s.bucket h c hash).map fun i => x.key c (x.idxOff i)

def State.mailKey (s : State) (h : Nat) : Nat := (s.heap h).key (anchorOf h) 0x28
def State.classKey (s : State) (h x : Nat) : Nat := (s.heap h).key (idChan x) ((s.heap h).classOff (idLocal x))
def State.nodeKey (s : State) (h m : Nat) : Nat := (s.heap h).key (idChan m) ((s.heap h).nodeOff (idLocal m))

/-- The chunk that an append writes to, where it is not a new one (R252). -/
def State.chunkKeys (s : State) (h c : Nat) : List Nat :=
  let q := s.pheadOf h c
  if q = noId || idChan q != idChan c then [] else [(s.heap h).key (idChan c) ((s.heap h).chunkOff (idLocal q))]

/-- The place of a channel's worklist where the next entry goes. -/
def State.tailKey (s : State) (h c : Nat) : Nat := (s.heap h).key c ((s.heap h).listOff (s.headAt h c 0x18 4))

/-- The atoms that the next step of a message reads or writes at its channel, as keys within them. -/
def State.stepKeys (s : State) : HeapMsg → List Nat
  | .read h (.find x) _ | .read h (.cls x) _ | .read h (.found _ x) _ => s.findKeys h x
  | .read h (.node m) _ => s.headKeys h (idChan m) ++ if s.nodeKnown h m then [s.nodeKey h m] else []
  | .read h (.eq stage x y _) _ => if stage = 1 then s.findKeys h x else if stage = 2 then s.findKeys h y else [s.mailKey h]
  | .einsLookup h stage w0 w1 _ =>
    let x := s.heap h; let c := hashChan (pairHash w0 w1)
    if stage < pairArity w0 then s.findKeys h (pairKid w0 w1 stage)
    else s.headKeys h c ++ s.bucketKeys h c (pairHash w0 w1)
      ++ s.poolKeys h c x.nodePool ++ s.poolKeys h c x.classPool ++ s.poolKeys h c x.idxPool
  | .append h c _ _ => s.classKey h c :: s.headKeys h (idChan c) ++ s.chunkKeys h c
  | .insert h m k w0 w1 c _ _ _ _ => s.nodeKey h m :: s.classKey h k :: s.headKeys h c ++ s.bucketKeys h c (pairHash w0 w1)
  | .accept h stage x y _ | .merge h stage x y =>
    if stage = 0 then s.findKeys h x
    else if stage = 1 then s.findKeys h y
    else s.classKey h (max x y) :: s.tailKey h (idChan (max x y)) :: s.headKeys h (idChan (max x y))
  | .clear h c => s.mailKey h :: s.headKeys h c
  | .esettle h _ => [s.mailKey h]
  | .best h c _ _ => s.findKeys h c
  | .ecost h c node _ _ => s.findKeys h c ++ s.headKeys h (idChan node)
  | .rehash h m =>
    s.nodeKey h m :: s.headKeys h (idChan m) ++ (pairKids (s.nodePair h m).1 (s.nodePair h m).2).flatMap (s.findKeys h)
  | .unindex h _ hash => s.headKeys h (hashChan hash.toNat) ++ s.bucketKeys h (hashChan hash.toNat) hash.toNat
  | .index h _ _ _ hash _ _ =>
    s.headKeys h (hashChan hash.toNat) ++ s.bucketKeys h (hashChan hash.toNat) hash.toNat
      ++ s.poolKeys h (hashChan hash.toNat) (s.heap h).idxPool
  | .splice h r _ _ _ _ => s.findKeys h r
  | .spliceStore h r left => left.map Prod.fst ++ s.headKeys h (idChan r)
  | .pattern _ _ _ _ _ => []
  | .ematch h _ _ _ _ => [(s.heap h).key (anchorOf h) 0]

/-- Those atoms by their own keys. -/
def State.heapKeys (s : State) (m : HeapMsg) : List Nat := (s.stepKeys m).map fun k => k / 32 * 32

/-- An acceptance in progress at a channel lets no other step in (R254). -/
def State.entered (s : State) (m : HeapMsg) (keys : List Nat) : Bool :=
  match m with
  | .clear _ _ => true
  | _ => keys.all fun k => !s.clearing m.heap (channelOf k)

/-- The accesses of a step correct what they meet, and an uncorrectable atom counts for its stack (R329, R332). -/
def State.heapReads (s : State) (asid : BitVec 12) (keys : List Nat) : State :=
  keys.foldl (fun (s : State) k => if s.isBad k 32 then s.uncorrected k asid else s.corrected k 32 asid) s

/-- A request of a thread ends with *uncorrectable* at the first atom of its step that is so (R193, R329). An insert that has
created its records goes on, and so does a repair. -/
def State.heapStopAt (s : State) (m : HeapMsg) (keys : List Nat) : Option Answer :=
  match m with
  | .read _ _ _ | .einsLookup _ _ _ _ _ | .accept _ _ _ _ _ | .ecost _ _ _ _ _ | .esettle _ _ | .ematch _ _ _ _ _ =>
    (keys.find? fun k => s.isBad k 32).map fun k => .fault 0x19 1 (BitVec.ofNat 64 k)
  | _ => none

/-- A step of a heap message: it is made once the message has arrived, no alert holds a bank of the records it reads
(R333), and no acceptance is in progress at their channels. -/
def State.heapAt (s : State) (id : Nat) (f : State → State) : State :=
  match s.packet? id with
  | some (.heap m) =>
    let keys := s.heapKeys m
    if s.carried id && keys.all s.bankOpen && s.entered m keys then
      let t := (s.heapReads (s.heap m.heap).asid keys).landedAt id
      match s.heapStopAt m keys with
      | some a => t.reply id m.asker a
      | none => f t
    else s
  | _ => s

/-! ### Reads (R197, R199, R201, R261) -/

/-- One load of a read, or its end. -/
def heapReadStep (id h : Nat) (r : HeapRead) (who : Asker) (s : State) : State :=
  match r with
  | .find x =>
    match s.findFault h x with
    | some f => s.reply id who f
    | none => s.replyWord id who (s.canon h x)
  | .found m cls => s.replyWord id who (m * 2 ^ 32 + s.canon h cls)
  | .node m =>
    if !s.nodeKnown h m then s.reply id who (.fault 0x22 5 (BitVec.ofNat 64 h))
    else
      let p := s.nodePair h m
      s.reply id who (.vals [p.1.setWidth 256, p.2.setWidth 256])
  | .cls x =>
    match s.findFault h x with
    | some f => s.reply id who f
    | none =>
      let c := s.canon h x
      s.reply id who (.vals [BitVec.ofNat 256 (s.bestNodeOf h c * 2 ^ 32 + c), BitVec.ofNat 256 (s.bestOf h c)])
  | .eq stage x y ep =>
    if stage = 0 then
      s.heapNext id (.read h (.eq 1 x y (if s.settled h then some (s.epoch h) else none)) who)
    else if stage = 1 then
      match s.findFault h x with
      | some f => s.reply id who f
      | none => s.heapNext id (.read h (.eq 2 (s.canon h x) y ep) who)
    else if stage = 2 then
      match s.findFault h y with
      | some f => s.reply id who f
      | none => s.heapNext id (.read h (.eq 3 x (s.canon h y) ep) who)
    else
      let code := if x = y then 1 else if s.settled h && ep == some (s.epoch h) then 2 else 0
      s.replyWord id who code

/-- One of the five reads of a pattern record (R203), a load of 32 bytes that may wait for its bank or for the porter of the
core that holds it (R57); after them the record is checked (R202), and the request leaves for the anchor. -/
def patternStep (id h : Nat) (left : List (Word × Option Nat)) (words : List Word) (launch : Nat) (who : Asker) (s : State) :
    State :=
  match who with
  | none => s.dropPacket id
  | some (tid, rid) =>
    let core := match s.thread? tid with
      | some t => t.coreNow
      | none => 0
    let l := (s.launch? launch).getD Launch.blank
    match left with
    | (_, none) :: rest => s.heapNext id (.pattern h rest (words ++ [0, 0, 0, 0]) launch who)
    | (a, some key) :: rest =>
      let home := homeOf key
      if !s.bankOpen key || (home < channelBase && home != core && !(s.slot home 15).isFree) then s
      else if s.isBad key 32 then (s.uncorrected key l.asid).reply id who (.fault 0x19 1 a)
      else (s.corrected key 32 l.asid).heapNext id (.pattern h rest (words ++ readWords s.mem key 4) launch who)
    | [] =>
      if !patternOk words l.cores then s.reply id who (.fault 0x22 4 (BitVec.ofNat 64 h))
      else
        let m : HeapMsg := .ematch h words launch (bits (words.getD 2 0) 0 13) who
        (s.heapNext id m).heapWays id rid core l m

/-- `ematch` at the anchor (R203): the job takes its number, and every channel's hart accepts it. -/
def ematchStep (id h : Nat) (ws : List Word) (launch dst : Nat) (who : Asker) (s : State) : State :=
  let j := s.hget h (anchorOf h) 4 4
  let s := s.hset h (anchorOf h) 4 4 (j + 1)
  let job : Job := { j := BitVec.ofNat 32 j, words := ws, launch := launch, dst := dst, next := 0, sent := 0, front := [] }
  (s.modHeap h fun x => { x with jobs := x.jobs.map fun js => js ++ [job] }).replyWord id who j

/-- HOME_ACCESS (R127, R229): an access reaches its home; a heap read, or a match request, its channel core. -/
def homeStep (id : Nat) (s : State) : State :=
  match s.packet? id with
  | some (.heap (.read h r who)) => s.heapAt id (heapReadStep id h r who)
  | some (.heap (.pattern h left words launch who)) => s.heapAt id (patternStep id h left words launch who)
  | some (.heap (.ematch h ws launch dst who)) => s.heapAt id (ematchStep id h ws launch dst who)
  | _ => homeAccessStep id s

def execHomeAccess (id : Nat) (s : State) : Host.Outcome State Fault Refusal := .next (homeStep id s)

/-! ### Inserts (R196, R252, R253) -/

/-- The words 1 of an insert that found no room, or no such record. -/
def noneBoth : Nat := 0xFFFFFFFFFFFFFFFF

/-- Create node and class for a pair at its channel, tentatively indexed, and send the appends. -/
def State.createNode (s : State) (id h c hash : Nat) (w0 w1 : Word) (who : Asker) : State :=
  let x := s.heap h
  let rn := s.take h c x.nodePool
  let rk := rn.1.take h c x.classPool
  let m := mkId c rn.2; let k := mkId c rk.2
  let s := (((rk.1.setNode h m 0 8 (w0 ||| 0x40000).toNat).setNode h m 8 8 w1.toNat).setNode h m 16 4 hash).setNode h m 20 4 k
  let s := s.setNode h m 24 8 (noId * 2 ^ 32)
  let s := ((s.setClass h k 0 8 (2 ^ 64 - 1)).setClass h k 8 8 (2 ^ 64 - 1)).setClass h k 16 8 (noId * 2 ^ 32 + 1)
  let s := s.setClass h k 24 8 (m * 2 ^ 32 + m)
  let s := s.addIndex h c hash w0 w1 m k true
  let kids := pairKids w0 w1
  let s := s.heapNext id (.insert h m k w0 w1 c kids.length false false who)
  kids.foldl (fun s kid => s.sendHart c (.append h kid m id)) s

/-- The route of a thread's insert to the channel that owns its pair, which is known once the children have been replaced
(R193, R196). -/
def State.ownerFault (s : State) (who : Asker) (c : Nat) : Option Answer :=
  match who with
  | none => none
  | some (tid, _) =>
    match s.thread? tid with
    | none => none
    | some t =>
      let q := squareOf t.coreNow
      let ws := s.itinEntry q c
      let bad := (s.square q).badItin
      if bad.contains c then some (.fault 0x19 3 (BitVec.ofNat 64 c))
      else if contOf ws.1 && bad.contains (c + 1) then some (.fault 0x19 3 (BitVec.ofNat 64 (c + 1)))
      else match s.hwRoute (s.launchOf t) q c 0 false with
        | .error k => some (.fault 0x18 k (withClass 0 ws.1))
        | .ok _ => none

/-- EINS_LOOKUP: a child is replaced by its root, or the owning channel looks the node up and creates it; a
tentative equal record makes it wait. -/
def einsLookupStep (id : Nat) (s : State) : State :=
  match s.packet? id with
  | some (.heap (.einsLookup h stage w0 w1 who)) =>
    if stage < pairArity w0 then
      let kid := pairKid w0 w1 stage
      match s.findFault h kid with
      | some f => s.reply id who f
      | none =>
        let p := pairSet (w0, w1) stage (s.canon h kid)
        s.heapNext id (.einsLookup h (stage + 1) p.1 p.2 who)
    else
      let hash := pairHash w0 w1
      let c := hashChan hash
      let x := s.heap h
      match s.ownerFault who c with
      | some f => s.reply id who f
      | none =>
        match s.findKey h c hash w0 w1 with
        | some i =>
          if s.tentative h c i then s
          else s.heapNext id (.read h (.found (s.idxAt h c i 16 4) (s.idxAt h c i 28 4)) who)
        | none =>
          if s.poolHas h c x.nodePool && s.poolHas h c x.classPool && s.poolHas h c x.idxPool then
            s.createNode id h c hash w0 w1 who
          else s.replyWord id who noneBoth
  | _ => s

def execEinsLookup (id : Nat) (s : State) : Host.Outcome State Fault Refusal := .next (s.heapAt id (einsLookupStep id))

/-- A class is held by a splice. -/
def State.heldClass (s : State) (h x : Nat) : Bool := (s.heap h).spliceHold.contains x

/-- `AppendParent` at the channel of c (R252): 0 root, 1 notroot, 2 full. -/
def State.appendTo (s : State) (h c m : Nat) : State × Nat :=
  let x := s.heap h
  let ch := idChan c
  if s.linkOf h c != noId then (s, 1)
  else
    let q := s.pheadOf h c
    let count (q : Nat) : Nat := s.hget h (idChan q) (x.chunkOff (idLocal q)) 4 % 8
    let put (s : State) (q n : Nat) : State :=
      (s.hset h (idChan q) (x.chunkOff (idLocal q) + 8 + 4 * n) 4 m).hset h (idChan q) (x.chunkOff (idLocal q)) 4 (n + 1)
    if q = noId || idChan q != ch || count q = 6 then
      let top := s.headAt h ch 0x30 4
      if x.pcap ≤ top then (s, 2)
      else
        let s := s.setHead h ch 0x30 4 (top + 1)
        let q' := mkId ch top
        let s := (s.hset h ch (x.chunkOff top) 8 (q * 2 ^ 32)).setClass h c 0 4 q'
        (put s q' 0, 0)
    else (put s q (count q), 0)

/-- An append has met an uncorrectable atom: the thread of the insert takes the fault, and the insert, which has no asker any
more, is withdrawn (notes/assumptions/26). -/
def State.failAppend (s : State) (ins key : Nat) : State :=
  match s.packet? ins with
  | some (.heap (.insert h m k w0 w1 ch n nr _ who)) =>
    let t := match who with
      | some _ => s.reply ins who (.fault 0x19 1 (BitVec.ofNat 64 key))
      | none => s
    t.heapNext ins (.insert h m k w0 w1 ch (n - 1) nr true none)
  | _ => s

/-- APPEND_PARENT: its reply reaches the insert. -/
def appendStep (id : Nat) (s : State) : State :=
  match s.packet? id with
  | some (.heap (.append h c m ins)) =>
    if s.heldClass h c then s
    else match (s.heapKeys (.append h c m ins)).find? fun k => s.isBad k 32 with
    | some key => (s.dropPacket id).failAppend ins key
    | none =>
      let r := s.appendTo h c m
      let s := r.1.dropPacket id
      match s.packet? ins with
      | some (.heap (.insert h m k w0 w1 ch n nr fl who)) =>
        s.heapNext ins (.insert h m k w0 w1 ch (n - 1) (nr || r.2 == 1) (fl || r.2 == 2) who)
      | _ => s
  | _ => s

def execAppendParent (id : Nat) (s : State) : Host.Outcome State Fault Refusal := .next (s.heapAt id (appendStep id))

/-- The index record of a node in the bucket of a hash. -/
def State.recordOf (s : State) (h c hash node : Nat) : Option Nat := (s.bucket h c hash).find? fun i => s.idxAt h c i 16 4 == node

/-- INSERT_CONFIRM: every reply was `root`: the record of the node is no longer tentative, and the insert is complete. -/
def confirmStep (id : Nat) (s : State) : State :=
  match s.packet? id with
  | some (.heap (.insert h m k w0 w1 ch 0 false false who)) =>
    let s := match s.recordOf h ch (pairHash w0 w1) m with
      | some i => s.setIdx h ch i 24 4 0
      | none => s
    s.replyWord id who (m * 2 ^ 32 + k)
  | _ => s

def execInsertConfirm (id : Nat) (s : State) : Host.Outcome State Fault Refusal := .next (s.heapAt id (confirmStep id))

/-- INSERT_WITHDRAW: the records are given back; the insert starts again where a child was no root, else it returns
"none" (R253). Where a child was no root and another met no free chunk, it starts again (notes/assumptions/26). -/
def withdrawInsertStep (id : Nat) (s : State) : State :=
  match s.packet? id with
  | some (.heap (.insert h m k w0 w1 ch 0 nr fl who)) =>
    if !nr && !fl then s
    else
      let x := s.heap h
      let s := s.removeIndex h ch (pairHash w0 w1) m
      let s := ((s.setNode h m 0 8 0).setClass h k 16 4 0)
      let s := (s.giveBack h ch x.nodePool (idLocal m)).giveBack h ch x.classPool (idLocal k)
      if nr && who.isSome then s.heapNext id (.einsLookup h 0 w0 w1 who) else s.replyWord id who noneBoth
  | _ => s

def execInsertWithdraw (id : Nat) (s : State) : Host.Outcome State Fault Refusal := .next (s.heapAt id (withdrawInsertStep id))

/-! ### Merges (R198, R254) -/

/-- `Accept(l, w)` at l's channel: none while it waits for a splice or for the anchor's reply, else whether l was
still a root. -/
def State.acceptMerge (s : State) (h l w : Nat) : State × Option Bool :=
  let c := idChan l
  if s.heldClass h l then (s, none)
  else if s.linkOf h l != noId then (s, some false)
  else if !s.headBit h c 1 then
    (if s.clearing h c then s else (s.sendHart c (.clear h c)).refreshBusy h c, none)
  else
    let x := s.heap h
    let s := s.setClass h l 4 4 w
    let s := s.setHead h c 0x10 8 (s.headAt h c 0x10 8 + 1)
    let s := s.sendRepair h c (.best h w (BitVec.ofNat 64 (s.bestOf h l)) (s.bestNodeOf h l))
    let s := s.setClass h l 16 4 (s.classAt h l 16 4 % 2 + 2)
    let tail := s.headAt h c 0x18 4
    let s := s.hset h c (x.listOff tail) 4 (idLocal l)
    let tail' := (tail + 1) % x.classcap
    let s := s.setHead h c 0x18 4 tail'
    let s := if tail' = s.headAt h c 0x1C 4 then s.modHeap h fun x => { x with full := sadd x.full c } else s
    (s.refreshBusy h c, some true)

/-- ACCEPT: a find of `emrg`, or the acceptance of its merge (R198). -/
def acceptStep (id : Nat) (s : State) : State :=
  match s.packet? id with
  | some (.heap (.accept h stage x y who)) =>
    if stage = 0 then
      match s.findFault h x with
      | some f => s.reply id who f
      | none => s.heapNext id (.accept h 1 (s.canon h x) y who)
    else if stage = 1 then
      match s.findFault h y with
      | some f => s.reply id who f
      | none =>
        let y' := s.canon h y
        if x = y' then s.replyWord id who x else s.heapNext id (.accept h 2 x y' who)
    else
      let w := min x y
      let r := s.acceptMerge h (max x y) w
      match r.2 with
      | none => r.1
      | some true => r.1.replyWord id who w
      | some false => r.1.heapNext id (.accept h 0 x y who)
  | _ => s

def execAccept (id : Nat) (s : State) : Host.Outcome State Fault Refusal := .next (s.heapAt id (acceptStep id))

/-- The pair of a root takes a lower cost, or an equal cost with a lower node (R200). -/
def State.lowerBest (s : State) (h c : Nat) (cost : Word) (node : Nat) : State :=
  let old := s.bestOf h c
  if cost.toNat < old || (cost.toNat = old && node < s.bestNodeOf h c) then
    (s.setClass h c 8 8 cost.toNat).setClass h c 20 4 node
  else s

/-- BEST: applied at a root, else forwarded to it, which is a new repair message. -/
def bestStep (id : Nat) (s : State) : State :=
  match s.packet? id with
  | some (.heap (.best h c cost node)) =>
    let s := (s.dropPacket id).countRecv h (idChan c)
    if s.linkOf h c = noId then s.lowerBest h c cost node
    else s.sendRepair h (idChan c) (.best h (s.canon h c) cost node)
  | _ => s

def execBest (id : Nat) (s : State) : Host.Outcome State Fault Refusal := .next (s.heapAt id (bestStep id))

/-- ECOST_STEP (R200). The class and the node must name records (R193); both are looked up in the one step. -/
def ecostStepAt (id : Nat) (s : State) : State :=
  match s.packet? id with
  | some (.heap (.ecost h c node cost who)) =>
    match s.findFault h c with
    | some f => s.reply id who f
    | none =>
      if !s.nodeKnown h node then s.reply id who (.fault 0x22 5 (BitVec.ofNat 64 h))
      else
        let r := s.canon h c
        (s.lowerBest h r cost node).replyWord id who (s.bestOf h r)
  | _ => s

def execEcostStep (id : Nat) (s : State) : Host.Outcome State Fault Refusal := .next (s.heapAt id (ecostStepAt id))

/-! ### Repair (R255 to R257) -/

/-- The parent chunks from one on, and the last. -/
def State.chunks (s : State) (h : Nat) : Nat → Nat → List Nat
  | 0, _ => []
  | n + 1, q => if q = noId then [] else q :: s.chunks h n (s.hget h (idChan q) ((s.heap h).chunkOff (idLocal q) + 4) 4)

/-- The nodes a chunk names. -/
def State.chunkNodes (s : State) (h q : Nat) : List Nat :=
  let off := (s.heap h).chunkOff (idLocal q)
  (List.range (s.hget h (idChan q) off 4 % 8)).map fun e => s.hget h (idChan q) (off + 8 + 4 * e) 4

/-- The class that a channel repairs next. -/
def State.nextRepair (s : State) (h c : Nat) : Nat :=
  mkId c (s.hget h c ((s.heap h).listOff (s.headAt h c 0x1C 4)) 4)

/-- The atoms that a repair reads: the header, the worklist entry, the class and the links above it, and its chunks. -/
def State.repairKeys (s : State) (h c : Nat) : List Nat :=
  let x := s.heap h
  let l := s.nextRepair h c
  (s.headKeys h c ++ x.key c (x.listOff (s.headAt h c 0x1C 4)) :: s.canonKeys h (l + 1) l
    ++ (s.chunks h (256 * x.pcap) (s.pheadOf h l)).map fun q => x.key (idChan q) (x.chunkOff (idLocal q))).map
      fun k => k / 32 * 32

/-- REPAIR: the oldest worklist entry is repaired. -/
def repairStep (h c : Nat) (s : State) : State :=
  let x := s.heap h
  if s.listEmpty h c || x.state = 0 || s.clearing h c || !(s.repairKeys h c).all s.bankOpen then s
  else
    let l := s.nextRepair h c
    let s := s.heapReads x.asid (s.repairKeys h c)
    let head := s.headAt h c 0x1C 4
    let qs := s.chunks h (256 * x.pcap) (s.pheadOf h l)
    let s := (qs.flatMap (s.chunkNodes h)).foldl (fun s m => s.sendRepair h c (.rehash h m)) s
    let s := s.sendRepair h c
      (.splice h (s.canon h l) (s.pheadOf h l) (qs.getLast?.getD noId) (s.mheadOf h l) (s.mtailOf h l))
    let s := s.setClass h l 16 4 (s.classAt h l 16 4 % 2)
    let s := s.setHead h c 0x1C 4 ((head + 1) % x.classcap)
    (s.modHeap h fun x => { x with full := sdel x.full c }).refreshBusy h c

def execRepair (heap chan : Nat) (s : State) : Host.Outcome State Fault Refusal := .next (repairStep heap chan s)

/-- SPLICE: a root is held; the last records of the lists are joined to its own lists, one store a step, and only then do the
lists stand in front of its own, and it is released (R256). -/
def spliceStep (id : Nat) (s : State) : State :=
  match s.packet? id with
  | some (.heap (.splice h r ph pt mh mt)) =>
    if s.heldClass h r then s
    else
      let c := idChan r
      let x := s.heap h
      let s := (s.dropPacket id).countRecv h c
      if s.linkOf h r != noId then s.sendRepair h c (.splice h (s.canon h r) ph pt mh mt)
      else
        let at_ := s.classKey h r
        let tails := (if pt = noId then [] else [(x.key (idChan pt) (x.chunkOff (idLocal pt) + 4), s.pheadOf h r)])
          ++ [(x.key (idChan mt) (x.nodeOff (idLocal mt) + 28), s.mheadOf h r)]
        let heads := (if pt = noId then [] else [(at_, ph)]) ++ [(at_ + 28, mh)]
        let s := s.modHeap h fun x => { x with spliceHold := r :: x.spliceHold }
        (s.heapNext id (.spliceStore h r (tails ++ heads))).refreshBusy h c
  | some (.heap (.spliceStore h r left)) =>
    let heads := left.filter fun p => p.1 / 32 = s.classKey h r / 32
    if heads.length < left.length then
      match left with
      | (key, v) :: rest => (s.hartStore h key 4 v).heapNext id (.spliceStore h r rest)
      | [] => s
    else
      let s := heads.foldl (fun (s : State) p => s.hartStore h p.1 4 p.2) (s.dropPacket id)
      (s.modHeap h fun x => { x with spliceHold := x.spliceHold.erase r }).refreshBusy h (idChan r)
  | _ => s

def execSplice (id : Nat) (s : State) : Host.Outcome State Fault Refusal := .next (s.heapAt id (spliceStep id))

/-- The insert of a node is still to be confirmed or withdrawn. -/
def State.inserting (s : State) (h m : Nat) : Bool :=
  s.net.any fun p => match p.2 with
    | .heap (.insert h' m' _ _ _ _ _ _ _ _) => h' == h && m' == m
    | _ => false

/-- REHASH (R257). It waits while the node's insert is pending, so that repair never indexes or merges a class that is being
withdrawn (R253; notes/assumptions/26). -/
def rehashStep (id : Nat) (s : State) : State :=
  match s.packet? id with
  | some (.heap (.rehash h m)) =>
    if s.inserting h m then s else
    let c := idChan m
    let s := (s.dropPacket id).countRecv h c
    if !s.nodeUsed h m then s
    else
      let old := s.nodePair h m
      let n := s.canonPair h old
      if n = old then s
      else
        let hash := pairHash n.1 n.2
        let was := s.nodeAt h m 16 4
        let cls := s.nodeAt h m 20 4
        let s := ((s.setNode h m 0 8 (n.1 ||| 0x40000).toNat).setNode h m 8 8 n.2.toNat).setNode h m 16 4 hash
        let b := 2 ^ (s.heap h).bktlog
        let s := if hashChan was != hashChan hash || was % b != hash % b then
            s.sendRepair h c (.unindex h m (BitVec.ofNat 32 was)) else s
        s.sendRepair h c (.index h m n.1 n.2 (BitVec.ofNat 32 hash) cls false)
  | _ => s

def execRehash (id : Nat) (s : State) : Host.Outcome State Fault Refusal := .next (s.heapAt id (rehashStep id))

/-- UNINDEX (R257). -/
def unindexStep (id : Nat) (s : State) : State :=
  match s.packet? id with
  | some (.heap (.unindex h m hash)) =>
    let c := hashChan hash.toNat
    ((s.dropPacket id).countRecv h c).removeIndex h c hash.toNat m
  | _ => s

def execUnindex (id : Nat) (s : State) : Host.Outcome State Fault Refusal := .next (s.heapAt id (unindexStep id))

/-- INDEX (R257): it waits for a tentative record of its key, and is held where no index record is free. -/
def indexStep (id : Nat) (s : State) : State :=
  match s.packet? id with
  | some (.heap (.index h m w0 w1 hash cls held)) =>
    let c := hashChan hash.toNat
    let s := s.removeIndex h c hash.toNat m
    let received (s : State) : State := if held then s else s.countRecv h c
    match s.findKey h c hash.toNat w0 w1 with
    | some i =>
      if s.tentative h c i then s
      else
        let s := (received s).dropPacket id
        (s.sendRepair h c (.merge h 0 (s.idxAt h c i 28 4) cls)).refreshBusy h c
    | none =>
      if s.poolHas h c (s.heap h).idxPool then
        (((received s).dropPacket id).addIndex h c hash.toNat w0 w1 m cls false).refreshBusy h c
      else
        let s := ((received s).heapNext id (.index h m w0 w1 hash cls true)).refreshBusy h c
        if s.headBit h c 0 then s
        else (s.setHeadBit h c 0 true).report (c / 64)
          { cause := 0x46, core := c, detail := BitVec.ofNat 64 h, asid := (s.heap h).asid }
  | _ => s

def execIndex (id : Nat) (s : State) : Host.Outcome State Fault Refusal := .next (s.heapAt id (indexStep id))

/-- MERGE (R257): the loop of R198 in a mending hart, one find or the acceptance a step. -/
def mergeStep (id : Nat) (s : State) : State :=
  match s.packet? id with
  | some (.heap (.merge h stage x y)) =>
    let home := idChan x
    let done (s : State) : State := (s.dropPacket id).countRecv h home
    if stage = 0 then s.heapNext id (.merge h 1 (s.canon h x) y)
    else if stage = 1 then
      let y' := s.canon h y
      if x = y' then done s else s.heapNext id (.merge h 2 x y')
    else
      let r := s.acceptMerge h (max x y) (min x y)
      match r.2 with
      | none => r.1
      | some true => done r.1
      | some false => r.1.heapNext id (.merge h 0 x y)
  | _ => s

def execMerge (id : Nat) (s : State) : Host.Outcome State Fault Refusal := .next (s.heapAt id (mergeStep id))

/-- A packet asks for the acceptance of a merge whose loser lives at a channel. -/
def Body.accepts (b : Body) (h c : Nat) : Bool :=
  match b with
  | .heap (.accept h' 2 x y _) | .heap (.merge h' 2 x y) => h' == h && idChan (max x y) == c
  | _ => false

/-- CLEAR: the anchor clears `settled`, sets `veto` and replies; the channel notes the reply, and the acceptance that waited
for it is made in the same step (R254). -/
def clearStep (id : Nat) (s : State) : State :=
  match s.packet? id with
  | some (.heap (.clear h c)) =>
    let s := (((s.dropPacket id).setMailbox h false true).setHeadBit h c 1 true).refreshBusy h c
    match s.net.find? fun p => p.2.accepts h c with
    | some (k, .heap (.merge _ _ _ _)) => mergeStep k s
    | some (k, _) => acceptStep k s
    | none => s
  | _ => s

def execClear (id : Nat) (s : State) : Host.Outcome State Fault Refusal := .next (s.heapAt id (clearStep id))

/-! ### The settle wave (R258 to R260) -/

def WaveSum.zero : WaveSum := { s := 0, r := 0, a := 0, busy := false }

/-- What a wave adds up at a channel. -/
def State.waveAt (s : State) (h c : Nat) (t : WaveSum) : WaveSum :=
  { s := t.s + BitVec.ofNat 64 (s.headAt h c 0 8), r := t.r + BitVec.ofNat 64 (s.headAt h c 8 8),
    a := t.a + BitVec.ofNat 64 (s.headAt h c 0x10 8), busy := t.busy || s.headBit h c 2 }

/-- The declaration: `esettle` requests complete. -/
def State.declare (s : State) (h : Nat) : State :=
  let s := s.hset h (anchorOf h) 0x2C 4 (s.epoch h + 1)
  let s := s.setMailbox h true (s.vetoed h)
  let ws := (s.heap h).waiting
  let s := s.modHeap h fun x => { x with waiting := [] }
  ws.foldl (fun s p => s.answer p.2 p.1 (.vals [])) s

/-- SETTLE_WAVE: the leader starts a pair of waves, visits the next channel, or decides. -/
def waveStep (h : Nat) (s : State) : State :=
  let x := s.heap h
  if x.state = 0 || !s.bankOpen (s.mailKey h) then s
  else
    match x.wave with
    | none =>
      if s.settled h then s
      else (s.setMailbox h false false).modHeap h fun x => { x with
        wave := some { second := false, visited := 0, one := WaveSum.zero, two := WaveSum.zero } }
    | some w =>
      if w.visited < 256 then
        let c := (anchorOf h + w.visited) % 256
        let keys := s.headKeys h c
        if !keys.all s.bankOpen then s else
        let s := s.heapReads x.asid keys
        if w.second then
          let t := s.waveAt h c w.two
          (s.setHeadBit h c 1 false).modHeap h fun x => { x with wave := some { w with visited := w.visited + 1, two := t } }
        else
          let t := s.waveAt h c w.one
          s.modHeap h fun x => { x with wave := some { w with visited := w.visited + 1, one := t } }
      else if !w.second then s.modHeap h fun x => { x with wave := some { w with second := true, visited := 0 } }
      else
        let quiet := !s.vetoed h && !w.one.busy && !w.two.busy && w.one.s == w.one.r && w.one.r == w.two.s
          && w.two.s == w.two.r && w.one.a == w.two.a
        let s := s.modHeap h fun x => { x with wave := none }
        if quiet then s.declare h else s

def execSettleWave (heap : Nat) (s : State) : Host.Outcome State Fault Refusal := .next (waveStep heap s)

/-- ESETTLE_AT_ANCHOR (R260). -/
def esettleStep (id : Nat) (s : State) : State :=
  match s.packet? id with
  | some (.heap (.esettle h who)) =>
    if s.settled h then s.reply id who (.vals [])
    else
      let s := s.dropPacket id
      match who with
      | some p => s.modHeap h fun x => { x with waiting := x.waiting ++ [p] }
      | none => s
  | _ => s

def execEsettleAtAnchor (id : Nat) (s : State) : Host.Outcome State Fault Refusal := .next (s.heapAt id (esettleStep id))

/-! ### Match harts (R203, R204, R263, R264) -/

/-- Pattern node i of a record: its two words. -/
def patNode (ws : List Word) (i : Nat) : Word × Word := (ws.getD (4 + 2 * i) 0, ws.getD (5 + 2 * i) 0)

/-- A node record matches a pattern node by operator, arity and payload. -/
def patFits (p n : Word × Word) : Bool :=
  bits p.1 0 16 = bits n.1 0 16 && patArity p.1 = pairArity n.1 && (!p.1.getLsbD 18 || p.2 == n.2)

/-- The goals of a matched node's children. -/
def kidGoals (p n : Word × Word) : List Goal :=
  (List.range (patArity p.1)).map fun k => .child (patRef p.1 k) (pairKid n.1 n.2 k)

/-- A hart sends a message of its job. -/
def State.matchSend (s : State) (c : Nat) (l : Launch) (x : Job) (tag : BitVec 4) (payload : List Word) : State :=
  let dst := l.coreOf x.dst
  let route := s.hartRoute l.wards c (256 + l.squareIdx dst)
  let m : Msg := { src := channelBase + c, dst := dst, route := route, score := c, sslot := 14,
                   npay := payload.length, tag := tag, handler := x.words.getD 0 0, payload := payload,
                   launch := x.launch, tid := none }
  (s.inject (.msg m)).sendOn s.nextId (channelBase + c) 2 route

/-- The payload of a binding. -/
def bindingWords (j : Half32) (b : Search) : List Word :=
  let v (k : Nat) : Nat := ((b.vars.getD k none).getD noId)
  let w (hi lo : Nat) : Word := BitVec.ofNat 64 (hi * 2 ^ 32 + lo)
  [w j.toNat b.top, w (v 1) (v 0), w (v 3) (v 2)]

/-- One load of a partial match: the partial matches it leaves. A variable that is referenced again is canonicalised as the
new reference is, so that a merge between the two reads loses no match. -/
def State.matchGoal (s : State) (h : Nat) (ws : List Word) (b : Search) : List Search :=
  match b.goals with
  | [] => []
  | .child ref c :: rest =>
    let r := s.canon h c
    if 128 ≤ ref then
      match b.vars.getD (ref - 128) none with
      | some k => if s.canon h k = r then [{ b with goals := rest }] else []
      | none => [{ b with vars := b.vars.set (ref - 128) (some r), goals := rest }]
    else [{ b with goals := .members ref (s.mheadOf h r) :: rest }]
  | .members j m :: rest =>
    if m = noId then []
    else
      let p := patNode ws j; let n := s.nodePair h m
      let more : Search := { b with goals := .members j (s.nodeAt h m 28 4) :: rest }
      if s.nodeUsed h m && patFits p n then [{ b with goals := kidGoals p n ++ rest }, more] else [more]

/-- A match hart scans its next node, goes on with a partial match, or ends its job. -/
def State.matchStep (s : State) (h c : Nat) (l : Launch) (x : Job) : State × Option Job :=
  match x.front with
  | b :: rest =>
    if b.goals.isEmpty then
      (s.matchSend c l x ((x.words.getD 1 0).extractLsb' 16 4) (bindingWords x.j b),
       some { x with front := rest, sent := x.sent + 1 })
    else (s, some { x with front := s.matchGoal h x.words b ++ rest })
  | [] =>
    if x.next < s.headAt h c 0x24 4 then
      let m := mkId c x.next
      let p := patNode x.words 0; let n := s.nodePair h m
      let start : List Search := if s.nodeUsed h m && patFits p n then
          [{ top := s.canon h (s.nodeAt h m 20 4), vars := [none, none, none, none], goals := kidGoals p n }] else []
      (s, some { x with next := x.next + 1, front := start })
    else
      let w := BitVec.ofNat 64 (x.j.toNat * 2 ^ 32 + x.sent)
      (s.matchSend c l x ((x.words.getD 1 0).extractLsb' 20 4) [w], none)

/-- The atoms that a match hart's next load reads. -/
def State.jobKeys (s : State) (h c : Nat) (x : Job) : List Nat :=
  (match x.front with
  | b :: _ =>
    (match b.goals with
      | .child _ k :: _ => s.findKeys h k
      | .members _ m :: _ => if m = noId then [] else [s.nodeKey h m]
      | [] => [])
  | [] => s.headKeys h c ++ if x.next < s.headAt h c 0x24 4 then [s.nodeKey h (mkId c x.next)] else []).map
    fun k => k / 32 * 32

/-- The classes on a channel's worklist. -/
def State.worklist (s : State) (h c : Nat) : List Nat :=
  let x := s.heap h
  let head := s.headAt h c 0x1C 4; let tail := s.headAt h c 0x18 4
  let n := if x.full.contains c then x.classcap else (tail + x.classcap - head) % x.classcap
  (List.range n).map fun i => mkId c (s.hget h c (x.listOff ((head + i) % x.classcap)) 4)

/-- A class merged into a root is still to be joined to its lists: it waits for its repair, or its SPLICE is not done. -/
def State.joining (s : State) (h r : Nat) : Bool :=
  (s.net.any fun p => match p.2 with
    | .heap (.splice h' r' _ _ _ _) => h' == h && s.canon h r' == r
    | .heap (.spliceStore h' r' _) => h' == h && r' == r
    | _ => false)
  || (List.range 256).any fun c => (s.worklist h c).any fun l => s.canon h l == r

/-- A match hart reads the members of a root only when every class merged into it has been joined to its list, so that no match
of a heap settled at the issue is lost (R263; notes/assumptions/14). -/
def State.jobWaits (s : State) (h : Nat) (x : Job) : Bool :=
  match x.front with
  | { goals := .child ref c :: _, .. } :: _ => ref < 128 && s.joining h (s.canon h c)
  | _ => false

/-- MATCH_SCAN: the first job of a channel's hart makes one load, or sends one message; a job whose launch has ended
is abandoned (R264). -/
def matchScanStep (h c : Nat) (s : State) : State :=
  match (s.heap h).jobs.toList.getD c [] with
  | [] => s
  | x :: rest =>
    let set (s : State) (js : List Job) : State := s.modHeap h fun y =>
      if i : c < 256 then { y with jobs := y.jobs.set c js i } else y
    match s.launch? x.launch with
    | none => set s rest
    | some l =>
      let keys := s.jobKeys h c x
      if !keys.all s.bankOpen || s.jobWaits h x then s else
      let r := (s.heapReads (s.heap h).asid keys).matchStep h c l x
      match r.2 with
      | some y => set r.1 (y :: rest)
      | none => set r.1 rest

def execMatchScan (heap chan : Nat) (s : State) : Host.Outcome State Fault Refusal := .next (matchScanStep heap chan s)

end Sys2Proof.Machine
end

