-- ==== Sys2Proof/Machine/Message.lean ====
section
/-!
DEFINITION. Active messages (R53 to R56, R136, R137), migrations that arrive (R57), records held in links
(R286), and lane-port words that arrive (R61).
-/

namespace Sys2Proof.Machine

/-! ### `send` (R136) -/

/-- Values of n registers from a field on. -/
def State.group (s : State) (b : Reg) (n : Nat) : List Word :=
  (List.range n).map fun k => s.ctx.pre.getG (gNum b + BitVec.ofNat 5 k)

/-- The message of a `send`: it takes a store-queue entry, which no load overlaps. -/
def sendEffect (d a b : Reg) (npay : BitVec 3) (tag : BitVec 4) (s : State) : State :=
  let w := s.src d
  let ws := s.sendWords w
  let w1 := if contOf ws.1 then ws.2 else 0
  let l := s.myLaunch
  match s.streets.route { cls := 2, inDistrict := l.hasSquare, amo := false, send := true } ws.1 w1
      (squareOf s.ctx.core) with
  | .error _ => s
  | .ok q =>
    let dst := coreAt q (bits w 10 4)
    let m : Msg := { src := s.ctx.core, dst := dst, route := (ws.1, w1), score := l.coreIdx s.ctx.core,
                     sslot := s.ctx.slot, npay := npay.toNat, tag := tag, handler := s.src a,
                     payload := s.group b npay.toNat, launch := s.me.launch, tid := some s.ctx.tid }
    let e : SqEntry := { core := s.ctx.core, slot := s.ctx.slot, tid := s.ctx.tid, home := dst, key := 0, size := 0,
                         fills := false, pc := s.ctx.pc, addr := s.src a, state := .inFlight }
    ({ (s.inject (.msg m)) with sq := tput s.sq s.nextId e } : State).sendOn s.nextId s.ctx.core 2 (ws.1, w1)

def execSend (d a b : Reg) (npay : BitVec 3) (tag : BitVec 4) (s : State) : Host.Outcome State Fault Refusal :=
  issue .lone (.send d a b npay tag) (sendEffect d a b npay tag) s

/-! ### Arrival (R53, R56) -/

/-- A message takes the porter, a free slot where `anyslot` lets it, or a ring record; none where it must be
held in the link. It passes no message that waits in the ring, and no access that waits for the porter (R56, R57, R269). -/
def State.msgEnter (s : State) (id : Nat) (m : Msg) : Option State :=
  match s.launch? m.launch with
  | none => some (s.refuse id m)
  | some l =>
    if l.suspended then some (s.refuse id m)
    else
      let c := m.dst
      let x := s.core c
      let slot := if l.closing || x.ringHas 1 then none
        else if (x.slot 15).isFree && !s.porterWaiting c && !s.porterKept c then some 15
        else if l.anyslot then x.freeSlot 15 else none
      let taken (s : State) : State := { s.dropPacket id with sq := tdel s.sq id }
      match slot with
      | some n => some (((taken s).signal c).startHandler m.launch c n m.handler m.payload (senderWord m))
      | none =>
        let len := msgLen m.npay
        if l.ringSize < len then some (s.refuse id m)
        else
          match x.ringFit l.ringSize len with
          | none => none
          | some (skip, off) =>
            let ws := [ringHeader (len / 16) m.score m.npay m.sslot m.tag.toNat 1, m.handler] ++ m.payload
            let s := s.writeSkip c x skip
            let s := { s with mem := writeWords s.mem (s.ringKey c off) ws }
            let r : RingRec := { off := 0, len := len, kind := 1, tid := none, amo := none, launch := m.launch }
            some ((taken (s.modCore c fun x => x.ringPut l.ringSize r)).signal c)

/-- MESSAGE_ARRIVE (R53): in the order of its itinerary (R233); behind held records a message is held too. -/
def messageStep (id : Nat) (s : State) : State :=
  match s.packet? id with
  | some (.msg m) =>
    if !s.carried id || (s.core m.dst).held.any (fun q => q.1 == id) then s
    else if !(s.core m.dst).held.isEmpty then s.holdRecord m.dst id
    else match s.msgEnter id m with
      | some s' => s'
      | none => s.holdRecord m.dst id
  | _ => s

def execMessageArrive (id : Nat) (s : State) : Host.Outcome State Fault Refusal := .next (messageStep id s)

/-! ### Migrations (R57) -/

/-- A thread that migrates takes its home slot, a free slot, or a ring record; its record names the slot it has left
(R55). -/
def State.migrEnter (s : State) (id tid dst src sslot : Nat) : Option State :=
  match s.thread? tid with
  | none => some (s.dropPacket id)
  | some t =>
    if t.homeCore = dst then some ((((s.dropPacket id).placeHome tid t).pay tid).modThread tid Thread.landed)
    else
      let x := s.core dst
      match (if x.ringHas 2 then none else x.freeSlot 15) with
      | some n => some (((((s.dropPacket id).signal dst).place tid dst n).pay tid).modThread tid Thread.landed)
      | none =>
        let len := migrLen t.gregs
        let size := s.ringSize dst
        match x.ringFit size len with
        | none => none
        | some (skip, off) =>
          let ws := ringHeader (len / 16) ((s.launchOf t).coreIdx src) 0 sslot 0 2 :: migrRecord t
          let s := s.writeSkip dst x skip
          let s := { s with mem := writeWords s.mem (s.ringKey dst off) ws }
          let r : RingRec := { off := 0, len := len, kind := 2, tid := some tid, amo := none, launch := t.launch }
          let s := (s.dropPacket id).modCore dst fun x => x.ringPut size r
          some ((s.modThread tid fun t => { t with place := .ring dst }).signal dst)

/-- MIGRATION_ARRIVE (R57): a thread that comes home never enters the ring (R276). -/
def migrationStep (id : Nat) (s : State) : State :=
  match s.packet? id with
  | some (.migr tid dst src _ sslot) =>
    let home := match s.thread? tid with | some t => t.homeCore == dst | none => true
    if !s.carried id || (s.core dst).held.any (fun q => q.1 == id) then s
    else if !home && !(s.core dst).held.isEmpty then s.holdRecord dst id
    else match s.migrEnter id tid dst src sslot with
      | some s' => s'
      | none => s.holdRecord dst id
  | _ => s

def execMigrationArrive (id : Nat) (s : State) : Host.Outcome State Fault Refusal := .next (migrationStep id s)

/-! ### Held records (R56, R286) -/

/-- A held record leaves its link where it fits now. -/
def State.enterHeld (s : State) (id : Nat) : Option State :=
  match s.packet? id with
  | some (.msg m) => s.msgEnter id m
  | some (.migr tid dst src _ sslot) => s.migrEnter id tid dst src sslot
  | some (.amo a) => s.amoEnter id a
  | _ => some s

/-- HELD_RECORD_ENTER: the record held longest in the link enters. -/
def heldStep (core : Nat) (s : State) : State :=
  match (s.core core).held with
  | [] => s
  | (id, _) :: rest =>
    match s.enterHeld id with
    | none => s
    | some s' => s'.modCore core fun x => { x with held := rest, stallTries := tdel x.stallTries id }

def execHeldRecordEnter (core : Nat) (s : State) : Host.Outcome State Fault Refusal := .next (heldStep core s)

/-- The core that sent a held record, as a report gives it. -/
def State.heldSender (s : State) (l : Launch) (id : Nat) : Nat :=
  match s.packet? id with
  | some (.msg m) => m.score
  | some (.migr _ _ src _ _) => l.coreIdx src
  | some (.amo a) => l.coreIdx a.core
  | _ => 0

/-- The stall timer of a held record starts again, and its retries are counted (R286). -/
def Core.restartStall (c : Core) (id now tries : Nat) : Core :=
  { c with held := c.held.map fun h => if h.1 = id then (id, now) else h, stallTries := tput c.stallTries id tries }

/-- The levels a core's ring stall is offered to, with the core's unit of each. -/
def Launch.coreLevels (l : Launch) (idx : Nat) : List (Nat × Level × Nat) :=
  ((List.range l.levels.length).zip l.levels).filterMap fun p =>
    if 1 ≤ p.2.domain then some (p.1, p.2, unitAt l p.2 idx 0) else none

/-- The unit of a level ends on a ring stall: the records held at every core of it are refused. -/
def State.refuseUnit (s : State) (l : Launch) (v : Level) (u : Nat) : State :=
  ((List.range l.cores).filter fun c => unitAt l v c 0 == u).foldl (fun (s : State) c => s.refuseHeld (l.coreOf c)) s

/-- RING_STALL (R286): a record held longer than `stall` raises the fault at its core. -/
def ringStallStep (core : Nat) (s : State) : State :=
  match s.launchOn core with
  | none => s
  | some (lid, l) =>
    match (s.core core).held.find? fun h => h.2 + 1024 * l.stall < s.clock with
    | none => s
    | some (id, _) =>
      let idx := l.coreIdx core
      let ls := l.coreLevels idx
      if ls.any fun p => l.stallOff.contains (p.1, p.2.2) then s
      else
        let tries := (tget (s.core core).stallTries id).getD 0
        let rep (outcome level : Nat) : Report :=
          { outcome := outcome, level := level, core := idx, half := .none, cause := 0x2A,
            detail := BitVec.ofNat 64 (s.heldSender l id), asid := l.asid }
        match absorber tries (ls.map fun p => (p.1, p.2.1)) with
        | some (n, v) =>
          let u := unitAt l v idx 0
          if v.policy = 0 then
            ((s.report (dieOf core) (rep 0 n)).modLaunch lid fun l => { l with stallOff := (n, u) :: l.stallOff }).modCore core
              fun c => c.restartStall id s.clock tries
          else if v.policy = 1 then
            (s.report (dieOf core) (rep 1 n)).modCore core fun c => c.restartStall id s.clock (tries + 1)
          else ((s.report (dieOf core) (rep 2 n)).endUnit lid l v u).refuseUnit l v u
        | none => (s.report (dieOf core) (rep 3 (l.levels.length - 1))).endLaunch lid 1

def execRingStall (core : Nat) (s : State) : Host.Outcome State Fault Refusal := .next (ringStallStep core s)

/-! ### Lane ports (R61) -/

/-- LANE_WORD_ARRIVE: the oldest word on the link from a direction reaches the port. -/
def laneWordStep (core : Nat) (dir : BitVec 2) (s : State) : State :=
  let x := s.core core
  match x.flying[dir.toNat]'dir.isLt with
  | [] => s
  | w :: rest =>
    s.setCore core { x with
      flying := x.flying.set dir.toNat rest dir.isLt,
      ports := x.ports.set dir.toNat (x.ports[dir.toNat]'dir.isLt ++ [w]) dir.isLt }

def execLaneWordArrive (core : Nat) (dir : BitVec 2) (s : State) : Host.Outcome State Fault Refusal :=
  .next (laneWordStep core dir s)

end Sys2Proof.Machine
end

