-- ==== Sys2Proof/Machine/Spill.lean ====
section
/-!
DEFINITION. The slot arbiter (R275), the spill engine with its withdrawals (R279, R280, R283), and how an evicted
context becomes ready (R281, R282). The run-queue records stand in pages of the service core's own; the state
holds what they hold.
-/

namespace Sys2Proof.Machine

/-! ### The arbiter (R275) -/

/-- Slots whose `OWNQ` is q. -/
def Core.heldBy (c : Core) (q : Nat) : Nat := ((List.range 15).filter fun n => (c.slot n).ownq.toNat == q).length

/-- A waiting context of queue q: an evicted thread that is ready to run again (R275, R282). That of the porter belongs to no
queue. -/
def Core.waitsFor (c : Core) (q : Nat) : Bool := c.runq.any fun r => r.ready && r.slot != 15 && r.ownq.toNat == q

def Core.weight (c : Core) (q : Nat) : Nat := (c.weights.toList.getD q 0).toNat

def Core.activeQueue (c : Core) (q : Nat) : Bool := c.weight q != 0 && (c.heldBy q != 0 || c.waitsFor q)

/-- The queue of a list with the greatest value, the first among equals. -/
def bestQueue (f : Nat → Int) : List Nat → Option Nat
  | [] => none
  | q :: r =>
    match bestQueue f r with
    | some p => if f q < f p then some p else some q
    | none => some q

/-- Entitlements: the floors, then one slot each by falling fraction, ties to the lower queue (R275 step 1). -/
def Core.entitlement (c : Core) (q : Nat) : Nat :=
  let act := (List.range 16).filter c.activeQueue
  let w := (act.map c.weight).sum
  if !act.contains q then 0
  else
    let rest := 15 - (act.map fun p => 15 * c.weight p / w).sum
    let frac (p : Nat) : Nat := 15 * c.weight p % w
    let ahead := (act.filter fun p => frac q < frac p || (frac p = frac q && p < q)).length
    15 * c.weight q / w + if ahead < rest then 1 else 0

/-- The deficit of a queue, with the entitlements of the boundary. -/
def Core.deficit (c : Core) (ents : List Nat) (q : Nat) : Int := (ents.getD q 0 : Int) - (c.heldBy q : Int)

/-- The queue a free slot goes to: the largest positive deficit with a waiting context (R275 step 2). -/
def Core.needy (c : Core) (ents : List Nat) : Option Nat :=
  bestQueue (c.deficit ents) ((List.range 16).filter fun q =>
    c.activeQueue q && decide (0 < c.deficit ents q) && c.waitsFor q)

/-- Step 2: each free slot in rising number. -/
def State.giveSlots (s : State) (core : Nat) (ents : List Nat) : State :=
  (List.range 15).foldl (fun s n =>
    let c := s.core core
    if !(c.slot n).isFree then s
    else
      match c.needy ents with
      | some q => (s.modSlot core n fun x => { x with ownq := BitVec.ofNat 4 q }).takeWork core n
      | none => s) s

/-- A thread that share pre-emption may pick in a slot: its own one, or one away from home, and no handler. -/
def State.shareVictim (s : State) (core n : Nat) : Option Nat :=
  let x := s.slot core n
  match (match x.tid with | some t => some t | none => x.reserved) with
  | none => none
  | some t =>
    match s.thread? t with
    | some th => if !th.hand && th.homeCore = core && th.homeSlot = n then some t else none
    | none => none

/-- Step 3: one eviction for the largest deficit, from the largest surplus. -/
def State.preempt (s : State) (core : Nat) (ents : List Nat) : State :=
  let c := s.core core
  match c.needy ents with
  | none => s
  | some q =>
    if c.spill.isSome || 64 ≤ c.runq.length then s
    else
      let rich := ((List.range 16).filter fun p => decide (c.deficit ents p < 0)).reverse
      match bestQueue (fun p => -(c.deficit ents p)) rich with
      | none => s
      | some p =>
        match ((List.range 15).reverse.filter fun n => (c.slot n).ownq.toNat == p).find? fun n =>
            (s.shareVictim core n).isSome with
        | none => s
        | some n =>
          let job : SpillJob := { slot := n, tid := (s.shareVictim core n).getD 0, cause := 0,
                                  toQueue := some (BitVec.ofNat 4 q), asked := [], held := [] }
          s.modCore core fun c => { c with spill := some job }

/-- ARBITER_BOUNDARY: the work of one core at a rotation boundary. -/
def arbiterStep (core : Nat) (s : State) : State :=
  if s.clock % 1024 != 0 || s.closingOn core then s
  else
    let c := s.core core
    let ents := (List.range 16).map c.entitlement
    (s.giveSlots core ents).preempt core ents

def execArbiterBoundary (core : Nat) (s : State) : Host.Outcome State Fault Refusal := .next (arbiterStep core s)

/-! ### Withdrawals (R283) -/

/-- Accesses of a thread that wait at their homes and that an eviction withdraws; a `sync` that waits for its word is
withdrawn like them (notes/assumptions/44). -/
def State.withdrawable (s : State) (tid : Nat) : List Nat :=
  (s.waits.filter fun p =>
    match p.2 with
    | .access a => a.tid == tid && (match a.kind with
      | .load f => f != .plain
      | .store .fillEmpty => true
      | _ => false)
    | .amo a => a.tid == tid
    | .frame r => r.tid == tid
    | _ => false).map Prod.fst

/-- A withdraw request of a core is under way. -/
def State.withdrawing (s : State) (core : Nat) : Bool :=
  s.net.any fun p => match p.2 with
    | .withdraw _ c _ => c == core
    | _ => false

/-- What an access becomes when it is held: unperformed, and an `amo` at its start. -/
def Body.heldForm (b : Body) : Body :=
  match b with
  | .access a | .refusedAccess a => .access a
  | .amo a | .refusedAmo a => .amo { a with path := if a.path.trip then .flying else a.path }
  | .frame r => .refusedFrame r
  | b => b

/-- WITHDRAW: the home removes the access from its waiting table and answers; one that has been performed meanwhile
stays so. -/
def withdrawStep (id : Nat) (s : State) : State :=
  match s.packet? id with
  | some (.withdraw target core _) =>
    if !s.carried id then s else
    let s := s.dropPacket id
    match s.waits.find? fun p => p.1 == target with
    | none => s
    | some (_, b) =>
      let s := { s with waits := s.waits.filter fun p => p.1 != target }
      let s := s.modCore core fun c => { c with spill := c.spill.map fun j => { j with
        held := j.held ++ [(target, b.heldForm)] } }
      match b with
      | .access a => s.tellRoom (homeOf a.key)
      | .frame r => s.tellRoom (homeOf r.key)
      | .amo a =>
        let s := s.tellRoom (homeOf a.key)
        (match a.path with
          | .slot c n => s.freeSlot c n
          | _ => s)
      | _ => s
  | _ => s

def execWithdraw (id : Nat) (s : State) : Host.Outcome State Fault Refusal := .next (withdrawStep id s)

/-! ### Eviction (R279, R280, R283) -/

/-- The home of an access or `amo`. -/
def Body.home (b : Body) : Nat :=
  match b with
  | .access a | .refusedAccess a => homeOf a.key
  | .amo a | .refusedAmo a => homeOf a.key
  | .frame r | .refusedFrame r => homeOf r.key
  | _ => 0

/-- A packet of a thread's own accesses: refused, or not. -/
def Body.ownedBy (b : Body) (tid : Nat) : Option Bool :=
  match b with
  | .access a => if a.tid = tid then some false else none
  | .amo a => if a.tid = tid then some false else none
  | .refusedAccess a => if a.tid = tid then some true else none
  | .refusedAmo a => if a.tid = tid then some true else none
  | .refusedFrame r => if r.tid = tid then some true else none
  | _ => none

/-- Put a numbered packet into a list by its number. -/
def insertHeld (h : Nat × Body) : List (Nat × Body) → List (Nat × Body)
  | [] => [h]
  | x :: r => if h.1 < x.1 then h :: x :: r else x :: insertHeld h r

/-- The accesses an eviction takes with its thread, in issue order: withdrawn, refused, and those of the slot that
are held at the source behind one of them. -/
def State.takenBy (s : State) (j : SpillJob) : List (Nat × Body) :=
  let refused := s.net.filter fun p => p.2.ownedBy j.tid == some true
  let first := j.held ++ refused
  let behind := s.net.filter fun p => p.2.ownedBy j.tid == some false
    && first.any fun q => q.1 < p.1 && q.2.home == p.2.home
  ((refused ++ behind).map fun p => (p.1, p.2.heldForm)).foldl (fun l h => insertHeld h l) j.held

/-- Everything that R220 names has ended, but for the accesses the eviction takes. -/
def State.evictReady (s : State) (core : Nat) (j : SpillJob) (t : Thread) : Bool :=
  let took := (s.takenBy j).map Prod.fst
  let waitOk := match t.wait with
    | some (.reply id) => took.contains id
    | some (.matrix _) | some (.itin _) => false
    | _ => true
  let placeOk := match t.place with
    | .slot c n => (c = core && n = t.homeSlot) || !took.isEmpty
    | .flying id => took.contains id
    | .ring _ => true
    | _ => false
  placeOk && waitOk && (match t.outst with | some (id, _) => took.contains id | none => true)
    && (s.sq.all fun p => p.2.tid != j.tid || !p.2.inFlight || took.contains p.1)
    && !s.commandsOf core j.tid && !s.withdrawing core && (s.withdrawable j.tid).isEmpty

/-- A thread that leaves its slot as a context: a condition it parks on is parked on again (R283). -/
def Thread.asContext (t : Thread) (core : Nat) : Thread :=
  { t with place := .context core, bank := none, wait := match t.wait with | some (.cond _) => none | w => w }

/-- The eviction is complete: the record joins the run queue, and the freed slot takes work. The porter belongs to no queue: a
handler that is evicted from it waits for slot 15, in the record under the slot's own `OWNQ` (notes/assumptions/24). -/
def State.evict (s : State) (core : Nat) (j : SpillJob) (t : Thread) : State :=
  let took := s.takenBy j
  let ids := took.map Prod.fst
  let home := match took.find? fun p => s.net.any fun q => q.1 == p.1 && q.2.ownedBy j.tid == some true with
    | some p => p.2.home
    | none => 0
  let left := (s.sq.filter fun p => !ids.contains p.1).map fun (p : Nat × SqEntry) =>
    if p.2.tid = j.tid then (p.1, { p.2 with core := core, slot := 16 }) else p
  let s := { s with net := s.net.filter (fun p => !ids.contains p.1), sq := left }
  let record : RunRec :=
    { tid := j.tid, ownq := (s.slot core t.homeSlot).ownq, cause := j.cause, ready := j.cause == 0,
      readyAt := if j.cause = 1 then some (s.clock + 4096) else none, slot := t.homeSlot, home := home, held := took }
  let s := s.modThread j.tid fun t => t.asContext core
  let s := match t.place with
    | .slot c n => if c = core && n = t.homeSlot then s else s.freeSlot c n
    | .ring c => s.cutRing c fun r => r.tid == some j.tid
    | _ => s
  let s := (s.modCore core fun c => { c with runq := c.runq ++ [record], spill := none }).modSlot core t.homeSlot
    fun x => { x with tid := none, reserved := none, resendAt := none, ownq := j.toQueue.getD x.ownq }
  let s := if j.cause = 1 then { s with roomAsk := s.roomAsk ++ [(home, core)] }.tellRoom home else s
  s.takeWork core t.homeSlot

/-- A thread away from home that holds no access goes home at its next boundary, as for a trap (R283, R50). -/
def State.evictHome (s : State) (j : SpillJob) (t : Thread) : State :=
  let l := s.launchOf t
  match t.place with
  | .slot c n =>
    let boundary := t.outst.isNone && t.trapped.isNone && (match t.wait with
      | none => true
      | some (.cond _) => true
      | _ => false)
    if !boundary || !s.drained c n then s
    else
      match s.hwRoute l (squareOf c) (256 + l.squareIdx t.homeCore) 2 false with
      | .ok _ => if s.hold.contains (dieOf c) then s else s.depart j.tid t.homeCore
      | .error q =>
        let ws := s.itinEntry (squareOf c) (256 + l.squareIdx t.homeCore)
        s.raise j.tid { cause := 0x18, qual := q, pc := t.pc, detail := withClass 2 ws.1 }
  | _ => s

/-- The engine asks the homes for the accesses that wait there. -/
def State.askWithdraws (s : State) (core : Nat) (j : SpillJob) : State :=
  let new := (s.withdrawable j.tid).filter fun id => !j.asked.contains id
  let s := s.modCore core fun c => { c with spill := some { j with asked := j.asked ++ new } }
  new.foldl (fun (s : State) id =>
    let home := match s.waits.find? fun p => p.1 == id with
      | some p => p.2.home
      | none => core
    (s.inject (.withdraw id core j.slot)).sendTo s.nextId (s.routing j.tid core) core home 0) s

/-- A job goes on: withdrawals, the way home, the end. -/
def State.evictStep (s : State) (core : Nat) (j : SpillJob) : State :=
  match s.thread? j.tid with
  | none => s.modCore core fun c => { c with spill := none }
  | some t =>
    let new := (s.withdrawable j.tid).any fun id => !j.asked.contains id
    if j.cause != 1 && new then s.askWithdraws core j
    else if s.evictReady core j t then s.evict core j t
    else
      match t.place with
      | .slot c n => if c = core && n = t.homeSlot then s else s.evictHome j t
      | _ => s

/-- A refused access whose thread is gone is sent again. -/
def State.resendRefused (s : State) (mine : Body → Bool) : State :=
  { s with net := s.net.map fun p => if mine p.2 then (p.1, match p.2 with
      | .refusedAccess a => .access a
      | .refusedAmo a => .amo a
      | .refusedFrame r => .frame r
      | b => b) else p }

/-- The thread of a refused packet. -/
def Body.refusedTid (b : Body) : Option Nat :=
  match b with
  | .refusedAccess a => some a.tid
  | .refusedAmo a => some a.tid
  | .refusedFrame r => some r.tid
  | _ => none

/-- A thread of a launch that is being suspended, still to be evicted from a core (R284). -/
def State.toSuspend (s : State) (core : Nat) : Option Nat :=
  (s.threads.find? fun p => p.2.homeCore == core && (s.launchOf p.2).closing
    && (match p.2.place with
      | .slot _ _ | .flying _ | .ring _ => true
      | _ => false)).map Prod.fst

/-- A thread of a core whose access has been refused, and that is not waiting to send it again. -/
def State.toRefuse (s : State) (core : Nat) : Option (Nat × Thread) :=
  s.threads.find? fun p => p.2.homeCore == core && (s.slot core p.2.homeSlot).resendAt.isNone
    && s.net.any fun q => q.2.refusedTid == some p.1

/-- SPILL_ENGINE_EVICT: the engine takes up its next eviction, or goes on with it. -/
def spillStep (core : Nat) (s : State) : State :=
  let gone (b : Body) : Bool := match b.refusedTid with
    | some t => (s.thread? t).isNone
    | none => false
  let s := s.resendRefused gone
  let start (tid slot cause : Nat) : State := s.modCore core fun c => { c with
    spill := some { slot := slot, tid := tid, cause := cause, toQueue := none, asked := [], held := [] } }
  match (s.core core).spill with
  | some j => s.evictStep core j
  | none =>
    match s.toSuspend core with
    | some tid => start tid ((s.thread? tid).map Thread.homeSlot |>.getD 0) 2
    | none =>
      match s.toRefuse core with
      | none => s
      | some (tid, t) =>
        if 64 ≤ (s.core core).runq.length then
          s.modSlot core t.homeSlot fun x => { x with resendAt := some (s.clock + 4096) }
        else start tid t.homeSlot 1

def execSpillEngineEvict (core : Nat) (s : State) : Host.Outcome State Fault Refusal := .next (spillStep core s)

/-! ### Contexts become ready (R281, R282) -/

/-- A free slot of its queue takes the oldest ready context; else the contexts wait. -/
def State.placeReady (s : State) (core : Nat) : State :=
  (List.range 16).foldl (fun s n =>
    let c := s.core core
    let gang t := match s.thread? t with | some th => th.gang | none => false
    if (c.slot n).isFree && (c.nextContext n gang).isSome then s.takeWork core n else s) s

/-- ROOM_MESSAGE: contexts that await room at the home become ready. -/
def roomStep (id : Nat) (s : State) : State :=
  match s.packet? id with
  | some (.room core home) =>
    if !s.carried id then s else
    ((s.dropPacket id).modCore core fun c => { c with runq := c.runq.map fun r =>
      if r.cause = 1 && r.home = home then { r with ready := true, readyAt := none } else r }).placeReady core
  | _ => s

def execRoomMessage (id : Nat) (s : State) : Host.Outcome State Fault Refusal := .next (roomStep id s)

/-- CONTEXT_READY_TIMEOUT: 4,096 cycles have passed without a room message. -/
def readyTimeoutStep (core record : Nat) (s : State) : State :=
  let c := s.core core
  match c.runq[record]? with
  | none => s
  | some r =>
    match r.readyAt with
    | none => s
    | some u =>
      if s.clock < u then s
      else (s.modCore core fun c => { c with runq := c.runq.set record { r with ready := true, readyAt := none } }).placeReady
        core

def execContextReadyTimeout (core record : Nat) (s : State) : Host.Outcome State Fault Refusal :=
  .next (readyTimeoutStep core record s)

/-- REFUSED_RESEND_TIMEOUT: a thread that found no record sends its refused accesses again. -/
def resendTimeoutStep (core slot : Nat) (s : State) : State :=
  let x := s.slot core slot
  match x.resendAt with
  | none => s
  | some u =>
    if s.clock < u then s
    else
      let mine (b : Body) : Bool := match b.refusedTid with
        | some t => match s.thread? t with
          | some th => th.homeCore == core && th.homeSlot == slot
          | none => false
        | none => false
      (s.resendRefused mine).modSlot core slot fun x => { x with resendAt := none }

def execRefusedResendTimeout (core slot : Nat) (s : State) : Host.Outcome State Fault Refusal :=
  .next (resendTimeoutStep core slot s)

end Sys2Proof.Machine
end

