-- ==== Sys2Proof/Machine/Task.lean ====
section
/-!
DEFINITION. Tasks: `spawn`, `sync`, `sync.end`, `post` and `steal` (R139 to R147), and the task unit's own
steps: taking an entry, steals, parking, and what follows from a frame's answer (R277, R278, R300, R301).
-/

namespace Sys2Proof.Machine

/-! ### The task instructions -/

/-- A lane of the issuing core. -/
def Core.lane (c : Core) (k : Nat) : Lane := c.lanes.toList.getD k Lane.empty

/-- `spawn` (R142): the increment leaves, the continuation is pushed, and the child is the code that follows;
a full lane pushes nothing. -/
def spawnEffect (p : BitVec 3) (a : Reg) (k : BitVec 2) (o : BitVec 30) (s : State) : State :=
  if (s.myCore.lane k.toNat).count = 32 then s.setPred p false
  else
    let w := s.src a
    let ws := [s.branchTarget 30 o, w, s.me.fmtp, s.me.sclp]
    let core := s.ctx.core
    let s := s.setPred p true
    if s.oor w 32 then (s.noteLocal w).pushLane core k.toNat ws none
    else
      let id := s.nextId
      (s.postAccess (s.access (.red .add .core) w 8 .rw 1)).pushLane core k.toNat ws (some id)

def execSpawn (p : BitVec 3) (a : Reg) (k : BitVec 2) (o : BitVec 30) (s : State) :
    Host.Outcome State Fault Refusal :=
  issue .lone (.spawn p a k o) (spawnEffect p a k o) s

/-- The request of a `sync` or `sync.end` to its frame's home. -/
def State.frameReq (s : State) (ending : Bool) (w : Word) : FrameReq :=
  { ending := ending, tid := s.ctx.tid, core := s.ctx.core, slot := s.ctx.slot, key := s.keyOf w .rw, addr := w,
    next := s.ctx.pc + 8, fmtp := s.me.fmtp, sclp := s.me.sclp, task := s.me.task, launch := s.me.launch }

/-- `sync` (R143). An out-of-range frame reads as zero (R52): no children. -/
def syncEffect (a : Reg) (s : State) : State :=
  let w := s.src a
  if s.oor w 32 then s.noteLocal w else s.ask (.frame (s.frameReq false w)) (homeOf (s.keyOf w .rw))

def execSync (a : Reg) (s : State) : Host.Outcome State Fault Refusal := issue .lone (.sync a) (syncEffect a) s

/-- `sync.end` (R144). An out-of-range frame reads as zero (R52): underflow. -/
def syncEndEffect (a : Reg) (s : State) : State :=
  let w := s.src a
  let r := s.frameReq true w
  if s.oor w 32 then (s.noteLocal w).awaitAnswer (.frameAns r .underflow) else s.ask (.frame r) (homeOf r.key)

def execSyncEnd (a : Reg) (s : State) : Host.Outcome State Fault Refusal :=
  issue .lone (.syncEnd a) (syncEndEffect a) s

/-- `post` (R146): the entry is read as by `ld.v`; the reply pushes it. -/
def postEffect (a : Reg) (s : State) : State :=
  let w := s.src a
  if s.oor w 32 then (s.noteLocal w).awaitAnswer (.reply s.ctx.tid none (.vals [0]))
  else s.ask (.access (s.access (.load .plain) w 32 .rd 0)) (homeOf (s.keyOf w .rd))

def execPost (p : BitVec 3) (a : Reg) (k : BitVec 2) (s : State) : Host.Outcome State Fault Refusal :=
  issue .lone (.post p a k) (postEffect a) s

/-- `steal` (R147). -/
def stealEffect (r : BitVec 2) (s : State) : State := s.modCore s.ctx.core fun c => { c with reach := r }

def execSteal (r : BitVec 2) (s : State) : Host.Outcome State Fault Refusal :=
  issue .lone (.steal r) (stealEffect r) s

/-! ### Lanes (R301) -/

/-- An end of a lane: the position of its entry. -/
def Lane.endPos (y : Lane) (near : Bool) : Nat := if near then (y.near + 31) % 32 else y.far

/-- Take the entry at an end; an empty lane's ends stand at entry 0. -/
def Lane.take (y : Lane) (near : Bool) : Lane :=
  if y.count ≤ 1 then { y with near := 0, far := 0, count := 0 }
  else if near then { y with near := (y.near + 31) % 32, count := y.count - 1 }
  else { y with far := (y.far + 1) % 32, count := y.count - 1 }

/-- A bank of a core that holds or loads a table, or that a thread may bind to and load; and whether it need not be loaded
(R172, R278). -/
def State.bankFor (s : State) (core : Nat) (asid : BitVec 12) (fmtp : Word) : Option (Nat × Bool) :=
  match (s.core core).findBank fun _ b => b.tag == some (asid, fmtp) || b.loadingFor asid fmtp with
  | some k => some (k, true)
  | none =>
    match (s.core core).findBank fun k b => !s.bankBound core k && b.loading.isNone with
    | some k => some (k, false)
    | none => none

/-- Look at an end of a lane for a taker on a core: void entries are discarded; an entry whose increment is
unacknowledged, that is not eligible, or that cannot be read, stays (R277, R278, R140). -/
def State.lookLane (near : Bool) (core k taker : Nat) (l : Launch) : Nat → State → State × Option (List Word)
  | 0, s => (s, none)
  | n + 1, s =>
    let y := (s.core core).lane k
    let pos := y.endPos near
    let key := localKey core (l.lanesOff + 1024 * k + 32 * pos)
    if y.count = 0 || y.pend.any (fun p => p.1 == pos) || s.isBad key 32 then (s, none)
    else
      let s := s.corrected key 32 l.asid
      let ws := readWords s.mem key 4
      let taken := s.modCore core fun c => if h : k < 4 then { c with lanes := c.lanes.set k (y.take near) h } else c
      let fmtp := clear5 (ws.getD 2 0)
      if ws.getD 0 0 = 1 then State.lookLane near core k taker l n taken
      else if ws.getD 2 0 = 0 || (s.bankFor taker l.asid fmtp).isSome then (taken, some ws) else (s, none)

/-- Look at the lanes of a core from lane 3 down. -/
def State.lookLanes (s : State) (near : Bool) (core taker : Nat) (l : Launch) : List Nat → State × Option (List Word)
  | [] => (s, none)
  | k :: r =>
    match State.lookLane near core k taker l 32 s with
    | (s', some ws) => (s', some ws)
    | (s', none) => State.lookLanes s' near core taker l r

/-- Start an entry that a slot has taken: a bad one is charged to the slot, which becomes free; a table is
bound at once (R140, R278). -/
def State.startTaken (s : State) (lid : Nat) (l : Launch) (c n : Nat) (ws : List Word) : State :=
  let tid := s.nextTid
  let pc := ws.getD 0 0
  let fmtp := clear5 (ws.getD 2 0)
  let s := s.startEntry lid l c n ws
  if pc = 0 || pc.toNat % 8 != 0 then
    (s.contain tid { cause := 0x21, qual := 3, pc := pc, detail := pc }).endThread tid
  else if ws.getD 2 0 = 0 then s
  else
    match s.bankFor c l.asid fmtp with
    | none => s
    | some (k, true) => s.modThread tid fun t => { t with bank := some k, wait :=
        if ((s.core c).banks.toList.getD k Bank.empty).loading.isSome then some (.cond (.bankLoad k)) else none }
    | some (k, false) =>
      let s := s.modCore c fun x =>
        if h : k < 2 then
          { x with banks := x.banks.set k { x.banks[k] with loading := some (tid, l.asid, fmtp), tag := none, walk := none } h }
        else x
      s.modThread tid fun t => { t with bank := some k, wait := some (.cond (.bankLoad k)) }

/-! ### Taking work (R277) -/

/-- The victims of a rotation, by the reach of the thief's core. -/
def victims (l : Launch) (core reach : Nat) : List Nat :=
  let p := posInSquare core; let q := squareOf core; let me := core % 64; let w := l.wardIdx core
  let square := (List.range 15).map fun i => coreAt q ((p + 1 + i) % 16)
  let ward := ((List.range 63).map fun i => core / 64 * 64 + (me + 1 + i) % 64).filter fun c => squareOf c != q
  let others := (List.range (l.wards.length - 1)).flatMap fun i =>
    (List.range 64).map fun n => l.coreOf ((w + 1 + i) % l.wards.length * 64 + n)
  if reach = 0 then [] else square ++ (if 2 ≤ reach then ward else []) ++ (if 3 ≤ reach then others else [])

/-- A slot in the task unit: free, below the porter, of a queue with weight (R277, R300). -/
def Core.seeking (c : Core) (n : Nat) : Bool :=
  n < 15 && (c.slot n).isFree && c.weights[(c.slot n).ownq.toNat]'(c.slot n).ownq.isLt != 0

/-- A rotation that has found nothing parks the slot. -/
def State.parkTask (s : State) (c n : Nat) : State :=
  s.modSlot c n fun x => { x with seekAt := s.clock + 4096, victims := [] }

/-- The slot parks, or has victims still to ask. -/
def State.askNext (s : State) (c n : Nat) (vs : List Nat) : State :=
  if vs.isEmpty then s.parkTask c n else s.modSlot c n fun x => { x with victims := vs }

/-- TASK_TAKE: the near ends of the core's own lanes, from lane 3 down. -/
def taskTakeStep (c n : Nat) (s : State) : State :=
  match s.launchOn c with
  | none => s
  | some (lid, l) =>
    if !(s.core c).seeking n || l.closing || (s.slot c n).seekAt != 0 || !(s.slot c n).victims.isEmpty then s
    else
      match s.lookLanes true c c l [3, 2, 1, 0] with
      | (s', some ws) => s'.startTaken lid l c n ws
      | (s', none) => s'.askNext c n (victims l c (s.core c).reach.toNat)

def execTaskTake (core slot : Nat) (s : State) : Host.Outcome State Fault Refusal := .next (taskTakeStep core slot s)

/-- STEAL_REQUEST: a porter message to the next victim, which looks at the far ends of its lanes, from lane 3 down, as one
step, while its porter holds no thread (R57, R277). It leaves and travels as any request of its core (R233, R293); one that its
way does not carry finds nothing (R328; notes/assumptions/45). -/
def stealStep (c n v : Nat) (s : State) : State :=
  match s.launchOn c with
  | none => s
  | some (lid, l) =>
    match (s.slot c n).victims with
    | [] => s
    | v' :: rest =>
      if !(s.core c).seeking n || l.closing || v' != v then s
      else if (s.engineRoute l c v 0).isSome then s.askNext c n rest
      else if !(s.slot v 15).isFree || s.engineHeld l c v then s
      else
        match s.lookLanes false v c l [3, 2, 1, 0] with
        | (s', some ws) => (s'.modSlot c n fun x => { x with victims := [] }).startTaken lid l c n ws
        | (s', none) => s'.askNext c n rest

def execStealRequest (core slot victim : Nat) (s : State) : Host.Outcome State Fault Refusal :=
  .next (stealStep core slot victim s)

/-- TASK_PARK_TIMEOUT: a parked slot looks again after 4,096 cycles. -/
def taskParkStep (c n : Nat) (s : State) : State :=
  let x := s.slot c n
  if x.seekAt = 0 || s.clock < x.seekAt then s else s.modSlot c n fun x => { x with seekAt := 0, victims := [] }

def execTaskParkTimeout (core slot : Nat) (s : State) : Host.Outcome State Fault Refusal :=
  .next (taskParkStep core slot s)

/-! ### Frames (R143 to R145) -/

/-- TASK_FRAME_STEP: the step of a request at its frame's home; one that finds no room is refused (R145). -/
def taskFrameStep (id : Nat) (s : State) : State :=
  match s.packet? id with
  | some (.frame r) =>
    if s.bankOpen r.key && s.carried id then s.reach id (.frame r) (.refusedFrame r) (homeOf r.key) else s
  | _ => s

def execTaskFrameStep (id : Nat) (s : State) : Host.Outcome State Fault Refusal := .next (taskFrameStep id s)

/-- The thread leaves its slot, which goes to the task unit, or to a restart that waits; the porter takes the next message
(R298). -/
def State.slotToTasks (s : State) (c n : Nat) : State :=
  let s := s.modSlot c n fun x => { x with tid := none }
  if n < 15 && (s.core c).restarts.isEmpty then s.toTaskUnit c n else s.takeWork c n

/-- The answer of an ended asker. -/
def State.endedAnswer (s : State) (tid c n : Nat) : State :=
  (((s.modThread tid Thread.unplaced).slotToTasks c n)).endThread tid

/-- A parent restarts in a slot of the core: in slot n where it is free, in another that is free, or in the next that becomes
free. The porter slot takes messages only (R298). -/
def State.restartOn (s : State) (c n : Nat) (r : FrameReq) (w f p : Word) (sus : Option Nat) : State :=
  let slot := if n < 15 && (s.slot c n).isFree then some n else if n < 15 then none else (s.core c).freeSlot 15
  match slot with
  | some k =>
    let s := s.restartIn c k r w f p sus
    if (s.slot c k).isFree then s.toTaskUnit c k else s
  | none => s.modCore c fun x => { x with restarts := x.restarts ++ [(r, .restart w f p sus)] }

/-- A restart by a child that lives: the parent takes its slot (R144). -/
def State.restartAnswer (s : State) (r : FrameReq) (tid c n : Nat) (w f p : Word) (sus : Option Nat) : State :=
  let s := (s.modThread tid Thread.unplaced).modSlot c n fun x => { x with tid := none }
  let s := match sus with
    | some k =>
      match s.thread? k with
      | some t => if t.homeCore = c && t.homeSlot = n then s else s.leaveOnce k t
      | none => s
    | none => s
  let s := (s.restartOn c n r w f p sus).endThread tid
  if n = 15 then s.takeWork c 15 else s

/-- The answer finds its asker gone (R143). -/
def State.orphanAnswer (s : State) (r : FrameReq) (a : FrameAns) : State :=
  match a with
  | .suspend =>
    if s.isBad r.key 32 || s.loadWord (r.key + 8) != r.next then s else s.storeWord (r.key + 8) 0
  | .restart w f p sus =>
    let alive := match sus with | some k => (s.thread? k).isSome | none => true
    let running := match s.launch? r.launch with | some l => l.owns r.core | none => false
    if !alive || !running then s
    else if !s.closingOn r.core then s.restartOn r.core r.slot r w f p sus
    else s.modCore r.core fun c => { c with restarts := c.restarts ++ [(r, a)] }
  | _ => s

/-- SYNC_ANSWER: the home's answer reaches the asker's core (R143, R144). A restart waits for the answer that
suspends its parent. -/
def syncAnswerStep (id : Nat) (s : State) : State :=
  match s.packet? id with
  | some (.frameAns r a) =>
    let early := match a with
      | .restart _ _ _ (some _) => s.net.any fun p => match p.2 with
        | .frameAns r' .suspend => r'.key == r.key
        | _ => false
      | _ => false
    if early || !s.carried id then s
    else
      let s := s.dropPacket id
      let live := match s.thread? r.tid with
        | some t => t.outst == some (id, [])
        | none => false
      if !live then s.orphanAnswer r a
      else
        let t := (s.thread? r.tid).getD Thread.blank
        let (c, n) := t.slotNow
        let pc := (t.bundle.map BundleInfo.pc).getD 0
        match a with
        | .goOn => s.modThread r.tid fun t => t.receive [] []
        | .busy => s.raise r.tid { cause := 0x21, qual := 1, half := .lone, pc := pc, detail := r.addr, bundle := t.bundle }
        | .underflow =>
          s.raise r.tid { cause := 0x21, qual := 2, half := .lone, pc := pc, detail := r.addr, bundle := t.bundle }
        | .uncorrectable =>
          s.raise r.tid { cause := 0x19, qual := 1, half := .lone, pc := pc, detail := r.addr, bundle := t.bundle }
        | .suspend =>
          (s.modThread r.tid fun t => { t.unplaced with place := .frame r.key, bank := none, due := t.due }).slotToTasks c n
        | .ended => s.endedAnswer r.tid c n
        | .restart w f p sus => s.restartAnswer r r.tid c n w f p sus
  | _ => s

def execSyncAnswer (id : Nat) (s : State) : Host.Outcome State Fault Refusal := .next (syncAnswerStep id s)

end Sys2Proof.Machine
end

