-- ==== Sys2Proof/Machine/Tumbler.lean ====
section
/-!
DEFINITION. The tumblers (R207 to R211, R288, R334): the bitonic network, takes, drains and what follows them.
-/

namespace Sys2Proof.Machine

/-! ### The network (R207) -/

/-- The pair (k, j) of each of the 21 layers. -/
def tumblerLayers : List (Nat × Nat) :=
  [(2, 1), (4, 2), (4, 1), (8, 4), (8, 2), (8, 1), (16, 8), (16, 4), (16, 2), (16, 1), (32, 16)]
    ++ [(32, 8), (32, 4), (32, 2), (32, 1), (64, 32), (64, 16), (64, 8), (64, 4), (64, 2), (64, 1)]

/-- The balancer of a wire at a layer, its lead wire and its other wire. -/
def balancerAt (layer wire : Nat) : Nat × Nat × Nat :=
  let (k, j) := tumblerLayers.getD layer (2, 1)
  let i := if wire / j % 2 = 0 then wire else wire - j
  let b := i / (2 * j) * j + i % j
  if i / k % 2 = 0 then (b, i, i + j) else (b, i + j, i)

/-- Counter i (R207). -/
def Tumbler.counter (x : Tumbler) (i : Nat) : Nat := (x.counters.extractLsb' (32 * i) 32).toNat

/-- Add one to counter i, modulo 2^32. -/
def Tumbler.bump (x : Tumbler) (i : Nat) : Tumbler :=
  let n := (x.counter i + 1) % 2 ^ 32
  { x with counters := (x.counters &&& ~~~(BitVec.ofNat 2048 (2 ^ 32 - 1) <<< (32 * i)))
                       ||| (BitVec.ofNat 2048 n <<< (32 * i)) }

/-- The detail of *tumbler parity* (R322). -/
def parityDetail (t layer b : Nat) : Word := BitVec.ofNat 64 (t + 256 * layer + 65536 * b)

/-- A token passes one balancer: it leaves by the bit, which inverts with fresh parity (R207, R334). -/
def Tumbler.pass (x : Tumbler) (t : Nat) (k : Token) : Tumbler × Token × Bool :=
  let (b, lead, other) := balancerAt k.layer k.wire
  let n := 32 * k.layer + b
  let bad := x.badParity.contains n
  let out := if x.bits.getLsbD n then other else lead
  ({ x with bits := x.bits ^^^ (1#672 <<< n), badParity := x.badParity.filter fun m => m != n },
   { k with layer := k.layer + 1, wire := out,
            parity := match k.parity with
              | some p => some p
              | none => if bad then some (parityDetail t k.layer b) else none }, bad)

/-! ### Takes (R208) -/

/-- The number on an output wire. -/
def Tumbler.number (x : Tumbler) (i : Nat) : Word := x.base + BitVec.ofNat 64 (i + 64 * x.counter i)

/-- `tnum` (R208): a token sets out for its wire. -/
def tnumEffect (d : Reg) (t : BitVec 5) (s : State) : State :=
  let id := s.nextId
  let tok : Token := { wire := s.myLaunch.squareIdx s.ctx.core % 64, layer := 0, tid := s.ctx.tid, id := id,
                       pc := s.ctx.pc, parity := none }
  let dst := (gNum d).toNat
  (({ s with nextId := id + 1 } : State).modTumbler t.toNat fun x => { x with entry := x.entry ++ [tok] }).modMe fun t =>
    { t with regs := t.regs.emptyDst dst, outst := some (id, [dst]), wait := some (.reply id) }

def execTnum (d : Reg) (t : BitVec 5) (s : State) : Host.Outcome State Fault Refusal :=
  issue .lone (.tnum d t) (tnumEffect d t) s

/-- A token has met a parity error: it counts for the core and the identifier of its thread (R324, R332). -/
def State.countToken (s : State) (t : Nat) (k : Token) : State :=
  match s.thread? k.tid with
  | some th => s.count (dieOf th.coreNow) 5 t (BitVec.ofNat 64 t) (s.coreLabel th.coreNow) (s.launchOf th).asid
  | none => s.count 0 5 t (BitVec.ofNat 64 t)

/-- The balancer a token stands at, as bit number; the wires of the last layer follow behind. -/
def Token.stand (k : Token) : Nat :=
  if k.layer < 21 then 32 * k.layer + (balancerAt k.layer k.wire).1 else 672 + k.wire

/-- The token that a balancer, or an output wire, passes next: those of a wire in order of arrival; two inputs
alternately, beginning with the one that has waited longer (R288). -/
def Tumbler.nextAt (x : Tumbler) (n : Nat) : Option Token :=
  let here := x.inside.filter fun k => k.stand == n
  match here, tget x.turns n with
  | k :: _, some w => some ((here.find? fun y => y.wire != w).getD k)
  | k :: _, none => some k
  | [], _ => none

/-- What a balancer remembers after it has passed a token: the wire, while the other input has tokens too. -/
def Tumbler.turned (x : Tumbler) (k : Token) : Tumbler :=
  let both := x.inside.any fun y => y.stand == k.stand && y.wire != k.wire
  { x with turns := if both then tput x.turns k.stand k.wire else tdel x.turns k.stand }

/-- A token that has left the last layer takes its number, which travels back to its thread. -/
def State.tokenOut (s : State) (t : Nat) (k : Token) : State :=
  let x := s.tumbler t
  let v := x.number k.wire
  let s := s.modTumbler t fun x => { x.bump k.wire with inside := x.inside.filter fun y => y.id != k.id }
  let s := match k.parity with
    | some d => s.modThread k.tid fun t => { t with
        due := t.due ++ [Due.fault { cause := 0x25, half := .lone, pc := k.pc, detail := d }] }
    | none => s
  s.answer k.id k.tid (.vals [v.setWidth 256])

/-- A token inside passes its balancer, where it is that token's turn, or leaves. -/
def State.tokenOn (s : State) (t : Nat) (x : Tumbler) (tok : Token) : State :=
  if (x.nextAt tok.stand).map Token.id != some tok.id then s
  else if tok.layer < 21 then
    let r := (x.turned tok).pass t tok
    let s := s.modTumbler t fun _ => { r.1 with inside := (r.1.inside.filter fun y => y.id != tok.id) ++ [r.2.1] }
    if r.2.2 then s.countToken t tok else s
  else s.tokenOut t tok

/-- A token that reaches the entry goes in, or waits there behind those a drain holds (R208, R210). -/
def State.tokenIn (s : State) (t : Nat) (x : Tumbler) (tok : Token) : State :=
  let rest := x.entry.filter fun y => y.id != tok.id
  s.modTumbler t fun x =>
    if x.ops.any TnOp.begun || !x.arrived.isEmpty then { x with entry := rest, arrived := x.arrived ++ [tok] }
    else { x with entry := rest, inside := x.inside ++ [tok] }

/-- TUMBLER_TOKEN: one token moves: the k-th inside passes a balancer or leaves; behind them the first of those held at the
entry goes in, unless a drain holds it; behind these one reaches the entry. -/
def tumblerTokenStep (t k : Nat) (s : State) : State :=
  let x := s.tumbler t
  match x.inside[k]? with
  | some tok => s.tokenOn t x tok
  | none =>
    let j := k - x.inside.length
    if j = 0 && !x.arrived.isEmpty then
      if x.ops.any TnOp.begun then s
      else s.modTumbler t fun x => { x with inside := x.inside ++ x.arrived.take 1, arrived := x.arrived.drop 1 }
    else if j < x.arrived.length then s
    else match x.entry[j - x.arrived.length]? with
      | some tok => s.tokenIn t x tok
      | none => s

def execTumblerToken (t k : Nat) (s : State) : Host.Outcome State Fault Refusal := .next (tumblerTokenStep t k s)

/-! ### Drains (R210) -/

/-- A drain sets out for its tumbler; its thread waits for the answer. -/
def State.startDrain (s : State) (t : BitVec 5) (kind : Nat) (arg : Word) : State :=
  let id := s.nextId
  let op : TnOp := { kind := kind, arg := arg, tid := s.ctx.tid, id := id, core := s.ctx.core, begun := false, walk := none }
  (({ s with nextId := id + 1 } : State).modTumbler t.toNat fun x => { x with ops := x.ops ++ [op] }).modMe fun t =>
    { t with outst := some (id, []), wait := some (.reply id) }

def execTndrain (t : BitVec 5) (s : State) : Host.Outcome State Fault Refusal :=
  issue .lone (.tndrain t) (fun s => s.startDrain t 0 0) s

def execTnset (t : BitVec 5) (a : Reg) (s : State) : Host.Outcome State Fault Refusal :=
  issue .lone (.tnset t a) (fun s => s.startDrain t 1 (s.src a)) s

def execTnsave (t : BitVec 5) (a : Reg) (s : State) : Host.Outcome State Fault Refusal :=
  issue .lone (.tnsave t a) (fun s => s.startDrain t 2 (s.src a)) s

def execTnload (t : BitVec 5) (a : Reg) (s : State) : Host.Outcome State Fault Refusal :=
  issue .lone (.tnload t a) (fun s => s.startDrain t 3 (s.src a)) s

/-- The 48 words of a save area (R211). -/
def Tumbler.areaWords (x : Tumbler) : List Word :=
  [x.base, 0, 0, 0] ++ (List.range 12).map (fun i => x.bits.extractLsb' (64 * i) 64)
    ++ (List.range 32).map fun i => x.counters.extractLsb' (64 * i) 64

/-- The atoms of a save area: their keys, none for one out of range; or the first fault (R112); or a wait, for a walk or for
anything else. -/
inductive AreaKeys where
  | keys (ks : List (Option Nat))
  | fault (f : XFault)
  | hold (page : Option Nat)
  deriving DecidableEq, Repr

def AreaKeys.cons (k : Option Nat) : AreaKeys → AreaKeys
  | .keys ks => .keys (k :: ks)
  | x => x

/-- The atoms of an area of a drain's own step, as engine accesses of its core (R310). -/
def State.areaKeys (s : State) (l : Launch) (op : TnOp) (p : Perm) : List Nat → AreaKeys
  | [] => .keys []
  | k :: r =>
    match s.engineReach l op.core (op.arg + BitVec.ofNat 64 (32 * k)) 32 p op.walk with
    | .fault f => .fault f
    | .key key => (s.areaKeys l op p r).cons (some key)
    | .out => (s.areaKeys l op p r).cons none
    | .walk page => .hold (some page)
    | .busy => .hold none

/-- What becomes of a drain's own step: it waits, for a walk that is queued where none runs (R310), or it is made. -/
inductive DrainNext where
  | waits (page : Option Nat)
  | made (s : State) (a : Answer)
  deriving DecidableEq, Repr

/-- The first atom of an area, from key to key, that cannot be read. -/
def State.areaBad (s : State) (keys : List (Option Nat)) : Option Nat :=
  keys.findIdx? fun k => match k with | some key => s.isBad key 32 | none => false

/-- The first out-of-range atom of an area is noted (R52). -/
def State.areaNote (s : State) (tid : Nat) (a : Word) (keys : List (Option Nat)) : State :=
  match keys.findIdx? Option.isNone with
  | some k => s.modThread tid fun t => t.note (a + BitVec.ofNat 64 (32 * k))
  | none => s

/-- `tnsave`'s step: twelve plain stores of an atom; none where it has to wait. -/
def State.tumblerSave (s : State) (x : Tumbler) (op : TnOp) (l : Launch) : DrainNext :=
  match s.areaKeys l op .w (List.range 12) with
  | .hold page => .waits page
  | .fault f => .made s (.fault f.cause f.qual f.detail)
  | .keys keys =>
    let s := s.areaNote op.tid op.arg keys
    .made (((List.range 12).zip keys).foldl (fun (s : State) (p : Nat × Option Nat) => match p.2 with
      | none => s
      | some key =>
        let s := s.healed key 32
        { s with mem := writeWords s.mem key ((x.areaWords.drop (4 * p.1)).take 4) }) s) (.vals [])

/-- The 48 words of an area. -/
def State.areaRead (s : State) (keys : List (Option Nat)) : List Word :=
  keys.flatMap fun k => match k with
    | some key => readWords s.mem key 4
    | none => [0, 0, 0, 0]

/-- n words of a list as one number, low first. -/
def packWords : List Word → Nat
  | [] => 0
  | w :: r => w.toNat + 2 ^ 64 * packWords r

/-- A save area's reserved bytes are zero (R211). -/
def areaOk (ws : List Word) : Bool :=
  ws.getD 1 0 = 0 && ws.getD 2 0 = 0 && ws.getD 3 0 = 0 && bits (ws.getD 14 0) 32 32 = 0 && ws.getD 15 0 = 0

/-- The state a save area gives. -/
def Tumbler.loaded (x : Tumbler) (ws : List Word) : Tumbler :=
  { x with base := ws.getD 0 0, bits := BitVec.ofNat 672 (packWords ((ws.drop 4).take 11)), badParity := [],
           counters := BitVec.ofNat 2048 (packWords (ws.drop 16)) }

/-- `tnload`'s step: the area is read and checked, and the tumbler takes its state; none where it has to wait. -/
def State.tumblerLoad (s : State) (t : Nat) (op : TnOp) (l : Launch) : DrainNext :=
  match s.areaKeys l op .rd (List.range 12) with
  | .hold page => .waits page
  | .fault f => .made s (.fault f.cause f.qual f.detail)
  | .keys keys =>
    match s.areaBad keys with
    | some k =>
      .made (s.uncorrected ((keys.getD k none).getD 0) l.asid) (.fault 0x19 1 (op.arg + BitVec.ofNat 64 (32 * k)))
    | none =>
      let ws := s.areaRead keys
      let s := (s.areaNote op.tid op.arg keys)
      let s := keys.foldl (fun (s : State) (k : Option Nat) => match k with
        | some key => s.corrected key 32 l.asid
        | none => s) s
      if areaOk ws then .made (s.modTumbler t fun x => x.loaded ws) (.vals []) else .made s (.fault 0x24 0 op.arg)

/-- The step that follows a drain (R210), and its answer; or its wait. -/
def State.drainStep (s : State) (t : Nat) (op : TnOp) : DrainNext :=
  match op.kind with
  | 0 => .made s (.vals [])
  | 1 => .made (s.modTumbler t fun x => { x with bits := 0, counters := 0, base := op.arg, badParity := [] }) (.vals [])
  | k =>
    match s.launchOn op.core with
    | none => .made s (.vals [])
    | some (_, l) => if k = 2 then s.tumblerSave (s.tumbler t) op l else s.tumblerLoad t op l

/-- A drain's step waits for the walk of a page of its core's square. -/
def State.drainWalk (s : State) (t : Nat) (op : TnOp) (page : Nat) : State :=
  let asid := match s.launchOn op.core with
    | some (_, l) => l.asid
    | none => 0
  (s.modTumbler t fun x => { x with ops := x.ops.map fun o =>
    if o.id = op.id then { o with walk := some { page := page, fault := none } } else o }).startWalk (squareOf op.core) asid page

/-- TUMBLER_DRAIN_END: the k-th drain reaches its tumbler and holds the entry, where none does; the one that does
ends with the last token inside, performs its step and opens the entry (R210). -/
def tumblerDrainStep (t k : Nat) (s : State) : State :=
  let x := s.tumbler t
  match x.ops.find? TnOp.begun with
  | none =>
    match x.ops[k]? with
    | some op => s.modTumbler t fun x => { x with
        ops := { op with begun := true } :: x.ops.filter fun o => o.id != op.id }
    | none => s
  | some op =>
    if !x.inside.isEmpty then s
    else
      match s.drainStep t op with
      | .waits none => s
      | .waits (some page) => s.drainWalk t op page
      | .made r a => (r.modTumbler t fun x => { x with ops := x.ops.filter fun o => o.id != op.id }).answer op.id op.tid a

def execTumblerDrainEnd (t k : Nat) (s : State) : Host.Outcome State Fault Refusal := .next (tumblerDrainStep t k s)

end Sys2Proof.Machine
end

