-- ==== Sys2Proof/Machine/Launches.lean ====
section
/-!
DEFINITION. Launches as the service cores handle them: completion words (R320), the checks of a launch record (R42
to R45), the grant and the load (R271, R272, R304), suspension and resumption (R284, R285), and the kill (R321).
-/

namespace Sys2Proof.Machine

/-! ### Commands (R320) -/

/-- Write the completion word of a command. -/
def State.complete (s : State) (c : Cmd) (status : Nat) (result : Nat := 0) : State :=
  s.toHost c.cw (wordBytes (BitVec.ofNat 64 (result % 2 ^ 32 * 2 ^ 32 + c.cid.toNat * 2 ^ 16 + status)))

/-- A command is handled while the service cores run (R319, R4); one that names no service core is invalid. -/
def State.command (s : State) (c : Cmd) (f : State → State) : State :=
  if s.halted || s.unpowered then s else if 4 ≤ c.sc then s.complete c 2 else f s

/-- A command that has waited is done. -/
def State.forget (s : State) (i : Instr) : State := { s with pending := s.pending.filter fun x => x != i }

/-- A command that needs a bank of HBM that an alert holds (R333) waits in its service core's queue. -/
def State.postpone (s : State) (i : Instr) : State := { s with queue := s.queue ++ [(s.nextId, i)], nextId := s.nextId + 1 }

/-! ### The launch record (R42 to R45) -/

/-- Level entry n of a record of 24 words. -/
def levelOf (ws : List Word) (n : Nat) : Level :=
  let a := ws.getD (8 + 2 * n) 0; let b := ws.getD (9 + 2 * n) 0
  { count := bits a 48 16, retries := bits a 28 4, policy := bits a 24 2, scope := bits a 16 3,
    barrier := a.getLsbD 8, domain := bits a 0 3, deadline := bits b 0 32 }

/-- The used levels (R44). -/
def usedLevels (ws : List Word) : List Level := ((List.range 8).map (levelOf ws)).takeWhile fun v => v.count != 0

/-- The reserved fields of a record are zero. -/
def recordReserved (ws : List Word) : Bool :=
  let w (i : Nat) : Word := ws.getD i 0
  bits (w 1) 50 2 = 0 && bits (w 1) 12 2 = 0 && bits (w 2) 0 16 = 0 && bits (w 3) 0 32 = 0 && w 6 = 0 && w 7 = 0
    && (List.range 8).all fun n =>
      let a := w (8 + 2 * n); let b := w (9 + 2 * n)
      bits a 32 16 = 0 && bits a 26 2 = 0 && bits a 19 5 = 0 && bits a 9 7 = 0 && bits a 3 5 = 0 && bits b 32 32 = 0

/-- The launch that a record describes, not yet placed. -/
def launchOf (ws : List Word) (sc : Nat) : Launch :=
  let w (i : Nat) : Word := ws.getD i 0
  let ring := bits (w 1) 24 24
  { Launch.blank with
    asid := (w 1).extractLsb' 0 12, sc := sc, words := ws, entry := w 0,
    lmLo := 4096 * bits (w 1) 56 4, lmHi := 65536 - 4096 * bits (w 1) 60 4, lanesOff := 4096 * bits (w 1) 52 4,
    ringOff := if ring = 0 then 0xF000 else 16 * bits (w 1) 24 12,
    ringSize := if ring = 0 then 4096 else 16 * bits (w 1) 36 12,
    lanex := (w 1).getLsbD 49, anyslot := (w 1).getLsbD 48,
    gregs := if bits (w 1) 18 6 = 0 then 32 else bits (w 1) 18 6, vregs := bits (w 1) 14 4,
    qmap := (w 2).extractLsb' 32 32, stall := if bits (w 2) 16 16 = 0 then 4096 else bits (w 2) 16 16,
    tumblers := (w 3).extractLsb' 32 32, fmtp := w 4, sclp := w 5, levels := usedLevels ws }

/-- Units of a domain in a unit of the next used level, or in the launch; none where the units of that level are not
alike (R44). -/
def unitsWithin (l : Launch) (domain : Nat) (outer : Option Nat) : Option Nat :=
  let per (wards : Nat) : Nat := if domain = 1 then 64 * wards else if domain = 2 then 4 * wards else wards
  match outer with
  | some 2 => some 16
  | some 3 => some (per 1)
  | some 5 =>
    let perDie := ((l.wards.map fun w => w / 32).eraseDups).map fun d => (l.wards.filter fun w => w / 32 == d).length
    match perDie with
    | [] => none
    | n :: r => if r.all fun m => m == n then some (per n) else none
  | _ => some (per l.wards.length)

/-- The counts and domains of the used levels (R44), for a launch whose wards are known. -/
def levelsOk (l : Launch) : List Level → Bool
  | [] => true
  | v :: r =>
    let outer := r.head?.map Level.domain
    let count :=
      if v.domain = 0 then 1 ≤ v.count && v.count ≤ 15
      else if v.domain ≤ 3 then unitsWithin l v.domain outer = some v.count
      else if v.domain = 5 then v.count = ((l.wards.map fun w => w / 32).eraseDups).length
      else v.domain != 7 && v.count = 1
    count && (match outer with | some d => v.domain < d | none => true) && levelsOk l r

/-- What R42 to R45 ask of a record, but for the counts of its levels. -/
def recordOk (l : Launch) (ws : List Word) : Bool :=
  recordReserved ws && !l.entry.getLsbD 63 && l.entry.toNat % 8 = 0
    && [8, 16, 24, 32].contains l.gregs && [0, 4, 8].contains l.vregs
    && l.fmtp.toNat % 32 = 0 && !l.fmtp.getLsbD 63 && l.sclp.toNat % 32 = 0
    && (match l.levels with | v :: _ => v.domain == 0 | [] => false)
    && l.lmLo < l.lmHi
    && l.lmLo ≤ l.ringOff && l.ringOff + l.ringSize ≤ l.lmHi
    && l.lmLo ≤ l.lanesOff && l.lanesOff + 4096 ≤ l.lmHi
    && (l.ringOff + l.ringSize ≤ l.lanesOff || l.lanesOff + 4096 ≤ l.ringOff)
    && migrLen l.gregs ≤ l.ringSize

/-! ### The grant (R272, R304) -/

/-- A ward belongs to no launch. -/
def State.wardFree (s : State) (w : Nat) : Bool := s.launches.all fun p => p.2.suspended || !p.2.wards.contains w

/-- The wards of a rectangle of a die, row-major from its top-left ward. -/
def rectangle (die x y w h : Nat) : List Nat :=
  (List.range h).flatMap fun j => (List.range w).map fun i => die * 32 + (y + j) * 8 + x + i

/-- The first rectangle of a shape on a die whose wards are all free, in row-major order of its top-left ward; `taken` are
those of the request's rectangles before it. -/
def State.grantOn (s : State) (taken : List Nat) (die w h : Nat) : Option (List Nat) :=
  if w = 0 || h = 0 || 8 < w || 4 < h || 4 ≤ die || !s.streets.present.getLsbD die then none
  else
    let places := (List.range (5 - h)).flatMap fun y => (List.range (9 - w)).map fun x => (x, y)
    (places.find? fun p => (rectangle die p.1 p.2 w h).all fun n => s.wardFree n && !taken.contains n).map
      fun p => rectangle die p.1 p.2 w h

/-- The wards of the rectangles of a request, one after another; there may be several on a die (R40). -/
def State.grantFrom (s : State) : List Nat → List (Nat × Nat × Nat) → Option (List Nat)
  | taken, [] => some taken
  | taken, p :: r =>
    match s.grantOn taken p.1 p.2.1 p.2.2 with
    | some ws => s.grantFrom (taken ++ ws) r
    | none => none

/-- The wards of all rectangles, in the order of the grant; at most 127 (R40). -/
def State.grantAll (s : State) (shape : List (Nat × Nat × Nat)) : Option (List Nat) :=
  match s.grantFrom [] shape with
  | some ws => if ws.isEmpty || 127 < ws.length then none else some ws
  | none => none

/-- The tumblers of a mask are all free (R45). -/
def State.tumblersFree (s : State) (m : BitVec 32) : Bool :=
  (List.range 32).all fun t => !m.getLsbD t || (s.tumbler t).owner.isNone

def State.giveTumblers (s : State) (lid : Nat) (m : BitVec 32) : State :=
  (List.range 32).foldl (fun s t =>
    if m.getLsbD t then s.modTumbler t fun _ => { Tumbler.clear with owner := some lid } else s) s

/-- The root entry of an identifier is valid (R305). -/
def State.rooted (s : State) (asid : BitVec 12) : Bool :=
  let a := s.rootTable.toNat + 8 * asid.toNat
  physOk a && !s.isBad a 8 && (s.loadWord a).getLsbD 0

/-- A core as it is granted, with the owner queues and weights of the request. -/
def grantedCore (l : Launch) : Core :=
  { Core.clear with
    slots := Vector.ofFn fun (i : Fin 16) => { Slot.free with ownq := if i.val < 15 then l.slotMap.getD i.val 0 else 0 }
    weights := Vector.ofFn fun (i : Fin 16) => l.weights.getD i.val 0 }

/-- The writing of entries 0 to 767 that a launch's squares get from the street map (R113). -/
def State.writingFor (s : State) (l : Launch) : Writing := { num := s.writing, streets := s.streets, wards := l.wards }

/-- A square's shared parts as a launch gets them: its translations stand, tagged by their identifiers, and the service core
writes entries 0 to 767. -/
def grantedSquare (w : Writing) (l : Launch) (q : Square) : Square :=
  { Square.clear with service := some w, trans := q.trans, lines := q.lines.filter fun x => x.asid != l.asid }

/-- Local memory of a compute core becomes zero and full, with fresh ECC. -/
def State.clearLocal (s : State) (core : Nat) : State :=
  let u := localKey core 0 / 8
  let inside (k : Nat) : Bool := u ≤ k && k < u + 8192
  { s with mem := dropCells s.mem (localKey core 0) 65536, empt := s.empt.filter (fun k => !inside k),
           bad := s.bad.filter (fun k => !inside k), soft := s.soft.filter fun k => !inside k }

/-- Steps 3 to 6: the district of a launch is made ready. -/
def State.prepare (s : State) (lid : Nat) (l : Launch) : State :=
  let s := (s.giveTumblers lid l.tumblers)
  let s := { s with launches := tput s.launches lid l, writing := s.writing + 1 }
  let s := l.allSquares.foldl (fun s q => s.modSquare q (grantedSquare (s.writingFor l) l)) s
  l.allCores.foldl (fun s c => (s.clearLocal c).setCore c (grantedCore l)) s

/-- A level-0 thread of a launch (R48, R155, R340). -/
def launchThread (lid : Nat) (l : Launch) (c n : Nat) : Thread :=
  { Thread.blank with
    launch := lid, homeCore := l.coreOf c, homeSlot := n, place := .slot (l.coreOf c) n, pc := l.entry,
    gregs := l.gregs, vregs := l.vregs, fmtp := clear5 l.fmtp, sclp := clear5 l.sclp, level := levelWord l c n,
    gang := true, units := some (c, n) }

/-- Step 7: the level-0 threads of a core. -/
def State.startThreads (s : State) (lid : Nat) (l : Launch) (c : Nat) : State :=
  let n0 := (l.levels.head?.map Level.count).getD 0
  (List.range n0).foldl (fun (s : State) n =>
    let tid := s.nextTid
    let t := launchThread lid l c n
    let s := { s with threads := tput s.threads tid t, nextTid := tid + 1 }
    s.modSlot (l.coreOf c) n fun x => { x.seat tid with level := t.level }) s

/-- A launch starts on its wards. -/
def State.startLaunch (s : State) (lid : Nat) (l : Launch) : State :=
  let s := s.prepare lid l
  { (List.range l.cores).foldl (fun s c => s.startThreads lid l c) s with nextLid := lid + 1 }

/-- SUBMIT_LAUNCH (R272): the record is read and checked, the district granted, and the launch started; a refusal has
no effect on the device. -/
def submitStep (c : Cmd) (a : LaunchArgs) (s : State) : State :=
  let at_ := a.record.toNat
  if a.slotMap.length != 15 || a.weights.length != 16 then s.complete c 2
  else if at_ % 8 != 0 || hbmEnd < at_ + 192 then s.complete c 1
  else if !(List.range 24).all fun i => s.bankOpen (at_ + 8 * i) then s.postpone (.submitLaunch c a)
  else
  match (List.range 24).find? fun i => s.isBad (at_ + 8 * i) 8 with
  | some i =>
    let rep : Report := { cause := 0x19, qual := 1, core := c.sc, detail := a.record }
    ((s.uncorrected (at_ + 8 * i)).report c.sc rep).complete c 1
  | none =>
    let s := (List.range 24).foldl (fun s i => s.corrected (at_ + 8 * i) 8 0) s
    let ws := readWords s.mem at_ 24
    let l := launchOf ws c.sc
    let root := s.rootTable.toNat + 8 * l.asid.toNat
    if !recordOk l ws || !s.tumblersFree l.tumblers || !physOk root then s.complete c 1
    else if !s.bankOpen root then s.postpone (.submitLaunch c a)
    else if s.isBad root 8 then (s.uncorrected root).complete c 1
    else
      let s := s.corrected root 8 0
      if !s.rooted l.asid then s.complete c 1
      else match s.grantAll a.shape with
      | none => s.complete c 1
      | some wards =>
        let l := { l with wards := wards, shape := a.shape, slotMap := a.slotMap, weights := a.weights,
                          endWord := a.endWord, start := s.clock }
        if !levelsOk l l.levels then s.complete c 1
        else (s.startLaunch s.nextLid l).complete c 0 s.nextLid

def execSubmitLaunch (c : Cmd) (args : LaunchArgs) (s : State) : Host.Outcome State Fault Refusal :=
  .next (s.command c (submitStep c args))

/-! ### Suspension (R284) -/

/-- Closing: each ward's cores take no more `mrot` commands than the core that has taken most. -/
def State.closeWards (s : State) (l : Launch) : State :=
  l.wards.foldl (fun s w =>
    let cs := (List.range 64).map fun n => w * 64 + n
    let most := cs.foldl (fun m c => max m (s.core c).mrotCount) 0
    cs.foldl (fun s c => s.modCore c fun x => { x with mrotMax := some most }) s) s

/-- A packet that belongs to the threads or the cores of a launch, but for messages on their way. -/
def State.busyPacket (s : State) (lid : Nat) (l : Launch) (b : Body) : Bool :=
  let mine (tid : Nat) : Bool := match s.thread? tid with
    | some t => t.launch == lid
    | none => false
  match b with
  | .access a | .refusedAccess a => l.owns a.core || l.owns (homeOf a.key)
  | .amo a | .refusedAmo a => l.owns a.core || l.owns (homeOf a.key)
  | .reply tid _ _ => mine tid
  | .ack e _ => match tget s.sq e with
    | some x => l.owns x.core
    | none => false
  | .migr tid _ _ _ _ => mine tid
  | .far c tid _ => l.owns c || mine tid
  | .frame r | .refusedFrame r => l.owns r.core || l.owns (homeOf r.key)
  | .frameAns r _ => l.owns r.core
  | .withdraw _ c _ => l.owns c
  | .room c _ => l.owns c
  | .post q _ _ _ _ _ _ => l.hasSquare q
  | .msg _ | .heap _ => false

/-- Every thread of the launch is out of its slot, its traffic has ended, and its tumblers are empty. -/
def State.suspendable (s : State) (lid : Nat) (l : Launch) : Bool :=
  (s.threads.all fun p => p.2.launch != lid || (match p.2.place with
    | .context _ | .frame _ | .spilled _ => true
    | _ => false))
    && (s.net.all fun p => !s.busyPacket lid l p.2)
    && (s.waits.all fun p => match p.2 with
      | .access a => !(l.owns a.core || l.owns (homeOf a.key))
      | .amo a => !(l.owns a.core || l.owns (homeOf a.key))
      | .frame r => !(l.owns r.core || l.owns (homeOf r.key))
      | _ => true)
    && (l.allCores.all fun c => (s.core c).copyQ.isEmpty && (s.core c).copies.isEmpty && (s.core c).spill.isNone
      && (s.square (squareOf c)).itinLoad.isEmpty)
    && (List.range 32).all fun t => !l.tumblers.getLsbD t
      || ((s.tumbler t).inside.isEmpty && (s.tumbler t).entry.isEmpty && (s.tumbler t).ops.isEmpty)

/-- A key of local memory with its core renamed. -/
def mapKey (f : Nat → Nat) (k : Nat) : Nat :=
  if k < localBase then k else localKey (f ((k - localBase) / 65536)) ((k - localBase) % 65536)

/-- The accesses a record holds, with the cores of their local memory renamed. -/
def RunRec.rename (r : RunRec) (f : Nat → Nat) : RunRec :=
  { r with home := if r.home < channelBase then f r.home else r.home,
           held := r.held.map fun p => (p.1, match p.2 with
    | .access a => .access { a with key := mapKey f a.key }
    | .amo a => .amo { a with key := mapKey f a.key }
    | b => b) }

def renameRestart (f : Nat → Nat) (p : FrameReq × FrameAns) : FrameReq × FrameAns :=
  ({ p.1 with core := f p.1.core, key := mapKey f p.1.key }, p.2)

/-- What the image of a core holds (R285), over a core of the grant. -/
def coreImage (base x : Core) (f : Nat → Nat) : Core :=
  { base with
    slots := base.slots.zipWith (fun b o => { b with event := o.event, held := o.held, level := o.level }) x.slots
    accs := x.accs, afull := x.afull, badAccs := x.badAccs, curA := x.curA, curB := x.curB, incA := x.incA,
    incB := x.incB, mrotCount := x.mrotCount, qs := x.qs,
    ports := x.ports.zipWith (fun a b => a ++ b) x.flying,
    lanes := x.lanes, ring := x.ring, ringHead := x.ringHead, ringTail := x.ringTail, ringUsed := x.ringUsed,
    runq := x.runq.map fun r => { (r.rename f) with ready := true, readyAt := none },
    restarts := x.restarts.map (renameRestart f) }

/-- What a suspension keeps of a launch: images of cores and squares, tumblers, by district numbers. -/
def State.savedOf (s : State) (l : Launch) : Saved :=
  let n := List.range l.cores
  { cores := n.map fun c => (c, coreImage Core.clear (s.core (l.coreOf c)) l.coreIdx),
    squares := (List.range (4 * l.wards.length)).map fun q =>
      (q, { Square.clear with once := (s.square (l.squareOf q)).once }),
    mem := n.flatMap fun c => moveCells s.mem (localKey (l.coreOf c) 0) 65536 (65536 * c),
    empt := n.flatMap fun c => (s.empt.filter fun u => localKey (l.coreOf c) 0 / 8 ≤ u
      && u < localKey (l.coreOf c) 0 / 8 + 8192).map fun u => u - localKey (l.coreOf c) 0 / 8 + 8192 * c,
    tumblers := ((List.range 32).filter fun t => l.tumblers.getLsbD t).map fun t =>
      (t, (s.tumbler t).base, (s.tumbler t).bits, (s.tumbler t).counters) }

/-- A thread of a launch that leaves its wards: it is known by its district core. -/
def Thread.parted (t : Thread) (l : Launch) : Thread :=
  let idx (k : Nat) : Nat := l.coreIdx ((k - localBase) / 65536)
  { t with
    homeCore := l.coreIdx t.homeCore,
    place := match t.place with
      | .context _ => .saved (l.coreIdx t.homeCore) t.homeSlot
      | .frame k => if k < localBase then .frame k else .savedFrame (idx k) ((k - localBase) % 65536)
      | .spilled k => if k < localBase then .spilled k else .savedSpill (idx k) ((k - localBase) % 65536)
      | p => p }

/-- The thread on its new wards. -/
def Thread.rejoined (t : Thread) (l : Launch) : Thread :=
  { t with
    homeCore := l.coreOf t.homeCore,
    place := match t.place with
      | .saved c _ => .context (l.coreOf c)
      | .savedFrame c off => .frame (localKey (l.coreOf c) off)
      | .savedSpill c off => .spilled (localKey (l.coreOf c) off)
      | p => p }

/-- Steps 3 to 6: tumblers and images are saved, and the wards released. -/
def State.suspendNow (s : State) (lid : Nat) (l : Launch) : State :=
  let saved := s.savedOf l
  let s := l.allCores.foldl (fun s c => s.refuseHeld c) s
  { s with
    threads := s.threads.map (fun p => if p.2.launch = lid then (p.1, p.2.parted l) else p),
    cores := s.cores.filter (fun p => !l.owns p.1),
    squares := s.squares.map (fun p => if l.hasSquare p.1 then
      (p.1, { p.2 with once := Vector.replicate 16 [], itin := [], itinLoad := [], service := none }) else p),
    tumblers := s.tumblers.map (fun p => if p.2.owner == some lid then (p.1, { p.2 with owner := none }) else p),
    launches := tput s.launches lid { l with suspended := true, closing := false, saved := some saved } }

/-- SUSPEND_LAUNCH: closing begins; the command completes once every thread has been evicted and the images are
written. Records held toward the district are refused while it closes: an eviction may wait for the acknowledgement of
one (R220, R284; notes/assumptions/47). -/
def suspendStep (c : Cmd) (lid : Nat) (s : State) : State :=
  let i : Instr := .suspendLaunch c lid
  match s.launch? lid with
  | none => (s.forget i).complete c 1
  | some l =>
    if s.pending.contains i then
      let s := l.allCores.foldl (fun (s : State) c => s.refuseHeld c) s
      if s.suspendable lid l then ((s.forget i).suspendNow lid l).complete c 0 else s
    else if l.suspended || l.closing then s.complete c 1
    else
      let s := (s.closeWards l).modLaunch lid fun l => { l with closing := true }
      { s with pending := s.pending ++ [i] }

def execSuspendLaunch (c : Cmd) (launch : Nat) (s : State) : Host.Outcome State Fault Refusal :=
  .next (s.command c (suspendStep c launch))

/-! ### Resumption (R284, R273) -/

/-- The saved parts come back on the new wards. -/
def State.restoreSaved (s : State) (l : Launch) (v : Saved) : State :=
  let s := v.cores.foldl (fun (s : State) p =>
    s.setCore (l.coreOf p.1) (coreImage (grantedCore l) p.2 l.coreOf)) s
  let s := v.squares.foldl (fun (s : State) p => s.modSquare (l.squareOf p.1) fun q => { q with once := p.2.once }) s
  let s := { s with
    mem := v.mem.foldl (fun m p => writeByte m (localKey (l.coreOf (p.1 / 65536)) (p.1 % 65536)) p.2) s.mem,
    empt := v.empt.foldl (fun e u => sadd e (localKey (l.coreOf (u / 8192)) 0 / 8 + u % 8192)) s.empt }
  v.tumblers.foldl (fun (s : State) p => s.modTumbler p.1 fun x => { x with
    base := p.2.1, bits := p.2.2.1, counters := p.2.2.2 }) s

/-- Every slot of the district takes what waits for it: ring records in their saved order, contexts. -/
def State.refill (s : State) (l : Launch) : State :=
  l.allCores.foldl (fun s c => (List.range 16).foldl (fun s n => s.takeWork c n) s) s

/-- RESUME_LAUNCH: R272 from step 2 with the saved shape; images and tumblers are restored and the contexts become
ready. -/
def resumeStep (c : Cmd) (lid : Nat) (s : State) : State :=
  match s.launch? lid with
  | none => s.complete c 1
  | some l =>
    match l.saved, s.grantAll l.shape with
    | some v, some wards =>
      if !l.suspended || !s.tumblersFree l.tumblers then s.complete c 1
      else
        let l := { l with wards := wards, suspended := false, saved := none }
        let s := (s.prepare lid l).restoreSaved l v
        let s := { s with threads := s.threads.map fun (p : Nat × Thread) =>
          if p.2.launch = lid then (p.1, p.2.rejoined l) else p }
        (s.refill l).openHostBars.complete c 0
    | _, _ => s.complete c 1

def execResumeLaunch (c : Cmd) (launch : Nat) (s : State) : Host.Outcome State Fault Refusal :=
  .next (s.command c (resumeStep c launch))

/-! ### Kill (R321) -/

def killLaunchStep (c : Cmd) (lid : Nat) (s : State) : State :=
  match s.launch? lid with
  | none => s.complete c 1
  | some _ => (s.endLaunch lid 2).complete c 0

def execKillLaunch (c : Cmd) (launch : Nat) (s : State) : Host.Outcome State Fault Refusal :=
  .next (s.command c (killLaunchStep c launch))

end Sys2Proof.Machine
end

