-- ==== Sys2Proof/Machine/System.lean ====
section
/-!
DEFINITION. System registers (R148 to R155), traps and the return from one (R215 to R218), `spill` and `fill`
(R219 to R221, R299), `tlbinv` (R222), `idle` (R223), the `once` prefix (R104, R105, R224, R225), illegal
bundles, and the device's own steps on threads: timers, trap entry, cache fills and page walks.
-/

namespace Sys2Proof.Machine

/-! ### System registers -/

/-- A bit at a place of a word. -/
def flagAt (b : Bool) (n : Nat) : Nat := if b then 2 ^ n else 0

/-- `STATUS` (R149). -/
def State.status (s : State) : Word :=
  let t := s.me
  BitVec.ofNat 64 (s.myCore.reach.toNat * 2 ^ 22 + s.sqUsed s.ctx.core s.ctx.slot * 2 ^ 16 + flagAt t.rflt 11
    + flagAt t.nack 10 + flagAt t.task 9 + flagAt t.hand 8 + flagAt t.away 7)

/-- `QUANT` (R152). -/
def Thread.quant (t : Thread) : Word := t.left.setWidth 64 <<< 32 ||| t.reload.setWidth 64

/-- The value of a system register (R148 to R155). The porter slot belongs to no queue: `OWNQ` reads as 0 there
(notes/assumptions/49). -/
def State.sysValue (s : State) (r : SysReg) : Word :=
  let t := s.me
  match r with
  | .status => s.status
  | .tags => s.myCore.tags
  | .tagerr => s.myCore.tagerr
  | .fmtp => t.fmtp
  | .sclp => t.sclp
  | .quant => t.quant
  | .ownq => if s.ctx.slot = 15 then 0 else (s.myCore.slot s.ctx.slot).ownq.setWidth 64
  | .lmflt => if t.lmflt then 1 else 0
  | .lmaddr => t.lmaddr
  | .fexc => t.fexc.setWidth 64
  | .ftrap => t.ftrap.setWidth 64
  | .itin => (s.square (squareOf s.ctx.core)).itinBase.setWidth 64
  | .asid => s.myLaunch.asid.setWidth 64
  | .level => t.level
  | .clock => s.clockWord

/-- `sysr` (R218). -/
def execSysr (d : Reg) (r : SysReg) (s : State) : Host.Outcome State Fault Refusal :=
  issue .lone (.sysr d r) (fun s => s.setDst d (s.sysValue r)) s

/-- `sysr` of `FEXC` waits for the thread's vector and matrix commands (R70). -/
def execSysrFexc (d : Reg) (s : State) : Host.Outcome State Fault Refusal :=
  issue .lone (.sysrFexc d) (fun s => s.setDst d (s.sysValue .fexc)) s

/-- `sysw` (R148): writable fields only. -/
def sysWrite (r : SysReg) (v : Word) (s : State) : State :=
  match r with
  | .status =>
    (s.modCore s.ctx.core fun c => { c with reach := v.extractLsb' 22 2 }).modMe fun t => { t with
      nack := t.nack && !v.getLsbD 10, rflt := t.rflt && !v.getLsbD 11 }
  | .tagerr => s.modCore s.ctx.core fun c => { c with tagerr := c.tagerr &&& ~~~v }
  | .quant => s.modMe fun t => { t with left := v.extractLsb' 32 32, reload := v.extractLsb' 0 32 }
  | .lmflt => s.modMe fun t => { t with lmflt := t.lmflt && !v.getLsbD 0 }
  | .fexc => s.modMe fun t => { t with fexc := v.extractLsb' 0 6 }
  | .ftrap => s.modMe fun t => { t with ftrap := v.extractLsb' 0 6 }
  | _ => s

def execSysw (r : SysReg) (a : Reg) (s : State) : Host.Outcome State Fault Refusal :=
  issue .lone (.sysw r a) (fun s => sysWrite r (s.src a) s) s

/-- One word of the array that loads the itinerary table: a word outside the window reads as zero and is noted
by the writer (R153). -/
def State.itinWord (s : State) (core tid off : Nat) : State × Word :=
  match s.launchOn core with
  | none => (s, 0)
  | some (_, l) =>
    if l.lmLo ≤ off && off + 8 ≤ l.lmHi then (s, s.loadWord (localKey core off))
    else (s.modThread tid fun t => t.note (BitVec.ofNat 64 (0x800000001FFF0000 + off)), 0)

/-- `sysw ITIN` (R153): the load starts, and its writer parks until entry 1023 is written. -/
def syswItinEffect (a : Reg) (s : State) : State :=
  let base := (s.src a).extractLsb' 0 16 &&& 0xFFF8#16
  let core := s.ctx.core; let tid := s.ctx.tid
  let x := s.itinWord core tid base.toNat
  let load : ItinLoad := { started := false, next := 0, word := x.2, core := core, base := base.toNat, tid := tid }
  (x.1.modSquare (squareOf core) fun q => { q with itinBase := base, itinLoad := q.itinLoad ++ [load] }).modMe
    fun t => { t with wait := some (.itin (s.clock + 256)) }

def execSyswItin (a : Reg) (s : State) : Host.Outcome State Fault Refusal :=
  issue .lone (.syswItin a) (syswItinEffect a) s

/-- One cycle of a load of the itinerary table: the word read in an earlier cycle is written, and the next is read. An
injection in this cycle uses the old value. -/
def State.itinWrite (s : State) (q : Nat) (x : ItinLoad) : State :=
  let s := s.modSquare q fun y => { y with
    itin := if x.word = 0 then tdel y.itin (768 + x.next) else tput y.itin (768 + x.next) x.word,
    badItin := y.badItin.filter fun e => e != 768 + x.next }
  if x.next = 255 then
    s.modThread x.tid fun t => match t.wait with
      | some (.itin _) => t.passed
      | _ => t
  else
    let r := s.itinWord x.core x.tid ((x.base + 8 * (x.next + 1)) % 65536)
    r.1.modSquare q fun y => { y with itinLoad := y.itinLoad ++ [{ x with next := x.next + 1, word := r.2 }] }

/-- One cycle of a load: in the cycle of its first read it writes nothing. -/
def State.itinTick (s : State) (q : Nat) (x : ItinLoad) : State :=
  if x.started then s.itinWrite q x
  else s.modSquare q fun y => { y with itinLoad := y.itinLoad ++ [{ x with started := true }] }

/-- A cycle of every load of a square. The spec does not say what two loads in one square at once do: each writes an entry
in each cycle, the one that started earlier first (notes/assumptions/48). -/
def State.itinTicks (s : State) (q : Nat) : State :=
  let xs := (s.square q).itinLoad
  xs.foldl (fun s x => s.itinTick q x) (s.modSquare q fun y => { y with itinLoad := [] })

/-! ### Traps (R215 to R217) -/

/-- `trap n` (R216): the software trap is due at the bundle's end. -/
def execTrap (n : BitVec 16) (s : State) : Host.Outcome State Fault Refusal :=
  issue .lone (.trap n) (fun s => s.modMe fun t =>
    { t with due := t.due ++ [.trap (.software n) s.ctx.pc s.clock] }) s

/-- `tret` (R217). -/
def tretEffect (a : Reg) (s : State) : State :=
  match s.trappedIn (s.src a) with
  | some t => s.modThread t Thread.resumeTrap
  | none => s

def execTret (a : Reg) (s : State) : Host.Outcome State Fault Refusal := issue .lone (.tret a) (tretEffect a) s

/-- The next trap due, in the order of R215, and what stays due: the float traps are merged, and report the
earliest-issued operation and the OR of the flags (R71). -/
def nextTrap (due : List Due) : Option (TrapKind × Word × List Due) :=
  let software := due.findSome? fun d => match d with | .trap (.software n) pc _ => some (n, pc) | _ => none
  let floats := due.filterMap fun d => match d with | .trap (.float f) pc o => some (f, pc, o) | _ => none
  let quantum := due.findSome? fun d => match d with | .trap .quantum pc _ => some pc | _ => none
  let isSoftware (d : Due) : Bool := match d with | .trap (.software _) _ _ => true | _ => false
  let isFloat (d : Due) : Bool := match d with | .trap (.float _) _ _ => true | _ => false
  let isQuantum (d : Due) : Bool := match d with | .trap .quantum _ _ => true | _ => false
  match software, floats, quantum with
  | some (n, pc), _, _ => some (.software n, pc, due.filter fun d => !isSoftware d)
  | none, x :: r, _ =>
    let first := r.foldl (fun (b : FlagBits × Word × Nat) y => if y.2.2 < b.2.2 then y else b) x
    some (.float ((x :: r).foldl (fun f y => f ||| y.1) 0), first.2.1, due.filter fun d => !isFloat d)
  | none, [], some pc => some (.quantum, pc, due.filter fun d => !isQuantum d)
  | none, [], none => none

/-- The first fault that is due and may be taken at this boundary, and what stays due. A deadline is taken by a
parked thread too, and leaves its waits (R47); other causes wait for the bundle's end (R323). -/
def nextFault (t : Thread) : List Due → Option (Flt × List Due)
  | [] => none
  | .fault f :: r =>
    let atBoundary := match t.wait with | none => true | some (.cond _) => true | _ => false
    if f.cause = 0x20 || (atBoundary && t.trapped.isNone) then some (f, r)
    else (nextFault t r).map fun x => (x.1, .fault f :: x.2)
  | d :: r => (nextFault t r).map fun x => (x.1, d :: x.2)

/-- A fault of a boundary: the bundle a parked thread waits in is the one that ignore and retry act on. -/
def Thread.boundary (t : Thread) (f : Flt) : Flt :=
  if f.cause != 0x20 then f
  else match t.wait, t.bundle with
    | some _, some b => { f with pc := b.pc, bundle := some b }
    | _, _ => { f with pc := t.pc }

/-- A trap whose drain has ended: errors first, then the delivery (R323). -/
def State.takeTrap (s : State) (tid : Nat) (k : TrapKind) (pc : Word) : State :=
  let s := s.chargeFailed tid none
  match s.thread? tid with
  | some t => match t.place with
    | .slot _ _ => s.deliver tid k pc
    | _ => s
  | none => s

/-- A thread away from home goes home before its trap, after a release (R138, R215). -/
def State.trapHome (s : State) (tid : Nat) (t : Thread) (c n : Nat) (rest : List Due) : State :=
  let l := s.launchOf t
  if !(s.failedSq c n).isEmpty then s.chargeFailed tid none
  else
    match s.hwRoute l (squareOf c) (256 + l.squareIdx t.homeCore) 2 false with
    | .ok _ => if s.hold.contains (dieOf c) then s else s.depart tid t.homeCore
    | .error q =>
      let ws := s.itinEntry (squareOf c) (256 + l.squareIdx t.homeCore)
      let f : Flt := { cause := 0x18, qual := q, pc := t.pc, detail := withClass 2 ws.1 }
      let dropped := match absorber t.retries (offered l t f) with
        | some (_, v) => v.policy == 0
        | none => false
      (if dropped then s.modThread tid fun t => { t with due := rest } else s).contain tid f

/-- The traps of a thread that has nothing else due. -/
def State.trapDue (s : State) (tid : Nat) (t : Thread) (c n : Nat) : State :=
  match nextTrap t.due with
  | none => s
  | some (k, pc, rest) =>
    if t.trapped.isSome || !s.awake tid t then s
    else if t.away && !t.hand then if s.drained c n then s.trapHome tid t c n rest else s
    else if s.drained c n then (s.modThread tid fun t => { t with due := rest, wait := none }).takeTrap tid k pc
    else s.modThread tid fun t => { t with due := .trap k pc 0 :: rest, wait := some .drain }

/-- TRAP_TAKE: a thread takes what is due at its boundary (R323, R215, R47, R183). -/
def trapTakeStep (tid : Nat) (s : State) : State :=
  match s.thread? tid with
  | none => s
  | some t =>
    let (c, n) := t.slotNow
    let here := match t.place with | .slot _ _ => true | .flying _ => t.outst.isSome | _ => false
    let held := match t.wait with | some (.matrix k) => !s.inExchange c k | _ => false
    match t.due with
    | [] => s
    | d :: rest =>
      if !here || held then s
      else if t.due.contains .kill then s.killDue tid
      else if t.wait == some .drain then
        if !s.drained c n then s
        else
          let s := s.modThread tid fun t => { t with due := rest, wait := none }
          match d with
          | .errs b => s.chargeFailed tid (some b)
          | .fault f => s.takeFault tid f
          | .trap k pc _ => s.takeTrap tid k pc
          | .kill => s
      else
        match nextFault t t.due with
        | some (f, rest) =>
          let s := match t.wait with
            | some (.matrix k) => s.modCore c fun x => x.removeMat k (s.clock + 1)
            | _ => s
          (s.modThread tid fun t => { t with due := rest }).raise tid (t.boundary f)
        | none => s.trapDue tid t c n

def execTrapTake (tid : Nat) (s : State) : Host.Outcome State Fault Refusal := .next (trapTakeStep tid s)

/-! ### Timers -/

/-- The thread's home slot is held by it: its quantum counts (R50, R152, R215). -/
def Thread.quantRuns (t : Thread) : Bool :=
  t.trapped.isNone && (match t.place with
    | .slot _ _ | .flying _ | .ring _ => true
    | _ => false)

/-- One cycle of a thread's quantum (R152). -/
def Thread.quantTick (t : Thread) : Thread :=
  if t.reload = 0 || !t.quantRuns then t
  else if t.left = 0 then { t with left := t.reload }
  else if t.left = 1 then { t with left := t.reload, qhit := true }
  else { t with left := t.left - 1 }

/-- QUANTUM_EXPIRE: the quantum trap is due (R152); one that is pending already stands for it. -/
def quantumStep (core slot : Nat) (s : State) : State :=
  match s.threads.find? fun p => p.2.qhit && p.2.homeCore == core && p.2.homeSlot == slot with
  | none => s
  | some (tid, _) =>
    s.modThread tid fun t =>
      let pending := t.due.any fun d => match d with | .trap .quantum _ _ => true | _ => false
      { t with qhit := false, due := if pending then t.due else t.due ++ [.trap .quantum t.lastPc s.clock] }

def execQuantumExpire (core slot : Nat) (s : State) : Host.Outcome State Fault Refusal :=
  .next (quantumStep core slot s)

/-- DEADLINE_EXPIRE: the unit's deadline has come; each of its threads has the fault due (R43, R47). -/
def deadlineStep (lid level u : Nat) (s : State) : State :=
  match s.launch? lid with
  | none => s
  | some l =>
    match l.levels[level]? with
    | none => s
    | some v =>
      if v.deadline = 0 || s.clock < l.start + 1024 * v.deadline || l.fired.contains (level, u) || l.suspended then s
      else
        let s := s.modLaunch lid fun l => { l with fired := (level, u) :: l.fired }
        let f : Flt := { cause := 0x20, detail := BitVec.ofNat 64 level, level := some level }
        { s with threads := s.threads.map fun p =>
            if p.2.launch = lid && p.2.inUnit l v u then (p.1, { p.2 with due := p.2.due ++ [.fault f] }) else p }

def execDeadlineExpire (launch level unit : Nat) (s : State) : Host.Outcome State Fault Refusal :=
  .next (deadlineStep launch level unit s)

/-! ### `idle` (R223) -/

/-- `idle`: a set event bit is cleared and the thread goes on; else it waits, for a number of cycles at most. -/
def idleEffect (a : Reg) (s : State) : State :=
  let v := (s.src a).toNat
  let c := s.ctx.core; let n := s.ctx.slot
  if (s.slot c n).event then s.modSlot c n fun x => { x with event := false }
  else s.modMe fun t => { t with wait := some (.idle (if v = 0 then none else some (s.clock + v))) }

def execIdle (a : Reg) (s : State) : Host.Outcome State Fault Refusal := issue .lone (.idle a) (idleEffect a) s

/-- IDLE_TIMEOUT: the cycles of an `idle` have passed. -/
def idleTimeoutStep (core slot : Nat) (s : State) : State :=
  match (s.slot core slot).tid with
  | none => s
  | some tid => s.modThread tid fun t =>
    match t.wait with
    | some (.idle (some u)) => if t.place = .slot core slot && u ≤ s.clock then t.passed else t
    | _ => t

def execIdleTimeout (core slot : Nat) (s : State) : Host.Outcome State Fault Refusal :=
  .next (idleTimeoutStep core slot s)

/-! ### Save areas (R219) -/

/-- The thread fields of `STATUS` (R219). -/
def Thread.statusWord (t : Thread) : Word :=
  BitVec.ofNat 64 (flagAt t.rflt 11 + flagAt t.nack 10 + flagAt t.task 9 + flagAt t.hand 8)

/-- The n low bits set. -/
def lowMask (n : Nat) : Word := BitVec.ofNat 64 (2 ^ n - 1)

/-- The 80 words of the save area of a thread that goes on at an address: a register beyond its shape is no register,
and its bit is clear. -/
def saveWords (l : Launch) (t : Thread) (resume : Word) : List Word :=
  let g := (List.range 32).map fun n => if n < t.gregs then t.regs.getG (BitVec.ofNat 5 n) else 0
  let v := (List.range 8).flatMap fun k => (List.range 4).map fun i =>
    if k < t.vregs then (t.regs.getV (BitVec.ofNat 3 k)).extractLsb' (64 * i) 64 else 0
  [resume, (t.regs.vfull.setWidth 64 &&& lowMask t.vregs) <<< 32 ||| ((t.regs.gfull ||| 1).setWidth 64 &&& lowMask t.gregs),
   BitVec.ofNat 64 (t.gregs * 2 ^ 16 + t.vregs * 2 ^ 12 + (t.regs.preds ||| 1).toNat), t.statusWord, t.fmtp, t.sclp,
   t.quant, if t.lmflt then 1 else 0, t.lmaddr, t.fexc.setWidth 64, t.ftrap.setWidth 64, t.level,
   BitVec.ofNat 64 (l.roles t.homeSlot), 0, 0, 0] ++ g ++ v

/-- The registers of a save area; those beyond the shape are zero and full, `p0` is true. -/
def savedRegs (gregs vregs : Nat) (ws : List Word) : Regs :=
  let w (i : Nat) : Word := ws.getD i 0
  let vec (k : Nat) : Vec := w (48 + 4 * k + 3) ++ w (48 + 4 * k + 2) ++ w (48 + 4 * k + 1) ++ w (48 + 4 * k)
  { g := Vector.ofFn fun (i : Fin 32) => if i.val < gregs && i.val != 0 then w (16 + i.val) else 0,
    gfull := (w 1).extractLsb' 0 32 ||| (BitVec.allOnes 32 <<< gregs) ||| 1,
    v := Vector.ofFn fun (i : Fin 8) => if i.val < vregs then vec i.val else 0,
    vfull := (w 1).extractLsb' 32 8 ||| (BitVec.allOnes 8 <<< vregs),
    preds := (w 2).extractLsb' 0 8 ||| 1 }

/-- Give a thread what a save area holds (R219, R221). -/
def Thread.restored (t : Thread) (ws : List Word) : Thread :=
  let w (i : Nat) : Word := ws.getD i 0
  { t with pc := w 0, regs := savedRegs t.gregs t.vregs ws, rflt := (w 3).getLsbD 11, nack := (w 3).getLsbD 10,
           task := (w 3).getLsbD 9, hand := (w 3).getLsbD 8, fmtp := w 4, sclp := w 5,
           left := (w 6).extractLsb' 32 32, reload := (w 6).extractLsb' 0 32, lmflt := (w 7).getLsbD 0,
           lmaddr := w 8, fexc := (w 9).extractLsb' 0 6, ftrap := (w 10).extractLsb' 0 6, level := w 11 }

/-- Write a block atom by atom, every word full; waiting accesses that this allows are performed (R39). -/
def State.writeBlock (s : State) (a : Word) (ws : List Word) : State :=
  (List.range (ws.length / 4)).foldl (fun s k =>
    let x := a + BitVec.ofNat 64 (32 * k)
    if s.oor x 32 then s
    else
      let key := s.keyOf x .w
      let s := (s.healed key 32).fillWords key 32
      { s with mem := writeWords s.mem key ((ws.drop (4 * k)).take 4) }.serveAll (homeOf key)) s

/-- The thread that `spill` put into a save area, if no later one has been put there. -/
def State.spilledAt (s : State) (launch key : Nat) : Option Nat :=
  (s.threads.find? fun p => p.2.launch == launch && p.2.place == .spilled key).map Prod.fst

/-- No save area: a thread whose save area another thread has taken counts for its level units, and comes back no more. -/
def lostKey : Nat := localBase - 1

/-- A save area takes another thread: the one that stood there is lost (notes/assumptions/25). -/
def State.overwritten (s : State) (launch key : Nat) : State :=
  match s.spilledAt launch key with
  | none => s
  | some old =>
    match s.thread? old with
    | some t => if t.units.isSome then s.modThread old fun t => { t with place := .spilled lostKey } else s.endThread old
    | none => s

/-- `spill` (R220): the trapped thread's save area is written, and its slot is held for the issuer (R299). The thread has not
ended: it counts for its level units (R297), and slots held for it stay held. -/
def spillEffect (a b : Reg) (s : State) : State :=
  let w := s.src b; let me := s.ctx.tid
  match s.trappedIn (s.src a) with
  | none => s
  | some tid =>
    match s.thread? tid with
    | none => s
    | some t =>
      let l := s.launchOf t
      let key := s.keyOf w .w
      let s := s.overwritten t.launch key
      let s := (s.noteBlock w 640).writeBlock w (saveWords l t (t.trapped.getD t.pc))
      let s := s.leaveOnce tid t
      let s := s.modSlot t.homeCore t.homeSlot fun x => { x with tid := none, held := some me }
      s.modThread tid fun t => { t with
        place := .spilled key, bank := none, trapped := none, due := [], wait := none, bundle := none, retries := 0 }

def execSpill (a b : Reg) (s : State) : Host.Outcome State Fault Refusal := issue .lone (.spill a b) (spillEffect a b) s

/-- A thread that `fill` replaces leaves its level units; slots held for it, on any core, are held for the new one (R299). -/
def State.leaveSpilled (s : State) (old new : Nat) : State :=
  let s := (s.cores.map Prod.fst).foldl (fun (s : State) c => (List.range 16).foldl (fun (s : State) n =>
    if (s.slot c n).held = some old then s.modSlot c n fun x => { x with held := some new } else s) s) s
  s.endThread old

/-- `fill` (R221): a thread starts in the slot from its save area. -/
def fillEffect (a b : Reg) (s : State) : State :=
  let w := s.src b; let c := s.ctx.core
  match s.fillSlot (s.src a) with
  | none => s
  | some n =>
    let l := s.myLaunch
    let ws := s.blockWords w 80 .rd
    let key := s.keyOf w .rd
    let s := (s.correctBlock w 640).noteBlock w 640
    let t : Thread := ({ Thread.blank with
      launch := s.me.launch, homeCore := c, homeSlot := n, place := .slot c n, gregs := l.gregs,
      vregs := l.vregs } : Thread).restored ws
    let new := s.nextTid
    let s := { s with threads := tput s.threads new t, nextTid := new + 1 }
    let s := s.modSlot c n fun x => { x.seat new with held := none }
    match s.spilledAt t.launch key with
    | some old => s.leaveSpilled old new
    | none => s

def execFill (a b : Reg) (s : State) : Host.Outcome State Fault Refusal := issue .lone (.fill a b) (fillEffect a b) s

/-! ### `tlbinv` (R222) -/

/-- Drop what a control word covers from a square; walks for covered pages start again. -/
def State.invalidate (s : State) (q : Nat) (asid : BitVec 12) (all big : Bool) (va : Nat) : State :=
  s.modSquare q fun x => { x with
    trans := dropTrans x.trans asid all big va, lines := dropLines x.lines asid all big va,
    walkAt := dropWalks x.walkAt asid all big va }

def tlbinvEffect (a b : Reg) (s : State) : State :=
  match tlbControl (s.src b) with
  | none => s
  | some (reach, big, all) =>
    let l := s.myLaunch
    let qs := if reach then l.allSquares else [squareOf s.ctx.core]
    let va := (s.src a).toNat
    qs.foldl (fun s q => s.invalidate q l.asid all big va) s

def execTlbinv (a b : Reg) (s : State) : Host.Outcome State Fault Refusal :=
  issue .lone (.tlbinv a b) (tlbinvEffect a b) s

/-! ### Illegal bundles (R93) -/

/-- The halves of a bundle, from its instructions. -/
def partsOf : List Instr → List (Part × Instr)
  | [c, a] => [(.c, c), (.a, a)]
  | is => is.map fun i => (.lone, i)

/-- The qualifier of an illegal bundle (R322). -/
def illegalCode : Illegal → Nat
  | .opcode => 1
  | .function => 2
  | .field => 3
  | .register => 4
  | .doubleWrite => 5
  | .prefixMisuse => 6

/-- ILLEGAL_BUNDLE: the bundle takes the fault; a governed bundle's is reported at its prefix. -/
def illegalEffect (r : Illegal) (h : Part) (s : State) : State :=
  (s.opened (partsOf s.ctx.instrs)).stopWith (.fault { cause := 0x10, qual := illegalCode r, half := h })

def execIllegalBundle (r : Illegal) (h : Part) (s : State) : Host.Outcome State Fault Refusal :=
  match s.me? with
  | none => .fault .noThread
  | some _ => .next (illegalEffect r h s)

/-! ### `once` (R104, R224, R225) -/

/-- The governed bundle issues on this thread: its waits and checks, then its effects follow. A gang member
counts the occurrence. -/
def State.govern (s : State) (parts : List (Part × Instr)) : State :=
  let s := s.bindNow (parts : List (Part × Instr))
  match firstStop [overHalves parts s.bindStop, overHalves parts s.readiness, overHalves parts s.engineRoom,
      overHalves parts s.badOperand, overHalves parts s.late] with
  | some x => s.stopWith x
  | none =>
    let s := if s.me.gang then s.reachOnce s.ctx.tid s.me else s
    { s with ctx := { s.ctx with phase := .checked, governed := true } }

/-- A member that is not elected: its destinations are emptied, and filled at once with values that wait; it has no
other effect, and pops no port. -/
def State.member (s : State) (r : OnceRec) (dsts : List Nat) : State :=
  let t := s.me
  match dsts.find? fun d => !t.regs.fullDst d with
  | some d => s.stopWith (.park (if d < 32 then .gFull d else .vFull (d - 32)))
  | none =>
    let s := s.modMe fun t => { t with
      regs := dsts.foldl Regs.emptyDst t.regs, badRegs := t.badRegs.filter (fun d => !dsts.contains d),
      awaited := t.awaited ++ ((r.dsts.zip r.vals).filter fun p => p.2.isNone).map fun p => (p.1, t.occ) }
    let s := s.reachOnce s.ctx.tid t
    let s := (r.dsts.zip r.vals).foldl (fun (s : State) (p : Nat × Option Vec) => match p.2 with
      | some v => s.modMe fun t => { t with regs := t.regs.setDst p.1 v }
      | none => s) s
    { s with ctx := { s.ctx with instrs := [.once], phase := .checked } }.finish.retireOnce t.launch (squareOf t.homeCore) t.homeSlot

/-- ONCE: the unit's checks, the election, and what this member does. -/
def onceStep (s : State) : State :=
  let parts := partsOf s.ctx.instrs
  let dsts := s.ctx.instrs.flatMap regDsts
  let s := s.opened parts
  match firstStop [doubleWrite parts, s.issueChecks ((.lone, .once) :: parts)] with
  | some x => s.stopWith x
  | none =>
    let t := s.me
    if !t.gang then s.govern parts
    else
      match s.onceRecord t s.ctx.pc dsts with
      | (s, none) => s.stopWith (.park .onceRoom)
      | (s, some r) =>
        let fault (cause : Nat) (d : Word) : Stop := .fault { cause := cause, half := .lone, detail := d }
        if r.unit != s.ctx.pc then s.stopWith (fault 0x27 r.unit)
        else if !r.posted && !r.hasElect (s.gangOf t.launch (squareOf t.homeCore) t.homeSlot) then
          s.stopWith (fault 0x28 s.ctx.pc)
        else if r.elect != posInSquare t.homeCore then s.member r dsts
        else s.govern parts

def execOnce (s : State) : Host.Outcome State Fault Refusal :=
  match s.me? with
  | none => .fault .noThread
  | some _ => .next (onceStep s)

/-- The end of a governed bundle that ran: an elected member posts the destinations that are full. -/
def State.postUnit (s : State) : State :=
  match s.me? with
  | none => s
  | some t =>
    if !t.gang || !s.ctx.governed then s
    else
      let dsts := s.ctx.instrs.flatMap regDsts
      let vals := (dsts.filter t.regs.fullDst).map fun d => (d, if d < 32 then
        (t.regs.getG (BitVec.ofNat 5 d)).setWidth 256 else t.regs.getV (BitVec.ofNat 3 (d - 32)))
      s.postOnce t (t.occ - 1) s.ctx.pc vals

/-- The governed bundle misuses the prefix (R105): `steal` writes a field of `STATUS` (R147). -/
def misuse (i : Instr) : Bool :=
  let transfer := match i with
    | .once | .br _ _ _ | .bra _ | .callLabel _ _ | .jmp _ | .callReg _ _ | .ret _ | .brt _ _ | .brq _ _ _
    | .done | .mig _ | .home | .trap _ | .tret _ | .spill _ _ | .fill _ _ | .idle _ | .spawn _ _ _ _ | .sync _
    | .syncEnd _ | .sysw _ _ | .syswItin _ | .steal _ => true
    | _ => false
  transfer || (writesOf i).any fun d => 40 ≤ d

/-! ### Caches and translations -/

/-- Enter a line; a full cache of 1,024 lines gives one up (R109). -/
def addLine (free : Nat) (ls : List Line) (x : Line) : List Line :=
  if ls.length < 1024 then x :: ls else x :: ls.eraseIdx (Config.lineVictim free % 1024)

/-- Threads of a square and identifier that park on a condition. -/
def State.parkedOn (s : State) (q : Nat) (asid : BitVec 12) (f : Cond → Option Nat) : List (Nat × Nat) :=
  s.threads.filterMap fun p =>
    match p.2.wait with
    | some (.cond c) =>
      if squareOf p.2.coreNow = q && (s.launchOf p.2).asid = asid then (f c).map fun a => (p.1, a) else none
    | _ => none

/-- ICACHE_FILL: the line arrives for the threads that wait for it, once no alert holds its bank (R333). Where its page no
longer translates, or an atom of it cannot be read, they fetch again (R109, R110). -/
def icacheStep (q : Nat) (asid : BitVec 12) (line : Nat) (s : State) : State :=
  let who := s.parkedOn q asid fun c => match c with
    | .line a => if a / 64 = line then some a else none
    | _ => none
  let again (s : State) : State := who.foldl (fun s p => s.modThread p.1 fun t => { t with wait := none }) s
  if who.isEmpty then s
  else
    match lookIn (s.square q).trans asid (BitVec.ofNat 64 (64 * line)) .x with
    | .hit k =>
      if !s.bankOpen k || !s.bankOpen (k + 32) then s
      else if s.isBad k 32 || s.isBad (k + 32) 32 then again s
      else
        let s := (s.corrected k 32 asid).corrected (k + 32) 32 asid
        let x : Line := { asid := asid, addr := 64 * line, data := BitVec.ofNat 512 (s.load k 64) }
        let s := s.modSquare q fun y => { y with lines := addLine s.free y.lines x }
        again { s with free := s.free + 1 }
    | _ => again s

def execIcacheFill (square : Nat) (asid : BitVec 12) (line : Nat) (s : State) : Host.Outcome State Fault Refusal :=
  .next (icacheStep square asid line s)

/-- The bundle, or the unit, that could not be fetched. -/
def fetchBundle (pc : Word) (unit : Bool) : BundleInfo :=
  if unit then { pc := pc, instrs := [.once], next := pc + 16 } else { pc := pc, instrs := [], next := pc + 8 }

/-- A prefix at an address stands in the last 8 bytes of the page that maps it (R110): a 64 KiB one, or a 32 MiB
one that the square's unit holds. -/
def State.endsPage (s : State) (q : Nat) (asid : BitVec 12) (pc : Word) : Bool :=
  pc.toNat % 65536 = 65528
    && !((s.square q).trans.any fun t => t.covers asid pc.toNat && t.big && pc.toNat % 2 ^ 25 != 2 ^ 25 - 8)

/-- The fault of a walk at a thread that waits on it: at its own bundle, with its own address (R310); a float trap that is
due goes first, and the bundle meets the fault again (R71). -/
def State.walkFault (s : State) (f : XFault) (tid a : Nat) (fetch : Bool) : State :=
  match s.thread? tid with
  | none => s
  | some t =>
    let va := BitVec.ofNat 64 a
    if t.floatDue then s.modThread tid fun t => { t with wait := none }
    else if fetch then
      let second := va != t.pc
      let q := squareOf t.coreNow
      let qual := if f.cause = 0x19 then 6 else if second && s.endsPage q (s.launchOf t).asid t.pc then 5 else 1
      s.raise tid { cause := 0x1B, qual := qual, pc := t.pc, detail := va, bundle := some (fetchBundle t.pc second) }
    else
      s.raise tid { cause := f.cause, qual := f.qual, half := bundleHalf t.bundle,
                    pc := (t.bundle.map BundleInfo.pc).getD t.pc, detail := if f.cause = 0x19 then f.detail else va,
                    bundle := t.bundle }

/-- A walk has ended in a fault for the engines that wait for it. -/
def Core.walkFailed (c : Core) (page : Nat) (f : XFault) : Core :=
  let mark (w : Option EngineWalk) : Option EngineWalk := w.map fun x =>
    if x.page = page then { x with fault := some (f.cause, f.qual) } else x
  { c with copies := c.copies.map fun y => { y with walk := mark y.walk },
           banks := c.banks.map fun b => { b with walk := mark b.walk } }

/-- Cores of a square that run a launch of an identifier. -/
def State.coresOf (s : State) (q : Nat) (asid : BitVec 12) : List Nat :=
  ((s.cores.filter fun p => p.1 < channelBase && squareOf p.1 == q).map Prod.fst).filter fun c =>
    match s.launchOn c with
    | some (_, l) => l.asid == asid
    | none => false

/-- A walk has ended in a fault for a drain of a tumbler that waits for it. -/
def Tumbler.walkFailed (x : Tumbler) (cores : List Nat) (page : Nat) (f : XFault) : Tumbler :=
  { x with ops := x.ops.map fun o => { o with walk := o.walk.map fun w =>
      if (w.page == page) && (cores.contains o.core) then { w with fault := some (f.cause, f.qual) } else w } }

/-- Every thread and engine of a square that waits on a walk meets its fault. -/
def State.walkEnds (s : State) (q : Nat) (asid : BitVec 12) (page : Nat) (f : XFault) : State :=
  let data := s.parkedOn q asid fun c => match c with
    | .walk a => if a / 65536 = page then some a else none
    | _ => none
  let code := s.parkedOn q asid fun c => match c with
    | .fetchWalk a => if a / 65536 = page then some a else none
    | _ => none
  let cores := s.coresOf q asid
  let s := data.foldl (fun s p => s.walkFault f p.1 p.2 false) s
  let s := code.foldl (fun s p => s.walkFault f p.1 p.2 true) s
  let s := cores.foldl (fun (s : State) c => s.modCore c fun x => x.walkFailed page f) s
  { s with tumblers := s.tumblers.map fun (p : Nat × Tumbler) =>
      if p.2.ops.isEmpty then p else (p.1, p.2.walkFailed cores page f) }

/-- A walk that runs leaves the unit. -/
def Square.endWalk (x : Square) (w : BitVec 12 × Nat) : Square :=
  { x with walks := x.walks.filter (fun v => v != w), walkAt := x.walkAt.filter fun v => v.1 != w }

/-- PAGE_WALK: one of the 64 walks that run (R310) reads its next entry at the entry's home (R306), once no alert holds its
bank (R333). With a leaf it ends, and its translation is held; with a fault every thread that waits on it takes it. -/
def pageWalkStep (q : Nat) (asid : BitVec 12) (page : Nat) (s : State) : State :=
  let w := (asid, page)
  let at_ := (((s.square q).walkAt.find? fun v => v.1 == w).map Prod.snd).getD (5, s.rootTable.toNat)
  let va := page * 65536
  let k := walkKey asid va at_.1 at_.2
  if !((s.square q).walks.take 64).contains w || (physOk k && !s.bankOpen k) then s
  else
    let s1 := s.readEntries asid (if physOk k then [k] else [])
    match walkEntry s asid va at_.1 at_.2 with
    | .down next => s1.modSquare q fun x => { x with
        walkAt := (w, (at_.1 - 1, next)) :: x.walkAt.filter fun v => v.1 != w }
    | .leaf t =>
      let s2 := s1.modSquare q fun x => { x.endWalk w with trans := addTrans s.free x.trans t }
      { s2 with free := s.free + 1 }
    | .fault f => (s1.modSquare q fun x => x.endWalk w).walkEnds q asid page f

def execPageWalk (square : Nat) (asid : BitVec 12) (page : Nat) (s : State) : Host.Outcome State Fault Refusal :=
  .next (pageWalkStep square asid page s)

end Sys2Proof.Machine
end

