-- ==== Sys2Proof/Machine/Delilatur.lean ====
section
/-!
DEFINITION. The other commands of the Delilatur set (R320, R321): Identify and sensors (R341, R4), device memory
(R339), translation (R305, R311), heaps (R244 to R246, R266), the street map (R289, R293, R294, R328),
namespaces and objects (R312), patches and scrubbing (R330, R331), and attestation (R317, R318).
-/

namespace Sys2Proof.Machine

/-- INVALID_ENTRY (R320): an unknown opcode, or a reserved bit that is not zero. -/
def execInvalidEntry (c : Cmd) (s : State) : Host.Outcome State Fault Refusal :=
  .next (s.command c fun s => s.complete c 2)

/-! ### Identify and sensors -/

/-- The identity block (R341). -/
def State.identity (s : State) : List Word :=
  [BitVec.ofNat 64 (s.streets.present.toNat * 2 ^ 16 + 1)] ++ s.ringAddr.toList.map (BitVec.ofNat 64)
    ++ [BitVec.ofNat 64 s.smapAddr, 0, 0]

def identifyStep (c : Cmd) (buf : Nat) (s : State) : State :=
  (s.toHost buf (s.identity.flatMap wordBytes)).complete c 0

def execIdentify (c : Cmd) (buf : Nat) (s : State) : Host.Outcome State Fault Refusal :=
  .next (s.command c (identifyStep c buf))

/-- READ_SENSORS: the layout of the answer is not given, so its 64 bytes are free values (R321). -/
def sensorsStep (c : Cmd) (buf : Nat) (s : State) : State :=
  let s' := s.toHost buf ((List.range 64).map (Config.sensorByte s.free))
  { s' with free := s.free + 1 }.complete c 0

def execReadSensors (c : Cmd) (buf : Nat) (s : State) : Host.Outcome State Fault Refusal :=
  .next (s.command c (sensorsStep c buf))

/-! ### Device memory (R339) -/

/-- One host write of n bytes, 8 or a whole atom, under `femode`; then its waiters are served (R39). -/
def State.hostStore (s : State) (key n v femode : Nat) : State :=
  let s := if n = 32 then s.healed key 32 else s.corrected key 8 0
  let s := s.store key n v
  if femode = 0 then (s.fillWords key n).serveAll (homeOf key)
  else if femode = 1 then (s.emptyWords key n).serveAll (homeOf key)
  else s

/-- Write n more words from word i on: the state, and the bytes performed before an access that is refused. -/
def State.hostWrite (s : State) (dev hostA total femode : Nat) : Nat → Nat → State × Option Nat
  | 0, _ => (s, none)
  | n + 1, i =>
    if total ≤ i then (s, none)
    else
      let key := dev + 8 * i
      let whole := key % 32 = 0 && i + 4 ≤ total
      let k := if whole then 4 else 1
      if !whole && s.isBad key 8 then (s.uncorrected key, some (8 * i))
      else
        let v := (List.range (8 * k)).foldr (fun j acc => (s.hostByte (hostA + 8 * i + j)).toNat + 256 * acc) 0
        (s.hostStore key (8 * k) v femode).hostWrite dev hostA total femode n (i + k)

/-- The arguments of commands 0x20 and 0x21 are valid. -/
def deviceOk (dev len : Nat) : Bool := dev % 8 = 0 && len % 8 = 0 && 8 ≤ len && dev + len ≤ hbmEnd

/-- No alert holds a bank of device memory that a command reads or writes (R333). -/
def State.rangeOpen (s : State) (dev len : Nat) : Bool :=
  s.alerts.isEmpty || (List.range (len / 8)).all fun i => s.bankOpen (dev + 8 * i)

/-- WRITE_DEVICE_MEMORY. -/
def writeDeviceStep (c : Cmd) (dev hostA len : Nat) (w4 : Word) (s : State) : State :=
  if !deviceOk dev len || bits w4 2 62 != 0 || w4 = 3 then s.complete c 2
  else if !s.rangeOpen dev len then s.postpone (.writeDeviceMemory c dev hostA len w4)
  else
    let r := s.hostWrite dev hostA (len / 8) w4.toNat (len / 8) 0
    match r.2 with
    | none => r.1.complete c 0
    | some n => r.1.complete c 1 n

def execWriteDeviceMemory (c : Cmd) (dev hostA len : Nat) (w4 : Word) (s : State) : Host.Outcome State Fault Refusal :=
  .next (s.command c (writeDeviceStep c dev hostA len w4))

/-- Read n words from word i on: the words with their full/empty bits, and whether an access was refused. -/
def State.hostRead (s : State) (dev : Nat) : Nat → Nat → State × List (Word × Bool) × Bool
  | 0, _ => (s, [], false)
  | n + 1, i =>
    let key := dev + 8 * i
    if s.isBad key 8 then (s.uncorrected key, [], true)
    else
      let s := s.corrected key 8 0
      let r := s.hostRead dev n (i + 1)
      (r.1, (s.loadWord key, s.isFull key) :: r.2.1, r.2.2)

/-- Full/empty bits as bytes, bit n the bit of word n, padded to a multiple of 8 bytes. -/
def feBytes (fs : List Bool) : List Byte :=
  (List.range ((fs.length + 63) / 64 * 8)).map fun k =>
    BitVec.ofNat 8 ((List.range 8).foldr (fun i acc => (if fs.getD (8 * k + i) false then 2 ^ i else 0) + acc) 0)

/-- READ_DEVICE_MEMORY. -/
def readDeviceStep (c : Cmd) (dev hostA len : Nat) (w4 : Word) (s : State) : State :=
  if !deviceOk dev len || bits w4 2 62 != 0 || 2 ≤ w4.toNat then s.complete c 2
  else if !s.rangeOpen dev len then s.postpone (.readDeviceMemory c dev hostA len w4)
  else
    let r := s.hostRead dev (len / 8) 0
    let xs := r.2.1
    let s := r.1.toHost hostA (xs.flatMap fun x => wordBytes x.1)
    if r.2.2 then s.complete c 1 (8 * xs.length)
    else
      let s := if w4 = 1 then s.toHost (hostA + len) (feBytes (xs.map Prod.snd)) else s
      s.complete c 0

/-- A read that is answered may open barriers of scope `.host` (R232). -/
def execReadDeviceMemory (c : Cmd) (dev hostA len : Nat) (w4 : Word) (s : State) : Host.Outcome State Fault Refusal :=
  .next (s.command c fun s => (readDeviceStep c dev hostA len w4 s).openHostBars)

/-! ### Translation (R305, R311) -/

/-- SET_ROOT_TABLE_ADDRESS. -/
def execSetRootTableAddress (c : Cmd) (a : Word) (s : State) : Host.Outcome State Fault Refusal :=
  .next (s.command c fun s => { s with rootTable := a }.complete c 0)

/-- WRITE_ROOT_ENTRY: a store of one word at its home. -/
def rootEntryStep (c : Cmd) (asid : BitVec 12) (e : Word) (s : State) : State :=
  let key := s.rootTable.toNat + 8 * asid.toNat
  if bits e 1 11 != 0 || bits e 48 16 != 0 then s.complete c 2
  else if !physOk key then s.complete c 1
  else if !s.bankOpen key then s.postpone (.writeRootEntry c asid e)
  else if s.isBad key 8 then (s.uncorrected key).complete c 1
  else ((s.corrected key 8 0).storeWord key e).complete c 0

def execWriteRootEntry (c : Cmd) (asid : BitVec 12) (e : Word) (s : State) : Host.Outcome State Fault Refusal :=
  .next (s.command c (rootEntryStep c asid e))

/-- INVALIDATE_TRANSLATIONS: every unit that may hold the identifier's; no line of code is discarded (R109, R311). -/
def invalidateStep (c : Cmd) (asid : BitVec 12) (page ctl : Word) (s : State) : State :=
  match tlbControl ctl with
  | none => s.complete c 2
  | some (_, big, all) =>
    let va := page.toNat
    let s := (s.squares.map Prod.fst).foldl (fun s q => s.modSquare q fun x => { x with
      trans := dropTrans x.trans asid all big va, walkAt := dropWalks x.walkAt asid all big va }) s
    let s := (List.range 4).foldl (fun s k => s.modHamper k fun h => { h with
      trans := dropTrans h.trans asid all big va }) s
    s.complete c 0

def execInvalidateTranslations (c : Cmd) (asid : BitVec 12) (page ctl : Word) (s : State) :
    Host.Outcome State Fault Refusal :=
  .next (s.command c (invalidateStep c asid page ctl))

/-! ### Heaps (R244 to R246, R266) -/

/-- The physical frames of n pages of a segment from a virtual address on, all held in one channel; its walks are plain loads
(R329). -/
def State.segFrames (s : State) (asid : BitVec 12) (chan : Nat) : Nat → Nat → State × Option (List Nat)
  | 0, _ => (s, some [])
  | n + 1, va =>
    if !canonical (BitVec.ofNat 64 va) then (s, none)
    else
      let r := s.walk asid va
      match r.2 with
      | .ok t =>
        let frame := t.phys va / 65536
        if frame % 256 != chan then (r.1, none)
        else
          let x := r.1.segFrames asid chan n (va + 65536)
          (x.1, x.2.map fun fs => frame :: fs)
      | .error _ => (r.1, none)

/-- The frames of segments c to 255. -/
def State.heapFrames (s : State) (asid : BitVec 12) (seg segsz : Nat) : Nat → State × Option (List (List Nat))
  | 0 => (s, some [])
  | n + 1 =>
    let c := 255 - n
    let x := s.segFrames asid c (segsz / 65536) (seg + segsz * c)
    match x.2 with
    | none => (x.1, none)
    | some fs =>
      let y := x.1.heapFrames asid seg segsz n
      (y.1, y.2.map fun r => fs :: r)

/-- A segment's frames become zero and full, with fresh ECC. -/
def State.clearFrame (s : State) (frame : Nat) : State :=
  let u := 8192 * frame
  let inside (k : Nat) : Bool := u ≤ k && k < u + 8192
  { s with mem := dropCells s.mem (65536 * frame) 65536, empt := s.empt.filter (fun k => !inside k),
           bad := s.bad.filter (fun k => !inside k), soft := s.soft.filter fun k => !inside k }

/-- Write segment c of heap h as it is created: descriptor, header at its reset values, empty buckets. -/
def State.writeSegment (s : State) (h c : Nat) (desc : List Word) : State :=
  let x := s.heap h
  let s := (x.frames.getD c []).foldl State.clearFrame s
  let s := (List.range 8).foldl (fun s i => s.hset h c (8 * i) 8 (desc.getD i 0).toNat) s
  let s := ((s.setHead h c 0x28 4 noId).setHead h c 0x2C 4 noId).setHead h c 0x3C 4 noId
  (List.range (2 ^ x.bktlog)).foldl (fun s b => s.hset h c (x.bktOff b) 4 noId) s

/-- CREATE_HEAP. -/
def createHeapStep (c : Cmd) (h : BitVec 6) (asid : BitVec 12) (w1 w2 seg segsz : Word) (s : State) : State :=
  let x : Heap := { Heap.free with
    state := 1, asid := asid, nodecap := bits w1 32 32, classcap := bits w1 0 32, pcap := bits w2 32 32,
    bktlog := bits w2 0 5, seg := seg, segsz := segsz.toNat }
  let capOk (n : Nat) : Bool := 1 ≤ n && n < 2 ^ 24
  if !capOk x.nodecap || !capOk x.classcap || !capOk x.pcap || bits w2 5 27 != 0 || x.bktlog < 3 || 24 < x.bktlog
      || seg.toNat % 65536 != 0 || x.segsz % 65536 != 0 || x.segsz < x.total then s.complete c 2
  else if (s.heap h.toNat).state != 0 then s.complete c 3
  else if !s.alerts.isEmpty then s.postpone (.createHeap c h asid w1 w2 seg segsz)
  else
    let r := s.heapFrames asid seg.toNat x.segsz 256
    match r.2 with
    | none => r.1.complete c 1
    | some fs =>
      let s := r.1.modHeap h.toNat fun _ => { x with frames := fs }
      let desc : List Word := [BitVec.ofNat 64 (2 ^ 12 + asid.toNat), w1, w2, seg, segsz, 1, 0, 0]
      ((List.range 256).foldl (fun s k => s.writeSegment h.toNat k desc) s).complete c 0

def execCreateHeap (c : Cmd) (h : BitVec 6) (asid : BitVec 12) (w1 w2 seg segsz : Word) (s : State) :
    Host.Outcome State Fault Refusal :=
  .next (s.command c (createHeapStep c h asid w1 w2 seg segsz))

/-- The `state` field of a segment's descriptor. -/
def State.setHeapState (s : State) (h c v : Nat) : State :=
  let w := s.hget h c 0 4
  s.hset h c 0 4 (w - w / 4096 % 4 * 4096 + 4096 * v)

/-- RELEASE_HEAP: a heap that is live and not in use begins its release. -/
def releaseHeapStep (c : Cmd) (h : BitVec 6) (s : State) : State :=
  let x := s.heap h.toNat
  if x.state = 0 then s.complete c 1
  else if x.state = 2 then s.complete c 3
  else if s.launches.any fun p => p.2.asid == x.asid then s.complete c 1
  else (s.setHeapState h.toNat (anchorOf h.toNat) 2).modHeap h.toNat fun x => { x with state := 2, releasing := some c }

def execReleaseHeap (c : Cmd) (h : BitVec 6) (s : State) : Host.Outcome State Fault Refusal :=
  .next (s.command c (releaseHeapStep c h))

/-- Nothing of a heap is under way: it is settled, and no job scans it. -/
def State.heapQuiet (s : State) (h : Nat) : Bool :=
  let x := s.heap h
  s.settled h && x.wave.isNone && x.waiting.isEmpty && (x.jobs.toList.all fun js => js.isEmpty)
    && s.net.all fun p => match p.2 with
      | .heap m => m.heap != h
      | _ => true

/-- HEAP_RELEASE_COMPLETE: header and records of every segment are zeroed, and the host is told. -/
def heapReleaseStep (h : Nat) (s : State) : State :=
  let x := s.heap h
  match x.releasing with
  | none => s
  | some c =>
    if x.state != 2 || !s.heapQuiet h || !s.alerts.isEmpty then s
    else
      let s := (List.range 256).foldl (fun (s : State) k =>
        let desc := readWords s.mem (x.key k 0) 8
        let s := (x.frames.getD k []).foldl State.clearFrame s
        let s := (List.range 8).foldl (fun s i => s.hset h k (8 * i) 8 (desc.getD i 0).toNat) s
        s.setHeapState h k 0) s
      (s.modHeap h fun _ => Heap.free).complete c 0

def execHeapReleaseComplete (heap : Nat) (s : State) : Host.Outcome State Fault Refusal :=
  .next (heapReleaseStep heap s)

/-! ### The street map (R289 to R294, R113) -/

/-- The map changes: its copy in HBM and the itinerary tables of every loaded district are rewritten (R113). -/
def State.remap (s : State) (t : Streets) : State :=
  let n := s.writing + 1
  ({ s with streets := t, writing := n, squares := s.squares.map fun p =>
      (p.1, { p.2 with service := p.2.service.map fun w => { w with num := n, streets := t } }) } : State).writeMap

/-- The dies whose masks a command waits to write. -/
def heldDies (is : List Instr) : List Nat :=
  is.filterMap fun i => match i with
    | .writeTurnMasks _ die _ _ => some die
    | _ => none

/-- WRITE_TURN_MASKS: the mask is checked; injections on the die are held until its switches are empty, and the mask is
written. -/
def masksStep (c : Cmd) (die plane : Nat) (mask : BitVec 16) (s : State) : State :=
  let i : Instr := .writeTurnMasks c die plane mask
  let finish (s : State) : State :=
    let s := s.forget i
    let s := { s with hold := heldDies s.pending }
    let k := 6 * die + plane
    if !s.streets.maskOk die mask then s.complete c 1
    else if h : k < 24 then (s.remap { s.streets with masks := s.streets.masks.set k mask h }).complete c 0
    else s.complete c 2
  if s.pending.contains i then if s.switchesEmpty die then finish s else s
  else if 4 ≤ die || 6 ≤ plane then s.complete c 2
  else if !s.streets.maskOk die mask then s.complete c 1
  else if s.switchesEmpty die then finish s
  else { s with pending := s.pending ++ [i], hold := heldDies (s.pending ++ [i]) }

def execWriteTurnMasks (c : Cmd) (die plane : Nat) (mask : BitVec 16) (s : State) :
    Host.Outcome State Fault Refusal :=
  .next (s.command c (masksStep c die plane mask))

/-- A link that the module has. -/
def linkExists : LinkId → Bool
  | .street die square _ => die < 4 && square < 128
  | .lane core _ => core < channelBase
  | .gate die g => die < 4 && g < 8
  | .hub _ _ => false

/-- MARK_DOWN. -/
def markDownStep (c : Cmd) (l : LinkId) (s : State) : State :=
  if !linkExists l then s.complete c 2
  else
    let t := s.streets
    (s.remap { t with down := if t.down.contains l then t.down else t.down ++ [l] }).complete c 0

def execMarkDown (c : Cmd) (l : LinkId) (s : State) : Host.Outcome State Fault Refusal :=
  .next (s.command c (markDownStep c l))

/-- MARK_UP: the link is retrained and up (R328). -/
def markUpStep (c : Cmd) (l : LinkId) (s : State) : State :=
  if !linkExists l then s.complete c 2
  else
    let t := s.streets
    (s.remap { t with down := t.down.filter (fun x => x != l), failed := t.failed.filter fun x => x != l }).complete c 0

def execMarkUp (c : Cmd) (l : LinkId) (s : State) : Host.Outcome State Fault Refusal :=
  .next (s.command c (markUpStep c l))

/-! ### Namespaces and objects (R312, R321) -/

/-- CREATE_NAMESPACE. -/
def createNamespaceStep (c : Cmd) (drive : Nat) (asid : BitVec 12) (lbas : Nat) (s : State) : State :=
  if 4 ≤ drive then s.complete c 2
  else if (tget (s.hamper drive).namespaces asid.toNat).isSome then s.complete c 1
  else
    (s.modHamper drive fun h => { h with
      namespaces := tput h.namespaces asid.toNat { lbas := lbas, objects := [] } }).complete c 0

def execCreateNamespace (c : Cmd) (drive : Nat) (asid : BitVec 12) (lbas : Nat) (s : State) :
    Host.Outcome State Fault Refusal :=
  .next (s.command c (createNamespaceStep c drive asid lbas))

/-- DELETE_NAMESPACE: one that holds objects is refused. -/
def deleteNamespaceStep (c : Cmd) (drive : Nat) (asid : BitVec 12) (s : State) : State :=
  if 4 ≤ drive then s.complete c 2
  else
    match tget (s.hamper drive).namespaces asid.toNat with
    | none => s.complete c 1
    | some n =>
      if !n.objects.isEmpty then s.complete c 1
      else (s.modHamper drive fun h => { h with namespaces := tdel h.namespaces asid.toNat }).complete c 0

def execDeleteNamespace (c : Cmd) (drive : Nat) (asid : BitVec 12) (s : State) : Host.Outcome State Fault Refusal :=
  .next (s.command c (deleteNamespaceStep c drive asid))

/-- An object of a namespace. -/
def State.object? (s : State) (drive : Nat) (asid : BitVec 12) (obj : BitVec 48) : Option Obj :=
  match tget (s.hamper drive).namespaces asid.toNat with
  | some n => tget n.objects obj.toNat
  | none => none

/-- READ_OBJECT: the header and then the fold pages, in order. -/
def readObjectStep (c : Cmd) (drive : Nat) (asid : BitVec 12) (obj : BitVec 48) (buf : Nat) (s : State) : State :=
  if 4 ≤ drive then s.complete c 2
  else
    match s.object? drive asid obj with
    | none => s.complete c 1
    | some o => (s.toHost buf (readBytes o.header 0 4096 ++ o.pages.flatMap fun p => readBytes p 0 65536)).complete c 0

def execReadObject (c : Cmd) (drive : Nat) (asid : BitVec 12) (obj : BitVec 48) (buf : Nat) (s : State) :
    Host.Outcome State Fault Refusal :=
  .next (s.command c (readObjectStep c drive asid obj buf))

/-- DELETE_OBJECT. -/
def deleteObjectStep (c : Cmd) (drive : Nat) (asid : BitVec 12) (obj : BitVec 48) (s : State) : State :=
  if 4 ≤ drive then s.complete c 2
  else
    match s.object? drive asid obj with
    | none => s.complete c 1
    | some _ =>
      (s.modHamper drive fun h => { h with
        namespaces := tmod h.namespaces asid.toNat fun n => { n with
          objects := tdel n.objects obj.toNat } }).complete c 0

def execDeleteObject (c : Cmd) (drive : Nat) (asid : BitVec 12) (obj : BitVec 48) (s : State) :
    Host.Outcome State Fault Refusal :=
  .next (s.command c (deleteObjectStep c drive asid obj))

/-! ### Patches and scrubbing (R330, R331) -/

/-- INSTALL_PATCH: the atom moves, corrected, into the entry's SRAM, where its accesses go on in the same order. -/
def patchStep (c : Cmd) (stack atom : Nat) (s : State) : State :=
  if 8 ≤ stack || atom % 32 != 0 || hbmEnd ≤ atom || stackOf atom != stack then s.complete c 2
  else if 2048 ≤ (s.patched.filter fun a => stackOf a == stack).length || s.patched.contains atom then s.complete c 1
  else if !s.bankOpen atom then s.postpone (.installPatch c stack atom)
  else if s.isBad atom 32 then (s.uncorrected atom).complete c 1
  else
    let s := s.corrected atom 32 0
    { s with patched := sadd s.patched atom }.complete c 0

def execInstallPatch (c : Cmd) (stack atom : Nat) (s : State) : Host.Outcome State Fault Refusal :=
  .next (s.command c (patchStep c stack atom))

/-- SCRUBBER_CONTROL: a period in seconds; passes start anew with it. -/
def scrubberStep (c : Cmd) (stack period : Nat) (s : State) : State :=
  if h : stack < 8 then
    if period < 3600 || 604800 < period then s.complete c 2
    else { s with scrubPeriod := s.scrubPeriod.set stack period h, scrubBase := s.scrubBase.set stack s.clock h,
                  scrubNext := s.scrubNext.set stack 0 h, hotNext := s.hotNext.set stack 0 h }.complete c 0
  else s.complete c 2

def execScrubberControl (c : Cmd) (stack period : Nat) (s : State) : Host.Outcome State Fault Refusal :=
  .next (s.command c (scrubberStep c stack period))

/-! ### Identity and attestation (R317, R318) -/

/-- READ_CERTIFICATE. -/
def certificateStep (c : Cmd) (buf : Nat) (s : State) : State :=
  (s.toHost buf ((List.range Config.certificateLength).map Config.certificateByte)).complete c 0

def execReadCertificate (c : Cmd) (buf : Nat) (s : State) : Host.Outcome State Fault Refusal :=
  .next (s.command c (certificateStep c buf))

/-- n bytes of a number, the most significant first. -/
def bigBytes (v : Nat) : Nat → List Byte
  | 0 => []
  | n + 1 => BitVec.ofNat 8 (v / 256 ^ n) :: bigBytes v n

/-- The bytes of a decode table as it stands in memory. -/
def tableBytes (t : BitVec 8192) : List Byte := (List.range 1024).map fun i => t.extractLsb' (8 * i) 8

/-- Insert into a list in ascending order. -/
def insertNat (x : Nat) : List Nat → List Nat
  | [] => [x]
  | y :: r => if x ≤ y then x :: y :: r else y :: insertNat x r

/-- The signed bytes 0x000 to 0x11F of a report (R318). -/
def State.attested (s : State) (l : Launch) (nonce : BitVec 512) : List Byte :=
  let digests := (l.tables.map fun t => (sha512 (tableBytes t)).toNat).foldl (fun a x => insertNat x a) []
  ([BitVec.ofNat 64 (2 ^ 32 + 0x53545441), l.asid.setWidth 64, s.clockWord, BitVec.ofNat 64 l.tables.length] : List Word).flatMap
      wordBytes
    ++ bigBytes nonce.toNat 64 ++ bigBytes Config.romDigest.toNat 64
    ++ bigBytes (sha512 (l.words.flatMap wordBytes)).toNat 64
    ++ bigBytes (sha512 (digests.flatMap fun d => bigBytes d 64)).toNat 64

/-- ATTEST: the report of a launch, signed. -/
def attestStep (c : Cmd) (lid : Nat) (nonce : BitVec 512) (buf : Nat) (s : State) : State :=
  match s.launch? lid with
  | none => s.complete c 1
  | some l =>
    let body := s.attested l nonce
    let sig := Config.signature s.free (sha512 body)
    let s := s.toHost buf (body ++ bigBytes sig.1.toNat 66 ++ bigBytes sig.2.toNat 66 ++ List.replicate 12 0)
    { s with free := s.free + 1 }.complete c 0

def execAttest (c : Cmd) (launch : Nat) (nonce : BitVec 512) (buf : Nat) (s : State) :
    Host.Outcome State Fault Refusal :=
  .next (s.command c (attestStep c launch nonce buf))

end Sys2Proof.Machine
end

