-- ==== Sys2Proof/Machine/Integer.lean ====
section
/-!
DEFINITION. The A-slot instructions (R119 to R124), with `mov` (R103), `sel` and the lone `li` (R97).
-/

namespace Sys2Proof.Machine

/-! ### The shared operation of the typed forms (R119) -/

/-- Width of a typed form. -/
def typeWidth (w32 : Bool) : Nat := if w32 then 32 else 64

/-- Low w bits of an operand, read in the type. -/
def readOp (uns w32 : Bool) (x : Word) : Int := readInt (!uns) (typeWidth w32) x.toNat

/-- Narrow an exact result to the type and extend it to 64 bits, with the flags (R64, R119). -/
def typedResult (sat uns w32 : Bool) (e : Int) : Word × FlagBits :=
  let r := narrow (!uns) sat (typeWidth w32) e
  (extend (!uns) (typeWidth w32) r.1, r.2)

/-- Write a result and raise its flags. -/
def State.result (s : State) (d : Reg) (r : Word × FlagBits) : State := (s.setDst d r.1).raiseFlags r.2

def addOp (sat uns w32 : Bool) (x y : Word) : Word × FlagBits :=
  typedResult sat uns w32 (readOp uns w32 x + readOp uns w32 y)

def addEffect (d a b : Reg) (sat uns w32 : Bool) (s : State) : State :=
  s.result d (addOp sat uns w32 (s.src a) (s.src b))

def execAdd (d a b : Reg) (sat uns w32 : Bool) (s : State) : Host.Outcome State Fault Refusal :=
  issue .a (.add d a b sat uns w32) (addEffect d a b sat uns w32) s

def subOp (sat uns w32 : Bool) (x y : Word) : Word × FlagBits :=
  typedResult sat uns w32 (readOp uns w32 x - readOp uns w32 y)

def subEffect (d a b : Reg) (sat uns w32 : Bool) (s : State) : State :=
  s.result d (subOp sat uns w32 (s.src a) (s.src b))

def execSub (d a b : Reg) (sat uns w32 : Bool) (s : State) : Host.Outcome State Fault Refusal :=
  issue .a (.sub d a b sat uns w32) (subEffect d a b sat uns w32) s

/-- An operation on two 64-bit sources that raises no flag. -/
def binEffect (d a b : Reg) (f : Word → Word → Word) (s : State) : State := s.setDst d (f (s.src a) (s.src b))

def execAndR (d a b : Reg) (s : State) : Host.Outcome State Fault Refusal :=
  issue .a (.andR d a b) (binEffect d a b fun x y => x &&& y) s

def execOrR (d a b : Reg) (s : State) : Host.Outcome State Fault Refusal :=
  issue .a (.orR d a b) (binEffect d a b fun x y => x ||| y) s

def execXorR (d a b : Reg) (s : State) : Host.Outcome State Fault Refusal :=
  issue .a (.xorR d a b) (binEffect d a b fun x y => x ^^^ y) s

def execAndn (d a b : Reg) (s : State) : Host.Outcome State Fault Refusal :=
  issue .a (.andn d a b) (binEffect d a b fun x y => x &&& ~~~y) s

/-- Shifts by the full unsigned value of the count (R119). -/
def shlOp (x y : Word) : Word := if y.toNat < 64 then x <<< y.toNat else 0
def shrOp (x y : Word) : Word := if y.toNat < 64 then x >>> y.toNat else 0
def sarOp (x y : Word) : Word := if y.toNat < 64 then x.sshiftRight y.toNat else if x.msb then BitVec.allOnes 64 else 0

def execShl (d a b : Reg) (s : State) : Host.Outcome State Fault Refusal :=
  issue .a (.shl d a b) (binEffect d a b shlOp) s

def execShr (d a b : Reg) (s : State) : Host.Outcome State Fault Refusal :=
  issue .a (.shr d a b) (binEffect d a b shrOp) s

def execSar (d a b : Reg) (s : State) : Host.Outcome State Fault Refusal :=
  issue .a (.sar d a b) (binEffect d a b sarOp) s

def minOp (uns w32 : Bool) (x y : Word) : Word :=
  extend (!uns) (typeWidth w32) (wrapInt (typeWidth w32) (min (readOp uns w32 x) (readOp uns w32 y)))

def execMinR (d a b : Reg) (uns w32 : Bool) (s : State) : Host.Outcome State Fault Refusal :=
  issue .a (.minR d a b uns w32) (binEffect d a b (minOp uns w32)) s

def maxOp (uns w32 : Bool) (x y : Word) : Word :=
  extend (!uns) (typeWidth w32) (wrapInt (typeWidth w32) (max (readOp uns w32 x) (readOp uns w32 y)))

def execMaxR (d a b : Reg) (uns w32 : Bool) (s : State) : Host.Outcome State Fault Refusal :=
  issue .a (.maxR d a b uns w32) (binEffect d a b (maxOp uns w32)) s

/-! ### Multiply and divide (R120) -/

def mulOp (sat uns w32 : Bool) (x y : Word) : Word × FlagBits :=
  typedResult sat uns w32 (readOp uns w32 x * readOp uns w32 y)

def mulEffect (d a b : Reg) (sat uns w32 : Bool) (s : State) : State :=
  s.result d (mulOp sat uns w32 (s.src a) (s.src b))

def execMul (d a b : Reg) (sat uns w32 : Bool) (s : State) : Host.Outcome State Fault Refusal :=
  issue .a (.mul d a b sat uns w32) (mulEffect d a b sat uns w32) s

/-- The high half of the exact product. -/
def mulhOp (uns w32 : Bool) (x y : Word) : Word :=
  let w := typeWidth w32
  extend (!uns) w (wrapInt w ((readOp uns w32 x * readOp uns w32 y).fdiv (2 ^ w)))

def execMulh (d a b : Reg) (uns w32 : Bool) (s : State) : Host.Outcome State Fault Refusal :=
  issue .a (.mulh d a b uns w32) (binEffect d a b (mulhOp uns w32)) s

/-- Quotient toward zero; a zero divisor gives 0 and `dz`; the signed overflow wraps to the dividend. -/
def divOp (uns w32 : Bool) (x y : Word) : Word × FlagBits :=
  let p := readOp uns w32 x; let q := readOp uns w32 y
  if q = 0 then (0, dz) else (extend (!uns) (typeWidth w32) (wrapInt (typeWidth w32) (p.tdiv q)), 0)

def divEffect (d a b : Reg) (uns w32 : Bool) (s : State) : State :=
  s.result d (divOp uns w32 (s.src a) (s.src b))

def execDiv (d a b : Reg) (uns w32 : Bool) (s : State) : Host.Outcome State Fault Refusal :=
  issue .a (.div d a b uns w32) (divEffect d a b uns w32) s

/-- The remainder takes the sign of x; a zero divisor gives x and `dz`. -/
def remOp (uns w32 : Bool) (x y : Word) : Word × FlagBits :=
  let p := readOp uns w32 x; let q := readOp uns w32 y
  let w := typeWidth w32
  if q = 0 then (extend (!uns) w (wrapInt w p), dz) else (extend (!uns) w (wrapInt w (p - q * p.tdiv q)), 0)

def remEffect (d a b : Reg) (uns w32 : Bool) (s : State) : State :=
  s.result d (remOp uns w32 (s.src a) (s.src b))

def execRem (d a b : Reg) (uns w32 : Bool) (s : State) : Host.Outcome State Fault Refusal :=
  issue .a (.rem d a b uns w32) (remEffect d a b uns w32) s

/-! ### Compare and select (R122, R123) -/

/-- A value read in a compare's type. -/
def cmpRead (ty : CmpTy) (x : Word) : Int :=
  match ty with
  | .i64 => readOp false false x
  | .n64 => readOp true false x
  | .i32 => readOp false true x
  | .n32 => readOp true true x

def relation (cc : Sys2Proof.Cond) (x y : Int) : Bool :=
  match cc with
  | .eq => x = y
  | .ne => x ≠ y
  | .lt => x < y
  | .le => x ≤ y
  | .gt => y < x
  | .ge => y ≤ x

def cmpOp (cc : Sys2Proof.Cond) (ty : CmpTy) (x y : Word) : Bool := relation cc (cmpRead ty x) (cmpRead ty y)

def cmpEffect (p : BitVec 3) (a b : Reg) (cc : Sys2Proof.Cond) (ty : CmpTy) (s : State) : State :=
  s.setPred p (cmpOp cc ty (s.src a) (s.src b))

def execCmp (p : BitVec 3) (a b : Reg) (cc : Sys2Proof.Cond) (ty : CmpTy) (s : State) :
    Host.Outcome State Fault Refusal :=
  issue .a (.cmp p a b cc ty) (cmpEffect p a b cc ty) s

def cmpImmEffect (p : BitVec 3) (a : Reg) (i : BitVec 13) (cc : Sys2Proof.Cond) (ty : CmpTy) (s : State) : State :=
  s.setPred p (cmpOp cc ty (s.src a) (i.signExtend 64))

def execCmpImm (p : BitVec 3) (a : Reg) (i : BitVec 13) (cc : Sys2Proof.Cond) (ty : CmpTy) (s : State) :
    Host.Outcome State Fault Refusal :=
  issue .a (.cmpImm p a i cc ty) (cmpImmEffect p a i cc ty) s

def selEffect (d a b : Reg) (inv : Bool) (p : BitVec 3) (s : State) : State :=
  s.setDst d (if s.pred p != inv then s.src a else s.src b)

def execSel (d a b : Reg) (inv : Bool) (p : BitVec 3) (s : State) : Host.Outcome State Fault Refusal :=
  issue .a (.sel d a b inv p) (selEffect d a b inv p) s

/-! ### Bit fields (R124) -/

/-- Position and clipped length of a control word. -/
def fieldPos (c : Word) : Nat := bits c 0 6
def fieldLen (c : Word) : Nat := min (bits c 8 7) (64 - fieldPos c)

/-- The field's value as a number below 2^L. -/
def fieldVal (x c : Word) : Nat := x.toNat / 2 ^ fieldPos c % 2 ^ fieldLen c

def extN64Op (x c : Word) : Word := BitVec.ofNat 64 (fieldVal x c)

def extI64Op (x c : Word) : Word := if fieldLen c = 0 then 0 else extend true (fieldLen c) (fieldVal x c)

def execExtN64 (d a b : Reg) (s : State) : Host.Outcome State Fault Refusal :=
  issue .a (.extN64 d a b) (binEffect d a b extN64Op) s

def execExtI64 (d a b : Reg) (s : State) : Host.Outcome State Fault Refusal :=
  issue .a (.extI64 d a b) (binEffect d a b extI64Op) s

/-- The mask of a field. -/
def fieldMask (c : Word) : Word := BitVec.ofNat 64 ((2 ^ fieldLen c - 1) * 2 ^ fieldPos c)

def insOp (old x c : Word) : Word := (old &&& ~~~fieldMask c) ||| ((x <<< fieldPos c) &&& fieldMask c)

def insEffect (d a b : Reg) (s : State) : State := s.setDst d (insOp (s.src d) (s.src a) (s.src b))

def execIns (d a b : Reg) (s : State) : Host.Outcome State Fault Refusal := issue .a (.ins d a b) (insEffect d a b) s

/-- Zero bits above the highest set bit, below the lowest, and the number of set bits. -/
def clzOp (x : Word) : Word := BitVec.ofNat 64 (if x = 0 then 64 else 63 - Nat.log2 x.toNat)
def ctzOp (x : Word) : Word := BitVec.ofNat 64 (((List.range 64).find? fun i => x.getLsbD i).getD 64)
def popcOp (x : Word) : Word := BitVec.ofNat 64 ((List.range 64).countP fun i => x.getLsbD i)

/-- An operation on one source. -/
def unEffect (d a : Reg) (f : Word → Word) (s : State) : State := s.setDst d (f (s.src a))

def execClz (d a : Reg) (s : State) : Host.Outcome State Fault Refusal := issue .a (.clz d a) (unEffect d a clzOp) s

def execCtz (d a : Reg) (s : State) : Host.Outcome State Fault Refusal := issue .a (.ctz d a) (unEffect d a ctzOp) s

def execPopc (d a : Reg) (s : State) : Host.Outcome State Fault Refusal := issue .a (.popc d a) (unEffect d a popcOp) s

/-! ### Immediates (R121) -/

def execAddImm (d a : Reg) (i : BitVec 13) (s : State) : Host.Outcome State Fault Refusal :=
  issue .a (.addImm d a i) (unEffect d a fun x => x + i.signExtend 64) s

/-- `mov` is the add-immediate word with `a` = 0 or `imm13` = 0 (R103). -/
def execMov (d a : Reg) (i : BitVec 13) (s : State) : Host.Outcome State Fault Refusal :=
  issue .a (.mov d a i) (unEffect d a fun x => x + i.signExtend 64) s

def execAndImm (d a : Reg) (i : BitVec 13) (s : State) : Host.Outcome State Fault Refusal :=
  issue .a (.andImm d a i) (unEffect d a fun x => x &&& i.signExtend 64) s

def execOrImm (d a : Reg) (i : BitVec 13) (s : State) : Host.Outcome State Fault Refusal :=
  issue .a (.orImm d a i) (unEffect d a fun x => x ||| i.signExtend 64) s

def execXorImm (d a : Reg) (i : BitVec 13) (s : State) : Host.Outcome State Fault Refusal :=
  issue .a (.xorImm d a i) (unEffect d a fun x => x ^^^ i.signExtend 64) s

def execShlImm (d a : Reg) (k : BitVec 6) (s : State) : Host.Outcome State Fault Refusal :=
  issue .a (.shlImm d a k) (unEffect d a fun x => x <<< k.toNat) s

def execShrImm (d a : Reg) (k : BitVec 6) (s : State) : Host.Outcome State Fault Refusal :=
  issue .a (.shrImm d a k) (unEffect d a fun x => x >>> k.toNat) s

def execSarImm (d a : Reg) (k : BitVec 6) (s : State) : Host.Outcome State Fault Refusal :=
  issue .a (.sarImm d a k) (unEffect d a fun x => x.sshiftRight k.toNat) s

def execMulImm (d a : Reg) (i : BitVec 13) (s : State) : Host.Outcome State Fault Refusal :=
  issue .a (.mulImm d a i) (unEffect d a fun x => x * i.signExtend 64) s

/-! ### `li` (R97) -/

def liValue (hx : LiTop) (imm : BitVec 48) : Word :=
  match hx with
  | .sign => imm.signExtend 64
  | .zero => imm.setWidth 64
  | .localSpace => 0x8000#16 ++ imm

def liEffect (d : Reg) (hx : LiTop) (imm : BitVec 48) (s : State) : State := s.setDst d (liValue hx imm)

def execLi (d : Reg) (hx : LiTop) (imm : BitVec 48) (s : State) : Host.Outcome State Fault Refusal :=
  issue .lone (.li d hx imm) (liEffect d hx imm) s

end Sys2Proof.Machine
end

