-- ==== Sys2Proof/Machine/Recovery.lean ====
section
/-!
DEFINITION. Links (R327, R328) and dropped packets (R293), scrubbing and hot lists (R330), the windows of R332,
refresh under alerts (R333), temperatures (R4), cold reset (R319, R336), and errors as they strike (R329, R334).
-/

namespace Sys2Proof.Machine

/-! ### Links (R327, R328) -/

/-- The number of a link in reports: its bit in the street map (R289), or 4·core + direction of a lane link. -/
def linkNumber : LinkId → Nat
  | .street die square dir => 512 * die + 4 * square + dir.toNat
  | .lane core dir => 4 * core + dir.toNat
  | .gate die g | .hub die g => 8 * die + g

/-- The qualifier of a link's kind (R322). -/
def linkKind : LinkId → Nat
  | .street _ _ _ => 1
  | .lane _ _ => 2
  | .gate _ _ | .hub _ _ => 3

def linkDie : LinkId → Nat
  | .street die _ _ | .gate die _ | .hub die _ => die % 4
  | .lane core _ => dieOf core % 4

/-- The link that software names: a hub link is one, in both directions. -/
def wholeLink : LinkId → LinkId
  | .hub die g => .gate die g
  | l => l

/-- The counter of replays on a link, one for each direction of a hub link (R332); the others carry one way. -/
def replayCounter (l : LinkId) : Nat :=
  2 * (4 * linkNumber l + linkKind l) + (if l = wholeLink l then 0 else 1)

/-- LINK_REPLAY: packets are delayed and nothing else; the replay is counted for the link's direction (R327, R332). -/
def linkReplayStep (l : LinkId) (s : State) : State :=
  s.count (linkDie l) 3 (replayCounter l) (BitVec.ofNat 64 (linkNumber l)) (linkDie l)

def execLinkReplay (l : LinkId) (s : State) : Host.Outcome State Fault Refusal := .next (linkReplayStep l s)

/-- LINK_FAIL: the link drops what reaches it until it is marked down or up; lane words on it are lost. -/
def linkFailStep (l : LinkId) (s : State) : State :=
  let l := wholeLink l
  if s.streets.failed.contains l then s
  else
    let rep : Report :=
      { cause := 0x42, qual := linkKind l, core := linkDie l, detail := BitVec.ofNat 64 (linkNumber l) }
    let s := { s with streets := { s.streets with failed := s.streets.failed ++ [l] } }.report (linkDie l) rep
    match l with
    | .lane core dir =>
      let back := oppositeDir dir.toNat
      s.modCore (s.neighbour core dir.toNat) fun c =>
        if h : back < 4 then { c with flying := c.flying.set back [] h } else c
    | _ => s

def execLinkFail (l : LinkId) (s : State) : Host.Outcome State Fault Refusal := .next (linkFailStep l s)

/-! ### Dropped packets (R293, R328) -/

/-- A thread takes a route fault at the bundle that sent the packet. -/
def State.routeFault (s : State) (tid : Nat) (addr : Word) : State :=
  match s.thread? tid with
  | none => s
  | some t =>
    s.raise tid { cause := 0x1A, half := bundleHalf t.bundle, pc := (t.bundle.map BundleInfo.pc).getD t.pc,
                  detail := addr, bundle := t.bundle }

/-- A migrating thread whose packet was dropped is home again and takes a route fault; a float trap that became due on the way
goes first, and the bundle is issued again (R71). -/
def State.migrDropped (s : State) (tid : Nat) (t : Thread) : State :=
  let s := s.placeHome tid t
  if t.floatDue then (s.leaveWaits tid).modThread tid fun t => { t with pc := (t.bundle.map BundleInfo.pc).getD t.pc }
  else s.routeFault tid ((t.bundle.map BundleInfo.pc).getD t.pc)

/-- ROUTE_DROP: a switch drops the packet, which is never sent again (R231), and its source hears of it (R129, R137): a request
has not been performed, and its thread or its acknowledgement takes a route fault. A dropped answer is a route fault of its
request too, which stays performed: the entry of a lane whose increment it acknowledged is not void. A message of a hart
that no thread asked for, and a room message, are gone; the spill engine asks anew for what a withdrawal was to bring
(notes/assumptions/32). -/
def routeDropStep (id : Nat) (s : State) : State :=
  match s.packet? id with
  | none => s
  | some b =>
    if !s.lost id || s.offStreets id b then s
    else
      let s := s.landedAt id
      match b with
      | .access a =>
        (match a.kind with
          | .load _ => s.answer id a.tid (.fault 0x1A 0 a.addr)
          | _ => s.ack id (some (0x1A, 0)))
      | .amo a => s.answer id a.tid (.fault 0x1A 0 a.addr)
      | .msg m =>
        let s := s.dropPacket id
        let s := { s with sq := tdel s.sq id }
        (match m.tid with
          | some t => s.modThread t fun t => { t with rflt := true }
          | none => s)
      | .migr tid _ _ _ _ =>
        (match s.thread? tid with
          | some t => (s.dropPacket id).migrDropped tid t
          | none => s.dropPacket id)
      | .frame r | .frameAns r _ => s.answer id r.tid (.fault 0x1A 0 r.addr)
      | .ack e err =>
        let s := match tget s.sq e with
          | some x => if err.isNone then s.laneAcked x.core e false else s
          | none => s
        { s with net := tput s.net id (.ack e (some (err.getD (0x1A, 0)))) }
      | .far c tid _ => s.answer id tid (.fault 0x1A 0 (BitVec.ofNat 64 (s.coreLabel c)))
      | .reply tid back _ => s.answer id tid (.fault 0x1A 0 ((back.map Prod.snd).getD 0))
      | .heap m =>
        (match m.asker with
          | some (tid, rid) => ((s.dropPacket id).landedAt rid).answer rid tid (.fault 0x1A 0 0)
          | none => s.dropPacket id)
      | .withdraw target core _ => (s.dropPacket id).modCore core fun c => { c with
          spill := c.spill.map fun j => { j with asked := j.asked.filter fun x => x != target } }
      | .room _ _ => s.dropPacket id
      | .refusedAccess _ | .refusedAmo _ | .refusedFrame _ | .post _ _ _ _ _ _ _ => s

def execRouteDrop (id : Nat) (s : State) : Host.Outcome State Fault Refusal := .next (routeDropStep id s)

/-! ### Scrubbing (R330) -/

/-- A scrub read of an atom: errors it meets are corrected, or reported and left. -/
def State.scrub (s : State) (atom : Nat) : State :=
  let u := errUnit atom
  if s.bad.contains u then
    let rep : Report := { cause := 0x19, qual := 1, core := s.coreLabel (homeOf atom), detail := BitVec.ofNat 64 atom }
    (s.report (dieOfKey atom) rep).uncorrected atom
  else s.fixUnit u 0

/-- SCRUB_STEP. -/
def scrubAtomStep (stack atom : Nat) (s : State) : State :=
  if atom % 32 != 0 || hbmEnd ≤ atom || stackOf atom != stack || !s.bankOpen atom then s else s.scrub atom

def execScrubStep (stack atom : Nat) (s : State) : Host.Outcome State Fault Refusal :=
  .next (scrubAtomStep stack atom s)

/-- One row of a hot-list pass: its errors are scrubbed; a clean row loses a point, and leaves at 0. A row in a bank that an
alert holds waits for the next pass (R333). -/
def State.scrubRow (s : State) (stack : Nat) (r : HotRow) : State :=
  let mine (u : Nat) : Bool := 8 * u < hbmEnd && stackOf (8 * u) == stack && Config.rowOf (8 * u) == r.row
  let hit := s.bad.filter mine ++ s.soft.filter mine
  if !s.bankOpen r.row then s
  else if !hit.isEmpty then hit.foldl (fun s u => s.scrub (8 * u)) s
  else
    let l := s.hot.toList.getD stack []
    let l := (l.map fun x => if x.row = r.row then { x with score := x.score - 1 } else x).filter fun x => x.score != 0
    { s with hot := if h : stack < 8 then s.hot.set stack l h else s.hot }

/-- HOT_LIST_SCRUB. -/
def hotListStep (stack : Nat) (s : State) : State :=
  (s.hot.toList.getD stack []).foldl (fun s r => s.scrubRow stack r) s

def execHotListScrub (stack : Nat) (s : State) : Host.Outcome State Fault Refusal := .next (hotListStep stack s)

/-! ### Windows and alerts (R332, R333) -/

/-- WINDOW_ROLLOVER: every counter starts again, and the delays of the window are reported. -/
def windowStep (s : State) : State :=
  if s.clock % 2 ^ 32 != 0 then s
  else
    let s := (List.range 4).foldl (fun (s : State) d =>
      let n := s.delay.toList.getD d 0
      if n = 0 then s else s.report d { cause := 0x45, core := d, detail := BitVec.ofNat 64 n }) s
    { s with counters := [], delay := Vector.replicate 4 0 }

def execWindowRollover (s : State) : Host.Outcome State Fault Refusal := .next (windowStep s)

/-- ACTIVATION_ALERT: the bank's accesses wait until its refresh commands have completed: the refresh-management command,
and before it every postponed refresh where 8 are. -/
def alertStep (chan bank postponed cycles : Nat) (s : State) : State :=
  if 256 ≤ chan || 8 < postponed || s.alerts.any (fun a => a.chan == chan && a.bank == bank) then s
  else
    let d := dieOf (channelBase + chan)
    { s with alerts := s.alerts ++ [{ chan := chan, bank := bank, postponed := if postponed = 8 then 8 else 0 }],
             delay := if h : d < 4 then s.delay.set d (s.delay.toList.getD d 0 + cycles) h else s.delay }

def execActivationAlert (chan bank postponed cycles : Nat) (s : State) : Host.Outcome State Fault Refusal :=
  .next (alertStep chan bank postponed cycles s)

/-- REFRESH_MANAGEMENT_DONE: a refresh command of the bank has completed; after the last its accesses are served again. -/
def refreshStep (chan bank : Nat) (s : State) : State :=
  { s with alerts := s.alerts.filterMap fun a =>
      if a.chan == chan && a.bank == bank then
        if a.postponed = 0 then none else some { a with postponed := a.postponed - 1 }
      else some a }

def execRefreshManagementDone (chan bank : Nat) (s : State) : Host.Outcome State Fault Refusal :=
  .next (refreshStep chan bank s)

/-! ### Temperature, power and reset (R4, R319, R336) -/

/-- TEMPERATURE_REPORT: a die's sensor has a reading; 95 °C or more is reported. -/
def temperatureStep (die temp : Nat) (s : State) : State :=
  if h : die < 4 then
    let s := { s with sensors := s.sensors.set die temp h }
    if temp < 95 then s else s.report die { cause := 0x49, core := die, detail := BitVec.ofNat 64 die }
  else s

def execTemperatureReport (die temp : Nat) (s : State) : Host.Outcome State Fault Refusal :=
  .next (temperatureStep die temp s)

/-- The state of a cold reset; what is outside the module's volatile state stays: host memory, the drives, the
temperatures, and what is to happen next. -/
def State.cold (s : State) : State :=
  { State.reset with
    hostMem := s.hostMem, sensors := s.sensors, free := s.free, plan := s.plan, mismatches := s.mismatches,
    refusals := s.refusals,
    hampers := s.hampers.map fun h => { Hamper.idle with namespaces := h.namespaces } }

/-- POWER_REMOVAL: at 110 °C the board removes module power. -/
def powerStep (temp : Nat) (s : State) : State := if temp < 110 then s else { s.cold with unpowered := true }

def execPowerRemoval (temp : Nat) (s : State) : Host.Outcome State Fault Refusal := .next (powerStep temp s)

/-- COLD_RESET: the boot ROM is verified; a mismatch keeps the device in reset, and is reported on the management interface. -/
def coldResetStep (romOk : Bool) (s : State) : State :=
  let t := s.cold
  if romOk then t else { t with halted := true, mismatches := t.mismatches + 1 }

def execColdReset (romOk : Bool) (s : State) : Host.Outcome State Fault Refusal := .next (coldResetStep romOk s)

/-! ### Errors as they strike -/

/-- A protected unit that the machine has: an atom of HBM, a word of the local memory of a compute or channel core (R5). -/
def unitExists (u : Nat) : Bool :=
  if 8 * u < localBase then 8 * u < hbmEnd && u % 4 = 0 else 8 * u < localKey plazaBase 0

/-- An error strikes a unit: it becomes correctable, or uncorrectable. -/
def State.upset (s : State) (u : Nat) (bad : Bool) : State :=
  if !unitExists u || s.bad.contains u then s
  else if bad then { s with bad := sadd s.bad u, soft := sdel s.soft u } else { s with soft := sadd s.soft u }

/-- A bit of a tumbler changes; its parity is wrong from then on (R334). -/
def State.upsetBit (s : State) (t n : Nat) : State :=
  s.modTumbler t fun x => if n < 672 then
    { x with bits := x.bits ^^^ (1#672 <<< n),
             badParity := if x.badParity.contains n then sdel x.badParity n else sadd x.badParity n } else x

/-- A corrected error of a register or an accumulator (R329): it is reported, and counted for its core (R332). -/
def State.fixReg (s : State) (tid reg : Nat) : State :=
  match s.thread? tid with
  | some t => if reg < 40 then s.fixedAt t.coreNow 3 reg (s.launchOf t).asid else s
  | none => s

/-- A parity error discards a line or a translation, and is reported as a corrected error (R329). -/
def State.parityLine (s : State) (q k : Nat) : State :=
  match (s.square q).lines[k]? with
  | some x => (s.modSquare q fun y => { y with lines := y.lines.eraseIdx k }).fixedAt (coreAt q 0) 4 x.addr x.asid
  | none => s

def State.parityTrans (s : State) (q k : Nat) : State :=
  match (s.square q).trans[k]? with
  | some x => (s.modSquare q fun y => { y with trans := y.trans.eraseIdx k }).fixedAt (coreAt q 0) 4 (65536 * x.page) x.asid
  | none => s

def State.parityHamper (s : State) (h k : Nat) : State :=
  match (s.hampers.toList.getD h Hamper.idle).trans[k]? with
  | some x =>
    let s := if i : h < 4 then { s with hampers := s.hampers.set h { s.hampers[h] with
      trans := s.hampers[h].trans.eraseIdx k } } else s
    s.fixedAt (plazaBase + 4 + h) 4 (65536 * x.page) x.asid
  | none => s

/-- What strikes from outside the instruction stream. -/
def State.strike (s : State) (c : Choice) : State :=
  match c with
  | .upset u bad => s.upset u bad
  | .upsetReg tid reg => s.modThread tid fun t => { t with badRegs := sadd t.badRegs reg }
  | .upsetAcc core acc => s.modCore core fun c => { c with badAccs := sadd c.badAccs acc }
  | .upsetItin q e => s.modSquare q fun x => { x with badItin := sadd x.badItin e }
  | .upsetTumbler t n => s.upsetBit t n
  | .upsetDrive k req => if h : k < 4 then { s with hampers := s.hampers.set k { s.hampers[k] with
      queue := s.hampers[k].queue.map fun r => if r.num = req then { r with media := true } else r } } else s
  | .fixReg tid reg => s.fixReg tid reg
  | .fixAcc core acc =>
    if core < channelBase && acc < 8 then s.fixedAt core 3 (40 + acc) (s.asidOn core) else s
  | .fixItin q e => if q < 512 && e < 1024 then s.fixedAt (coreAt q 0) 4 e (s.asidOn (coreAt q 0)) else s
  | .parityLine q k => s.parityLine q k
  | .parityTrans q k => s.parityTrans q k
  | .parityHamper h k => s.parityHamper h k
  | .event _ | .issue _ | .course _ | .cycle | .entry _ _ => s

end Sys2Proof.Machine
end

