-- ==== Sys2Proof/Machine/Dispatch.lean ====
section
/-!
DEFINITION. `exec`: one arm for each constructor of `Instr`, each a direct call of its meaning.
-/

namespace Sys2Proof.Machine

/-- What an instruction, an event or a command does in a state. -/
def exec (i : Instr) (s : State) : Host.Outcome State Fault Refusal :=
  match i with
  | .nop => Sys2Proof.Machine.execNop s
  | .br inv p o => Sys2Proof.Machine.execBr inv p o s
  | .bra o => Sys2Proof.Machine.execBra o s
  | .callLabel d o => Sys2Proof.Machine.execCallLabel d o s
  | .jmp a => Sys2Proof.Machine.execJmp a s
  | .callReg d a => Sys2Proof.Machine.execCallReg d a s
  | .ret a => Sys2Proof.Machine.execRet a s
  | .brt a b => Sys2Proof.Machine.execBrt a b s
  | .brq inv q o => Sys2Proof.Machine.execBrq inv q o s
  | .ld wd t b f o => Sys2Proof.Machine.execLd wd t b f o s
  | .ldIdx wd t b x f k => Sys2Proof.Machine.execLdIdx wd t b x f k s
  | .st wd t b f o => Sys2Proof.Machine.execSt wd t b f o s
  | .stIdx wd t b x f k => Sys2Proof.Machine.execStIdx wd t b x f k s
  | .feClr b o => Sys2Proof.Machine.execFeClr b o s
  | .amo d a b op c f => Sys2Proof.Machine.execAmo d a b op c f s
  | .red a b op c f => Sys2Proof.Machine.execRed a b op c f s
  | .fenceFar a => Sys2Proof.Machine.execFenceFar a s
  | .bar n => Sys2Proof.Machine.execBar n s
  | .rget d a f => Sys2Proof.Machine.execRget d a f s
  | .rput a b f => Sys2Proof.Machine.execRput a b f s
  | .mig a => Sys2Proof.Machine.execMig a s
  | .add d a b sat uns w32 => Sys2Proof.Machine.execAdd d a b sat uns w32 s
  | .sub d a b sat uns w32 => Sys2Proof.Machine.execSub d a b sat uns w32 s
  | .andR d a b => Sys2Proof.Machine.execAndR d a b s
  | .orR d a b => Sys2Proof.Machine.execOrR d a b s
  | .xorR d a b => Sys2Proof.Machine.execXorR d a b s
  | .andn d a b => Sys2Proof.Machine.execAndn d a b s
  | .shl d a b => Sys2Proof.Machine.execShl d a b s
  | .shr d a b => Sys2Proof.Machine.execShr d a b s
  | .sar d a b => Sys2Proof.Machine.execSar d a b s
  | .minR d a b uns w32 => Sys2Proof.Machine.execMinR d a b uns w32 s
  | .maxR d a b uns w32 => Sys2Proof.Machine.execMaxR d a b uns w32 s
  | .mul d a b sat uns w32 => Sys2Proof.Machine.execMul d a b sat uns w32 s
  | .mulh d a b uns w32 => Sys2Proof.Machine.execMulh d a b uns w32 s
  | .div d a b uns w32 => Sys2Proof.Machine.execDiv d a b uns w32 s
  | .rem d a b uns w32 => Sys2Proof.Machine.execRem d a b uns w32 s
  | .cmp p a b cc ty => Sys2Proof.Machine.execCmp p a b cc ty s
  | .cmpImm p a imm cc ty => Sys2Proof.Machine.execCmpImm p a imm cc ty s
  | .sel d a b inv p => Sys2Proof.Machine.execSel d a b inv p s
  | .extN64 d a b => Sys2Proof.Machine.execExtN64 d a b s
  | .extI64 d a b => Sys2Proof.Machine.execExtI64 d a b s
  | .ins d a b => Sys2Proof.Machine.execIns d a b s
  | .clz d a => Sys2Proof.Machine.execClz d a s
  | .ctz d a => Sys2Proof.Machine.execCtz d a s
  | .popc d a => Sys2Proof.Machine.execPopc d a s
  | .addImm d a imm => Sys2Proof.Machine.execAddImm d a imm s
  | .mov d a imm => Sys2Proof.Machine.execMov d a imm s
  | .andImm d a imm => Sys2Proof.Machine.execAndImm d a imm s
  | .orImm d a imm => Sys2Proof.Machine.execOrImm d a imm s
  | .xorImm d a imm => Sys2Proof.Machine.execXorImm d a imm s
  | .shlImm d a k => Sys2Proof.Machine.execShlImm d a k s
  | .shrImm d a k => Sys2Proof.Machine.execShrImm d a k s
  | .sarImm d a k => Sys2Proof.Machine.execSarImm d a k s
  | .mulImm d a imm => Sys2Proof.Machine.execMulImm d a imm s
  | .li d hx imm => Sys2Proof.Machine.execLi d hx imm s
  | .trap n => Sys2Proof.Machine.execTrap n s
  | .tret a => Sys2Proof.Machine.execTret a s
  | .sysr d r => Sys2Proof.Machine.execSysr d r s
  | .sysw r a => Sys2Proof.Machine.execSysw r a s
  | .sysrFexc d => Sys2Proof.Machine.execSysrFexc d s
  | .syswItin a => Sys2Proof.Machine.execSyswItin a s
  | .spill a b => Sys2Proof.Machine.execSpill a b s
  | .fill a b => Sys2Proof.Machine.execFill a b s
  | .tlbinv a b => Sys2Proof.Machine.execTlbinv a b s
  | .idle a => Sys2Proof.Machine.execIdle a s
  | .send d a b npay tag => Sys2Proof.Machine.execSend d a b npay tag s
  | .spawn p a k o => Sys2Proof.Machine.execSpawn p a k o s
  | .sync a => Sys2Proof.Machine.execSync a s
  | .syncEnd a => Sys2Proof.Machine.execSyncEnd a s
  | .post p a k => Sys2Proof.Machine.execPost p a k s
  | .steal r => Sys2Proof.Machine.execSteal r s
  | .tnum d t => Sys2Proof.Machine.execTnum d t s
  | .tnset t a => Sys2Proof.Machine.execTnset t a s
  | .tndrain t => Sys2Proof.Machine.execTndrain t s
  | .tnsave t a => Sys2Proof.Machine.execTnsave t a s
  | .tnload t a => Sys2Proof.Machine.execTnload t a s
  | .stow a => Sys2Proof.Machine.execStow a s
  | .unstow a => Sys2Proof.Machine.execUnstow a s
  | .eins d a h => Sys2Proof.Machine.execEins d a h s
  | .efind d a h => Sys2Proof.Machine.execEfind d a h s
  | .emrg d a b h => Sys2Proof.Machine.execEmrg d a b h s
  | .eeq d a b h => Sys2Proof.Machine.execEeq d a b h s
  | .esettle h => Sys2Proof.Machine.execEsettle h s
  | .ematch d a h => Sys2Proof.Machine.execEmatch d a h s
  | .ecost d a b h => Sys2Proof.Machine.execEcost d a b h s
  | .enode d a h => Sys2Proof.Machine.execEnode d a h s
  | .eclass d a h => Sys2Proof.Machine.execEclass d a h s
  | .mma d a b fmt sat n => Sys2Proof.Machine.execMma d a b fmt sat n s
  | .mrot d fmt sat => Sys2Proof.Machine.execMrot d fmt sat s
  | .mrotMem d a b fmt sat => Sys2Proof.Machine.execMrotMem d a b fmt sat s
  | .mzero d => Sys2Proof.Machine.execMzero d s
  | .mmovF32ToV d acc row => Sys2Proof.Machine.execMmovF32ToV d acc row s
  | .mmovBf16ToV d acc row rm => Sys2Proof.Machine.execMmovBf16ToV d acc row rm s
  | .mmovF16ToV d acc row rm => Sys2Proof.Machine.execMmovF16ToV d acc row rm s
  | .mmovF32Store a acc => Sys2Proof.Machine.execMmovF32Store a acc s
  | .mmovBf16Store a acc rm => Sys2Proof.Machine.execMmovBf16Store a acc rm s
  | .mmovF16Store a acc rm => Sys2Proof.Machine.execMmovF16Store a acc rm s
  | .mmovF32Load d a => Sys2Proof.Machine.execMmovF32Load d a s
  | .mtab p => Sys2Proof.Machine.execMtab p s
  | .cpy t vf => Sys2Proof.Machine.execCpy t vf s
  | .cwait a => Sys2Proof.Machine.execCwait a s
  | .cany d a => Sys2Proof.Machine.execCany d a s
  | .cfirst d a => Sys2Proof.Machine.execCfirst d a s
  | .vaddF ty rm d a b => Sys2Proof.Machine.execVaddF ty rm d a b s
  | .vsubF ty rm d a b => Sys2Proof.Machine.execVsubF ty rm d a b s
  | .vmulF ty rm d a b => Sys2Proof.Machine.execVmulF ty rm d a b s
  | .vdiv ty rm d a b => Sys2Proof.Machine.execVdiv ty rm d a b s
  | .vfma ty rm d a b c => Sys2Proof.Machine.execVfma ty rm d a b c s
  | .vminF ty d a b => Sys2Proof.Machine.execVminF ty d a b s
  | .vmaxF ty d a b => Sys2Proof.Machine.execVmaxF ty d a b s
  | .vsqrt ty rm d a => Sys2Proof.Machine.execVsqrt ty rm d a s
  | .vneg ty d a => Sys2Proof.Machine.execVneg ty d a s
  | .vabs ty d a => Sys2Proof.Machine.execVabs ty d a s
  | .vcmpEq ty d a b => Sys2Proof.Machine.execVcmpEq ty d a b s
  | .vcmpLt ty d a b => Sys2Proof.Machine.execVcmpLt ty d a b s
  | .vcmpLe ty d a b => Sys2Proof.Machine.execVcmpLe ty d a b s
  | .vcmpUn ty d a b => Sys2Proof.Machine.execVcmpUn ty d a b s
  | .vaddI ty sat d a b => Sys2Proof.Machine.execVaddI ty sat d a b s
  | .vsubI ty sat d a b => Sys2Proof.Machine.execVsubI ty sat d a b s
  | .vmulI ty sat d a b => Sys2Proof.Machine.execVmulI ty sat d a b s
  | .vminI ty d a b => Sys2Proof.Machine.execVminI ty d a b s
  | .vmaxI ty d a b => Sys2Proof.Machine.execVmaxI ty d a b s
  | .vand ty d a b => Sys2Proof.Machine.execVand ty d a b s
  | .vor ty d a b => Sys2Proof.Machine.execVor ty d a b s
  | .vxor ty d a b => Sys2Proof.Machine.execVxor ty d a b s
  | .vshl ty d a b => Sys2Proof.Machine.execVshl ty d a b s
  | .vshr ty d a b => Sys2Proof.Machine.execVshr ty d a b s
  | .vsar ty d a b => Sys2Proof.Machine.execVsar ty d a b s
  | .vcvt dt st rm sat d a p => Sys2Proof.Machine.execVcvt dt st rm sat d a p s
  | .vdec dt rm d a b t p => Sys2Proof.Machine.execVdec dt rm d a b t p s
  | .venc auto d a b t p => Sys2Proof.Machine.execVenc auto d a b t p s
  | .vscl rm d a b t p => Sys2Proof.Machine.execVscl rm d a b t p s
  | .vsauto d a t p => Sys2Proof.Machine.execVsauto d a t p s
  | .vsum ty rm sat d a => Sys2Proof.Machine.execVsum ty rm sat d a s
  | .vrmax ty d a => Sys2Proof.Machine.execVrmax ty d a s
  | .vrmin ty d a => Sys2Proof.Machine.execVrmin ty d a s
  | .vperm d a b => Sys2Proof.Machine.execVperm d a b s
  | .vbcast ty d a => Sys2Proof.Machine.execVbcast ty d a s
  | .vext ty d a imm => Sys2Proof.Machine.execVext ty d a imm s
  | .vins ty d a imm => Sys2Proof.Machine.execVins ty d a imm s
  | .vsel d a b c => Sys2Proof.Machine.execVsel d a b c s
  | .vmov d a => Sys2Proof.Machine.execVmov d a s
  | .vrcp d a => Sys2Proof.Machine.execVrcp d a s
  | .vrsqrt d a => Sys2Proof.Machine.execVrsqrt d a s
  | .vexp2 d a => Sys2Proof.Machine.execVexp2 d a s
  | .vectorComplete core => Sys2Proof.Machine.execVectorComplete core s
  | .matrixComplete core => Sys2Proof.Machine.execMatrixComplete core s
  | .mrotSliceArrive core isB => Sys2Proof.Machine.execMrotSliceArrive core isB s
  | .laneWordArrive core dir => Sys2Proof.Machine.execLaneWordArrive core dir s
  | .copyAccept core => Sys2Proof.Machine.execCopyAccept core s
  | .copyAccess core copy pos => Sys2Proof.Machine.execCopyAccess core copy pos s
  | .copyEnd core copy => Sys2Proof.Machine.execCopyEnd core copy s
  | .bankLoad core bank => Sys2Proof.Machine.execBankLoad core bank s
  | .homeAccess id => Sys2Proof.Machine.execHomeAccess id s
  | .loadReply id => Sys2Proof.Machine.execLoadReply id s
  | .storeAck id => Sys2Proof.Machine.execStoreAck id s
  | .porterAccess id => Sys2Proof.Machine.execPorterAccess id s
  | .messageArrive id => Sys2Proof.Machine.execMessageArrive id s
  | .heldRecordEnter core => Sys2Proof.Machine.execHeldRecordEnter core s
  | .ringStall core => Sys2Proof.Machine.execRingStall core s
  | .migrationArrive id => Sys2Proof.Machine.execMigrationArrive id s
  | .amoAtHome id => Sys2Proof.Machine.execAmoAtHome id s
  | .remoteUpdate id => Sys2Proof.Machine.execRemoteUpdate id s
  | .farDrain id => Sys2Proof.Machine.execFarDrain id s
  | .taskTake core slot => Sys2Proof.Machine.execTaskTake core slot s
  | .stealRequest core slot victim => Sys2Proof.Machine.execStealRequest core slot victim s
  | .taskParkTimeout core slot => Sys2Proof.Machine.execTaskParkTimeout core slot s
  | .taskFrameStep id => Sys2Proof.Machine.execTaskFrameStep id s
  | .syncAnswer id => Sys2Proof.Machine.execSyncAnswer id s
  | .deadlineExpire launch level unit => Sys2Proof.Machine.execDeadlineExpire launch level unit s
  | .quantumExpire core slot => Sys2Proof.Machine.execQuantumExpire core slot s
  | .idleTimeout core slot => Sys2Proof.Machine.execIdleTimeout core slot s
  | .trapTake tid => Sys2Proof.Machine.execTrapTake tid s
  | .oncePost id => Sys2Proof.Machine.execOncePost id s
  | .icacheFill square asid line => Sys2Proof.Machine.execIcacheFill square asid line s
  | .pageWalk square asid page => Sys2Proof.Machine.execPageWalk square asid page s
  | .arbiterBoundary core => Sys2Proof.Machine.execArbiterBoundary core s
  | .spillEngineEvict core => Sys2Proof.Machine.execSpillEngineEvict core s
  | .withdraw id => Sys2Proof.Machine.execWithdraw id s
  | .roomMessage id => Sys2Proof.Machine.execRoomMessage id s
  | .contextReadyTimeout core rec => Sys2Proof.Machine.execContextReadyTimeout core rec s
  | .refusedResendTimeout core slot => Sys2Proof.Machine.execRefusedResendTimeout core slot s
  | .tumblerToken t k => Sys2Proof.Machine.execTumblerToken t k s
  | .tumblerDrainEnd t k => Sys2Proof.Machine.execTumblerDrainEnd t k s
  | .einsLookup id => Sys2Proof.Machine.execEinsLookup id s
  | .appendParent id => Sys2Proof.Machine.execAppendParent id s
  | .insertWithdraw id => Sys2Proof.Machine.execInsertWithdraw id s
  | .accept id => Sys2Proof.Machine.execAccept id s
  | .clear id => Sys2Proof.Machine.execClear id s
  | .best id => Sys2Proof.Machine.execBest id s
  | .ecostStep id => Sys2Proof.Machine.execEcostStep id s
  | .repair heap chan => Sys2Proof.Machine.execRepair heap chan s
  | .splice id => Sys2Proof.Machine.execSplice id s
  | .rehash id => Sys2Proof.Machine.execRehash id s
  | .unindex id => Sys2Proof.Machine.execUnindex id s
  | .index id => Sys2Proof.Machine.execIndex id s
  | .merge id => Sys2Proof.Machine.execMerge id s
  | .settleWave heap => Sys2Proof.Machine.execSettleWave heap s
  | .esettleAtAnchor id => Sys2Proof.Machine.execEsettleAtAnchor id s
  | .matchScan heap chan => Sys2Proof.Machine.execMatchScan heap chan s
  | .stowProcess hamper req => Sys2Proof.Machine.execStowProcess hamper req s
  | .unstowProcess hamper req => Sys2Proof.Machine.execUnstowProcess hamper req s
  | .unstowPageArrive hamper req page => Sys2Proof.Machine.execUnstowPageArrive hamper req page s
  | .identify c buf => Sys2Proof.Machine.execIdentify c buf s
  | .readSensors c buf => Sys2Proof.Machine.execReadSensors c buf s
  | .submitLaunch c args => Sys2Proof.Machine.execSubmitLaunch c args s
  | .suspendLaunch c launch => Sys2Proof.Machine.execSuspendLaunch c launch s
  | .resumeLaunch c launch => Sys2Proof.Machine.execResumeLaunch c launch s
  | .killLaunch c launch => Sys2Proof.Machine.execKillLaunch c launch s
  | .writeDeviceMemory c dev hostA len w4 => Sys2Proof.Machine.execWriteDeviceMemory c dev hostA len w4 s
  | .readDeviceMemory c dev hostA len w4 => Sys2Proof.Machine.execReadDeviceMemory c dev hostA len w4 s
  | .setRootTableAddress c a => Sys2Proof.Machine.execSetRootTableAddress c a s
  | .writeRootEntry c asid e => Sys2Proof.Machine.execWriteRootEntry c asid e s
  | .invalidateTranslations c asid page ctl => Sys2Proof.Machine.execInvalidateTranslations c asid page ctl s
  | .createHeap c h asid w1 w2 seg segsz => Sys2Proof.Machine.execCreateHeap c h asid w1 w2 seg segsz s
  | .releaseHeap c h => Sys2Proof.Machine.execReleaseHeap c h s
  | .heapReleaseComplete heap => Sys2Proof.Machine.execHeapReleaseComplete heap s
  | .writeTurnMasks c die plane mask => Sys2Proof.Machine.execWriteTurnMasks c die plane mask s
  | .markDown c l => Sys2Proof.Machine.execMarkDown c l s
  | .markUp c l => Sys2Proof.Machine.execMarkUp c l s
  | .createNamespace c drive asid lbas => Sys2Proof.Machine.execCreateNamespace c drive asid lbas s
  | .deleteNamespace c drive asid => Sys2Proof.Machine.execDeleteNamespace c drive asid s
  | .readObject c drive asid obj buf => Sys2Proof.Machine.execReadObject c drive asid obj buf s
  | .deleteObject c drive asid obj => Sys2Proof.Machine.execDeleteObject c drive asid obj s
  | .installPatch c stack atom => Sys2Proof.Machine.execInstallPatch c stack atom s
  | .scrubberControl c stack period => Sys2Proof.Machine.execScrubberControl c stack period s
  | .readCertificate c buf => Sys2Proof.Machine.execReadCertificate c buf s
  | .attest c launch nonce buf => Sys2Proof.Machine.execAttest c launch nonce buf s
  | .linkReplay l => Sys2Proof.Machine.execLinkReplay l s
  | .linkFail l => Sys2Proof.Machine.execLinkFail l s
  | .routeDrop id => Sys2Proof.Machine.execRouteDrop id s
  | .scrubStep stack atom => Sys2Proof.Machine.execScrubStep stack atom s
  | .hotListScrub stack => Sys2Proof.Machine.execHotListScrub stack s
  | .windowRollover => Sys2Proof.Machine.execWindowRollover s
  | .activationAlert chan bank postponed cycles => Sys2Proof.Machine.execActivationAlert chan bank postponed cycles s
  | .temperatureReport die temp => Sys2Proof.Machine.execTemperatureReport die temp s
  | .powerRemoval temp => Sys2Proof.Machine.execPowerRemoval temp s
  | .coldReset romOk => Sys2Proof.Machine.execColdReset romOk s
  | .vectorCommandStart core => Sys2Proof.Machine.execVectorCommandStart core s
  | .insertConfirm id => Sys2Proof.Machine.execInsertConfirm id s
  | .illegalBundle r h => Sys2Proof.Machine.execIllegalBundle r h s
  | .invalidEntry c => Sys2Proof.Machine.execInvalidEntry c s
  | .objectDurable hamper req => Sys2Proof.Machine.execObjectDurable hamper req s
  | .refreshManagementDone chan bank => Sys2Proof.Machine.execRefreshManagementDone chan bank s
  | .fence => Sys2Proof.Machine.execFence s
  | .fenceR => Sys2Proof.Machine.execFenceR s
  | .fenceOwn => Sys2Proof.Machine.execFenceOwn s
  | .done => Sys2Proof.Machine.execDone s
  | .home => Sys2Proof.Machine.execHome s
  | .once => Sys2Proof.Machine.execOnce s

end Sys2Proof.Machine
end

