-- ==== Sys2Proof/Machine/Fetch.lean ====
section
/-!
DEFINITION. Fetching a bundle (R107 to R110): from local memory, from a line of the square's instruction cache,
or from its atom where the line cannot be kept; the waits for a walk or a line, and the *instruction fetch* fault.
-/

namespace Sys2Proof.Machine

/-- What a fetch finds. -/
inductive Fetch where
  /-- the bundle, with the key and length of a protected unit read for it -/
  | word (w : Word) (read : Option (Nat × Nat))
  /-- the thread parks -/
  | wait (c : Cond)
  /-- the qualifier of *instruction fetch*, with the key of an uncorrectable unit -/
  | fail (qual : Nat) (key : Option Nat)
  deriving DecidableEq, Repr

/-- Fetch from local memory (R107, R110); full/empty bits do not matter (R108). Where a program counter names another core
and its bundle lies outside the window, both qualifiers hold, and the spec gives no order: the model reports *remote code*
(notes/assumptions/11). -/
def State.fetchLocal (s : State) (l : Launch) (core : Nat) (a : Word) : Fetch :=
  let key := localKey core (bits a 0 16)
  let named := bits a 16 13
  if bits a 29 34 != 0 then .fail 3 none
  else if named != 0x1FFF && !(named < l.cores && l.coreOf named == core) then .fail 4 none
  else if bits a 0 16 < l.lmLo || l.lmHi < bits a 0 16 + 8 then .fail 3 none
  else if s.isBad key 8 then .fail 6 (some key)
  else .word (s.loadWord key) (some (key, 8))

/-- A bundle of global code as a line of the square's cache holds it. -/
def State.lineWord (s : State) (l : Launch) (core : Nat) (a : Word) : Option Word :=
  ((s.square (squareOf core)).lines.find? fun y => y.asid == l.asid && y.addr / 64 == a.toNat / 64).map
    fun y => y.data.extractLsb' (8 * (a.toNat % 64)) 64

/-- Fetch from global memory: from the slot's fetch buffer (R108), by the line, else by a translation that permits execution
(R109). The line with an uncorrectable atom is not kept, and the bundle is read in its own atom (R110). -/
def State.fetchGlobal (s : State) (l : Launch) (core : Nat) (a : Word) (buf : List (Word × Word)) : Fetch :=
  match buf.find? fun p => p.1 == a with
  | some p => .word p.2 none
  | none =>
    match s.lineWord l core a with
    | some w => .word w none
    | none =>
      match lookIn (s.square (squareOf core)).trans l.asid a .x with
      | .fault f => .fail (if f.qual = 3 then 2 else 1) none
      | .miss => .wait (.fetchWalk a.toNat)
      | .hit k =>
        if !s.bankOpen k then .wait (.bankOpen k)
        else if s.isBad k 32 then .fail 6 (some k)
        else if s.isBad (k / 64 * 64) 32 || s.isBad (k / 64 * 64 + 32) 32 then .word (s.loadWord k) (some (k, 32))
        else .wait (.line a.toNat)

def State.fetchAt (s : State) (l : Launch) (core : Nat) (a : Word) (buf : List (Word × Word)) : Fetch :=
  if isLocal a then s.fetchLocal l core a else s.fetchGlobal l core a buf

/-! ### The fetch buffer (R108) -/

/-- The two bundles from an address on, where the buffer or a line has them. Bundles of local memory are read at their issue,
with every write performed before it, and none is kept. -/
def State.buffered (s : State) (l : Launch) (core : Nat) (a : Word) (buf : List (Word × Word)) : List (Word × Word) :=
  if isLocal a then []
  else [a, a + 8].filterMap fun x =>
    match buf.find? fun p => p.1 == x with
    | some p => some p
    | none => if isLocal x then none else (s.lineWord l core x).map fun w => (x, w)

/-- The issuing slot's buffer is what it is from now on. -/
def State.setBuffer (s : State) (buf : List (Word × Word)) : State :=
  if (s.slot s.ctx.core s.ctx.slot).buf = buf then s else s.modSlot s.ctx.core s.ctx.slot fun x => { x with buf := buf }

/-- After a bundle has issued, the buffer of its slot holds the two bundles behind it; a taken transfer has emptied it. -/
def State.bufferOn (s : State) : State :=
  match s.me? with
  | none => s
  | some t =>
    let x := s.slot s.ctx.core s.ctx.slot
    if s.ctx.phase = .checked && x.tid = some s.ctx.tid then
      s.setBuffer (if s.ctx.taken then [] else s.buffered (s.launchOf t) s.ctx.core s.ctx.target x.buf)
    else s

/-- The qualifier where the bundle is the governed one of a unit (R110, *second page*). -/
def State.unitQual (s : State) (l : Launch) (core : Nat) (pc : Word) (qual : Nat) : Nat :=
  if qual ≤ 4 && (isLocal pc || s.endsPage (squareOf core) l.asid pc) then 5 else qual

/-- The issuing thread parks on a fetch: on a walk, which starts where none runs (R310), or on a line. -/
def State.parkFetch (s : State) (c : Cond) (unit : Bool) : State :=
  let s := match c with
    | .fetchWalk a => s.startWalk (squareOf s.ctx.core) s.myLaunch.asid (a / 65536)
    | _ => s
  s.modMe fun t => { t with wait := some (.cond c), bundle := some (fetchBundle t.pc unit) }

/-- The fetch fails: the fault is reported at the bundle, or at the prefix of its unit (R110). -/
def State.failFetch (s : State) (a : Word) (qual : Nat) (key : Option Nat) (unit : Bool) : State :=
  let s := match key with
    | some k => s.uncorrected k s.myLaunch.asid
    | none => s
  let pc := s.me.pc
  let q := if unit then s.unitQual s.myLaunch s.ctx.core pc qual else qual
  s.raise s.ctx.tid { cause := 0x1B, qual := q, pc := pc, detail := a, bundle := some (fetchBundle pc unit) }

/-- Fetch the bundle at an address for the issuing thread, or the governed one of a unit behind its prefix: the bundle, or
none where the thread has parked or taken the fault. The buffer keeps it, and the one behind it. -/
def State.fetch (s : State) (a : Word) (unit : Bool) : State × Option Word :=
  let buf := (s.slot s.ctx.core s.ctx.slot).buf
  match s.fetchAt s.myLaunch s.ctx.core a buf with
  | .word w read =>
    let s := s.setBuffer (s.buffered s.myLaunch s.ctx.core s.me.pc ((a, w) :: buf))
    (match read with
      | some (k, n) => s.corrected k n s.myLaunch.asid
      | none => s, some w)
  | .wait c => (s.parkFetch c unit, none)
  | .fail qual key => (s.failFetch a qual key unit, none)

end Sys2Proof.Machine
end

