-- ==== Sys2Proof/Machine/Issue.lean ====
section
/-!
DEFINITION. The issue turn of a core (R37): the slot chosen, its bundle fetched and decoded (R87), and issued: a
lone instruction, the two halves of a short bundle as one step (R88), or a prefixed unit (R104). And a thread
placed with a bundle in front of it, for `State.withFetchWord`.
-/

namespace Sys2Proof.Machine

/-- The instructions of a bundle. -/
def bundleHalves : Bundle → List Instr
  | .lone i => [i]
  | .short c a => [c, a]

/-- The next state of a step that cannot stop. -/
def nextOf (s : State) : Host.Outcome State Fault Refusal → State
  | .next t => t
  | .fault _ | .refused _ => s

/-- One instruction on a state. -/
def run (i : Instr) (s : State) : State := nextOf s (exec i s)

/-- The halves of a bundle whose checks have passed, the A-slot half first: a C-slot half may move or end its
thread, and both halves read the registers as they were (R88). -/
def runHalves (is : List Instr) (s : State) : State := is.reverse.foldl (fun s i => run i s) s

/-- No bundle is issuing any more; the slot's fetch buffer moves on (R108). -/
def settle : Host.Outcome State Fault Refusal → Host.Outcome State Fault Refusal
  | .next s => .next { s.bufferOn with ctx := Ctx.idle }
  | x => x

/-- A short bundle. A half that holds `nop` does nothing, and the other issues alone. -/
def State.issueShort (s : State) (c a : Instr) : Host.Outcome State Fault Refusal :=
  if a = .nop then exec c s
  else if c = .nop then exec a s
  else .next (s.issueAll [(.c, c), (.a, a)] (runHalves [c, a]))

/-- A governed bundle that has been decoded: prefix misuse (R105), else `once`, which may ask that it runs. The report of a
misuse names the lone half, that of the prefix, where the governed bundle is short: the spec names none. Nor does it order a
misuse and a double write of the governed bundle: the model reports the misuse (notes/assumptions/51). -/
def State.issueGoverned (s : State) (b : Bundle) : Host.Outcome State Fault Refusal :=
  let s := { s with ctx := { s.ctx with instrs := bundleHalves b } }
  if (bundleHalves b).any misuse then exec (.illegalBundle .prefixMisuse .lone) s
  else
    match exec .once s with
    | .next t => .next (if t.ctx.governed then (runHalves (bundleHalves b) t).finish.postUnit else t)
    | x => x

/-- A prefixed unit: the governed bundle is fetched and decoded, and the unit issues as one (R104, R110). -/
def State.issueUnit (s : State) : Host.Outcome State Fault Refusal :=
  let pc := s.me.pc
  let x := s.fetch (pc + 8) true
  match x.2 with
  | none => .next x.1
  | some w =>
    let t := { x.1 with ctx := { x.1.ctx with pc := pc, unit := some (pc, s.me.occ) } }
    match decodeBundle w with
    | .error (r, h) => exec (.illegalBundle r h) t
    | .ok b => t.issueGoverned b

/-- A fetched bundle is decoded and issued. -/
def State.issueWord (s : State) (w : Word) : Host.Outcome State Fault Refusal :=
  match decodeBundle w with
  | .error (r, h) => exec (.illegalBundle r h) s
  | .ok (.lone .once) => s.issueUnit
  | .ok (.lone i) => exec i s
  | .ok (.short c a) => s.issueShort c a

/-- Slot n of a core takes the core's turn: its thread is the one that issues. -/
def State.takeTurn (s : State) (core n tid : Nat) : State :=
  let s := (s.modCore core fun c => ({ c with last := n } : Core).modSlot n fun x => { x with issued := s.clock + 1 }).modThread
    tid fun t => { t with wait := none }
  { s with ctx := { Ctx.idle with tid := tid, core := core, slot := n } }

/-- A thread fetches its bundle and issues it. -/
def State.issueThread (s : State) (core n tid : Nat) : Host.Outcome State Fault Refusal :=
  let s := s.takeTurn core n tid
  let x := s.fetch s.me.pc false
  settle (match x.2 with
    | none => .next x.1
    | some w => x.1.issueWord w)

/-- The issue turn of a core: the first eligible slot after the last that issued, if there is one (R37). -/
def State.issueTurn (s : State) (core : Nat) : Host.Outcome State Fault Refusal :=
  match s.turnSlot core with
  | none => .next s
  | some n =>
    match (s.slot core n).tid with
    | some tid => s.issueThread core n tid
    | none => .next s

/-! ### A bundle in front of a thread -/

/-- A launch of one ward with the whole of local memory as its window, one level, and no tumbler or queue. -/
def benchLaunch : Launch :=
  { Launch.blank with
    lmHi := 65536, gregs := 32, vregs := 8, weights := List.replicate 16 1, wards := [0],
    levels := [{ count := 1, retries := 0, policy := 2, scope := 4, barrier := true, domain := 4, deadline := 0 }] }

/-- Its thread, at offset 0 of its core's local memory. -/
def benchThread (lid : Nat) : Thread :=
  { Thread.blank with
    launch := lid, place := .slot 0 0, pc := 0x800000001FFF0000, gang := true, units := some (0, 0) }

/-- The machine with such a thread in slot 0 of core 0, a bundle at its program counter, zeros behind it, and core 0
next in turn. -/
def State.withBundle (s : State) (b : Word) : State :=
  let lid := s.nextLid
  let tid := s.nextTid
  let s := { s with
    launches := tput (s.launches.filter fun p => !p.2.owns 0) lid benchLaunch, nextLid := lid + 1,
    threads := tput s.threads tid (benchThread lid), nextTid := tid + 1,
    halted := false, unpowered := false, plan := [], turn := [0], ctx := Ctx.idle,
    bad := s.bad.filter fun u => !(localBase / 8 ≤ u && u < localBase / 8 + 2) }
  let s := (s.setCore 0 (Core.clear.modSlot 0 fun x => { x with tid := some tid })).modSquare 0 fun q => { q with
    service := some { num := 0, streets := s.streets, wards := [0] } }
  (s.storeWord (localKey 0 0) b).storeWord (localKey 0 8) 0

end Sys2Proof.Machine
end

