-- ==== Sys2Proof/Machine/Events.lean ====
section
/-!
DEFINITION. What the machine does of itself: the steps that its engines, homes, networks, timers and harts may
make now, in the model's own order, and the end of a cycle. The spec fixes no order among them where they do not
depend on each other; `plan` in the state may name any other.
-/

namespace Sys2Proof.Machine

/-! ### The steps that may be due -/

/-- The step of a heap message. -/
def heapSteps (id : Nat) : HeapMsg → List Instr
  | .read _ _ _ | .pattern _ _ _ _ _ | .ematch _ _ _ _ _ => [.homeAccess id]
  | .einsLookup _ _ _ _ _ => [.einsLookup id]
  | .append _ _ _ _ => [.appendParent id]
  | .insert _ _ _ _ _ _ _ _ _ _ => [.insertConfirm id, .insertWithdraw id]
  | .accept _ _ _ _ _ => [.accept id]
  | .clear _ _ => [.clear id]
  | .best _ _ _ _ => [.best id]
  | .ecost _ _ _ _ _ => [.ecostStep id]
  | .rehash _ _ => [.rehash id]
  | .unindex _ _ _ => [.unindex id]
  | .index _ _ _ _ _ _ _ => [.index id]
  | .merge _ _ _ _ => [.merge id]
  | .splice _ _ _ _ _ _ | .spliceStore _ _ _ => [.splice id]
  | .esettle _ _ => [.esettleAtAnchor id]

/-- The steps of a packet: a dropped one does not arrive. -/
def packetSteps (id : Nat) : Body → List Instr
  | .access _ => [.routeDrop id, .porterAccess id, .remoteUpdate id, .homeAccess id]
  | .refusedAccess _ | .refusedAmo _ | .refusedFrame _ => []
  | .reply _ _ _ => [.routeDrop id, .loadReply id]
  | .ack _ _ => [.routeDrop id, .storeAck id]
  | .amo _ => [.routeDrop id, .porterAccess id, .amoAtHome id]
  | .msg _ => [.routeDrop id, .messageArrive id]
  | .migr _ _ _ _ _ => [.routeDrop id, .migrationArrive id]
  | .far _ _ _ => [.routeDrop id, .farDrain id]
  | .frame _ => [.routeDrop id, .taskFrameStep id]
  | .frameAns _ _ => [.routeDrop id, .syncAnswer id]
  | .withdraw _ _ _ => [.routeDrop id, .withdraw id]
  | .room _ _ => [.routeDrop id, .roomMessage id]
  | .post _ _ _ _ _ _ _ => [.oncePost id]
  | .heap m => .routeDrop id :: heapSteps id m

/-- The first position of a copy still to be finished. -/
def Copy.nextPos (x : Copy) : Nat :=
  ((List.range (Layout.ofWords x.words).area).find? fun p => !x.done.contains p).getD 0

/-- A list that counts only under a condition. -/
def whenSteps (c : Bool) (is : List Instr) : List Instr := if c then is else []

/-- The steps of a slot. -/
def slotSteps (clock c n : Nat) (x : Slot) : List Instr :=
  whenSteps x.tid.isSome [.idleTimeout c n] ++ whenSteps x.resendAt.isSome [.refusedResendTimeout c n]
    ++ whenSteps (x.isFree && n < 15) (match x.victims with
      | v :: _ => [.stealRequest c n v]
      | [] => if x.seekAt = 0 then [.taskTake c n] else whenSteps (x.seekAt ≤ clock) [.taskParkTimeout c n])

/-- A slice waits to leave a core in an exchange (R178). -/
def Core.inExchange (x : Core) : Bool :=
  match x.matQ with
  | m :: _ => match m.phase with
    | .exchange _ _ => true
    | _ => false
  | [] => false

/-- The cores that the slices of a core go to: the W neighbour (A) and the N neighbour (B). -/
def State.sliceSteps (s : State) (c : Nat) : List Instr :=
  [.mrotSliceArrive (s.neighbour c 3) false, .mrotSliceArrive (s.neighbour c 0) true]

/-- The steps of a core's engines, ring and slots. -/
def State.coreSteps (s : State) (c : Nat) (x : Core) : List Instr :=
  whenSteps (!x.held.isEmpty) [.heldRecordEnter c, .ringStall c]
    ++ whenSteps (!x.vecRun.isEmpty) [.vectorComplete c] ++ whenSteps (!x.vecQ.isEmpty) [.vectorCommandStart c]
    ++ whenSteps (!x.matQ.isEmpty) [.matrixComplete c] ++ whenSteps x.inExchange (s.sliceSteps c)
    ++ whenSteps (x.flying.toList.any fun w => !w.isEmpty)
      [.laneWordArrive c 0, .laneWordArrive c 1, .laneWordArrive c 2, .laneWordArrive c 3]
    ++ whenSteps (!x.copyQ.isEmpty) [.copyAccept c]
    ++ whenSteps (x.banks.toList.any fun b => b.loading.isSome) [.bankLoad c false, .bankLoad c true]
    ++ x.copies.flatMap (fun y => [.copyEnd c y.num, .copyAccess c y.num (65536 + y.nextPos)])
    ++ (List.range x.runq.length).map (fun k => .contextReadyTimeout c k)
    ++ (List.range 16).flatMap fun n => slotSteps s.clock c n (x.slot n)

/-- The steps of a thread: what is due, its quantum, the line it waits for, the deadlines of its units. -/
def State.threadSteps (s : State) (tid : Nat) (t : Thread) : List Instr :=
  let l := s.launchOf t
  (if t.qhit then [.quantumExpire t.homeCore t.homeSlot] else [])
    ++ (if t.due.isEmpty then [] else [.trapTake tid])
    ++ (match t.wait with
      | some (.cond (.line a)) => [.icacheFill (squareOf t.coreNow) l.asid (a / 64)]
      | _ => [])
    ++ match t.units with
      | some (c, n) => (List.range l.levels.length).filterMap fun k =>
          match l.levels[k]? with
          | some v => if v.deadline = 0 then none else some (.deadlineExpire t.launch k (unitAt l v c n))
          | none => none
      | none => []

/-- The steps of a tumbler. -/
def tumblerSteps (t : Nat) (x : Tumbler) : List Instr :=
  (List.range (x.inside.length + x.arrived.length + x.entry.length)).map (fun k => .tumblerToken t k)
    ++ if x.ops.isEmpty then [] else [.tumblerDrainEnd t 0]

/-- The steps of a heap. -/
def heapNumberSteps (h : Nat) (x : Heap) : List Instr :=
  if x.state = 0 then [] else (List.range 256).map (fun c => .repair h c) ++ [.heapReleaseComplete h]

/-- The steps of a Hamper core: its requests in order. -/
def hamperSteps (k : Nat) (x : Hamper) : List Instr :=
  x.queue.flatMap fun r =>
    if r.stow then [.stowProcess k r.num, .objectDurable k r.num]
    else .unstowProcess k r.num :: (List.range (r.data.length - 1)).map fun p => .unstowPageArrive k r.num (p + 1)

/-- Every step that may be due, in the model's order. -/
def State.candidates (s : State) : List Instr :=
  s.net.flatMap (fun p => packetSteps p.1 p.2)
    ++ s.threads.flatMap (fun p => s.threadSteps p.1 p.2)
    ++ s.squares.flatMap (fun p => (p.2.walks.take 64).map fun w => .pageWalk p.1 w.1 w.2)
    ++ s.cores.flatMap (fun p => s.coreSteps p.1 p.2)
    ++ s.tumblers.flatMap (fun p => tumblerSteps p.1 p.2)
    ++ s.heaps.flatMap (fun p => heapNumberSteps p.1 p.2)
    ++ ((List.range 4).zip s.hampers.toList).flatMap (fun p => hamperSteps p.1 p.2)
    ++ s.pending
    ++ s.alerts.map fun a => .refreshManagementDone a.chan a.bank

/-- The state after the first candidate that is due: a step that is not due changes nothing. -/
def State.firstDue (s : State) : List Instr → Option State
  | [] => none
  | i :: r => if run i s = s then s.firstDue r else some (run i s)

/-! ### The commands of the host (R241, R320, R339) -/

/-- The service core, the command id and the completion word of a command of the host. -/
def hostCmd : Instr → Option Cmd
  | .identify c _ | .readSensors c _ | .submitLaunch c _ | .suspendLaunch c _ | .resumeLaunch c _ | .killLaunch c _
  | .writeDeviceMemory c _ _ _ _ | .readDeviceMemory c _ _ _ _ | .setRootTableAddress c _ | .writeRootEntry c _ _
  | .invalidateTranslations c _ _ _ | .createHeap c _ _ _ _ _ _ | .releaseHeap c _ | .writeTurnMasks c _ _ _
  | .markDown c _ | .markUp c _ | .createNamespace c _ _ _ | .deleteNamespace c _ _ | .readObject c _ _ _ _
  | .deleteObject c _ _ _ | .installPatch c _ _ | .scrubberControl c _ _ | .readCertificate c _ | .attest c _ _ _
  | .invalidEntry c => some c
  | _ => none

/-- The opcode of a command (R321). -/
def opcodeOf : Instr → Option Nat
  | .identify _ _ => some 0x01
  | .readSensors _ _ => some 0x02
  | .submitLaunch _ _ => some 0x10
  | .suspendLaunch _ _ => some 0x11
  | .resumeLaunch _ _ => some 0x12
  | .killLaunch _ _ => some 0x13
  | .writeDeviceMemory _ _ _ _ _ => some 0x20
  | .readDeviceMemory _ _ _ _ _ => some 0x21
  | .setRootTableAddress _ _ | .writeRootEntry _ _ _ => some 0x22
  | .invalidateTranslations _ _ _ _ => some 0x23
  | .createHeap _ _ _ _ _ _ _ => some 0x30
  | .releaseHeap _ _ => some 0x31
  | .writeTurnMasks _ _ _ _ => some 0x40
  | .markDown _ _ | .markUp _ _ => some 0x41
  | .createNamespace _ _ _ _ => some 0x50
  | .deleteNamespace _ _ _ => some 0x51
  | .readObject _ _ _ _ _ => some 0x52
  | .deleteObject _ _ _ _ => some 0x53
  | .installPatch _ _ _ => some 0x60
  | .scrubberControl _ _ _ => some 0x61
  | .readCertificate _ _ => some 0x70
  | .attest _ _ _ _ => some 0x71
  | _ => none

/-- A submission entry of 64 bytes as a service core reads it (R320): opcode and command id in word 0, the arguments in words
1 to 6, the completion word's address in word 7. R339 places the arguments of two commands; those of the others stand where
the spec does not say (notes/assumptions/28). -/
def decodeEntry (sc : Nat) (ws : List Word) : Instr :=
  let w (i : Nat) : Word := ws.getD i 0
  let c : Cmd := { sc := sc, cid := (w 0).extractLsb' 16 16, cw := (w 7).toNat }
  let op := bits (w 0) 0 16
  if bits (w 0) 32 32 != 0 then .invalidEntry c
  else if op = 0x20 then .writeDeviceMemory c (w 1).toNat (w 2).toNat (w 3).toNat (w 4)
  else if op = 0x21 then .readDeviceMemory c (w 1).toNat (w 2).toNat (w 3).toNat (w 4)
  else match Config.entryCommand ws with
    | some i => if opcodeOf i = some op && hostCmd i = some c then i else .invalidEntry c
    | none => .invalidEntry c

/-- A service core has a command that it has begun and not ended. -/
def State.busyWith (s : State) (sc : Nat) : Bool :=
  s.pending.any (fun i => (hostCmd i).any fun c => c.sc == sc)
    || s.heaps.any fun p => p.2.releasing.any fun c => c.sc == sc

/-- A command comes to its service core: behind those that came before it (R241). -/
def State.receive (s : State) (i : Instr) : Host.Outcome State Fault Refusal :=
  match hostCmd i with
  | some c =>
    if s.busyWith c.sc || s.queue.any (fun p => (hostCmd p.2).any fun d => d.sc == c.sc) then .next (s.postpone i) else exec i s
  | none => exec i s

/-- A queued command goes on, where its service core has ended those before it, and no alert makes it wait. -/
def State.takeQueued (s : State) (n : Nat) (i : Instr) : Option State :=
  let free := match hostCmd i with
    | some c => !s.busyWith c.sc && s.queue.all fun p => n ≤ p.1 || (hostCmd p.2).all fun d => d.sc != c.sc
    | none => true
  let t := { s with queue := s.queue.filter fun p => p.1 != n }
  let u := run i t
  if free && u.queue.length ≤ t.queue.length then some u else none

/-- The first command of the queues that can go on. -/
def State.fromQueue (s : State) : Option State := s.queue.findSome? fun p => s.takeQueued p.1 p.2

/-! ### The end of a cycle -/

/-- Steps that go on once in a cycle: spill engines, settle waves, match harts; the arbiters at a boundary of 1,024
cycles (R275), the windows at one of 2^32 (R332). -/
def State.cycleSteps (s : State) : List Instr :=
  s.cores.map (fun p => .spillEngineEvict p.1)
    ++ s.heaps.flatMap (fun p => if p.2.state = 0 then [] else .settleWave p.1
        :: ((List.range 256).filter fun c => !(p.2.jobs.toList.getD c []).isEmpty).map fun c => .matchScan p.1 c)
    ++ (if s.clock % 1024 = 0 then s.cores.map fun p => .arbiterBoundary p.1 else [])
    ++ if s.clock % 2 ^ 32 = 0 then [.windowRollover] else []

/-- The n-th atom of a stack: its channels are 32 of the 256 that frames of 64 KiB take in turn. -/
def atomOf (stack n : Nat) : Nat :=
  65536 * (256 * (n / 2048 / 32) + 32 * stack + n / 2048 % 32) + n % 2048 * 32

/-- Atoms of a stack, and cycles of a second (R3). -/
def stackAtoms : Nat := hbmEnd / 32 / 8
def cyclesPerSecond : Nat := 1400000000

/-- The scrubber of a stack in one cycle (R330): an atom where its share of the period has passed, and a pass of the hot list
64 times in a period. -/
def State.scrubTick (s : State) (st : Nat) : State :=
  if h : st < 8 then
    let period := cyclesPerSecond * s.scrubPeriod[st]
    let gone := s.clock - s.scrubBase[st]
    let k := s.scrubNext[st]
    let atom := atomOf st (k % stackAtoms)
    let s := if k < stackAtoms * gone / period && s.bankOpen atom then
        let s := run (.scrubStep st atom) s
        { s with scrubNext := s.scrubNext.set st (k + 1) }
      else s
    if s.hotNext[st] < 64 * gone / period then
      let s := run (.hotListScrub st) s
      { s with hotNext := s.hotNext.set st (s.hotNext[st] + 1) }
    else s
  else s

/-- Ways of packets that are gone, and the waits of their answers for the host, are forgotten. -/
def State.forgetWays (s : State) : State :=
  let live (id : Nat) : Bool := s.net.any (fun p => p.1 == id) || s.waits.any (fun p => p.1 == id)
    || s.threads.any fun p => p.2.outst.any fun o => o.1 == id
  { s with ways := s.ways.filter (fun p => live p.1), hostHold := s.hostHold.filter fun h => live h.1 }

/-- An access that the store queue keeps back takes its way when it is sent: it has none from earlier (R113, R280). -/
def State.resendWays (s : State) : State :=
  (s.net.filter fun p => s.unsent p.1 p.2).foldl (fun (s : State) p => match p.2 with
    | .access a => s.sendTo p.1 (s.routing a.tid a.core) a.core (homeOf a.key) 0
    | _ => s) s

/-- Cores with a thread in a slot. -/
def State.busyCores (s : State) : List Nat :=
  (s.cores.filter fun p => p.1 < channelBase && p.2.slots.toList.any fun x => x.tid.isSome).map Prod.fst

/-- A cycle ends: the clock advances (R153), quanta count (R152), loads of itinerary tables write an entry, scrubbers read
(R330), launches of which nothing is left end (R338), and every core has its turn again. -/
def State.cycleEnd (s : State) : State :=
  let s := { s with clock := s.clock + 1, threads := s.threads.map fun (p : Nat × Thread) => (p.1, p.2.quantTick) }
  let s := (s.squares.filter fun (p : Nat × Square) => !p.2.itinLoad.isEmpty).foldl
    (fun (s : State) p => s.itinTicks p.1) s
  let s := s.cycleSteps.foldl (fun s i => run i s) s
  let s := (List.range 8).foldl State.scrubTick s
  let s := s.launches.foldl (fun (s : State) p => s.checkEnd p.1) s
  { s.forgetWays.resendWays with turn := s.busyCores }

/-! ### One step of the whole machine -/

/-- The model's own order: the turns of this cycle, then what is due, then the end of the cycle. -/
def State.course (s : State) : Host.Outcome State Fault Refusal :=
  match s.turn with
  | c :: r => ({ s with turn := r } : State).issueTurn c
  | [] =>
    match s.fromQueue with
    | some t => .next t
    | none =>
      match s.firstDue s.candidates with
      | some t => .next t
      | none => .next s.cycleEnd

/-- A step of the device or a command of the host, which needs no issuing thread. -/
def isEvent (i : Instr) : Bool :=
  !isInstruction i && match i with
    | .illegalBundle _ _ => false
    | _ => true

/-- A planned step; a bundle's instruction is none, and has no effect. A core has one turn in a cycle, and each core that may
issue has had it before anything else happens in the cycle (R37, R237, R274): a plan chooses the order of the turns. -/
def State.planned (s : State) (c : Choice) : Host.Outcome State Fault Refusal :=
  match c with
  | .event i => if isEvent i then s.receive i else .next s
  | .entry sc ws => s.receive (decodeEntry sc ws)
  | .issue c => if s.turn.contains c then ({ s with turn := s.turn.erase c } : State).issueTurn c else .next s
  | .course 0 => .next s
  | .course (n + 1) => ({ s with plan := .course n :: s.plan } : State).course
  | .cycle => .next s.cycleEnd
  | c => .next (s.strike c)

/-- A planned step that the cycle's turns go before. -/
def Choice.afterTurns : Choice → Bool
  | .event _ | .entry _ _ | .cycle => true
  | _ => false

/-- A machine that is held in reset, or without power, only takes a cold reset (R319, R4). -/
def State.dead (s : State) (c : Choice) : Host.Outcome State Fault Refusal :=
  match c with
  | .event (.coldReset ok) => exec (.coldReset ok) s
  | _ => .next s

/-- One step: what is planned, else the model's own order. -/
def State.advance (s : State) : Host.Outcome State Fault Refusal :=
  match s.plan with
  | c :: rest =>
    let t := { s with plan := rest }
    if s.halted || s.unpowered then t.dead c
    else
      match s.turn with
      | k :: more => if c.afterTurns then ({ s with turn := more } : State).issueTurn k else t.planned c
      | [] => t.planned c
  | [] => if s.halted || s.unpowered then .next s else s.course

end Sys2Proof.Machine
end

