-- ==== Sys2Proof/Machine/Step.lean ====
section
/-!
DEFINITION. One step of the machine, and a state whose next step runs a given instruction.
-/

namespace Sys2Proof.Machine

/-- One step: an issue turn of a core, a step of the device of itself, a command of the host, or the end of a cycle. -/
def step (s : State) : Host.Outcome State Fault Refusal := s.advance

/-- The state whose next step fetches and runs the instruction that the opcode table gives as w. -/
def State.withFetchWord (s : State) (nbits w : Nat) : State := s.withBundle (tableBundle nbits w)

end Sys2Proof.Machine
end

