-- ==== Sys2Proof/Machine/Images.lean ====
section
/-!
DEFINITION. What the device writes to the pages that a service core allocates to a launch, word by word: run-queue records
(R279), square images (R225) and core images (R285). The spec does not say where these pages lie, and gives no access to
them: the model keeps their contents in the fields of the state from which these words are read
(notes/assumptions/52).
-/

namespace Sys2Proof.Machine

/-! ### Run-queue records (R279) -/

/-- The code of a width of n bytes. -/
def widthOf (n : Nat) : Nat := if n = 1 then 0 else if n = 2 then 1 else if n = 4 then 2 else if n = 8 then 3 else 4

/-- The destination a waiting load or `amo` fills: the number of its `g` or its `v` register. -/
def Thread.heldDest (t : Thread) : Nat :=
  match t.outst with
  | some (_, d :: _) => d % 32
  | _ => 0

/-- The access control word: width, `fn` of an `amo`, destination, full/empty form and kind. -/
def controlWord (width fn dest fe kind : Nat) : Word :=
  BitVec.ofNat 64 (width * 2 ^ 16 + fn * 2 ^ 9 + dest * 2 ^ 4 + fe * 2 ^ 2 + kind)

/-- The `fn` of an `amo` (R130), its offset as the instruction of its thread names it. -/
def Thread.amoFn (t : Thread) (op : AmoOp) (sc : Scope) : Nat :=
  let f : BitVec 2 := ((t.bundle.map BundleInfo.instrs).getD []).foldl (fun f i => match i with
    | .amo _ _ _ _ _ e => e
    | _ => f) 0
  (op.code ++ sc.code ++ f : BitVec 7).toNat

/-- The eight words of a held access. Beyond the three kinds of R279, a `red` is coded as a store that has an `fn` and
`fe.clr` as one of form 3; an `amo` gives its operands as its data; and a `sync` holds no access, since its bundle makes it
again (notes/assumptions/52). -/
def Thread.heldWords (t : Thread) : Body → List Word
  | .refusedAccess a | .access a =>
    let data := (List.range 4).map fun j => a.data.extractLsb' (64 * j) 64
    match a.kind with
    | .load f => [a.addr, controlWord (widthOf a.size) 0 t.heldDest f.code.toNat 1, 0, 0, 0, 0, 0, 0]
    | .store f => [a.addr, controlWord (widthOf a.size) 0 0 f.code.toNat 0] ++ data ++ [0, 0]
    | .clear => [a.addr, controlWord 3 0 0 3 0, 0, 0, 0, 0, 0, 0]
    | .red op sc => [a.addr, controlWord 3 (op.code ++ sc.code ++ (0 : BitVec 2) : BitVec 7).toNat 0 0 0] ++ data ++ [0, 0]
  | .refusedAmo m | .amo m => [m.addr, controlWord 3 (t.amoFn m.op m.scope) t.heldDest 0 2, m.y0, m.y1, 0, 0, 0, 0]
  | _ => List.replicate 8 0

/-- The record control word of a waiting context; its home is 0 where no room at a home is awaited (R279). -/
def RunRec.control (r : RunRec) (l : Launch) (held : Nat) : Word :=
  let home := if r.cause != 1 then 0 else if r.home < channelBase then l.coreIdx r.home else r.home - channelBase
  BitVec.ofNat 64 (home * 2 ^ 32 + r.ownq.toNat * 2 ^ 12 + r.cause * 2 ^ 10 + (if r.ready then 2 ^ 9 else 0) + held)

/-- The 128 words of a run-queue record. -/
def State.recordWords (s : State) (r : RunRec) : List Word :=
  match tget s.threads r.tid with
  | none => List.replicate 128 0
  | some t =>
    let l := s.launchOf t
    let held := (r.held.map Prod.snd).filter fun b => match b with
      | .frame _ | .refusedFrame _ => false
      | _ => true
    let accesses := (List.range 5).flatMap fun k => match held[k]? with
      | some b => t.heldWords b
      | none => List.replicate 8 0
    saveWords l t t.pc
      ++ [r.control l held.length, BitVec.ofNat 64 (if t.gang then 2 ^ 32 + t.occ.toNat else 0), 0, 0]
      ++ accesses ++ [0, 0, 0, 0]

/-! ### Square images (R225) -/

/-- The code of a destination of a once record: its kind and its register. -/
def dstCode : Option Nat → Nat
  | none => 0
  | some d => if d < 32 then 2 ^ 6 + d else 2 ^ 7 + (d - 32)

/-- The twelve words of a once record. One that its elected member has left, in the model elected position 16, reads as
position 0 (notes/assumptions/52). -/
def OnceRec.words (r : OnceRec) : List Word :=
  let val (k : Nat) : List Word := (List.range 4).map fun j =>
    ((r.vals.getD k none).getD 0).extractLsb' (64 * j) 64
  [BitVec.ofNat 64 (r.occ.toNat * 2 ^ 32 + r.reached.toNat * 2 ^ 16 + r.elect % 16 * 2 ^ 12 + (if r.posted then 2 else 0) + 1),
   r.unit, BitVec.ofNat 64 (dstCode r.dsts[1]? * 2 ^ 8 + dstCode r.dsts[0]?), 0] ++ val 0 ++ val 1

/-- The 2,880 words of a square image: sixteen records for the gang of each of the slots 0 to 14. -/
def Square.image (q : Square) : List Word :=
  (q.once.toList.take 15).flatMap fun rs => (List.range 16).flatMap fun i => match rs[i]? with
    | some r => r.words
    | none => List.replicate 12 0

/-! ### Core images (R285) -/

/-- Words of a list, filled up to n with zeros. -/
def padded (n : Nat) (ws : List Word) : List Word := (List.range n).map fun i => ws.getD i 0

/-- n words of a value, low bits first. -/
def valueWords (w n : Nat) (v : BitVec w) : List Word := (List.range n).map fun i => v.extractLsb' (64 * i) 64

/-- A word of four-bit counts. -/
def countWord (ns : List Nat) : Nat := ((List.range ns.length).map fun k => ns.getD k 0 % 16 * 2 ^ (4 * k)).sum

/-- The word of a lane. -/
def Lane.word (y : Lane) : Word := BitVec.ofNat 64 (y.count * 2 ^ 40 + y.far * 2 ^ 32 + y.near)

/-- The words of a core image behind its local memory and its full/empty bits. -/
def Core.imageTail (x : Core) : List Word :=
  let latch (v : Option (BitVec 1280)) : List Word := valueWords 1280 20 (v.getD 0)
  let events := (List.range 16).map fun n => if (x.slots.toList.getD n Slot.free).event then 2 ^ n else 0
  let ports := (x.ports.zipWith (fun a b => a ++ b) x.flying).toList
  (x.accs.toList.flatMap fun a => valueWords 2048 32 a)
    ++ (latch (some x.curA) ++ latch (some x.curB) ++ latch x.incA ++ latch x.incB)
    ++ (x.qs.toList.flatMap fun ws => padded 8 ws)
    ++ [BitVec.ofNat 64 (x.mrotCount * 2 ^ 32 + countWord (x.qs.toList.map List.length))]
    ++ x.lanes.toList.map Lane.word
    ++ [BitVec.ofNat 64 (x.ringUsed * 2 ^ 32 + x.ringTail * 2 ^ 16 + x.ringHead),
        BitVec.ofNat 64 (events.sum + x.afull.toNat * 2 ^ 16 + (if x.incA.isSome then 2 ^ 24 else 0)
          + (if x.incB.isSome then 2 ^ 25 else 0)),
        BitVec.ofNat 64 (countWord (ports.map List.length))]
    ++ List.replicate 8 0 ++ (ports.flatMap fun ws => padded 8 ws) ++ List.replicate 32 0

/-- The 8,768 words of the image of district core k that a suspension keeps: bytes outside the window are zero. -/
def Saved.coreWords (v : Saved) (l : Launch) (k : Nat) : List Word :=
  let x := (tget v.cores k).getD Core.clear
  let word (i : Nat) : Word :=
    if l.lmLo ≤ 8 * i && 8 * i + 8 ≤ l.lmHi then (readWords v.mem (65536 * k + 8 * i) 1).headD 0 else 0
  let full (i : Nat) : Word := BitVec.ofNat 64 ((List.range 64).map fun b =>
    if v.empt.contains (8192 * k + 64 * i + b) then 0 else 2 ^ b).sum
  (List.range 8192).map word ++ (List.range 128).map full ++ x.imageTail

/-- The image of square q of the district. -/
def Saved.squareWords (v : Saved) (q : Nat) : List Word := ((tget v.squares q).getD Square.clear).image

end Sys2Proof.Machine
end

