-- ==== Sys2Proof/Safety.lean ====
section
/-!
DEFINITION. The terms in which statements about the machine are written: when a bundle of one instruction issues,
the values it reads, what it leaves of the thread that issues it and of the ports it names, and the form that
every step keeps.
-/

namespace Sys2Proof.Machine

/-! ### The bundle of one instruction -/

/-- The decode bank the issuing thread is bound to once i has looked for one (R172). -/
def State.bankSought (s : State) (i : Instr) : Option Nat :=
  if usesBank i && s.me.bank.isNone && s.me.fmtp != 0 then
    s.myCore.findBank fun _ b => b.tag == some (s.myLaunch.asid, s.me.fmtp)
  else s.me.bank

/-- The state in which the checks of a bundle that holds i alone are made (R88 steps 1 to 3). -/
def State.opening (s : State) (p : Part) (i : Instr) : State := (s.opened [(p, i)]).bindNow [(p, i)]

/-- A thread is to issue a bundle from its start: it is in no prefixed unit, has no request out, and neither moves nor
waits. -/
def State.atBundle (s : State) : Bool :=
  s.me?.isSome && s.ctx.phase == .fresh && s.ctx.unit.isNone && !s.me.pending

/-- The bundle of i alone issues: none of the checks of R93, R88 and of i's entry stops it. -/
def State.issues (s : State) (p : Part) (i : Instr) : Bool := s.atBundle && (s.opening p i).firstStopOf [(p, i)] == none

/-- What a source field reads (R90). -/
def State.value (s : State) (r : Reg) : Word :=
  match r with
  | .g n => s.me.regs.getG n
  | .q k => (s.myCore.portWords k).headD 0
  | .sp x => s.special x

/-- The registers after a destination field is written: only a `g` field writes one, and `g0` keeps nothing (R90). -/
def Regs.write (r : Regs) (d : Reg) (v : Word) : Regs :=
  match d with
  | .g n => r.setG n v
  | _ => r

/-- The words a destination field pushes (R90). -/
def pushed (d : Reg) (v : Word) : List (BitVec 3 × Word) :=
  match d with
  | .q k => [(k, v)]
  | _ => []

/-- The words that i pops, port by port. -/
def State.pops (s : State) (i : Instr) : List (BitVec 3 × Word) :=
  (popsOf [i]).filterMap fun q => (s.myCore.portWords q).head?.map fun w => (q, w)

/-- The machine after i has popped its ports and pushed its words (R60, R88). -/
def State.ported (s : State) (i : Instr) (ps : List (BitVec 3 × Word)) : State :=
  ps.foldl (fun s p => s.pushPort s.ctx.core p.1 p.2) ((s.pops i).foldl (fun s p => s.popPort s.ctx.core p.1) s)

/-- The issuing thread once i has issued alone: it goes on at `target`, and i's destinations carry no error. -/
def Thread.stepped (t : Thread) (i : Instr) (target : Word) : Thread :=
  { t with
    pc := target, lastPc := t.pc, bundle := some { pc := t.pc, instrs := [i], next := t.pc + 8 }, retries := 0,
    badRegs := t.badRegs.filter fun d => !(regDsts i).contains d }

/-- Integer flags of a bundle (R70, R71): they join `FEXC`, and an enabled one makes the float exception trap due. -/
def Thread.flagged (t : Thread) (fl : BitVec 6) (cycle : Nat) : Thread :=
  { t with
    fexc := t.fexc ||| fl, due := t.due ++ if fl &&& t.ftrap = 0 then [] else [.trap (.float fl) t.pc cycle] }

/-- The issuing thread once i has issued and is not complete: it keeps what it needs to give i back (R88), and the count
of its reissues (R325). -/
def State.unfinished (s : State) (t : Thread) (i : Instr) : Thread :=
  { t.stepped i (t.pc + 8) with
    retries := t.retries,
    undo := some { regs := s.me.regs, flags := 0, pops := s.pops i, pushes := [], order := s.clock } }

/-- The issuing thread once i has sent a request: it waits for the answer. -/
def State.sent (s : State) (t : Thread) (i : Instr) (id : Nat) (dsts : List Nat) : Thread :=
  { s.unfinished t i with outst := some (id, dsts), wait := some (.reply id) }

/-- A packet of the issuing thread sets out under the next number to a home, on a class, by the entry of its square's
itinerary table (R113). -/
def State.sends (s : State) (b : Body) (home cls : Nat) : State :=
  (s.inject b).sendTo s.nextId s.myLaunch s.ctx.core home cls

/-- The whole machine after i has issued alone with an effect on its thread and ports only: nothing else differs
from s but the record of the bundle. -/
def State.afterAlone (s : State) (i : Instr) (ps : List (BitVec 3 × Word)) (t : Thread) (c : Ctx) : State :=
  { s.ported i ps with threads := tput s.threads s.ctx.tid t, ctx := c }

/-- The machine after i has issued alone, with no effect but to go on at `a`. -/
def State.wentTo (s : State) (i : Instr) (a : Word) (c : Ctx) : State :=
  s.afterAlone i [] ({ s.me with bank := s.bankSought i }.stepped i a) c

/-- The machine after i has issued alone and written v to d, raising flags fl, and goes on at `a`. -/
def State.wroteTo (s : State) (i : Instr) (d : Reg) (v : Word) (fl : BitVec 6) (a : Word) (c : Ctx) : State :=
  s.afterAlone i (pushed d v)
    (({ s.me with regs := s.me.regs.write d v, bank := s.bankSought i }.flagged fl s.clock).stepped i a) c

/-- The same, going on at the next bundle. -/
def State.wrote (s : State) (i : Instr) (d : Reg) (v : Word) (fl : BitVec 6) (c : Ctx) : State :=
  s.wroteTo i d v fl (s.me.pc + 8) c

/-- The machine after i has issued alone and given predicate p the value b. -/
def State.judged (s : State) (i : Instr) (p : BitVec 3) (b : Bool) (c : Ctx) : State :=
  s.afterAlone i []
    ({ s.me with regs := s.me.regs.setP p b, bank := s.bankSought i }.stepped i (s.me.pc + 8)) c

/-- The half of a bundle that i stands in (R87), by its encoding. -/
def partOf (i : Instr) : Part :=
  match encode i with
  | some (.c _) => .c
  | some (.a _) => .a
  | some (.lone _ _) => .lone
  | none => .none

/-- The machine after a bundle of i has parked on condition c: nothing is read or written (R38, R88). -/
def State.parked (s : State) (i : Instr) (c : Cond) (x : Ctx) : State :=
  { s with
    threads := tput s.threads s.ctx.tid
      { s.me with
        wait := some (.cond c), bank := s.bankSought i,
        bundle := some { pc := s.me.pc, instrs := [i], next := s.me.pc + 8 } }
    ctx := x }

/-- The machine as a bundle of i takes a fault (R93, R323): its thread, nothing else, has noted the bundle. -/
def State.faulted (s : State) (i : Instr) (cause : Nat) (detail : Word) : State :=
  (s.opening (partOf i) i).raise s.ctx.tid
    { cause := cause, half := partOf i, pc := s.me.pc, detail := detail,
      bundle := some { pc := s.me.pc, instrs := [i], next := s.me.pc + 8 } }

/-! ### Operands that let a bundle issue -/

/-- A `g` register is within the allocation, full, and carries no error. -/
def State.goodG (s : State) (n : BitVec 5) : Bool :=
  n.toNat < s.me.gregs && s.me.regs.fullG n.toNat && !s.me.badRegs.contains n.toNat

/-- A port the issuing slot may read holds a word (R58, R60, R61). -/
def State.goodPop (s : State) (k : BitVec 3) : Bool :=
  !s.me.away && (4 ≤ k.toNat || s.myLaunch.wired k.toNat false == some s.ctx.slot) && s.portWord s.ctx.core k

/-- A port the issuing slot may write has room. -/
def State.goodPush (s : State) (k : BitVec 3) : Bool :=
  !s.me.away && (4 ≤ k.toNat || s.myLaunch.wired k.toNat true == some s.ctx.slot) && s.portRoom s.ctx.core k

/-- An operand of a register instruction is ready: its register full, its port filled or with room, its special read. -/
def State.available (s : State) : Opd → Bool
  | .src (.g n) | .gsrc (.g n) | .dst (.g n) | .gdst (.g n) | .gmod (.g n) => s.goodG n
  | .src (.q k) | .port k => s.goodPop k
  | .dst (.q k) => s.goodPush k
  | .src (.sp _) | .pdst _ => true
  | _ => false

/-- The instructions of class register (R111) that act on registers, predicates and the program counter alone, with
the target register of those that go to one. -/
def registerClass : Instr → Option (Option Reg)
  | .nop | .br _ _ _ | .bra _ | .callLabel _ _ | .brq _ _ _ | .li _ _ _ | .fenceOwn => some none
  | .jmp a | .callReg _ a | .ret a | .brt a _ => some (some a)
  | i => if partOf i = .a then some none else none

/-! ### Accesses -/

/-- The home-space key of the byte an address names: in local memory by the address, else by its translation (R51, R309). -/
def State.keyed (s : State) (a : Word) (p : Perm) (k : Nat) : Prop :=
  if isLocal a then k = localKeyOf s.myLaunch s.ctx.core a else s.lookup a p = .hit k

/-- An access of the issuing thread on its way to its home. -/
def State.accessTo (s : State) (kind : AccKind) (a : Word) (k n : Nat) (data : Vec) : Access :=
  { kind := kind, size := n, key := k, data := data, core := s.ctx.core, slot := s.ctx.slot, tid := s.ctx.tid,
    pc := s.me.pc, addr := a, porter := homeOf k < channelBase && homeOf k != s.ctx.core }

/-- The destination a load names: `g` n as n, `v` k as 32 + k. -/
def loadDst : MemReg → Nat
  | .r (.g n) => n.toNat
  | .r _ => 0
  | .v n => 32 + n.toNat

/-- The data a store takes from its register. -/
def State.stored (s : State) : MemReg → Vec
  | .r x => (s.value x).setWidth 256
  | .v n => s.me.regs.getV n

/-- Nothing waits for slot n of compute core c: freed, it goes to the task unit (R276, R277). -/
def State.slotRests (s : State) (c n : Nat) : Bool :=
  c < channelBase && n < 15 && (s.core c).ring.isEmpty && (s.core c).restarts.isEmpty && (s.core c).runq.isEmpty
    && !s.closingOn c && (s.slot c n).reserved.isNone && (s.slot c n).held.isNone

/-- The machine with such a slot freed. -/
def State.restSlot (s : State) (c n : Nat) : State :=
  s.modSlot c n fun y => { y with tid := none, seekAt := 0, victims := [] }

/-- The issuing thread may leave its slot: it stands in it, and nothing waits for it where it is a visited one. -/
def State.mayDepart (s : State) : Bool :=
  s.me.place == .slot s.ctx.core s.ctx.slot && s.ctx.core < channelBase
    && (!s.me.away || s.slotRests s.ctx.core s.ctx.slot)

/-- The machine with the issuing thread gone from its slot to a core, on a route; its home slot stays reserved, a visited
one is free (R57). -/
def State.departing (s : State) (dst : Nat) (route : Word × Word) : State :=
  let u := (s.inject (.migr s.ctx.tid dst s.ctx.core route s.ctx.slot)).sendOn s.nextId s.ctx.core 2 route
  if s.me.away then u.restSlot s.ctx.core s.ctx.slot
  else u.modSlot s.ctx.core s.ctx.slot fun y => { y with tid := none, reserved := some s.ctx.tid }

/-- The route of a migration: the entry of the issuing square that leads to the core, on the message class (R113). -/
def State.routeTo (s : State) (dst : Nat) (route : Word × Word) : Prop :=
  s.hwRoute s.myLaunch (squareOf s.ctx.core) (256 + s.myLaunch.squareIdx dst) 2 false = .ok route

/-- The bundle of i alone is to be issued on another core: none of the checks before its move stops it (R57). -/
def State.movesTo (s : State) (i : Instr) (dst : Nat) : Bool :=
  s.atBundle && (s.opening .c i).firstStopOf [(.c, i)] == some (.migrate dst) && s.mayDepart

/-- The machine after the thread has left for the core where it will issue i. -/
def State.migrated (s : State) (i : Instr) (dst : Nat) (route : Word × Word) (c : Ctx) : State :=
  { s.departing dst route with
    threads := tput s.threads s.ctx.tid
      { s.me with
        place := .flying s.nextId, wait := none, bundle := some { pc := s.me.pc, instrs := [i], next := s.me.pc + 8 } }
    ctx := c }

/-- The answer of packet id sets out from the home of key k; the answer of an access of scope `.host` waits for the reads of
the host that came before (R131). -/
def State.answered (s : State) (id k : Nat) (c : Scope) : State := (s.holdHost id k c).sendBack id (homeOf k)

/-- A step of heap message m may be made: m has arrived, no alert holds a bank of the records it reads, no acceptance is
in progress at their channels (R254, R333), and no uncorrectable record ends it (R193, R329). -/
def State.heapOpen (s : State) (id : Nat) (m : HeapMsg) : Prop :=
  tget s.net id = some (.heap m) ∧ s.carried id ∧ (∀ k ∈ s.heapKeys m, s.bankOpen k) ∧ s.entered m (s.heapKeys m)
    ∧ s.heapStopAt m (s.heapKeys m) = none

/-- The machine as such a step is made: m has left its way, and what the step reads is corrected (R329). -/
def State.heapMet (s : State) (id : Nat) (m : HeapMsg) : State :=
  (s.heapReads (s.heap m.heap).asid (s.heapKeys m)).landedAt id

/-- No protected unit that n bytes from key k touch has an error (R329). -/
def State.sound (s : State) (k n : Nat) : Bool :=
  (errUnits k n).all fun u => !s.bad.contains u && !s.soft.contains u

/-! ### Threads and their levels -/

/-- A fault of thread tid needs no drain and gives nothing back: no entry of its slot's store queue, no request and no
trip of it is under way. -/
def State.unencumbered (s : State) (tid : Nat) (t : Thread) : Bool :=
  t.undo.isNone && t.outst.isNone && (s.sqOf t.slotNow.1 t.slotNow.2).isEmpty
    && (s.net ++ s.waits).all fun p => match p.2 with
      | .amo a => a.tid != tid
      | _ => true

/-- Level n absorbs a fault after `tries` reissues (R325). -/
def Level.absorbs (v : Level) (tries : Nat) : Prop := v.policy = 0 ∨ v.policy = 1 ∧ tries < v.retries ∨ v.policy = 2

/-- The innermost level that absorbs a fault of a thread of the level units. -/
def Launch.firstAbsorbing (l : Launch) (tries n : Nat) (v : Level) : Prop :=
  l.levels[n]? = some v ∧ v.absorbs tries ∧ ∀ m w, m < n → l.levels[m]? = some w → ¬ w.absorbs tries

/-! ### Engine commands -/

/-- Element k of width w of a register (R161). -/
def element (w : Nat) (v : Vec) (k : Nat) : BitVec w := v.extractLsb' (w * k) w

/-- An element read in an integer type. -/
def elemInt (ty : IntTy) (x : BitVec ty.bits) : Int := if ty.signed then x.toInt else (x.toNat : Int)

/-- The range of an integer type, and an exact result clamped to it. -/
def elemLow (ty : IntTy) : Int := if ty.signed then -2 ^ (ty.bits - 1) else 0
def elemHigh (ty : IntTy) : Int := if ty.signed then 2 ^ (ty.bits - 1) - 1 else 2 ^ ty.bits - 1
def elemClamp (ty : IntTy) (e : Int) : Int := max (elemLow ty) (min e (elemHigh ty))

/-- The decode table that i uses (R172). -/
def State.tableFor (s : State) (i : Instr) : BitVec 8192 :=
  match s.bankSought i with
  | some k => (s.myCore.banks.toList.getD k Bank.empty).table
  | none => 0

/-- The machine after i alone has queued a vector command of so many busy cycles, which will fill its destinations
with these values and record these flags; until then they are empty (R157, R158). -/
def State.vecQueued (s : State) (i : Instr) (busy : Nat) (dsts : List (Nat × Vec)) (fl : BitVec 6) (c : Ctx) : State :=
  let kept : List (Nat × Vec) := dsts.filter fun d => d.1 != 0
  (s.modCore s.ctx.core fun x => { x with
    vecQ := x.vecQ ++ [{ tid := s.ctx.tid, pc := s.me.pc, order := s.clock, issued := s.clock, busy := busy, flags := fl,
                         dsts := kept, unit := none }] }).afterAlone i []
    ({ s.me with
      regs := kept.foldl (fun (r : Regs) (d : Nat × Vec) => r.emptyDst d.1) s.me.regs, bank := s.bankSought i }.stepped i (s.me.pc + 8)) c

/-- The machine after i alone has been accepted by the matrix engine, which holds its thread (R156, R181). -/
def State.matQueued (s : State) (i : Instr) (op : MatOp) (regs : Regs) (c : Ctx) : State :=
  let num := s.myCore.matNum
  (({ s with nextId := s.nextId + 1 } : State).modCore s.ctx.core fun x => ({ x with
    matQ := x.matQ ++ [{ num := num, tid := s.ctx.tid, pc := s.me.pc, order := s.clock, op := op,
                         bank := (s.bankSought i).getD 0, start := none, last := none, phase := .queued, flags := 0 }]
    matNum := num + 1, mrotCount := x.mrotCount + if op.isRot then 1 else 0 } : Core).reschedule).afterAlone i []
    { s.sent { s.me with regs := regs, bank := s.bankSought i } i s.nextId [] with wait := some (.matrix num) } c

/-! ### The service cores -/

/-- The service cores run, and a command names one of them (R4, R319, R320). -/
def State.hears (s : State) (c : Cmd) : Prop := s.halted = false ∧ s.unpowered = false ∧ c.sc < 4

/-- Host memory outside n bytes at `at_` is as it was. -/
def State.hostKept (s u : State) (at_ n : Nat) : Prop := ∀ a, (a < at_ ∨ at_ + n ≤ a) → u.hostByte a = s.hostByte a

/-- Nobody waits at the home of key k, for a word or for room. -/
def State.unwatched (s : State) (k : Nat) : Prop := s.waits = [] ∧ ∀ p ∈ s.roomAsk, p.1 ≠ homeOf k

/-! ### The form of the state -/

/-- Memory and the marks of empty words are in their canonical form. -/
def State.formed (s : State) : Prop := memWf s.mem ∧ risingNat s.empt

/-! ### Exact numbers and their rounding (R63, R65) -/

def FVal.isFin : FVal → Bool
  | .fin _ _ _ => true
  | _ => false

/-- The magnitude of a finite value, and the value. -/
def FVal.mag : FVal → Rat
  | .fin _ m e => m * 2 ^ e
  | _ => 0

def FVal.rat (x : FVal) : Rat := if x.neg then -x.mag else x.mag

/-- The distance of two numbers. -/
def apart (x y : Rat) : Rat := if x < y then y - x else x - y

/-- `RoundInt` of a magnitude x ≥ 0, which is known by what is at most x and what is below it (R65). -/
def integerOf (mode : Rm) (neg : Bool) (le lt : Rat → Prop) (k : Nat) : Prop :=
  ∃ n : Nat, le n ∧ ¬ le (n + 1) ∧
    let up : Prop := match mode with
      | .rn => lt (n + 1 / 2) ∨ le (n + 1 / 2) ∧ n % 2 = 1
      | .rz => False
      | .rd => neg = true ∧ lt n
      | .ru => neg = false ∧ lt n
    (up → k = n + 1) ∧ (¬ up → k = n)

/-- r holds the encoding of `Round` of a number that is not zero, and its flags; the number is known by its sign, and by what
is at most, and below, its magnitude (R65). -/
def Fmt.rounds (f : Fmt) (mode : Rm) (neg : Bool) (le lt : Rat → Prop) (r : Nat × BitVec 6) : Prop :=
  ∃ (e : Int) (k : Nat), f.emin ≤ e ∧ (e = f.emin ∨ le (2 ^ e)) ∧ ¬ le (2 ^ (e + 1)) ∧
    let q : Rat := 2 ^ (e - f.fb)
    let y : Rat := k * q
    let inexact : Prop := ¬ (le y ∧ ¬ lt y)
    let greatest : Rat := (f.decode (f.maxFinite false)).mag
    integerOf mode neg (fun t => le (t * q)) (fun t => lt (t * q)) k
    ∧ (greatest < y → r = (f.overflow mode neg, 5))
    ∧ (y ≤ greatest → (∃ m e', f.decode r.1 = .fin neg m e' ∧ m * 2 ^ e' = y) ∧ r.1 < 2 ^ f.width
      ∧ ∃ i u : Bool, (i = true ↔ inexact) ∧ (u = true ↔ inexact ∧ y < 2 ^ f.emin)
        ∧ r.2 = (if i then 1 else 0) ||| if u then 2 else 0)

/-- The same of a magnitude. -/
def Fmt.roundsTo (f : Fmt) (mode : Rm) (neg : Bool) (x : Rat) (r : Nat × BitVec 6) : Prop :=
  f.rounds mode neg (fun t => t ≤ x) (fun t => t < x) r

/-- r is an exact result rounded once; one that is zero has the given sign. -/
def Fmt.yields (f : Fmt) (mode : Rm) (x : Rat) (zneg : Bool) (r : Nat × BitVec 6) : Prop :=
  (x = 0 → r = (f.zero zneg, 0)) ∧ (0 < x → f.roundsTo mode false x r) ∧ (x < 0 → f.roundsTo mode true (-x) r)

/-! ### Integers as the spec reads them (R64, R119) -/

/-- An operand read in a type: its low 32 bits or all 64, unsigned or signed. -/
def typed (uns w32 : Bool) (x : Word) : Int :=
  if w32 then (if uns then ((x.setWidth 32).toNat : Int) else (x.setWidth 32).toInt)
  else if uns then (x.toNat : Int) else x.toInt

/-- An integer brought to the width of a type, modulo 2^w, and extended to 64 bits by its sign. -/
def ofTyped (uns w32 : Bool) (e : Int) : Word :=
  if w32 then (if uns then (BitVec.ofInt 32 e).setWidth 64 else (BitVec.ofInt 32 e).signExtend 64)
  else BitVec.ofInt 64 e

/-- The range of a type. -/
def typeLow (uns w32 : Bool) : Int := if uns then 0 else if w32 then -2 ^ 31 else -2 ^ 63
def typeHigh (uns w32 : Bool) : Int :=
  match uns, w32 with
  | true, true => 2 ^ 32 - 1
  | true, false => 2 ^ 64 - 1
  | false, true => 2 ^ 31 - 1
  | false, false => 2 ^ 63 - 1

/-- An exact result clamped to the range of a type. -/
def clamped (uns w32 : Bool) (e : Int) : Int := max (typeLow uns w32) (min e (typeHigh uns w32))

/-- Bit j of a field of length n at position p. -/
def fieldBit (x : Word) (p n j : Nat) : Bool := j < n && x.getLsbD (p + j)

end Sys2Proof.Machine
end

