-- ==== Sys2Proof/Certificates/Slice0/Obligations.lean ====
section
/-!
DEFINITION. The statements about the Tremir. Each formalises the rules named in its docstring; the terms they are
written in stand in Safety.lean. A statement that the machine goes on says in which state, whole.
-/

open Sys2Proof Sys2Proof.Machine

/-! ### Encodings, steps and the form of the state -/

/-- Every well-formed instruction is read back from the bundle that holds its code, every operand at every value its
fields allow (R87, R94 to R96). What the maps do not list is refused, and never read as another instruction: a
reserved cell, an A-slot word with bit 31 set, a register field above 47 (R98 to R101). -/
def Obligations.EncodedBundlesDecodeAndReservedWordsDoNot : Prop :=
  (∀ i w0 w1, wellFormed i → encode i = some (.lone w0 w1) → decodeBundle (w1 ++ w0) = .ok (.lone i))
  ∧ (∀ c a wc wa, wellFormed c → wellFormed a → encode c = some (.c wc) →
      (encode a = some (.a wa) ∨ a = .nop ∧ wa = 0) → decodeBundle (wa ++ wc) = .ok (.short c a))
  ∧ ∀ w0 w1 : Half32,
    let op0 := (w0.extractLsb' 25 6).toNat
    let op1 := (w1.extractLsb' 25 6).toNat
    (w0.getLsbD 31 = false → op0 ∈ [6, 7, 23, 30, 31, 37, 38, 39] ∨ 40 ≤ op0 →
      decodeBundle (w1 ++ w0) = .error (.opcode, .c))
    ∧ (∀ c, decodeBundle ((0 : Half32) ++ w0) = .ok (.short c .nop) →
      (w1.getLsbD 31 → decodeBundle (w1 ++ w0) = .error (.field, .a))
      ∧ (w1.getLsbD 31 = false → op1 = 6 ∨ op1 = 7 ∨ 20 ≤ op1 → decodeBundle (w1 ++ w0) = .error (.opcode, .a)))
    ∧ (w0.getLsbD 31 → op0 ∈ [7, 17, 18, 19, 20, 21, 22, 23, 29, 30, 31, 36, 37, 38, 39, 47] ∨ 48 ≤ op0 →
      decodeBundle (w1 ++ w0) = .error (.opcode, .lone))
    ∧ ∀ x : BitVec 6, 48 ≤ x.toNat → regField x = .error .register

/-- The bundles that the spec writes out decode to the instructions it writes beside them (R101, R124, R130, R136,
R160, R173, R176, R180, R187, R190, R192). -/
def Obligations.BundlesWrittenInTheSpecDecode : Prop :=
  ∀ p ∈ ([
      (0x103000021640A000, .short (.ld .d (.r (.g 8)) (.g 5) .plain 0) (.mov (.g 6) (.g 0) 2)),
      (0x000000001650B001, .short (.ld .d (.r (.g 10)) (.g 5) .takeEmpty 1) .nop),
      (0x000000002650B7FF, .short (.st .d (.r (.g 10)) (.g 5) .setFull 0x7FF) .nop),
      (0x0000000003200006, .short (.br true 1 6) .nop),
      (0x0000000080000000, .lone .once),
      (0x0000020082C00000, .lone (.li (.g 24) .sign 0x200)),
      (0x0608E3202238A008, .short (.st .h (.r (.g 7)) (.g 5) .plain 8) (.cmp 1 (.g 7) (.g 6) .lt .i64)),
      (0x000000001C70A386, .short (.amo (.g 14) (.g 5) (.g 7) .add .device 2) .nop),
      (0x00000000865160B5, .lone (.send (.g 10) (.g 11) (.g 1) 3 5)),
      (0x0000010AD0088280, .lone (.vaddF .f32 .rz 1 4 5)),
      (0x000A80ABD4180382, .lone (.venc true 3 0 7 1 2)),
      (0x00000007B0108280, .lone (.mma 2 (.g 4) (.g 5) .f16 false 7)),
      (0x00000009C0008000, .lone (.cpy 9 4)),
      (0x000000058A880000, .lone (.tnum (.g 17) 5)),
      (0x0000000E84D80002, .lone (.sysr (.g 27) .clock)),
      (0x000000029420A300, .lone (.emrg (.g 4) (.g 5) (.g 6) 2))] : List (Word × Bundle)),
    decodeBundle p.1 = .ok p.2

/-- In its turn a core issues the bundle of the first eligible slot after the last that issued; where no slot is
eligible it issues nothing (R37). The bundle is fetched at the program counter and decoded (R87, R107); a lone
instruction, or a half beside a `nop`, is `exec` of it; two halves issue together; a reserved encoding is an illegal
bundle (R88, R101). `settle` moves the slot's fetch buffer on, which a taken transfer empties (R108). A core has one turn in a
cycle, and every core has had it before anything else happens in the cycle, whatever is planned (R37, R237, R274). The turns
and what comes between them, and the order in which a plan's choices are met, are the model's choice (notes/assumptions/2); so
is it that a fetch that misses uses the turn up and that local code is not buffered (notes/assumptions/11). -/
def Obligations.AStepRunsTheFirstEligibleBundle : Prop :=
  (∀ (s : State) (c : Nat) (rest : List Nat),
    s.plan = [] → s.halted = false → s.unpowered = false → s.turn = c :: rest →
    let s0 : State := { s with turn := rest }
    let slot (k : Nat) : Nat := ((s.core c).last + 1 + k) % 16
    ((∀ k < 16, s0.eligible c (slot k) = false) → step s = .next s0)
    ∧ ∀ k < 16, s0.eligible c (slot k) → (∀ j < k, s0.eligible c (slot j) = false) →
      ∀ tid, (s.slot c (slot k)).tid = some tid →
      let t := s0.takeTurn c (slot k) tid
      let x := t.fetch t.me.pc false
      (x.2 = none → step s = settle (.next x.1))
      ∧ (∀ w, x.2 = some w →
        (∀ r h, decodeBundle w = .error (r, h) → step s = settle (exec (.illegalBundle r h) x.1))
        ∧ (∀ i, i ≠ .once → (decodeBundle w = .ok (.lone i) ∨ decodeBundle w = .ok (.short i .nop)
              ∨ decodeBundle w = .ok (.short .nop i)) → step s = settle (exec i x.1))
        ∧ (∀ i a, i ≠ .nop → a ≠ .nop → decodeBundle w = .ok (.short i a) → step s = settle
            (.next (x.1.issueAll [(.c, i), (.a, a)] fun u => run i (run a u))))
        ∧ (decodeBundle w = .ok (.lone .once) → step s = settle x.1.issueUnit))
      ∧ (let pc := t.me.pc
         let off := (pc.extractLsb' 0 16).toNat
         pc.getLsbD 63 → pc.extractLsb' 29 34 = 0 → pc.extractLsb' 16 13 = 0x1FFF → t.myLaunch.lmLo ≤ off →
         off + 8 ≤ t.myLaunch.lmHi → t.sound (localKey c off) 8 →
           x = (t.setBuffer [], some (t.loadWord (localKey c off)))))
  ∧ ∀ (s : State) (x : Choice) (more : List Choice), s.plan = x :: more → s.halted = false → s.unpowered = false →
    let t : State := { s with plan := more }
    (∀ c, x = .issue c → c ∉ s.turn → step s = .next t)
    ∧ (∀ c, x = .issue c → c ∈ s.turn → step s = ({ t with turn := s.turn.erase c } : State).issueTurn c)
    ∧ (∀ k rest, s.turn = k :: rest → (x = .cycle ∨ ∃ i, x = .event i) →
        step s = ({ s with turn := rest } : State).issueTurn k)
    ∧ (x = .cycle → s.turn = [] → step s = .next t.cycleEnd)

/-- Every step keeps the form of the state: memory lists rising addresses and no byte that an unlisted address reads
as, and the words marked empty stand in rising order; so equal memories are equal data. The form is the model's own
choice (notes/assumptions/1), not a rule of the spec. -/
def Obligations.EveryStepKeepsTheFormOfMemory : Prop :=
  ∀ s t : State, s.formed → step s = .next t → t.formed

/-- The machine after reset: no launch, no thread; every byte of HBM and of local memory reads zero and every word
is full (R336), but for the street map, which shows dies 0 to 3 present and 24 turn masks 0xDE33 (R289, R291, R341);
`CLOCK` is 0 (R153); all dies are present with turn mask 0xDE33 (R291); no link is down; a
scrubber's period is 86,400 seconds (R330); no error, no alert, no count stands; and the state has the form that
steps keep. That no link is down, no patch installed and nothing counted at reset, and the form, are the model's
choices (notes/assumptions/1 and 3). -/
def Obligations.ResetLeavesZeroFullMemoryAndNoLaunch : Prop :=
  State.reset.formed
  ∧ (let map := State.reset.smapAddr
     ∀ k, State.reset.isFull k ∧ readByte State.reset.mem k =
       if k = map then 0x0F else if map + 0x40 ≤ k ∧ k < map + 0x70 then (if (k - map) % 2 = 0 then 0x33 else 0xDE) else 0)
  ∧ State.reset.clock = 0 ∧ State.reset.threads = [] ∧ State.reset.launches = [] ∧ State.reset.net = []
  ∧ State.reset.streets.present = 0xF ∧ (∀ k, ∀ h : k < 24, State.reset.streets.masks[k] = 0xDE33)
  ∧ State.reset.streets.down = [] ∧ (∀ k, ∀ h : k < 8, State.reset.scrubPeriod[k] = 86400 ∧ State.reset.hot[k] = [])
  ∧ State.reset.bad = [] ∧ State.reset.soft = [] ∧ State.reset.patched = [] ∧ State.reset.alerts = []
  ∧ State.reset.counters = [] ∧ (∀ h, (State.reset.heap h).state = 0) ∧ State.reset.halted = false

/-! ### Instructions on registers -/

/-- `add`, `sub` and `mul` compute exactly in their type, wrap or clamp, extend to 64 bits, and raise `sv` exactly
where they clamp (R119, R120, R64); nothing else changes. `min`, `max`, `mulh`, `div` and `rem` in their type: the
lesser or greater operand, the high half of the exact product, the quotient toward zero and the remainder of its
dividend's sign; a zero divisor gives 0, or the dividend, and raises `dz` (R119, R120). -/
def Obligations.IntegerArithmeticFollowsItsType : Prop :=
  (∀ (s : State) (d a b : Reg) (sat uns w32 : Bool) (i : Instr) (e : Int),
     (i = .add d a b sat uns w32 ∧ e = typed uns w32 (s.value a) + typed uns w32 (s.value b)
       ∨ i = .sub d a b sat uns w32 ∧ e = typed uns w32 (s.value a) - typed uns w32 (s.value b)
       ∨ i = .mul d a b sat uns w32 ∧ e = typed uns w32 (s.value a) * typed uns w32 (s.value b)) →
     s.issues .a i →
     ∃ c, exec i s = .next (s.wrote i d (ofTyped uns w32 (if sat then clamped uns w32 e else e))
       (if sat && clamped uns w32 e != e then 32 else 0) c))
  ∧ (∀ (s : State) (d a b : Reg) (uns w32 : Bool) (i : Instr) (e : Int) (fl : BitVec 6),
       (let x := typed uns w32 (s.value a)
        let y := typed uns w32 (s.value b)
        i = .minR d a b uns w32 ∧ e = min x y ∧ fl = 0
         ∨ i = .maxR d a b uns w32 ∧ e = max x y ∧ fl = 0
         ∨ i = .mulh d a b uns w32 ∧ e = (x * y) / 2 ^ (if w32 then 32 else 64) ∧ fl = 0
         ∨ i = .div d a b uns w32 ∧ y ≠ 0 ∧ e = x.tdiv y ∧ fl = 0
         ∨ i = .div d a b uns w32 ∧ y = 0 ∧ e = 0 ∧ fl = 8
         ∨ i = .rem d a b uns w32 ∧ y ≠ 0 ∧ e = x - y * x.tdiv y ∧ fl = 0
         ∨ i = .rem d a b uns w32 ∧ y = 0 ∧ e = x ∧ fl = 8) →
       s.issues .a i →
       ∃ c, exec i s = .next (s.wrote i d (ofTyped uns w32 e) fl c))

/-- The bitwise operations and shifts on 64-bit values, the count of a shift taken whole (R119). The immediate
majors and `li` (R121, R103, R97): `imm13` sign-extended, wrap, no flag. -/
def Obligations.WordOperationsAndImmediates : Prop :=
  (∀ (s : State) (d a b : Reg) (i : Instr) (v : Word),
     (let x := s.value a
      let y := s.value b
      i = .andR d a b ∧ v = x &&& y ∨ i = .orR d a b ∧ v = x ||| y ∨ i = .xorR d a b ∧ v = x ^^^ y
       ∨ i = .andn d a b ∧ v = x &&& ~~~y ∨ i = .shl d a b ∧ v = x <<< y.toNat ∨ i = .shr d a b ∧ v = x >>> y.toNat
       ∨ i = .sar d a b ∧ v = x.sshiftRight y.toNat) →
     s.issues .a i → ∃ c, exec i s = .next (s.wrote i d v 0 c))
  ∧ (∀ (s : State) (d a : Reg) (m : BitVec 13) (k : BitVec 6) (w : BitVec 48) (i : Instr) (p : Part) (v : Word),
       (let x := s.value a
        let e : Word := m.signExtend 64
        p = .a ∧ (i = .addImm d a m ∧ v = x + e ∨ i = .mov d a m ∧ v = x + e ∨ i = .andImm d a m ∧ v = x &&& e
           ∨ i = .orImm d a m ∧ v = x ||| e ∨ i = .xorImm d a m ∧ v = x ^^^ e ∨ i = .mulImm d a m ∧ v = x * e
           ∨ i = .shlImm d a k ∧ v = x <<< k.toNat ∨ i = .shrImm d a k ∧ v = x >>> k.toNat
           ∨ i = .sarImm d a k ∧ v = x.sshiftRight k.toNat)
         ∨ p = .lone ∧ (i = .li d .sign w ∧ v = w.signExtend 64 ∨ i = .li d .zero w ∧ v = w.setWidth 64
           ∨ i = .li d .localSpace w ∧ v = 0x8000000000000000 ||| w.setWidth 64)) →
       s.issues p i → ∃ c, exec i s = .next (s.wrote i d v 0 c))

/-- The bit-field instructions, bit by bit: with L the length clipped at bit 63, `ext` moves bits pos to pos + L - 1
down and extends them, `ins` puts the low L bits of a there and keeps the rest of d, which it reads and which must
name `g0` to `g31`; `clz`, `ctz` and `popc` count. They are of class register, and stand in A-slot major 0x05, the
operation in `fn` bits 6:4; what is reserved there is refused, and so is a `clz`, `ctz` or `popc` with `b` not 0
(R124). -/
def Obligations.BitFieldsMoveAndCountBits : Prop :=
  (∀ (s : State) (d a b : Reg) (i : Instr) (v : Word),
     (let x := s.value a
      let old := s.value d
      let pos := (s.value b).toNat % 64
      let L := min ((s.value b).toNat / 256 % 128) (64 - pos)
      i = .extN64 d a b ∧ (∀ j < 64, v.getLsbD j = fieldBit x pos L j)
       ∨ i = .extI64 d a b ∧ (∀ j < 64, v.getLsbD j = fieldBit x pos L (min j (L - 1)))
       ∨ i = .ins d a b ∧ (∀ j < 64, v.getLsbD j = if pos ≤ j ∧ j < pos + L then x.getLsbD (j - pos) else old.getLsbD j)
       ∨ i = .clz d a ∧ v.toNat ≤ 64 ∧ (∀ j < 64, 64 - v.toNat ≤ j → x.getLsbD j = false)
         ∧ (v.toNat < 64 → x.getLsbD (63 - v.toNat) = true)
       ∨ i = .ctz d a ∧ v.toNat ≤ 64 ∧ (∀ j < v.toNat, x.getLsbD j = false)
         ∧ (v.toNat < 64 → x.getLsbD v.toNat = true)
       ∨ i = .popc d a ∧ v.toNat = ((List.range 64).filter fun j => x.getLsbD j).length) →
     s.issues .a i → ∃ c, exec i s = .next (s.wrote i d v 0 c))
  ∧ (∀ (s : State) (d a b : Reg), s.atBundle → (∀ n, d ≠ .g n) →
       exec (.ins d a b) s = .next (s.faulted (.ins d a b) 0x11 0))
  ∧ ∀ (xd xa xb : BitVec 6) (d a b : Reg) (fn : BitVec 7),
      regField xd = .ok d → regField xa = .ok a → regField xb = .ok b →
      let bundle (fn : BitVec 7) (xb : BitVec 6) : Word := (0#1 ++ 5#6 ++ xd ++ xa ++ xb ++ fn) ++ 0#32
      (∀ p ∈ [(0x00#7, xb, Instr.extN64 d a b), (0x10#7, xb, .extI64 d a b), (0x20#7, xb, .ins d a b),
          (0x30#7, 0, .clz d a), (0x40#7, 0, .ctz d a), (0x50#7, 0, .popc d a)],
        decodeBundle (bundle p.1 p.2.1) = .ok (.short .nop p.2.2) ∧ registerClass p.2.2 = some none)
      ∧ operands (.ins d a b) = [.gmod d, .src a, .src b]
      ∧ ((∃ k < 4, fn.getLsbD k) ∨ 0x60 ≤ fn.toNat ∨ 0x30 ≤ fn.toNat ∧ xb ≠ 0 →
          ∃ r, decodeBundle (bundle fn xb) = .error (r, .a))

/-- `cmp` gives a predicate the relation in its type, the immediate read in it after sign extension; `sel` takes its
first source where the predicate differs from `s` (R122, R123). A write of `p0` is discarded (R91). -/
def Obligations.CompareWritesPredicateAndSelectReadsIt : Prop :=
  ∀ (s : State) (d a b : Reg) (m : BitVec 13) (p : BitVec 3) (inv uns w32 r : Bool) (cc : Sys2Proof.Cond) (ty : CmpTy),
    (uns, w32, ty) ∈ [(false, false, .i64), (true, false, .n64), (false, true, .i32), (true, true, .n32)] →
    (let rel (x y : Int) : Prop :=
      cc = .eq ∧ (r = true ↔ x = y) ∨ cc = .ne ∧ (r = true ↔ x ≠ y) ∨ cc = .lt ∧ (r = true ↔ x < y)
        ∨ cc = .le ∧ (r = true ↔ x ≤ y) ∨ cc = .gt ∧ (r = true ↔ x > y) ∨ cc = .ge ∧ (r = true ↔ x ≥ y)
     (rel (typed uns w32 (s.value a)) (typed uns w32 (s.value b)) → s.issues .a (.cmp p a b cc ty) →
        ∃ c, exec (.cmp p a b cc ty) s = .next (s.judged (.cmp p a b cc ty) p r c))
      ∧ (rel (typed uns w32 (s.value a)) (typed uns w32 (m.signExtend 64)) → s.issues .a (.cmpImm p a m cc ty) →
        ∃ c, exec (.cmpImm p a m cc ty) s = .next (s.judged (.cmpImm p a m cc ty) p r c)))
    ∧ (s.issues .a (.sel d a b inv p) → ∃ c, exec (.sel d a b inv p) s = .next (s.wrote (.sel d a b inv p) d
        (if s.me.regs.getP p ≠ inv then s.value a else s.value b) 0 c))
    ∧ s.me.regs.setP 0 r = s.me.regs

/-- A bundle of one register instruction issues as soon as its operands are there: each register within the
allocation and full, each port filled or with room, a register target a multiple of 8 (R88, R90, R107). The traps at
issue come in the order of R93, and none of them changes more than the trap does: a field that may not stand there,
then the lowest register beyond the allocation, then what a thread away from home may not do; a bundle that passes
them parks on its first operand that is not ready (R88). A bundle that nothing stops completes, whatever its
instruction (R88); a step of the device, and a command, ends in a next state from every state (R319, R320). -/
def Obligations.AvailableOperandsIssueAndTrapsComeInOrder : Prop :=
  ((∀ (s : State) (i : Instr), isInstruction i → s.issues (partOf i) i → ∃ t, exec i s = .next t)
   ∧ ∀ (s : State) (i : Instr), isEvent i → ∃ t, exec i s = .next t)
  ∧ (∀ (s : State) (p : Part) (i : Instr) (target : Option Reg),
    registerClass i = some target → s.atBundle →
    (∀ o ∈ operands i, s.available o) → (∀ a, target = some a → (s.value a).toNat % 8 = 0) →
    s.issues p i)
  ∧ ∀ (s : State) (i : Instr), isInstruction i → i ≠ .once → s.atBundle →
    let t := s.opening (partOf i) i
    ((∃ o ∈ operands i, t.operandOk o = false) → exec i s = .next (s.faulted i 0x11 0))
    ∧ (∀ n, t.illegalOperand i = none → (operands i).findSome? s.me.unbound = some n →
        exec i s = .next (s.faulted i 0x12 (BitVec.ofNat 64 n)))
    ∧ (t.illegalOperand i = none → (∀ o ∈ operands i, s.me.unbound o = none) → s.me.away →
        (homeOnlyInstr i ∨ ∃ o ∈ operands i, o.homeOnly) → exec i s = .next (s.faulted i 0x13 0))
    ∧ (∀ c, t.issueChecks [(partOf i, i)] = none → t.bindStop i = none →
        (operands i).findSome? t.operandWait = some c → ∃ x, exec i s = .next (s.parked i c x))

/-- A short word of 32 zero bits is `nop`, in either slot: it has no operand, never parks and never traps, changes
no register and goes on; with major 0 and any of bits 24:0 set it is reserved. The bundle of two is all zero, and
takes one issue of its slot (R102). -/
def Obligations.NopIsTheZeroWordAndDoesNothing : Prop :=
  encode .nop = some (.c 0) ∧ decodeBundle 0 = .ok (.short .nop .nop)
  ∧ (∀ c w, wellFormed c → encode c = some (.c w) → decodeBundle (0#32 ++ w) = .ok (.short c .nop))
  ∧ (∀ a w, wellFormed a → encode a = some (.a w) → decodeBundle (w ++ 0#32) = .ok (.short .nop a))
  ∧ (∀ w w' : Half32, w.extractLsb' 25 7 = 0 → w ≠ 0 →
      (∃ r, decodeBundle (w' ++ w) = .error (r, .c)) ∧ ∃ r, decodeBundle (w ++ 0#32) = .error (r, .a))
  ∧ (∀ s : State, s.atBundle → operands .nop = [] ∧ ∃ c, exec .nop s = .next (s.wentTo .nop (s.me.pc + 8) c))
  ∧ ∀ (s : State) (c n tid : Nat), n < 16 → (s.takeTurn c n tid).slot c n = { s.slot c n with issued := s.clock + 1 }

/-! ### Control -/

/-- `nop` and the transfers: where each goes, what each links, and that `brq` pops the word it tests; the link is
the address of the next bundle (R102, R116, R117, R118). -/
def Obligations.TransfersGoToTheirTarget : Prop :=
  ∀ (s : State) (d a b : Reg) (inv : Bool) (p : BitVec 3) (o21 : BitVec 21) (o25 : BitVec 25) (o19 : BitVec 19)
    (i : Instr) (dest : Word),
    (let pc := s.me.pc
     (i = .nop ∧ dest = pc + 8
      ∨ i = .br inv p o21 ∧ dest = (if s.me.regs.getP p ≠ inv then pc + 8 * o21.signExtend 64 else pc + 8)
      ∨ i = .bra o25 ∧ dest = pc + 8 * o25.signExtend 64
      ∨ i = .brq inv p o21 ∧ dest = (if (s.value (.q p) ≠ 0) ≠ (inv = true) then pc + 8 * o21.signExtend 64 else pc + 8)
      ∨ i = .jmp a ∧ dest = s.value a ∨ i = .ret a ∧ dest = s.value a
      ∨ i = .brt a b ∧ dest = s.value a + 8 * (s.value b &&& 15)) →
     s.issues .c i → ∃ c, exec i s = .next (s.wentTo i dest c))
    ∧ (i = .callLabel d o19 ∧ dest = s.me.pc + 8 * o19.signExtend 64 ∨ i = .callReg d a ∧ dest = s.value a →
     s.issues .c i → ∃ c, exec i s = .next (s.wroteTo i d (s.me.pc + 8) 0 dest c))

/-- `fence` goes on when the slot's store queue is empty and no engine command or copy of the thread is under way,
at this core or at its home, `fence.r` when the store queue is empty, `fence.own` at once; the first two park while an
entry is unacknowledged, and then `fence` while a command or copy is under way (R133, R238). `fence.far` sends a drain request to the core it names, 0x1FFF naming the thread's own, and parks
until the answer; an index that is not valid is noted (R134, R52). A drain request notes the entries in flight at
its core when it arrives, and answers its thread when none of them is in flight any more (R134). -/
def Obligations.FencesWaitForWhatTheyOrder : Prop :=
  (∀ (s : State), s.atBundle →
     let engines : Prop := ∃ c, (c = s.ctx.core ∨ c = s.me.homeCore) ∧
       (s.commandsOf c s.ctx.tid = true ∨ s.copiesOf c s.ctx.tid = true)
     (s.sqOf s.ctx.core s.ctx.slot = [] →
       (¬ engines → ∃ c, exec .fence s = .next (s.wentTo .fence (s.me.pc + 8) c))
       ∧ (engines → ∃ x, exec .fence s = .next (s.parked .fence .enginesDone x)))
     ∧ (s.sqOf s.ctx.core s.ctx.slot = [] → ∃ c, exec .fenceR s = .next (s.wentTo .fenceR (s.me.pc + 8) c))
     ∧ (∃ c, exec .fenceOwn s = .next (s.wentTo .fenceOwn (s.me.pc + 8) c))
     ∧ ∀ i ∈ [Instr.fence, .fenceR], s.drained s.ctx.core s.ctx.slot = false →
         ∃ x, exec i s = .next (s.parked i .released x))
  ∧ ((∀ (s : State) (a : Reg), let i := Instr.fenceFar a
        s.issues .c i →
        let w := s.value a
        (∀ c, w = 0x1FFF ∧ c = s.ctx.core ∨ w ≠ 0x1FFF ∧ w.toNat < s.myLaunch.cores ∧ c = s.myLaunch.coreOf w.toNat →
          ∃ x, exec i s = .next ((s.sends (.far c s.ctx.tid none) c 0).afterAlone i [] (s.sent s.me i s.nextId []) x))
        ∧ (w ≠ 0x1FFF → s.myLaunch.cores ≤ w.toNat →
          ∃ x, exec i s = .next (s.afterAlone i []
            ((s.me.note (0x8000000000000000 + (w &&& 0x1FFF) * 65536)).stepped i (s.me.pc + 8)) x)))
     ∧ (∀ (s : State) (id c tid : Nat) (left : Option (List Nat)), tget s.net id = some (.far c tid left) →
          (left = none → s.carried id) →
          let pending := match left with
            | none => (s.sq.filter fun p => p.2.core == c && p.2.state == .inFlight).map Prod.fst
            | some ids => ids.filter fun e => match tget s.sq e with | some x => x.state == .inFlight | none => false
          (pending ≠ [] → exec (.farDrain id) s = .next { s with net := tput s.net id (.far c tid (some pending)) })
          ∧ (pending = [] → exec (.farDrain id) s = .next
              (({ s with net := tput s.net id (.reply tid (some (c, 0)) (.vals [])) } : State).sendBack id c))))

/-- `bar n` arrives at its unit's barrier, which records it, and parks until every other counted thread of the unit has
arrived; the last arrival opens it for all, and nothing is left of it (R135). In a level of scope `.host` it waits for the
reads of the host that were received before, too (R232); that it awaits every such read, whatever words it reads, is the
model's choice (notes/assumptions/17). No thread here owes a word to a port. -/
def Obligations.BarrierOpensWithItsLastArrival : Prop :=
  ∀ (s : State) (n : BitVec 3) (v : Level) (l : Launch) (c k : Nat), s.issues .c (.bar n) →
    tget s.launches s.me.launch = some l → l.suspended = false → l.levels[n.toNat]? = some v → s.me.units = some (c, k) →
    (∀ p ∈ s.threads, ∀ x, p.2.undo = some x → x.pushes = []) →
    let u := unitAt l v c k
    let others := s.threads.filter fun p => p.1 != s.ctx.tid && p.2.launch == s.me.launch && p.2.inUnit l v u
    let bar := l.bars.find? fun b => b.level == n.toNat && b.unit == u
    let here := match bar with
      | some b => b.arrived
      | none => []
    let bound := max (match bar with
      | some b => b.bound
      | none => 0) (if v.scope = 7 then s.nextId else 0)
    let opens : Prop := (∀ p ∈ others, p.1 ∈ here) ∧ s.hostReads bound = false
    ∃ t l' me, exec (.bar n) s = .next t ∧ t = { s with threads := t.threads, launches := t.launches, ctx := t.ctx }
      ∧ tget t.launches s.me.launch = some l' ∧ l' = { l with bars := l'.bars }
      ∧ (∀ j, j ≠ s.me.launch → tget t.launches j = tget s.launches j)
      ∧ tget t.threads s.ctx.tid = some me
      ∧ (opens → me = { s.me.stepped (.bar n) (s.me.pc + 8) with wait := none, undo := none }
          ∧ (∀ b ∈ l'.bars, ¬ (b.level = n.toNat ∧ b.unit = u))
          ∧ ∀ j ∈ here, j ≠ s.ctx.tid → ∀ th, tget s.threads j = some th → th.wait = some (.barrier n.toNat u) →
              tget t.threads j = some th.passed)
      ∧ (¬ opens → me = { s.unfinished s.me (.bar n) with wait := some (.barrier n.toNat u) }
          ∧ ∃ b ∈ l'.bars, b = { level := n.toNat, unit := u, arrived := sadd here s.ctx.tid, bound := bound })
      ∧ ∀ j th, j ≠ s.ctx.tid → tget t.threads j = some th →
          ∃ th0, tget s.threads j = some th0 ∧ (th = th0 ∨ th = th0.passed)

/-- `mig` moves its thread to the core its address names, by the itinerary that leads there: its home slot stays reserved,
a visited slot, here one that nothing waits for, is free; it notes an address that names none and does nothing on its own
core. `home` does nothing at home, and from a visited slot it leaves for the home core (R138, R57, R113, R276). `done` ends its
thread: nothing of it is left among the threads (R138). That `mig` tests the
window for one byte is the model's choice (notes/assumptions/53). The premise, which every step keeps, is that thread numbers
are given out in rising order. -/
def Obligations.MovesLeaveAndDoneEndsTheThread : Prop :=
  (∀ (s : State) (a : Reg),
     (let i := Instr.mig a
      let w := s.value a
      let c := namedCore s.myLaunch s.ctx.core w
      s.issues .c i →
       ((isLocal w = false ∨ s.oor w 1) → ∃ x, exec i s = .next (s.afterAlone i []
         ((s.me.note w).stepped i (s.me.pc + 8)) x))
       ∧ (isLocal w → s.oor w 1 = false → c = s.ctx.core → ∃ x, exec i s = .next (s.wentTo i (s.me.pc + 8) x))
       ∧ (isLocal w → s.oor w 1 = false → c ≠ s.ctx.core → s.mayDepart →
         ∃ r x, s.routeTo c r ∧ exec i s = .next ((s.departing c r).afterAlone i []
           { s.unfinished s.me i with place := .flying s.nextId, wait := none } x)))
     ∧ (s.issues .c .home → s.me.away = false → ∃ x, exec .home s = .next (s.wentTo .home (s.me.pc + 8) x))
     ∧ (s.issues .c .home → s.me.away → s.mayDepart →
         ∃ r x, s.routeTo s.me.homeCore r ∧ exec .home s = .next ((s.departing s.me.homeCore r).afterAlone .home []
           { s.unfinished s.me .home with place := .flying s.nextId, wait := none } x)))
  ∧ (∀ (s : State), s.issues .c .done → s.ctx.tid < s.nextTid →
       ∃ t, exec .done s = .next t ∧ tget t.threads s.ctx.tid = none)

/-! ### Memory -/

/-- `ld` and `rget` empty their destination, send the access to its home and park on the reply; an out-of-range one
notes its address, gives zero and goes on. For a word of a local memory beyond the square `ld` moves its thread to that core,
where it issues; `rget` never does (R126, R52, R57, R95, R138). -/
def Obligations.LoadsEmptyTheirDestinationAndAskTheHome : Prop :=
  ∀ (s : State) (wd : Width) (t : MemReg) (b y d : Reg) (f : LdForm) (o : BitVec 11) (k : Scale) (i : Instr) (a : Word)
    (n dst : Nat),
    (i = .ld wd t b f o ∧ a = s.value b + o.signExtend 64 * BitVec.ofNat 64 n ∧ n = widthBytes wd ∧ dst = loadDst t
      ∨ i = .ldIdx wd t b y f k ∧ a = s.value b + s.value y * BitVec.ofNat 64 (scaleTimes k) ∧ n = widthBytes wd
        ∧ dst = loadDst t
      ∨ i = .rget d b f ∧ a = s.value b ∧ n = 8 ∧ dst = loadDst (.r d)) →
    (s.issues .c i →
     (s.oor a n = false → ∃ key x, s.keyed a .rd key ∧
       exec i s = .next ((s.sends (.access (s.accessTo (.load f) a key n 0)) (homeOf key) 0).afterAlone i []
         (s.sent { s.me with regs := s.me.regs.emptyDst dst } i s.nextId [dst]) x)
       ∧ (isLocal a → i ≠ .rget d b f → squareOf (namedCore s.myLaunch s.ctx.core a) = squareOf s.ctx.core))
     ∧ (s.oor a n → ∃ x, exec i s = .next (s.afterAlone i []
         ({ s.me.note a with regs := s.me.regs.setDst dst 0 }.stepped i (s.me.pc + 8)) x)))
    ∧ ∀ c, s.movesTo i c → isLocal a ∧ c = namedCore s.myLaunch s.ctx.core a ∧ squareOf c ≠ squareOf s.ctx.core
        ∧ i ≠ .rget d b f ∧ ∃ r x, s.routeTo c r ∧ exec i s = .next (s.migrated i c r x)

/-- `st`, `fe.clr`, `rput` and `red` take a store-queue entry, send the access to its home, and the thread goes on;
an out-of-range one notes its address and is dropped. For a word of a local memory beyond the square `st` and `fe.clr` move
their thread to that core, where they issue; `rput` and `red` never do (R126, R52, R57, R128, R132, R138). -/
def Obligations.PostedAccessesTakeAStoreQueueEntry : Prop :=
  ∀ (s : State) (wd : Width) (t : MemReg) (b y : Reg) (f : StForm) (o : BitVec 11) (k : Scale) (op : AmoOp) (sc : Scope)
    (w : BitVec 2) (i : Instr) (kind : AccKind) (a : Word) (n : Nat) (v : Vec),
    (i = .st wd t b f o ∧ a = s.value b + o.signExtend 64 * BitVec.ofNat 64 n ∧ n = widthBytes wd ∧ v = s.stored t
        ∧ kind = .store f
      ∨ i = .stIdx wd t b y f k ∧ a = s.value b + s.value y * BitVec.ofNat 64 (scaleTimes k) ∧ n = widthBytes wd
        ∧ v = s.stored t ∧ kind = .store f
      ∨ i = .feClr b o ∧ a = s.value b + o.signExtend 64 * 8 ∧ n = 8 ∧ v = 0 ∧ kind = .clear
      ∨ i = .rput b y f ∧ a = s.value b ∧ n = 8 ∧ v = (s.value y).setWidth 256 ∧ kind = .store f
      ∨ i = .red b y op sc w ∧ a = s.value b + w.setWidth 64 * 8 ∧ n = 8 ∧ v = (s.value y).setWidth 256
        ∧ kind = .red op sc) →
    let stays : Prop := i = .rput b y f ∨ i = .red b y op sc w
    (s.issues .c i →
     (s.oor a n = false → ∃ key x, s.keyed a .w key ∧
       exec i s = .next (({ s.sends (.access (s.accessTo kind a key n v)) (homeOf key) 0 with
         sq := tput s.sq s.nextId { core := s.ctx.core, slot := s.ctx.slot, tid := s.ctx.tid, home := homeOf key,
                                    key := key, size := n, fills := kind == .store .fillEmpty || kind == .red op sc,
                                    pc := s.me.pc, addr := a, state := .inFlight } } : State).afterAlone i []
           (s.me.stepped i (s.me.pc + 8)) x)
       ∧ (isLocal a → ¬ stays → squareOf (namedCore s.myLaunch s.ctx.core a) = squareOf s.ctx.core))
     ∧ (s.oor a n → ∃ x, exec i s = .next (s.afterAlone i [] ((s.me.note a).stepped i (s.me.pc + 8)) x)))
    ∧ ∀ c, s.movesTo i c → isLocal a ∧ c = namedCore s.myLaunch s.ctx.core a ∧ squareOf c ≠ squareOf s.ctx.core
        ∧ ¬ stays ∧ ∃ r x, s.routeTo c r ∧ exec i s = .next (s.migrated i c r x)

/-- `amo` empties its destination and leaves for its word: performed on the core itself, carried by a porter message
in the square, else by a trip on the message class, for which a thread away from home leaves its visited slot, here one
that nothing waits for, and what its store queue still holds stays with its home slot; the thread parks on the reply
(R131, R59, R113, R52). -/
def Obligations.AmoLeavesForItsWord : Prop :=
  ∀ (s : State) (n : BitVec 5) (a b : Reg) (op : AmoOp) (sc : Scope) (f : BitVec 2),
    let i := Instr.amo (.g n) a b op sc f
    let addr := s.value a + f.setWidth 64 * 8
    s.issues .c i →
    (s.oor addr 8 → ∃ x, exec i s = .next (s.afterAlone i []
      ({ s.me.note addr with regs := s.me.regs.setDst n.toNat 0 }.stepped i (s.me.pc + 8)) x))
    ∧ (s.oor addr 8 = false → ∃ key x path, s.keyed addr .rw key
      ∧ (let h := homeOf key
         h = s.ctx.core ∧ path = .own
          ∨ h ≠ s.ctx.core ∧ h < channelBase ∧ squareOf h = squareOf s.ctx.core ∧ path = .porter
          ∨ h ≠ s.ctx.core ∧ (channelBase ≤ h ∨ squareOf h ≠ squareOf s.ctx.core) ∧ path = .flying)
      ∧ (let m : Amo := { op := op, scope := sc, key := key, y0 := s.value b,
                          y1 := if op = .cas then s.me.regs.getG (gNum b + 1) else 0, core := s.ctx.core,
                          slot := s.ctx.slot, tid := s.ctx.tid, addr := addr, path := path }
         let t := s.sends (.amo m) (homeOf key) (if path = .flying then 2 else 0)
         let me := { s.me with regs := s.me.regs.emptyDst n.toNat }
         ((path ≠ .flying ∨ s.me.away = false) → exec i s = .next (t.afterAlone i [] (s.sent me i s.nextId [n.toNat]) x))
         ∧ (path = .flying → s.me.away → s.slotRests s.ctx.core s.ctx.slot →
            exec i s = .next (((t.queueHome s.ctx.tid s.me s.ctx.core s.ctx.slot).restSlot s.ctx.core s.ctx.slot).afterAlone i []
              (s.sent { me with place := .flying s.nextId } i s.nextId [n.toNat]) x))))

/-- A home performs a load, a store or `fe.clr` as one step on the data and the full/empty bits of the words it acts
on, where its condition holds: it reads or writes those bytes and no other, sets or clears those bits as its form
says and no other, and answers; where the condition does not hold it waits, or is refused when the table is full.
`homeAccess` does so for the core's own memory and HBM, `porterAccess` for an access message while the porter holds
no thread, `remoteUpdate` for `red`. After a change of the words the home serves its waiting table, oldest first: no access
is left in it that could be performed, and a load that waits for a word gets what is stored there (R127, R128, R132, R39,
R57). -/
def Obligations.HomesPerformAccessesInOneStep : Prop :=
  ∀ (s : State) (id : Nat) (a : Access) (i : Instr), tget s.net id = some (.access a) → s.mayArrive id a →
    (let red := match a.kind with | .red _ _ => true | _ => false
     let porterRests := (s.slot (homeOf a.key) 15).isFree ∧ (s.core (homeOf a.key)).ring = []
       ∧ ∀ r ∈ (s.core (homeOf a.key)).runq, r.slot ≠ 15
     i = .homeAccess id ∧ a.porter = false ∧ red = false
      ∨ i = .porterAccess id ∧ a.porter = true ∧ red = false ∧ porterRests
      ∨ i = .remoteUpdate id ∧ red = true ∧ (a.porter = true → porterRests)) →
    s.sound a.key a.size → ((∃ op sc, a.kind = .red op sc) → a.size = 8) →
    let old := readLE s.mem a.key a.size
    let stays (t : State) : Prop := ∀ k, (k < a.key ∨ a.key + a.size ≤ k) → readByte t.mem k = readByte s.mem k
    (s.accessReady a → s.waits = [] → (∀ p ∈ s.roomAsk, p.1 ≠ homeOf a.key) → ∃ t, exec i s = .next t
      ∧ t = { s.answered id a.key a.kind.scope with mem := t.mem, empt := t.empt, net := t.net } ∧ stays t
      ∧ (∀ k, (∀ w ∈ wordsOf a.key a.size, w / 8 ≠ k / 8) → t.isFull k = s.isFull k)
      ∧ match a.kind with
        | .load f => t.mem = s.mem ∧ (∀ w ∈ wordsOf a.key a.size, t.isFull w = (f != .takeEmpty && s.isFull w))
            ∧ t.net = tput s.net id (.reply a.tid (some (homeOf a.key, a.addr)) (.vals [BitVec.ofNat 256 old]))
        | .store f => (∀ j < a.size, readByte t.mem (a.key + j) = a.data.extractLsb' (8 * j) 8)
            ∧ (∀ w ∈ wordsOf a.key a.size, t.isFull w = (f != .plain || s.isFull w))
            ∧ t.net = tput s.net id (.ack id none)
        | .clear => t.mem = s.mem ∧ t.isFull a.key = false ∧ t.net = tput s.net id (.ack id none)
        | .red op _ => t.empt = s.empt ∧ t.net = tput s.net id (.ack id none)
            ∧ t.loadWord a.key = amoNew op (s.loadWord a.key) (a.data.setWidth 64) 0)
    ∧ (s.accessReady a = false → s.roomAt (homeOf a.key) →
        exec i s = .next { s with net := tdel s.net id, waits := s.waits ++ [(id, .access a)] })
    ∧ (s.accessReady a = false → s.roomAt (homeOf a.key) = false →
        exec i s = .next { s with net := tput s.net id (.refusedAccess a) })
    ∧ (s.accessReady a → ∃ t, exec i s = .next t ∧ ∀ p ∈ t.waits, t.canPerform p.2 = false)
    ∧ (∀ w b f, a.kind = .store f → f ≠ .plain → s.accessReady a → s.waits = [(w, .access b)] → w ≠ id →
        (b.kind = .load .waitFull ∨ b.kind = .load .takeEmpty) → b.key = a.key → b.size = a.size →
        (∀ p ∈ s.roomAsk, p.1 ≠ homeOf a.key) → ∃ t v, exec i s = .next t ∧ t.waits = []
          ∧ tget t.net w = some (.reply b.tid (some (homeOf b.key, b.addr)) (.vals [v]))
          ∧ (∀ j < a.size, j < 32 → v.extractLsb' (8 * j) 8 = a.data.extractLsb' (8 * j) 8)
          ∧ ∀ k ∈ wordsOf a.key a.size, t.isFull k = (b.kind != .load .takeEmpty))

/-- A reply fills the destinations of the thread that waits for it, pushes the words that its bundle still owes its ports (R88),
and lets it go on; a fault in its place is taken
at the instruction; a reply that nobody waits for is discarded (R126, R39, R239). A destination that is full keeps its
value: the bundle is charged with *double fill*, and a hart's value is reported against its core (R237, R238). The reply of
`post` pushes its entry on the lane, leaves a full lane alone with false, and takes *task frame* for a bad entry (R146,
R301); the values of a gang's unit have a statement of their own. An acknowledgement frees its store-queue entry; one with an
error keeps the entry for the bundle that waits for it, and notes whether its thread waits already (R129). The entries stand
for no lane's `kids` increment. That a full lane is answered before a bad entry, and the detail of the hart's report, are
the model's choices (notes/assumptions/45 and 50). -/
def Obligations.RepliesAndAcknowledgementsReachTheirThread : Prop :=
  (∀ (s : State) (id tid : Nat) (back : Option (Nat × Word)) (ans : Answer), tget s.net id = some (.reply tid back ans) →
     s.mayReturn id →
     (∀ t dsts c n, tget s.threads tid = some t → t.outst = some (id, dsts) → t.place = .slot c n →
       let rest : State := { s with net := tdel s.net id }
       let on (t : Thread) : Thread := { t with wait := none, outst := none, undo := none, retries := 0 }
       let owed := match t.undo with
         | some x => x.pushes
         | none => []
       let paid := owed.foldl (fun (u : State) p => u.pushPort t.homeCore p.1 p.2) rest
       (∀ vs, ans = .vals vs → t.unitOf = none → (∀ b, t.bundle = some b → ∀ p a k, Instr.post p a k ∉ b.instrs) →
         dsts.Nodup → (∀ d ∈ dsts, d < 40 ∧ (d = 0 ∨ t.regs.fullDst d = false)) →
         exec (.loadReply id) s = .next { paid with
           threads := tput s.threads tid { t with
             regs := (dsts.zip vs).foldl (fun r p => r.setDst p.1 p.2) t.regs, wait := none, outst := none, undo := none,
             retries := 0 } })
       ∧ (∀ b d v, dsts = [d] → d ≠ 0 → t.regs.fullDst d → ans = .vals [v] → t.bundle = some b → t.unitOf = none →
           owed = [] → (∀ p a k, Instr.post p a k ∉ b.instrs) →
           ((∀ j ∈ b.instrs, hartOf j = none) → exec (.loadReply id) s = .next { rest with
             threads := tput s.threads tid { on t with
               due := t.due ++ [.fault { cause := 0x1F, pc := b.pc, detail := BitVec.ofNat 64 d }] } })
           ∧ ∀ q, b.instrs.findSome? hartOf = some q → let core := (back.map Prod.fst).getD channelBase
             let u := rest.report (dieOf core) { cause := 0x44, qual := q, core := s.coreLabel core,
                                                 detail := BitVec.ofNat 64 d, asid := (s.launchOf t).asid }
             exec (.loadReply id) s = .next { u with threads := tput s.threads tid (on t) })
       ∧ (∀ b p a k v lid l, t.bundle = some b → b.instrs = [.post p a k] → ans = .vals [v] → t.unitOf = none →
           owed = [] → s.launchOn c = some (lid, l) → c < channelBase → s.waits = [] → (∀ p ∈ s.roomAsk, p.1 ≠ c) →
           let y := (s.core c).lane k.toNat
           let word (j : Nat) : Word := v.extractLsb' (64 * j) 64
           let bad : Prop := word 0 = 0 ∨ (word 0).toNat % 8 ≠ 0
           let key := localKey c (l.lanesOff + 1024 * k.toNat + 32 * y.near)
           (y.count = 32 → exec (.loadReply id) s = .next { rest with
             threads := tput s.threads tid { on t with regs := t.regs.setP p false } })
           ∧ (y.count ≠ 32 → bad → exec (.loadReply id) s = .next (rest.raise tid
               { cause := 0x21, qual := 3, half := .lone, pc := b.pc, detail := word 0, bundle := t.bundle }))
           ∧ (y.count ≠ 32 → ¬ bad → ∃ u, exec (.loadReply id) s = .next u
               ∧ u = { rest with mem := u.mem, empt := u.empt, threads := u.threads, cores := u.cores }
               ∧ u.mem = writeWords s.mem key [word 0, word 1, word 2, word 3] ∧ u.empt = (s.fillWords key 32).empt
               ∧ (u.core c).lanes = (s.core c).lanes.set k.toNat { y with near := (y.near + 1) % 32, count := y.count + 1 }
                   k.isLt
               ∧ tget u.threads tid = some { on t with regs := t.regs.setP p true }))
       ∧ (∀ cause qual detail, ans = .fault cause qual detail → exec (.loadReply id) s =
           .next (rest.raise tid
             { cause := cause, qual := qual, half := bundleHalf t.bundle, pc := (t.bundle.map BundleInfo.pc).getD 0,
               detail := detail, bundle := t.bundle })))
     ∧ ((∀ t, tget s.threads tid = some t → ∀ dsts, t.outst ≠ some (id, dsts)) →
         exec (.loadReply id) s = .next { s with net := tdel s.net id }))
  ∧ (∀ (s : State) (id e : Nat) (err : Option (Nat × Nat)) (x : SqEntry), tget s.net id = some (.ack e err) →
       s.mayReturn id → tget s.sq e = some x → (∀ y ∈ (s.core x.core).lanes.toList, ∀ p ∈ y.pend, p.2 ≠ e) →
       (err = none → exec (.storeAck id) s = .next { s with net := tdel s.net id, sq := tdel s.sq e })
       ∧ (∀ cause qual t, err = some (cause, qual) → tget s.threads x.tid = some t →
           exec (.storeAck id) s = .next { s with
             net := tdel s.net id
             sq := tput s.sq e { x with state := .failed cause qual (
               t.wait = some (.cond (.acked e)) ∨ t.wait = some (.cond .released) ∨ t.wait = some (.cond (.releasedHome x.home))
                 ∨ t.wait = some .drain) } }))

/-- `amo` at its word: the word is replaced by the operation's result and stays full, the old value goes back, no
other byte changes, and a slot the trip took, here one that nothing waits for, is free; on an empty word it waits. A
trip that arrives at its core takes the lowest free slot, an event of that core, unless trips wait there already (R131, R57,
R59, R223). -/
def Obligations.AmoReplacesTheWordAndReturnsTheOld : Prop :=
  ∀ (s : State) (id : Nat) (a : Amo) (i : Instr), tget s.net id = some (.amo a) → s.bankOpen a.key → s.sound a.key 8 →
    (i = .amoAtHome id ∧ a.path = .own
      ∨ i = .porterAccess id ∧ a.path = .porter ∧ s.carried id ∧ (s.slot (homeOf a.key) 15).isFree
          ∧ (s.core (homeOf a.key)).ring = [] ∧ (∀ r ∈ (s.core (homeOf a.key)).runq, r.slot ≠ 15) →
      (s.isFull a.key → s.waits = [] → (∀ p ∈ s.roomAsk, p.1 ≠ homeOf a.key) →
        exec i s = .next { s.answered id a.key a.scope with
          mem := writeLE s.mem a.key 8 (amoNew a.op (s.loadWord a.key) a.y0 a.y1).toNat
          net := tput s.net id (.reply a.tid (some (homeOf a.key, a.addr)) (.vals [(s.loadWord a.key).setWidth 256])) })
      ∧ (s.isFull a.key = false → s.roomAt (homeOf a.key) →
          exec i s = .next { s with net := tdel s.net id, waits := s.waits ++ [(id, .amo a)] }))
    ∧ (∀ c n, i = .amoAtHome id → a.path = .slot c n → s.isFull a.key → s.waits = [] →
        (∀ p ∈ s.roomAsk, p.1 ≠ homeOf a.key) → c < channelBase → s.slotRests c n →
        exec i s = .next (({ s.answered id a.key a.scope with
          mem := writeLE s.mem a.key 8 (amoNew a.op (s.loadWord a.key) a.y0 a.y1).toNat
          net := tput s.net id (.reply a.tid (some (homeOf a.key, a.addr)) (.vals [(s.loadWord a.key).setWidth 256])) } :
            State).restSlot c n))
    ∧ (∀ n, i = .amoAtHome id → a.path = .flying → s.carried id → (s.core (homeOf a.key)).held = [] →
        (s.core (homeOf a.key)).ringHas 2 = false →
        n < (if channelBase ≤ homeOf a.key then 12 else 15) → (s.slot (homeOf a.key) n).isFree →
        (∀ k < n, (s.slot (homeOf a.key) k).isFree = false) →
        exec i s = .next (({ s.signal (homeOf a.key) with
          net := tput s.net id (.amo { a with path := .slot (homeOf a.key) n }) } : State).modSlot (homeOf a.key) n fun y =>
            y.seat a.tid))
    ∧ ∀ k, (k < a.key ∨ a.key + 8 ≤ k) →
        readByte (writeLE s.mem a.key 8 (amoNew a.op (s.loadWord a.key) a.y0 a.y1).toNat) k = readByte s.mem k

/-! ### System registers, traps and faults -/

/-- `sysr` reads each system register by its map; its reserved bits read as zero (R148 to R155, R218). A store queue
holds at most four entries. That `OWNQ` reads 0 in slot 15 is the model's choice (notes/assumptions/49). -/
def Obligations.SystemRegistersReadByTheirMaps : Prop :=
  ∀ (s : State) (d : Reg) (r : SysReg) (i : Instr) (v : Word),
    (i = .sysr d r ∨ i = .sysrFexc d ∧ r = .fexc) → s.issues .lone i → s.sqUsed s.ctx.core s.ctx.slot ≤ 4 →
    (match r with
      | .status => v.extractLsb' 22 2 = s.myCore.reach ∧ (v.extractLsb' 16 3).toNat = s.sqUsed s.ctx.core s.ctx.slot
          ∧ v.getLsbD 11 = s.me.rflt ∧ v.getLsbD 10 = s.me.nack ∧ v.getLsbD 9 = s.me.task ∧ v.getLsbD 8 = s.me.hand
          ∧ v.getLsbD 7 = s.me.away ∧ v.extractLsb' 24 40 = 0 ∧ v.extractLsb' 19 3 = 0 ∧ v.extractLsb' 12 4 = 0
          ∧ v.extractLsb' 0 7 = 0
      | .tags => v = s.myCore.tags
      | .tagerr => v = s.myCore.tagerr
      | .fmtp => v = s.me.fmtp
      | .sclp => v = s.me.sclp
      | .quant => v = s.me.left ++ s.me.reload
      | .ownq => v = if s.ctx.slot = 15 then 0 else (s.slot s.ctx.core s.ctx.slot).ownq.setWidth 64
      | .lmflt => v = if s.me.lmflt then 1 else 0
      | .lmaddr => v = s.me.lmaddr
      | .fexc => v = s.me.fexc.setWidth 64
      | .ftrap => v = s.me.ftrap.setWidth 64
      | .itin => v = (s.square (squareOf s.ctx.core)).itinBase.setWidth 64
      | .asid => v = s.myLaunch.asid.setWidth 64
      | .level => v = s.me.level
      | .clock => v = BitVec.ofNat 64 s.clock) →
    ∃ c, exec i s = .next (s.wrote i d v 0 c)

/-- `sysw` writes the writable fields of its register and no other: `reach` of the core, the fields of `QUANT`, the
six flags of `FEXC` and `FTRAP`; a bit written 1 clears `rflt`, `nack`, `LMFLT` and `TAGERR`. A register without a
writable field takes *illegal operand* (R148 to R154, R218). `sysw ITIN` takes the base, starts the load of entries
768 to 1023 and parks its writer; the first word is read at once, as zero and noted where it lies outside the window
(R153). -/
def Obligations.SystemWritesReachWritableFieldsOnly : Prop :=
  (∀ (s : State) (a : Reg),
     let w := s.value a
     let done (r : SysReg) (s' : State) (t : Thread) : Prop := s.issues .lone (.sysw r a) →
       ∃ c, exec (.sysw r a) s = .next (s'.afterAlone (.sysw r a) [] (t.stepped (.sysw r a) (s.me.pc + 8)) c)
     done .status (s.modCore s.ctx.core fun c => { c with reach := w.extractLsb' 22 2 })
         { s.me with nack := s.me.nack && !w.getLsbD 10, rflt := s.me.rflt && !w.getLsbD 11 }
       ∧ done .tagerr (s.modCore s.ctx.core fun c => { c with tagerr := c.tagerr &&& ~~~w }) s.me
       ∧ done .quant s { s.me with left := w.extractLsb' 32 32, reload := w.extractLsb' 0 32 }
       ∧ done .lmflt s { s.me with lmflt := s.me.lmflt && !w.getLsbD 0 }
       ∧ done .fexc s { s.me with fexc := w.extractLsb' 0 6 }
       ∧ done .ftrap s { s.me with ftrap := w.extractLsb' 0 6 }
       ∧ ∀ r ∈ [SysReg.tags, .fmtp, .sclp, .ownq, .lmaddr, .asid, .level, .clock], s.atBundle →
           exec (.sysw r a) s = .next (s.faulted (.sysw r a) 0x11 0))
  ∧ (∀ (s : State) (a : Reg) (lid : Nat) (l : Launch), let i := Instr.syswItin a
       s.issues .lone i → s.launchOn s.ctx.core = some (lid, l) →
       let base := (s.value a).extractLsb' 0 16 &&& 0xFFF8#16
       let inside := l.lmLo ≤ base.toNat ∧ base.toNat + 8 ≤ l.lmHi
       let word : Word := if inside then s.loadWord (localKey s.ctx.core base.toNat) else 0
       let me := if inside then s.me else s.me.note (0x800000001FFF0000 + base.setWidth 64)
       ∃ c, exec i s = .next ((s.modSquare (squareOf s.ctx.core) fun q => { q with
           itinBase := base
           itinLoad := q.itinLoad ++ [{ started := false, next := 0, word := word, core := s.ctx.core, base := base.toNat,
                                        tid := s.ctx.tid }]
           }).afterAlone i [] { s.unfinished me i with wait := some (.itin (s.clock + 256)) } c))

/-- A trap: `trap n` makes it due with its resume address the next bundle; at the boundary of a thread at home whose
stores are acknowledged it is delivered, the thread trapped in its slot and an active message with the cause, the
bundle and the resume address on its way to the core itself; a message handler takes the fault *trap in handler*
instead; `tret` lets the trapped thread go on at its resume address (R215, R216, R217, R71). -/
def Obligations.TrapsAreDeliveredAndReturnedFrom : Prop :=
  (∀ (s : State) (n : BitVec 16), s.issues .lone (.trap n) → ∃ c, exec (.trap n) s = .next (s.afterAlone (.trap n) []
      ({ s.me with due := s.me.due ++ [Due.trap (.software n) s.me.pc s.clock] }.stepped (.trap n) (s.me.pc + 8)) c))
  ∧ (∀ (s : State) (tid : Nat) (t : Thread) (k : TrapKind) (pc : Word) (o : Nat) (w : Word),
      tget s.threads tid = some t → t.place = .slot t.homeCore t.homeSlot → t.due = [.trap k pc o] → t.trapped = none →
      s.awake tid t → t.wait ≠ some .drain → (s.sqOf t.homeCore t.homeSlot = []) →
      (match k with
        | .software n => w = (n.setWidth 64 <<< 16) ||| 1
        | .float fl => w = (fl.setWidth 64 <<< 8) ||| 3
        | .quantum => w = 2) →
      let l := s.launchOf t
      (t.hand = false → exec (.trapTake tid) s = .next (({ s with
          threads := tput s.threads tid { t with due := [], trapped := some t.pc, wait := none, retries := 0 } } :
            State).inject (.msg { src := t.homeCore, dst := t.homeCore, route := (0, 0), score := l.coreIdx t.homeCore,
                                  sslot := t.homeSlot, npay := 3, tag := 15, handler := l.entry,
                                  payload := [w, pc, t.pc], launch := t.launch, tid := none })))
      ∧ (t.hand = true → ∃ b h, exec (.trapTake tid) s = .next (({ s with
          threads := tput s.threads tid { t with due := [], wait := none } } : State).contain tid
            { cause := 0x29, half := h, pc := pc, detail := w, bundle := b })))
  ∧ (∀ (s : State) (a : Reg) (tid : Nat) (t : Thread) (resume : Word), s.issues .lone (.tret a) →
      (s.value a).toNat < 16 → (s.slot s.ctx.core (s.value a).toNat).tid = some tid → tid ≠ s.ctx.tid →
      tget s.threads tid = some t → t.away = false → t.trapped = some resume →
      ∃ u, exec (.tret a) s = .next u ∧ u = { s.ported (.tret a) [] with threads := u.threads, ctx := u.ctx }
        ∧ tget u.threads tid = some { t with trapped := none, pc := resume, wait := none }
        ∧ tget u.threads s.ctx.tid = some (s.me.stepped (.tret a) (s.me.pc + 8))
        ∧ ∀ j, j ≠ tid → j ≠ s.ctx.tid → tget u.threads j = tget s.threads j)

/-- An illegal bundle takes the fault of its reason, and a fault goes to the innermost level that absorbs it:
ignored, the bundle's registers and predicates become zero and full and the thread goes on behind it; retried, it
issues again; under kill self the level's unit ends; with none, the launch ends. Each makes one report, to its core's die
(R93, R323 to R325). -/
def Obligations.FaultsGoToTheInnermostAbsorbingLevel : Prop :=
  ∀ (s : State) (r : Illegal) (h : Part) (t : Thread), s.me? = some t → t.units.isSome →
    s.unencumbered s.ctx.tid t → s.ctx.unit = none →
    let is := s.ctx.instrs
    let s1 := (s.opened (partsOf is)).leaveWaits s.ctx.tid
    let b : BundleInfo := { pc := t.pc, instrs := is, next := t.pc + 8 }
    let me : Thread := { t with bundle := some b, wait := none }
    let l := s1.launchOf me
    let code := match r with
      | .opcode => 1 | .function => 2 | .field => 3 | .register => 4 | .doubleWrite => 5 | .prefixMisuse => 6
    let f : Flt := { cause := 0x10, qual := code, half := h, pc := t.pc, bundle := some b }
    let report (o n : Nat) : State := s1.report (dieOf t.coreNow) (faultReport l me f o n)
    (∀ (n : Nat) (v : Level), l.firstAbsorbing t.retries n v →
      (v.policy = 0 → (t.gang = false ∨ .once ∉ is) →
        exec (.illegalBundle r h) s = .next ((report 0 n).modThread s.ctx.tid fun _ => { me with
          pc := b.next, retries := 0
          regs := (is.flatMap predDsts).foldl (fun r p => r.setP (BitVec.ofNat 3 p) false)
            ((is.flatMap regDsts).foldl (fun r d => r.setDst d 0) t.regs)
          badRegs := t.badRegs.filter fun d => !(is.flatMap regDsts).contains d }))
      ∧ (v.policy = 1 →
        exec (.illegalBundle r h) s = .next ((report 1 n).modThread s.ctx.tid fun _ => { me with retries := t.retries + 1 }))
      ∧ (v.policy = 2 → exec (.illegalBundle r h) s = .next
        (((report 2 n).killThread s.ctx.tid).endUnit t.launch l v (faultUnit l me v))))
    ∧ ((∀ (n : Nat) (v : Level), l.levels[n]? = some v → ¬ v.absorbs t.retries) →
        exec (.illegalBundle r h) s = .next ((report 3 (l.levels.length - 1)).endLaunch t.launch 1))

/-- `spill` writes the trapped thread's save area, here one in local memory, word by word as R219 maps it, changes
no other byte, holds the slot for the issuing thread, and keeps the thread, which has not ended, with its level units; here no
`once` unit waits for a value of it (R219, R220, R297, R299). That the thread leaves its gang, is known by the place of its
save area, and comes back no more once another is spilled there, is the model's reading (notes/assumptions/25). -/
def Obligations.SpillWritesTheSaveArea : Prop :=
  (∀ (s : State) (a b : Reg) (tid old : Nat) (t : Thread), s.issues .lone (.spill a b) →
    s.trappedIn (s.value a) = some tid → tid ≠ s.ctx.tid → tget s.threads tid = some t → t.place = .slot t.homeCore t.homeSlot →
    s.spilledAt t.launch (s.keyOf (s.value b) .w) = some old → (∀ o, tget s.threads old = some o → o.units = none) →
    old < s.nextTid → ∃ u, exec (.spill a b) s = .next u ∧ tget u.threads old = none)
  ∧ ∀ (s : State) (a b : Reg) (tid : Nat) (t : Thread) (resume : Word), s.issues .lone (.spill a b) →
    (s.value a).toNat < 16 → (s.slot s.ctx.core (s.value a).toNat).tid = some tid → tid ≠ s.ctx.tid →
    tget s.threads tid = some t → t.place = .slot t.homeCore t.homeSlot → t.homeCore = s.ctx.core →
    t.homeSlot = (s.value a).toNat → t.trapped = some resume →
    (t.gang → ∀ r ∈ s.onceRecs (squareOf t.homeCore) t.homeSlot, r.elect ≠ posInSquare t.homeCore ∨ r.posted) →
    isLocal (s.value b) → s.oor (s.value b) 640 = false → s.myLaunch.lmHi ≤ 65536 →
    s.waits = [] → s.roomAsk = [] →
    let key := localKeyOf s.myLaunch s.ctx.core (s.value b)
    let before := s.spilledAt t.launch key
    (∀ old o, before = some old → tget s.threads old = some o → o.units.isSome) → before ≠ some s.ctx.tid →
    ∃ u, exec (.spill a b) s = .next u
      ∧ u = { s with mem := u.mem, empt := u.empt, bad := u.bad, soft := u.soft, threads := u.threads, cores := u.cores,
                     squares := u.squares, ctx := u.ctx }
      ∧ (∀ q, u.square q = { s.square q with once := (u.square q).once })
      ∧ (∀ k, (k < key ∨ key + 640 ≤ k) → readByte u.mem k = readByte s.mem k)
      ∧ (∀ w < 80, u.isFull (key + 8 * w))
      ∧ (let word (w : Nat) : Word := u.loadWord (key + 8 * w)
         let l := s.launchOf t
         word 0 = resume
          ∧ (∀ j < 64, (word 1).getLsbD j = if j < 32 then decide (j < t.gregs) && t.regs.fullG j
              else decide (j < 40 ∧ j < 32 + t.vregs) && t.regs.fullV (j - 32))
          ∧ word 2 = BitVec.ofNat 64 (t.gregs * 2 ^ 16 + t.vregs * 2 ^ 12 + (t.regs.preds ||| 1).toNat)
          ∧ (∀ j < 64, (word 3).getLsbD j = if j = 8 then t.hand else if j = 9 then t.task else if j = 10 then t.nack
              else if j = 11 then t.rflt else false)
          ∧ (∀ j < 64, (word 12).getLsbD j = if j < 4 then l.wired j true == some t.homeSlot
              else decide (j < 8) && l.wired (j - 4) false == some t.homeSlot)
          ∧ word 4 = t.fmtp ∧ word 5 = t.sclp ∧ word 6 = t.left ++ t.reload
          ∧ word 7 = (if t.lmflt then 1 else 0) ∧ word 8 = t.lmaddr ∧ word 9 = t.fexc.setWidth 64
          ∧ word 10 = t.ftrap.setWidth 64 ∧ word 11 = t.level ∧ word 13 = 0 ∧ word 14 = 0 ∧ word 15 = 0
          ∧ (∀ n : BitVec 5, word (16 + n.toNat) = if n.toNat < t.gregs then t.regs.getG n else 0)
          ∧ ∀ k : BitVec 3, ∀ j < 4, word (48 + 4 * k.toNat + j)
              = if k.toNat < t.vregs then (t.regs.getV k).extractLsb' (64 * j) 64 else 0)
      ∧ tget u.threads tid = some { t with
          gang := false, place := .spilled key, bank := none, trapped := none, due := [], wait := none, bundle := none, retries := 0 }
      ∧ tget u.threads s.ctx.tid = some (s.me.stepped (.spill a b) (s.me.pc + 8))
      ∧ (∀ j, j ≠ tid → j ≠ s.ctx.tid → tget u.threads j =
          if before = some j then (tget s.threads j).map fun o => { o with place := .spilled lostKey } else tget s.threads j)
      ∧ u.slot s.ctx.core t.homeSlot = { s.slot s.ctx.core t.homeSlot with tid := none, held := some s.ctx.tid }

/-- `fill` starts a thread in the slot with what the save area holds, here one in local memory without an error; thread numbers
are given out in rising order (R219, R221). A thread that was spilled there is no more: the new one takes its place (R299); that
it is known by that place is the model's reading (notes/assumptions/25). -/
def Obligations.FillRestoresTheSaveArea : Prop :=
  ∀ (s : State) (a b : Reg), s.issues .lone (.fill a b) → s.ctx.tid < s.nextTid →
    (∀ old, s.spilledAt s.me.launch (s.keyOf (s.value b) .rd) = some old → old < s.nextTid →
      ∃ u, exec (.fill a b) s = .next u ∧ tget u.threads old = none)
    ∧ (isLocal (s.value b) → s.oor (s.value b) 640 = false → s.myLaunch.lmHi ≤ 65536 →
    let key := localKeyOf s.myLaunch s.ctx.core (s.value b)
    let n := (s.value a).toNat
    let word (w : Nat) : Word := s.loadWord (key + 8 * w)
    s.spilledAt s.me.launch key = none → s.sound key 640 →
    ∃ u t, exec (.fill a b) s = .next u
      ∧ u = { s with threads := u.threads, nextTid := s.nextTid + 1, cores := u.cores, ctx := u.ctx }
      ∧ tget u.threads s.nextTid = some t ∧ t.place = .slot s.ctx.core n ∧ t.launch = s.me.launch
      ∧ t.homeCore = s.ctx.core ∧ t.homeSlot = n ∧ t.wait = none ∧ t.trapped = none ∧ t.units = none ∧ t.gang = false
      ∧ t.pc = word 0 ∧ t.gregs = s.myLaunch.gregs ∧ t.vregs = s.myLaunch.vregs
      ∧ t.rflt = (word 3).getLsbD 11 ∧ t.nack = (word 3).getLsbD 10 ∧ t.task = (word 3).getLsbD 9
      ∧ t.hand = (word 3).getLsbD 8 ∧ t.fmtp = word 4 ∧ t.sclp = word 5 ∧ t.left ++ t.reload = word 6
      ∧ t.lmflt = (word 7).getLsbD 0 ∧ t.lmaddr = word 8 ∧ t.fexc = (word 9).setWidth 6 ∧ t.ftrap = (word 10).setWidth 6
      ∧ t.level = word 11
      ∧ (∀ r : BitVec 5, r ≠ 0 → r.toNat < t.gregs → t.regs.getG r = word (16 + r.toNat)
          ∧ t.regs.fullG r.toNat = (word 1).getLsbD r.toNat)
      ∧ (∀ k : BitVec 3, k.toNat < t.vregs → (∀ j < 4, (t.regs.getV k).extractLsb' (64 * j) 64 = word (48 + 4 * k.toNat + j))
          ∧ t.regs.fullV k.toNat = (word 1).getLsbD (32 + k.toNat))
      ∧ (∀ p : BitVec 3, p ≠ 0 → t.regs.getP p = (word 2).getLsbD p.toNat)
      ∧ (u.slot s.ctx.core n).tid = some s.nextTid ∧ (u.slot s.ctx.core n).held = none
      ∧ (u.slot s.ctx.core n).event = false
      ∧ tget u.threads s.ctx.tid = some (s.me.stepped (.fill a b) (s.me.pc + 8))
      ∧ ∀ j, j ≠ s.nextTid → j ≠ s.ctx.tid → tget u.threads j = tget s.threads j)

/-- `tlbinv` drops, in the issuing square or in every square of the district, the translations and cache lines of
the launch's identifier that it covers, and nothing else; walks under way for what it covers start again (R222). That translations of the other page size stay is
the model's reading (notes/assumptions/12). -/
def Obligations.TlbinvDropsWhatItCovers : Prop :=
  ∀ (s : State) (a b : Reg), let i := Instr.tlbinv a b
    s.issues .lone i →
    let w := s.value b
    let va := (s.value a).toNat
    let here (q : Nat) : Prop := if w.getLsbD 0 then q ∈ s.myLaunch.allSquares else q = squareOf s.ctx.core
    let big := w.getLsbD 4
    let every := w.getLsbD 5
    let coversPage (page64 : Nat) : Prop := if big then page64 / 512 = va / 2 ^ 25 else page64 = va / 65536
    ∃ (u : State) (x : Ctx), exec i s = .next (u.afterAlone i [] (s.me.stepped i (s.me.pc + 8)) x)
      ∧ u = { s with squares := u.squares }
      ∧ (∀ q, ¬ here q → u.square q = s.square q)
      ∧ ∀ q, here q → u.square q = { s.square q with
              trans := (u.square q).trans, lines := (u.square q).lines, walkAt := (u.square q).walkAt }
          ∧ (∀ w, w ∈ (u.square q).walkAt ↔ w ∈ (s.square q).walkAt
              ∧ ¬ (w.1.1 = s.myLaunch.asid ∧ (every ∨ coversPage w.1.2)))
          ∧ (∀ t, t ∈ (u.square q).trans ↔ t ∈ (s.square q).trans
              ∧ ¬ (t.asid = s.myLaunch.asid ∧ (every ∨ t.big = big ∧ coversPage t.page)))
          ∧ ∀ l, l ∈ (u.square q).lines ↔ l ∈ (s.square q).lines
              ∧ ¬ (l.asid = s.myLaunch.asid ∧ (every ∨ coversPage (l.addr / 65536)))

/-- `idle` takes a set event bit and goes on; else it parks, for as many cycles as its operand says where it is not
zero, and the time-out lets it go on (R223). The timers: a quantum that has run out makes the quantum trap due at
the last bundle issued, once; an expired deadline makes the deadline fault due for every thread of its unit, once,
offered from the level that owns it (R152, R43, R47, R325). -/
def Obligations.IdleAndTimersMakeThreadsGoOn : Prop :=
  ((∀ (s : State) (a : Reg), let i := Instr.idle a
     s.issues .lone i →
     ((s.slot s.ctx.core s.ctx.slot).event → ∃ x, exec i s = .next
       ((s.modSlot s.ctx.core s.ctx.slot fun y => { y with event := false }).afterAlone i []
         (s.me.stepped i (s.me.pc + 8)) x))
     ∧ ((s.slot s.ctx.core s.ctx.slot).event = false → ∃ x, exec i s = .next (s.afterAlone i []
         { s.unfinished s.me i with
           wait := some (.idle (if s.value a = 0 then none else some (s.clock + (s.value a).toNat))) } x)))
   ∧ ∀ (s : State) (c n tid u : Nat) (t : Thread), (s.slot c n).tid = some tid → tget s.threads tid = some t →
       t.wait = some (.idle (some u)) → t.place = .slot c n →
       (u ≤ s.clock → exec (.idleTimeout c n) s = .next { s with
         threads := tput s.threads tid { t with wait := none, undo := none, retries := 0 } })
       ∧ (s.clock < u → ∃ v, exec (.idleTimeout c n) s = .next { s with threads := v } ∧ ∀ j, tget v j = tget s.threads j))
  ∧ ((∀ (s : State) (c n tid : Nat) (t : Thread),
       (s.threads.find? fun p => p.2.qhit && p.2.homeCore == c && p.2.homeSlot == n) = some (tid, t) →
       tget s.threads tid = some t → (∀ pc o, Due.trap .quantum pc o ∉ t.due) →
       exec (.quantumExpire c n) s = .next { s with
         threads := tput s.threads tid { t with qhit := false, due := t.due ++ [.trap .quantum t.lastPc s.clock] } })
     ∧ ∀ (s : State) (lid level u : Nat) (l : Launch) (v : Level), tget s.launches lid = some l →
         l.levels[level]? = some v →
         (v.deadline ≠ 0 ∧ l.start + 1024 * v.deadline ≤ s.clock ∧ (level, u) ∉ l.fired ∧ l.suspended = false →
           exec (.deadlineExpire lid level u) s = .next { s with
             launches := tput s.launches lid { l with fired := (level, u) :: l.fired }
             threads := s.threads.map fun p => if p.2.launch = lid ∧ p.2.inUnit l v u then
               (p.1, { p.2 with due := p.2.due ++ [.fault { cause := 0x20, detail := BitVec.ofNat 64 level, level := some level }] })
               else p })
         ∧ (v.deadline = 0 ∨ s.clock < l.start + 1024 * v.deadline ∨ (level, u) ∈ l.fired ∨ l.suspended →
           exec (.deadlineExpire lid level u) s = .next s))

/-- A page walk that runs reads one entry after the other, from the root entry through tables of levels 0 to 3, once no alert
holds the entry's bank: an entry that points on makes it read the next table, a leaf that maps 64 KiB or 32 MiB ends it, and the
square's unit holds the page with the leaf's frame and permissions, one entry given up where 512 are held (R305, R306, R307, R310,
R333). An entry that is not valid is a translation fault of the bundle that waits for the walk (R305, R310). A cache line arrives
for the threads that wait for it: where its page translates for execution and both its atoms are sound, the square's cache holds
its 64 bytes, one line given up where 1,024 are held, and those threads fetch again, as they do where it does not (R109, R110).
Which one is given up is open (notes/assumptions/9). -/
def Obligations.PageWalksAndCacheLinesArrive : Prop :=
  (∀ (s : State) (q : Nat) (asid : BitVec 12) (page n table : Nat) (e : Word), (asid, page) ∈ (s.square q).walks.take 64 →
     page < 2 ^ 32 →
     let w := (asid, page)
     let frame : Nat := (e.extractLsb' 12 36).toNat * 4096
     (((s.square q).walkAt.find? fun v => v.1 == w).map Prod.snd).getD (5, s.rootTable.toNat) = (n, table) →
     let k := table + 8 * if n = 5 then asid.toNat else if n = 4 then page / 2 ^ 25 % 128 else if n = 3 then page / 2 ^ 18 % 128
       else if n = 2 then page / 2 ^ 9 % 512 else page % 512
     k < 384 * 2 ^ 30 →
     (s.bankOpen k = false → exec (.pageWalk q asid page) s = .next s)
     ∧ (s.bankOpen k → s.sound k 8 → e = s.loadWord k → e.getLsbD 0 = true → e.extractLsb' 48 16 = 0 → e.extractLsb' 5 7 = 0 →
       frame < 384 * 2 ^ 30 →
       ((n = 5 ∧ e.extractLsb' 1 4 = 0 ∨ 2 ≤ n ∧ n ≤ 4 ∧ e.extractLsb' 1 4 = 0) →
         exec (.pageWalk q asid page) s = .next (s.modSquare q fun y => { y with
           walkAt := (w, (n - 1, frame)) :: y.walkAt.filter fun v => v.1 != w }))
       ∧ (e.getLsbD 1 = true → (n = 1 ∧ e.extractLsb' 12 4 = 0 ∨ n = 2 ∧ e.extractLsb' 12 13 = 0) →
         let t : Trans := { asid := asid, page := if n = 2 then page / 512 * 512 else page, big := n == 2,
                            frame := frame / 65536, x := e.getLsbD 4, w := e.getLsbD 3, rd := e.getLsbD 2 }
         ∃ rest, exec (.pageWalk q asid page) s = .next { s.modSquare q fun y => { y with
             walks := y.walks.filter (fun v => v != w), walkAt := y.walkAt.filter (fun v => v.1 != w)
             trans := t :: rest } with free := s.free + 1 }
           ∧ ((s.square q).trans.length < 512 → rest = (s.square q).trans)
           ∧ (512 ≤ (s.square q).trans.length → ∃ k, rest = (s.square q).trans.eraseIdx k))))
  ∧ (∀ (s : State) (q : Nat) (asid : BitVec 12) (page tid a n table : Nat) (t : Thread),
       (asid, page) ∈ (s.square q).walks.take 64 →
       (((s.square q).walkAt.find? fun v => v.1 == (asid, page)).map Prod.snd).getD (5, s.rootTable.toNat) = (n, table) →
       let k := walkKey asid (page * 65536) n table
       k < 384 * 2 ^ 30 → s.bankOpen k → s.sound k 8 → (s.loadWord k).getLsbD 0 = false →
       (s.threads.map Prod.fst).Nodup → (tid, t) ∈ s.threads → t.wait = some (.cond (.walk a)) → a / 65536 = page →
       squareOf t.coreNow = q → (s.launchOf t).asid = asid → t.floatDue = false →
       (∀ p ∈ s.threads, p.1 ≠ tid → ∀ b, p.2.wait ≠ some (.cond (.walk b)) ∧ p.2.wait ≠ some (.cond (.fetchWalk b))) →
       (∀ p ∈ s.tumblers, ∀ o ∈ p.2.ops, o.walk = none) →
       let s1 := s.modSquare q fun y => { y with
         walks := y.walks.filter (fun v => v != (asid, page)), walkAt := y.walkAt.filter fun v => v.1 != (asid, page) }
       ∃ u, exec (.pageWalk q asid page) s = .next u
         ∧ let v := s1.raise tid { cause := 0x17, qual := 2, half := bundleHalf t.bundle,
                                   pc := (t.bundle.map BundleInfo.pc).getD t.pc, detail := BitVec.ofNat 64 a, bundle := t.bundle }
           u = { v with cores := u.cores })
  ∧ (∀ (s : State) (q : Nat) (asid : BitVec 12) (line : Nat), (s.threads.map Prod.fst).Nodup →
       let waits (t : Thread) : Prop := squareOf t.coreNow = q ∧ (s.launchOf t).asid = asid
         ∧ ∃ a, t.wait = some (.cond (.line a)) ∧ a / 64 = line
       (∃ p ∈ s.threads, waits p.2) →
       let again (u : State) : Prop := (∀ tid t, tget s.threads tid = some t → waits t →
           tget u.threads tid = some { t with wait := none })
         ∧ ∀ tid, (∀ t, tget s.threads tid = some t → ¬ waits t) → tget u.threads tid = tget s.threads tid
       let look := lookIn (s.square q).trans asid (BitVec.ofNat 64 (64 * line)) .x
       (∀ key, look = .hit key → s.bankOpen key → s.bankOpen (key + 32) → s.sound key 32 → s.sound (key + 32) 32 →
         ∃ u rest, exec (.icacheFill q asid line) s = .next u ∧ again u
           ∧ u = { s.modSquare q fun y => { y with
                   lines := { asid := asid, addr := 64 * line, data := BitVec.ofNat 512 (readLE s.mem key 64) } :: rest } with
                 threads := u.threads, free := s.free + 1 }
           ∧ ((s.square q).lines.length < 1024 → rest = (s.square q).lines)
           ∧ (1024 ≤ (s.square q).lines.length → ∃ k, rest = (s.square q).lines.eraseIdx k))
       ∧ (((∀ key, look ≠ .hit key) ∨ ∃ key, look = .hit key ∧ s.bankOpen key ∧ s.bankOpen (key + 32) ∧ (s.isBad key 32 = true ∨ s.isBad (key + 32) 32 = true)) →
         ∃ u, exec (.icacheFill q asid line) s = .next u ∧ again u ∧ u = { s with threads := u.threads }))

/-- The `once` prefix: outside a gang its bundle is governed on its thread; in a gang the first member to come makes
the occurrence's record and elects the lowest live member of the square; the elected member counts the occurrence
and its bundle runs, any other marks its `g` and `v` destinations empty, counts it, and goes on behind the unit
(R104, R224, R225). A member that meets a record takes the values that the record holds, and waits for the others; one that
meets it at another unit takes *once mismatch*, one whose elected member is gone *once orphan* (R224, R225). A post of a unit
fills a destination that its occurrence has emptied; a register that is full keeps its value, and the elected member takes
*double fill* at its next boundary (R224, R237, R238). -/
def Obligations.OnceElectsAndPosts : Prop :=
  (∀ (s : State) (u : Word) (occ : BitVec 32), s.me?.isSome → s.me.pending = false →
     s.ctx.phase = .fresh → s.ctx.unit = some (u, occ) → s.ctx.pc = u →
     let is := s.ctx.instrs
     let s1 := s.opened (partsOf is)
     let q := squareOf s.me.homeCore
     let pos := posInSquare s.me.homeCore
     let n := s.me.homeSlot
     let recs := s.onceRecs q n
     let gang := s1.gangOf s.me.launch q n
     let lowest := gang.foldl (fun m p => min m (posInSquare p.2.homeCore)) pos
     (is.any usesBank) = false → firstStop [doubleWrite (partsOf is), s1.issueChecks ((.lone, .once) :: partsOf is)] = none →
     (s.me.gang = false → firstStop [overHalves (partsOf is) s1.bindStop, overHalves (partsOf is) s1.readiness,
         overHalves (partsOf is) s1.engineRoom, overHalves (partsOf is) s1.badOperand, overHalves (partsOf is) s1.late] = none →
       exec .once s = .next { s1 with ctx := { s1.ctx with phase := .checked, governed := true } })
     ∧ (s.me.gang = true → n < 15 → (recs.find? fun r => r.occ == s.me.occ) = none →
         (recs.filter fun r => r.isOpen gang).length < 16 → lowest ≠ pos → gang.any (fun p => posInSquare p.2.homeCore == lowest) →
         (∀ d ∈ is.flatMap regDsts, s.me.regs.fullDst d) →
         ∃ t r, exec .once s = .next t ∧ t.ctx.governed = s.ctx.governed
           ∧ t = { s with threads := t.threads, squares := t.squares, ctx := t.ctx }
           ∧ tget t.threads s.ctx.tid = some { (s.me.stepped .once (u + 16)) with
               bundle := some { pc := u, instrs := .once :: is, next := u + 16 }, lastPc := u, occ := s.me.occ + 1
               regs := (is.flatMap regDsts).foldl Regs.emptyDst s.me.regs
               awaited := s.me.awaited ++ (is.flatMap regDsts).map fun d => (d, s.me.occ)
               badRegs := s.me.badRegs.filter fun d => !((Instr.once :: is).flatMap regDsts).contains d }
           ∧ r ∈ t.onceRecs q n ∧ r.occ = s.me.occ ∧ r.unit = u ∧ r.elect = lowest ∧ r.reached.getLsbD pos
           ∧ r.dsts = is.flatMap regDsts ∧ ∀ v ∈ r.vals, v = none)
     ∧ (s.me.gang = true → n < 15 → (recs.find? fun r => r.occ == s.me.occ) = none →
         (recs.filter fun r => r.isOpen gang).length < 16 → lowest = pos → gang.any (fun p => posInSquare p.2.homeCore == pos) →
         let s2 := s1.setOnce q n (recs ++ [newOnce s.me u (is.flatMap regDsts) gang])
         firstStop [overHalves (partsOf is) s2.bindStop, overHalves (partsOf is) s2.readiness,
           overHalves (partsOf is) s2.engineRoom, overHalves (partsOf is) s2.badOperand, overHalves (partsOf is) s2.late] = none →
         ∃ t, exec .once s = .next t ∧ t.ctx = { s1.ctx with phase := .checked, governed := true }
           ∧ t = { s with threads := t.threads, squares := t.squares, ctx := t.ctx }
           ∧ tget t.threads s.ctx.tid = some { s1.me with occ := s.me.occ + 1 })
     ∧ (∀ r, s.me.gang = true → n < 15 → (recs.find? fun r => r.occ == s.me.occ) = some r →
         let faults (cause : Nat) (d : Word) : Prop := exec .once s = .next (s1.raise s.ctx.tid
           { cause := cause, half := .lone, pc := u, detail := d, bundle := s1.me.bundle })
         let dsts := is.flatMap regDsts
         let held := dsts.zip r.vals
         (r.unit ≠ u → faults 0x27 r.unit)
         ∧ (r.unit = u → r.posted = false → r.hasElect gang = false → faults 0x28 u)
         ∧ (r.unit = u → (r.posted ∨ r.hasElect gang) → r.elect ≠ pos → r.dsts = dsts →
             (∀ d ∈ dsts, s.me.regs.fullDst d) → ∃ t, exec .once s = .next t ∧ t.ctx.governed = s.ctx.governed
               ∧ t = { s with threads := t.threads, squares := t.squares, ctx := t.ctx }
               ∧ tget t.threads s.ctx.tid = some { (s.me.stepped .once (u + 16)) with
                   bundle := some { pc := u, instrs := .once :: is, next := u + 16 }, lastPc := u, occ := s.me.occ + 1
                   regs := held.foldl (fun g p => match p.2 with | some v => g.setDst p.1 v | none => g)
                     (dsts.foldl Regs.emptyDst s.me.regs)
                   awaited := s.me.awaited ++ (held.filter fun p => p.2.isNone).map fun p => (p.1, s.me.occ)
                   badRegs := s.me.badRegs.filter fun d => !((Instr.once :: is).flatMap regDsts).contains d })))
  ∧ (∀ (s : State) (id q n pos dst tid : Nat) (occ : BitVec 32) (unit : Word) (v : Vec) (t : Thread),
       tget s.net id = some (.post q n pos occ unit dst v) →
       (s.threads.find? fun p => p.2.gang && p.2.homeSlot == n && squareOf p.2.homeCore == q
         && posInSquare p.2.homeCore == pos) = some (tid, t) → tget s.threads tid = some t →
       let taken := t.awaited.filter fun x => x != (dst, occ)
       ((dst, occ) ∉ t.awaited → exec (.oncePost id) s = .next { s with net := tdel s.net id })
       ∧ ((dst, occ) ∈ t.awaited → t.regs.fullDst dst = false → exec (.oncePost id) s = .next { s with
         net := tdel s.net id, threads := tput s.threads tid { t with regs := t.regs.setDst dst v, awaited := taken } })
       ∧ (∀ r wid w, (dst, occ) ∈ t.awaited → wid ≠ tid → t.regs.fullDst dst → ((s.onceRecs q n).find? fun r => r.occ == occ) = some r →
           (s.threads.find? fun p => p.2.gang && p.2.homeSlot == n && squareOf p.2.homeCore == q
             && posInSquare p.2.homeCore == r.elect) = some (wid, w) → tget s.threads wid = some w →
           exec (.oncePost id) s = .next { s with
             net := tdel s.net id
             threads := tput (tput s.threads wid { w with
               due := w.due ++ [.fault { cause := 0x1F, pc := unit, detail := BitVec.ofNat 64 dst }] }) tid
                 { t with awaited := taken } }))

/-! ### Tasks and messages -/

/-- `spawn` pushes the code at its label on the near end of a lane and sends an increment of the frame's `kids` that
the entry waits for; a full lane takes nothing and gives false; an out-of-range frame is noted and its entry waits
for nothing. No access that waits for a word of the entry is left waiting (R39). `steal` sets the core's reach (R142, R147, R52, R301). -/
def Obligations.SpawnPushesTheContinuation : Prop :=
  (∀ (s : State) (p : BitVec 3) (a : Reg) (k : BitVec 2) (o : BitVec 30) (lid : Nat) (l : Launch),
    let i := Instr.spawn p a k o
    s.issues .lone i → s.launchOn s.ctx.core = some (lid, l) → s.me.wait = none →
    let y := s.myCore.lane k.toNat
    let w := s.value a
    let key := localKey s.ctx.core (l.lanesOff + 1024 * k.toNat + 32 * y.near)
    let pushes (sent u : State) (pend : List (Nat × Nat)) (me : Thread) : Prop :=
      exec i s = .next u
        ∧ u = { sent with mem := u.mem, empt := u.empt, threads := u.threads, cores := u.cores, ctx := u.ctx }
        ∧ u.mem = writeWords s.mem key [s.me.pc + 8 * o.signExtend 64, w, s.me.fmtp, s.me.sclp]
        ∧ u.empt = (s.fillWords key 32).empt
        ∧ (u.core s.ctx.core) = { (s.ported i []).core s.ctx.core with
            slots := (u.core s.ctx.core).slots
            lanes := s.myCore.lanes.set k.toNat
              { y with near := (y.near + 1) % 32, count := y.count + 1, pend := y.pend ++ pend } k.isLt }
        ∧ (∀ c, c ≠ s.ctx.core → u.core c = s.core c)
        ∧ tget u.threads s.ctx.tid = some ({ me with regs := s.me.regs.setP p true }.stepped i (s.me.pc + 8))
        ∧ ∀ j t, j ≠ s.ctx.tid → tget s.threads j = some t → ∃ v, tget u.threads j = some v
            ∧ (v = t ∨ v = t.passed ∧ ∃ q, t.wait = some (.idle q))
    let calm : Prop := s.waits = [] ∧ ∀ p ∈ s.roomAsk, p.1 ≠ s.ctx.core
    (y.count ≠ 32 → ∃ u, exec i s = .next u ∧ ∀ p ∈ u.waits, u.canPerform p.2 = false)
    ∧ (y.count = 32 → ∃ x, exec i s = .next (s.judged i p false x))
    ∧ (calm → y.count ≠ 32 → s.oor w 32 = false → ∃ u h, s.keyed w .rw h ∧ pushes
      { s.sends (.access (s.accessTo (.red .add .core) w h 8 1)) (homeOf h) 0 with
        sq := tput s.sq s.nextId { core := s.ctx.core, slot := s.ctx.slot, tid := s.ctx.tid, home := homeOf h, key := h,
                                   size := 8, fills := true, pc := s.me.pc, addr := w, state := .inFlight } }
      u [(y.near, s.nextId)] s.me)
    ∧ (calm → y.count ≠ 32 → s.oor w 32 → ∃ u, pushes s u [] (s.me.note w)))
  ∧ ∀ (s : State) (r : BitVec 2), s.issues .lone (.steal r) → ∃ x, exec (.steal r) s =
      .next ((s.modCore s.ctx.core fun c => { c with reach := r }).wentTo (.steal r) (s.me.pc + 8) x)

/-- `sync` and `sync.end` ask the home of their frame, `post` reads the 32 bytes of its entry, and the thread parks
on the answer; an out-of-range frame is noted and reads as zero, which lets `sync` go on and answers `sync.end` with
underflow (R143, R144, R146, R52). -/
def Obligations.TaskInstructionsAskTheFramesHome : Prop :=
  ∀ (s : State) (p : BitVec 3) (a : Reg) (k : BitVec 2),
    let w := s.value a
    let asks (i : Instr) (u : State) (me : Thread) : Prop :=
      ∃ x, exec i s = .next (u.afterAlone i [] (s.sent me i s.nextId []) x)
    let req (ending : Bool) (key : Nat) : FrameReq :=
      { ending := ending, tid := s.ctx.tid, core := s.ctx.core, slot := s.ctx.slot, key := key, addr := w,
        next := s.me.pc + 8, fmtp := s.me.fmtp, sclp := s.me.sclp, task := s.me.task, launch := s.me.launch }
    (s.issues .lone (.sync a) →
      (s.oor w 32 = false → ∃ key, s.keyed w .rw key ∧ asks (.sync a) (s.sends (.frame (req false key)) (homeOf key) 0) s.me)
      ∧ (s.oor w 32 → ∃ x, exec (.sync a) s = .next (s.afterAlone (.sync a) []
          ((s.me.note w).stepped (.sync a) (s.me.pc + 8)) x)))
    ∧ (s.issues .lone (.syncEnd a) →
      (s.oor w 32 = false → ∃ key, s.keyed w .rw key ∧ asks (.syncEnd a) (s.sends (.frame (req true key)) (homeOf key) 0) s.me)
      ∧ (s.oor w 32 → ∃ key, asks (.syncEnd a) (s.inject (.frameAns (req true key) .underflow)) (s.me.note w)))
    ∧ (s.issues .lone (.post p a k) →
      (s.oor w 32 = false → ∃ key, s.keyed w .rd key ∧
        asks (.post p a k) (s.sends (.access (s.accessTo (.load .plain) w key 32 0)) (homeOf key) 0) s.me)
      ∧ (s.oor w 32 → asks (.post p a k) (s.inject (.reply s.ctx.tid none (.vals [0]))) (s.me.note w)))

/-- The step of a frame at its home: `sync` goes on where no child is left, else it leaves its continuation there
and suspends a launch thread and ends a task, *busy* where another waits; while `kids` is empty it waits, and where it would
suspend its thread and the home has no entry free, it is refused (R143, R145, R280). `sync.end` takes one child off, and the
last one takes the continuation (R144). -/
def Obligations.FramesCountTheirChildren : Prop :=
  ∀ (s : State) (id : Nat) (r : FrameReq), tget s.net id = some (.frame r) → s.bankOpen r.key → s.carried id →
    s.sound r.key 32 →
    let kids := s.loadWord r.key
    let waitpc := s.loadWord (r.key + 8)
    let answers (u : State) (a : FrameAns) : Prop :=
      exec (.taskFrameStep id) s = .next (({ u with net := tput s.net id (.frameAns r a) } : State).sendBack id (homeOf r.key))
    let refused : Prop := exec (.taskFrameStep id) s = .next { s with net := tput s.net id (.refusedFrame r) }
    (s.isFull r.key = false → r.ending = false →
      (s.roomAt (homeOf r.key) →
        exec (.taskFrameStep id) s = .next { s with net := tdel s.net id, waits := s.waits ++ [(id, .frame r)] })
      ∧ (s.roomAt (homeOf r.key) = false → refused))
    ∧ (s.waits = [] → (∀ p ∈ s.roomAsk, p.1 ≠ homeOf r.key) →
      (r.ending = false → s.isFull r.key →
        (kids = 0 → answers s .goOn)
        ∧ (kids ≠ 0 → waitpc ≠ 0 → answers s .busy)
        ∧ (kids ≠ 0 → waitpc = 0 → (r.task ∨ s.roomAt (homeOf r.key)) →
            answers { s with mem := writeWords s.mem (r.key + 8) [r.next, r.fmtp, r.sclp] }
              (if r.task then .ended else .suspend))
        ∧ (kids ≠ 0 → waitpc = 0 → r.task = false → s.roomAt (homeOf r.key) = false → refused))
      ∧ (r.ending = true →
        (kids = 0 → answers s .underflow)
        ∧ (kids ≠ 0 → (kids ≠ 1 ∨ waitpc = 0) → answers (s.storeWord r.key (kids - 1)) .ended)
        ∧ (kids = 1 → waitpc ≠ 0 → answers ((s.storeWord r.key 0).storeWord (r.key + 8) 0)
            (.restart waitpc (s.loadWord (r.key + 16)) (s.loadWord (r.key + 24)) (s.suspendedAt r.key)))))

/-- What a frame's answer does to the thread that asked: it goes on, takes *task frame* at its bundle, is suspended
and gives its slot to the task unit, ends, or ends and leaves its slot to the suspended parent, which restarts
behind its `sync` with the frame's address in `g1` (R143, R144, R140). That a word of memory loses its low three bits when it
becomes a program counter is the model's choice (notes/assumptions/42). -/
def Obligations.FrameAnswersDirectTheirAsker : Prop :=
  ∀ (s : State) (id : Nat) (r : FrameReq) (a : FrameAns) (t : Thread) (c n : Nat),
    tget s.net id = some (.frameAns r a) → tget s.threads r.tid = some t → t.outst = some (id, []) →
    t.place = .slot c n → n < 15 → (s.core c).restarts = [] → s.carried id →
    let s' : State := { s with net := tdel s.net id }
    let go (u : State) : Prop := exec (.syncAnswer id) s = .next u
    (a = .goOn → go { s' with
      threads := tput s.threads r.tid { t with wait := none, outst := none, undo := none, retries := 0 } })
    ∧ (∀ q, a = .busy ∧ q = 1 ∨ a = .underflow ∧ q = 2 → go (s'.raise r.tid
        { cause := 0x21, qual := q, half := .lone, pc := (t.bundle.map BundleInfo.pc).getD 0, detail := r.addr,
          bundle := t.bundle }))
    ∧ (a = .suspend → go (({ s' with
        threads := tput s.threads r.tid { t with
          place := .frame r.key, wait := none, outst := none, undo := none, bank := none } } : State).restSlot c n))
    ∧ (a = .ended → r.tid < s.nextTid → ∃ u, go u ∧ tget u.threads r.tid = none)
    ∧ (∀ w f sp k p, a = .restart w f sp (some k) → k ≠ r.tid → tget s.threads k = some p → p.launch = t.launch →
        t.gang = false → (p.homeCore = c ∧ p.homeSlot = n ∨ p.gang = false) →
        (∀ q ∈ s.net ++ s.waits, ∀ m, q.2 = .amo m → m.tid ≠ r.tid) →
        (∀ q ∈ s.net, ∀ r', q.2 = .frameAns r' .suspend → r'.key ≠ r.key) →
        (∀ k m, (s.slot k m).reserved ≠ some r.tid ∧ (s.slot k m).held ≠ some r.tid) →
        (s.slot c n).reserved = none → (s.slot c n).held = none →
        ∃ u, go u ∧ tget u.threads r.tid = none ∧ (u.slot c n).tid = some k
          ∧ tget u.threads k = some { p with
              place := .slot c n, pc := aligned w, regs := argRegs r.addr, fmtp := clear5 f, sclp := clear5 sp, homeCore := c,
              homeSlot := n, wait := none, bank := none, outst := none, undo := none, retries := 0, badRegs := [],
              awaited := [] })

/-- The task unit: a slot that looks takes the near-end entry of its core's highest non-empty lane, and a thief the
far-end entry of its victim's; the entry starts a task in the slot. A void entry is discarded, and the next one looked at; a bad
one is charged to the slot, which is free again; one that names a decode table binds a bank that holds it, or loads one that is
free, and is passed over where there is none. A look that finds nothing asks the victims of the core's reach one by one, each
while its porter holds no thread, and then parks the slot for 4,096 cycles (R277, R278, R57, R140). That a request whose way does
not carry it finds nothing is the model's choice (notes/assumptions/45). -/
def Obligations.TaskUnitTakesTheEndsOfLanes : Prop :=
  (∀ (s : State) (c n v k lid : Nat) (l : Launch) (near : Bool) (i : Instr) (rest : List Nat),
    (near ∧ i = .taskTake c n ∧ v = c ∧ (s.slot c n).seekAt = 0 ∧ (s.slot c n).victims = []
      ∨ near = false ∧ i = .stealRequest c n v ∧ (s.slot c n).victims = v :: rest) →
    s.launchOn c = some (lid, l) → l.closing = false → (s.core c).seeking n →
    let finds : Prop := near ∨ s.engineRoute l c v 0 = none ∧ (s.slot v 15).isFree ∧ s.engineHeld l c v = false
    let y := (s.core v).lane k
    let pos := if near then (y.near + 31) % 32 else y.far
    let key := localKey v (l.lanesOff + 1024 * k + 32 * pos)
    let word (w : Nat) : Word := s.loadWord (key + 8 * w)
    let nothing : Prop := exec i s = .next (s.modSlot c n fun z =>
      let vs := if near then victims l c (s.core c).reach.toNat else rest
      if vs = [] then { z with seekAt := s.clock + 4096, victims := [] } else { z with victims := vs })
    (near = false → (s.engineRoute l c v 0).isSome → nothing)
    ∧ (near = false → s.engineRoute l c v 0 = none → ((s.slot v 15).isFree = false ∨ s.engineHeld l c v) →
        exec i s = .next s)
    ∧ (finds → (∀ j < 4, ((s.core v).lane j).count = 0) → nothing)
    ∧ (∀ h : k < 4, finds → (∀ j, k < j → j < 4 → ((s.core v).lane j).count = 0) → y.count ≠ 0 → (∀ p ∈ y.pend, p.1 ≠ pos) →
        s.sound key 32 →
        let taken : State := s.modCore v fun x => { x with lanes := x.lanes.set k (y.take near) h }
        let started (pc fmtp : Word) (bank : Option Nat) (wait : Option Wait) : State := { s with
          nextTid := s.nextTid + 1
          threads := tput s.threads s.nextTid { Thread.blank with
            launch := lid, homeCore := c, homeSlot := n, place := .slot c n, pc := pc, regs := argRegs (word 1),
            gregs := l.gregs, vregs := l.vregs, fmtp := fmtp, sclp := clear5 (word 3), level := (s.slot c n).level,
            task := true, bank := bank, wait := wait }
          cores := (taken.modSlot c n fun z => { z.seat s.nextTid with victims := [] }).cores }
        let good : Prop := word 0 ≠ 0 ∧ (word 0).toNat % 8 = 0
        (word 0 = 1 → y.count ≤ 32 → exec i s = exec i taken)
        ∧ (good → word 2 = 0 → exec i s = .next (started (word 0) 0 none none))
        ∧ (¬ good → word 0 ≠ 1 → word 2 = 0 → exec i s = .next
            (((started (aligned (word 0)) 0 none none).contain s.nextTid
              { cause := 0x21, qual := 3, pc := word 0, detail := word 0 }).endThread s.nextTid))
        ∧ (good → word 2 ≠ 0 →
            let f := clear5 (word 2)
            (∀ b, s.bankFor c l.asid f = some (b, true) → exec i s = .next (started (word 0) f (some b)
              (if ((s.core c).banks.toList.getD b Bank.empty).loading.isSome then some (.cond (.bankLoad b)) else none)))
            ∧ (∀ b, ∀ hb : b < 2, s.bankFor c l.asid f = some (b, false) → exec i s = .next
                ((started (word 0) f (some b) (some (.cond (.bankLoad b)))).modCore c fun x => { x with
                  banks := x.banks.set b { x.banks[b] with loading := some (s.nextTid, l.asid, f), tag := none, walk := none } hb }))
            ∧ (s.bankFor c l.asid f = none → (∀ j < 4, j ≠ k → ((s.core v).lane j).count = 0) → nothing))))
  ∧ ∀ (s : State) (c n : Nat),
      ((s.slot c n).seekAt ≠ 0 → (s.slot c n).seekAt ≤ s.clock → exec (.taskParkTimeout c n) s =
        .next (s.modSlot c n fun x => { x with seekAt := 0, victims := [] }))
      ∧ ((s.slot c n).seekAt = 0 ∨ s.clock < (s.slot c n).seekAt → exec (.taskParkTimeout c n) s = .next s)

/-- `send` puts its message into the network toward the core that its itinerary and its operand name, and takes a
store-queue entry (R136, R53). A message that arrives starts its handler in the porter where that is free, its
payload in `g1` to `g6` and the sender in `g7`, unless a message waits in the ring, an access waits for the porter, or an evicted
handler keeps it; under `anyslot` it then takes the lowest free slot; where no slot takes it, it becomes a ring record, behind a skip record where it would not fit before the ring's end; where the ring has
no place, it is held in its link; where no launch takes it, it is refused and its sender told. A held record enters
as soon as it fits (R53, R55, R56, R269). -/
def Obligations.MessagesLeaveAndFindTheirHandler : Prop :=
  (∀ (s : State) (d a b : Reg) (npay : BitVec 3) (tag : BitVec 4), let i := Instr.send d a b npay tag
     s.issues .lone i →
     let ws := s.itinEntry (squareOf s.ctx.core) (bits (s.value d) 0 10)
     let w1 := if contOf ws.1 then ws.2 else 0
     ∃ q x, s.streets.route { cls := 2, inDistrict := s.myLaunch.hasSquare, amo := false, send := true } ws.1 w1
         (squareOf s.ctx.core) = .ok q
       ∧ exec i s = .next ((({ s with
           nextId := s.nextId + 1
           sq := tput s.sq s.nextId { core := s.ctx.core, slot := s.ctx.slot, tid := s.ctx.tid,
                                      home := coreAt q (bits (s.value d) 10 4), key := 0, size := 0, fills := false,
                                      pc := s.me.pc, addr := s.value a, state := .inFlight }
           net := tput s.net s.nextId (.msg {
             src := s.ctx.core, dst := coreAt q (bits (s.value d) 10 4), route := (ws.1, w1),
             score := s.myLaunch.coreIdx s.ctx.core, sslot := s.ctx.slot, npay := npay.toNat, tag := tag,
             handler := s.value a, payload := (List.range npay.toNat).map fun k => s.me.regs.getG (gNum b + BitVec.ofNat 5 k),
             launch := s.me.launch, tid := some s.ctx.tid }) } : State).sendOn s.nextId s.ctx.core 2 (ws.1, w1)).wentTo i
               (s.me.pc + 8) x))
  ∧ (∀ (s : State) (id : Nat) (m : Msg) (l : Launch), tget s.net id = some (.msg m) →
       tget s.launches m.launch = some l → l.suspended = false → l.closing = false →
       let started (n : Nat) (u : State) : Prop := ∃ t, tget u.threads s.nextTid = some t ∧ t.place = .slot m.dst n
         ∧ t.launch = m.launch ∧ t.pc = aligned m.handler ∧ t.hand = true ∧ t.task = false ∧ t.gregs = 8 ∧ t.vregs = 0
         ∧ t.fmtp = l.fmtp ∧ t.sclp = l.sclp ∧ t.wait = none ∧ (∀ k : Fin 6, t.regs.g[k.val + 1] = m.payload.getD k.val 0)
         ∧ t.regs.g[7] = BitVec.ofNat 64 (m.score % 2 ^ 13 * 2 ^ 16 + m.npay % 16 * 2 ^ 12 + m.sslot % 16 * 2 ^ 8 + m.tag.toNat)
         ∧ t.regs.gfull = BitVec.allOnes 32 ∧ (u.slot m.dst n).tid = some s.nextTid ∧ u.net = tdel s.net id
         ∧ u.sq = tdel s.sq id ∧ u.mem = s.mem
       let open_ : Prop := (s.slot m.dst 15).isFree ∧ (s.core m.dst).ringHas 1 = false ∧ s.porterWaiting m.dst = false
         ∧ s.porterKept m.dst = false
       let full : Prop := l.anyslot = false ∨ (s.core m.dst).ringHas 1 ∨ ∀ n < 15, (s.slot m.dst n).isFree = false
       (s.carried id → (s.core m.dst).held = [] →
         (open_ → ∃ u, exec (.messageArrive id) s = .next u ∧ started 15 u)
         ∧ (∀ n < 15, ¬ open_ → l.anyslot → (s.core m.dst).ringHas 1 = false → (s.slot m.dst n).isFree →
             (∀ k < n, (s.slot m.dst k).isFree = false) → ∃ u, exec (.messageArrive id) s = .next u ∧ started n u)
         ∧ (¬ open_ → full → msgLen m.npay ≤ l.ringSize →
           ((s.core m.dst).ringFit l.ringSize (msgLen m.npay) = none →
             exec (.messageArrive id) s = .next (s.modCore m.dst fun x => { x with held := [(id, s.clock)] }))
           ∧ (∀ skip off, (s.core m.dst).ringFit l.ringSize (msgLen m.npay) = some (skip, off) →
             skip = 0 ∨ (s.core m.dst).ringUsed ≠ 0 →
             let filler : RingRec :=
               { off := (s.core m.dst).ringTail, len := skip, kind := 3, tid := none, amo := none, launch := m.launch }
             let gap := if skip = 0 then s else
               s.storeWord (s.ringKey m.dst (s.core m.dst).ringTail) (ringHeader (skip / 16) 0 0 0 0 3)
             ∃ u, exec (.messageArrive id) s = .next u ∧ u.net = tdel s.net id ∧ u.sq = tdel s.sq id
               ∧ u.mem = writeWords gap.mem (s.ringKey m.dst off)
                   ([ringHeader (msgLen m.npay / 16) m.score m.npay m.sslot m.tag.toNat 1, m.handler] ++ m.payload)
               ∧ (u.core m.dst).ring = (s.core m.dst).ring ++ (if skip = 0 then [] else [filler]) ++
                   [{ off := off, len := msgLen m.npay, kind := 1, tid := none, amo := none, launch := m.launch }]
               ∧ (u.core m.dst).ringTail = (off + msgLen m.npay) % l.ringSize
               ∧ (u.core m.dst).ringUsed = (s.core m.dst).ringUsed + skip + msgLen m.npay))
         ∧ (¬ open_ → full → l.ringSize < msgLen m.npay →
             ∃ u, exec (.messageArrive id) s = .next u ∧ u.net = tdel s.net id ∧ u.sq = tdel s.sq id
               ∧ (∀ k t, m.tid = some k → tget s.threads k = some t → tget u.threads k = some { t with nack := true })))
       ∧ (∀ since rest, (s.core m.dst).held = (id, since) :: rest → open_ →
           ∃ u, exec (.heldRecordEnter m.dst) s = .next u ∧ started 15 u
             ∧ (u.core m.dst).stallTries = tdel (s.core m.dst).stallTries id
             ∧ (u.core m.dst).held = rest))

/-- A thread that migrates takes its reserved home slot, where it comes home, else the lowest free slot of the core
it reaches, unless trips wait there already; either is an event of the core, and its bundle completes, which pushes the words that
it still owes its ports (R88). Behind a held record it is held. A word on a lane link reaches the port in its order (R57, R56, R61,
R223). -/
def Obligations.MigrantsAndLaneWordsArrive : Prop :=
  (∀ (s : State) (id tid dst src sslot : Nat) (route : Word × Word) (t : Thread),
    tget s.net id = some (.migr tid dst src route sslot) → tget s.threads tid = some t → s.carried id →
    (∀ h ∈ (s.core dst).held, h.1 ≠ id) → (∀ n, (s.slot dst n).tid ≠ some tid) →
    let owed := match t.undo with
      | some x => x.pushes
      | none => []
    let takes (n : Nat) (event : Bool) : Prop := ∃ u, exec (.migrationArrive id) s = .next u
      ∧ u = { s with net := tdel s.net id, threads := u.threads, cores := u.cores }
      ∧ tget u.threads tid = some ({ t with place := .slot dst n } : Thread).landed
      ∧ (u.slot dst n).tid = some tid ∧ (u.slot dst n).event = event ∧ (u.slot dst n).reserved = none
      ∧ (∀ j x, j ≠ tid → tget s.threads j = some x → ∃ v, tget u.threads j = some v
          ∧ (v = x ∨ v = x.passed ∧ ∃ q, x.wait = some (.idle q)))
      ∧ (owed = [] → ∀ c, c ≠ dst → u.core c = s.core c)
      ∧ ∀ q w, owed = [(q, w)] → q.toNat < 4 → (u.core t.homeCore).portWords q = (s.core t.homeCore).portWords q ++ [w]
    (t.homeCore = dst → t.homeSlot < 16 → takes t.homeSlot (s.slot dst t.homeSlot).event)
    ∧ (∀ n, t.homeCore ≠ dst → (s.core dst).held = [] → (s.core dst).ringHas 2 = false → n < 15 → (s.slot dst n).isFree →
        (∀ k < n, (s.slot dst k).isFree = false) → takes n false)
    ∧ (t.homeCore ≠ dst → (s.core dst).held ≠ [] → exec (.migrationArrive id) s =
        .next (s.modCore dst fun x => { x with held := x.held ++ [(id, s.clock)] })))
  ∧ ∀ (s : State) (c : Nat) (dir : BitVec 2),
      let x := s.core c
      (∀ w rest, x.flying[dir.toNat] = w :: rest → exec (.laneWordArrive c dir) s = .next (s.setCore c { x with
        flying := x.flying.set dir.toNat rest dir.isLt
        ports := x.ports.set dir.toNat (x.ports[dir.toNat] ++ [w]) dir.isLt }))
      ∧ (x.flying[dir.toNat] = [] → exec (.laneWordArrive c dir) s = .next s)

/-- A record held in its link for longer than the launch's `stall` raises *ring stall* at its core, offered to the
levels of that core from the innermost: ignored, the units of that level raise it no more; retried, its own timer starts
again and its own retries are counted; under kill self the unit ends and the records held at its cores are refused; with no level that absorbs it, the launch
ends. Each makes one report, to the core's die (R286, R324, R325). -/
def Obligations.HeldRecordsRaiseTheRingStall : Prop :=
  ∀ (s : State) (c lid : Nat) (l : Launch), s.launchOn c = some (lid, l) → tget s.launches lid = some l →
    let idx := l.coreIdx c
    let ls := l.coreLevels idx
    ((∀ h ∈ (s.core c).held, s.clock ≤ h.2 + 1024 * l.stall) → exec (.ringStall c) s = .next s)
    ∧ ((∃ p ∈ ls, (p.1, p.2.2) ∈ l.stallOff) → exec (.ringStall c) s = .next s)
    ∧ ∀ id since, (s.core c).held.find? (fun h => h.2 + 1024 * l.stall < s.clock) = some (id, since) →
      (∀ p ∈ ls, (p.1, p.2.2) ∉ l.stallOff) →
      let report (outcome level : Nat) : State := s.report (dieOf c)
        { outcome := outcome, level := level, core := idx, half := .none, cause := 0x2A,
          detail := BitVec.ofNat 64 (s.heldSender l id), asid := l.asid }
      let tried := (tget (s.core c).stallTries id).getD 0
      let again (tries : Nat) (u : State) : State := u.modCore c fun x => { x with
        held := x.held.map fun h => if h.1 = id then (id, s.clock) else h, stallTries := tput x.stallTries id tries }
      (∀ n v, absorber tried (ls.map fun p => (p.1, p.2.1)) = some (n, v) →
        let unit := unitAt l v idx 0
        (v.policy = 0 → exec (.ringStall c) s = .next (again tried ((report 0 n).modLaunch lid fun l =>
            { l with stallOff := (n, unit) :: l.stallOff })))
        ∧ (v.policy = 1 → exec (.ringStall c) s = .next (again (tried + 1) (report 1 n)))
        ∧ (v.policy = 2 → exec (.ringStall c) s =
            .next (((report 2 n).endUnit lid l v unit).refuseUnit l v unit)))
      ∧ ((∀ p ∈ ls, ¬ p.2.1.absorbs tried) → exec (.ringStall c) s =
          .next ((report 3 (l.levels.length - 1)).endLaunch lid 1))

/-! ### Tumblers, the symbolic heap, the Hamper -/

/-- `tnum` empties its destination and sends a token on its way to the wire of its square; `tnset`, `tndrain`,
`tnsave` and `tnload` send a drain with the step that follows it; the thread parks on the answer (R208, R210). -/
def Obligations.TumblerInstructionsSendTokensAndDrains : Prop :=
  ∀ (s : State) (t : BitVec 5) (a d : Reg) (i : Instr),
    s.issues .lone i →
    let s' : State := { s with nextId := s.nextId + 1 }
    (i = .tnum d t → ∃ x, exec i s = .next ((s'.modTumbler t.toNat fun y => { y with
        entry := y.entry ++ [{ wire := s.myLaunch.squareIdx s.ctx.core % 64, layer := 0, tid := s.ctx.tid, id := s.nextId,
                               pc := s.me.pc, parity := none }] }).afterAlone i []
          (s.sent { s.me with regs := s.me.regs.emptyDst (gNum d).toNat } i s.nextId [(gNum d).toNat]) x))
    ∧ ∀ kind arg,
        (i = .tndrain t ∧ kind = 0 ∧ arg = 0 ∨ i = .tnset t a ∧ kind = 1 ∧ arg = s.value a
          ∨ i = .tnsave t a ∧ kind = 2 ∧ arg = s.value a ∨ i = .tnload t a ∧ kind = 3 ∧ arg = s.value a) →
        ∃ x, exec i s = .next ((s'.modTumbler t.toNat fun y => { y with
          ops := y.ops ++ [{ kind := kind, arg := arg, tid := s.ctx.tid, id := s.nextId, core := s.ctx.core,
                             begun := false, walk := none }] }).afterAlone i [] (s.sent s.me i s.nextId []) x)

/-- Inside a tumbler a token leaves each balancer by its bit, which inverts; behind the last layer it takes the
number of its wire, base + wire + 64 · counter, and the counter grows by one. Where both inputs of a balancer have tokens
they pass alternately. A token enters while no drain holds the entry and none waits there; those that a drain has held enter
in order of arrival (R208, R210, R288). A drain holds the entry, waits until the tumbler is empty, then makes its step: `tnset` clears it and
sets its base, `tnsave` writes and `tnload` reads the 48 words of a save area, here one in local memory (R207 to
R211). -/
def Obligations.TumblersCountAndDrain : Prop :=
  ∀ (s : State) (t k : Nat), let x := s.tumbler t
    (∀ n tok, x.nextAt n = some tok → tok ∈ x.inside ∧ tok.stand = n ∧
      ∀ w, tget x.turns n = some w → (∃ y ∈ x.inside, y.stand = n ∧ y.wire ≠ w) → tok.wire ≠ w)
    ∧ (∀ tok, x.inside[k]? = some tok →
      ((x.nextAt tok.stand).map Token.id ≠ some tok.id → exec (.tumblerToken t k) s = .next s)
      ∧ ((x.nextAt tok.stand).map Token.id = some tok.id → tok.layer < 21 →
        let b := balancerAt tok.layer tok.wire
        let n := 32 * tok.layer + b.1
        let both := x.inside.any fun z => z.stand == tok.stand && z.wire != tok.wire
        n ∉ x.badParity → exec (.tumblerToken t k) s = .next (s.modTumbler t fun y => { y with
          bits := y.bits ^^^ (1#672 <<< n)
          turns := if both then tput y.turns tok.stand tok.wire else tdel y.turns tok.stand
          inside := (y.inside.filter fun z => z.id != tok.id) ++
            [{ tok with layer := tok.layer + 1, wire := if x.bits.getLsbD n then b.2.2 else b.2.1 }] }))
      ∧ ((x.nextAt tok.stand).map Token.id = some tok.id → 21 ≤ tok.layer → tok.parity = none → exec (.tumblerToken t k) s =
          .next ((s.modTumbler t fun y => { y.bump tok.wire with inside := y.inside.filter fun z => z.id != tok.id }).answer
            tok.id tok.tid (.vals [(x.base + BitVec.ofNat 64 (tok.wire + 64 * x.counter tok.wire)).setWidth 256]))))
    ∧ (∀ tok, x.inside.length + x.arrived.length ≤ k → x.entry[k - x.inside.length - x.arrived.length]? = some tok →
        let left := x.entry.filter fun z => z.id != tok.id
        ((∀ o ∈ x.ops, o.begun = false) → x.arrived = [] → exec (.tumblerToken t k) s =
          .next (s.modTumbler t fun y => { y with inside := y.inside ++ [tok], entry := left }))
        ∧ ((∃ o ∈ x.ops, o.begun = true) ∨ x.arrived ≠ [] → exec (.tumblerToken t k) s =
          .next (s.modTumbler t fun y => { y with arrived := y.arrived ++ [tok], entry := left })))
    ∧ (∀ tok later, k = x.inside.length → x.arrived = tok :: later →
        ((∀ o ∈ x.ops, o.begun = false) → exec (.tumblerToken t k) s =
          .next (s.modTumbler t fun y => { y with inside := y.inside ++ [tok], arrived := later }))
        ∧ ((∃ o ∈ x.ops, o.begun = true) → exec (.tumblerToken t k) s = .next s))
    ∧ (∀ op, (∀ o ∈ x.ops, o.begun = false) → x.ops[k]? = some op → exec (.tumblerDrainEnd t k) s =
        .next (s.modTumbler t fun y => { y with
          ops := { op with begun := true } :: y.ops.filter fun o => o.id != op.id }))
    ∧ (∀ op, x.ops.find? TnOp.begun = some op →
        let rest := x.ops.filter fun o => o.id != op.id
        (x.inside ≠ [] → exec (.tumblerDrainEnd t k) s = .next s)
        ∧ (x.inside = [] → op.kind = 0 → exec (.tumblerDrainEnd t k) s =
            .next ((s.modTumbler t fun y => { y with ops := rest }).answer op.id op.tid (.vals [])))
        ∧ (x.inside = [] → op.kind = 1 → exec (.tumblerDrainEnd t k) s =
            .next ((s.modTumbler t fun y => { y with ops := rest, bits := 0, counters := 0, base := op.arg,
                                                     badParity := [] }).answer op.id op.tid (.vals [])))
        ∧ (∀ lid l, x.inside = [] → s.launchOn op.core = some (lid, l) → op.core < channelBase → isLocal op.arg →
            namedCore l op.core op.arg = op.core → outOfRange l op.arg 384 = false → op.arg.toNat % 32 = 0 → l.lmHi ≤ 65536 →
            let key := localKeyOf l op.core op.arg
            let word (u : State) (w : Nat) : Word := u.loadWord (key + 8 * w)
            (op.kind = 2 → ∃ u, exec (.tumblerDrainEnd t k) s = .next u
              ∧ u = { s with mem := u.mem, bad := u.bad, soft := u.soft, net := tput s.net op.id (.reply op.tid none (.vals [])),
                             tumblers := tput s.tumblers t { x with ops := rest } }
              ∧ (∀ j, (j < key ∨ key + 384 ≤ j) → readByte u.mem j = readByte s.mem j)
              ∧ word u 0 = x.base ∧ word u 1 = 0 ∧ word u 2 = 0 ∧ word u 3 = 0
              ∧ (∀ w < 12, word u (4 + w) = x.bits.extractLsb' (64 * w) 64)
              ∧ ∀ w < 32, word u (16 + w) = x.counters.extractLsb' (64 * w) 64)
            ∧ (op.kind = 3 → (∀ w < 48, s.sound (key + 8 * w) 8) →
              let ok := word s 1 = 0 ∧ word s 2 = 0 ∧ word s 3 = 0 ∧ bits (word s 14) 32 32 = 0 ∧ word s 15 = 0
              (ok → ∃ y, exec (.tumblerDrainEnd t k) s = .next ((s.modTumbler t fun _ => y).answer op.id op.tid (.vals []))
                ∧ y = { x with ops := rest, base := word s 0, bits := y.bits, counters := y.counters, badParity := [] }
                ∧ (∀ w < 10, y.bits.extractLsb' (64 * w) 64 = word s (4 + w))
                ∧ y.bits.extractLsb' 640 32 = (word s 14).setWidth 32
                ∧ ∀ w < 32, y.counters.extractLsb' (64 * w) 64 = word s (16 + w))
              ∧ (¬ ok → exec (.tumblerDrainEnd t k) s = .next ((s.modTumbler t fun y => { y with ops := rest }).answer
                  op.id op.tid (.fault 0x24 0 op.arg))))))

/-- A heap instruction empties its destinations, sends its request to the heap, and parks on the reply; the request of an
`ematch` begins with the five reads of its record, of which the first out of range is noted (R193, R196 to R203, R205). -/
def Obligations.HeapInstructionsAskTheHeap : Prop :=
  ∀ (s : State) (d a b : Reg) (h : BitVec 6) (i : Instr) (m : HeapMsg) (dsts : List Nat) (t : Thread),
    (let who : Asker := some (s.ctx.tid, s.nextId)
     let n := (gNum d).toNat
     let x := s.value a
     let ask (r : HeapRead) : HeapMsg := .read h.toNat r who
     t = s.me ∧
       (i = .eins d a h ∧ m = .einsLookup h.toNat 0 x (s.me.regs.getG (gNum a + 1)) who ∧ dsts = [n]
        ∨ i = .efind d a h ∧ m = ask (.find (x.toNat % 2 ^ 32)) ∧ dsts = [n]
        ∨ i = .emrg d a b h ∧ m = .accept h.toNat 0 (x.toNat % 2 ^ 32) ((s.value b).toNat % 2 ^ 32) who ∧ dsts = [n]
        ∨ i = .eeq d a b h ∧ m = ask (.eq 0 (x.toNat % 2 ^ 32) ((s.value b).toNat % 2 ^ 32) none) ∧ dsts = [n]
        ∨ i = .esettle h ∧ m = .esettle h.toNat who ∧ dsts = []
        ∨ i = .ecost d a b h ∧ m = .ecost h.toNat (x.toNat % 2 ^ 32) (x.toNat / 2 ^ 32) (s.value b) who ∧ dsts = [n]
        ∨ i = .enode d a h ∧ m = ask (.node (x.toNat % 2 ^ 32)) ∧ dsts = [n, n + 1]
        ∨ i = .eclass d a h ∧ m = ask (.cls (x.toNat % 2 ^ 32)) ∧ dsts = [n, n + 1])
      ∨ i = .ematch d a h ∧ dsts = [n] ∧ t = (s.noteBlock x 160).me
        ∧ m = .pattern h.toNat ((List.range 5).map fun k =>
            let y := x + BitVec.ofNat 64 (32 * k)
            (y, if s.oor y 32 then none else some (s.keyOf y .rd))) [] s.me.launch who) →
    s.issues .lone i →
    ∃ x, exec i s = .next ((({ s with nextId := s.nextId + 2, net := tput s.net (s.nextId + 1) (.heap m) } : State).heapWays
      (s.nextId + 1) s.nextId s.ctx.core s.myLaunch m).afterAlone
        i [] (s.sent { t with regs := dsts.foldl Regs.emptyDst s.me.regs } i s.nextId dsts) x)

/-- Reads and inserts, each step made once its message has arrived, where no alert holds its records and no acceptance is in
progress at their channels; a thread's request that meets an uncorrectable record ends with the fault (R193, R329). A find answers
with the root, `enode` and `eclass` with their pairs; `eeq` reads `settled` and the epoch, finds both roots, and answers 1 for one
root, 2 for two on a heap settled in one epoch throughout, else 0 (R195, R197, R199, R201). An insert (R196, R252, R253): each
child becomes its root; a node that its channel holds is returned with its class; where no record is free the answer is
"none"; where there is room, node and class are created under a tentative index record, and an append leaves for each child;
each append reaches the insert as root, not a root, or full, a full chunk taking a new one in front of it; an insert whose
children were all roots is confirmed and returns node and class; one with a child that was none gives its records back and starts
again, one that met a full list gives them back and returns "none". `ecost` lowers the cost of its class's root and returns it
(R200). The model's readings (notes/assumptions/26): not a root comes before full; an index record goes in front of its bucket,
and a freed record is taken again first; `ecost` tests its node id; an append that meets an uncorrectable atom ends its insert. A
record that is read past such an atom has a free value (notes/assumptions/18). -/
def Obligations.InsertsAnswerWithNodeAndClass : Prop :=
  ∀ (s : State) (id h : Nat) (w0 w1 : Word) (tid rid : Nat),
    let who : Asker := some (tid, rid)
    let vals (vs : List Nat) (u : State) : State := u.reply id who (.vals (vs.map fun v => BitVec.ofNat 256 v))
    let none_ := 0xFFFFFFFFFFFFFFFF
    let hash := pairHash w0 w1
    let c := hashChan hash
    let asks (m : HeapMsg) (i : Instr) : Prop :=
      i = .homeAccess id ∧ ((∃ r, m = .read h r who) ∨ ∃ ws lid dst, m = .ematch h ws lid dst who)
      ∨ i = .einsLookup id ∧ (∃ k x y, m = .einsLookup h k x y who) ∨ i = .accept id ∧ (∃ k x y, m = .accept h k x y who)
      ∨ i = .ecostStep id ∧ (∃ x y k, m = .ecost h x y k who) ∨ i = .esettleAtAnchor id ∧ m = .esettle h who
    (∀ m i a, asks m i → tget s.net id = some (.heap m) → s.carried id → (∀ k ∈ s.heapKeys m, s.bankOpen k) →
      s.entered m (s.heapKeys m) → s.heapStopAt m (s.heapKeys m) = some a →
      (∃ k ∈ s.heapKeys m, s.isBad k 32 = true ∧ a = .fault 0x19 1 (BitVec.ofNat 64 k))
        ∧ exec i s = .next ((s.heapMet id m).reply id who a))
    ∧ (∀ (u : State) a, tget u.ways rid = none → u.reply id who a = { u with net := tput (tdel u.net id) rid (.reply tid none a) })
    ∧ (∀ (u : State) a w, tget u.ways rid = some w → u.reply id who a =
        ({ u with net := tput (tdel u.net id) rid (.reply tid (some (w.src, 0)) a) } : State).sendBack rid w.src)
    ∧ (∀ m : HeapMsg, s.heapOpen id m → let a := s.heapMet id m; let x := a.heap h
      let goes (i : Instr) (m : HeapMsg) (u : State) : Prop := exec i s = .next { u with net := tput u.net id (.heap m) }
      (∀ v, m = .read h (.find v) who →
        (a.findFault h v = none → exec (.homeAccess id) s = .next (vals [a.canon h v] a)
          ∧ (a.linkOf h v = noId → a.canon h v = v))
        ∧ ∀ f, a.findFault h v = some f → exec (.homeAccess id) s = .next (a.reply id who f))
      ∧ (∀ v, m = .read h (.node v) who → exec (.homeAccess id) s = .next
          (if a.nodeKnown h v then vals [(a.nodePair h v).1.toNat, (a.nodePair h v).2.toNat] a
           else a.reply id who (.fault 0x22 5 (BitVec.ofNat 64 h))))
      ∧ (∀ v, m = .read h (.cls v) who → a.findFault h v = none →
        exec (.homeAccess id) s =
          .next (vals [a.bestNodeOf h (a.canon h v) * 2 ^ 32 + a.canon h v, a.bestOf h (a.canon h v)] a))
      ∧ (∀ v w ep, m = .read h (.eq 0 v w ep) who → goes (.homeAccess id)
          (.read h (.eq 1 v w (if a.settled h then some (a.epoch h) else none)) who) a)
      ∧ (∀ v w ep, m = .read h (.eq 1 v w ep) who →
        (a.findFault h v = none → goes (.homeAccess id) (.read h (.eq 2 (a.canon h v) w ep) who) a)
        ∧ ∀ f, a.findFault h v = some f → exec (.homeAccess id) s = .next (a.reply id who f))
      ∧ (∀ v w ep, m = .read h (.eq 2 v w ep) who →
        (a.findFault h w = none → goes (.homeAccess id) (.read h (.eq 3 v (a.canon h w) ep) who) a)
        ∧ ∀ f, a.findFault h w = some f → exec (.homeAccess id) s = .next (a.reply id who f))
      ∧ (∀ v w ep, m = .read h (.eq 3 v w ep) who → exec (.homeAccess id) s =
        .next (vals [if v = w then 1 else if a.settled h ∧ ep = some (a.epoch h) then 2 else 0] a))
      ∧ (∀ v cls, m = .read h (.found v cls) who →
        exec (.homeAccess id) s = .next (vals [v * 2 ^ 32 + a.canon h cls] a))
      ∧ (∀ stage, m = .einsLookup h stage w0 w1 who → stage < pairArity w0 →
        (a.findFault h (pairKid w0 w1 stage) = none →
          ∃ p : Word × Word, goes (.einsLookup id) (.einsLookup h (stage + 1) p.1 p.2 who) a ∧ pairArity p.1 = pairArity w0
            ∧ ∀ k < 3, pairKid p.1 p.2 k = if k = stage then a.canon h (pairKid w0 w1 stage) % 2 ^ 32 else pairKid w0 w1 k)
        ∧ ∀ f, a.findFault h (pairKid w0 w1 stage) = some f → exec (.einsLookup id) s = .next (a.reply id who f))
      ∧ (∀ stage, m = .einsLookup h stage w0 w1 who → pairArity w0 ≤ stage →
        (∀ f, a.ownerFault who c = some f → exec (.einsLookup id) s = .next (a.reply id who f))
        ∧ (∀ j, a.ownerFault who c = none → a.findKey h c hash w0 w1 = some j →
          (a.tentative h c j → exec (.einsLookup id) s = .next a)
          ∧ (a.tentative h c j = false → goes (.einsLookup id)
              (.read h (.found (a.idxAt h c j 16 4) (a.idxAt h c j 28 4)) who) a))
        ∧ (a.ownerFault who c = none → a.findKey h c hash w0 w1 = none →
          let room := a.poolHas h c x.nodePool && a.poolHas h c x.classPool && a.poolHas h c x.idxPool
          (room = false → exec (.einsLookup id) s = .next (vals [none_] a))
          ∧ (room →
            let n := a.take h c x.nodePool
            let k := n.1.take h c x.classPool
            let node := mkId c n.2; let cls := mkId c k.2
            let u := (((k.1.setNode h node 0 8 (w0 ||| 0x40000).toNat).setNode h node 8 8 w1.toNat).setNode h node 16 4 hash).setNode
              h node 20 4 cls
            let u := ((u.setNode h node 24 8 (noId * 2 ^ 32)).setClass h cls 0 8 (2 ^ 64 - 1)).setClass h cls 8 8 (2 ^ 64 - 1)
            let u := (u.setClass h cls 16 8 (noId * 2 ^ 32 + 1)).setClass h cls 24 8 (node * 2 ^ 32 + node)
            let u := u.addIndex h c hash w0 w1 node cls true
            let kids := (List.range (pairArity w0)).map fun e => pairKid w0 w1 e
            exec (.einsLookup id) s = .next (kids.foldl (fun (v : State) kid => v.sendHart c (.append h kid node id))
              { u with net := tput u.net id (.heap (.insert h node cls w0 w1 c (pairArity w0) false false who)) }))))
      ∧ (∀ child node ins k ch n nr fl, m = .append h child node ins → ins ≠ id →
        tget a.net ins = some (.heap (.insert h node k w0 w1 ch n nr fl who)) → a.heldClass h child = false →
        let done (u : State) (nr fl : Bool) : Prop := exec (.appendParent id) s = .next { u with
          net := tput (tdel u.net id) ins (.heap (.insert h node k w0 w1 ch (n - 1) nr fl who)) }
        let bad := (a.heapKeys m).find? fun k => a.isBad k 32
        let q := a.pheadOf h child
        let full := q = noId ∨ idChan q ≠ idChan child ∨ a.hget h (idChan q) (x.chunkOff (idLocal q)) 4 % 8 = 6
        let top := a.headAt h (idChan child) 0x30 4
        (∀ key, bad = some key →
          let u := ({ a with net := tdel a.net id } : State).reply ins who (.fault 0x19 1 (BitVec.ofNat 64 key))
          exec (.appendParent id) s = .next { u with
            net := tput u.net ins (.heap (.insert h node k w0 w1 ch (n - 1) nr true none)) })
        ∧ (bad = none → a.linkOf h child ≠ noId → done a true fl)
        ∧ (bad = none → a.linkOf h child = noId → full → x.pcap ≤ top → done a nr true)
        ∧ (bad = none → a.linkOf h child = noId → full → top < x.pcap →
          let at_ := x.chunkOff (idLocal (mkId (idChan child) top))
          let cc := idChan (mkId (idChan child) top)
          let u := (a.setHead h (idChan child) 0x30 4 (top + 1)).hset h (idChan child) (x.chunkOff top) 8 (q * 2 ^ 32)
          done (((u.setClass h child 0 4 (mkId (idChan child) top)).hset h cc (at_ + 8) 4 node).hset h cc at_ 4 1) nr fl)
        ∧ (bad = none → a.linkOf h child = noId → ¬ full →
          let off := x.chunkOff (idLocal q)
          let count := a.hget h (idChan q) off 4 % 8
          done ((a.hset h (idChan q) (off + 8 + 4 * count) 4 node).hset h (idChan q) off 4 (count + 1)) nr fl))
      ∧ (∀ child node ins, m = .append h child node ins → a.heldClass h child → exec (.appendParent id) s = .next a)
      ∧ (∀ node k ch, m = .insert h node k w0 w1 ch 0 false false who →
        exec (.insertConfirm id) s = .next (vals [node * 2 ^ 32 + k] (match a.recordOf h ch hash node with
          | some j => a.setIdx h ch j 24 4 0
          | none => a)))
      ∧ (∀ node k ch nr fl asker, m = .insert h node k w0 w1 ch 0 nr fl asker → (nr ∨ fl) →
        let u := ((a.removeIndex h ch hash node).setNode h node 0 8 0).setClass h k 16 4 0
        let u := (u.giveBack h ch x.nodePool (idLocal node)).giveBack h ch x.classPool (idLocal k)
        (asker = who → nr → goes (.insertWithdraw id) (.einsLookup h 0 w0 w1 who) u)
        ∧ (asker = who → nr = false → exec (.insertWithdraw id) s = .next (vals [none_] u))
        ∧ (asker = none → exec (.insertWithdraw id) s = .next { u with net := tdel u.net id }))
      ∧ (∀ v node cost, m = .ecost h v node cost who →
        (∀ f, a.findFault h v = some f → exec (.ecostStep id) s = .next (a.reply id who f))
        ∧ (a.findFault h v = none → a.nodeKnown h node = false →
            exec (.ecostStep id) s = .next (a.reply id who (.fault 0x22 5 (BitVec.ofNat 64 h))))
        ∧ (a.findFault h v = none → a.nodeKnown h node →
          let r := a.canon h v
          let lower := (a.setClass h r 8 8 cost.toNat).setClass h r 20 4 node
          (a.bestOf h r < cost.toNat → exec (.ecostStep id) s = .next (vals [a.bestOf h r] a))
          ∧ (cost.toNat < a.bestOf h r → exec (.ecostStep id) s = .next (vals [a.bestOf h r] lower))
          ∧ (cost.toNat = a.bestOf h r → exec (.ecostStep id) s =
              .next (vals [a.bestOf h r] (if node < a.bestNodeOf h r then lower else a))))))

/-- Merges and repair (R198, R254 to R257): `emrg` finds both roots; equal ones answer at once; else the higher id's
channel accepts: it asks the anchor to clear the settle mailbox, busy until the reply, and then, in the step of that reply, the
loser gets its link, the count of acceptances grows, `BEST` leaves for the winner, and the loser joins the worklist; where it is
a root no more, the merge starts again. So does a `MERGE`. `BEST` lowers a root's cost and is forwarded elsewhere; a worklist's
oldest entry is repaired by one `REHASH` for each parent node and a `SPLICE` with the ends of its lists; a splice holds its class
while the last records of its lists get what follows them, and only then do its heads change, together; a rehashed node whose pair
stays needs no index; one whose pair changes is rewritten, leaves its bucket by an `UNINDEX` where that is another one, and goes to
its new one by an `INDEX`, which merges the two classes of a known pair, adds a record for a new one, waits for a tentative one,
and is held where no record is free. That a splice and an acceptance are made in stages is the model's choice
(notes/assumptions/14); that a merge is counted at the channel of the class given up, and that a `REHASH` waits while its node's
insert is pending, its reading (notes/assumptions/26). -/
def Obligations.MergesRepairTheirParents : Prop :=
  ∀ (s : State) (id h : Nat),
    let drop (u : State) : State := { u with net := tdel u.net id }
    let onward (m : HeapMsg) (u : State) : State := { u with net := tput u.net id (.heap m) }
    let linked (u : State) (l win : Nat) : State :=
      let c := idChan l; let x := u.heap h
      let u := u.setClass h l 4 4 win
      let u := u.setHead h c 0x10 8 (u.headAt h c 0x10 8 + 1)
      let u := u.sendRepair h c (.best h win (BitVec.ofNat 64 (u.bestOf h l)) (u.bestNodeOf h l))
      let u := u.setClass h l 16 4 (u.classAt h l 16 4 % 2 + 2)
      let tail := u.headAt h c 0x18 4; let tail' := (tail + 1) % x.classcap
      let u := (u.hset h c (x.listOff tail) 4 (idLocal l)).setHead h c 0x18 4 tail'
      let u := if tail' = u.headAt h c 0x1C 4 then u.modHeap h fun y => { y with full := sadd y.full c } else u
      u.refreshBusy h c
    let root (u : State) (l : Nat) : Prop := u.heldClass h l = false ∧ u.linkOf h l = noId
    (∀ (u : State) c m, u.sendRepair h c m = (u.countSent h c).sendHart c m
      ∧ (m.channel = c → u.sendHart c m = u.inject (.heap m))
      ∧ (m.channel ≠ c → u.sendHart c m =
          (u.inject (.heap m)).sendOn u.nextId (channelBase + c) 0 (u.hartRoute [] c m.channel)))
    ∧ (∀ m : HeapMsg, s.heapOpen id m → let a := s.heapMet id m; let x := a.heap h
      (∀ stage v w who, m = .accept h stage v w who →
        (stage = 0 → a.findFault h v = none → exec (.accept id) s = .next (onward (.accept h 1 (a.canon h v) w who) a))
        ∧ (stage = 1 → a.findFault h w = none → exec (.accept id) s = .next
            (if v = a.canon h w then a.reply id who (.vals [BitVec.ofNat 256 v])
             else onward (.accept h 2 v (a.canon h w) who) a))
        ∧ (stage < 2 → ∀ f, a.findFault h (if stage = 0 then v else w) = some f →
            exec (.accept id) s = .next (a.reply id who f))
        ∧ (2 ≤ stage →
          let l := max v w; let c := idChan l
          (a.heldClass h l → exec (.accept id) s = .next a)
          ∧ (a.heldClass h l = false → a.linkOf h l ≠ noId → exec (.accept id) s = .next (onward (.accept h 0 v w who) a))
          ∧ (root a l → a.headBit h c 1 = false → exec (.accept id) s =
              .next (if a.clearing h c then a else (a.sendHart c (.clear h c)).refreshBusy h c))
          ∧ (root a l → a.headBit h c 1 → exec (.accept id) s =
              .next ((linked a l (min v w)).reply id who (.vals [BitVec.ofNat 256 (min v w)])))))
      ∧ (∀ stage v w, m = .merge h stage v w →
        let l := max v w; let c := idChan l
        (stage = 0 → exec (.merge id) s = .next (onward (.merge h 1 (a.canon h v) w) a))
        ∧ (stage = 1 → exec (.merge id) s = .next
            (if v = a.canon h w then (drop a).countRecv h (idChan v) else onward (.merge h 2 v (a.canon h w)) a))
        ∧ (2 ≤ stage → a.heldClass h l → exec (.merge id) s = .next a)
        ∧ (2 ≤ stage → a.heldClass h l = false → a.linkOf h l ≠ noId →
            exec (.merge id) s = .next (onward (.merge h 0 v w) a))
        ∧ (2 ≤ stage → root a l → a.headBit h c 1 = false → exec (.merge id) s =
            .next (if a.clearing h c then a else (a.sendHart c (.clear h c)).refreshBusy h c))
        ∧ (2 ≤ stage → root a l → a.headBit h c 1 → exec (.merge id) s =
            .next ((drop (linked a l (min v w))).countRecv h (idChan v))))
      ∧ (∀ c, m = .clear h c →
        let u := (((drop a).setMailbox h false true).setHeadBit h c 1 true).refreshBusy h c
        let waiting := u.net.find? fun p => p.2.accepts h c
        (waiting = none → exec (.clear id) s = .next u)
        ∧ (∀ k v w who, waiting = some (k, .heap (.accept h 2 v w who)) → tget u.net k = some (.heap (.accept h 2 v w who)) →
            root u (max v w) → u.headBit h c 1 → exec (.clear id) s =
              .next ((linked u (max v w) (min v w)).reply k who (.vals [BitVec.ofNat 256 (min v w)])))
        ∧ (∀ k v w, waiting = some (k, .heap (.merge h 2 v w)) → tget u.net k = some (.heap (.merge h 2 v w)) →
            root u (max v w) → u.headBit h c 1 → exec (.clear id) s =
              .next ((({ linked u (max v w) (min v w) with net := tdel (linked u (max v w) (min v w)).net k } : State)).countRecv h
                (idChan v))))
      ∧ (∀ c cost node, m = .best h c cost node →
        let u := (drop a).countRecv h (idChan c)
        let lower := (u.setClass h c 8 8 cost.toNat).setClass h c 20 4 node
        (u.linkOf h c = noId → cost.toNat < u.bestOf h c → exec (.best id) s = .next lower)
        ∧ (u.linkOf h c = noId → u.bestOf h c < cost.toNat → exec (.best id) s = .next u)
        ∧ (u.linkOf h c = noId → u.bestOf h c = cost.toNat → exec (.best id) s =
            .next (if node < u.bestNodeOf h c then lower else u))
        ∧ (u.linkOf h c ≠ noId → exec (.best id) s =
            .next (u.sendRepair h (idChan c) (.best h (u.canon h c) cost node))))
      ∧ (∀ r ph pt mh mt, m = .splice h r ph pt mh mt →
        let u := (drop a).countRecv h (idChan r)
        (a.heldClass h r → exec (.splice id) s = .next a)
        ∧ (a.heldClass h r = false → u.linkOf h r ≠ noId → exec (.splice id) s =
            .next (u.sendRepair h (idChan r) (.splice h (u.canon h r) ph pt mh mt)))
        ∧ (a.heldClass h r = false → u.linkOf h r = noId →
            let parents := if pt = noId then [] else [(x.key (idChan pt) (x.chunkOff (idLocal pt) + 4), u.pheadOf h r)]
            let member := (x.key (idChan mt) (x.nodeOff (idLocal mt) + 28), u.mheadOf h r)
            let heads := (if pt = noId then [] else [(u.classKey h r, ph)]) ++ [(u.classKey h r + 28, mh)]
            exec (.splice id) s = .next ((onward (.spliceStore h r (parents ++ [member] ++ heads))
              (u.modHeap h fun y => { y with spliceHold := r :: y.spliceHold })).refreshBusy h (idChan r))))
      ∧ (∀ r left, m = .spliceStore h r left →
        let heads := left.filter fun p => p.1 / 32 = a.classKey h r / 32
        (∀ p rest, left = p :: rest → heads.length < left.length →
          exec (.splice id) s = .next (onward (.spliceStore h r rest) (a.hartStore h p.1 4 p.2)))
        ∧ (heads = left → exec (.splice id) s = .next
            (((left.foldl (fun (u : State) p => u.hartStore h p.1 4 p.2) (drop a)).modHeap h fun y => { y with
              spliceHold := y.spliceHold.erase r }).refreshBusy h (idChan r))))
      ∧ (∀ node, m = .rehash h node →
        let c := idChan node
        let u := (drop a).countRecv h c
        let p := u.canonPair h (u.nodePair h node)
        let hash := pairHash p.1 p.2
        let was := u.nodeAt h node 16 4
        (a.inserting h node → exec (.rehash id) s = .next a)
        ∧ (a.inserting h node = false → (u.nodeUsed h node = false ∨ p = u.nodePair h node) → exec (.rehash id) s = .next u)
        ∧ (a.inserting h node = false → u.nodeUsed h node → p ≠ u.nodePair h node →
            let v := ((u.setNode h node 0 8 (p.1 ||| 0x40000).toNat).setNode h node 8 8 p.2.toNat).setNode h node 16 4 hash
            let v := if hashChan was ≠ hashChan hash ∨ was % 2 ^ x.bktlog ≠ hash % 2 ^ x.bktlog
              then v.sendRepair h c (.unindex h node (BitVec.ofNat 32 was)) else v
            exec (.rehash id) s = .next
              (v.sendRepair h c (.index h node p.1 p.2 (BitVec.ofNat 32 hash) (u.nodeAt h node 20 4) false))))
      ∧ (∀ node hash, m = .unindex h node hash →
        let c := hashChan hash.toNat
        exec (.unindex id) s = .next (((drop a).countRecv h c).removeIndex h c hash.toNat node))
      ∧ (∀ node w0 w1 hash cls held, m = .index h node w0 w1 hash cls held →
        let c := hashChan hash.toNat
        let u := a.removeIndex h c hash.toNat node
        let got := drop (if held then u else u.countRecv h c)
        (∀ j, u.findKey h c hash.toNat w0 w1 = some j →
          (u.tentative h c j → exec (.index id) s = .next u)
          ∧ (u.tentative h c j = false → exec (.index id) s =
              .next ((got.sendRepair h c (.merge h 0 (got.idxAt h c j 28 4) cls)).refreshBusy h c)))
        ∧ (u.findKey h c hash.toNat w0 w1 = none → u.poolHas h c x.idxPool →
            exec (.index id) s = .next ((got.addIndex h c hash.toNat w0 w1 node cls false).refreshBusy h c))
        ∧ (u.findKey h c hash.toNat w0 w1 = none → u.poolHas h c x.idxPool = false →
            let v := (onward (.index h node w0 w1 hash cls true) (if held then u else u.countRecv h c)).refreshBusy h c
            exec (.index id) s = .next (if v.headBit h c 0 then v else (v.setHeadBit h c 0 true).report (c / 64)
              { cause := 0x46, core := c, detail := BitVec.ofNat 64 h, asid := x.asid }))))
    ∧ (∀ c, let x := s.heap h
        x.state ≠ 0 → s.clearing h c = false →
        (s.listEmpty h c → exec (.repair h c) s = .next s)
        ∧ (s.listEmpty h c = false → (∀ k ∈ s.repairKeys h c, s.bankOpen k) →
          let l := s.nextRepair h c
          let a := s.heapReads x.asid (s.repairKeys h c)
          let head := a.headAt h c 0x1C 4
          let qs := a.chunks h (256 * x.pcap) (a.pheadOf h l)
          let u := (qs.flatMap (a.chunkNodes h)).foldl (fun (u : State) node => u.sendRepair h c (.rehash h node)) a
          let u := u.sendRepair h c
            (.splice h (u.canon h l) (u.pheadOf h l) (qs.getLast?.getD noId) (u.mheadOf h l) (u.mtailOf h l))
          let u := (u.setClass h l 16 4 (u.classAt h l 16 4 % 2)).setHead h c 0x1C 4 ((head + 1) % x.classcap)
          exec (.repair h c) s = .next ((u.modHeap h fun y => { y with full := sdel y.full c }).refreshBusy h c)))

/-- The settle waves and the match harts (R258 to R260, R202, R203, R263, R264): while a heap is not settled its leader
clears the veto and adds up every channel twice; two quiet, equal waves without a veto settle it, which completes
every `esettle`; on a settled heap `esettle` answers at once, else it waits, without a limit, which is the model's choice
(notes/assumptions/14). The five reads of a pattern record are made one after another; one that is not well formed is refused,
else the anchor gives the job its number and every match hart takes it. A match hart drops the job of a launch that has ended,
ends a job whose nodes are all scanned with a message of the bindings sent, and sends each binding it has found. It scans its
nodes in rising number, and tries each child of a node that fits: a child that is a variable binds it, or must be the root it is
bound to; one that is a pattern node is tried with every member of its class, once each class merged into it has been joined to
its list. One node or member a step, and the waiting for joins, are the model's choice (notes/assumptions/14). -/
def Obligations.HeapsSettleAndMatch : Prop :=
  ∀ (s : State) (h : Nat),
    let x := s.heap h
    (x.state ≠ 0 → s.bankOpen (s.mailKey h) → x.wave = none → (s.settled h → exec (.settleWave h) s = .next s)
      ∧ (s.settled h = false → exec (.settleWave h) s = .next ((s.setMailbox h false false).modHeap h fun x => { x with
          wave := some { second := false, visited := 0, one := ⟨0, 0, 0, false⟩, two := ⟨0, 0, 0, false⟩ } })))
    ∧ (∀ w, x.state ≠ 0 → s.bankOpen (s.mailKey h) → x.wave = some w →
      (w.visited < 256 →
        let c := (4 * h + w.visited) % 256
        let a := s.heapReads x.asid (s.headKeys h c)
        let sum (t : WaveSum) : WaveSum :=
          { s := t.s + BitVec.ofNat 64 (a.headAt h c 0 8), r := t.r + BitVec.ofNat 64 (a.headAt h c 8 8),
            a := t.a + BitVec.ofNat 64 (a.headAt h c 0x10 8), busy := t.busy || a.headBit h c 2 }
        ((∃ k ∈ s.headKeys h c, s.bankOpen k = false) → exec (.settleWave h) s = .next s)
        ∧ ((∀ k ∈ s.headKeys h c, s.bankOpen k) →
        (w.second = false → exec (.settleWave h) s = .next (a.modHeap h fun x => { x with
          wave := some { w with visited := w.visited + 1, one := sum w.one } }))
        ∧ (w.second → exec (.settleWave h) s = .next ((a.setHeadBit h c 1 false).modHeap h fun x => { x with
          wave := some { w with visited := w.visited + 1, two := sum w.two } }))))
      ∧ (256 ≤ w.visited → w.second = false →
        exec (.settleWave h) s = .next (s.modHeap h fun x => { x with wave := some { w with second := true, visited := 0 } }))
      ∧ (256 ≤ w.visited → w.second →
        let quiet := s.vetoed h = false ∧ w.one.busy = false ∧ w.two.busy = false ∧ w.one.s = w.one.r ∧ w.one.r = w.two.s
          ∧ w.two.s = w.two.r ∧ w.one.a = w.two.a
        let u := s.modHeap h fun x => { x with wave := none }
        (¬ quiet → exec (.settleWave h) s = .next u)
        ∧ (quiet →
            let v := u.hset h (4 * h) 0x2C 4 (u.hget h (4 * h) 0x2C 4 + 1)
            let v := v.setMailbox h true (v.vetoed h)
            exec (.settleWave h) s = .next ((v.heap h).waiting.foldl (fun (y : State) (p : Nat × Nat) => { y with
              net := tput y.net p.2 (.reply p.1 none (.vals [])) }) (v.modHeap h fun x => { x with waiting := [] })))))
    ∧ (∀ id m, s.heapOpen id m → let a := s.heapMet id m
      (∀ tid rid, m = .esettle h (some (tid, rid)) →
        (a.settled h → exec (.esettleAtAnchor id) s = .next (a.reply id (some (tid, rid)) (.vals [])))
        ∧ (a.settled h = false → exec (.esettleAtAnchor id) s = .next (({ a with net := tdel a.net id } : State).modHeap h
            fun x => { x with waiting := x.waiting ++ [(tid, rid)] })))
      ∧ (∀ left words lid tid rid t l, m = .pattern h left words lid (some (tid, rid)) → tget a.threads tid = some t →
        tget a.launches lid = some l →
        let onward (u : State) (left : List (Word × Option Nat)) (words : List Word) : State :=
          { u with net := tput u.net id (.heap (.pattern h left words lid (some (tid, rid)))) }
        (∀ y rest, left = (y, none) :: rest → exec (.homeAccess id) s = .next (onward a rest (words ++ [0, 0, 0, 0])))
        ∧ (∀ y key rest, left = (y, some key) :: rest → a.bankOpen key →
          (channelBase ≤ homeOf key ∨ homeOf key = t.coreNow ∨ (a.slot (homeOf key) 15).isFree) →
          (a.isBad key 32 → exec (.homeAccess id) s =
            .next ((a.uncorrected key l.asid).reply id (some (tid, rid)) (.fault 0x19 1 y)))
          ∧ (a.isBad key 32 = false → exec (.homeAccess id) s =
            .next (onward (a.corrected key 32 l.asid) rest
              (words ++ (List.range 4).map fun w => a.loadWord (key + 8 * w)))))
        ∧ (left = [] → (patternOk words l.cores = false → exec (.homeAccess id) s =
              .next (a.reply id (some (tid, rid)) (.fault 0x22 4 (BitVec.ofNat 64 h))))
          ∧ (patternOk words l.cores →
            let job : HeapMsg := .ematch h words lid ((words.getD 2 0).toNat % 2 ^ 13) (some (tid, rid))
            exec (.homeAccess id) s =
              .next (({ a with net := tput a.net id (.heap job) } : State).heapWays id rid t.coreNow l job))))
      ∧ (∀ ws lid dst who, m = .ematch h ws lid dst who →
        let j := a.hget h (4 * h) 4 4
        let job : Job := { j := BitVec.ofNat 32 j, words := ws, launch := lid, dst := dst, next := 0, sent := 0, front := [] }
        exec (.homeAccess id) s = .next (((a.hset h (4 * h) 4 4 (j + 1)).modHeap h fun y => { y with
          jobs := y.jobs.map fun js => js ++ [job] }).reply id who (.vals [BitVec.ofNat 256 j]))))
    ∧ ∀ (c : Nat) (hc : c < 256) (j : Job) (rest : List Job), x.jobs[c] = j :: rest →
        let left (u : State) (js : List Job) : State := u.modHeap h fun y => { y with jobs := y.jobs.set c js }
        let keys := s.jobKeys h c j
        let a := s.heapReads x.asid keys
        (tget s.launches j.launch = none → exec (.matchScan h c) s = .next (left s rest))
        ∧ (tget s.launches j.launch ≠ none → ((∃ k ∈ keys, s.bankOpen k = false) ∨ s.jobWaits h j = true) →
            exec (.matchScan h c) s = .next s)
        ∧ ∀ l, tget s.launches j.launch = some l → (∀ k ∈ keys, s.bankOpen k) → s.jobWaits h j = false →
          let dst := l.coreOf j.dst
          let route := a.hartRoute l.wards c (256 + l.squareIdx dst)
          let send (tag : BitVec 4) (payload : List Word) : State :=
            (a.inject (.msg {
              src := channelBase + c, dst := dst, route := route, score := c, sslot := 14, npay := payload.length, tag := tag,
              handler := j.words.getD 0 0, payload := payload, launch := j.launch, tid := none })).sendOn
                a.nextId (channelBase + c) 2 route
          let goesOn (y : Job) : Prop := exec (.matchScan h c) s = .next (left a (y :: rest))
          let pat (i : Nat) : Word × Word := (j.words.getD (4 + 2 * i) 0, j.words.getD (5 + 2 * i) 0)
          let fits (i m : Nat) : Prop := let p := pat i; let n := a.nodePair h m
            a.nodeUsed h m ∧ (p.1.setWidth 16 = n.1.setWidth 16) ∧ patArity p.1 = pairArity n.1 ∧ (p.1.getLsbD 18 → p.2 = n.2)
          let kids (i m : Nat) : List Goal := (List.range (patArity (pat i).1)).map fun k =>
            .child (patRef (pat i).1 k) (pairKid (a.nodePair h m).1 (a.nodePair h m).2 k)
          (j.front = [] → a.headAt h c 0x24 4 ≤ j.next → exec (.matchScan h c) s =
            .next (left (send ((j.words.getD 1 0).extractLsb' 20 4)
              [BitVec.ofNat 64 (j.j.toNat * 2 ^ 32 + j.sent)]) rest))
          ∧ (j.front = [] → j.next < a.headAt h c 0x24 4 → let m := mkId c j.next
            (fits 0 m → goesOn { j with next := j.next + 1, front := [{
              top := a.canon h (a.nodeAt h m 20 4), vars := [none, none, none, none], goals := kids 0 m }] })
            ∧ (¬ fits 0 m → goesOn { j with next := j.next + 1, front := [] }))
          ∧ ∀ b bs, j.front = b :: bs →
            (b.goals = [] → exec (.matchScan h c) s =
              .next (left (send ((j.words.getD 1 0).extractLsb' 16 4) (bindingWords j.j b))
                ({ j with front := bs, sent := j.sent + 1 } :: rest)))
            ∧ (∀ ref v gs, b.goals = .child ref v :: gs → let r := a.canon h v
              (128 ≤ ref → b.vars.getD (ref - 128) none = none →
                goesOn { j with front := { b with vars := b.vars.set (ref - 128) (some r), goals := gs } :: bs })
              ∧ (∀ k, 128 ≤ ref → b.vars.getD (ref - 128) none = some k →
                goesOn { j with front := (if a.canon h k = r then [{ b with goals := gs }] else []) ++ bs })
              ∧ (ref < 128 → goesOn { j with front := { b with goals := .members ref (a.mheadOf h r) :: gs } :: bs }))
            ∧ (∀ i m gs, b.goals = .members i m :: gs →
              let more : Search := { b with goals := .members i (a.nodeAt h m 28 4) :: gs }
              (m = noId → goesOn { j with front := bs })
              ∧ (m ≠ noId → fits i m → goesOn { j with front := { b with goals := kids i m ++ gs } :: more :: bs })
              ∧ (m ≠ noId → ¬ fits i m → goesOn { j with front := more :: bs }))

/-- `stow` and `unstow` read words 0 and 3 of their control block, and queue their request at the Hamper core that the object
names. A request leaves its queue as its block is read; a block of which only a part can be read has status 7. It is processed
where no earlier request for the object is left: an invalid control block fills every completion word with status 6, an
identifier without a namespace with 8, an object that is not stored with 4; a header that is not the object's has status 2,
one that the block does not agree with has status 1 and is reported. A `stow` reads its pages atom by atom, in order, and
checks each; then header and pages are written to the
drive, and the object replaces an earlier one when it is durable; a page that arrives is checked, then stored atom by atom,
and then its word is filled (R212 to R214, R236, R312 to R316); what lies in a bank that an alert holds waits (R333). The
status 7 of a block read in part or not at all is the model's reading (notes/assumptions/46), and so are the statuses of
namespaces and the words of a refusal (notes/assumptions/27). -/
def Obligations.HamperRequestsMoveObjects : Prop :=
  (∀ (s : State) (a : Reg) (i : Instr) (stow : Bool), (i = .stow a ∧ stow = true ∨ i = .unstow a ∧ stow = false) →
    s.issues .lone i →
    let y := s.value a
    let o := s.readWord y
    ∃ x, exec i s = .next ((((s.correctWord y).correctWord (y + 24)).modHamper (o.toNat % 4) fun h => { h with
      num := h.num + 1
      queue := h.queue ++ [{ num := h.num, stow := stow, ctl := y, asid := s.myLaunch.asid, sc := dieOf s.ctx.core,
                             done := s.readWord (y + 24), phase := 0, stamp := 0, data := [], pages := [], atoms := [],
                             block := [], media := false }] }).afterAlone i []
      ({ ((s.readNote y 8).readNote (y + 24) 8).me with bank := s.bankSought i }.stepped i (s.me.pc + 8)) x))
  ∧ (∀ (s u : State) (k num : Nat) (r : HReq) (ws : List Word) (i : Instr), (s.hamper k).next num = some r →
      (r.stow ∧ i = .stowProcess k num ∨ r.stow = false ∧ i = .unstowProcess k num) →
      (s.readControl k r = (u, none) → exec i s = .next s)
      ∧ (s.readControl k r = (u, some ws) →
        (ws.length = 8 → exec i s =
          .next (u.modReq k r.num fun r => { r with phase := 1, block := ws, stamp := BitVec.ofNat 64 s.clock }))
        ∧ (ws.length = 4 → exec i s = .next (u.failReq k r ws [] 7))
        ∧ (ws = [] → exec i s = .next ((u.fillDone k r [0, 0, 0, r.done] 0 0 7).endReq k r.num))))
  ∧ (∀ (s : State) (k num : Nat) (r : HReq) (i : Instr), (s.hamper k).next num = none → (s.hamper k).ready num = some r →
      r.phase = 1 → s.wordsOpen k r → (r.stow ∧ i = .stowProcess k num ∨ r.stow = false ∧ i = .unstowProcess k num) →
      let ws := r.block
      let obj := blockObj ws
      let space := tget (s.hamper k).namespaces r.asid.toNat
      (blockOk ws = false → exec i s = .next (s.failReq k r ws [] 6))
      ∧ (blockOk ws → space = none → exec i s = .next (s.failReq k r ws [] 8))
      ∧ (∀ n, blockOk ws → space = some n → r.stow = false →
          (tget n.objects obj.toNat = none → exec i s = .next (s.failReq k r ws [] 4))
          ∧ ∀ o, tget n.objects obj.toNat = some o →
            (r.media → exec i s = .next (s.failReq k r ws [] 3))
            ∧ (r.media = false → headerOk o.header r.asid obj = false → exec i s = .next (s.failReq k r ws [] 2))
            ∧ (r.media = false → headerOk o.header r.asid obj → headerMatches o.header ws = false → exec i s =
                .next ((({ s with refusals := s.refusals ++ [[r.asid.setWidth 64, obj.setWidth 64, ws.getD 4 0,
                      BitVec.ofNat 64 (bits (ws.getD 2 0) 0 16), (readWords o.header 0 6).getD 3 0,
                      BitVec.ofNat 64 (bits ((readWords o.header 0 6).getD 2 0) 0 16)]] } : State).report r.sc
                    { cause := 0x47, core := 4 + k, detail := obj.setWidth 64, asid := r.asid }).failReq k r ws [] 1))
            ∧ (r.media = false → headerOk o.header r.asid obj → headerMatches o.header ws → exec i s =
                .next ((s.fillDone k r ws 0 0 0).modReq k r.num fun r => { r with phase := 2, data := o.header :: o.pages })))
      ∧ (∀ n, blockOk ws → space = some n → r.stow →
          let p := r.pages.length + 1
          let at_ := (tget r.atoms p).getD 0
          let page := r.data.getD (p - 1) []
          let failed (u : State) : State := (((u.fillDone k r ws 0 p 7).fillRest k r ws [0] 7)).endReq k r.num
          (∀ u, p ≤ blockCount ws → at_ < 2048 →
            let a := pageAddr ws p + BitVec.ofNat 64 (32 * at_)
            (s.hamperOpen k r.asid a .rd = false → exec i s = .next s)
            ∧ (∀ f, s.hamperOpen k r.asid a .rd → s.hamperXlate k r.asid a .rd = (u, .error f) → exec i s = .next (failed u))
            ∧ ∀ key, s.hamperOpen k r.asid a .rd → s.hamperXlate k r.asid a .rd = (u, .ok key) →
              (u.isBad key 32 → exec i s = .next (failed (u.uncorrected key r.asid)))
              ∧ (u.isBad key 32 = false → exec i s =
                  .next ((u.corrected key 32 r.asid).modReq k r.num fun r => { r with
                    data := r.data.take (p - 1) ++ [r.data.getD (p - 1) [] ++ moveCells u.mem key 32 (32 * at_)]
                    atoms := [(p, at_ + 1)] })))
          ∧ (p ≤ blockCount ws → 2048 ≤ at_ → exec i s = .next (if pageOk page (blockSig ws)
              then s.modReq k r.num fun r => { r with pages := p :: r.pages, atoms := [] }
              else (s.fillDone k r ws 0 p 2).endReq k r.num))
          ∧ (blockCount ws < p → r.media = false → n.used + 1 + 16 * blockCount ws ≤ n.lbas → exec i s =
              .next (s.modReq k r.num fun r => { r with
                phase := 2, data := sessionHeader r.asid obj (blockCount ws) (blockSig ws) r.stamp :: r.data }))
          ∧ (blockCount ws < p → r.media = false → n.lbas < n.used + 1 + 16 * blockCount ws →
              exec i s = .next (s.failReq k r ws [] 5))))
  ∧ (∀ (s : State) (k num : Nat) (r : HReq), (s.hamper k).ready num = some r → r.phase = 2 → s.wordsOpen k r →
      (∀ n, r.stow → tget (s.hamper k).namespaces r.asid.toNat = some n → r.media = false →
        exec (.objectDurable k num) s = .next (((s.modHamper k fun h => { h with
          namespaces := tput h.namespaces r.asid.toNat { n with
            objects := tput n.objects (blockObj r.block).toNat { header := r.data.headD [], pages := r.data.tail } }
          }).fillDone k r r.block 0 0 0).endReq k num))
      ∧ (∀ page, r.stow = false → 0 < page → page ≤ blockCount r.block → page ∉ r.pages →
          let at_ := (tget r.atoms page).getD 0
          let stop (u : State) (status : Nat) : State := u.failReq k r r.block (0 :: r.pages) status
          let i : Instr := .unstowPageArrive k num page
          (at_ = 0 → r.media → exec i s = .next (stop s 3))
          ∧ (at_ = 0 → r.media = false → pageOk (r.data.getD page []) (blockSig r.block) = false →
              exec i s = .next (stop s 2))
          ∧ (∀ u key, at_ < 2048 → (at_ = 0 → r.media = false ∧ pageOk (r.data.getD page []) (blockSig r.block)) →
              let a := pageAddr r.block page + BitVec.ofNat 64 (32 * at_)
              s.hamperXlate k r.asid a .w = (u, .ok key) → s.hamperOpen k r.asid a .w → exec i s = .next ((u.writePageAtom key at_ (r.data.getD page [])).modReq k num fun r => { r with
                atoms := tput r.atoms page (at_ + 1) }))
          ∧ (2048 ≤ at_ → exec i s = .next (
              let v := s.fillDone k r r.block page page 0
              if r.pages.length + 1 = blockCount r.block then v.endReq k num
              else v.modReq k num fun r => { r with pages := page :: r.pages }))))
  ∧ ∀ (s : State) (key n j : Nat) (page : List Host.Cell), memWf s.mem →
      readByte (s.writePageAtom key n page).mem j =
        if key ≤ j ∧ j < key + 32 then readByte page (32 * n + (j - key)) else readByte s.mem j

/-! ### Engines -/

/-- Vector integers: each element is computed exactly in its type and wraps, or clamps and raises `sv`; the bitwise
forms and the shifts act on each element, the count of a shift taken whole (R157, R158, R161, R163, R171). -/
def Obligations.VectorIntegersActElementwise : Prop :=
  ∀ (s : State) (ty : IntTy) (sat : Bool) (d a b : BitVec 3) (i : Instr),
    let w := ty.bits
    let x (k : Nat) : BitVec w := element w (s.me.regs.getV a) k
    let y (k : Nat) : BitVec w := element w (s.me.regs.getV b) k
    s.issues .lone i →
    (∀ e : Nat → Int,
      (i = .vaddI ty sat d a b ∧ e = (fun k => elemInt ty (x k) + elemInt ty (y k))
        ∨ i = .vsubI ty sat d a b ∧ e = (fun k => elemInt ty (x k) - elemInt ty (y k))
        ∨ i = .vmulI ty sat d a b ∧ e = (fun k => elemInt ty (x k) * elemInt ty (y k))
        ∨ i = .vminI ty d a b ∧ sat = false ∧ e = (fun k => min (elemInt ty (x k)) (elemInt ty (y k)))
        ∨ i = .vmaxI ty d a b ∧ sat = false ∧ e = (fun k => max (elemInt ty (x k)) (elemInt ty (y k)))) →
      ∃ v c, exec i s = .next (s.vecQueued i 1 [(32 + d.toNat, v)]
          (if sat ∧ ∃ k < 256 / w, elemClamp ty (e k) ≠ e k then 32 else 0) c)
        ∧ ∀ k < 256 / w, element w v k = BitVec.ofInt w (if sat then elemClamp ty (e k) else e k))
    ∧ (∀ r : Nat → BitVec w,
      (i = .vand ty d a b ∧ r = (fun k => x k &&& y k) ∨ i = .vor ty d a b ∧ r = (fun k => x k ||| y k)
        ∨ i = .vxor ty d a b ∧ r = (fun k => x k ^^^ y k) ∨ i = .vshl ty d a b ∧ r = (fun k => x k <<< (y k).toNat)
        ∨ i = .vshr ty d a b ∧ r = (fun k => x k >>> (y k).toNat)
        ∨ i = .vsar ty d a b ∧ r = (fun k => (x k).sshiftRight (y k).toNat)) →
      ∃ v c, exec i s = .next (s.vecQueued i 1 [(32 + d.toNat, v)] 0 c) ∧ ∀ k < 256 / w, element w v k = r k)

/-- Vector floats: each element of the result is the operation's on the elements of the operands, and the command
records the flags of all; busy for 1, 2 or 8 cycles. The operations on finite values are the exact ones rounded once, with
their flags; an exact zero is +0 but toward −∞, or of the sign both terms have; a NaN gives the canonical NaN, a signalling
one `nv`; ∞ − ∞, 0 · ∞ and the root of a negative value give it with `nv`, a division by zero `dz`; the lesser, the
greater and the compares order by value, −0 below +0 for the first two, which give the number where the other is a quiet NaN.
And a value that its format represents is rounded to itself, in
every mode, without a flag (R65 to R67, R69, R157, R158, R162, R170, R171). Which flags 0/0, ∞/∞ and ∞/0 raise, and that a
signalling NaN gives the canonical NaN in the lesser and the greater too, are the model's choices (notes/assumptions/36). -/
def Obligations.VectorFloatsRoundEachElement : Prop :=
  (∀ (s : State) (ty : FloatTy) (rm : Rm) (d a b e : BitVec 3) (i : Instr) (busy : Nat) (r : Nat → Nat × BitVec 6),
    (let f := fmtOf ty
     let w := ty.bits
     let x (k : Nat) : Nat := (element w (s.me.regs.getV a) k).toNat
     let y (k : Nat) : Nat := (element w (s.me.regs.getV b) k).toNat
     let z (k : Nat) : Nat := (element w (s.me.regs.getV e) k).toNat
     let judge (p : FRel) (k : Nat) : Nat × BitVec 6 :=
       (if (f.compare p (x k) (y k)).1 then 2 ^ w - 1 else 0, (f.compare p (x k) (y k)).2)
     i = .vaddF ty rm d a b ∧ busy = 1 ∧ r = (fun k => f.add rm (x k) (y k))
      ∨ i = .vsubF ty rm d a b ∧ busy = 1 ∧ r = (fun k => f.sub rm (x k) (y k))
      ∨ i = .vmulF ty rm d a b ∧ busy = 1 ∧ r = (fun k => f.mul rm (x k) (y k))
      ∨ i = .vdiv ty rm d a b ∧ busy = 8 ∧ r = (fun k => f.div rm (x k) (y k))
      ∨ i = .vfma ty rm d a b e ∧ busy = 1 ∧ r = (fun k => f.fma rm (x k) (y k) (z k))
      ∨ i = .vminF ty d a b ∧ busy = 1 ∧ r = (fun k => f.minmax false (x k) (y k))
      ∨ i = .vmaxF ty d a b ∧ busy = 1 ∧ r = (fun k => f.minmax true (x k) (y k))
      ∨ i = .vsqrt ty rm d a ∧ busy = 8 ∧ r = (fun k => f.sqrt rm (x k))
      ∨ i = .vneg ty d a ∧ busy = 1 ∧ r = (fun k => f.signOp false (x k))
      ∨ i = .vabs ty d a ∧ busy = 1 ∧ r = (fun k => f.signOp true (x k))
      ∨ i = .vcmpEq ty d a b ∧ busy = 1 ∧ r = judge .eq ∨ i = .vcmpLt ty d a b ∧ busy = 1 ∧ r = judge .lt
      ∨ i = .vcmpLe ty d a b ∧ busy = 1 ∧ r = judge .le ∨ i = .vcmpUn ty d a b ∧ busy = 1 ∧ r = judge .un
      ∨ ty = .f32 ∧ i = .vrcp d a ∧ busy = 2 ∧ r = (fun k => rcpF32 (x k))
      ∨ ty = .f32 ∧ i = .vrsqrt d a ∧ busy = 2 ∧ r = (fun k => rsqrtF32 (x k))
      ∨ ty = .f32 ∧ i = .vexp2 d a ∧ busy = 2 ∧ r = (fun k => exp2F32 (x k))) →
    s.issues .lone i →
    ∃ v c, exec i s = .next (s.vecQueued i busy [(32 + d.toNat, v)]
        (((List.range (256 / ty.bits)).map r).foldl (fun fl p => fl ||| p.2) 0) c)
      ∧ ∀ k < 256 / ty.bits, element ty.bits v k = BitVec.ofNat ty.bits (r k).1)
  ∧ (∀ (ty : FloatTy) (rm : Rm) (n m : Nat) (neg : Bool) (e : Int), n < 2 ^ ty.bits →
      (fmtOf ty).decode n = .fin neg m e → (fmtOf ty).round rm neg m e = (n, 0))
  ∧ ∀ (ty : FloatTy) (rm : Rm) (a b c : Nat), let f := fmtOf ty
      let x := f.decode a; let y := f.decode b; let z := f.decode c
      let raised (vs : List FVal) : BitVec 6 := if vs.any FVal.isSnan then 16 else 0
      (∀ (neg : Bool) (m : Nat) (e : Int), m ≠ 0 → f.roundsTo rm neg (m * 2 ^ e) (f.round rm neg m e))
      ∧ (∀ neg, f.overflow rm neg = if rm = .rn ∨ rm = .rd ∧ neg = true ∨ rm = .ru ∧ neg = false then f.inf neg
          else f.maxFinite neg)
      ∧ (x.isFin → y.isFin →
        f.yields rm (x.rat + y.rat) (if x.neg = y.neg then x.neg else rm = .rd) (f.add rm a b)
        ∧ f.yields rm (x.rat - y.rat) (if x.neg = !y.neg then x.neg else rm = .rd) (f.sub rm a b)
        ∧ f.yields rm (x.rat * y.rat) (x.neg != y.neg) (f.mul rm a b)
        ∧ (z.isFin → f.yields rm (x.rat * y.rat + z.rat) (if (x.neg != y.neg) = z.neg then z.neg else rm = .rd) (f.fma rm a b c))
        ∧ (y.rat ≠ 0 → f.yields rm (x.rat / y.rat) (x.neg != y.neg) (f.div rm a b))
        ∧ (y.rat = 0 → f.div rm a b = if x.rat = 0 then (f.qnan, 16) else (f.inf (x.neg != y.neg), 8))
        ∧ (∀ greater, f.minmax greater a b =
            (if (if x.rat = y.rat then x.neg && !y.neg else decide (x.rat < y.rat)) = greater then b else a, 0))
        ∧ f.compare .eq a b = (decide (x.rat = y.rat), 0) ∧ f.compare .lt a b = (decide (x.rat < y.rat), 0)
        ∧ f.compare .le a b = (decide (x.rat ≤ y.rat), 0) ∧ f.compare .un a b = (false, 0))
      ∧ (x.isFin → (x.rat = 0 → f.sqrt rm a = (f.zero x.neg, 0)) ∧ (x.rat < 0 → f.sqrt rm a = (f.qnan, 16))
        ∧ (0 < x.rat → f.rounds rm false (fun t => t * t ≤ x.rat) (fun t => t * t < x.rat) (f.sqrt rm a)))
      ∧ (x.isNan → f.sqrt rm a = (f.qnan, raised [x]))
      ∧ (x.isNan ∨ y.isNan →
        f.add rm a b = (f.qnan, raised [x, y]) ∧ f.sub rm a b = (f.qnan, raised [x, y])
        ∧ f.mul rm a b = (f.qnan, raised [x, y]) ∧ f.div rm a b = (f.qnan, raised [x, y])
        ∧ f.fma rm a b c = (f.qnan, raised [x, y, z])
        ∧ (∀ greater, f.minmax greater a b = if x.isSnan ∨ y.isSnan then (f.qnan, 16)
            else if x.isNan ∧ y.isNan then (f.qnan, 0) else if x.isNan then (b, 0) else (a, 0))
        ∧ f.compare .eq a b = (false, raised [x, y]) ∧ f.compare .un a b = (true, raised [x, y])
        ∧ f.compare .lt a b = (false, 16) ∧ f.compare .le a b = (false, 16))
      ∧ (∀ p q, x = .inf p → y = .inf q →
        f.add rm a b = (if p = q then (f.inf p, 0) else (f.qnan, 16)) ∧ f.mul rm a b = (f.inf (p != q), 0)
        ∧ f.sub rm a b = (if p = q then (f.qnan, 16) else (f.inf p, 0)) ∧ f.div rm a b = (f.qnan, 16))
      ∧ (∀ p, x = .inf p → y.isFin →
        f.add rm a b = (f.inf p, 0) ∧ f.sub rm a b = (f.inf p, 0) ∧ f.div rm a b = (f.inf (p != y.neg), 0)
        ∧ f.mul rm a b = (if y.rat = 0 then (f.qnan, 16) else (f.inf (p != y.neg), 0))
        ∧ (y.rat = 0 → f.fma rm a b c = (f.qnan, 16)))
      ∧ (∀ p, x.isFin → y = .inf p →
        f.add rm a b = (f.inf p, 0) ∧ f.sub rm a b = (f.inf (!p), 0) ∧ f.div rm a b = (f.zero (x.neg != p), 0)
        ∧ f.mul rm a b = (if x.rat = 0 then (f.qnan, 16) else (f.inf (x.neg != p), 0)))
      ∧ ∀ p, x = .inf p → f.sqrt rm a = if p then (f.qnan, 16) else (f.inf false, 0)

/-- Permutes, selections and the moves between `g` and `v` registers, reductions of integers to their exact sum,
greatest and least element, conversions, and the block-scaled codes: each byte or element named by the entry, and no
other, has its new value (R157, R158, R164 to R169, R171). A conversion rounds, or clamps, the exact value once; a code is
decoded to its entry scaled, with one rounding; `AutoScale` chooses the least scale that fits; a number is encoded to the
nearest finite entry, the least even code first, and clamped to the greatest beyond it (R68, R72, R74, R77, R78). -/
def Obligations.VectorElementsAreMovedReducedAndConverted : Prop :=
  ∀ (s : State) (i : Instr), s.issues .lone i →
    let vec (n : BitVec 3) : Vec := s.me.regs.getV n
    let byte (v : Vec) (k : Nat) : BitVec 8 := element 8 v k
    let fills (busy : Nat) (d : BitVec 3) (fl : BitVec 6) (P : Vec → Prop) : Prop :=
      ∃ v c, exec i s = .next (s.vecQueued i busy [(32 + d.toNat, v)] fl c) ∧ P v
    let gives (busy : Nat) (d : Reg) (fl : BitVec 6) (w : Word) : Prop :=
      ∃ c, exec i s = .next (s.vecQueued i busy [((gNum d).toNat, w.setWidth 256)] fl c)
    let flags (n : Nat) (r : Nat → Nat × BitVec 6) : BitVec 6 := ((List.range n).map r).foldl (fun fl p => fl ||| p.2) 0
    (∀ d a b, i = .vperm d a b → fills 1 d 0 fun v => ∀ k < 32, byte v k =
      if (byte (vec b) k).toNat < 128 then byte (vec a) ((byte (vec b) k).toNat % 32) else 0)
    ∧ (∀ ty d a, i = .vbcast ty d a → fills 1 d 0 fun v => ∀ k < 256 / ty.bits, element ty.bits v k = (s.value a).setWidth ty.bits)
    ∧ (∀ ty d a n, i = .vins ty d a n → n.toNat < 256 / ty.bits → fills 1 d 0 fun v => ∀ k < 256 / ty.bits,
        element ty.bits v k = if k = n.toNat then (s.value a).setWidth ty.bits else element ty.bits (vec d) k)
    ∧ (∀ d a b c, i = .vsel d a b c → fills 1 d 0 fun v => v = (vec a &&& vec c) ||| (vec b &&& ~~~ vec c))
    ∧ (∀ d a, i = .vmov d a → fills 1 d 0 fun v => v = vec a)
    ∧ (∀ t d a n, i = .vext (.int t) d a n →
        gives 1 d 0 (if t.signed then (element t.bits (vec a) n.toNat).signExtend 64 else (element t.bits (vec a) n.toNat).setWidth 64))
    ∧ (∀ t d a n, i = .vext (.flt t) d a n → gives 1 d 0 ((element t.bits (vec a) n.toNat).setWidth 64))
    ∧ (∀ t rm sat d a, i = .vsum (.int t) rm sat d a →
        let e := ((List.range (256 / t.bits)).map fun k => elemInt t (element t.bits (vec a) k)).sum
        let r := BitVec.ofInt t.bits (if sat then elemClamp t e else e)
        gives 3 d (if sat ∧ elemClamp t e ≠ e then 32 else 0) (if t.signed then r.signExtend 64 else r.setWidth 64))
    ∧ (∀ t rm sat d a, i = .vsum (.flt t) rm sat d a →
        let r := reduce ((fmtOf t).add rm) 5 ((List.range (256 / t.bits)).map fun k => (element t.bits (vec a) k).toNat) 0
        gives 3 d r.2 (BitVec.ofNat 64 (r.1 % 2 ^ t.bits)))
    ∧ (∀ t d a (greater : Bool), (i = .vrmax (.int t) d a ∧ greater ∨ i = .vrmin (.int t) d a ∧ greater = false) →
        ∃ n < 256 / t.bits, (∀ k < 256 / t.bits,
            if greater then elemInt t (element t.bits (vec a) k) ≤ elemInt t (element t.bits (vec a) n)
            else elemInt t (element t.bits (vec a) n) ≤ elemInt t (element t.bits (vec a) k))
          ∧ gives 3 d 0 (BitVec.ofInt 64 (elemInt t (element t.bits (vec a) n))))
    ∧ (∀ t d a (greater : Bool), (i = .vrmax (.flt t) d a ∧ greater ∨ i = .vrmin (.flt t) d a ∧ greater = false) →
        let r := reduce ((fmtOf t).minmax greater) 5 ((List.range (256 / t.bits)).map fun k => (element t.bits (vec a) k).toNat) 0
        gives 3 d r.2 (BitVec.ofNat 64 (r.1 % 2 ^ t.bits)))
    ∧ (∀ dt st rm sat d a (p : BitVec 3), i = .vcvt dt st rm sat d a p →
        let n := 256 / max dt.bits st.bits
        let from_ (k : Nat) : Nat := if st.bits < dt.bits then p.toNat * n + k else k
        let into (k : Nat) : Nat := if dt.bits < st.bits then p.toNat * n + k else k
        let r (k : Nat) : Nat × BitVec 6 := convert dt st rm sat (element st.bits (vec a) (from_ k)).toNat
        (p.toNat + 1) * n ≤ 256 / min dt.bits st.bits →
        fills 1 d (flags n r) fun v => (∀ k < n, element dt.bits v (into k) = BitVec.ofNat dt.bits (r k).1)
          ∧ ∀ j < 256 / dt.bits, (∀ k < n, j ≠ into k) → element dt.bits v j = element dt.bits (vec d) j)
    ∧ (∀ dt rm d a b (t p : BitVec 2), i = .vdec dt rm d a b t p →
        let n := 256 / dt.bits
        let r (k : Nat) : Nat × BitVec 6 := decodeC8 (fmtOf dt) rm (s.tableFor i) (byte (vec a) (n * p.toNat + k)).toNat
          (byte (vec b) (8 * t.toNat + (if dt = .f32 then 2 else 4) * p.toNat + k / 4)).toNat
        fills 2 d (flags n r) fun v => ∀ k < n, element dt.bits v k = BitVec.ofNat dt.bits (r k).1)
    ∧ (∀ auto d a b (t p : BitVec 2), i = .venc auto d a b t p →
        let x (k : Nat) : Nat := (element 32 (vec a) k).toNat
        let sb (blk : Nat) : Nat := 8 * t.toNat + 2 * p.toNat + blk
        let xs (blk : Nat) : List Nat := [x (4 * blk), x (4 * blk + 1), x (4 * blk + 2), x (4 * blk + 3)]
        let sc (blk : Nat) : Nat := if (xs blk).any (fun y => (fp32.decode y).isNan) then 255
          else if auto then autoScale (s.tableFor i) (xs blk) else (byte (vec b) (sb blk)).toNat
        ∃ v u fl c, exec i s = .next (s.vecQueued i 2 [(32 + d.toNat, v), (32 + b.toNat, u)] fl c)
          ∧ (∀ k < 8, byte v (8 * p.toNat + k) = BitVec.ofNat 8 (encodeC8 (s.tableFor i) (x k) (sc (k / 4))).1)
          ∧ (∀ j < 32, (j < 8 * p.toNat ∨ 8 * p.toNat + 8 ≤ j) → byte v j = byte (vec d) j)
          ∧ (∀ blk < 2, byte u (sb blk) = BitVec.ofNat 8 (sc blk))
          ∧ (∀ j < 32, j ≠ sb 0 → j ≠ sb 1 → byte u j = byte (vec b) j)
          ∧ fl = ((List.range 8).map fun k => (encodeC8 (s.tableFor i) (x k) (sc (k / 4))).2).foldl (fun x y => x ||| y) 0)
    ∧ (∀ rm d a b (t p : BitVec 2), i = .vscl rm d a b t p →
        let r (k : Nat) : Nat × BitVec 6 := scaled rm (element 32 (vec a) k).toNat
          (byte (vec b) (8 * t.toNat + 2 * p.toNat + k / 4)).toNat
        fills 2 d (flags 8 r) fun v => ∀ k < 8, element 32 v k = BitVec.ofNat 32 (r k).1)
    ∧ (∀ d a (t p : BitVec 2), i = .vsauto d a t p →
        let sb (blk : Nat) : Nat := 8 * t.toNat + 2 * p.toNat + blk
        fills 2 d 0 fun v => (∀ blk < 2, byte v (sb blk) = BitVec.ofNat 8 (autoScale (s.tableFor i)
            ((List.range 4).map fun k => (element 32 (vec a) (4 * blk + k)).toNat)))
          ∧ ∀ j < 32, j ≠ sb 0 → j ≠ sb 1 → byte v j = byte (vec d) j)
    ∧ (∀ (mode : Rm) (sat : Bool) (dt st : FloatTy) (ity jty : IntTy) (a : Nat), a < 2 ^ 32 →
        let v := (fmtOf st).decode a
        let g := fmtOf dt
        (v.isFin → g.yields mode v.rat v.neg (convert (.flt dt) (.flt st) mode sat a))
        ∧ (∀ n, v = .inf n → convert (.flt dt) (.flt st) mode sat a = (g.inf n, 0))
        ∧ (v.isNan → convert (.flt dt) (.flt st) mode sat a = (g.qnan, if v.isSnan then 16 else 0))
        ∧ (a < 2 ^ ity.bits → g.yields mode (elemInt ity (BitVec.ofNat _ a)) false (convert (.flt dt) (.int ity) mode sat a))
        ∧ (v.isNan → convert (.int ity) (.flt st) mode sat a = (0, 16))
        ∧ (∀ n, v = .inf n → convert (.int ity) (.flt st) mode sat a =
            ((BitVec.ofInt ity.bits (if n then elemLow ity else elemHigh ity)).toNat, 16))
        ∧ (v.isFin → ∃ k : Nat, integerOf mode v.neg (fun t => t ≤ v.mag) (fun t => t < v.mag) k
          ∧ (let n : Int := if v.neg then -(k : Int) else k
             convert (.int ity) (.flt st) mode sat a =
              ((BitVec.ofInt ity.bits (elemClamp ity n)).toNat,
               if elemClamp ity n ≠ n then 16 else if (k : Rat) = v.mag then 0 else 1)))
        ∧ (a < 2 ^ jty.bits → let n := elemInt jty (BitVec.ofNat _ a)
          convert (.int ity) (.int jty) mode sat a =
            ((BitVec.ofInt ity.bits (if sat then elemClamp ity n else n)).toNat, if sat ∧ elemClamp ity n ≠ n then 32 else 0)))
    ∧ (∀ (t : BitVec 8192) (rm : Rm) (c sc x : Nat) (xs : List Nat), c < 256 → sc < 256 →
        let entry (k : Nat) : FVal := e8m10.decode ((t.extractLsb' (32 * k) 32).toNat / 2 ^ 13)
        let top : Rat := (tableMax t).1 * 2 ^ (tableMax t).2
        let v := fp32.decode x
        let y : Rat := v.mag * 2 ^ (127 - (sc : Int))
        let sign := if v.neg then 128 else 0
        let code (k : Nat) (P : Nat → Prop) : Prop := k < 128 ∧ P k ∧ ∀ j < 128, P j → k ≤ j ∧ k % 2 = j % 2 ∨ k % 2 < j % 2
        (sc = 255 ∨ (entry c).isNan → decodeC8 fp32 rm t c sc = (fp32.qnan, 0))
        ∧ (∀ n, sc ≠ 255 → entry c = .inf n → decodeC8 fp32 rm t c sc = (fp32.inf n, 0))
        ∧ (sc ≠ 255 → (entry c).isFin →
            fp32.yields rm ((entry c).rat * 2 ^ ((sc : Int) - 127)) (entry c).neg (decodeC8 fp32 rm t c sc))
        ∧ (∀ k < 128, (entry k).isFin → (entry k).mag ≤ top)
        ∧ ((∃ k < 128, (entry k).isFin) → ∃ k < 128, (entry k).isFin ∧ (entry k).mag = top)
        ∧ ((∃ y ∈ xs, (fp32.decode y).isNan) → autoScale t xs = 255)
        ∧ ((∀ y ∈ xs, (fp32.decode y).isNan = false) → (∃ y ∈ xs, (fp32.decode y).isInf) → autoScale t xs = 254)
        ∧ ((∀ y ∈ xs, (fp32.decode y).isFin) → autoScale t xs ≤ 254
          ∧ (autoScale t xs < 254 → ∀ y ∈ xs, (fp32.decode y).mag * 2 ^ (127 - (autoScale t xs : Int)) ≤ top)
          ∧ ∀ k < autoScale t xs, ∃ y ∈ xs, top < (fp32.decode y).mag * 2 ^ (127 - (k : Int)))
        ∧ (sc = 255 ∨ v.isNan → encodeC8 t x sc = (0, if v.isSnan then 16 else 0))
        ∧ (tableEncodable t → sc ≠ 255 → ∃ k,
            (v.isFin → y ≤ top → code k (fun j => (entry j).isFin ∧ ∀ i < 128, (entry i).isFin →
                apart (entry j).mag y ≤ apart (entry i).mag y)
              ∧ encodeC8 t x sc = (k + sign, if (entry k).mag = y then 0 else 1))
            ∧ (v.isFin ∧ top < y ∨ v.isInf ∧ (∀ j < 128, (entry j).isInf = false) →
              code k (fun j => (entry j).isFin ∧ (entry j).mag = top) ∧ encodeC8 t x sc = (k + sign, 5))
            ∧ (v.isInf → (∃ j < 128, (entry j).isInf) →
              (k < 128 ∧ (entry k).isInf ∧ ∀ j < k, (entry j).isInf = false) ∧ encodeC8 t x sc = (k + sign, 0))))

/-- The head of the vector queue starts in a cycle after its issue in which the engine is free, and completes three
cycles behind its busy ones: it fills its destinations and its flags reach `FEXC`. The A slice of an `mrot` goes to its core's W
neighbour, its B slice to the N neighbour, where a latch is empty, and leaves its exchange. The load of a decode bank leaves the table in it (R70, R157, R171,
R172, R178, R182). -/
def Obligations.EngineStepsFollowTheirOrder : Prop :=
  (∀ (s : State) (c : Nat) (x : VecCmd) (rest : List VecCmd), (s.core c).vecQ = x :: rest →
    (x.issued < s.clock → (s.core c).vecFree ≤ s.clock → exec (.vectorCommandStart c) s = .next (s.modCore c fun y =>
      { y with vecQ := rest, vecFree := s.clock + x.busy, vecRun := y.vecRun ++ [(s.clock + x.busy + 3, x)] }))
    ∧ (s.clock ≤ x.issued ∨ s.clock < (s.core c).vecFree → exec (.vectorCommandStart c) s = .next s))
  ∧ (∀ (s : State) (c at_ : Nat) (x : VecCmd) (rest : List (Nat × VecCmd)) (t : Thread), (s.core c).vecRun = (at_, x) :: rest →
      (s.clock < at_ → exec (.vectorComplete c) s = .next s)
      ∧ (∀ d v, at_ ≤ s.clock → tget s.threads x.tid = some t → x.dsts = [(d, v)] → t.regs.fullDst d = false → x.unit = none →
          t.undo = none → exec (.vectorComplete c) s = .next { s.modCore c fun y => { y with vecRun := rest } with
            threads := tput s.threads x.tid { t with
              regs := t.regs.setDst d v, fexc := t.fexc ||| x.flags
              due := t.due ++ if x.flags &&& t.ftrap = 0 then [] else [.trap (.float x.flags) x.pc x.order] } }))
  ∧ (∀ (s : State) (c : Nat) (isB : Bool) (x : MatCmd) (rest : List MatCmd) (a b : Bool),
      let dir := if isB then 0 else 3
      (∀ o ∈ s.sendersTo c dir, s.neighbour o dir = c)
      ∧ ∀ src ∈ s.sendersTo c dir, let y := s.core src
      src ≠ c → (if isB then (s.core c).incB else (s.core c).incA) = none → s.laneFailed src dir = false →
      (∀ o ∈ s.sendersTo c dir, o ≠ src → s.laneFailed o dir = true ∨ s.sending o isB = none) → y.matQ = x :: rest → x.phase = .exchange a b →
      (if isB then b else a) → x.start.getD s.clock + 6 ≤ s.clock → exec (.mrotSliceArrive c isB) s =
        .next ((s.modCore c fun z => if isB then { z with incB := some y.curB } else { z with incA := some y.curA }).modCore
          src fun z => z.modMat x.num fun m => { m with phase := match m.phase with
            | .exchange a b => if isB then .exchange a false else .exchange false b
            | p => p }))
  ∧ ∀ (s : State) (c : Nat) (bank : Bool) (tid lid : Nat) (asid : BitVec 12) (f : Word) (l : Launch),
      let k := if bank then 1 else 0
      (∀ h : k < 2, ((s.core c).banks[k]).loading = some (tid, asid, f)) → s.launchOn c = some (lid, l) →
      tget s.launches lid = some l → c < channelBase → isLocal f → namedCore l c f = c → outOfRange l f 1024 = false →
      l.lmHi ≤ 65536 → f.toNat % 32 = 0 → (∀ j < 32, s.sound (localKeyOf l c f + 32 * j) 32) →
      let table := BitVec.ofNat 8192 (readLE s.mem (localKeyOf l c f) 1024)
      let loaded : Bank := { table := table, tag := some (asid, f), encodable := tableEncodable table, loading := none,
                             walk := none }
      ∃ u, exec (.bankLoad c bank) s = .next u ∧ u = { s with cores := u.cores, launches := u.launches }
        ∧ (∀ h : k < 2, u.core c = { s.core c with banks := (s.core c).banks.set k loaded h })
        ∧ tget u.launches lid = some { l with tables := if table ∈ l.tables then l.tables else l.tables ++ [table] }

/-- A matrix command enters its engine's queue, which holds its thread; `mtab` reads whether the thread's bank can
encode (R156, R174, R175, R177 to R181). -/
def Obligations.MatrixCommandsHoldTheirThread : Prop :=
  ∀ (s : State) (a b : Reg) (d n m : BitVec 3) (rm : Rm) (fmt : MatFmt) (sat : Bool) (k : BitVec 6) (p : BitVec 3) (i : Instr),
    s.issues .lone i →
    (∀ op,
      (i = .mma d a b fmt sat k ∧ op = .mma d.toNat (s.value a) (s.value b) fmt sat (k.toNat + 1)
        ∨ i = .mrot d fmt sat ∧ op = .rot d.toNat none fmt sat
        ∨ i = .mrotMem d a b fmt sat ∧ op = .rot d.toNat (some (s.value a, s.value b)) fmt sat
        ∨ i = .mzero d ∧ op = .zero d.toNat
        ∨ i = .mmovF32Store a n ∧ op = .store (s.value a) n.toNat .f32 .rn
        ∨ i = .mmovBf16Store a n rm ∧ op = .store (s.value a) n.toNat .bf16 rm
        ∨ i = .mmovF16Store a n rm ∧ op = .store (s.value a) n.toNat .f16 rm
        ∨ i = .mmovF32Load d a ∧ op = .load d.toNat (s.value a)) →
      ∃ c, exec i s = .next (s.matQueued i op s.me.regs c))
    ∧ (∀ op,
      (i = .mmovF32ToV d n m ∧ op = .toV d.toNat n.toNat m.toNat .f32 .rn
        ∨ i = .mmovBf16ToV d n m rm ∧ op = .toV d.toNat n.toNat m.toNat .bf16 rm
        ∨ i = .mmovF16ToV d n m rm ∧ op = .toV d.toNat n.toNat m.toNat .f16 rm) →
      ∃ c, exec i s = .next (s.matQueued i op (s.me.regs.emptyV d.toNat) c))
    ∧ (i = .mtab p → ∃ c, exec i s =
        .next (s.judged i p (s.myCore.banks.toList.getD ((s.bankSought i).getD 0) Bank.empty).encodable c))

/-- The command at the head of the matrix queue completes four cycles behind its last busy one, its flags are recorded, and
its thread goes on: `mzero` leaves zeros, `mma` the sums of its steps, in order, a load the 256 bytes at its address, a store
the elements in those bytes, `mmov` to a register one row or two, raw or rounded once. An `mrot` first makes its product
step, of its latches or of the slices it names in memory, then exchanges its slices, and then completes; that operands are read at
completion, and by an `mrot` at its product step, is the model's choice (notes/assumptions/19). An integer product step adds to
each element the exact sum of products of a row and a column, modulo 2^32 or clamped with `sv`; a float one gives each
element its group's sum, in a window of 28 bits behind the largest term, rounded once; C8 elements are decoded with the
scales of their slice (R80 to R82, R175, R177 to R182). -/
def Obligations.MatrixCommandsComplete : Prop :=
  (∀ (s : State) (c : Nat) (x : MatCmd) (rest : List MatCmd) (last : Nat) (t : Thread), (s.core c).matQ = x :: rest →
    x.phase = .queued → x.last = some last → last + 4 ≤ s.clock → tget s.threads x.tid = some t →
    t.wait = some (.matrix x.num) → t.gang = false → c < channelBase →
    let l := s.launchOf t
    l.lmHi ≤ 65536 →
    let here (a : Word) (n : Nat) : Prop := isLocal a ∧ namedCore l c a = c ∧ outOfRange l a n = false ∧ a.toNat % 32 = 0
      ∧ ∀ j, 32 * j < n → s.sound (localKeyOf l c a + 32 * j) 32
    let on (fl : BitVec 6) (t : Thread) : Thread := { t with
      wait := none, outst := none, undo := none, retries := 0, fexc := t.fexc ||| fl
      due := t.due ++ if fl &&& t.ftrap = 0 then [] else [.trap (.float fl) x.pc x.order] }
    let leaves (u : State) : State := u.modCore c fun y => y.removeMat x.num (last + 1)
    let acc (v : BitVec 2048) (u : State) : State := u.modCore c fun y => y.setAcc (x.op.writesAcc.getD 0) v
    let s' (fl : BitVec 6) : State := { s with threads := tput s.threads x.tid (on fl t) }
    let elem (n k : Nat) : Nat := (((s.core c).acc n).extractLsb' (32 * k) 32).toNat
    let moved (ty : FloatTy) (rm : Rm) (y : Nat) : Nat × BitVec 6 :=
      if ty = .f32 then (y, 0) else convert (.flt ty) (.flt .f32) rm false y
    let flags (n : Nat) (r : Nat → Nat × BitVec 6) : BitVec 6 := ((List.range n).map r).foldl (fun fl p => fl ||| p.2) 0
    (∀ d, x.op = .zero d → exec (.matrixComplete c) s = .next (leaves (acc 0 (s' 0))))
    ∧ (∀ d a b f sat n, x.op = .mma d a b f sat n → 0 < n → here a (matSize f * n) → here b (matSize f * n) →
        let steps := s.mmaSteps l c f sat ((s.core c).tableOf x.bank) a b n 0 ((s.core c).acc d, 0)
        exec (.matrixComplete c) s = .next (leaves ((acc steps.1 (s' steps.2)).modCore c fun y => { y with
          curA := s.slice l c f a (n - 1), curB := s.slice l c f b (n - 1) })))
    ∧ (∀ f sat tab a b n k (y : BitVec 2048 × BitVec 6), s.mmaSteps l c f sat tab a b 0 k y = y
        ∧ (let r := productStep f sat tab y.1 (s.slice l c f a k) (s.slice l c f b k)
           s.mmaSteps l c f sat tab a b (n + 1) k y = s.mmaSteps l c f sat tab a b n (k + 1) (r.1, y.2 ||| r.2))
        ∧ (here a (matSize f * (k + 1)) → ∀ j < matSize f, (s.slice l c f a k).extractLsb' (8 * j) 8 =
            readByte s.mem (localKeyOf l c a + matSize f * k + j)))
    ∧ (∀ d a, x.op = .load d a → here a 256 → ∃ v, exec (.matrixComplete c) s = .next (leaves (acc v (s' 0)))
        ∧ ∀ k < 8, v.extractLsb' (256 * k) 256 = BitVec.ofNat 256 (readLE s.mem (localKeyOf l c a + 32 * k) 32))
    ∧ (∀ a n ty rm, x.op = .store a n ty rm → here a (8 * ty.bits) →
        let r (k : Nat) : Nat × BitVec 6 := moved ty rm (elem n k)
        ∃ m, exec (.matrixComplete c) s = .next { leaves (s' (flags 64 r)) with mem := m }
          ∧ (∀ k < 64, readLE m (localKeyOf l c a + k * ty.bits / 8) (ty.bits / 8) = (r k).1 % 2 ^ ty.bits)
          ∧ ∀ j, (j < localKeyOf l c a ∨ localKeyOf l c a + 8 * ty.bits ≤ j) → readByte m j = readByte s.mem j)
    ∧ (∀ d n row ty rm, x.op = .toV d n row ty rm → d < 8 → row < 8 → t.regs.fullDst (32 + d) = false →
        let r (k : Nat) : Nat × BitVec 6 := moved ty rm (elem n (8 * row + k))
        ∃ v, exec (.matrixComplete c) s = .next (leaves { s with
            threads := tput s.threads x.tid (on (flags (256 / ty.bits) r) { t with regs := t.regs.setDst (32 + d) v }) })
          ∧ ∀ k < 256 / ty.bits, element ty.bits v k = BitVec.ofNat ty.bits (r k).1))
  ∧ (∀ (s : State) (c : Nat) (x : MatCmd) (rest : List MatCmd) (d st : Nat) (f : MatFmt) (sat : Bool),
      (s.core c).matQ = x :: rest → x.op = .rot d none f sat → x.start = some st →
      (x.phase = .queued → st < s.clock →
        let r := productStep f sat ((s.core c).tableOf x.bank) ((s.core c).acc d) (s.core c).curA (s.core c).curB
        exec (.matrixComplete c) s = .next (s.modCore c fun y => (y.setAcc d r.1).modMat x.num fun m =>
          { m with phase := .exchange true true, flags := r.2 }))
      ∧ (s.clock ≤ st → x.phase = .queued → exec (.matrixComplete c) s = .next s)
      ∧ (∀ a b, x.phase = .exchange false false → (s.core c).incA = some a → (s.core c).incB = some b →
        exec (.matrixComplete c) s = .next (s.modCore c fun y => ({ y with
          curA := a, curB := b, incA := none, incB := none } : Core).modMat x.num fun m =>
            { m with phase := .ending, last := some s.clock })))
  ∧ (∀ (s : State) (c : Nat) (x : MatCmd) (rest : List MatCmd) (d st : Nat) (a b : Word) (f : MatFmt) (sat : Bool) (t : Thread),
      (s.core c).matQ = x :: rest → x.op = .rot d (some (a, b)) f sat → x.start = some st → x.phase = .queued → st < s.clock →
      tget s.threads x.tid = some t → c < channelBase →
      let l := s.launchOf t
      let here (y : Word) : Prop := isLocal y ∧ namedCore l c y = c ∧ outOfRange l y (matSize f) = false ∧ y.toNat % 32 = 0
        ∧ ∀ j, 32 * j < matSize f → s.sound (localKeyOf l c y + 32 * j) 32
      l.lmHi ≤ 65536 → here a → here b →
      let sa := s.slice l c f a 0; let sb := s.slice l c f b 0
      let r := productStep f sat ((s.core c).tableOf x.bank) ((s.core c).acc d) sa sb
      exec (.matrixComplete c) s = .next (s.modCore c fun y => ({ y.setAcc d r.1 with curA := sa, curB := sb } : Core).modMat
        x.num fun m => { m with phase := .exchange true true, flags := r.2 }))
  ∧ (∀ (s : State) (c : Nat) (x : MatCmd) (rest : List MatCmd) (last : Nat) (t : Thread), (s.core c).matQ = x :: rest →
      x.phase = .ending → x.last = some last → tget s.threads x.tid = some t → t.wait = some (.matrix x.num) →
      (s.clock < last + 4 → exec (.matrixComplete c) s = .next s)
      ∧ (last + 4 ≤ s.clock → exec (.matrixComplete c) s = .next { s.modCore c (fun y => y.removeMat x.num (last + 1)) with
          threads := tput s.threads x.tid { t with
            wait := none, outst := none, undo := none, retries := 0, fexc := t.fexc ||| x.flags
            due := t.due ++ if x.flags &&& t.ftrap = 0 then [] else [.trap (.float x.flags) x.pc x.order] } }))
  ∧ (∀ (t : BitVec 8192) (acc : BitVec 2048) (a b : BitVec 1280) (sat : Bool) (f : MatFmt) (ty : IntTy),
      (f = .i8 ∧ ty = .i8 ∨ f = .n8 ∧ ty = .n8) →
      let r := productStep f sat t acc a b
      let sum (i j : Nat) : Int := elemInt .i32 (acc.extractLsb' (32 * (8 * i + j)) 32)
        + ((List.range 16).map fun k => (if ty = .i8 then (a.extractLsb' (8 * (16 * i + k)) 8).toInt * (b.extractLsb' (8 * (16 * j + k)) 8).toInt
            else ((a.extractLsb' (8 * (16 * i + k)) 8).toNat : Int) * (b.extractLsb' (8 * (16 * j + k)) 8).toNat)).sum
      (∀ i < 8, ∀ j < 8, r.1.extractLsb' (32 * (8 * i + j)) 32 =
        BitVec.ofInt 32 (if sat then elemClamp .i32 (sum i j) else sum i j))
      ∧ ((∃ i < 8, ∃ j < 8, elemClamp .i32 (sum i j) ≠ sum i j) → r.2 = if sat then 32 else 0)
      ∧ ((∀ i < 8, ∀ j < 8, elemClamp .i32 (sum i j) = sum i j) → r.2 = 0))
  ∧ (∀ (t : BitVec 8192) (acc : BitVec 2048) (a b : BitVec 1280) (sat : Bool) (f : MatFmt), f ≠ .i8 → f ≠ .n8 →
      let code (x : BitVec 1280) (i k : Nat) : Nat × BitVec 6 := decodeC8 fp32 .rn t
        (x.extractLsb' (8 * (16 * i + k)) 8).toNat (x.extractLsb' (8 * (128 + 4 * i + k / 4)) 8).toNat
      let val (x : BitVec 1280) (i k : Nat) : FVal :=
        match f with
        | .f16 => fp16.decode (x.extractLsb' (8 * (16 * i + 2 * k)) 16).toNat
        | .bf16 => bf16.decode (x.extractLsb' (8 * (16 * i + 2 * k)) 16).toNat
        | _ => fp32.decode (code x i k).1
      let sum (i j : Nat) : Nat × BitVec 6 := groupSum (acc.extractLsb' (32 * (8 * i + j)) 32).toNat
        ((List.range (if f = .c8 then 16 else 8)).map fun k => (val a i k, val b j k))
      let r := productStep f sat t acc a b
      (∀ i < 8, ∀ j < 8, r.1.extractLsb' (32 * (8 * i + j)) 32 = BitVec.ofNat 32 (sum i j).1)
      ∧ (r.2.getLsbD 4 = true ↔ ∃ i < 8, ∃ j < 8, (sum i j).2.getLsbD 4 = true)
      ∧ (r.2.getLsbD 2 = true ↔ (∃ i < 8, ∃ j < 8, (sum i j).2.getLsbD 2 = true)
          ∨ f = .c8 ∧ ∃ i < 8, ∃ k < 16, (code a i k).2.getLsbD 2 = true ∨ (code b i k).2.getLsbD 2 = true)
      ∧ r.2 &&& 0x2B = 0)
  ∧ ∀ (acc : Nat) (ps : List (FVal × FVal)),
      let x := fp32.decode acc
      let zeroInf (p : FVal × FVal) : Prop := p.1.isInf ∧ p.2.isFin ∧ p.2.mag = 0 ∨ p.2.isInf ∧ p.1.isFin ∧ p.1.mag = 0
      let infOf (n : Bool) (p : FVal × FVal) : Prop :=
        (p.1.isInf ∨ p.2.isInf) ∧ p.1.isNan = false ∧ p.2.isNan = false ∧ ¬ zeroInf p ∧ (p.1.neg != p.2.neg) = n
      let someInf (n : Bool) : Prop := x = .inf n ∨ ∃ p ∈ ps, infOf n p
      let invalid : Prop := x.isSnan ∨ (∃ p ∈ ps, p.1.isSnan ∨ p.2.isSnan ∨ p.1.isNan = false ∧ p.2.isNan = false ∧ zeroInf p)
        ∨ someInf true ∧ someInf false
      let noNumber : Prop := x.isNan ∨ (∃ p ∈ ps, p.1.isNan ∨ p.2.isNan) ∨ invalid
      (invalid → groupSum acc ps = (0x7FC00000, 16))
      ∧ (noNumber → ¬ invalid → groupSum acc ps = (0x7FC00000, 0))
      ∧ (∀ n, ¬ noNumber → someInf n → groupSum acc ps = (fp32.inf n, 0))
      ∧ (x.isFin → (∀ p ∈ ps, p.1.isFin ∧ p.2.isFin) →
        let ts := x.rat :: ps.map fun p => p.1.rat * p.2.rat
        ((∀ y ∈ ts, y = 0) → groupSum acc ps = (fp32.zero (x.neg && ps.all fun p => p.1.neg != p.2.neg), 0))
        ∧ ∀ e : Int, (∃ y ∈ ts, 2 ^ e ≤ apart y 0) → (∀ y ∈ ts, apart y 0 < 2 ^ (e + 1)) →
          let q : Rat := 2 ^ (e - 27)
          let cut (y : Rat) : Rat := if y < 0 then -(((-y) / q).floor * q) else (y / q).floor * q
          let sum := (ts.map cut).sum
          (sum = 0 → groupSum acc ps = (fp32.zero false, 0))
          ∧ (sum ≠ 0 → ∃ r, fp32.roundsTo .rn (decide (sum < 0)) (apart sum 0) r ∧ groupSum acc ps = (r.1, r.2 &&& 4)))

/-- `cpy` clears its tag and queues its layout record behind the posted accesses of its slot; `cwait` goes on when
every tag of its mask is ready; `cany` and `cfirst` give the lowest ready tag of their mask, or 64. The copy engine
accepts the oldest command while fewer than 512 are in flight, reads an element and then writes it, one access a
cycle; beyond the tensor an element is not read but takes the fill, or is not written. An access out of range reads zero or
writes nothing, and is noted; one that faults stops its copy; one that needs a walk waits for it, and one to the local memory
of a core whose porter is at work waits for the porter; one that injections held on the die, or an earlier request on its way,
keep from leaving waits, too (R233, R293). A copy ends when its elements are all
done; its tag is ready when no other copy has it (R52, R57, R186 to R190, R310). -/
def Obligations.CopiesMoveTheirElements : Prop :=
  (∀ (s : State) (t : BitVec 6) (vf : BitVec 3), s.issues .lone (.cpy t vf) →
    ∃ x, exec (.cpy t vf) s = .next ((s.modCore s.ctx.core fun c => { c with
      tags := c.tags &&& ~~~(1#64 <<< t.toNat), copyNum := c.copyNum + 1
      copyQ := c.copyQ ++ [{
        num := c.copyNum, words := layoutWords (s.me.regs.getV vf) (s.me.regs.getV (vf + 1)) (s.me.regs.getV (vf + 2)),
        tag := t, tid := s.ctx.tid, launch := s.me.launch, pc := s.me.pc, issued := s.clock,
        waits := ((s.sqOf s.ctx.core s.ctx.slot).filter fun p => p.2.state == .inFlight).map Prod.fst, vals := [],
        done := [], failed := false, walk := none }] }).wentTo (.cpy t vf) (s.me.pc + 8) x))
  ∧ (∀ (s : State) (a : Reg), s.issues .lone (.cwait a) → s.myCore.tags &&& s.value a = s.value a
      ∧ ∃ x, exec (.cwait a) s = .next (s.wentTo (.cwait a) (s.me.pc + 8) x))
  ∧ (∀ (s : State) (d a : Reg) (i : Instr) (v : Word), (i = .cany d a ∨ i = .cfirst d a) → s.issues .lone i →
      (let m := s.myCore.tags &&& s.value a
       m = 0 ∧ v = 64 ∨ v.toNat < 64 ∧ m.getLsbD v.toNat ∧ ∀ j < v.toNat, m.getLsbD j = false) →
      ∃ x, exec i s = .next (s.wrote i d v 0 x))
  ∧ (∀ (s : State) (c : Nat) (x : Copy) (rest : List Copy), (s.core c).copyQ = x :: rest →
      (x.issued < s.clock → (s.core c).copies.length < 512 → exec (.copyAccept c) s = .next (s.modCore c fun y =>
        { y with copyQ := rest, copies := y.copies ++ [x] }))
      ∧ (s.clock ≤ x.issued ∨ 512 ≤ (s.core c).copies.length → exec (.copyAccept c) s = .next s))
  ∧ (∀ (s : State) (c n lin : Nat) (x : Copy) (lid : Nat) (l : Launch),
      ((s.core c).copies.find? fun y => y.num == n) = some x → s.launchOn c = some (lid, l) → x.failed = false →
      (∀ e ∈ x.waits, ∀ y, tget s.sq e = some y → y.state ≠ .inFlight) → lin < 65536 → lin ∉ x.done →
      (s.core c).copyFree ≤ s.clock →
      let r := Layout.ofWords x.words
      let w := typeBytes r.fmt
      let src := r.source lin; let tgt := r.target lin
      let busy (u : State) : State := u.modCore c fun y => { y with copyFree := s.clock + 1 }
      let change (f : Copy → Copy) (u : State) : State := u.modCore c fun y => { y with
        copies := y.copies.map fun z => if z.num = n then f z else z }
      let noted (a : Word) (u : State) : State := u.modThread x.tid fun t => if t.lmflt then t else { t with lmflt := true, lmaddr := a }
      let fails (cause : Nat) : Prop := exec (.copyAccess c n lin) s = .next (busy (s.copyFail l c x lin cause))
      let written (z : Copy) : Copy := { z with vals := z.vals.filter fun p => p.1 != lin, done := sadd z.done lin }
      lin < r.area →
      (r.inside lin = false → r.dir → exec (.copyAccess c n lin) s = .next (change (fun z => { z with done := sadd z.done lin }) s))
      ∧ (r.inside lin → tget x.vals lin = none →
        (∀ key, s.engineReach l c src w .rd x.walk = .key key → s.sound key w → src.toNat % 32 ≤ key →
          exec (.copyAccess c n lin) s = .next (busy (change (fun z => { z with
            vals := tput z.vals lin (BitVec.ofNat 64 (readLE s.mem key w)) }) s)))
        ∧ (s.engineReach l c src w .rd x.walk = .out → exec (.copyAccess c n lin) s =
            .next (busy (change (fun z => { z with vals := tput z.vals lin 0 }) (noted src s))))
        ∧ (∀ f, s.engineReach l c src w .rd x.walk = .fault f → fails f.cause)
        ∧ (∀ page, s.engineReach l c src w .rd x.walk = .walk page → s.copyWalk l c n page ≠ s →
            exec (.copyAccess c n lin) s = .next (busy (s.copyWalk l c n page)))
        ∧ (s.engineReach l c src w .rd x.walk = .busy → exec (.copyAccess c n lin) s = .next s))
      ∧ (∀ v : Word, (r.inside lin = true ∧ tget x.vals lin = some v ∨ r.inside lin = false ∧ r.dir = false ∧ v = BitVec.ofNat 64 r.fill) →
        (∀ key, s.engineReach l c tgt w .w x.walk = .key key → s.sound key w → tgt.toNat % 32 ≤ key →
          exec (.copyAccess c n lin) s = .next (busy (change written { s with mem := writeLE s.mem key w v.toNat })))
        ∧ (s.engineReach l c tgt w .w x.walk = .out →
            exec (.copyAccess c n lin) s = .next (busy (change written (noted tgt s))))
        ∧ (∀ f, s.engineReach l c tgt w .w x.walk = .fault f → fails f.cause)
        ∧ (s.engineReach l c tgt w .w x.walk = .busy → exec (.copyAccess c n lin) s = .next s)))
  ∧ (∀ (s : State) (l : Launch) (c n : Nat) (a : Word) (p : Perm) (walk : Option EngineWalk), isLocal a →
      (outOfRange l a n → s.engineReach l c a n p walk = .out)
      ∧ (let key := localKeyOf l c a
         outOfRange l a n = false → s.engineRoute l c (homeOf key) a = none → localBase ≤ key →
          (homeOf key ≠ c → (s.slot (homeOf key) 15).isFree = false → s.engineReach l c a n p walk = .busy)
          ∧ (s.engineHeld l c (homeOf key) → s.engineReach l c a n p walk = .busy)
          ∧ ((homeOf key = c ∨ (s.slot (homeOf key) 15).isFree) → s.bankOpen key → s.engineHeld l c (homeOf key) = false →
              s.engineReach l c a n p walk = .key key)))
  ∧ ∀ (s : State) (c n : Nat) (x : Copy), ((s.core c).copies.find? fun y => y.num == n) = some x →
      (x.failed = false → x.done.length < (Layout.ofWords x.words).area → exec (.copyEnd c n) s = .next s)
      ∧ ((x.failed ∨ (Layout.ofWords x.words).area ≤ x.done.length) →
        let left := (s.core c).copies.filter fun y => y.num != n
        let u := s.modCore c fun y => { y with copies := left }
        ((∃ y ∈ (s.core c).copyQ ++ left, y.tag = x.tag) → exec (.copyEnd c n) s = .next u)
        ∧ ((∀ y ∈ (s.core c).copyQ ++ left, y.tag ≠ x.tag) → exec (.copyEnd c n) s =
          .next ((u.modCore c fun y => { y with tags := y.tags ||| (1#64 <<< x.tag.toNat) }).signal c)))

/-! ### The service cores, the host and the world outside -/

/-- A completion word holds result, command id and status in the host's memory. While the device is held in reset,
or has no power, a command does nothing; an unknown one gets status 2. Identify writes its 64 bytes; a sensor
reading 64 bytes that are not given; the root table, and a scrubber's period between 3,600 and 604,800 seconds, are
set; the certificate is given out; an attestation report holds its magic and version, `asid`, `CLOCK`, the number of
decode tables, the nonce and the digest of the launch record. A submission entry names its opcode, command id, arguments and
completion word; a command waits for those of its service core that came before it (R4, R241, R317 to R321, R330, R339, R341).
That a reading is 64 bytes, the nonce's byte
order, and what a command does in reset are the model's choices (notes/assumptions/28, 30 and 31). -/
def Obligations.CommandsAreAnsweredInHostMemory : Prop :=
  ∀ (s : State) (c : Cmd),
    (∀ status result a, status < 2 ^ 16 → result < 2 ^ 32 →
      let v : Word := BitVec.ofNat 64 (result * 2 ^ 32 + c.cid.toNat * 2 ^ 16 + status)
      (s.complete c status result).hostByte a =
        if c.cw ≤ a ∧ a < c.cw + 8 then v.extractLsb' (8 * (a - c.cw)) 8 else s.hostByte a)
    ∧ (s.halted ∨ s.unpowered → exec (.invalidEntry c) s = .next s)
    ∧ (s.hears c → exec (.invalidEntry c) s = .next (s.complete c 2)
      ∧ (∀ a, exec (.setRootTableAddress c a) s = .next (({ s with rootTable := a } : State).complete c 0))
      ∧ (∀ stack period, ∀ h : stack < 8, 3600 ≤ period → period ≤ 604800 → exec (.scrubberControl c stack period) s =
          .next (({ s with scrubPeriod := s.scrubPeriod.set stack period h, scrubBase := s.scrubBase.set stack s.clock h,
                           scrubNext := s.scrubNext.set stack 0 h, hotNext := s.hotNext.set stack 0 h } : State).complete c 0))
      ∧ (∀ ws, (ws.getD 0 0).extractLsb' 16 16 = c.cid → (ws.getD 7 0).toNat = c.cw →
        let w (i : Nat) : Word := ws.getD i 0
        let op := (w 0).toNat % 2 ^ 16
        ((w 0).toNat / 2 ^ 32 ≠ 0 → decodeEntry c.sc ws = .invalidEntry c)
        ∧ ((w 0).toNat / 2 ^ 32 = 0 →
          (op = 0x20 → decodeEntry c.sc ws = .writeDeviceMemory c (w 1).toNat (w 2).toNat (w 3).toNat (w 4))
          ∧ (op = 0x21 → decodeEntry c.sc ws = .readDeviceMemory c (w 1).toNat (w 2).toNat (w 3).toNat (w 4))
          ∧ (decodeEntry c.sc ws = .invalidEntry c ∨ opcodeOf (decodeEntry c.sc ws) = some op ∧ hostCmd (decodeEntry c.sc ws) = some c))
        ∧ ∀ rest, s.plan = .entry c.sc ws :: rest → s.turn = [] →
          let t : State := { s with plan := rest }
          let i := decodeEntry c.sc ws
          let earlier := s.busyWith c.sc ∨ ∃ p ∈ s.queue, ∃ d, hostCmd p.2 = some d ∧ d.sc = c.sc
          (¬ earlier → step s = exec i t)
          ∧ (earlier → step s = .next { t with queue := s.queue ++ [(s.nextId, i)], nextId := s.nextId + 1 }))
      ∧ (∀ buf, ∃ (u : State), exec (.identify c buf) s = .next (u.complete c 0)
        ∧ u = { s with hostMem := u.hostMem } ∧ s.hostKept u buf 64
        ∧ ∀ k < 8, ∀ j < 8,
          let w : Word :=
            if k = 0 then BitVec.ofNat 64 (s.streets.present.toNat * 2 ^ 16 + 1)
            else if h : k - 1 < 4 then BitVec.ofNat 64 s.ringAddr[k - 1]
            else if k = 5 then BitVec.ofNat 64 s.smapAddr else 0
          u.hostByte (buf + 8 * k + j) = w.extractLsb' (8 * j) 8)
      ∧ (∀ buf, ∃ (u : State), exec (.readSensors c buf) s = .next (u.complete c 0)
        ∧ u = { s with hostMem := u.hostMem, free := s.free + 1 } ∧ s.hostKept u buf 64)
      ∧ (∀ buf, ∃ (u : State), exec (.readCertificate c buf) s = .next (u.complete c 0)
        ∧ u = { s with hostMem := u.hostMem } ∧ s.hostKept u buf Config.certificateLength
        ∧ ∀ j < Config.certificateLength, u.hostByte (buf + j) = Config.certificateByte j)
      ∧ ∀ lid nonce buf,
        (tget s.launches lid = none → exec (.attest c lid nonce buf) s = .next (s.complete c 1))
        ∧ ∀ l, tget s.launches lid = some l → ∃ (u : State), exec (.attest c lid nonce buf) s = .next (u.complete c 0)
          ∧ u = { s with hostMem := u.hostMem, free := s.free + 1 } ∧ s.hostKept u buf 432
          ∧ (∀ j < 8, u.hostByte (buf + j) = (0x153545441#64).extractLsb' (8 * j) 8
            ∧ u.hostByte (buf + 8 + j) = ((l.asid.setWidth 64).extractLsb' (8 * j) 8 : Byte)
            ∧ u.hostByte (buf + 16 + j) = (BitVec.ofNat 64 s.clock).extractLsb' (8 * j) 8
            ∧ u.hostByte (buf + 24 + j) = (BitVec.ofNat 64 l.tables.length).extractLsb' (8 * j) 8)
          ∧ (∀ j < 64, u.hostByte (buf + 0x20 + j) = nonce.extractLsb' (8 * (63 - j)) 8
            ∧ u.hostByte (buf + 0xA0 + j) = (sha512 (l.words.flatMap wordBytes)).extractLsb' (8 * (63 - j)) 8)
          ∧ ∀ j < 12, u.hostByte (buf + 0x1A4 + j) = 0)

/-- Device memory is written word by word with the full/empty state its `femode` names, a whole atom with fresh ECC,
and read with its full/empty bits; arguments that are no multiples of 8 or an `femode` that is not given get status
2 (R339). A root entry is stored; invalidation drops what its control word covers in every translation unit, the Hampers'
too, and no line of code, and a walk that is under way for it begins again; a patch entry is installed where R331 allows it; a
command whose bank an alert holds waits; a read lets barriers go that awaited it (R109, R232, R305, R311, R321, R331, R333).
Which
status a bad argument gets is the model's reading where R339 names none (notes/assumptions/28), and so is it that entries of
the other page size stay (notes/assumptions/12). -/
def Obligations.DeviceMemoryCommandsReachTheirWords : Prop :=
  ∀ (s : State) (c : Cmd), s.hears c →
    (∀ dev host len w4, (dev % 8 ≠ 0 ∨ len % 8 ≠ 0 ∨ len < 8) →
      exec (.writeDeviceMemory c dev host len w4) s = .next (s.complete c 2)
      ∧ exec (.readDeviceMemory c dev host len w4) s = .next (s.complete c 2).openHostBars)
    ∧ (∀ dev host len w4, dev % 8 = 0 → len % 8 = 0 → 8 ≤ len → dev + len ≤ hbmEnd → s.rangeOpen dev len = false →
      let waiting (i : Instr) : State := { s with queue := s.queue ++ [(s.nextId, i)], nextId := s.nextId + 1 }
      (w4.toNat < 3 → exec (.writeDeviceMemory c dev host len w4) s = .next (waiting (.writeDeviceMemory c dev host len w4)))
      ∧ (w4.toNat < 2 → exec (.readDeviceMemory c dev host len w4) s =
          .next (waiting (.readDeviceMemory c dev host len w4)).openHostBars))
    ∧ (∀ dev host w4, dev % 8 = 0 → dev + 8 ≤ hbmEnd → s.rangeOpen dev 8 →
      (3 ≤ w4.toNat → exec (.writeDeviceMemory c dev host 8 w4) s = .next (s.complete c 2))
      ∧ (2 ≤ w4.toNat → exec (.readDeviceMemory c dev host 8 w4) s = .next (s.complete c 2).openHostBars)
      ∧ (w4.toNat < 3 → s.isBad dev 8 → exec (.writeDeviceMemory c dev host 8 w4) s =
          .next ((s.uncorrected dev).complete c 1 0))
      ∧ (w4.toNat < 3 → s.sound dev 8 → s.unwatched dev → ∃ m, exec (.writeDeviceMemory c dev host 8 w4) s =
          .next (({ s with mem := m, empt := if w4 = 0 then sdel s.empt (dev / 8) else if w4 = 1 then sadd s.empt (dev / 8)
                                             else s.empt } : State).complete c 0)
          ∧ ∀ a, readByte m a = if dev ≤ a ∧ a < dev + 8 then s.hostByte (host + (a - dev)) else readByte s.mem a))
    ∧ (∀ dev host, dev % 32 = 0 → dev + 32 ≤ hbmEnd → s.rangeOpen dev 32 → ∃ m, exec (.writeDeviceMemory c dev host 32 2) s =
          .next (({ s.healed dev 32 with mem := m } : State).complete c 0)
          ∧ ∀ a, readByte m a = if dev ≤ a ∧ a < dev + 32 then s.hostByte (host + (a - dev)) else readByte s.mem a)
    ∧ (∀ dev host len w4, dev % 8 = 0 → len % 8 = 0 → 8 ≤ len → dev + len ≤ hbmEnd → w4.toNat < 2 →
        s.rangeOpen dev len → (∀ i, 8 * i < len → s.sound (dev + 8 * i) 8) → ∃ (u : State),
          exec (.readDeviceMemory c dev host len w4) s = .next (u.complete c 0).openHostBars
          ∧ u = { s with hostMem := u.hostMem }
          ∧ (∀ j < len, u.hostByte (host + j) = readByte s.mem (dev + j))
          ∧ (w4 = 0 → s.hostKept u host len)
          ∧ (w4 = 1 → ∀ i, 8 * i < len →
              (u.hostByte (host + len + i / 8)).getLsbD (i % 8) = s.isFull (dev + 8 * i)))
    ∧ (∀ asid e, let key := s.rootTable.toNat + 8 * asid.toNat
        e.extractLsb' 1 11 = 0 → e.extractLsb' 48 16 = 0 → physOk key → s.bankOpen key → s.sound key 8 →
        exec (.writeRootEntry c asid e) s = .next ((s.storeWord key e).complete c 0))
    ∧ (∀ asid page ctl, ctl.toNat % 4 ≤ 1 → ctl.extractLsb' 2 2 = 0 → ctl.extractLsb' 6 58 = 0 →
        let va := page.toNat
        let covers (page64 : Nat) : Prop := if ctl.getLsbD 4 then page64 / 512 = va / 2 ^ 25 else page64 = va / 65536
        let keeps (x y : List Trans) : Prop := ∀ t, t ∈ y ↔ t ∈ x
          ∧ ¬ (t.asid = asid ∧ (ctl.getLsbD 5 ∨ t.big = ctl.getLsbD 4 ∧ covers t.page))
        ∃ (u : State), exec (.invalidateTranslations c asid page ctl) s = .next (u.complete c 0)
          ∧ u = { s with squares := u.squares, hampers := u.hampers }
          ∧ (∀ q, u.square q = { s.square q with trans := (u.square q).trans, walkAt := (u.square q).walkAt }
            ∧ keeps (s.square q).trans (u.square q).trans
            ∧ ∀ w, w ∈ (u.square q).walkAt ↔ w ∈ (s.square q).walkAt ∧ ¬ (w.1.1 = asid ∧ (ctl.getLsbD 5 ∨ covers w.1.2)))
          ∧ ∀ k, ∀ h : k < 4, u.hampers[k] = { s.hampers[k] with trans := u.hampers[k].trans }
            ∧ keeps s.hampers[k].trans u.hampers[k].trans)
    ∧ ∀ stack atom, stack < 8 → atom % 32 = 0 → atom < hbmEnd → stackOf atom = stack → s.bankOpen atom →
        let full := 2048 ≤ (s.patched.filter fun a => stackOf a == stack).length
        (full ∨ atom ∈ s.patched → exec (.installPatch c stack atom) s = .next (s.complete c 1))
        ∧ (¬ full → atom ∉ s.patched → s.isBad atom 32 →
            exec (.installPatch c stack atom) s = .next ((s.uncorrected atom).complete c 1))
        ∧ (¬ full → atom ∉ s.patched → s.sound atom 32 → exec (.installPatch c stack atom) s =
            .next (({ s with patched := sadd s.patched atom } : State).complete c 0))

/-- A heap is created with the capacities of its descriptor over the frames that back its segments, each in its own
channel: every segment holds the descriptor, the header at its reset values, empty buckets, and zeros, every word full. Its
release is refused where no such heap is live or a launch uses its identifier, and busy while one goes
on; else it begins, and completes, once nothing of the heap is under way, with header and records zero, `state` 0 and the heap's
number free again; no other memory changes (R244 to R246, R266, R321). Status 1 for segments that do not translate is the model's
reading (notes/assumptions/28). -/
def Obligations.HeapsAreCreatedAndReleased : Prop :=
  ∀ (s : State) (c : Cmd) (h : BitVec 6),
    (∀ asid w1 w2 seg segsz, s.hears c →
      let x : Heap := { Heap.free with
        state := 1, asid := asid, nodecap := (w1.extractLsb' 32 32).toNat, classcap := (w1.extractLsb' 0 32).toNat,
        pcap := (w2.extractLsb' 32 32).toNat, bktlog := (w2.extractLsb' 0 5).toNat, seg := seg, segsz := segsz.toNat }
      let cap (n : Nat) : Prop := 1 ≤ n ∧ n < 2 ^ 24
      cap x.nodecap → cap x.classcap → cap x.pcap → w2.extractLsb' 5 27 = 0 → 3 ≤ x.bktlog → x.bktlog ≤ 24 →
      seg.toNat % 65536 = 0 → x.segsz % 65536 = 0 → x.total ≤ x.segsz → (s.heap h.toNat).state = 0 →
      s.alerts = [] →
      (∀ v, s.heapFrames asid seg.toNat x.segsz 256 = (v, none) →
        exec (.createHeap c h asid w1 w2 seg segsz) s = .next (v.complete c 1))
      ∧ ∀ v fs, s.heapFrames asid seg.toNat x.segsz 256 = (v, some fs) →
        ((∀ k < 256, ∀ f ∈ fs.getD k [], f % 256 = k)
        ∧ ∃ (u : State), exec (.createHeap c h asid w1 w2 seg segsz) s = .next (u.complete c 0)
          ∧ u = { v with mem := u.mem, empt := u.empt, bad := u.bad, soft := u.soft
                         heaps := tput v.heaps h.toNat { x with frames := fs } }
          ∧ let y : Heap := { x with frames := fs }
            let marks (off : Nat) : Prop := ∃ o ∈ [0x68, 0x6C, 0x7C], o ≤ off ∧ off < o + 4
            (∀ a, (∀ k < 256, a / 65536 ∉ fs.getD k []) → readByte u.mem a = readByte v.mem a)
            ∧ ((∀ k < 256, (fs.getD k []).Nodup) → ∀ k < 256,
              (∀ f ∈ fs.getD k [], ∀ j < 8192, u.isFull (65536 * f + 8 * j))
              ∧ (∀ i < 8, u.loadWord (y.key k (8 * i)) =
                  [BitVec.ofNat 64 (2 ^ 12 + asid.toNat), w1, w2, seg, segsz, 1, 0, 0].getD i 0)
              ∧ ∀ off < x.segsz, 64 ≤ off →
                ((marks off ∨ y.bktOff 0 ≤ off ∧ off < y.bktOff (2 ^ x.bktlog)) → readByte u.mem (y.key k off) = 0xFF)
                ∧ (¬ marks off → (off < y.bktOff 0 ∨ y.bktOff (2 ^ x.bktlog) ≤ off) → readByte u.mem (y.key k off) = 0))))
    ∧ (s.hears c → let x := s.heap h.toNat
      let key := x.key (anchorOf h.toNat) 0
      (x.state = 0 → exec (.releaseHeap c h) s = .next (s.complete c 1))
      ∧ (x.state = 2 → exec (.releaseHeap c h) s = .next (s.complete c 3))
      ∧ (x.state = 1 → (∃ p ∈ s.launches, p.2.asid = x.asid) → exec (.releaseHeap c h) s = .next (s.complete c 1))
      ∧ (x.state = 1 → (∀ p ∈ s.launches, p.2.asid ≠ x.asid) → s.sound key 4 → ∃ (u : State), exec (.releaseHeap c h) s = .next u
        ∧ u = { s with mem := u.mem, heaps := tput s.heaps h.toNat { x with state := 2, releasing := some c } }
        ∧ readLE u.mem key 4 / 4096 % 4 = 2 ∧ ∀ a, (a < key ∨ key + 4 ≤ a) → readByte u.mem a = readByte s.mem a))
    ∧ ∀ n, let x := s.heap n
      (x.releasing = none → exec (.heapReleaseComplete n) s = .next s)
      ∧ (s.heapQuiet n = false → exec (.heapReleaseComplete n) s = .next s)
      ∧ ∀ c, x.releasing = some c → x.state = 2 → s.heapQuiet n → s.alerts = [] → (∀ k < 256, x.frames.getD k [] ≠ []) → ∃ (u : State), exec (.heapReleaseComplete n) s = .next (u.complete c 0)
        ∧ u = { s with mem := u.mem, empt := u.empt, bad := u.bad, soft := u.soft, heaps := tput s.heaps n Heap.free }
        ∧ (∀ a, (∀ k < 256, a / 65536 ∉ x.frames.getD k []) → readByte u.mem a = readByte s.mem a)
        ∧ ((∀ k < 256, (x.frames.getD k []).Nodup ∧ ∀ f ∈ x.frames.getD k [], f % 256 = k) → ∀ k < 256,
          (∀ i, 0 < i → i < 8 → u.loadWord (x.key k (8 * i)) = s.loadWord (x.key k (8 * i)))
          ∧ u.loadWord (x.key k 0) = s.loadWord (x.key k 0) &&& ~~~(3#64 <<< 12)
          ∧ (∀ f ∈ x.frames.getD k [], ∀ j < 8192, u.isFull (65536 * f + 8 * j))
          ∧ ∀ f ∈ x.frames.getD k [], ∀ j < 65536, (f ≠ (x.frames.getD k []).headD 0 ∨ 64 ≤ j) → readByte u.mem (65536 * f + j) = 0)

/-- Turn masks are checked, and written once the switches of the die are empty; until then injections on it are
held. A mark changes a link; the map in HBM and the entries 0 to 767 of every loaded square are written with it. Namespaces and objects of a drive are created, read
and deleted; a namespace that holds objects is not deleted (R289, R293, R294, R312, R321, R328). That the creation of a namespace
that exists has status 1 is the model's reading (notes/assumptions/28). -/
def Obligations.MapAndDriveCommandsTakeEffect : Prop :=
  ∀ (s : State) (c : Cmd), s.hears c →
    let remapped (u : State) (t : Streets) : Prop :=
      u = { s with streets := t, writing := s.writing + 1, mem := u.mem, squares := u.squares }
      ∧ (∀ q, u.square q = { s.square q with
          service := (s.square q).service.map fun w => { w with num := s.writing + 1, streets := t } })
      ∧ ∀ a, readByte u.mem a =
        if s.smapAddr ≤ a ∧ a < s.smapAddr + t.bytes.length then t.bytes.getD (a - s.smapAddr) 0 else readByte s.mem a
    (∀ die plane mask, die < 4 → plane < 6 → ∀ hk : 6 * die + plane < 24,
      let i : Instr := .writeTurnMasks c die plane mask
      (s.pending = [] → s.hold = [] → s.streets.maskOk die mask → s.switchesEmpty die → ∃ (u : State), exec i s = .next (u.complete c 0)
        ∧ remapped u { s.streets with masks := s.streets.masks.set (6 * die + plane) mask hk })
      ∧ (i ∉ s.pending → s.streets.maskOk die mask = false → exec i s = .next (s.complete c 1))
      ∧ (i ∉ s.pending → s.streets.maskOk die mask → s.switchesEmpty die = false → ∃ (u : State), exec i s = .next u
        ∧ u = { s with pending := s.pending ++ [i], hold := u.hold } ∧ die ∈ u.hold)
      ∧ (i ∈ s.pending → s.switchesEmpty die = false → exec i s = .next s))
    ∧ (∀ l, linkExists l →
      let t := s.streets
      (∃ (u : State), exec (.markDown c l) s = .next (u.complete c 0)
        ∧ remapped u { t with down := if l ∈ t.down then t.down else t.down ++ [l] })
      ∧ ∃ (u : State) (t' : Streets), exec (.markUp c l) s = .next (u.complete c 0) ∧ remapped u t'
        ∧ t' = { t with down := t'.down, failed := t'.failed }
        ∧ (∀ x, x ∈ t'.down ↔ x ∈ t.down ∧ x ≠ l) ∧ ∀ x, x ∈ t'.failed ↔ x ∈ t.failed ∧ x ≠ l)
    ∧ ∀ k, ∀ hk : k < 4, ∀ (asid : BitVec 12) (obj : BitVec 48),
      let h := s.hampers[k]
      let spaces (x : Tbl Namespace) : State := { s with hampers := s.hampers.set k { h with namespaces := x } hk }
      (∀ lbas, (tget h.namespaces asid.toNat = none → exec (.createNamespace c k asid lbas) s =
          .next ((spaces (tput h.namespaces asid.toNat { lbas := lbas, objects := [] })).complete c 0))
        ∧ (tget h.namespaces asid.toNat ≠ none → exec (.createNamespace c k asid lbas) s = .next (s.complete c 1)))
      ∧ (∀ n, tget h.namespaces asid.toNat = some n →
        (n.objects ≠ [] → exec (.deleteNamespace c k asid) s = .next (s.complete c 1))
        ∧ (n.objects = [] → exec (.deleteNamespace c k asid) s =
            .next ((spaces (tdel h.namespaces asid.toNat)).complete c 0))
        ∧ ∀ o, tget n.objects obj.toNat = some o →
          (exec (.deleteObject c k asid obj) s = .next
            ((spaces (tput h.namespaces asid.toNat { n with objects := tdel n.objects obj.toNat })).complete c 0))
          ∧ ∀ buf, ∃ (u : State), exec (.readObject c k asid obj buf) s = .next (u.complete c 0)
            ∧ u = { s with hostMem := u.hostMem } ∧ s.hostKept u buf (4096 + 65536 * o.pages.length)
            ∧ (∀ j < 4096, u.hostByte (buf + j) = readByte o.header j)
            ∧ ∀ n page, o.pages[n]? = some page → ∀ j < 65536,
              u.hostByte (buf + 4096 + 65536 * n + j) = readByte page j)

/-- A launch whose record, district, tumblers and root are in order is loaded: it gets the next launch id, which the
completion word names, zeroed local memory, its tumblers, its squares' entries from the street map, and a level-0 thread
for each unit of its innermost level
on every core; one that cannot be granted is refused without effect. A suspension closes the launch, refuses the records held
toward it, and once its
threads are out of their slots and its traffic has ended saves it and releases its wards; a resumption grants wards
anew and brings the saved cores back. A core image has 70,144 bytes, with local memory, zero outside the window, and its
full/empty bits first; a square image has 23,040, with a once record of slot n at 1,536 n + 96 i. A kill ends every thread of the launch, frees its tumblers and cores, and
writes the end word with 2 (R40 to R48, R225, R271, R272, R284, R285, R304, R320, R321, R338). That launch ids rise, and what an
image keeps beyond R285's list, are the model's choices (notes/assumptions/3 and 39); that held records are refused while the
launch still closes, and status 1 for an id that is not live, are its readings (notes/assumptions/47 and 28). -/
def Obligations.LaunchesAreLoadedSuspendedAndKilled : Prop :=
  ∀ (s : State) (c : Cmd), s.hears c →
    (∀ a : LaunchArgs, let at_ := a.record.toNat
      a.slotMap.length = 15 → a.weights.length = 16 → at_ % 8 = 0 → at_ + 192 ≤ hbmEnd →
      (∀ i < 24, s.bankOpen (at_ + 8 * i) ∧ s.sound (at_ + 8 * i) 8) →
      let ws := (List.range 24).map fun i => s.loadWord (at_ + 8 * i)
      let l := launchOf ws c.sc
      let root := s.rootTable.toNat + 8 * l.asid.toNat
      recordOk l ws → s.tumblersFree l.tumblers → s.rooted l.asid → s.bankOpen root → s.sound root 8 →
      (s.grantAll a.shape = none → exec (.submitLaunch c a) s = .next (s.complete c 1))
      ∧ ∀ wards, s.grantAll a.shape = some wards →
        let l' : Launch := { l with wards := wards, shape := a.shape, slotMap := a.slotMap, weights := a.weights,
                                    endWord := a.endWord, start := s.clock }
        (levelsOk l' l.levels = false → exec (.submitLaunch c a) s = .next (s.complete c 1))
        ∧ (levelsOk l' l.levels → ∃ (u : State), exec (.submitLaunch c a) s = .next (u.complete c 0 s.nextLid)
          ∧ u = { s with launches := tput s.launches s.nextLid l', nextLid := s.nextLid + 1, writing := s.writing + 1
                         mem := u.mem, empt := u.empt, bad := u.bad, soft := u.soft, tumblers := u.tumblers
                         squares := u.squares, cores := u.cores, threads := u.threads, nextTid := u.nextTid }
          ∧ (∀ k < l'.cores, ∀ j < 65536, readByte u.mem (localKey (l'.coreOf k) j) = 0
              ∧ u.isFull (localKey (l'.coreOf k) j))
          ∧ (∀ a < localBase, readByte u.mem a = readByte s.mem a)
          ∧ (∀ q ∈ l'.allSquares, (u.square q).service = some { num := s.writing + 1, streets := s.streets, wards := wards })
          ∧ (∀ t < 32, l.tumblers.getLsbD t → (u.tumbler t).owner = some s.nextLid)
          ∧ ∀ k < l'.cores, ∀ v, l.levels.head? = some v → ∀ n < v.count,
              ∃ tid, s.nextTid ≤ tid ∧ tid < u.nextTid ∧ tget u.threads tid = some (launchThread s.nextLid l' k n)))
    ∧ (∀ (v : Saved) (l : Launch) (k q n i : Nat) (x : Square) (r : OnceRec),
      (v.coreWords l k).length = 8768
      ∧ (∀ w < 8192, (v.coreWords l k).getD w 0 =
          if l.lmLo ≤ 8 * w ∧ 8 * w + 8 ≤ l.lmHi then (readWords v.mem (65536 * k + 8 * w) 1).headD 0 else 0)
      ∧ (∀ w < 8192, ((v.coreWords l k).getD (8192 + w / 64) 0).getLsbD (w % 64) = !v.empt.contains (8192 * k + w))
      ∧ (v.squareWords q).length = 2880
      ∧ (tget v.squares q = some x → ∀ h : n < 15, i < 16 → x.once[n][i]? = some r →
          ∀ w < 12, (v.squareWords q).getD (192 * n + 12 * i + w) 0 = r.words.getD w 0))
    ∧ (∀ lid, tget s.launches lid = none → exec (.suspendLaunch c lid) s =
          .next (({ s with pending := s.pending.filter fun x => x != .suspendLaunch c lid } : State).complete c 1)
        ∧ exec (.resumeLaunch c lid) s = .next (s.complete c 1) ∧ exec (.killLaunch c lid) s = .next (s.complete c 1))
    ∧ ∀ lid l, tget s.launches lid = some l →
      let i : Instr := .suspendLaunch c lid
      (i ∉ s.pending → l.suspended = false → l.closing = false → ∃ (u : State), exec i s = .next u
        ∧ u = { s with cores := u.cores, launches := tput s.launches lid { l with closing := true }
                       pending := s.pending ++ [i] }
        ∧ (∀ k, u.core k = { s.core k with mrotMax := (u.core k).mrotMax })
        ∧ ∀ w ∈ l.wards, ∃ most, (∀ n < 64, (u.core (w * 64 + n)).mrotMax = some most
            ∧ (s.core (w * 64 + n)).mrotCount ≤ most) ∧ ∃ n < 64, (s.core (w * 64 + n)).mrotCount = most)
      ∧ (i ∉ s.pending → (l.suspended ∨ l.closing) → exec i s = .next (s.complete c 1))
      ∧ (let r := l.allCores.foldl (fun (u : State) k => u.refuseHeld k) s
        i ∈ s.pending → (r.suspendable lid l = false → exec i s = .next r)
        ∧ (r.suspendable lid l → ∃ (u : State), exec i s = .next (u.complete c 0)
        ∧ tget u.launches lid = some { l with suspended := true, closing := false, saved := some (r.savedOf l) }
        ∧ (∀ k, l.owns k → tget u.cores k = none) ∧ (∀ j, j ≠ lid → tget u.launches j = tget s.launches j)
        ∧ ∀ p ∈ u.tumblers, p.2.owner ≠ some lid))
      ∧ (∀ v wards, l.saved = some v → s.grantAll l.shape = some wards → l.suspended → s.tumblersFree l.tumblers →
        let l' := { l with wards := wards, suspended := false, saved := none }
        ∃ (u : State), exec (.resumeLaunch c lid) s = .next (((u.refill l').openHostBars).complete c 0)
          ∧ tget u.launches lid = some l' ∧ (∀ t < 32, l.tumblers.getLsbD t → (u.tumbler t).owner = some lid)
          ∧ (∀ tid t, tget s.threads tid = some t → tget u.threads tid =
              some (if t.launch = lid then { t with homeCore := l'.coreOf t.homeCore, place := (t.rejoined l').place } else t))
          ∧ ∀ k x, (v.cores.map Prod.fst).Nodup → (∀ p ∈ v.cores, p.1 < l'.cores) → (k, x) ∈ v.cores →
              let y := u.core (l'.coreOf k)
              y.accs = x.accs ∧ y.afull = x.afull ∧ y.qs = x.qs ∧ y.lanes = x.lanes ∧ y.ring = x.ring
              ∧ y.curA = x.curA ∧ y.curB = x.curB ∧ y.mrotCount = x.mrotCount
              ∧ (∀ d, ∀ h : d < 4, y.ports[d] = x.ports[d] ++ x.flying[d])
              ∧ ∀ r ∈ y.runq, r.ready ∧ ∃ q ∈ x.runq, r.tid = q.tid)
      ∧ ∃ (u : State), exec (.killLaunch c lid) s = .next (u.complete c 0)
        ∧ tget u.launches lid = none ∧ (∀ p ∈ u.threads, p.2.launch ≠ lid) ∧ (∀ p ∈ u.tumblers, p.2.owner ≠ some lid)
        ∧ (∀ k, l.owns k → tget u.cores k = none)
        ∧ u.hostMem = if l.endWord = 0 then s.hostMem
          else (s.toHost l.endWord (wordBytes (BitVec.ofNat 64 (lid * 2 ^ 32 + 2)))).hostMem

/-- The arbiter works in every 1,024th cycle: a waiting context is one that is ready,
but not one of the porter; with none that is ready it changes nothing. The
entitlements share the 15 slots by the floors, then one each by falling fraction, ties to the lower queue; where the queue
furthest below its
entitlement, the lower one of equals, has one waiting and no slot is free, it asks for the eviction of the queue furthest
above its own, the higher of equals, in
its highest slot. The engine evicts for a suspension, for a refused access, or by that request, and the context
joins the run queue; a withdrawn access is held with it. A context that awaited room becomes ready by the home's
message or after 4,096 cycles; a thread that found no record sends its refused accesses again. A record has 1,024 bytes: the
save area, its control word, and the once word of a gang member (R225, R275, R279 to R284). The corners of the arbiter and
the engine, and that a porter handler belongs to no queue, are the model's readings (notes/assumptions/24), and so is how a
waiting or refused `sync` is withdrawn and sent again (notes/assumptions/44). -/
def Obligations.EvictionsMakeContextsThatReturn : Prop :=
  ∀ (s : State) (c : Nat), let x := s.core c
    (s.clock % 1024 ≠ 0 ∨ (∀ r ∈ x.runq, r.ready = false) → exec (.arbiterBoundary c) s = .next s)
    ∧ (∀ q, (x.waitsFor q = true ↔ ∃ r ∈ x.runq, r.ready ∧ r.slot ≠ 15 ∧ r.ownq.toNat = q)
      ∧ (x.activeQueue q = true ↔ x.weight q ≠ 0 ∧ ((∃ n < 15, (x.slot n).ownq.toNat = q) ∨ x.waitsFor q)))
    ∧ (∀ (q p n tid : Nat) (t : Thread), s.clock % 1024 = 0 → s.closingOn c = false → x.spill = none → x.runq.length < 64 →
      (∀ k < 15, (s.slot c k).isFree = false) →
      let excess (q : Nat) : Int := (x.heldBy q : Int) - (x.entitlement q : Int)
      let needs (q : Nat) : Prop := x.activeQueue q ∧ excess q < 0 ∧ x.waitsFor q
      q < 16 → needs q → (∀ k < 16, needs k → excess q < excess k ∨ excess q = excess k ∧ q ≤ k) →
      p < 16 → 0 < excess p → (∀ k < 16, 0 < excess k → excess k < excess p ∨ excess k = excess p ∧ k ≤ p) →
      n < 15 → (s.slot c n).ownq.toNat = p → (s.slot c n).tid = some tid → tget s.threads tid = some t → t.hand = false →
      t.homeCore = c → t.homeSlot = n → (∀ k < 15, n < k → (s.slot c k).ownq.toNat = p → s.shareVictim c k = none) →
      exec (.arbiterBoundary c) s = .next (s.modCore c fun y => { y with
        spill := some { slot := n, tid := tid, cause := 0, toQueue := some (BitVec.ofNat 4 q), asked := [], held := [] } }))
    ∧ (∀ q < 16, let act := (List.range 16).filter x.activeQueue
      let all := (act.map x.weight).sum
      let floor (q : Nat) : Nat := 15 * x.weight q / all
      (act ≠ [] → (act.map x.entitlement).sum = 15)
      ∧ (x.activeQueue q = false → x.entitlement q = 0)
      ∧ (x.activeQueue q → (x.entitlement q = floor q ∨ x.entitlement q = floor q + 1)
        ∧ ∀ p ∈ act, x.entitlement q = floor q + 1 → x.entitlement p = floor p →
          15 * x.weight p % all < 15 * x.weight q % all ∨ 15 * x.weight p % all = 15 * x.weight q % all ∧ q < p))
    ∧ ((∀ p ∈ s.net, p.2.refusedTid = none) →
      let starts (tid slot cause : Nat) : Prop := exec (.spillEngineEvict c) s = .next (s.modCore c fun y => { y with
        spill := some { slot := slot, tid := tid, cause := cause, toQueue := none, asked := [], held := [] } })
      (x.spill = none → s.toSuspend c = none → exec (.spillEngineEvict c) s = .next s)
      ∧ (∀ tid t, x.spill = none → s.toSuspend c = some tid → tget s.threads tid = some t → starts tid t.homeSlot 2)
      ∧ ∀ j t q, x.spill = some j → j.cause = 0 → j.held = [] → j.toQueue = some q → tget s.threads j.tid = some t →
        t.place = .slot c j.slot → t.homeSlot = j.slot → (t.wait = none ∨ ∃ d, t.wait = some (.cond d)) → t.outst = none →
        (∀ p ∈ s.net ++ s.waits, p.2.ownedBy j.tid = none) → (∀ p ∈ s.sq, p.2.tid ≠ j.tid) → s.commandsOf c j.tid = false →
        s.withdrawing c = false → s.withdrawable j.tid = [] →
        let kept : RunRec := {
          tid := j.tid, ownq := (s.slot c j.slot).ownq, cause := 0, ready := true, readyAt := none, slot := j.slot,
          home := 0, held := [] }
        let out : Thread := { t with place := .context c, bank := none, wait := none }
        let s' := ({ s with threads := tput s.threads j.tid out } : State).modCore c fun y => { y with
          spill := none, runq := y.runq ++ [kept] }
        exec (.spillEngineEvict c) s = .next ((s'.modSlot c j.slot fun y => { y with
          tid := none, reserved := none, resendAt := none, ownq := q }).takeWork c j.slot))
    ∧ (∀ tid t, x.spill = none → s.toSuspend c = none → s.toRefuse c = some (tid, t) →
      (∀ p ∈ s.net, ∀ k, p.2.refusedTid = some k → tget s.threads k ≠ none) →
      exec (.spillEngineEvict c) s = .next (
        if 64 ≤ x.runq.length then s.modSlot c t.homeSlot fun y => { y with resendAt := some (s.clock + 4096) }
        else s.modCore c fun y => { y with
          spill := some { slot := t.homeSlot, tid := tid, cause := 1, toQueue := none, asked := [], held := [] } }))
    ∧ (∀ id target slot, tget s.net id = some (.withdraw target c slot) → s.carried id →
      (∀ b h, (∃ a, b = .access a ∧ h = .access a ∧ ∀ p ∈ s.roomAsk, p.1 ≠ homeOf a.key)
          ∨ (∃ r, b = .frame r ∧ h = .refusedFrame r ∧ ∀ p ∈ s.roomAsk, p.1 ≠ homeOf r.key) →
        s.waits.find? (fun p => p.1 == target) = some (target, b) →
        exec (.withdraw id) s = .next (({ s with net := tdel s.net id, waits := s.waits.filter fun p => p.1 != target }
          : State).modCore c fun y => { y with
            spill := y.spill.map fun j => { j with held := j.held ++ [(target, h)] } }))
      ∧ (s.waits.find? (fun p => p.1 == target) = none → exec (.withdraw id) s = .next { s with net := tdel s.net id }))
    ∧ ((∀ k < 15, (s.slot c k).isFree = false) → ((s.slot c 15).isFree → ∀ r ∈ x.runq, r.slot ≠ 15) →
      (∀ id home, tget s.net id = some (.room c home) → s.carried id → exec (.roomMessage id) s =
        .next (({ s with net := tdel s.net id } : State).modCore c fun y => { y with runq := y.runq.map fun r =>
          if r.cause = 1 ∧ r.home = home then { r with ready := true, readyAt := none } else r }))
      ∧ ∀ n r u, x.runq[n]? = some r → r.readyAt = some u →
        (s.clock < u → exec (.contextReadyTimeout c n) s = .next s)
        ∧ (u ≤ s.clock → exec (.contextReadyTimeout c n) s = .next (s.modCore c fun y => { y with
            runq := y.runq.set n { r with ready := true, readyAt := none } })))
    ∧ (∀ r t, tget s.threads r.tid = some t → r.cause < 3 → r.held.length ≤ 5 →
      (∀ p ∈ r.held, ∀ f, p.2 ≠ .frame f ∧ p.2 ≠ .refusedFrame f) →
      let w (k : Nat) : Word := (s.recordWords r).getD k 0
      (s.recordWords r).length = 128 ∧ (∀ k < 80, w k = (saveWords (s.launchOf t) t t.pc).getD k 0)
      ∧ (w 80).extractLsb' 12 4 = r.ownq ∧ ((w 80).extractLsb' 10 2).toNat = r.cause ∧ (w 80).getLsbD 9 = r.ready
      ∧ ((w 80).extractLsb' 0 3).toNat = r.held.length ∧ (w 81).getLsbD 32 = t.gang
      ∧ (w 81).extractLsb' 0 32 = if t.gang then t.occ else 0)
    ∧ ∀ n u, (s.slot c n).resendAt = some u →
      let mine (tid : Nat) : Prop := ∃ t, tget s.threads tid = some t ∧ t.homeCore = c ∧ t.homeSlot = n
      (s.clock < u → exec (.refusedResendTimeout c n) s = .next s)
      ∧ (u ≤ s.clock → ∃ net, exec (.refusedResendTimeout c n) s =
          .next (({ s with net := net } : State).modSlot c n fun y => { y with resendAt := none })
        ∧ ∀ id b, tget s.net id = some b → (∀ a, b = .refusedAccess a → mine a.tid → tget net id = some (.access a))
          ∧ (∀ a, b = .refusedAmo a → mine a.tid → tget net id = some (.amo a))
          ∧ (∀ r, b = .refusedFrame r → mine r.tid → tget net id = some (.frame r))
          ∧ ((∀ k, b.refusedTid = some k → ¬ mine k) → tget net id = some b))

/-- A replay is counted for its direction of the link, and reported when 1,024 have come in the window; a link that fails is
reported once and loses the lane words on it; a packet whose way meets it, or a down link, or a turn its mask forbids, is
dropped and never sent again: its thread, its store or its sender hears of a route fault, after a float trap that is due. A
scrub step leaves an atom without errors alone, reports one that cannot be corrected, and else
corrects it without a change of data; a clean row of the hot list loses a point. At the end of a window the counters
start again; an activation alert closes its bank, but for atoms that a patch holds, until refresh management is done, after
the eight refreshes that were postponed. 95 degrees are reported, at 110
power is removed, and a cold reset leaves the machine as reset does, with host memory and the drives' objects kept
(R4, R231, R293, R319, R327, R328, R330, R332, R333, R336). When
these come is left to the plan; what a drop does to acknowledgements, answers, heap and room messages, and the temperatures
kept over a cold reset, are the model's readings (notes/assumptions/32), the number of a link in a report its choice
(notes/assumptions/21). -/
def Obligations.LinksScrubbersAndResetsFollowEvents : Prop :=
  ∀ (s : State),
    (∀ l n, let what := replayCounter l
      ((s.counters.find? fun x => x.row == 3 && x.what == what).map Counter.count).getD 0 = n →
      let u : State := { s with counters := { row := 3, what := what, count := n + 1 }
                                  :: s.counters.filter fun x => !(x.row == 3 && x.what == what) }
      exec (.linkReplay l) s = .next (if n + 1 = 1024 then
        u.report (linkDie l) { cause := 0x41, qual := 3, core := linkDie l, detail := BitVec.ofNat 64 (linkNumber l) } else u))
    ∧ (∀ l₀, let l := wholeLink l₀
      let rep : Report :=
        { cause := 0x42, qual := linkKind l, core := linkDie l, detail := BitVec.ofNat 64 (linkNumber l) }
      let u := ({ s with streets := { s.streets with failed := s.streets.failed ++ [l] } } : State).report (linkDie l) rep
      (l ∈ s.streets.failed → exec (.linkFail l₀) s = .next s)
      ∧ (l ∉ s.streets.failed → (∀ core dir, l ≠ .lane core dir) → exec (.linkFail l₀) s = .next u)
      ∧ ∀ core dir, l ∉ s.streets.failed → l = .lane core dir → ∃ (v : State), exec (.linkFail l₀) s = .next v
        ∧ v = { u with cores := v.cores } ∧ (∀ k, k ≠ s.neighbour core dir.toNat → v.core k = s.core k)
        ∧ let y := v.core (s.neighbour core dir.toNat)
          y = { s.core (s.neighbour core dir.toNat) with flying := y.flying }
          ∧ ∀ h : oppositeDir dir.toNat < 4, y.flying[oppositeDir dir.toNat] = [])
    ∧ (∀ id b, tget s.net id = some b →
      let i : Instr := .routeDrop id
      let u := s.landedAt id
      let answers (x : Body) : Prop := exec i s = .next { u with net := tput u.net id x }
      (s.lost id = true ↔ ∃ w, tget s.ways id = some w ∧ s.streets.carries w = false)
      ∧ (s.lost id = false ∨ s.offStreets id b → exec i s = .next s)
      ∧ (s.lost id → s.offStreets id b = false →
        (∀ a, b = .access a → answers (match a.kind with
            | .load _ => .reply a.tid none (.fault 0x1A 0 a.addr)
            | _ => .ack id (some (0x1A, 0))))
        ∧ (∀ a, b = .amo a → answers (.reply a.tid none (.fault 0x1A 0 a.addr)))
        ∧ (∀ r x, (b = .frame r ∨ b = .frameAns r x) → answers (.reply r.tid none (.fault 0x1A 0 r.addr)))
        ∧ (∀ c tid t, b = .far c tid t → answers (.reply tid none (.fault 0x1A 0 (BitVec.ofNat 64 (s.coreLabel c)))))
        ∧ (∀ tid back v, b = .reply tid back v → answers (.reply tid none (.fault 0x1A 0 ((back.map Prod.snd).getD 0))))
        ∧ (∀ e err, b = .ack e err →
          let v := match tget s.sq e with
            | some x => if err = none then u.laneAcked x.core e false else u
            | none => u
          exec i s = .next { v with net := tput v.net id (.ack e (some (err.getD (0x1A, 0)))) })
        ∧ (let gone : State := { u with net := tdel u.net id }
          (∀ m tid rid, b = .heap m → m.asker = some (tid, rid) → exec i s =
            .next ((gone.landedAt rid).answer rid tid (.fault 0x1A 0 0)))
          ∧ (∀ m, b = .heap m → m.asker = none → exec i s = .next gone)
          ∧ (∀ target core slot, b = .withdraw target core slot → exec i s = .next (gone.modCore core fun c => { c with
              spill := c.spill.map fun j => { j with asked := j.asked.filter fun x => x != target } }))
          ∧ (∀ c home, b = .room c home → exec i s = .next gone)
          ∧ ∀ tid k mode regs x t, b = .migr tid k mode regs x → tget s.threads tid = some t →
            let v := gone.placeHome tid t
            let pc := (t.bundle.map BundleInfo.pc).getD t.pc
            (t.floatDue = false → exec i s = .next (v.routeFault tid pc))
            ∧ (t.floatDue → exec i s = .next ((v.leaveWaits tid).modThread tid fun y => { y with pc := pc })))
        ∧ (∀ m tid t, b = .msg m → m.tid = some tid → tget s.threads tid = some t → exec i s =
            .next { u with net := tdel u.net id, sq := tdel u.sq id, threads := tput s.threads tid { t with rflt := true } })
        ∧ ∀ m, b = .msg m → m.tid = none → exec i s = .next { u with net := tdel u.net id, sq := tdel u.sq id }))
    ∧ (∀ atom, let u := errUnit atom
      atom % 32 = 0 → atom < hbmEnd → s.bankOpen atom →
      let i : Instr := .scrubStep (stackOf atom) atom
      (u ∉ s.bad → u ∉ s.soft → exec i s = .next s)
      ∧ (u ∈ s.bad → exec i s = .next ((s.report (dieOfKey atom) {
          cause := 0x19, qual := 1, core := s.coreLabel (homeOf atom), detail := BitVec.ofNat 64 atom }).uncorrected atom))
      ∧ (u ∉ s.bad → u ∈ s.soft → ∃ (v : State), exec i s = .next v
        ∧ v = { s with soft := sdel s.soft u, mem := v.mem, counters := v.counters, hot := v.hot }
        ∧ ∀ a, (∀ d, ∀ h : d < 4, a < s.ringAddr[d] ∨ s.ringAddr[d] + 0x40040 ≤ a) → readByte v.mem a = readByte s.mem a))
    ∧ (∀ stack, ∀ h : stack < 8, let l := s.hot[stack]
      (l.map HotRow.row).Nodup → (∀ r ∈ l, s.bankOpen r.row) → (∀ r ∈ l, ∀ u ∈ s.bad ++ s.soft, Config.rowOf (8 * u) ≠ r.row) →
      let rest := (l.map fun (r : HotRow) => { r with score := r.score - 1 }).filter fun r => r.score != 0
      exec (.hotListScrub stack) s = .next { s with hot := s.hot.set stack rest h })
    ∧ (s.clock % 2 ^ 32 ≠ 0 → exec .windowRollover s = .next s)
    ∧ (s.clock % 2 ^ 32 = 0 → ∃ (u : State), exec .windowRollover s = .next u
      ∧ u = { s with mem := u.mem, counters := [], delay := Vector.replicate 4 0 }
      ∧ (s.delay = Vector.replicate 4 0 → u.mem = s.mem))
    ∧ (∀ chan bank n cycles, chan < 256 → n ≤ 8 → (∀ a ∈ s.alerts, ¬ (a.chan = chan ∧ a.bank = bank)) →
      ∃ (u : State), exec (.activationAlert chan bank n cycles) s = .next u
        ∧ u = { s with delay := u.delay, alerts := s.alerts ++ [{
            chan := chan, bank := bank, postponed := if n = 8 then 8 else 0 }] }
        ∧ (∀ k, ∀ h : k < 4, u.delay[k] = s.delay[k] + if k = dieOf (channelBase + chan) then cycles else 0)
        ∧ ∀ key < localBase, channelOf key = chan → Config.bankOf key = bank → key / 32 * 32 ∉ s.patched → u.bankOpen key = false)
    ∧ (∀ chan bank, ∃ (u : State), exec (.refreshManagementDone chan bank) s = .next u ∧ u = { s with alerts := u.alerts }
      ∧ ∀ a, a ∈ u.alerts ↔ a ∈ s.alerts ∧ ¬ (a.chan = chan ∧ a.bank = bank)
        ∨ a.chan = chan ∧ a.bank = bank ∧ { a with postponed := a.postponed + 1 } ∈ s.alerts)
    ∧ (∀ die temp, ∀ h : die < 4, let u : State := { s with sensors := s.sensors.set die temp h }
      exec (.temperatureReport die temp) s = .next (if temp < 95 then u else
        u.report die { cause := 0x49, core := die, detail := BitVec.ofNat 64 die }))
    ∧ (∀ temp, temp < 110 → exec (.powerRemoval temp) s = .next s)
    ∧ ∃ (u : State), (∀ temp, 110 ≤ temp → exec (.powerRemoval temp) s = .next { u with unpowered := true })
      ∧ (∀ ok, exec (.coldReset ok) s = .next { u with
          halted := !ok, mismatches := if ok then s.mismatches else s.mismatches + 1 })
      ∧ u = { State.reset with hostMem := s.hostMem, sensors := s.sensors, free := s.free, plan := s.plan, hampers := u.hampers,
                                mismatches := s.mismatches, refusals := s.refusals }
      ∧ ∀ k, ∀ h : k < 4, u.hampers[k] = { Hamper.idle with namespaces := s.hampers[k].namespaces }
end

