-- ==== Sys2Proof/Laws/Encode.lean ====
section
/-!
SUPPORT. Reading back what the encoder writes: the fields of each format (R94, R96, R160), of `fn`, of immediates
and of the second words.
-/

set_option Elab.async false

namespace Sys2Proof.Laws.Encode

open Sys2Proof

/-- A field is what its bits say. -/
theorem fld_eq {w n : Nat} {x : BitVec w} {y : BitVec n} {lo : Nat}
    (h : ∀ i < n, x.getLsbD (lo + i) = y.getLsbD i) : fld x lo n = y := by
  apply BitVec.eq_of_getLsbD_eq
  intro i hi
  simp [hi, h i hi]

theorem getLsbD_fld {w : Nat} (x : BitVec w) (lo n i : Nat) :
    (fld x lo n).getLsbD i = (decide (i < n) && x.getLsbD (lo + i)) := by
  simp [fld]

/-! ### The formats (R94, R96): each bit of a word, and each field -/

theorem fmtReg_bit (l : BitVec 1) (op d a b : BitVec 6) (fn : BitVec 7) (i : Nat) :
    (fmtReg l op d a b fn).getLsbD i = (if i < 7 then fn.getLsbD i else if i < 13 then b.getLsbD (i - 7) else if i <
      19 then a.getLsbD (i - 13) else if i < 25 then d.getLsbD (i - 19) else if i < 31 then op.getLsbD (i - 25) else
      l.getLsbD (i - 31) : Bool) := by
  have h : (fmtReg l op d a b fn).getLsbD i = (l ++ op ++ d ++ a ++ b ++ fn).getLsbD i := rfl
  grind
theorem fmtReg_0_7 (l : BitVec 1) (op d a b : BitVec 6) (fn : BitVec 7) : fld (fmtReg l op d a b fn) 0 7 = fn :=
  fld_eq fun k h => by rw [fmtReg_bit]; grind
theorem fmtReg_7_6 (l : BitVec 1) (op d a b : BitVec 6) (fn : BitVec 7) : fld (fmtReg l op d a b fn) 7 6 = b :=
  fld_eq fun k h => by rw [fmtReg_bit]; grind
theorem fmtReg_13_6 (l : BitVec 1) (op d a b : BitVec 6) (fn : BitVec 7) : fld (fmtReg l op d a b fn) 13 6 = a :=
  fld_eq fun k h => by rw [fmtReg_bit]; grind
theorem fmtReg_19_6 (l : BitVec 1) (op d a b : BitVec 6) (fn : BitVec 7) : fld (fmtReg l op d a b fn) 19 6 = d :=
  fld_eq fun k h => by rw [fmtReg_bit]; grind
theorem fmtReg_25_6 (l : BitVec 1) (op d a b : BitVec 6) (fn : BitVec 7) : fld (fmtReg l op d a b fn) 25 6 = op :=
  fld_eq fun k h => by rw [fmtReg_bit]; grind
theorem fmtReg_31_1 (l : BitVec 1) (op d a b : BitVec 6) (fn : BitVec 7) : fld (fmtReg l op d a b fn) 31 1 = l :=
  fld_eq fun k h => by rw [fmtReg_bit]; grind
theorem fmtReg_4_3 (l : BitVec 1) (op d a b : BitVec 6) (fn : BitVec 7) : fld (fmtReg l op d a b fn) 4 3 = fld fn 4 3
  :=
  fld_eq fun k h => by rw [fmtReg_bit, getLsbD_fld]; grind
theorem fmtReg_2_2 (l : BitVec 1) (op d a b : BitVec 6) (fn : BitVec 7) : fld (fmtReg l op d a b fn) 2 2 = fld fn 2 2
  :=
  fld_eq fun k h => by rw [fmtReg_bit, getLsbD_fld]; grind
theorem fmtReg_0_2 (l : BitVec 1) (op d a b : BitVec 6) (fn : BitVec 7) : fld (fmtReg l op d a b fn) 0 2 = fld fn 0 2
  :=
  fld_eq fun k h => by rw [fmtReg_bit, getLsbD_fld]; grind
theorem fmtReg_3_4 (l : BitVec 1) (op d a b : BitVec 6) (fn : BitVec 7) : fld (fmtReg l op d a b fn) 3 4 = fld fn 3 4
  :=
  fld_eq fun k h => by rw [fmtReg_bit, getLsbD_fld]; grind
theorem fmtReg_2_1 (l : BitVec 1) (op d a b : BitVec 6) (fn : BitVec 7) : fld (fmtReg l op d a b fn) 2 1 = fld fn 2 1
  :=
  fld_eq fun k h => by rw [fmtReg_bit, getLsbD_fld]; grind
theorem fmtReg_1_1 (l : BitVec 1) (op d a b : BitVec 6) (fn : BitVec 7) : fld (fmtReg l op d a b fn) 1 1 = fld fn 1 1
  :=
  fld_eq fun k h => by rw [fmtReg_bit, getLsbD_fld]; grind
theorem fmtReg_0_1 (l : BitVec 1) (op d a b : BitVec 6) (fn : BitVec 7) : fld (fmtReg l op d a b fn) 0 1 = fld fn 0 1
  :=
  fld_eq fun k h => by rw [fmtReg_bit, getLsbD_fld]; grind
theorem fmtReg_3_1 (l : BitVec 1) (op d a b : BitVec 6) (fn : BitVec 7) : fld (fmtReg l op d a b fn) 3 1 = fld fn 3 1
  :=
  fld_eq fun k h => by rw [fmtReg_bit, getLsbD_fld]; grind
theorem fmtReg_0_3 (l : BitVec 1) (op d a b : BitVec 6) (fn : BitVec 7) : fld (fmtReg l op d a b fn) 0 3 = fld fn 0 3
  :=
  fld_eq fun k h => by rw [fmtReg_bit, getLsbD_fld]; grind
theorem fmtReg_0_4 (l : BitVec 1) (op d a b : BitVec 6) (fn : BitVec 7) : fld (fmtReg l op d a b fn) 0 4 = fld fn 0 4
  :=
  fld_eq fun k h => by rw [fmtReg_bit, getLsbD_fld]; grind
theorem fmtImm_bit (op d a : BitVec 6) (m : BitVec 13) (i : Nat) :
    (fmtImm op d a m).getLsbD i = (if i < 13 then m.getLsbD i else if i < 19 then a.getLsbD (i - 13) else if i < 25
      then d.getLsbD (i - 19) else if i < 31 then op.getLsbD (i - 25) else (0#1).getLsbD (i - 31) : Bool) := by
  have h : (fmtImm op d a m).getLsbD i = (0#1 ++ op ++ d ++ a ++ m).getLsbD i := rfl
  grind
theorem fmtImm_0_13 (op d a : BitVec 6) (m : BitVec 13) : fld (fmtImm op d a m) 0 13 = m :=
  fld_eq fun k h => by rw [fmtImm_bit]; grind
theorem fmtImm_13_6 (op d a : BitVec 6) (m : BitVec 13) : fld (fmtImm op d a m) 13 6 = a :=
  fld_eq fun k h => by rw [fmtImm_bit]; grind
theorem fmtImm_19_6 (op d a : BitVec 6) (m : BitVec 13) : fld (fmtImm op d a m) 19 6 = d :=
  fld_eq fun k h => by rw [fmtImm_bit]; grind
theorem fmtImm_25_6 (op d a : BitVec 6) (m : BitVec 13) : fld (fmtImm op d a m) 25 6 = op :=
  fld_eq fun k h => by rw [fmtImm_bit]; grind
theorem fmtImm_31_1 (op d a : BitVec 6) (m : BitVec 13) : fld (fmtImm op d a m) 31 1 = (0#1) :=
  fld_eq fun k h => by rw [fmtImm_bit]; grind
theorem fmtImm_25_3 (op d a : BitVec 6) (m : BitVec 13) : fld (fmtImm op d a m) 25 3 = fld op 0 3 :=
  fld_eq fun k h => by rw [fmtImm_bit, getLsbD_fld]; grind
theorem fmtCmp_bit (op : BitVec 6) (cc p : BitVec 3) (a : BitVec 6) (m : BitVec 13) (i : Nat) :
    (fmtCmp op cc p a m).getLsbD i = (if i < 13 then m.getLsbD i else if i < 19 then a.getLsbD (i - 13) else if i <
      22 then p.getLsbD (i - 19) else if i < 25 then cc.getLsbD (i - 22) else if i < 31 then op.getLsbD (i - 25)
      else (0#1).getLsbD (i - 31) : Bool) := by
  have h : (fmtCmp op cc p a m).getLsbD i = (0#1 ++ op ++ cc ++ p ++ a ++ m).getLsbD i := rfl
  grind
theorem fmtCmp_0_13 (op : BitVec 6) (cc p : BitVec 3) (a : BitVec 6) (m : BitVec 13) : fld (fmtCmp op cc p a m) 0 13 =
  m :=
  fld_eq fun k h => by rw [fmtCmp_bit]; grind
theorem fmtCmp_13_6 (op : BitVec 6) (cc p : BitVec 3) (a : BitVec 6) (m : BitVec 13) : fld (fmtCmp op cc p a m) 13 6 =
  a :=
  fld_eq fun k h => by rw [fmtCmp_bit]; grind
theorem fmtCmp_19_3 (op : BitVec 6) (cc p : BitVec 3) (a : BitVec 6) (m : BitVec 13) : fld (fmtCmp op cc p a m) 19 3 =
  p :=
  fld_eq fun k h => by rw [fmtCmp_bit]; grind
theorem fmtCmp_22_3 (op : BitVec 6) (cc p : BitVec 3) (a : BitVec 6) (m : BitVec 13) : fld (fmtCmp op cc p a m) 22 3 =
  cc :=
  fld_eq fun k h => by rw [fmtCmp_bit]; grind
theorem fmtCmp_25_6 (op : BitVec 6) (cc p : BitVec 3) (a : BitVec 6) (m : BitVec 13) : fld (fmtCmp op cc p a m) 25 6 =
  op :=
  fld_eq fun k h => by rw [fmtCmp_bit]; grind
theorem fmtCmp_31_1 (op : BitVec 6) (cc p : BitVec 3) (a : BitVec 6) (m : BitVec 13) : fld (fmtCmp op cc p a m) 31 1 =
  (0#1) :=
  fld_eq fun k h => by rw [fmtCmp_bit]; grind
theorem fmtCmp_25_2 (op : BitVec 6) (cc p : BitVec 3) (a : BitVec 6) (m : BitVec 13) : fld (fmtCmp op cc p a m) 25 2 =
  fld op 0 2 :=
  fld_eq fun k h => by rw [fmtCmp_bit, getLsbD_fld]; grind
theorem fmtMem_bit (op t b : BitVec 6) (fe : BitVec 2) (o : BitVec 11) (i : Nat) :
    (fmtMem op t b fe o).getLsbD i = (if i < 11 then o.getLsbD i else if i < 13 then fe.getLsbD (i - 11) else if i <
      19 then b.getLsbD (i - 13) else if i < 25 then t.getLsbD (i - 19) else if i < 31 then op.getLsbD (i - 25) else
      (0#1).getLsbD (i - 31) : Bool) := by
  have h : (fmtMem op t b fe o).getLsbD i = (0#1 ++ op ++ t ++ b ++ fe ++ o).getLsbD i := rfl
  grind
theorem fmtMem_0_11 (op t b : BitVec 6) (fe : BitVec 2) (o : BitVec 11) : fld (fmtMem op t b fe o) 0 11 = o :=
  fld_eq fun k h => by rw [fmtMem_bit]; grind
theorem fmtMem_11_2 (op t b : BitVec 6) (fe : BitVec 2) (o : BitVec 11) : fld (fmtMem op t b fe o) 11 2 = fe :=
  fld_eq fun k h => by rw [fmtMem_bit]; grind
theorem fmtMem_13_6 (op t b : BitVec 6) (fe : BitVec 2) (o : BitVec 11) : fld (fmtMem op t b fe o) 13 6 = b :=
  fld_eq fun k h => by rw [fmtMem_bit]; grind
theorem fmtMem_19_6 (op t b : BitVec 6) (fe : BitVec 2) (o : BitVec 11) : fld (fmtMem op t b fe o) 19 6 = t :=
  fld_eq fun k h => by rw [fmtMem_bit]; grind
theorem fmtMem_25_6 (op t b : BitVec 6) (fe : BitVec 2) (o : BitVec 11) : fld (fmtMem op t b fe o) 25 6 = op :=
  fld_eq fun k h => by rw [fmtMem_bit]; grind
theorem fmtMem_31_1 (op t b : BitVec 6) (fe : BitVec 2) (o : BitVec 11) : fld (fmtMem op t b fe o) 31 1 = (0#1) :=
  fld_eq fun k h => by rw [fmtMem_bit]; grind
theorem fmtMem_25_3 (op t b : BitVec 6) (fe : BitVec 2) (o : BitVec 11) : fld (fmtMem op t b fe o) 25 3 = fld op 0 3
  :=
  fld_eq fun k h => by rw [fmtMem_bit, getLsbD_fld]; grind
theorem fmtIdx_bit (op t b x : BitVec 6) (fe : BitVec 2) (sc : BitVec 3) (i : Nat) :
    (fmtIdx op t b x fe sc).getLsbD i = (if i < 2 then (0#2).getLsbD i else if i < 5 then sc.getLsbD (i - 2) else if
      i < 7 then fe.getLsbD (i - 5) else if i < 13 then x.getLsbD (i - 7) else if i < 19 then b.getLsbD (i - 13)
      else if i < 25 then t.getLsbD (i - 19) else if i < 31 then op.getLsbD (i - 25) else (0#1).getLsbD (i - 31) :
      Bool) := by
  have h : (fmtIdx op t b x fe sc).getLsbD i = (0#1 ++ op ++ t ++ b ++ x ++ fe ++ sc ++ 0#2).getLsbD i := rfl
  grind
theorem fmtIdx_0_2 (op t b x : BitVec 6) (fe : BitVec 2) (sc : BitVec 3) : fld (fmtIdx op t b x fe sc) 0 2 = (0#2) :=
  fld_eq fun k h => by rw [fmtIdx_bit]; grind
theorem fmtIdx_2_3 (op t b x : BitVec 6) (fe : BitVec 2) (sc : BitVec 3) : fld (fmtIdx op t b x fe sc) 2 3 = sc :=
  fld_eq fun k h => by rw [fmtIdx_bit]; grind
theorem fmtIdx_5_2 (op t b x : BitVec 6) (fe : BitVec 2) (sc : BitVec 3) : fld (fmtIdx op t b x fe sc) 5 2 = fe :=
  fld_eq fun k h => by rw [fmtIdx_bit]; grind
theorem fmtIdx_7_6 (op t b x : BitVec 6) (fe : BitVec 2) (sc : BitVec 3) : fld (fmtIdx op t b x fe sc) 7 6 = x :=
  fld_eq fun k h => by rw [fmtIdx_bit]; grind
theorem fmtIdx_13_6 (op t b x : BitVec 6) (fe : BitVec 2) (sc : BitVec 3) : fld (fmtIdx op t b x fe sc) 13 6 = b :=
  fld_eq fun k h => by rw [fmtIdx_bit]; grind
theorem fmtIdx_19_6 (op t b x : BitVec 6) (fe : BitVec 2) (sc : BitVec 3) : fld (fmtIdx op t b x fe sc) 19 6 = t :=
  fld_eq fun k h => by rw [fmtIdx_bit]; grind
theorem fmtIdx_25_6 (op t b x : BitVec 6) (fe : BitVec 2) (sc : BitVec 3) : fld (fmtIdx op t b x fe sc) 25 6 = op :=
  fld_eq fun k h => by rw [fmtIdx_bit]; grind
theorem fmtIdx_31_1 (op t b x : BitVec 6) (fe : BitVec 2) (sc : BitVec 3) : fld (fmtIdx op t b x fe sc) 31 1 = (0#1)
  :=
  fld_eq fun k h => by rw [fmtIdx_bit]; grind
theorem fmtIdx_25_3 (op t b x : BitVec 6) (fe : BitVec 2) (sc : BitVec 3) : fld (fmtIdx op t b x fe sc) 25 3 = fld op
  0 3 :=
  fld_eq fun k h => by rw [fmtIdx_bit, getLsbD_fld]; grind
theorem fmtBrc_bit (op : BitVec 6) (s : Bool) (p : BitVec 3) (o : BitVec 21) (i : Nat) :
    (fmtBrc op s p o).getLsbD i = (if i < 21 then o.getLsbD i else if i < 24 then p.getLsbD (i - 21) else if i < 25
      then (BitVec.ofBool s).getLsbD (i - 24) else if i < 31 then op.getLsbD (i - 25) else (0#1).getLsbD (i - 31) :
      Bool) := by
  have h : (fmtBrc op s p o).getLsbD i = (0#1 ++ op ++ BitVec.ofBool s ++ p ++ o).getLsbD i := rfl
  grind
theorem fmtBrc_0_21 (op : BitVec 6) (s : Bool) (p : BitVec 3) (o : BitVec 21) : fld (fmtBrc op s p o) 0 21 = o :=
  fld_eq fun k h => by rw [fmtBrc_bit]; grind
theorem fmtBrc_21_3 (op : BitVec 6) (s : Bool) (p : BitVec 3) (o : BitVec 21) : fld (fmtBrc op s p o) 21 3 = p :=
  fld_eq fun k h => by rw [fmtBrc_bit]; grind
theorem fmtBrc_24_1 (op : BitVec 6) (s : Bool) (p : BitVec 3) (o : BitVec 21) : fld (fmtBrc op s p o) 24 1 =
  (BitVec.ofBool s) :=
  fld_eq fun k h => by rw [fmtBrc_bit]; grind
theorem fmtBrc_25_6 (op : BitVec 6) (s : Bool) (p : BitVec 3) (o : BitVec 21) : fld (fmtBrc op s p o) 25 6 = op :=
  fld_eq fun k h => by rw [fmtBrc_bit]; grind
theorem fmtBrc_31_1 (op : BitVec 6) (s : Bool) (p : BitVec 3) (o : BitVec 21) : fld (fmtBrc op s p o) 31 1 = (0#1) :=
  fld_eq fun k h => by rw [fmtBrc_bit]; grind
theorem fmtLink_bit (op d : BitVec 6) (o : BitVec 19) (i : Nat) :
    (fmtLink op d o).getLsbD i = (if i < 19 then o.getLsbD i else if i < 25 then d.getLsbD (i - 19) else if i < 31
      then op.getLsbD (i - 25) else (0#1).getLsbD (i - 31) : Bool) := by
  have h : (fmtLink op d o).getLsbD i = (0#1 ++ op ++ d ++ o).getLsbD i := rfl
  grind
theorem fmtLink_0_19 (op d : BitVec 6) (o : BitVec 19) : fld (fmtLink op d o) 0 19 = o :=
  fld_eq fun k h => by rw [fmtLink_bit]; grind
theorem fmtLink_19_6 (op d : BitVec 6) (o : BitVec 19) : fld (fmtLink op d o) 19 6 = d :=
  fld_eq fun k h => by rw [fmtLink_bit]; grind
theorem fmtLink_25_6 (op d : BitVec 6) (o : BitVec 19) : fld (fmtLink op d o) 25 6 = op :=
  fld_eq fun k h => by rw [fmtLink_bit]; grind
theorem fmtLink_31_1 (op d : BitVec 6) (o : BitVec 19) : fld (fmtLink op d o) 31 1 = (0#1) :=
  fld_eq fun k h => by rw [fmtLink_bit]; grind
theorem fmtFar_bit (op : BitVec 6) (o : BitVec 25) (i : Nat) :
    (fmtFar op o).getLsbD i = (if i < 25 then o.getLsbD i else if i < 31 then op.getLsbD (i - 25) else (0#1).getLsbD
      (i - 31) : Bool) := by
  have h : (fmtFar op o).getLsbD i = (0#1 ++ op ++ o).getLsbD i := rfl
  grind
theorem fmtFar_0_25 (op : BitVec 6) (o : BitVec 25) : fld (fmtFar op o) 0 25 = o :=
  fld_eq fun k h => by rw [fmtFar_bit]; grind
theorem fmtFar_25_6 (op : BitVec 6) (o : BitVec 25) : fld (fmtFar op o) 25 6 = op :=
  fld_eq fun k h => by rw [fmtFar_bit]; grind
theorem fmtFar_31_1 (op : BitVec 6) (o : BitVec 25) : fld (fmtFar op o) 31 1 = (0#1) :=
  fld_eq fun k h => by rw [fmtFar_bit]; grind
theorem fmtLong_bit (op d : BitVec 6) (hx : BitVec 2) (hi : BitVec 16) (i : Nat) :
    (fmtLong op d hx hi).getLsbD i = (if i < 16 then hi.getLsbD i else if i < 17 then (0#1).getLsbD (i - 16) else if
      i < 19 then hx.getLsbD (i - 17) else if i < 25 then d.getLsbD (i - 19) else if i < 31 then op.getLsbD (i - 25)
      else (1#1).getLsbD (i - 31) : Bool) := by
  have h : (fmtLong op d hx hi).getLsbD i = (1#1 ++ op ++ d ++ hx ++ 0#1 ++ hi).getLsbD i := rfl
  grind
theorem fmtLong_0_16 (op d : BitVec 6) (hx : BitVec 2) (hi : BitVec 16) : fld (fmtLong op d hx hi) 0 16 = hi :=
  fld_eq fun k h => by rw [fmtLong_bit]; grind
theorem fmtLong_16_1 (op d : BitVec 6) (hx : BitVec 2) (hi : BitVec 16) : fld (fmtLong op d hx hi) 16 1 = (0#1) :=
  fld_eq fun k h => by rw [fmtLong_bit]; grind
theorem fmtLong_17_2 (op d : BitVec 6) (hx : BitVec 2) (hi : BitVec 16) : fld (fmtLong op d hx hi) 17 2 = hx :=
  fld_eq fun k h => by rw [fmtLong_bit]; grind
theorem fmtLong_19_6 (op d : BitVec 6) (hx : BitVec 2) (hi : BitVec 16) : fld (fmtLong op d hx hi) 19 6 = d :=
  fld_eq fun k h => by rw [fmtLong_bit]; grind
theorem fmtLong_25_6 (op d : BitVec 6) (hx : BitVec 2) (hi : BitVec 16) : fld (fmtLong op d hx hi) 25 6 = op :=
  fld_eq fun k h => by rw [fmtLong_bit]; grind
theorem fmtLong_31_1 (op d : BitVec 6) (hx : BitVec 2) (hi : BitVec 16) : fld (fmtLong op d hx hi) 31 1 = (1#1) :=
  fld_eq fun k h => by rw [fmtLong_bit]; grind
theorem fmtReg_7_18 (l : BitVec 1) (op : BitVec 6) (fn : BitVec 7) : fld (fmtReg l op 0 0 0 fn) 7 18 = 0 :=
  fld_eq fun k h => by rw [fmtReg_bit]; grind
theorem fmtReg_7_12 (l : BitVec 1) (op d : BitVec 6) (fn : BitVec 7) : fld (fmtReg l op d 0 0 fn) 7 12 = 0 :=
  fld_eq fun k h => by rw [fmtReg_bit]; grind

/-! ### Register fields and the second words of lone bundles -/

theorem regField_code (r : Reg) : regField r.code = .ok r := by
  cases r with
  | g n => revert n; decide
  | q n => revert n; decide
  | sp x => cases x <;> decide
theorem lowField_code (n : BitVec 3) : lowField (lowCode n) = .ok n := by revert n; decide
theorem memReg_code {wd : Width} {t : MemReg} (h : t.fits wd = true) : memReg wd t.code = .ok t := by
  cases wd <;> cases t <;> simp_all [MemReg.fits, memReg, MemReg.code, regField_code, lowField_code]
theorem ext_lo26 (n : BitVec 6) : fld (0#26 ++ n : Half32) 0 6 = n := fld_eq fun i h => by
  have : (0#26 ++ n : Half32).getLsbD (0+i) = (0#26 ++ n).getLsbD (0+i) := rfl
  grind
theorem ext_hi26 (n : BitVec 6) : fld (0#26 ++ n : Half32) 6 26 = 0 := fld_eq fun i h => by
  have : (0#26 ++ n : Half32).getLsbD (6+i) = (0#26 ++ n).getLsbD (6+i) := rfl
  grind
theorem trap_lo (n : BitVec 16) : fld (0#16 ++ n : Half32) 0 16 = n := fld_eq fun i h => by
  have : (0#16 ++ n : Half32).getLsbD (0+i) = (0#16 ++ n).getLsbD (0+i) := rfl
  grind
theorem trap_hi (n : BitVec 16) : fld (0#16 ++ n : Half32) 16 16 = 0 := fld_eq fun i h => by
  have : (0#16 ++ n : Half32).getLsbD (16+i) = (0#16 ++ n).getLsbD (16+i) := rfl
  grind
theorem spawn_lo (k : BitVec 2) (o : BitVec 30) : fld (k ++ o : Half32) 0 30 = o := fld_eq fun i h => by
  have : (k ++ o : Half32).getLsbD (0+i) = (k ++ o).getLsbD (0+i) := rfl
  grind
theorem spawn_hi (k : BitVec 2) (o : BitVec 30) : fld (k ++ o : Half32) 30 2 = k := fld_eq fun i h => by
  have : (k ++ o : Half32).getLsbD (30+i) = (k ++ o).getLsbD (30+i) := rfl
  grind
theorem ext_lo30 (n : BitVec 2) : fld (0#30 ++ n : Half32) 0 2 = n := fld_eq fun i h => by
  have : (0#30 ++ n : Half32).getLsbD (0+i) = (0#30 ++ n).getLsbD (0+i) := rfl
  grind
theorem ext_hi30 (n : BitVec 2) : fld (0#30 ++ n : Half32) 2 30 = 0 := fld_eq fun i h => by
  have : (0#30 ++ n : Half32).getLsbD (2+i) = (0#30 ++ n).getLsbD (2+i) := rfl
  grind
theorem ext_lo27 (n : BitVec 5) : fld (0#27 ++ n : Half32) 0 5 = n := fld_eq fun i h => by
  have : (0#27 ++ n : Half32).getLsbD (0+i) = (0#27 ++ n).getLsbD (0+i) := rfl
  grind
theorem ext_hi27 (n : BitVec 5) : fld (0#27 ++ n : Half32) 5 27 = 0 := fld_eq fun i h => by
  have : (0#27 ++ n : Half32).getLsbD (5+i) = (0#27 ++ n).getLsbD (5+i) := rfl
  grind
theorem word_bit (x : VExt) (i : Nat) : x.word.getLsbD i = (if i < 4 then x.ty.getLsbD i else if i < 8 then
  x.ty2.getLsbD (i - 4)
    else if i < 10 then x.rm.getLsbD (i - 8) else if i < 11 then x.sat.getLsbD (i - 10) else if i < 14 then
      x.c.getLsbD (i - 11)
    else if i < 19 then x.idx.getLsbD (i - 14) else if i < 20 then x.auto.getLsbD (i - 19) else false : Bool) := by
  have h : x.word.getLsbD i = (0#12 ++ x.auto ++ x.idx ++ x.c ++ x.sat ++ x.rm ++ x.ty2 ++ x.ty).getLsbD i := rfl
  grind
theorem ofWord_word (x : VExt) : VExt.ofWord x.word = .ok x := by
  have h0 : fld x.word 20 12 = 0 := fld_eq fun k h => by rw [word_bit]; grind
  have h1 : fld x.word 19 1 = x.auto := fld_eq fun k h => by rw [word_bit]; grind
  have h2 : fld x.word 14 5 = x.idx := fld_eq fun k h => by rw [word_bit]; grind
  have h3 : fld x.word 11 3 = x.c := fld_eq fun k h => by rw [word_bit]; grind
  have h4 : fld x.word 10 1 = x.sat := fld_eq fun k h => by rw [word_bit]; grind
  have h5 : fld x.word 8 2 = x.rm := fld_eq fun k h => by rw [word_bit]; grind
  have h6 : fld x.word 4 4 = x.ty2 := fld_eq fun k h => by rw [word_bit]; grind
  have h7 : fld x.word 0 4 = x.ty := fld_eq fun k h => by rw [word_bit]; grind
  simp only [VExt.ofWord, h0, h1, h2, h3, h4, h5, h6, h7]
  rfl
/-! ### Fields of `fn`, of immediates and of `ext` -/

theorem amo_hi (x : BitVec 3) (y z : BitVec 2) : fld (x ++ y ++ z : BitVec 7) 4 3 = x := by revert x y z; decide
theorem amo_mid (x : BitVec 3) (y z : BitVec 2) : fld (x ++ y ++ z : BitVec 7) 2 2 = y := by revert x y z; decide
theorem amo_lo (x : BitVec 3) (y z : BitVec 2) : fld (x ++ y ++ z : BitVec 7) 0 2 = z := by revert x y z; decide
theorem bar_hi (n : BitVec 3) : fld (0#4 ++ n : BitVec 7) 3 4 = 0 := by revert n; decide
theorem bar_lo (n : BitVec 3) : fld (0#4 ++ n : BitVec 7) 0 3 = n := by revert n; decide
theorem sel_hi (s : Bool) (p : BitVec 3) : fld (0#3 ++ BitVec.ofBool s ++ p : BitVec 7) 4 3 = 0 := by
  revert s p; decide
theorem sel_mid (s : Bool) (p : BitVec 3) : fld (0#3 ++ BitVec.ofBool s ++ p : BitVec 7) 3 1 = BitVec.ofBool s := by
  revert s p; decide
theorem sel_lo (s : Bool) (p : BitVec 3) : fld (0#3 ++ BitVec.ofBool s ++ p : BitVec 7) 0 3 = p := by
  revert s p; decide
theorem imm_hi (k : BitVec 6) : fld (0#7 ++ k : BitVec 13) 6 7 = 0 := by revert k; decide
theorem imm_lo (k : BitVec 6) : fld (0#7 ++ k : BitVec 13) 0 6 = k := by revert k; decide
theorem li_join (m : BitVec 48) : (fld m 32 16 ++ fld m 0 32 : BitVec 48) = m := by
  apply BitVec.eq_of_getLsbD_eq
  intro i hi
  have : (fld m 32 16 ++ fld m 0 32 : BitVec 48).getLsbD i = (fld m 32 16 ++ fld m 0 32).getLsbD i := rfl
  rw [this, BitVec.getLsbD_append, getLsbD_fld, getLsbD_fld]
  grind
theorem send_hi (n : BitVec 3) (t : BitVec 4) : fld (n ++ t : BitVec 7) 4 3 = n := by revert n t; decide
theorem send_lo (n : BitVec 3) (t : BitVec 4) : fld (n ++ t : BitVec 7) 0 4 = t := by revert n t; decide
theorem send_ok {d a b : Reg} {n : BitVec 3} {t : BitVec 4} (w : wellFormed (.send d a b n t) = true) :
    (n != 7) = true ∧ (n != 0 || b.code = 0) = true := by
  simp only [wellFormed, Bool.and_eq_true, Bool.or_eq_true, beq_iff_eq] at w
  refine ⟨w.1, ?_⟩
  rcases w.2 with h | h
  · rw [h]; rfl
  · subst h; simp [Reg.code]
theorem mm_bit_ (i : Nat) (rm : BitVec 2) (row : BitVec 3) : (0#22 ++ rm ++ 0#5 ++ row : Half32).getLsbD i =
    (if i < 3 then row.getLsbD i else if i < 8 then false else if i < 10 then rm.getLsbD (i - 8) else false : Bool) :=
      by
  have : (0#22 ++ rm ++ 0#5 ++ row : Half32).getLsbD i = (0#22 ++ rm ++ 0#5 ++ row).getLsbD i := rfl
  grind
theorem mm_row (rm : BitVec 2) (row : BitVec 3) : fld (0#22 ++ rm ++ 0#5 ++ row : Half32) 0 3 = row :=
  fld_eq fun k h => by rw [mm_bit_]; grind
theorem mm_rm (rm : BitVec 2) (row : BitVec 3) : fld (0#22 ++ rm ++ 0#5 ++ row : Half32) 8 2 = rm :=
  fld_eq fun k h => by rw [mm_bit_]; grind
theorem mm_z (rm : BitVec 2) (row : BitVec 3) : fld (0#22 ++ rm ++ 0#5 ++ row : Half32) 10 22 = 0 :=
  fld_eq fun k h => by rw [mm_bit_]; grind
theorem mm_y (rm : BitVec 2) (row : BitVec 3) : fld (0#22 ++ rm ++ 0#5 ++ row : Half32) 3 5 = 0 :=
  fld_eq fun k h => by rw [mm_bit_]; grind
theorem mm_bit (rm : BitVec 2) (row : BitVec 3) : fld (0#22 ++ rm ++ 0#5 ++ row : Half32) 0 1 = fld row 0 1 :=
  fld_eq fun k h => by rw [mm_bit_, getLsbD_fld]; grind
theorem row_even {row : BitVec 3} (h : (!row.getLsbD 0) = true) : fld row 0 1 = 0 := by revert row; decide
theorem NumTy_ofCode (t : NumTy) : NumTy.ofCode t.code = some t := by rcases t with t | t <;> cases t <;> rfl
theorem IntTy_ofCode (t : IntTy) : IntTy.ofCode t.code = some t := by cases t <;> rfl
theorem FloatTy_ofCode (t : FloatTy) : FloatTy.ofCode t.code = some t := by cases t <;> rfl
theorem Rm_ofCode (t : Rm) : Rm.ofCode t.code = t := by cases t <;> rfl
theorem idx_t (t p : BitVec 2) : fld (idxTP t p) 3 2 = t := by revert t p; decide
theorem idx_p (t p : BitVec 2) : fld (idxTP t p) 0 3 = (0#1 ++ p : BitVec 3) := by revert t p; decide
theorem idx_lo (p : BitVec 2) : fld (0#1 ++ p : BitVec 3) 0 2 = p := by revert p; decide
theorem pre_lo (x : BitVec 3) (wd : Width) : fld (x ++ wd.code : BitVec 6) 0 3 = wd.code := by
  cases wd <;> revert x <;> decide
theorem Width_ofCode (w : Width) : Width.ofCode w.code = some w := by cases w <;> rfl
theorem part_lt (p : BitVec 2) : (decide ((0#1 ++ p : BitVec 3).toNat < 4)) = true := by revert p; decide
theorem part_lt2 {p : BitVec 2} (h : (decide (p.toNat < 2)) = true) : (decide ((0#1 ++ p :
    BitVec 3).toNat < 2)) = true := by
  revert p; decide
theorem idx_t0 (p : BitVec 3) : fld (0#2 ++ p : BitVec 5) 3 2 = 0 := by revert p; decide
theorem idx_p0 (p : BitVec 3) : fld (0#2 ++ p : BitVec 5) 0 3 = p := by revert p; decide
/-! ### Memory words name their decoder by three bits -/

theorem ld_word (wd : Width) (t b : BitVec 6) (f : BitVec 2) (o : BitVec 11) :
    decodeC (fmtMem (1#3 ++ wd.code) t b f o) = decodeMem true (fmtMem (1#3 ++ wd.code) t b f o) := by
  cases wd <;> simp only [decodeC, fmtMem_25_6] <;> rfl
theorem st_word (wd : Width) (t b : BitVec 6) (f : BitVec 2) (o : BitVec 11) :
    decodeC (fmtMem (2#3 ++ wd.code) t b f o) = decodeMem false (fmtMem (2#3 ++ wd.code) t b f o) := by
  cases wd <;> simp only [decodeC, fmtMem_25_6] <;> rfl
theorem ldIdx_word (wd : Width) (t b x : BitVec 6) (f : BitVec 2) (k : BitVec 3) :
    decodeC (fmtIdx (3#3 ++ wd.code) t b x f k) = decodeIdx true (fmtIdx (3#3 ++ wd.code) t b x f k) := by
  cases wd <;> simp only [decodeC, fmtIdx_25_6] <;> rfl
theorem stIdx_word (wd : Width) (t b x : BitVec 6) (f : BitVec 2) (k : BitVec 3) :
    decodeC (fmtIdx (4#3 ++ wd.code) t b x f k) = decodeIdx false (fmtIdx (4#3 ++ wd.code) t b x f k) := by
  cases wd <;> simp only [decodeC, fmtIdx_25_6] <;> rfl

end Sys2Proof.Laws.Encode
end

