-- ==== Sys2Proof/Laws/Tbl.lean ====
section
/-!
SUPPORT. Finite maps (`tget`, `tput`, `tdel`, `tmod`): what a read finds after an update, and that updates keep the
keys rising.
-/

namespace Sys2Proof.Machine

variable {α : Type}

@[simp] theorem tget_nil (k : Nat) : tget ([] : Tbl α) k = none := rfl

@[simp] theorem tget_tput_self (l : Tbl α) (k : Nat) (x : α) : tget (tput l k x) k = some x := by
  induction l with
  | nil => simp [tput, tget]
  | cons p r ih =>
    obtain ⟨j, y⟩ := p
    rcases Nat.lt_trichotomy k j with h | h | h
    · simp [tput, tget, h]
    · simp [tput, tget, h]
    · simp [tput, tget, Nat.not_lt_of_gt h, Nat.ne_of_lt h, ih]

theorem tget_tput_ne (l : Tbl α) {k j : Nat} (x : α) (h : j ≠ k) : tget (tput l k x) j = tget l j := by
  induction l with
  | nil => simp [tput, tget, Ne.symm h]
  | cons p r ih =>
    obtain ⟨i, y⟩ := p
    rcases Nat.lt_trichotomy k i with h' | h' | h'
    · simp [tput, tget, h', Ne.symm h]
    · subst h'; simp [tput, tget, Ne.symm h]
    · simp [tput, tget, Nat.not_lt_of_gt h', Nat.ne_of_lt h', ih]

theorem tput_tput (l : Tbl α) (k : Nat) (x y : α) : tput (tput l k x) k y = tput l k y := by
  induction l with
  | nil => simp [tput]
  | cons p r ih =>
    obtain ⟨j, z⟩ := p
    rcases Nat.lt_trichotomy k j with h | h | h
    · simp [tput, h]
    · simp [tput, h]
    · simp [tput, Nat.not_lt_of_gt h, Nat.ne_of_lt h, ih]

theorem tmod_some {l : Tbl α} {k : Nat} {x : α} (f : α → α) (h : tget l k = some x) : tmod l k f = tput l k (f x) := by
  simp [tmod, h]

@[simp] theorem tmod_tput (l : Tbl α) (k : Nat) (x : α) (f : α → α) : tmod (tput l k x) k f = tput l k (f x) := by
  rw [tmod_some f (tget_tput_self l k x), tput_tput]

theorem tget_tdel_self (l : Tbl α) (k : Nat) : tget (tdel l k) k = none := by
  induction l with
  | nil => rfl
  | cons p r ih =>
    by_cases h : p.1 = k
    · simpa [tdel, h] using ih
    · simpa [tdel, h, tget] using ih

theorem tget_tdel_ne (l : Tbl α) {k j : Nat} (h : j ≠ k) : tget (tdel l k) j = tget l j := by
  induction l with
  | nil => rfl
  | cons p r ih =>
    by_cases h' : p.1 = k
    · have : tget (p :: r) j = tget r j := by
        obtain ⟨i, y⟩ := p
        simp only at h'
        simp [tget, h', Ne.symm h]
      rw [this, ← ih]
      simp [tdel, h']
    · obtain ⟨i, y⟩ := p
      simp only [tdel] at ih ⊢
      simp [h', tget, ih]

/-! ### Rising keys -/

/-- Every key is above a bound. -/
theorem rising_cons (k : Nat) (x : α) (l : Tbl α) :
    rising ((k, x) :: l) = true ↔ (∀ p ∈ l, k < p.1) ∧ rising l = true := by
  induction l generalizing k x with
  | nil => simp [rising]
  | cons p r ih =>
    obtain ⟨j, y⟩ := p
    simp only [rising, Bool.and_eq_true, decide_eq_true_eq, List.forall_mem_cons]
    constructor
    · rintro ⟨h1, h2⟩
      exact ⟨⟨h1, fun q hq => Nat.lt_trans h1 (((ih j y).1 h2).1 q hq)⟩, h2⟩
    · rintro ⟨⟨h1, -⟩, h3⟩
      exact ⟨h1, h3⟩

theorem rising_filter (l : Tbl α) (f : Nat × α → Bool) (h : rising l = true) : rising (l.filter f) = true := by
  induction l with
  | nil => simpa using h
  | cons p r ih =>
    obtain ⟨h1, h2⟩ := (rising_cons p.1 p.2 r).1 h
    by_cases hf : f p
    · rw [List.filter_cons_of_pos hf]
      exact (rising_cons p.1 p.2 _).2 ⟨fun q hq => h1 q ((List.mem_filter.1 hq).1), ih h2⟩
    · rw [List.filter_cons_of_neg hf]
      exact ih h2

theorem mem_tput {l : Tbl α} {k : Nat} {x : α} {p : Nat × α} (h : p ∈ tput l k x) : p = (k, x) ∨ p ∈ l := by
  induction l with
  | nil => simpa [tput] using h
  | cons q r ih =>
    obtain ⟨j, y⟩ := q
    simp only [tput] at h
    split at h
    · simpa using h
    · split at h
      · rcases List.mem_cons.1 h with h | h
        · exact .inl h
        · exact .inr (List.mem_cons_of_mem _ h)
      · rcases List.mem_cons.1 h with h | h
        · exact .inr (by simp [h])
        · rcases ih h with h | h
          · exact .inl h
          · exact .inr (List.mem_cons_of_mem _ h)

theorem rising_tput (l : Tbl α) (k : Nat) (x : α) (h : rising l = true) : rising (tput l k x) = true := by
  induction l with
  | nil => rfl
  | cons p r ih =>
    obtain ⟨j, y⟩ := p
    obtain ⟨h1, h2⟩ := (rising_cons j y r).1 h
    simp only [tput]
    split
    · rename_i hk
      refine (rising_cons k x _).2 ⟨fun q hq => ?_, h⟩
      rcases List.mem_cons.1 hq with rfl | hq
      · exact hk
      · exact Nat.lt_trans hk (h1 q hq)
    · split
      · rename_i _ hj
        exact (rising_cons k x r).2 ⟨fun q hq => hj ▸ h1 q hq, h2⟩
      · rename_i hk hj
        refine (rising_cons j y _).2 ⟨fun q hq => ?_, ih h2⟩
        rcases mem_tput hq with rfl | hq
        · simp only; omega
        · exact h1 q hq

theorem rising_tdel (l : Tbl α) (k : Nat) (h : rising l = true) : rising (tdel l k) = true := rising_filter l _ h

end Sys2Proof.Machine
end

