-- ==== Sys2Proof/Laws/Memory.lean ====
section
/-!
SUPPORT. Memory: a read after a write, and that every operation that writes memory keeps its canonical form
(rising addresses, no zero byte listed).
-/

namespace Sys2Proof.Machine

/-! ### Reads after writes -/

theorem readByte_writeByte_self (m : List Host.Cell) (k : Nat) (b : Byte) : readByte (writeByte m k b) k = b := by
  unfold readByte writeByte
  split
  · rename_i h
    simp [tget_tdel_self, h]
  · simp

theorem readByte_writeByte_ne (m : List Host.Cell) {k j : Nat} (b : Byte) (h : j ≠ k) :
    readByte (writeByte m k b) j = readByte m j := by
  unfold readByte writeByte
  split
  · rw [tget_tdel_ne m h]
  · rw [tget_tput_ne m b h]

theorem readByte_writeLE_out (m : List Host.Cell) (k n v j : Nat) (h : j < k ∨ k + n ≤ j) :
    readByte (writeLE m k n v) j = readByte m j := by
  induction n generalizing m k v with
  | zero => rfl
  | succ n ih =>
    rw [writeLE, ih _ _ _ (by omega), readByte_writeByte_ne _ _ (by omega)]

theorem readByte_writeLE_in (m : List Host.Cell) (k n v j : Nat) (h : j < n) :
    readByte (writeLE m k n v) (k + j) = BitVec.ofNat 8 (v / 256 ^ j) := by
  induction n generalizing m k v j with
  | zero => omega
  | succ n ih =>
    rw [writeLE]
    cases j with
    | zero => rw [readByte_writeLE_out _ _ _ _ _ (by omega)]; simp [readByte_writeByte_self]
    | succ j =>
      have := ih (writeByte m k (BitVec.ofNat 8 v)) (k + 1) (v / 256) j (by omega)
      rw [show k + (j + 1) = k + 1 + j by omega, this, Nat.div_div_eq_div_mul, Nat.pow_succ, Nat.mul_comm]

theorem readLE_congr {m m' : List Host.Cell} (k n : Nat) (h : ∀ j, k ≤ j → j < k + n → readByte m j = readByte m' j) :
    readLE m k n = readLE m' k n := by
  induction n generalizing k with
  | zero => rfl
  | succ n ih =>
    rw [readLE, readLE, h k (by omega) (by omega), ih (k + 1) fun j h1 h2 => h j (by omega) (by omega)]

theorem readLE_writeLE_self (m : List Host.Cell) (k n v : Nat) : readLE (writeLE m k n v) k n = v % 256 ^ n := by
  induction n generalizing m k v with
  | zero => simp [readLE, Nat.mod_one]
  | succ n ih =>
    rw [readLE, writeLE, readByte_writeLE_out _ _ _ _ _ (by omega), readByte_writeByte_self, ih]
    simp only [BitVec.toNat_ofNat]
    rw [show (256 : Nat) ^ (n + 1) = 256 * 256 ^ n by rw [Nat.pow_succ, Nat.mul_comm], Nat.mod_mul]

theorem readLE_writeLE_out (m : List Host.Cell) (k n v j l : Nat) (h : j + l ≤ k ∨ k + n ≤ j) :
    readLE (writeLE m k n v) j l = readLE m j l :=
  readLE_congr j l fun i h1 h2 => readByte_writeLE_out m k n v i (by omega)

theorem readByte_writeWords_out (m : List Host.Cell) (k : Nat) (ws : List Word) (j : Nat)
    (h : j < k ∨ k + 8 * ws.length ≤ j) : readByte (writeWords m k ws) j = readByte m j := by
  induction ws generalizing m k with
  | nil => rfl
  | cons w r ih =>
    simp only [List.length_cons] at h
    rw [writeWords, ih _ _ (by omega), readByte_writeLE_out _ _ _ _ _ (by omega)]

/-! ### The canonical form -/

theorem memWf_iff (m : List Host.Cell) : memWf m = true ↔ rising m = true ∧ ∀ p ∈ m, p.2 ≠ 0 := by
  simp [memWf, List.all_eq_true]

theorem memWf_nil : memWf [] = true := rfl

theorem memWf_filter (m : List Host.Cell) (f : Host.Cell → Bool) (h : memWf m = true) : memWf (m.filter f) = true := by
  rw [memWf_iff] at h ⊢
  exact ⟨rising_filter m f h.1, fun p hp => h.2 p ((List.mem_filter.1 hp).1)⟩

theorem memWf_writeByte (m : List Host.Cell) (k : Nat) (b : Byte) (h : memWf m = true) :
    memWf (writeByte m k b) = true := by
  unfold writeByte
  split
  · exact memWf_filter m _ h
  · rename_i hb
    rw [memWf_iff] at h ⊢
    refine ⟨rising_tput m k b h.1, fun p hp => ?_⟩
    rcases mem_tput hp with rfl | hp
    · exact hb
    · exact h.2 p hp

theorem memWf_writeLE (m : List Host.Cell) (k n v : Nat) (h : memWf m = true) : memWf (writeLE m k n v) = true := by
  induction n generalizing m k v with
  | zero => exact h
  | succ n ih => exact ih _ _ _ (memWf_writeByte m k _ h)

theorem memWf_writeBytes (m : List Host.Cell) (k : Nat) (bs : List Byte) (h : memWf m = true) :
    memWf (writeBytes m k bs) = true := by
  induction bs generalizing m k with
  | nil => exact h
  | cons b r ih => exact ih _ _ (memWf_writeByte m k b h)

theorem memWf_writeWords (m : List Host.Cell) (k : Nat) (ws : List Word) (h : memWf m = true) :
    memWf (writeWords m k ws) = true := by
  induction ws generalizing m k with
  | nil => exact h
  | cons w r ih => exact ih _ _ (memWf_writeLE m k 8 _ h)

theorem memWf_dropCells (m : List Host.Cell) (k n : Nat) (h : memWf m = true) : memWf (dropCells m k n) = true :=
  memWf_filter m _ h

theorem memWf_mergeCells (m b : List Host.Cell) (h : memWf m = true) : memWf (mergeCells m b) = true := by
  unfold mergeCells
  induction b generalizing m with
  | nil => exact h
  | cons p r ih => exact ih _ (memWf_writeByte m p.1 p.2 h)

end Sys2Proof.Machine
end

