-- ==== Sys2Proof/Laws/State.lean ====
section
/-!
SUPPORT. What each update of the state leaves in each field: one lemma per field and update, true by unfolding, for
the simplifier.
-/

set_option Elab.async false

namespace Sys2Proof.Machine

/-! ### `State.setCore` -/

@[simp] theorem State.clock_setCore (s : State) (c : Nat) (x : Core) : (s.setCore c x).clock = s.clock := rfl
@[simp] theorem State.mem_setCore (s : State) (c : Nat) (x : Core) : (s.setCore c x).mem = s.mem := rfl
@[simp] theorem State.empt_setCore (s : State) (c : Nat) (x : Core) : (s.setCore c x).empt = s.empt := rfl
@[simp] theorem State.soft_setCore (s : State) (c : Nat) (x : Core) : (s.setCore c x).soft = s.soft := rfl
@[simp] theorem State.bad_setCore (s : State) (c : Nat) (x : Core) : (s.setCore c x).bad = s.bad := rfl
@[simp] theorem State.patched_setCore (s : State) (c : Nat) (x : Core) : (s.setCore c x).patched = s.patched := rfl
@[simp] theorem State.hostMem_setCore (s : State) (c : Nat) (x : Core) : (s.setCore c x).hostMem = s.hostMem := rfl
@[simp] theorem State.threads_setCore (s : State) (c : Nat) (x : Core) : (s.setCore c x).threads = s.threads := rfl
@[simp] theorem State.cores_setCore (s : State) (c : Nat) (x : Core) : (s.setCore c x).cores = tput s.cores c x := rfl
@[simp] theorem State.squares_setCore (s : State) (c : Nat) (x : Core) : (s.setCore c x).squares = s.squares := rfl
@[simp] theorem State.launches_setCore (s : State) (c : Nat) (x : Core) : (s.setCore c x).launches = s.launches := rfl
@[simp] theorem State.sq_setCore (s : State) (c : Nat) (x : Core) : (s.setCore c x).sq = s.sq := rfl
@[simp] theorem State.net_setCore (s : State) (c : Nat) (x : Core) : (s.setCore c x).net = s.net := rfl
@[simp] theorem State.ways_setCore (s : State) (c : Nat) (x : Core) : (s.setCore c x).ways = s.ways := rfl
@[simp] theorem State.stamp_setCore (s : State) (c : Nat) (x : Core) : (s.setCore c x).stamp = s.stamp := rfl
@[simp] theorem State.hostHold_setCore (s : State) (c : Nat) (x : Core) : (s.setCore c x).hostHold = s.hostHold := rfl
@[simp] theorem State.waits_setCore (s : State) (c : Nat) (x : Core) : (s.setCore c x).waits = s.waits := rfl
@[simp] theorem State.roomAsk_setCore (s : State) (c : Nat) (x : Core) : (s.setCore c x).roomAsk = s.roomAsk := rfl
@[simp] theorem State.tumblers_setCore (s : State) (c : Nat) (x : Core) : (s.setCore c x).tumblers = s.tumblers := rfl
@[simp] theorem State.heaps_setCore (s : State) (c : Nat) (x : Core) : (s.setCore c x).heaps = s.heaps := rfl
@[simp] theorem State.hampers_setCore (s : State) (c : Nat) (x : Core) : (s.setCore c x).hampers = s.hampers := rfl
@[simp] theorem State.streets_setCore (s : State) (c : Nat) (x : Core) : (s.setCore c x).streets = s.streets := rfl
@[simp] theorem State.rootTable_setCore (s : State) (c : Nat) (x : Core) : (s.setCore c x).rootTable = s.rootTable := rfl
@[simp] theorem State.ringAddr_setCore (s : State) (c : Nat) (x : Core) : (s.setCore c x).ringAddr = s.ringAddr := rfl
@[simp] theorem State.smapAddr_setCore (s : State) (c : Nat) (x : Core) : (s.setCore c x).smapAddr = s.smapAddr := rfl
@[simp] theorem State.sensors_setCore (s : State) (c : Nat) (x : Core) : (s.setCore c x).sensors = s.sensors := rfl
@[simp] theorem State.scrubPeriod_setCore (s : State) (c : Nat) (x : Core) : (s.setCore c x).scrubPeriod = s.scrubPeriod := rfl
@[simp] theorem State.scrubBase_setCore (s : State) (c : Nat) (x : Core) : (s.setCore c x).scrubBase = s.scrubBase := rfl
@[simp] theorem State.scrubNext_setCore (s : State) (c : Nat) (x : Core) : (s.setCore c x).scrubNext = s.scrubNext := rfl
@[simp] theorem State.hotNext_setCore (s : State) (c : Nat) (x : Core) : (s.setCore c x).hotNext = s.hotNext := rfl
@[simp] theorem State.hot_setCore (s : State) (c : Nat) (x : Core) : (s.setCore c x).hot = s.hot := rfl
@[simp] theorem State.counters_setCore (s : State) (c : Nat) (x : Core) : (s.setCore c x).counters = s.counters := rfl
@[simp] theorem State.alerts_setCore (s : State) (c : Nat) (x : Core) : (s.setCore c x).alerts = s.alerts := rfl
@[simp] theorem State.delay_setCore (s : State) (c : Nat) (x : Core) : (s.setCore c x).delay = s.delay := rfl
@[simp] theorem State.writing_setCore (s : State) (c : Nat) (x : Core) : (s.setCore c x).writing = s.writing := rfl
@[simp] theorem State.hold_setCore (s : State) (c : Nat) (x : Core) : (s.setCore c x).hold = s.hold := rfl
@[simp] theorem State.nextId_setCore (s : State) (c : Nat) (x : Core) : (s.setCore c x).nextId = s.nextId := rfl
@[simp] theorem State.nextTid_setCore (s : State) (c : Nat) (x : Core) : (s.setCore c x).nextTid = s.nextTid := rfl
@[simp] theorem State.nextLid_setCore (s : State) (c : Nat) (x : Core) : (s.setCore c x).nextLid = s.nextLid := rfl
@[simp] theorem State.free_setCore (s : State) (c : Nat) (x : Core) : (s.setCore c x).free = s.free := rfl
@[simp] theorem State.halted_setCore (s : State) (c : Nat) (x : Core) : (s.setCore c x).halted = s.halted := rfl
@[simp] theorem State.mismatches_setCore (s : State) (c : Nat) (x : Core) : (s.setCore c x).mismatches = s.mismatches := rfl
@[simp] theorem State.refusals_setCore (s : State) (c : Nat) (x : Core) : (s.setCore c x).refusals = s.refusals := rfl
@[simp] theorem State.unpowered_setCore (s : State) (c : Nat) (x : Core) : (s.setCore c x).unpowered = s.unpowered := rfl
@[simp] theorem State.ctx_setCore (s : State) (c : Nat) (x : Core) : (s.setCore c x).ctx = s.ctx := rfl
@[simp] theorem State.turn_setCore (s : State) (c : Nat) (x : Core) : (s.setCore c x).turn = s.turn := rfl
@[simp] theorem State.plan_setCore (s : State) (c : Nat) (x : Core) : (s.setCore c x).plan = s.plan := rfl
@[simp] theorem State.pending_setCore (s : State) (c : Nat) (x : Core) : (s.setCore c x).pending = s.pending := rfl
@[simp] theorem State.queue_setCore (s : State) (c : Nat) (x : Core) : (s.setCore c x).queue = s.queue := rfl

/-! ### `State.modCore` -/

@[simp] theorem State.clock_modCore (s : State) (c : Nat) (f : Core → Core) : (s.modCore c f).clock = s.clock := rfl
@[simp] theorem State.mem_modCore (s : State) (c : Nat) (f : Core → Core) : (s.modCore c f).mem = s.mem := rfl
@[simp] theorem State.empt_modCore (s : State) (c : Nat) (f : Core → Core) : (s.modCore c f).empt = s.empt := rfl
@[simp] theorem State.soft_modCore (s : State) (c : Nat) (f : Core → Core) : (s.modCore c f).soft = s.soft := rfl
@[simp] theorem State.bad_modCore (s : State) (c : Nat) (f : Core → Core) : (s.modCore c f).bad = s.bad := rfl
@[simp] theorem State.patched_modCore (s : State) (c : Nat) (f : Core → Core) : (s.modCore c f).patched = s.patched := rfl
@[simp] theorem State.hostMem_modCore (s : State) (c : Nat) (f : Core → Core) : (s.modCore c f).hostMem = s.hostMem := rfl
@[simp] theorem State.threads_modCore (s : State) (c : Nat) (f : Core → Core) : (s.modCore c f).threads = s.threads := rfl
@[simp] theorem State.cores_modCore (s : State) (c : Nat) (f : Core → Core) : (s.modCore c f).cores = tput s.cores c (f (s.core c)) := rfl
@[simp] theorem State.squares_modCore (s : State) (c : Nat) (f : Core → Core) : (s.modCore c f).squares = s.squares := rfl
@[simp] theorem State.launches_modCore (s : State) (c : Nat) (f : Core → Core) : (s.modCore c f).launches = s.launches := rfl
@[simp] theorem State.sq_modCore (s : State) (c : Nat) (f : Core → Core) : (s.modCore c f).sq = s.sq := rfl
@[simp] theorem State.net_modCore (s : State) (c : Nat) (f : Core → Core) : (s.modCore c f).net = s.net := rfl
@[simp] theorem State.ways_modCore (s : State) (c : Nat) (f : Core → Core) : (s.modCore c f).ways = s.ways := rfl
@[simp] theorem State.stamp_modCore (s : State) (c : Nat) (f : Core → Core) : (s.modCore c f).stamp = s.stamp := rfl
@[simp] theorem State.hostHold_modCore (s : State) (c : Nat) (f : Core → Core) : (s.modCore c f).hostHold = s.hostHold := rfl
@[simp] theorem State.waits_modCore (s : State) (c : Nat) (f : Core → Core) : (s.modCore c f).waits = s.waits := rfl
@[simp] theorem State.roomAsk_modCore (s : State) (c : Nat) (f : Core → Core) : (s.modCore c f).roomAsk = s.roomAsk := rfl
@[simp] theorem State.tumblers_modCore (s : State) (c : Nat) (f : Core → Core) : (s.modCore c f).tumblers = s.tumblers := rfl
@[simp] theorem State.heaps_modCore (s : State) (c : Nat) (f : Core → Core) : (s.modCore c f).heaps = s.heaps := rfl
@[simp] theorem State.hampers_modCore (s : State) (c : Nat) (f : Core → Core) : (s.modCore c f).hampers = s.hampers := rfl
@[simp] theorem State.streets_modCore (s : State) (c : Nat) (f : Core → Core) : (s.modCore c f).streets = s.streets := rfl
@[simp] theorem State.rootTable_modCore (s : State) (c : Nat) (f : Core → Core) : (s.modCore c f).rootTable = s.rootTable := rfl
@[simp] theorem State.ringAddr_modCore (s : State) (c : Nat) (f : Core → Core) : (s.modCore c f).ringAddr = s.ringAddr := rfl
@[simp] theorem State.smapAddr_modCore (s : State) (c : Nat) (f : Core → Core) : (s.modCore c f).smapAddr = s.smapAddr := rfl
@[simp] theorem State.sensors_modCore (s : State) (c : Nat) (f : Core → Core) : (s.modCore c f).sensors = s.sensors := rfl
@[simp] theorem State.scrubPeriod_modCore (s : State) (c : Nat) (f : Core → Core) : (s.modCore c f).scrubPeriod = s.scrubPeriod := rfl
@[simp] theorem State.scrubBase_modCore (s : State) (c : Nat) (f : Core → Core) : (s.modCore c f).scrubBase = s.scrubBase := rfl
@[simp] theorem State.scrubNext_modCore (s : State) (c : Nat) (f : Core → Core) : (s.modCore c f).scrubNext = s.scrubNext := rfl
@[simp] theorem State.hotNext_modCore (s : State) (c : Nat) (f : Core → Core) : (s.modCore c f).hotNext = s.hotNext := rfl
@[simp] theorem State.hot_modCore (s : State) (c : Nat) (f : Core → Core) : (s.modCore c f).hot = s.hot := rfl
@[simp] theorem State.counters_modCore (s : State) (c : Nat) (f : Core → Core) : (s.modCore c f).counters = s.counters := rfl
@[simp] theorem State.alerts_modCore (s : State) (c : Nat) (f : Core → Core) : (s.modCore c f).alerts = s.alerts := rfl
@[simp] theorem State.delay_modCore (s : State) (c : Nat) (f : Core → Core) : (s.modCore c f).delay = s.delay := rfl
@[simp] theorem State.writing_modCore (s : State) (c : Nat) (f : Core → Core) : (s.modCore c f).writing = s.writing := rfl
@[simp] theorem State.hold_modCore (s : State) (c : Nat) (f : Core → Core) : (s.modCore c f).hold = s.hold := rfl
@[simp] theorem State.nextId_modCore (s : State) (c : Nat) (f : Core → Core) : (s.modCore c f).nextId = s.nextId := rfl
@[simp] theorem State.nextTid_modCore (s : State) (c : Nat) (f : Core → Core) : (s.modCore c f).nextTid = s.nextTid := rfl
@[simp] theorem State.nextLid_modCore (s : State) (c : Nat) (f : Core → Core) : (s.modCore c f).nextLid = s.nextLid := rfl
@[simp] theorem State.free_modCore (s : State) (c : Nat) (f : Core → Core) : (s.modCore c f).free = s.free := rfl
@[simp] theorem State.halted_modCore (s : State) (c : Nat) (f : Core → Core) : (s.modCore c f).halted = s.halted := rfl
@[simp] theorem State.mismatches_modCore (s : State) (c : Nat) (f : Core → Core) : (s.modCore c f).mismatches = s.mismatches := rfl
@[simp] theorem State.refusals_modCore (s : State) (c : Nat) (f : Core → Core) : (s.modCore c f).refusals = s.refusals := rfl
@[simp] theorem State.unpowered_modCore (s : State) (c : Nat) (f : Core → Core) : (s.modCore c f).unpowered = s.unpowered := rfl
@[simp] theorem State.ctx_modCore (s : State) (c : Nat) (f : Core → Core) : (s.modCore c f).ctx = s.ctx := rfl
@[simp] theorem State.turn_modCore (s : State) (c : Nat) (f : Core → Core) : (s.modCore c f).turn = s.turn := rfl
@[simp] theorem State.plan_modCore (s : State) (c : Nat) (f : Core → Core) : (s.modCore c f).plan = s.plan := rfl
@[simp] theorem State.pending_modCore (s : State) (c : Nat) (f : Core → Core) : (s.modCore c f).pending = s.pending := rfl
@[simp] theorem State.queue_modCore (s : State) (c : Nat) (f : Core → Core) : (s.modCore c f).queue = s.queue := rfl

/-! ### `State.modSlot` -/

@[simp] theorem State.clock_modSlot (s : State) (c n : Nat) (f : Slot → Slot) : (s.modSlot c n f).clock = s.clock := rfl
@[simp] theorem State.mem_modSlot (s : State) (c n : Nat) (f : Slot → Slot) : (s.modSlot c n f).mem = s.mem := rfl
@[simp] theorem State.empt_modSlot (s : State) (c n : Nat) (f : Slot → Slot) : (s.modSlot c n f).empt = s.empt := rfl
@[simp] theorem State.soft_modSlot (s : State) (c n : Nat) (f : Slot → Slot) : (s.modSlot c n f).soft = s.soft := rfl
@[simp] theorem State.bad_modSlot (s : State) (c n : Nat) (f : Slot → Slot) : (s.modSlot c n f).bad = s.bad := rfl
@[simp] theorem State.patched_modSlot (s : State) (c n : Nat) (f : Slot → Slot) : (s.modSlot c n f).patched = s.patched := rfl
@[simp] theorem State.hostMem_modSlot (s : State) (c n : Nat) (f : Slot → Slot) : (s.modSlot c n f).hostMem = s.hostMem := rfl
@[simp] theorem State.threads_modSlot (s : State) (c n : Nat) (f : Slot → Slot) : (s.modSlot c n f).threads = s.threads := rfl
@[simp] theorem State.cores_modSlot (s : State) (c n : Nat) (f : Slot → Slot) : (s.modSlot c n f).cores = tput s.cores c ((s.core c).modSlot n f) := rfl
@[simp] theorem State.squares_modSlot (s : State) (c n : Nat) (f : Slot → Slot) : (s.modSlot c n f).squares = s.squares := rfl
@[simp] theorem State.launches_modSlot (s : State) (c n : Nat) (f : Slot → Slot) : (s.modSlot c n f).launches = s.launches := rfl
@[simp] theorem State.sq_modSlot (s : State) (c n : Nat) (f : Slot → Slot) : (s.modSlot c n f).sq = s.sq := rfl
@[simp] theorem State.net_modSlot (s : State) (c n : Nat) (f : Slot → Slot) : (s.modSlot c n f).net = s.net := rfl
@[simp] theorem State.ways_modSlot (s : State) (c n : Nat) (f : Slot → Slot) : (s.modSlot c n f).ways = s.ways := rfl
@[simp] theorem State.stamp_modSlot (s : State) (c n : Nat) (f : Slot → Slot) : (s.modSlot c n f).stamp = s.stamp := rfl
@[simp] theorem State.hostHold_modSlot (s : State) (c n : Nat) (f : Slot → Slot) : (s.modSlot c n f).hostHold = s.hostHold := rfl
@[simp] theorem State.waits_modSlot (s : State) (c n : Nat) (f : Slot → Slot) : (s.modSlot c n f).waits = s.waits := rfl
@[simp] theorem State.roomAsk_modSlot (s : State) (c n : Nat) (f : Slot → Slot) : (s.modSlot c n f).roomAsk = s.roomAsk := rfl
@[simp] theorem State.tumblers_modSlot (s : State) (c n : Nat) (f : Slot → Slot) : (s.modSlot c n f).tumblers = s.tumblers := rfl
@[simp] theorem State.heaps_modSlot (s : State) (c n : Nat) (f : Slot → Slot) : (s.modSlot c n f).heaps = s.heaps := rfl
@[simp] theorem State.hampers_modSlot (s : State) (c n : Nat) (f : Slot → Slot) : (s.modSlot c n f).hampers = s.hampers := rfl
@[simp] theorem State.streets_modSlot (s : State) (c n : Nat) (f : Slot → Slot) : (s.modSlot c n f).streets = s.streets := rfl
@[simp] theorem State.rootTable_modSlot (s : State) (c n : Nat) (f : Slot → Slot) : (s.modSlot c n f).rootTable = s.rootTable := rfl
@[simp] theorem State.ringAddr_modSlot (s : State) (c n : Nat) (f : Slot → Slot) : (s.modSlot c n f).ringAddr = s.ringAddr := rfl
@[simp] theorem State.smapAddr_modSlot (s : State) (c n : Nat) (f : Slot → Slot) : (s.modSlot c n f).smapAddr = s.smapAddr := rfl
@[simp] theorem State.sensors_modSlot (s : State) (c n : Nat) (f : Slot → Slot) : (s.modSlot c n f).sensors = s.sensors := rfl
@[simp] theorem State.scrubPeriod_modSlot (s : State) (c n : Nat) (f : Slot → Slot) : (s.modSlot c n f).scrubPeriod = s.scrubPeriod := rfl
@[simp] theorem State.scrubBase_modSlot (s : State) (c n : Nat) (f : Slot → Slot) : (s.modSlot c n f).scrubBase = s.scrubBase := rfl
@[simp] theorem State.scrubNext_modSlot (s : State) (c n : Nat) (f : Slot → Slot) : (s.modSlot c n f).scrubNext = s.scrubNext := rfl
@[simp] theorem State.hotNext_modSlot (s : State) (c n : Nat) (f : Slot → Slot) : (s.modSlot c n f).hotNext = s.hotNext := rfl
@[simp] theorem State.hot_modSlot (s : State) (c n : Nat) (f : Slot → Slot) : (s.modSlot c n f).hot = s.hot := rfl
@[simp] theorem State.counters_modSlot (s : State) (c n : Nat) (f : Slot → Slot) : (s.modSlot c n f).counters = s.counters := rfl
@[simp] theorem State.alerts_modSlot (s : State) (c n : Nat) (f : Slot → Slot) : (s.modSlot c n f).alerts = s.alerts := rfl
@[simp] theorem State.delay_modSlot (s : State) (c n : Nat) (f : Slot → Slot) : (s.modSlot c n f).delay = s.delay := rfl
@[simp] theorem State.writing_modSlot (s : State) (c n : Nat) (f : Slot → Slot) : (s.modSlot c n f).writing = s.writing := rfl
@[simp] theorem State.hold_modSlot (s : State) (c n : Nat) (f : Slot → Slot) : (s.modSlot c n f).hold = s.hold := rfl
@[simp] theorem State.nextId_modSlot (s : State) (c n : Nat) (f : Slot → Slot) : (s.modSlot c n f).nextId = s.nextId := rfl
@[simp] theorem State.nextTid_modSlot (s : State) (c n : Nat) (f : Slot → Slot) : (s.modSlot c n f).nextTid = s.nextTid := rfl
@[simp] theorem State.nextLid_modSlot (s : State) (c n : Nat) (f : Slot → Slot) : (s.modSlot c n f).nextLid = s.nextLid := rfl
@[simp] theorem State.free_modSlot (s : State) (c n : Nat) (f : Slot → Slot) : (s.modSlot c n f).free = s.free := rfl
@[simp] theorem State.halted_modSlot (s : State) (c n : Nat) (f : Slot → Slot) : (s.modSlot c n f).halted = s.halted := rfl
@[simp] theorem State.mismatches_modSlot (s : State) (c n : Nat) (f : Slot → Slot) : (s.modSlot c n f).mismatches = s.mismatches := rfl
@[simp] theorem State.refusals_modSlot (s : State) (c n : Nat) (f : Slot → Slot) : (s.modSlot c n f).refusals = s.refusals := rfl
@[simp] theorem State.unpowered_modSlot (s : State) (c n : Nat) (f : Slot → Slot) : (s.modSlot c n f).unpowered = s.unpowered := rfl
@[simp] theorem State.ctx_modSlot (s : State) (c n : Nat) (f : Slot → Slot) : (s.modSlot c n f).ctx = s.ctx := rfl
@[simp] theorem State.turn_modSlot (s : State) (c n : Nat) (f : Slot → Slot) : (s.modSlot c n f).turn = s.turn := rfl
@[simp] theorem State.plan_modSlot (s : State) (c n : Nat) (f : Slot → Slot) : (s.modSlot c n f).plan = s.plan := rfl
@[simp] theorem State.pending_modSlot (s : State) (c n : Nat) (f : Slot → Slot) : (s.modSlot c n f).pending = s.pending := rfl
@[simp] theorem State.queue_modSlot (s : State) (c n : Nat) (f : Slot → Slot) : (s.modSlot c n f).queue = s.queue := rfl

/-! ### `State.modSquare` -/

@[simp] theorem State.clock_modSquare (s : State) (q : Nat) (f : Square → Square) : (s.modSquare q f).clock = s.clock := rfl
@[simp] theorem State.mem_modSquare (s : State) (q : Nat) (f : Square → Square) : (s.modSquare q f).mem = s.mem := rfl
@[simp] theorem State.empt_modSquare (s : State) (q : Nat) (f : Square → Square) : (s.modSquare q f).empt = s.empt := rfl
@[simp] theorem State.soft_modSquare (s : State) (q : Nat) (f : Square → Square) : (s.modSquare q f).soft = s.soft := rfl
@[simp] theorem State.bad_modSquare (s : State) (q : Nat) (f : Square → Square) : (s.modSquare q f).bad = s.bad := rfl
@[simp] theorem State.patched_modSquare (s : State) (q : Nat) (f : Square → Square) : (s.modSquare q f).patched = s.patched := rfl
@[simp] theorem State.hostMem_modSquare (s : State) (q : Nat) (f : Square → Square) : (s.modSquare q f).hostMem = s.hostMem := rfl
@[simp] theorem State.threads_modSquare (s : State) (q : Nat) (f : Square → Square) : (s.modSquare q f).threads = s.threads := rfl
@[simp] theorem State.cores_modSquare (s : State) (q : Nat) (f : Square → Square) : (s.modSquare q f).cores = s.cores := rfl
@[simp] theorem State.squares_modSquare (s : State) (q : Nat) (f : Square → Square) : (s.modSquare q f).squares = tput s.squares q (f (s.square q)) := rfl
@[simp] theorem State.launches_modSquare (s : State) (q : Nat) (f : Square → Square) : (s.modSquare q f).launches = s.launches := rfl
@[simp] theorem State.sq_modSquare (s : State) (q : Nat) (f : Square → Square) : (s.modSquare q f).sq = s.sq := rfl
@[simp] theorem State.net_modSquare (s : State) (q : Nat) (f : Square → Square) : (s.modSquare q f).net = s.net := rfl
@[simp] theorem State.ways_modSquare (s : State) (q : Nat) (f : Square → Square) : (s.modSquare q f).ways = s.ways := rfl
@[simp] theorem State.stamp_modSquare (s : State) (q : Nat) (f : Square → Square) : (s.modSquare q f).stamp = s.stamp := rfl
@[simp] theorem State.hostHold_modSquare (s : State) (q : Nat) (f : Square → Square) : (s.modSquare q f).hostHold = s.hostHold := rfl
@[simp] theorem State.waits_modSquare (s : State) (q : Nat) (f : Square → Square) : (s.modSquare q f).waits = s.waits := rfl
@[simp] theorem State.roomAsk_modSquare (s : State) (q : Nat) (f : Square → Square) : (s.modSquare q f).roomAsk = s.roomAsk := rfl
@[simp] theorem State.tumblers_modSquare (s : State) (q : Nat) (f : Square → Square) : (s.modSquare q f).tumblers = s.tumblers := rfl
@[simp] theorem State.heaps_modSquare (s : State) (q : Nat) (f : Square → Square) : (s.modSquare q f).heaps = s.heaps := rfl
@[simp] theorem State.hampers_modSquare (s : State) (q : Nat) (f : Square → Square) : (s.modSquare q f).hampers = s.hampers := rfl
@[simp] theorem State.streets_modSquare (s : State) (q : Nat) (f : Square → Square) : (s.modSquare q f).streets = s.streets := rfl
@[simp] theorem State.rootTable_modSquare (s : State) (q : Nat) (f : Square → Square) : (s.modSquare q f).rootTable = s.rootTable := rfl
@[simp] theorem State.ringAddr_modSquare (s : State) (q : Nat) (f : Square → Square) : (s.modSquare q f).ringAddr = s.ringAddr := rfl
@[simp] theorem State.smapAddr_modSquare (s : State) (q : Nat) (f : Square → Square) : (s.modSquare q f).smapAddr = s.smapAddr := rfl
@[simp] theorem State.sensors_modSquare (s : State) (q : Nat) (f : Square → Square) : (s.modSquare q f).sensors = s.sensors := rfl
@[simp] theorem State.scrubPeriod_modSquare (s : State) (q : Nat) (f : Square → Square) : (s.modSquare q f).scrubPeriod = s.scrubPeriod := rfl
@[simp] theorem State.scrubBase_modSquare (s : State) (q : Nat) (f : Square → Square) : (s.modSquare q f).scrubBase = s.scrubBase := rfl
@[simp] theorem State.scrubNext_modSquare (s : State) (q : Nat) (f : Square → Square) : (s.modSquare q f).scrubNext = s.scrubNext := rfl
@[simp] theorem State.hotNext_modSquare (s : State) (q : Nat) (f : Square → Square) : (s.modSquare q f).hotNext = s.hotNext := rfl
@[simp] theorem State.hot_modSquare (s : State) (q : Nat) (f : Square → Square) : (s.modSquare q f).hot = s.hot := rfl
@[simp] theorem State.counters_modSquare (s : State) (q : Nat) (f : Square → Square) : (s.modSquare q f).counters = s.counters := rfl
@[simp] theorem State.alerts_modSquare (s : State) (q : Nat) (f : Square → Square) : (s.modSquare q f).alerts = s.alerts := rfl
@[simp] theorem State.delay_modSquare (s : State) (q : Nat) (f : Square → Square) : (s.modSquare q f).delay = s.delay := rfl
@[simp] theorem State.writing_modSquare (s : State) (q : Nat) (f : Square → Square) : (s.modSquare q f).writing = s.writing := rfl
@[simp] theorem State.hold_modSquare (s : State) (q : Nat) (f : Square → Square) : (s.modSquare q f).hold = s.hold := rfl
@[simp] theorem State.nextId_modSquare (s : State) (q : Nat) (f : Square → Square) : (s.modSquare q f).nextId = s.nextId := rfl
@[simp] theorem State.nextTid_modSquare (s : State) (q : Nat) (f : Square → Square) : (s.modSquare q f).nextTid = s.nextTid := rfl
@[simp] theorem State.nextLid_modSquare (s : State) (q : Nat) (f : Square → Square) : (s.modSquare q f).nextLid = s.nextLid := rfl
@[simp] theorem State.free_modSquare (s : State) (q : Nat) (f : Square → Square) : (s.modSquare q f).free = s.free := rfl
@[simp] theorem State.halted_modSquare (s : State) (q : Nat) (f : Square → Square) : (s.modSquare q f).halted = s.halted := rfl
@[simp] theorem State.mismatches_modSquare (s : State) (q : Nat) (f : Square → Square) : (s.modSquare q f).mismatches = s.mismatches := rfl
@[simp] theorem State.refusals_modSquare (s : State) (q : Nat) (f : Square → Square) : (s.modSquare q f).refusals = s.refusals := rfl
@[simp] theorem State.unpowered_modSquare (s : State) (q : Nat) (f : Square → Square) : (s.modSquare q f).unpowered = s.unpowered := rfl
@[simp] theorem State.ctx_modSquare (s : State) (q : Nat) (f : Square → Square) : (s.modSquare q f).ctx = s.ctx := rfl
@[simp] theorem State.turn_modSquare (s : State) (q : Nat) (f : Square → Square) : (s.modSquare q f).turn = s.turn := rfl
@[simp] theorem State.plan_modSquare (s : State) (q : Nat) (f : Square → Square) : (s.modSquare q f).plan = s.plan := rfl
@[simp] theorem State.pending_modSquare (s : State) (q : Nat) (f : Square → Square) : (s.modSquare q f).pending = s.pending := rfl
@[simp] theorem State.queue_modSquare (s : State) (q : Nat) (f : Square → Square) : (s.modSquare q f).queue = s.queue := rfl

/-! ### `State.setThread` -/

@[simp] theorem State.clock_setThread (s : State) (t : Nat) (x : Thread) : (s.setThread t x).clock = s.clock := rfl
@[simp] theorem State.mem_setThread (s : State) (t : Nat) (x : Thread) : (s.setThread t x).mem = s.mem := rfl
@[simp] theorem State.empt_setThread (s : State) (t : Nat) (x : Thread) : (s.setThread t x).empt = s.empt := rfl
@[simp] theorem State.soft_setThread (s : State) (t : Nat) (x : Thread) : (s.setThread t x).soft = s.soft := rfl
@[simp] theorem State.bad_setThread (s : State) (t : Nat) (x : Thread) : (s.setThread t x).bad = s.bad := rfl
@[simp] theorem State.patched_setThread (s : State) (t : Nat) (x : Thread) : (s.setThread t x).patched = s.patched := rfl
@[simp] theorem State.hostMem_setThread (s : State) (t : Nat) (x : Thread) : (s.setThread t x).hostMem = s.hostMem := rfl
@[simp] theorem State.threads_setThread (s : State) (t : Nat) (x : Thread) : (s.setThread t x).threads = tput s.threads t x := rfl
@[simp] theorem State.cores_setThread (s : State) (t : Nat) (x : Thread) : (s.setThread t x).cores = s.cores := rfl
@[simp] theorem State.squares_setThread (s : State) (t : Nat) (x : Thread) : (s.setThread t x).squares = s.squares := rfl
@[simp] theorem State.launches_setThread (s : State) (t : Nat) (x : Thread) : (s.setThread t x).launches = s.launches := rfl
@[simp] theorem State.sq_setThread (s : State) (t : Nat) (x : Thread) : (s.setThread t x).sq = s.sq := rfl
@[simp] theorem State.net_setThread (s : State) (t : Nat) (x : Thread) : (s.setThread t x).net = s.net := rfl
@[simp] theorem State.ways_setThread (s : State) (t : Nat) (x : Thread) : (s.setThread t x).ways = s.ways := rfl
@[simp] theorem State.stamp_setThread (s : State) (t : Nat) (x : Thread) : (s.setThread t x).stamp = s.stamp := rfl
@[simp] theorem State.hostHold_setThread (s : State) (t : Nat) (x : Thread) : (s.setThread t x).hostHold = s.hostHold := rfl
@[simp] theorem State.waits_setThread (s : State) (t : Nat) (x : Thread) : (s.setThread t x).waits = s.waits := rfl
@[simp] theorem State.roomAsk_setThread (s : State) (t : Nat) (x : Thread) : (s.setThread t x).roomAsk = s.roomAsk := rfl
@[simp] theorem State.tumblers_setThread (s : State) (t : Nat) (x : Thread) : (s.setThread t x).tumblers = s.tumblers := rfl
@[simp] theorem State.heaps_setThread (s : State) (t : Nat) (x : Thread) : (s.setThread t x).heaps = s.heaps := rfl
@[simp] theorem State.hampers_setThread (s : State) (t : Nat) (x : Thread) : (s.setThread t x).hampers = s.hampers := rfl
@[simp] theorem State.streets_setThread (s : State) (t : Nat) (x : Thread) : (s.setThread t x).streets = s.streets := rfl
@[simp] theorem State.rootTable_setThread (s : State) (t : Nat) (x : Thread) : (s.setThread t x).rootTable = s.rootTable := rfl
@[simp] theorem State.ringAddr_setThread (s : State) (t : Nat) (x : Thread) : (s.setThread t x).ringAddr = s.ringAddr := rfl
@[simp] theorem State.smapAddr_setThread (s : State) (t : Nat) (x : Thread) : (s.setThread t x).smapAddr = s.smapAddr := rfl
@[simp] theorem State.sensors_setThread (s : State) (t : Nat) (x : Thread) : (s.setThread t x).sensors = s.sensors := rfl
@[simp] theorem State.scrubPeriod_setThread (s : State) (t : Nat) (x : Thread) : (s.setThread t x).scrubPeriod = s.scrubPeriod := rfl
@[simp] theorem State.scrubBase_setThread (s : State) (t : Nat) (x : Thread) : (s.setThread t x).scrubBase = s.scrubBase := rfl
@[simp] theorem State.scrubNext_setThread (s : State) (t : Nat) (x : Thread) : (s.setThread t x).scrubNext = s.scrubNext := rfl
@[simp] theorem State.hotNext_setThread (s : State) (t : Nat) (x : Thread) : (s.setThread t x).hotNext = s.hotNext := rfl
@[simp] theorem State.hot_setThread (s : State) (t : Nat) (x : Thread) : (s.setThread t x).hot = s.hot := rfl
@[simp] theorem State.counters_setThread (s : State) (t : Nat) (x : Thread) : (s.setThread t x).counters = s.counters := rfl
@[simp] theorem State.alerts_setThread (s : State) (t : Nat) (x : Thread) : (s.setThread t x).alerts = s.alerts := rfl
@[simp] theorem State.delay_setThread (s : State) (t : Nat) (x : Thread) : (s.setThread t x).delay = s.delay := rfl
@[simp] theorem State.writing_setThread (s : State) (t : Nat) (x : Thread) : (s.setThread t x).writing = s.writing := rfl
@[simp] theorem State.hold_setThread (s : State) (t : Nat) (x : Thread) : (s.setThread t x).hold = s.hold := rfl
@[simp] theorem State.nextId_setThread (s : State) (t : Nat) (x : Thread) : (s.setThread t x).nextId = s.nextId := rfl
@[simp] theorem State.nextTid_setThread (s : State) (t : Nat) (x : Thread) : (s.setThread t x).nextTid = s.nextTid := rfl
@[simp] theorem State.nextLid_setThread (s : State) (t : Nat) (x : Thread) : (s.setThread t x).nextLid = s.nextLid := rfl
@[simp] theorem State.free_setThread (s : State) (t : Nat) (x : Thread) : (s.setThread t x).free = s.free := rfl
@[simp] theorem State.halted_setThread (s : State) (t : Nat) (x : Thread) : (s.setThread t x).halted = s.halted := rfl
@[simp] theorem State.mismatches_setThread (s : State) (t : Nat) (x : Thread) : (s.setThread t x).mismatches = s.mismatches := rfl
@[simp] theorem State.refusals_setThread (s : State) (t : Nat) (x : Thread) : (s.setThread t x).refusals = s.refusals := rfl
@[simp] theorem State.unpowered_setThread (s : State) (t : Nat) (x : Thread) : (s.setThread t x).unpowered = s.unpowered := rfl
@[simp] theorem State.ctx_setThread (s : State) (t : Nat) (x : Thread) : (s.setThread t x).ctx = s.ctx := rfl
@[simp] theorem State.turn_setThread (s : State) (t : Nat) (x : Thread) : (s.setThread t x).turn = s.turn := rfl
@[simp] theorem State.plan_setThread (s : State) (t : Nat) (x : Thread) : (s.setThread t x).plan = s.plan := rfl
@[simp] theorem State.pending_setThread (s : State) (t : Nat) (x : Thread) : (s.setThread t x).pending = s.pending := rfl
@[simp] theorem State.queue_setThread (s : State) (t : Nat) (x : Thread) : (s.setThread t x).queue = s.queue := rfl

/-! ### `State.modThread` -/

@[simp] theorem State.clock_modThread (s : State) (t : Nat) (f : Thread → Thread) : (s.modThread t f).clock = s.clock := rfl
@[simp] theorem State.mem_modThread (s : State) (t : Nat) (f : Thread → Thread) : (s.modThread t f).mem = s.mem := rfl
@[simp] theorem State.empt_modThread (s : State) (t : Nat) (f : Thread → Thread) : (s.modThread t f).empt = s.empt := rfl
@[simp] theorem State.soft_modThread (s : State) (t : Nat) (f : Thread → Thread) : (s.modThread t f).soft = s.soft := rfl
@[simp] theorem State.bad_modThread (s : State) (t : Nat) (f : Thread → Thread) : (s.modThread t f).bad = s.bad := rfl
@[simp] theorem State.patched_modThread (s : State) (t : Nat) (f : Thread → Thread) : (s.modThread t f).patched = s.patched := rfl
@[simp] theorem State.hostMem_modThread (s : State) (t : Nat) (f : Thread → Thread) : (s.modThread t f).hostMem = s.hostMem := rfl
@[simp] theorem State.threads_modThread (s : State) (t : Nat) (f : Thread → Thread) : (s.modThread t f).threads = tmod s.threads t f := rfl
@[simp] theorem State.cores_modThread (s : State) (t : Nat) (f : Thread → Thread) : (s.modThread t f).cores = s.cores := rfl
@[simp] theorem State.squares_modThread (s : State) (t : Nat) (f : Thread → Thread) : (s.modThread t f).squares = s.squares := rfl
@[simp] theorem State.launches_modThread (s : State) (t : Nat) (f : Thread → Thread) : (s.modThread t f).launches = s.launches := rfl
@[simp] theorem State.sq_modThread (s : State) (t : Nat) (f : Thread → Thread) : (s.modThread t f).sq = s.sq := rfl
@[simp] theorem State.net_modThread (s : State) (t : Nat) (f : Thread → Thread) : (s.modThread t f).net = s.net := rfl
@[simp] theorem State.ways_modThread (s : State) (t : Nat) (f : Thread → Thread) : (s.modThread t f).ways = s.ways := rfl
@[simp] theorem State.stamp_modThread (s : State) (t : Nat) (f : Thread → Thread) : (s.modThread t f).stamp = s.stamp := rfl
@[simp] theorem State.hostHold_modThread (s : State) (t : Nat) (f : Thread → Thread) : (s.modThread t f).hostHold = s.hostHold := rfl
@[simp] theorem State.waits_modThread (s : State) (t : Nat) (f : Thread → Thread) : (s.modThread t f).waits = s.waits := rfl
@[simp] theorem State.roomAsk_modThread (s : State) (t : Nat) (f : Thread → Thread) : (s.modThread t f).roomAsk = s.roomAsk := rfl
@[simp] theorem State.tumblers_modThread (s : State) (t : Nat) (f : Thread → Thread) : (s.modThread t f).tumblers = s.tumblers := rfl
@[simp] theorem State.heaps_modThread (s : State) (t : Nat) (f : Thread → Thread) : (s.modThread t f).heaps = s.heaps := rfl
@[simp] theorem State.hampers_modThread (s : State) (t : Nat) (f : Thread → Thread) : (s.modThread t f).hampers = s.hampers := rfl
@[simp] theorem State.streets_modThread (s : State) (t : Nat) (f : Thread → Thread) : (s.modThread t f).streets = s.streets := rfl
@[simp] theorem State.rootTable_modThread (s : State) (t : Nat) (f : Thread → Thread) : (s.modThread t f).rootTable = s.rootTable := rfl
@[simp] theorem State.ringAddr_modThread (s : State) (t : Nat) (f : Thread → Thread) : (s.modThread t f).ringAddr = s.ringAddr := rfl
@[simp] theorem State.smapAddr_modThread (s : State) (t : Nat) (f : Thread → Thread) : (s.modThread t f).smapAddr = s.smapAddr := rfl
@[simp] theorem State.sensors_modThread (s : State) (t : Nat) (f : Thread → Thread) : (s.modThread t f).sensors = s.sensors := rfl
@[simp] theorem State.scrubPeriod_modThread (s : State) (t : Nat) (f : Thread → Thread) : (s.modThread t f).scrubPeriod = s.scrubPeriod := rfl
@[simp] theorem State.scrubBase_modThread (s : State) (t : Nat) (f : Thread → Thread) : (s.modThread t f).scrubBase = s.scrubBase := rfl
@[simp] theorem State.scrubNext_modThread (s : State) (t : Nat) (f : Thread → Thread) : (s.modThread t f).scrubNext = s.scrubNext := rfl
@[simp] theorem State.hotNext_modThread (s : State) (t : Nat) (f : Thread → Thread) : (s.modThread t f).hotNext = s.hotNext := rfl
@[simp] theorem State.hot_modThread (s : State) (t : Nat) (f : Thread → Thread) : (s.modThread t f).hot = s.hot := rfl
@[simp] theorem State.counters_modThread (s : State) (t : Nat) (f : Thread → Thread) : (s.modThread t f).counters = s.counters := rfl
@[simp] theorem State.alerts_modThread (s : State) (t : Nat) (f : Thread → Thread) : (s.modThread t f).alerts = s.alerts := rfl
@[simp] theorem State.delay_modThread (s : State) (t : Nat) (f : Thread → Thread) : (s.modThread t f).delay = s.delay := rfl
@[simp] theorem State.writing_modThread (s : State) (t : Nat) (f : Thread → Thread) : (s.modThread t f).writing = s.writing := rfl
@[simp] theorem State.hold_modThread (s : State) (t : Nat) (f : Thread → Thread) : (s.modThread t f).hold = s.hold := rfl
@[simp] theorem State.nextId_modThread (s : State) (t : Nat) (f : Thread → Thread) : (s.modThread t f).nextId = s.nextId := rfl
@[simp] theorem State.nextTid_modThread (s : State) (t : Nat) (f : Thread → Thread) : (s.modThread t f).nextTid = s.nextTid := rfl
@[simp] theorem State.nextLid_modThread (s : State) (t : Nat) (f : Thread → Thread) : (s.modThread t f).nextLid = s.nextLid := rfl
@[simp] theorem State.free_modThread (s : State) (t : Nat) (f : Thread → Thread) : (s.modThread t f).free = s.free := rfl
@[simp] theorem State.halted_modThread (s : State) (t : Nat) (f : Thread → Thread) : (s.modThread t f).halted = s.halted := rfl
@[simp] theorem State.mismatches_modThread (s : State) (t : Nat) (f : Thread → Thread) : (s.modThread t f).mismatches = s.mismatches := rfl
@[simp] theorem State.refusals_modThread (s : State) (t : Nat) (f : Thread → Thread) : (s.modThread t f).refusals = s.refusals := rfl
@[simp] theorem State.unpowered_modThread (s : State) (t : Nat) (f : Thread → Thread) : (s.modThread t f).unpowered = s.unpowered := rfl
@[simp] theorem State.ctx_modThread (s : State) (t : Nat) (f : Thread → Thread) : (s.modThread t f).ctx = s.ctx := rfl
@[simp] theorem State.turn_modThread (s : State) (t : Nat) (f : Thread → Thread) : (s.modThread t f).turn = s.turn := rfl
@[simp] theorem State.plan_modThread (s : State) (t : Nat) (f : Thread → Thread) : (s.modThread t f).plan = s.plan := rfl
@[simp] theorem State.pending_modThread (s : State) (t : Nat) (f : Thread → Thread) : (s.modThread t f).pending = s.pending := rfl
@[simp] theorem State.queue_modThread (s : State) (t : Nat) (f : Thread → Thread) : (s.modThread t f).queue = s.queue := rfl

/-! ### `State.modMe` -/

@[simp] theorem State.clock_modMe (s : State) (f : Thread → Thread) : (s.modMe f).clock = s.clock := rfl
@[simp] theorem State.mem_modMe (s : State) (f : Thread → Thread) : (s.modMe f).mem = s.mem := rfl
@[simp] theorem State.empt_modMe (s : State) (f : Thread → Thread) : (s.modMe f).empt = s.empt := rfl
@[simp] theorem State.soft_modMe (s : State) (f : Thread → Thread) : (s.modMe f).soft = s.soft := rfl
@[simp] theorem State.bad_modMe (s : State) (f : Thread → Thread) : (s.modMe f).bad = s.bad := rfl
@[simp] theorem State.patched_modMe (s : State) (f : Thread → Thread) : (s.modMe f).patched = s.patched := rfl
@[simp] theorem State.hostMem_modMe (s : State) (f : Thread → Thread) : (s.modMe f).hostMem = s.hostMem := rfl
@[simp] theorem State.threads_modMe (s : State) (f : Thread → Thread) : (s.modMe f).threads = tmod s.threads s.ctx.tid f := rfl
@[simp] theorem State.cores_modMe (s : State) (f : Thread → Thread) : (s.modMe f).cores = s.cores := rfl
@[simp] theorem State.squares_modMe (s : State) (f : Thread → Thread) : (s.modMe f).squares = s.squares := rfl
@[simp] theorem State.launches_modMe (s : State) (f : Thread → Thread) : (s.modMe f).launches = s.launches := rfl
@[simp] theorem State.sq_modMe (s : State) (f : Thread → Thread) : (s.modMe f).sq = s.sq := rfl
@[simp] theorem State.net_modMe (s : State) (f : Thread → Thread) : (s.modMe f).net = s.net := rfl
@[simp] theorem State.ways_modMe (s : State) (f : Thread → Thread) : (s.modMe f).ways = s.ways := rfl
@[simp] theorem State.stamp_modMe (s : State) (f : Thread → Thread) : (s.modMe f).stamp = s.stamp := rfl
@[simp] theorem State.hostHold_modMe (s : State) (f : Thread → Thread) : (s.modMe f).hostHold = s.hostHold := rfl
@[simp] theorem State.waits_modMe (s : State) (f : Thread → Thread) : (s.modMe f).waits = s.waits := rfl
@[simp] theorem State.roomAsk_modMe (s : State) (f : Thread → Thread) : (s.modMe f).roomAsk = s.roomAsk := rfl
@[simp] theorem State.tumblers_modMe (s : State) (f : Thread → Thread) : (s.modMe f).tumblers = s.tumblers := rfl
@[simp] theorem State.heaps_modMe (s : State) (f : Thread → Thread) : (s.modMe f).heaps = s.heaps := rfl
@[simp] theorem State.hampers_modMe (s : State) (f : Thread → Thread) : (s.modMe f).hampers = s.hampers := rfl
@[simp] theorem State.streets_modMe (s : State) (f : Thread → Thread) : (s.modMe f).streets = s.streets := rfl
@[simp] theorem State.rootTable_modMe (s : State) (f : Thread → Thread) : (s.modMe f).rootTable = s.rootTable := rfl
@[simp] theorem State.ringAddr_modMe (s : State) (f : Thread → Thread) : (s.modMe f).ringAddr = s.ringAddr := rfl
@[simp] theorem State.smapAddr_modMe (s : State) (f : Thread → Thread) : (s.modMe f).smapAddr = s.smapAddr := rfl
@[simp] theorem State.sensors_modMe (s : State) (f : Thread → Thread) : (s.modMe f).sensors = s.sensors := rfl
@[simp] theorem State.scrubPeriod_modMe (s : State) (f : Thread → Thread) : (s.modMe f).scrubPeriod = s.scrubPeriod := rfl
@[simp] theorem State.scrubBase_modMe (s : State) (f : Thread → Thread) : (s.modMe f).scrubBase = s.scrubBase := rfl
@[simp] theorem State.scrubNext_modMe (s : State) (f : Thread → Thread) : (s.modMe f).scrubNext = s.scrubNext := rfl
@[simp] theorem State.hotNext_modMe (s : State) (f : Thread → Thread) : (s.modMe f).hotNext = s.hotNext := rfl
@[simp] theorem State.hot_modMe (s : State) (f : Thread → Thread) : (s.modMe f).hot = s.hot := rfl
@[simp] theorem State.counters_modMe (s : State) (f : Thread → Thread) : (s.modMe f).counters = s.counters := rfl
@[simp] theorem State.alerts_modMe (s : State) (f : Thread → Thread) : (s.modMe f).alerts = s.alerts := rfl
@[simp] theorem State.delay_modMe (s : State) (f : Thread → Thread) : (s.modMe f).delay = s.delay := rfl
@[simp] theorem State.writing_modMe (s : State) (f : Thread → Thread) : (s.modMe f).writing = s.writing := rfl
@[simp] theorem State.hold_modMe (s : State) (f : Thread → Thread) : (s.modMe f).hold = s.hold := rfl
@[simp] theorem State.nextId_modMe (s : State) (f : Thread → Thread) : (s.modMe f).nextId = s.nextId := rfl
@[simp] theorem State.nextTid_modMe (s : State) (f : Thread → Thread) : (s.modMe f).nextTid = s.nextTid := rfl
@[simp] theorem State.nextLid_modMe (s : State) (f : Thread → Thread) : (s.modMe f).nextLid = s.nextLid := rfl
@[simp] theorem State.free_modMe (s : State) (f : Thread → Thread) : (s.modMe f).free = s.free := rfl
@[simp] theorem State.halted_modMe (s : State) (f : Thread → Thread) : (s.modMe f).halted = s.halted := rfl
@[simp] theorem State.mismatches_modMe (s : State) (f : Thread → Thread) : (s.modMe f).mismatches = s.mismatches := rfl
@[simp] theorem State.refusals_modMe (s : State) (f : Thread → Thread) : (s.modMe f).refusals = s.refusals := rfl
@[simp] theorem State.unpowered_modMe (s : State) (f : Thread → Thread) : (s.modMe f).unpowered = s.unpowered := rfl
@[simp] theorem State.ctx_modMe (s : State) (f : Thread → Thread) : (s.modMe f).ctx = s.ctx := rfl
@[simp] theorem State.turn_modMe (s : State) (f : Thread → Thread) : (s.modMe f).turn = s.turn := rfl
@[simp] theorem State.plan_modMe (s : State) (f : Thread → Thread) : (s.modMe f).plan = s.plan := rfl
@[simp] theorem State.pending_modMe (s : State) (f : Thread → Thread) : (s.modMe f).pending = s.pending := rfl
@[simp] theorem State.queue_modMe (s : State) (f : Thread → Thread) : (s.modMe f).queue = s.queue := rfl

/-! ### `State.modLaunch` -/

@[simp] theorem State.clock_modLaunch (s : State) (l : Nat) (f : Launch → Launch) : (s.modLaunch l f).clock = s.clock := rfl
@[simp] theorem State.mem_modLaunch (s : State) (l : Nat) (f : Launch → Launch) : (s.modLaunch l f).mem = s.mem := rfl
@[simp] theorem State.empt_modLaunch (s : State) (l : Nat) (f : Launch → Launch) : (s.modLaunch l f).empt = s.empt := rfl
@[simp] theorem State.soft_modLaunch (s : State) (l : Nat) (f : Launch → Launch) : (s.modLaunch l f).soft = s.soft := rfl
@[simp] theorem State.bad_modLaunch (s : State) (l : Nat) (f : Launch → Launch) : (s.modLaunch l f).bad = s.bad := rfl
@[simp] theorem State.patched_modLaunch (s : State) (l : Nat) (f : Launch → Launch) : (s.modLaunch l f).patched = s.patched := rfl
@[simp] theorem State.hostMem_modLaunch (s : State) (l : Nat) (f : Launch → Launch) : (s.modLaunch l f).hostMem = s.hostMem := rfl
@[simp] theorem State.threads_modLaunch (s : State) (l : Nat) (f : Launch → Launch) : (s.modLaunch l f).threads = s.threads := rfl
@[simp] theorem State.cores_modLaunch (s : State) (l : Nat) (f : Launch → Launch) : (s.modLaunch l f).cores = s.cores := rfl
@[simp] theorem State.squares_modLaunch (s : State) (l : Nat) (f : Launch → Launch) : (s.modLaunch l f).squares = s.squares := rfl
@[simp] theorem State.launches_modLaunch (s : State) (l : Nat) (f : Launch → Launch) : (s.modLaunch l f).launches = tmod s.launches l f := rfl
@[simp] theorem State.sq_modLaunch (s : State) (l : Nat) (f : Launch → Launch) : (s.modLaunch l f).sq = s.sq := rfl
@[simp] theorem State.net_modLaunch (s : State) (l : Nat) (f : Launch → Launch) : (s.modLaunch l f).net = s.net := rfl
@[simp] theorem State.ways_modLaunch (s : State) (l : Nat) (f : Launch → Launch) : (s.modLaunch l f).ways = s.ways := rfl
@[simp] theorem State.stamp_modLaunch (s : State) (l : Nat) (f : Launch → Launch) : (s.modLaunch l f).stamp = s.stamp := rfl
@[simp] theorem State.hostHold_modLaunch (s : State) (l : Nat) (f : Launch → Launch) : (s.modLaunch l f).hostHold = s.hostHold := rfl
@[simp] theorem State.waits_modLaunch (s : State) (l : Nat) (f : Launch → Launch) : (s.modLaunch l f).waits = s.waits := rfl
@[simp] theorem State.roomAsk_modLaunch (s : State) (l : Nat) (f : Launch → Launch) : (s.modLaunch l f).roomAsk = s.roomAsk := rfl
@[simp] theorem State.tumblers_modLaunch (s : State) (l : Nat) (f : Launch → Launch) : (s.modLaunch l f).tumblers = s.tumblers := rfl
@[simp] theorem State.heaps_modLaunch (s : State) (l : Nat) (f : Launch → Launch) : (s.modLaunch l f).heaps = s.heaps := rfl
@[simp] theorem State.hampers_modLaunch (s : State) (l : Nat) (f : Launch → Launch) : (s.modLaunch l f).hampers = s.hampers := rfl
@[simp] theorem State.streets_modLaunch (s : State) (l : Nat) (f : Launch → Launch) : (s.modLaunch l f).streets = s.streets := rfl
@[simp] theorem State.rootTable_modLaunch (s : State) (l : Nat) (f : Launch → Launch) : (s.modLaunch l f).rootTable = s.rootTable := rfl
@[simp] theorem State.ringAddr_modLaunch (s : State) (l : Nat) (f : Launch → Launch) : (s.modLaunch l f).ringAddr = s.ringAddr := rfl
@[simp] theorem State.smapAddr_modLaunch (s : State) (l : Nat) (f : Launch → Launch) : (s.modLaunch l f).smapAddr = s.smapAddr := rfl
@[simp] theorem State.sensors_modLaunch (s : State) (l : Nat) (f : Launch → Launch) : (s.modLaunch l f).sensors = s.sensors := rfl
@[simp] theorem State.scrubPeriod_modLaunch (s : State) (l : Nat) (f : Launch → Launch) : (s.modLaunch l f).scrubPeriod = s.scrubPeriod := rfl
@[simp] theorem State.scrubBase_modLaunch (s : State) (l : Nat) (f : Launch → Launch) : (s.modLaunch l f).scrubBase = s.scrubBase := rfl
@[simp] theorem State.scrubNext_modLaunch (s : State) (l : Nat) (f : Launch → Launch) : (s.modLaunch l f).scrubNext = s.scrubNext := rfl
@[simp] theorem State.hotNext_modLaunch (s : State) (l : Nat) (f : Launch → Launch) : (s.modLaunch l f).hotNext = s.hotNext := rfl
@[simp] theorem State.hot_modLaunch (s : State) (l : Nat) (f : Launch → Launch) : (s.modLaunch l f).hot = s.hot := rfl
@[simp] theorem State.counters_modLaunch (s : State) (l : Nat) (f : Launch → Launch) : (s.modLaunch l f).counters = s.counters := rfl
@[simp] theorem State.alerts_modLaunch (s : State) (l : Nat) (f : Launch → Launch) : (s.modLaunch l f).alerts = s.alerts := rfl
@[simp] theorem State.delay_modLaunch (s : State) (l : Nat) (f : Launch → Launch) : (s.modLaunch l f).delay = s.delay := rfl
@[simp] theorem State.writing_modLaunch (s : State) (l : Nat) (f : Launch → Launch) : (s.modLaunch l f).writing = s.writing := rfl
@[simp] theorem State.hold_modLaunch (s : State) (l : Nat) (f : Launch → Launch) : (s.modLaunch l f).hold = s.hold := rfl
@[simp] theorem State.nextId_modLaunch (s : State) (l : Nat) (f : Launch → Launch) : (s.modLaunch l f).nextId = s.nextId := rfl
@[simp] theorem State.nextTid_modLaunch (s : State) (l : Nat) (f : Launch → Launch) : (s.modLaunch l f).nextTid = s.nextTid := rfl
@[simp] theorem State.nextLid_modLaunch (s : State) (l : Nat) (f : Launch → Launch) : (s.modLaunch l f).nextLid = s.nextLid := rfl
@[simp] theorem State.free_modLaunch (s : State) (l : Nat) (f : Launch → Launch) : (s.modLaunch l f).free = s.free := rfl
@[simp] theorem State.halted_modLaunch (s : State) (l : Nat) (f : Launch → Launch) : (s.modLaunch l f).halted = s.halted := rfl
@[simp] theorem State.mismatches_modLaunch (s : State) (l : Nat) (f : Launch → Launch) : (s.modLaunch l f).mismatches = s.mismatches := rfl
@[simp] theorem State.refusals_modLaunch (s : State) (l : Nat) (f : Launch → Launch) : (s.modLaunch l f).refusals = s.refusals := rfl
@[simp] theorem State.unpowered_modLaunch (s : State) (l : Nat) (f : Launch → Launch) : (s.modLaunch l f).unpowered = s.unpowered := rfl
@[simp] theorem State.ctx_modLaunch (s : State) (l : Nat) (f : Launch → Launch) : (s.modLaunch l f).ctx = s.ctx := rfl
@[simp] theorem State.turn_modLaunch (s : State) (l : Nat) (f : Launch → Launch) : (s.modLaunch l f).turn = s.turn := rfl
@[simp] theorem State.plan_modLaunch (s : State) (l : Nat) (f : Launch → Launch) : (s.modLaunch l f).plan = s.plan := rfl
@[simp] theorem State.pending_modLaunch (s : State) (l : Nat) (f : Launch → Launch) : (s.modLaunch l f).pending = s.pending := rfl
@[simp] theorem State.queue_modLaunch (s : State) (l : Nat) (f : Launch → Launch) : (s.modLaunch l f).queue = s.queue := rfl

/-! ### `State.modTumbler` -/

@[simp] theorem State.clock_modTumbler (s : State) (t : Nat) (f : Tumbler → Tumbler) : (s.modTumbler t f).clock = s.clock := rfl
@[simp] theorem State.mem_modTumbler (s : State) (t : Nat) (f : Tumbler → Tumbler) : (s.modTumbler t f).mem = s.mem := rfl
@[simp] theorem State.empt_modTumbler (s : State) (t : Nat) (f : Tumbler → Tumbler) : (s.modTumbler t f).empt = s.empt := rfl
@[simp] theorem State.soft_modTumbler (s : State) (t : Nat) (f : Tumbler → Tumbler) : (s.modTumbler t f).soft = s.soft := rfl
@[simp] theorem State.bad_modTumbler (s : State) (t : Nat) (f : Tumbler → Tumbler) : (s.modTumbler t f).bad = s.bad := rfl
@[simp] theorem State.patched_modTumbler (s : State) (t : Nat) (f : Tumbler → Tumbler) : (s.modTumbler t f).patched = s.patched := rfl
@[simp] theorem State.hostMem_modTumbler (s : State) (t : Nat) (f : Tumbler → Tumbler) : (s.modTumbler t f).hostMem = s.hostMem := rfl
@[simp] theorem State.threads_modTumbler (s : State) (t : Nat) (f : Tumbler → Tumbler) : (s.modTumbler t f).threads = s.threads := rfl
@[simp] theorem State.cores_modTumbler (s : State) (t : Nat) (f : Tumbler → Tumbler) : (s.modTumbler t f).cores = s.cores := rfl
@[simp] theorem State.squares_modTumbler (s : State) (t : Nat) (f : Tumbler → Tumbler) : (s.modTumbler t f).squares = s.squares := rfl
@[simp] theorem State.launches_modTumbler (s : State) (t : Nat) (f : Tumbler → Tumbler) : (s.modTumbler t f).launches = s.launches := rfl
@[simp] theorem State.sq_modTumbler (s : State) (t : Nat) (f : Tumbler → Tumbler) : (s.modTumbler t f).sq = s.sq := rfl
@[simp] theorem State.net_modTumbler (s : State) (t : Nat) (f : Tumbler → Tumbler) : (s.modTumbler t f).net = s.net := rfl
@[simp] theorem State.ways_modTumbler (s : State) (t : Nat) (f : Tumbler → Tumbler) : (s.modTumbler t f).ways = s.ways := rfl
@[simp] theorem State.stamp_modTumbler (s : State) (t : Nat) (f : Tumbler → Tumbler) : (s.modTumbler t f).stamp = s.stamp := rfl
@[simp] theorem State.hostHold_modTumbler (s : State) (t : Nat) (f : Tumbler → Tumbler) : (s.modTumbler t f).hostHold = s.hostHold := rfl
@[simp] theorem State.waits_modTumbler (s : State) (t : Nat) (f : Tumbler → Tumbler) : (s.modTumbler t f).waits = s.waits := rfl
@[simp] theorem State.roomAsk_modTumbler (s : State) (t : Nat) (f : Tumbler → Tumbler) : (s.modTumbler t f).roomAsk = s.roomAsk := rfl
@[simp] theorem State.tumblers_modTumbler (s : State) (t : Nat) (f : Tumbler → Tumbler) : (s.modTumbler t f).tumblers = tput s.tumblers t (f (s.tumbler t)) := rfl
@[simp] theorem State.heaps_modTumbler (s : State) (t : Nat) (f : Tumbler → Tumbler) : (s.modTumbler t f).heaps = s.heaps := rfl
@[simp] theorem State.hampers_modTumbler (s : State) (t : Nat) (f : Tumbler → Tumbler) : (s.modTumbler t f).hampers = s.hampers := rfl
@[simp] theorem State.streets_modTumbler (s : State) (t : Nat) (f : Tumbler → Tumbler) : (s.modTumbler t f).streets = s.streets := rfl
@[simp] theorem State.rootTable_modTumbler (s : State) (t : Nat) (f : Tumbler → Tumbler) : (s.modTumbler t f).rootTable = s.rootTable := rfl
@[simp] theorem State.ringAddr_modTumbler (s : State) (t : Nat) (f : Tumbler → Tumbler) : (s.modTumbler t f).ringAddr = s.ringAddr := rfl
@[simp] theorem State.smapAddr_modTumbler (s : State) (t : Nat) (f : Tumbler → Tumbler) : (s.modTumbler t f).smapAddr = s.smapAddr := rfl
@[simp] theorem State.sensors_modTumbler (s : State) (t : Nat) (f : Tumbler → Tumbler) : (s.modTumbler t f).sensors = s.sensors := rfl
@[simp] theorem State.scrubPeriod_modTumbler (s : State) (t : Nat) (f : Tumbler → Tumbler) : (s.modTumbler t f).scrubPeriod = s.scrubPeriod := rfl
@[simp] theorem State.scrubBase_modTumbler (s : State) (t : Nat) (f : Tumbler → Tumbler) : (s.modTumbler t f).scrubBase = s.scrubBase := rfl
@[simp] theorem State.scrubNext_modTumbler (s : State) (t : Nat) (f : Tumbler → Tumbler) : (s.modTumbler t f).scrubNext = s.scrubNext := rfl
@[simp] theorem State.hotNext_modTumbler (s : State) (t : Nat) (f : Tumbler → Tumbler) : (s.modTumbler t f).hotNext = s.hotNext := rfl
@[simp] theorem State.hot_modTumbler (s : State) (t : Nat) (f : Tumbler → Tumbler) : (s.modTumbler t f).hot = s.hot := rfl
@[simp] theorem State.counters_modTumbler (s : State) (t : Nat) (f : Tumbler → Tumbler) : (s.modTumbler t f).counters = s.counters := rfl
@[simp] theorem State.alerts_modTumbler (s : State) (t : Nat) (f : Tumbler → Tumbler) : (s.modTumbler t f).alerts = s.alerts := rfl
@[simp] theorem State.delay_modTumbler (s : State) (t : Nat) (f : Tumbler → Tumbler) : (s.modTumbler t f).delay = s.delay := rfl
@[simp] theorem State.writing_modTumbler (s : State) (t : Nat) (f : Tumbler → Tumbler) : (s.modTumbler t f).writing = s.writing := rfl
@[simp] theorem State.hold_modTumbler (s : State) (t : Nat) (f : Tumbler → Tumbler) : (s.modTumbler t f).hold = s.hold := rfl
@[simp] theorem State.nextId_modTumbler (s : State) (t : Nat) (f : Tumbler → Tumbler) : (s.modTumbler t f).nextId = s.nextId := rfl
@[simp] theorem State.nextTid_modTumbler (s : State) (t : Nat) (f : Tumbler → Tumbler) : (s.modTumbler t f).nextTid = s.nextTid := rfl
@[simp] theorem State.nextLid_modTumbler (s : State) (t : Nat) (f : Tumbler → Tumbler) : (s.modTumbler t f).nextLid = s.nextLid := rfl
@[simp] theorem State.free_modTumbler (s : State) (t : Nat) (f : Tumbler → Tumbler) : (s.modTumbler t f).free = s.free := rfl
@[simp] theorem State.halted_modTumbler (s : State) (t : Nat) (f : Tumbler → Tumbler) : (s.modTumbler t f).halted = s.halted := rfl
@[simp] theorem State.mismatches_modTumbler (s : State) (t : Nat) (f : Tumbler → Tumbler) : (s.modTumbler t f).mismatches = s.mismatches := rfl
@[simp] theorem State.refusals_modTumbler (s : State) (t : Nat) (f : Tumbler → Tumbler) : (s.modTumbler t f).refusals = s.refusals := rfl
@[simp] theorem State.unpowered_modTumbler (s : State) (t : Nat) (f : Tumbler → Tumbler) : (s.modTumbler t f).unpowered = s.unpowered := rfl
@[simp] theorem State.ctx_modTumbler (s : State) (t : Nat) (f : Tumbler → Tumbler) : (s.modTumbler t f).ctx = s.ctx := rfl
@[simp] theorem State.turn_modTumbler (s : State) (t : Nat) (f : Tumbler → Tumbler) : (s.modTumbler t f).turn = s.turn := rfl
@[simp] theorem State.plan_modTumbler (s : State) (t : Nat) (f : Tumbler → Tumbler) : (s.modTumbler t f).plan = s.plan := rfl
@[simp] theorem State.pending_modTumbler (s : State) (t : Nat) (f : Tumbler → Tumbler) : (s.modTumbler t f).pending = s.pending := rfl
@[simp] theorem State.queue_modTumbler (s : State) (t : Nat) (f : Tumbler → Tumbler) : (s.modTumbler t f).queue = s.queue := rfl

/-! ### `State.modHeap` -/

@[simp] theorem State.clock_modHeap (s : State) (h : Nat) (f : Heap → Heap) : (s.modHeap h f).clock = s.clock := rfl
@[simp] theorem State.mem_modHeap (s : State) (h : Nat) (f : Heap → Heap) : (s.modHeap h f).mem = s.mem := rfl
@[simp] theorem State.empt_modHeap (s : State) (h : Nat) (f : Heap → Heap) : (s.modHeap h f).empt = s.empt := rfl
@[simp] theorem State.soft_modHeap (s : State) (h : Nat) (f : Heap → Heap) : (s.modHeap h f).soft = s.soft := rfl
@[simp] theorem State.bad_modHeap (s : State) (h : Nat) (f : Heap → Heap) : (s.modHeap h f).bad = s.bad := rfl
@[simp] theorem State.patched_modHeap (s : State) (h : Nat) (f : Heap → Heap) : (s.modHeap h f).patched = s.patched := rfl
@[simp] theorem State.hostMem_modHeap (s : State) (h : Nat) (f : Heap → Heap) : (s.modHeap h f).hostMem = s.hostMem := rfl
@[simp] theorem State.threads_modHeap (s : State) (h : Nat) (f : Heap → Heap) : (s.modHeap h f).threads = s.threads := rfl
@[simp] theorem State.cores_modHeap (s : State) (h : Nat) (f : Heap → Heap) : (s.modHeap h f).cores = s.cores := rfl
@[simp] theorem State.squares_modHeap (s : State) (h : Nat) (f : Heap → Heap) : (s.modHeap h f).squares = s.squares := rfl
@[simp] theorem State.launches_modHeap (s : State) (h : Nat) (f : Heap → Heap) : (s.modHeap h f).launches = s.launches := rfl
@[simp] theorem State.sq_modHeap (s : State) (h : Nat) (f : Heap → Heap) : (s.modHeap h f).sq = s.sq := rfl
@[simp] theorem State.net_modHeap (s : State) (h : Nat) (f : Heap → Heap) : (s.modHeap h f).net = s.net := rfl
@[simp] theorem State.ways_modHeap (s : State) (h : Nat) (f : Heap → Heap) : (s.modHeap h f).ways = s.ways := rfl
@[simp] theorem State.stamp_modHeap (s : State) (h : Nat) (f : Heap → Heap) : (s.modHeap h f).stamp = s.stamp := rfl
@[simp] theorem State.hostHold_modHeap (s : State) (h : Nat) (f : Heap → Heap) : (s.modHeap h f).hostHold = s.hostHold := rfl
@[simp] theorem State.waits_modHeap (s : State) (h : Nat) (f : Heap → Heap) : (s.modHeap h f).waits = s.waits := rfl
@[simp] theorem State.roomAsk_modHeap (s : State) (h : Nat) (f : Heap → Heap) : (s.modHeap h f).roomAsk = s.roomAsk := rfl
@[simp] theorem State.tumblers_modHeap (s : State) (h : Nat) (f : Heap → Heap) : (s.modHeap h f).tumblers = s.tumblers := rfl
@[simp] theorem State.heaps_modHeap (s : State) (h : Nat) (f : Heap → Heap) : (s.modHeap h f).heaps = tput s.heaps h (f (s.heap h)) := rfl
@[simp] theorem State.hampers_modHeap (s : State) (h : Nat) (f : Heap → Heap) : (s.modHeap h f).hampers = s.hampers := rfl
@[simp] theorem State.streets_modHeap (s : State) (h : Nat) (f : Heap → Heap) : (s.modHeap h f).streets = s.streets := rfl
@[simp] theorem State.rootTable_modHeap (s : State) (h : Nat) (f : Heap → Heap) : (s.modHeap h f).rootTable = s.rootTable := rfl
@[simp] theorem State.ringAddr_modHeap (s : State) (h : Nat) (f : Heap → Heap) : (s.modHeap h f).ringAddr = s.ringAddr := rfl
@[simp] theorem State.smapAddr_modHeap (s : State) (h : Nat) (f : Heap → Heap) : (s.modHeap h f).smapAddr = s.smapAddr := rfl
@[simp] theorem State.sensors_modHeap (s : State) (h : Nat) (f : Heap → Heap) : (s.modHeap h f).sensors = s.sensors := rfl
@[simp] theorem State.scrubPeriod_modHeap (s : State) (h : Nat) (f : Heap → Heap) : (s.modHeap h f).scrubPeriod = s.scrubPeriod := rfl
@[simp] theorem State.scrubBase_modHeap (s : State) (h : Nat) (f : Heap → Heap) : (s.modHeap h f).scrubBase = s.scrubBase := rfl
@[simp] theorem State.scrubNext_modHeap (s : State) (h : Nat) (f : Heap → Heap) : (s.modHeap h f).scrubNext = s.scrubNext := rfl
@[simp] theorem State.hotNext_modHeap (s : State) (h : Nat) (f : Heap → Heap) : (s.modHeap h f).hotNext = s.hotNext := rfl
@[simp] theorem State.hot_modHeap (s : State) (h : Nat) (f : Heap → Heap) : (s.modHeap h f).hot = s.hot := rfl
@[simp] theorem State.counters_modHeap (s : State) (h : Nat) (f : Heap → Heap) : (s.modHeap h f).counters = s.counters := rfl
@[simp] theorem State.alerts_modHeap (s : State) (h : Nat) (f : Heap → Heap) : (s.modHeap h f).alerts = s.alerts := rfl
@[simp] theorem State.delay_modHeap (s : State) (h : Nat) (f : Heap → Heap) : (s.modHeap h f).delay = s.delay := rfl
@[simp] theorem State.writing_modHeap (s : State) (h : Nat) (f : Heap → Heap) : (s.modHeap h f).writing = s.writing := rfl
@[simp] theorem State.hold_modHeap (s : State) (h : Nat) (f : Heap → Heap) : (s.modHeap h f).hold = s.hold := rfl
@[simp] theorem State.nextId_modHeap (s : State) (h : Nat) (f : Heap → Heap) : (s.modHeap h f).nextId = s.nextId := rfl
@[simp] theorem State.nextTid_modHeap (s : State) (h : Nat) (f : Heap → Heap) : (s.modHeap h f).nextTid = s.nextTid := rfl
@[simp] theorem State.nextLid_modHeap (s : State) (h : Nat) (f : Heap → Heap) : (s.modHeap h f).nextLid = s.nextLid := rfl
@[simp] theorem State.free_modHeap (s : State) (h : Nat) (f : Heap → Heap) : (s.modHeap h f).free = s.free := rfl
@[simp] theorem State.halted_modHeap (s : State) (h : Nat) (f : Heap → Heap) : (s.modHeap h f).halted = s.halted := rfl
@[simp] theorem State.mismatches_modHeap (s : State) (h : Nat) (f : Heap → Heap) : (s.modHeap h f).mismatches = s.mismatches := rfl
@[simp] theorem State.refusals_modHeap (s : State) (h : Nat) (f : Heap → Heap) : (s.modHeap h f).refusals = s.refusals := rfl
@[simp] theorem State.unpowered_modHeap (s : State) (h : Nat) (f : Heap → Heap) : (s.modHeap h f).unpowered = s.unpowered := rfl
@[simp] theorem State.ctx_modHeap (s : State) (h : Nat) (f : Heap → Heap) : (s.modHeap h f).ctx = s.ctx := rfl
@[simp] theorem State.turn_modHeap (s : State) (h : Nat) (f : Heap → Heap) : (s.modHeap h f).turn = s.turn := rfl
@[simp] theorem State.plan_modHeap (s : State) (h : Nat) (f : Heap → Heap) : (s.modHeap h f).plan = s.plan := rfl
@[simp] theorem State.pending_modHeap (s : State) (h : Nat) (f : Heap → Heap) : (s.modHeap h f).pending = s.pending := rfl
@[simp] theorem State.queue_modHeap (s : State) (h : Nat) (f : Heap → Heap) : (s.modHeap h f).queue = s.queue := rfl

/-! ### `State.inject` -/

@[simp] theorem State.clock_inject (s : State) (b : Body) : (s.inject b).clock = s.clock := rfl
@[simp] theorem State.mem_inject (s : State) (b : Body) : (s.inject b).mem = s.mem := rfl
@[simp] theorem State.empt_inject (s : State) (b : Body) : (s.inject b).empt = s.empt := rfl
@[simp] theorem State.soft_inject (s : State) (b : Body) : (s.inject b).soft = s.soft := rfl
@[simp] theorem State.bad_inject (s : State) (b : Body) : (s.inject b).bad = s.bad := rfl
@[simp] theorem State.patched_inject (s : State) (b : Body) : (s.inject b).patched = s.patched := rfl
@[simp] theorem State.hostMem_inject (s : State) (b : Body) : (s.inject b).hostMem = s.hostMem := rfl
@[simp] theorem State.threads_inject (s : State) (b : Body) : (s.inject b).threads = s.threads := rfl
@[simp] theorem State.cores_inject (s : State) (b : Body) : (s.inject b).cores = s.cores := rfl
@[simp] theorem State.squares_inject (s : State) (b : Body) : (s.inject b).squares = s.squares := rfl
@[simp] theorem State.launches_inject (s : State) (b : Body) : (s.inject b).launches = s.launches := rfl
@[simp] theorem State.sq_inject (s : State) (b : Body) : (s.inject b).sq = s.sq := rfl
@[simp] theorem State.net_inject (s : State) (b : Body) : (s.inject b).net = tput s.net s.nextId b := rfl
@[simp] theorem State.ways_inject (s : State) (b : Body) : (s.inject b).ways = s.ways := rfl
@[simp] theorem State.stamp_inject (s : State) (b : Body) : (s.inject b).stamp = s.stamp := rfl
@[simp] theorem State.hostHold_inject (s : State) (b : Body) : (s.inject b).hostHold = s.hostHold := rfl
@[simp] theorem State.waits_inject (s : State) (b : Body) : (s.inject b).waits = s.waits := rfl
@[simp] theorem State.roomAsk_inject (s : State) (b : Body) : (s.inject b).roomAsk = s.roomAsk := rfl
@[simp] theorem State.tumblers_inject (s : State) (b : Body) : (s.inject b).tumblers = s.tumblers := rfl
@[simp] theorem State.heaps_inject (s : State) (b : Body) : (s.inject b).heaps = s.heaps := rfl
@[simp] theorem State.hampers_inject (s : State) (b : Body) : (s.inject b).hampers = s.hampers := rfl
@[simp] theorem State.streets_inject (s : State) (b : Body) : (s.inject b).streets = s.streets := rfl
@[simp] theorem State.rootTable_inject (s : State) (b : Body) : (s.inject b).rootTable = s.rootTable := rfl
@[simp] theorem State.ringAddr_inject (s : State) (b : Body) : (s.inject b).ringAddr = s.ringAddr := rfl
@[simp] theorem State.smapAddr_inject (s : State) (b : Body) : (s.inject b).smapAddr = s.smapAddr := rfl
@[simp] theorem State.sensors_inject (s : State) (b : Body) : (s.inject b).sensors = s.sensors := rfl
@[simp] theorem State.scrubPeriod_inject (s : State) (b : Body) : (s.inject b).scrubPeriod = s.scrubPeriod := rfl
@[simp] theorem State.scrubBase_inject (s : State) (b : Body) : (s.inject b).scrubBase = s.scrubBase := rfl
@[simp] theorem State.scrubNext_inject (s : State) (b : Body) : (s.inject b).scrubNext = s.scrubNext := rfl
@[simp] theorem State.hotNext_inject (s : State) (b : Body) : (s.inject b).hotNext = s.hotNext := rfl
@[simp] theorem State.hot_inject (s : State) (b : Body) : (s.inject b).hot = s.hot := rfl
@[simp] theorem State.counters_inject (s : State) (b : Body) : (s.inject b).counters = s.counters := rfl
@[simp] theorem State.alerts_inject (s : State) (b : Body) : (s.inject b).alerts = s.alerts := rfl
@[simp] theorem State.delay_inject (s : State) (b : Body) : (s.inject b).delay = s.delay := rfl
@[simp] theorem State.writing_inject (s : State) (b : Body) : (s.inject b).writing = s.writing := rfl
@[simp] theorem State.hold_inject (s : State) (b : Body) : (s.inject b).hold = s.hold := rfl
@[simp] theorem State.nextId_inject (s : State) (b : Body) : (s.inject b).nextId = s.nextId + 1 := rfl
@[simp] theorem State.nextTid_inject (s : State) (b : Body) : (s.inject b).nextTid = s.nextTid := rfl
@[simp] theorem State.nextLid_inject (s : State) (b : Body) : (s.inject b).nextLid = s.nextLid := rfl
@[simp] theorem State.free_inject (s : State) (b : Body) : (s.inject b).free = s.free := rfl
@[simp] theorem State.halted_inject (s : State) (b : Body) : (s.inject b).halted = s.halted := rfl
@[simp] theorem State.mismatches_inject (s : State) (b : Body) : (s.inject b).mismatches = s.mismatches := rfl
@[simp] theorem State.refusals_inject (s : State) (b : Body) : (s.inject b).refusals = s.refusals := rfl
@[simp] theorem State.unpowered_inject (s : State) (b : Body) : (s.inject b).unpowered = s.unpowered := rfl
@[simp] theorem State.ctx_inject (s : State) (b : Body) : (s.inject b).ctx = s.ctx := rfl
@[simp] theorem State.turn_inject (s : State) (b : Body) : (s.inject b).turn = s.turn := rfl
@[simp] theorem State.plan_inject (s : State) (b : Body) : (s.inject b).plan = s.plan := rfl
@[simp] theorem State.pending_inject (s : State) (b : Body) : (s.inject b).pending = s.pending := rfl
@[simp] theorem State.queue_inject (s : State) (b : Body) : (s.inject b).queue = s.queue := rfl

/-! ### `State.dropPacket` -/

@[simp] theorem State.clock_dropPacket (s : State) (id : Nat) : (s.dropPacket id).clock = s.clock := rfl
@[simp] theorem State.mem_dropPacket (s : State) (id : Nat) : (s.dropPacket id).mem = s.mem := rfl
@[simp] theorem State.empt_dropPacket (s : State) (id : Nat) : (s.dropPacket id).empt = s.empt := rfl
@[simp] theorem State.soft_dropPacket (s : State) (id : Nat) : (s.dropPacket id).soft = s.soft := rfl
@[simp] theorem State.bad_dropPacket (s : State) (id : Nat) : (s.dropPacket id).bad = s.bad := rfl
@[simp] theorem State.patched_dropPacket (s : State) (id : Nat) : (s.dropPacket id).patched = s.patched := rfl
@[simp] theorem State.hostMem_dropPacket (s : State) (id : Nat) : (s.dropPacket id).hostMem = s.hostMem := rfl
@[simp] theorem State.threads_dropPacket (s : State) (id : Nat) : (s.dropPacket id).threads = s.threads := rfl
@[simp] theorem State.cores_dropPacket (s : State) (id : Nat) : (s.dropPacket id).cores = s.cores := rfl
@[simp] theorem State.squares_dropPacket (s : State) (id : Nat) : (s.dropPacket id).squares = s.squares := rfl
@[simp] theorem State.launches_dropPacket (s : State) (id : Nat) : (s.dropPacket id).launches = s.launches := rfl
@[simp] theorem State.sq_dropPacket (s : State) (id : Nat) : (s.dropPacket id).sq = s.sq := rfl
@[simp] theorem State.net_dropPacket (s : State) (id : Nat) : (s.dropPacket id).net = tdel s.net id := rfl
@[simp] theorem State.ways_dropPacket (s : State) (id : Nat) : (s.dropPacket id).ways = s.ways := rfl
@[simp] theorem State.stamp_dropPacket (s : State) (id : Nat) : (s.dropPacket id).stamp = s.stamp := rfl
@[simp] theorem State.hostHold_dropPacket (s : State) (id : Nat) : (s.dropPacket id).hostHold = s.hostHold := rfl
@[simp] theorem State.waits_dropPacket (s : State) (id : Nat) : (s.dropPacket id).waits = s.waits := rfl
@[simp] theorem State.roomAsk_dropPacket (s : State) (id : Nat) : (s.dropPacket id).roomAsk = s.roomAsk := rfl
@[simp] theorem State.tumblers_dropPacket (s : State) (id : Nat) : (s.dropPacket id).tumblers = s.tumblers := rfl
@[simp] theorem State.heaps_dropPacket (s : State) (id : Nat) : (s.dropPacket id).heaps = s.heaps := rfl
@[simp] theorem State.hampers_dropPacket (s : State) (id : Nat) : (s.dropPacket id).hampers = s.hampers := rfl
@[simp] theorem State.streets_dropPacket (s : State) (id : Nat) : (s.dropPacket id).streets = s.streets := rfl
@[simp] theorem State.rootTable_dropPacket (s : State) (id : Nat) : (s.dropPacket id).rootTable = s.rootTable := rfl
@[simp] theorem State.ringAddr_dropPacket (s : State) (id : Nat) : (s.dropPacket id).ringAddr = s.ringAddr := rfl
@[simp] theorem State.smapAddr_dropPacket (s : State) (id : Nat) : (s.dropPacket id).smapAddr = s.smapAddr := rfl
@[simp] theorem State.sensors_dropPacket (s : State) (id : Nat) : (s.dropPacket id).sensors = s.sensors := rfl
@[simp] theorem State.scrubPeriod_dropPacket (s : State) (id : Nat) : (s.dropPacket id).scrubPeriod = s.scrubPeriod := rfl
@[simp] theorem State.scrubBase_dropPacket (s : State) (id : Nat) : (s.dropPacket id).scrubBase = s.scrubBase := rfl
@[simp] theorem State.scrubNext_dropPacket (s : State) (id : Nat) : (s.dropPacket id).scrubNext = s.scrubNext := rfl
@[simp] theorem State.hotNext_dropPacket (s : State) (id : Nat) : (s.dropPacket id).hotNext = s.hotNext := rfl
@[simp] theorem State.hot_dropPacket (s : State) (id : Nat) : (s.dropPacket id).hot = s.hot := rfl
@[simp] theorem State.counters_dropPacket (s : State) (id : Nat) : (s.dropPacket id).counters = s.counters := rfl
@[simp] theorem State.alerts_dropPacket (s : State) (id : Nat) : (s.dropPacket id).alerts = s.alerts := rfl
@[simp] theorem State.delay_dropPacket (s : State) (id : Nat) : (s.dropPacket id).delay = s.delay := rfl
@[simp] theorem State.writing_dropPacket (s : State) (id : Nat) : (s.dropPacket id).writing = s.writing := rfl
@[simp] theorem State.hold_dropPacket (s : State) (id : Nat) : (s.dropPacket id).hold = s.hold := rfl
@[simp] theorem State.nextId_dropPacket (s : State) (id : Nat) : (s.dropPacket id).nextId = s.nextId := rfl
@[simp] theorem State.nextTid_dropPacket (s : State) (id : Nat) : (s.dropPacket id).nextTid = s.nextTid := rfl
@[simp] theorem State.nextLid_dropPacket (s : State) (id : Nat) : (s.dropPacket id).nextLid = s.nextLid := rfl
@[simp] theorem State.free_dropPacket (s : State) (id : Nat) : (s.dropPacket id).free = s.free := rfl
@[simp] theorem State.halted_dropPacket (s : State) (id : Nat) : (s.dropPacket id).halted = s.halted := rfl
@[simp] theorem State.mismatches_dropPacket (s : State) (id : Nat) : (s.dropPacket id).mismatches = s.mismatches := rfl
@[simp] theorem State.refusals_dropPacket (s : State) (id : Nat) : (s.dropPacket id).refusals = s.refusals := rfl
@[simp] theorem State.unpowered_dropPacket (s : State) (id : Nat) : (s.dropPacket id).unpowered = s.unpowered := rfl
@[simp] theorem State.ctx_dropPacket (s : State) (id : Nat) : (s.dropPacket id).ctx = s.ctx := rfl
@[simp] theorem State.turn_dropPacket (s : State) (id : Nat) : (s.dropPacket id).turn = s.turn := rfl
@[simp] theorem State.plan_dropPacket (s : State) (id : Nat) : (s.dropPacket id).plan = s.plan := rfl
@[simp] theorem State.pending_dropPacket (s : State) (id : Nat) : (s.dropPacket id).pending = s.pending := rfl
@[simp] theorem State.queue_dropPacket (s : State) (id : Nat) : (s.dropPacket id).queue = s.queue := rfl

/-! ### `State.store` -/

@[simp] theorem State.clock_store (s : State) (k n v : Nat) : (s.store k n v).clock = s.clock := rfl
@[simp] theorem State.mem_store (s : State) (k n v : Nat) : (s.store k n v).mem = writeLE s.mem k n v := rfl
@[simp] theorem State.empt_store (s : State) (k n v : Nat) : (s.store k n v).empt = s.empt := rfl
@[simp] theorem State.soft_store (s : State) (k n v : Nat) : (s.store k n v).soft = s.soft := rfl
@[simp] theorem State.bad_store (s : State) (k n v : Nat) : (s.store k n v).bad = s.bad := rfl
@[simp] theorem State.patched_store (s : State) (k n v : Nat) : (s.store k n v).patched = s.patched := rfl
@[simp] theorem State.hostMem_store (s : State) (k n v : Nat) : (s.store k n v).hostMem = s.hostMem := rfl
@[simp] theorem State.threads_store (s : State) (k n v : Nat) : (s.store k n v).threads = s.threads := rfl
@[simp] theorem State.cores_store (s : State) (k n v : Nat) : (s.store k n v).cores = s.cores := rfl
@[simp] theorem State.squares_store (s : State) (k n v : Nat) : (s.store k n v).squares = s.squares := rfl
@[simp] theorem State.launches_store (s : State) (k n v : Nat) : (s.store k n v).launches = s.launches := rfl
@[simp] theorem State.sq_store (s : State) (k n v : Nat) : (s.store k n v).sq = s.sq := rfl
@[simp] theorem State.net_store (s : State) (k n v : Nat) : (s.store k n v).net = s.net := rfl
@[simp] theorem State.ways_store (s : State) (k n v : Nat) : (s.store k n v).ways = s.ways := rfl
@[simp] theorem State.stamp_store (s : State) (k n v : Nat) : (s.store k n v).stamp = s.stamp := rfl
@[simp] theorem State.hostHold_store (s : State) (k n v : Nat) : (s.store k n v).hostHold = s.hostHold := rfl
@[simp] theorem State.waits_store (s : State) (k n v : Nat) : (s.store k n v).waits = s.waits := rfl
@[simp] theorem State.roomAsk_store (s : State) (k n v : Nat) : (s.store k n v).roomAsk = s.roomAsk := rfl
@[simp] theorem State.tumblers_store (s : State) (k n v : Nat) : (s.store k n v).tumblers = s.tumblers := rfl
@[simp] theorem State.heaps_store (s : State) (k n v : Nat) : (s.store k n v).heaps = s.heaps := rfl
@[simp] theorem State.hampers_store (s : State) (k n v : Nat) : (s.store k n v).hampers = s.hampers := rfl
@[simp] theorem State.streets_store (s : State) (k n v : Nat) : (s.store k n v).streets = s.streets := rfl
@[simp] theorem State.rootTable_store (s : State) (k n v : Nat) : (s.store k n v).rootTable = s.rootTable := rfl
@[simp] theorem State.ringAddr_store (s : State) (k n v : Nat) : (s.store k n v).ringAddr = s.ringAddr := rfl
@[simp] theorem State.smapAddr_store (s : State) (k n v : Nat) : (s.store k n v).smapAddr = s.smapAddr := rfl
@[simp] theorem State.sensors_store (s : State) (k n v : Nat) : (s.store k n v).sensors = s.sensors := rfl
@[simp] theorem State.scrubPeriod_store (s : State) (k n v : Nat) : (s.store k n v).scrubPeriod = s.scrubPeriod := rfl
@[simp] theorem State.scrubBase_store (s : State) (k n v : Nat) : (s.store k n v).scrubBase = s.scrubBase := rfl
@[simp] theorem State.scrubNext_store (s : State) (k n v : Nat) : (s.store k n v).scrubNext = s.scrubNext := rfl
@[simp] theorem State.hotNext_store (s : State) (k n v : Nat) : (s.store k n v).hotNext = s.hotNext := rfl
@[simp] theorem State.hot_store (s : State) (k n v : Nat) : (s.store k n v).hot = s.hot := rfl
@[simp] theorem State.counters_store (s : State) (k n v : Nat) : (s.store k n v).counters = s.counters := rfl
@[simp] theorem State.alerts_store (s : State) (k n v : Nat) : (s.store k n v).alerts = s.alerts := rfl
@[simp] theorem State.delay_store (s : State) (k n v : Nat) : (s.store k n v).delay = s.delay := rfl
@[simp] theorem State.writing_store (s : State) (k n v : Nat) : (s.store k n v).writing = s.writing := rfl
@[simp] theorem State.hold_store (s : State) (k n v : Nat) : (s.store k n v).hold = s.hold := rfl
@[simp] theorem State.nextId_store (s : State) (k n v : Nat) : (s.store k n v).nextId = s.nextId := rfl
@[simp] theorem State.nextTid_store (s : State) (k n v : Nat) : (s.store k n v).nextTid = s.nextTid := rfl
@[simp] theorem State.nextLid_store (s : State) (k n v : Nat) : (s.store k n v).nextLid = s.nextLid := rfl
@[simp] theorem State.free_store (s : State) (k n v : Nat) : (s.store k n v).free = s.free := rfl
@[simp] theorem State.halted_store (s : State) (k n v : Nat) : (s.store k n v).halted = s.halted := rfl
@[simp] theorem State.mismatches_store (s : State) (k n v : Nat) : (s.store k n v).mismatches = s.mismatches := rfl
@[simp] theorem State.refusals_store (s : State) (k n v : Nat) : (s.store k n v).refusals = s.refusals := rfl
@[simp] theorem State.unpowered_store (s : State) (k n v : Nat) : (s.store k n v).unpowered = s.unpowered := rfl
@[simp] theorem State.ctx_store (s : State) (k n v : Nat) : (s.store k n v).ctx = s.ctx := rfl
@[simp] theorem State.turn_store (s : State) (k n v : Nat) : (s.store k n v).turn = s.turn := rfl
@[simp] theorem State.plan_store (s : State) (k n v : Nat) : (s.store k n v).plan = s.plan := rfl
@[simp] theorem State.pending_store (s : State) (k n v : Nat) : (s.store k n v).pending = s.pending := rfl
@[simp] theorem State.queue_store (s : State) (k n v : Nat) : (s.store k n v).queue = s.queue := rfl

/-! ### `State.setFull` -/

@[simp] theorem State.clock_setFull (s : State) (k : Nat) : (s.setFull k).clock = s.clock := rfl
@[simp] theorem State.mem_setFull (s : State) (k : Nat) : (s.setFull k).mem = s.mem := rfl
@[simp] theorem State.empt_setFull (s : State) (k : Nat) : (s.setFull k).empt = sdel s.empt (k / 8) := rfl
@[simp] theorem State.soft_setFull (s : State) (k : Nat) : (s.setFull k).soft = s.soft := rfl
@[simp] theorem State.bad_setFull (s : State) (k : Nat) : (s.setFull k).bad = s.bad := rfl
@[simp] theorem State.patched_setFull (s : State) (k : Nat) : (s.setFull k).patched = s.patched := rfl
@[simp] theorem State.hostMem_setFull (s : State) (k : Nat) : (s.setFull k).hostMem = s.hostMem := rfl
@[simp] theorem State.threads_setFull (s : State) (k : Nat) : (s.setFull k).threads = s.threads := rfl
@[simp] theorem State.cores_setFull (s : State) (k : Nat) : (s.setFull k).cores = s.cores := rfl
@[simp] theorem State.squares_setFull (s : State) (k : Nat) : (s.setFull k).squares = s.squares := rfl
@[simp] theorem State.launches_setFull (s : State) (k : Nat) : (s.setFull k).launches = s.launches := rfl
@[simp] theorem State.sq_setFull (s : State) (k : Nat) : (s.setFull k).sq = s.sq := rfl
@[simp] theorem State.net_setFull (s : State) (k : Nat) : (s.setFull k).net = s.net := rfl
@[simp] theorem State.ways_setFull (s : State) (k : Nat) : (s.setFull k).ways = s.ways := rfl
@[simp] theorem State.stamp_setFull (s : State) (k : Nat) : (s.setFull k).stamp = s.stamp := rfl
@[simp] theorem State.hostHold_setFull (s : State) (k : Nat) : (s.setFull k).hostHold = s.hostHold := rfl
@[simp] theorem State.waits_setFull (s : State) (k : Nat) : (s.setFull k).waits = s.waits := rfl
@[simp] theorem State.roomAsk_setFull (s : State) (k : Nat) : (s.setFull k).roomAsk = s.roomAsk := rfl
@[simp] theorem State.tumblers_setFull (s : State) (k : Nat) : (s.setFull k).tumblers = s.tumblers := rfl
@[simp] theorem State.heaps_setFull (s : State) (k : Nat) : (s.setFull k).heaps = s.heaps := rfl
@[simp] theorem State.hampers_setFull (s : State) (k : Nat) : (s.setFull k).hampers = s.hampers := rfl
@[simp] theorem State.streets_setFull (s : State) (k : Nat) : (s.setFull k).streets = s.streets := rfl
@[simp] theorem State.rootTable_setFull (s : State) (k : Nat) : (s.setFull k).rootTable = s.rootTable := rfl
@[simp] theorem State.ringAddr_setFull (s : State) (k : Nat) : (s.setFull k).ringAddr = s.ringAddr := rfl
@[simp] theorem State.smapAddr_setFull (s : State) (k : Nat) : (s.setFull k).smapAddr = s.smapAddr := rfl
@[simp] theorem State.sensors_setFull (s : State) (k : Nat) : (s.setFull k).sensors = s.sensors := rfl
@[simp] theorem State.scrubPeriod_setFull (s : State) (k : Nat) : (s.setFull k).scrubPeriod = s.scrubPeriod := rfl
@[simp] theorem State.scrubBase_setFull (s : State) (k : Nat) : (s.setFull k).scrubBase = s.scrubBase := rfl
@[simp] theorem State.scrubNext_setFull (s : State) (k : Nat) : (s.setFull k).scrubNext = s.scrubNext := rfl
@[simp] theorem State.hotNext_setFull (s : State) (k : Nat) : (s.setFull k).hotNext = s.hotNext := rfl
@[simp] theorem State.hot_setFull (s : State) (k : Nat) : (s.setFull k).hot = s.hot := rfl
@[simp] theorem State.counters_setFull (s : State) (k : Nat) : (s.setFull k).counters = s.counters := rfl
@[simp] theorem State.alerts_setFull (s : State) (k : Nat) : (s.setFull k).alerts = s.alerts := rfl
@[simp] theorem State.delay_setFull (s : State) (k : Nat) : (s.setFull k).delay = s.delay := rfl
@[simp] theorem State.writing_setFull (s : State) (k : Nat) : (s.setFull k).writing = s.writing := rfl
@[simp] theorem State.hold_setFull (s : State) (k : Nat) : (s.setFull k).hold = s.hold := rfl
@[simp] theorem State.nextId_setFull (s : State) (k : Nat) : (s.setFull k).nextId = s.nextId := rfl
@[simp] theorem State.nextTid_setFull (s : State) (k : Nat) : (s.setFull k).nextTid = s.nextTid := rfl
@[simp] theorem State.nextLid_setFull (s : State) (k : Nat) : (s.setFull k).nextLid = s.nextLid := rfl
@[simp] theorem State.free_setFull (s : State) (k : Nat) : (s.setFull k).free = s.free := rfl
@[simp] theorem State.halted_setFull (s : State) (k : Nat) : (s.setFull k).halted = s.halted := rfl
@[simp] theorem State.mismatches_setFull (s : State) (k : Nat) : (s.setFull k).mismatches = s.mismatches := rfl
@[simp] theorem State.refusals_setFull (s : State) (k : Nat) : (s.setFull k).refusals = s.refusals := rfl
@[simp] theorem State.unpowered_setFull (s : State) (k : Nat) : (s.setFull k).unpowered = s.unpowered := rfl
@[simp] theorem State.ctx_setFull (s : State) (k : Nat) : (s.setFull k).ctx = s.ctx := rfl
@[simp] theorem State.turn_setFull (s : State) (k : Nat) : (s.setFull k).turn = s.turn := rfl
@[simp] theorem State.plan_setFull (s : State) (k : Nat) : (s.setFull k).plan = s.plan := rfl
@[simp] theorem State.pending_setFull (s : State) (k : Nat) : (s.setFull k).pending = s.pending := rfl
@[simp] theorem State.queue_setFull (s : State) (k : Nat) : (s.setFull k).queue = s.queue := rfl

/-! ### `State.setEmpty` -/

@[simp] theorem State.clock_setEmpty (s : State) (k : Nat) : (s.setEmpty k).clock = s.clock := rfl
@[simp] theorem State.mem_setEmpty (s : State) (k : Nat) : (s.setEmpty k).mem = s.mem := rfl
@[simp] theorem State.empt_setEmpty (s : State) (k : Nat) : (s.setEmpty k).empt = sadd s.empt (k / 8) := rfl
@[simp] theorem State.soft_setEmpty (s : State) (k : Nat) : (s.setEmpty k).soft = s.soft := rfl
@[simp] theorem State.bad_setEmpty (s : State) (k : Nat) : (s.setEmpty k).bad = s.bad := rfl
@[simp] theorem State.patched_setEmpty (s : State) (k : Nat) : (s.setEmpty k).patched = s.patched := rfl
@[simp] theorem State.hostMem_setEmpty (s : State) (k : Nat) : (s.setEmpty k).hostMem = s.hostMem := rfl
@[simp] theorem State.threads_setEmpty (s : State) (k : Nat) : (s.setEmpty k).threads = s.threads := rfl
@[simp] theorem State.cores_setEmpty (s : State) (k : Nat) : (s.setEmpty k).cores = s.cores := rfl
@[simp] theorem State.squares_setEmpty (s : State) (k : Nat) : (s.setEmpty k).squares = s.squares := rfl
@[simp] theorem State.launches_setEmpty (s : State) (k : Nat) : (s.setEmpty k).launches = s.launches := rfl
@[simp] theorem State.sq_setEmpty (s : State) (k : Nat) : (s.setEmpty k).sq = s.sq := rfl
@[simp] theorem State.net_setEmpty (s : State) (k : Nat) : (s.setEmpty k).net = s.net := rfl
@[simp] theorem State.ways_setEmpty (s : State) (k : Nat) : (s.setEmpty k).ways = s.ways := rfl
@[simp] theorem State.stamp_setEmpty (s : State) (k : Nat) : (s.setEmpty k).stamp = s.stamp := rfl
@[simp] theorem State.hostHold_setEmpty (s : State) (k : Nat) : (s.setEmpty k).hostHold = s.hostHold := rfl
@[simp] theorem State.waits_setEmpty (s : State) (k : Nat) : (s.setEmpty k).waits = s.waits := rfl
@[simp] theorem State.roomAsk_setEmpty (s : State) (k : Nat) : (s.setEmpty k).roomAsk = s.roomAsk := rfl
@[simp] theorem State.tumblers_setEmpty (s : State) (k : Nat) : (s.setEmpty k).tumblers = s.tumblers := rfl
@[simp] theorem State.heaps_setEmpty (s : State) (k : Nat) : (s.setEmpty k).heaps = s.heaps := rfl
@[simp] theorem State.hampers_setEmpty (s : State) (k : Nat) : (s.setEmpty k).hampers = s.hampers := rfl
@[simp] theorem State.streets_setEmpty (s : State) (k : Nat) : (s.setEmpty k).streets = s.streets := rfl
@[simp] theorem State.rootTable_setEmpty (s : State) (k : Nat) : (s.setEmpty k).rootTable = s.rootTable := rfl
@[simp] theorem State.ringAddr_setEmpty (s : State) (k : Nat) : (s.setEmpty k).ringAddr = s.ringAddr := rfl
@[simp] theorem State.smapAddr_setEmpty (s : State) (k : Nat) : (s.setEmpty k).smapAddr = s.smapAddr := rfl
@[simp] theorem State.sensors_setEmpty (s : State) (k : Nat) : (s.setEmpty k).sensors = s.sensors := rfl
@[simp] theorem State.scrubPeriod_setEmpty (s : State) (k : Nat) : (s.setEmpty k).scrubPeriod = s.scrubPeriod := rfl
@[simp] theorem State.scrubBase_setEmpty (s : State) (k : Nat) : (s.setEmpty k).scrubBase = s.scrubBase := rfl
@[simp] theorem State.scrubNext_setEmpty (s : State) (k : Nat) : (s.setEmpty k).scrubNext = s.scrubNext := rfl
@[simp] theorem State.hotNext_setEmpty (s : State) (k : Nat) : (s.setEmpty k).hotNext = s.hotNext := rfl
@[simp] theorem State.hot_setEmpty (s : State) (k : Nat) : (s.setEmpty k).hot = s.hot := rfl
@[simp] theorem State.counters_setEmpty (s : State) (k : Nat) : (s.setEmpty k).counters = s.counters := rfl
@[simp] theorem State.alerts_setEmpty (s : State) (k : Nat) : (s.setEmpty k).alerts = s.alerts := rfl
@[simp] theorem State.delay_setEmpty (s : State) (k : Nat) : (s.setEmpty k).delay = s.delay := rfl
@[simp] theorem State.writing_setEmpty (s : State) (k : Nat) : (s.setEmpty k).writing = s.writing := rfl
@[simp] theorem State.hold_setEmpty (s : State) (k : Nat) : (s.setEmpty k).hold = s.hold := rfl
@[simp] theorem State.nextId_setEmpty (s : State) (k : Nat) : (s.setEmpty k).nextId = s.nextId := rfl
@[simp] theorem State.nextTid_setEmpty (s : State) (k : Nat) : (s.setEmpty k).nextTid = s.nextTid := rfl
@[simp] theorem State.nextLid_setEmpty (s : State) (k : Nat) : (s.setEmpty k).nextLid = s.nextLid := rfl
@[simp] theorem State.free_setEmpty (s : State) (k : Nat) : (s.setEmpty k).free = s.free := rfl
@[simp] theorem State.halted_setEmpty (s : State) (k : Nat) : (s.setEmpty k).halted = s.halted := rfl
@[simp] theorem State.mismatches_setEmpty (s : State) (k : Nat) : (s.setEmpty k).mismatches = s.mismatches := rfl
@[simp] theorem State.refusals_setEmpty (s : State) (k : Nat) : (s.setEmpty k).refusals = s.refusals := rfl
@[simp] theorem State.unpowered_setEmpty (s : State) (k : Nat) : (s.setEmpty k).unpowered = s.unpowered := rfl
@[simp] theorem State.ctx_setEmpty (s : State) (k : Nat) : (s.setEmpty k).ctx = s.ctx := rfl
@[simp] theorem State.turn_setEmpty (s : State) (k : Nat) : (s.setEmpty k).turn = s.turn := rfl
@[simp] theorem State.plan_setEmpty (s : State) (k : Nat) : (s.setEmpty k).plan = s.plan := rfl
@[simp] theorem State.pending_setEmpty (s : State) (k : Nat) : (s.setEmpty k).pending = s.pending := rfl
@[simp] theorem State.queue_setEmpty (s : State) (k : Nat) : (s.setEmpty k).queue = s.queue := rfl

/-! ### `State.toHost` -/

@[simp] theorem State.clock_toHost (s : State) (a : Nat) (bs : List Byte) : (s.toHost a bs).clock = s.clock := rfl
@[simp] theorem State.mem_toHost (s : State) (a : Nat) (bs : List Byte) : (s.toHost a bs).mem = s.mem := rfl
@[simp] theorem State.empt_toHost (s : State) (a : Nat) (bs : List Byte) : (s.toHost a bs).empt = s.empt := rfl
@[simp] theorem State.soft_toHost (s : State) (a : Nat) (bs : List Byte) : (s.toHost a bs).soft = s.soft := rfl
@[simp] theorem State.bad_toHost (s : State) (a : Nat) (bs : List Byte) : (s.toHost a bs).bad = s.bad := rfl
@[simp] theorem State.patched_toHost (s : State) (a : Nat) (bs : List Byte) : (s.toHost a bs).patched = s.patched := rfl
@[simp] theorem State.hostMem_toHost (s : State) (a : Nat) (bs : List Byte) : (s.toHost a bs).hostMem = putBytes s.hostMem a bs := rfl
@[simp] theorem State.threads_toHost (s : State) (a : Nat) (bs : List Byte) : (s.toHost a bs).threads = s.threads := rfl
@[simp] theorem State.cores_toHost (s : State) (a : Nat) (bs : List Byte) : (s.toHost a bs).cores = s.cores := rfl
@[simp] theorem State.squares_toHost (s : State) (a : Nat) (bs : List Byte) : (s.toHost a bs).squares = s.squares := rfl
@[simp] theorem State.launches_toHost (s : State) (a : Nat) (bs : List Byte) : (s.toHost a bs).launches = s.launches := rfl
@[simp] theorem State.sq_toHost (s : State) (a : Nat) (bs : List Byte) : (s.toHost a bs).sq = s.sq := rfl
@[simp] theorem State.net_toHost (s : State) (a : Nat) (bs : List Byte) : (s.toHost a bs).net = s.net := rfl
@[simp] theorem State.ways_toHost (s : State) (a : Nat) (bs : List Byte) : (s.toHost a bs).ways = s.ways := rfl
@[simp] theorem State.stamp_toHost (s : State) (a : Nat) (bs : List Byte) : (s.toHost a bs).stamp = s.stamp := rfl
@[simp] theorem State.hostHold_toHost (s : State) (a : Nat) (bs : List Byte) : (s.toHost a bs).hostHold = s.hostHold := rfl
@[simp] theorem State.waits_toHost (s : State) (a : Nat) (bs : List Byte) : (s.toHost a bs).waits = s.waits := rfl
@[simp] theorem State.roomAsk_toHost (s : State) (a : Nat) (bs : List Byte) : (s.toHost a bs).roomAsk = s.roomAsk := rfl
@[simp] theorem State.tumblers_toHost (s : State) (a : Nat) (bs : List Byte) : (s.toHost a bs).tumblers = s.tumblers := rfl
@[simp] theorem State.heaps_toHost (s : State) (a : Nat) (bs : List Byte) : (s.toHost a bs).heaps = s.heaps := rfl
@[simp] theorem State.hampers_toHost (s : State) (a : Nat) (bs : List Byte) : (s.toHost a bs).hampers = s.hampers := rfl
@[simp] theorem State.streets_toHost (s : State) (a : Nat) (bs : List Byte) : (s.toHost a bs).streets = s.streets := rfl
@[simp] theorem State.rootTable_toHost (s : State) (a : Nat) (bs : List Byte) : (s.toHost a bs).rootTable = s.rootTable := rfl
@[simp] theorem State.ringAddr_toHost (s : State) (a : Nat) (bs : List Byte) : (s.toHost a bs).ringAddr = s.ringAddr := rfl
@[simp] theorem State.smapAddr_toHost (s : State) (a : Nat) (bs : List Byte) : (s.toHost a bs).smapAddr = s.smapAddr := rfl
@[simp] theorem State.sensors_toHost (s : State) (a : Nat) (bs : List Byte) : (s.toHost a bs).sensors = s.sensors := rfl
@[simp] theorem State.scrubPeriod_toHost (s : State) (a : Nat) (bs : List Byte) : (s.toHost a bs).scrubPeriod = s.scrubPeriod := rfl
@[simp] theorem State.scrubBase_toHost (s : State) (a : Nat) (bs : List Byte) : (s.toHost a bs).scrubBase = s.scrubBase := rfl
@[simp] theorem State.scrubNext_toHost (s : State) (a : Nat) (bs : List Byte) : (s.toHost a bs).scrubNext = s.scrubNext := rfl
@[simp] theorem State.hotNext_toHost (s : State) (a : Nat) (bs : List Byte) : (s.toHost a bs).hotNext = s.hotNext := rfl
@[simp] theorem State.hot_toHost (s : State) (a : Nat) (bs : List Byte) : (s.toHost a bs).hot = s.hot := rfl
@[simp] theorem State.counters_toHost (s : State) (a : Nat) (bs : List Byte) : (s.toHost a bs).counters = s.counters := rfl
@[simp] theorem State.alerts_toHost (s : State) (a : Nat) (bs : List Byte) : (s.toHost a bs).alerts = s.alerts := rfl
@[simp] theorem State.delay_toHost (s : State) (a : Nat) (bs : List Byte) : (s.toHost a bs).delay = s.delay := rfl
@[simp] theorem State.writing_toHost (s : State) (a : Nat) (bs : List Byte) : (s.toHost a bs).writing = s.writing := rfl
@[simp] theorem State.hold_toHost (s : State) (a : Nat) (bs : List Byte) : (s.toHost a bs).hold = s.hold := rfl
@[simp] theorem State.nextId_toHost (s : State) (a : Nat) (bs : List Byte) : (s.toHost a bs).nextId = s.nextId := rfl
@[simp] theorem State.nextTid_toHost (s : State) (a : Nat) (bs : List Byte) : (s.toHost a bs).nextTid = s.nextTid := rfl
@[simp] theorem State.nextLid_toHost (s : State) (a : Nat) (bs : List Byte) : (s.toHost a bs).nextLid = s.nextLid := rfl
@[simp] theorem State.free_toHost (s : State) (a : Nat) (bs : List Byte) : (s.toHost a bs).free = s.free := rfl
@[simp] theorem State.halted_toHost (s : State) (a : Nat) (bs : List Byte) : (s.toHost a bs).halted = s.halted := rfl
@[simp] theorem State.mismatches_toHost (s : State) (a : Nat) (bs : List Byte) : (s.toHost a bs).mismatches = s.mismatches := rfl
@[simp] theorem State.refusals_toHost (s : State) (a : Nat) (bs : List Byte) : (s.toHost a bs).refusals = s.refusals := rfl
@[simp] theorem State.unpowered_toHost (s : State) (a : Nat) (bs : List Byte) : (s.toHost a bs).unpowered = s.unpowered := rfl
@[simp] theorem State.ctx_toHost (s : State) (a : Nat) (bs : List Byte) : (s.toHost a bs).ctx = s.ctx := rfl
@[simp] theorem State.turn_toHost (s : State) (a : Nat) (bs : List Byte) : (s.toHost a bs).turn = s.turn := rfl
@[simp] theorem State.plan_toHost (s : State) (a : Nat) (bs : List Byte) : (s.toHost a bs).plan = s.plan := rfl
@[simp] theorem State.pending_toHost (s : State) (a : Nat) (bs : List Byte) : (s.toHost a bs).pending = s.pending := rfl
@[simp] theorem State.queue_toHost (s : State) (a : Nat) (bs : List Byte) : (s.toHost a bs).queue = s.queue := rfl

/-! ### `State.goto` -/

@[simp] theorem State.clock_goto (s : State) (a : Word) : (s.goto a).clock = s.clock := rfl
@[simp] theorem State.mem_goto (s : State) (a : Word) : (s.goto a).mem = s.mem := rfl
@[simp] theorem State.empt_goto (s : State) (a : Word) : (s.goto a).empt = s.empt := rfl
@[simp] theorem State.soft_goto (s : State) (a : Word) : (s.goto a).soft = s.soft := rfl
@[simp] theorem State.bad_goto (s : State) (a : Word) : (s.goto a).bad = s.bad := rfl
@[simp] theorem State.patched_goto (s : State) (a : Word) : (s.goto a).patched = s.patched := rfl
@[simp] theorem State.hostMem_goto (s : State) (a : Word) : (s.goto a).hostMem = s.hostMem := rfl
@[simp] theorem State.threads_goto (s : State) (a : Word) : (s.goto a).threads = s.threads := rfl
@[simp] theorem State.cores_goto (s : State) (a : Word) : (s.goto a).cores = s.cores := rfl
@[simp] theorem State.squares_goto (s : State) (a : Word) : (s.goto a).squares = s.squares := rfl
@[simp] theorem State.launches_goto (s : State) (a : Word) : (s.goto a).launches = s.launches := rfl
@[simp] theorem State.sq_goto (s : State) (a : Word) : (s.goto a).sq = s.sq := rfl
@[simp] theorem State.net_goto (s : State) (a : Word) : (s.goto a).net = s.net := rfl
@[simp] theorem State.ways_goto (s : State) (a : Word) : (s.goto a).ways = s.ways := rfl
@[simp] theorem State.stamp_goto (s : State) (a : Word) : (s.goto a).stamp = s.stamp := rfl
@[simp] theorem State.hostHold_goto (s : State) (a : Word) : (s.goto a).hostHold = s.hostHold := rfl
@[simp] theorem State.waits_goto (s : State) (a : Word) : (s.goto a).waits = s.waits := rfl
@[simp] theorem State.roomAsk_goto (s : State) (a : Word) : (s.goto a).roomAsk = s.roomAsk := rfl
@[simp] theorem State.tumblers_goto (s : State) (a : Word) : (s.goto a).tumblers = s.tumblers := rfl
@[simp] theorem State.heaps_goto (s : State) (a : Word) : (s.goto a).heaps = s.heaps := rfl
@[simp] theorem State.hampers_goto (s : State) (a : Word) : (s.goto a).hampers = s.hampers := rfl
@[simp] theorem State.streets_goto (s : State) (a : Word) : (s.goto a).streets = s.streets := rfl
@[simp] theorem State.rootTable_goto (s : State) (a : Word) : (s.goto a).rootTable = s.rootTable := rfl
@[simp] theorem State.ringAddr_goto (s : State) (a : Word) : (s.goto a).ringAddr = s.ringAddr := rfl
@[simp] theorem State.smapAddr_goto (s : State) (a : Word) : (s.goto a).smapAddr = s.smapAddr := rfl
@[simp] theorem State.sensors_goto (s : State) (a : Word) : (s.goto a).sensors = s.sensors := rfl
@[simp] theorem State.scrubPeriod_goto (s : State) (a : Word) : (s.goto a).scrubPeriod = s.scrubPeriod := rfl
@[simp] theorem State.scrubBase_goto (s : State) (a : Word) : (s.goto a).scrubBase = s.scrubBase := rfl
@[simp] theorem State.scrubNext_goto (s : State) (a : Word) : (s.goto a).scrubNext = s.scrubNext := rfl
@[simp] theorem State.hotNext_goto (s : State) (a : Word) : (s.goto a).hotNext = s.hotNext := rfl
@[simp] theorem State.hot_goto (s : State) (a : Word) : (s.goto a).hot = s.hot := rfl
@[simp] theorem State.counters_goto (s : State) (a : Word) : (s.goto a).counters = s.counters := rfl
@[simp] theorem State.alerts_goto (s : State) (a : Word) : (s.goto a).alerts = s.alerts := rfl
@[simp] theorem State.delay_goto (s : State) (a : Word) : (s.goto a).delay = s.delay := rfl
@[simp] theorem State.writing_goto (s : State) (a : Word) : (s.goto a).writing = s.writing := rfl
@[simp] theorem State.hold_goto (s : State) (a : Word) : (s.goto a).hold = s.hold := rfl
@[simp] theorem State.nextId_goto (s : State) (a : Word) : (s.goto a).nextId = s.nextId := rfl
@[simp] theorem State.nextTid_goto (s : State) (a : Word) : (s.goto a).nextTid = s.nextTid := rfl
@[simp] theorem State.nextLid_goto (s : State) (a : Word) : (s.goto a).nextLid = s.nextLid := rfl
@[simp] theorem State.free_goto (s : State) (a : Word) : (s.goto a).free = s.free := rfl
@[simp] theorem State.halted_goto (s : State) (a : Word) : (s.goto a).halted = s.halted := rfl
@[simp] theorem State.mismatches_goto (s : State) (a : Word) : (s.goto a).mismatches = s.mismatches := rfl
@[simp] theorem State.refusals_goto (s : State) (a : Word) : (s.goto a).refusals = s.refusals := rfl
@[simp] theorem State.unpowered_goto (s : State) (a : Word) : (s.goto a).unpowered = s.unpowered := rfl
@[simp] theorem State.ctx_goto (s : State) (a : Word) : (s.goto a).ctx = { s.ctx with target := a, taken := true } := rfl
@[simp] theorem State.turn_goto (s : State) (a : Word) : (s.goto a).turn = s.turn := rfl
@[simp] theorem State.plan_goto (s : State) (a : Word) : (s.goto a).plan = s.plan := rfl
@[simp] theorem State.pending_goto (s : State) (a : Word) : (s.goto a).pending = s.pending := rfl
@[simp] theorem State.queue_goto (s : State) (a : Word) : (s.goto a).queue = s.queue := rfl

end Sys2Proof.Machine
end

