-- ==== Sys2Proof/Laws/Issue.lean ====
section
/-!
SUPPORT. The issue of a bundle of one instruction: the state in which its effect acts, what the operations on
registers, ports, flags and the network do there, and what `finish` leaves. A meaning's result follows from
`issue_alone`, the lemmas of its effect on `State.inWith`, and `finish_inWith` or `finish_sent`.
-/

namespace Sys2Proof.Machine

/-! ### The issuing thread -/

theorem State.me_of {s : State} (h : s.me?.isSome) : s.me? = some s.me := by
  unfold State.me; cases h' : s.me? <;> simp_all

/-- The thread as i's effect finds it: its bundle noted, its bank looked for. -/
def State.meIn (s : State) (i : Instr) : Thread :=
  { s.me with bank := s.bankSought i, bundle := some { pc := s.me.pc, instrs := [i], next := s.me.pc + 8 } }

/-- The record of the bundle of i alone, once its checks have passed. -/
def State.ctxIn (s : State) (i : Instr) : Ctx :=
  { s.ctx with
    phase := .checked, pc := s.me.pc, target := s.me.pc + 8, instrs := [i], pre := s.me.regs, flags := s.me.fexc,
    pushes := [], taken := false }

/-- The state during i's effect: the thread t, words ps to push, the target a, and whether i went there itself; all else as
in s. -/
def State.inWith (s : State) (i : Instr) (t : Thread) (ps : List (BitVec 3 × Word)) (a : Word) (k : Bool := false) : State :=
  { s with
    threads := tput s.threads s.ctx.tid t
    ctx := { s.ctxIn i with pushes := ps, target := a, taken := k } }

theorem State.me_put (s : State) (t : Thread) (th : Tbl Thread) (c : Ctx) (h : c.tid = s.ctx.tid) :
    ({ s with threads := tput th s.ctx.tid t, ctx := c } : State).me = t := by
  simp [State.me, State.me?, State.thread?, h]

@[simp] theorem State.me_inWith (s : State) (i : Instr) (t : Thread) (ps : List (BitVec 3 × Word)) (a : Word) {k : Bool} :
    (s.inWith i t ps a k).me = t := State.me_put s t _ _ rfl

/-! ### The issue -/

theorem State.opened_alone {s : State} {p : Part} {i : Instr} (h : s.me?.isSome) (hu : s.ctx.unit.isNone) :
    s.opened [(p, i)] = { s with
      threads := tput s.threads s.ctx.tid
        { s.me with bundle := some { pc := s.me.pc, instrs := [i], next := s.me.pc + 8 } }
      ctx := { s.ctxIn i with phase := s.ctx.phase } } := by
  have h' := State.me_of h
  simp only [State.me?, State.thread?] at h'
  have hu' : s.ctx.unit.isSome = false := by cases h : s.ctx.unit <;> simp_all
  simp [State.opened, State.modMe, State.modThread, tmod_some _ h', hu', State.ctxIn]

/-- A first stop that is none: none of the list stops. -/
theorem firstStop_cons {x : Option Stop} {r : List (Option Stop)} (h : firstStop (x :: r) = none) :
    x = none ∧ firstStop r = none := by
  cases x with
  | none => exact ⟨rfl, h⟩
  | some _ => simp [firstStop] at h

theorem State.opening_eq {s : State} {p : Part} {i : Instr} (h : s.me?.isSome) (hu : s.ctx.unit.isNone)
    (hc : (s.opening p i).issueChecks [(p, i)] = none) :
    s.opening p i = { s with
      threads := tput s.threads s.ctx.tid (s.meIn i), ctx := { s.ctxIn i with phase := s.ctx.phase } } := by
  have hk : ((s.opened [(p, i)]).issueChecks [(p, i)]).isNone = true := by
    unfold State.opening State.bindNow at hc
    cases hn : (s.opened [(p, i)]).issueChecks [(p, i)] with
    | none => rfl
    | some x => simp [hn] at hc
  unfold State.opening State.bindNow
  rw [hk]
  rw [State.opened_alone h hu]
  simp only [State.ctxIn, State.bankTag, State.myLaunch, State.me_put, State.meIn, State.bankSought, List.any_cons, List.any_nil, Bool.or_false, Bool.and_true, State.myCore, State.core]
  by_cases h1 : (usesBank i && s.me.bank.isNone && s.me.fmtp != 0) = true
  · rw [if_pos h1, if_pos h1]
    cases h2 : ((tget s.cores s.ctx.core).getD Core.clear).findBank fun _ b =>
      b.tag == some ((s.launchOf s.me).asid, s.me.fmtp) with
    | some k =>
      simp only [State.launchOf, State.launch?] at h2 ⊢
      simp only [h2, State.modMe, State.modThread, tmod_tput]
    | none =>
      simp only [State.launchOf, State.launch?] at h2 ⊢
      simp_all
  · rw [if_neg h1, if_neg h1]

theorem issues_bundle {s : State} {p : Part} {i : Instr} (h : s.issues p i) : s.atBundle = true := by
  simp only [State.issues, Bool.and_eq_true] at h
  exact h.1

theorem atBundle_parts {s : State} (h : s.atBundle = true) :
    s.me?.isSome ∧ s.ctx.phase = .fresh ∧ s.ctx.unit.isNone ∧ s.me.pending = false := by
  simpa [State.atBundle, and_assoc] using h

theorem issues_me {s : State} {p : Part} {i : Instr} (h : s.issues p i) : s.me? = some s.me :=
  State.me_of (atBundle_parts (issues_bundle h)).1

theorem issues_pending {s : State} {p : Part} {i : Instr} (h : s.issues p i) : s.me.pending = false :=
  (atBundle_parts (issues_bundle h)).2.2.2

theorem outst_of_pending {t : Thread} (h : t.pending = false) : t.outst = none := by
  simp only [Thread.pending, Bool.or_eq_false_iff] at h
  simpa using h.1.1

theorem issues_outst {s : State} {p : Part} {i : Instr} (h : s.issues p i) : s.me.outst = none :=
  outst_of_pending (issues_pending h)

theorem issues_admit {s : State} {p : Part} {i : Instr} (h : s.issues p i) : (s.opening p i).firstStopOf [(p, i)] = none := by
  simp only [State.issues, Bool.and_eq_true, beq_iff_eq] at h
  exact h.2

/-- A bundle of one instruction that issues: its effect, and what completes the bundle. -/
theorem issue_alone {s : State} {p : Part} {i : Instr} (h : s.issues p i) (eff : State → State) :
    issue p i eff s = .next (eff (s.inWith i (s.meIn i) [] (s.me.pc + 8))).finish := by
  obtain ⟨h1, h2, h3, -⟩ := atBundle_parts (issues_bundle h)
  have h5 := issues_admit h
  have h6 := State.opening_eq (p := p) (i := i) h1 h3 (firstStop_cons h5).1
  rw [issue, State.me_of h1]
  simp only [h2, State.issueAll]
  rw [show (s.opened [(p, i)]).bindNow [(p, i)] = s.opening p i from rfl, h5, h6]
  rfl

/-- One that does not issue: what its stop makes of it. -/
theorem issue_stopped {s : State} {p : Part} {i : Instr} {x : Stop} (h1 : s.me?.isSome) (h2 : s.ctx.phase = .fresh)
    (hx : (s.opening p i).firstStopOf [(p, i)] = some x) (eff : State → State) :
    issue p i eff s = .next ((s.opening p i).stopWith x) := by
  rw [issue, State.me_of h1]
  simp only [h2, State.issueAll]
  rw [show (s.opened [(p, i)]).bindNow [(p, i)] = s.opening p i from rfl, hx]

/-! ### Reading -/

theorem special_inWith (s : State) (i : Instr) (t : Thread) (ps : List (BitVec 3 × Word)) (a : Word) {k : Bool} (x : Special)
    (hl : t.launch = s.me.launch) (hv : t.level = s.me.level) : (s.inWith i t ps a k).special x = s.special x := by
  cases x <;> simp [State.special, State.myLaunch, State.launchOf, State.launch?, hl, hv] <;> rfl

theorem src_inWith (s : State) (i : Instr) (t : Thread) (ps : List (BitVec 3 × Word)) (a : Word) {k : Bool} (r : Reg)
    (hl : t.launch = s.me.launch) (hv : t.level = s.me.level) : (s.inWith i t ps a k).src r = s.value r := by
  cases r with
  | g n => rfl
  | q k => rfl
  | sp x => exact special_inWith s i t ps a x hl hv

@[simp] theorem src_open (s : State) (i : Instr) (ps : List (BitVec 3 × Word)) (a : Word) {k : Bool} (r : Reg) :
    (s.inWith i (s.meIn i) ps a k).src r = s.value r := src_inWith s i _ ps a r rfl rfl

@[simp] theorem srcV_inWith (s : State) (i : Instr) (t : Thread) (ps : List (BitVec 3 × Word)) (a : Word) {k : Bool} (n : BitVec 3) :
    (s.inWith i t ps a k).srcV n = s.me.regs.getV n := rfl

@[simp] theorem pred_inWith (s : State) (i : Instr) (t : Thread) (ps : List (BitVec 3 × Word)) (a : Word) {k : Bool} (p : BitVec 3) :
    (s.inWith i t ps a k).pred p = s.me.regs.getP p := rfl

@[simp] theorem myLaunch_inWith (s : State) (i : Instr) (ps : List (BitVec 3 × Word)) (a : Word) {k : Bool} :
    (s.inWith i (s.meIn i) ps a k).myLaunch = s.myLaunch := by
  rw [State.myLaunch, State.me_inWith]
  rfl

/-! ### Writing -/

@[simp] theorem modMe_inWith (s : State) (i : Instr) (t : Thread) (ps : List (BitVec 3 × Word)) (a : Word) {k : Bool}
    (f : Thread → Thread) : (s.inWith i t ps a k).modMe f = s.inWith i (f t) ps a k := by
  simp [State.modMe, State.modThread, State.inWith, State.ctxIn]

@[simp] theorem setDst_inWith (s : State) (i : Instr) (t : Thread) (ps : List (BitVec 3 × Word)) (a : Word) {k : Bool} (d : Reg)
    (v : Word) : (s.inWith i t ps a k).setDst d v = s.inWith i { t with regs := t.regs.write d v } (ps ++ pushed d v) a k := by
  cases d with
  | g n => simp [State.setDst, State.setReg, Regs.write, pushed]
  | q k => rfl
  | sp x => simp [State.setDst, Regs.write, pushed]

@[simp] theorem setPred_inWith (s : State) (i : Instr) (t : Thread) (ps : List (BitVec 3 × Word)) (a : Word) {k : Bool}
    (p : BitVec 3) (b : Bool) :
    (s.inWith i t ps a k).setPred p b = s.inWith i { t with regs := t.regs.setP p b } ps a k := by
  simp [State.setPred]

@[simp] theorem goto_inWith (s : State) (i : Instr) (t : Thread) (ps : List (BitVec 3 × Word)) (a b : Word)
    {k : Bool} : (s.inWith i t ps a k).goto b = s.inWith i t ps b true := rfl

theorem raiseFlags_inWith (s : State) (i : Instr) (t : Thread) (ps : List (BitVec 3 × Word)) (a : Word) {k : Bool} (fl : FlagBits)
    (h : t.pc = s.me.pc) : (s.inWith i t ps a k).raiseFlags fl = s.inWith i (t.flagged fl s.clock) ps a k := by
  by_cases h0 : fl = 0
  · subst h0
    simp [State.raiseFlags, Thread.flagged]
  · rw [State.raiseFlags, if_neg h0, modMe_inWith]
    congr 1
    simp only [raiseIn, Thread.flagged, h]
    split <;> simp [State.inWith, State.ctxIn]

@[simp] theorem inject_inWith (s : State) (i : Instr) (t : Thread) (ps : List (BitVec 3 × Word)) (a : Word) {k : Bool} (b : Body) :
    (s.inWith i t ps a k).inject b = (s.inject b).inWith i t ps a k := rfl

/-! ### Completing -/

theorem popPort_with (s : State) (th : Tbl Thread) (c : Ctx) (k : Nat) (q : BitVec 3) :
    ({ s with threads := th, ctx := c } : State).popPort k q = { s.popPort k q with threads := th, ctx := c } := rfl

theorem pushPort_with (s : State) (th : Tbl Thread) (c : Ctx) (k : Nat) (q : BitVec 3) (w : Word) :
    ({ s with threads := th, ctx := c } : State).pushPort k q w = { s.pushPort k q w with threads := th, ctx := c } := by
  simp only [State.pushPort]
  split <;> rfl

/-- Popping and pushing ports concerns neither threads nor the record of the bundle. -/
theorem ports_with (s : State) (th : Tbl Thread) (c : Ctx) (hc : c.core = s.ctx.core)
    (l ps : List (BitVec 3 × Word)) :
    ps.foldl (fun (s : State) p => s.pushPort s.ctx.core p.1 p.2)
        (l.foldl (fun (s : State) p => s.popPort s.ctx.core p.1) { s with threads := th, ctx := c })
      = { ps.foldl (fun (s : State) p => s.pushPort s.ctx.core p.1 p.2)
            (l.foldl (fun (s : State) p => s.popPort s.ctx.core p.1) s) with threads := th, ctx := c } := by
  induction l generalizing s with
  | cons x l ih =>
    simp only [List.foldl_cons, popPort_with, hc]
    exact ih (s.popPort s.ctx.core x.1) hc
  | nil =>
    simp only [List.foldl_nil]
    induction ps generalizing s with
    | nil => rfl
    | cons x ps ih =>
      simp only [List.foldl_cons, pushPort_with, hc]
      refine ih (s.pushPort s.ctx.core x.1 x.2) (hc.trans ?_)
      unfold State.pushPort
      split <;> rfl

theorem finish_with (s : State) (i : Instr) (t : Thread) (ps : List (BitVec 3 × Word)) (a : Word) {k : Bool} :
    (s.inWith i t ps a k).finish
      = s.afterAlone i (if t.pending then [] else ps)
          (if t.pending then
            { t with
              badRegs := t.badRegs.filter fun d => !(regDsts i).contains d, pc := a, lastPc := s.me.pc,
              undo := some { regs := s.me.regs, flags := t.fexc &&& ~~~s.me.fexc, pops := s.pops i, pushes := ps,
                             order := s.clock } }
          else
            { t with
              badRegs := t.badRegs.filter fun d => !(regDsts i).contains d, pc := a, lastPc := s.me.pc, retries := 0 })
          { s.ctxIn i with pushes := ps, target := a, taken := k } := by
  have h (qs : List (BitVec 3 × Word)) := ports_with s (tput s.threads s.ctx.tid t)
    { s.ctxIn i with pushes := ps, target := a, taken := k } rfl (s.pops i) qs
  have hp : (s.inWith i t ps a k).popped = s.pops i := rfl
  have hm : (s.inWith i t ps a k).me = t := State.me_inWith ..
  simp only [State.finish, hp, hm]
  cases ht : t.pending
  all_goals
    simp only [Bool.false_eq_true, if_false, if_true]
    change State.modMe _ _ = _
  · change State.modMe (List.foldl _ (List.foldl _ ({ s with
      threads := tput s.threads s.ctx.tid t, ctx := { s.ctxIn i with pushes := ps, target := a, taken := k } } : State) _) _) _ = _
    rw [show (s.inWith i t ps a k).ctx.pushes = ps from rfl, h]
    simp only [State.modMe, State.modThread]
    rw [show (s.ctxIn i).tid = s.ctx.tid from rfl, tmod_tput]
    simp only [State.afterAlone, State.ported, State.inWith, State.ctxIn, List.flatMap_cons, List.flatMap_nil,
      List.append_nil, Thread.pending] at ht ⊢
    rw [if_neg (by simpa using ht)]
  · have h0 := h []
    simp only [List.foldl_nil] at h0
    change State.modMe (List.foldl _ ({ s with
      threads := tput s.threads s.ctx.tid t, ctx := { s.ctxIn i with pushes := ps, target := a, taken := k } } : State) _) _ = _
    rw [h0]
    simp only [State.modMe, State.modThread]
    rw [show (s.ctxIn i).tid = s.ctx.tid from rfl, tmod_tput]
    simp only [State.afterAlone, State.ported, State.inWith, State.ctxIn, List.flatMap_cons, List.flatMap_nil,
      List.append_nil, List.foldl_nil, Thread.pending] at ht ⊢
    rw [if_pos (by simpa using ht)]

theorem finish_inWith (s : State) (i : Instr) (t : Thread) (ps : List (BitVec 3 × Word)) (a : Word) {k : Bool}
    (ho : t.pending = false) (hp : t.pc = s.me.pc)
    (hb : t.bundle = some { pc := s.me.pc, instrs := [i], next := s.me.pc + 8 }) :
    (s.inWith i t ps a k).finish = s.afterAlone i ps (t.stepped i a) { s.ctxIn i with pushes := ps, target := a, taken := k } := by
  rw [finish_with]
  simp only [ho, Bool.false_eq_true, if_false, Thread.stepped, hp]
  rw [← hb]

/-! ### The plain results -/

theorem finish_wroteTo {s : State} {p : Part} {i : Instr} (h : s.issues p i) (d : Reg) (v a : Word) (fl : FlagBits) :
    ∃ c, ((((s.inWith i (s.meIn i) [] (s.me.pc + 8)).setDst d v).raiseFlags fl).goto a).finish
      = s.wroteTo i d v fl a c := by
  rw [setDst_inWith, raiseFlags_inWith, goto_inWith, finish_inWith]
  · exact ⟨_, rfl⟩
  · exact issues_pending h
  · rfl
  · rfl
  · rfl

theorem finish_wrote {s : State} {p : Part} {i : Instr} (h : s.issues p i) (d : Reg) (v : Word) (fl : FlagBits) :
    ∃ c, (((s.inWith i (s.meIn i) [] (s.me.pc + 8)).setDst d v).raiseFlags fl).finish = s.wrote i d v fl c := by
  rw [setDst_inWith, raiseFlags_inWith, finish_inWith]
  · exact ⟨_, rfl⟩
  · exact issues_pending h
  · rfl
  · rfl
  · rfl

theorem finish_setDst {s : State} {p : Part} {i : Instr} (h : s.issues p i) (d : Reg) (v : Word) :
    ∃ c, ((s.inWith i (s.meIn i) [] (s.me.pc + 8)).setDst d v).finish = s.wrote i d v 0 c := finish_wrote h d v 0

theorem finish_judged {s : State} {p : Part} {i : Instr} (h : s.issues p i) (n : BitVec 3) (b : Bool) :
    ∃ c, ((s.inWith i (s.meIn i) [] (s.me.pc + 8)).setPred n b).finish = s.judged i n b c := by
  rw [setPred_inWith, finish_inWith]
  · exact ⟨_, rfl⟩
  · exact issues_pending h
  · rfl
  · rfl

theorem finish_went {s : State} {p : Part} {i : Instr} (h : s.issues p i) (a : Word) :
    ∃ c, (s.inWith i (s.meIn i) [] a).finish = s.wentTo i a c := by
  rw [finish_inWith]
  · exact ⟨_, rfl⟩
  · exact issues_pending h
  · rfl
  · rfl

end Sys2Proof.Machine
end

