-- ==== Sys2Proof/Laws/PerInstr.lean ====
section
/-!
SUPPORT. For every instruction: the decoder reads from its code the instruction it stands for.
-/

set_option Elab.async false

namespace Sys2Proof.Laws.EncodeDecode

open Sys2Proof Sys2Proof.Laws.Encode

/-- The decoder gives back a well-formed instruction from its code; an event or a command has none. -/
def Statement (i : Instr) : Prop := ∀ c, wellFormed i = true → encode i = some c → decodeCode c = .ok i

theorem of_none {i : Instr} (h : encode i = none) : Statement i := fun _ _ e => by simp [h] at e
theorem of_code {i : Instr} {c : Code} (h : encode i = some c) (d : wellFormed i = true → decodeCode c = .ok i) :
    Statement i := by
  intro c' w e
  rw [h] at e
  cases e
  exact d w

theorem nop : Statement (.nop) := of_code (i := .nop) rfl fun _ => rfl

theorem br (s : Bool) (p : BitVec 3) (o : BitVec 21) : Statement (.br s p o) := of_code rfl fun w => by
  simp only [decodeCode, decodeC, fmtBrc_25_6, BitVec.reduceEq, reduceIte]
  simp only [fmtBrc_0_21, fmtBrc_21_3, fmtBrc_24_1]
  cases s <;> rfl

theorem bra (o : BitVec 25) : Statement (.bra o) := of_code rfl fun _ => by
  simp only [decodeCode, decodeC, fmtFar_25_6, BitVec.reduceEq, reduceIte, fmtFar_0_25]

theorem callLabel (d : Reg) (o : BitVec 19) : Statement (.callLabel d o) := of_code rfl fun w => by
  simp only [decodeCode, decodeC, fmtLink_25_6, BitVec.reduceEq, reduceIte]
  simp only [fmtLink_0_19, fmtLink_19_6, regField_code]
  rfl

theorem jmp (a : Reg) : Statement (.jmp a) := of_code rfl fun w => by
  simp only [decodeCode, decodeC, fmtReg_25_6, BitVec.reduceEq, reduceIte]
  simp only [decodeJump, fmtReg_0_7, fmtReg_7_6, fmtReg_13_6, fmtReg_19_6, regField_code]
  rfl

theorem callReg (d : Reg) (a : Reg) : Statement (.callReg d a) := of_code rfl fun w => by
  simp only [decodeCode, decodeC, fmtReg_25_6, BitVec.reduceEq, reduceIte]
  simp only [decodeJump, fmtReg_0_7, fmtReg_7_6, fmtReg_13_6, fmtReg_19_6, regField_code]
  rfl

theorem ret (a : Reg) : Statement (.ret a) := of_code rfl fun w => by
  simp only [decodeCode, decodeC, fmtReg_25_6, BitVec.reduceEq, reduceIte]
  simp only [decodeJump, fmtReg_0_7, fmtReg_7_6, fmtReg_13_6, fmtReg_19_6, regField_code]
  rfl

theorem brt (a : Reg) (b : Reg) : Statement (.brt a b) := of_code rfl fun w => by
  simp only [decodeCode, decodeC, fmtReg_25_6, BitVec.reduceEq, reduceIte]
  simp only [decodeJump, fmtReg_0_7, fmtReg_7_6, fmtReg_13_6, fmtReg_19_6, regField_code]
  rfl

theorem brq (s : Bool) (q : BitVec 3) (o : BitVec 21) : Statement (.brq s q o) := of_code rfl fun w => by
  simp only [decodeCode, decodeC, fmtBrc_25_6, BitVec.reduceEq, reduceIte]
  simp only [fmtBrc_0_21, fmtBrc_21_3, fmtBrc_24_1]
  cases s <;> rfl

theorem ld (wd : Width) (t : MemReg) (b : Reg) (f : LdForm) (o : BitVec 11) :
    Statement (.ld wd t b f o) := of_code rfl fun w => by
  have hm := memReg_code (wd := wd) (t := t) w
  simp only [decodeCode, ld_word, decodeMem]
  simp only [fmtMem_0_11, fmtMem_11_2, fmtMem_13_6, fmtMem_19_6, fmtMem_25_3, regField_code, pre_lo, Width_ofCode,
    orBad, bind, Except.bind, hm]
  cases wd <;> cases f <;> rfl

theorem ldIdx (wd : Width) (t : MemReg) (b : Reg) (x : Reg) (f : LdForm) (k : Scale) :
    Statement (.ldIdx wd t b x f k) := of_code rfl fun w => by
  have hm := memReg_code (wd := wd) (t := t) w
  simp only [decodeCode, ldIdx_word, decodeIdx]
  simp only [fmtIdx_0_2, fmtIdx_2_3, fmtIdx_5_2, fmtIdx_7_6, fmtIdx_13_6, fmtIdx_19_6, fmtIdx_25_3, regField_code,
    pre_lo, Width_ofCode, orBad, bind, Except.bind, hm]
  cases wd <;> cases f <;> cases k <;> rfl

theorem st (wd : Width) (t : MemReg) (b : Reg) (f : StForm) (o : BitVec 11) :
    Statement (.st wd t b f o) := of_code rfl fun w => by
  have hm := memReg_code (wd := wd) (t := t) w
  simp only [decodeCode, st_word, decodeMem]
  simp only [fmtMem_0_11, fmtMem_11_2, fmtMem_13_6, fmtMem_19_6, fmtMem_25_3, regField_code, pre_lo, Width_ofCode,
    orBad, bind, Except.bind, hm]
  cases wd <;> cases f <;> rfl

theorem stIdx (wd : Width) (t : MemReg) (b : Reg) (x : Reg) (f : StForm) (k : Scale) :
    Statement (.stIdx wd t b x f k) := of_code rfl fun w => by
  have hm := memReg_code (wd := wd) (t := t) w
  simp only [decodeCode, stIdx_word, decodeIdx]
  simp only [fmtIdx_0_2, fmtIdx_2_3, fmtIdx_5_2, fmtIdx_7_6, fmtIdx_13_6, fmtIdx_19_6, fmtIdx_25_3, regField_code,
    pre_lo, Width_ofCode, orBad, bind, Except.bind, hm]
  cases wd <;> cases f <;> cases k <;> rfl

theorem feClr (b : Reg) (o : BitVec 11) : Statement (.feClr b o) := of_code rfl fun w => by
  simp only [decodeCode, decodeC, fmtMem_25_6, BitVec.reduceEq, reduceIte]
  simp only [fmtMem_0_11, fmtMem_11_2, fmtMem_13_6, fmtMem_19_6, regField_code]
  rfl

theorem amo (d : Reg) (a : Reg) (b : Reg) (op : AmoOp) (c : Scope) (f : BitVec 2) :
    Statement (.amo d a b op c f) := of_code rfl fun w => by
  simp only [decodeCode, decodeC, fmtReg_25_6, BitVec.reduceEq, reduceIte]
  simp only [decodeAmo, fmtReg_7_6, fmtReg_13_6, fmtReg_19_6, fmtReg_4_3, fmtReg_2_2, fmtReg_0_2, regField_code,
    amo_hi, amo_mid, amo_lo]
  cases op <;> cases c <;> rfl

theorem red (a : Reg) (b : Reg) (op : AmoOp) (c : Scope) (f : BitVec 2) :
    Statement (.red a b op c f) := of_code rfl fun w => by
  simp only [decodeCode, decodeC, fmtReg_25_6, BitVec.reduceEq, reduceIte]
  simp only [decodeAmo, fmtReg_7_6, fmtReg_13_6, fmtReg_19_6, fmtReg_4_3, fmtReg_2_2, fmtReg_0_2, regField_code,
    amo_hi, amo_mid, amo_lo]
  revert w; cases op <;> cases c <;> intro w <;> first | rfl | exact nomatch (show false = true from w)

theorem fenceFar (a : Reg) : Statement (.fenceFar a) := of_code rfl fun w => by
  simp only [decodeCode, decodeC, fmtReg_25_6, BitVec.reduceEq, reduceIte]
  simp only [decodeFence, fmtReg_0_7, fmtReg_7_6, fmtReg_13_6, fmtReg_19_6, regField_code]
  rfl

theorem bar (n : BitVec 3) : Statement (.bar n) := of_code rfl fun w => by
  simp only [decodeCode, decodeC, fmtReg_25_6, BitVec.reduceEq, reduceIte]
  simp only [fmtReg_3_4, fmtReg_0_3, fmtReg_7_18, bar_hi, bar_lo]
  rfl

theorem rget (d : Reg) (a : Reg) (f : LdForm) : Statement (.rget d a f) := of_code rfl fun w => by
  simp only [decodeCode, decodeC, fmtReg_25_6, BitVec.reduceEq, reduceIte]
  simp only [decodeRemote, fmtReg_7_6, fmtReg_13_6, fmtReg_19_6, fmtReg_4_3, fmtReg_2_2, fmtReg_0_2, regField_code]
  cases f <;> rfl

theorem rput (a : Reg) (b : Reg) (f : StForm) : Statement (.rput a b f) := of_code rfl fun w => by
  simp only [decodeCode, decodeC, fmtReg_25_6, BitVec.reduceEq, reduceIte]
  simp only [decodeRemote, fmtReg_7_6, fmtReg_13_6, fmtReg_19_6, fmtReg_4_3, fmtReg_2_2, fmtReg_0_2, regField_code]
  cases f <;> rfl

theorem mig (a : Reg) : Statement (.mig a) := of_code rfl fun w => by
  simp only [decodeCode, decodeC, fmtReg_25_6, BitVec.reduceEq, reduceIte]
  simp only [decodeRemote, fmtReg_7_6, fmtReg_13_6, fmtReg_19_6, fmtReg_4_3, fmtReg_2_2, fmtReg_0_2, regField_code]
  rfl

theorem add (d : Reg) (a : Reg) (b : Reg) (sat : Bool) (uns : Bool) (w32 : Bool) :
    Statement (.add d a b sat uns w32) := of_code rfl fun w => by
  simp only [decodeCode, decodeA, fmtReg_25_6, fmtReg_31_1, BitVec.reduceEq, reduceIte, codeAlu]
  simp only [decodeAlu, fmtReg_7_6, fmtReg_13_6, fmtReg_19_6, fmtReg_0_2, fmtReg_3_4, fmtReg_2_1, fmtReg_1_1,
    fmtReg_0_1, regField_code]
  cases sat <;> cases uns <;> cases w32 <;> rfl

theorem sub (d : Reg) (a : Reg) (b : Reg) (sat : Bool) (uns : Bool) (w32 : Bool) :
    Statement (.sub d a b sat uns w32) := of_code rfl fun w => by
  simp only [decodeCode, decodeA, fmtReg_25_6, fmtReg_31_1, BitVec.reduceEq, reduceIte, codeAlu]
  simp only [decodeAlu, fmtReg_7_6, fmtReg_13_6, fmtReg_19_6, fmtReg_0_2, fmtReg_3_4, fmtReg_2_1, fmtReg_1_1,
    fmtReg_0_1, regField_code]
  cases sat <;> cases uns <;> cases w32 <;> rfl

theorem andR (d : Reg) (a : Reg) (b : Reg) : Statement (.andR d a b) := of_code rfl fun w => by
  simp only [decodeCode, decodeA, fmtReg_25_6, fmtReg_31_1, BitVec.reduceEq, reduceIte, codeAlu]
  simp only [decodeAlu, fmtReg_7_6, fmtReg_13_6, fmtReg_19_6, fmtReg_0_2, fmtReg_3_4, fmtReg_2_1, fmtReg_1_1,
    fmtReg_0_1, regField_code]
  rfl

theorem orR (d : Reg) (a : Reg) (b : Reg) : Statement (.orR d a b) := of_code rfl fun w => by
  simp only [decodeCode, decodeA, fmtReg_25_6, fmtReg_31_1, BitVec.reduceEq, reduceIte, codeAlu]
  simp only [decodeAlu, fmtReg_7_6, fmtReg_13_6, fmtReg_19_6, fmtReg_0_2, fmtReg_3_4, fmtReg_2_1, fmtReg_1_1,
    fmtReg_0_1, regField_code]
  rfl

theorem xorR (d : Reg) (a : Reg) (b : Reg) : Statement (.xorR d a b) := of_code rfl fun w => by
  simp only [decodeCode, decodeA, fmtReg_25_6, fmtReg_31_1, BitVec.reduceEq, reduceIte, codeAlu]
  simp only [decodeAlu, fmtReg_7_6, fmtReg_13_6, fmtReg_19_6, fmtReg_0_2, fmtReg_3_4, fmtReg_2_1, fmtReg_1_1,
    fmtReg_0_1, regField_code]
  rfl

theorem andn (d : Reg) (a : Reg) (b : Reg) : Statement (.andn d a b) := of_code rfl fun w => by
  simp only [decodeCode, decodeA, fmtReg_25_6, fmtReg_31_1, BitVec.reduceEq, reduceIte, codeAlu]
  simp only [decodeAlu, fmtReg_7_6, fmtReg_13_6, fmtReg_19_6, fmtReg_0_2, fmtReg_3_4, fmtReg_2_1, fmtReg_1_1,
    fmtReg_0_1, regField_code]
  rfl

theorem shl (d : Reg) (a : Reg) (b : Reg) : Statement (.shl d a b) := of_code rfl fun w => by
  simp only [decodeCode, decodeA, fmtReg_25_6, fmtReg_31_1, BitVec.reduceEq, reduceIte, codeAlu]
  simp only [decodeAlu, fmtReg_7_6, fmtReg_13_6, fmtReg_19_6, fmtReg_0_2, fmtReg_3_4, fmtReg_2_1, fmtReg_1_1,
    fmtReg_0_1, regField_code]
  rfl

theorem shr (d : Reg) (a : Reg) (b : Reg) : Statement (.shr d a b) := of_code rfl fun w => by
  simp only [decodeCode, decodeA, fmtReg_25_6, fmtReg_31_1, BitVec.reduceEq, reduceIte, codeAlu]
  simp only [decodeAlu, fmtReg_7_6, fmtReg_13_6, fmtReg_19_6, fmtReg_0_2, fmtReg_3_4, fmtReg_2_1, fmtReg_1_1,
    fmtReg_0_1, regField_code]
  rfl

theorem sar (d : Reg) (a : Reg) (b : Reg) : Statement (.sar d a b) := of_code rfl fun w => by
  simp only [decodeCode, decodeA, fmtReg_25_6, fmtReg_31_1, BitVec.reduceEq, reduceIte, codeAlu]
  simp only [decodeAlu, fmtReg_7_6, fmtReg_13_6, fmtReg_19_6, fmtReg_0_2, fmtReg_3_4, fmtReg_2_1, fmtReg_1_1,
    fmtReg_0_1, regField_code]
  rfl

theorem minR (d : Reg) (a : Reg) (b : Reg) (uns : Bool) (w32 : Bool) :
    Statement (.minR d a b uns w32) := of_code rfl fun w => by
  simp only [decodeCode, decodeA, fmtReg_25_6, fmtReg_31_1, BitVec.reduceEq, reduceIte, codeAlu]
  simp only [decodeAlu, fmtReg_7_6, fmtReg_13_6, fmtReg_19_6, fmtReg_0_2, fmtReg_3_4, fmtReg_2_1, fmtReg_1_1,
    fmtReg_0_1, regField_code]
  cases uns <;> cases w32 <;> rfl

theorem maxR (d : Reg) (a : Reg) (b : Reg) (uns : Bool) (w32 : Bool) :
    Statement (.maxR d a b uns w32) := of_code rfl fun w => by
  simp only [decodeCode, decodeA, fmtReg_25_6, fmtReg_31_1, BitVec.reduceEq, reduceIte, codeAlu]
  simp only [decodeAlu, fmtReg_7_6, fmtReg_13_6, fmtReg_19_6, fmtReg_0_2, fmtReg_3_4, fmtReg_2_1, fmtReg_1_1,
    fmtReg_0_1, regField_code]
  cases uns <;> cases w32 <;> rfl

theorem mul (d : Reg) (a : Reg) (b : Reg) (sat : Bool) (uns : Bool) (w32 : Bool) :
    Statement (.mul d a b sat uns w32) := of_code rfl fun w => by
  simp only [decodeCode, decodeA, fmtReg_25_6, fmtReg_31_1, BitVec.reduceEq, reduceIte, codeAlu]
  simp only [decodeMul, fmtReg_7_6, fmtReg_13_6, fmtReg_19_6, fmtReg_3_4, fmtReg_2_1, fmtReg_1_1, fmtReg_0_1,
    regField_code]
  cases sat <;> cases uns <;> cases w32 <;> rfl

theorem mulh (d : Reg) (a : Reg) (b : Reg) (uns : Bool) (w32 : Bool) :
    Statement (.mulh d a b uns w32) := of_code rfl fun w => by
  simp only [decodeCode, decodeA, fmtReg_25_6, fmtReg_31_1, BitVec.reduceEq, reduceIte, codeAlu]
  simp only [decodeMul, fmtReg_7_6, fmtReg_13_6, fmtReg_19_6, fmtReg_3_4, fmtReg_2_1, fmtReg_1_1, fmtReg_0_1,
    regField_code]
  cases uns <;> cases w32 <;> rfl

theorem div (d : Reg) (a : Reg) (b : Reg) (uns : Bool) (w32 : Bool) :
    Statement (.div d a b uns w32) := of_code rfl fun w => by
  simp only [decodeCode, decodeA, fmtReg_25_6, fmtReg_31_1, BitVec.reduceEq, reduceIte, codeAlu]
  simp only [decodeMul, fmtReg_7_6, fmtReg_13_6, fmtReg_19_6, fmtReg_3_4, fmtReg_2_1, fmtReg_1_1, fmtReg_0_1,
    regField_code]
  cases uns <;> cases w32 <;> rfl

theorem rem (d : Reg) (a : Reg) (b : Reg) (uns : Bool) (w32 : Bool) :
    Statement (.rem d a b uns w32) := of_code rfl fun w => by
  simp only [decodeCode, decodeA, fmtReg_25_6, fmtReg_31_1, BitVec.reduceEq, reduceIte, codeAlu]
  simp only [decodeMul, fmtReg_7_6, fmtReg_13_6, fmtReg_19_6, fmtReg_3_4, fmtReg_2_1, fmtReg_1_1, fmtReg_0_1,
    regField_code]
  cases uns <;> cases w32 <;> rfl

theorem cmp (p : BitVec 3) (a : Reg) (b : Reg) (cc : Cond) (ty : CmpTy) :
    Statement (.cmp p a b cc ty) := of_code rfl fun w => by
  simp only [decodeCode, decodeA, fmtReg_25_6, fmtReg_31_1, BitVec.reduceEq, reduceIte]
  simp only [fmtReg_7_6, fmtReg_13_6, fmtReg_19_6, fmtReg_4_3, fmtReg_2_2, fmtReg_0_2, regField_code, lowField_code]
  cases cc <;> cases ty <;> rfl

theorem cmpImm (p : BitVec 3) (a : Reg) (i : BitVec 13) (cc : Cond) (ty : CmpTy) :
    Statement (.cmpImm p a i cc ty) := of_code rfl fun w => by
  simp only [decodeCode, decodeA, fmtCmp_25_6, fmtCmp_31_1, BitVec.reduceEq, reduceIte]
  simp only [fmtCmp_0_13, fmtCmp_13_6, fmtCmp_19_3, fmtCmp_22_3, fmtCmp_25_2, regField_code]
  cases cc <;> cases ty <;> rfl

theorem sel (d : Reg) (a : Reg) (b : Reg) (s : Bool) (p : BitVec 3) :
    Statement (.sel d a b s p) := of_code rfl fun w => by
  simp only [decodeCode, decodeA, fmtReg_25_6, fmtReg_31_1, BitVec.reduceEq, reduceIte]
  simp only [fmtReg_7_6, fmtReg_13_6, fmtReg_19_6, fmtReg_4_3, fmtReg_3_1, fmtReg_0_3, regField_code, sel_hi, sel_mid,
    sel_lo]
  cases s <;> rfl

theorem extN64 (d : Reg) (a : Reg) (b : Reg) : Statement (.extN64 d a b) := of_code rfl fun w => by
  simp only [decodeCode, decodeA, fmtReg_25_6, fmtReg_31_1, BitVec.reduceEq, reduceIte, codeBits]
  simp only [decodeBits, fmtReg_7_6, fmtReg_13_6, fmtReg_19_6, fmtReg_4_3, fmtReg_0_4, regField_code]
  rfl

theorem extI64 (d : Reg) (a : Reg) (b : Reg) : Statement (.extI64 d a b) := of_code rfl fun w => by
  simp only [decodeCode, decodeA, fmtReg_25_6, fmtReg_31_1, BitVec.reduceEq, reduceIte, codeBits]
  simp only [decodeBits, fmtReg_7_6, fmtReg_13_6, fmtReg_19_6, fmtReg_4_3, fmtReg_0_4, regField_code]
  rfl

theorem ins (d : Reg) (a : Reg) (b : Reg) : Statement (.ins d a b) := of_code rfl fun w => by
  simp only [decodeCode, decodeA, fmtReg_25_6, fmtReg_31_1, BitVec.reduceEq, reduceIte, codeBits]
  simp only [decodeBits, fmtReg_7_6, fmtReg_13_6, fmtReg_19_6, fmtReg_4_3, fmtReg_0_4, regField_code]
  rfl

theorem clz (d : Reg) (a : Reg) : Statement (.clz d a) := of_code rfl fun w => by
  simp only [decodeCode, decodeA, fmtReg_25_6, fmtReg_31_1, BitVec.reduceEq, reduceIte, codeBits]
  simp only [decodeBits, fmtReg_7_6, fmtReg_13_6, fmtReg_19_6, fmtReg_4_3, fmtReg_0_4, regField_code]
  rfl

theorem ctz (d : Reg) (a : Reg) : Statement (.ctz d a) := of_code rfl fun w => by
  simp only [decodeCode, decodeA, fmtReg_25_6, fmtReg_31_1, BitVec.reduceEq, reduceIte, codeBits]
  simp only [decodeBits, fmtReg_7_6, fmtReg_13_6, fmtReg_19_6, fmtReg_4_3, fmtReg_0_4, regField_code]
  rfl

theorem popc (d : Reg) (a : Reg) : Statement (.popc d a) := of_code rfl fun w => by
  simp only [decodeCode, decodeA, fmtReg_25_6, fmtReg_31_1, BitVec.reduceEq, reduceIte, codeBits]
  simp only [decodeBits, fmtReg_7_6, fmtReg_13_6, fmtReg_19_6, fmtReg_4_3, fmtReg_0_4, regField_code]
  rfl

theorem addImm (d : Reg) (a : Reg) (i : BitVec 13) : Statement (.addImm d a i) := of_code rfl fun w => by
  simp only [decodeCode, decodeA, fmtImm_25_6, fmtImm_31_1, BitVec.reduceEq, reduceIte, codeImm]
  simp only [decodeImm, fmtImm_0_13, fmtImm_13_6, fmtImm_19_6, fmtImm_25_3, regField_code, bind, Except.bind, (by
    simpa [wellFormed] using w : isMovForm a i = false)]
  rfl

theorem mov (d : Reg) (a : Reg) (i : BitVec 13) : Statement (.mov d a i) := of_code rfl fun w => by
  simp only [decodeCode, decodeA, fmtImm_25_6, fmtImm_31_1, BitVec.reduceEq, reduceIte, codeImm]
  simp only [decodeImm, fmtImm_0_13, fmtImm_13_6, fmtImm_19_6, fmtImm_25_3, regField_code, bind, Except.bind]
  have h : isMovForm a i = true := w
  simp only [h]
  rfl

theorem andImm (d : Reg) (a : Reg) (i : BitVec 13) : Statement (.andImm d a i) := of_code rfl fun w => by
  simp only [decodeCode, decodeA, fmtImm_25_6, fmtImm_31_1, BitVec.reduceEq, reduceIte, codeImm]
  simp only [decodeImm, fmtImm_0_13, fmtImm_13_6, fmtImm_19_6, fmtImm_25_3, regField_code]
  rfl

theorem orImm (d : Reg) (a : Reg) (i : BitVec 13) : Statement (.orImm d a i) := of_code rfl fun w => by
  simp only [decodeCode, decodeA, fmtImm_25_6, fmtImm_31_1, BitVec.reduceEq, reduceIte, codeImm]
  simp only [decodeImm, fmtImm_0_13, fmtImm_13_6, fmtImm_19_6, fmtImm_25_3, regField_code]
  rfl

theorem xorImm (d : Reg) (a : Reg) (i : BitVec 13) : Statement (.xorImm d a i) := of_code rfl fun w => by
  simp only [decodeCode, decodeA, fmtImm_25_6, fmtImm_31_1, BitVec.reduceEq, reduceIte, codeImm]
  simp only [decodeImm, fmtImm_0_13, fmtImm_13_6, fmtImm_19_6, fmtImm_25_3, regField_code]
  rfl

theorem shlImm (d : Reg) (a : Reg) (k : BitVec 6) : Statement (.shlImm d a k) := of_code rfl fun w => by
  simp only [decodeCode, decodeA, fmtImm_25_6, fmtImm_31_1, BitVec.reduceEq, reduceIte, codeImm]
  simp only [decodeImm, fmtImm_0_13, fmtImm_13_6, fmtImm_19_6, fmtImm_25_3, regField_code, imm_hi, imm_lo]
  rfl

theorem shrImm (d : Reg) (a : Reg) (k : BitVec 6) : Statement (.shrImm d a k) := of_code rfl fun w => by
  simp only [decodeCode, decodeA, fmtImm_25_6, fmtImm_31_1, BitVec.reduceEq, reduceIte, codeImm]
  simp only [decodeImm, fmtImm_0_13, fmtImm_13_6, fmtImm_19_6, fmtImm_25_3, regField_code, imm_hi, imm_lo]
  rfl

theorem sarImm (d : Reg) (a : Reg) (k : BitVec 6) : Statement (.sarImm d a k) := of_code rfl fun w => by
  simp only [decodeCode, decodeA, fmtImm_25_6, fmtImm_31_1, BitVec.reduceEq, reduceIte, codeImm]
  simp only [decodeImm, fmtImm_0_13, fmtImm_13_6, fmtImm_19_6, fmtImm_25_3, regField_code, imm_hi, imm_lo]
  rfl

theorem mulImm (d : Reg) (a : Reg) (i : BitVec 13) : Statement (.mulImm d a i) := of_code rfl fun w => by
  simp only [decodeCode, decodeA, fmtImm_25_6, fmtImm_31_1, BitVec.reduceEq, reduceIte, codeImm]
  simp only [decodeImm, fmtImm_0_13, fmtImm_13_6, fmtImm_19_6, fmtImm_25_3, regField_code]
  rfl

theorem li (d : Reg) (hx : LiTop) (imm : BitVec 48) : Statement (.li d hx imm) := of_code rfl fun w => by
  simp only [decodeCode, decodeLone, fmtLong_25_6, BitVec.reduceEq, reduceIte]
  simp only [fmtLong_0_16, fmtLong_16_1, fmtLong_17_2, fmtLong_19_6, regField_code, li_join]
  cases hx <;> rfl

theorem trap (n : BitVec 16) : Statement (.trap n) := of_code rfl fun w => by
  simp only [decodeCode, decodeLone, fmtReg_25_6, BitVec.reduceEq, reduceIte, codeExt]
  simp only [decodeSystem, fmtReg_0_7, fmtReg_7_6, fmtReg_13_6, fmtReg_19_6, trap_hi, trap_lo]
  rfl

theorem tret (a : Reg) : Statement (.tret a) := of_code rfl fun w => by
  simp only [decodeCode, decodeLone, fmtReg_25_6, BitVec.reduceEq, reduceIte, codeExt]
  simp only [decodeSystem, fmtReg_0_7, fmtReg_7_6, fmtReg_13_6, fmtReg_19_6, regField_code]
  rfl

theorem sysr (d : Reg) (r : SysReg) : Statement (.sysr d r) := of_code rfl fun w => by
  simp only [decodeCode, decodeLone, fmtReg_25_6, BitVec.reduceEq, reduceIte, codeExt]
  simp only [decodeSystem, fmtReg_0_7, fmtReg_7_6, fmtReg_13_6, fmtReg_19_6, regField_code, ext_hi26, ext_lo26]
  revert w; cases r <;> intro w <;> first | rfl | exact nomatch (show false = true from w)

theorem sysw (r : SysReg) (a : Reg) : Statement (.sysw r a) := of_code rfl fun w => by
  simp only [decodeCode, decodeLone, fmtReg_25_6, BitVec.reduceEq, reduceIte, codeExt]
  simp only [decodeSystem, fmtReg_0_7, fmtReg_7_6, fmtReg_13_6, fmtReg_19_6, regField_code, ext_hi26, ext_lo26]
  revert w; cases r <;> intro w <;> first | rfl | exact nomatch (show false = true from w)

theorem sysrFexc (d : Reg) : Statement (.sysrFexc d) := of_code rfl fun w => by
  simp only [decodeCode, decodeLone, fmtReg_25_6, BitVec.reduceEq, reduceIte, codeExt]
  simp only [decodeSystem, fmtReg_0_7, fmtReg_7_6, fmtReg_13_6, fmtReg_19_6, regField_code]
  rfl

theorem syswItin (a : Reg) : Statement (.syswItin a) := of_code rfl fun w => by
  simp only [decodeCode, decodeLone, fmtReg_25_6, BitVec.reduceEq, reduceIte, codeExt]
  simp only [decodeSystem, fmtReg_0_7, fmtReg_7_6, fmtReg_13_6, fmtReg_19_6, regField_code]
  rfl

theorem spill (a : Reg) (b : Reg) : Statement (.spill a b) := of_code rfl fun w => by
  simp only [decodeCode, decodeLone, fmtReg_25_6, BitVec.reduceEq, reduceIte, codeExt]
  simp only [decodeSystem, fmtReg_0_7, fmtReg_7_6, fmtReg_13_6, fmtReg_19_6, regField_code]
  rfl

theorem fill (a : Reg) (b : Reg) : Statement (.fill a b) := of_code rfl fun w => by
  simp only [decodeCode, decodeLone, fmtReg_25_6, BitVec.reduceEq, reduceIte, codeExt]
  simp only [decodeSystem, fmtReg_0_7, fmtReg_7_6, fmtReg_13_6, fmtReg_19_6, regField_code]
  rfl

theorem tlbinv (a : Reg) (b : Reg) : Statement (.tlbinv a b) := of_code rfl fun w => by
  simp only [decodeCode, decodeLone, fmtReg_25_6, BitVec.reduceEq, reduceIte, codeExt]
  simp only [decodeSystem, fmtReg_0_7, fmtReg_7_6, fmtReg_13_6, fmtReg_19_6, regField_code]
  rfl

theorem idle (a : Reg) : Statement (.idle a) := of_code rfl fun w => by
  simp only [decodeCode, decodeLone, fmtReg_25_6, BitVec.reduceEq, reduceIte, codeExt]
  simp only [decodeSystem, fmtReg_0_7, fmtReg_7_6, fmtReg_13_6, fmtReg_19_6, regField_code]
  rfl

theorem send (d : Reg) (a : Reg) (b : Reg) (npay : BitVec 3) (tag : BitVec 4) :
    Statement (.send d a b npay tag) := of_code rfl fun w => by
  simp only [decodeCode, decodeLone, fmtReg_25_6, BitVec.reduceEq, reduceIte, codeExt]
  simp only [decodeSend, fmtReg_7_6, fmtReg_13_6, fmtReg_19_6, fmtReg_4_3, fmtReg_0_4, regField_code, send_hi,
    send_lo]
  obtain ⟨h1, h2⟩ := send_ok w
  simp only [need, h1, h2]
  rfl

theorem spawn (p : BitVec 3) (a : Reg) (k : BitVec 2) (o : BitVec 30) :
    Statement (.spawn p a k o) := of_code rfl fun w => by
  simp only [decodeCode, decodeLone, fmtReg_25_6, BitVec.reduceEq, reduceIte, codeExt]
  simp only [decodeTask, fmtReg_0_7, fmtReg_7_6, fmtReg_13_6, fmtReg_19_6, regField_code, lowField_code, spawn_hi,
    spawn_lo]
  rfl

theorem sync (a : Reg) : Statement (.sync a) := of_code rfl fun w => by
  simp only [decodeCode, decodeLone, fmtReg_25_6, BitVec.reduceEq, reduceIte, codeExt]
  simp only [decodeTask, fmtReg_0_7, fmtReg_7_6, fmtReg_13_6, fmtReg_19_6, regField_code]
  rfl

theorem syncEnd (a : Reg) : Statement (.syncEnd a) := of_code rfl fun w => by
  simp only [decodeCode, decodeLone, fmtReg_25_6, BitVec.reduceEq, reduceIte, codeExt]
  simp only [decodeTask, fmtReg_0_7, fmtReg_7_6, fmtReg_13_6, fmtReg_19_6, regField_code]
  rfl

theorem post (p : BitVec 3) (a : Reg) (k : BitVec 2) : Statement (.post p a k) := of_code rfl fun w => by
  simp only [decodeCode, decodeLone, fmtReg_25_6, BitVec.reduceEq, reduceIte, codeExt]
  simp only [decodeTask, fmtReg_0_7, fmtReg_7_6, fmtReg_13_6, fmtReg_19_6, regField_code, lowField_code, ext_hi30,
    ext_lo30]
  rfl

theorem steal (r : BitVec 2) : Statement (.steal r) := of_code rfl fun w => by
  simp only [decodeCode, decodeLone, fmtReg_25_6, BitVec.reduceEq, reduceIte, codeExt]
  simp only [decodeTask, fmtReg_0_7, fmtReg_7_6, fmtReg_13_6, fmtReg_19_6, ext_hi30, ext_lo30]
  rfl

theorem tnum (d : Reg) (t : BitVec 5) : Statement (.tnum d t) := of_code rfl fun w => by
  simp only [decodeCode, decodeLone, fmtReg_25_6, BitVec.reduceEq, reduceIte, codeTumbler, codeExt]
  simp only [decodeTumbler, fmtReg_0_7, fmtReg_7_6, fmtReg_13_6, fmtReg_19_6, regField_code, ext_hi27, ext_lo27]
  rfl

theorem tnset (t : BitVec 5) (a : Reg) : Statement (.tnset t a) := of_code rfl fun w => by
  simp only [decodeCode, decodeLone, fmtReg_25_6, BitVec.reduceEq, reduceIte, codeTumbler, codeExt]
  simp only [decodeTumbler, fmtReg_0_7, fmtReg_7_6, fmtReg_13_6, fmtReg_19_6, regField_code, ext_hi27, ext_lo27]
  rfl

theorem tndrain (t : BitVec 5) : Statement (.tndrain t) := of_code rfl fun w => by
  simp only [decodeCode, decodeLone, fmtReg_25_6, BitVec.reduceEq, reduceIte, codeTumbler, codeExt]
  simp only [decodeTumbler, fmtReg_0_7, fmtReg_7_6, fmtReg_13_6, fmtReg_19_6, ext_hi27, ext_lo27]
  rfl

theorem tnsave (t : BitVec 5) (a : Reg) : Statement (.tnsave t a) := of_code rfl fun w => by
  simp only [decodeCode, decodeLone, fmtReg_25_6, BitVec.reduceEq, reduceIte, codeTumbler, codeExt]
  simp only [decodeTumbler, fmtReg_0_7, fmtReg_7_6, fmtReg_13_6, fmtReg_19_6, regField_code, ext_hi27, ext_lo27]
  rfl

theorem tnload (t : BitVec 5) (a : Reg) : Statement (.tnload t a) := of_code rfl fun w => by
  simp only [decodeCode, decodeLone, fmtReg_25_6, BitVec.reduceEq, reduceIte, codeTumbler, codeExt]
  simp only [decodeTumbler, fmtReg_0_7, fmtReg_7_6, fmtReg_13_6, fmtReg_19_6, regField_code, ext_hi27, ext_lo27]
  rfl

theorem stow (a : Reg) : Statement (.stow a) := of_code rfl fun w => by
  simp only [decodeCode, decodeLone, fmtReg_25_6, BitVec.reduceEq, reduceIte, codeExt]
  simp only [fmtReg_0_7, fmtReg_7_6, fmtReg_13_6, fmtReg_19_6, regField_code]
  rfl

theorem unstow (a : Reg) : Statement (.unstow a) := of_code rfl fun w => by
  simp only [decodeCode, decodeLone, fmtReg_25_6, BitVec.reduceEq, reduceIte, codeExt]
  simp only [fmtReg_0_7, fmtReg_7_6, fmtReg_13_6, fmtReg_19_6, regField_code]
  rfl

theorem eins (d : Reg) (a : Reg) (h : BitVec 6) : Statement (.eins d a h) := of_code rfl fun w => by
  simp only [decodeCode, decodeLone, fmtReg_25_6, BitVec.reduceEq, reduceIte, codeHeap, codeExt]
  simp only [decodeHeap, fmtReg_0_7, fmtReg_7_6, fmtReg_13_6, fmtReg_19_6, fmtReg_25_6, regField_code, ext_hi26,
    ext_lo26]
  rfl

theorem efind (d : Reg) (a : Reg) (h : BitVec 6) : Statement (.efind d a h) := of_code rfl fun w => by
  simp only [decodeCode, decodeLone, fmtReg_25_6, BitVec.reduceEq, reduceIte, codeHeap, codeExt]
  simp only [decodeHeap, fmtReg_0_7, fmtReg_7_6, fmtReg_13_6, fmtReg_19_6, fmtReg_25_6, regField_code, ext_hi26,
    ext_lo26]
  rfl

theorem emrg (d : Reg) (a : Reg) (b : Reg) (h : BitVec 6) : Statement (.emrg d a b h) := of_code rfl fun w => by
  simp only [decodeCode, decodeLone, fmtReg_25_6, BitVec.reduceEq, reduceIte, codeHeap, codeExt]
  simp only [decodeHeap, fmtReg_0_7, fmtReg_7_6, fmtReg_13_6, fmtReg_19_6, fmtReg_25_6, regField_code, ext_hi26,
    ext_lo26]
  rfl

theorem eeq (d : Reg) (a : Reg) (b : Reg) (h : BitVec 6) : Statement (.eeq d a b h) := of_code rfl fun w => by
  simp only [decodeCode, decodeLone, fmtReg_25_6, BitVec.reduceEq, reduceIte, codeHeap, codeExt]
  simp only [decodeHeap, fmtReg_0_7, fmtReg_7_6, fmtReg_13_6, fmtReg_19_6, fmtReg_25_6, regField_code, ext_hi26,
    ext_lo26]
  rfl

theorem esettle (h : BitVec 6) : Statement (.esettle h) := of_code rfl fun w => by
  simp only [decodeCode, decodeLone, fmtReg_25_6, BitVec.reduceEq, reduceIte, codeHeap, codeExt]
  simp only [decodeHeap, fmtReg_0_7, fmtReg_7_6, fmtReg_13_6, fmtReg_19_6, fmtReg_25_6, ext_hi26, ext_lo26]
  rfl

theorem ematch (d : Reg) (a : Reg) (h : BitVec 6) : Statement (.ematch d a h) := of_code rfl fun w => by
  simp only [decodeCode, decodeLone, fmtReg_25_6, BitVec.reduceEq, reduceIte, codeHeap, codeExt]
  simp only [decodeHeap, fmtReg_0_7, fmtReg_7_6, fmtReg_13_6, fmtReg_19_6, fmtReg_25_6, regField_code, ext_hi26,
    ext_lo26]
  rfl

theorem ecost (d : Reg) (a : Reg) (b : Reg) (h : BitVec 6) : Statement (.ecost d a b h) := of_code rfl fun w => by
  simp only [decodeCode, decodeLone, fmtReg_25_6, BitVec.reduceEq, reduceIte, codeHeap, codeExt]
  simp only [decodeHeap, fmtReg_0_7, fmtReg_7_6, fmtReg_13_6, fmtReg_19_6, fmtReg_25_6, regField_code, ext_hi26,
    ext_lo26]
  rfl

theorem enode (d : Reg) (a : Reg) (h : BitVec 6) : Statement (.enode d a h) := of_code rfl fun w => by
  simp only [decodeCode, decodeLone, fmtReg_25_6, BitVec.reduceEq, reduceIte, codeHeap, codeExt]
  simp only [decodeHeap, fmtReg_0_7, fmtReg_7_6, fmtReg_13_6, fmtReg_19_6, fmtReg_25_6, regField_code, ext_hi26,
    ext_lo26]
  rfl

theorem eclass (d : Reg) (a : Reg) (h : BitVec 6) : Statement (.eclass d a h) := of_code rfl fun w => by
  simp only [decodeCode, decodeLone, fmtReg_25_6, BitVec.reduceEq, reduceIte, codeHeap, codeExt]
  simp only [decodeHeap, fmtReg_0_7, fmtReg_7_6, fmtReg_13_6, fmtReg_19_6, fmtReg_25_6, regField_code, ext_hi26,
    ext_lo26]
  rfl

theorem mma (d : BitVec 3) (a : Reg) (b : Reg) (fmt : MatFmt) (sat : Bool) (n : BitVec 6) :
    Statement (.mma d a b fmt sat n) := of_code rfl fun w => by
  simp only [decodeCode, decodeLone, fmtReg_25_6, BitVec.reduceEq, reduceIte, codeExt]
  simp only [decodeMatrix, fmtReg_0_7, fmtReg_7_6, fmtReg_13_6, fmtReg_19_6, fmtReg_25_6, fmtReg_4_3, fmtReg_3_1,
    fmtReg_0_3, regField_code, lowField_code, ext_hi26, ext_lo26]
  revert w; cases fmt <;> cases sat <;> intro w <;> first | rfl | exact nomatch (show false = true from w)

theorem mrot (d : BitVec 3) (fmt : MatFmt) (sat : Bool) : Statement (.mrot d fmt sat) := of_code rfl fun w => by
  simp only [decodeCode, decodeLone, fmtReg_25_6, BitVec.reduceEq, reduceIte, codeExt]
  simp only [decodeMatrix, fmtReg_0_7, fmtReg_7_6, fmtReg_13_6, fmtReg_19_6, fmtReg_25_6, fmtReg_4_3, fmtReg_3_1,
    fmtReg_0_3, lowField_code, fmtReg_0_7]
  revert w; cases fmt <;> cases sat <;> intro w <;> first | rfl | exact nomatch (show false = true from w)

theorem mrotMem (d : BitVec 3) (a : Reg) (b : Reg) (fmt : MatFmt) (sat : Bool) :
    Statement (.mrotMem d a b fmt sat) := of_code rfl fun w => by
  simp only [decodeCode, decodeLone, fmtReg_25_6, BitVec.reduceEq, reduceIte, codeExt]
  simp only [decodeMatrix, fmtReg_0_7, fmtReg_7_6, fmtReg_13_6, fmtReg_19_6, fmtReg_25_6, fmtReg_4_3, fmtReg_3_1,
    fmtReg_0_3, regField_code, lowField_code, fmtReg_0_7]
  revert w; cases fmt <;> cases sat <;> intro w <;> first | rfl | exact nomatch (show false = true from w)

theorem mzero (d : BitVec 3) : Statement (.mzero d) := of_code rfl fun w => by
  simp only [decodeCode, decodeLone, fmtReg_25_6, BitVec.reduceEq, reduceIte, codeExt]
  simp only [decodeMatrix, fmtReg_0_7, fmtReg_7_6, fmtReg_13_6, fmtReg_19_6, fmtReg_25_6, fmtReg_4_3, fmtReg_3_1,
    fmtReg_0_3, lowField_code]
  rfl

theorem mmovF32ToV (d : BitVec 3) (acc : BitVec 3) (row : BitVec 3) :
    Statement (.mmovF32ToV d acc row) := of_code rfl fun w => by
  simp only [decodeCode, decodeLone, fmtReg_25_6, BitVec.reduceEq, reduceIte, codeMmov, codeExt]
  simp only [decodeMmov, fmtReg_7_6, fmtReg_13_6, fmtReg_19_6, fmtReg_4_3, fmtReg_0_4, lowField_code, mm_row, mm_rm,
    mm_z, mm_y, mm_bit]
  rfl

theorem mmovBf16ToV (d : BitVec 3) (acc : BitVec 3) (row : BitVec 3) (rm : Rm) :
    Statement (.mmovBf16ToV d acc row rm) := of_code rfl fun w => by
  simp only [decodeCode, decodeLone, fmtReg_25_6, BitVec.reduceEq, reduceIte, codeMmov, codeExt]
  simp only [decodeMmov, fmtReg_7_6, fmtReg_13_6, fmtReg_19_6, fmtReg_4_3, fmtReg_0_4, lowField_code, mm_row, mm_rm,
    mm_z, mm_y, mm_bit, row_even w]
  cases rm <;> rfl

theorem mmovF16ToV (d : BitVec 3) (acc : BitVec 3) (row : BitVec 3) (rm : Rm) :
    Statement (.mmovF16ToV d acc row rm) := of_code rfl fun w => by
  simp only [decodeCode, decodeLone, fmtReg_25_6, BitVec.reduceEq, reduceIte, codeMmov, codeExt]
  simp only [decodeMmov, fmtReg_7_6, fmtReg_13_6, fmtReg_19_6, fmtReg_4_3, fmtReg_0_4, lowField_code, mm_row, mm_rm,
    mm_z, mm_y, mm_bit, row_even w]
  cases rm <;> rfl

theorem mmovF32Store (a : Reg) (acc : BitVec 3) : Statement (.mmovF32Store a acc) := of_code rfl fun w => by
  simp only [decodeCode, decodeLone, fmtReg_25_6, BitVec.reduceEq, reduceIte, codeMmov, codeExt]
  simp only [decodeMmov, fmtReg_7_6, fmtReg_13_6, fmtReg_19_6, fmtReg_4_3, fmtReg_0_4, regField_code, lowField_code]
  rfl

theorem mmovBf16Store (a : Reg) (acc : BitVec 3) (rm : Rm) :
    Statement (.mmovBf16Store a acc rm) := of_code rfl fun w => by
  simp only [decodeCode, decodeLone, fmtReg_25_6, BitVec.reduceEq, reduceIte, codeMmov, codeExt]
  simp only [decodeMmov, fmtReg_7_6, fmtReg_13_6, fmtReg_19_6, fmtReg_4_3, fmtReg_0_4, regField_code, lowField_code]
  cases rm <;> rfl

theorem mmovF16Store (a : Reg) (acc : BitVec 3) (rm : Rm) :
    Statement (.mmovF16Store a acc rm) := of_code rfl fun w => by
  simp only [decodeCode, decodeLone, fmtReg_25_6, BitVec.reduceEq, reduceIte, codeMmov, codeExt]
  simp only [decodeMmov, fmtReg_7_6, fmtReg_13_6, fmtReg_19_6, fmtReg_4_3, fmtReg_0_4, regField_code, lowField_code]
  cases rm <;> rfl

theorem mmovF32Load (d : BitVec 3) (a : Reg) : Statement (.mmovF32Load d a) := of_code rfl fun w => by
  simp only [decodeCode, decodeLone, fmtReg_25_6, BitVec.reduceEq, reduceIte, codeMmov, codeExt]
  simp only [decodeMmov, fmtReg_7_6, fmtReg_13_6, fmtReg_19_6, fmtReg_4_3, fmtReg_0_4, regField_code, lowField_code]
  rfl

theorem mtab (p : BitVec 3) : Statement (.mtab p) := of_code rfl fun w => by
  simp only [decodeCode, decodeLone, fmtReg_25_6, BitVec.reduceEq, reduceIte, codeExt]
  simp only [fmtReg_0_7, fmtReg_19_6, fmtReg_7_12, lowField_code]
  rfl

theorem cpy (t : BitVec 6) (vf : BitVec 3) : Statement (.cpy t vf) := of_code rfl fun w => by
  simp only [decodeCode, decodeLone, fmtReg_25_6, BitVec.reduceEq, reduceIte, codeExt]
  simp only [decodeCopy, fmtReg_0_7, fmtReg_7_6, fmtReg_13_6, fmtReg_19_6, fmtReg_25_6, lowField_code, ext_hi26,
    ext_lo26]
  rfl

theorem cwait (a : Reg) : Statement (.cwait a) := of_code rfl fun w => by
  simp only [decodeCode, decodeLone, fmtReg_25_6, BitVec.reduceEq, reduceIte, codeExt]
  simp only [decodeCopy, fmtReg_0_7, fmtReg_7_6, fmtReg_13_6, fmtReg_19_6, fmtReg_25_6, regField_code]
  rfl

theorem cany (d : Reg) (a : Reg) : Statement (.cany d a) := of_code rfl fun w => by
  simp only [decodeCode, decodeLone, fmtReg_25_6, BitVec.reduceEq, reduceIte, codeExt]
  simp only [decodeCopy, fmtReg_0_7, fmtReg_7_6, fmtReg_13_6, fmtReg_19_6, fmtReg_25_6, regField_code]
  rfl

theorem cfirst (d : Reg) (a : Reg) : Statement (.cfirst d a) := of_code rfl fun w => by
  simp only [decodeCode, decodeLone, fmtReg_25_6, BitVec.reduceEq, reduceIte, codeExt]
  simp only [decodeCopy, fmtReg_0_7, fmtReg_7_6, fmtReg_13_6, fmtReg_19_6, fmtReg_25_6, regField_code]
  rfl

theorem vaddF (ty : FloatTy) (rm : Rm) (d : BitVec 3) (a : BitVec 3) (b : BitVec 3) :
    Statement (.vaddF ty rm d a b) := of_code rfl fun w => by
  simp only [decodeCode, decodeLone, fmtReg_25_6, BitVec.reduceEq, reduceIte, codeV, codeExt]
  simp only [decodeVFloat, fmtReg_0_7, fmtReg_7_6, fmtReg_13_6, fmtReg_19_6, lowField_code, ofWord_word]
  cases ty <;> cases rm <;> rfl

theorem vsubF (ty : FloatTy) (rm : Rm) (d : BitVec 3) (a : BitVec 3) (b : BitVec 3) :
    Statement (.vsubF ty rm d a b) := of_code rfl fun w => by
  simp only [decodeCode, decodeLone, fmtReg_25_6, BitVec.reduceEq, reduceIte, codeV, codeExt]
  simp only [decodeVFloat, fmtReg_0_7, fmtReg_7_6, fmtReg_13_6, fmtReg_19_6, lowField_code, ofWord_word]
  cases ty <;> cases rm <;> rfl

theorem vmulF (ty : FloatTy) (rm : Rm) (d : BitVec 3) (a : BitVec 3) (b : BitVec 3) :
    Statement (.vmulF ty rm d a b) := of_code rfl fun w => by
  simp only [decodeCode, decodeLone, fmtReg_25_6, BitVec.reduceEq, reduceIte, codeV, codeExt]
  simp only [decodeVFloat, fmtReg_0_7, fmtReg_7_6, fmtReg_13_6, fmtReg_19_6, lowField_code, ofWord_word]
  cases ty <;> cases rm <;> rfl

theorem vdiv (ty : FloatTy) (rm : Rm) (d : BitVec 3) (a : BitVec 3) (b : BitVec 3) :
    Statement (.vdiv ty rm d a b) := of_code rfl fun w => by
  simp only [decodeCode, decodeLone, fmtReg_25_6, BitVec.reduceEq, reduceIte, codeV, codeExt]
  simp only [decodeVFloat, fmtReg_0_7, fmtReg_7_6, fmtReg_13_6, fmtReg_19_6, lowField_code, ofWord_word]
  cases ty <;> cases rm <;> rfl

theorem vfma (ty : FloatTy) (rm : Rm) (d : BitVec 3) (a : BitVec 3) (b : BitVec 3) (c : BitVec 3) :
    Statement (.vfma ty rm d a b c) := of_code rfl fun w => by
  simp only [decodeCode, decodeLone, fmtReg_25_6, BitVec.reduceEq, reduceIte, codeV, codeExt]
  simp only [decodeVFloat, fmtReg_0_7, fmtReg_7_6, fmtReg_13_6, fmtReg_19_6, lowField_code, ofWord_word]
  cases ty <;> cases rm <;> rfl

theorem vminF (ty : FloatTy) (d : BitVec 3) (a : BitVec 3) (b : BitVec 3) :
    Statement (.vminF ty d a b) := of_code rfl fun w => by
  simp only [decodeCode, decodeLone, fmtReg_25_6, BitVec.reduceEq, reduceIte, codeV, codeExt]
  simp only [decodeVFloat, fmtReg_0_7, fmtReg_7_6, fmtReg_13_6, fmtReg_19_6, lowField_code, ofWord_word]
  cases ty <;> rfl

theorem vmaxF (ty : FloatTy) (d : BitVec 3) (a : BitVec 3) (b : BitVec 3) :
    Statement (.vmaxF ty d a b) := of_code rfl fun w => by
  simp only [decodeCode, decodeLone, fmtReg_25_6, BitVec.reduceEq, reduceIte, codeV, codeExt]
  simp only [decodeVFloat, fmtReg_0_7, fmtReg_7_6, fmtReg_13_6, fmtReg_19_6, lowField_code, ofWord_word]
  cases ty <;> rfl

theorem vsqrt (ty : FloatTy) (rm : Rm) (d : BitVec 3) (a : BitVec 3) :
    Statement (.vsqrt ty rm d a) := of_code rfl fun w => by
  simp only [decodeCode, decodeLone, fmtReg_25_6, BitVec.reduceEq, reduceIte, codeV, codeExt]
  simp only [decodeVFloat, fmtReg_0_7, fmtReg_7_6, fmtReg_13_6, fmtReg_19_6, lowField_code, ofWord_word]
  cases ty <;> cases rm <;> rfl

theorem vneg (ty : FloatTy) (d : BitVec 3) (a : BitVec 3) : Statement (.vneg ty d a) := of_code rfl fun w => by
  simp only [decodeCode, decodeLone, fmtReg_25_6, BitVec.reduceEq, reduceIte, codeV, codeExt]
  simp only [decodeVFloat, fmtReg_0_7, fmtReg_7_6, fmtReg_13_6, fmtReg_19_6, lowField_code, ofWord_word]
  cases ty <;> rfl

theorem vabs (ty : FloatTy) (d : BitVec 3) (a : BitVec 3) : Statement (.vabs ty d a) := of_code rfl fun w => by
  simp only [decodeCode, decodeLone, fmtReg_25_6, BitVec.reduceEq, reduceIte, codeV, codeExt]
  simp only [decodeVFloat, fmtReg_0_7, fmtReg_7_6, fmtReg_13_6, fmtReg_19_6, lowField_code, ofWord_word]
  cases ty <;> rfl

theorem vcmpEq (ty : FloatTy) (d : BitVec 3) (a : BitVec 3) (b : BitVec 3) :
    Statement (.vcmpEq ty d a b) := of_code rfl fun w => by
  simp only [decodeCode, decodeLone, fmtReg_25_6, BitVec.reduceEq, reduceIte, codeV, codeExt]
  simp only [decodeVFloat, fmtReg_0_7, fmtReg_7_6, fmtReg_13_6, fmtReg_19_6, lowField_code, ofWord_word]
  cases ty <;> rfl

theorem vcmpLt (ty : FloatTy) (d : BitVec 3) (a : BitVec 3) (b : BitVec 3) :
    Statement (.vcmpLt ty d a b) := of_code rfl fun w => by
  simp only [decodeCode, decodeLone, fmtReg_25_6, BitVec.reduceEq, reduceIte, codeV, codeExt]
  simp only [decodeVFloat, fmtReg_0_7, fmtReg_7_6, fmtReg_13_6, fmtReg_19_6, lowField_code, ofWord_word]
  cases ty <;> rfl

theorem vcmpLe (ty : FloatTy) (d : BitVec 3) (a : BitVec 3) (b : BitVec 3) :
    Statement (.vcmpLe ty d a b) := of_code rfl fun w => by
  simp only [decodeCode, decodeLone, fmtReg_25_6, BitVec.reduceEq, reduceIte, codeV, codeExt]
  simp only [decodeVFloat, fmtReg_0_7, fmtReg_7_6, fmtReg_13_6, fmtReg_19_6, lowField_code, ofWord_word]
  cases ty <;> rfl

theorem vcmpUn (ty : FloatTy) (d : BitVec 3) (a : BitVec 3) (b : BitVec 3) :
    Statement (.vcmpUn ty d a b) := of_code rfl fun w => by
  simp only [decodeCode, decodeLone, fmtReg_25_6, BitVec.reduceEq, reduceIte, codeV, codeExt]
  simp only [decodeVFloat, fmtReg_0_7, fmtReg_7_6, fmtReg_13_6, fmtReg_19_6, lowField_code, ofWord_word]
  cases ty <;> rfl

theorem vaddI (ty : IntTy) (sat : Bool) (d : BitVec 3) (a : BitVec 3) (b : BitVec 3) :
    Statement (.vaddI ty sat d a b) := of_code rfl fun w => by
  simp only [decodeCode, decodeLone, fmtReg_25_6, BitVec.reduceEq, reduceIte, codeV, codeExt]
  simp only [decodeVInt, fmtReg_0_7, fmtReg_7_6, fmtReg_13_6, fmtReg_19_6, lowField_code, ofWord_word]
  cases ty <;> cases sat <;> rfl

theorem vsubI (ty : IntTy) (sat : Bool) (d : BitVec 3) (a : BitVec 3) (b : BitVec 3) :
    Statement (.vsubI ty sat d a b) := of_code rfl fun w => by
  simp only [decodeCode, decodeLone, fmtReg_25_6, BitVec.reduceEq, reduceIte, codeV, codeExt]
  simp only [decodeVInt, fmtReg_0_7, fmtReg_7_6, fmtReg_13_6, fmtReg_19_6, lowField_code, ofWord_word]
  cases ty <;> cases sat <;> rfl

theorem vmulI (ty : IntTy) (sat : Bool) (d : BitVec 3) (a : BitVec 3) (b : BitVec 3) :
    Statement (.vmulI ty sat d a b) := of_code rfl fun w => by
  simp only [decodeCode, decodeLone, fmtReg_25_6, BitVec.reduceEq, reduceIte, codeV, codeExt]
  simp only [decodeVInt, fmtReg_0_7, fmtReg_7_6, fmtReg_13_6, fmtReg_19_6, lowField_code, ofWord_word]
  cases ty <;> cases sat <;> rfl

theorem vminI (ty : IntTy) (d : BitVec 3) (a : BitVec 3) (b : BitVec 3) :
    Statement (.vminI ty d a b) := of_code rfl fun w => by
  simp only [decodeCode, decodeLone, fmtReg_25_6, BitVec.reduceEq, reduceIte, codeV, codeExt]
  simp only [decodeVInt, fmtReg_0_7, fmtReg_7_6, fmtReg_13_6, fmtReg_19_6, lowField_code, ofWord_word]
  cases ty <;> rfl

theorem vmaxI (ty : IntTy) (d : BitVec 3) (a : BitVec 3) (b : BitVec 3) :
    Statement (.vmaxI ty d a b) := of_code rfl fun w => by
  simp only [decodeCode, decodeLone, fmtReg_25_6, BitVec.reduceEq, reduceIte, codeV, codeExt]
  simp only [decodeVInt, fmtReg_0_7, fmtReg_7_6, fmtReg_13_6, fmtReg_19_6, lowField_code, ofWord_word]
  cases ty <;> rfl

theorem vand (ty : IntTy) (d : BitVec 3) (a : BitVec 3) (b : BitVec 3) :
    Statement (.vand ty d a b) := of_code rfl fun w => by
  simp only [decodeCode, decodeLone, fmtReg_25_6, BitVec.reduceEq, reduceIte, codeV, codeExt]
  simp only [decodeVInt, fmtReg_0_7, fmtReg_7_6, fmtReg_13_6, fmtReg_19_6, lowField_code, ofWord_word]
  cases ty <;> rfl

theorem vor (ty : IntTy) (d : BitVec 3) (a : BitVec 3) (b : BitVec 3) :
    Statement (.vor ty d a b) := of_code rfl fun w => by
  simp only [decodeCode, decodeLone, fmtReg_25_6, BitVec.reduceEq, reduceIte, codeV, codeExt]
  simp only [decodeVInt, fmtReg_0_7, fmtReg_7_6, fmtReg_13_6, fmtReg_19_6, lowField_code, ofWord_word]
  cases ty <;> rfl

theorem vxor (ty : IntTy) (d : BitVec 3) (a : BitVec 3) (b : BitVec 3) :
    Statement (.vxor ty d a b) := of_code rfl fun w => by
  simp only [decodeCode, decodeLone, fmtReg_25_6, BitVec.reduceEq, reduceIte, codeV, codeExt]
  simp only [decodeVInt, fmtReg_0_7, fmtReg_7_6, fmtReg_13_6, fmtReg_19_6, lowField_code, ofWord_word]
  cases ty <;> rfl

theorem vshl (ty : IntTy) (d : BitVec 3) (a : BitVec 3) (b : BitVec 3) :
    Statement (.vshl ty d a b) := of_code rfl fun w => by
  simp only [decodeCode, decodeLone, fmtReg_25_6, BitVec.reduceEq, reduceIte, codeV, codeExt]
  simp only [decodeVInt, fmtReg_0_7, fmtReg_7_6, fmtReg_13_6, fmtReg_19_6, lowField_code, ofWord_word]
  cases ty <;> rfl

theorem vshr (ty : IntTy) (d : BitVec 3) (a : BitVec 3) (b : BitVec 3) :
    Statement (.vshr ty d a b) := of_code rfl fun w => by
  simp only [decodeCode, decodeLone, fmtReg_25_6, BitVec.reduceEq, reduceIte, codeV, codeExt]
  simp only [decodeVInt, fmtReg_0_7, fmtReg_7_6, fmtReg_13_6, fmtReg_19_6, lowField_code, ofWord_word]
  cases ty <;> rfl

theorem vsar (ty : IntTy) (d : BitVec 3) (a : BitVec 3) (b : BitVec 3) :
    Statement (.vsar ty d a b) := of_code rfl fun w => by
  simp only [decodeCode, decodeLone, fmtReg_25_6, BitVec.reduceEq, reduceIte, codeV, codeExt]
  simp only [decodeVInt, fmtReg_0_7, fmtReg_7_6, fmtReg_13_6, fmtReg_19_6, lowField_code, ofWord_word]
  cases ty <;> rfl

theorem vcvt (dt : NumTy) (st : NumTy) (rm : Rm) (sat : Bool) (d : BitVec 3) (a : BitVec 3) (p : BitVec 3) :
    Statement (.vcvt dt st rm sat d a p) := of_code rfl fun w => by
  simp only [decodeCode, decodeLone, fmtReg_25_6, BitVec.reduceEq, reduceIte, codeV, codeExt]
  simp only [decodeVConv, fmtReg_0_7, fmtReg_7_6, fmtReg_13_6, fmtReg_19_6, lowField_code, ofWord_word, idx_t0,
    idx_p0, NumTy_ofCode, Rm_ofCode, need, orBad, bind, Except.bind, VExt.zero]
  obtain ⟨h1, h2⟩ := Bool.and_eq_true_iff.mp (show (decide (p.toNat < cvtParts dt st)
    && (if dt.isInt && st.isInt then rm == .rn else !sat)) = true from w)
  cases h : (dt.isInt && st.isInt) <;> rw [h] at h2 <;> simp only [h1] <;> cases sat <;> cases rm <;> first | rfl |
    exact nomatch (show false = true from h2)

theorem vdec (dt : FloatTy) (rm : Rm) (d : BitVec 3) (a : BitVec 3) (b : BitVec 3) (t : BitVec 2) (p : BitVec 2) :
    Statement (.vdec dt rm d a b t p) := of_code rfl fun w => by
  simp only [decodeCode, decodeLone, fmtReg_25_6, BitVec.reduceEq, reduceIte, codeV, codeExt]
  simp only [decodeVConv, fmtReg_0_7, fmtReg_7_6, fmtReg_13_6, fmtReg_19_6, lowField_code, ofWord_word, idx_t, idx_p,
    idx_lo, FloatTy_ofCode, Rm_ofCode, need, orBad, bind, Except.bind, VExt.zero]
  revert w; cases dt <;> intro w <;> first
    | (simp only [part_lt]; rfl)
    | (simp only [part_lt2 (show decide (p.toNat < 2) = true from w)]; rfl)

theorem venc (auto : Bool) (d : BitVec 3) (a : BitVec 3) (b : BitVec 3) (t : BitVec 2) (p : BitVec 2) :
    Statement (.venc auto d a b t p) := of_code rfl fun w => by
  simp only [decodeCode, decodeLone, fmtReg_25_6, BitVec.reduceEq, reduceIte, codeV, codeExt]
  simp only [decodeVConv, fmtReg_0_7, fmtReg_7_6, fmtReg_13_6, fmtReg_19_6, lowField_code, ofWord_word, idx_t, idx_p,
    idx_lo, need, bind, Except.bind, VExt.zero, part_lt]
  cases auto <;> rfl

theorem vscl (rm : Rm) (d : BitVec 3) (a : BitVec 3) (b : BitVec 3) (t : BitVec 2) (p : BitVec 2) :
    Statement (.vscl rm d a b t p) := of_code rfl fun w => by
  simp only [decodeCode, decodeLone, fmtReg_25_6, BitVec.reduceEq, reduceIte, codeV, codeExt]
  simp only [decodeVScale, fmtReg_0_7, fmtReg_7_6, fmtReg_13_6, fmtReg_19_6, lowField_code, ofWord_word, idx_t, idx_p,
    idx_lo, Rm_ofCode, need, bind, Except.bind, VExt.zero, part_lt]
  rfl

theorem vsauto (d : BitVec 3) (a : BitVec 3) (t : BitVec 2) (p : BitVec 2) :
    Statement (.vsauto d a t p) := of_code rfl fun w => by
  simp only [decodeCode, decodeLone, fmtReg_25_6, BitVec.reduceEq, reduceIte, codeV, codeExt]
  simp only [decodeVScale, fmtReg_0_7, fmtReg_7_6, fmtReg_13_6, fmtReg_19_6, lowField_code, ofWord_word, idx_t, idx_p,
    idx_lo, need, bind, Except.bind, VExt.zero, part_lt]
  rfl

theorem vsum (ty : NumTy) (rm : Rm) (sat : Bool) (d : Reg) (a : BitVec 3) :
    Statement (.vsum ty rm sat d a) := of_code rfl fun w => by
  simp only [decodeCode, decodeLone, fmtReg_25_6, BitVec.reduceEq, reduceIte, codeExt]
  simp only [decodeVReduce, fmtReg_0_7, fmtReg_7_6, fmtReg_13_6, fmtReg_19_6, regField_code, lowField_code,
    ofWord_word]
  revert w; rcases ty with t | t <;> cases t <;> cases rm <;> cases sat <;> intro w <;> first | rfl | exact nomatch
    (show false = true from w)

theorem vrmax (ty : NumTy) (d : Reg) (a : BitVec 3) : Statement (.vrmax ty d a) := of_code rfl fun w => by
  simp only [decodeCode, decodeLone, fmtReg_25_6, BitVec.reduceEq, reduceIte, codeExt]
  simp only [decodeVReduce, fmtReg_0_7, fmtReg_7_6, fmtReg_13_6, fmtReg_19_6, regField_code, lowField_code,
    ofWord_word]
  rcases ty with t | t <;> cases t <;> rfl

theorem vrmin (ty : NumTy) (d : Reg) (a : BitVec 3) : Statement (.vrmin ty d a) := of_code rfl fun w => by
  simp only [decodeCode, decodeLone, fmtReg_25_6, BitVec.reduceEq, reduceIte, codeExt]
  simp only [decodeVReduce, fmtReg_0_7, fmtReg_7_6, fmtReg_13_6, fmtReg_19_6, regField_code, lowField_code,
    ofWord_word]
  rcases ty with t | t <;> cases t <;> rfl

theorem vperm (d : BitVec 3) (a : BitVec 3) (b : BitVec 3) : Statement (.vperm d a b) := of_code rfl fun w => by
  simp only [decodeCode, decodeLone, fmtReg_25_6, BitVec.reduceEq, reduceIte, codeV, codeExt]
  simp only [decodeVPermute, fmtReg_0_7, fmtReg_7_6, fmtReg_13_6, fmtReg_19_6, lowField_code, ofWord_word]
  rfl

theorem vbcast (ty : NumTy) (d : BitVec 3) (a : Reg) : Statement (.vbcast ty d a) := of_code rfl fun w => by
  simp only [decodeCode, decodeLone, fmtReg_25_6, BitVec.reduceEq, reduceIte, codeExt]
  simp only [decodeVPermute, fmtReg_0_7, fmtReg_7_6, fmtReg_13_6, fmtReg_19_6, regField_code, lowField_code,
    ofWord_word]
  rcases ty with t | t <;> cases t <;> rfl

theorem vext (ty : NumTy) (d : Reg) (a : BitVec 3) (i : BitVec 5) :
    Statement (.vext ty d a i) := of_code rfl fun w => by
  simp only [decodeCode, decodeLone, fmtReg_25_6, BitVec.reduceEq, reduceIte, codeExt]
  simp only [decodeVPermute, fmtReg_0_7, fmtReg_7_6, fmtReg_13_6, fmtReg_19_6, regField_code, lowField_code,
    ofWord_word, NumTy_ofCode, need, orBad, bind, Except.bind, VExt.zero]
  have h : decide (i.toNat * ty.bits < 256) = true := w
  simp only [h]
  rfl

theorem vins (ty : NumTy) (d : BitVec 3) (a : Reg) (i : BitVec 5) :
    Statement (.vins ty d a i) := of_code rfl fun w => by
  simp only [decodeCode, decodeLone, fmtReg_25_6, BitVec.reduceEq, reduceIte, codeExt]
  simp only [decodeVPermute, fmtReg_0_7, fmtReg_7_6, fmtReg_13_6, fmtReg_19_6, regField_code, lowField_code,
    ofWord_word, NumTy_ofCode, need, orBad, bind, Except.bind, VExt.zero]
  have h : decide (i.toNat * ty.bits < 256) = true := w
  simp only [h]
  rfl

theorem vsel (d : BitVec 3) (a : BitVec 3) (b : BitVec 3) (c : BitVec 3) :
    Statement (.vsel d a b c) := of_code rfl fun w => by
  simp only [decodeCode, decodeLone, fmtReg_25_6, BitVec.reduceEq, reduceIte, codeV, codeExt]
  simp only [decodeVPermute, fmtReg_0_7, fmtReg_7_6, fmtReg_13_6, fmtReg_19_6, lowField_code, ofWord_word]
  rfl

theorem vmov (d : BitVec 3) (a : BitVec 3) : Statement (.vmov d a) := of_code rfl fun w => by
  simp only [decodeCode, decodeLone, fmtReg_25_6, BitVec.reduceEq, reduceIte, codeV, codeExt]
  simp only [decodeVPermute, fmtReg_0_7, fmtReg_7_6, fmtReg_13_6, fmtReg_19_6, lowField_code, ofWord_word]
  rfl

theorem vrcp (d : BitVec 3) (a : BitVec 3) : Statement (.vrcp d a) := of_code rfl fun w => by
  simp only [decodeCode, decodeLone, fmtReg_25_6, BitVec.reduceEq, reduceIte, codeV, codeExt]
  simp only [decodeVApprox, fmtReg_0_7, fmtReg_7_6, fmtReg_13_6, fmtReg_19_6, lowField_code, ofWord_word]
  rfl

theorem vrsqrt (d : BitVec 3) (a : BitVec 3) : Statement (.vrsqrt d a) := of_code rfl fun w => by
  simp only [decodeCode, decodeLone, fmtReg_25_6, BitVec.reduceEq, reduceIte, codeV, codeExt]
  simp only [decodeVApprox, fmtReg_0_7, fmtReg_7_6, fmtReg_13_6, fmtReg_19_6, lowField_code, ofWord_word]
  rfl

theorem vexp2 (d : BitVec 3) (a : BitVec 3) : Statement (.vexp2 d a) := of_code rfl fun w => by
  simp only [decodeCode, decodeLone, fmtReg_25_6, BitVec.reduceEq, reduceIte, codeV, codeExt]
  simp only [decodeVApprox, fmtReg_0_7, fmtReg_7_6, fmtReg_13_6, fmtReg_19_6, lowField_code, ofWord_word]
  rfl

theorem vectorComplete (core : Nat) : Statement (.vectorComplete core) := of_none rfl
theorem matrixComplete (core : Nat) : Statement (.matrixComplete core) := of_none rfl
theorem mrotSliceArrive (core : Nat) (isB : Bool) : Statement (.mrotSliceArrive core isB) := of_none rfl
theorem laneWordArrive (core : Nat) (dir : BitVec 2) : Statement (.laneWordArrive core dir) := of_none rfl
theorem copyAccept (core : Nat) : Statement (.copyAccept core) := of_none rfl
theorem copyAccess (core : Nat) (copy : Nat) (pos : Nat) : Statement (.copyAccess core copy pos) := of_none rfl
theorem copyEnd (core : Nat) (copy : Nat) : Statement (.copyEnd core copy) := of_none rfl
theorem bankLoad (core : Nat) (bank : Bool) : Statement (.bankLoad core bank) := of_none rfl
theorem homeAccess (id : Nat) : Statement (.homeAccess id) := of_none rfl
theorem loadReply (id : Nat) : Statement (.loadReply id) := of_none rfl
theorem storeAck (id : Nat) : Statement (.storeAck id) := of_none rfl
theorem porterAccess (id : Nat) : Statement (.porterAccess id) := of_none rfl
theorem messageArrive (id : Nat) : Statement (.messageArrive id) := of_none rfl
theorem heldRecordEnter (core : Nat) : Statement (.heldRecordEnter core) := of_none rfl
theorem ringStall (core : Nat) : Statement (.ringStall core) := of_none rfl
theorem migrationArrive (id : Nat) : Statement (.migrationArrive id) := of_none rfl
theorem amoAtHome (id : Nat) : Statement (.amoAtHome id) := of_none rfl
theorem remoteUpdate (id : Nat) : Statement (.remoteUpdate id) := of_none rfl
theorem farDrain (id : Nat) : Statement (.farDrain id) := of_none rfl
theorem taskTake (core : Nat) (slot : Nat) : Statement (.taskTake core slot) := of_none rfl
theorem stealRequest (core : Nat) (slot : Nat) (victim : Nat) :
    Statement (.stealRequest core slot victim) := of_none rfl
theorem taskParkTimeout (core : Nat) (slot : Nat) : Statement (.taskParkTimeout core slot) := of_none rfl
theorem taskFrameStep (id : Nat) : Statement (.taskFrameStep id) := of_none rfl
theorem syncAnswer (id : Nat) : Statement (.syncAnswer id) := of_none rfl
theorem deadlineExpire (launch : Nat) (level : Nat) (unit : Nat) :
    Statement (.deadlineExpire launch level unit) := of_none rfl
theorem quantumExpire (core : Nat) (slot : Nat) : Statement (.quantumExpire core slot) := of_none rfl
theorem idleTimeout (core : Nat) (slot : Nat) : Statement (.idleTimeout core slot) := of_none rfl
theorem trapTake (tid : Nat) : Statement (.trapTake tid) := of_none rfl
theorem oncePost (id : Nat) : Statement (.oncePost id) := of_none rfl
theorem icacheFill (square : Nat) (asid : BitVec 12) (line : Nat) :
    Statement (.icacheFill square asid line) := of_none rfl
theorem pageWalk (square : Nat) (asid : BitVec 12) (page : Nat) :
    Statement (.pageWalk square asid page) := of_none rfl
theorem arbiterBoundary (core : Nat) : Statement (.arbiterBoundary core) := of_none rfl
theorem spillEngineEvict (core : Nat) : Statement (.spillEngineEvict core) := of_none rfl
theorem withdraw (id : Nat) : Statement (.withdraw id) := of_none rfl
theorem roomMessage (id : Nat) : Statement (.roomMessage id) := of_none rfl
theorem contextReadyTimeout (core : Nat) (rec : Nat) : Statement (.contextReadyTimeout core rec) := of_none rfl
theorem refusedResendTimeout (core : Nat) (slot : Nat) : Statement (.refusedResendTimeout core slot) := of_none rfl
theorem tumblerToken (t : Nat) (k : Nat) : Statement (.tumblerToken t k) := of_none rfl
theorem tumblerDrainEnd (t : Nat) (k : Nat) : Statement (.tumblerDrainEnd t k) := of_none rfl
theorem einsLookup (id : Nat) : Statement (.einsLookup id) := of_none rfl
theorem appendParent (id : Nat) : Statement (.appendParent id) := of_none rfl
theorem insertWithdraw (id : Nat) : Statement (.insertWithdraw id) := of_none rfl
theorem accept (id : Nat) : Statement (.accept id) := of_none rfl
theorem clear (id : Nat) : Statement (.clear id) := of_none rfl
theorem best (id : Nat) : Statement (.best id) := of_none rfl
theorem ecostStep (id : Nat) : Statement (.ecostStep id) := of_none rfl
theorem repair (heap : Nat) (chan : Nat) : Statement (.repair heap chan) := of_none rfl
theorem splice (id : Nat) : Statement (.splice id) := of_none rfl
theorem rehash (id : Nat) : Statement (.rehash id) := of_none rfl
theorem unindex (id : Nat) : Statement (.unindex id) := of_none rfl
theorem index (id : Nat) : Statement (.index id) := of_none rfl
theorem merge (id : Nat) : Statement (.merge id) := of_none rfl
theorem settleWave (heap : Nat) : Statement (.settleWave heap) := of_none rfl
theorem esettleAtAnchor (id : Nat) : Statement (.esettleAtAnchor id) := of_none rfl
theorem matchScan (heap : Nat) (chan : Nat) : Statement (.matchScan heap chan) := of_none rfl
theorem stowProcess (hamper : Nat) (req : Nat) : Statement (.stowProcess hamper req) := of_none rfl
theorem unstowProcess (hamper : Nat) (req : Nat) : Statement (.unstowProcess hamper req) := of_none rfl
theorem unstowPageArrive (hamper : Nat) (req : Nat) (page : Nat) :
    Statement (.unstowPageArrive hamper req page) := of_none rfl
theorem identify (c : Cmd) (buf : Nat) : Statement (.identify c buf) := of_none rfl
theorem readSensors (c : Cmd) (buf : Nat) : Statement (.readSensors c buf) := of_none rfl
theorem submitLaunch (c : Cmd) (args : LaunchArgs) : Statement (.submitLaunch c args) := of_none rfl
theorem suspendLaunch (c : Cmd) (launch : Nat) : Statement (.suspendLaunch c launch) := of_none rfl
theorem resumeLaunch (c : Cmd) (launch : Nat) : Statement (.resumeLaunch c launch) := of_none rfl
theorem killLaunch (c : Cmd) (launch : Nat) : Statement (.killLaunch c launch) := of_none rfl
theorem writeDeviceMemory (c : Cmd) (dev : Nat) (hostA : Nat) (len : Nat) (w4 : Word) :
    Statement (.writeDeviceMemory c dev hostA len w4) := of_none rfl
theorem readDeviceMemory (c : Cmd) (dev : Nat) (hostA : Nat) (len : Nat) (w4 : Word) :
    Statement (.readDeviceMemory c dev hostA len w4) := of_none rfl
theorem setRootTableAddress (c : Cmd) (a : Word) : Statement (.setRootTableAddress c a) := of_none rfl
theorem writeRootEntry (c : Cmd) (asid : BitVec 12) (e : Word) : Statement (.writeRootEntry c asid e) := of_none rfl
theorem invalidateTranslations (c : Cmd) (asid : BitVec 12) (page : Word) (ctl : Word) :
    Statement (.invalidateTranslations c asid page ctl) := of_none rfl
theorem createHeap (c : Cmd) (h : BitVec 6) (asid : BitVec 12) (w1 : Word) (w2 : Word) (seg : Word) (segsz : Word) :
    Statement (.createHeap c h asid w1 w2 seg segsz) := of_none rfl
theorem releaseHeap (c : Cmd) (h : BitVec 6) : Statement (.releaseHeap c h) := of_none rfl
theorem heapReleaseComplete (heap : Nat) : Statement (.heapReleaseComplete heap) := of_none rfl
theorem writeTurnMasks (c : Cmd) (die : Nat) (plane : Nat) (mask : BitVec 16) :
    Statement (.writeTurnMasks c die plane mask) := of_none rfl
theorem markDown (c : Cmd) (l : LinkId) : Statement (.markDown c l) := of_none rfl
theorem markUp (c : Cmd) (l : LinkId) : Statement (.markUp c l) := of_none rfl
theorem createNamespace (c : Cmd) (drive : Nat) (asid : BitVec 12) (lbas : Nat) :
    Statement (.createNamespace c drive asid lbas) := of_none rfl
theorem deleteNamespace (c : Cmd) (drive : Nat) (asid : BitVec 12) :
    Statement (.deleteNamespace c drive asid) := of_none rfl
theorem readObject (c : Cmd) (drive : Nat) (asid : BitVec 12) (obj : BitVec 48) (buf : Nat) :
    Statement (.readObject c drive asid obj buf) := of_none rfl
theorem deleteObject (c : Cmd) (drive : Nat) (asid : BitVec 12) (obj : BitVec 48) :
    Statement (.deleteObject c drive asid obj) := of_none rfl
theorem installPatch (c : Cmd) (stack : Nat) (atom : Nat) : Statement (.installPatch c stack atom) := of_none rfl
theorem scrubberControl (c : Cmd) (stack : Nat) (period : Nat) :
    Statement (.scrubberControl c stack period) := of_none rfl
theorem readCertificate (c : Cmd) (buf : Nat) : Statement (.readCertificate c buf) := of_none rfl
theorem attest (c : Cmd) (launch : Nat) (nonce : BitVec 512) (buf : Nat) :
    Statement (.attest c launch nonce buf) := of_none rfl
theorem linkReplay (l : LinkId) : Statement (.linkReplay l) := of_none rfl
theorem linkFail (l : LinkId) : Statement (.linkFail l) := of_none rfl
theorem routeDrop (id : Nat) : Statement (.routeDrop id) := of_none rfl
theorem scrubStep (stack : Nat) (atom : Nat) : Statement (.scrubStep stack atom) := of_none rfl
theorem hotListScrub (stack : Nat) : Statement (.hotListScrub stack) := of_none rfl
theorem windowRollover : Statement (.windowRollover) := of_none rfl
theorem activationAlert (chan : Nat) (bank : Nat) (postponed : Nat) (cycles : Nat) :
    Statement (.activationAlert chan bank postponed cycles) := of_none rfl
theorem temperatureReport (die : Nat) (temp : Nat) : Statement (.temperatureReport die temp) := of_none rfl
theorem powerRemoval (temp : Nat) : Statement (.powerRemoval temp) := of_none rfl
theorem coldReset (romOk : Bool) : Statement (.coldReset romOk) := of_none rfl
theorem vectorCommandStart (core : Nat) : Statement (.vectorCommandStart core) := of_none rfl
theorem insertConfirm (id : Nat) : Statement (.insertConfirm id) := of_none rfl
theorem illegalBundle (r : Illegal) (h : Part) : Statement (.illegalBundle r h) := of_none rfl
theorem invalidEntry (c : Cmd) : Statement (.invalidEntry c) := of_none rfl
theorem objectDurable (hamper : Nat) (req : Nat) : Statement (.objectDurable hamper req) := of_none rfl
theorem refreshManagementDone (chan : Nat) (bank : Nat) : Statement (.refreshManagementDone chan bank) := of_none rfl
theorem fence : Statement (.fence) := of_code rfl fun w => by
  simp only [decodeCode, decodeC, fmtReg_25_6, BitVec.reduceEq, reduceIte]
  simp only [decodeFence, fmtReg_0_7, fmtReg_7_6, fmtReg_13_6, fmtReg_19_6]
  rfl

theorem fenceR : Statement (.fenceR) := of_code rfl fun w => by
  simp only [decodeCode, decodeC, fmtReg_25_6, BitVec.reduceEq, reduceIte]
  simp only [decodeFence, fmtReg_0_7, fmtReg_7_6, fmtReg_13_6, fmtReg_19_6]
  rfl

theorem fenceOwn : Statement (.fenceOwn) := of_code rfl fun w => by
  simp only [decodeCode, decodeC, fmtReg_25_6, BitVec.reduceEq, reduceIte]
  simp only [decodeFence, fmtReg_0_7, fmtReg_7_6, fmtReg_13_6, fmtReg_19_6]
  rfl

theorem done : Statement (.done) := of_code rfl fun w => by
  simp only [decodeCode, decodeC, fmtReg_25_6, BitVec.reduceEq, reduceIte]
  simp only [decodeRemote, fmtReg_7_6, fmtReg_13_6, fmtReg_19_6, fmtReg_4_3, fmtReg_2_2, fmtReg_0_2]
  rfl

theorem home : Statement (.home) := of_code rfl fun w => by
  simp only [decodeCode, decodeC, fmtReg_25_6, BitVec.reduceEq, reduceIte]
  simp only [decodeRemote, fmtReg_7_6, fmtReg_13_6, fmtReg_19_6, fmtReg_4_3, fmtReg_2_2, fmtReg_0_2]
  rfl

theorem once : Statement (.once) := of_code (i := .once) rfl fun _ => rfl

end Sys2Proof.Laws.EncodeDecode
end

