-- ==== Sys2Proof/Tests/Slice0.lean ====
section
/-!
SUPPORT. Tests: words written out from the spec's encoding tables decode to their instructions, ill-formed terms are
refused, a state and operands meet the hypotheses of each statement, and single steps give what the spec's own
examples give.
-/

set_option Elab.async false

namespace Sys2Proof.Tests

open Sys2Proof Sys2Proof.Machine

/-! ### Benches -/

/-- Thread 1 of launch 1, in slot 0 of core 0, about to issue a bundle. -/
def bench : State := (State.reset.withBundle 0).takeTurn 0 0 1

/-- The bench with some general registers set. -/
def benchG (gs : List (BitVec 5 × Word)) : State :=
  bench.modThread 1 fun t => { t with regs := gs.foldl (fun r p => r.setG p.1 p.2) t.regs }

/-- An address of the core's own local memory, and an address of HBM. -/
def near : Word := 0x800000001FFF1000
def hbm : Word := 0x40000

/-- The bench with such addresses in g1 and g2, and the page of the second in the translation unit. -/
def benchM : State := (benchG [(1, near), (2, hbm)]).modSquare 0 fun q => { q with
  trans := [{ asid := 0, page := 4, big := false, frame := 4, x := true, w := true, rd := true }] }

/-- The bench with another thread in slot 1. -/
def bench2 (t : Thread) : State :=
  { bench with
    threads := tput bench.threads 2 t, nextTid := 3,
    cores := (bench.modSlot 0 1 fun y => { y with tid := some 2 }).cores }

/-- Each of the instructions issues. -/
def issue (s : State) (p : Part) (is : List Instr) : Bool := is.all fun i => s.issues p i

/-- What an instruction alone leaves of the thread that issued it. -/
def after (i : Instr) (s : State) : Option Thread :=
  match exec i s with
  | .next t => tget t.threads s.ctx.tid
  | _ => none

/-- The state an event or a command leaves. -/
def left (i : Instr) (s : State) : State :=
  match exec i s with
  | .next t => t
  | _ => s

/-! ### Decoding -/

/-- Each word decodes to the bundle beside it. -/
def reads (ps : List (Word × Bundle)) : Bool :=
  ps.all fun p => match decodeBundle p.1 with
    | .ok b => b == p.2
    | .error _ => false

/-- From R98, R102, R116 to R118, R133 to R135, R138. -/
theorem test_decode_control : reads [
    (0x0000000000000000, .short .nop .nop),
    (0x00000000037FFFFE, .short (.br true 3 0x1FFFFE) .nop),
    (0x0000000005FFFFFF, .short (.bra 0x1FFFFFF) .nop),
    (0x0000000006F80005, .short (.callLabel (.g 31) 5) .nop),
    (0x000000000800E000, .short (.jmp (.g 7)) .nop),
    (0x0000000008F8E001, .short (.callReg (.g 31) (.g 7)) .nop),
    (0x000000000803E002, .short (.ret (.g 31)) .nop),
    (0x000000000800A383, .short (.brt (.g 5) (.g 7)) .nop),
    (0x000000000AC00004, .short (.brq false 6 4) .nop),
    (0x000000002A000000, .short .fence .nop),
    (0x000000002A000001, .short .fenceR .nop),
    (0x000000002A000002, .short .fenceOwn .nop),
    (0x000000002A012003, .short (.fenceFar (.g 9)) .nop),
    (0x000000002C000001, .short (.bar 1) .nop),
    (0x000000003A000000, .short .done .nop),
    (0x000000003A188018, .short (.rget (.g 3) (.g 4) .takeEmpty) .nop),
    (0x000000003A0082A4, .short (.rput (.g 4) (.g 5) .fillEmpty) .nop),
    (0x000000003A008030, .short (.mig (.g 4)) .nop),
    (0x000000003A000040, .short .home .nop)] := by
  decide

/-- From R95, R98, R125, R128, R130. -/
theorem test_decode_memory : reads [
    (0x000000001040A7FF, .short (.ld .b (.r (.g 8)) (.g 5) .plain 0x7FF) .nop),
    (0x000000003040A300, .short (.ldIdx .b (.r (.g 8)) (.g 5) (.g 6) .plain .x1) .nop),
    (0x000000002040A001, .short (.st .b (.r (.g 8)) (.g 5) .plain 1) .nop),
    (0x000000004040A300, .short (.stIdx .b (.r (.g 8)) (.g 5) (.g 6) .plain .x1) .nop),
    (0x000000001240AFFF, .short (.ld .h (.r (.g 8)) (.g 5) .waitFull 0x7FF) .nop),
    (0x000000003240A324, .short (.ldIdx .h (.r (.g 8)) (.g 5) (.g 6) .waitFull .x2) .nop),
    (0x000000002350A801, .short (.st .h (.r (.sp .square)) (.g 5) .fillEmpty 1) .nop),
    (0x000000004240A324, .short (.stIdx .h (.r (.g 8)) (.g 5) (.g 6) .fillEmpty .x2) .nop),
    (0x000000001440B7FF, .short (.ld .w (.r (.g 8)) (.g 5) .takeEmpty 0x7FF) .nop),
    (0x000000003440A348, .short (.ldIdx .w (.r (.g 8)) (.g 5) (.g 6) .takeEmpty .x4) .nop),
    (0x000000002440B001, .short (.st .w (.r (.g 8)) (.g 5) .setFull 1) .nop),
    (0x000000004440A348, .short (.stIdx .w (.r (.g 8)) (.g 5) (.g 6) .setFull .x4) .nop),
    (0x000000001640A7FF, .short (.ld .d (.r (.g 8)) (.g 5) .plain 0x7FF) .nop),
    (0x000000003710A30C, .short (.ldIdx .d (.r (.q 2)) (.g 5) (.g 6) .plain .x8) .nop),
    (0x000000002640A001, .short (.st .d (.r (.g 8)) (.g 5) .plain 1) .nop),
    (0x000000004640A30C, .short (.stIdx .d (.r (.g 8)) (.g 5) (.g 6) .plain .x8) .nop),
    (0x00000000183BF003, .short (.ld .v (.v 7) (.g 31) .takeEmpty 3) .nop),
    (0x00000000383BE090, .short (.ldIdx .v (.v 7) (.g 31) (.g 1) .plain .x32) .nop),
    (0x00000000283BF003, .short (.st .v (.v 7) (.g 31) .setFull 3) .nop),
    (0x00000000483BE090, .short (.stIdx .v (.v 7) (.g 31) (.g 1) .plain .x32) .nop),
    (0x000000001A00A7FE, .short (.feClr (.g 5) 0x7FE) .nop),
    (0x000000001C106200, .short (.amo (.g 2) (.g 3) (.g 4) .add .core 0) .nop),
    (0x000000001C106215, .short (.amo (.g 2) (.g 3) (.g 4) .and .device 1) .nop),
    (0x000000001C10622A, .short (.amo (.g 2) (.g 3) (.g 4) .or .host 2) .nop),
    (0x000000001C106233, .short (.amo (.g 2) (.g 3) (.g 4) .xor .core 3) .nop),
    (0x000000001C106244, .short (.amo (.g 2) (.g 3) (.g 4) .min .device 0) .nop),
    (0x000000001C106259, .short (.amo (.g 2) (.g 3) (.g 4) .max .host 1) .nop),
    (0x000000001C106262, .short (.amo (.g 2) (.g 3) (.g 4) .swap .core 2) .nop),
    (0x000000001C106277, .short (.amo (.g 2) (.g 3) (.g 4) .cas .device 3) .nop),
    (0x000000001E00625B, .short (.red (.g 3) (.g 4) .max .host 3) .nop)] := by
  decide

/-- From R99, R119 to R124. -/
theorem test_decode_integer : reads [
    (0x0208518500000000, .short .nop (.add (.g 1) (.g 2) (.q 3) true false true)),
    (0x0208518B00000000, .short .nop (.sub (.g 1) (.g 2) (.q 3) false true true)),
    (0x0208519000000000, .short .nop (.andR (.g 1) (.g 2) (.q 3))),
    (0x0208519800000000, .short .nop (.orR (.g 1) (.g 2) (.q 3))),
    (0x020851A000000000, .short .nop (.xorR (.g 1) (.g 2) (.q 3))),
    (0x020851A800000000, .short .nop (.andn (.g 1) (.g 2) (.q 3))),
    (0x020851B000000000, .short .nop (.shl (.g 1) (.g 2) (.q 3))),
    (0x020851B800000000, .short .nop (.shr (.g 1) (.g 2) (.q 3))),
    (0x020851C000000000, .short .nop (.sar (.g 1) (.g 2) (.q 3))),
    (0x020851CA00000000, .short .nop (.minR (.g 1) (.g 2) (.q 3) true false)),
    (0x020851D100000000, .short .nop (.maxR (.g 1) (.g 2) (.q 3) false true)),
    (0x0408518600000000, .short .nop (.mul (.g 1) (.g 2) (.q 3) true true false)),
    (0x0408518B00000000, .short .nop (.mulh (.g 1) (.g 2) (.q 3) true true)),
    (0x0408519000000000, .short .nop (.div (.g 1) (.g 2) (.q 3) false false)),
    (0x0408519B00000000, .short .nop (.rem (.g 1) (.g 2) (.q 3) true true)),
    (0x0600518000000000, .short .nop (.cmp 0 (.g 2) (.q 3) .eq .i64)),
    (0x2000400000000000, .short .nop (.cmpImm 0 (.g 2) 0 .eq .i64)),
    (0x0608519400000000, .short .nop (.cmp 1 (.g 2) (.q 3) .ne .n64)),
    (0x22485FFF00000000, .short .nop (.cmpImm 1 (.g 2) 8191 .ne .n64)),
    (0x061051A800000000, .short .nop (.cmp 2 (.g 2) (.q 3) .lt .i32)),
    (0x24905FFE00000000, .short .nop (.cmpImm 2 (.g 2) 8190 .lt .i32)),
    (0x061851BC00000000, .short .nop (.cmp 3 (.g 2) (.q 3) .le .n32)),
    (0x26D85FFD00000000, .short .nop (.cmpImm 3 (.g 2) 8189 .le .n32)),
    (0x062051C000000000, .short .nop (.cmp 4 (.g 2) (.q 3) .gt .i64)),
    (0x21205FFC00000000, .short .nop (.cmpImm 4 (.g 2) 8188 .gt .i64)),
    (0x062851D400000000, .short .nop (.cmp 5 (.g 2) (.q 3) .ge .n64)),
    (0x23685FFB00000000, .short .nop (.cmpImm 5 (.g 2) 8187 .ge .n64)),
    (0x0849458A00000000, .short .nop (.sel (.g 9) (.g 10) (.g 11) true 2)),
    (0x0A08518000000000, .short .nop (.extN64 (.g 1) (.g 2) (.q 3))),
    (0x0A08519000000000, .short .nop (.extI64 (.g 1) (.g 2) (.q 3))),
    (0x0A0851A000000000, .short .nop (.ins (.g 1) (.g 2) (.q 3))),
    (0x0A0D003000000000, .short .nop (.clz (.g 1) (.sp .slot))),
    (0x0A0D204000000000, .short .nop (.ctz (.g 1) (.sp .core))),
    (0x0A0D405000000000, .short .nop (.popc (.g 1) (.sp .square))),
    (0x1008500000000000, .short .nop (.addImm (.g 1) (.g 2) 0x1000)),
    (0x1008000900000000, .short .nop (.mov (.g 1) (.g 0) 9)),
    (0x1008400000000000, .short .nop (.mov (.g 1) (.g 2) 0)),
    (0x1208400100000000, .short .nop (.andImm (.g 1) (.g 2) 1)),
    (0x1408400200000000, .short .nop (.orImm (.g 1) (.g 2) 2)),
    (0x1608400300000000, .short .nop (.xorImm (.g 1) (.g 2) 3)),
    (0x1808403F00000000, .short .nop (.shlImm (.g 1) (.g 2) 63)),
    (0x1A08403E00000000, .short .nop (.shrImm (.g 1) (.g 2) 62)),
    (0x1C08403D00000000, .short .nop (.sarImm (.g 1) (.g 2) 61)),
    (0x1E085FFF00000000, .short .nop (.mulImm (.g 1) (.g 2) 0x1FFF))] := by
  decide

/-- From R96, R97, R104, R192, R148. -/
theorem test_decode_system : reads [
    (0x0000000080000000, .lone .once),
    (0x456789AB82188123, .lone (.li (.g 3) .sign 0x8123456789AB)),
    (0x456789AB821A8123, .lone (.li (.g 3) .zero 0x8123456789AB)),
    (0x456789AB821C8123, .lone (.li (.g 3) .localSpace 0x8123456789AB)),
    (0x0000FFFF84000000, .lone (.trap 0xFFFF)),
    (0x0000000084004001, .lone (.tret (.g 2))),
    (0x0000000084180002, .lone (.sysr (.g 3) .status)),
    (0x0000000184006003, .lone (.sysw .tags (.g 3))),
    (0x0000000284180002, .lone (.sysr (.g 3) .tagerr)),
    (0x0000000384006003, .lone (.sysw .fmtp (.g 3))),
    (0x0000000484180002, .lone (.sysr (.g 3) .sclp)),
    (0x0000000584006003, .lone (.sysw .quant (.g 3))),
    (0x0000000684180002, .lone (.sysr (.g 3) .ownq)),
    (0x0000000784006003, .lone (.sysw .lmflt (.g 3))),
    (0x0000000884180002, .lone (.sysr (.g 3) .lmaddr)),
    (0x0000000984006003, .lone (.sysw .fexc (.g 3))),
    (0x0000000A84180002, .lone (.sysr (.g 3) .ftrap)),
    (0x0000000C84180002, .lone (.sysr (.g 3) .asid)),
    (0x0000000D84006003, .lone (.sysw .level (.g 3))),
    (0x0000000E84180002, .lone (.sysr (.g 3) .clock)),
    (0x0000000984180002, .lone (.sysrFexc (.g 3))),
    (0x0000000B84006003, .lone (.syswItin (.g 3))),
    (0x0000000084006204, .lone (.spill (.g 3) (.g 4))),
    (0x0000000084006205, .lone (.fill (.g 3) (.g 4))),
    (0x0000000084006206, .lone (.tlbinv (.g 3) (.g 4))),
    (0x0000000084006007, .lone (.idle (.g 3)))] := by
  decide

/-- From R136, R141, R192. -/
theorem test_decode_tasks : reads [
    (0x00000000865160B5, .lone (.send (.g 10) (.g 11) (.g 1) 3 5)),
    (0xFFFFFFFF8810C000, .lone (.spawn 2 (.g 6) 3 0x3FFFFFFF)),
    (0x000000008800C001, .lone (.sync (.g 6))),
    (0x000000008800C002, .lone (.syncEnd (.g 6))),
    (0x000000018810C003, .lone (.post 2 (.g 6) 1)),
    (0x0000000288000004, .lone (.steal 2)),
    (0x000000058A880000, .lone (.tnum (.g 17) 5)),
    (0x0000001F8A00C001, .lone (.tnset 31 (.g 6))),
    (0x000000048A000002, .lone (.tndrain 4)),
    (0x000000048A00C003, .lone (.tnsave 4 (.g 6))),
    (0x000000048A00C004, .lone (.tnload 4 (.g 6))),
    (0x000000008C018000, .lone (.stow (.g 12))),
    (0x000000008C018001, .lone (.unstow (.g 12)))] := by
  decide

/-- From R192. -/
theorem test_decode_heap : reads [
    (0x0000000290190000, .lone (.eins (.g 3) (.g 8) 2)),
    (0x0000003F92190000, .lone (.efind (.g 3) (.g 8) 63)),
    (0x000000029420A300, .lone (.emrg (.g 4) (.g 5) (.g 6) 2)),
    (0x000000029620A300, .lone (.eeq (.g 4) (.g 5) (.g 6) 2)),
    (0x0000000798000000, .lone (.esettle 7)),
    (0x000000029A20A000, .lone (.ematch (.g 4) (.g 5) 2)),
    (0x000000029C20A300, .lone (.ecost (.g 4) (.g 5) (.g 6) 2)),
    (0x000000029E50A000, .lone (.enode (.g 10) (.g 5) 2)),
    (0x00000002A050A000, .lone (.eclass (.g 10) (.g 5) 2))] := by
  decide

/-- From R174, R176, R180, R187, R190. -/
theorem test_decode_matrix : reads [
    (0x00000000B0108280, .lone (.mma 2 (.g 4) (.g 5) .f16 false 0)),
    (0x00000007B0108290, .lone (.mma 2 (.g 4) (.g 5) .bf16 false 7)),
    (0x0000000EB01082A0, .lone (.mma 2 (.g 4) (.g 5) .c8 false 14)),
    (0x00000015B01082B8, .lone (.mma 2 (.g 4) (.g 5) .i8 true 21)),
    (0x0000001CB01082C8, .lone (.mma 2 (.g 4) (.g 5) .n8 true 28)),
    (0x00000000B2180038, .lone (.mrot 3 .i8 true)),
    (0x00000001B21882A0, .lone (.mrotMem 3 (.g 4) (.g 5) .c8 false)),
    (0x00000000B4280000, .lone (.mzero 5)),
    (0x00000007B6182000, .lone (.mmovF32ToV 3 1 7)),
    (0x00000206B6182010, .lone (.mmovBf16ToV 3 1 6 .rd)),
    (0x00000304B6182020, .lone (.mmovF16ToV 3 1 4 .ru)),
    (0x00000000B600C0B0, .lone (.mmovF32Store (.g 6) 1)),
    (0x00000100B600C0C0, .lone (.mmovBf16Store (.g 6) 1 .rz)),
    (0x00000000B600C0D0, .lone (.mmovF16Store (.g 6) 1 .rn)),
    (0x00000000B610C060, .lone (.mmovF32Load 2 (.g 6))),
    (0x00000000B8180000, .lone (.mtab 3)),
    (0x0000003FC0008000, .lone (.cpy 63 4)),
    (0x00000000C2030000, .lone (.cwait (.g 24))),
    (0x00000000C42B0000, .lone (.cany (.g 5) (.g 24))),
    (0x00000000C62B0000, .lone (.cfirst (.g 5) (.g 24)))] := by
  decide

/-- From R160 to R163. -/
theorem test_decode_vector : reads [
    (0x00000008D0088280, .lone (.vaddF .f16 .rn 1 4 5)),
    (0x00000109D0088281, .lone (.vsubF .bf16 .rz 1 4 5)),
    (0x0000020AD0088282, .lone (.vmulF .f32 .rd 1 4 5)),
    (0x00000308D0088283, .lone (.vdiv .f16 .ru 1 4 5)),
    (0x0000180AD0100084, .lone (.vfma .f32 .rn 2 0 1 3)),
    (0x00000008D0088285, .lone (.vminF .f16 1 4 5)),
    (0x00000009D0088286, .lone (.vmaxF .bf16 1 4 5)),
    (0x0000030AD0088007, .lone (.vsqrt .f32 .ru 1 4)),
    (0x00000008D0088008, .lone (.vneg .f16 1 4)),
    (0x00000009D0088009, .lone (.vabs .bf16 1 4)),
    (0x00000008D008828A, .lone (.vcmpEq .f16 1 4 5)),
    (0x00000009D008828B, .lone (.vcmpLt .bf16 1 4 5)),
    (0x0000000AD008828C, .lone (.vcmpLe .f32 1 4 5)),
    (0x00000008D008828D, .lone (.vcmpUn .f16 1 4 5)),
    (0x00000000D2088280, .lone (.vaddI .i8 false 1 4 5)),
    (0x00000401D2088281, .lone (.vsubI .i16 true 1 4 5)),
    (0x00000002D2088282, .lone (.vmulI .i32 false 1 4 5)),
    (0x00000000D2088283, .lone (.vminI .i8 1 4 5)),
    (0x00000001D2088284, .lone (.vmaxI .i16 1 4 5)),
    (0x00000002D2088285, .lone (.vand .i32 1 4 5)),
    (0x00000003D2088286, .lone (.vor .i64 1 4 5)),
    (0x00000004D2088287, .lone (.vxor .n8 1 4 5)),
    (0x00000005D2088288, .lone (.vshl .n16 1 4 5)),
    (0x00000006D2088289, .lone (.vshr .n32 1 4 5)),
    (0x00000007D208828A, .lone (.vsar .n64 1 4 5))] := by
  decide

/-- From R160, R164 to R170. -/
theorem test_decode_vector_moves : reads [
    (0x000042A8D4088000, .lone (.vcvt (.flt .f16) (.flt .f32) .rd false 1 4 1)),
    (0x0000C403D4088000, .lone (.vcvt (.int .i64) (.int .i8) .rn true 1 4 3)),
    (0x000641B9D4084181, .lone (.vdec .bf16 .rz 1 2 3 3 1)),
    (0x000A80ABD4180382, .lone (.venc true 3 0 7 1 2)),
    (0x0004C30AD6180380, .lone (.vscl .ru 3 0 7 2 3)),
    (0x0004C00AD6180001, .lone (.vsauto 3 0 2 3)),
    (0x00000405D8488000, .lone (.vsum (.int .n16) .rn true (.g 9) 4)),
    (0x0000010AD8488000, .lone (.vsum (.flt .f32) .rz false (.g 9) 4)),
    (0x00000003D8488001, .lone (.vrmax (.int .i64) (.g 9) 4)),
    (0x00000008D8488002, .lone (.vrmin (.flt .f16) (.g 9) 4)),
    (0x00000000DA088280, .lone (.vperm 1 4 5)),
    (0x00000007DA092001, .lone (.vbcast (.int .n64) 1 (.g 9))),
    (0x0007C000DA488002, .lone (.vext (.int .i8) (.g 9) 4 31)),
    (0x0001C00ADA092003, .lone (.vins (.flt .f32) 1 (.g 9) 7)),
    (0x00003000DA088284, .lone (.vsel 1 4 5 6)),
    (0x00000000DA088005, .lone (.vmov 1 4)),
    (0x0000000ADC088000, .lone (.vrcp 1 4)),
    (0x0000000ADC088001, .lone (.vrsqrt 1 4)),
    (0x0000000ADC088002, .lone (.vexp2 1 4))] := by
  decide

/-- What is refused, and in which half. -/
def refusal (w : Word) : Option (Illegal × Part) :=
  match decodeBundle w with
  | .ok _ => none
  | .error e => some e


/-! ### Ill-formed terms are refused -/

theorem smoke_width : wellFormed (.ld .d (.v 1) (.g 1) .plain 0) = false ∧ wellFormed (.st .v (.r (.g 1)) (.g 1) .plain 0) = false
    ∧ wellFormed (.ldIdx .v (.r (.g 1)) (.g 1) (.g 2) .plain .x1) = false
    ∧ wellFormed (.stIdx .b (.v 1) (.g 1) (.g 2) .plain .x1) = false := by decide

theorem smoke_operation : wellFormed (.red (.g 1) (.g 2) .cas .core 0) = false ∧ wellFormed (.red (.g 1) (.g 2) .swap .core 0) = false := by
  decide

theorem smoke_mov : wellFormed (.addImm (.g 1) (.g 0) 9) = false ∧ wellFormed (.mov (.g 1) (.g 2) 1) = false := by decide

theorem smoke_system : wellFormed (.sysr (.g 1) .fexc) = false ∧ wellFormed (.sysw .itin (.g 1)) = false
    ∧ wellFormed (.send (.g 1) (.g 2) (.g 3) 7 0) = false ∧ wellFormed (.send (.g 1) (.g 2) (.g 3) 0 0) = false := by decide

theorem smoke_matrix : wellFormed (.mma 0 (.g 1) (.g 2) .f16 true 0) = false ∧ wellFormed (.mrot 0 .c8 true) = false
    ∧ wellFormed (.mrotMem 0 (.g 1) (.g 2) .bf16 true) = false ∧ wellFormed (.mmovBf16ToV 0 0 1 .rn) = false
    ∧ wellFormed (.mmovF16ToV 0 0 7 .rn) = false := by decide

theorem smoke_vector : wellFormed (.vcvt (.flt .f32) (.flt .f32) .rn false 0 0 1) = false
    ∧ wellFormed (.vcvt (.int .i8) (.int .i16) .rz false 0 0 0) = false ∧ wellFormed (.vcvt (.flt .f16) (.int .i8) .rn true 0 0 0) = false
    ∧ wellFormed (.vdec .f16 .rn 0 0 0 0 2) = false ∧ wellFormed (.vsum (.int .i8) .rz false (.g 1) 0) = false
    ∧ wellFormed (.vsum (.flt .f32) .rn true (.g 1) 0) = false ∧ wellFormed (.vext (.flt .f32) (.g 1) 0 8) = false
    ∧ wellFormed (.vins (.int .i64) 0 (.g 1) 4) = false := by decide

theorem smoke_device : wellFormed (.vectorComplete coreCount) = false ∧ wellFormed (.mrotSliceArrive coreCount true) = false
    ∧ wellFormed (.copyAccess coreCount 0 0) = false ∧ wellFormed (.heldRecordEnter (coreCount + 256)) = false
    ∧ wellFormed (.ringStall coreCount) = false ∧ wellFormed (.taskTake 0 15) = false ∧ wellFormed (.idleTimeout 0 16) = false
    ∧ wellFormed (.contextReadyTimeout coreCount 0) = false ∧ wellFormed (.tumblerToken 32 0) = false
    ∧ wellFormed (.repair 0 256) = false ∧ wellFormed (.settleWave 64) = false ∧ wellFormed (.stowProcess 4 0) = false
    ∧ wellFormed (.writeTurnMasks { sc := 0, cid := 0, cw := 0 } 0 6 0) = false := by decide

/-- Reserved values of `fn`, `fe`, `sc`, `cc`, `hx`, `ext` and of register fields (R101). -/
theorem test_reserved_fields : refusal 0x08000004 = some (.function, .c) ∧ refusal 0x1641B800 = some (.field, .c)
    ∧ refusal 0x30000014 = some (.field, .c) ∧ refusal 0x2180000000000000 = some (.field, .a)
    ∧ refusal 0x82060000 = some (.field, .lone) ∧ refusal 0x84000008 = some (.function, .lone)
    ∧ refusal 0x0000000F84080002 = some (.field, .lone)
    ∧ refusal 0x86180000 = none ∧ refusal 0x87800000 = some (.register, .lone) ∧ refusal 0x00000001 = some (.field, .c) := by decide

/-! ### The spec's own examples and corner cases -/

/-- The table `.c8table mirror, 0.0, 0.25, 0.5, 0.75, 1.0, 1.25, 1.5, 1.75, rep(120, 2.0)` of the worked example. -/
def mirror : BitVec 8192 :=
  let half (k : Nat) : Nat := [0, 0x3E800000, 0x3F000000, 0x3F400000, 0x3F800000, 0x3FA00000, 0x3FC00000,
    0x3FE00000].getD k 0x40000000
  BitVec.ofNat 8192 (packElems 32 ((List.range 256).map fun c => half (c % 128) + c / 128 * 0x80000000))

/-- A table whose entry 0 is the given one. -/
def oneEntry (e : Nat) : BitVec 8192 := BitVec.ofNat 8192 e

/-- Worked example of encode ties (R78): code and flags of 5.5, −4.5, 5.25 and 9.0 at scale byte 0x81. -/
theorem test_c8_encode : ([0x40B00000, 0xC0900000, 0x40A80000, 0x41100000].map fun x => encodeC8 mirror x 0x81) =
    [(0x06, nx), (0x84, nx), (0x05, nx), (0x08, nx ||| off)] := by decide +kernel

/-- The same example: `AutoScale` of the four is 0x82, with the codes 0x03, 0x82, 0x03 and 0x04. -/
theorem test_c8_scale : autoScale mirror [0x40B00000, 0xC0900000, 0x40A80000, 0x41100000] = 0x82
    ∧ ([0x40B00000, 0xC0900000, 0x40A80000, 0x41100000].map fun x => (encodeC8 mirror x 0x82).1) =
      [0x03, 0x82, 0x03, 0x04] := by decide +kernel

/-- Worked example of decode at the edge of range (R74). -/
theorem test_c8_decode : decodeC8 fp32 .rn (oneEntry 0x3FE00000) 0 0 = (0x00700000, 0)
    ∧ decodeC8 fp32 .rn (oneEntry 0x35802000) 0 0 = (4, uf ||| nx)
    ∧ decodeC8 fp32 .rn (oneEntry 0x3FC00000) 0 0xFE = (0x7F400000, 0)
    ∧ decodeC8 fp32 .rn (oneEntry 0x40600000) 0 0xFE = (0x7F800000, off ||| nx) := by decide +kernel

/-- Worked example of the truncation window (R81): eight products 1.25·2^−27, then 1·(−1) and 1·2^−30. -/
theorem test_group_window :
    groupSum 0x3F800000 (List.replicate 8 (bf16.decode 0x3FA0, bf16.decode 0x3200)) = (0x3F800000, 0)
    ∧ groupSum 0x3F800000 [(bf16.decode 0x3F80, bf16.decode 0xBF80), (bf16.decode 0x3F80, bf16.decode 0x3080)] =
      (0, 0) := by decide +kernel

/-- The record of R186's example: words 0 to 11, its base zero. -/
def record : Layout := Layout.ofWords [0, 0x9303200000000000, 0x0000002800000018, 0x0000000600000000,
  0x0000000000100008, 0x0002000000000000, 0x00000028000003C0, 0, 0x0000002000000010, 0x0000000400000000, 0, 0]

/-- Example of R186: positions (5, 3, 1) and (9, 3, 1). -/
theorem test_layout : record.inside 181 = true ∧ record.addr 181 = 0x2BBA ∧ record.localOff 181 = 0x210A
    ∧ record.inside 185 = false ∧ record.localOff 185 = 0x2112 := by decide +kernel

/-- Examples of R114: east 12 then north 5; west 3, hub 2, north 1. -/
theorem test_itineraries : parseItinerary 0x54C 0 = some [.run 0 12, .run 1 5]
    ∧ parseItinerary 0x9000000000011823 0 = some [.run 2 3, .hub 2, .run 1 1] := by decide +kernel

/-- The check value of the checksum's standard polynomial over the nine digits (R85). -/
theorem test_checksum : crc32c ([0x31, 0x32, 0x33, 0x34, 0x35, 0x36, 0x37, 0x38, 0x39]) = 0xE3069283 := by decide +kernel

/-- What an instruction leaves in g3 and in FEXC. -/
def made (i : Instr) (s : State) : Option (Word × FlagBits) := (after i s).map fun t => (t.regs.g[3], t.fexc)

/-- A bench with two operands. -/
def two (x y : Word) : State := benchG [(1, x), (2, y)]

/-- R119: a saturating sum clamps and raises `sv`; a wrapping one raises nothing. -/
theorem test_add : made (.add (.g 3) (.g 1) (.g 2) true false true) (two 0x7FFFFFFF 1) = some (0x7FFFFFFF, sv)
    ∧ made (.add (.g 3) (.g 1) (.g 2) false false true) (two 0x7FFFFFFF 1) = some (0xFFFFFFFF80000000, 0) := by
  decide +kernel

theorem test_sub : made (.sub (.g 3) (.g 1) (.g 2) true true false) (two 1 2) = some (0, sv)
    ∧ made (.sub (.g 3) (.g 1) (.g 2) false true true) (two 1 2) = some (0xFFFFFFFF, 0) := by decide +kernel

theorem test_mulh : made (.mulh (.g 3) (.g 1) (.g 2) false false) (two (-1) 2) = some (-1, 0)
    ∧ made (.mulh (.g 3) (.g 1) (.g 2) true false) (two (-1) 2) = some (1, 0) := by decide +kernel

/-- R120: division by zero gives 0 and `dz`; the most negative number by −1 gives itself. -/
theorem test_div : made (.div (.g 3) (.g 1) (.g 2) false false) (two 5 0) = some (0, dz)
    ∧ made (.div (.g 3) (.g 1) (.g 2) false false) (two 0x8000000000000000 (-1)) = some (0x8000000000000000, 0) := by
  decide +kernel

theorem test_rem : made (.rem (.g 3) (.g 1) (.g 2) false false) (two (-7) 2) = some (-1, 0)
    ∧ made (.rem (.g 3) (.g 1) (.g 2) false false) (two 5 0) = some (5, dz) := by decide +kernel

/-- R119: shifts by the width and more. -/
theorem test_shifts : made (.shl (.g 3) (.g 1) (.g 2)) (two 1 64) = some (0, 0)
    ∧ made (.shr (.g 3) (.g 1) (.g 2)) (two (-1) 63) = some (1, 0)
    ∧ made (.sar (.g 3) (.g 1) (.g 2)) (two 0x8000000000000000 200) = some (-1, 0) := by decide +kernel

/-- R124: fields, and counts of zero. -/
theorem test_fields : made (.extN64 (.g 3) (.g 1) (.g 2)) (two 0xABCD 0x0804) = some (0xBC, 0)
    ∧ made (.extI64 (.g 3) (.g 1) (.g 2)) (two 0xABCD 0x0804) = some (0xFFFFFFFFFFFFFFBC, 0)
    ∧ made (.clz (.g 3) (.g 1)) (two 0 0) = some (64, 0) ∧ made (.ctz (.g 3) (.g 1)) (two 0x50 0) = some (4, 0)
    ∧ made (.popc (.g 3) (.g 1)) (two 0xF0F 0) = some (8, 0) := by decide +kernel

/-- R65, R69: single operations of FP32: 1 + 2^−24 ties to even; 1 over 0; the square root of −1. -/
theorem test_floats : fp32.add .rn 0x3F800000 0x33800000 = (0x3F800000, nx)
    ∧ fp32.div .rn 0x3F800000 0 = (0x7F800000, dz) ∧ fp32.sqrt .rn 0xBF800000 = (0x7FC00000, nv)
    ∧ fp32.sqrt .rn 0x40800000 = (0x40000000, 0) ∧ fp32.fma .rn 0x40000000 0x40400000 0x3F800000 = (0x40E00000, 0) := by
  decide +kernel

/-- R9: multi-byte values stand in memory least significant byte first. -/
theorem test_byte_order : readByte (writeLE [] 8 4 0x11223344) 8 = 0x44 ∧ readLE (writeLE [] 8 4 0x11223344) 9 2 = 0x2233 := by
  decide

/-! ### Witnesses: the hypotheses of the statements can be met -/

theorem witness_encoded : wellFormed .once ∧ encode .once = some (.lone 0x80000000 0)
    ∧ wellFormed (.jmp (.g 1)) ∧ encode (.jmp (.g 1)) = some (.c 0x08002000)
    ∧ encode (.clz (.g 1) (.g 2)) = some (.a 0x0A084030) := by decide

theorem witness_reserved : refusal 0x0C000000 = some (.opcode, .c) ∧ refusal 0x7E000000 = some (.opcode, .c)
    ∧ refusal 0x8000000000000000 = some (.field, .a) ∧ refusal 0x2800000000000000 = some (.opcode, .a)
    ∧ refusal 0x8E000000 = some (.opcode, .lone) ∧ refusal 0xFE000000 = some (.opcode, .lone)
    ∧ refusal 0x0BF8000000000000 = some (.register, .a) := by decide

theorem witness_step :
    let s := State.reset.withBundle 0
    s.plan = [] ∧ s.halted = false ∧ s.unpowered = false ∧ s.turn = [0] ∧ s.eligible 0 0 ∧ (s.slot 0 0).tid = some 1
      ∧ (bench.fetch bench.me.pc false).2 = some 0 := by decide

theorem witness_step_miss :
    ((benchG []).modThread 1 fun t => { t with pc := 0x1000 }).me.pc = 0x1000
      ∧ (((benchG []).modThread 1 fun t => { t with pc := 0x1000 }).fetch 0x1000 false).2 = none := by decide

theorem witness_step_rest : ∀ n < 16, (State.reset.withBundle 0).eligible 1 n = false := by decide

theorem witness_form : (memWf State.reset.mem ∧ risingNat State.reset.empt) ∧ ∃ t, step State.reset = .next t :=
  ⟨by decide, _, rfl⟩

theorem witness_integer : issue (benchG [(2, 7)]) .a [.add (.g 1) (.g 2) (.g 3) true false true,
    .sub (.g 1) (.g 2) (.g 3) false true false, .mul (.g 0) (.g 2) (.g 3) true true true,
    .minR (.g 1) (.g 2) (.g 3) true false, .maxR (.g 1) (.g 2) (.g 3) false true, .mulh (.g 1) (.g 2) (.g 3) false false,
    .div (.g 1) (.g 3) (.g 2) false false, .rem (.g 1) (.g 3) (.g 2) false false,
    .div (.g 1) (.g 2) (.g 3) true true, .rem (.g 1) (.g 2) (.g 3) true true] := by decide

theorem witness_word : issue bench .a [.andR (.g 1) (.g 2) (.g 3), .orR (.g 1) (.g 2) (.g 3), .xorR (.g 1) (.g 2) (.g 3),
      .andn (.g 1) (.g 2) (.g 3), .shl (.g 1) (.g 2) (.g 3), .shr (.g 1) (.g 2) (.g 3), .sar (.g 1) (.g 2) (.g 3),
      .addImm (.g 1) (.g 2) 1, .mov (.g 1) (.g 0) 1, .andImm (.g 1) (.g 2) 1, .orImm (.g 1) (.g 2) 1,
      .xorImm (.g 1) (.g 2) 1, .mulImm (.g 1) (.g 2) 1, .shlImm (.g 1) (.g 2) 63, .shrImm (.g 1) (.g 2) 63,
      .sarImm (.g 1) (.g 2) 63, .add (.q 4) (.g 1) (.sp .slot) false false false]
    ∧ issue bench .lone [.li (.g 1) .sign 1, .li (.g 1) .zero 1, .li (.g 1) .localSpace 1] := by decide

/-- `nop` at a bundle boundary; `ins` with a destination that is no general register; a reserved bit of `fn`. -/
theorem witness_nop : bench.atBundle ∧ registerClass .nop = some none ∧ encode (.bar 1) = some (.c 0x2C000001)
    ∧ wellFormed (.bar 1) ∧ encode (.clz (.g 1) (.g 2)) = some (.a 0x0A084030) ∧ (1 : Half32).extractLsb' 25 7 = 0
    ∧ (0x01#7).getLsbD 0 ∧ regField 36 = .ok (.q 4) ∧ ∀ n, Reg.q 4 ≠ .g n :=
  ⟨by decide, by decide, by decide, by decide, by decide, by decide, by decide, rfl, fun _ => nofun⟩

theorem witness_bits : issue bench .a [.extN64 (.g 1) (.g 2) (.g 3), .extI64 (.g 1) (.g 2) (.g 3),
    .ins (.g 1) (.g 2) (.g 3), .clz (.g 1) (.g 2), .ctz (.g 1) (.g 2), .popc (.g 1) (.g 2)] := by decide

theorem witness_compare : issue bench .a [.cmp 1 (.g 2) (.g 3) .eq .i64, .cmp 0 (.g 2) (.g 3) .lt .n32,
    .cmpImm 7 (.g 2) 0x1FFF .ge .n64, .sel (.g 1) (.g 2) (.g 3) true 2] := by decide

theorem witness_available : bench.atBundle ∧ registerClass (.jmp (.g 1)) = some (some (.g 1))
    ∧ (∀ o ∈ operands (.jmp (.g 1)), bench.available o) ∧ (bench.value (.g 1)).toNat % 8 = 0
    ∧ registerClass (.clz (.q 4) (.sp .slot)) = some none
    ∧ ∀ o ∈ operands (.clz (.q 4) (.sp .slot)), bench.available o := by decide

/-- A `g` pair at an odd register; g8 where 8 are allocated; a send away from home; a source that is empty. -/
theorem witness_traps :
    let i : Instr := .enode (.g 3) (.g 1) 0
    let few := bench.modThread 1 fun t => { t with gregs := 8 }
    let out := bench.modThread 1 fun t => { t with homeCore := 1 }
    let dry := bench.modThread 1 fun t => { t with regs := t.regs.emptyDst 2 }
    isInstruction i ∧ bench.atBundle ∧ (∃ o ∈ operands i, (bench.opening .lone i).operandOk o = false)
      ∧ (few.opening .a (.clz (.g 1) (.g 8))).illegalOperand (.clz (.g 1) (.g 8)) = none
      ∧ (operands (.clz (.g 1) (.g 8))).findSome? few.me.unbound = some 8
      ∧ out.me.away ∧ homeOnlyInstr (.cwait (.g 1)) ∧ (out.opening .lone (.cwait (.g 1))).illegalOperand (.cwait (.g 1)) = none
      ∧ (∀ o ∈ operands (.cwait (.g 1)), out.me.unbound o = none)
      ∧ (dry.opening .a (.clz (.g 1) (.g 2))).issueChecks [(.a, .clz (.g 1) (.g 2))] = none
      ∧ (dry.opening .a (.clz (.g 1) (.g 2))).bindStop (.clz (.g 1) (.g 2)) = none
      ∧ (operands (.clz (.g 1) (.g 2))).findSome? (dry.opening .a (.clz (.g 1) (.g 2))).operandWait = some (.gFull 2) := by
  decide

theorem witness_transfers :
    let s := bench.modCore 0 fun c => { c with ports := #v[[1], [], [], []] }
    issue s .c [.nop, .br true 1 6, .bra 1, .brq false 4 6, .jmp (.g 1), .ret (.g 31), .brt (.g 1) (.g 2),
      .callLabel (.g 31) 2, .callLabel (.g 0) 2, .callReg (.g 31) (.g 1)] := by decide

/-- A packet in flight as number 5. -/
def flying (b : Body) (s : State) : State := { s with net := [(5, b)], nextId := 6 }

/-- An access of the bench's thread to word 0x1000 of its core's local memory. -/
def access (k : AccKind) (n : Nat) : Access :=
  { kind := k, size := n, key := localKey 0 0x1000, data := 0xAB, core := 0, slot := 0, tid := 1, pc := 0, addr := near,
    porter := false }

/-- An entry of the bench's store queue. -/
def entry (n : Nat) : SqEntry :=
  { core := 0, slot := 0, tid := 1, home := 0, key := localKey 0 0x1000, size := n, fills := false, pc := 0, addr := near,
    state := .inFlight }

theorem witness_fences :
    let s := { bench with sq := [(3, entry 8)] }
    let far (left : Option (List Nat)) := flying (.far 0 1 left) (bench.modThread 1 fun t => { t with wait := some (.reply 5) })
    let ask (w : Word) := benchG [(1, w)]
    bench.atBundle ∧ bench.sqOf 0 0 = [] ∧ bench.commandsOf 0 1 = false ∧ bench.copiesOf 0 1 = false
      ∧ s.atBundle ∧ s.drained s.ctx.core s.ctx.slot = false
      ∧ (ask 0x1FFF).issues .c (.fenceFar (.g 1)) ∧ (ask 0x1FFF).value (.g 1) = 0x1FFF
      ∧ (ask 63).issues .c (.fenceFar (.g 1)) ∧ ((ask 63).value (.g 1)).toNat < (ask 63).myLaunch.cores
      ∧ (ask 64).issues .c (.fenceFar (.g 1)) ∧ (ask 64).myLaunch.cores ≤ ((ask 64).value (.g 1)).toNat
      ∧ tget (far none).net 5 = some (.far 0 1 none) ∧ (far none).sq = []
      ∧ (∃ t, tget (far none).threads 1 = some t ∧ t.wait = some (.reply 5))
      ∧ ({ far none with sq := [(3, entry 8)] } : State).sq.map Prod.fst ≠ [] :=
  ⟨by decide, by decide, by decide, by decide, by decide, by decide, by decide, by decide, by decide, by decide, by decide,
    by decide, by decide, by decide, ⟨_, rfl, by decide⟩, by decide⟩

theorem witness_barrier :
    let v := (bench.myLaunch.levels[0]?).getD { count := 0, retries := 0, policy := 0, scope := 0, barrier := false, domain := 0, deadline := 0 }
    let other := bench2 { bench.me with place := .slot 0 1, homeSlot := 1 }
    bench.issues .c (.bar 0) ∧ bench.myLaunch.levels[(0#3).toNat]? = some v ∧ bench.me.units = some (0, 0)
      ∧ (bench.threads.filter fun p => p.1 != 1) = []
      ∧ other.issues .c (.bar 0) ∧ other.me.units = some (0, 0)
      ∧ (other.threads.any fun p => p.1 != 1 && p.2.launch == 1 && p.2.inUnit other.myLaunch v (unitAt other.myLaunch v 0 0)) := by
  decide

theorem witness_moves_out :
    let aim (w : Word) := benchG [(1, w)]
    ([0#64, near, 0x8000000000010000#64, 0x8000000000400000#64].all fun w => (aim w).issues .c (.mig (.g 1)))
      ∧ isLocal 0 = false ∧ (aim near).oor near 1 = false ∧ namedCore (aim near).myLaunch 0 near = 0
      ∧ namedCore (aim 0).myLaunch 0 0x8000000000010000 ≠ 0 ∧ bench.me.place = .slot bench.me.homeCore bench.me.homeSlot
      ∧ (aim 0x8000000000400000).oor 0x8000000000400000 1 := by decide

theorem witness_moves_back :
    let out := bench.modThread 1 fun t => { t with homeCore := 1 }
    bench.issues .c .home ∧ bench.me.away = false ∧ out.issues .c .home ∧ out.me.away ∧ out.me.place = .slot 0 0
      ∧ out.slotRests 0 0 ∧ bench.issues .c .done ∧ bench.ctx.tid < bench.nextTid := by decide

theorem witness_loads :
    let out := benchG [(1, 0x8000000000400000)]
    issue benchM .c [.ld .b (.r (.g 3)) (.g 1) .waitFull 1, .ld .v (.v 3) (.g 2) .plain 0, .ldIdx .w (.r (.g 0)) (.g 1) (.g 0) .takeEmpty .x32,
        .rget (.g 3) (.g 1) .plain]
      ∧ benchM.oor near 32 = false ∧ benchM.oor hbm 32 = false
      ∧ issue out .c [.ld .d (.r (.g 3)) (.g 1) .plain 0, .rget (.g 3) (.g 1) .plain] ∧ out.oor 0x8000000000400000 1 := by decide

theorem witness_posted :
    let out := benchG [(1, 0x8000000000400000)]
    issue benchM .c [.st .b (.r (.g 3)) (.g 1) .plain 1, .st .v (.v 3) (.g 2) .setFull 0, .stIdx .w (.r (.sp .slot)) (.g 1) (.g 0) .fillEmpty .x1,
        .feClr (.g 1) 0x7FF, .rput (.g 1) (.g 3) .plain, .red (.g 2) (.g 3) .max .host 3]
      ∧ benchM.oor near 32 = false
      ∧ issue out .c [.st .d (.r (.g 3)) (.g 1) .plain 0, .stIdx .d (.r (.g 3)) (.g 1) (.g 0) .plain .x1, .feClr (.g 1) 0,
        .rput (.g 1) (.g 3) .plain, .red (.g 1) (.g 3) .add .core 0]
      ∧ out.oor 0x8000000000400000 8 := by
  refine ⟨?_, ?_, ?_, ?_⟩ <;> decide

theorem witness_amo :
    let i : Instr := .amo (.g 3) (.g 1) (.g 4) .cas .device 1
    let own := benchG [(1, near)]
    let there := benchG [(1, 0x8000000000010000)]
    let out := benchG [(1, 0x8000000000400000)]
    let away := (benchM.modThread 1 fun t => { t with homeCore := 1 })
    own.issues .c i ∧ there.issues .c i ∧ out.issues .c i ∧ out.oor 0x8000000000400008 8 ∧ own.oor (near + 8) 8 = false
      ∧ homeOf (localKeyOf own.myLaunch 0 near) = 0 ∧ homeOf (localKeyOf own.myLaunch 0 0x8000000000010000) = 1
      ∧ benchM.issues .c (.amo (.g 3) (.g 2) (.g 5) .add .host 0) ∧ channelBase ≤ homeOf 0x40000
      ∧ away.issues .c (.amo (.g 3) (.g 2) (.g 5) .add .host 0) ∧ away.me.away ∧ away.slotRests 0 0 := by
  refine ⟨?_, ?_, ?_, ?_, ?_, ?_, ?_, ?_, ?_, ?_, ?_, ?_⟩ <;> decide

theorem witness_homes :
    let at_ (k : AccKind) (n : Nat) : State := flying (.access (access k n)) bench
    let empt (k : AccKind) (n : Nat) : State := { at_ k n with empt := [localKey 0 0x1000 / 8] }
    let full (k : AccKind) (n : Nat) : State := { empt k n with
      waits := List.replicate 256 (4, .access (access k n)) }
    let kinds : List (AccKind × Nat) := [(.load .plain, 1), (.load .waitFull, 8), (.load .takeEmpty, 32), (.store .plain, 2),
      (.store .setFull, 32), (.clear, 8), (.red .add .core, 8)]
    (∀ p ∈ kinds, (at_ p.1 p.2).mayArrive 5 (access p.1 p.2) ∧ (at_ p.1 p.2).sound (localKey 0 0x1000) p.2
        ∧ (at_ p.1 p.2).accessReady (access p.1 p.2))
      ∧ (empt (.store .fillEmpty) 8).accessReady (access (.store .fillEmpty) 8)
      ∧ (empt (.load .waitFull) 8).mayArrive 5 (access (.load .waitFull) 8)
      ∧ (empt (.load .waitFull) 8).accessReady (access (.load .waitFull) 8) = false ∧ (empt (.load .waitFull) 8).roomAt 0
      ∧ (full (.load .waitFull) 8).accessReady (access (.load .waitFull) 8) = false
      ∧ (bench.slot 0 15).isFree ∧ (bench.core 0).ring = [] ∧ (bench.core 0).restarts = [] ∧ ∀ r ∈ (bench.core 0).runq, r.slot ≠ 15 := by
  decide

/-- A home's waiting table that is full. -/
theorem witness_homes_full : ∀ s : State, s.waits = List.replicate 256 (4, .access (access (.load .waitFull) 8)) →
    s.roomAt 0 = false := by
  intro s h
  have t : homeOf (access (.load .waitFull) 8).key = 0 := by decide
  have u : tableSize 0 = 256 := by decide
  simp only [State.roomAt, State.waitCount, h, List.filter_replicate, t, u, beq_self_eq_true, if_true,
    List.length_replicate, decide_eq_false_iff_not]
  omega


/-- The bench's thread waits for packet 5, which fills register 3. -/
def asked (b : Body) : State :=
  flying b (bench.modThread 1 fun t => { t with wait := some (.reply 5), outst := some (5, [3]) })

theorem witness_replies :
    let s := asked (.reply 1 none (.vals [7]))
    let f := asked (.reply 1 none (.fault 0x18 0 near))
    tget s.net 5 = some (.reply 1 none (.vals [7])) ∧ tget s.threads 1 = some s.me ∧ s.me.outst = some (5, [3])
      ∧ s.me.place = .slot 0 0 ∧ s.me.unitOf = none ∧ s.me.bundle = none
      ∧ tget f.net 5 = some (.reply 1 none (.fault 0x18 0 near))
      ∧ (flying (.reply 1 none (.vals [7])) bench).me.outst = none := by decide

theorem witness_acks :
    let s (err : Option (Nat × Nat)) : State := { flying (.ack 3 err) bench with sq := [(3, entry 8)] }
    tget (s none).net 5 = some (.ack 3 none) ∧ tget (s none).sq 3 = some (entry 8)
      ∧ tget (s (some (0x19, 0))).net 5 = some (.ack 3 (some (0x19, 0))) ∧ tget (s none).threads (entry 8).tid = some (s none).me
      ∧ (∀ y ∈ ((s none).core (entry 8).core).lanes.toList, ∀ p ∈ y.pend, p.2 ≠ 3) := by decide

/-- An `amo` on word 0x1000 of core 0. -/
def trip (p : AmoPath) : Amo :=
  { op := .add, scope := .core, key := localKey 0 0x1000, y0 := 1, y1 := 0, core := 0, slot := 0, tid := 1, addr := near,
    path := p }

theorem witness_amo_home :
    let s (p : AmoPath) := flying (.amo (trip p)) bench
    let e : State := { s .own with empt := [localKey 0 0x1000 / 8] }
    tget (s .own).net 5 = some (.amo (trip .own)) ∧ (s .own).bankOpen (localKey 0 0x1000) ∧ (s .own).sound (localKey 0 0x1000) 8
      ∧ (s .own).isFull (localKey 0 0x1000) ∧ e.isFull (localKey 0 0x1000) = false ∧ e.roomAt 0
      ∧ ((s .porter).slot 0 15).isFree ∧ ((s .porter).core 0).ring = [] ∧ ((s .porter).core 0).restarts = []
      ∧ (∀ r ∈ ((s .porter).core 0).runq, r.slot ≠ 15)
      ∧ (s (.slot 0 3)).slotRests 0 3 ∧ 0 < channelBase
      ∧ ((s .flying).core 0).held = [] ∧ ((s .flying).slot 0 1).isFree ∧ ((s .flying).slot 0 0).isFree = false := by decide

theorem witness_sysr : issue bench .lone [.sysr (.g 1) .status, .sysr (.g 1) .tags, .sysr (.g 1) .tagerr, .sysr (.g 1) .fmtp,
    .sysr (.g 1) .sclp, .sysr (.g 1) .quant, .sysr (.g 1) .ownq, .sysr (.g 1) .lmflt, .sysr (.g 1) .lmaddr,
    .sysrFexc (.g 1), .sysr (.g 1) .ftrap, .sysr (.g 1) .itin, .sysr (.g 1) .asid, .sysr (.g 1) .level,
    .sysr (.g 0) .clock] ∧ bench.sqUsed 0 0 ≤ 4 := by decide

theorem witness_sysw :
    let i := benchG [(1, 0xFFF8)]
    issue bench .lone [.sysw .status (.g 1), .sysw .tagerr (.g 1), .sysw .quant (.g 1), .sysw .lmflt (.g 1), .sysw .fexc (.g 1),
      .sysw .ftrap (.g 1), .syswItin (.g 1)] ∧ bench.atBundle
      ∧ bench.launchOn 0 = some (1, bench.myLaunch) ∧ i.issues .lone (.syswItin (.g 1))
      ∧ bench.myLaunch.lmLo ≤ 0 ∧ i.myLaunch.lmHi < 0xFFF8 + 8 + 1 := by decide

/-- The bench's thread as it is trapped. -/
def caught : Thread := { bench.me with place := .slot 0 1, homeSlot := 1, trapped := some 0x40, gang := false }

theorem witness_traps_taken :
    let due (k : TrapKind) (hand : Bool) : State :=
      bench.modThread 1 fun t => { t with due := [.trap k 0x80 0], hand := hand }
    let s := due (.software 3) false
    bench.issues .lone (.trap 0xFFFF) ∧ tget s.threads 1 = some s.me ∧ s.me.place = .slot s.me.homeCore s.me.homeSlot
      ∧ s.me.due = [.trap (.software 3) 0x80 0] ∧ s.me.trapped = none ∧ s.awake 1 s.me ∧ s.me.wait ≠ some .drain
      ∧ s.sqOf 0 0 = [] ∧ s.me.hand = false ∧ (due .quantum true).me.hand ∧ (due (.float 8) true).awake 1 (due (.float 8) true).me := by
  decide

theorem witness_tret :
    let s := (bench2 caught).modThread 1 fun t => { t with regs := t.regs.setG 1 1 }
    s.issues .lone (.tret (.g 1)) ∧ (s.value (.g 1)).toNat < 16 ∧ (s.slot 0 1).tid = some 2 ∧ (2 : Nat) ≠ s.ctx.tid
      ∧ tget s.threads 2 = some caught ∧ caught.away = false ∧ caught.trapped = some 0x40 := by decide

/-- A level of one policy. -/
def level (policy retries : Nat) : Level :=
  { count := 1, retries := retries, policy := policy, scope := 4, barrier := true, domain := 4, deadline := 0 }

/-- Kill self at once; one retry; ignore behind a level without retries; no level that absorbs. -/
theorem witness_faults :
    let l (vs : List Level) : Launch := { bench.myLaunch with levels := vs }
    bench.me? = some bench.me ∧ bench.me.units.isSome ∧ bench.unencumbered 1 bench.me ∧ bench.ctx.unit = none
      ∧ bench.myLaunch.levels = [level 2 0] ∧ (l [level 2 0]).firstAbsorbing 0 0 (level 2 0)
      ∧ (l [level 1 1]).firstAbsorbing 0 0 (level 1 1) ∧ (l [level 1 0, level 0 0]).firstAbsorbing 0 1 (level 0 0)
      ∧ ∀ (n : Nat) (v : Level), (l [level 1 0]).levels[n]? = some v → ¬ v.absorbs 0 :=
  ⟨by decide, by decide, by decide, by decide, by decide, ⟨rfl, .inr (.inr rfl), fun _ _ h => absurd h (by omega)⟩,
    ⟨rfl, .inr (.inl ⟨rfl, by decide⟩), fun _ _ h => absurd h (by omega)⟩,
    ⟨rfl, .inl rfl, fun m w h e => by
      obtain rfl : m = 0 := by omega
      obtain rfl := Option.some.inj e
      simp [Level.absorbs, level]⟩,
    fun n v e => by
      rcases n with _ | n
      · obtain rfl := Option.some.inj e
        simp [Level.absorbs, level]
      · simp at e⟩

theorem witness_spill :
    let s := (bench2 caught).modThread 1 fun t => { t with regs := (t.regs.setG 1 1).setG 2 near }
    s.issues .lone (.spill (.g 1) (.g 2)) ∧ (s.value (.g 1)).toNat = 1 ∧ (s.slot 0 1).tid = some 2
      ∧ tget s.threads 2 = some caught ∧ caught.place = .slot 0 1 ∧ caught.homeCore = 0 ∧ caught.units.isSome
      ∧ isLocal near ∧ s.oor near 640 = false ∧ s.myLaunch.lmHi ≤ 65536 ∧ s.waits = [] ∧ s.roomAsk = []
      ∧ { caught with gang := true }.gang ∧ s.onceRecs 0 1 = [] := by decide

/-- A trapped thread without level units is spilled too. -/
theorem witness_spill_unitless :
    let t := { caught with units := none }
    let s := (bench2 t).modThread 1 fun t => { t with regs := (t.regs.setG 1 1).setG 2 near }
    s.issues .lone (.spill (.g 1) (.g 2)) ∧ s.trappedIn (s.value (.g 1)) = some 2 ∧ s.ctx.tid = 1
      ∧ tget s.threads 2 = some t ∧ 2 < s.nextTid := by decide

theorem witness_fill :
    let s0 := (benchG [(1, 1), (2, near)]).modCore 0 fun c => c.modSlot 1 fun y => { y with held := some 1 }
    let s := { s0 with
      mem := writeLE (writeLE s0.mem (localKey 0 0x1000) 8 0x800000001FFF0040)
        (localKey 0 0x1010) 8 0x208001 }
    s.issues .lone (.fill (.g 1) (.g 2)) ∧ s.ctx.tid < s.nextTid ∧ s.oor near 640 = false
      ∧ ∀ p ∈ s.threads, p.2.place ≠ .spilled (localKey 0 0x1000) := by decide

theorem witness_tlbinv :
    (benchM.issues .lone (.tlbinv (.g 2) (.g 3))) ∧ benchM.value (.g 3) = 0 ∧ (benchM.square 0).trans ≠ []
      ∧ ([1#64, 0x10#64, 0x31#64].all fun w => (benchM.modThread 1 fun t => { t with regs := t.regs.setG 3 w }).issues .lone
        (.tlbinv (.g 2) (.g 3))) := by decide

theorem witness_idle :
    let rung := bench.modSlot 0 0 fun y => { y with event := true }
    let asleep := bench.modThread 1 fun t => { t with wait := some (.idle (some 9)) }
    bench.issues .lone (.idle (.g 0)) ∧ (bench.slot 0 0).event = false ∧ rung.issues .lone (.idle (.g 1)) ∧ (rung.slot 0 0).event
      ∧ (asleep.slot 0 0).tid = some 1 ∧ tget asleep.threads 1 = some asleep.me ∧ asleep.me.wait = some (.idle (some 9))
      ∧ asleep.me.place = .slot 0 0 ∧ asleep.clock < 9 ∧ 9 ≤ ({ asleep with clock := 9 } : State).clock := by decide

theorem witness_timers :
    let out := bench.modThread 1 fun t => { t with qhit := true }
    let l : Launch := { bench.myLaunch with levels := [{ level 2 0 with deadline := 1 }] }
    let s (now : Nat) : State := { bench with launches := [(1, l)], clock := now }
    (out.threads.find? fun p => p.2.qhit && p.2.homeCore == 0 && p.2.homeSlot == 0) = some (1, out.me)
      ∧ tget out.threads 1 = some out.me ∧ out.me.due = []
      ∧ tget (s 1024).launches 1 = some l ∧ l.levels[0]? = some { level 2 0 with deadline := 1 } ∧ l.start = 0 ∧ l.fired = []
      ∧ l.suspended = false ∧ (s 1023).clock < l.start + 1024 * 1 := by decide

/-- A root entry at 0, tables at 0x1000, 0x2000, 0x3000 and 0x4000, whose entry 1 maps 64 KiB at 0x50000. -/
def tables : List Host.Cell :=
  [(0, 0x1001), (0x1000, 0x2001), (0x2000, 0x3001), (0x3000, 0x4001), (0x4008, 0x5001F)].foldl
    (fun m (p : Nat × Nat) => writeLE m p.1 8 p.2) []

theorem witness_walk :
    let s := ({ bench with mem := tables } : State).modSquare 0 fun q => { q with walks := [(0, 1)] }
    ((0 : BitVec 12), 1) ∈ (s.square 0).walks ∧ s.loadWord 0 = 0x1001 ∧ s.loadWord 0x1000 = 0x2001
      ∧ s.loadWord 0x2000 = 0x3001 ∧ s.loadWord 0x3000 = 0x4001 ∧ s.loadWord 0x4008 = 0x5001F
      ∧ (0x5001F#64).extractLsb' 5 7 = 0 ∧ (0x5001F#64).extractLsb' 12 4 = 0 ∧ (0x2001#64).extractLsb' 1 11 = 0
      ∧ s.isBad 0 8 = false ∧ s.isBad 0x4008 8 = false ∧ (s.square 0).trans.length < 512 := by decide

theorem witness_line :
    let s := benchM.modThread 1 fun t => { t with wait := some (.cond (.line 0x40000)) }
    s.threads = [(1, s.me)] ∧ s.me.wait = some (.cond (.line 0x40000)) ∧ 0x40000 / 64 = 0x1000 ∧ squareOf s.me.coreNow = 0
      ∧ (s.launchOf s.me).asid = 0 ∧ lookIn (s.square 0).trans 0 (BitVec.ofNat 64 (64 * 0x1000)) .x = .hit 0x40000
      ∧ s.sound 0x40000 32 ∧ s.sound 0x40020 32 := by decide

/-- The bench in front of a `once` and a governed bundle; in a gang of one, or of two whose other member is lower. -/
def once (gang : Bool) (home : Nat) : State :=
  let s := bench.modThread 1 fun t => { t with gang := gang, homeCore := home, place := .slot home 0 }
  let s := if home = 0 then s else { s with threads := tput s.threads 2 { bench.me with gang := true } }
  { s with ctx := { s.ctx with unit := some (s.me.pc, 0), pc := s.me.pc, instrs := [.mov (.g 1) (.g 0) 1] } }

theorem witness_once :
    let is : List Instr := [.mov (.g 1) (.g 0) 1]
    let stops (s : State) : Bool := (firstStop [doubleWrite (partsOf is), (s.opened (partsOf is)).issueChecks ((.lone, .once) :: partsOf is)]
      == none) && (firstStop [overHalves (partsOf is) (s.opened (partsOf is)).bindStop, overHalves (partsOf is) (s.opened (partsOf is)).readiness,
        overHalves (partsOf is) (s.opened (partsOf is)).badOperand, overHalves (partsOf is) (s.opened (partsOf is)).late] == none)
    (∀ s ∈ [once false 0, once true 0, once true 1], s.me?.isSome ∧ s.me.outst = none ∧ s.ctx.phase = .fresh
        ∧ s.ctx.unit = some (s.ctx.pc, 0) ∧ s.ctx.instrs = is ∧ stops s ∧ s.me.homeSlot < 15 ∧ s.onceRecs 0 0 = []
        ∧ ∀ d ∈ is.flatMap regDsts, s.me.regs.fullDst d)
      ∧ (once true 0).gangOf 1 0 0 ≠ [] ∧ posInSquare (once true 1).me.homeCore = 1
      ∧ ((once true 1).gangOf 1 0 0).any (fun p => posInSquare p.2.homeCore == 0) := by decide

theorem witness_once_post :
    let s := flying (.post 0 0 0 0 0x40 1 7) (bench.modThread 1 fun t => { t with regs := t.regs.emptyDst 1 })
    let r : OnceRec := { occ := 0, reached := 1, elect := 0, posted := true, unit := 0x40, dsts := [1], vals := [some 7] }
    let again := (flying (.post 0 0 0 0 0x40 1 7) bench).setOnce 0 0 [r]
    tget s.net 5 = some (.post 0 0 0 0 0x40 1 7)
      ∧ (s.threads.find? fun p => p.2.gang && p.2.homeSlot == 0 && squareOf p.2.homeCore == 0 && posInSquare p.2.homeCore == 0)
        = some (1, s.me)
      ∧ tget s.threads 1 = some s.me ∧ s.me.regs.fullDst 1 = false
      ∧ again.me.regs.fullDst 1 ∧ ((again.onceRecs 0 0).find? fun r => r.occ == 0) = some r := by decide

theorem witness_spawn :
    let out := (benchG [(1, 0x8000000000400000)])
    let full := benchM.modCore 0 fun c => { c with lanes := Vector.replicate 4 { Lane.empty with count := 32 } }
    issue benchM .lone [.spawn 1 (.g 2) 3 0x3FFFFFFF, .steal 2] ∧ benchM.launchOn 0 = some (1, benchM.myLaunch) ∧ benchM.me.wait = none
      ∧ (benchM.myCore.lane 3).count ≠ 32 ∧ benchM.oor hbm 32 = false ∧ out.issues .lone (.spawn 1 (.g 1) 0 0)
      ∧ out.oor 0x8000000000400000 32 ∧ (full.myCore.lane 3).count = 32 ∧ full.issues .lone (.spawn 1 (.g 2) 3 0) := by decide

theorem witness_task_instructions :
    let out := (benchG [(1, 0x8000000000400000)])
    issue benchM .lone [.sync (.g 2), .syncEnd (.g 2), .post 1 (.g 1) 3] ∧ benchM.oor hbm 32 = false ∧ benchM.oor near 32 = false
      ∧ issue out .lone [.sync (.g 1), .syncEnd (.g 1), .post 0 (.g 1) 0] ∧ out.oor 0x8000000000400000 32 := by decide

/-- A frame request of the bench's thread for the frame at 0x40000. -/
def request (ending task : Bool) : FrameReq :=
  { ending := ending, tid := 1, core := 0, slot := 0, key := 0x40000, addr := hbm, next := 8, fmtp := 0, sclp := 0,
    task := task, launch := 1 }

/-- A frame with so many children and a waiting address. -/
def framed (ending task : Bool) (kids waitpc : Nat) : State :=
  let s := flying (.frame (request ending task)) bench
  { s with mem := writeLE (writeLE s.mem 0x40000 8 kids) 0x40008 8 waitpc }

theorem witness_frames :
    let s (e t : Bool) (k w : Nat) := framed e t k w
    let dry : State := { s false false 0 0 with empt := [0x8000] }
    tget (s false false 0 0).net 5 = some (.frame (request false false)) ∧ (s false false 0 0).bankOpen 0x40000
      ∧ (s false false 0 0).sound 0x40000 32 ∧ (s false false 0 0).isFull 0x40000 ∧ dry.isFull 0x40000 = false
      ∧ dry.roomAt (homeOf 0x40000) ∧ (s false false 0 0).loadWord 0x40000 = 0 ∧ (s false true 2 0).loadWord 0x40000 = 2
      ∧ (s false true 2 0x80).loadWord 0x40008 = 0x80 ∧ (s true true 1 0).loadWord 0x40000 = 1
      ∧ (s true true 1 0x80).loadWord 0x40008 = 0x80 := by decide

theorem witness_frame_answers :
    let s (a : FrameAns) : State := (flying (.frameAns (request false true) a) bench).modThread 1 fun t => { t with
      outst := some (5, []), wait := some (.reply 5), gang := false }
    let parent : Thread := { bench.me with place := .frame 0x40000, gang := false }
    let w (a : FrameAns) : State := { s a with threads := tput (s a).threads 2 parent, nextTid := 3 }
    tget (s .goOn).net 5 = some (.frameAns (request false true) .goOn) ∧ tget (s .goOn).threads 1 = some (s .goOn).me
      ∧ (s .goOn).me.outst = some (5, []) ∧ (s .goOn).me.place = .slot 0 0 ∧ ((s .goOn).core 0).restarts = []
      ∧ 1 < (s .ended).nextTid
      ∧ tget (w (.restart 0x80 0 0 (some 2))).threads 2 = some parent ∧ parent.launch = bench.me.launch
      ∧ (∀ m < 16, ((w .ended).slot 0 m).reserved ≠ some 1 ∧ ((w .ended).slot 0 m).held ≠ some 1) := by decide

/-- The bench with a slot that looks, and a lane entry at the near end of lane 2. -/
def tasks : State :=
  let s := bench.modCore 0 fun c => { c with
    weights := Vector.replicate 16 1, lanes := c.lanes.set 2 { near := 1, far := 0, count := 1, pend := [] } }
  { s with mem := writeLE s.mem (localKey 0 2048) 8 0x800000001FFF0040 }

theorem witness_tasks :
    let parked := tasks.modSlot 0 1 fun y => { y with seekAt := 9 }
    let thief := tasks.modSlot 1 1 fun y => { y with victims := [0] }
    let thief : State := thief.modCore 1 fun c => { c with weights := Vector.replicate 16 1 }
    (tasks.slot 0 1).seekAt = 0 ∧ (tasks.slot 0 1).victims = [] ∧ tasks.launchOn 0 = some (1, tasks.myLaunch)
      ∧ tasks.myLaunch.closing = false ∧ (tasks.core 0).seeking 1 ∧ (thief.slot 1 1).victims = [0] ∧ (thief.core 1).seeking 1
      ∧ (∀ j < 4, 2 < j → ((tasks.core 0).lane j).count = 0) ∧ ((tasks.core 0).lane 2).count ≠ 0
      ∧ tasks.sound (localKey 0 2048) 32 ∧ tasks.loadWord (localKey 0 2048) = 0x800000001FFF0040
      ∧ tasks.loadWord (localKey 0 2064) = 0 ∧ (∀ j < 4, ((bench.core 0).lane j).count = 0)
      ∧ (parked.slot 0 1).seekAt ≠ 0 ∧ parked.clock < 9 ∧ (parked.slot 0 1).seekAt ≤ ({ parked with clock := 9 } : State).clock := by
  decide

/-- A message to core 0. -/
def note (npay : Nat) : Msg :=
  { src := 1, dst := 0, route := (0, 0), score := 1, sslot := 0, npay := npay, tag := 2, handler := 0x800000001FFF0040,
    payload := List.replicate npay 7, launch := 1, tid := some 1 }

/-- It arrives where the porter is busy and the ring has so many bytes. -/
def arriving (npay size : Nat) : State :=
  let s := (flying (.msg (note npay)) bench).modSlot 0 15 fun y => { y with tid := some 9 }
  { s with launches := [(1, { bench.myLaunch with ringOff := 0x8000, ringSize := size })] }

theorem witness_messages :
    let s := benchG [(1, 256), (2, 0x800000001FFF0040)]
    let free := flying (.msg (note 6)) bench
    let held := free.modCore 0 fun c => { c with held := [(5, 0)] }
    s.issues .lone (.send (.g 1) (.g 2) (.g 3) 6 15) ∧ tget free.net 5 = some (.msg (note 6))
      ∧ tget free.launches 1 = some free.myLaunch ∧ free.myLaunch.suspended = false ∧ free.myLaunch.closing = false
      ∧ free.carried 5 ∧ (free.core 0).ringHas 1 = false ∧ free.porterWaiting 0 = false ∧ (free.core 0).held = [] ∧ (free.slot 0 15).isFree
      ∧ ((arriving 6 256).slot 0 15).isFree = false ∧ (arriving 6 256).myLaunch.anyslot = false
      ∧ ((arriving 6 256).core 0).ringFit 256 (msgLen 6) = some (0, 0)
      ∧ ((arriving 6 64).core 0).ringFit 64 (msgLen 6) = some (0, 0)
      ∧ (arriving 6 0).myLaunch.ringSize < msgLen 6 ∧ (held.core 0).held = (5, 0) :: [] := by decide

theorem witness_message_held :
    let s := (arriving 6 64).modCore 0 fun c => { c with ringUsed := 64, ringTail := 0 }
    (s.core 0).ringFit 64 (msgLen 6) = none ∧ (s.core 0).held = [] ∧ msgLen 6 ≤ 64 := by decide

theorem witness_migrants :
    let m : Body := .migr 1 0 1 (0, 0) 0
    let s (home : Nat) : State := ((flying m bench).modThread 1 fun t => { t with homeCore := home, place := .flying 5 }).modSlot 0 0
      fun y => { y with tid := none, reserved := some 9 }
    let held := (s 1).modCore 0 fun c => { c with held := [(4, 0)] }
    let lane := bench.modCore 0 fun c => { c with flying := #v[[], [7], [], []] }
    tget (s 0).net 5 = some m ∧ tget (s 0).threads 1 = some (s 0).me ∧ (s 0).carried 5 ∧ ((s 1).core 0).ringHas 2 = false
      ∧ (∀ n < 16, ((s 1).slot 0 n).tid ≠ some 1)
      ∧ (s 0).me.homeCore = 0 ∧ (s 1).me.homeCore ≠ 0 ∧ ((s 1).core 0).held = [] ∧ ((s 1).slot 0 1).isFree
      ∧ ((s 1).slot 0 0).isFree = false ∧ (held.core 0).held ≠ [] ∧ (∀ h ∈ (held.core 0).held, h.1 ≠ 5)
      ∧ (lane.core 0).flying[(1#2).toNat] = [7] ∧ (lane.core 0).flying[(0#2).toNat] = [] := by decide

theorem witness_stalls :
    let s (now : Nat) (v : Level) : State :=
      let l : Launch := { bench.myLaunch with stall := 1, levels := [v, { v with scope := 4 }] }
      { (flying (.msg (note 0)) bench).modCore 0 fun c => { c with held := [(5, 0)] } with
        launches := [(1, l)], clock := now }
    let at_ (v : Level) := (s 1024 v).myLaunch.coreLevels ((s 1024 v).myLaunch.coreIdx 0)
    ((s 1025 (level 0 0)).core 0).held.find? (fun h => h.2 + 1024 * 1 < 1025) = some (5, 0) ∧ (s 1023 (level 0 0)).launchOn 0 = some (1, (s 1023 (level 0 0)).myLaunch)
      ∧ tget (s 1023 (level 0 0)).launches 1 = some (s 1023 (level 0 0)).myLaunch ∧ (s 1024 (level 0 0)).clock ≤ 0 + 1024 * 1
      ∧ (∀ v ∈ [level 0 0, level 1 1], (absorber ((tget ((s 1024 v).core 0).stallTries 5).getD 0) ((at_ v).map fun p => (p.1, p.2.1))).isSome)
      ∧ (∀ v ∈ [level 0 0, level 1 1], ∀ p ∈ at_ v, (p.1, p.2.2) ∉ (s 1024 v).myLaunch.stallOff)
      ∧ (absorber 0 ((at_ (level 3 0)).map fun p => (p.1, p.2.1))) = none := by decide

/-- The bench with the launch's tumblers. -/
def benchT : State :=
  { bench with launches := [(1, { bench.myLaunch with tumblers := BitVec.allOnes 32 })],
               tumblers := [(31, { Tumbler.clear with owner := some 1 })] }

theorem witness_tumbler_instructions :
    issue (benchT.modThread 1 fun t => { t with regs := t.regs.setG 1 near }) .lone [.tnum (.g 3) 31, .tndrain 31, .tnset 31 (.g 1),
      .tnsave 31 (.g 1), .tnload 31 (.g 1), .tnum (.g 0) 31] := by decide

/-- A token at the entry, or inside, of tumbler 31. -/
def token (layer : Nat) : Token := { wire := 5, layer := layer, tid := 1, id := 5, pc := 0, parity := none }

theorem witness_tumblers :
    let s (x : Tumbler) : State := { benchT with tumblers := [(31, x)] }
    let inn (n : Nat) : Tumbler := { Tumbler.clear with owner := some 1, inside := [token n] }
    let out : Tumbler := { Tumbler.clear with owner := some 1, entry := [token 0] }
    let op (kind : Nat) (begun : Bool) : TnOp := { kind := kind, arg := near, tid := 1, id := 5, core := 0, begun := begun, walk := none }
    let ops (kind : Nat) (begun : Bool) : Tumbler := { Tumbler.clear with owner := some 1, ops := [op kind begun] }
    ((s (inn 20)).tumbler 31).inside[0]? = some (token 20) ∧ (token 20).layer < 21 ∧ 21 ≤ (token 21).layer ∧ (token 21).parity = none
      ∧ (32 * 20 + (balancerAt 20 5).1) ∉ ((s (inn 20)).tumbler 31).badParity
      ∧ ((s out).tumbler 31).inside.length ≤ 0 ∧ ((s out).tumbler 31).entry[0]? = some (token 0) ∧ ((s out).tumbler 31).ops = []
      ∧ (∀ o ∈ ((s (ops 0 false)).tumbler 31).ops, o.begun = false) ∧ ((s (ops 0 false)).tumbler 31).ops[0]? = some (op 0 false)
      ∧ (∀ k < 4, ((s (ops k true)).tumbler 31).ops.find? TnOp.begun = some (op k true)) ∧ ((s (ops 0 true)).tumbler 31).inside = []
      ∧ (s (ops 3 true)).launchOn 0 = some (1, benchT.myLaunch) ∧ isLocal near ∧ namedCore benchT.myLaunch 0 near = 0
      ∧ outOfRange benchT.myLaunch near 384 = false ∧ near.toNat % 32 = 0 ∧ benchT.myLaunch.lmHi ≤ 65536
      ∧ (∀ w < 48, (s (ops 3 true)).sound (localKey 0 0x1000 + 8 * w) 8) := by decide

/-- Heap 0 of 8 nodes, classes and chunks at each channel, channel c in frame 256 + c. -/
def heap : Heap :=
  { Heap.free with
    state := 1, nodecap := 8, classcap := 8, pcap := 8, bktlog := 3, frames := (List.range 256).map fun c => [256 + c] }

/-- The bench with the heap: at channel 0 three classes, of which 1 links to 0 and the others are roots, and one node. -/
def benchH : State :=
  let s : State := { benchM with heaps := [(0, heap)] }
  let s := (s.setHead 0 0 0x20 4 3).setHead 0 0 0x24 4 1
  [0, 2].foldl (fun s x => ((s.setClass 0 x 4 4 noId).setClass 0 x 0 4 noId).setClass 0 x 8 8 100) (s.setClass 0 1 4 4 0)

/-- A pattern of one leaf, at `near`. -/
def pattern : State := { benchH with
  mem := writeWords benchH.mem (localKey 0 0x1000) [0x40, 0, 0, 0, 0x00FFFFFF00000000] }

theorem witness_heap_instructions :
    let ids := benchH.modThread 1 fun t => { t with regs := (t.regs.setG 4 1).setG 5 2 }
    issue ids .lone [.efind (.g 3) (.g 4) 0, .emrg (.g 3) (.g 4) (.g 5) 0, .eeq (.g 3) (.g 4) (.g 5) 0, .esettle 0,
        .ecost (.g 3) (.g 4) (.g 5) 0, .enode (.g 8) (.g 0) 0, .eclass (.g 8) (.g 4) 0]
      ∧ pattern.issues .lone (.ematch (.g 3) (.g 1) 0) ∧ (∀ j < 5, pattern.oor (near + BitVec.ofNat 64 (32 * j)) 32 = false) := by
  decide +kernel

theorem witness_insert_issues :
    (benchH.modThread 1 fun t => { t with regs := (t.regs.setG 6 0x0000000100010005).setG 7 0xFFFFFFFFFFFFFFFF }).issues .lone
      (.eins (.g 3) (.g 6) 0) := by decide +kernel

/-- A request to the heap, under way as packet 5. -/
def heaped (m : HeapMsg) (s : State) : State := flying (.heap m) s

/-- A unary node over class 1, as its channel and hash, before and after it is known. -/
def unary : Word := 0x0000000100010005
def unary1 : Word := 0xFFFFFFFFFFFFFFFF
def unaryHash : Nat := pairHash unary unary1
def unaryChan : Nat := hashChan unaryHash

def noRecord : State :=
  let s := (benchH.hset 0 unaryChan (heap.bktOff (unaryHash % 8)) 4 noId).setHead 0 unaryChan 0x3C 4 noId
  (s.setHead 0 unaryChan 0x2C 4 noId).setHead 0 unaryChan 0x24 4 8

def known (tent : Bool) : State := noRecord.addIndex 0 unaryChan unaryHash unary unary1 7 0 tent

theorem witness_inserts :
    let who : Asker := some (1, 6)
    let look (stage : Nat) (s : State) : State := heaped (.einsLookup 0 stage unary unary1 who) s
    0 < pairArity unary ∧ (look 0 benchH).findFault 0 (pairKid unary unary1 0) = none ∧ pairArity unary ≤ 1
      ∧ (look 1 (known true)).findKey 0 unaryChan unaryHash unary unary1 = some 0 ∧ (look 1 (known true)).tentative 0 unaryChan 0
      ∧ (look 1 (known false)).tentative 0 unaryChan 0 = false
      ∧ (look 1 noRecord).findKey 0 unaryChan unaryHash unary unary1 = none
      ∧ (look 1 noRecord).poolHas 0 unaryChan heap.nodePool = false := by decide +kernel

theorem witness_appends :
    let who : Asker := some (1, 7)
    let s (child : Nat) (b : State) : State := { heaped (.append 0 child 9 6) b with
      net := [(5, .heap (.append 0 child 9 6)), (6, .heap (.insert 0 9 0 unary unary1 0 1 false false who))] }
    let empty := benchH.setHead 0 0 0x30 4 8
    let chunk := (benchH.setClass 0 2 0 4 0).hset 0 0 (heap.chunkOff 0) 4 5
    (s 1 benchH).heldClass 0 1 = false ∧ (s 1 benchH).linkOf 0 1 ≠ noId
      ∧ (s 2 empty).linkOf 0 2 = noId ∧ (s 2 empty).pheadOf 0 2 = noId ∧ heap.pcap ≤ (s 2 empty).headAt 0 (idChan 2) 0x30 4
      ∧ (s 2 chunk).pheadOf 0 2 = 0 ∧ idChan 0 = idChan 2 ∧ (s 2 chunk).hget 0 0 (heap.chunkOff 0) 4 % 8 < 6
      ∧ benchH.findFault 0 2 = none ∧ benchH.linkOf 0 2 = noId ∧ benchH.canon 0 1 = 0 ∧ benchH.bestOf 0 0 = 100 := by
  decide +kernel

theorem witness_merges :
    let who : Asker := some (1, 6)
    let acc (stage x y : Nat) : State := heaped (.accept 0 stage x y who) benchH
    (acc 0 1 2).findFault 0 1 = none ∧ (acc 1 0 1).findFault 0 1 = none ∧ (acc 1 0 1).canon 0 1 = 0
      ∧ (acc 1 0 2).canon 0 2 ≠ 0 ∧ (acc 2 0 1).heldClass 0 1 = false ∧ (acc 2 0 1).linkOf 0 1 ≠ noId
      ∧ (acc 2 0 2).linkOf 0 2 = noId ∧ (acc 2 0 2).headBit 0 0 1 = false ∧ (acc 2 0 2).clearing 0 0 = false
      ∧ (heaped (.best 0 0 50 1) benchH).linkOf 0 0 = noId ∧ (heaped (.best 0 1 50 1) benchH).linkOf 0 1 ≠ noId
      ∧ benchH.listEmpty 0 0 ∧ (benchH.setHead 0 0 0x18 4 1).listEmpty 0 0 = false
      ∧ (benchH.modHeap 0 fun x => { x with spliceHold := [2] }).heldClass 0 2
      ∧ benchH.nodeUsed 0 0 = false ∧ (benchH.heap 0).state ≠ 0 := by decide +kernel

/-- Node 0 of channel 0 holds the unary pair over class 1, whose root is class 0. -/
theorem witness_rehash :
    let s := (benchH.setNode 0 0 0 8 0x0000000100050005).setNode 0 0 8 8 0xFFFFFFFFFFFFFFFF
    let free := benchH.hset 0 unaryChan (heap.bktOff (unaryHash % 8)) 4 noId
    s.nodeUsed 0 0 ∧ s.canonPair 0 (s.nodePair 0 0) ≠ s.nodePair 0 0
      ∧ ((known false).removeIndex 0 unaryChan unaryHash 9).findKey 0 unaryChan unaryHash unary unary1 = some 0
      ∧ (free.removeIndex 0 unaryChan unaryHash 9).findKey 0 unaryChan unaryHash unary unary1 = none
      ∧ free.poolHas 0 unaryChan heap.idxPool := by decide +kernel

theorem witness_settle :
    let sum : WaveSum := ⟨0, 0, 0, false⟩
    let s (w : Option Wave) : State := benchH.modHeap 0 fun x => { x with wave := w }
    let calm := benchH.setMailbox 0 true false
    ((s none).heap 0).state ≠ 0 ∧ ((s none).heap 0).wave = none ∧ (s none).settled 0 = false ∧ calm.settled 0
      ∧ ((s (some ⟨false, 255, sum, sum⟩)).heap 0).wave = some ⟨false, 255, sum, sum⟩
      ∧ (s (some ⟨true, 256, sum, sum⟩)).vetoed 0 = false ∧ (benchH.setMailbox 0 false true).vetoed 0
      ∧ tget (heaped (.esettle 0 (some (1, 6))) benchH).net 5 = some (.heap (.esettle 0 (some (1, 6)))) := by decide +kernel

theorem witness_match :
    let found : Search := { top := 0, vars := [], goals := [] }
    let job (l : Nat) (front : List Search) : Job :=
      { j := 0, words := [0x40, 0], launch := l, dst := 0, next := 1, sent := 0, front := front }
    let s (l : Nat) (front : List Search) : State := benchH.modHeap 0 fun x => { x with jobs := x.jobs.set 255 [job l front] }
    ((s 1 []).heap 0).jobs[255] = job 1 [] :: [] ∧ tget (s 9 []).launches 9 = none ∧ tget (s 1 []).launches 1 = some bench.myLaunch
      ∧ (s 1 []).headAt 0 255 0x24 4 ≤ 1 ∧ (job 1 [found]).front = found :: [] ∧ found.goals = [] := by decide +kernel

/-! #### The Hamper -/

theorem crcBit_lt (c : Nat) (h : c < 2 ^ 32) : crcBit c < 2 ^ 32 := by
  unfold crcBit
  split
  · exact Nat.xor_lt_two_pow (by omega) (by decide)
  · omega

theorem crcBytes_lt (bs : List Byte) (c : Nat) (h : c < 2 ^ 32) : crcBytes c bs < 2 ^ 32 := by
  induction bs generalizing c with
  | nil => exact h
  | cons b r ih =>
    have hb : c ^^^ b.toNat < 2 ^ 32 := Nat.xor_lt_two_pow h (Nat.lt_trans b.isLt (by decide))
    exact ih _ (crcBit_lt _ (crcBit_lt _ (crcBit_lt _ (crcBit_lt _ (crcBit_lt _ (crcBit_lt _ (crcBit_lt _ (crcBit_lt _ hb))))))))

theorem crc32c_lt (bs : List Byte) : crc32c bs < 2 ^ 32 := Nat.xor_lt_two_pow (crcBytes_lt bs _ (by decide)) (by decide)

theorem readBytes_congr {m m' : List Host.Cell} (k n : Nat) (h : ∀ j, k ≤ j → j < k + n → readByte m j = readByte m' j) :
    readBytes m k n = readBytes m' k n := by
  induction n generalizing k with
  | zero => rfl
  | succ n ih =>
    rw [readBytes, readBytes, h k (by omega) (by omega), ih (k + 1) fun j h1 h2 => h j (by omega) (by omega)]

theorem readWords_congr {m m' : List Host.Cell} (k n : Nat)
    (h : ∀ j, k ≤ j → j < k + 8 * n → readByte m j = readByte m' j) : readWords m k n = readWords m' k n := by
  induction n generalizing k with
  | zero => rfl
  | succ n ih =>
    rw [readWords, readWords, readLE_congr k 8 fun j h1 h2 => h j h1 (by omega),
      ih (k + 8) fun j h1 h2 => h j (by omega) (by omega)]

theorem mem_writeLE {m : List Host.Cell} {k n v : Nat} {p : Host.Cell} (h : p ∈ writeLE m k n v) :
    p ∈ m ∨ k ≤ p.1 ∧ p.1 < k + n := by
  induction n generalizing m k v with
  | zero => exact .inl h
  | succ n ih =>
    rcases ih h with h | h
    · unfold writeByte at h
      split at h
      · exact .inl (List.mem_filter.mp h).1
      · rcases mem_tput h with rfl | h
        · exact .inr ⟨Nat.le_refl _, by simp⟩
        · exact .inl h
    · exact .inr ⟨by omega, by omega⟩

/-- A block closed by the CRC of what stands before its last 8 bytes. -/
def sealed (m : List Host.Cell) (n : Nat) : List Host.Cell := writeLE m n 8 (crc32c (readBytes m 0 n))

theorem sealed_out (m : List Host.Cell) (n j : Nat) (h : j < n ∨ n + 8 ≤ j) : readByte (sealed m n) j = readByte m j :=
  readByte_writeLE_out m n 8 _ j h

theorem sealed_crc (m : List Host.Cell) (n : Nat) : readLE (sealed m n) n 8 = crc32c (readBytes (sealed m n) 0 n) := by
  rw [readBytes_congr 0 n fun j _ h => sealed_out m n j (.inl (by omega)), sealed, readLE_writeLE_self]
  exact Nat.mod_eq_of_lt (Nat.lt_trans (crc32c_lt _) (by decide))

/-- The header that `stow` writes is the one `unstow` accepts. -/
theorem test_header_accepted : headerOk (sessionHeader 0 1 1 9 0) 0 1 ∧ headerMatches (sessionHeader 0 1 1 9 0)
    [1, 0x50000, 1, 0x48000, 9, 0, 0, 0] := by
  have e : sessionHeader 0 1 1 9 0 = sealed (writeWords [] 0 [0x153534553, 1, 0x10001, 9, 0, 0]) 4088 := rfl
  have w : readWords (sealed (writeWords [] 0 [0x153534553, 1, 0x10001, 9, 0, 0]) 4088) 0 6
      = [0x153534553, 1, 0x10001, 9, 0, 0] := by
    rw [readWords_congr 0 6 fun j _ h => sealed_out _ 4088 j (.inl (by omega))]
    decide
  have a : (sealed (writeWords [] 0 [0x153534553, 1, 0x10001, 9, 0, 0]) 4088).all
      (fun c => !(48 ≤ c.1 && c.1 < 4088)) = true := by
    rw [List.all_eq_true]
    intro p hp
    rcases mem_writeLE hp with h | ⟨h, -⟩
    · clear hp; revert p; decide
    · simp; omega
  rw [e]
  constructor
  · simp only [headerOk, w, a, sealed_crc]
    decide
  · simp only [headerMatches, w]
    decide

/-- A fold page of one row of 4 bytes, with signature 9. -/
def foldPage : List Host.Cell := sealed (writeWords [] 0 [0x1444C4F46, 0x40001, 0, 0, 0, 9, 0, 0]) 0xFFF8

theorem test_page_accepted : pageOk foldPage 9 := by
  have w : readWords foldPage 0 8 = [0x1444C4F46, 0x40001, 0, 0, 0, 9, 0, 0] := by
    rw [foldPage, readWords_congr 0 8 fun j _ h => sealed_out _ 0xFFF8 j (.inl (by omega))]
    decide
  have a : foldPage.all (fun c => !(0x40 + 4 ≤ c.1 && c.1 < 0xCC40) && !(0xCC40 + 4 / 4 ≤ c.1 && c.1 < 0xFF40)
      && !(0xFF40 ≤ c.1 && c.1 < 0xFFF8)) = true := by
    rw [List.all_eq_true]
    intro p hp
    rcases mem_writeLE hp with h | ⟨h, -⟩
    · clear hp; revert p; decide
    · simp; omega
  have n : bits (([0x1444C4F46, 0x40001, 0, 0, 0, 9, 0, 0] : List Word).getD 1 0) 0 16
      * bits (([0x1444C4F46, 0x40001, 0, 0, 0, 9, 0, 0] : List Word).getD 1 0) 16 16 = 4 := by decide
  have c : readLE foldPage 0xFFF8 8 = crc32c (readBytes foldPage 0 0xFFF8) := sealed_crc _ _
  simp only [pageOk, w, n, a, c]
  decide


/-- A valid control block: object 1, one page at 0x50000, completion words at 0x48000, signature 9. -/
def block : List Word := [1, 0x50000, 1, 0x48000, 9, 0, 0, 0]

/-- A request for it at Hamper core 1. -/
def wish (stow : Bool) (phase : Nat) (data : List (List Host.Cell)) (pages : List Nat) (at_ : Nat) : HReq :=
  { num := 0, stow := stow, ctl := hbm, asid := 0, sc := 0, done := 0x48000, phase := phase, stamp := 0, data := data,
    pages := pages, atoms := [(1, at_)], block := block, media := false }

/-- The control block stands at 0x40000 and a page at 0; the Hamper's unit holds both translations. -/
def stored (r : HReq) (spaces : Tbl Namespace) : State :=
  { bench with
    mem := writeWords [] 0x40000 block,
    hampers := bench.hampers.set 1 {
      queue := [r], num := 1, namespaces := spaces,
      trans := [{ asid := 0, page := 4, big := false, frame := 4, x := true, w := true, rd := true },
                { asid := 0, page := 5, big := false, frame := 0, x := true, w := true, rd := true }] } }

theorem foldPage_keys : ∀ p ∈ foldPage, p.1 < 65536 := by
  intro p hp
  rcases mem_writeLE hp with h | ⟨-, h⟩
  · clear hp; revert p; decide
  · exact Nat.lt_of_lt_of_le h (by decide)

/-- There are a page and a header such as `stow` reads and `unstow` accepts. -/
theorem page_exists : ∃ page, pageOk page (blockSig block) ∧ ∀ p ∈ page, p.1 < 65536 :=
  ⟨foldPage, by rw [show blockSig block = 9 by decide, test_page_accepted], foldPage_keys⟩

theorem header_exists : ∃ h, headerOk h 0 1 ∧ headerMatches h block := ⟨_, test_header_accepted⟩

theorem witness_hamper_asked : issue benchM .lone [.stow (.g 2), .unstow (.g 2)] ∧ benchM.oor (benchM.value (.g 2)) 32 = false := by
  decide

/-- A queued request has its block read whole. -/
theorem witness_hamper_control (stow : Bool) :
    let s := stored (wish stow 0 [] [] 0) []
    (s.hamper 1).next 0 = some (wish stow 0 [] [] 0) ∧ s.readControl 1 (wish stow 0 [] [] 0) = (s, some block) ∧ block.length = 8 := by
  cases stow <;> decide +kernel

/-- A block whose second atom, or whose first, cannot be read; and one whose bank is closed. -/
theorem witness_hamper_halves :
    let r := wish true 0 [] [] 0
    let s : State := { stored r [] with bad := [errUnit 0x40020] }
    let t : State := { stored r [] with bad := [errUnit 0x40000] }
    let u : State := { stored r [] with alerts := [{ chan := channelOf 0x40000, bank := Config.bankOf 0x40000, postponed := 0 }] }
    (s.readControl 1 r).2 = some (block.take 4) ∧ (t.readControl 1 r).2 = some [] ∧ (u.readControl 1 r).2 = none := by
  refine ⟨by decide +kernel, by decide +kernel, ?_⟩
  have h : ({ stored (wish true 0 [] [] 0) [] with
      alerts := [{ chan := channelOf 0x40000, bank := Config.bankOf 0x40000, postponed := 0 }] } : State).hamperOpen
        1 0 hbm .rd = false := by
    have : (stored (wish true 0 [] [] 0) []).patched = [] := rfl
    rw [State.hamperOpen, show (State.hamperXlate _ 1 0 hbm .rd) = (_, .ok 0x40000) from rfl]
    simp [State.bankOpen, this]
    decide
  simp only [State.readControl, State.readAtom]
  rw [show (wish true 0 [] [] 0).ctl = hbm from rfl, show (wish true 0 [] [] 0).asid = 0 from rfl, h]
  rfl

theorem witness_hamper_turn (stow : Bool) (data : List (List Host.Cell)) (pages : List Nat) (at_ : Nat) (phase : Nat)
    (hp : phase = 1 ∨ phase = 2) (x : Tbl Namespace) :
    let s := stored (wish stow phase data pages at_) x
    (s.hamper 1).next 0 = none ∧ (s.hamper 1).ready 0 = some (wish stow phase data pages at_)
      ∧ s.wordsOpen 1 (wish stow phase data pages at_) ∧ blockOk block := by
  obtain rfl | rfl := hp <;> exact ⟨rfl, rfl, rfl, by decide⟩

theorem witness_hamper_atoms :
    let s := stored (wish true 1 [] [] 0) []
    let u : State := { s with bad := [0] }
    1 ≤ blockCount block ∧ blockCount block < 2
      ∧ s.hamperXlate 1 0 (pageAddr block 1 + BitVec.ofNat 64 (32 * 0)) .rd = (s, .ok 0) ∧ s.bankOpen 0 ∧ s.isBad 0 32 = false
      ∧ u.hamperXlate 1 0 (pageAddr block 1 + BitVec.ofNat 64 (32 * 0)) .rd = (u, .ok 0) ∧ u.isBad 0 32
      ∧ (∃ f, (stored (wish true 1 [] [] 0) []).hamperXlate 1 1 (pageAddr block 1 + BitVec.ofNat 64 (32 * 0)) .rd =
          (stored (wish true 1 [] [] 0) [], .error f)) := by
  refine ⟨by decide, by decide, rfl, by decide, by decide, rfl, by decide, ⟨_, rfl⟩⟩

theorem witness_hamper_spaces (o : Obj) :
    let free : Namespace := { lbas := 17, objects := [] }
    let full : Namespace := { lbas := 17, objects := [(1, o)] }
    tget [(0, free)] 0 = some free ∧ tget free.objects (blockObj block).toNat = none ∧ tget full.objects (blockObj block).toNat = some o
      ∧ free.used + 1 + 16 * blockCount block ≤ free.lbas ∧ ({ free with lbas := 16 } : Namespace).lbas < free.used + 1 + 16 * blockCount block
      ∧ blockOk (List.replicate 8 0) = false := ⟨rfl, rfl, rfl, by decide, by decide, by decide⟩

theorem witness_page_cells : memWf [(0, 1)] ∧ ∀ p ∈ ([(0xFFFF, 1)] : List Host.Cell), p.1 < 65536 := by decide

theorem witness_vector_integers : issue bench .lone [.vaddI .i8 true 1 2 3, .vsubI .i16 false 1 2 3, .vmulI .n32 true 1 2 3,
    .vminI .i64 1 2 3, .vmaxI .n8 1 2 3, .vand .n16 1 2 3, .vor .i32 1 2 3, .vxor .n64 1 2 3, .vshl .i8 1 2 3, .vshr .i16 1 2 3,
    .vsar .i32 1 2 3] := by decide

theorem witness_vector_floats : issue bench .lone [.vaddF .f16 .rn 1 2 3, .vsubF .bf16 .rz 1 2 3, .vmulF .f32 .rd 1 2 3,
      .vdiv .f16 .ru 1 2 3, .vfma .f32 .rn 1 2 3 4, .vminF .f16 1 2 3, .vmaxF .bf16 1 2 3, .vsqrt .f32 .rn 1 2, .vneg .f16 1 2,
      .vabs .bf16 1 2, .vcmpEq .f32 1 2 3, .vcmpLt .f16 1 2 3, .vcmpLe .bf16 1 2 3, .vcmpUn .f32 1 2 3, .vrcp 1 2, .vrsqrt 1 2,
      .vexp2 1 2]
    ∧ (∃ m e, (fmtOf .f32).decode 0x3F800000 = .fin false m e) ∧ (∃ m e, (fmtOf .f16).decode 0x8001 = .fin true m e) :=
  ⟨by decide, ⟨_, _, rfl⟩, ⟨_, _, rfl⟩⟩

/-- The bench with its thread bound to a bank that can encode. -/
def benchB : State :=
  (bench.modCore 0 fun c => { c with
    banks := c.banks.set 0 { table := 0, tag := some (0, near), encodable := true, loading := none, walk := none } }).modThread 1 fun t =>
      { t with fmtp := near, bank := some 0 }

theorem witness_vector_moves : issue benchB .lone [.vperm 1 2 3, .vbcast (.int .i8) 1 (.g 2), .vins (.flt .f32) 1 (.g 2) 7,
    .vsel 1 2 3 4, .vmov 1 2, .vext (.int .n8) (.g 1) 2 31, .vext (.flt .f16) (.g 1) 2 15, .vsum (.int .i8) .rn true (.g 1) 2,
    .vsum (.flt .f32) .rz false (.g 1) 2, .vrmax (.int .i16) (.g 1) 2, .vrmin (.flt .bf16) (.g 1) 2,
    .vcvt (.int .i64) (.int .i8) .rn true 1 2 7, .vcvt (.flt .f16) (.flt .f32) .ru false 1 2 1, .vdec .f32 .rn 1 2 3 3 3,
    .vdec .f16 .rn 1 2 3 3 1, .venc true 1 2 3 3 3, .vscl .rd 1 2 3 3 3, .vsauto 1 2 3 3] := by decide

theorem witness_engines :
    let cmd : VecCmd := { tid := 1, pc := 0, order := 0, issued := 0, busy := 1, flags := 8, dsts := [(33, 5)], unit := none }
    let q (now : Nat) : State := { (bench.modCore 0 fun c => { c with vecQ := [cmd] }) with clock := now }
    let r (now : Nat) : State := { (bench.modCore 0 fun c => { c with vecRun := [(4, cmd)] }).modThread 1 fun t => { t with
      regs := t.regs.emptyDst 33 } with clock := now }
    ((q 1).core 0).vecQ = cmd :: [] ∧ cmd.issued < (q 1).clock ∧ ((q 1).core 0).vecFree ≤ 1 ∧ (q 0).clock ≤ cmd.issued
      ∧ ((r 4).core 0).vecRun = (4, cmd) :: [] ∧ (r 3).clock < 4 ∧ tget (r 4).threads 1 = some (r 4).me
      ∧ (r 4).me.regs.fullDst 33 = false ∧ (r 4).me.undo = none := by decide

theorem witness_slices :
    let cmd : MatCmd := { num := 0, tid := 1, pc := 0, order := 0, op := .rot 0 none .i8 false, bank := 0, start := some 0,
                          last := none, phase := .exchange true true, flags := 0 }
    let src := bench.neighbour 0 1
    let s : State := { (bench.modCore src fun c => { c with matQ := [cmd] }) with clock := 6 }
    src ≠ 0 ∧ (s.core 0).incA = none ∧ s.laneFailed src (oppositeDir 1) = false ∧ (s.core src).matQ = cmd :: []
      ∧ cmd.start.getD s.clock + 6 ≤ s.clock := by decide

theorem witness_bank :
    let s := bench.modCore 0 fun c => { c with banks := c.banks.set 1 { Bank.empty with loading := some (1, 0, near) } }
    ((s.core 0).banks[1]).loading = some (1, 0, near) ∧ s.launchOn 0 = some (1, s.myLaunch) ∧ tget s.launches 1 = some s.myLaunch
      ∧ isLocal near ∧ namedCore s.myLaunch 0 near = 0 ∧ outOfRange s.myLaunch near 1024 = false ∧ near.toNat % 32 = 0
      ∧ (∀ j < 32, s.sound (localKeyOf s.myLaunch 0 near + 32 * j) 32) := by decide

theorem witness_matrix : issue benchM .lone [.mma 7 (.g 1) (.g 1) .f16 false 63, .mma 0 (.g 1) (.g 1) .n8 true 0, .mrot 1 .i8 false,
      .mrotMem 1 (.g 1) (.g 1) .bf16 false, .mzero 1, .mmovF32Store (.g 1) 2, .mmovBf16Store (.g 1) 2 .rz, .mmovF16Store (.g 1) 2 .ru,
      .mmovF32Load 3 (.g 1), .mmovF32ToV 1 2 7, .mmovBf16ToV 1 2 6 .rn, .mmovF16ToV 1 2 0 .rd]
    ∧ benchB.issues .lone (.mtab 1) := by decide

/-- A matrix command at the head of its queue, whose last busy cycle was 0. -/
def engine (op : MatOp) (phase : MatPhase) : State :=
  let cmd : MatCmd := { num := 0, tid := 1, pc := 0, order := 0, op := op, bank := 0, start := some 0, last := some 0,
                        phase := phase, flags := 0 }
  { (bench.modCore 0 fun c => { c with matQ := [cmd], incA := some 1, incB := some 2 }).modThread 1 fun t => { t with
      wait := some (.matrix 0), gang := false, regs := t.regs.emptyDst 33 } with clock := 4 }

theorem witness_matrix_ends :
    let here (a : Word) (n : Nat) : Bool := isLocal a && namedCore bench.myLaunch 0 a == 0 && !outOfRange bench.myLaunch a n
      && a.toNat % 32 == 0 && (List.range (n / 32)).all fun j => bench.sound (localKeyOf bench.myLaunch 0 a + 32 * j) 32
    let s := engine (.zero 0) .queued
    ((s.core 0).matQ.map fun x => (x.phase, x.last, x.num)) = [(.queued, some 0, 0)] ∧ 0 + 4 ≤ s.clock ∧ tget s.threads 1 = some s.me
      ∧ s.me.wait = some (.matrix 0) ∧ s.me.gang = false ∧ 0 < channelBase ∧ s.myLaunch.lmHi ≤ 65536
      ∧ here near 256 ∧ here near 8192 ∧ s.me.regs.fullDst (32 + 1) = false
      ∧ ((engine (.rot 0 none .i8 true) (.exchange false false)).core 0).incA = some 1
      ∧ ((engine (.rot 0 none .i8 true) (.exchange false false)).core 0).incB = some 2 := by decide +kernel

/-- The layout record of the spec's example, with its base at `hbm`. -/
def layout : List Word :=
  [hbm, 0x9303200000000000, 0x2800000018, 0x600000000, 0x100008, 0x2000000000000, 0x28000003C0, 0, 0x2000000010, 0x400000000, 0, 0]

/-- The bench with it in v4 to v6. -/
def benchC : State :=
  benchM.modThread 1 fun t => { t with
    regs := [4, 5, 6].foldl (fun (r : Regs) (k : Nat) => r.setDst (32 + k) (BitVec.ofNat 256 ((List.range 4).foldl
      (fun v j => v + (layout.getD (4 * (k - 4) + j) 0).toNat * 2 ^ (64 * j)) 0))) t.regs }

/-- A copy of it in flight. -/
def copy (vals : Tbl Word) (done : List Nat) : Copy :=
  { num := 0, words := layout, tag := 9, tid := 1, launch := 1, pc := 0, issued := 0, waits := [], vals := vals, done := done,
    failed := false, walk := none }

theorem witness_copies :
    let s (x : Copy) : State := { benchC.modCore 0 fun c => { c with copies := [x], tags := 0 } with clock := 1 }
    let q : State := { benchC.modCore 0 fun c => { c with copyQ := [copy [] []] } with clock := 1 }
    let r := Layout.ofWords layout
    benchC.issues .lone (.cpy 9 4) ∧ bench.issues .lone (.cwait (.g 1)) ∧ bench.issues .lone (.cany (.g 2) (.g 1))
      ∧ (benchG [(1, 0x200)]).issues .lone (.cany (.g 2) (.g 1)) ∧ bench.issues .lone (.cfirst (.g 2) (.g 1))
      ∧ (q.core 0).copyQ = copy [] [] :: [] ∧ (copy [] []).issued < q.clock ∧ (q.core 0).copies.length < 512
      ∧ ((s (copy [] [])).core 0).copies.find? (fun y => y.num == 0) = some (copy [] [])
      ∧ 0 < r.area ∧ r.area < 65536 ∧ r.inside 0 ∧ (s (copy [] [])).launchOn 0 = some (1, benchC.myLaunch)
      ∧ ((s (copy [] [])).core 0).copyFree ≤ 1 := by decide

theorem witness_copy_moves :
    let s : State := { benchC.modCore 0 fun c => { c with copies := [copy [] []] } with clock := 1 }
    let r := Layout.ofWords layout
    s.engineReach s.myLaunch 0 (r.source 0) (typeBytes r.fmt) .rd none = .key (s.keyOf (r.source 0) .rd)
      ∧ s.engineReach s.myLaunch 0 (r.target 0) (typeBytes r.fmt) .w none = .key (s.keyOf (r.target 0) .w)
      ∧ s.sound (s.keyOf (r.source 0) .rd) (typeBytes r.fmt) ∧ s.sound (s.keyOf (r.target 0) .w) (typeBytes r.fmt)
      ∧ (r.source 0).toNat % 32 ≤ s.keyOf (r.source 0) .rd ∧ (r.target 0).toNat % 32 ≤ s.keyOf (r.target 0) .w := by
  decide +kernel

/-- An engine of core 0 that asks for a word out of range, one without permission, one for which it must walk, one in another
core whose porter is at work, one in another core whose porter is free. -/
theorem witness_engine_reach :
    let s := benchC
    let l := s.myLaunch
    let other : Word := 0x8000000000011000
    let busy := s.modSlot 1 15 fun y => { y with tid := some 7 }
    s.engineReach l 0 (near + 0xFFF0) 32 .rd none = .out
      ∧ s.engineReach l 0 (hbm + 0x2000000) 8 .rd none = .walk ((hbm + 0x2000000).toNat / 65536)
      ∧ (∃ f, s.engineReach l 0 (hbm + 0x2000000) 8 .rd (some { page := (hbm + 0x2000000).toNat / 65536, fault := some (0x17, 2) }) =
          .fault f)
      ∧ s.copyWalk l 0 0 ((hbm + 0x2000000).toNat / 65536) ≠ s
      ∧ isLocal other ∧ outOfRange l other 8 = false ∧ homeOf (localKeyOf l 0 other) = 1
      ∧ s.engineRoute l 0 1 other = none ∧ (busy.slot 1 15).isFree = false ∧ (s.slot 1 15).isFree
      ∧ localBase ≤ localKeyOf l 0 other ∧ s.bankOpen (localKeyOf l 0 other) := by
  refine ⟨by decide +kernel, by decide +kernel, ⟨_, rfl⟩, by decide +kernel, by decide +kernel⟩


/-- A command of the host at service core 0. -/
def cmd : Cmd := { sc := 0, cid := 5, cw := 0x1000 }

/-- The bench with a service core that hears. -/
theorem witness_hears : bench.hears cmd ∧ ({ bench with halted := true } : State).halted ∧ tget bench.launches 9 = none
    ∧ tget bench.launches 1 = some bench.myLaunch ∧ 3600 ≤ 3600 ∧ 604800 ≤ 604800 := by
  refine ⟨⟨by decide, by decide, by decide⟩, by decide⟩

theorem witness_device_memory :
    let e : Word := 0x2001
    (4 % 8 ≠ 0) ∧ 0x2000 % 32 = 0 ∧ 0x2000 + 32 ≤ hbmEnd ∧ bench.sound 0x2000 8 ∧ bench.unwatched 0x2000
      ∧ ({ bench with bad := [errUnit 0x2000] } : State).isBad 0x2000 8 ∧ (2#64).toNat < 3 ∧ 3 ≤ (3#64).toNat
      ∧ e.extractLsb' 1 11 = 0 ∧ e.extractLsb' 48 16 = 0 ∧ physOk (bench.rootTable.toNat + 8 * 4095)
      ∧ (0x31#64).toNat % 4 ≤ 1 ∧ (0x31#64).extractLsb' 2 2 = 0 ∧ (0x31#64).extractLsb' 6 58 = 0
      ∧ stackOf 0x2000 < 8 ∧ 0x2000 ∉ bench.patched ∧ ({ bench with patched := [0x2000] } : State).patched = [0x2000]
      ∧ ({ bench with bad := [errUnit 0x2000] } : State).isBad 0x2000 32 ∧ bench.sound 0x2000 32 := by
  refine ⟨by decide, by decide, by decide, by decide, ⟨by decide, by decide⟩, by decide⟩

/-- A mapping of 32 MiB at 0, which holds a page for each channel, for the least heap. -/
def pages : State :=
  { bench with mem := [(0, 0x1001), (0x1000, 0x2001), (0x2000, 0x3001), (0x3000, 0x200001F)].foldl (fun m (p : Nat × Nat) => writeLE m p.1 8 p.2) [] }

theorem witness_heap_created :
    let x : Heap := { Heap.free with state := 1, nodecap := 1, classcap := 1, pcap := 1, bktlog := 3, segsz := 65536 }
    (pages.heapFrames 0 0 65536 256).2.isSome ∧ x.total ≤ x.segsz ∧ (pages.heap 0).state = 0 ∧ 65536 % 65536 = 0 := by
  decide +kernel

theorem witness_heap_live : (bench.heap 0).state = 0 ∧ (benchH.heap 0).state = 1
    ∧ benchH.launches.any (fun p => p.2.asid == (benchH.heap 0).asid) := by decide +kernel

theorem witness_heap_busy : benchH.settled 0 = false ∧ benchH.heapQuiet 0 = false := by decide +kernel

theorem witness_heap_quiet : (benchH.setMailbox 0 true false).heapQuiet 0 := by decide +kernel

/-- What a set of links leads to in turn stays when the graph is pruned. -/
theorem prune_keeps (mask : BitVec 16) (S : List (Nat × Nat)) (h : ∀ b ∈ S, ∃ a ∈ S, (streetStep a.1 a.2).1 = b.1 ∧ turnAllowed mask a.2 b.2)
    (n : Nat) (vs : List (Nat × Nat)) (hs : ∀ a ∈ S, a ∈ vs) : ∀ a ∈ S, a ∈ pruneGraph mask n vs := by
  induction n generalizing vs with
  | zero => exact hs
  | succ n ih =>
    simp only [pruneGraph]
    split
    · exact hs
    · refine ih _ fun b hb => ?_
      obtain ⟨a, ha, h1, h2⟩ := h b hb
      exact List.mem_filter.mpr ⟨hs b hb, List.any_eq_true.mpr ⟨a, hs a ha, by simp [h1, h2]⟩⟩

/-- Links that lead only to links of greater rank are all pruned. -/
theorem prune_empties (mask : BitVec 16) (rank : Nat × Nat → Nat) (n : Nat) (vs : List (Nat × Nat)) (hn : vs.length ≤ n)
    (h : ∀ a ∈ vs, ∀ b ∈ vs, (streetStep a.1 a.2).1 = b.1 → turnAllowed mask a.2 b.2 → rank a < rank b) :
    pruneGraph mask n vs = [] := by
  induction n generalizing vs with
  | zero => exact List.eq_nil_of_length_eq_zero (Nat.le_zero.mp hn)
  | succ n ih =>
    simp only [pruneGraph]
    have hle := List.length_filter_le (fun b => vs.any fun a => (streetStep a.1 a.2).1 == b.1 && turnAllowed mask a.2 b.2) vs
    split
    · rename_i he
      have hall := List.filter_eq_self.mp (List.Sublist.eq_of_length List.filter_sublist he)
      have none_ (r : Nat) : ∀ b ∈ vs, rank b ≤ r → False := by
        induction r with
        | zero =>
          intro b hb hr
          obtain ⟨a, ha, e⟩ := List.any_eq_true.mp (hall b hb)
          simp only [Bool.and_eq_true, beq_iff_eq] at e
          have := h a ha b hb e.1 e.2
          omega
        | succ r ihr =>
          intro b hb hr
          obtain ⟨a, ha, e⟩ := List.any_eq_true.mp (hall b hb)
          simp only [Bool.and_eq_true, beq_iff_eq] at e
          have := h a ha b hb e.1 e.2
          exact ihr a ha (by omega)
      exact List.eq_nil_iff_forall_not_mem.mpr fun b hb => none_ _ b hb (Nat.le_refl _)
    · rename_i hne
      exact ih _ (by omega) fun a ha b hb => h a (List.mem_filter.mp ha).1 b (List.mem_filter.mp hb).1

/-- A mask of all turns has a cycle; a mask of none has no cycle. -/
theorem witness_masks : bench.streets.maskOk 0 0xFFFF = false ∧ bench.streets.maskOk 0 0 = true := by
  constructor
  · have h := prune_keeps 0xFFFF [(squareAt 0 0 0, 0), (squareAt 0 1 0, 1), (squareAt 0 1 1, 2), (squareAt 0 0 1, 3)] (by decide) 512
      (bench.streets.vertices 0) (by decide +kernel) _ (List.mem_cons_self ..)
    rw [Streets.maskOk, List.isEmpty_eq_false_iff]
    exact List.ne_nil_of_mem h
  · rw [Streets.maskOk, prune_empties 0 (fun a => if a.2 = 0 then squareX a.1 else if a.2 = 1 then squareY a.1
      else if a.2 = 2 then 15 - squareX a.1 else 7 - squareY a.1) 512 _ (by decide +kernel) ?_]
    · rfl
    · have k : ∀ a ∈ bench.streets.vertices 0, a.2 < 4 ∧ ∀ d < 4, turnAllowed 0 a.2 d → (if a.2 = 0 then squareX a.1 else if a.2 = 1 then squareY a.1
          else if a.2 = 2 then 15 - squareX a.1 else 7 - squareY a.1) < (if d = 0 then squareX (streetStep a.1 a.2).1 else if d = 1 then
          squareY (streetStep a.1 a.2).1 else if d = 2 then 15 - squareX (streetStep a.1 a.2).1 else 7 - squareY (streetStep a.1 a.2).1) := by
        decide +kernel
      intro a ha b hb e t
      have := (k a ha).2 b.2 (k b hb).1 t
      rw [e] at this
      exact this

/-- A packet of core 0 on its way through the first street link. -/
def crossing (b : Body) (s : State) : State :=
  { flying b s with ways := [(5, { src := 0, start := 0, words := (0x44, 0), cls := 0, back := false, stamp := 0 })] }

theorem witness_map :
    bench.pending = [] ∧ bench.hold = [] ∧ bench.switchesEmpty 0
      ∧ (crossing (.msg (note 0)) bench).switchesEmpty 0 = false ∧ linkExists (.street 0 0 0) ∧ linkExists (.lane 0 3) ∧ linkExists (.gate 0 0)
      ∧ tget bench.hampers[3].namespaces 0 = none := by decide

theorem witness_drive (o : Obj) :
    let n : Namespace := { lbas := 17, objects := [(1, o)] }
    tget [(7, n)] (7#12).toNat = some n ∧ n.objects ≠ [] ∧ tget n.objects (1#48).toNat = some o
      ∧ ({ n with objects := [] } : Namespace).objects = [] := ⟨rfl, by simp, rfl, rfl⟩

/-- A launch record of one level, at 0x10000: one thread on each core. -/
def recorded : State :=
  { State.reset with mem := writeLE (writeLE [(0, 1)] 0x10040 8 0x0001000002040100) 0x10020 8 0 }

def args : LaunchArgs :=
  { record := 0x10000, shape := [(0, 1, 1)], slotMap := List.replicate 15 0, weights := List.replicate 16 1, endWord := 0 }

theorem witness_submit :
    let ws := (List.range 24).map fun i => recorded.loadWord (0x10000 + 8 * i)
    let l := launchOf ws 0
    args.slotMap.length = 15 ∧ args.weights.length = 16 ∧ args.record.toNat % 8 = 0 ∧ args.record.toNat + 192 ≤ hbmEnd
      ∧ (∀ i < 24, recorded.sound (0x10000 + 8 * i) 8) ∧ recordOk l ws ∧ recorded.tumblersFree l.tumblers ∧ recorded.rooted l.asid
      ∧ recorded.grantAll args.shape = some [0] ∧ levelsOk { l with wards := [0] } l.levels
      ∧ bench.grantAll [(0, 8, 4)] = none ∧ levelsOk { l with wards := [0] } [{ level 2 0 with count := 16, domain := 0 }] = false := by
  decide +kernel

theorem witness_suspend :
    let l := bench.myLaunch
    let i : Instr := .suspendLaunch cmd 1
    let s : State := { bench with threads := [], cores := [], launches := [(1, { l with closing := true })], pending := [i] }
    let saved : Saved := { cores := [(0, Core.clear)], squares := [], mem := [], empt := [], tumblers := [] }
    let d : State := { bench with launches := [(1, { l with suspended := true, wards := [], shape := [(0, 1, 1)], saved := some saved })] }
    i ∉ bench.pending ∧ l.suspended = false ∧ l.closing = false ∧ tget bench.launches 1 = some l
      ∧ ({ bench with pending := [i] } : State).suspendable 1 l = false ∧ s.suspendable 1 { l with closing := true }
      ∧ d.myLaunch.saved = some saved ∧ d.grantAll d.myLaunch.shape = some [0] ∧ d.myLaunch.suspended ∧ d.tumblersFree d.myLaunch.tumblers
      ∧ (saved.cores.map Prod.fst).Nodup ∧ ∀ p ∈ saved.cores, p.1 < 64 := by decide +kernel

/-- Core 0 with fifteen threads of queue 3 in its slots, and a context of queue 2 that waits. -/
def crowded : State :=
  let s := bench.modCore 0 fun c => { c with
    slots := Vector.ofFn fun (i : Fin 16) => { Slot.free with tid := if i.val < 15 then some (10 + i.val) else none, ownq := 3 },
    weights := Vector.replicate 16 1,
    runq := [{ tid := 40, ownq := 2, cause := 0, ready := true, readyAt := none, slot := 0, home := 0, held := [] }] }
  { s with
    clock := 1024,
    threads := (List.range 15).map fun i => (10 + i, { bench.me with place := .slot 0 i, homeSlot := i, units := none, gang := false }) }

theorem witness_arbiter :
    let x := crowded.core 0
    let excess (q : Nat) : Int := (x.heldBy q : Int) - (x.entitlement q : Int)
    let needs (q : Nat) : Bool := x.activeQueue q && decide (excess q < 0) && x.waitsFor q
    bench.clock % 1024 = 0 ∧ (bench.core 0).runq = [] ∧ crowded.clock % 1024 = 0 ∧ crowded.closingOn 0 = false ∧ x.spill = none
      ∧ x.runq.length < 64 ∧ (∀ k < 15, (crowded.slot 0 k).isFree = false) ∧ needs 2
      ∧ (∀ k < 16, needs k → excess 2 < excess k ∨ excess 2 = excess k ∧ 2 ≤ k) ∧ 0 < excess 3
      ∧ (∀ k < 16, 0 < excess k → excess k < excess 3 ∨ excess k = excess 3 ∧ k ≤ 3)
      ∧ (crowded.slot 0 14).ownq.toNat = 3 ∧ (crowded.slot 0 14).tid = some 24 := by decide

theorem witness_evictions :
    let job : SpillJob := { slot := 14, tid := 24, cause := 0, toQueue := some 2, asked := [], held := [] }
    let s := crowded.modCore 0 fun c => { c with spill := some job }
    let t : Thread := { bench.me with place := .slot 0 14, homeSlot := 14, units := none, gang := false }
    let closing : State := { bench with launches := [(1, { bench.myLaunch with closing := true })] }
    crowded.net = [] ∧ crowded.toSuspend 0 = none ∧ closing.toSuspend 0 = some 1 ∧ (closing.core 0).spill = none
      ∧ (s.core 0).spill = some job ∧ tget s.threads 24 = some t ∧ t.wait = none ∧ t.outst = none ∧ s.waits = [] ∧ s.sq = []
      ∧ s.commandsOf 0 24 = false ∧ s.withdrawing 0 = false ∧ t.hand = false ∧ t.homeCore = 0 := by decide

theorem witness_refusals :
    let refused := flying (.refusedAccess (access (.load .waitFull) 8)) bench
    let out : State := { flying (.withdraw 3 0 0) bench with waits := [(3, .access (access (.load .waitFull) 8))] }
    let room := flying (.room 0 7) crowded
    let timed := crowded.modCore 0 fun c => { c with runq := c.runq.map fun r => { r with cause := 1, home := 7, readyAt := some 2000 } }
    let resend := refused.modSlot 0 0 fun y => { y with resendAt := some 4096 }
    (refused.core 0).spill = none ∧ refused.toSuspend 0 = none ∧ refused.toRefuse 0 = some (1, refused.me)
      ∧ (∀ p ∈ refused.net, ∀ k, p.2.refusedTid = some k → k = 1)
      ∧ out.waits.find? (fun p => p.1 == 3) = some (3, .access (access (.load .waitFull) 8)) ∧ out.roomAsk = []
      ∧ (flying (.withdraw 3 0 0) bench).waits.find? (fun p => p.1 == 3) = none
      ∧ tget room.net 5 = some (.room 0 7) ∧ (∀ k < 15, (room.slot 0 k).isFree = false) ∧ (∀ r ∈ (room.core 0).runq, r.slot ≠ 15)
      ∧ (∀ r ∈ (timed.core 0).runq, r.slot ≠ 15)
      ∧ ((timed.core 0).runq[0]?).map RunRec.readyAt = some (some 2000) ∧ timed.clock < 2000
      ∧ (resend.slot 0 0).resendAt = some 4096 ∧ resend.clock < 4096 := by
  refine ⟨by decide, by decide, by decide, ?_, by decide⟩
  intro p hp k hk
  simp only [flying, List.mem_singleton] at hp
  subst hp
  exact (Option.some.inj hk).symm

theorem witness_links :
    let l : LinkId := .lane 0 1
    let failed (l : LinkId) : State := { bench with streets := { bench.streets with failed := [l] } }
    ((bench.counters.find? fun x => x.row == 3 && x.what == 4 * linkNumber l + linkKind l).map Counter.count).getD 0 = 0
      ∧ ((({ bench with counters := [{ row := 3, what := 4 * linkNumber l + linkKind l, count := 1023 }] } : State).counters.find? fun x =>
          x.row == 3 && x.what == 4 * linkNumber l + linkKind l).map Counter.count).getD 0 = 1023
      ∧ l ∉ bench.streets.failed ∧ l ∈ (failed l).streets.failed ∧ (.gate 0 0 : LinkId) ∉ bench.streets.failed := by decide

/-- A packet of core 0 on its way through the first street link, which is sound, or has failed. -/
def onWay (b : Body) (lost : Bool) : State :=
  let s := flying b bench
  { s with
    ways := [(5, { src := 0, start := 0, words := (0x44, 0), cls := 0, back := false, stamp := 0 })],
    streets := { s.streets with failed := if lost then [.street 0 0 0] else [] } }

theorem witness_drops :
    let bodies : List Body := [.access (access (.load .plain) 8), .access (access (.store .plain) 8), .amo (trip .flying),
      .reply 1 none (.vals [0]), .ack 5 none, .msg (note 0), .room 0 7, .heap (.esettle 0 (some (1, 6)))]
    ∀ b ∈ bodies, (onWay b true).lost 5 ∧ (onWay b true).offStreets 5 b = false ∧ (onWay b false).lost 5 = false
      ∧ (flying b bench).offStreets 5 b = false ∧ tget (onWay b true).net 5 = some b
      ∧ tget (onWay b true).ways 5 = some { src := 0, start := 0, words := (0x44, 0), cls := 0, back := false, stamp := 0 } := by
  decide +kernel

theorem witness_scrub :
    let bad : State := { bench with bad := [errUnit 0x40000] }
    let soft : State := { bench with soft := [errUnit 0x40000] }
    0x40000 % 32 = 0 ∧ 0x40000 < hbmEnd ∧ bench.bankOpen 0x40000 ∧ errUnit 0x40000 ∉ bench.bad ∧ errUnit 0x40000 ∉ bench.soft
      ∧ errUnit 0x40000 ∈ bad.bad ∧ errUnit 0x40000 ∉ soft.bad ∧ errUnit 0x40000 ∈ soft.soft := by decide

theorem witness_window :
    let row : HotRow := { row := 3, score := 1, age := 0, reported := false }
    let s : State := { bench with hot := bench.hot.set 7 [row] }
    (s.hot[7].map HotRow.row).Nodup ∧ s.bad ++ s.soft = [] ∧ bench.clock % 2 ^ 32 = 0 ∧ bench.delay = Vector.replicate 4 0
      ∧ ({ bench with clock := 1 } : State).clock % 2 ^ 32 ≠ 0 ∧ bench.alerts = [] ∧ 255 < 256 ∧ 8 ≤ 8
      ∧ 1 * 32 / 32 * 32 ∉ bench.patched := by decide

/-! #### Further forms -/

/-- The bench with an engine command, or a copy, of its thread under way, here or at the home it has left. -/
theorem witness_fence_engines :
    let cmd : VecCmd := { tid := 1, pc := 0, order := 0, issued := 0, busy := 1, flags := 0, dsts := [], unit := none }
    let here := bench.modCore 0 fun c => { c with vecQ := [cmd] }
    let home := (bench.modCore 1 fun c => { c with copyQ := [copy [] []] }).modThread 1 fun t => { t with homeCore := 1 }
    here.atBundle ∧ here.commandsOf 0 1 = true ∧ home.atBundle ∧ home.me.homeCore = 1 ∧ home.copiesOf 1 1 = true
      ∧ home.sqOf 0 0 = [] ∧ (flying (.far 0 1 none) bench).carried 5 := by decide

theorem witness_depart :
    let aim := benchG [(1, 0x8000000000010000)]
    let out := aim.modThread 1 fun t => { t with homeCore := 2 }
    aim.mayDepart ∧ aim.me.away = false ∧ out.issues .c (.mig (.g 1)) ∧ out.mayDepart ∧ out.me.away ∧ out.issues .c .home := by decide

/-- A word of a core in the next square: the thread moves there. -/
theorem witness_moves :
    let s := benchG [(1, 0x8000000000401000)]
    let s : State := ({ s with launches := [(1, { s.myLaunch with wards := [0, 1] })] } : State).modSquare 0 fun q => { q with
      service := q.service.map fun w => { w with wards := [0, 1] } }
    (∀ i ∈ [Instr.ld .d (.r (.g 3)) (.g 1) .plain 0, .ldIdx .d (.r (.g 3)) (.g 1) (.g 0) .waitFull .x1, .st .d (.r (.g 3)) (.g 1) .plain 0,
        .stIdx .d (.r (.g 3)) (.g 1) (.g 0) .fillEmpty .x1, .feClr (.g 1) 0], s.movesTo i 64)
      ∧ s.issues .c (.rget (.g 3) (.g 1) .plain) ∧ s.issues .c (.rput (.g 1) (.g 3) .plain)
      ∧ s.issues .c (.red (.g 1) (.g 3) .add .core 0) := by decide

/-- A load that waits for the word a store makes full. -/
theorem witness_served :
    let b := access (.load .takeEmpty) 8
    let a := access (.store .fillEmpty) 8
    let s : State := { flying (.access a) bench with empt := [localKey 0 0x1000 / 8], waits := [(4, .access b)] }
    s.mayArrive 5 a ∧ s.accessReady a ∧ s.waits = [(4, .access b)] ∧ b.key = a.key ∧ b.size = a.size ∧ s.roomAsk = []
      ∧ s.sound a.key 8 := by decide

/-- The bench's thread waits for packet 5 at a bundle of i. -/
def askedAt (i : Instr) (b : Body) (full : Bool) : State :=
  flying b (bench.modThread 1 fun t => { t with
    wait := some (.reply 5), outst := some (5, [3]), regs := if full then t.regs else t.regs.emptyDst 3
    bundle := some { pc := 0, instrs := [i], next := 8 } })

theorem witness_replies_filled :
    let load := askedAt (.ld .d (.r (.g 3)) (.g 1) .plain 0) (.reply 1 none (.vals [7]))
    let hart := askedAt (.efind (.g 3) (.g 4) 0) (.reply 1 none (.vals [7])) true
    (load false).mayReturn 5 ∧ (load false).me.regs.fullDst 3 = false ∧ (load true).mayReturn 5 ∧ (load true).me.regs.fullDst 3
      ∧ (load true).me.unitOf = none ∧ hartOf (.ld .d (.r (.g 3)) (.g 1) .plain 0) = none
      ∧ hart.me.regs.fullDst 3 ∧ hartOf (.efind (.g 3) (.g 4) 0) = some 2 ∧ hartOf (.ematch (.g 3) (.g 1) 0) = some 3 := by decide

theorem witness_post_replies :
    let b (w : Nat) : Body := .reply 1 none (.vals [BitVec.ofNat 256 w])
    let s (w : Nat) : State := (askedAt (.post 1 (.g 1) 2) (b w) true).modThread 1 fun t => { t with outst := some (5, []) }
    let full := (s 0).modCore 0 fun c => { c with lanes := Vector.replicate 4 { Lane.empty with count := 32 } }
    (s 0).mayReturn 5 ∧ (s 0).launchOn 0 = some (1, (s 0).myLaunch) ∧ (s 0).me.unitOf = none ∧ 0 < channelBase
      ∧ ((s 0).me.bundle.map BundleInfo.instrs) = some [.post 1 (.g 1) 2] ∧ (((s 0).core 0).lane 2).count ≠ 32
      ∧ ((full.core 0).lane 2).count = 32 ∧ ((0 : Word) = 0 ∨ (4 : Word).toNat % 8 ≠ 0) ∧ ¬ ((8 : Word) = 0 ∨ (8 : Word).toNat % 8 ≠ 0) := by
  decide

theorem witness_trips : let s (p : AmoPath) := flying (.amo (trip p)) bench
    (s .porter).carried 5 ∧ (s .flying).carried 5 ∧ ((s .flying).core 0).ringHas 2 = false := by decide

/-- A walk of the square's queue whose root entry is zero, and the thread that waits for it. -/
theorem witness_walk_fails :
    let s := (bench.modSquare 0 fun q => { q with walks := [(0, 1)] }).modThread 1 fun t => { t with wait := some (.cond (.walk 0x10008)) }
    ((0 : BitVec 12), 1) ∈ (s.square 0).walks.take 64 ∧ s.sound (s.rootTable.toNat + 8 * 0) 8 ∧ (s.loadWord s.rootTable.toNat).getLsbD 0 = false
      ∧ s.threads = [(1, s.me)] ∧ s.me.wait = some (.cond (.walk 0x10008)) ∧ 0x10008 / 65536 = 1 ∧ squareOf s.me.coreNow = 0
      ∧ (s.launchOf s.me).asid = 0 ∧ s.me.floatDue = false ∧ s.rootTable.toNat + 8 * 0 < 384 * 2 ^ 30 := by decide

/-- Two threads wait for one line, which comes, or for whose page nothing is held, or whose second atom has an error. -/
theorem witness_lines :
    let s := (benchM.modThread 1 fun t => { t with wait := some (.cond (.line 0x40000)) })
    let s : State := { s with threads := s.threads ++ [(2, { s.me with wait := some (.cond (.line 0x40020)) })] }
    let none_ := s.modSquare 0 fun q => { q with trans := [] }
    let bad : State := { s with bad := [errUnit 0x40020] }
    (s.threads.map Prod.fst).Nodup ∧ (∀ p ∈ s.threads, squareOf p.2.coreNow = 0 ∧ (s.launchOf p.2).asid = 0)
      ∧ 0x40020 / 64 = 0x1000 ∧ lookIn (none_.square 0).trans 0 (BitVec.ofNat 64 (64 * 0x1000)) .x = .miss
      ∧ bad.isBad (0x40000 + 32) 32 ∧ lookIn (bad.square 0).trans 0 (BitVec.ofNat 64 (64 * 0x1000)) .x = .hit 0x40000 := by decide

/-- A member of a gang that meets the record of its occurrence: at another unit, without its elected member, or with a value
that the record holds. -/
theorem witness_once_met :
    let r (unit : Word) (elect : Nat) : OnceRec := { occ := 0, reached := 0, elect := elect, posted := false, unit := unit, dsts := [1], vals := [some 7] }
    let s (unit : Word) (elect : Nat) : State := (once true 1).setOnce 0 0 [r unit elect]
    let u := (s 0 0).ctx.pc
    ((s 0 0).onceRecs 0 0).find? (fun x => x.occ == (s 0 0).me.occ) = some (r 0 0) ∧ (r (u + 8) 0).unit ≠ u
      ∧ (r u 7).hasElect ((s u 7).gangOf 1 0 0) = false ∧ (r u 0).hasElect ((s u 0).gangOf 1 0 0) ∧ (r u 0).elect ≠ posInSquare 1
      ∧ (r u 0).dsts = (s u 0).ctx.instrs.flatMap regDsts ∧ (∀ d ∈ [1], (s u 0).me.regs.fullDst d) := by decide

theorem witness_once_awaited :
    let p : Body := .post 0 0 1 0 0x40 1 7
    let s := (flying p (once true 1)).modThread 1 fun t => { t with awaited := [(1, 0)] }
    let r : OnceRec := { occ := 0, reached := 3, elect := 0, posted := true, unit := 0x40, dsts := [1], vals := [some 7] }
    let full := s.setOnce 0 0 [r]
    tget s.net 5 = some p
      ∧ (s.threads.find? fun p => p.2.gang && p.2.homeSlot == 0 && squareOf p.2.homeCore == 0 && posInSquare p.2.homeCore == 1)
        = some (1, s.me)
      ∧ (1, 0) ∈ s.me.awaited ∧ (1, 0) ∉ (flying p (once true 1)).me.awaited
      ∧ (s.modThread 1 fun t => { t with regs := t.regs.emptyDst 1 }).me.regs.fullDst 1 = false ∧ full.me.regs.fullDst 1
      ∧ ((full.onceRecs 0 0).find? fun r => r.occ == 0) = some r
      ∧ ((full.threads.find? fun p => p.2.gang && p.2.homeSlot == 0 && squareOf p.2.homeCore == 0 && posInSquare p.2.homeCore == 0).map
          Prod.fst) = some 2 := by decide

theorem witness_frame_room :
    let s := framed false false 2 0
    s.carried 5 ∧ s.waits = [] ∧ s.roomAsk = [] ∧ s.roomAt (homeOf 0x40000) ∧ (flying (.frameAns (request false true) .goOn) bench).carried 5 := by
  decide

/-- A thief's victim whose porter is free. -/
theorem witness_thief : ((tasks.modSlot 1 1 fun y => { y with victims := [0] }).slot 0 15).isFree := by decide

/-- Two tokens at one balancer, of which the one on the other wire passed last; one that a drain has held at the entry. -/
theorem witness_tumbler_turns :
    let wire (w id : Nat) : Token := { wire := w, layer := 0, tid := 1, id := id, pc := 0, parity := none }
    let op : TnOp := { kind := 0, arg := 0, tid := 1, id := 9, core := 0, begun := true, walk := none }
    let x : Tumbler := { Tumbler.clear with owner := some 1, inside := [wire 0 5, wire (wire 0 5).wire 6] }
    let held : Tumbler := { Tumbler.clear with owner := some 1, ops := [op], arrived := [wire 0 5], entry := [wire 1 6] }
    (x.nextAt (wire 0 5).stand).map Token.id = some 5 ∧ x.inside[0]? = some (wire 0 5) ∧ held.arrived = wire 0 5 :: []
      ∧ held.entry[1 - held.inside.length - held.arrived.length]? = some (wire 1 6) ∧ (∃ o ∈ held.ops, o.begun = true)
      ∧ ({ held with ops := [] } : Tumbler).arrived ≠ [] := by decide

/-- A heap message that has arrived, none of whose channels takes part in an acceptance. -/
theorem witness_heap_open :
    let who : Asker := some (1, 6)
    let ms : List HeapMsg := [.read 0 (.find 1) who, .read 0 (.node 0) who, .read 0 (.cls 2) who, .read 0 (.eq 3 0 2 none) who,
      .read 0 (.found 0 1) who, .einsLookup 0 0 unary unary1 who, .einsLookup 0 1 unary unary1 who, .append 0 2 9 6,
      .insert 0 9 0 unary unary1 unaryChan 0 false false who, .ecost 0 2 1 5 who, .accept 0 0 1 2 who, .accept 0 2 0 2 who,
      .merge 0 0 0 2, .clear 0 0, .best 0 0 50 1, .splice 0 0 noId noId 0 0, .spliceStore 0 0 [], .rehash 0 0,
      .unindex 0 0 0, .index 0 9 unary unary1 0 0 false, .esettle 0 who, .pattern 0 [] [] 1 who, .ematch 0 [] 1 0 who]
    ms.all fun m => let s := heaped m benchH
      tget s.net 5 == some (.heap m) && s.carried 5 && s.alerts.isEmpty && s.entered m (s.heapKeys m) := by decide +kernel

theorem witness_heap_faults :
    let who : Asker := some (1, 6)
    let ask (m : HeapMsg) : State := heaped m benchH
    (ask (.read 0 (.find 99) who)).findFault 0 99 ≠ none ∧ (ask (.read 0 (.find 1) who)).findFault 0 1 = none
      ∧ (ask (.einsLookup 0 1 unary unary1 who)).ownerFault who unaryChan = none
      ∧ ((ask (.einsLookup 0 1 unary unary1 who)).modSquare 0 fun q => { q with badItin := [unaryChan] }).ownerFault who unaryChan ≠ none
      ∧ (ask (.read 0 (.node 0) who)).isBad ((ask (.read 0 (.node 0) who)).nodeKey 0 0) 32 = false := by decide +kernel

/-- A channel with room for a node, a class and a record; one whose children were all roots, or not, or full. -/
theorem witness_heap_room :
    let who : Asker := some (1, 6)
    let s := heaped (.einsLookup 0 1 unary unary1 who) (benchH.hset 0 unaryChan (heap.bktOff (unaryHash % 8)) 4 noId)
    (s.poolHas 0 unaryChan heap.nodePool && s.poolHas 0 unaryChan heap.classPool && s.poolHas 0 unaryChan heap.idxPool)
      ∧ s.findKey 0 unaryChan unaryHash unary unary1 = none ∧ (heaped (.insert 0 7 0 unary unary1 unaryChan 0 false false who)
        (known true)).recordOf 0 unaryChan unaryHash 7 = some 0
      ∧ (heaped (.append 0 2 9 6) benchH).pheadOf 0 2 = noId ∧ (benchH.headAt 0 (idChan 2) 0x30 4) < heap.pcap := by decide +kernel

/-- An acceptance whose settle bits have been cleared; a splice of a class that nothing holds, and its stores. -/
theorem witness_accepted :
    let who : Asker := some (1, 6)
    let s := heaped (.accept 0 2 0 2 who) (benchH.setHeadBit 0 0 1 true)
    let splice := heaped (.splice 0 0 noId noId 2 2) benchH
    let stores := heaped (.spliceStore 0 0 [(0, 1), (benchH.classKey 0 0 + 28, 2)]) benchH
    s.heldClass 0 2 = false ∧ s.linkOf 0 2 = noId ∧ s.headBit 0 0 1 ∧ splice.heldClass 0 0 = false ∧ splice.linkOf 0 0 = noId
      ∧ ([(0, 1), (benchH.classKey 0 0 + 28, 2)].filter fun p => p.1 / 32 = stores.classKey 0 0 / 32) = [(benchH.classKey 0 0 + 28, 2)]
      ∧ (∀ p ∈ s.net, p.2.accepts 0 1 = false) := by decide +kernel

theorem witness_pattern :
    let who : Asker := some (1, 6)
    let rest : List (Word × Option Nat) := [(near, some (localKey 0 0x1000)), (near, none)]
    let s := heaped (.pattern 0 rest [] 1 who) benchH
    tget s.threads 1 = some s.me ∧ tget s.launches 1 = some s.myLaunch ∧ s.me.coreNow = homeOf (localKey 0 0x1000)
      ∧ s.bankOpen (localKey 0 0x1000) ∧ s.isBad (localKey 0 0x1000) 32 = false
      ∧ ({ s with bad := [errUnit (localKey 0 0x1000)] } : State).isBad (localKey 0 0x1000) 32
      ∧ patternOk [0x40, 0, 0, 0, 0x00FFFFFF00000000, 0, 0, 0, 0, 0, 0, 0, 0, 0, 0, 0, 0, 0, 0, 0] 64
      ∧ patternOk (List.replicate 20 (-1)) 64 = false := by decide +kernel

theorem witness_wave : benchH.bankOpen (benchH.mailKey 0) ∧ benchH.bankOpen (heap.key 3 0x78) := by decide +kernel

/-! #### Floats, codes and products -/

theorem witness_float_kinds :
    let f := fp32
    (f.decode 0x3F800000).isFin ∧ (f.decode 0x00000000).isFin ∧ (f.decode 0xC0000000).neg ∧ f.decode 0x7F800000 = .inf false
      ∧ f.decode 0xFF800000 = .inf true ∧ (f.decode 0x7FC00000).isNan ∧ (f.decode 0x7FA00000).isSnan
      ∧ (f.decode 0x3F800000).rat ≠ 0 ∧ (f.decode 0).rat = 0 ∧ (0 : Rat) < (f.decode 0x3F800000).rat ∧ (f.decode 0xC0000000).rat < 0 := by
  decide +kernel

theorem witness_codes :
    let inf := (0x7F8#12).setWidth 8192 <<< 20
    (e8m10.decode ((mirror.extractLsb' (32 * 1) 32).toNat / 2 ^ 13)).isFin ∧ tableEncodable mirror
      ∧ (∃ k < 128, (e8m10.decode ((mirror.extractLsb' (32 * k) 32).toNat / 2 ^ 13)).isFin)
      ∧ e8m10.decode ((inf.extractLsb' 0 32).toNat / 2 ^ 13) = .inf false ∧ (fp32.decode 0x7FC00000).isNan
      ∧ (fp32.decode 0x7F800000).isInf ∧ autoScale mirror [0x40B00000] < 254 := by decide +kernel

/-- The head of the matrix queue with a product over two slices, a store and a row to a register. -/
theorem witness_matrix_forms :
    let l := bench.myLaunch
    isLocal near ∧ namedCore l 0 near = 0 ∧ outOfRange l near (matSize .f16 * 2) = false ∧ near.toNat % 32 = 0
      ∧ (∀ j < 16, bench.sound (localKeyOf l 0 near + 32 * j) 32) ∧ outOfRange l near (8 * FloatTy.f32.bits) = false
      ∧ ((engine (.toV 1 2 7 .bf16 .rn) .queued).me.regs.fullDst (32 + 1)) = false ∧ (0 : Nat) < 2 := by decide +kernel

theorem witness_products :
    let big : BitVec 2048 := 0x7FFFFFFF
    let row : BitVec 1280 := 0x01
    elemClamp .i32 (elemInt .i32 (big.extractLsb' 0 32) + 1) ≠ elemInt .i32 (big.extractLsb' 0 32) + 1
      ∧ (row.extractLsb' 0 8).toInt * (row.extractLsb' 0 8).toInt = 1
      ∧ (2 : Rat) ^ (0 : Int) ≤ apart 1 0 ∧ apart 1 0 < (2 : Rat) ^ ((0 : Int) + 1) := by decide +kernel

/-! #### Commands, the streets and the run queue -/

theorem witness_entries :
    let ws : List Word := [0x00050020, 0x2000, 0x3000, 8, 0, 0, 0, 0x1000]
    let s : State := { bench with plan := [.entry 0 ws], turn := [] }
    let busy : State := { s with queue := [(3, .identify cmd 0)] }
    (ws.getD 0 0).extractLsb' 16 16 = cmd.cid ∧ (ws.getD 7 0).toNat = cmd.cw ∧ (ws.getD 0 0).toNat / 2 ^ 32 = 0
      ∧ (ws.getD 0 0).toNat % 2 ^ 16 = 0x20 ∧ (0x100050020#64).toNat / 2 ^ 32 ≠ 0 ∧ s.plan = .entry cmd.sc ws :: [] ∧ s.busyWith 0 = false
      ∧ s.queue = [] ∧ (∃ p ∈ busy.queue, ∃ d, hostCmd p.2 = some d ∧ d.sc = cmd.sc) :=
  ⟨by decide, by decide, by decide, by decide, by decide, rfl, by decide, rfl, ⟨_, List.mem_cons_self .., cmd, rfl, rfl⟩⟩

theorem witness_alerted :
    let s : State := { bench with alerts := [{ chan := channelOf 0x2000, bank := Config.bankOf 0x2000, postponed := 8 }] }
    bench.rangeOpen 0x2000 8 ∧ bench.rangeOpen 0x2000 32 ∧ bench.bankOpen 0x2000 ∧ s.rangeOpen 0x2000 8 = false := by
  refine ⟨by decide, by decide, by decide, ?_⟩
  simp [State.rangeOpen, State.bankOpen, bench]
  decide

theorem witness_waiting_turn :
    let i : Instr := .writeTurnMasks cmd 0 0 0
    let s : State := { crossing (.msg (note 0)) bench with pending := [i] }
    i ∈ s.pending ∧ s.switchesEmpty 0 = false ∧ i ∉ bench.pending := by decide

theorem witness_run_queue :
    let job : SpillJob := { slot := 14, tid := 24, cause := 0, toQueue := some 2, asked := [], held := [] }
    let s := crowded.modCore 0 fun c => { c with spill := some job, runq := c.runq.map fun r => { r with ready := false } }
    let r : FrameReq := request false false
    let out : State := { flying (.withdraw 3 0 0) bench with waits := [(3, .frame r)] }
    s.withdrawable 24 = [] ∧ (∀ r ∈ (s.core 0).runq, r.ready = false) ∧ (crowded.core 0).waitsFor 2 ∧ (s.core 0).waitsFor 2 = false
      ∧ (∀ k < 15, 14 < k → (crowded.slot 0 k).ownq.toNat = 3 → crowded.shareVictim 0 k = none)
      ∧ out.waits.find? (fun p => p.1 == 3) = some (3, .frame r) ∧ out.carried 5 ∧ (flying (.room 0 7) crowded).carried 5
      ∧ (flying (.refusedFrame r) bench).net.all (fun p => p.2.refusedTid == some 1) := by decide

theorem witness_images :
    let r : RunRec := { tid := 1, ownq := 2, cause := 1, ready := true, readyAt := none, slot := 0, home := 7,
                        held := [(5, .refusedAccess (access (.load .waitFull) 8))] }
    let once : OnceRec := { occ := 3, reached := 1, elect := 0, posted := false, unit := 0x40, dsts := [1, 33], vals := [none, some 7] }
    let v : Saved := { cores := [(0, Core.clear)], squares := [(0, { Square.clear with once := Square.clear.once.set 14 [once] })],
                       mem := [(0x1000, 5)], empt := [0x200], tumblers := [] }
    tget bench.threads r.tid = some bench.me ∧ r.cause < 3 ∧ r.held.length ≤ 5
      ∧ tget v.squares 0 = some { Square.clear with once := Square.clear.once.set 14 [once] }
      ∧ ({ Square.clear with once := Square.clear.once.set 14 [once] } : Square).once[14][0]? = some once
      ∧ bench.myLaunch.lmLo ≤ 8 * 0x200 ∧ 8 * 0x200 + 8 ≤ bench.myLaunch.lmHi ∧ v.empt.contains (8192 * 0 + 0x200) := by decide

/-! #### What the statements ask besides -/

/-- Word a of HBM, whose bank an alert holds. -/
def closed (s : State) (a : Nat) : State :=
  { s with alerts := [{ chan := channelOf a, bank := Config.bankOf a, postponed := 0 }] }

theorem closed_bank (s : State) (a : Nat) (h : a < localBase) (hp : s.patched = []) : (closed s a).bankOpen a = false := by
  simp [closed, State.bankOpen, hp, h]

/-- Nobody owes a word, and no read of the host is awaited; in a level of scope `.host` one is, and a thread has arrived. -/
theorem witness_barrier_arrivals :
    let l := bench.myLaunch
    let host : Level := { level 2 0 with scope := 7 }
    let reading : State := { bench with queue := [(0, .readDeviceMemory cmd 0 0 8 0)] }
    let two := bench2 { bench.me with place := .slot 0 1, homeSlot := 1, wait := some (.barrier 0 (unitAt l (level 2 0) 0 0)) }
    let two : State := { two with launches := [(1, { l with bars := [{ level := 0, unit := unitAt l (level 2 0) 0 0, arrived := [2], bound := 0 }] })] }
    l.suspended = false ∧ (∀ p ∈ bench.threads, ∀ x, p.2.undo = some x → x.pushes = []) ∧ bench.hostReads 0 = false
      ∧ reading.hostReads 1 ∧ host.scope = 7 ∧ two.issues .c (.bar 0) ∧ two.myLaunch.levels[0]? = some (level 2 0)
      ∧ (two.myLaunch.bars.find? fun b => b.level == 0 && b.unit == unitAt l (level 2 0) 0 0).map Bar.arrived = some [2] := by
  refine ⟨by decide, ?_, by decide⟩
  intro p hp x hx
  have : bench.threads.all (fun p => p.2.undo.isNone) = true := by decide
  have := List.all_eq_true.mp this p hp
  simp [hx] at this

/-- A thread that still owes a word to its port when its reply, or its own arrival, completes the bundle. -/
theorem witness_owed :
    let x : Undo := { regs := bench.me.regs, flags := 0, pops := [], pushes := [(4, 9)], order := 0 }
    let s := (asked (.reply 1 none (.vals [7]))).modThread 1 fun t => { t with undo := some x, regs := t.regs.emptyDst 3 }
    s.me.undo.map Undo.pushes = some [(4, 9)] ∧ (4#3).toNat % 4 < 4 ∧ s.me.regs.fullDst 3 = false ∧ s.mayReturn 5 ∧ s.me.unitOf = none
      ∧ (∀ p ∈ (flying (.frameAns (request false true) .goOn) bench).net, p.2.refusedTid = none)
      ∧ (askedAt (.post 1 (.g 1) 2) (.reply 1 none (.vals [0])) true).me.undo = none := by decide

/-- Another thread is kept by the save area: one without level units, or one with. -/
def kept (units : Option (Nat × Nat)) (s : State) : State :=
  { s with threads := tput s.threads 3 { caught with units := units, place := .spilled (localKey 0 0x1000), trapped := none }, nextTid := 4 }

theorem witness_spilled_areas :
    let s := (bench2 caught).modThread 1 fun t => { t with regs := (t.regs.setG 1 1).setG 2 near }
    let f := (benchG [(1, 1), (2, near)]).modCore 0 fun c => c.modSlot 1 fun y => { y with held := some 1 }
    let f : State := { f with mem := writeLE (writeLE f.mem (localKey 0 0x1000) 8 0x800000001FFF0040) (localKey 0 0x1010) 8 0x208001 }
    (∀ u ∈ [none, some (0, 0)], (kept u s).issues .lone (.spill (.g 1) (.g 2)) ∧ (kept u s).trappedIn ((kept u s).value (.g 1)) = some 2
        ∧ (kept u s).spilledAt 1 ((kept u s).keyOf ((kept u s).value (.g 2)) .w) = some 3
        ∧ (tget (kept u s).threads 3).map Thread.units = some u ∧ 3 < (kept u s).nextTid)
      ∧ s.spilledAt 1 (localKeyOf s.myLaunch 0 near) = none ∧ none ≠ some s.ctx.tid
      ∧ (kept none f).issues .lone (.fill (.g 1) (.g 2)) ∧ (kept none f).spilledAt 1 ((kept none f).keyOf ((kept none f).value (.g 2)) .rd) = some 3
      ∧ f.issues .lone (.fill (.g 1) (.g 2)) ∧ f.spilledAt 1 (localKeyOf f.myLaunch 0 near) = none ∧ f.sound (localKey 0 0x1000) 640 := by
  refine ⟨?_, by decide⟩
  intro u hu
  simp only [List.mem_cons, List.not_mem_nil, or_false] at hu
  obtain rfl | rfl := hu <;> decide

/-- A walk at each of its entries, and at one that maps 32 MiB. -/
theorem witness_walk_entries :
    let at_ (n table : Nat) : State := ({ bench with mem := tables } : State).modSquare 0 fun q => { q with
      walks := [(0, 1)], walkAt := [((0, 1), (n, table))] }
    let known (s : State) : Nat × Nat := (((s.square 0).walkAt.find? fun v => v.1 == ((0 : BitVec 12), 1)).map Prod.snd).getD (5, s.rootTable.toNat)
    (∀ p ∈ [(5, 0), (4, 0x1000), (3, 0x2000), (2, 0x3000), (1, 0x4000)],
        known (at_ p.1 p.2) = p ∧ (at_ p.1 p.2).bankOpen (walkKey 0 65536 p.1 p.2) ∧ (at_ p.1 p.2).sound (walkKey 0 65536 p.1 p.2) 8
          ∧ ((at_ p.1 p.2).loadWord (walkKey 0 65536 p.1 p.2)).getLsbD 0 ∧ walkKey 0 65536 p.1 p.2 < 384 * 2 ^ 30)
      ∧ walkKey 0 65536 1 0x4000 = 0x4008 ∧ (0x5001F#64).getLsbD 1 ∧ (0x200001F#64).extractLsb' 12 13 = 0 ∧ (0x200001F#64).getLsbD 1
      ∧ (0x200001F#64).extractLsb' 5 7 = 0 ∧ (0x200001F#64).extractLsb' 48 16 = 0 ∧ (0x1001#64).extractLsb' 1 4 = 0
      ∧ known ((bench.modSquare 0 fun q => { q with walks := [(0, 1)] })) = (5, 0) ∧ bench.tumblers = [] ∧ (bench.threads.map Prod.fst).Nodup
      ∧ ∀ a ∈ [0x40000, 0x40020], benchM.bankOpen a := by decide

theorem witness_walk_closed : (closed ({ bench with mem := tables } : State) 0x1000).bankOpen 0x1000 = false :=
  closed_bank _ _ (by decide) rfl

/-- The hypotheses of `once` that its bundle reads and uses no engine and has none out. -/
theorem witness_once_calm :
    let is : List Instr := [.mov (.g 1) (.g 0) 1]
    (is.any usesBank) = false ∧ ∀ s ∈ [once false 0, once true 0, once true 1], s.me.pending = false
      ∧ overHalves (partsOf is) (s.opened (partsOf is)).engineRoom = none := by decide

theorem witness_restart :
    let parent : Thread := { bench.me with place := .frame 0x40000, gang := false }
    let s := (flying (.frameAns (request false true) (.restart 0x80 0 0 (some 2))) bench).modThread 1 fun t => { t with
      outst := some (5, []), wait := some (.reply 5), gang := false }
    let s : State := { s with threads := tput s.threads 2 parent, nextTid := 3 }
    s.carried 5 ∧ tget s.threads 2 = some parent ∧ (∀ q ∈ s.net ++ s.waits, ∀ m, q.2 = .amo m → m.tid ≠ 1)
      ∧ (∀ q ∈ s.net, ∀ r', q.2 = .frameAns r' .suspend → r'.key ≠ 0x40000)
      ∧ ∀ k m, (s.slot k m).reserved ≠ some 1 ∧ (s.slot k m).held ≠ some 1 := by
  refine ⟨by decide, by decide, ?_, ?_, ?_⟩
  · intro q hq m e
    obtain rfl : q = (5, .frameAns (request false true) (.restart 0x80 0 0 (some 2))) := List.mem_singleton.mp hq
    cases e
  · intro q hq r' e
    obtain rfl : q = (5, .frameAns (request false true) (.restart 0x80 0 0 (some 2))) := List.mem_singleton.mp hq
    cases e
  · intro k m
    have free : Slot.free.reserved ≠ some 1 ∧ Slot.free.held ≠ some 1 := by decide
    rcases k with _ | k
    · by_cases h : m < 16
      · revert m; decide
      · simpa [State.slot, Core.slot, h] using free
    · by_cases h : m < 16
      · have : ∀ m < 16, (Core.clear.slot m).reserved ≠ some 1 ∧ (Core.clear.slot m).held ≠ some 1 := by decide
        exact this m h
      · simpa [State.slot, Core.slot, h] using free

/-- Lane entries that are void, bad, or name a decode table. -/
theorem witness_task_entries :
    let lane (w0 w2 : Nat) : State := { tasks with mem := writeLE (writeLE tasks.mem (localKey 0 2048) 8 w0) (localKey 0 2064) 8 w2 }
    let table : Word := 0x40020
    let banks (b : Bank) (s : State) : State := s.modCore 0 fun c => { c with banks := c.banks.set 0 b }
    let both := tasks.modThread 1 fun t => { t with bank := some 0 }
    let both : State := { both with threads := tput both.threads 2 { both.me with bank := some 1 } }
    let thief := (tasks.modSlot 1 1 fun y => { y with victims := [0] }).modCore 1 fun c => { c with weights := Vector.replicate 16 1 }
    let l := tasks.myLaunch
    (lane 1 0).loadWord (localKey 0 2048) = 1 ∧ ((tasks.core 0).lane 2).count ≤ 32
      ∧ ((lane 4 0).loadWord (localKey 0 2048)).toNat % 8 ≠ 0 ∧ (lane 8 0x40020).loadWord (localKey 0 2064) = table ∧ clear5 table = table
      ∧ tasks.bankFor 0 0 table = some (0, false)
      ∧ (banks { Bank.empty with tag := some (0, table) } tasks).bankFor 0 0 table = some (0, true)
      ∧ (banks { Bank.empty with loading := some (9, 0, table) } tasks).bankFor 0 0 table = some (0, true)
      ∧ both.bankFor 0 0 table = none
      ∧ thief.engineRoute l 1 0 0 = none ∧ (thief.slot 0 15).isFree ∧ thief.engineHeld l 1 0 = false
      ∧ ({ thief with hold := [0] } : State).engineHeld l 1 0
      ∧ ((thief.modSquare 0 fun q => { q with badItin := List.range 1024 }).engineRoute l 1 0 0).isSome
      ∧ ((thief.modSlot 0 15 fun y => { y with tid := some 9 }).slot 0 15).isFree = false
      ∧ (bench.core 0).lanes.toList.all (fun y => y.count == 0) := by decide +kernel

/-- A message that arrives under `anyslot` while the porter is busy. -/
theorem witness_anyslot :
    let s : State := { arriving 6 256 with launches := [(1, { bench.myLaunch with ringOff := 0x8000, ringSize := 256, anyslot := true })] }
    let full := s.modCore 0 fun c => { c with slots := c.slots.map fun y => { y with tid := some 9 } }
    s.myLaunch.anyslot ∧ (s.core 0).ringHas 1 = false ∧ (s.slot 0 1).isFree ∧ (∀ k < 1, (s.slot 0 k).isFree = false)
      ∧ (s.slot 0 15).isFree = false ∧ s.porterKept 0 = false ∧ (∀ n < 15, (full.slot 0 n).isFree = false) ∧ s.carried 5
      ∧ (flying (.msg (note 6)) bench).porterKept 0 = false := by decide +kernel

/-- A request of a thread that meets an uncorrectable record, and an append that does. -/
theorem witness_heap_errors :
    let who : Asker := some (1, 6)
    let m : HeapMsg := .read 0 (.node 0) who
    let s : State := { heaped m benchH with bad := [errUnit (benchH.nodeKey 0 0)] }
    let a : HeapMsg := .append 0 2 9 6
    let u : State := { heaped a benchH with bad := [errUnit (benchH.classKey 0 2)] }
    let back : State := { s with ways := [(6, { src := 0, start := 0, words := (0x44, 0), cls := 0, back := false, stamp := 0 })] }
    tget s.net 5 = some (.heap m) ∧ s.carried 5 ∧ s.alerts = [] ∧ s.entered m (s.heapKeys m) ∧ (s.heapStopAt m (s.heapKeys m)).isSome
      ∧ tget s.ways 6 = none ∧ (tget back.ways 6).isSome
      ∧ u.heapStopAt a (u.heapKeys a) = none ∧ ((u.heapKeys a).find? fun k => u.isBad k 32).isSome
      ∧ (benchH.modHeap 0 fun x => { x with spliceHold := [2] }).heldClass 0 2
      ∧ benchH.nodeKnown 0 0 ∧ benchH.nodeKnown 0 5 = false ∧ pairArity unary ≤ 1 ∧ (0 : Nat) < pairArity unary := by decide +kernel

theorem witness_heap_stages :
    let who : Asker := some (1, 6)
    let ms : List HeapMsg := [.read 0 (.eq 0 1 2 none) who, .read 0 (.eq 1 1 2 none) who, .read 0 (.eq 2 1 2 none) who,
      .insert 0 9 0 unary unary1 unaryChan 0 true false who, .insert 0 9 0 unary unary1 unaryChan 0 false true none,
      .accept 0 1 0 2 who, .merge 0 1 0 1, .merge 0 2 0 2, .read 0 (.eq 1 99 2 none) who]
    ms.all fun m => let s := heaped m benchH
      tget s.net 5 == some (.heap m) && s.carried 5 && s.alerts.isEmpty && s.entered m (s.heapKeys m)
        && s.heapStopAt m (s.heapKeys m) == none := by decide +kernel

/-- The reply of a `CLEAR` finds the acceptance, or the merge, that waits for it. -/
theorem witness_cleared :
    let waits (m : HeapMsg) : State := { heaped (.clear 0 0) benchH with net := [(5, .heap (.clear 0 0)), (6, .heap m)] }
    let u (s : State) : State := ((({ s with net := tdel s.net 5 } : State).setMailbox 0 false true).setHeadBit 0 0 1 true).refreshBusy 0 0
    (∀ m ∈ [HeapMsg.accept 0 2 0 2 (some (1, 7)), .merge 0 2 0 2],
        ((u (waits m)).net.find? fun p => p.2.accepts 0 0) = some (6, .heap m) ∧ (u (waits m)).heldClass 0 2 = false
          ∧ (u (waits m)).linkOf 0 2 = noId ∧ (u (waits m)).headBit 0 0 1 ∧ (waits m).entered (.clear 0 0) [])
      ∧ (u (heaped (.clear 0 0) benchH)).net = []
      ∧ (heaped (.rehash 0 0) benchH).inserting 0 0 = false
      ∧ ({ heaped (.rehash 0 0) benchH with net := [(6, .heap (.insert 0 0 0 unary unary1 0 1 false false none))] } : State).inserting 0 0
      ∧ (benchH.setHead 0 0 0x18 4 1).clearing 0 0 = false := by decide +kernel

theorem witness_headers_closed : ∃ k ∈ benchH.headKeys 0 3, (closed benchH k).bankOpen k = false :=
  ⟨_, List.mem_cons_self .., closed_bank _ _ (by decide +kernel) (by decide +kernel)⟩

/-- A job that tries the child of a node; its pattern is a unary node over variable 0, or over a leaf. -/
theorem witness_match_steps :
    let job (front : List Search) : Job :=
      { j := 0, words := [0x40, 0, 0, 0, 0x00FFFF8000010005, 0, 0x00FFFFFF00000000, 0], launch := 1, dst := 0, next := 0, sent := 0, front := front }
    let tries (goals : List Goal) (vars : List (Option Nat)) : Search := { top := 0, vars := vars, goals := goals }
    let s := ((benchH.setNode 0 0 0 8 0x0000000100050005).setNode 0 0 8 8 0xFFFFFFFFFFFFFFFF).setHead 0 0 0x24 4 8
    let kid := job [tries [.child 1 0] [none, none, none, none]]
    let spliced : State := { s with net := [(5, .heap (.splice 0 0 noId noId 0 0))] }
    s.nodeUsed 0 0 ∧ 0 < s.headAt 0 0 0x24 4 ∧ s.jobWaits 0 kid = false ∧ spliced.jobWaits 0 kid
      ∧ s.jobWaits 0 (job []) = false ∧ s.alerts = [] ∧ (0 : Nat) ≠ noId ∧ 128 ≤ 128
      ∧ [none, none, none, none].getD (128 - 128) (none : Option Nat) = none
      ∧ [some 3, none, none, none].getD (128 - 128) (none : Option Nat) = some 3 := by decide +kernel

/-- The bank of an atom that a `stow` reads is closed. -/
theorem witness_hamper_closed :
    let s := closed (stored (wish true 1 [] [] 0) []) 0
    s.hamperOpen 1 0 (pageAddr block 1 + BitVec.ofNat 64 (32 * 0)) .rd = false := by
  have h : (closed (stored (wish true 1 [] [] 0) []) 0).bankOpen 0 = false := closed_bank _ _ (by decide) rfl
  simp only [State.hamperOpen]
  rw [show (State.hamperXlate _ 1 0 (pageAddr block 1 + BitVec.ofNat 64 (32 * 0)) .rd) = (_, .ok 0) from rfl]
  simp [h]
  simp [closed]

theorem witness_hamper_open :
    let s := stored (wish true 1 [] [] 0) []
    s.hamperOpen 1 0 (pageAddr block 1) .rd ∧ s.hamperOpen 1 0 (pageAddr block 1) .w
      ∧ ({ s with bad := [0] } : State).hamperOpen 1 0 (pageAddr block 1) .rd := by decide +kernel

/-- The one core that sends slices to core 0 along each axis. -/
theorem witness_senders :
    (∀ p ∈ [(false, 3), (true, 0)], ∃ o ∈ bench.sendersTo 0 p.2, o ≠ 0 ∧ bench.sending o p.1 = none ∧ bench.laneFailed o p.2 = false) := by
  decide

/-- An `mrot` of slices in memory, and one whose exchange has ended. -/
theorem witness_rotations :
    let op : MatOp := .rot 0 (some (near, near)) .i8 false
    let s := engine op .queued
    let e := engine (.rot 0 none .i8 false) .ending
    ((s.core 0).matQ.map fun x => (x.op, x.start, x.phase)) = [(op, some 0, .queued)] ∧ 0 < s.clock ∧ tget s.threads 1 = some s.me
      ∧ outOfRange s.myLaunch near (matSize .i8) = false ∧ (∀ j < 8, s.sound (localKeyOf s.myLaunch 0 near + 32 * j) 32)
      ∧ ((e.core 0).matQ.map fun x => (x.phase, x.last)) = [(.ending, some 0)] ∧ e.me.wait = some (.matrix 0) ∧ 0 + 4 ≤ e.clock
      ∧ ({ e with clock := 3 } : State).clock < 0 + 4 := by decide +kernel

/-- Injections are held on the die of an engine that asks for a word of another core. -/
theorem witness_engine_held :
    ({ benchC with hold := [0] } : State).engineHeld benchC.myLaunch 0 1 ∧ benchC.engineHeld benchC.myLaunch 0 1 = false := by decide

/-- The frames of a heap that is created, and of one that is released. -/
theorem witness_heap_frames :
    ((pages.heapFrames 0 0 65536 256).2.map fun fs => fs.all fun l => l.length == 1) = some true
      ∧ pages.alerts = [] ∧ ∀ k < 256, heap.frames.getD k [] ≠ [] ∧ (heap.frames.getD k []).Nodup ∧ ∀ f ∈ heap.frames.getD k [], f % 256 = k := by
  decide +kernel

theorem witness_submit_root : recorded.bankOpen (recorded.rootTable.toNat + 8 * 0) ∧ recorded.sound (recorded.rootTable.toNat + 8 * 0) 8
    ∧ (∀ i < 24, recorded.bankOpen (0x10000 + 8 * i)) := by decide +kernel

/-- Packets whose drop has a clause of its own, and a thread that was on its way, with a float trap due or without. -/
theorem witness_more_drops :
    let bodies : List Body := [.frame (request false true), .frameAns (request false true) .goOn, .far 0 1 none, .ack 3 none,
      .ack 3 (some (0x19, 0)), .heap (.unindex 0 0 0), .withdraw 3 0 0, .migr 1 1 0 (0, 0) 0, .msg { note 0 with tid := none }]
    (∀ b ∈ bodies, (onWay b true).lost 5 ∧ (onWay b true).offStreets 5 b = false ∧ tget (onWay b true).net 5 = some b)
      ∧ tget ({ onWay (.ack 3 none) true with sq := [(3, entry 8)] } : State).sq 3 = some (entry 8)
      ∧ bench.me.floatDue = false ∧ { bench.me with due := [.trap (.float 8) 0 0] }.floatDue
      ∧ wholeLink (.hub 0 0) = .gate 0 0 ∧ replayCounter (.hub 0 0) ≠ replayCounter (.gate 0 0) := by decide +kernel

/-- A row of a hot list whose bank no alert holds. -/
theorem witness_hot_row : bench.bankOpen 3 ∧ (benchM.square 0).walkAt = [] := by decide

end Sys2Proof.Tests
end

section
/-!
PROOFS. Commands and their answers in host memory (O54): what a write to host memory leaves in each byte, completion words,
submission entries and their order, and the blocks that Identify, sensors, certificate and attestation write.
-/

namespace Sys2Proof.Machine

/-! ### Host memory after a write -/

theorem tget_putBytes_out (m : List Host.Cell) {k a : Nat} (bs : List Byte) (h : a < k ∨ k + bs.length ≤ a) :
    tget (putBytes m k bs) a = tget m a := by
  induction bs generalizing m k with
  | nil => rfl
  | cons b r ih =>
    rw [List.length_cons] at h
    rw [putBytes, ih _ (by omega), tget_tput_ne _ _ (by omega)]

theorem tget_putBytes_at (m : List Host.Cell) (k : Nat) {bs : List Byte} {j : Nat} {b : Byte} (h : bs[j]? = some b) :
    tget (putBytes m k bs) (k + j) = some b := by
  induction bs generalizing m k j with
  | nil => simp at h
  | cons c r ih =>
    cases j with
    | zero =>
      obtain rfl : c = b := by simpa using h
      rw [putBytes, tget_putBytes_out _ _ (.inl (by omega))]
      exact tget_tput_self _ _ _
    | succ j =>
      rw [putBytes, show k + (j + 1) = k + 1 + j by omega]
      exact ih _ _ (by simpa using h)

theorem State.hostByte_toHost_at (s : State) (k : Nat) {bs : List Byte} {j : Nat} {b : Byte} (h : bs[j]? = some b) :
    (s.toHost k bs).hostByte (k + j) = b := by
  simp [State.hostByte, tget_putBytes_at _ _ h]

theorem State.hostByte_toHost_out (s : State) {k a : Nat} (bs : List Byte) (h : a < k ∨ k + bs.length ≤ a) :
    (s.toHost k bs).hostByte a = s.hostByte a := by
  rw [State.hostByte, State.hostMem_toHost, tget_putBytes_out _ _ h]
  rfl

theorem State.hostKept_toHost (s : State) (k : Nat) {bs : List Byte} {n : Nat} (h : bs.length = n) :
    s.hostKept (s.toHost k bs) k n := fun _ ha => s.hostByte_toHost_out bs (h ▸ ha)

/-! ### The bytes of words and of long numbers -/

@[simp] theorem length_wordBytes (w : Word) : (wordBytes w).length = 8 := by simp [wordBytes]

theorem getElem?_wordBytes (w : Word) {j : Nat} (h : j < 8) : (wordBytes w)[j]? = some (w.extractLsb' (8 * j) 8) := by
  simp [wordBytes, h]

@[simp] theorem length_flatMap_wordBytes (ws : List Word) : (ws.flatMap wordBytes).length = 8 * ws.length := by
  induction ws with
  | nil => rfl
  | cons w r ih => simp [ih]; omega

/-- Byte j of word k of a list of words. -/
theorem getElem?_flatMap_wordBytes {ws : List Word} {k j : Nat} {w : Word} (hk : ws[k]? = some w) (hj : j < 8) :
    (ws.flatMap wordBytes)[8 * k + j]? = some (w.extractLsb' (8 * j) 8) := by
  induction ws generalizing k with
  | nil => simp at hk
  | cons v r ih =>
    rw [List.flatMap_cons]
    cases k with
    | zero =>
      obtain rfl : v = w := by simpa using hk
      rw [List.getElem?_append_left (by simp; omega), show 8 * 0 + j = j by omega, getElem?_wordBytes _ hj]
    | succ k =>
      rw [List.getElem?_append_right (by simp; omega), length_wordBytes, show 8 * (k + 1) + j - 8 = 8 * k + j by omega]
      exact ih (by simpa using hk)

@[simp] theorem length_bigBytes (v n : Nat) : (bigBytes v n).length = n := by
  induction n with
  | zero => rfl
  | succ n ih => simp [bigBytes, ih]

theorem getElem?_bigBytes (v : Nat) {n j : Nat} (h : j < n) :
    (bigBytes v n)[j]? = some (BitVec.ofNat 8 (v / 256 ^ (n - 1 - j))) := by
  induction n generalizing j with
  | zero => omega
  | succ n ih =>
    cases j with
    | zero => simp [bigBytes]
    | succ j =>
      rw [bigBytes, List.getElem?_cons_succ, ih (by omega), show n + 1 - 1 - (j + 1) = n - 1 - j by omega]

/-- A long number's bytes, the most significant first, are its bits eight by eight. -/
theorem getElem?_bigBytes_toNat (x : BitVec 512) {j : Nat} (h : j < 64) :
    (bigBytes x.toNat 64)[j]? = some (x.extractLsb' (8 * (63 - j)) 8) := by
  rw [getElem?_bigBytes _ h, BitVec.extractLsb', Nat.shiftRight_eq_div_pow, Nat.pow_mul]

/-! ### Completion words (R320) -/

theorem State.hostByte_complete (s : State) (c : Cmd) {status result : Nat} (hr : result < 2 ^ 32) (a : Nat) :
    (s.complete c status result).hostByte a =
      if c.cw ≤ a ∧ a < c.cw + 8 then
        (BitVec.ofNat 64 (result * 2 ^ 32 + c.cid.toNat * 2 ^ 16 + status) : Word).extractLsb' (8 * (a - c.cw)) 8
      else s.hostByte a := by
  rw [State.complete, Nat.mod_eq_of_lt hr]
  split
  next h =>
    obtain ⟨j, rfl⟩ := Nat.exists_eq_add_of_le h.1
    rw [Nat.add_sub_cancel_left]
    exact s.hostByte_toHost_at _ (getElem?_wordBytes _ (by omega))
  next h => exact s.hostByte_toHost_out _ (by rw [length_wordBytes]; omega)

/-! ### Commands that are heard, and that are not (R4, R319) -/

theorem State.command_of_hears {s : State} {c : Cmd} (h : s.hears c) (f : State → State) : s.command c f = f s := by
  obtain ⟨h1, h2, h3⟩ := h
  simp [State.command, h1, h2, h3]

theorem State.command_of_down {s : State} (h : s.halted ∨ s.unpowered) (c : Cmd) (f : State → State) :
    s.command c f = s := by
  simp [State.command, h]

theorem exec_invalidEntry_of_hears {s : State} {c : Cmd} (h : s.hears c) :
    exec (.invalidEntry c) s = .next (s.complete c 2) :=
  congrArg Host.Outcome.next (State.command_of_hears h _)

theorem exec_setRootTableAddress_of_hears {s : State} {c : Cmd} (h : s.hears c) (a : Word) :
    exec (.setRootTableAddress c a) s = .next (({ s with rootTable := a } : State).complete c 0) :=
  congrArg Host.Outcome.next (State.command_of_hears h _)

theorem exec_scrubberControl_of_hears {s : State} {c : Cmd} (hc : s.hears c) {stack period : Nat} (h : stack < 8)
    (hlow : 3600 ≤ period) (hhigh : period ≤ 604800) :
    exec (.scrubberControl c stack period) s =
      .next (({ s with scrubPeriod := s.scrubPeriod.set stack period h, scrubBase := s.scrubBase.set stack s.clock h,
                       scrubNext := s.scrubNext.set stack 0 h, hotNext := s.hotNext.set stack 0 h } : State).complete c 0) := by
  have hstep : exec (.scrubberControl c stack period) s = .next (scrubberStep c stack period s) :=
    congrArg Host.Outcome.next (State.command_of_hears hc _)
  rw [hstep, scrubberStep, dif_pos h, if_neg (by simp; omega)]

/-! ### Submission entries (R320, R339, R241) -/

/-- An entry carries the id and the completion word of a command. -/
def entryIsOf (c : Cmd) (ws : List Word) : Prop := (ws.getD 0 0).extractLsb' 16 16 = c.cid ∧ (ws.getD 7 0).toNat = c.cw

theorem bits_opcode (w : Word) : bits w 0 16 = w.toNat % 2 ^ 16 := by simp [bits]

theorem bits_reserved (w : Word) : bits w 32 32 = w.toNat / 2 ^ 32 := by
  have := w.isLt
  simp only [bits, BitVec.extractLsb'_toNat, Nat.shiftRight_eq_div_pow]
  omega

section
variable {c : Cmd} {ws : List Word} (hc : entryIsOf c ws)
include hc

theorem decodeEntry_of_reserved (h : (ws.getD 0 0).toNat / 2 ^ 32 ≠ 0) : decodeEntry c.sc ws = .invalidEntry c := by
  obtain ⟨sc, cid, cw⟩ := c
  obtain ⟨rfl, rfl⟩ := hc
  simp only [decodeEntry, bits_reserved]
  exact if_pos (by simpa using h)

theorem decodeEntry_of_write (h : (ws.getD 0 0).toNat / 2 ^ 32 = 0) (hop : (ws.getD 0 0).toNat % 2 ^ 16 = 0x20) :
    decodeEntry c.sc ws = .writeDeviceMemory c (ws.getD 1 0).toNat (ws.getD 2 0).toNat (ws.getD 3 0).toNat (ws.getD 4 0) := by
  obtain ⟨sc, cid, cw⟩ := c
  obtain ⟨rfl, rfl⟩ := hc
  simp only [decodeEntry, bits_reserved, bits_opcode, h, hop, bne_self_eq_false, Bool.false_eq_true, if_false, if_true]

theorem decodeEntry_of_read (h : (ws.getD 0 0).toNat / 2 ^ 32 = 0) (hop : (ws.getD 0 0).toNat % 2 ^ 16 = 0x21) :
    decodeEntry c.sc ws = .readDeviceMemory c (ws.getD 1 0).toNat (ws.getD 2 0).toNat (ws.getD 3 0).toNat (ws.getD 4 0) := by
  obtain ⟨sc, cid, cw⟩ := c
  obtain ⟨rfl, rfl⟩ := hc
  simp only [decodeEntry, bits_reserved, bits_opcode, h, hop, bne_self_eq_false, Bool.false_eq_true, if_false, if_true,
    Nat.reduceEqDiff]

/-- Any other entry is what the free reading of its arguments gives, where that is a command of its opcode and its own id. -/
theorem decodeEntry_of_other (h20 : (ws.getD 0 0).toNat % 2 ^ 16 ≠ 0x20) (h21 : (ws.getD 0 0).toNat % 2 ^ 16 ≠ 0x21) :
    decodeEntry c.sc ws = .invalidEntry c
      ∨ opcodeOf (decodeEntry c.sc ws) = some ((ws.getD 0 0).toNat % 2 ^ 16) ∧ hostCmd (decodeEntry c.sc ws) = some c := by
  by_cases h : (ws.getD 0 0).toNat / 2 ^ 32 = 0
  · obtain ⟨sc, cid, cw⟩ := c
    obtain ⟨rfl, rfl⟩ := hc
    simp only [decodeEntry, bits_reserved, bits_opcode, h, h20, h21, bne_self_eq_false, Bool.false_eq_true, if_false]
    split
    next i _ =>
      split_ifs with hi
      · simp only [Bool.and_eq_true, decide_eq_true_eq] at hi
        exact .inr hi
      · exact .inl rfl
    next => exact .inl rfl
  · exact .inl (decodeEntry_of_reserved hc h)

/-- An entry is invalid, or a command of its opcode with its own id and completion word. -/
theorem decodeEntry_cases :
    decodeEntry c.sc ws = .invalidEntry c
      ∨ opcodeOf (decodeEntry c.sc ws) = some ((ws.getD 0 0).toNat % 2 ^ 16) ∧ hostCmd (decodeEntry c.sc ws) = some c := by
  by_cases h : (ws.getD 0 0).toNat / 2 ^ 32 = 0
  · by_cases h20 : (ws.getD 0 0).toNat % 2 ^ 16 = 0x20
    · exact .inr (by rw [decodeEntry_of_write hc h h20, h20]; exact ⟨rfl, rfl⟩)
    · by_cases h21 : (ws.getD 0 0).toNat % 2 ^ 16 = 0x21
      · exact .inr (by rw [decodeEntry_of_read hc h h21, h21]; exact ⟨rfl, rfl⟩)
      · exact decodeEntry_of_other hc h20 h21
  · exact .inl (decodeEntry_of_reserved hc h)

theorem hostCmd_decodeEntry : hostCmd (decodeEntry c.sc ws) = some c := by
  rcases decodeEntry_cases hc with h | ⟨-, h⟩
  · rw [h]
    rfl
  · exact h

end

/-- A service core has begun a command and not ended it, or one waits for it. -/
def State.hasEarlier (s : State) (sc : Nat) : Prop :=
  s.busyWith sc ∨ ∃ p ∈ s.queue, ∃ d, hostCmd p.2 = some d ∧ d.sc = sc

theorem State.receive_of_earlier {s : State} {i : Instr} {c : Cmd} (hc : hostCmd i = some c) (h : s.hasEarlier c.sc) :
    s.receive i = .next (s.postpone i) := by
  simp only [State.receive, hc]
  rw [if_pos]
  simpa [State.hasEarlier, Option.any_eq_true] using h

theorem State.receive_of_not_earlier {s : State} {i : Instr} {c : Cmd} (hc : hostCmd i = some c)
    (h : ¬ s.hasEarlier c.sc) : s.receive i = exec i s := by
  simp only [State.receive, hc]
  rw [if_neg]
  simpa [State.hasEarlier, Option.any_eq_true] using h

/-- A planned submission entry is received once the turns of the cycle are over. -/
theorem step_of_entry {s : State} {sc : Nat} {ws : List Word} {rest : List Choice} (hh : s.halted = false)
    (hu : s.unpowered = false) (hp : s.plan = .entry sc ws :: rest) (ht : s.turn = []) :
    step s = ({ s with plan := rest } : State).receive (decodeEntry sc ws) := by
  simp [step, State.advance, hp, hh, hu, ht, State.planned]

/-- The state with the counter of its free values moved on: host memory is the same. -/
def State.withFree (s : State) (n : Nat) : State := { s with free := n }

@[simp] theorem State.hostByte_withFree (s : State) (n a : Nat) : (s.withFree n).hostByte a = s.hostByte a := rfl

theorem State.eq_withFree_toHost (s : State) (a : Nat) (bs : List Byte) (n : Nat) :
    (s.toHost a bs).withFree n = { s with hostMem := ((s.toHost a bs).withFree n).hostMem, free := n } := rfl

theorem State.hostKept_withFree {s u : State} {at_ len : Nat} (h : s.hostKept u at_ len) (n : Nat) :
    s.hostKept (u.withFree n) at_ len := h

/-! ### Identify, sensors and the certificate (R341, R4, R317) -/

@[simp] theorem length_identity (s : State) : s.identity.length = 8 := by simp [State.identity]

theorem getElem?_identity (s : State) {k : Nat} (h : k < 8) :
    s.identity[k]? = some (if k = 0 then BitVec.ofNat 64 (s.streets.present.toNat * 2 ^ 16 + 1)
      else if h : k - 1 < 4 then BitVec.ofNat 64 s.ringAddr[k - 1]
      else if k = 5 then BitVec.ofNat 64 s.smapAddr else 0) := by
  rcases k with _ | k
  · simp [State.identity]
  · by_cases hk : k < 4
    · rw [State.identity, List.append_assoc, List.singleton_append, List.getElem?_cons_succ,
        List.getElem?_append_left (by simpa)]
      simp [hk]
    · obtain rfl | rfl | rfl : k = 4 ∨ k = 5 ∨ k = 6 := by omega
      all_goals simp [State.identity]

theorem exec_identify_of_hears {s : State} {c : Cmd} (h : s.hears c) (buf : Nat) :
    exec (.identify c buf) s = .next ((s.toHost buf (s.identity.flatMap wordBytes)).complete c 0) :=
  congrArg Host.Outcome.next (State.command_of_hears h _)

theorem exec_readSensors_of_hears {s : State} {c : Cmd} (h : s.hears c) (buf : Nat) :
    exec (.readSensors c buf) s =
      .next (((s.toHost buf ((List.range 64).map (Config.sensorByte s.free))).withFree (s.free + 1)).complete c 0) :=
  congrArg Host.Outcome.next (State.command_of_hears h _)

theorem exec_readCertificate_of_hears {s : State} {c : Cmd} (h : s.hears c) (buf : Nat) :
    exec (.readCertificate c buf) s =
      .next ((s.toHost buf ((List.range Config.certificateLength).map Config.certificateByte)).complete c 0) :=
  congrArg Host.Outcome.next (State.command_of_hears h _)

/-! ### The attestation report (R318) -/

/-- The whole report that `ATTEST` writes: the signed bytes, the signature and twelve zeros. -/
def State.attestation (s : State) (l : Launch) (nonce : BitVec 512) : List Byte :=
  let sig := Config.signature s.free (sha512 (s.attested l nonce))
  s.attested l nonce ++ bigBytes sig.1.toNat 66 ++ bigBytes sig.2.toNat 66 ++ List.replicate 12 0

theorem exec_attest_of_hears {s : State} {c : Cmd} (h : s.hears c) {lid : Nat} {l : Launch}
    (hl : tget s.launches lid = some l) (nonce : BitVec 512) (buf : Nat) :
    exec (.attest c lid nonce buf) s = .next (((s.toHost buf (s.attestation l nonce)).withFree (s.free + 1)).complete c 0) := by
  have hstep : exec (.attest c lid nonce buf) s = .next (attestStep c lid nonce buf s) :=
    congrArg Host.Outcome.next (State.command_of_hears h _)
  rw [hstep, attestStep, State.launch?, hl]
  simp only [State.attestation, State.withFree, State.free_toHost]

theorem exec_attest_of_no_launch {s : State} {c : Cmd} (h : s.hears c) {lid : Nat} (hl : tget s.launches lid = none)
    (nonce : BitVec 512) (buf : Nat) : exec (.attest c lid nonce buf) s = .next (s.complete c 1) := by
  have hstep : exec (.attest c lid nonce buf) s = .next (attestStep c lid nonce buf s) :=
    congrArg Host.Outcome.next (State.command_of_hears h _)
  rw [hstep, attestStep, State.launch?, hl]

/-- The four words at the head of a report. -/
def State.attestHead (s : State) (l : Launch) : List Word :=
  [BitVec.ofNat 64 (2 ^ 32 + 0x53545441), l.asid.setWidth 64, s.clockWord, BitVec.ofNat 64 l.tables.length]

/-- The signed bytes are the head, the nonce, and the digests of ROM, launch record and tables, in this order. -/
theorem attested_layout (s : State) (l : Launch) (nonce : BitVec 512) :
    ∃ rom tables, rom.length = 64 ∧ tables.length = 64 ∧ s.attested l nonce =
      (s.attestHead l).flatMap wordBytes ++ bigBytes nonce.toNat 64 ++ rom
        ++ bigBytes (sha512 (l.words.flatMap wordBytes)).toNat 64 ++ tables :=
  ⟨_, _, length_bigBytes _ 64, length_bigBytes _ 64, rfl⟩

/-- A report is its signed bytes, the two halves of the signature, and zeros. -/
theorem attestation_layout (s : State) (l : Launch) (nonce : BitVec 512) :
    ∃ rom tables r v, rom.length = 64 ∧ tables.length = 64 ∧ r.length = 66 ∧ v.length = 66 ∧ s.attestation l nonce =
      (s.attestHead l).flatMap wordBytes ++ (bigBytes nonce.toNat 64 ++ (rom
        ++ (bigBytes (sha512 (l.words.flatMap wordBytes)).toNat 64 ++ (tables ++ (r ++ (v ++ List.replicate 12 0)))))) := by
  obtain ⟨rom, tables, hrom, htables, hsigned⟩ := attested_layout s l nonce
  obtain ⟨r, v, hr, hv, hreport⟩ : ∃ r v, r.length = 66 ∧ v.length = 66 ∧
      s.attestation l nonce = s.attested l nonce ++ r ++ v ++ List.replicate 12 0 :=
    ⟨_, _, length_bigBytes _ 66, length_bigBytes _ 66, rfl⟩
  exact ⟨rom, tables, r, v, hrom, htables, hr, hv, by simp only [hreport, hsigned, List.append_assoc]⟩

/-- A list behind another is read at its offset. -/
theorem getElem?_append_at {xs ys : List Byte} {n : Nat} (h : xs.length = n) (j : Nat) :
    (xs ++ ys)[n + j]? = ys[j]? := by
  rw [List.getElem?_append_right (by omega), h, Nat.add_sub_cancel_left]

section
variable (s : State) (l : Launch) (nonce : BitVec 512)

@[simp] theorem length_attestation : (s.attestation l nonce).length = 432 := by
  obtain ⟨rom, tables, r, v, hrom, htables, hr, hv, hlay⟩ := attestation_layout s l nonce
  simp [hlay, hrom, htables, hr, hv, State.attestHead]

theorem attestation_head {k j : Nat} {w : Word} (hk : (s.attestHead l)[k]? = some w) (hj : j < 8) :
    (s.attestation l nonce)[8 * k + j]? = some (w.extractLsb' (8 * j) 8) := by
  obtain ⟨rom, tables, r, v, hrom, htables, hr, hv, hlay⟩ := attestation_layout s l nonce
  have hlt : 8 * k + j < ((s.attestHead l).flatMap wordBytes).length := by
    have := (List.getElem?_eq_some_iff.1 hk).1
    rw [length_flatMap_wordBytes]
    omega
  rw [hlay, List.getElem?_append_left hlt, getElem?_flatMap_wordBytes hk hj]

theorem attestation_nonce {j : Nat} (hj : j < 64) :
    (s.attestation l nonce)[0x20 + j]? = some (nonce.extractLsb' (8 * (63 - j)) 8) := by
  obtain ⟨rom, tables, r, v, hrom, htables, hr, hv, hlay⟩ := attestation_layout s l nonce
  rw [hlay, getElem?_append_at (by simp [State.attestHead]), List.getElem?_append_left (by simpa),
    getElem?_bigBytes_toNat _ hj]

theorem attestation_record {j : Nat} (hj : j < 64) :
    (s.attestation l nonce)[0xA0 + j]? = some ((sha512 (l.words.flatMap wordBytes)).extractLsb' (8 * (63 - j)) 8) := by
  obtain ⟨rom, tables, r, v, hrom, htables, hr, hv, hlay⟩ := attestation_layout s l nonce
  rw [hlay, show 0xA0 + j = 32 + (64 + (64 + j)) by omega, getElem?_append_at (by simp [State.attestHead]),
    getElem?_append_at (length_bigBytes _ _), getElem?_append_at hrom, List.getElem?_append_left (by simpa),
    getElem?_bigBytes_toNat _ hj]

theorem attestation_zeros {j : Nat} (hj : j < 12) : (s.attestation l nonce)[0x1A4 + j]? = some 0 := by
  obtain ⟨rom, tables, r, v, hrom, htables, hr, hv, hlay⟩ := attestation_layout s l nonce
  rw [hlay, show 0x1A4 + j = 32 + (64 + (64 + (64 + (64 + (66 + (66 + j)))))) by omega,
    getElem?_append_at (by simp [State.attestHead]), getElem?_append_at (length_bigBytes _ _), getElem?_append_at hrom,
    getElem?_append_at (length_bigBytes _ _), getElem?_append_at htables, getElem?_append_at hr,
    getElem?_append_at hv]
  exact List.getElem?_replicate_of_lt hj

end

/-- Settles O54, command by command. -/
theorem commandsAreAnsweredInHostMemory : Obligations.CommandsAreAnsweredInHostMemory := by
  unfold Obligations.CommandsAreAnsweredInHostMemory
  intro s c
  refine ⟨fun status result a _ hr => s.hostByte_complete c hr a,
    fun h => congrArg Host.Outcome.next (State.command_of_down h c _), fun h => ?_⟩
  refine ⟨exec_invalidEntry_of_hears h, exec_setRootTableAddress_of_hears h,
    fun stack period hst h1 h2 => exec_scrubberControl_of_hears h hst h1 h2, ?entry, ?identify, ?sensors,
    ?certificate, ?attest⟩
  case entry =>
    intro ws hid hcw
    have hc : entryIsOf c ws := ⟨hid, hcw⟩
    refine ⟨decodeEntry_of_reserved hc, fun hres => ⟨decodeEntry_of_write hc hres, decodeEntry_of_read hc hres,
      decodeEntry_cases hc⟩, fun rest hplan hturn => ?_⟩
    obtain ⟨hrun, hpower, -⟩ := h
    have hstep := step_of_entry hrun hpower hplan hturn
    exact ⟨fun hfree => hstep.trans (State.receive_of_not_earlier (hostCmd_decodeEntry hc) hfree),
      fun hearlier => hstep.trans (State.receive_of_earlier (hostCmd_decodeEntry hc) hearlier)⟩
  case identify =>
    intro buf
    refine ⟨_, exec_identify_of_hears h buf, rfl, s.hostKept_toHost buf (by simp), fun k hk j hj => ?_⟩
    rw [Nat.add_assoc]
    exact s.hostByte_toHost_at buf (getElem?_flatMap_wordBytes (getElem?_identity s hk) hj)
  case sensors =>
    exact fun buf => ⟨_, exec_readSensors_of_hears h buf, s.eq_withFree_toHost buf _ _,
      State.hostKept_withFree (s.hostKept_toHost buf (by simp)) _⟩
  case certificate =>
    refine fun buf => ⟨_, exec_readCertificate_of_hears h buf, rfl, s.hostKept_toHost buf (by simp), fun j hj => ?_⟩
    exact s.hostByte_toHost_at buf (by simp [hj])
  case attest =>
    refine fun lid nonce buf => ⟨fun hl => exec_attest_of_no_launch h hl nonce buf, fun l hl => ?_⟩
    have hbyte {n j : Nat} {b : Byte} (hb : (s.attestation l nonce)[n + j]? = some b) :
        ((s.toHost buf (s.attestation l nonce)).withFree (s.free + 1)).hostByte (buf + n + j) = b := by
      rw [State.hostByte_withFree, Nat.add_assoc]
      exact s.hostByte_toHost_at buf hb
    refine ⟨_, exec_attest_of_hears h hl nonce buf, s.eq_withFree_toHost buf _ _,
      State.hostKept_withFree (s.hostKept_toHost buf (by simp)) _,
      fun j hj => ⟨?_, ?_, ?_, ?_⟩,
      fun j hj => ⟨hbyte (attestation_nonce s l nonce hj), hbyte (attestation_record s l nonce hj)⟩,
      fun j hj => hbyte (attestation_zeros s l nonce hj)⟩
    · exact hbyte (n := 0) (attestation_head (k := 0) s l nonce rfl hj)
    · exact hbyte (attestation_head (k := 1) s l nonce rfl hj)
    · exact hbyte (attestation_head (k := 2) s l nonce rfl hj)
    · exact hbyte (attestation_head (k := 3) s l nonce rfl hj)

end Sys2Proof.Machine
end

section
/-!
PROOFS. Links, scrubbers and resets (O60): a packet of a thread with a float trap due is dropped (R71, R293). The thread leaves
its waits and issues its bundle again, at the program counter it has then. Where a trip of its own `amo` is under way beside the
migration, the slot that the trip gives up may restart the thread itself (R143, R276), so that this is not the program counter
the thread had on its way.
-/

namespace Sys2Proof.Machine

/-- A thread on its way, before its first bundle, with a float trap due. -/
def trappedMigrant : Thread := { Thread.blank with place := .flying 5, due := [.trap (.float 1) 0 0] }

/-- A frame answer that restarts thread 1 at address 8. -/
def restartAtEight : FrameReq × FrameAns :=
  ({ ending := true, tid := 1, core := 0, slot := 1, key := 0, addr := 0, next := 0, fmtp := 0, sclp := 0, task := false,
     launch := 1 }, .restart 8 0 0 (some 1))

/-- The migration of that thread is packet 5, whose way meets a failed street link; a trip of its own `amo`, packet 6, is in slot
1 of core 0; and core 0 restarts the thread in the next slot that becomes free. -/
def restartedMigrant : State :=
  { State.reset with
    threads := [(1, trappedMigrant)]
    cores := [(0, { Core.clear with restarts := [restartAtEight] })]
    net := [(5, .migr 1 1 0 (0x44, 0) 0),
            (6, .amo { op := .add, scope := .core, key := 0, y0 := 0, y1 := 0, core := 0, slot := 0, tid := 1, addr := 0,
                       path := .slot 0 1 })]
    ways := [(5, { src := 0, start := 0, words := (0x44, 0), cls := 0, back := false, stamp := 0 })]
    streets := { Streets.reset with failed := [.street 0 0 0] } }

/-- The program counter of a thread after a step. -/
def pcAfter (o : Host.Outcome State Fault Refusal) (tid : Nat) : Option Word :=
  match o with
  | .next s => (tget s.threads tid).map Thread.pc
  | .fault _ | .refused _ => none

/-- The hypotheses of the clause are met: a switch drops the packet, and a float trap is due. -/
theorem restartedMigrant_is_lost :
    restartedMigrant.lost 5 = true ∧ restartedMigrant.offStreets 5 (.migr 1 1 0 (0x44, 0) 0) = false
      ∧ trappedMigrant.floatDue = true := by decide +kernel

/-- The model issues the bundle again where the restart put the thread. -/
theorem pcAfter_routeDrop_restartedMigrant : pcAfter (exec (.routeDrop 5) restartedMigrant) 1 = some 8 := by decide +kernel

/-- Refutes O60: the clause of a dropped migration gives the thread, where a float trap is due, the program counter it had on its
way (0), and the model the one it has once it has left its waits (8). -/
theorem not_linksScrubbersAndResetsFollowEvents : ¬ Obligations.LinksScrubbersAndResetsFollowEvents := by
  unfold Obligations.LinksScrubbersAndResetsFollowEvents
  intro h
  obtain ⟨-, -, hdrop, -⟩ := h restartedMigrant
  obtain ⟨hlost, hoff, hdue⟩ := restartedMigrant_is_lost
  obtain ⟨-, -, hgone⟩ := hdrop 5 _ rfl
  obtain ⟨-, -, -, -, -, -, ⟨-, -, -, -, hmigr⟩, -⟩ := hgone hlost hoff
  obtain ⟨-, htrapped⟩ := hmigr 1 1 0 (0x44, 0) 0 trappedMigrant rfl rfl
  have hpc := congrArg (pcAfter · 1) (htrapped hdue)
  rw [pcAfter_routeDrop_restartedMigrant] at hpc
  exact absurd hpc (by decide +kernel)

end Sys2Proof.Machine
end

section
/-!
PROOFS. Instructions that ask the home of their address, move their thread, or wait for what they order (O13, O15 to O18, O29, O33):
what a bundle sends and what its sends leave alone, the stops of its checks, the moves, posted accesses, amo, fences and idle.
-/

namespace Sys2Proof.Machine

/-! ### What an issuing bundle sends -/

theorem bankSought_of_unused {s : State} {i : Instr} (h : usesBank i = false) : s.bankSought i = s.me.bank := by
  simp [State.bankSought, h]

theorem sendOn_inWith (s : State) (i : Instr) (t : Thread) (ps : List (BitVec 3 × Word)) (a : Word) {k : Bool}
    (id src cls : Nat) (ws : Word × Word) :
    (s.inWith i t ps a k).sendOn id src cls ws = (s.sendOn id src cls ws).inWith i t ps a k := rfl

theorem sendTo_inWith (s : State) (i : Instr) (t : Thread) (ps : List (BitVec 3 × Word)) (a : Word) {k : Bool} (id : Nat)
    (l : Launch) (core home cls : Nat) :
    (s.inWith i t ps a k).sendTo id l core home cls = (s.sendTo id l core home cls).inWith i t ps a k := by
  unfold State.sendTo
  split
  · rfl
  · rfl

/-- The launch by which the issuing thread's packets find their way is its own. -/
theorem routing_inWith (s : State) (i : Instr) (t : Thread) (ps : List (BitVec 3 × Word)) (a : Word) {k : Bool} (core : Nat)
    (hl : t.launch = s.me.launch) : (s.inWith i t ps a k).routing s.ctx.tid core = s.myLaunch := by
  simp [State.routing, State.thread?, State.inWith, State.myLaunch, State.launchOf, State.launch?, hl]

/-- Setting out on a way leaves the thread, the cores and the record of the bundle alone. -/
theorem sendTo_frame (s : State) (id : Nat) (l : Launch) (core home cls : Nat) :
    ∃ w n, s.sendTo id l core home cls = { s with ways := w, stamp := n } := by
  unfold State.sendTo
  split
  · exact ⟨_, _, rfl⟩
  · exact ⟨_, _, rfl⟩


/-! ### The checks of a bundle of one instruction -/

/-- The state in which the checks of a bundle of i alone are made, where none of R93 stops it: its bundle noted, its bank
looked for. -/
def State.posed (s : State) (i : Instr) : State :=
  { s with threads := tput s.threads s.ctx.tid (s.meIn i), ctx := { s.ctxIn i with phase := s.ctx.phase } }

theorem opening_eq_posed {s : State} {p : Part} {i : Instr} (h : s.atBundle = true)
    (hc : (s.opening p i).issueChecks [(p, i)] = none) : s.opening p i = s.posed i :=
  State.opening_eq (atBundle_parts h).1 (atBundle_parts h).2.2.1 hc

@[simp] theorem me_posed (s : State) (i : Instr) : (s.posed i).me = s.meIn i := State.me_put s _ _ _ rfl

@[simp] theorem myLaunch_posed (s : State) (i : Instr) : (s.posed i).myLaunch = s.myLaunch := by
  rw [State.myLaunch, me_posed]
  rfl

@[simp] theorem src_posed (s : State) (i : Instr) (r : Reg) : (s.posed i).src r = s.value r := by
  cases r with
  | g n => rfl
  | q k => rfl
  | sp x => cases x <;> simp [State.src, State.value, State.special] <;> rfl

@[simp] theorem oor_posed (s : State) (i : Instr) (a : Word) (n : Nat) : (s.posed i).oor a n = s.oor a n := by
  simp [State.oor]

@[simp] theorem lookup_posed (s : State) (i : Instr) (a : Word) (p : Perm) : (s.posed i).lookup a p = s.lookup a p := by
  simp only [State.lookup, myLaunch_posed]
  rfl

@[simp] theorem keyOf_posed (s : State) (i : Instr) (a : Word) (p : Perm) : (s.posed i).keyOf a p = s.keyOf a p := by
  simp only [State.keyOf, lookup_posed, myLaunch_posed]
  rfl

@[simp] theorem core_posed (s : State) (i : Instr) : (s.posed i).ctx.core = s.ctx.core := rfl
@[simp] theorem slot_posed (s : State) (i : Instr) : (s.posed i).ctx.slot = s.ctx.slot := rfl
@[simp] theorem tid_posed (s : State) (i : Instr) : (s.posed i).ctx.tid = s.ctx.tid := rfl
@[simp] theorem sqOf_posed (s : State) (i : Instr) (c n : Nat) : (s.posed i).sqOf c n = s.sqOf c n := rfl

theorem firstStop_eq_none {xs : List (Option Stop)} : firstStop xs = none ↔ ∀ x ∈ xs, x = none := by
  induction xs with
  | nil => simp [firstStop]
  | cons x r ih => cases x <;> simp [firstStop, ih]

/-- What stops a bundle, where the checks before the instruction's own do not. -/
theorem firstStop_eq_some {xs : List (Option Stop)} {x : Stop} (h : firstStop xs = some x) : some x ∈ xs := by
  induction xs with
  | nil => simp [firstStop] at h
  | cons y r ih =>
    cases y with
    | none => exact List.mem_cons_of_mem _ (ih h)
    | some y =>
      obtain rfl : y = x := by simpa [firstStop] using h
      exact List.mem_cons_self

theorem overHalves_alone (p : Part) (i : Instr) (f : Instr → Option Stop) : overHalves [(p, i)] f = inHalf p (f i) := by
  cases h : inHalf p (f i) <;> simp [overHalves, firstStop, h]

theorem inHalf_eq_none {p : Part} {x : Option Stop} : inHalf p x = none ↔ x = none := by
  rcases x with _ | x
  · simp [inHalf]
  · cases x <;> simp [inHalf]

theorem inHalf_eq_migrate {p : Part} {x : Option Stop} {c : Nat} : inHalf p x = some (.migrate c) ↔ x = some (.migrate c) := by
  rcases x with _ | x
  · simp [inHalf]
  · cases x <;> simp [inHalf]

theorem issues_posed {s : State} {p : Part} {i : Instr} (h : s.issues p i) : s.opening p i = s.posed i :=
  opening_eq_posed (issues_bundle h) (firstStop_cons (issues_admit h)).1

/-- The instruction's own checks let it issue. -/
theorem issues_late {s : State} {p : Part} {i : Instr} (h : s.issues p i) : (s.posed i).late i = none := by
  have hn := issues_admit h
  rw [issues_posed h, State.firstStopOf, firstStop_eq_none] at hn
  simpa [overHalves_alone, inHalf_eq_none] using hn (overHalves [(p, i)] (s.posed i).late) (by simp)


/-! ### A bundle that is to be issued elsewhere -/

theorem issueChecks_ne_migrate (s : State) (p : Part) (i : Instr) (c : Nat) : s.issueChecks [(p, i)] ≠ some (.migrate c) := by
  intro h
  have hm := firstStop_eq_some h
  simp only [overHalves_alone, doubleWrite, List.mem_cons, List.not_mem_nil, or_false] at hm
  rcases hm with hm | hm | hm | hm | hm
  · simp at hm
  · have hm := inHalf_eq_migrate.1 hm.symm
    unfold State.illegalOperand at hm
    split at hm <;> simp [stopFault] at hm
  · have hm := inHalf_eq_migrate.1 hm.symm
    unfold State.unbound at hm
    split at hm <;> simp [stopFault] at hm
  · have hm := inHalf_eq_migrate.1 hm.symm
    unfold State.notAtHome at hm
    split at hm <;> simp [stopFault] at hm
  · have hm := inHalf_eq_migrate.1 hm.symm
    unfold State.noTumbler at hm
    split at hm
    · split at hm <;> simp [stopFault] at hm
    · simp at hm

theorem bindStop_ne_migrate (s : State) (i : Instr) (c : Nat) : s.bindStop i ≠ some (.migrate c) := by
  unfold State.bindStop stopFault
  repeat' split
  all_goals simp

theorem readiness_ne_migrate (s : State) (i : Instr) (c : Nat) : s.readiness i ≠ some (.migrate c) := by
  unfold State.readiness
  split
  · simp
  · simp

theorem engineRoom_ne_migrate (s : State) (i : Instr) (c : Nat) : s.engineRoom i ≠ some (.migrate c) := by
  unfold State.engineRoom
  split <;> first | (split <;> simp) | simp

theorem badOperand_ne_migrate (s : State) (i : Instr) (c : Nat) : s.badOperand i ≠ some (.migrate c) := by
  unfold State.badOperand stopFault
  repeat' split
  all_goals simp

/-- Only an instruction's own checks move its thread to another core (R57). -/
theorem firstStopOf_migrate {s : State} {p : Part} {i : Instr} {c : Nat} (h : s.firstStopOf [(p, i)] = some (.migrate c)) :
    s.issueChecks [(p, i)] = none ∧ s.late i = some (.migrate c) := by
  constructor
  · unfold State.firstStopOf at h
    cases hc : s.issueChecks [(p, i)] with
    | none => rfl
    | some x =>
      rw [hc] at h
      obtain rfl : x = .migrate c := by simpa [firstStop] using h
      exact absurd hc (issueChecks_ne_migrate s p i c)
  · have hm := firstStop_eq_some h
    simp only [overHalves_alone, List.mem_cons, List.not_mem_nil, or_false] at hm
    rcases hm with hm | hm | hm | hm | hm | hm
    · exact absurd hm.symm (issueChecks_ne_migrate s p i c)
    · exact absurd (inHalf_eq_migrate.1 hm.symm) (bindStop_ne_migrate s i c)
    · exact absurd (inHalf_eq_migrate.1 hm.symm) (readiness_ne_migrate s i c)
    · exact absurd (inHalf_eq_migrate.1 hm.symm) (engineRoom_ne_migrate s i c)
    · exact absurd (inHalf_eq_migrate.1 hm.symm) (badOperand_ne_migrate s i c)
    · exact inHalf_eq_migrate.1 hm.symm

/-! ### Addresses and routes that pass their checks (R112, R292) -/

theorem keyed_keyOf {s : State} {a : Word} {n : Nat} {p : Perm} (h : s.checkAddr a n p = none) (ho : s.oor a n = false) :
    s.keyed a p (s.keyOf a p) := by
  unfold State.keyed State.keyOf
  by_cases hl : isLocal a = true
  · rw [if_pos hl, if_pos hl]
  · rw [if_neg hl, if_neg hl]
    unfold State.checkAddr stopFault at h
    simp only [ho, hl, Bool.false_eq_true, if_false] at h
    split at h
    · simp at h
    · cases hk : s.lookup a p <;> simp_all

theorem checkEntry_route {s : State} {e cls : Nat} {amo : Bool} (h : s.checkEntry e cls amo = none) :
    ∃ r, s.hwRoute s.myLaunch (squareOf s.ctx.core) e cls amo = .ok r := by
  unfold State.checkEntry stopFault at h
  simp only at h
  split at h
  · simp at h
  · split at h
    · simp at h
    · exact ⟨_, ‹_›⟩

theorem badEntry_ne_migrate (s : State) (e : Nat) (cont : Bool) (c : Nat) : s.badEntry e cont ≠ some (.migrate c) := by
  unfold State.badEntry stopFault
  dsimp only
  repeat' split
  all_goals simp

theorem checkEntry_ne_migrate (s : State) (e cls : Nat) (amo : Bool) (c : Nat) : s.checkEntry e cls amo ≠ some (.migrate c) := by
  unfold State.checkEntry stopFault
  have := badEntry_ne_migrate s e (contOf (s.itinEntry (squareOf s.ctx.core) e).1) c
  dsimp only
  repeat' split
  all_goals simp_all

theorem checkHome_ne_migrate (s : State) (home cls : Nat) (amo : Bool) (c : Nat) :
    s.checkHome home cls amo ≠ some (.migrate c) := by
  unfold State.checkHome
  split
  · simp
  · exact checkEntry_ne_migrate s _ _ _ c

theorem checkAddr_ne_migrate (s : State) (a : Word) (n : Nat) (p : Perm) (c : Nat) : s.checkAddr a n p ≠ some (.migrate c) := by
  unfold State.checkAddr stopFault
  repeat' split
  all_goals simp

theorem chargedHit_ne_migrate (s : State) (c : Nat) : s.chargedHit ≠ some (.migrate c) := by
  unfold State.chargedHit
  split
  · simp
  · simp

theorem overlapStop_ne_migrate (s : State) (k n c : Nat) : s.overlapStop k n ≠ some (.migrate c) := by
  unfold State.overlapStop
  have := chargedHit_ne_migrate s c
  repeat' split
  all_goals simp_all

theorem roomStop_ne_migrate (s : State) (c : Nat) : s.roomStop ≠ some (.migrate c) := by
  unfold State.roomStop
  have := chargedHit_ne_migrate s c
  repeat' split
  all_goals simp_all

theorem releaseStop_ne_migrate (s : State) (c : Nat) : s.releaseStop ≠ some (.migrate c) := by
  unfold State.releaseStop
  repeat' split
  all_goals simp

/-- An access that stays reaches no core beyond the square. -/
theorem migrateStop_none {s : State} {a : Word} {n : Nat} (h : s.migrateStop a n = none) (hl : isLocal a = true)
    (ho : s.oor a n = false) : squareOf (namedCore s.myLaunch s.ctx.core a) = squareOf s.ctx.core := by
  unfold State.migrateStop at h
  simp only [hl, ho, Bool.not_true, Bool.or_self, Bool.false_eq_true, if_false] at h
  split at h
  · assumption
  · simp [firstStop_eq_none] at h

/-- One that moves its thread goes to the core it names, beyond the square, by the way that leads there. -/
theorem migrateStop_migrate {s : State} {a : Word} {n c : Nat} (h : s.migrateStop a n = some (.migrate c)) :
    isLocal a = true ∧ c = namedCore s.myLaunch s.ctx.core a ∧ squareOf c ≠ squareOf s.ctx.core ∧ ∃ r, s.routeTo c r := by
  unfold State.migrateStop at h
  simp only at h
  split at h
  · simp at h
  · rename_i hl
    split at h
    · simp at h
    · rename_i hs
      simp only [Bool.or_eq_true, Bool.not_eq_true', not_or, Bool.not_eq_false] at hl
      cases he : s.checkEntry (256 + s.myLaunch.squareIdx (namedCore s.myLaunch s.ctx.core a)) 2 false with
      | some x =>
        rw [he] at h
        obtain rfl : x = .migrate c := by simpa [firstStop] using h
        exact absurd he (checkEntry_ne_migrate s _ _ _ c)
      | none =>
        obtain rfl : namedCore s.myLaunch s.ctx.core a = c := by
          have hm := firstStop_eq_some h
          simpa [he, (releaseStop_ne_migrate s c).symm, eq_comm] using hm
        exact ⟨hl.1, rfl, hs, checkEntry_route he⟩

/-! ### The issuing thread's own view during its effect -/

@[simp] theorem oor_open (s : State) (i : Instr) (ps : List (BitVec 3 × Word)) (b : Word) {k : Bool} (a : Word) (n : Nat) :
    (s.inWith i (s.meIn i) ps b k).oor a n = s.oor a n := by
  simp [State.oor]

@[simp] theorem lookup_open (s : State) (i : Instr) (ps : List (BitVec 3 × Word)) (b : Word) {k : Bool} (a : Word) (p : Perm) :
    (s.inWith i (s.meIn i) ps b k).lookup a p = s.lookup a p := by
  simp only [State.lookup, myLaunch_inWith]
  rfl

@[simp] theorem keyOf_open (s : State) (i : Instr) (ps : List (BitVec 3 × Word)) (b : Word) {k : Bool} (a : Word) (p : Perm) :
    (s.inWith i (s.meIn i) ps b k).keyOf a p = s.keyOf a p := by
  simp only [State.keyOf, lookup_open, myLaunch_inWith]
  rfl

theorem access_open (s : State) (i : Instr) (b : Word) (kind : AccKind) (a : Word) (n : Nat) (p : Perm) (data : Vec) :
    (s.inWith i (s.meIn i) [] b).access kind a n p data = s.accessTo kind a (s.keyOf a p) n data := by
  simp only [State.access, keyOf_open]
  rfl

theorem noteLocal_inWith (s : State) (i : Instr) (t : Thread) (ps : List (BitVec 3 × Word)) (b : Word) {k : Bool} (a : Word) :
    (s.inWith i t ps b k).noteLocal a = s.inWith i (t.note a) ps b k := by
  simp [State.noteLocal]

/-! ### Requests that leave -/

theorem sendLoad_open (s : State) (i : Instr) (b : Word) (a : Access) (ht : a.tid = s.ctx.tid) (hc : a.core = s.ctx.core) :
    (s.inWith i (s.meIn i) [] b).sendLoad a = (s.sends (.access a) (homeOf a.key) 0).inWith i (s.meIn i) [] b := by
  rw [State.sendLoad, inject_inWith, sendTo_inWith, ht, hc, routing_inWith s i (s.meIn i) [] b s.ctx.core rfl]
  rfl

theorem ask_inWith (s : State) (i : Instr) (t : Thread) (b : Word) (body : Body) (home : Nat) (hl : t.launch = s.me.launch) :
    (s.inWith i t [] b).ask body home
      = (s.sends body home 0).inWith i { t with outst := some (s.nextId, []), wait := some (.reply s.nextId) } [] b := by
  rw [State.ask, State.awaitAnswer, inject_inWith, modMe_inWith, sendTo_inWith]
  have hr := routing_inWith s i t [] b (k := false) s.ctx.core hl
  simp only [show (s.inWith i t [] b).ctx.tid = s.ctx.tid from rfl, show (s.inWith i t [] b).ctx.core = s.ctx.core from rfl, hr]
  rfl

theorem sends_frame (s : State) (b : Body) (home cls : Nat) :
    ∃ w n, s.sends b home cls = { s.inject b with ways := w, stamp := n } := sendTo_frame _ _ _ _ _ _

theorem sent_sends (s : State) (b : Body) (home cls : Nat) (t : Thread) (i : Instr) (id : Nat) (dsts : List Nat) :
    (s.sends b home cls).sent t i id dsts = s.sent t i id dsts := by
  obtain ⟨w, n, h⟩ := sends_frame s b home cls
  rw [h]
  rfl

theorem me_sends (s : State) (b : Body) (home cls : Nat) : (s.sends b home cls).me = s.me := by
  obtain ⟨w, n, h⟩ := sends_frame s b home cls
  rw [h]
  rfl

theorem ctx_sends (s : State) (b : Body) (home cls : Nat) : (s.sends b home cls).ctx = s.ctx := by
  obtain ⟨w, n, h⟩ := sends_frame s b home cls
  rw [h]
  rfl

/-! ### Bundles that are complete only with an answer -/

/-- The fields that differ from the issuing thread's, while its bundle is under way, are those its instruction has written. -/
theorem finish_pending (u : State) (i : Instr) (t : Thread) (ho : t.pending = true) (hp : t.pc = u.me.pc)
    (hf : t.fexc = u.me.fexc) (hb : t.bundle = some { pc := u.me.pc, instrs := [i], next := u.me.pc + 8 }) :
    ∃ c, (u.inWith i t [] (u.me.pc + 8)).finish = u.afterAlone i [] (u.unfinished t i) c := by
  refine ⟨{ u.ctxIn i with pushes := [], target := u.me.pc + 8, taken := false }, ?_⟩
  rw [finish_with]
  simp only [ho, if_true, State.unfinished, Thread.stepped, hp, hf]
  rw [← hb]
  simp

theorem finish_sent (u : State) (i : Instr) (t : Thread) (id : Nat) (dsts : List Nat) (hp : t.pc = u.me.pc)
    (hf : t.fexc = u.me.fexc) (hb : t.bundle = some { pc := u.me.pc, instrs := [i], next := u.me.pc + 8 }) :
    ∃ c, (u.inWith i { t with outst := some (id, dsts), wait := some (.reply id) } [] (u.me.pc + 8)).finish
      = u.afterAlone i [] (u.sent t i id dsts) c :=
  finish_pending u i _ (by simp [Thread.pending]) hp hf hb

/-- A bundle of i whose effect sends a request and awaits its answer. -/
theorem finish_asked (s : State) (i : Instr) (t : Thread) (b : Body) (home cls : Nat) (dsts : List Nat) (hp : t.pc = s.me.pc)
    (hf : t.fexc = s.me.fexc) (hb : t.bundle = some { pc := s.me.pc, instrs := [i], next := s.me.pc + 8 }) :
    ∃ c, ((s.sends b home cls).inWith i { t with outst := some (s.nextId, dsts), wait := some (.reply s.nextId) } []
        (s.me.pc + 8)).finish = (s.sends b home cls).afterAlone i [] (s.sent t i s.nextId dsts) c := by
  have h := finish_sent (s.sends b home cls) i t s.nextId dsts
  simp only [me_sends, sent_sends] at h
  exact h hp hf hb

/-- The thread as the effect finds it is, where i uses no decode bank, the issuing thread but for the bundle. -/
theorem sent_meIn {s : State} {i : Instr} (hu : usesBank i = false) (f : Regs → Regs) (id : Nat) (dsts : List Nat) :
    s.sent { s.meIn i with regs := f s.me.regs } i id dsts = s.sent { s.me with regs := f s.me.regs } i id dsts := by
  simp only [State.sent, State.unfinished, Thread.stepped, State.meIn, bankSought_of_unused hu]


theorem Thread.note_eq (t : Thread) (a : Word) :
    t.note a = { t with lmflt := true, lmaddr := if t.lmflt then t.lmaddr else a } := by
  unfold Thread.note
  split
  · cases t
    simp_all
  · rfl

/-- The record of a bundle of i alone that goes on at the next. -/
def State.ctxOut (s : State) (i : Instr) : Ctx :=
  { s.ctxIn i with pushes := [], target := s.me.pc + 8, taken := false }

/-- A bundle of i that goes on, its thread having noted an out-of-range address and changed registers (R52). -/
theorem finish_noted {s : State} {p : Part} {i : Instr} (h : s.issues p i) (hu : usesBank i = false) (a : Word) (r : Regs) :
    (s.inWith i { (s.meIn i).note a with regs := r } [] (s.me.pc + 8)).finish
      = s.afterAlone i [] ({ s.me.note a with regs := r }.stepped i (s.me.pc + 8)) (s.ctxOut i) := by
  simp only [Thread.note_eq]
  rw [finish_inWith]
  · simp only [Thread.stepped, State.meIn, bankSought_of_unused hu, State.ctxOut]
  · exact issues_pending h
  · rfl
  · rfl

/-! ### Loads at issue (R126, R52) -/

/-- A load that goes out: its destination is emptied, the access leaves for its home, the thread parks on the reply. -/
theorem finish_startLoad {s : State} {i : Instr} (hu : usesBank i = false) {a : Word} {n : Nat} (ho : s.oor a n = false)
    (f : LdForm) (dst : Nat) :
    ∃ x, ((s.inWith i (s.meIn i) [] (s.me.pc + 8)).startLoad a n f dst).finish
      = (s.sends (.access (s.accessTo (.load f) a (s.keyOf a .rd) n 0)) (homeOf (s.keyOf a .rd)) 0).afterAlone i []
          (s.sent { s.me with regs := s.me.regs.emptyDst dst } i s.nextId [dst]) x := by
  rw [State.startLoad, oor_open, ho, if_neg Bool.false_ne_true, access_open, sendLoad_open _ _ _ _ rfl rfl, modMe_inWith,
    ← sent_meIn hu (fun r => r.emptyDst dst)]
  exact finish_asked s i { s.meIn i with regs := s.me.regs.emptyDst dst } _ _ 0 [dst] rfl rfl rfl

/-- One that is out of range notes its address and gives zero. -/
theorem finish_startLoad_out {s : State} {i : Instr} (h : s.issues .c i) (hu : usesBank i = false) {a : Word} {n : Nat}
    (ho : s.oor a n = true) (f : LdForm) (dst : Nat) :
    ((s.inWith i (s.meIn i) [] (s.me.pc + 8)).startLoad a n f dst).finish
      = s.afterAlone i [] ({ s.me.note a with regs := s.me.regs.setDst dst 0 }.stepped i (s.me.pc + 8)) (s.ctxOut i) := by
  rw [State.startLoad, oor_open, if_pos ho, noteLocal_inWith, modMe_inWith, ← finish_noted h hu]
  simp only [Thread.note_eq]
  rfl

theorem loadStop_parts {s : State} {a : Word} {n : Nat} {porter : Bool} (h : s.loadStop a n porter = none)
    (ho : s.oor a n = false) :
    s.checkAddr a n .rd = none ∧ (porter = false → s.migrateStop a n = none) := by
  simp only [State.loadStop, ho, Bool.false_eq_true, if_false, firstStop_eq_none, List.mem_cons, List.not_mem_nil, or_false,
    forall_eq_or_imp, forall_eq] at h
  exact ⟨h.1, fun hp => by simpa [hp] using h.2.1⟩

theorem loadStop_migrate {s : State} {a : Word} {n c : Nat} {porter : Bool} (h : s.loadStop a n porter = some (.migrate c)) :
    porter = false ∧ s.migrateStop a n = some (.migrate c) := by
  unfold State.loadStop at h
  split at h
  · simp at h
  · have hm := firstStop_eq_some h
    simp only [List.mem_cons, List.not_mem_nil, or_false, (checkAddr_ne_migrate s _ _ _ c).symm,
      (checkHome_ne_migrate s _ _ _ c).symm, (overlapStop_ne_migrate s _ _ c).symm, false_or] at hm
    cases porter with
    | true => simp at hm
    | false => exact ⟨rfl, by simpa [eq_comm] using hm⟩

theorem keyed_posed {s : State} {i : Instr} {a : Word} {p : Perm} {k : Nat} (h : (s.posed i).keyed a p k) : s.keyed a p k := by
  simpa only [State.keyed, lookup_posed, myLaunch_posed, core_posed] using h

theorem routeTo_posed {s : State} {i : Instr} {c : Nat} {r : Word × Word} (h : (s.posed i).routeTo c r) : s.routeTo c r := by
  simp only [State.routeTo, myLaunch_posed] at h
  exact h

/-! ### Slots (R276) -/

theorem Core.slot_modSlot (x : Core) {n : Nat} (f : Slot → Slot) (h : n < 16) : (x.modSlot n f).slot n = f (x.slot n) := by
  simp [Core.slot, Core.modSlot, h]

theorem Core.slot_modSlot_ne (x : Core) {n m : Nat} (f : Slot → Slot) (h : m ≠ n) : (x.modSlot n f).slot m = x.slot m := by
  unfold Core.slot Core.modSlot
  split
  · split
    · simp [h.symm]
    · rfl
  · rfl

theorem Core.modSlot_modSlot (x : Core) (n : Nat) (f g : Slot → Slot) :
    (x.modSlot n f).modSlot n g = x.modSlot n fun y => g (f y) := by
  unfold Core.modSlot
  split <;> simp

theorem State.core_setCore_self (s : State) (c : Nat) (x : Core) : (s.setCore c x).core c = x := by
  simp [State.core]

theorem State.core_setCore_ne (s : State) {c d : Nat} (x : Core) (h : d ≠ c) : (s.setCore c x).core d = s.core d := by
  simp [State.core, tget_tput_ne _ _ h]

theorem State.setCore_setCore (s : State) (c : Nat) (x y : Core) : (s.setCore c x).setCore c y = s.setCore c y := by
  simp [State.setCore, tput_tput]

theorem State.core_modCore_self (s : State) (c : Nat) (f : Core → Core) : (s.modCore c f).core c = f (s.core c) :=
  s.core_setCore_self c _

theorem State.core_modCore_ne (s : State) {c d : Nat} (f : Core → Core) (h : d ≠ c) : (s.modCore c f).core d = s.core d :=
  s.core_setCore_ne _ h

theorem State.modCore_modCore (s : State) (c : Nat) (f g : Core → Core) :
    (s.modCore c f).modCore c g = s.modCore c fun x => g (f x) := by
  unfold State.modCore
  rw [State.setCore_setCore, State.core_setCore_self]

theorem State.modSlot_modSlot (s : State) (c n : Nat) (f g : Slot → Slot) :
    (s.modSlot c n f).modSlot c n g = s.modSlot c n fun y => g (f y) := by
  simp only [State.modSlot, State.modCore_modCore, Core.modSlot_modSlot]

theorem State.slot_modSlot (s : State) (c : Nat) {n : Nat} (f : Slot → Slot) (h : n < 16) :
    (s.modSlot c n f).slot c n = f (s.slot c n) := by
  simp only [State.slot, State.modSlot, State.core_modCore_self, Core.slot_modSlot _ _ h]

/-- Changing a slot leaves what else its core holds. -/
theorem State.core_modSlot_frame (s : State) (c n : Nat) (f : Slot → Slot) :
    ∃ v, (s.modSlot c n f).core c = { s.core c with slots := v } := by
  rw [State.modSlot, State.core_modCore_self, Core.modSlot]
  split
  · exact ⟨_, rfl⟩
  · exact ⟨_, rfl⟩

/-! ### Slots that nothing waits for -/

theorem slotRests_iff {s : State} {c n : Nat} : s.slotRests c n = true ↔
    c < channelBase ∧ n < 15 ∧ (s.core c).ring = [] ∧ (s.core c).restarts = [] ∧ (s.core c).runq = []
      ∧ s.closingOn c = false ∧ (s.slot c n).reserved = none ∧ (s.slot c n).held = none := by
  simp [State.slotRests, and_assoc]

/-- A slot that becomes free and that nothing waits for goes to the task unit (R276, R277). -/
theorem takeOne_task {s : State} {c n : Nat} (hc : c < channelBase) (hn : n < 15) (hring : (s.core c).ring = [])
    (hrest : (s.core c).restarts = []) (hrun : (s.core c).runq = []) (hclose : s.closingOn c = false)
    (hf : (s.slot c n).isFree = true) : s.takeOne c n = s.toTaskUnit c n := by
  have hf' : ((s.core c).slot n).isFree = true := hf
  simp [State.takeOne, hf', hclose, Nat.not_le.2 hc, hn, Nat.ne_of_lt hn, hring, hrest, hrun, Core.nextContext]

theorem drainRing_empty {s : State} {c : Nat} (h : (s.core c).ring = []) (k : Nat) : s.drainRing k c = s := by
  cases k with
  | zero => rfl
  | succ k => simp [State.drainRing, State.headSlot, h]


theorem freeSlot_of_rests {s : State} {c n : Nat} (h : s.slotRests c n = true) : s.freeSlot c n = s.restSlot c n := by
  obtain ⟨hc, hn, hring, hrest, hrun, hclose, hres, hheld⟩ := slotRests_iff.1 h
  obtain ⟨v, hv⟩ := s.core_modSlot_frame c n fun y => { y with tid := none }
  have hf : ((s.modSlot c n fun y => { y with tid := none }).slot c n).isFree = true := by
    rw [State.slot_modSlot _ _ _ (by omega)]
    simp [Slot.isFree, hres, hheld]
  have ht : (s.modSlot c n fun y => { y with tid := none }).takeOne c n
      = (s.modSlot c n fun y => { y with tid := none }).toTaskUnit c n :=
    takeOne_task hc hn (by rw [hv]; exact hring) (by rw [hv]; exact hrest) (by rw [hv]; exact hrun) hclose hf
  rw [State.freeSlot, State.takeWork, if_pos hc, ht, State.toTaskUnit, State.modSlot_modSlot, State.restSlot, drainRing_empty]
  obtain ⟨v', hv'⟩ := s.core_modSlot_frame c n fun y => { y with tid := none, seekAt := 0, victims := [] }
  rw [hv']
  exact hring

/-! ### A thread leaves for another core (R57, R138) -/

/-- The machine with thread tid, t before, gone from its slot n of core c on a route to core dst. -/
def State.leaves (s : State) (tid dst c n : Nat) (away : Bool) (route : Word × Word) : State :=
  let u := (s.inject (.migr tid dst c route n)).sendOn s.nextId c 2 route
  if away then u.restSlot c n else u.modSlot c n fun y => { y with tid := none, reserved := some tid }

theorem depart_eq {s : State} {tid dst c n : Nat} {t : Thread} {route : Word × Word} (ht : s.thread? tid = some t)
    (hp : t.place = .slot c n) (hc : c < channelBase) (hr : t.away = true → s.slotRests c n = true)
    (hw : s.hwRoute (s.launchOf t) (squareOf c) (256 + (s.launchOf t).squareIdx dst) 2 false = .ok route) :
    s.depart tid dst = { s.leaves tid dst c n t.away route with
      threads := tput s.threads tid { t with place := .flying s.nextId, wait := none } } := by
  have hcn : t.coreNow = c := by simp [Thread.coreNow, hp]
  have hsn : t.slotNow = (c, n) := by simp [Thread.slotNow, hp]
  have hsq : streetSquare c = squareOf c := if_pos hc
  have ht' : tget s.threads tid = some t := ht
  have hmr : s.migrRoute t dst = .ok route := by rw [State.migrRoute, hcn, hsq]; exact hw
  rw [State.depart, ht]
  simp only [hcn, hsn, hmr, hp]
  have ha : t.away = !(c == t.homeCore && n == t.homeSlot) := by simp [Thread.away, hp]
  cases haw : t.away with
  | false =>
    have : c = t.homeCore ∧ n = t.homeSlot := by simpa [haw] using ha
    rw [if_pos (by simpa using this)]
    simp only [State.leaves, Bool.false_eq_true, if_false, State.modThread, State.inject, State.sendOn, tmod_some _ ht']
    rfl
  | true =>
    have : ¬ (c = t.homeCore ∧ n = t.homeSlot) := by simpa [haw, imp_iff_not_or] using ha
    rw [if_neg (by simpa using this), freeSlot_of_rests (by exact hr haw)]
    simp only [State.leaves, if_true, State.modThread, State.inject, State.sendOn, tmod_some _ ht']
    rfl


theorem mayDepart_parts {s : State} (h : s.mayDepart = true) :
    s.me.place = .slot s.ctx.core s.ctx.slot ∧ s.ctx.core < channelBase
      ∧ (s.me.away = true → s.slotRests s.ctx.core s.ctx.slot = true) := by
  simpa [State.mayDepart, and_assoc, imp_iff_not_or] using h

theorem movesTo_parts {s : State} {i : Instr} {dst : Nat} (h : s.movesTo i dst = true) :
    s.atBundle = true ∧ (s.opening .c i).firstStopOf [(.c, i)] = some (.migrate dst) ∧ s.mayDepart = true := by
  simpa [State.movesTo, and_assoc] using h

/-- A bundle that moves its thread before it issues stops in its own checks. -/
theorem movesTo_late {s : State} {i : Instr} {dst : Nat} (h : s.movesTo i dst = true) :
    s.opening .c i = s.posed i ∧ (s.posed i).late i = some (.migrate dst) := by
  obtain ⟨hb, hs, -⟩ := movesTo_parts h
  have hc := (firstStopOf_migrate hs).1
  have ho := opening_eq_posed hb hc
  rw [ho] at hs
  exact ⟨ho, (firstStopOf_migrate hs).2⟩

theorem posed_leaves (s : State) (i : Instr) (dst : Nat) (route : Word × Word) (v : Thread) :
    ({ (s.posed i).leaves s.ctx.tid dst s.ctx.core s.ctx.slot s.me.away route with
        threads := tput (s.posed i).threads s.ctx.tid v } : State)
      = { s.departing dst route with threads := tput s.threads s.ctx.tid v, ctx := (s.posed i).ctx } := by
  unfold State.leaves State.departing
  cases s.me.away
  · simp only [Bool.false_eq_true, if_false, State.posed, tput_tput]
    rfl
  · simp only [if_true, State.posed, tput_tput]
    rfl

/-- The thread of such a bundle leaves for the core on the route of its square's itinerary (R57). -/
theorem exec_movesTo {s : State} {i : Instr} {dst : Nat} {eff : State → State} (h : s.movesTo i dst = true)
    (he : exec i s = issue .c i eff s) (hu : usesBank i = false) {route : Word × Word} (hr : s.routeTo dst route) :
    ∃ x, exec i s = .next (s.migrated i dst route x) := by
  obtain ⟨hb, hs, hd⟩ := movesTo_parts h
  obtain ⟨hplace, hcore, hrests⟩ := mayDepart_parts hd
  obtain ⟨hme, hphase, -, -⟩ := atBundle_parts hb
  refine ⟨(s.posed i).ctx, ?_⟩
  rw [he, issue_stopped hme hphase hs, (movesTo_late h).1]
  have hd := depart_eq (s := s.posed i) (tid := s.ctx.tid) (dst := dst) (t := s.meIn i) (route := route)
    (tget_tput_self ..) hplace hcore hrests hr
  rw [State.stopWith, tid_posed, hd, show (s.meIn i).away = s.me.away from rfl, posed_leaves]
  simp only [State.meIn, bankSought_of_unused hu]
  rfl

/-! ### The instructions that load (R126, R95) -/

theorem memDstNum_eq_loadDst (t : MemReg) : memDstNum t = loadDst t := by
  rcases t with x | n
  · cases x <;> rfl
  · rfl

/-- An instruction that loads n bytes at an address into a destination: `porter` forms never move their thread. -/
structure LoadsFrom (i : Instr) (s : State) (a : Word) (n : Nat) (f : LdForm) (dst : Nat) (porter : Bool) : Prop where
  unused : usesBank i = false
  runs : ∃ eff, exec i s = issue .c i eff s
    ∧ eff (s.inWith i (s.meIn i) [] (s.me.pc + 8)) = (s.inWith i (s.meIn i) [] (s.me.pc + 8)).startLoad a n f dst
  checks : (s.posed i).late i = (s.posed i).loadStop a n porter

theorem ld_loads (s : State) (wd : Width) (t : MemReg) (b : Reg) (f : LdForm) (o : BitVec 11) :
    LoadsFrom (.ld wd t b f o) s (s.value b + o.signExtend 64 * BitVec.ofNat 64 (widthBytes wd)) (widthBytes wd) f
      (loadDst t) false where
  unused := rfl
  runs := ⟨fun s => s.startLoad (s.memAddr b o wd) (widthBytes wd) f (memDstNum t), rfl,
    by simp only [State.memAddr, src_open, memDstNum_eq_loadDst]⟩
  checks := by simp only [State.late, State.memAddr, src_posed]

theorem ldIdx_loads (s : State) (wd : Width) (t : MemReg) (b y : Reg) (f : LdForm) (k : Scale) :
    LoadsFrom (.ldIdx wd t b y f k) s (s.value b + s.value y * BitVec.ofNat 64 (scaleTimes k)) (widthBytes wd) f
      (loadDst t) false where
  unused := rfl
  runs := ⟨fun s => s.startLoad (s.idxAddr b y k) (widthBytes wd) f (memDstNum t), rfl,
    by simp only [State.idxAddr, src_open, memDstNum_eq_loadDst]⟩
  checks := by simp only [State.late, State.idxAddr, src_posed]

theorem rget_loads (s : State) (d b : Reg) (f : LdForm) :
    LoadsFrom (.rget d b f) s (s.value b) 8 f (loadDst (.r d)) true where
  unused := rfl
  runs := ⟨fun s => s.startLoad (s.src b) 8 f (memDstNum (.r d)), rfl, by simp only [src_open, memDstNum_eq_loadDst]⟩
  checks := by simp only [State.late, src_posed]

section
variable {i : Instr} {s : State} {a : Word} {n : Nat} {f : LdForm} {dst : Nat} {porter : Bool}

/-- A load in range goes out to its home. -/
theorem LoadsFrom.inRange (h : LoadsFrom i s a n f dst porter) (hi : s.issues .c i = true) (ho : s.oor a n = false) :
    ∃ key x, s.keyed a .rd key
      ∧ exec i s = .next ((s.sends (.access (s.accessTo (.load f) a key n 0)) (homeOf key) 0).afterAlone i []
          (s.sent { s.me with regs := s.me.regs.emptyDst dst } i s.nextId [dst]) x)
      ∧ (isLocal a → porter = false → squareOf (namedCore s.myLaunch s.ctx.core a) = squareOf s.ctx.core) := by
  obtain ⟨eff, hrun, heff⟩ := h.runs
  have hl := issues_late hi
  rw [h.checks] at hl
  obtain ⟨hk, hm⟩ := loadStop_parts hl (by rw [oor_posed]; exact ho)
  obtain ⟨x, hx⟩ := finish_startLoad h.unused ho f dst
  refine ⟨s.keyOf a .rd, x, ?_, ?_, fun hloc hp => ?_⟩
  · have := keyed_keyOf hk (by rw [oor_posed]; exact ho)
    rw [keyOf_posed] at this
    exact keyed_posed this
  · rw [hrun, issue_alone hi, heff, hx]
  · simpa using migrateStop_none (hm hp) hloc (by rw [oor_posed]; exact ho)

/-- One that is out of range gives zero and goes on. -/
theorem LoadsFrom.outOfRange (h : LoadsFrom i s a n f dst porter) (hi : s.issues .c i = true) (ho : s.oor a n = true) :
    ∃ x, exec i s = .next (s.afterAlone i []
      ({ s.me.note a with regs := s.me.regs.setDst dst 0 }.stepped i (s.me.pc + 8)) x) := by
  obtain ⟨eff, hrun, heff⟩ := h.runs
  exact ⟨_, by rw [hrun, issue_alone hi, heff, finish_startLoad_out hi h.unused ho]⟩

/-- One of a local memory beyond the square moves its thread there first. -/
theorem LoadsFrom.moves (h : LoadsFrom i s a n f dst porter) {c : Nat} (hc : s.movesTo i c = true) :
    isLocal a = true ∧ c = namedCore s.myLaunch s.ctx.core a ∧ squareOf c ≠ squareOf s.ctx.core ∧ porter = false
      ∧ ∃ r x, s.routeTo c r ∧ exec i s = .next (s.migrated i c r x) := by
  obtain ⟨eff, hrun, -⟩ := h.runs
  have hl := (movesTo_late hc).2
  rw [h.checks] at hl
  obtain ⟨hp, hm⟩ := loadStop_migrate hl
  obtain ⟨hloc, hcore, hsq, r, hr⟩ := migrateStop_migrate hm
  obtain ⟨x, hx⟩ := exec_movesTo hc hrun h.unused (routeTo_posed hr)
  exact ⟨hloc, by simpa using hcore, hsq, hp, r, x, routeTo_posed hr, hx⟩

end

/-- Settles O16: each of the three instructions loads from its address by the shared operation. -/
theorem loadsEmptyTheirDestinationAndAskTheHome : Obligations.LoadsEmptyTheirDestinationAndAskTheHome := by
  unfold Obligations.LoadsEmptyTheirDestinationAndAskTheHome
  intro s wd t b y d f o k i a n dst hi
  obtain ⟨porter, hld, hp⟩ : ∃ porter, LoadsFrom i s a n f dst porter ∧ (porter = false ↔ i ≠ .rget d b f) := by
    rcases hi with ⟨rfl, rfl, rfl, rfl⟩ | ⟨rfl, rfl, rfl, rfl⟩ | ⟨rfl, rfl, rfl, rfl⟩
    · exact ⟨false, ld_loads .., by simp⟩
    · exact ⟨false, ldIdx_loads .., by simp⟩
    · exact ⟨true, rget_loads .., by simp⟩
  refine ⟨fun hi => ⟨fun ho => ?_, hld.outOfRange hi⟩, fun c hc => ?_⟩
  · obtain ⟨key, x, hk, hx, hs⟩ := hld.inRange hi ho
    exact ⟨key, x, hk, hx, fun hl hn => hs hl (hp.2 hn)⟩
  · obtain ⟨hl, hcore, hsq, hf, hr⟩ := hld.moves hc
    exact ⟨hl, hcore, hsq, hp.1 hf, hr⟩

/-! ### Posted accesses at issue (R126, R128, R132) -/

/-- A bundle of i that goes on with its thread unchanged. -/
theorem finish_open {s : State} {i : Instr} (hp : s.me.pending = false) (hu : usesBank i = false) :
    (s.inWith i (s.meIn i) [] (s.me.pc + 8)).finish = s.afterAlone i [] (s.me.stepped i (s.me.pc + 8)) (s.ctxOut i) := by
  rw [finish_inWith s i (s.meIn i) [] _ hp rfl rfl]
  simp only [Thread.stepped, State.meIn, bankSought_of_unused hu, State.ctxOut]

theorem sendTo_with_sq (s : State) (v : Tbl SqEntry) (id : Nat) (l : Launch) (core home cls : Nat) :
    ({ s with sq := v } : State).sendTo id l core home cls = { s.sendTo id l core home cls with sq := v } := by
  unfold State.sendTo
  split
  · rfl
  · rfl

/-- The store-queue entry of a posted access. -/
def Access.entry (a : Access) : SqEntry :=
  { core := a.core, slot := a.slot, tid := a.tid, home := homeOf a.key, key := a.key, size := a.size, fills := a.kind.mayWait,
    pc := a.pc, addr := a.addr, state := .inFlight }

/-- The machine after the issuing thread has posted an access: it is on its way, and holds a store-queue entry. -/
def State.posts (s : State) (a : Access) : State :=
  { s.sends (.access a) (homeOf a.key) 0 with sq := tput s.sq s.nextId a.entry }

theorem postAccess_eq (s : State) (a : Access) :
    s.postAccess a = { (s.inject (.access a)).sendTo s.nextId (s.routing a.tid a.core) a.core (homeOf a.key) 0 with
      sq := tput s.sq s.nextId a.entry } :=
  sendTo_with_sq (s.inject (.access a)) _ _ _ _ _ _

theorem postAccess_open (s : State) (i : Instr) (b : Word) (a : Access) (ht : a.tid = s.ctx.tid) (hc : a.core = s.ctx.core) :
    (s.inWith i (s.meIn i) [] b).postAccess a = (s.posts a).inWith i (s.meIn i) [] b := by
  rw [postAccess_eq, inject_inWith, sendTo_inWith, ht, hc, routing_inWith s i (s.meIn i) [] b s.ctx.core rfl]
  rfl

theorem posts_frame (s : State) (a : Access) :
    ∃ q w n, s.posts a = { s.inject (.access a) with sq := q, ways := w, stamp := n } := by
  obtain ⟨w, n, h⟩ := sends_frame s (.access a) (homeOf a.key) 0
  exact ⟨_, w, n, by rw [State.posts, h]⟩

theorem me_posts (s : State) (a : Access) : (s.posts a).me = s.me := by
  obtain ⟨q, w, n, h⟩ := posts_frame s a
  rw [h]
  rfl

theorem meIn_posts (s : State) (a : Access) (i : Instr) : (s.posts a).meIn i = s.meIn i := by
  obtain ⟨q, w, n, h⟩ := posts_frame s a
  rw [h]
  rfl

theorem ctxOut_posts (s : State) (a : Access) (i : Instr) : (s.posts a).ctxOut i = s.ctxOut i := by
  obtain ⟨q, w, n, h⟩ := posts_frame s a
  rw [h]
  rfl

theorem finish_startPost {s : State} {i : Instr} (hi : s.issues .c i = true) (hu : usesBank i = false) (kind : AccKind)
    {a : Word} {n : Nat} (ho : s.oor a n = false) (p : Perm) (v : Vec) :
    ((s.inWith i (s.meIn i) [] (s.me.pc + 8)).startPost kind a n p v).finish
      = (s.posts (s.accessTo kind a (s.keyOf a p) n v)).afterAlone i [] (s.me.stepped i (s.me.pc + 8)) (s.ctxOut i) := by
  rw [State.startPost, oor_open, ho, if_neg Bool.false_ne_true, access_open, postAccess_open _ _ _ _ rfl rfl]
  have h := finish_open (s := s.posts (s.accessTo kind a (s.keyOf a p) n v)) (i := i)
  simp only [me_posts, meIn_posts, ctxOut_posts] at h
  exact h (issues_pending hi) hu

theorem finish_startPost_out {s : State} {i : Instr} (hi : s.issues .c i = true) (hu : usesBank i = false) (kind : AccKind)
    {a : Word} {n : Nat} (ho : s.oor a n = true) (p : Perm) (v : Vec) :
    ((s.inWith i (s.meIn i) [] (s.me.pc + 8)).startPost kind a n p v).finish
      = s.afterAlone i [] ((s.me.note a).stepped i (s.me.pc + 8)) (s.ctxOut i) := by
  rw [State.startPost, oor_open, if_pos ho, noteLocal_inWith]
  have h := finish_noted hi hu a s.me.regs
  simp only [Thread.note_eq] at h ⊢
  exact h

theorem postStop_parts {s : State} {a : Word} {n : Nat} {p : Perm} {porter : Bool} (h : s.postStop a n p porter = none)
    (ho : s.oor a n = false) :
    s.checkAddr a n p = none ∧ (porter = false → s.migrateStop a n = none) := by
  simp only [State.postStop, ho, Bool.false_eq_true, if_false, firstStop_eq_none, List.mem_cons, List.not_mem_nil, or_false,
    forall_eq_or_imp, forall_eq] at h
  exact ⟨h.1, fun hp => by simpa [hp] using h.2.1⟩

theorem postStop_migrate {s : State} {a : Word} {n c : Nat} {p : Perm} {porter : Bool}
    (h : s.postStop a n p porter = some (.migrate c)) : porter = false ∧ s.migrateStop a n = some (.migrate c) := by
  unfold State.postStop at h
  split at h
  · simp at h
  · have hm := firstStop_eq_some h
    simp only [List.mem_cons, List.not_mem_nil, or_false, (checkAddr_ne_migrate s _ _ _ c).symm,
      (checkHome_ne_migrate s _ _ _ c).symm, (roomStop_ne_migrate s c).symm, false_or] at hm
    cases porter with
    | true => simp at hm
    | false => exact ⟨rfl, by simpa [eq_comm] using hm⟩

/-- An instruction that posts an access of n bytes at an address: `porter` forms never move their thread. -/
structure PostsTo (i : Instr) (s : State) (kind : AccKind) (a : Word) (n : Nat) (v : Vec) (porter : Bool) : Prop where
  unused : usesBank i = false
  runs : ∃ eff, exec i s = issue .c i eff s
    ∧ eff (s.inWith i (s.meIn i) [] (s.me.pc + 8)) = (s.inWith i (s.meIn i) [] (s.me.pc + 8)).startPost kind a n .w v
  checks : (s.posed i).late i = (s.posed i).postStop a n .w porter

theorem storeData_open (s : State) (i : Instr) (b : Word) (t : MemReg) :
    (s.inWith i (s.meIn i) [] b).storeData t = s.stored t := by
  cases t with
  | r x => simp only [State.storeData, src_open, State.stored]
  | v n => rfl

theorem st_posts (s : State) (wd : Width) (t : MemReg) (b : Reg) (f : StForm) (o : BitVec 11) :
    PostsTo (.st wd t b f o) s (.store f) (s.value b + o.signExtend 64 * BitVec.ofNat 64 (widthBytes wd)) (widthBytes wd)
      (s.stored t) false where
  unused := rfl
  runs := ⟨fun s => s.startPost (.store f) (s.memAddr b o wd) (widthBytes wd) .w (s.storeData t), rfl,
    by simp only [State.memAddr, src_open, storeData_open]⟩
  checks := by simp only [State.late, State.memAddr, src_posed]

theorem stIdx_posts (s : State) (wd : Width) (t : MemReg) (b y : Reg) (f : StForm) (k : Scale) :
    PostsTo (.stIdx wd t b y f k) s (.store f) (s.value b + s.value y * BitVec.ofNat 64 (scaleTimes k)) (widthBytes wd)
      (s.stored t) false where
  unused := rfl
  runs := ⟨fun s => s.startPost (.store f) (s.idxAddr b y k) (widthBytes wd) .w (s.storeData t), rfl,
    by simp only [State.idxAddr, src_open, storeData_open]⟩
  checks := by simp only [State.late, State.idxAddr, src_posed]

theorem feClr_posts (s : State) (b : Reg) (o : BitVec 11) :
    PostsTo (.feClr b o) s .clear (s.value b + o.signExtend 64 * 8) 8 0 false where
  unused := rfl
  runs := ⟨fun s => s.startPost .clear (s.memAddr b o .d) 8 .w 0, rfl, by simp only [State.memAddr, src_open]; rfl⟩
  checks := by simp only [State.late, State.memAddr, src_posed]; rfl

theorem rput_posts (s : State) (b y : Reg) (f : StForm) :
    PostsTo (.rput b y f) s (.store f) (s.value b) 8 ((s.value y).setWidth 256) true where
  unused := rfl
  runs := ⟨fun s => s.startPost (.store f) (s.src b) 8 .w ((s.src y).setWidth 256), rfl, by simp only [src_open]⟩
  checks := by simp only [State.late, src_posed]

theorem red_posts (s : State) (b y : Reg) (op : AmoOp) (sc : Scope) (w : BitVec 2) :
    PostsTo (.red b y op sc w) s (.red op sc) (s.value b + w.setWidth 64 * 8) 8 ((s.value y).setWidth 256) true where
  unused := rfl
  runs := ⟨fun s => s.startPost (.red op sc) (s.amoAddr b w) 8 .w ((s.src y).setWidth 256), rfl,
    by simp only [State.amoAddr, src_open]⟩
  checks := by simp only [State.late, State.amoAddr, src_posed]

section
variable {i : Instr} {s : State} {kind : AccKind} {a : Word} {n : Nat} {v : Vec} {porter : Bool}

/-- A posted access in range takes an entry and leaves for its home; its thread goes on. -/
theorem PostsTo.inRange (h : PostsTo i s kind a n v porter) (hi : s.issues .c i = true) (ho : s.oor a n = false) :
    ∃ key x, s.keyed a .w key
      ∧ exec i s = .next ((s.posts (s.accessTo kind a key n v)).afterAlone i [] (s.me.stepped i (s.me.pc + 8)) x)
      ∧ (isLocal a → porter = false → squareOf (namedCore s.myLaunch s.ctx.core a) = squareOf s.ctx.core) := by
  obtain ⟨eff, hrun, heff⟩ := h.runs
  have hl := issues_late hi
  rw [h.checks] at hl
  obtain ⟨hk, hm⟩ := postStop_parts hl (by rw [oor_posed]; exact ho)
  refine ⟨s.keyOf a .w, s.ctxOut i, ?_, ?_, fun hloc hp => ?_⟩
  · have := keyed_keyOf hk (by rw [oor_posed]; exact ho)
    rw [keyOf_posed] at this
    exact keyed_posed this
  · rw [hrun, issue_alone hi, heff, finish_startPost hi h.unused kind ho]
  · simpa using migrateStop_none (hm hp) hloc (by rw [oor_posed]; exact ho)

/-- One that is out of range is noted and dropped. -/
theorem PostsTo.outOfRange (h : PostsTo i s kind a n v porter) (hi : s.issues .c i = true) (ho : s.oor a n = true) :
    ∃ x, exec i s = .next (s.afterAlone i [] ((s.me.note a).stepped i (s.me.pc + 8)) x) := by
  obtain ⟨eff, hrun, heff⟩ := h.runs
  exact ⟨_, by rw [hrun, issue_alone hi, heff, finish_startPost_out hi h.unused kind ho]⟩

/-- One to a local memory beyond the square moves its thread there first. -/
theorem PostsTo.moves (h : PostsTo i s kind a n v porter) {c : Nat} (hc : s.movesTo i c = true) :
    isLocal a = true ∧ c = namedCore s.myLaunch s.ctx.core a ∧ squareOf c ≠ squareOf s.ctx.core ∧ porter = false
      ∧ ∃ r x, s.routeTo c r ∧ exec i s = .next (s.migrated i c r x) := by
  obtain ⟨eff, hrun, -⟩ := h.runs
  have hl := (movesTo_late hc).2
  rw [h.checks] at hl
  obtain ⟨hp, hm⟩ := postStop_migrate hl
  obtain ⟨hloc, hcore, hsq, r, hr⟩ := migrateStop_migrate hm
  obtain ⟨x, hx⟩ := exec_movesTo hc hrun h.unused (routeTo_posed hr)
  exact ⟨hloc, by simpa using hcore, hsq, hp, r, x, routeTo_posed hr, hx⟩

end

/-- Settles O17: each of the five instructions posts its access by the shared operation. -/
theorem postedAccessesTakeAStoreQueueEntry : Obligations.PostedAccessesTakeAStoreQueueEntry := by
  unfold Obligations.PostedAccessesTakeAStoreQueueEntry
  intro s wd t b y f o k op sc w i kind a n v hi
  obtain ⟨porter, hpost, hp, hk⟩ : ∃ porter, PostsTo i s kind a n v porter
      ∧ (porter = false ↔ ¬ (i = .rput b y f ∨ i = .red b y op sc w))
      ∧ kind.mayWait = (kind == .store .fillEmpty || kind == .red op sc) := by
    rcases hi with ⟨rfl, rfl, rfl, rfl, rfl⟩ | ⟨rfl, rfl, rfl, rfl, rfl⟩ | ⟨rfl, rfl, rfl, rfl, rfl⟩ | ⟨rfl, rfl, rfl, rfl, rfl⟩
      | ⟨rfl, rfl, rfl, rfl, rfl⟩
    · exact ⟨false, st_posts .., by simp, by cases f <;> rfl⟩
    · exact ⟨false, stIdx_posts .., by simp, by cases f <;> rfl⟩
    · exact ⟨false, feClr_posts .., by simp, rfl⟩
    · exact ⟨true, rput_posts .., by simp, by cases f <;> rfl⟩
    · exact ⟨true, red_posts .., by simp, by simp [AccKind.mayWait]⟩
  refine ⟨fun hi => ⟨fun ho => ?_, hpost.outOfRange hi⟩, fun c hc => ?_⟩
  · obtain ⟨key, x, hkey, hx, hs⟩ := hpost.inRange hi ho
    exact ⟨key, x, hkey, by rw [hx, ← hk]; rfl, fun hl hn => hs hl (hp.2 hn)⟩
  · obtain ⟨hl, hcore, hsq, hf, hr⟩ := hpost.moves hc
    exact ⟨hl, hcore, hsq, hp.1 hf, hr⟩

/-! ### What the issuing thread's state may differ in while its bundle runs -/

theorem sent_congr {u s : State} (hm : u.me.regs = s.me.regs) {i : Instr} (hp : u.pops i = s.pops i) (hc : u.clock = s.clock)
    (t : Thread) (id : Nat) (dsts : List Nat) : u.sent t i id dsts = s.sent t i id dsts := by
  simp only [State.sent, State.unfinished, hm, hp, hc]

theorem slotRests_congr {u s : State} (hc : u.cores = s.cores) (hl : u.launches = s.launches) (c n : Nat) :
    u.slotRests c n = s.slotRests c n := by
  simp only [State.slotRests, State.core, State.slot, State.closingOn, State.launchOn, hc, hl]

theorem slotRests_inWith (s : State) (i : Instr) (t : Thread) (ps : List (BitVec 3 × Word)) (a : Word) {k : Bool} (c n : Nat) :
    (s.inWith i t ps a k).slotRests c n = s.slotRests c n := slotRests_congr rfl rfl c n

theorem restSlot_inWith (s : State) (i : Instr) (t : Thread) (ps : List (BitVec 3 × Word)) (a : Word) {k : Bool} (c n : Nat) :
    (s.inWith i t ps a k).restSlot c n = (s.restSlot c n).inWith i t ps a k := rfl

/-- Giving up a slot leaves the ports of its core. -/
theorem pops_modSlot (s : State) (c n : Nat) (f : Slot → Slot) (i : Instr) : (s.modSlot c n f).pops i = s.pops i := by
  have h (q : BitVec 3) : ((s.modSlot c n f).core s.ctx.core).portWords q = (s.core s.ctx.core).portWords q := by
    by_cases hc : s.ctx.core = c
    · obtain ⟨v, hv⟩ := s.core_modSlot_frame c n f
      rw [hc, hv]
      rfl
    · rw [State.modSlot, State.core_modCore_ne _ _ hc]
  simp only [State.pops, State.myCore]
  exact List.filterMap_congr fun q _ => by rw [← h]; rfl

/-! ### `amo` at issue (R131, R59) -/

/-- The `amo` of the issuing thread on its way to its word. -/
def State.amoOf (s : State) (b : Reg) (op : AmoOp) (sc : Scope) (addr : Word) (key : Nat) (path : AmoPath) : Amo :=
  { op := op, scope := sc, key := key, y0 := s.value b, y1 := if op = .cas then s.me.regs.getG (gNum b + 1) else 0,
    core := s.ctx.core, slot := s.ctx.slot, tid := s.ctx.tid, addr := addr, path := path }

theorem amoPath_cases (s : State) (key : Nat) :
    homeOf key = s.ctx.core ∧ s.amoPath key = .own
      ∨ homeOf key ≠ s.ctx.core ∧ homeOf key < channelBase ∧ squareOf (homeOf key) = squareOf s.ctx.core ∧ s.amoPath key = .porter
      ∨ homeOf key ≠ s.ctx.core ∧ (channelBase ≤ homeOf key ∨ squareOf (homeOf key) ≠ squareOf s.ctx.core)
          ∧ s.amoPath key = .flying := by
  unfold State.amoPath
  by_cases h1 : homeOf key = s.ctx.core
  · simp [h1]
  · by_cases h2 : homeOf key < channelBase ∧ squareOf (homeOf key) = squareOf s.ctx.core
    · simp [h1, h2]
    · have h3 : channelBase ≤ homeOf key ∨ squareOf (homeOf key) ≠ squareOf s.ctx.core := by
        by_cases h : homeOf key < channelBase
        · exact .inr fun hs => h2 ⟨h, hs⟩
        · exact .inl (Nat.not_lt.1 h)
      simp [h1, h2, h3]

theorem sendAmo_open (s : State) (i : Instr) (b : Word) (m : Amo) (ht : m.tid = s.ctx.tid) (hc : m.core = s.ctx.core) :
    (s.inWith i (s.meIn i) [] b).sendAmo m
      = (s.sends (.amo m) (homeOf m.key) (if m.path = .flying then 2 else 0)).inWith i (s.meIn i) [] b := by
  rw [State.sendAmo, inject_inWith, sendTo_inWith, ht, hc, routing_inWith s i (s.meIn i) [] b s.ctx.core rfl]
  rfl

/-- The check of an `amo`'s address. -/
theorem amoStop_checkAddr {s : State} {a : Word} {c : Scope} (h : s.amoStop a c = none) (ho : s.oor a 8 = false) :
    s.checkAddr a 8 .rw = none := by
  simp only [State.amoStop, ho, Bool.false_eq_true, if_false, firstStop_eq_none, List.mem_cons, List.not_mem_nil, or_false,
    forall_eq_or_imp, forall_eq] at h
  exact h.1

section
variable {s : State} {n : BitVec 5} {a b : Reg} {op : AmoOp} {sc : Scope} {f : BitVec 2}

theorem amo_issue (hi : s.issues .c (.amo (.g n) a b op sc f) = true) : exec (.amo (.g n) a b op sc f) s =
    .next (amoEffect (.g n) a b op sc f (s.inWith (.amo (.g n) a b op sc f) (s.meIn (.amo (.g n) a b op sc f)) []
      (s.me.pc + 8))).finish := by
  rw [← issue_alone hi]
  rfl

/-- The address of an `amo`, as its effect and its checks compute it. -/
theorem amoAddr_open (i : Instr) (d : Word) :
    (s.inWith i (s.meIn i) [] d).amoAddr a f = s.value a + f.setWidth 64 * 8 := by
  simp only [State.amoAddr, src_open]

theorem amo_keyed (hi : s.issues .c (.amo (.g n) a b op sc f) = true) (ho : s.oor (s.value a + f.setWidth 64 * 8) 8 = false) :
    s.keyed (s.value a + f.setWidth 64 * 8) .rw (s.keyOf (s.value a + f.setWidth 64 * 8) .rw) := by
  have hl := issues_late hi
  simp only [State.late, State.amoAddr, src_posed] at hl
  have hk := keyed_keyOf (amoStop_checkAddr hl (by rw [oor_posed]; exact ho)) (by rw [oor_posed]; exact ho)
  rw [keyOf_posed] at hk
  exact keyed_posed hk

theorem amoPath_inWith (i : Instr) (t : Thread) (ps : List (BitVec 3 × Word)) (d : Word) {k : Bool} (key : Nat) :
    (s.inWith i t ps d k).amoPath key = s.amoPath key := rfl

/-- The thread of an `amo` in range awaits its answer, its destination empty. -/
def Thread.awaitsAmo (t : Thread) (n : BitVec 5) (id : Nat) : Thread :=
  { t with regs := t.regs.emptyDst n.toNat, outst := some (id, [n.toNat]), wait := some (.reply id) }

/-- The request of an `amo`, on the message class where it is a trip. -/
def State.sendsAmo (s : State) (m : Amo) : State := s.sends (.amo m) (homeOf m.key) (if m.path = .flying then 2 else 0)

/-- What an `amo` in range does: it sets out, and its thread, away from home, leaves its slot for a trip. -/
theorem amoEffect_open {i : Instr} {addr : Word} (ha : addr = s.value a + f.setWidth 64 * 8) (ho : s.oor addr 8 = false)
    {m : Amo} (hm : m = s.amoOf b op sc addr (s.keyOf addr .rw) (s.amoPath (s.keyOf addr .rw))) :
    amoEffect (.g n) a b op sc f (s.inWith i (s.meIn i) [] (s.me.pc + 8))
      = if m.path = .flying && s.me.away then
          (((s.sendsAmo m).inWith i { (s.meIn i).awaitsAmo n s.nextId with place := .flying s.nextId } [] (s.me.pc + 8)).queueHome
            s.ctx.tid s.me s.ctx.core s.ctx.slot).freeSlot s.ctx.core s.ctx.slot
        else (s.sendsAmo m).inWith i ((s.meIn i).awaitsAmo n s.nextId) [] (s.me.pc + 8) := by
  have hs := sendAmo_open s i (s.me.pc + 8) m (by rw [hm]; rfl) (by rw [hm]; rfl)
  subst ha
  unfold amoEffect
  simp only [amoAddr_open, oor_open, ho, Bool.false_eq_true, if_false, keyOf_open, src_open, State.me_inWith, amoPath_inWith]
  change (if _ then State.freeSlot (State.queueHome (State.modMe (State.sendAmo (s.inWith i (s.meIn i) [] (s.me.pc + 8))
    (s.amoOf b op sc _ _ _)) _) _ _ _ _) _ _ else State.modMe (State.sendAmo _ (s.amoOf b op sc _ _ _)) _) = _
  rw [← hm, hs, modMe_inWith, show s.amoPath (s.keyOf (s.value a + BitVec.setWidth 64 f * 8) Perm.rw) = m.path by rw [hm]; rfl]
  simp only [show (s.meIn i).away = s.me.away from rfl]
  by_cases hl : (decide (m.path = .flying) && s.me.away) = true
  · rw [if_pos hl, if_pos hl]
    simp only [hl, if_true]
    rfl
  · rw [if_neg hl, if_neg hl]
    simp only [hl, Bool.false_eq_true, if_false]
    rfl

/-- Its thread stays in its slot, or at least keeps its home slot. -/
theorem finish_amo_stays {i : Instr} (hu : usesBank i = false) (m : Amo) :
    ∃ x, ((s.sendsAmo m).inWith i ((s.meIn i).awaitsAmo n s.nextId) [] (s.me.pc + 8)).finish
      = (s.sendsAmo m).afterAlone i [] (s.sent { s.me with regs := s.me.regs.emptyDst n.toNat } i s.nextId [n.toNat]) x := by
  rw [← sent_meIn hu (fun r => r.emptyDst n.toNat)]
  exact finish_asked s i { s.meIn i with regs := s.me.regs.emptyDst n.toNat } _ _ _ [n.toNat] rfl rfl rfl

/-- It leaves a visited slot that nothing waits for, and its store queue stays with its home slot. -/
theorem finish_amo_leaves {i : Instr} (hu : usesBank i = false) (m : Amo) (hr : s.slotRests s.ctx.core s.ctx.slot = true) :
    ∃ x, ((((s.sendsAmo m).inWith i { (s.meIn i).awaitsAmo n s.nextId with place := .flying s.nextId } []
        (s.me.pc + 8)).queueHome s.ctx.tid s.me s.ctx.core s.ctx.slot).freeSlot s.ctx.core s.ctx.slot).finish
      = (((s.sendsAmo m).queueHome s.ctx.tid s.me s.ctx.core s.ctx.slot).restSlot s.ctx.core s.ctx.slot).afterAlone i []
          (s.sent { s.me with regs := s.me.regs.emptyDst n.toNat, place := .flying s.nextId } i s.nextId [n.toNat]) x := by
  obtain ⟨w, k, hw⟩ := sends_frame s (.amo m) (homeOf m.key) (if m.path = .flying then 2 else 0)
  have hsa : s.sendsAmo m = { s.inject (.amo m) with ways := w, stamp := k } := hw
  generalize hv : ((s.sendsAmo m).queueHome s.ctx.tid s.me s.ctx.core s.ctx.slot) = v
  have hvc : v.cores = s.cores := by rw [← hv, hsa]; rfl
  have hvl : v.launches = s.launches := by rw [← hv, hsa]; rfl
  have hvx : v.ctx = s.ctx := by rw [← hv, hsa]; rfl
  have hvk : v.clock = s.clock := by rw [← hv, hsa]; rfl
  have hvm : v.me = s.me := by rw [← hv, hsa]; rfl
  have hq (t : Thread) : ((s.sendsAmo m).inWith i t [] (s.me.pc + 8)).queueHome s.ctx.tid s.me s.ctx.core s.ctx.slot
      = v.inWith i t [] (s.me.pc + 8) := by rw [← hv]; rfl
  rw [hq, freeSlot_of_rests (by rw [slotRests_inWith, slotRests_congr hvc hvl, hr]), restSlot_inWith]
  have hm : (v.restSlot s.ctx.core s.ctx.slot).me = s.me := hvm
  have hp : (v.restSlot s.ctx.core s.ctx.slot).pops i = s.pops i := by
    rw [State.restSlot, pops_modSlot, State.pops, State.pops, State.myCore, State.core, hvc, hvx]
    rfl
  have h := finish_sent (v.restSlot s.ctx.core s.ctx.slot) i
    { s.meIn i with regs := s.me.regs.emptyDst n.toNat, place := .flying s.nextId } s.nextId [n.toNat]
  rw [hm] at h
  obtain ⟨x, hx⟩ := h rfl rfl rfl
  refine ⟨x, hx.trans ?_⟩
  rw [sent_congr (s := s) (by rw [hm]) hp hvk]
  simp only [State.sent, State.unfinished, Thread.stepped, State.meIn, bankSought_of_unused hu]

end

/-- Settles O18, by the path that leads to the word. -/
theorem amoLeavesForItsWord : Obligations.AmoLeavesForItsWord := by
  unfold Obligations.AmoLeavesForItsWord
  intro s n a b op sc f
  dsimp only
  intro hi
  refine ⟨fun ho => ⟨s.ctxOut (.amo (.g n) a b op sc f), ?_⟩, fun ho => ?_⟩
  · rw [amo_issue hi, amoEffect]
    simp only [amoAddr_open, oor_open, ho, if_true, noteLocal_inWith, modMe_inWith]
    rw [← finish_noted hi rfl]
    simp only [Thread.note_eq]
    rfl
  · generalize hm : s.amoOf b op sc _ (s.keyOf (s.value a + f.setWidth 64 * 8) .rw) (s.amoPath (s.keyOf _ .rw)) = m
    have heff := amoEffect_open (n := n) (i := .amo (.g n) a b op sc f) rfl ho hm.symm
    have hpath : m.path = s.amoPath (s.keyOf (s.value a + f.setWidth 64 * 8) .rw) := by rw [← hm]; rfl
    by_cases hl : (decide (m.path = .flying) && s.me.away) = true
    · rw [if_pos hl] at heff
      have hl' : m.path = .flying ∧ s.me.away = true := by simpa using hl
      by_cases hr : s.slotRests s.ctx.core s.ctx.slot = true
      · obtain ⟨x, hx⟩ := finish_amo_leaves (n := n) (i := .amo (.g n) a b op sc f) rfl m hr
        refine ⟨_, x, m.path, amo_keyed hi ho, ?_, fun h => ?_, fun _ _ _ => ?_⟩
        · rw [hpath]
          exact amoPath_cases s _
        · rcases h with h | h
          · exact absurd hl'.1 h
          · simp [h] at hl'
        · rw [amo_issue hi, heff, hx, hpath, ← hm]
          rfl
      · refine ⟨_, s.ctx, m.path, amo_keyed hi ho, ?_, fun h => ?_, fun _ _ h => absurd h hr⟩
        · rw [hpath]
          exact amoPath_cases s _
        · rcases h with h | h
          · exact absurd hl'.1 h
          · simp [h] at hl'
    · rw [if_neg hl] at heff
      obtain ⟨x, hx⟩ := finish_amo_stays (s := s) (n := n) (i := .amo (.g n) a b op sc f) rfl m
      refine ⟨_, x, m.path, amo_keyed hi ho, ?_, fun _ => ?_, fun h1 h2 _ => ?_⟩
      · rw [hpath]
        exact amoPath_cases s _
      · rw [amo_issue hi, heff, hx, hpath, ← hm]
        rfl
      · simp [h1, h2] at hl

/-! ### Reports and corrections touch memory and counts alone (R324, R329, R332) -/

theorem report_frame (s : State) (die : Nat) (r : Report) : ∃ m, s.report die r = { s with mem := m } := by
  unfold State.report
  extract_lets base written consumed unread s'
  split
  · exact ⟨_, rfl⟩
  · exact ⟨_, rfl⟩

theorem count_frame (s : State) (die row what : Nat) (d : Word) (core : Nat) (asid : BitVec 12) :
    ∃ m l, s.count die row what d core asid = { s with mem := m, counters := l } := by
  unfold State.count
  extract_lets old s'
  split
  · obtain ⟨m, h⟩ := report_frame s' die { cause := 0x41, qual := row, core := core, detail := d, asid := asid }
    exact ⟨m, _, h⟩
  · exact ⟨s.mem, _, rfl⟩

theorem heat_frame (s : State) (k : Nat) (asid : BitVec 12) : ∃ m l, s.heat k asid = { s with mem := m, hot := l } := by
  unfold State.heat
  extract_lets st row l old score crossing new rest rest' s'
  split
  · obtain ⟨m, h⟩ := report_frame s' (dieOfKey k)
      { cause := 0x48, core := channelOf k, detail := BitVec.ofNat 64 row, asid := asid }
    exact ⟨m, _, h⟩
  · exact ⟨s.mem, _, rfl⟩

theorem fixUnit_frame (s : State) (k : Nat) (asid : BitVec 12) :
    ∃ m f l r, s.fixUnit k asid = { s with mem := m, soft := f, counters := l, hot := r } := by
  unfold State.fixUnit
  split
  · exact ⟨s.mem, s.soft, s.counters, s.hot, rfl⟩
  · extract_lets key s1 hbm s2
    obtain ⟨m, hm⟩ := report_frame s1 (dieOfKey key)
      { cause := 0x40, core := s1.coreLabel (homeOf key), qual := if hbm then 1 else 2,
        detail := BitVec.ofNat 64 key, asid := asid }
    have h2 : s2 = { s with soft := sdel s.soft k, mem := m } := hm
    split
    · exact ⟨m, _, s.counters, s.hot, h2⟩
    · split
      · obtain ⟨m', l, hl⟩ := count_frame s2 (dieOfKey key) 1 (Config.rowOf key) (BitVec.ofNat 64 (Config.rowOf key))
          (channelOf key) asid
        obtain ⟨m'', r, hr⟩ := heat_frame (s2.count (dieOfKey key) 1 (Config.rowOf key) (BitVec.ofNat 64 (Config.rowOf key))
          (channelOf key) asid) key asid
        rw [hr, hl, h2]
        exact ⟨_, _, _, _, rfl⟩
      · obtain ⟨m', l, hl⟩ := count_frame s2 (dieOfKey key) 2 (homeOf key) (BitVec.ofNat 64 key)
          (s2.coreLabel (homeOf key)) asid
        rw [hl, h2]
        exact ⟨_, _, _, s.hot, rfl⟩

theorem corrected_frame (s : State) (k n : Nat) (asid : BitVec 12) :
    ∃ m f l r, s.corrected k n asid = { s with mem := m, soft := f, counters := l, hot := r } := by
  unfold State.corrected
  induction errUnits k n generalizing s with
  | nil => exact ⟨s.mem, s.soft, s.counters, s.hot, rfl⟩
  | cons u us ih =>
    obtain ⟨m, f, l, r, h⟩ := fixUnit_frame s u asid
    obtain ⟨m', f', l', r', h'⟩ := ih (s.fixUnit u asid)
    rw [List.foldl_cons, h', h]
    exact ⟨_, _, _, _, rfl⟩

/-! ### What slots, rings and ports do

Work that a free slot takes (R53, R56, R57, R281), words that a bundle still owes its ports (R88) and threads that are placed
change threads, cores and what is under way; they change no full/empty bit, no error and no waiting table. -/

/-- What such work makes of s, step by step. -/
inductive SlotWork (s : State) : State → Prop
  | refl : SlotWork s s
  | modThread {u : State} (h : SlotWork s u) (tid : Nat) (f : Thread → Thread) : SlotWork s (u.modThread tid f)
  | start {u : State} (h : SlotWork s u) (t : Thread) :
      SlotWork s { u with threads := tput u.threads u.nextTid t, nextTid := u.nextTid + 1 }
  | frame {u v : State} (h : SlotWork s u) (hv : v = { u with
      mem := v.mem, soft := v.soft, hot := v.hot, counters := v.counters, cores := v.cores, sq := v.sq, net := v.net,
      ways := v.ways, stamp := v.stamp, nextId := v.nextId }) : SlotWork s v

namespace SlotWork
variable {s u v : State}

/-- What such work leaves alone. -/
theorem unchanged (h : SlotWork s u) : u = { s with
    mem := u.mem, soft := u.soft, hot := u.hot, counters := u.counters, cores := u.cores, sq := u.sq, net := u.net,
    ways := u.ways, stamp := u.stamp, nextId := u.nextId, threads := u.threads, nextTid := u.nextTid } := by
  induction h with
  | refl => rfl
  | modThread _ tid f ih => rw [ih]; rfl
  | start _ t ih => rw [ih]
  | frame _ hv ih => rw [hv, ih]

theorem foldl {α : Type} {f : State → α → State} (hf : ∀ w x, SlotWork s w → SlotWork s (f w x)) (l : List α)
    (h : SlotWork s u) : SlotWork s (l.foldl f u) := by
  induction l generalizing u with
  | nil => exact h
  | cons x r ih => exact ih (hf u x h)

theorem modCore (h : SlotWork s u) (c : Nat) (f : Core → Core) : SlotWork s (u.modCore c f) := h.frame rfl
theorem modSlot (h : SlotWork s u) (c n : Nat) (f : Slot → Slot) : SlotWork s (u.modSlot c n f) := h.frame rfl

theorem setNet (h : SlotWork s u) (n : Tbl Body) : SlotWork s { u with net := n } := h.frame rfl

theorem pushPort (h : SlotWork s u) (c : Nat) (q : BitVec 3) (w : Word) : SlotWork s (u.pushPort c q w) := by
  unfold State.pushPort
  split
  · exact h.modCore _ _
  · exact h.modCore _ _

theorem sendTo (h : SlotWork s u) (id : Nat) (l : Launch) (core home cls : Nat) : SlotWork s (u.sendTo id l core home cls) := by
  obtain ⟨w, n, hw⟩ := sendTo_frame u id l core home cls
  exact hw ▸ h.frame rfl

theorem sendAmo (h : SlotWork s u) (a : Amo) : SlotWork s (u.sendAmo a) := (h.frame (v := u.inject _) rfl).sendTo ..
theorem sendLoad (h : SlotWork s u) (a : Access) : SlotWork s (u.sendLoad a) := (h.frame (v := u.inject _) rfl).sendTo ..
theorem postAccess (h : SlotWork s u) (a : Access) : SlotWork s (u.postAccess a) := by
  rw [postAccess_eq]
  exact ((h.frame (v := u.inject (.access a)) rfl).sendTo _ _ _ _ _).frame rfl

theorem corrected (h : SlotWork s u) (k n : Nat) (asid : BitVec 12) : SlotWork s (u.corrected k n asid) := by
  obtain ⟨m, f, l, r, hc⟩ := corrected_frame u k n asid
  exact hc ▸ h.frame rfl

theorem pay (h : SlotWork s u) (tid : Nat) : SlotWork s (u.pay tid) := by
  unfold State.pay
  split
  · exact h
  · split
    · exact (foldl (fun _ _ hw => hw.pushPort _ _ _) _ h).modThread _ _
    · exact h

theorem signal (h : SlotWork s u) (c : Nat) : SlotWork s (u.signal c) := by
  refine foldl (fun w n hw => ?_) _ h
  split
  · exact hw.modSlot _ _ _
  · split
    · split
      · exact (hw.modThread _ _).modSlot _ _ _
      · exact hw.modSlot _ _ _
    · exact hw

theorem place (h : SlotWork s u) (tid c n : Nat) : SlotWork s (u.place tid c n) := (h.modSlot _ _ _).modThread _ _

theorem placeHome (h : SlotWork s u) (tid : Nat) (t : Thread) : SlotWork s (u.placeHome tid t) :=
  ((h.signal _).modSlot _ _ _).modThread _ _

theorem startHandler (h : SlotWork s u) (lid c n : Nat) (w : Word) (ws : List Word) (x : Word) :
    SlotWork s (u.startHandler lid c n w ws x) := (h.start _).modSlot _ _ _

theorem startEntry (h : SlotWork s u) (lid : Nat) (l : Launch) (c n : Nat) (ws : List Word) :
    SlotWork s (u.startEntry lid l c n ws) := (h.start _).modSlot _ _ _

theorem restartIn (h : SlotWork s u) (c n : Nat) (r : FrameReq) (w f p : Word) (sus : Option Nat) :
    SlotWork s (u.restartIn c n r w f p sus) := by
  unfold State.restartIn
  dsimp only
  split
  · split
    · exact h
    · exact (h.place _ _ _).modThread _ _
  · exact h.startEntry _ _ _ _ _

theorem resend (h : SlotWork s u) (c n : Nat) (b : Body) : SlotWork s (u.resend c n b) := by
  unfold State.resend
  split
  · dsimp only
    split
    · exact h.sendLoad _
    · exact h.postAccess _
  · exact h.sendAmo _
  · exact h

theorem resume (h : SlotWork s u) (c n : Nat) (r : RunRec) : SlotWork s (u.resume c n r) := by
  unfold State.resume
  refine foldl (fun w x hw => ?_) _ ((((h.modCore _ _).place _ _ _).modThread _ _).frame rfl)
  have hs : SlotWork s ((w.resend c n x.2).renumber c x.1 w.nextId) := (hw.resend _ _ _).modCore _ _
  dsimp only
  split
  · split
    · exact hs.modThread _ _
    · exact hs
  · exact hs.modThread _ _
  · exact hs.modThread _ _
  · exact hs.modThread _ _
  · exact hs

theorem takeOne (h : SlotWork s u) (c n : Nat) : SlotWork s (u.takeOne c n) := by
  unfold State.takeOne
  extract_lets x anyslot size fromRing gang context
  have hring : ∀ w, fromRing = some w → SlotWork s w := by
    intro w hw
    simp only [fromRing] at hw
    split at hw
    · split at hw
      · obtain rfl := Option.some.inj hw
        exact (((h.corrected _ _ _).signal _).modCore _ _).startHandler _ _ _ _ _ _
      · split at hw
        · split at hw
          · obtain rfl := Option.some.inj hw
            exact ((((h.signal _).modCore _ _).place _ _ _).pay _).modThread _ _
          · split at hw
            · obtain rfl := Option.some.inj hw
              exact ((h.signal _).modCore _ _).setNet _
            · obtain rfl := Option.some.inj hw
              exact (h.signal _).modCore _ _
          · simp at hw
        · simp at hw
    · simp at hw
  split
  · exact h
  · split
    · split
      · split
        · split
          · extract_lets s1
            have h1 : SlotWork s s1 := (h.signal _).modCore _ _
            split
            · exact h1.setNet _
            · exact h1
          · exact h
        · exact h
      · exact h
    · split
      · extract_lets s1
        have h1 : SlotWork s s1 := (h.modCore _ _).restartIn _ _ _ _ _ _ _
        split
        · exact h1.modSlot _ _ _
        · exact h1
      · split
        · rename_i w hw
          split at hw
          · simp at hw
          · exact hring w hw
        · exact h.resume _ _ _
        · split
          · exact h
          · exact h.modSlot _ _ _

theorem drainRing (h : SlotWork s u) (k c : Nat) : SlotWork s (State.drainRing k c u) := by
  induction k generalizing u with
  | zero => exact h
  | succ k ih =>
    unfold State.drainRing
    split
    · exact h
    · dsimp only
      split
      · exact ih (h.takeOne _ _)
      · exact h.takeOne _ _

theorem takeWork (h : SlotWork s u) (c n : Nat) : SlotWork s (u.takeWork c n) := by
  unfold State.takeWork
  split
  · exact (h.takeOne _ _).drainRing _ _
  · exact h.takeOne _ _

theorem freeSlot (h : SlotWork s u) (c n : Nat) : SlotWork s (u.freeSlot c n) := (h.modSlot _ _ _).takeWork _ _

theorem freeReserved (h : SlotWork s u) (tid c : Nat) : SlotWork s (u.freeReserved tid c) := by
  refine foldl (fun w n hw => ?_) _ h
  dsimp only
  split
  · exact (hw.modSlot _ _ _).takeWork _ _
  · exact hw

theorem freeEverywhere (h : SlotWork s u) (tid : Nat) : SlotWork s (u.freeEverywhere tid) :=
  foldl (fun _ _ hw => hw.freeReserved _ _) _ h

theorem cutRing (h : SlotWork s u) (c : Nat) (g : RingRec → Bool) : SlotWork s (u.cutRing c g) := by
  unfold State.cutRing
  extract_lets size s1
  have h1 : SlotWork s s1 := h.modCore _ _
  split
  · exact h1
  · exact foldl (fun _ _ hw => hw.takeWork _ _) _ h1

/-- A bundle that ends pops and pushes its ports, and changes its thread. -/
theorem finish (h : SlotWork s u) : SlotWork s u.finish := by
  unfold State.finish
  extract_lets pops s1 s2 undo
  have h1 : SlotWork s s1 := foldl (fun _ _ hw => hw.modCore _ _) _ h
  have h2 : SlotWork s s2 := by
    simp only [s2]
    split
    · exact h1
    · exact foldl (fun _ _ hw => hw.pushPort _ _ _) _ h1
  exact h2.modThread _ _

end SlotWork

/-! ### Which keys a finite map has -/

theorem tget_eq_none_iff {α : Type} {l : Tbl α} {k : Nat} : tget l k = none ↔ ∀ p ∈ l, p.1 ≠ k := by
  induction l with
  | nil => simp
  | cons p r ih =>
    obtain ⟨j, x⟩ := p
    by_cases h : j = k
    · simp [tget, h]
    · simp [tget, h, ih]

theorem tget_filter_none {α : Type} {l : Tbl α} {k : Nat} (f : Nat × α → Bool) (h : tget l k = none) :
    tget (l.filter f) k = none :=
  tget_eq_none_iff.2 fun p hp => tget_eq_none_iff.1 h p (List.mem_filter.1 hp).1

theorem tget_tmod_none {α : Type} {l : Tbl α} {k : Nat} (j : Nat) (f : α → α) (h : tget l k = none) :
    tget (tmod l j f) k = none := by
  by_cases hj : k = j
  · subst hj
    simp [tmod, h]
  · unfold tmod
    split
    · rw [tget_tput_ne _ _ hj, h]
    · exact h

/-! ### No thread comes back

Operations end threads, change them, and start new ones under new numbers (R340): a number that has been given out and whose
thread is gone names none again. -/

/-- Of the numbers given out in s, none whose thread is gone there names a thread in u. -/
structure NoReturn (s u : State) : Prop where
  rises : s.nextTid ≤ u.nextTid
  gone : ∀ tid < s.nextTid, tget s.threads tid = none → tget u.threads tid = none

namespace NoReturn
variable {s u v : State}

theorem refl (s : State) : NoReturn s s := ⟨Nat.le_refl _, fun _ _ h => h⟩

/-- What concerns neither threads nor their numbers. -/
theorem frame (h : NoReturn s u) (ht : v.threads = u.threads) (hn : v.nextTid = u.nextTid) : NoReturn s v :=
  ⟨hn ▸ h.rises, fun tid hlt hg => ht ▸ h.gone tid hlt hg⟩

theorem modThread (h : NoReturn s u) (tid : Nat) (f : Thread → Thread) : NoReturn s (u.modThread tid f) :=
  ⟨h.rises, fun j hlt hg => tget_tmod_none _ _ (h.gone j hlt hg)⟩

theorem modMe (h : NoReturn s u) (f : Thread → Thread) : NoReturn s (u.modMe f) := h.modThread _ f

/-- A thread that is started takes the next number. -/
theorem start (h : NoReturn s u) (t : Thread) :
    NoReturn s { u with threads := tput u.threads u.nextTid t, nextTid := u.nextTid + 1 } :=
  ⟨Nat.le_succ_of_le h.rises, fun j hlt hg => by
    have := h.rises
    rw [tget_tput_ne _ _ (by omega)]
    exact h.gone j hlt hg⟩

theorem filter (h : NoReturn s u) (f : Nat × Thread → Bool) : NoReturn s { u with threads := u.threads.filter f } :=
  ⟨h.rises, fun j hlt hg => tget_filter_none f (h.gone j hlt hg)⟩

theorem foldl {α : Type} {f : State → α → State} (hf : ∀ w x, NoReturn s w → NoReturn s (f w x)) (l : List α)
    (h : NoReturn s u) : NoReturn s (l.foldl f u) := by
  induction l generalizing u with
  | nil => exact h
  | cons x r ih => exact ih (hf u x h)

theorem modCore (h : NoReturn s u) (c : Nat) (f : Core → Core) : NoReturn s (u.modCore c f) := h.frame rfl rfl
theorem modSlot (h : NoReturn s u) (c n : Nat) (f : Slot → Slot) : NoReturn s (u.modSlot c n f) := h.frame rfl rfl
theorem modLaunch (h : NoReturn s u) (l : Nat) (f : Launch → Launch) : NoReturn s (u.modLaunch l f) := h.frame rfl rfl

theorem slotWork (h : NoReturn s u) (w : SlotWork u v) : NoReturn s v := by
  induction w with
  | refl => exact h
  | modThread _ tid f ih => exact ih.modThread tid f
  | start _ t ih => exact ih.start t
  | frame _ hv ih => exact ih.frame (by rw [hv]) (by rw [hv])

theorem postAccess (h : NoReturn s u) (a : Access) : NoReturn s (u.postAccess a) := h.slotWork (SlotWork.refl.postAccess a)
theorem pay (h : NoReturn s u) (tid : Nat) : NoReturn s (u.pay tid) := h.slotWork (SlotWork.refl.pay tid)

theorem placeHome (h : NoReturn s u) (tid : Nat) (t : Thread) : NoReturn s (u.placeHome tid t) :=
  h.slotWork (SlotWork.refl.placeHome tid t)

theorem freeSlot (h : NoReturn s u) (c n : Nat) : NoReturn s (u.freeSlot c n) := h.slotWork (SlotWork.refl.freeSlot c n)
theorem freeReserved (h : NoReturn s u) (tid c : Nat) : NoReturn s (u.freeReserved tid c) :=
  h.slotWork (SlotWork.refl.freeReserved tid c)
theorem freeEverywhere (h : NoReturn s u) (tid : Nat) : NoReturn s (u.freeEverywhere tid) :=
  h.slotWork (SlotWork.refl.freeEverywhere tid)
theorem cutRing (h : NoReturn s u) (c : Nat) (g : RingRec → Bool) : NoReturn s (u.cutRing c g) :=
  h.slotWork (SlotWork.refl.cutRing c g)

theorem openBars (h : NoReturn s u) (lid : Nat) : NoReturn s (u.openBars lid) := by
  unfold State.openBars
  split
  · exact h
  · split
    · exact h
    · extract_lets complete opened s1
      refine foldl (fun w b hw => ?_) _ (h.modLaunch _ _)
      exact foldl (fun _ _ hv => hv.modThread _ _) _ (foldl (fun _ _ hv => hv.pay _) _ hw)

theorem dropAmos (h : NoReturn s u) (tid : Nat) : NoReturn s (u.dropAmos tid) := by
  unfold State.dropAmos
  extract_lets mine gone s1
  refine foldl (fun w p hw => ?_) _ (h.frame rfl rfl)
  split
  · split
    · exact hw.freeSlot _ _
    · exact hw.cutRing _ _
    · exact hw.frame rfl rfl
  · exact hw

theorem undoOnce (h : NoReturn s u) (t : Thread) : NoReturn s (u.undoOnce t) := by
  unfold State.undoOnce
  extract_lets unit pos
  split
  · exact h
  · exact h.frame rfl rfl

theorem leaveWaits (h : NoReturn s u) (tid : Nat) : NoReturn s (u.leaveWaits tid) := by
  unfold State.leaveWaits
  split
  · exact h
  · rename_i t _
    extract_lets s1 s2 mine refused s3 s4 s5 s6 s7
    have h2 : NoReturn s s2 := by
      simp only [s2]
      split
      · exact (h.dropAmos _).placeHome _ _
      · exact h.dropAmos _
    have h6 : NoReturn s s6 := h2.frame rfl rfl
    have h7 : NoReturn s s7 := by
      simp only [s7]
      split
      · exact h6.modCore _ _
      · exact h6
    split
    · extract_lets s8 s9
      have h8 : NoReturn s s8 := foldl (fun _ _ hw => hw.modCore _ _) _ h7
      have h9 : NoReturn s s9 := by
        simp only [s9]
        split
        · exact h8.undoOnce _
        · exact h8
      exact h9.modThread _ _
    · exact h7.modThread _ _

theorem retireOnce (h : NoReturn s u) (l q n : Nat) : NoReturn s (u.retireOnce l q n) := h.frame rfl rfl

theorem orphanOnce (h : NoReturn s u) (ms : List (Nat × Thread)) (r : OnceRec) : NoReturn s (u.orphanOnce ms r) := by
  refine foldl (fun w p hw => ?_) _ h
  dsimp only
  split
  · exact hw.modThread _ _
  · exact hw

theorem leaveOnce (h : NoReturn s u) (tid : Nat) (t : Thread) : NoReturn s (u.leaveOnce tid t) := by
  unfold State.leaveOnce
  split
  · exact h
  · extract_lets q pos n s1 ms s2
    refine retireOnce (foldl (fun w r hw => ?_) _ (h.modThread _ _)) _ _ _
    split
    · exact hw.orphanOnce _ _
    · exact hw

theorem clearFrameOf (h : NoReturn s u) (tid k : Nat) : NoReturn s (u.clearFrameOf tid k) := by
  unfold State.clearFrameOf
  split
  · exact h
  · exact h.frame rfl rfl

theorem releaseHeld (h : NoReturn s u) (c tid : Nat) : NoReturn s (u.releaseHeld c tid) := by
  unfold State.releaseHeld
  extract_lets x held
  refine foldl (fun w b hw => ?_) _ h
  split
  · split
    · exact hw
    · exact (hw.postAccess _).modCore _ _
  · exact hw

theorem refuse (h : NoReturn s u) (id : Nat) (m : Msg) : NoReturn s (u.refuse id m) := by
  unfold State.refuse
  extract_lets s1 s2 s3 asid
  have h3 : NoReturn s s3 := by
    have h2 : NoReturn s s2 := h.frame rfl rfl
    simp only [s3]
    split
    · exact h2.modThread _ _
    · exact h2
  obtain ⟨m', hm⟩ := report_frame s3 (dieOf m.dst)
    { cause := 0x43, core := s3.coreLabel m.dst, detail := BitVec.ofNat 64 m.score, asid := asid }
  exact hm ▸ h3.frame rfl rfl

theorem refuseHeld (h : NoReturn s u) (c : Nat) : NoReturn s (u.refuseHeld c) := by
  unfold State.refuseHeld
  split
  · exact h
  · refine modCore (foldl (fun w b hw => ?_) _ h) _ _
    split
    · exact hw.refuse _ _
    · exact hw

theorem releaseSaved (h : NoReturn s u) (l : Launch) : NoReturn s (u.releaseSaved l) := by
  unfold State.releaseSaved
  extract_lets recs
  refine foldl (fun w b hw => ?_) _ h
  split
  · split
    · exact hw
    · exact hw.postAccess _
  · split
    · exact hw
    · exact hw.postAccess _
  · exact hw

theorem endTraffic (h : NoReturn s u) (lid : Nat) (l : Launch) : NoReturn s (u.endTraffic lid l) := by
  unfold State.endTraffic
  split
  · exact h.releaseSaved _
  · extract_lets s1 gone dead
    have h1 : NoReturn s s1 := by
      refine foldl (fun w c hw => refuseHeld (foldl (fun v r hv => ?_) _ hw) _) _ h
      exact hv.releaseHeld _ _
    exact h1.frame rfl rfl

theorem endLaunch (h : NoReturn s u) (lid how : Nat) : NoReturn s (u.endLaunch lid how) := by
  unfold State.endLaunch
  split
  · exact h
  · rename_i l _
    extract_lets mine s1 s2 s3 s4 s5 s6
    have h1 : NoReturn s s1 := by
      refine foldl (fun w p hw => ?_) _ h
      dsimp only
      split
      · exact (hw.leaveWaits _).clearFrameOf _ _
      · exact hw.leaveWaits _
    have h3 : NoReturn s s3 := ((h1.endTraffic lid l).filter _).frame rfl rfl
    have h4 : NoReturn s s4 := by
      simp only [s4]
      split
      · exact h3
      · exact h3.frame rfl rfl
    have h6 : NoReturn s s6 := h4.frame rfl rfl
    split
    · exact h6
    · exact h6.frame rfl rfl

theorem checkEnd (h : NoReturn s u) (lid : Nat) : NoReturn s (u.checkEnd lid) := by
  unfold State.checkEnd
  split
  · exact h
  · split
    · exact h.endLaunch _ _
    · exact h

end NoReturn

/-- A thread that ends is gone, and none comes back (R138). -/
theorem endThread_gone {s : State} {tid : Nat} (h : tid < s.nextTid) :
    tget (s.endThread tid).threads tid = none ∧ NoReturn s (s.endThread tid) := by
  unfold State.endThread
  split
  · rename_i ht
    exact ⟨ht, NoReturn.refl s⟩
  · extract_lets s1 t s2 s3 s4 s5 s6 s7 s8 s9
    have h2 : NoReturn s s2 := ((NoReturn.refl s).leaveWaits _).leaveOnce _ _
    have h3 : NoReturn s s3 := by
      simp only [s3]
      split
      · exact h2.clearFrameOf _ _
      · exact h2
    have h4 : NoReturn s s4 := h3.releaseHeld _ _
    have h5 : NoReturn s s5 := (h4.filter fun p => p.1 != tid).frame rfl rfl
    have rest {u : State} (h5 : NoReturn u s5) : NoReturn u (s9.checkEnd t.launch) := by
      have h6 : NoReturn u s6 := h5.modCore _ _
      have h7 : NoReturn u s7 := by
        simp only [s7]
        split
        · exact h6.freeSlot _ _
        · exact h6.cutRing _ _
        · exact h6.frame rfl rfl
        · exact h6
      exact ((h7.freeEverywhere _).openBars _).checkEnd _
    exact ⟨(rest (NoReturn.refl s5)).gone tid (Nat.lt_of_lt_of_le h h4.rises) (tget_tdel_self _ _), rest h5⟩

namespace NoReturn

theorem finish {s u : State} (h : NoReturn s u) : NoReturn s u.finish := h.slotWork SlotWork.refl.finish

end NoReturn

/-! ### Moves at issue (R57, R138) -/

theorem departing_cases (s : State) (dst : Nat) (route : Word × Word) :
    let u := (s.inject (.migr s.ctx.tid dst s.ctx.core route s.ctx.slot)).sendOn s.nextId s.ctx.core 2 route
    ∃ f, s.departing dst route = u.modSlot s.ctx.core s.ctx.slot f := by
  unfold State.departing State.restSlot
  cases s.me.away
  · exact ⟨_, rfl⟩
  · exact ⟨_, rfl⟩

theorem me_departing (s : State) (dst : Nat) (route : Word × Word) : (s.departing dst route).me = s.me := by
  obtain ⟨f, h⟩ := departing_cases s dst route
  rw [h]
  rfl

theorem clock_departing (s : State) (dst : Nat) (route : Word × Word) : (s.departing dst route).clock = s.clock := by
  obtain ⟨f, h⟩ := departing_cases s dst route
  rw [h]
  rfl

theorem pops_departing (s : State) (dst : Nat) (route : Word × Word) (i : Instr) :
    (s.departing dst route).pops i = s.pops i := by
  obtain ⟨f, h⟩ := departing_cases s dst route
  rw [h, pops_modSlot]
  rfl

theorem depart_open {s : State} {i : Instr} {dst : Nat} {route : Word × Word} (hd : s.mayDepart = true)
    (hr : s.routeTo dst route) (b : Word) :
    (s.inWith i (s.meIn i) [] b).depart s.ctx.tid dst
      = (s.departing dst route).inWith i { s.meIn i with place := .flying s.nextId, wait := none } [] b := by
  obtain ⟨hplace, hcore, hrests⟩ := mayDepart_parts hd
  rw [depart_eq (s := s.inWith i (s.meIn i) [] b) (tid := s.ctx.tid) (dst := dst) (t := s.meIn i) (route := route)
    (tget_tput_self ..) hplace hcore hrests hr]
  unfold State.leaves State.departing
  rw [show (s.meIn i).away = s.me.away from rfl]
  cases s.me.away
  · simp only [Bool.false_eq_true, if_false, State.inWith, tput_tput]
    rfl
  · simp only [if_true, State.inWith, tput_tput]
    rfl

/-- A bundle that ends with its thread on its way to another core. -/
theorem finish_departing (s : State) {i : Instr} (hu : usesBank i = false) (dst : Nat) (route : Word × Word) :
    ∃ x, ((s.departing dst route).inWith i { s.meIn i with place := .flying s.nextId, wait := none } [] (s.me.pc + 8)).finish
      = (s.departing dst route).afterAlone i [] { s.unfinished s.me i with place := .flying s.nextId, wait := none } x := by
  have h := finish_pending (s.departing dst route) i { s.meIn i with place := .flying s.nextId, wait := none }
  rw [me_departing] at h
  obtain ⟨x, hx⟩ := h (by simp [Thread.pending]) rfl rfl rfl
  refine ⟨x, hx.trans ?_⟩
  simp only [State.unfinished, me_departing, pops_departing, clock_departing, Thread.stepped, State.meIn, bankSought_of_unused hu]

theorem away_open (s : State) (i : Instr) (b : Word) : (s.inWith i (s.meIn i) [] b).me.away = s.me.away := by
  rw [State.me_inWith]
  rfl

section
variable {s : State} {a : Reg}

theorem mig_notes (hi : s.issues .c (.mig a) = true) (h : isLocal (s.value a) = false ∨ s.oor (s.value a) 1 = true) :
    ∃ x, exec (.mig a) s = .next (s.afterAlone (.mig a) [] ((s.me.note (s.value a)).stepped (.mig a) (s.me.pc + 8)) x) := by
  refine ⟨s.ctxOut (.mig a), ?_⟩
  have hc : (!isLocal (s.value a) || s.oor (s.value a) 1) = true := by simpa using h
  have he : exec (.mig a) s = issue .c (.mig a) (migEffect a) s := rfl
  rw [he, issue_alone hi, migEffect]
  simp only [src_open, oor_open, hc, if_true, modMe_inWith]
  have hn := finish_noted hi rfl (s.value a) s.me.regs
  simp only [Thread.note_eq] at hn ⊢
  rw [← hn]
  rfl

theorem mig_here (hi : s.issues .c (.mig a) = true) (hl : isLocal (s.value a) = true) (ho : s.oor (s.value a) 1 = false)
    (hc : namedCore s.myLaunch s.ctx.core (s.value a) = s.ctx.core) :
    ∃ x, exec (.mig a) s = .next (s.wentTo (.mig a) (s.me.pc + 8) x) := by
  have he : exec (.mig a) s = issue .c (.mig a) (migEffect a) s := rfl
  obtain ⟨x, hx⟩ := finish_went hi (s.me.pc + 8)
  refine ⟨x, ?_⟩
  have hc' : namedCore s.myLaunch (s.inWith (.mig a) (s.meIn (.mig a)) [] (s.me.pc + 8)).ctx.core (s.value a)
      = (s.inWith (.mig a) (s.meIn (.mig a)) [] (s.me.pc + 8)).ctx.core := hc
  rw [he, issue_alone hi, migEffect]
  simp only [src_open, oor_open, myLaunch_inWith, hl, ho, Bool.not_true, Bool.or_self, Bool.false_eq_true, if_false, hc', if_true]
  rw [hx]

theorem mig_leaves (hi : s.issues .c (.mig a) = true) (hl : isLocal (s.value a) = true) (ho : s.oor (s.value a) 1 = false)
    (hc : namedCore s.myLaunch s.ctx.core (s.value a) ≠ s.ctx.core) (hd : s.mayDepart = true) :
    ∃ r x, s.routeTo (namedCore s.myLaunch s.ctx.core (s.value a)) r
      ∧ exec (.mig a) s = .next ((s.departing (namedCore s.myLaunch s.ctx.core (s.value a)) r).afterAlone (.mig a) []
          { s.unfinished s.me (.mig a) with place := .flying s.nextId, wait := none } x) := by
  have he : exec (.mig a) s = issue .c (.mig a) (migEffect a) s := rfl
  have hlate := issues_late hi
  simp only [State.late, src_posed, oor_posed, myLaunch_posed, core_posed, hl, ho, Bool.not_true, Bool.or_self,
    Bool.false_eq_true, if_false, hc, firstStop_eq_none, List.mem_cons, forall_eq_or_imp] at hlate
  obtain ⟨r, hr⟩ := checkEntry_route hlate.1
  have hr' : s.routeTo (namedCore s.myLaunch s.ctx.core (s.value a)) r := routeTo_posed (by simpa [State.routeTo] using hr)
  obtain ⟨x, hx⟩ := finish_departing s (i := .mig a) rfl (namedCore s.myLaunch s.ctx.core (s.value a)) r
  refine ⟨r, x, hr', ?_⟩
  have hc' : namedCore s.myLaunch (s.inWith (.mig a) (s.meIn (.mig a)) [] (s.me.pc + 8)).ctx.core (s.value a)
      ≠ (s.inWith (.mig a) (s.meIn (.mig a)) [] (s.me.pc + 8)).ctx.core := hc
  rw [he, issue_alone hi, migEffect]
  simp only [src_open, oor_open, myLaunch_inWith, hl, ho, Bool.not_true, Bool.or_self, Bool.false_eq_true, if_false, hc']
  rw [← hx, ← depart_open hd hr']
  rfl

end

theorem home_stays {s : State} (hi : s.issues .c .home = true) (ha : s.me.away = false) :
    ∃ x, exec .home s = .next (s.wentTo .home (s.me.pc + 8) x) := by
  have he : exec .home s = issue .c .home homeEffect s := rfl
  obtain ⟨x, hx⟩ := finish_went hi (s.me.pc + 8)
  refine ⟨x, ?_⟩
  rw [he, issue_alone hi, homeEffect, away_open, ha, if_neg Bool.false_ne_true, hx]

theorem home_leaves {s : State} (hi : s.issues .c .home = true) (ha : s.me.away = true) (hd : s.mayDepart = true) :
    ∃ r x, s.routeTo s.me.homeCore r ∧ exec .home s = .next ((s.departing s.me.homeCore r).afterAlone .home []
      { s.unfinished s.me .home with place := .flying s.nextId, wait := none } x) := by
  have he : exec .home s = issue .c .home homeEffect s := rfl
  have hlate := issues_late hi
  have ha' : (s.posed .home).me.away = true := by rw [me_posed]; exact ha
  simp only [State.late, ha', if_true, firstStop_eq_none, List.mem_cons, forall_eq_or_imp] at hlate
  obtain ⟨r, hr⟩ := checkEntry_route hlate.1
  have hr' : s.routeTo s.me.homeCore r := routeTo_posed (by simpa [State.routeTo, State.meIn] using hr)
  obtain ⟨x, hx⟩ := finish_departing s (i := .home) rfl s.me.homeCore r
  refine ⟨r, x, hr', ?_⟩
  rw [he, issue_alone hi, homeEffect, away_open, ha, if_pos rfl, State.me_inWith, ← hx, ← depart_open hd hr']
  rfl

theorem done_ends {s : State} (hi : s.issues .c .done = true) (h : s.ctx.tid < s.nextTid) :
    ∃ t, exec .done s = .next t ∧ tget t.threads s.ctx.tid = none := by
  have he : exec .done s = issue .c .done doneEffect s := rfl
  refine ⟨_, he.trans (issue_alone hi _), ?_⟩
  generalize hv : s.inWith .done (s.meIn .done) [] (s.me.pc + 8) = v
  have hn : s.ctx.tid < v.nextTid := by rw [← hv]; exact h
  have ht : v.ctx.tid = s.ctx.tid := by rw [← hv]; rfl
  obtain ⟨hg, hr⟩ := endThread_gone hn
  rw [doneEffect, ht]
  exact (NoReturn.refl _).finish.gone _ (Nat.lt_of_lt_of_le hn hr.rises) hg

/-- Settles O15, by where the instruction leads. -/
theorem movesLeaveAndDoneEndsTheThread : Obligations.MovesLeaveAndDoneEndsTheThread := by
  unfold Obligations.MovesLeaveAndDoneEndsTheThread
  exact ⟨fun s a => ⟨fun hi => ⟨mig_notes hi, fun hl ho hc => mig_here hi hl ho hc, fun hl ho hc hd => mig_leaves hi hl ho hc hd⟩,
    home_stays, home_leaves⟩, fun s hi h => done_ends hi h⟩

/-! ### Bundles with no operands, and what stops them -/

theorem firstStop_single (x : Option Stop) : firstStop [x] = x := by cases x <;> rfl

/-- A fence's verdict is its own checks' (R93): it has no operands. -/
theorem firstStopOf_fence {s : State} {i : Instr} (h : i = .fence ∨ i = .fenceR ∨ i = .fenceOwn) (p : Part) :
    s.firstStopOf [(p, i)] = inHalf p (s.late i) ∧ s.issueChecks [(p, i)] = none := by
  have hc : s.issueChecks [(p, i)] = none := by
    rcases h with rfl | rfl | rfl <;>
      simp [State.issueChecks, firstStop_eq_none, doubleWrite, overHalves_alone, inHalf_eq_none, State.illegalOperand, operands,
        State.unbound, State.notAtHome, homeOnlyInstr, State.noTumbler, tumblerOf]
  have h1 : s.bindStop i = none := by rcases h with rfl | rfl | rfl <;> rfl
  have h2 : s.readiness i = none := by rcases h with rfl | rfl | rfl <;> rfl
  have h3 : s.engineRoom i = none := by rcases h with rfl | rfl | rfl <;> rfl
  have h4 : s.badOperand i = none := by rcases h with rfl | rfl | rfl <;> rfl
  refine ⟨?_, hc⟩
  rw [State.firstStopOf, hc]
  simp only [overHalves_alone, h1, h2, h3, h4]
  exact firstStop_single _

theorem inHalf_eq_park {p : Part} {x : Option Stop} {c : Cond} : inHalf p x = some (.park c) ↔ x = some (.park c) := by
  rcases x with _ | x
  · simp [inHalf]
  · cases x <;> simp [inHalf]

section
variable {s : State} {i : Instr}

theorem fence_posed (hb : s.atBundle = true) (h : i = .fence ∨ i = .fenceR ∨ i = .fenceOwn) : s.opening .c i = s.posed i := by
  refine opening_eq_posed hb ?_
  unfold State.opening State.bindNow
  have hu : usesBank i = false := by rcases h with rfl | rfl | rfl <;> rfl
  simp only [List.any_cons, hu, List.any_nil, Bool.or_self, Bool.false_and, Bool.false_eq_true, if_false]
  exact (firstStopOf_fence h _).2

theorem fence_issues (hb : s.atBundle = true) (h : i = .fence ∨ i = .fenceR ∨ i = .fenceOwn) (hl : (s.posed i).late i = none) :
    s.issues .c i = true := by
  rw [State.issues, hb, fence_posed hb h, (firstStopOf_fence h _).1, inHalf_eq_none.2 hl]
  rfl

/-- A bundle that parks leaves its thread waiting on the condition (R38, R88). -/
theorem exec_parks {eff : State → State} (hb : s.atBundle = true) (he : exec i s = issue .c i eff s)
    (ho : s.opening .c i = s.posed i) {c : Cond} (hs : (s.posed i).firstStopOf [(.c, i)] = some (.park c)) :
    ∃ x, exec i s = .next (s.parked i c x) := by
  obtain ⟨hme, hphase, -, -⟩ := atBundle_parts hb
  refine ⟨(s.posed i).ctx, ?_⟩
  rw [he, issue_stopped hme hphase (by rw [ho]; exact hs), ho, State.stopWith]
  simp only [State.modMe, State.modThread, State.posed, State.parked]
  rw [show (s.ctxIn i).tid = s.ctx.tid from rfl, tmod_tput]
  rfl

theorem fence_parks {eff : State → State} (hb : s.atBundle = true) (h : i = .fence ∨ i = .fenceR ∨ i = .fenceOwn)
    (he : exec i s = issue .c i eff s) {c : Cond} (hl : (s.posed i).late i = some (.park c)) :
    ∃ x, exec i s = .next (s.parked i c x) := by
  refine exec_parks hb he (fence_posed hb h) ?_
  rw [(firstStopOf_fence h _).1, inHalf_eq_park.2 hl]

theorem fence_goesOn (hb : s.atBundle = true) (h : i = .fence ∨ i = .fenceR ∨ i = .fenceOwn)
    (he : exec i s = issue .c i id s) (hl : (s.posed i).late i = none) :
    ∃ c, exec i s = .next (s.wentTo i (s.me.pc + 8) c) := by
  have hi := fence_issues hb h hl
  obtain ⟨c, hc⟩ := finish_went hi (s.me.pc + 8)
  exact ⟨c, by rw [he, issue_alone hi, id, hc]⟩

theorem releaseStop_empty (hq : s.sqOf s.ctx.core s.ctx.slot = []) : s.releaseStop = none := by
  simp [State.releaseStop, State.drained, State.failedSq, hq]

theorem releaseStop_inFlight (hq : s.drained s.ctx.core s.ctx.slot = false) : s.releaseStop = some (.park .released) := by
  simp [State.releaseStop, hq]

/-- An engine command or a copy of the issuing thread is under way, at this core or at its home. -/
theorem myEngines_iff (hme : s.me? = some s.me) :
    (s.myCommands s.ctx.core s.ctx.tid || s.myCopies s.ctx.core s.ctx.tid) = true
      ↔ ∃ c, (c = s.ctx.core ∨ c = s.me.homeCore) ∧ (s.commandsOf c s.ctx.tid = true ∨ s.copiesOf c s.ctx.tid = true) := by
  have hth : s.thread? s.ctx.tid = some s.me := hme
  simp only [State.myCommands, State.myCopies, hth, Bool.or_eq_true]
  constructor
  · rintro ((h | h) | (h | h))
    · exact ⟨_, .inl rfl, .inl h⟩
    · exact ⟨_, .inr rfl, .inl h⟩
    · exact ⟨_, .inl rfl, .inr h⟩
    · exact ⟨_, .inr rfl, .inr h⟩
  · rintro ⟨c, rfl | rfl, h | h⟩
    · exact .inl (.inl h)
    · exact .inr (.inl h)
    · exact .inl (.inr h)
    · exact .inr (.inr h)

theorem myEngines_posed (hme : s.me? = some s.me) : ((s.posed i).myCommands s.ctx.core s.ctx.tid
      || (s.posed i).myCopies s.ctx.core s.ctx.tid) = (s.myCommands s.ctx.core s.ctx.tid || s.myCopies s.ctx.core s.ctx.tid) := by
  have hth : s.thread? s.ctx.tid = some s.me := hme
  have hth' : (s.posed i).thread? s.ctx.tid = some (s.meIn i) := tget_tput_self ..
  simp only [State.myCommands, State.myCopies, hth, hth']
  rfl

end

/-! ### Requests that a bundle waits for -/

theorem sent_meIn_self {s : State} {i : Instr} (hu : usesBank i = false) (id : Nat) (dsts : List Nat) :
    s.sent (s.meIn i) i id dsts = s.sent s.me i id dsts := by
  simp only [State.sent, State.unfinished, Thread.stepped, State.meIn, bankSought_of_unused hu]

/-- A bundle whose effect asks a home and awaits its answer. -/
theorem finish_ask {s : State} {i : Instr} (hu : usesBank i = false) (body : Body) (home : Nat) :
    ∃ x, ((s.inWith i (s.meIn i) [] (s.me.pc + 8)).ask body home).finish
      = (s.sends body home 0).afterAlone i [] (s.sent s.me i s.nextId []) x := by
  rw [ask_inWith s i (s.meIn i) (s.me.pc + 8) body home rfl, ← sent_meIn_self hu]
  exact finish_asked s i (s.meIn i) body home 0 [] rfl rfl rfl

/-! ### `fence.far` (R134) -/

section
variable {s : State} {a : Reg}

theorem word_and_mask (w : Word) : (w.extractLsb' 0 13).setWidth 64 = w &&& 0x1FFF := by
  apply BitVec.eq_of_toNat_eq
  simp only [BitVec.toNat_setWidth, BitVec.extractLsb'_toNat, BitVec.toNat_and, Nat.shiftRight_zero]
  rw [show (0x1FFF : Word).toNat = 2 ^ 13 - 1 from rfl, Nat.and_two_pow_sub_one_eq_mod]
  omega

theorem fenceFar_asks (hi : s.issues .c (.fenceFar a) = true) {c : Nat} (hc : s.farCore (s.value a) = some c) :
    ∃ x, exec (.fenceFar a) s = .next ((s.sends (.far c s.ctx.tid none) c 0).afterAlone (.fenceFar a) []
      (s.sent s.me (.fenceFar a) s.nextId []) x) := by
  have he : exec (.fenceFar a) s = issue .c (.fenceFar a) (fenceFarEffect a) s := rfl
  have hc' : (s.inWith (.fenceFar a) (s.meIn (.fenceFar a)) [] (s.me.pc + 8)).farCore (s.value a) = some c := by
    rw [← hc]
    simp only [State.farCore, myLaunch_inWith]
    rfl
  obtain ⟨x, hx⟩ := finish_ask (s := s) (i := .fenceFar a) rfl (.far c s.ctx.tid none) c
  refine ⟨x, ?_⟩
  rw [he, issue_alone hi, fenceFarEffect]
  simp only [src_open, hc']
  exact congrArg _ hx

theorem fenceFar_notes (hi : s.issues .c (.fenceFar a) = true) (hc : s.farCore (s.value a) = none) :
    ∃ x, exec (.fenceFar a) s = .next (s.afterAlone (.fenceFar a) []
      ((s.me.note (0x8000000000000000 + (s.value a &&& 0x1FFF) * 65536)).stepped (.fenceFar a) (s.me.pc + 8)) x) := by
  have he : exec (.fenceFar a) s = issue .c (.fenceFar a) (fenceFarEffect a) s := rfl
  have hc' : (s.inWith (.fenceFar a) (s.meIn (.fenceFar a)) [] (s.me.pc + 8)).farCore (s.value a) = none := by
    rw [← hc]
    simp only [State.farCore, myLaunch_inWith]
    rfl
  refine ⟨s.ctxOut (.fenceFar a), ?_⟩
  rw [he, issue_alone hi, fenceFarEffect]
  simp only [src_open, hc', modMe_inWith, word_and_mask]
  have hn := finish_noted hi rfl (0x8000000000000000 + (s.value a &&& 0x1FFF) * 65536) s.me.regs
  simp only [Thread.note_eq] at hn ⊢
  rw [← hn]
  rfl

end

/-- The entries a drain request waits for: those in flight at its core when it arrives, then those of them still in flight. -/
def State.drainsFor (s : State) (c : Nat) : Option (List Nat) → List Nat
  | none => (s.sq.filter fun p => p.2.core == c && p.2.inFlight).map Prod.fst
  | some ids => ids.filter fun e => ((tget s.sq e).map SqEntry.inFlight).getD false

theorem farDrain_exec {s : State} {id c tid : Nat} {left : Option (List Nat)} (hn : tget s.net id = some (.far c tid left))
    (hc : left = none → s.carried id = true) :
    exec (.farDrain id) s = .next (if (s.drainsFor c left).isEmpty then
      ({ s with net := tput s.net id (.reply tid (some (c, 0)) (.vals [])) } : State).sendBack id c
      else { s with net := tput s.net id (.far c tid (some (s.drainsFor c left))) }) := by
  have he : exec (.farDrain id) s = .next (farDrainStep id s) := rfl
  have hpk : s.packet? id = some (.far c tid left) := hn
  rw [he, farDrainStep, hpk]
  cases left with
  | none =>
    simp only [Option.isNone_none, hc rfl, Bool.not_true, Bool.and_false, Bool.false_eq_true, if_false]
    rfl
  | some ids => rfl

/-- Settles O13, fence by fence. -/
theorem fencesWaitForWhatTheyOrder : Obligations.FencesWaitForWhatTheyOrder := by
  unfold Obligations.FencesWaitForWhatTheyOrder
  refine ⟨fun s hb => ?_, fun s a => ?_, fun s id c tid left hn hc => ?_⟩
  · have hme := State.me_of (atBundle_parts hb).1
    refine ⟨fun hq => ?_, fun hq => ?_, ?_, fun i hi hq => ?_⟩
    · have hr : (s.posed .fence).releaseStop = none := releaseStop_empty hq
      have hl : (s.posed .fence).late .fence = if s.myCommands s.ctx.core s.ctx.tid || s.myCopies s.ctx.core s.ctx.tid
          then some (.park .enginesDone) else none := by
        simp only [State.late, hr, core_posed, tid_posed, myEngines_posed hme]
        split <;> rfl
      refine ⟨fun hne => ?_, fun hen => ?_⟩
      · rw [if_neg (fun h => hne ((myEngines_iff hme).1 h))] at hl
        exact fence_goesOn hb (.inl rfl) rfl hl
      · rw [if_pos ((myEngines_iff hme).2 hen)] at hl
        exact fence_parks hb (.inl rfl) (eff := id) rfl hl
    · exact fence_goesOn hb (.inr (.inl rfl)) rfl (releaseStop_empty (s := s.posed .fenceR) hq)
    · exact fence_goesOn hb (.inr (.inr rfl)) rfl rfl
    · simp only [List.mem_cons, List.not_mem_nil, or_false] at hi
      have hr : (s.posed i).releaseStop = some (.park .released) := releaseStop_inFlight hq
      rcases hi with rfl | rfl
      · exact fence_parks hb (.inl rfl) (eff := id) rfl (by simp only [State.late, hr, firstStop])
      · exact fence_parks hb (.inr (.inl rfl)) (eff := id) rfl hr
  · intro i hi
    refine ⟨fun c hc => fenceFar_asks hi ?_, fun h1 h2 => fenceFar_notes hi ?_⟩
    · rcases hc with ⟨hw, rfl⟩ | ⟨hw, hlt, rfl⟩
      · exact if_pos hw
      · exact (if_neg hw).trans (if_pos hlt)
    · exact (if_neg h1).trans (if_neg (Nat.not_lt.2 h2))
  · intro pending
    have hp : pending = s.drainsFor c left := by
      cases left with
      | none => rfl
      | some ids =>
        refine List.filter_congr fun e _ => ?_
        cases tget s.sq e <;> rfl
    rw [farDrain_exec hn hc, ← hp]
    refine ⟨fun h => ?_, fun h => ?_⟩
    · rw [if_neg (by simpa using h)]
    · rw [if_pos (by simpa using h)]

/-! ### Task instructions that await an answer (R143, R144, R146) -/

/-- A bundle of i that waits for a packet which is under way already. -/
theorem finish_await (s : State) (i : Instr) (t : Thread) (body : Body) (hp : t.pc = s.me.pc) (hf : t.fexc = s.me.fexc)
    (hb : t.bundle = some { pc := s.me.pc, instrs := [i], next := s.me.pc + 8 }) :
    ∃ x, ((s.inWith i t [] (s.me.pc + 8)).awaitAnswer body).finish
      = (s.inject body).afterAlone i [] (s.sent t i s.nextId []) x := by
  rw [State.awaitAnswer, inject_inWith, modMe_inWith]
  exact finish_sent (s.inject body) i t s.nextId [] hp hf hb

section
variable {s : State} {i : Instr}

/-- What an out-of-range frame or entry leaves of its bundle: the address noted, the answer under way (R52). -/
theorem finish_noted_await (hu : usesBank i = false) (w : Word) (body : Body) :
    ∃ x, (((s.inWith i (s.meIn i) [] (s.me.pc + 8)).noteLocal w).awaitAnswer body).finish
      = (s.inject body).afterAlone i [] (s.sent (s.me.note w) i s.nextId []) x := by
  have hs : s.sent ((s.meIn i).note w) i s.nextId [] = s.sent (s.me.note w) i s.nextId [] := by
    simp only [State.sent, State.unfinished, Thread.stepped, Thread.note_eq, State.meIn, bankSought_of_unused hu]
  rw [noteLocal_inWith, ← hs]
  refine finish_await s i _ body ?_ ?_ ?_ <;> rw [Thread.note_eq] <;> rfl

theorem finish_note (h : s.issues .lone i) (hu : usesBank i = false) (w : Word) :
    ((s.inWith i (s.meIn i) [] (s.me.pc + 8)).noteLocal w).finish
      = s.afterAlone i [] ((s.me.note w).stepped i (s.me.pc + 8)) (s.ctxOut i) := by
  have hn := finish_noted h hu w s.me.regs
  rw [noteLocal_inWith]
  simp only [Thread.note_eq] at hn ⊢
  exact hn

theorem frameReq_open (ending : Bool) (b w : Word) : (s.inWith i (s.meIn i) [] b).frameReq ending w
    = { ending := ending, tid := s.ctx.tid, core := s.ctx.core, slot := s.ctx.slot, key := s.keyOf w .rw, addr := w,
        next := s.me.pc + 8, fmtp := s.me.fmtp, sclp := s.me.sclp, task := s.me.task, launch := s.me.launch } := by
  rw [State.frameReq, keyOf_open, State.me_inWith]
  rfl

theorem frame_keyed {a : Reg} (h : s.issues .lone i) (hi : i = .sync a ∨ i = .syncEnd a) (ho : s.oor (s.value a) 32 = false) :
    s.keyed (s.value a) .rw (s.keyOf (s.value a) .rw) := by
  have hl := issues_late h
  have hk : (s.posed i).checkAddr (s.value a) 32 .rw = none := by
    rcases hi with rfl | rfl <;>
    · simp only [State.late, src_posed, firstStop_eq_none, List.mem_cons, forall_eq_or_imp] at hl
      exact hl.2.1
  have hk' := keyed_keyOf hk (by rw [oor_posed]; exact ho)
  rw [keyOf_posed] at hk'
  exact keyed_posed hk'

theorem entry_keyed {p : BitVec 3} {a : Reg} {k : BitVec 2} (h : s.issues .lone (.post p a k))
    (ho : s.oor (s.value a) 32 = false) : s.keyed (s.value a) .rd (s.keyOf (s.value a) .rd) := by
  have hl := issues_late h
  simp only [State.late, src_posed] at hl
  have hk' := keyed_keyOf (loadStop_parts hl (by rw [oor_posed]; exact ho)).1 (by rw [oor_posed]; exact ho)
  rw [keyOf_posed] at hk'
  exact keyed_posed hk'

end

/-- Settles O33: each of the three either asks the home of its address, or notes an out-of-range one. -/
theorem taskInstructionsAskTheFramesHome : Obligations.TaskInstructionsAskTheFramesHome := by
  unfold Obligations.TaskInstructionsAskTheFramesHome
  intro s p a k w asks req
  refine ⟨fun hi => ⟨fun ho => ?_, fun ho => ?_⟩, fun hi => ⟨fun ho => ?_, fun ho => ?_⟩, fun hi => ⟨fun ho => ?_, fun ho => ?_⟩⟩
  · refine ⟨_, frame_keyed hi (.inl rfl) ho, ?_⟩
    have he : exec (.sync a) s = issue .lone (.sync a) (syncEffect a) s := rfl
    obtain ⟨x, hx⟩ := finish_ask (s := s) (i := .sync a) rfl (.frame (req false (s.keyOf w .rw))) (homeOf (s.keyOf w .rw))
    refine ⟨x, ?_⟩
    rw [he, issue_alone hi, syncEffect, src_open, oor_open, ho, if_neg Bool.false_ne_true, frameReq_open, keyOf_open]
    exact congrArg _ hx
  · refine ⟨s.ctxOut (.sync a), ?_⟩
    have he : exec (.sync a) s = issue .lone (.sync a) (syncEffect a) s := rfl
    rw [he, issue_alone hi, syncEffect, src_open, oor_open, ho, if_pos rfl, finish_note hi rfl]
  · refine ⟨_, frame_keyed hi (.inr rfl) ho, ?_⟩
    have he : exec (.syncEnd a) s = issue .lone (.syncEnd a) (syncEndEffect a) s := rfl
    obtain ⟨x, hx⟩ := finish_ask (s := s) (i := .syncEnd a) rfl (.frame (req true (s.keyOf w .rw))) (homeOf (s.keyOf w .rw))
    refine ⟨x, ?_⟩
    rw [he, issue_alone hi, syncEndEffect, src_open, oor_open, ho, if_neg Bool.false_ne_true, frameReq_open]
    exact congrArg _ hx
  · have he : exec (.syncEnd a) s = issue .lone (.syncEnd a) (syncEndEffect a) s := rfl
    obtain ⟨x, hx⟩ := finish_noted_await (s := s) (i := .syncEnd a) rfl w (.frameAns (req true (s.keyOf w .rw)) .underflow)
    refine ⟨s.keyOf w .rw, x, ?_⟩
    rw [he, issue_alone hi, syncEndEffect, src_open, oor_open, ho, if_pos rfl, frameReq_open]
    exact congrArg _ hx
  · refine ⟨_, entry_keyed hi ho, ?_⟩
    have he : exec (.post p a k) s = issue .lone (.post p a k) (postEffect a) s := rfl
    obtain ⟨x, hx⟩ := finish_ask (s := s) (i := .post p a k) rfl
      (.access (s.accessTo (.load .plain) w (s.keyOf w .rd) 32 0)) (homeOf (s.keyOf w .rd))
    refine ⟨x, ?_⟩
    rw [he, issue_alone hi, postEffect, src_open, oor_open, ho, if_neg Bool.false_ne_true, keyOf_open, access_open]
    exact congrArg _ hx
  · have he : exec (.post p a k) s = issue .lone (.post p a k) (postEffect a) s := rfl
    obtain ⟨x, hx⟩ := finish_noted_await (s := s) (i := .post p a k) rfl w (.reply s.ctx.tid none (.vals [0]))
    refine ⟨x, ?_⟩
    rw [he, issue_alone hi, postEffect, src_open, oor_open, ho, if_pos rfl]
    exact congrArg _ hx

/-! ### Steps on one thread or one launch -/

theorem State.me_congr {u s : State} (ht : u.threads = s.threads) (hc : u.ctx = s.ctx) : u.me = s.me := by
  simp only [State.me, State.me?, State.thread?, ht, hc]

theorem State.modThread_of (s : State) {tid : Nat} {t : Thread} (f : Thread → Thread) (h : tget s.threads tid = some t) :
    s.modThread tid f = { s with threads := tput s.threads tid (f t) } := by
  rw [State.modThread, tmod_some f h]

theorem State.modLaunch_of (s : State) {lid : Nat} {l : Launch} (f : Launch → Launch) (h : tget s.launches lid = some l) :
    s.modLaunch lid f = { s with launches := tput s.launches lid (f l) } := by
  rw [State.modLaunch, tmod_some f h]

theorem tget_tput_same {α : Type} {l : Tbl α} {k : Nat} {x : α} (h : tget l k = some x) (j : Nat) :
    tget (tput l k x) j = tget l j := by
  rcases eq_or_ne j k with rfl | hj
  · rw [tget_tput_self, h]
  · exact tget_tput_ne _ _ hj

/-- A bundle of i that goes on after an effect which leaves its thread alone. -/
theorem finish_other {u s : State} {i : Instr} (hm : u.me = s.me) (hp : s.me.pending = false) (hu : usesBank i = false) :
    ∃ x, (u.inWith i (s.meIn i) [] (s.me.pc + 8)).finish = u.afterAlone i [] (s.me.stepped i (s.me.pc + 8)) x := by
  have hmi : s.meIn i = u.meIn i := by simp only [State.meIn, bankSought_of_unused hu, hm]
  rw [hmi, ← hm] at *
  exact ⟨_, finish_open hp hu⟩

/-! ### idle (R223) -/

section
variable {s : State} {a : Reg}

theorem idleEffect_event (he : (s.slot s.ctx.core s.ctx.slot).event = true) :
    idleEffect a (s.inWith (.idle a) (s.meIn (.idle a)) [] (s.me.pc + 8))
      = (s.modSlot s.ctx.core s.ctx.slot fun y => { y with event := false }).inWith (.idle a) (s.meIn (.idle a)) [] (s.me.pc + 8) :=
  if_pos he

/-- How long an `idle` of operand a waits. -/
def State.idleUntil (s : State) (a : Reg) : Option Nat :=
  if s.value a = 0 then none else some (s.clock + (s.value a).toNat)

theorem idleEffect_parks (he : (s.slot s.ctx.core s.ctx.slot).event = false) :
    idleEffect a (s.inWith (.idle a) (s.meIn (.idle a)) [] (s.me.pc + 8))
      = s.inWith (.idle a) { s.meIn (.idle a) with wait := some (.idle (s.idleUntil a)) } [] (s.me.pc + 8) := by
  have hn : ¬ (s.slot s.ctx.core s.ctx.slot).event = true := by simp [he]
  have hv : (if (s.value a).toNat = 0 then none else some (s.clock + (s.value a).toNat)) = s.idleUntil a :=
    if_congr (by rw [← BitVec.toNat_inj]; rfl) rfl rfl
  refine (if_neg hn).trans ?_
  rw [modMe_inWith, src_open, ← hv]
  rfl

theorem idle_takes (hi : s.issues .lone (.idle a)) (he : (s.slot s.ctx.core s.ctx.slot).event = true) :
    ∃ x, exec (.idle a) s = .next ((s.modSlot s.ctx.core s.ctx.slot fun y => { y with event := false }).afterAlone (.idle a) []
      (s.me.stepped (.idle a) (s.me.pc + 8)) x) := by
  have hx : exec (.idle a) s = issue .lone (.idle a) (idleEffect a) s := rfl
  rw [hx, issue_alone hi, idleEffect_event he]
  obtain ⟨x, hf⟩ := finish_other (s := s) (u := s.modSlot s.ctx.core s.ctx.slot fun y => { y with event := false })
    (i := .idle a) (State.me_congr rfl rfl) (issues_pending hi) rfl
  exact ⟨x, by rw [hf]⟩

theorem idle_waits (hi : s.issues .lone (.idle a)) (he : (s.slot s.ctx.core s.ctx.slot).event = false) :
    ∃ x, exec (.idle a) s = .next (s.afterAlone (.idle a) []
      { s.unfinished s.me (.idle a) with wait := some (.idle (s.idleUntil a)) } x) := by
  have hx : exec (.idle a) s = issue .lone (.idle a) (idleEffect a) s := rfl
  obtain ⟨x, hf⟩ := finish_pending s (.idle a) { s.meIn (.idle a) with wait := some (.idle (s.idleUntil a)) }
    (by simp [Thread.pending]) rfl rfl rfl
  refine ⟨x, ?_⟩
  rw [hx, issue_alone hi, idleEffect_parks he, hf]
  simp only [State.unfinished, Thread.stepped, State.meIn, bankSought_of_unused (s := s) (i := .idle a) rfl]

end

theorem idleTimeout_exec {s : State} {c n tid u : Nat} {t : Thread} (hs : (s.slot c n).tid = some tid)
    (ht : tget s.threads tid = some t) (hw : t.wait = some (.idle (some u))) (hp : t.place = .slot c n) :
    exec (.idleTimeout c n) s = .next { s with threads := tput s.threads tid (if u ≤ s.clock then t.passed else t) } := by
  have hx : exec (.idleTimeout c n) s = .next (idleTimeoutStep c n s) := rfl
  rw [hx, idleTimeoutStep, hs]
  simp only [s.modThread_of _ ht, hw, hp, decide_true, Bool.true_and, decide_eq_true_eq]

/-! ### Timers (R152, R43, R47) -/

theorem quantumExpire_exec {s : State} {c n tid : Nat} {t : Thread}
    (hf : (s.threads.find? fun p => p.2.qhit && p.2.homeCore == c && p.2.homeSlot == n) = some (tid, t))
    (ht : tget s.threads tid = some t) (hd : ∀ pc o, Due.trap .quantum pc o ∉ t.due) :
    exec (.quantumExpire c n) s = .next { s with
      threads := tput s.threads tid { t with qhit := false, due := t.due ++ [.trap .quantum t.lastPc s.clock] } } := by
  have hx : exec (.quantumExpire c n) s = .next (quantumStep c n s) := rfl
  rw [hx, quantumStep, hf]
  simp only [s.modThread_of _ ht]
  rw [if_neg]
  intro h
  obtain ⟨d, hm, hd'⟩ := List.any_eq_true.1 h
  split at hd'
  · exact hd _ _ hm
  · exact Bool.false_ne_true hd'

/-- What the deadline timer of a unit does, by whether the deadline acts (R43, R47). -/
theorem deadlineExpire_exec {s : State} {lid level : Nat} (u : Nat) {l : Launch} {v : Level} (hl : tget s.launches lid = some l)
    (hv : l.levels[level]? = some v) :
    exec (.deadlineExpire lid level u) s = .next (
      if v.deadline = 0 ∨ s.clock < l.start + 1024 * v.deadline ∨ (level, u) ∈ l.fired ∨ l.suspended then s
      else { s with
        launches := tput s.launches lid { l with fired := (level, u) :: l.fired }
        threads := s.threads.map fun p => if p.2.launch = lid ∧ p.2.inUnit l v u then
          (p.1, { p.2 with due := p.2.due ++ [.fault { cause := 0x20, detail := BitVec.ofNat 64 level, level := some level }] })
          else p }) := by
  have hx : exec (.deadlineExpire lid level u) s = .next (deadlineStep lid level u s) := rfl
  have hl' : s.launch? lid = some l := hl
  rw [hx, deadlineStep, hl']
  simp only [hv, s.modLaunch_of _ hl, Bool.or_eq_true, decide_eq_true_eq, List.contains_iff_mem, or_assoc, Bool.and_eq_true]

/-- Settles O29. -/
theorem idleAndTimersMakeThreadsGoOn : Obligations.IdleAndTimersMakeThreadsGoOn := by
  unfold Obligations.IdleAndTimersMakeThreadsGoOn
  refine ⟨⟨fun s a => fun hi => ⟨idle_takes hi, idle_waits hi⟩, fun s c n tid u t hs ht hw hp => ?_⟩,
    fun s c n tid t => quantumExpire_exec, fun s lid level u l v hl hv => ?_⟩
  · rw [idleTimeout_exec hs ht hw hp]
    refine ⟨fun hu => ?_, fun hu => ⟨_, rfl, fun j => ?_⟩⟩
    · rw [if_pos hu]
      rfl
    · rw [if_neg (Nat.not_le.2 hu)]
      exact tget_tput_same ht j
  · rw [deadlineExpire_exec u hl hv]
    refine ⟨fun ⟨h1, h2, h3, h4⟩ => ?_, fun h => by rw [if_pos h]⟩
    rw [if_neg]
    rintro (h | h | h | h)
    · exact h1 h
    · exact absurd h2 (Nat.not_le.2 h)
    · exact h3 h
    · exact Bool.false_ne_true (h4.symm.trans h)

end Sys2Proof.Machine
end

section
/-!
PROOFS. What homes do (O19, O21): full/empty bits, waiting tables, accesses and amo performed as one step.
-/

namespace Sys2Proof.Machine

/-! ### Full/empty bits (R127, R228) -/

theorem mem_sadd {l : List Nat} {i j : Nat} : j ∈ sadd l i ↔ j = i ∨ j ∈ l := by
  induction l with
  | nil => simp [sadd]
  | cons k r ih =>
    simp only [sadd]
    split
    · simp
    · split
      · next h => simp [h]
      · simp only [List.mem_cons, ih]
        tauto

theorem mem_sdel {l : List Nat} {i j : Nat} : j ∈ sdel l i ↔ j ∈ l ∧ j ≠ i := by simp [sdel]

theorem State.isFull_iff {s : State} {k : Nat} : s.isFull k = true ↔ k / 8 ∉ s.empt := by simp [State.isFull]

theorem State.isFull_congr {u s : State} (h : u.empt = s.empt) (k : Nat) : u.isFull k = s.isFull k := by
  simp only [State.isFull, h]

theorem isFull_setFull {s : State} {w k : Nat} : (s.setFull w).isFull k = true ↔ w / 8 = k / 8 ∨ s.isFull k = true := by
  simp only [State.isFull_iff, State.empt_setFull, mem_sdel]
  tauto

theorem isFull_setEmpty {s : State} {w k : Nat} : (s.setEmpty w).isFull k = true ↔ w / 8 ≠ k / 8 ∧ s.isFull k = true := by
  simp only [State.isFull_iff, State.setEmpty, mem_sadd]
  tauto

theorem isFull_fillWords {s : State} {a n k : Nat} :
    (s.fillWords a n).isFull k = true ↔ (∃ w ∈ wordsOf a n, w / 8 = k / 8) ∨ s.isFull k = true := by
  unfold State.fillWords
  induction wordsOf a n generalizing s with
  | nil => simp
  | cons w ws ih =>
    rw [List.foldl_cons, ih, isFull_setFull]
    simp only [List.mem_cons, exists_eq_or_imp]
    rw [or_assoc, or_left_comm]

theorem isFull_emptyWords {s : State} {a n k : Nat} :
    (s.emptyWords a n).isFull k = true ↔ (∀ w ∈ wordsOf a n, w / 8 ≠ k / 8) ∧ s.isFull k = true := by
  unfold State.emptyWords
  induction wordsOf a n generalizing s with
  | nil => simp
  | cons w ws ih =>
    rw [List.foldl_cons, ih, isFull_setEmpty]
    simp only [List.mem_cons, forall_eq_or_imp]
    tauto

theorem fillWords_frame (s : State) (a n : Nat) : s.fillWords a n = { s with empt := (s.fillWords a n).empt } := by
  unfold State.fillWords
  induction wordsOf a n generalizing s with
  | nil => rfl
  | cons w ws ih => rw [List.foldl_cons, ih]; rfl

theorem emptyWords_frame (s : State) (a n : Nat) : s.emptyWords a n = { s with empt := (s.emptyWords a n).empt } := by
  unfold State.emptyWords
  induction wordsOf a n generalizing s with
  | nil => rfl
  | cons w ws ih => rw [List.foldl_cons, ih]; rfl

/-- Filling words depends on the full/empty bits alone. -/
theorem empt_fillWords_congr {u s : State} (h : u.empt = s.empt) (a n : Nat) : (u.fillWords a n).empt = (s.fillWords a n).empt := by
  unfold State.fillWords
  induction wordsOf a n generalizing u s with
  | nil => exact h
  | cons w ws ih => exact ih (congrArg (sdel · (w / 8)) h)

/-! ### Units without errors (R329) -/

section
variable {s : State} {k n : Nat}

theorem isBad_of_sound (h : s.sound k n = true) : s.isBad k n = false := by
  simp only [State.sound, List.all_eq_true, Bool.and_eq_true, Bool.not_eq_true'] at h
  simp only [State.isBad, List.any_eq_false, Bool.not_eq_true]
  exact fun u hu => (h u hu).1

theorem corrected_of_sound (h : s.sound k n = true) (asid : BitVec 12) : s.corrected k n asid = s := by
  simp only [State.sound, List.all_eq_true, Bool.and_eq_true, Bool.not_eq_true'] at h
  unfold State.corrected
  revert h
  induction errUnits k n with
  | nil => exact fun _ => rfl
  | cons u us ih =>
    intro h
    have hu : s.fixUnit u asid = s := by
      rw [State.fixUnit, (h u (List.mem_cons_self ..)).2]
      rfl
    rw [List.foldl_cons, hu]
    exact ih fun v hv => h v (List.mem_cons_of_mem _ hv)

theorem healed_of_sound (h : s.sound k n = true) : s.healed k n = s := by
  simp only [State.sound, List.all_eq_true, Bool.and_eq_true, Bool.not_eq_true', List.contains_eq_mem, decide_eq_false_iff_not] at h
  have hb : s.bad.filter (fun u => !(errUnits k n).contains u) = s.bad :=
    List.filter_eq_self.2 fun u hu => by simpa using fun hm => (h u hm).1 hu
  have hs : s.soft.filter (fun u => !(errUnits k n).contains u) = s.soft :=
    List.filter_eq_self.2 fun u hu => by simpa using fun hm => (h u hm).2 hu
  rw [State.healed, hb, hs]

end

/-! ### Waiting tables (R39) -/

/-- No access waits, and no core asks the home for room: serving the table changes nothing. -/
def State.calmAt (s : State) (home : Nat) : Prop := s.waits = [] ∧ ∀ p ∈ s.roomAsk, p.1 ≠ home

theorem tellRoom_unasked {s : State} {home : Nat} (h : ∀ p ∈ s.roomAsk, p.1 ≠ home) : s.tellRoom home = s := by
  unfold State.tellRoom
  split
  · rfl
  · have h1 : s.roomAsk.filter (fun p => p.1 == home) = [] := List.filter_eq_nil_iff.2 fun p hp => by simpa using h p hp
    have h2 : s.roomAsk.filter (fun p => p.1 != home) = s.roomAsk := List.filter_eq_self.2 fun p hp => by simpa using h p hp
    rw [h1, h2]
    rfl

theorem serveAll_calm {s : State} {home : Nat} (h : s.calmAt home) : s.serveAll home = s := by
  rw [State.serveAll, h.1, List.length_nil, State.serve, tellRoom_unasked h.2]

theorem sendBack_frame (s : State) (id home : Nat) : ∃ w n, s.sendBack id home = { s with ways := w, stamp := n } := by
  unfold State.sendBack
  split
  · exact ⟨_, _, rfl⟩
  · exact ⟨_, _, rfl⟩

theorem uncorrected_frame (s : State) (k : Nat) (asid : BitVec 12) :
    ∃ m l, s.uncorrected k asid = { s with mem := m, counters := l } := by
  unfold State.uncorrected
  split
  · exact count_frame ..
  · exact ⟨s.mem, s.counters, rfl⟩

theorem holdHost_frame (s : State) (id k : Nat) (c : Scope) : ∃ h, s.holdHost id k c = { s with hostHold := h } := by
  unfold State.holdHost
  split
  · exact ⟨_, rfl⟩
  · exact ⟨_, rfl⟩

theorem accessStep_frame (s : State) (a : Access) :
    (s.accessStep a).1 = { s with mem := (s.accessStep a).1.mem, empt := (s.accessStep a).1.empt } := by
  unfold State.accessStep
  split
  · dsimp only
    split
    · rw [emptyWords_frame]
    · rfl
  · dsimp only
    split
    · rfl
    · rw [fillWords_frame]
      rfl
  · rfl
  · rfl

section
variable (s : State) (id : Nat)

@[simp] theorem waits_sendBack (home : Nat) : (s.sendBack id home).waits = s.waits := by
  obtain ⟨w, n, h⟩ := sendBack_frame s id home
  rw [h]

@[simp] theorem waits_uncorrected (k : Nat) (asid : BitVec 12) : (s.uncorrected k asid).waits = s.waits := by
  obtain ⟨m, l, h⟩ := uncorrected_frame s k asid
  rw [h]

@[simp] theorem waits_corrected (k n : Nat) (asid : BitVec 12) : (s.corrected k n asid).waits = s.waits := by
  obtain ⟨m, f, l, r, h⟩ := corrected_frame s k n asid
  rw [h]

@[simp] theorem waits_holdHost (k : Nat) (c : Scope) : (s.holdHost id k c).waits = s.waits := by
  obtain ⟨w, h⟩ := holdHost_frame s id k c
  rw [h]

@[simp] theorem waits_accessStep (a : Access) : (s.accessStep a).1.waits = s.waits := by rw [accessStep_frame]

@[simp] theorem waits_healed (k n : Nat) : (s.healed k n).waits = s.waits := rfl
@[simp] theorem waits_storeWord (k : Nat) (v : Word) : (s.storeWord k v).waits = s.waits := rfl
@[simp] theorem waits_ack (e : Option (Nat × Nat)) : (s.ack id e).waits = s.waits := rfl
@[simp] theorem waits_answerFrom (tid k : Nat) (w : Word) (a : Answer) : (s.answerFrom id tid k w a).waits = s.waits := rfl

@[simp] theorem waits_freeSlot (c n : Nat) : (s.freeSlot c n).waits = s.waits := by
  rw [(SlotWork.refl.freeSlot c n).unchanged]

theorem waits_performAccess (a : Access) : (s.performAccess id a).waits = s.waits := by
  simp only [State.performAccess, waits_sendBack]
  split <;> split <;> simp [apply_ite]

theorem waits_performAmo (a : Amo) : (s.performAmo id a).waits = s.waits := by
  unfold State.performAmo
  extract_lets asid s0 old s1 s2
  have h2 : s2.waits = s.waits := by
    simp only [s2, s1, s0, waits_sendBack]
    split <;> simp
  split
  · rw [waits_freeSlot, h2]
  · exact h2

theorem waits_performFrame (r : FrameReq) : (s.performFrame id r).waits = s.waits := by
  have h : (s.frameStep r).1.waits = s.waits := by
    simp only [State.frameStep]
    split_ifs <;> simp
  simp only [State.performFrame, waits_sendBack, h]

/-- No performed access, trip or frame request makes another one wait. -/
theorem waits_perform (b : Body) : (s.perform id b).waits = s.waits := by
  cases b with
  | access a => exact waits_performAccess s id a
  | amo a => exact waits_performAmo s id a
  | frame r => exact waits_performFrame s id r
  | _ => rfl

end

/-- A step for each waiting access is enough: what is left cannot be performed. -/
theorem serve_leaves {n : Nat} {s : State} (h : s.waits.length ≤ n) :
    ∀ p ∈ (State.serve n s).waits, (State.serve n s).canPerform p.2 = false := by
  induction n generalizing s with
  | zero => simp [State.serve, List.length_eq_zero_iff.1 (Nat.le_zero.1 h)]
  | succ n ih =>
    unfold State.serve
    split
    · next hf => simpa using hf
    · next p hf =>
      refine ih ?_
      rw [waits_perform]
      have hlt : (s.waits.filter fun q => q.1 != p.1).length < s.waits.length :=
        List.length_filter_lt_length_iff_exists.2 ⟨p, List.mem_of_find?_eq_some hf, by simp⟩
      exact Nat.le_of_lt_succ (Nat.lt_of_lt_of_le hlt h)

/-- What may be performed depends on the full/empty bits and the errors alone. -/
theorem canPerform_congr {u s : State} (he : u.empt = s.empt) (hb : u.bad = s.bad) (b : Body) :
    u.canPerform b = s.canPerform b := by
  have hf : ∀ k, u.isFull k = s.isFull k := State.isFull_congr he
  have hf' : u.isFull = s.isFull := funext hf
  cases b with
  | access a =>
    simp only [State.canPerform, State.isBad, State.accessReady, State.allFull, State.allEmpty, hb, hf']
  | _ => simp only [State.canPerform, State.isBad, hb, hf']

theorem tellRoom_frame (s : State) (home : Nat) :
    ∃ r n w t i, s.tellRoom home = { s with roomAsk := r, net := n, ways := w, stamp := t, nextId := i } := by
  unfold State.tellRoom
  split
  · exact ⟨_, _, _, _, _, rfl⟩
  · extract_lets asked s1
    have h1 : ∃ r n w t i, s1 = { s with roomAsk := r, net := n, ways := w, stamp := t, nextId := i } := ⟨_, _, _, _, _, rfl⟩
    clear_value s1
    induction asked generalizing s1 with
    | nil => exact h1
    | cons p ps ih =>
      refine ih _ ?_
      obtain ⟨r, n, w, t, i, rfl⟩ := h1
      simp only [State.sendFrom]
      obtain ⟨w', t', h'⟩ := sendBack_frame (State.sendTo (State.inject
        { s with roomAsk := r, net := n, ways := w, stamp := t, nextId := i } (.room p.2 home)) i
        (State.routing { s with roomAsk := r, net := n, ways := w, stamp := t, nextId := i } 0 p.2) p.2 home 0) i home
      obtain ⟨w'', t'', h''⟩ := sendTo_frame (State.inject
        { s with roomAsk := r, net := n, ways := w, stamp := t, nextId := i } (.room p.2 home)) i
        (State.routing { s with roomAsk := r, net := n, ways := w, stamp := t, nextId := i } 0 p.2) p.2 home 0
      rw [h', h'']
      exact ⟨_, _, _, _, _, rfl⟩

theorem serveAll_leaves (s : State) (home : Nat) :
    ∀ p ∈ (s.serveAll home).waits, (s.serveAll home).canPerform p.2 = false := by
  obtain ⟨r, n, w, t, i, h⟩ := tellRoom_frame (State.serve s.waits.length s) home
  have hw : (s.serveAll home).waits = (State.serve s.waits.length s).waits := by rw [State.serveAll, h]
  have he : (s.serveAll home).empt = (State.serve s.waits.length s).empt := by rw [State.serveAll, h]
  have hb : (s.serveAll home).bad = (State.serve s.waits.length s).bad := by rw [State.serveAll, h]
  intro p hp
  rw [canPerform_congr he hb]
  exact serve_leaves (Nat.le_refl _) p (hw ▸ hp)

/-! ### A porter at rest (R57) -/

/-- The porter of core c is free, and nothing waits for it. -/
def State.porterRests (s : State) (c : Nat) : Prop :=
  (s.slot c 15).isFree ∧ (s.core c).ring = [] ∧ ∀ r ∈ (s.core c).runq, r.slot ≠ 15

theorem State.porterRests_congr {u s : State} (h : u.cores = s.cores) {c : Nat} (hp : s.porterRests c) : u.porterRests c := by
  simpa only [State.porterRests, State.slot, State.core, h] using hp

theorem takeWork_porterRests {s : State} {c : Nat} (h : s.porterRests c) : s.takeWork c 15 = s := by
  obtain ⟨-, hring, hrunq⟩ := h
  have hone : s.takeOne c 15 = s := by
    have hctx : ∀ g, (s.core c).nextContext 15 g = none := fun g =>
      List.find?_eq_none.2 fun r hr => by simp [hrunq r hr]
    unfold State.takeOne
    simp only [hring, hctx]
    split
    · rfl
    · split
      · rfl
      · simp
  rw [State.takeWork, hone, drainRing_empty hring]
  split <;> rfl

/-! ### An access performed (R127) -/

theorem holdHost_core (s : State) (id k : Nat) : s.holdHost id k .core = s := by simp [State.holdHost]

theorem answered_with (s : State) (m : List Host.Cell) (e : List Nat) (n : Tbl Body) (id k : Nat) (c : Scope) :
    ({ s with mem := m, empt := e, net := n } : State).answered id k c
      = { s.answered id k c with mem := m, empt := e, net := n } := by
  have hh : ({ s with mem := m, empt := e, net := n } : State).holdHost id k c
      = { s.holdHost id k c with mem := m, empt := e, net := n } := by
    unfold State.holdHost State.hostReading
    dsimp only
    split
    · rfl
    · rfl
  rw [State.answered, State.answered, hh]
  generalize s.holdHost id k c = u
  cases hw : tget u.ways id <;> simp only [State.sendBack, hw]

theorem answered_frame (s : State) (id k : Nat) (c : Scope) :
    ∃ h w n, s.answered id k c = { s with hostHold := h, ways := w, stamp := n } := by
  obtain ⟨h, hh⟩ := holdHost_frame s id k c
  obtain ⟨w, n, hw⟩ := sendBack_frame (s.holdHost id k c) id (homeOf k)
  exact ⟨h, w, n, by rw [State.answered, hw, hh]⟩

/-- What a performed access sends back. -/
def State.outcome (s : State) (id : Nat) (a : Access) : Body :=
  match a.kind with
  | .load _ => .reply a.tid (some (homeOf a.key, a.addr)) (.vals [BitVec.ofNat 256 (s.load a.key a.size)])
  | _ => .ack id none

/-- The machine after a home has performed an access whose words carry no error. -/
def State.performed (s : State) (id : Nat) (a : Access) : State :=
  { s.answered id a.key a.kind.scope with
    mem := (s.accessStep a).1.mem, empt := (s.accessStep a).1.empt, net := tput s.net id (s.outcome id a) }

theorem performAccess_sound {s : State} {a : Access} (id : Nat) (h : s.sound a.key a.size = true) :
    s.performAccess id a = s.performed id a := by
  have hs : (if a.whole = true then s.healed a.key a.size else s.corrected a.key a.size (s.asidOf a.tid)) = s := by
    rw [healed_of_sound h, corrected_of_sound h, ite_self]
  simp only [State.performAccess, isBad_of_sound h, Bool.false_and, Bool.false_eq_true, if_false, hs]
  rw [State.performed, ← answered_with, State.outcome]
  have hf := accessStep_frame s a
  generalize hx : (s.accessStep a).1 = x at hf ⊢
  cases hk : a.kind with
  | load f =>
    have hv : (s.accessStep a).2 = BitVec.ofNat 256 (s.load a.key a.size) := by simp only [State.accessStep, hk]
    simp only [if_true, hv, State.answered, AccKind.scope, holdHost_core]
    rw [State.answerFrom, hf]
  | _ =>
    simp only [Bool.false_eq_true, if_false, State.answered]
    rw [State.ack, hf]

theorem performed_frame (s : State) (id : Nat) (a : Access) :
    ∃ m e n h w t, s.performed id a = { s with mem := m, empt := e, net := n, hostHold := h, ways := w, stamp := t } := by
  obtain ⟨h, w, t, hf⟩ := answered_frame s id a.key a.kind.scope
  rw [State.performed, hf]
  exact ⟨_, _, _, _, _, _, rfl⟩

/-! ### What a performed access does to the bytes and bits (R127) -/

section
variable {s : State} {id : Nat} {a : Access}

/-- The bytes of a byte-wise store. -/
theorem byte_of_vec (v : Vec) (j : Nat) : BitVec.ofNat 8 (v.toNat / 256 ^ j) = v.extractLsb' (8 * j) 8 := by
  apply BitVec.eq_of_toNat_eq
  rw [BitVec.extractLsb'_toNat, BitVec.toNat_ofNat, Nat.shiftRight_eq_div_pow, Nat.pow_mul]

theorem performed_stays {k : Nat} (hr : (∃ op sc, a.kind = .red op sc) → a.size = 8) (h : k < a.key ∨ a.key + a.size ≤ k) :
    readByte (s.performed id a).mem k = readByte s.mem k := by
  show readByte (s.accessStep a).1.mem k = readByte s.mem k
  cases hk : a.kind with
  | load f =>
    simp only [State.accessStep, hk]
    split
    · rw [emptyWords_frame]
    · rfl
  | store f =>
    have hm : (s.accessStep a).1.mem = writeLE s.mem a.key a.size a.data.toNat := by
      simp only [State.accessStep, hk]
      split
      · rfl
      · rw [fillWords_frame]
        rfl
    rw [hm, readByte_writeLE_out _ _ _ _ _ h]
  | clear => simp only [State.accessStep, hk]; rfl
  | red op sc =>
    have hm : (s.accessStep a).1.mem = writeLE s.mem a.key 8 (amoNew op (s.loadWord a.key) (a.data.setWidth 64) 0).toNat := by
      simp only [State.accessStep, hk]
      rfl
    rw [hm, readByte_writeLE_out]
    rw [hr ⟨op, sc, hk⟩] at h
    exact h

theorem performed_load {f : LdForm} (hk : a.kind = .load f) : (s.performed id a).mem = s.mem
    ∧ (∀ w ∈ wordsOf a.key a.size, (s.performed id a).isFull w = (f != .takeEmpty && s.isFull w))
    ∧ (s.performed id a).net
      = tput s.net id (.reply a.tid (some (homeOf a.key, a.addr)) (.vals [BitVec.ofNat 256 (readLE s.mem a.key a.size)])) := by
  have hstep : (s.accessStep a).1 = if f = .takeEmpty then s.emptyWords a.key a.size else s := by simp only [State.accessStep, hk]
  refine ⟨?_, fun w hw => ?_, ?_⟩
  · show (s.accessStep a).1.mem = s.mem
    rw [hstep, emptyWords_frame]
    split <;> rfl
  · rw [State.isFull_congr (u := s.performed id a) (s := (s.accessStep a).1) rfl, hstep]
    by_cases hf : f = .takeEmpty
    · rw [if_pos hf, Bool.eq_iff_iff, isFull_emptyWords]
      simp only [hf, bne_self_eq_false, Bool.false_and, Bool.false_eq_true, iff_false, not_and]
      exact fun h => absurd rfl (h w hw)
    · rw [if_neg hf, bne_iff_ne.2 hf, Bool.true_and]
  · show tput s.net id (s.outcome id a) = _
    rw [State.outcome, hk]
    rfl

theorem performed_store {f : StForm} (hk : a.kind = .store f) :
    (∀ j < a.size, readByte (s.performed id a).mem (a.key + j) = a.data.extractLsb' (8 * j) 8)
    ∧ (∀ w ∈ wordsOf a.key a.size, (s.performed id a).isFull w = (f != .plain || s.isFull w))
    ∧ (s.performed id a).net = tput s.net id (.ack id none) := by
  have hstep : (s.accessStep a).1 = if f = .plain then s.store a.key a.size a.data.toNat
      else (s.store a.key a.size a.data.toNat).fillWords a.key a.size := by simp only [State.accessStep, hk]
  refine ⟨fun j hj => ?_, fun w hw => ?_, ?_⟩
  · show readByte (s.accessStep a).1.mem (a.key + j) = _
    have hm : (s.accessStep a).1.mem = writeLE s.mem a.key a.size a.data.toNat := by
      rw [hstep, fillWords_frame]
      split <;> rfl
    rw [hm, readByte_writeLE_in _ _ _ _ _ hj, byte_of_vec]
  · rw [State.isFull_congr (u := s.performed id a) (s := (s.accessStep a).1) rfl, hstep]
    by_cases hf : f = .plain
    · rw [if_pos hf, hf, bne_self_eq_false, Bool.false_or]
      rfl
    · rw [if_neg hf, bne_iff_ne.2 hf, Bool.true_or, isFull_fillWords]
      exact .inl ⟨w, hw, rfl⟩
  · show tput s.net id (s.outcome id a) = _
    rw [State.outcome, hk]

theorem performed_clear (hk : a.kind = .clear) : (s.performed id a).mem = s.mem ∧ (s.performed id a).isFull a.key = false
    ∧ (s.performed id a).net = tput s.net id (.ack id none) := by
  have hstep : (s.accessStep a).1 = s.setEmpty a.key := by simp only [State.accessStep, hk]
  refine ⟨?_, ?_, ?_⟩
  · show (s.accessStep a).1.mem = s.mem
    rw [hstep]
    rfl
  · rw [State.isFull_congr (u := s.performed id a) (s := (s.accessStep a).1) rfl, hstep, ← Bool.not_eq_true, isFull_setEmpty]
    exact fun h => h.1 rfl
  · show tput s.net id (s.outcome id a) = _
    rw [State.outcome, hk]

theorem performed_red {op : AmoOp} {sc : Scope} (hk : a.kind = .red op sc) : (s.performed id a).empt = s.empt
    ∧ (s.performed id a).net = tput s.net id (.ack id none)
    ∧ (s.performed id a).loadWord a.key = amoNew op (s.loadWord a.key) (a.data.setWidth 64) 0 := by
  have hstep : (s.accessStep a).1 = s.storeWord a.key (amoNew op (s.loadWord a.key) (a.data.setWidth 64) 0) := by
    simp only [State.accessStep, hk]
  refine ⟨?_, ?_, ?_⟩
  · show (s.accessStep a).1.empt = s.empt
    rw [hstep]
    rfl
  · show tput s.net id (s.outcome id a) = _
    rw [State.outcome, hk]
  · show BitVec.ofNat 64 (readLE (s.accessStep a).1.mem a.key 8) = _
    rw [hstep]
    show BitVec.ofNat 64 (readLE (writeLE s.mem a.key 8 _) a.key 8) = _
    rw [readLE_writeLE_self]
    apply BitVec.eq_of_toNat_eq
    rw [BitVec.toNat_ofNat]
    omega

theorem key_word (k n : Nat) : ∃ w ∈ wordsOf k n, w / 8 = k / 8 := by
  unfold wordsOf
  split
  · exact ⟨k, by simp, rfl⟩
  · exact ⟨k / 8 * 8, by simp, by omega⟩

/-- The bits of other words stay. -/
theorem performed_bits {k : Nat} (h : ∀ w ∈ wordsOf a.key a.size, w / 8 ≠ k / 8) :
    (s.performed id a).isFull k = s.isFull k := by
  rw [State.isFull_congr (u := s.performed id a) (s := (s.accessStep a).1) rfl]
  cases hk : a.kind with
  | load f =>
    simp only [State.accessStep, hk]
    split
    · rw [Bool.eq_iff_iff, isFull_emptyWords]
      exact and_iff_right h
    · rfl
  | store f =>
    simp only [State.accessStep, hk]
    split
    · rfl
    · rw [Bool.eq_iff_iff, isFull_fillWords]
      exact or_iff_right fun ⟨w, hw, he⟩ => h w hw he
  | clear =>
    simp only [State.accessStep, hk]
    obtain ⟨w, hw, he⟩ := key_word a.key a.size
    rw [Bool.eq_iff_iff, isFull_setEmpty]
    exact and_iff_right (he ▸ h w hw)
  | red op sc => simp only [State.accessStep, hk]; rfl

end

/-! ### An access at its home -/

/-- An access that has come to its home: performed, entered in the table, or refused (R230, R280). -/
def State.meets (s : State) (id : Nat) (a : Access) : State := s.reach id (.access a) (.refusedAccess a) (homeOf a.key)

section
variable {s : State} {id : Nat} {a : Access}

theorem canPerform_of_ready (h : s.accessReady a = true) : s.canPerform (.access a) = true := by
  simp [State.canPerform, h]

theorem canPerform_of_sound (hs : s.sound a.key a.size = true) : s.canPerform (.access a) = s.accessReady a := by
  simp [State.canPerform, isBad_of_sound hs]

theorem meets_ready (hs : s.sound a.key a.size = true) (h : s.accessReady a = true) :
    s.meets id a = (s.performed id a).serveAll (homeOf a.key) := by
  simp [State.meets, State.reach, canPerform_of_ready h, State.perform, performAccess_sound id hs]

theorem meets_waits (hs : s.sound a.key a.size = true) (h : s.accessReady a = false) (hr : s.roomAt (homeOf a.key) = true) :
    s.meets id a = { s with net := tdel s.net id, waits := s.waits ++ [(id, .access a)] } := by
  simp [State.meets, State.reach, canPerform_of_sound hs, h, hr, State.dropPacket]

theorem meets_refused (hs : s.sound a.key a.size = true) (h : s.accessReady a = false) (hr : s.roomAt (homeOf a.key) = false) :
    s.meets id a = { s with net := tput s.net id (.refusedAccess a) } := by
  simp [State.meets, State.reach, canPerform_of_sound hs, h, hr]

/-- The step that performs an access makes it meet its home; after a porter's, the porter takes what waits for it. -/
theorem exec_meets {i : Instr} (hn : tget s.net id = some (.access a)) (hm : s.mayArrive id a = true)
    (hi : let red := match a.kind with | .red _ _ => true | _ => false
      i = .homeAccess id ∧ a.porter = false ∧ red = false
        ∨ i = .porterAccess id ∧ a.porter = true ∧ red = false ∧ s.porterRests (homeOf a.key)
        ∨ i = .remoteUpdate id ∧ red = true ∧ (a.porter = true → s.porterRests (homeOf a.key))) :
    exec i s = .next (s.meets id a)
      ∨ s.porterRests (homeOf a.key) ∧ exec i s = .next ((s.meets id a).takeWork (homeOf a.key) 15) := by
  have hpk : s.packet? id = some (.access a) := hn
  have hhome : exec (.homeAccess id) s = .next (homeAccessStep id s) := by
    show Host.Outcome.next (homeStep id s) = _
    rw [homeStep, hpk]
  have hporter : exec (.porterAccess id) s = .next (porterStep id s) := rfl
  have hupdate : exec (.remoteUpdate id) s = .next (remoteUpdateStep id s) := rfl
  rcases hi with ⟨rfl, hp, hred⟩ | ⟨rfl, hp, hred, hrest⟩ | ⟨rfl, hred, hrest⟩
  · left
    rw [hhome, homeAccessStep, hpk]
    simp only [hp, hm, Bool.false_or, Bool.not_true, Bool.or_false]
    rw [if_neg]
    · rfl
    · revert hred
      cases a.kind <;> simp
  · right
    refine ⟨hrest, ?_⟩
    rw [hporter, porterStep, hpk]
    simp only [hp, hm, hrest.1, Bool.not_true, Bool.or_false, Bool.false_or]
    rw [if_neg]
    · rfl
    · revert hred
      cases a.kind <;> simp
  · rw [hupdate, remoteUpdateStep, hpk]
    cases hp : a.porter with
    | false =>
      left
      simp only [hp, hm, Bool.not_true, Bool.or_false, Bool.false_and, Bool.false_eq_true, if_false]
      rw [if_neg]
      · rfl
      · revert hred
        cases a.kind <;> simp
    | true =>
      right
      refine ⟨hrest hp, ?_⟩
      simp only [hp, hm, (hrest hp).1, Bool.not_true, Bool.or_false, Bool.and_false, if_true]
      rw [if_neg]
      · rfl
      · revert hred
        cases a.kind <;> simp

end

/-- A byte of a little-endian number. -/
theorem readLE_byte (m : List Host.Cell) {k n j : Nat} (hj : j < n) (hv : j < 32) :
    (BitVec.ofNat 256 (readLE m k n)).extractLsb' (8 * j) 8 = readByte m (k + j) := by
  have hb : readLE m k n / 256 ^ j % 256 = (readByte m (k + j)).toNat := by
    induction n generalizing k j with
    | zero => omega
    | succ n ih =>
      cases j with
      | zero =>
        simp only [readLE, pow_zero, Nat.div_one, Nat.add_zero]
        omega
      | succ j =>
        rw [readLE, pow_succ', ← Nat.div_div_eq_div_mul, show k + (j + 1) = k + 1 + j by omega]
        rw [show ((readByte m k).toNat + 256 * readLE m (k + 1) n) / 256 = readLE m (k + 1) n by omega]
        exact ih (by omega) (by omega)
  apply BitVec.eq_of_toNat_eq
  rw [BitVec.extractLsb'_toNat, BitVec.toNat_ofNat, Nat.shiftRight_eq_div_pow, ← hb, Nat.pow_mul]
  have h256 : (2 : Nat) ^ 256 = 256 ^ j * (256 * 256 ^ (31 - j)) := by
    rw [← pow_succ', ← pow_add, show (2 : Nat) ^ 256 = 256 ^ 32 by norm_num]
    congr 1
    omega
  rw [h256, Nat.mod_mul_right_div_self, Nat.mod_mul_right_mod]

/-- A load that waits for the words that a store fills is performed in the same step. -/
theorem meets_serves {s : State} {id w : Nat} {a b : Access} {f : StForm} {g : LdForm} (hs : s.sound a.key a.size = true)
    (hready : s.accessReady a = true) (hk : a.kind = .store f) (hf : f ≠ .plain) (hw : s.waits = [(w, .access b)])
    (hg : b.kind = .load g) (hkey : b.key = a.key) (hsize : b.size = a.size) (hroom : ∀ p ∈ s.roomAsk, p.1 ≠ homeOf a.key) :
    s.meets id a = State.performed { s.performed id a with waits := [] } w b := by
  obtain ⟨m, e, n, h, y, t, hp⟩ := performed_frame s id a
  have hfull : ∀ k ∈ wordsOf a.key a.size, (s.performed id a).isFull k = true := fun k hk' => by
    rw [(performed_store hk).2.1 k hk', bne_iff_ne.2 hf, Bool.true_or]
  have hcan : (s.performed id a).canPerform (.access b) = true := by
    refine canPerform_of_ready ?_
    have hall : (s.performed id a).allFull b.key b.size = true := by
      rw [hkey, hsize]
      exact List.all_eq_true.2 hfull
    simp only [State.accessReady, hg]
    cases g <;> simp only [hall]
  have hsound : State.sound { s.performed id a with waits := [] } b.key b.size = true := by
    rw [hkey, hsize, hp]
    exact hs
  have hwaits : (s.performed id a).waits = [(w, .access b)] := by rw [hp, ← hw]
  rw [meets_ready hs hready, State.serveAll, hwaits, List.length_singleton, State.serve, hwaits]
  simp only [List.find?_cons, hcan, List.filter_cons, bne_self_eq_false, Bool.false_eq_true, if_false, List.filter_nil,
    State.serve, State.perform, performAccess_sound w hsound]
  refine tellRoom_unasked ?_
  obtain ⟨m', e', n', h', y', t', hp'⟩ := performed_frame { s.performed id a with waits := [] } w b
  rw [hp', hp]
  exact hroom

/-- Settles O19: what the step does, where it waits, and what it leaves waiting. -/
theorem homesPerformAccessesInOneStep : Obligations.HomesPerformAccessesInOneStep := by
  unfold Obligations.HomesPerformAccessesInOneStep
  intro s id a i hn hm hi hs hr old stays
  have hx := exec_meets hn hm hi
  have hcalm : (s.meets id a).cores = s.cores → exec i s = .next (s.meets id a) := fun hc => by
    rcases hx with hx | ⟨hrest, hx⟩
    · exact hx
    · rw [hx, takeWork_porterRests (State.porterRests_congr hc hrest)]
  refine ⟨fun hready hw hroom => ?_, fun hready hroom => ?_, fun hready hroom => ?_, fun hready => ?_, ?_⟩
  · have hcm : (s.performed id a).calmAt (homeOf a.key) := by
      obtain ⟨m, e, n, h, w, t, hf⟩ := performed_frame s id a
      rw [hf]
      exact ⟨hw, hroom⟩
    have hmeet : s.meets id a = s.performed id a := by rw [meets_ready hs hready, serveAll_calm hcm]
    have hcores : (s.performed id a).cores = s.cores := by
      obtain ⟨m, e, n, h, w, t, hf⟩ := performed_frame s id a
      rw [hf]
    rw [hmeet] at hcalm
    refine ⟨s.performed id a, hcalm hcores, rfl, fun k hk => performed_stays hr hk, fun k hk => performed_bits hk, ?_⟩
    cases hk : a.kind with
    | load f => exact performed_load hk
    | store f => exact performed_store hk
    | clear => exact performed_clear hk
    | red op sc => exact performed_red hk
  · have hmeet := meets_waits (id := id) hs hready hroom
    rw [hcalm (by rw [hmeet]), hmeet]
  · have hmeet := meets_refused (id := id) hs hready hroom
    rw [hcalm (by rw [hmeet]), hmeet]
  · have hl : ∀ p ∈ (s.meets id a).waits, (s.meets id a).canPerform p.2 = false := by
      rw [meets_ready hs hready]
      exact serveAll_leaves _ _
    rcases hx with hx | ⟨-, hx⟩
    · exact ⟨_, hx, hl⟩
    · have hu := (SlotWork.refl (s := s.meets id a)).takeWork (homeOf a.key) 15 |>.unchanged
      refine ⟨_, hx, fun p hp => ?_⟩
      rw [hu] at hp
      rw [canPerform_congr (congrArg State.empt hu) (congrArg State.bad hu)]
      exact hl p hp
  · intro w b f hk hf hready hw hne hb hkey hsize hroom
    obtain ⟨g, hg, hg'⟩ : ∃ g, b.kind = .load g ∧ (b.kind != .load .takeEmpty) = (g != .takeEmpty) := by
      rcases hb with h | h <;> exact ⟨_, h, by rw [h]; decide⟩
    have hmeet := meets_serves (id := id) hs hready hk hf hw hg hkey hsize hroom
    obtain ⟨hbytes, hbits, -⟩ := performed_store (s := s) (id := id) hk
    obtain ⟨hmem, hfull, hnet⟩ := performed_load (s := { s.performed id a with waits := [] }) (id := w) hg
    have hcores : (State.performed { s.performed id a with waits := [] } w b).cores = s.cores
        ∧ (State.performed { s.performed id a with waits := [] } w b).waits = [] := by
      obtain ⟨m, e, n, h, y, t, hp⟩ := performed_frame s id a
      obtain ⟨m', e', n', h', y', t', hp'⟩ := performed_frame { s.performed id a with waits := [] } w b
      rw [hp', hp]
      exact ⟨rfl, rfl⟩
    rw [hmeet] at hcalm
    refine ⟨_, _, hcalm hcores.1, hcores.2, by rw [hnet, tget_tput_self], fun j hj hj' => ?_, fun k hk' => ?_⟩
    · rw [readLE_byte _ (hsize ▸ hj) hj', hkey]
      exact hbytes j hj
    · have hk2 : k ∈ wordsOf b.key b.size := by rw [hkey, hsize]; exact hk'
      have hfl : (s.performed id a).isFull k = true := by rw [hbits k hk', bne_iff_ne.2 hf, Bool.true_or]
      rw [hfull k hk2, hg']
      exact (congrArg (g != .takeEmpty && ·) hfl).trans (Bool.and_true _)

/-! ### amo at its word (R131) -/

/-- The machine after the step of an `amo` at a word without errors: the result is in, the old value under way. -/
def State.swapped (s : State) (id : Nat) (a : Amo) : State :=
  { s.answered id a.key a.scope with
    mem := writeLE s.mem a.key 8 (amoNew a.op (s.loadWord a.key) a.y0 a.y1).toNat
    net := tput s.net id (.reply a.tid (some (homeOf a.key, a.addr)) (.vals [(s.loadWord a.key).setWidth 256])) }

section
variable {s : State} {id : Nat} {a : Amo}

theorem swapped_frame (s : State) (id : Nat) (a : Amo) :
    ∃ m n h w t, s.swapped id a = { s with mem := m, net := n, hostHold := h, ways := w, stamp := t } := by
  obtain ⟨h, w, t, hf⟩ := answered_frame s id a.key a.scope
  rw [State.swapped, hf]
  exact ⟨_, _, _, _, _, rfl⟩

theorem cores_swapped (s : State) (id : Nat) (a : Amo) : (s.swapped id a).cores = s.cores := by
  obtain ⟨m, n, h, w, t, hf⟩ := swapped_frame s id a
  rw [hf]

theorem empt_answered (s : State) (id k : Nat) (c : Scope) : (s.answered id k c).empt = s.empt := by
  obtain ⟨h, w, t, hf⟩ := answered_frame s id k c
  rw [hf]

/-- A slot that the trip took becomes free. -/
def State.tripEnded (u : State) : AmoPath → State
  | .slot c n => u.freeSlot c n
  | _ => u

theorem performAmo_sound (h : s.sound a.key 8 = true) : s.performAmo id a = (s.swapped id a).tripEnded a.path := by
  have hsw : s.swapped id a = ((s.storeWord a.key (amoNew a.op (s.loadWord a.key) a.y0 a.y1)).answerFrom id a.tid a.key a.addr
      (.vals [(s.loadWord a.key).setWidth 256])).answered id a.key a.scope := by
    refine Eq.trans ?_ (answered_with s (writeLE s.mem a.key 8 (amoNew a.op (s.loadWord a.key) a.y0 a.y1).toNat) s.empt
      (tput s.net id (.reply a.tid (some (homeOf a.key, a.addr)) (.vals [(s.loadWord a.key).setWidth 256]))) id a.key
      a.scope).symm
    rw [State.swapped, ← empt_answered s id a.key a.scope]
  simp only [State.performAmo, isBad_of_sound h, Bool.false_eq_true, if_false, corrected_of_sound h]
  rw [hsw, State.answered]
  cases a.path <;> rfl

theorem amo_reach {r : Body} {home : Nat} (h : s.canPerform (.amo a) = true) :
    s.reach id (.amo a) r home = (s.performAmo id a).serveAll home := by
  simp [State.reach, h, State.perform]

/-- An `amo` that has come to its word. -/
theorem amo_reach_full {r : Body} (hs : s.sound a.key 8 = true) (hf : s.isFull a.key = true) (hc : s.calmAt (homeOf a.key))
    (hp : ∀ c n, a.path ≠ .slot c n) : s.reach id (.amo a) r (homeOf a.key) = s.swapped id a := by
  have hcan : s.canPerform (.amo a) = true := by simp [State.canPerform, hf]
  have hperf : s.performAmo id a = s.swapped id a := by
    rw [performAmo_sound hs]
    cases hpath : a.path with
    | slot c n => exact absurd hpath (hp c n)
    | _ => rfl
  have hcalm : (s.swapped id a).calmAt (homeOf a.key) := by
    obtain ⟨m, n, h, w, t, hw⟩ := swapped_frame s id a
    rw [hw]
    exact hc
  rw [amo_reach hcan, hperf, serveAll_calm hcalm]

theorem amo_reach_empty {r : Body} (hs : s.sound a.key 8 = true) (hf : s.isFull a.key = false)
    (hr : s.roomAt (homeOf a.key) = true) :
    s.reach id (.amo a) r (homeOf a.key) = { s with net := tdel s.net id, waits := s.waits ++ [(id, .amo a)] } := by
  simp [State.reach, State.canPerform, isBad_of_sound hs, hf, hr, State.dropPacket]

/-- The step of an `amo` on the core's own memory, or carried to its word by a porter that is at rest. -/
theorem exec_amo_meets {i : Instr} (hn : tget s.net id = some (.amo a)) (hb : s.bankOpen a.key = true)
    (hi : i = .amoAtHome id ∧ a.path = .own
      ∨ i = .porterAccess id ∧ a.path = .porter ∧ s.carried id ∧ s.porterRests (homeOf a.key)) {u : State}
    (hu : s.reach id (.amo a) (.refusedAmo a) (homeOf a.key) = u) (hcores : u.cores = s.cores) : exec i s = .next u := by
  have hpk : s.packet? id = some (.amo a) := hn
  have hown : exec (.amoAtHome id) s = .next (amoStep id s) := rfl
  have hporter : exec (.porterAccess id) s = .next (porterStep id s) := rfl
  rcases hi with ⟨rfl, hp⟩ | ⟨rfl, hp, hc, hrest⟩
  · rw [hown, amoStep, hpk]
    simp only [hp, hb, if_true, hu]
  · rw [hporter, porterStep, hpk]
    simp only [hp, hb, hc, hrest.1, bne_self_eq_false, Bool.not_true, Bool.or_self, Bool.false_eq_true, if_false, hu]
    rw [takeWork_porterRests (State.porterRests_congr hcores hrest)]

/-- The step of a trip in a slot that nothing waits for: the slot is free. -/
theorem exec_amo_slot {c n : Nat} (hn : tget s.net id = some (.amo a)) (hb : s.bankOpen a.key = true)
    (hs : s.sound a.key 8 = true) (hp : a.path = .slot c n) (hf : s.isFull a.key = true) (hc : s.calmAt (homeOf a.key))
    (hr : s.slotRests c n = true) : exec (.amoAtHome id) s = .next ((s.swapped id a).restSlot c n) := by
  have hpk : s.packet? id = some (.amo a) := hn
  have hown : exec (.amoAtHome id) s = .next (amoStep id s) := rfl
  have hcan : s.canPerform (.amo a) = true := by simp [State.canPerform, hf]
  obtain ⟨m, n', h, w, t, hw⟩ := swapped_frame s id a
  have hrest : (s.swapped id a).slotRests c n = true :=
    (slotRests_congr (by rw [hw]) (by rw [hw]) c n).trans hr
  have hperf : s.performAmo id a = (s.swapped id a).restSlot c n := by
    rw [performAmo_sound hs, hp]
    exact freeSlot_of_rests hrest
  have hcalm : ((s.swapped id a).restSlot c n).calmAt (homeOf a.key) := by
    show (s.swapped id a).calmAt (homeOf a.key)
    rw [hw]
    exact hc
  have hpk' : ((s.swapped id a).restSlot c n).packet? id
      = some (.reply a.tid (some (homeOf a.key, a.addr)) (.vals [(s.loadWord a.key).setWidth 256])) := tget_tput_self ..
  rw [hown, amoStep, hpk]
  simp only [hp, hb, Bool.not_true, Bool.false_eq_true, if_false]
  rw [amo_reach hcan, hperf, serveAll_calm hcalm, hpk']

/-- An event changes event bits, and lets the threads go on that wait for one (R223). -/
theorem signal_frame (s : State) (c : Nat) : ∃ x t, s.signal c = { s with cores := x, threads := t } := by
  refine List.foldlRecOn _ _ (motive := fun u => ∃ x t, u = { s with cores := x, threads := t }) ?_ ?_
  · exact ⟨s.cores, s.threads, rfl⟩
  rintro u ⟨x, t, rfl⟩ n -
  split
  · exact ⟨_, _, rfl⟩
  · split
    · split <;> exact ⟨_, _, rfl⟩
    · exact ⟨_, _, rfl⟩

theorem net_signal (s : State) (c : Nat) : (s.signal c).net = s.net := by
  obtain ⟨x, t, h⟩ := signal_frame s c
  rw [h]

theorem freeSlot_eq_some {x : Core} {bound n : Nat} (hn : n < bound) (hf : (x.slot n).isFree = true)
    (hlow : ∀ k < n, (x.slot k).isFree = false) : x.freeSlot bound = some n := by
  rw [Core.freeSlot, List.find?_range_eq_some]
  exact ⟨hf, List.mem_range.2 hn, fun k hk => by simp [hlow k hk]⟩

/-- A trip that arrives at its core. -/
theorem exec_amo_arrives {n : Nat} (hn : tget s.net id = some (.amo a)) (hp : a.path = .flying) (hcar : s.carried id = true)
    (hheld : (s.core (homeOf a.key)).held = []) (hring : (s.core (homeOf a.key)).ringHas 2 = false)
    (hslot : (s.core (homeOf a.key)).freeSlot (if channelBase ≤ homeOf a.key then 12 else 15) = some n) :
    exec (.amoAtHome id) s = .next (({ s.signal (homeOf a.key) with
      net := tput s.net id (.amo { a with path := .slot (homeOf a.key) n }) } : State).modSlot (homeOf a.key) n fun y =>
        y.seat a.tid) := by
  have hpk : s.packet? id = some (.amo a) := hn
  have hown : exec (.amoAtHome id) s = .next (amoStep id s) := rfl
  rw [hown, amoStep, hpk]
  simp only [hp, hcar, if_true, State.amoArrive, hheld, List.isEmpty_nil, Bool.not_true, Bool.false_eq_true, if_false,
    State.amoEnter, hring, hslot]
  have hnet := net_signal s (homeOf a.key)
  generalize s.signal (homeOf a.key) = u at hnet ⊢
  rw [← hnet]
  rfl

end

/-- Settles O21, by the way the `amo` took to its word. -/
theorem amoReplacesTheWordAndReturnsTheOld : Obligations.AmoReplacesTheWordAndReturnsTheOld := by
  unfold Obligations.AmoReplacesTheWordAndReturnsTheOld
  intro s id a i hn hb hs
  refine ⟨fun hi => ⟨fun hf hw hroom => ?_, fun hf hroom => ?_⟩, fun c n hi hp hf hw hroom hlt hr => ?_,
    fun n hi hp hcar hheld hring hlt hfree hlow => ?_, fun k hk => readByte_writeLE_out _ _ _ _ _ hk⟩
  · have hp : ∀ c n, a.path ≠ .slot c n := by
      rcases hi with ⟨-, h⟩ | ⟨-, h, -⟩ <;> simp [h]
    exact exec_amo_meets hn hb hi (amo_reach_full hs hf ⟨hw, hroom⟩ hp) (cores_swapped s id a)
  · exact exec_amo_meets hn hb hi (amo_reach_empty hs hf hroom) rfl
  · rw [hi]
    exact exec_amo_slot hn hb hs hp hf ⟨hw, hroom⟩ hr
  · rw [hi]
    exact exec_amo_arrives hn hp hcar hheld hring (freeSlot_eq_some hlt hfree hlow)

end Sys2Proof.Machine
end

section
/-!
PROOFS. spawn and steal (O32): events while a bundle is under way, and an entry pushed on a lane.
-/

namespace Sys2Proof.Machine

/-! ### Two keys of a finite map -/

theorem tput_comm {α : Type} (l : Tbl α) {j k : Nat} (x y : α) (h : j ≠ k) :
    tput (tput l j x) k y = tput (tput l k y) j x := by
  induction l with
  | nil => grind [tput]
  | cons p r ih => grind [tput]

/-! ### The bundle's state while its thread has changed registers -/

section
variable {s : State} {i : Instr} {t : Thread}

theorem myLaunch_inWith_of (hl : t.launch = s.me.launch) (b : Word) : (s.inWith i t [] b).myLaunch = s.myLaunch := by
  rw [State.myLaunch, State.me_inWith, State.myLaunch, State.launchOf, State.launchOf, hl]
  rfl

theorem oor_inWith (hl : t.launch = s.me.launch) (b a : Word) (n : Nat) : (s.inWith i t [] b).oor a n = s.oor a n := by
  simp only [State.oor, myLaunch_inWith_of hl]

theorem keyOf_inWith (hl : t.launch = s.me.launch) (b a : Word) (p : Perm) : (s.inWith i t [] b).keyOf a p = s.keyOf a p := by
  have hk : (s.inWith i t [] b).lookup a p = s.lookup a p := by
    simp only [State.lookup, myLaunch_inWith_of hl]
    rfl
  simp only [State.keyOf, hk, myLaunch_inWith_of hl]
  rfl

theorem access_inWith (hl : t.launch = s.me.launch) (b : Word) (kind : AccKind) (a : Word) (n : Nat) (p : Perm) (data : Vec) :
    (s.inWith i t [] b).access kind a n p data = s.accessTo kind a (s.keyOf a p) n data := by
  simp only [State.access, keyOf_inWith hl]
  rfl

theorem postAccess_inWith (hl : t.launch = s.me.launch) (b : Word) (a : Access) (ht : a.tid = s.ctx.tid) (hc : a.core = s.ctx.core) :
    (s.inWith i t [] b).postAccess a = (s.posts a).inWith i t [] b := by
  rw [postAccess_eq, inject_inWith, sendTo_inWith, ht, hc, routing_inWith s i t [] b s.ctx.core hl]
  rfl

end

/-! ### Events while a bundle is under way -/

/-- What an event does to slot n of core c (R223). -/
def State.signalSlot (c : Nat) (s : State) (n : Nat) : State :=
  match (s.slot c n).tid with
  | none => s.modSlot c n fun x => { x with event := true }
  | some t =>
    match s.thread? t with
    | some th =>
      match th.wait with
      | some (.idle _) => (s.modThread t Thread.passed).modSlot c n fun x => { x with event := false }
      | _ => s.modSlot c n fun x => { x with event := true }
    | none => s

theorem signal_eq (s : State) (c : Nat) : s.signal c = (List.range 16).foldl (State.signalSlot c) s := rfl

/-- Slot n has its event bit set, or its thread goes on. -/
theorem signalSlot_cases (c : Nat) (s : State) (n : Nat) :
    (∃ f, State.signalSlot c s n = s.modSlot c n f) ∨ State.signalSlot c s n = s
      ∨ ∃ j th q f, s.thread? j = some th ∧ th.wait = some (.idle q)
        ∧ State.signalSlot c s n = (s.modThread j Thread.passed).modSlot c n f := by
  unfold State.signalSlot
  split
  · exact .inl ⟨_, rfl⟩
  · next j _ =>
    split
    · next th hth =>
      split
      · next q hw => exact .inr (.inr ⟨j, th, q, _, hth, hw, rfl⟩)
      · exact .inl ⟨_, rfl⟩
    · exact .inr (.inl rfl)

section
variable {s : State} {i : Instr} {t : Thread} {b : Word}

theorem modSlot_inWith (c n : Nat) (f : Slot → Slot) : (s.inWith i t [] b).modSlot c n f = (s.modSlot c n f).inWith i t [] b := rfl

/-- The step of an event at a slot concerns no thread that does not wait for one. -/
theorem signalSlot_inWith (hm : s.me? = some s.me) (hw : s.me.wait = none) (ht : t.wait = none) (c n : Nat) :
    State.signalSlot c (s.inWith i t [] b) n = (State.signalSlot c s n).inWith i t [] b
      ∧ (State.signalSlot c s n).me? = some s.me ∧ (State.signalSlot c s n).ctx = s.ctx := by
  have hslot : (s.inWith i t [] b).slot c n = s.slot c n := rfl
  have hme : tget s.threads s.ctx.tid = some s.me := hm
  unfold State.signalSlot
  rw [hslot]
  cases hs : (s.slot c n).tid with
  | none => exact ⟨rfl, hm, rfl⟩
  | some j =>
    by_cases hj : j = s.ctx.tid
    · subst hj
      have h1 : (s.inWith i t [] b).thread? s.ctx.tid = some t := tget_tput_self ..
      have h2 : s.thread? s.ctx.tid = some s.me := hm
      simp only [h1, h2, ht, hw]
      exact ⟨rfl, hm, rfl⟩
    · have h1 : (s.inWith i t [] b).thread? j = s.thread? j := tget_tput_ne _ _ hj
      dsimp only
      rw [h1]
      cases hth : s.thread? j with
      | none => exact ⟨rfl, hm, rfl⟩
      | some th =>
        have hpass : s.modThread j Thread.passed = { s with threads := tput s.threads j th.passed } := s.modThread_of _ hth
        have hpass' : (s.inWith i t [] b).modThread j Thread.passed
            = { s.inWith i t [] b with threads := tput (tput s.threads s.ctx.tid t) j th.passed } :=
          State.modThread_of _ _ (h1.trans hth)
        have hme' : tget (tput s.threads j th.passed) s.ctx.tid = some s.me := by
          rw [tget_tput_ne _ _ (Ne.symm hj), hme]
        dsimp only
        split
        · rw [hpass, hpass', tput_comm _ _ _ (Ne.symm hj)]
          refine ⟨?_, hme', rfl⟩
          have hm2 : ({ s with threads := tput s.threads j th.passed } : State).me = s.me := by
            rw [State.me, show ({ s with threads := tput s.threads j th.passed } : State).me? = some s.me from hme']
            rfl
          rw [← modSlot_inWith]
          unfold State.inWith State.ctxIn
          rw [hm2]
        · exact ⟨rfl, hm, rfl⟩

theorem State.me_of_some {u : State} {x : Thread} (h : u.me? = some x) : u.me = x := by rw [State.me, h, Option.getD_some]

/-- An event concerns no thread that does not wait for one. -/
theorem signal_inWith (hm : s.me? = some s.me) (hw : s.me.wait = none) (ht : t.wait = none) (c : Nat) :
    (s.inWith i t [] b).signal c = (s.signal c).inWith i t [] b ∧ (s.signal c).me? = some s.me ∧ (s.signal c).ctx = s.ctx := by
  rw [signal_eq, signal_eq]
  generalize List.range 16 = ns
  induction ns generalizing s with
  | nil => exact ⟨rfl, hm, rfl⟩
  | cons n ns ih =>
    obtain ⟨h1, h2, h3⟩ := signalSlot_inWith (b := b) (i := i) hm hw ht c n
    have hm' := State.me_of_some h2
    rw [List.foldl_cons, List.foldl_cons, h1]
    obtain ⟨h4, h5, h6⟩ := ih (s := State.signalSlot c s n) (by rw [hm', h2]) (by rw [hm', hw])
    exact ⟨h4, by rw [h5, hm'], by rw [h6, h3]⟩

end

/-- Threads that an event finds waiting for one go on; no other changes. -/
theorem threads_signal {s : State} (c : Nat) {j : Nat} {t : Thread} (h : tget s.threads j = some t) :
    ∃ v, tget (s.signal c).threads j = some v ∧ (v = t ∨ v = t.passed ∧ ∃ q, t.wait = some (.idle q)) := by
  rw [signal_eq]
  generalize List.range 16 = ns
  refine List.foldlRecOn ns (State.signalSlot c)
    (motive := fun u => ∃ v, tget u.threads j = some v ∧ (v = t ∨ v = t.passed ∧ ∃ q, t.wait = some (.idle q))) ?_ ?_
  · exact ⟨t, h, .inl rfl⟩
  rintro u ⟨v, hv, hvt⟩ n -
  rcases signalSlot_cases c u n with ⟨f, hf⟩ | hf | ⟨k, th, q, f, hth, hq, hf⟩
  · exact ⟨v, by rw [hf]; exact hv, hvt⟩
  · exact ⟨v, by rw [hf]; exact hv, hvt⟩
  · rw [hf, u.modThread_of _ hth]
    rcases eq_or_ne j k with rfl | hjk
    · obtain rfl : v = th := Option.some.inj (hv.symm.trans hth)
      refine ⟨v.passed, tget_tput_self .., ?_⟩
      rcases hvt with rfl | ⟨rfl, -⟩
      · exact .inr ⟨rfl, q, hq⟩
      · exact absurd hq (by simp [Thread.passed])
    · exact ⟨v, (tget_tput_ne _ _ hjk).trans hv, hvt⟩

/-- An event changes slots alone of its core, and nothing of another. -/
structure SlotsOf (c : Nat) (s u : State) : Prop where
  here : u.core c = { s.core c with slots := (u.core c).slots }
  elsewhere : ∀ d, d ≠ c → u.core d = s.core d

namespace SlotsOf
variable {c : Nat} {s u : State}

theorem refl (c : Nat) (s : State) : SlotsOf c s s := ⟨rfl, fun _ _ => rfl⟩

theorem trans {v : State} (h : SlotsOf c s u) (h' : SlotsOf c u v) : SlotsOf c s v :=
  ⟨by rw [h'.here, h.here], fun d hd => (h'.elsewhere d hd).trans (h.elsewhere d hd)⟩

theorem modSlot (s : State) (c n : Nat) (f : Slot → Slot) : SlotsOf c s (s.modSlot c n f) := by
  obtain ⟨v, hv⟩ := s.core_modSlot_frame c n f
  exact ⟨by rw [hv], fun d hd => State.core_modCore_ne s _ hd⟩

theorem congr (hu : u.cores = s.cores) : SlotsOf c s u := by
  have h : ∀ d, u.core d = s.core d := fun d => by simp only [State.core, hu]
  exact ⟨by rw [h], fun d _ => h d⟩

theorem signal (s : State) (c : Nat) : SlotsOf c s (s.signal c) := by
  rw [signal_eq]
  generalize List.range 16 = ns
  refine List.foldlRecOn ns (State.signalSlot c) (motive := SlotsOf c s) (refl c s) ?_
  rintro u hu n -
  rcases signalSlot_cases c u n with ⟨f, hf⟩ | hf | ⟨k, th, q, f, -, -, hf⟩
  · rw [hf]
    exact hu.trans (modSlot u c n f)
  · rw [hf]
    exact hu
  · rw [hf]
    have hp : SlotsOf c u (u.modThread k Thread.passed) := congr rfl
    exact (hu.trans hp).trans (modSlot _ c n f)

end SlotsOf

/-! ### A task entry is pushed on a lane (R142, R301) -/

/-- A lane with an entry more at its near end. -/
def Lane.push (y : Lane) (pend : List (Nat × Nat)) : Lane :=
  { y with near := (y.near + 1) % 32, count := y.count + 1, pend := y.pend ++ pend }

/-- The first byte of a lane's near-end entry. -/
def laneKey (c : Nat) (l : Launch) (k : Nat) (y : Lane) : Nat := localKey c (l.lanesOff + 1024 * k + 32 * y.near)

/-- The machine with an entry written at the near end of lane k. -/
def State.laneWritten (s : State) (c : Nat) (l : Launch) (k : BitVec 2) (ws : List Word) (pend : List (Nat × Nat)) : State :=
  ({ s with
    mem := writeWords s.mem (laneKey c l k.toNat ((s.core c).lane k.toNat)) ws
    empt := (s.fillWords (laneKey c l k.toNat ((s.core c).lane k.toNat)) 32).empt } : State).modCore c fun x =>
      { x with lanes := x.lanes.set k.toNat (((s.core c).lane k.toNat).push pend) k.isLt }

/-- The machine with the entry written, the parked slots looking again and the event signalled. -/
def State.lanePushed (s : State) (c : Nat) (l : Launch) (k : BitVec 2) (ws : List Word) (pend : List (Nat × Nat)) : State :=
  ((s.laneWritten c l k ws pend).wakeTasks c).signal c

/-- The store-queue entry that a lane's entry waits for. -/
def pendOf (y : Lane) (e : Option Nat) : List (Nat × Nat) := (e.map fun x => (y.near, x)).toList

theorem fillWords_written (s : State) (m : List Host.Cell) (a n : Nat) :
    ({ s with mem := m } : State).fillWords a n = { s with mem := m, empt := (s.fillWords a n).empt } := by
  rw [fillWords_frame, empt_fillWords_congr (u := { s with mem := m }) (s := s) rfl]

theorem pushLane_eq {s : State} {c lid : Nat} {l : Launch} (h : s.launchOn c = some (lid, l)) (k : BitVec 2) (ws : List Word)
    (e : Option Nat) : s.pushLane c k.toNat ws e
      = (s.lanePushed c l k ws (pendOf ((s.core c).lane k.toNat) e)).serveAll c := by
  have hk : k.toNat < 4 := k.isLt
  rw [State.pushLane, h]
  simp only [hk, dif_pos]
  rw [fillWords_written]
  cases e with
  | none =>
    simp only [State.lanePushed, State.laneWritten, pendOf, Lane.push, Option.map_none, Option.toList_none, List.append_nil]
    rfl
  | some x => rfl

theorem wakeTasks_frame (s : State) (c : Nat) : ∃ x, s.wakeTasks c = { s with cores := x } := by
  unfold State.wakeTasks
  generalize List.range 15 = ns
  refine List.foldlRecOn ns _ (motive := fun u => ∃ x, u = { s with cores := x }) ?_ ?_
  · exact ⟨s.cores, rfl⟩
  · rintro u ⟨x, rfl⟩ n -
    exact ⟨_, rfl⟩

theorem SlotsOf.wakeTasks (s : State) (c : Nat) : SlotsOf c s (s.wakeTasks c) := by
  unfold State.wakeTasks
  generalize List.range 15 = ns
  refine List.foldlRecOn ns _ (motive := SlotsOf c s) (SlotsOf.refl c s) ?_
  intro u hu n _
  exact hu.trans (SlotsOf.modSlot u c n _)

theorem lanePushed_frame (s : State) (c : Nat) (l : Launch) (k : BitVec 2) (ws : List Word) (pend : List (Nat × Nat)) :
    ∃ x t, s.lanePushed c l k ws pend = { s with
      mem := writeWords s.mem (laneKey c l k.toNat ((s.core c).lane k.toNat)) ws
      empt := (s.fillWords (laneKey c l k.toNat ((s.core c).lane k.toNat)) 32).empt, cores := x, threads := t } := by
  obtain ⟨x, hx⟩ := wakeTasks_frame (s.laneWritten c l k ws pend) c
  obtain ⟨y, t, hy⟩ := signal_frame ((s.laneWritten c l k ws pend).wakeTasks c) c
  exact ⟨y, t, by rw [State.lanePushed, hy, hx]; rfl⟩

/-- The cores of a machine that differ from another's in the slots and lanes of core c alone. -/
structure LanesOf (c : Nat) (y : Vector Lane 4) (s u : State) : Prop where
  here : u.core c = { s.core c with slots := (u.core c).slots, lanes := y }
  elsewhere : ∀ d, d ≠ c → u.core d = s.core d

theorem lanePushed_lanes (s : State) (c : Nat) (l : Launch) (k : BitVec 2) (ws : List Word) (pend : List (Nat × Nat)) :
    LanesOf c ((s.core c).lanes.set k.toNat (((s.core c).lane k.toNat).push pend) k.isLt) s (s.lanePushed c l k ws pend) := by
  have h := (SlotsOf.wakeTasks (s.laneWritten c l k ws pend) c).trans (SlotsOf.signal _ c)
  have hw : (s.laneWritten c l k ws pend).core c
      = { s.core c with lanes := (s.core c).lanes.set k.toNat (((s.core c).lane k.toNat).push pend) k.isLt } :=
    State.core_modCore_self ..
  exact ⟨by rw [State.lanePushed, h.here, hw], fun d hd => (h.elsewhere d hd).trans (State.core_modCore_ne _ _ hd)⟩

section
variable {s : State} {i : Instr} {t : Thread} {b : Word}

theorem wakeTasks_inWith (c : Nat) : (s.inWith i t [] b).wakeTasks c = (s.wakeTasks c).inWith i t [] b := by
  unfold State.wakeTasks
  generalize List.range 15 = ns
  induction ns generalizing s with
  | nil => rfl
  | cons n ns ih =>
    rw [List.foldl_cons, List.foldl_cons, modSlot_inWith]
    exact ih

/-- The entry is pushed beside the issuing thread's own state. -/
theorem lanePushed_inWith (hm : s.me? = some s.me) (hw : s.me.wait = none) (ht : t.wait = none) (c : Nat) (l : Launch)
    (k : BitVec 2) (ws : List Word) (pend : List (Nat × Nat)) :
    (s.inWith i t [] b).lanePushed c l k ws pend = (s.lanePushed c l k ws pend).inWith i t [] b
      ∧ (s.lanePushed c l k ws pend).me = s.me := by
  have h1 : (s.inWith i t [] b).laneWritten c l k ws pend = (s.laneWritten c l k ws pend).inWith i t [] b := by
    unfold State.laneWritten
    rw [empt_fillWords_congr (u := s.inWith i t [] b) (s := s) rfl]
    rfl
  obtain ⟨x, hx⟩ := wakeTasks_frame (s.laneWritten c l k ws pend) c
  have hm2 : ((s.laneWritten c l k ws pend).wakeTasks c).me? = some s.me := by
    rw [hx]
    exact hm
  have hm3 := State.me_of_some hm2
  obtain ⟨h4, h5, -⟩ := signal_inWith (s := (s.laneWritten c l k ws pend).wakeTasks c) (i := i) (b := b) (by rw [hm3, hm2])
    (by rw [hm3, hw]) ht c
  refine ⟨?_, ?_⟩
  · rw [State.lanePushed, h1, wakeTasks_inWith, h4]
    rfl
  · rw [State.lanePushed, State.me_of_some h5, hm3]

end

/-! ### Ports popped beside it -/

theorem Core.portWords_lanes (x : Core) (v : Vector Slot 16) (y : Vector Lane 4) (q : BitVec 3) :
    ({ x with slots := v, lanes := y } : Core).portWords q = x.portWords q := rfl

theorem Core.setPort_lanes (x : Core) (v : Vector Slot 16) (y : Vector Lane 4) (q : BitVec 3) (ws : List Word) :
    ({ x with slots := v, lanes := y } : Core).setPort q ws = { x.setPort q ws with slots := v, lanes := y } := by
  unfold Core.setPort
  split
  · rfl
  · split <;> rfl

namespace LanesOf
variable {c : Nat} {y : Vector Lane 4} {s u : State}

theorem popPort (h : LanesOf c y s u) (q : BitVec 3) : LanesOf c y (s.popPort c q) (u.popPort c q) := by
  have hu : (u.popPort c q).core c = (u.core c).setPort q ((u.core c).portWords q).tail := State.core_modCore_self ..
  have hs : (s.popPort c q).core c = (s.core c).setPort q ((s.core c).portWords q).tail := State.core_modCore_self ..
  refine ⟨?_, fun d hd => ?_⟩
  · rw [hu, hs, h.here, Core.portWords_lanes, Core.setPort_lanes]
  · exact (State.core_modCore_ne u _ hd).trans ((h.elsewhere d hd).trans (State.core_modCore_ne s _ hd).symm)

theorem pops (h : LanesOf c y s u) (hs : s.ctx.core = c) (hu : u.ctx.core = c) (i : Instr) : u.pops i = s.pops i := by
  have hm : ∀ q, u.myCore.portWords q = s.myCore.portWords q := fun q => by
    rw [State.myCore, State.myCore, hs, hu, h.here]
    rfl
  simp only [State.pops, hm]

end LanesOf

theorem popPort_frame (s : State) (c : Nat) (q : BitVec 3) : s.popPort c q = { s with cores := (s.popPort c q).cores } := rfl

theorem ported_lanes {c : Nat} {y : Vector Lane 4} {s u : State} (h : LanesOf c y s u) (hs : s.ctx.core = c) (hu : u.ctx.core = c)
    (i : Instr) : LanesOf c y (s.ported i []) (u.ported i []) := by
  rw [State.ported, State.ported, h.pops hs hu i, List.foldl_nil, List.foldl_nil]
  induction s.pops i generalizing s u with
  | nil => exact h
  | cons p ps ih =>
    rw [List.foldl_cons, List.foldl_cons, hs, hu]
    exact ih (h.popPort p.1) hs hu

theorem ported_elsewhere (s : State) (i : Instr) {d : Nat} (hd : d ≠ s.ctx.core) : (s.ported i []).core d = s.core d := by
  rw [State.ported, List.foldl_nil]
  induction s.pops i generalizing s with
  | nil => rfl
  | cons p ps ih =>
    rw [List.foldl_cons, ih (s.popPort s.ctx.core p.1) hd]
    exact State.core_modCore_ne s _ hd

theorem ported_frame (s : State) (i : Instr) : ∃ x, s.ported i [] = { s with cores := x } := by
  rw [State.ported, List.foldl_nil]
  refine List.foldlRecOn (s.pops i) _ (motive := fun u => ∃ x, u = { s with cores := x }) ?_ ?_
  · exact ⟨s.cores, rfl⟩
  · rintro u ⟨x, rfl⟩ p -
    exact ⟨_, rfl⟩

/-! ### spawn (R142) -/

/-- The machine `u` after a bundle has pushed an entry on lane k of its core: `sent` is the machine with what the bundle has sent,
`me` its thread. -/
structure Pushed (s sent u : State) (i : Instr) (l : Launch) (k : BitVec 2) (ws : List Word) (pend : List (Nat × Nat))
    (me : Thread) : Prop where
  frame : u = { sent with mem := u.mem, empt := u.empt, threads := u.threads, cores := u.cores, ctx := u.ctx }
  mem : u.mem = writeWords s.mem (laneKey s.ctx.core l k.toNat (s.myCore.lane k.toNat)) ws
  empt : u.empt = (s.fillWords (laneKey s.ctx.core l k.toNat (s.myCore.lane k.toNat)) 32).empt
  here : u.core s.ctx.core = { (s.ported i []).core s.ctx.core with
    slots := (u.core s.ctx.core).slots, lanes := s.myCore.lanes.set k.toNat ((s.myCore.lane k.toNat).push pend) k.isLt }
  elsewhere : ∀ c, c ≠ s.ctx.core → u.core c = s.core c
  thread : tget u.threads s.ctx.tid = some me
  others : ∀ j t, j ≠ s.ctx.tid → tget s.threads j = some t → ∃ v, tget u.threads j = some v
    ∧ (v = t ∨ v = t.passed ∧ ∃ q, t.wait = some (.idle q))

/-- A bundle that completes once it has pushed an entry. -/
theorem finish_pushed {s sent : State} {i : Instr} {l : Launch} {t : Thread} {q : Tbl SqEntry} {nt : Tbl Body} {w : Tbl Way}
    {n id : Nat} (hsent : sent = { s with sq := q, net := nt, ways := w, stamp := n, nextId := id }) (hm : s.me? = some s.me)
    (hw : s.me.wait = none) (ht : t.wait = none) (hp : t.pending = false) (hpc : t.pc = s.me.pc)
    (hb : t.bundle = some { pc := s.me.pc, instrs := [i], next := s.me.pc + 8 }) (k : BitVec 2) (ws : List Word)
    (pend : List (Nat × Nat)) :
    Pushed s sent ((sent.inWith i t [] (s.me.pc + 8)).lanePushed s.ctx.core l k ws pend).finish i l k ws pend
      (t.stepped i (s.me.pc + 8)) := by
  subst hsent
  generalize hsent : ({ s with sq := q, net := nt, ways := w, stamp := n, nextId := id } : State) = sent
  have hme : sent.me = s.me := by rw [← hsent]; exact State.me_congr rfl rfl
  obtain ⟨hin, hme'⟩ := lanePushed_inWith (s := sent) (i := i) (b := s.me.pc + 8) (by rw [hme, ← hm, ← hsent]; rfl)
    (by rw [hme, hw]) ht s.ctx.core l k ws pend
  have hlanes := lanePushed_lanes sent s.ctx.core l k ws pend
  obtain ⟨x, th, hframe⟩ := lanePushed_frame sent s.ctx.core l k ws pend
  have hsig : ∀ j v, tget s.threads j = some v → ∃ v', tget (sent.lanePushed s.ctx.core l k ws pend).threads j = some v'
      ∧ (v' = v ∨ v' = v.passed ∧ ∃ q, v.wait = some (.idle q)) := fun j v hj => by
    refine threads_signal s.ctx.core ?_
    obtain ⟨x, hx⟩ := wakeTasks_frame (sent.laneWritten s.ctx.core l k ws pend) s.ctx.core
    rw [hx, ← hsent]
    exact hj
  rw [hin]
  generalize hu : sent.lanePushed s.ctx.core l k ws pend = u at *
  have hctx : u.ctx = s.ctx := by rw [hframe, ← hsent]
  have hmu : u.me = s.me := hme'.trans hme
  rw [← hmu, finish_inWith u i t [] _ hp (hpc.trans (by rw [hmu])) (hb.trans (by rw [hmu])), hmu]
  obtain ⟨y, hy⟩ := ported_frame u i
  have hcore : ∀ d, sent.core d = s.core d := fun d => by rw [← hsent]; rfl
  have hlanes' : LanesOf s.ctx.core (s.myCore.lanes.set k.toNat ((s.myCore.lane k.toNat).push pend) k.isLt) s u := by
    refine ⟨?_, fun d hd => by rw [hlanes.elsewhere d hd, hcore]⟩
    have h := hlanes.here
    rw [hcore] at h
    exact h
  have hported := ported_lanes hlanes' rfl (by rw [hctx]) i
  have hmyc : (sent.core s.ctx.core).lane k.toNat = s.myCore.lane k.toNat := by rw [hcore]; rfl
  refine ⟨?_, ?_, ?_, ?_, fun c hc => ?_, ?_, fun j v hj hv => ?_⟩
  · rw [State.afterAlone, hy, hframe]
  · rw [State.afterAlone, hy, hframe, hmyc, ← hsent]
  · rw [State.afterAlone, hy, hframe, hmyc, ← hsent]
    exact empt_fillWords_congr rfl _ _
  · exact hported.here
  · exact (hported.elsewhere c hc).trans (ported_elsewhere s i hc)
  · rw [State.afterAlone, hctx]
    exact tget_tput_self ..
  · rw [State.afterAlone, hctx]
    obtain ⟨v', h1, h2⟩ := hsig j v hv
    exact ⟨v', (tget_tput_ne _ _ hj).trans h1, h2⟩

section
variable {s : State} {p : BitVec 3} {a : Reg} {k : BitVec 2} {o : BitVec 30}

/-- The issuing thread of a `spawn`, its predicate set. -/
def State.spawning (s : State) (p : BitVec 3) (i : Instr) : Thread := { s.meIn i with regs := s.me.regs.setP p true }

/-- The four words of the entry that a `spawn` pushes. -/
def State.spawned (s : State) (a : Reg) (o : BitVec 30) : List Word :=
  [s.me.pc + 8 * o.signExtend 64, s.value a, s.me.fmtp, s.me.sclp]

/-- The increment of the frame's `kids`. -/
def State.kidsUp (s : State) (a : Reg) : Access :=
  s.accessTo (.red .add .core) (s.value a) (s.keyOf (s.value a) .rw) 8 1

theorem spawnEffect_open (hc : (s.myCore.lane k.toNat).count ≠ 32) (i : Instr) :
    spawnEffect p a k o (s.inWith i (s.meIn i) [] (s.me.pc + 8))
      = if s.oor (s.value a) 32 then
          (s.inWith i ((s.spawning p i).note (s.value a)) [] (s.me.pc + 8)).pushLane s.ctx.core k.toNat (s.spawned a o) none
        else ((s.posts (s.kidsUp a)).inWith i (s.spawning p i) [] (s.me.pc + 8)).pushLane s.ctx.core k.toNat (s.spawned a o)
          (some s.nextId) := by
  have hset : (s.inWith i (s.meIn i) [] (s.me.pc + 8)).setPred p true = s.inWith i (s.spawning p i) [] (s.me.pc + 8) :=
    modMe_inWith ..
  have hc' : ((s.inWith i (s.meIn i) [] (s.me.pc + 8)).myCore.lane k.toNat).count ≠ 32 := hc
  have hme : (s.inWith i (s.meIn i) [] (s.me.pc + 8)).me = s.meIn i := State.me_inWith ..
  have hws : [(s.inWith i (s.meIn i) [] (s.me.pc + 8)).branchTarget 30 o, s.value a, (s.meIn i).fmtp, (s.meIn i).sclp]
      = s.spawned a o := by
    rw [State.branchTarget, BitVec.mul_comm]
    rfl
  simp only [spawnEffect, if_neg hc', hset, src_open, hme, hws]
  have hl : (s.spawning p i).launch = s.me.launch := rfl
  rw [oor_inWith hl, noteLocal_inWith, access_inWith hl, postAccess_inWith hl _ _ rfl rfl]
  rfl

theorem spawning_note_stepped (i : Instr) (hu : usesBank i = false) (w : Word) (d : Word) :
    ((s.spawning p i).note w).stepped i d = ({ s.me.note w with regs := s.me.regs.setP p true } : Thread).stepped i d := by
  simp only [Thread.stepped, Thread.note_eq, State.spawning, State.meIn, bankSought_of_unused hu]

theorem spawning_stepped (i : Instr) (hu : usesBank i = false) (d : Word) :
    (s.spawning p i).stepped i d = ({ s.me with regs := s.me.regs.setP p true } : Thread).stepped i d := by
  simp only [Thread.stepped, State.spawning, State.meIn, bankSought_of_unused hu]

theorem spawn_issue (hi : s.issues .lone (.spawn p a k o) = true) : exec (.spawn p a k o) s
    = .next (spawnEffect p a k o (s.inWith (.spawn p a k o) (s.meIn (.spawn p a k o)) [] (s.me.pc + 8))).finish := by
  have he : exec (.spawn p a k o) s = issue .lone (.spawn p a k o) (spawnEffect p a k o) s := rfl
  rw [he, issue_alone hi]

theorem spawn_full (hi : s.issues .lone (.spawn p a k o) = true) (hc : (s.myCore.lane k.toNat).count = 32) :
    ∃ x, exec (.spawn p a k o) s = .next (s.judged (.spawn p a k o) p false x) := by
  have hc' : ((s.inWith (.spawn p a k o) (s.meIn (.spawn p a k o)) [] (s.me.pc + 8)).myCore.lane k.toNat).count = 32 := hc
  refine ⟨s.ctxOut (.spawn p a k o), ?_⟩
  have hf := finish_inWith s (.spawn p a k o) { s.meIn (.spawn p a k o) with regs := s.me.regs.setP p false } [] (s.me.pc + 8)
    (k := false) (issues_pending hi) rfl rfl
  rw [spawn_issue hi, spawnEffect, if_pos hc', State.setPred, modMe_inWith]
  exact congrArg _ hf

theorem finish_bits (s : State) : s.finish.waits = s.waits ∧ s.finish.empt = s.empt ∧ s.finish.bad = s.bad := by
  have h := (SlotWork.refl (s := s)).finish.unchanged
  exact ⟨by rw [h], by rw [h], by rw [h]⟩

/-- What waits for a word of the entry is performed (R39). -/
theorem pushLane_leaves {s : State} {c lid : Nat} {l : Launch} (h : s.launchOn c = some (lid, l)) (k : BitVec 2) (ws : List Word)
    (e : Option Nat) : ∀ q ∈ (s.pushLane c k.toNat ws e).finish.waits, (s.pushLane c k.toNat ws e).finish.canPerform q.2 = false := by
  obtain ⟨h1, h2, h3⟩ := finish_bits (s.pushLane c k.toNat ws e)
  intro q hq
  rw [canPerform_congr h2 h3]
  rw [h1] at hq
  rw [pushLane_eq h] at hq ⊢
  exact serveAll_leaves _ _ q hq

theorem launchOn_inWith (s : State) (i : Instr) (t : Thread) (ps : List (BitVec 3 × Word)) (b : Word) (c : Nat) :
    (s.inWith i t ps b).launchOn c = s.launchOn c := rfl

theorem calmAt_inWith {s : State} {c : Nat} (h : s.calmAt c) (i : Instr) (t : Thread) (ps : List (BitVec 3 × Word)) (b : Word) :
    (s.inWith i t ps b).calmAt c := h

theorem launchOn_posts (s : State) (x : Access) (c : Nat) : (s.posts x).launchOn c = s.launchOn c := by
  obtain ⟨q, w, n, hf⟩ := posts_frame s x
  rw [hf]
  rfl

theorem spawn_leaves (hi : s.issues .lone (.spawn p a k o) = true) {lid : Nat} {l : Launch}
    (hl : s.launchOn s.ctx.core = some (lid, l)) (hc : (s.myCore.lane k.toNat).count ≠ 32) :
    ∃ u, exec (.spawn p a k o) s = .next u ∧ ∀ q ∈ u.waits, u.canPerform q.2 = false := by
  rw [spawn_issue hi, spawnEffect_open hc]
  split
  · exact ⟨_, rfl, pushLane_leaves ((launchOn_inWith ..).trans hl) _ _ _⟩
  · exact ⟨_, rfl, pushLane_leaves ((launchOn_inWith ..).trans ((launchOn_posts ..).trans hl)) _ _ _⟩

/-- The entry is pushed at once where nothing waits. -/
theorem pushLane_calm {s : State} {c lid : Nat} {l : Launch} (h : s.launchOn c = some (lid, l)) (hc : s.calmAt c) (k : BitVec 2)
    (ws : List Word) (e : Option Nat) : s.pushLane c k.toNat ws e = s.lanePushed c l k ws (pendOf ((s.core c).lane k.toNat) e) := by
  rw [pushLane_eq h, serveAll_calm]
  obtain ⟨x, t, hf⟩ := lanePushed_frame s c l k ws (pendOf ((s.core c).lane k.toNat) e)
  rw [hf]
  exact hc

theorem spawn_notes (hi : s.issues .lone (.spawn p a k o) = true) {lid : Nat} {l : Launch}
    (hl : s.launchOn s.ctx.core = some (lid, l)) (hw : s.me.wait = none) (hcalm : s.calmAt s.ctx.core)
    (hc : (s.myCore.lane k.toNat).count ≠ 32) (ho : s.oor (s.value a) 32 = true) :
    ∃ u, exec (.spawn p a k o) s = .next u ∧ Pushed s s u (.spawn p a k o) l k (s.spawned a o) []
      (({ s.me.note (s.value a) with regs := s.me.regs.setP p true } : Thread).stepped (.spawn p a k o) (s.me.pc + 8)) := by
  have hme := State.me_of (atBundle_parts (issues_bundle hi)).1
  have hn : (s.spawning p (.spawn p a k o)).note (s.value a) = { s.spawning p (.spawn p a k o) with
    lmflt := true, lmaddr := if s.me.lmflt then s.me.lmaddr else s.value a } := Thread.note_eq ..
  refine ⟨_, spawn_issue hi, ?_⟩
  rw [spawnEffect_open hc, if_pos ho, pushLane_calm ((launchOn_inWith ..).trans hl) (calmAt_inWith hcalm ..), ← spawning_note_stepped _ rfl]
  refine finish_pushed (s := s) rfl hme hw ?_ ?_ ?_ ?_ k _ _ <;> rw [hn]
  · exact hw
  · exact issues_pending hi
  · rfl
  · rfl

theorem spawn_sends (hi : s.issues .lone (.spawn p a k o) = true) {lid : Nat} {l : Launch}
    (hl : s.launchOn s.ctx.core = some (lid, l)) (hw : s.me.wait = none) (hcalm : s.calmAt s.ctx.core)
    (hc : (s.myCore.lane k.toNat).count ≠ 32) (ho : s.oor (s.value a) 32 = false) :
    ∃ u, exec (.spawn p a k o) s = .next u ∧ Pushed s (s.posts (s.kidsUp a)) u (.spawn p a k o) l k (s.spawned a o)
      [((s.myCore.lane k.toNat).near, s.nextId)]
      (({ s.me with regs := s.me.regs.setP p true } : Thread).stepped (.spawn p a k o) (s.me.pc + 8)) := by
  have hme := State.me_of (atBundle_parts (issues_bundle hi)).1
  obtain ⟨q, w, n, hf⟩ := posts_frame s (s.kidsUp a)
  have hcalm' : (s.posts (s.kidsUp a)).calmAt s.ctx.core := by
    rw [hf]
    exact hcalm
  have hcore : (s.posts (s.kidsUp a)).core s.ctx.core = s.myCore := by
    rw [hf]
    rfl
  refine ⟨_, spawn_issue hi, ?_⟩
  rw [spawnEffect_open hc, ho, if_neg Bool.false_ne_true,
    pushLane_calm ((launchOn_inWith ..).trans ((launchOn_posts ..).trans hl)) (calmAt_inWith hcalm' ..), ← spawning_stepped _ rfl]
  have hp := finish_pushed (s := s) (l := l) (t := s.spawning p (.spawn p a k o)) hf hme hw hw (issues_pending hi) rfl rfl k (s.spawned a o)
    [((s.myCore.lane k.toNat).near, s.nextId)]
  rw [← hcore] at hp
  exact hcore ▸ hp

theorem spawn_keyed (hi : s.issues .lone (.spawn p a k o) = true) (hc : (s.myCore.lane k.toNat).count ≠ 32)
    (ho : s.oor (s.value a) 32 = false) : s.keyed (s.value a) .rw (s.keyOf (s.value a) .rw) := by
  have hl := issues_late hi
  have hc' : ((s.posed (.spawn p a k o)).myCore.lanes.toList.getD k.toNat Lane.empty).count ≠ 32 := hc
  simp only [State.late, if_neg hc', src_posed] at hl
  have hk := keyed_keyOf (postStop_parts hl (by rw [oor_posed]; exact ho)).1 (by rw [oor_posed]; exact ho)
  rw [keyOf_posed] at hk
  exact keyed_posed hk

end

/-- Settles O32. -/
theorem spawnPushesTheContinuation : Obligations.SpawnPushesTheContinuation := by
  unfold Obligations.SpawnPushesTheContinuation
  refine ⟨fun s p a k o lid l => ?_, fun s r hi => ?_⟩
  · intro i hi hl hw y w key pushes calm
    have hpush : ∀ sent u pend me, exec i s = .next u ∧ Pushed s sent u i l k (s.spawned a o) pend
        (({ me with regs := s.me.regs.setP p true } : Thread).stepped i (s.me.pc + 8)) → pushes sent u pend me :=
      fun sent u pend me ⟨hx, h⟩ => ⟨hx, h.frame, h.mem, h.empt, h.here, h.elsewhere, h.thread, h.others⟩
    refine ⟨fun hc => spawn_leaves hi hl hc, fun hc => spawn_full hi hc, fun hcalm hc ho => ?_, fun hcalm hc ho => ?_⟩
    · obtain ⟨u, hu⟩ := spawn_sends hi hl hw hcalm hc ho
      exact ⟨u, _, spawn_keyed hi hc ho, hpush _ u _ _ hu⟩
    · obtain ⟨u, hu⟩ := spawn_notes hi hl hw hcalm hc ho
      exact ⟨u, hpush _ u _ _ hu⟩
  · have he : exec (.steal r) s = issue .lone (.steal r) (stealEffect r) s := rfl
    obtain ⟨x, hx⟩ := finish_other (s := s) (u := s.modCore s.ctx.core fun c => { c with reach := r }) (i := .steal r)
      (State.me_congr rfl rfl) (issues_pending hi) rfl
    refine ⟨x, ?_⟩
    rw [he, issue_alone hi]
    exact congrArg _ hx

end Sys2Proof.Machine
end

section
/-!
PROOFS. Messages, migrants and lane words (O37, O38): threads that arrive and start, words that reach their port, ring records and held records.
-/

namespace Sys2Proof.Machine

/-! ### What an event does to slots (R223) -/

/-- The slots of every core are as they were but for their event bits. -/
def SameSlots (s u : State) : Prop := ∀ d n, ∃ e, u.slot d n = { s.slot d n with event := e }

theorem SameSlots.trans {s u v : State} (h : SameSlots s u) (h' : SameSlots u v) : SameSlots s v := fun d n => by
  obtain ⟨e, he⟩ := h d n
  obtain ⟨e', he'⟩ := h' d n
  exact ⟨e', by rw [he', he]⟩

theorem State.slot_congr {u s : State} (h : u.cores = s.cores) (d n : Nat) : u.slot d n = s.slot d n := by
  simp only [State.slot, State.core, h]

theorem sameSlots_congr {s u : State} (h : u.cores = s.cores) : SameSlots s u := fun d n =>
  ⟨(s.slot d n).event, State.slot_congr h d n⟩

theorem sameSlots_modSlot (s : State) (c n : Nat) (b : Bool) : SameSlots s (s.modSlot c n fun x => { x with event := b }) := by
  intro d m
  by_cases hd : d = c
  · subst hd
    by_cases hn : n < 16
    · rcases eq_or_ne m n with rfl | hm
      · exact ⟨b, s.slot_modSlot d _ hn⟩
      · refine ⟨(s.slot d m).event, ?_⟩
        show ((s.modCore d fun x => x.modSlot n _).core d).slot m = _
        rw [State.core_modCore_self, Core.slot_modSlot_ne _ _ hm]
        rfl
    · refine ⟨(s.slot d m).event, ?_⟩
      show ((s.modCore d fun x => x.modSlot n _).core d).slot m = _
      rw [State.core_modCore_self, Core.modSlot, dif_neg hn]
      rfl
  · refine ⟨(s.slot d m).event, ?_⟩
    show ((s.modCore c fun x => x.modSlot n _).core d).slot m = _
    rw [State.core_modCore_ne _ _ hd]
    rfl

/-- An event at slot n changes event bits, and of the threads at most the one in slot n. -/
theorem signalSlot_slots (c : Nat) (s : State) (n : Nat) : SameSlots s (State.signalSlot c s n)
    ∧ ∀ j, (s.slot c n).tid ≠ some j → tget (State.signalSlot c s n).threads j = tget s.threads j := by
  unfold State.signalSlot
  cases hs : (s.slot c n).tid with
  | none => exact ⟨sameSlots_modSlot s c n true, fun _ _ => rfl⟩
  | some t =>
    dsimp only
    cases hth : s.thread? t with
    | none => exact ⟨sameSlots_congr rfl, fun _ _ => rfl⟩
    | some th =>
      dsimp only
      split
      · refine ⟨(sameSlots_congr (u := s.modThread t Thread.passed) rfl).trans (sameSlots_modSlot _ c n false), fun j hj => ?_⟩
        rw [s.modThread_of _ hth]
        exact tget_tput_ne _ _ fun h => hj (h ▸ rfl)
      · exact ⟨sameSlots_modSlot s c n true, fun _ _ => rfl⟩

theorem signal_slots (s : State) (c : Nat) : SameSlots s (s.signal c)
    ∧ ∀ j, (∀ n, (s.slot c n).tid ≠ some j) → tget (s.signal c).threads j = tget s.threads j := by
  rw [signal_eq]
  generalize List.range 16 = ns
  refine List.foldlRecOn ns (State.signalSlot c) (motive := fun u => SameSlots s u
    ∧ ∀ j, (∀ n, (s.slot c n).tid ≠ some j) → tget u.threads j = tget s.threads j) ?_ ?_
  · exact ⟨sameSlots_congr rfl, fun _ _ => rfl⟩
  · rintro u ⟨h1, h2⟩ n -
    obtain ⟨h3, h4⟩ := signalSlot_slots c u n
    refine ⟨h1.trans h3, fun j hj => (h4 j ?_).trans (h2 j hj)⟩
    obtain ⟨e, he⟩ := h1 c n
    rw [he]
    exact hj n

/-! ### What a complete bundle still owes its ports (R88) -/

/-- The words a thread's bundle is still to push. -/
def Thread.owed (t : Thread) : List (BitVec 3 × Word) :=
  match t.undo with
  | some x => x.pushes
  | none => []

/-- The machine with words pushed to the ports of a core. -/
def State.pushAll (s : State) (c : Nat) (ps : List (BitVec 3 × Word)) : State := ps.foldl (fun s p => s.pushPort c p.1 p.2) s

theorem pushAll_frame (s : State) (c : Nat) (ps : List (BitVec 3 × Word)) : ∃ x, s.pushAll c ps = { s with cores := x } := by
  refine List.foldlRecOn ps _ (motive := fun u => ∃ x, u = { s with cores := x }) ?_ ?_
  · exact ⟨s.cores, rfl⟩
  · rintro u ⟨x, rfl⟩ p -
    unfold State.pushPort
    split
    · exact ⟨_, rfl⟩
    · exact ⟨_, rfl⟩

theorem Core.slots_setPort (x : Core) (q : BitVec 3) (ws : List Word) : (x.setPort q ws).slots = x.slots := by
  unfold Core.setPort
  split
  · rfl
  · split <;> rfl

theorem slot_modCore (s : State) (e : Nat) {f : Core → Core} (hf : ∀ x, (f x).slots = x.slots) (d n : Nat) :
    (s.modCore e f).slot d n = s.slot d n := by
  by_cases hd : d = e
  · subst hd
    show ((s.modCore d f).core d).slot n = (s.core d).slot n
    rw [State.core_modCore_self]
    simp only [Core.slot, hf]
  · show ((s.modCore e f).core d).slot n = (s.core d).slot n
    rw [State.core_modCore_ne _ _ hd]

theorem slot_pushPort (s : State) (c : Nat) (q : BitVec 3) (w : Word) (d n : Nat) : (s.pushPort c q w).slot d n = s.slot d n := by
  unfold State.pushPort
  split
  · exact slot_modCore s _ (fun x => Core.slots_setPort x q _) d n
  · refine slot_modCore s _ (fun x => ?_) d n
    split <;> rfl

theorem slot_pushAll (s : State) (c : Nat) (ps : List (BitVec 3 × Word)) (d n : Nat) : (s.pushAll c ps).slot d n = s.slot d n := by
  unfold State.pushAll
  refine List.foldlRecOn ps _ (motive := fun u => State.slot u d n = s.slot d n) rfl fun u hu p _ => ?_
  rw [slot_pushPort, hu]

theorem Core.portWords_setPort (x : Core) {q : BitVec 3} (hq : q.toNat < 4) (ws : List Word) : (x.setPort q ws).portWords q = ws := by
  simp [Core.portWords, Core.setPort, hq, List.getD]

/-- A word pushed to a queue of its core stands last there. -/
theorem portWords_pushPort (s : State) (c : Nat) {q : BitVec 3} (hq : q.toNat < 4) (w : Word) :
    ((s.pushPort c q w).core c).portWords q = (s.core c).portWords q ++ [w] := by
  rw [State.pushPort, if_pos hq, State.core_modCore_self, Core.portWords_setPort _ hq]

/-- A thread that has come to where its bundle completes: what the bundle owed is pushed. -/
theorem pay_landed {s : State} {tid : Nat} {t : Thread} (h : tget s.threads tid = some t) :
    (s.pay tid).modThread tid Thread.landed
      = { s.pushAll t.homeCore t.owed with threads := tput s.threads tid t.landed } := by
  have hth : s.thread? tid = some t := h
  unfold State.pay
  rw [hth]
  dsimp only
  cases hu : t.undo with
  | none => rw [s.modThread_of _ h, Thread.owed, hu]; rfl
  | some u =>
    obtain ⟨x, hx⟩ := pushAll_frame s t.homeCore u.pushes
    have hx' : u.pushes.foldl (fun (s : State) p => s.pushPort t.homeCore p.1 p.2) s = { s with cores := x } := hx
    have hl : ({ t with undo := t.undo.map fun u => { u with pushes := [] } } : Thread).landed = t.landed := by
      simp only [Thread.landed, hu, Option.map_some, Option.isSome_some, if_true]
      rfl
    rw [Thread.owed, hu]
    dsimp only
    rw [hx, hx', State.modThread_of { s with cores := x } _ h, State.modThread_of _ _ (tget_tput_self ..)]
    simp only [tput_tput, hl]

theorem pushAll_threads (s : State) (th : Tbl Thread) (c : Nat) (ps : List (BitVec 3 × Word)) :
    ({ s with threads := th } : State).pushAll c ps = { s.pushAll c ps with threads := th } := by
  induction ps generalizing s with
  | nil => rfl
  | cons p ps ih =>
    have hp : ({ s with threads := th } : State).pushPort c p.1 p.2 = { s.pushPort c p.1 p.2 with threads := th } := by
      simp only [State.pushPort]
      split <;> rfl
    simp only [State.pushAll, List.foldl_cons] at ih ⊢
    rw [hp, ih]

/-! ### A migrant takes a slot (R57, R88) -/

/-- The machine after thread tid has come to slot n of core dst, which becomes as f makes it. -/
def State.arrived (s : State) (id tid dst n : Nat) (f : Slot → Slot) : State :=
  (((((s.dropPacket id).signal dst).modSlot dst n f).modThread tid fun t => { t with place := .slot dst n }).pay tid).modThread
    tid Thread.landed

/-- A thread is placed, and its bundle completes. -/
theorem place_landed {v : State} {tid : Nat} {t : Thread} (p : Place) (h : tget v.threads tid = some t) :
    ((v.modThread tid fun t => { t with place := p }).pay tid).modThread tid Thread.landed
      = { v.pushAll t.homeCore t.owed with threads := tput v.threads tid ({ t with place := p } : Thread).landed } := by
  rw [v.modThread_of _ h, pay_landed (tget_tput_self ..), pushAll_threads, tput_tput]
  rfl

structure Arrived (s u : State) (id tid dst n : Nat) (t : Thread) (f : Slot → Slot) : Prop where
  frame : u = { s with net := tdel s.net id, threads := u.threads, cores := u.cores }
  thread : tget u.threads tid = some ({ t with place := .slot dst n } : Thread).landed
  slot : ∃ e, u.slot dst n = f { s.slot dst n with event := e }
  others : ∀ j x, j ≠ tid → tget s.threads j = some x → ∃ v, tget u.threads j = some v
    ∧ (v = x ∨ v = x.passed ∧ ∃ q, x.wait = some (.idle q))
  cores : t.owed = [] → ∀ c, c ≠ dst → u.core c = s.core c
  pushed : ∀ q w, t.owed = [(q, w)] → q.toNat < 4 →
    (u.core t.homeCore).portWords q = (s.core t.homeCore).portWords q ++ [w]

/-- The machine with a packet gone, the event signalled and a slot changed. -/
def State.slotTaken (s : State) (id dst n : Nat) (f : Slot → Slot) : State := ((s.dropPacket id).signal dst).modSlot dst n f

section
variable (s : State) (id dst n : Nat) (f : Slot → Slot)

theorem slotTaken_frame : s.slotTaken id dst n f = { s with
    net := tdel s.net id, threads := (s.slotTaken id dst n f).threads, cores := (s.slotTaken id dst n f).cores } := by
  obtain ⟨x, th, hsig⟩ := signal_frame (s.dropPacket id) dst
  rw [State.slotTaken, hsig]
  rfl

theorem slotTaken_slots : SlotsOf dst s (s.slotTaken id dst n f) :=
  ((SlotsOf.congr (s := s) (u := s.dropPacket id) rfl).trans (SlotsOf.signal _ dst)).trans (SlotsOf.modSlot _ dst n f)

theorem slotTaken_slot (hn : n < 16) : ∃ e, (s.slotTaken id dst n f).slot dst n = f { s.slot dst n with event := e } := by
  obtain ⟨e, he⟩ := (signal_slots (s.dropPacket id) dst).1 dst n
  exact ⟨e, by rw [State.slotTaken, State.slot_modSlot _ _ _ hn, he]; rfl⟩

variable {s}

theorem slotTaken_thread {tid : Nat} {t : Thread} (ht : tget s.threads tid = some t) (habs : ∀ m, (s.slot dst m).tid ≠ some tid) :
    tget (s.slotTaken id dst n f).threads tid = some t := by
  rw [State.slotTaken, State.threads_modSlot, (signal_slots (s.dropPacket id) dst).2 tid habs]
  exact ht

theorem slotTaken_others {j : Nat} {x : Thread} (hx : tget s.threads j = some x) :
    ∃ v, tget (s.slotTaken id dst n f).threads j = some v ∧ (v = x ∨ v = x.passed ∧ ∃ q, x.wait = some (.idle q)) := by
  rw [State.slotTaken, State.threads_modSlot]
  exact threads_signal (s := s.dropPacket id) dst hx

end

theorem arrived {s : State} {id tid dst n : Nat} {t : Thread} {f : Slot → Slot} (hn : n < 16) (ht : tget s.threads tid = some t)
    (habs : ∀ m, (s.slot dst m).tid ≠ some tid) : Arrived s (s.arrived id tid dst n f) id tid dst n t f := by
  have hslots := slotTaken_slots s id dst n f
  have hframe := slotTaken_frame s id dst n f
  have hslot := slotTaken_slot s id dst n f hn
  have hthread := slotTaken_thread id dst n f ht habs
  have hothers := fun j x => slotTaken_others (s := s) id dst n f (j := j) (x := x)
  have ha : s.arrived id tid dst n f = (((s.slotTaken id dst n f).modThread tid fun t => { t with place := .slot dst n }).pay
    tid).modThread tid Thread.landed := rfl
  rw [ha]
  generalize s.slotTaken id dst n f = v at *
  rw [place_landed _ hthread]
  obtain ⟨y, hy⟩ := pushAll_frame v t.homeCore t.owed
  refine ⟨?_, tget_tput_self .., ?_, fun j z hj hz => ?_, fun ho c hc => ?_, fun q w ho hq => ?_⟩
  · rw [hy, hframe]
  · obtain ⟨e, he⟩ := hslot
    refine ⟨e, ?_⟩
    rw [← he]
    exact slot_pushAll v t.homeCore t.owed dst n
  · obtain ⟨z', h1, h2⟩ := hothers j z hz
    exact ⟨z', (tget_tput_ne _ _ hj).trans h1, h2⟩
  · rw [ho]
    exact hslots.elsewhere c hc
  · rw [ho]
    have hcore : (v.core t.homeCore).portWords q = (s.core t.homeCore).portWords q := by
      by_cases hd : t.homeCore = dst
      · rw [hd, hslots.here]
        rfl
      · rw [hslots.elsewhere _ hd]
    rw [← hcore]
    exact portWords_pushPort v t.homeCore hq w

theorem arrived_home {s : State} (id : Nat) {tid : Nat} {t : Thread} (ht : tget s.threads tid = some t)
    (habs : ∀ m, (s.slot t.homeCore m).tid ≠ some tid) :
    (((s.dropPacket id).placeHome tid t).pay tid).modThread tid Thread.landed
      = s.arrived id tid t.homeCore t.homeSlot fun x => { x with
        tid := some tid, reserved := none, event := (s.slot t.homeCore t.homeSlot).event, buf := [] } := by
  have hb : (s.dropPacket id).slot t.homeCore t.homeSlot = s.slot t.homeCore t.homeSlot := State.slot_congr rfl ..
  have hv := slotTaken_thread id t.homeCore t.homeSlot (fun x => { x with
    tid := some tid, reserved := none, event := (s.slot t.homeCore t.homeSlot).event, buf := [] }) ht habs
  rw [State.slotTaken] at hv
  simp only [State.placeHome, State.arrived, hb]
  rw [State.modThread_of _ _ hv, State.modThread_of _ _ hv]

theorem exec_migrates {s : State} {id tid dst src sslot : Nat} {route : Word × Word} {t : Thread}
    (hn : tget s.net id = some (.migr tid dst src route sslot)) (ht : tget s.threads tid = some t) (hc : s.carried id = true)
    (hh : ∀ h ∈ (s.core dst).held, h.1 ≠ id) : exec (.migrationArrive id) s = .next (
      if t.homeCore ≠ dst ∧ (s.core dst).held ≠ [] then s.holdRecord dst id
      else (s.migrEnter id tid dst src sslot).getD (s.holdRecord dst id)) := by
  have hx : exec (.migrationArrive id) s = .next (migrationStep id s) := rfl
  have hpk : s.packet? id = some (.migr tid dst src route sslot) := hn
  have hth : s.thread? tid = some t := ht
  have hany : (s.core dst).held.any (fun q => q.1 == id) = false := by
    simpa only [List.any_eq_false, beq_iff_eq] using hh
  rw [hx, migrationStep, hpk]
  simp only [hc, hany, hth, Bool.not_true, Bool.or_false, Bool.false_eq_true, if_false, Bool.and_eq_true, Bool.not_eq_true',
    beq_eq_false_iff_ne, List.isEmpty_eq_false_iff]
  split
  · rfl
  · cases s.migrEnter id tid dst src sslot <;> rfl

/-- Settles O38: a migrant's home slot, a free slot, the link; and the word on a lane link. -/
theorem migrantsAndLaneWordsArrive : Obligations.MigrantsAndLaneWordsArrive := by
  unfold Obligations.MigrantsAndLaneWordsArrive
  refine ⟨fun s id tid dst src sslot route t hn ht hc hh habs => ?_, fun s c dir => ?_⟩
  · intro owed takes
    have hth : s.thread? tid = some t := ht
    have hx := exec_migrates hn ht hc hh
    have htakes : ∀ n e f, exec (.migrationArrive id) s = .next (s.arrived id tid dst n f) → n < 16 →
        (∀ e', (f { s.slot dst n with event := e' }).tid = some tid ∧ (f { s.slot dst n with event := e' }).event = e
          ∧ (f { s.slot dst n with event := e' }).reserved = none) → takes n e := by
      intro n e f hexec hn16 hf
      obtain ⟨h1, h2, ⟨e', h3⟩, h4, h5, h6⟩ := arrived (id := id) (f := f) hn16 ht habs
      obtain ⟨hf1, hf2, hf3⟩ := hf e'
      exact ⟨_, hexec, h1, h2, by rw [h3, hf1], by rw [h3, hf2], by rw [h3, hf3], h4, h5, h6⟩
    refine ⟨fun hhome hslot => ?_, fun n hhome hheld hring hn15 hfree hlow => ?_, fun hhome hheld => ?_⟩
    · refine htakes t.homeSlot (s.slot dst t.homeSlot).event (fun x => { x with
        tid := some tid, reserved := none, event := (s.slot dst t.homeSlot).event, buf := [] }) ?_ hslot fun _ => ⟨rfl, rfl, rfl⟩
      rw [hx, if_neg (fun h => h.1 hhome), State.migrEnter, hth]
      simp only [if_pos hhome, Option.getD_some]
      subst hhome
      rw [arrived_home id ht habs]
    · refine htakes n false (fun x => x.seat tid) ?_ (by omega) fun e' => ⟨rfl, rfl, ?_⟩
      · rw [hx, if_neg (fun h => h.2 hheld), State.migrEnter, hth]
        simp only [if_neg hhome, hring, Bool.false_eq_true, if_false, freeSlot_eq_some hn15 hfree hlow, Option.getD_some]
        rw [State.arrived, State.place]
      · have := hfree
        simp only [Slot.isFree, Bool.and_eq_true, Option.isNone_iff_eq_none] at this
        exact this.1.2
    · have hany : (s.core dst).held.any (fun q => q.1 == id) = false := by
        simpa only [List.any_eq_false, beq_iff_eq] using hh
      rw [hx, if_pos ⟨hhome, hheld⟩, State.holdRecord, hany]
      rfl
  · intro x
    have hx : exec (.laneWordArrive c dir) s = .next (laneWordStep c dir s) := rfl
    refine ⟨fun w rest h => ?_, fun h => ?_⟩
    · rw [hx, laneWordStep, h]
    · rw [hx, laneWordStep, h]

/-! ### send (R136) -/

section
variable {s : State} {d a b : Reg} {npay : BitVec 3} {tag : BitVec 4}

/-- The itinerary words of a `send`. -/
def State.sendRoute (s : State) (d : Reg) : Word × Word :=
  let ws := s.itinEntry (squareOf s.ctx.core) (bits (s.value d) 0 10)
  (ws.1, if contOf ws.1 then ws.2 else 0)

/-- Where the itinerary of a `send` leads. -/
def State.sendEnd (s : State) (d : Reg) : Except Nat Nat :=
  s.streets.route { cls := 2, inDistrict := s.myLaunch.hasSquare, amo := false, send := true } (s.sendRoute d).1 (s.sendRoute d).2
    (squareOf s.ctx.core)

/-- The message of a `send` to a core of square q. -/
def State.sendMsg (s : State) (d a b : Reg) (npay : BitVec 3) (tag : BitVec 4) (q : Nat) : Msg :=
  { src := s.ctx.core, dst := coreAt q (bits (s.value d) 10 4), route := s.sendRoute d,
    score := s.myLaunch.coreIdx s.ctx.core, sslot := s.ctx.slot, npay := npay.toNat, tag := tag,
    handler := s.value a, payload := (List.range npay.toNat).map fun k => s.me.regs.getG (gNum b + BitVec.ofNat 5 k),
    launch := s.me.launch, tid := some s.ctx.tid }

/-- The machine with the message on its way, and the store-queue entry it holds. -/
def State.sendsMsg (s : State) (d a b : Reg) (npay : BitVec 3) (tag : BitVec 4) (q : Nat) : State :=
  ({ s with
    nextId := s.nextId + 1
    sq := tput s.sq s.nextId { core := s.ctx.core, slot := s.ctx.slot, tid := s.ctx.tid,
                               home := coreAt q (bits (s.value d) 10 4), key := 0, size := 0, fills := false,
                               pc := s.me.pc, addr := s.value a, state := .inFlight }
    net := tput s.net s.nextId (.msg (s.sendMsg d a b npay tag q)) } : State).sendOn s.nextId s.ctx.core 2 (s.sendRoute d)

theorem send_routes (hi : s.issues .lone (.send d a b npay tag) = true) : ∃ q, s.sendEnd d = .ok q := by
  have hl := issues_late hi
  have hw : (s.posed (.send d a b npay tag)).sendWords (s.value d)
      = s.itinEntry (squareOf s.ctx.core) (bits (s.value d) 0 10) := rfl
  have hr : (s.posed (.send d a b npay tag)).streets.route { cls := 2, inDistrict := s.myLaunch.hasSquare, amo := false, send := true }
      (s.itinEntry (squareOf s.ctx.core) (bits (s.value d) 0 10)).1
      (if contOf (s.itinEntry (squareOf s.ctx.core) (bits (s.value d) 0 10)).1
        then (s.itinEntry (squareOf s.ctx.core) (bits (s.value d) 0 10)).2 else 0)
      (squareOf (s.posed (.send d a b npay tag)).ctx.core) = s.sendEnd d := rfl
  simp only [State.late, src_posed, State.sendStop, myLaunch_posed, hw, hr] at hl
  cases hend : s.sendEnd d with
  | ok q => exact ⟨q, rfl⟩
  | error e =>
    rw [hend] at hl
    generalize (if contOf (s.itinEntry (squareOf s.ctx.core) (bits (s.value d) 0 10)).1
        then (s.itinEntry (squareOf s.ctx.core) (bits (s.value d) 0 10)).2 else 0) = w1 at hl
    split at hl
    · simp [stopFault] at hl
    · split at hl
      · simp at hl
      · split_ifs at hl <;> simp [stopFault] at hl

theorem sendEffect_open {q : Nat} (hq : s.sendEnd d = .ok q) (i : Instr) :
    sendEffect d a b npay tag (s.inWith i (s.meIn i) [] (s.me.pc + 8))
      = (s.sendsMsg d a b npay tag q).inWith i (s.meIn i) [] (s.me.pc + 8) := by
  have hq' : (s.inWith i (s.meIn i) [] (s.me.pc + 8)).streets.route
      { cls := 2, inDistrict := s.myLaunch.hasSquare, amo := false, send := true } (s.sendRoute d).1 (s.sendRoute d).2
      (squareOf s.ctx.core) = .ok q := hq
  simp only [sendEffect, src_open, myLaunch_inWith, State.me_inWith]
  split
  · next e he => exact absurd (he.symm.trans hq') (by simp)
  · next q' hq2 =>
    obtain rfl : q = q' := Except.ok.inj (hq'.symm.trans hq2)
    rfl

theorem exec_sends (hi : s.issues .lone (.send d a b npay tag) = true) {q : Nat} (hq : s.sendEnd d = .ok q) :
    ∃ x, exec (.send d a b npay tag) s
      = .next ((s.sendsMsg d a b npay tag q).wentTo (.send d a b npay tag) (s.me.pc + 8) x) := by
  have he : exec (.send d a b npay tag) s = issue .lone (.send d a b npay tag) (sendEffect d a b npay tag) s := rfl
  obtain ⟨x, hx⟩ := finish_other (s := s) (u := s.sendsMsg d a b npay tag q) (i := .send d a b npay tag)
    (State.me_congr rfl rfl) (issues_pending hi) rfl
  refine ⟨x, ?_⟩
  rw [he, issue_alone hi, sendEffect_open hq]
  exact congrArg _ hx

end

/-! ### A message finds its handler (R53) -/

/-- The machine with a message out of its link, its store-queue entry free. -/
def State.msgTaken (s : State) (id : Nat) : State := { s.dropPacket id with sq := tdel s.sq id }

/-- A handler of message m runs in slot n of its core. -/
structure Started (s u : State) (id : Nat) (m : Msg) (l : Launch) (n : Nat) (t : Thread) : Prop where
  thread : tget u.threads s.nextTid = some t
  place : t.place = .slot m.dst n
  launch : t.launch = m.launch
  pc : t.pc = aligned m.handler
  hand : t.hand = true
  task : t.task = false
  gregs : t.gregs = 8
  vregs : t.vregs = 0
  fmtp : t.fmtp = l.fmtp
  sclp : t.sclp = l.sclp
  wait : t.wait = none
  payload : ∀ k : Fin 6, t.regs.g[k.val + 1] = m.payload.getD k.val 0
  sender : t.regs.g[7] = senderWord m
  full : t.regs.gfull = BitVec.allOnes 32
  slot : (u.slot m.dst n).tid = some s.nextTid
  net : u.net = tdel s.net id
  sq : u.sq = tdel s.sq id
  mem : u.mem = s.mem

theorem handlerRegs_payload (ps : List Word) (w : Word) (k : Fin 6) : (handlerRegs ps w).g[k.val + 1] = ps.getD k.val 0 := by
  have hk := k.isLt
  simp only [handlerRegs, Vector.getElem_ofFn]
  rw [if_neg (by omega), if_pos (by simp), Nat.add_sub_cancel]

theorem handlerRegs_sender (ps : List Word) (w : Word) : (handlerRegs ps w).g[7] = w := by
  simp only [handlerRegs, Vector.getElem_ofFn, if_true]

theorem started {s : State} (id : Nat) {m : Msg} {l : Launch} {n : Nat} (hl : tget s.launches m.launch = some l) (hn : n < 16) :
    ∃ t, Started s (((s.msgTaken id).signal m.dst).startHandler m.launch m.dst n m.handler m.payload (senderWord m)) id m l n t := by
  obtain ⟨x, th, hs⟩ := signal_frame (s.msgTaken id) m.dst
  have hl' : (({ s.msgTaken id with cores := x, threads := th } : State).launch? m.launch).getD Launch.blank = l := by
    rw [show ({ s.msgTaken id with cores := x, threads := th } : State).launch? m.launch = some l from hl]
    rfl
  rw [hs, State.startHandler, hl']
  refine ⟨_, ⟨tget_tput_self .., rfl, rfl, rfl, rfl, rfl, rfl, rfl, rfl, rfl, rfl, handlerRegs_payload _ _,
    handlerRegs_sender _ _, rfl, ?_, rfl, rfl, rfl⟩⟩
  rw [State.slot_modSlot _ _ _ hn]
  rfl

/-- The porter of core c is open to a message. -/
def State.porterOpen (s : State) (c : Nat) : Prop :=
  (s.slot c 15).isFree ∧ (s.core c).ringHas 1 = false ∧ s.porterWaiting c = false ∧ s.porterKept c = false

section
variable {s : State} {id : Nat} {m : Msg} {l : Launch}

/-- The slot that a message's handler takes. -/
def State.handlerSlot (s : State) (m : Msg) (l : Launch) : Option Nat :=
  if l.closing || (s.core m.dst).ringHas 1 then none
  else if ((s.core m.dst).slot 15).isFree && !s.porterWaiting m.dst && !s.porterKept m.dst then some 15
  else if l.anyslot then (s.core m.dst).freeSlot 15 else none

theorem msgEnter_slot (hl : tget s.launches m.launch = some l) (hs : l.suspended = false) {n : Nat}
    (hn : s.handlerSlot m l = some n) : s.msgEnter id m
      = some (((s.msgTaken id).signal m.dst).startHandler m.launch m.dst n m.handler m.payload (senderWord m)) := by
  have hl' : s.launch? m.launch = some l := hl
  rw [State.handlerSlot] at hn
  simp only [State.msgEnter, hl', hs, Bool.false_eq_true, if_false, hn]
  rfl

theorem handlerSlot_porter (hc : l.closing = false) (ho : s.porterOpen m.dst) : s.handlerSlot m l = some 15 := by
  obtain ⟨hfree, hring, hwait, hkept⟩ := ho
  have hf : ((s.core m.dst).slot 15).isFree = true := hfree
  simp [State.handlerSlot, hc, hring, hf, hwait, hkept]

theorem not_porterOpen (hring : (s.core m.dst).ringHas 1 = false) (ho : ¬ s.porterOpen m.dst) :
    (((s.core m.dst).slot 15).isFree && !s.porterWaiting m.dst && !s.porterKept m.dst) = false := by
  by_contra h
  simp only [Bool.not_eq_false, Bool.and_eq_true, Bool.not_eq_true'] at h
  exact ho ⟨h.1.1, hring, h.1.2, h.2⟩

theorem handlerSlot_any (hc : l.closing = false) (ho : ¬ s.porterOpen m.dst) (ha : l.anyslot = true)
    (hring : (s.core m.dst).ringHas 1 = false) {n : Nat} (hn : (s.core m.dst).freeSlot 15 = some n) :
    s.handlerSlot m l = some n := by
  simp only [State.handlerSlot, hc, hring, not_porterOpen hring ho, ha, hn, Bool.or_self, Bool.false_eq_true, if_false, if_true]

theorem handlerSlot_full (ho : ¬ s.porterOpen m.dst)
    (hf : l.anyslot = false ∨ (s.core m.dst).ringHas 1 = true ∨ ∀ n < 15, (s.slot m.dst n).isFree = false) :
    s.handlerSlot m l = none := by
  cases hring : (s.core m.dst).ringHas 1 with
  | true => simp [State.handlerSlot, hring]
  | false =>
    have hany : (if l.anyslot then (s.core m.dst).freeSlot 15 else none) = none := by
      rcases hf with h | h | h
      · simp [h]
      · simp [hring] at h
      · rw [Core.freeSlot, List.find?_eq_none.2, ite_self]
        intro n hn
        have hb : ((s.core m.dst).slot n).isFree = false := h n (List.mem_range.1 hn)
        simp [hb]
    simp only [State.handlerSlot, hring, not_porterOpen hring ho, Bool.false_eq_true, if_false, hany, ite_self]

theorem exec_message (hn : tget s.net id = some (.msg m)) (hc : s.carried id = true) (hh : (s.core m.dst).held = []) :
    exec (.messageArrive id) s = .next ((s.msgEnter id m).getD (s.holdRecord m.dst id)) := by
  have hx : exec (.messageArrive id) s = .next (messageStep id s) := rfl
  have hpk : s.packet? id = some (.msg m) := hn
  rw [hx, messageStep, hpk]
  simp only [hc, hh, List.any_nil, List.isEmpty_nil, Bool.not_true, Bool.or_self, Bool.false_eq_true, if_false]
  cases s.msgEnter id m <;> rfl

end

/-! ### A message in the ring (R56), and one refused -/

theorem ringFit_wrap {x : Core} {size len skip off : Nat} (h : x.ringFit size len = some (skip, off)) (hs : skip ≠ 0) : off = 0 := by
  unfold Core.ringFit at h
  simp only at h
  split_ifs at h <;> simp only [Option.some.injEq, Prod.mk.injEq] at h
  · exact absurd h.1.symm hs
  · exact h.2.symm
  · exact h.2.symm

/-- The ring record of a message. -/
def msgRec (m : Msg) (off : Nat) : RingRec :=
  { off := off, len := msgLen m.npay, kind := 1, tid := none, amo := none, launch := m.launch }

/-- The words of that record. -/
def msgWords (m : Msg) : List Word :=
  [ringHeader (msgLen m.npay / 16) m.score m.npay m.sslot m.tag.toNat 1, m.handler] ++ m.payload

/-- The skip record that fills the ring up to its end. -/
def skipRec (tail skip launch : Nat) : RingRec := { off := tail, len := skip, kind := 3, tid := none, amo := none, launch := launch }

theorem ringPut_fits {x : Core} {size skip off : Nat} {r : RingRec} (h : x.ringFit size r.len = some (skip, off))
    (hs : skip = 0 ∨ x.ringUsed ≠ 0) :
    (x.ringPut size r).ring = x.ring ++ (if skip = 0 then [] else [skipRec x.ringTail skip r.launch]) ++ [{ r with off := off }]
      ∧ (x.ringPut size r).ringTail = (off + r.len) % size
      ∧ (x.ringPut size r).ringUsed = x.ringUsed + skip + r.len := by
  rw [Core.ringPut, h]
  by_cases hz : skip = 0
  · simp [hz]
  · obtain rfl := ringFit_wrap h hz
    have hu : x.ringUsed ≠ 0 := hs.resolve_left hz
    simp [hz, hu, skipRec]

theorem writeSkip_frame (s : State) (c : Nat) (x : Core) (skip : Nat) : ∃ m, s.writeSkip c x skip = { s with mem := m } := by
  unfold State.writeSkip
  split
  · exact ⟨_, rfl⟩
  · exact ⟨_, rfl⟩

/-- The machine with message m written as a ring record at off, behind a skip record, and taken out of its link. -/
def State.ringWritten (s : State) (id : Nat) (m : Msg) (l : Launch) (skip off : Nat) : State :=
  State.msgTaken (State.modCore { s.writeSkip m.dst (s.core m.dst) skip with
    mem := writeWords (s.writeSkip m.dst (s.core m.dst) skip).mem ((s.writeSkip m.dst (s.core m.dst) skip).ringKey m.dst off)
      (msgWords m) } m.dst fun x => x.ringPut l.ringSize (msgRec m 0)) id

theorem ringWritten_frame (s : State) (id : Nat) (m : Msg) (l : Launch) (skip off : Nat) :
    ∃ x, s.ringWritten id m l skip off = { s with
      net := tdel s.net id, sq := tdel s.sq id, cores := x
      mem := writeWords (s.writeSkip m.dst (s.core m.dst) skip).mem (s.ringKey m.dst off) (msgWords m) } := by
  obtain ⟨mem, hm⟩ := writeSkip_frame s m.dst (s.core m.dst) skip
  have hk : (s.writeSkip m.dst (s.core m.dst) skip).ringKey m.dst off = s.ringKey m.dst off := by rw [hm]; rfl
  rw [State.ringWritten, hk, hm]
  exact ⟨_, rfl⟩

theorem State.core_congr {u s : State} (h : u.cores = s.cores) (c : Nat) : u.core c = s.core c := by simp only [State.core, h]

theorem core_msgTaken (s : State) (id c : Nat) : (s.msgTaken id).core c = s.core c := State.core_congr rfl c

theorem ringWritten_core (s : State) (id : Nat) (m : Msg) (l : Launch) (skip off : Nat) :
    (s.ringWritten id m l skip off).core m.dst = (s.core m.dst).ringPut l.ringSize (msgRec m 0) := by
  obtain ⟨mem, hm⟩ := writeSkip_frame s m.dst (s.core m.dst) skip
  rw [State.ringWritten, core_msgTaken, State.core_modCore_self, hm]
  exact congrArg (Core.ringPut · l.ringSize (msgRec m 0)) (State.core_congr rfl _)

/-- The same, with the event that a record signals. -/
def State.ringed (s : State) (id : Nat) (m : Msg) (l : Launch) (skip off : Nat) : State :=
  (s.ringWritten id m l skip off).signal m.dst

theorem ringed_memory (s : State) (id : Nat) (m : Msg) (l : Launch) (skip off : Nat) :
    (s.ringed id m l skip off).net = tdel s.net id ∧ (s.ringed id m l skip off).sq = tdel s.sq id
      ∧ (s.ringed id m l skip off).mem
        = writeWords (s.writeSkip m.dst (s.core m.dst) skip).mem (s.ringKey m.dst off) (msgWords m) := by
  obtain ⟨x, hw⟩ := ringWritten_frame s id m l skip off
  obtain ⟨y, th, hs⟩ := signal_frame (s.ringWritten id m l skip off) m.dst
  rw [State.ringed, hs, hw]
  exact ⟨rfl, rfl, rfl⟩

/-- The record of a message in the ring. -/
theorem ringed_ring {s : State} (id : Nat) {m : Msg} {l : Launch} {skip off : Nat}
    (hf : (s.core m.dst).ringFit l.ringSize (msgLen m.npay) = some (skip, off)) (hs : skip = 0 ∨ (s.core m.dst).ringUsed ≠ 0) :
    ((s.ringed id m l skip off).core m.dst).ring = (s.core m.dst).ring
        ++ (if skip = 0 then [] else [skipRec (s.core m.dst).ringTail skip m.launch]) ++ [msgRec m off]
      ∧ ((s.ringed id m l skip off).core m.dst).ringTail = (off + msgLen m.npay) % l.ringSize
      ∧ ((s.ringed id m l skip off).core m.dst).ringUsed = (s.core m.dst).ringUsed + skip + msgLen m.npay := by
  have hp := ringPut_fits (x := s.core m.dst) (r := msgRec m 0) hf hs
  rw [State.ringed, (SlotsOf.signal _ m.dst).here, ringWritten_core]
  exact hp

theorem msgEnter_none {s : State} {id : Nat} {m : Msg} {l : Launch} (hl : tget s.launches m.launch = some l)
    (hs : l.suspended = false) (hn : s.handlerSlot m l = none) : s.msgEnter id m
      = if l.ringSize < msgLen m.npay then some (s.refuse id m)
        else ((s.core m.dst).ringFit l.ringSize (msgLen m.npay)).map fun p => s.ringed id m l p.1 p.2 := by
  have hl' : s.launch? m.launch = some l := hl
  rw [State.handlerSlot] at hn
  simp only [State.msgEnter, hl', hs, Bool.false_eq_true, if_false, hn]
  split
  · rfl
  · cases (s.core m.dst).ringFit l.ringSize (msgLen m.npay) <;> rfl

theorem refused_message (s : State) (id : Nat) (m : Msg) : (s.refuse id m).net = tdel s.net id ∧ (s.refuse id m).sq = tdel s.sq id
    ∧ ∀ k t, m.tid = some k → tget s.threads k = some t → tget (s.refuse id m).threads k = some { t with nack := true } := by
  unfold State.refuse
  extract_lets s1 s2 s3 asid
  obtain ⟨mem, hr⟩ := report_frame s3 (dieOf m.dst)
    { cause := 0x43, core := s3.coreLabel m.dst, detail := BitVec.ofNat 64 m.score, asid := asid }
  rw [hr]
  cases hk : m.tid with
  | none =>
    have h3 : s3 = s2 := by simp only [s3, hk]
    rw [h3]
    exact ⟨rfl, rfl, fun k t hkt => by simp at hkt⟩
  | some j =>
    have h3 : s3 = s2.modThread j fun t => { t with nack := true } := by simp only [s3, hk]
    rw [h3]
    refine ⟨rfl, rfl, fun k t hkt ht => ?_⟩
    obtain rfl : j = k := Option.some.inj hkt
    rw [s2.modThread_of _ (show tget s2.threads j = some t from ht)]
    exact tget_tput_self ..

/-! ### A held record enters (R56) -/

/-- The core fields that a handler's start leaves alone. -/
theorem started_core (s : State) (id : Nat) (m : Msg) (n : Nat) :
    SlotsOf m.dst s (((s.msgTaken id).signal m.dst).startHandler m.launch m.dst n m.handler m.payload (senderWord m)) := by
  have h1 : SlotsOf m.dst s ((s.msgTaken id).signal m.dst) :=
    (SlotsOf.congr (s := s) (u := s.msgTaken id) rfl).trans (SlotsOf.signal _ m.dst)
  generalize (s.msgTaken id).signal m.dst = v at h1 ⊢
  obtain ⟨th, k, f, hs⟩ : ∃ th k f, v.startHandler m.launch m.dst n m.handler m.payload (senderWord m)
      = ({ v with threads := th, nextTid := k } : State).modSlot m.dst n f := ⟨_, _, _, rfl⟩
  have h2 : SlotsOf m.dst v { v with threads := th, nextTid := k } := SlotsOf.congr rfl
  rw [hs]
  exact (h1.trans h2).trans (SlotsOf.modSlot _ m.dst n f)

theorem Started.modCore {s u : State} {id n : Nat} {m : Msg} {l : Launch} {t : Thread} (h : Started s u id m l n t) (c : Nat)
    {f : Core → Core} (hf : ∀ x, (f x).slots = x.slots) : Started s (u.modCore c f) id m l n t :=
  { h with
    slot := by rw [slot_modCore u c hf]; exact h.slot
    thread := h.thread, net := h.net, sq := h.sq, mem := h.mem }

theorem exec_held {s u : State} {id since : Nat} {m : Msg} {rest : List (Nat × Nat)} (hn : tget s.net id = some (.msg m))
    (hh : (s.core m.dst).held = (id, since) :: rest) (he : s.msgEnter id m = some u) :
    exec (.heldRecordEnter m.dst) s
      = .next (u.modCore m.dst fun x => { x with held := rest, stallTries := tdel x.stallTries id }) := by
  have hx : exec (.heldRecordEnter m.dst) s = .next (heldStep m.dst s) := rfl
  have hpk : s.packet? id = some (.msg m) := hn
  rw [hx, heldStep, hh]
  simp only [State.enterHeld, hpk, he]

/-- Settles O37. -/
theorem messagesLeaveAndFindTheirHandler : Obligations.MessagesLeaveAndFindTheirHandler := by
  unfold Obligations.MessagesLeaveAndFindTheirHandler
  refine ⟨fun s d a b npay tag => ?_, fun s id m l hn hl hsus hclose => ?_⟩
  · intro i hi ws w1
    obtain ⟨q, hq⟩ := send_routes hi
    obtain ⟨x, hx⟩ := exec_sends (a := a) (b := b) hi hq
    exact ⟨q, x, hq, hx⟩
  · intro started' open_ full
    have hstart : ∀ {n u}, (∃ t, Started s u id m l n t) → started' n u := by
      rintro n u ⟨t, h⟩
      exact ⟨t, h.thread, h.place, h.launch, h.pc, h.hand, h.task, h.gregs, h.vregs, h.fmtp, h.sclp, h.wait, h.payload, h.sender,
        h.full, h.slot, h.net, h.sq, h.mem⟩
    refine ⟨fun hc hh => ?_, fun since rest hh ho => ?_⟩
    · have hx := exec_message hn hc hh
      refine ⟨fun ho => ?_, fun n hn15 ho ha hring hfree hlow => ?_, fun ho hfull hlen => ?_, fun ho hfull hlen => ?_⟩
      · rw [hx, msgEnter_slot hl hsus (handlerSlot_porter hclose ho), Option.getD_some]
        exact ⟨_, rfl, hstart (started id hl (by decide))⟩
      · rw [hx, msgEnter_slot hl hsus (handlerSlot_any hclose ho ha hring (freeSlot_eq_some hn15 hfree hlow)), Option.getD_some]
        exact ⟨_, rfl, hstart (started id hl (by omega))⟩
      · rw [hx, msgEnter_none hl hsus (handlerSlot_full ho hfull), if_neg (Nat.not_lt.2 hlen)]
        refine ⟨fun hfit => ?_, fun skip off hfit hskip => ?_⟩
        · rw [hfit, Option.map_none, Option.getD_none, State.holdRecord, hh]
          simp only [List.any_nil, Bool.false_eq_true, if_false, State.modCore, hh, List.nil_append]
        · intro filler gap
          obtain ⟨hnet, hsq, hmem⟩ := ringed_memory s id m l skip off
          obtain ⟨hring, htail, hused⟩ := ringed_ring id hfit hskip
          rw [hfit, Option.map_some, Option.getD_some]
          exact ⟨s.ringed id m l skip off, rfl, hnet, hsq, hmem, hring, htail, hused⟩
      · rw [hx, msgEnter_none hl hsus (handlerSlot_full ho hfull), if_pos hlen, Option.getD_some]
        exact ⟨s.refuse id m, rfl, refused_message s id m⟩
    · have hx := exec_held hn hh (msgEnter_slot hl hsus (handlerSlot_porter hclose ho))
      obtain ⟨t, ht⟩ := started id hl (n := 15) (by decide)
      refine ⟨_, hx, hstart ⟨t, ht.modCore _ fun _ => rfl⟩, ?_, ?_⟩
      · rw [State.core_modCore_self, (started_core s id m 15).here]
      · rw [State.core_modCore_self]

end Sys2Proof.Machine
end

section
/-!
PROOFS. The task unit (O36): a state in which the number of the next thread is in use.
-/

namespace Sys2Proof.Machine

/-! ### O36: a thread that has the next thread number already -/

/-- The tests' core 0 with a task at the near end of lane 2 that names a decode table, in a state where the number the next
thread will get is in use: thread 1, bound to bank 0, stands under it. The task takes that number, so the bank it was bound to
is free again once the task has started, while it was not when the entry was looked at. -/
def numberInUse : State :=
  { Tests.tasks with
    mem := writeLE Tests.tasks.mem (localKey 0 2064) 8 0x40000
    nextTid := 1
    threads := tput Tests.tasks.threads 1 { Tests.tasks.me with bank := some 0 } }

/-- The step goes on, and core 0 loads a table into bank 0. -/
def loadsFirstBank : Host.Outcome State Fault Refusal → Bool
  | .next s => (s.core 0).banks[0].loading.isSome
  | _ => false

theorem numberInUse_bankFor :
    numberInUse.bankFor 0 numberInUse.myLaunch.asid (clear5 (numberInUse.loadWord (localKey 0 2048 + 8 * 2)))
      = some (1, false) := by decide

theorem numberInUse_loadsFirstBank : loadsFirstBank (exec (.taskTake 0 1) numberInUse) = true := by decide

/-- Refutes O36: the statement has no premise that thread numbers are given out in rising order. Where the next number is
that of a thread bound to bank 0, the entry's table is loaded into bank 0, which that thread's end has just freed, not into
bank 1, the bank that was free when the slot looked. -/
theorem not_taskUnitTakesTheEndsOfLanes : ¬ Obligations.TaskUnitTakesTheEndsOfLanes := by
  unfold Obligations.TaskUnitTakesTheEndsOfLanes
  rintro ⟨takes, -⟩
  obtain ⟨-, -, -, entry⟩ := takes numberInUse 0 1 0 2 1 numberInUse.myLaunch true (.taskTake 0 1) []
    (by decide) (by decide) (by decide) (by decide)
  have above : ∀ j, 2 < j → j < 4 → ((numberInUse.core 0).lane j).count = 0 := by
    intro j hlo hhi
    obtain rfl : j = 3 := by omega
    decide
  obtain ⟨-, -, -, table⟩ := entry (by decide) (.inl rfl) above (by decide) (by decide) (by decide)
  obtain ⟨-, loads, -⟩ := table (by decide) (by decide)
  have hnext := loads 1 (by decide) numberInUse_bankFor
  have hloads := numberInUse_loadsFirstBank
  rw [hnext] at hloads
  exact absurd hloads (by decide)

end Sys2Proof.Machine
end

section
/-!
PROOFS. A step of the machine (O3): the turn of a core, what it fetches and issues, and planned steps.
-/

namespace Sys2Proof.Machine

/-! ### O3: the turn of a core -/

theorem course_of_turn {s : State} {c : Nat} {rest : List Nat} (h : s.turn = c :: rest) :
    s.course = ({ s with turn := rest } : State).issueTurn c := by
  simp only [State.course, h]

/-- Without a plan, a machine that runs takes its own course. -/
theorem step_unplanned {s : State} (hplan : s.plan = []) (hhalted : s.halted = false) (hpower : s.unpowered = false) :
    step s = s.course := by
  simp [step, State.advance, hplan, hhalted, hpower]

/-- The slots of a core in the order in which a turn looks at them. -/
theorem turnSlot_eq_none {s : State} {c : Nat}
    (h : ∀ k < 16, s.eligible c (((s.core c).last + 1 + k) % 16) = false) : s.turnSlot c = none := by
  simp only [State.turnSlot, List.find?_eq_none, List.mem_map, List.mem_range]
  rintro n ⟨k, hk, rfl⟩
  simp [h k hk]

theorem turnSlot_eq_some {s : State} {c k : Nat} (hk : k < 16)
    (hfirst : ∀ j < k, s.eligible c (((s.core c).last + 1 + j) % 16) = false)
    (hit : s.eligible c (((s.core c).last + 1 + k) % 16)) :
    s.turnSlot c = some (((s.core c).last + 1 + k) % 16) := by
  simp only [State.turnSlot, List.find?_map, Option.map_eq_some_iff]
  refine ⟨k, ?_, rfl⟩
  rw [List.find?_range_eq_some]
  exact ⟨hit, by simpa using hk, fun j hj => by simp [hfirst j hj]⟩

theorem issueTurn_idle {s : State} {c : Nat} (h : s.turnSlot c = none) : s.issueTurn c = .next s := by
  simp only [State.issueTurn, h]

theorem issueTurn_of_slot {s : State} {c n tid : Nat} (h : s.turnSlot c = some n) (htid : (s.slot c n).tid = some tid) :
    s.issueTurn c = s.issueThread c n tid := by
  simp only [State.issueTurn, h, htid]

/-! ### What is fetched and issued -/

theorem issueThread_parked {s : State} {c n tid : Nat}
    (h : ((s.takeTurn c n tid).fetch (s.takeTurn c n tid).me.pc false).2 = none) :
    s.issueThread c n tid = settle (.next ((s.takeTurn c n tid).fetch (s.takeTurn c n tid).me.pc false).1) := by
  simp only [State.issueThread, h]

theorem issueThread_fetched {s : State} {c n tid : Nat} {w : Word}
    (h : ((s.takeTurn c n tid).fetch (s.takeTurn c n tid).me.pc false).2 = some w) :
    s.issueThread c n tid = settle (((s.takeTurn c n tid).fetch (s.takeTurn c n tid).me.pc false).1.issueWord w) := by
  simp only [State.issueThread, h]

theorem issueWord_reserved {w : Word} {r : Illegal} {h : Part} (s : State) (hw : decodeBundle w = .error (r, h)) :
    s.issueWord w = exec (.illegalBundle r h) s := by
  simp only [State.issueWord, hw]

theorem issueWord_prefix {w : Word} (s : State) (hw : decodeBundle w = .ok (.lone .once)) :
    s.issueWord w = s.issueUnit := by
  simp only [State.issueWord, hw]

/-- A lone instruction, or a half beside a `nop`, is issued alone. -/
theorem issueWord_alone {w : Word} {i : Instr} (s : State) (hi : i ≠ .once)
    (hw : decodeBundle w = .ok (.lone i) ∨ decodeBundle w = .ok (.short i .nop) ∨ decodeBundle w = .ok (.short .nop i)) :
    s.issueWord w = exec i s := by
  rcases hw with hw | hw | hw
  · simp only [State.issueWord, hw]
  · simp only [State.issueWord, hw, State.issueShort, if_pos]
  · by_cases hnop : i = .nop
    · simp only [State.issueWord, hw, State.issueShort, hnop, if_pos]
    · simp only [State.issueWord, hw, State.issueShort, if_neg hnop, if_pos]

theorem issueWord_halves {w : Word} {i a : Instr} (s : State) (hi : i ≠ .nop) (ha : a ≠ .nop)
    (hw : decodeBundle w = .ok (.short i a)) :
    s.issueWord w = .next (s.issueAll [(.c, i), (.a, a)] fun u => run i (run a u)) := by
  simp only [State.issueWord, hw, State.issueShort, if_neg hi, if_neg ha]
  rfl

theorem buffered_local {s : State} {l : Launch} {c : Nat} {a : Word} (h : isLocal a = true) (buf : List (Word × Word)) :
    s.buffered l c a buf = [] := by
  simp only [State.buffered, h, if_true]

theorem setBuffer_sound (s : State) (buf : List (Word × Word)) (k n : Nat) :
    (s.setBuffer buf).sound k n = s.sound k n := by
  unfold State.setBuffer
  split <;> rfl

theorem fetchLocal_window {s : State} {l : Launch} {c : Nat} {a : Word} (hhigh : a.extractLsb' 29 34 = 0)
    (hown : a.extractLsb' 16 13 = 0x1FFF) (hlo : l.lmLo ≤ bits a 0 16) (hhi : bits a 0 16 + 8 ≤ l.lmHi)
    (hs : s.sound (localKey c (bits a 0 16)) 8) :
    s.fetchLocal l c a = .word (s.loadWord (localKey c (bits a 0 16))) (some (localKey c (bits a 0 16), 8)) := by
  have hnamed : bits a 16 13 = 0x1FFF := by simp [bits, hown]
  have hzero : bits a 29 34 = 0 := by simp [bits, hhigh]
  simp only [State.fetchLocal, hnamed, hzero, isBad_of_sound hs, Bool.or_eq_true, decide_eq_true_eq]
  rw [if_neg (by simp), if_neg (by simp), if_neg (by omega), if_neg (by simp)]

/-- Local code is read where it stands: none of it is kept in the slot's buffer. -/
theorem fetch_local {s : State} (hlocal : isLocal s.me.pc = true) (hhigh : s.me.pc.extractLsb' 29 34 = 0)
    (hown : s.me.pc.extractLsb' 16 13 = 0x1FFF) (hlo : s.myLaunch.lmLo ≤ bits s.me.pc 0 16)
    (hhi : bits s.me.pc 0 16 + 8 ≤ s.myLaunch.lmHi) (hs : s.sound (localKey s.ctx.core (bits s.me.pc 0 16)) 8) :
    s.fetch s.me.pc false = (s.setBuffer [], some (s.loadWord (localKey s.ctx.core (bits s.me.pc 0 16)))) := by
  have hs' : (s.setBuffer []).sound (localKey s.ctx.core (bits s.me.pc 0 16)) 8 = true := by rw [setBuffer_sound]; exact hs
  simp only [State.fetch, State.fetchAt, hlocal, if_true, fetchLocal_window hhigh hown hlo hhi hs, buffered_local hlocal,
    corrected_of_sound hs']

/-! ### Planned steps -/

theorem step_planned_turn {s : State} {x : Choice} {more : List Choice} {k : Nat} {rest : List Nat} (hplan : s.plan = x :: more)
    (hhalted : s.halted = false) (hpower : s.unpowered = false) (hturn : s.turn = k :: rest) (hx : x.afterTurns = true) :
    step s = ({ s with turn := rest } : State).issueTurn k := by
  simp [step, State.advance, hplan, hhalted, hpower, hturn, hx]

theorem step_planned {s : State} {x : Choice} {more : List Choice} (hplan : s.plan = x :: more)
    (hhalted : s.halted = false) (hpower : s.unpowered = false) (hturn : s.turn = [] ∨ x.afterTurns = false) :
    step s = ({ s with plan := more } : State).planned x := by
  rcases hturn with hturn | hx
  · simp [step, State.advance, hplan, hhalted, hpower, hturn]
  · cases ht : s.turn <;> simp [step, State.advance, hplan, hhalted, hpower, ht, hx]

/-- What a turn issues, part by part. -/
theorem turn_first_eligible {s : State} {c : Nat} {rest : List Nat} (hplan : s.plan = []) (hhalted : s.halted = false)
    (hpower : s.unpowered = false) (hturn : s.turn = c :: rest) {k tid : Nat} (hk : k < 16)
    (hit : ({ s with turn := rest } : State).eligible c (((s.core c).last + 1 + k) % 16))
    (hfirst : ∀ j < k, ({ s with turn := rest } : State).eligible c (((s.core c).last + 1 + j) % 16) = false)
    (htid : (s.slot c (((s.core c).last + 1 + k) % 16)).tid = some tid) :
    step s = ({ s with turn := rest } : State).issueThread c (((s.core c).last + 1 + k) % 16) tid := by
  rw [step_unplanned hplan hhalted hpower, course_of_turn hturn]
  exact issueTurn_of_slot (turnSlot_eq_some (s := { s with turn := rest }) hk hfirst hit) htid

/-- Settles O3: a turn is the first eligible slot's, and what is fetched, decoded and run follows the bundle's form. -/
theorem aStepRunsTheFirstEligibleBundle : Obligations.AStepRunsTheFirstEligibleBundle := by
  unfold Obligations.AStepRunsTheFirstEligibleBundle
  refine ⟨fun s c rest hplan hhalted hpower hturn => ?_, fun s x more hplan hhalted hpower => ?_⟩
  · intro s0 slot
    refine ⟨fun hnone => ?_, fun k hk hit hfirst tid htid => ?_⟩
    · rw [step_unplanned hplan hhalted hpower, course_of_turn hturn]
      exact issueTurn_idle (turnSlot_eq_none (s := s0) hnone)
    · intro t x
      have hstep : step s = s0.issueThread c (slot k) tid :=
        turn_first_eligible hplan hhalted hpower hturn hk hit hfirst htid
      refine ⟨fun hx => hstep.trans (issueThread_parked hx), fun w hx => ?_, fun hbit hhigh hown hlo hhi hs => ?_⟩
      · have hword : step s = settle (x.1.issueWord w) := hstep.trans (issueThread_fetched hx)
        exact ⟨fun r h hw => by rw [hword, issueWord_reserved _ hw], fun i hi hw => by rw [hword, issueWord_alone _ hi hw],
          fun i a hi ha hw => by rw [hword, issueWord_halves _ hi ha hw], fun hw => by rw [hword, issueWord_prefix _ hw]⟩
      · exact fetch_local hbit hhigh hown hlo hhi hs
  · intro t
    refine ⟨fun c hx hc => ?_, fun c hx hc => ?_, fun k rest hturn hx => ?_, fun hx hturn => ?_⟩
    · subst hx
      rw [step_planned hplan hhalted hpower (.inr rfl)]
      simp [State.planned, hc, t]
    · subst hx
      rw [step_planned hplan hhalted hpower (.inr rfl)]
      simp [State.planned, hc, t]
    · refine step_planned_turn hplan hhalted hpower hturn ?_
      rcases hx with rfl | ⟨i, rfl⟩ <;> rfl
    · subst hx
      rw [step_planned hplan hhalted hpower (.inl hturn)]
      rfl

end Sys2Proof.Machine
end

section
/-!
PROOFS. The copy engine (O53): its instructions, what an access reaches, one position read or written, the end of a copy.
-/

namespace Sys2Proof.Machine

/-! ### O53: the instructions of the copy engine -/

/-- The command that `cpy` queues. -/
def State.copyOf (s : State) (t : BitVec 6) (vf : BitVec 3) : Copy :=
  { num := s.myCore.copyNum
    words := layoutWords (s.me.regs.getV vf) (s.me.regs.getV (vf + 1)) (s.me.regs.getV (vf + 2))
    tag := t, tid := s.ctx.tid, launch := s.me.launch, pc := s.me.pc, issued := s.clock
    waits := ((s.sqOf s.ctx.core s.ctx.slot).filter fun p => p.2.state == .inFlight).map Prod.fst
    vals := [], done := [], failed := false, walk := none }

/-- The core once a command has been queued. -/
def State.copyQueued (s : State) (x : Copy) : State :=
  s.modCore s.ctx.core fun c => { c with
    tags := c.tags &&& ~~~(1#64 <<< x.tag.toNat), copyNum := c.copyNum + 1, copyQ := c.copyQ ++ [x] }

theorem cpyEffect_inWith {s : State} {t : BitVec 6} {vf : BitVec 3} :
    cpyEffect t vf (s.inWith (.cpy t vf) (s.meIn (.cpy t vf)) [] (s.me.pc + 8))
      = (s.copyQueued (s.copyOf t vf)).inWith (.cpy t vf) (s.meIn (.cpy t vf)) [] (s.me.pc + 8) := by
  unfold cpyEffect State.layoutOf
  simp only [srcV_inWith, State.me_inWith]
  rfl

theorem cpy_exec {s : State} {t : BitVec 6} {vf : BitVec 3} (h : s.issues .lone (.cpy t vf)) :
    ∃ x, exec (.cpy t vf) s = .next ((s.copyQueued (s.copyOf t vf)).wentTo (.cpy t vf) (s.me.pc + 8) x) := by
  have hx : exec (.cpy t vf) s = issue .lone (.cpy t vf) (cpyEffect t vf) s := rfl
  obtain ⟨x, hf⟩ := finish_other (s := s) (u := s.copyQueued (s.copyOf t vf)) (i := .cpy t vf) (State.me_congr rfl rfl)
    (issues_pending h) rfl
  refine ⟨x, ?_⟩
  rw [hx, issue_alone h, cpyEffect_inWith, hf]
  rfl

theorem cwait_ready {s : State} {a : Reg} (h : s.issues .lone (.cwait a)) : s.myCore.tags &&& s.value a = s.value a := by
  by_contra hne
  have hlate := issues_late h
  have hcore : (s.posed (.cwait a)).myCore = s.myCore := rfl
  simp only [State.late, src_posed, hcore, bne_iff_ne.2 hne, if_true] at hlate
  cases hlate

theorem cwait_exec {s : State} {a : Reg} (h : s.issues .lone (.cwait a)) :
    ∃ x, exec (.cwait a) s = .next (s.wentTo (.cwait a) (s.me.pc + 8) x) := by
  obtain ⟨x, hf⟩ := finish_went h (s.me.pc + 8)
  have hx : exec (.cwait a) s = issue .lone (.cwait a) (fun u => u) s := rfl
  exact ⟨x, by rw [hx, issue_alone h, hf]⟩

theorem firstTag_of_none {s : State} {m : Word} (h : s.myCore.tags &&& m = 0) : s.firstTag m = 64 := if_pos h

theorem lowBit_eq {w v : Word} (hv : v.toNat < 64) (hbit : w.getLsbD v.toNat) (hlow : ∀ j < v.toNat, w.getLsbD j = false) :
    lowBit w = v.toNat := by
  have hfind : (List.range 64).find? (fun i => w.getLsbD i) = some v.toNat := by
    rw [List.find?_range_eq_some]
    exact ⟨hbit, by simpa using hv, fun j hj => by simp [hlow j hj]⟩
  simp [lowBit, hfind]

theorem firstTag_of_low {s : State} {m v : Word} (hv : v.toNat < 64) (hbit : (s.myCore.tags &&& m).getLsbD v.toNat)
    (hlow : ∀ j < v.toNat, (s.myCore.tags &&& m).getLsbD j = false) : s.firstTag m = v := by
  have hne : s.myCore.tags &&& m ≠ 0 := fun h0 => by simp [h0] at hbit
  rw [State.firstTag, if_neg hne, lowBit_eq hv hbit hlow, BitVec.ofNat_toNat, BitVec.setWidth_eq]

theorem lowestTag_exec {s : State} {d a : Reg} {i : Instr} {v : Word} (hi : i = .cany d a ∨ i = .cfirst d a)
    (h : s.issues .lone i) (hv : s.firstTag (s.value a) = v) : ∃ x, exec i s = .next (s.wrote i d v 0 x) := by
  obtain ⟨x, hf⟩ := finish_setDst h d v
  have hx : exec i s = issue .lone i (fun u => u.setDst d (u.firstTag (u.src a))) s := by
    rcases hi with rfl | rfl <;> rfl
  have hsrc : (s.inWith i (s.meIn i) [] (s.me.pc + 8)).src a = s.value a := src_open ..
  have hcore : (s.inWith i (s.meIn i) [] (s.me.pc + 8)).firstTag (s.value a) = s.firstTag (s.value a) := rfl
  exact ⟨x, by rw [hx, issue_alone h, hsrc, hcore, hv, hf]⟩

/-! ### Acceptance (R188) -/

theorem copyAccept_accepts {s : State} {c : Nat} {x : Copy} {rest : List Copy} (hq : (s.core c).copyQ = x :: rest)
    (hissued : x.issued < s.clock) (hroom : (s.core c).copies.length < 512) :
    exec (.copyAccept c) s = .next (s.modCore c fun y => { y with copyQ := rest, copies := y.copies ++ [x] }) := by
  have hx : exec (.copyAccept c) s = .next (copyAcceptStep c s) := rfl
  rw [hx, copyAcceptStep, hq]
  exact congrArg _ (if_neg (by simp; omega))

theorem copyAccept_waits {s : State} {c : Nat} {x : Copy} {rest : List Copy} (hq : (s.core c).copyQ = x :: rest)
    (h : s.clock ≤ x.issued ∨ 512 ≤ (s.core c).copies.length) : exec (.copyAccept c) s = .next s := by
  have hx : exec (.copyAccept c) s = .next (copyAcceptStep c s) := rfl
  rw [hx, copyAcceptStep, hq]
  exact congrArg _ (if_pos (by simp; omega))

/-! ### What an engine's access reaches -/

section
variable {s : State} {l : Launch} {c n : Nat} {a : Word} {p : Perm} {walk : Option EngineWalk}

theorem engineReach_out (hl : isLocal a) (ho : outOfRange l a n) : s.engineReach l c a n p walk = .out := by
  simp only [State.engineReach, hl, ho, if_true]

/-- An access to local memory whose way carries it is made, or waits: for the porter of another core, a bank or its turn to
leave. -/
theorem engineReach_local (hl : isLocal a) (ho : outOfRange l a n = false)
    (hr : s.engineRoute l c (homeOf (localKeyOf l c a)) a = none) :
    s.engineReach l c a n p walk =
      if (localBase ≤ localKeyOf l c a && homeOf (localKeyOf l c a) != c && !(s.slot (homeOf (localKeyOf l c a)) 15).isFree)
          || !s.bankOpen (localKeyOf l c a) || s.engineHeld l c (homeOf (localKeyOf l c a)) then .busy
      else .key (localKeyOf l c a) := by
  simp only [State.engineReach, hl, ho, if_true, hr, Bool.false_eq_true, if_false]

theorem engineReach_porter (hl : isLocal a) (ho : outOfRange l a n = false)
    (hr : s.engineRoute l c (homeOf (localKeyOf l c a)) a = none) (hk : localBase ≤ localKeyOf l c a)
    (hc : homeOf (localKeyOf l c a) ≠ c) (hf : (s.slot (homeOf (localKeyOf l c a)) 15).isFree = false) :
    s.engineReach l c a n p walk = .busy := by
  rw [engineReach_local hl ho hr, if_pos (by simp [hk, hc, hf])]

theorem engineReach_held (hl : isLocal a) (ho : outOfRange l a n = false)
    (hr : s.engineRoute l c (homeOf (localKeyOf l c a)) a = none) (hh : s.engineHeld l c (homeOf (localKeyOf l c a))) :
    s.engineReach l c a n p walk = .busy := by
  rw [engineReach_local hl ho hr, if_pos (by simp [hh])]

theorem engineReach_key (hl : isLocal a) (ho : outOfRange l a n = false)
    (hr : s.engineRoute l c (homeOf (localKeyOf l c a)) a = none)
    (hf : homeOf (localKeyOf l c a) = c ∨ (s.slot (homeOf (localKeyOf l c a)) 15).isFree)
    (hb : s.bankOpen (localKeyOf l c a)) (hh : s.engineHeld l c (homeOf (localKeyOf l c a)) = false) :
    s.engineReach l c a n p walk = .key (localKeyOf l c a) := by
  have hporter : (localBase ≤ localKeyOf l c a && homeOf (localKeyOf l c a) != c
      && !(s.slot (homeOf (localKeyOf l c a)) 15).isFree) = false := by
    rcases hf with hf | hf <;> simp [hf]
  rw [engineReach_local hl ho hr, hporter, hb, hh]
  rfl

end

/-! ### A copy's cycle -/

/-- The engine's cycle is taken. -/
def State.copyTurn (s : State) (c : Nat) (u : State) : State := u.modCore c fun y => { y with copyFree := s.clock + 1 }

/-- A change to the copy in flight that has the number. -/
def changeCopy (n : Nat) (f : Copy → Copy) (zs : List Copy) : List Copy := zs.map fun z => if z.num = n then f z else z

theorem changeCopy_ne {n : Nat} {f : Copy → Copy} {zs : List Copy} {x : Copy} (hx : zs.find? (fun y => y.num == n) = some x)
    (hf : f x ≠ x) : changeCopy n f zs ≠ zs := by
  intro h
  have hn : x.num = n := by simpa using List.find?_some hx
  have hall := List.map_inj_left.1 (h.trans (List.map_id zs).symm) x (List.mem_of_find?_eq_some hx)
  exact hf (by simpa [hn] using hall)

theorem copies_modCopy (s : State) (c n : Nat) (f : Copy → Copy) :
    ((s.modCopy c n f).core c).copies = changeCopy n f (s.core c).copies := by
  rw [State.modCopy, State.core_modCore_self]
  rfl

/-- A step that has changed the copy has taken the cycle. -/
theorem copyBusy_of_changed {s u : State} {c n : Nat} {f : Copy → Copy} {x : Copy}
    (hx : ((s.core c).copies.find? fun y => y.num == n) = some x) (hf : f x ≠ x)
    (hu : (u.core c).copies = changeCopy n f (s.core c).copies) (hclock : u.clock = s.clock) :
    u.copyBusy c s = s.copyTurn c u := by
  have hne : u ≠ s := fun h => changeCopy_ne hx hf (hu.symm.trans (by rw [h]))
  rw [State.copyBusy, if_neg hne, hclock]
  rfl

theorem copyBusy_unchanged (s : State) (c : Nat) : s.copyBusy c s = s := if_pos rfl

/-- Copy n of core c may make the access of position `lin`. -/
structure Copying (s : State) (c n lin : Nat) (x : Copy) (l : Launch) : Prop where
  found : ((s.core c).copies.find? fun y => y.num == n) = some x
  runs : ∃ lid, s.launchOn c = some (lid, l)
  whole : x.failed = false
  ready : ∀ e ∈ x.waits, ∀ y, tget s.sq e = some y → y.state ≠ .inFlight
  small : lin < 65536
  fresh : lin ∉ x.done
  turn : (s.core c).copyFree ≤ s.clock
  within : lin < (Layout.ofWords x.words).area

/-- The value of a position that has been read, or is not read. -/
def Copy.val (x : Copy) (p : Nat) : Word :=
  if (Layout.ofWords x.words).edge p then BitVec.ofNat 64 (Layout.ofWords x.words).fill else (tget x.vals p).getD 0

section
variable {s : State} {c n lin : Nat} {x : Copy} {l : Launch} (h : Copying s c n lin x l)
include h

theorem Copying.num : x.num = n := by simpa using List.find?_some h.found

theorem Copying.exec_eq : exec (.copyAccess c n lin) s = .next (
    if (Layout.ofWords x.words).edge lin && (Layout.ofWords x.words).dir then
      s.modCopy c n fun z => { z with done := sadd z.done lin }
    else if (Layout.ofWords x.words).edge lin || (tget x.vals lin).isSome then (s.copyWrite l c x [lin] x.val).copyBusy c s
    else (s.copyRead l c x [lin]).copyBusy c s) := by
  obtain ⟨found, ⟨lid, runs⟩, whole, ready, small, fresh, turn, within⟩ := h
  have hexec : exec (.copyAccess c n lin) s = .next (copyAccessStep c n lin s) := rfl
  have hready : (x.waits.all fun e => !((tget s.sq e).map SqEntry.inFlight).getD false) = true := by
    rw [List.all_eq_true]
    intro e he
    cases hy : tget s.sq e with
    | none => rfl
    | some y => simpa [SqEntry.inFlight] using ready e he y hy
  have hmod : lin % 65536 = lin := Nat.mod_eq_of_lt small
  have hgroup : ¬ 65536 ≤ lin := by omega
  rw [hexec, copyAccessStep]
  simp only [found, runs, whole, hready, hmod, hgroup, if_false]
  rw [if_neg (by simp [fresh]; omega)]
  rfl

theorem Copying.skips (hin : (Layout.ofWords x.words).inside lin = false) (hdir : (Layout.ofWords x.words).dir) :
    exec (.copyAccess c n lin) s = .next (s.modCopy c n fun z => { z with done := sadd z.done lin }) := by
  rw [h.exec_eq, if_pos (by simp [Layout.edge, hin, hdir])]

theorem Copying.reads (hin : (Layout.ofWords x.words).inside lin) (hval : tget x.vals lin = none) :
    exec (.copyAccess c n lin) s = .next ((s.copyRead l c x [lin]).copyBusy c s) := by
  rw [h.exec_eq, if_neg (by simp [Layout.edge, hin]), if_neg (by simp [Layout.edge, hin, hval])]

theorem Copying.writes {v : Word} (hv : (Layout.ofWords x.words).inside lin = true ∧ tget x.vals lin = some v
    ∨ (Layout.ofWords x.words).inside lin = false ∧ (Layout.ofWords x.words).dir = false
        ∧ v = BitVec.ofNat 64 (Layout.ofWords x.words).fill) :
    exec (.copyAccess c n lin) s = .next ((s.copyWrite l c x [lin] x.val).copyBusy c s) ∧ x.val lin = v := by
  rcases hv with ⟨hin, hval⟩ | ⟨hin, hdir, rfl⟩
  · exact ⟨by rw [h.exec_eq, if_neg (by simp [Layout.edge, hin]), if_pos (by simp [hval])], by
      simp [Copy.val, Layout.edge, hin, hval]⟩
  · exact ⟨by rw [h.exec_eq, if_neg (by simp [hdir]), if_pos (by simp [Layout.edge, hin])], by
      simp [Copy.val, Layout.edge, hin]⟩

end

/-! ### One position read or written (R188, R189) -/

theorem atomKey_self {key : Nat} {a : Word} (h : a.toNat % 32 ≤ key) : atomKey key a a = key := Nat.sub_add_cancel h

/-- A position has been read. -/
def Copy.gain (lin : Nat) (v : Word) (z : Copy) : Copy := { z with vals := tput z.vals lin v }

/-- A position has been written. -/
def Copy.finishAt (lin : Nat) (z : Copy) : Copy :=
  { z with vals := z.vals.filter fun p => p.1 != lin, done := sadd z.done lin }

theorem Copy.gain_ne {lin : Nat} {v : Word} {x : Copy} (h : tget x.vals lin = none) : x.gain lin v ≠ x := by
  intro he
  have hv : tget (x.gain lin v).vals lin = some v := tget_tput_self ..
  rw [he, h] at hv
  cases hv

theorem Copy.finishAt_ne {lin : Nat} {x : Copy} (h : lin ∉ x.done) : x.finishAt lin ≠ x := by
  intro he
  have hd : lin ∈ (x.finishAt lin).done := mem_sadd.2 (.inl rfl)
  rw [he] at hd
  exact h hd

section
variable {s : State} {l : Launch} {c lin key : Nat} {x : Copy}

theorem copyRead_key (hr : s.engineReach l c ((Layout.ofWords x.words).source lin) (typeBytes (Layout.ofWords x.words).fmt) .rd
      x.walk = .key key) (hs : s.sound key (typeBytes (Layout.ofWords x.words).fmt))
    (hk : ((Layout.ofWords x.words).source lin).toNat % 32 ≤ key) :
    s.copyRead l c x [lin] = s.modCopy c x.num
      (Copy.gain lin (BitVec.ofNat 64 (readLE s.mem key (typeBytes (Layout.ofWords x.words).fmt)))) := by
  simp only [State.copyRead, hr, atomKey_self hk, isBad_of_sound hs, List.find?_cons, List.find?_nil, List.map_cons,
    List.map_nil, List.foldl_cons, List.foldl_nil, corrected_of_sound hs]
  rfl

theorem copyRead_out (hr : s.engineReach l c ((Layout.ofWords x.words).source lin) (typeBytes (Layout.ofWords x.words).fmt) .rd
      x.walk = .out) :
    s.copyRead l c x [lin] = (s.copyNote x ((Layout.ofWords x.words).source lin)).modCopy c x.num (Copy.gain lin 0) := by
  simp only [State.copyRead, hr]
  rfl

theorem copyRead_fault {f : XFault} (hr : s.engineReach l c ((Layout.ofWords x.words).source lin)
      (typeBytes (Layout.ofWords x.words).fmt) .rd x.walk = .fault f) :
    s.copyRead l c x [lin] = s.copyFail l c x lin f.cause := by
  simp only [State.copyRead, hr]

theorem copyRead_walk {page : Nat} (hr : s.engineReach l c ((Layout.ofWords x.words).source lin)
      (typeBytes (Layout.ofWords x.words).fmt) .rd x.walk = .walk page) :
    s.copyRead l c x [lin] = s.copyWalk l c x.num page := by
  simp only [State.copyRead, hr]

theorem copyRead_busy (hr : s.engineReach l c ((Layout.ofWords x.words).source lin)
      (typeBytes (Layout.ofWords x.words).fmt) .rd x.walk = .busy) : s.copyRead l c x [lin] = s := by
  simp only [State.copyRead, hr]

theorem finished_single (lin : Nat) :
    (fun z : Copy => { z with vals := z.vals.filter (fun v => !([lin].contains v.1)), done := [lin].foldl sadd z.done })
      = Copy.finishAt lin := by
  funext z
  simp [Copy.finishAt, bne, beq_eq_decide]

variable {val : Nat → Word}

theorem copyWrite_key (hr : s.engineReach l c ((Layout.ofWords x.words).target lin) (typeBytes (Layout.ofWords x.words).fmt) .w
      x.walk = .key key) (hs : s.sound key (typeBytes (Layout.ofWords x.words).fmt))
    (hk : ((Layout.ofWords x.words).target lin).toNat % 32 ≤ key) :
    s.copyWrite l c x [lin] val =
      ({ s with mem := writeLE s.mem key (typeBytes (Layout.ofWords x.words).fmt) (val lin).toNat } : State).modCopy c x.num
        (Copy.finishAt lin) := by
  have hkeep (b : Bool) : (if b = true then s.healed key (typeBytes (Layout.ofWords x.words).fmt)
      else s.corrected key (typeBytes (Layout.ofWords x.words).fmt) l.asid) = s := by
    rw [healed_of_sound hs, corrected_of_sound hs, ite_self]
  simp only [State.copyWrite, hr, atomKey_self hk, isBad_of_sound hs, List.find?_cons, List.find?_nil, List.map_cons,
    List.map_nil, Bool.and_false, List.foldl_cons (b := s), List.foldl_nil, hkeep, finished_single]
  rfl

theorem copyWrite_out (hr : s.engineReach l c ((Layout.ofWords x.words).target lin) (typeBytes (Layout.ofWords x.words).fmt) .w
      x.walk = .out) :
    s.copyWrite l c x [lin] val = (s.copyNote x ((Layout.ofWords x.words).target lin)).modCopy c x.num (Copy.finishAt lin) := by
  simp only [State.copyWrite, hr, finished_single]

theorem copyWrite_fault {f : XFault} (hr : s.engineReach l c ((Layout.ofWords x.words).target lin)
      (typeBytes (Layout.ofWords x.words).fmt) .w x.walk = .fault f) :
    s.copyWrite l c x [lin] val = s.copyFail l c x lin f.cause := by
  simp only [State.copyWrite, hr]

theorem copyWrite_busy (hr : s.engineReach l c ((Layout.ofWords x.words).target lin)
      (typeBytes (Layout.ofWords x.words).fmt) .w x.walk = .busy) : s.copyWrite l c x [lin] val = s := by
  simp only [State.copyWrite, hr]

end

/-- A copy has stopped, and its tag has an error. -/
def State.copyStopped (s : State) (c : Nat) (x : Copy) : State :=
  (s.modCopy c x.num fun z => { z with failed := true }).modCore c fun y => { y with
    tagerr := y.tagerr ||| (1#64 <<< x.tag.toNat) }

theorem copyFail_frame (s : State) (l : Launch) (c : Nat) (x : Copy) (lin cause : Nat) :
    ∃ m, s.copyFail l c x lin cause = { s.copyStopped c x with mem := m } := by
  unfold State.copyFail
  exact report_frame (s.copyStopped c x) _ _

section
variable {s : State} {c n lin : Nat} {x : Copy} {l : Launch} (h : Copying s c n lin x l)
include h

/-- A copy that fails has taken the cycle. -/
theorem Copying.fails (cause : Nat) :
    (s.copyFail l c x lin cause).copyBusy c s = s.copyTurn c (s.copyFail l c x lin cause) := by
  obtain ⟨m, hm⟩ := copyFail_frame s l c x lin cause
  rw [hm]
  refine copyBusy_of_changed (f := fun z => { z with failed := true }) h.found (fun he => ?_) ?_ rfl
  · have hf : (true : Bool) = x.failed := congrArg Copy.failed he
    rw [h.whole] at hf
    cases hf
  · change ((s.copyStopped c x).core c).copies = _
    rw [State.copyStopped, State.core_modCore_self, copies_modCopy, h.num]

theorem Copying.gains (u : State) (v : Word) (hv : tget x.vals lin = none) (hu : (u.core c).copies = (s.core c).copies)
    (hclock : u.clock = s.clock) :
    (u.modCopy c x.num (Copy.gain lin v)).copyBusy c s = s.copyTurn c (u.modCopy c n (Copy.gain lin v)) := by
  rw [h.num]
  exact copyBusy_of_changed h.found (Copy.gain_ne hv) (by rw [copies_modCopy, hu]) hclock

theorem Copying.finishes (u : State) (hu : (u.core c).copies = (s.core c).copies) (hclock : u.clock = s.clock) :
    (u.modCopy c x.num (Copy.finishAt lin)).copyBusy c s = s.copyTurn c (u.modCopy c n (Copy.finishAt lin)) := by
  rw [h.num]
  exact copyBusy_of_changed h.found (Copy.finishAt_ne h.fresh) (by rw [copies_modCopy, hu]) hclock

end


/-! ### The end of a copy (R188, R190) -/

section
variable {s : State} {c n : Nat} {x : Copy} (hx : ((s.core c).copies.find? fun y => y.num == n) = some x)
include hx

theorem copyEnd_runs (hwhole : x.failed = false) (hleft : x.done.length < (Layout.ofWords x.words).area) :
    exec (.copyEnd c n) s = .next s := by
  have hexec : exec (.copyEnd c n) s = .next (copyEndStep c n s) := rfl
  rw [hexec, copyEndStep, hx]
  exact congrArg _ (if_pos (by simp [hwhole, hleft]))

theorem copyEnd_ends (hend : x.failed ∨ (Layout.ofWords x.words).area ≤ x.done.length) :
    exec (.copyEnd c n) s = .next (
      let u := s.modCore c fun y => { y with copies := (s.core c).copies.filter fun y => y.num != n }
      if ((s.core c).copyQ ++ (s.core c).copies.filter fun y => y.num != n).any fun y => y.tag == x.tag then u
      else (u.modCore c fun y => { y with tags := y.tags ||| (1#64 <<< x.tag.toNat) }).signal c) := by
  have hexec : exec (.copyEnd c n) s = .next (copyEndStep c n s) := rfl
  have hgoes : ¬ (!x.failed && decide (x.done.length < (Layout.ofWords x.words).area)) = true := by
    rcases hend with hend | hend <;> simp [hend]
  rw [hexec, copyEndStep, hx]
  refine congrArg _ ((if_neg hgoes).trans ?_)
  simp only [State.core_modCore_self]
  rfl

end

/-- Settles O53, clause by clause: the instructions, acceptance, the accesses of a position, what they reach, and the end. -/
theorem copiesMoveTheirElements : Obligations.CopiesMoveTheirElements := by
  unfold Obligations.CopiesMoveTheirElements
  refine ⟨fun s t vf h => cpy_exec h, fun s a h => ⟨cwait_ready h, cwait_exec h⟩, fun s d a i v hi h hv => ?_,
    fun s c x rest hq => ⟨copyAccept_accepts hq, copyAccept_waits hq⟩,
    fun s c n lin x lid l hx hl hfail hready hlin hdone hfree => ?_, fun s l c n a p walk hlocal => ?_, fun s c n x hx => ?_⟩
  · refine lowestTag_exec hi h ?_
    rcases hv with ⟨hnone, rfl⟩ | ⟨hv, hbit, hlow⟩
    · exact firstTag_of_none hnone
    · exact firstTag_of_low hv hbit hlow
  · intro r w src tgt busy change noted fails written harea
    have h : Copying s c n lin x l := ⟨hx, ⟨lid, hl⟩, hfail, hready, hlin, hdone, hfree, harea⟩
    refine ⟨fun hin hdir => h.skips hin hdir, fun hin hnone => ?_, fun v hv => ?_⟩
    · have hread := h.reads hin hnone
      refine ⟨fun key hr hs hk => ?_, fun hr => ?_, fun f hr => ?_, fun page hr hne => ?_, fun hr => ?_⟩
      · rw [hread, copyRead_key hr hs hk, h.gains s _ hnone rfl rfl]
        rfl
      · rw [hread, copyRead_out hr, h.gains (s.copyNote x src) _ hnone rfl rfl]
        rfl
      · change exec (.copyAccess c n lin) s = .next (s.copyTurn c (s.copyFail l c x lin f.cause))
        rw [hread, copyRead_fault hr, h.fails]
      · rw [hread, copyRead_walk hr, h.num, State.copyBusy, if_neg hne]
        rfl
      · rw [hread, copyRead_busy hr, copyBusy_unchanged]
    · obtain ⟨hwrite, rfl⟩ := h.writes hv
      refine ⟨fun key hr hs hk => ?_, fun hr => ?_, fun f hr => ?_, fun hr => ?_⟩
      · rw [hwrite, copyWrite_key hr hs hk, h.finishes ({ s with mem := writeLE s.mem key w (x.val lin).toNat } : State) rfl rfl]
        rfl
      · rw [hwrite, copyWrite_out hr, h.finishes (s.copyNote x tgt) rfl rfl]
        rfl
      · change exec (.copyAccess c n lin) s = .next (s.copyTurn c (s.copyFail l c x lin f.cause))
        rw [hwrite, copyWrite_fault hr, h.fails]
      · rw [hwrite, copyWrite_busy hr, copyBusy_unchanged]
  · exact ⟨engineReach_out hlocal, fun ho hr hk => ⟨engineReach_porter hlocal ho hr hk, engineReach_held hlocal ho hr,
      engineReach_key hlocal ho hr⟩⟩
  · refine ⟨copyEnd_runs hx, fun hend => ⟨fun ⟨y, hy, htag⟩ => ?_, fun hnone => ?_⟩⟩
    · rw [copyEnd_ends hx hend]
      exact congrArg _ (if_pos (List.any_eq_true.2 ⟨y, hy, by simpa using htag⟩))
    · rw [copyEnd_ends hx hend]
      exact congrArg _ (if_neg fun hany => by
        obtain ⟨y, hy, htag⟩ := List.any_eq_true.1 hany
        exact hnone y hy (by simpa using htag))

end Sys2Proof.Machine
end

section
/-!
PROOFS. Launches (O58): images, the load of a launch, suspension, resumption and the kill.
-/

namespace Sys2Proof.Machine

/-! ### Images of a suspension (R285) -/

theorem length_flatMap_const {α β : Type} {f : α → List β} {n : Nat} (xs : List α) (h : ∀ x ∈ xs, (f x).length = n) :
    (xs.flatMap f).length = xs.length * n := by
  rw [List.length_flatMap, List.map_congr_left h]
  simp

/-- Element j of the k-th of some lists of one length, in the lists joined. -/
theorem getElem?_flatMap_const {α β : Type} {f : α → List β} {n : Nat} {xs : List α} (h : ∀ x ∈ xs, (f x).length = n)
    {k j : Nat} {x : α} (hk : xs[k]? = some x) (hj : j < n) : (xs.flatMap f)[n * k + j]? = (f x)[j]? := by
  induction xs generalizing k with
  | nil => simp at hk
  | cons y ys ih =>
    rw [List.flatMap_cons]
    cases k with
    | zero =>
      obtain rfl : y = x := by simpa using hk
      rw [List.getElem?_append_left (by rw [h y (by simp)]; omega)]
      simp
    | succ k =>
      rw [List.getElem?_append_right (by rw [h y (by simp), Nat.mul_succ]; omega), h y (by simp)]
      rw [show n * (k + 1) + j - n = n * k + j by rw [Nat.mul_succ]; omega]
      exact ih (fun z hz => h z (List.mem_cons_of_mem _ hz)) (by simpa using hk)

/-- The sum of the powers of two whose position is named is the number with those bits. -/
theorem testBit_sum_bits (p : Nat → Bool) (n i : Nat) :
    (((List.range n).map fun b => if p b then 0 else 2 ^ b).sum).testBit i = (decide (i < n) && !p i)
      ∧ ((List.range n).map fun b => if p b then 0 else 2 ^ b).sum < 2 ^ n := by
  induction n with
  | zero => simp
  | succ n ih =>
    obtain ⟨hbit, hlt⟩ := ih
    rw [List.range_succ, List.map_append, List.sum_append]
    simp only [List.map_cons, List.map_nil, List.sum_cons, List.sum_nil, Nat.add_zero]
    generalize ((List.range n).map fun b => if p b then 0 else 2 ^ b).sum = m at hbit hlt
    cases hp : p n with
    | true =>
      refine ⟨?_, by simp; omega⟩
      rcases Nat.lt_trichotomy i n with h | rfl | h
      · simp [hbit, h, Nat.lt_succ_of_lt h]
      · simp [hbit, hp]
      · simp [hbit, Nat.not_lt.2 (Nat.le_of_lt h), Nat.not_lt.2 (Nat.succ_le_of_lt h)]
    | false =>
      refine ⟨?_, by simp; omega⟩
      simp only [Bool.false_eq_true, if_false]
      rcases Nat.lt_trichotomy i n with h | rfl | h
      · rw [Nat.add_comm, Nat.testBit_two_pow_add_gt h, hbit]
        simp [h, Nat.lt_succ_of_lt h]
      · rw [Nat.add_comm, Nat.testBit_two_pow_add_eq, hbit]
        simp [hp]
      · rw [Nat.testBit_lt_two_pow (by
          have : 2 ^ (n + 1) ≤ 2 ^ i := Nat.pow_le_pow_right (by omega) h
          omega)]
        simp [Nat.not_lt.2 (Nat.succ_le_of_lt h)]

section
variable (v : Saved) (l : Launch) (k q : Nat)

theorem length_imageTail (x : Core) : x.imageTail.length = 448 := by
  simp only [Core.imageTail, valueWords, padded, List.length_append, List.length_map, List.length_range, List.length_cons,
    List.length_nil, List.length_replicate, Vector.length_toList]
  rw [length_flatMap_const (n := 32) _ (by simp), length_flatMap_const (n := 8) _ (by simp),
    length_flatMap_const (n := 8) _ (by simp)]
  simp

theorem length_coreWords : (v.coreWords l k).length = 8768 := by
  simp [Saved.coreWords, length_imageTail]

theorem coreWords_memory {w : Nat} (h : w < 8192) : (v.coreWords l k).getD w 0 =
    if l.lmLo ≤ 8 * w ∧ 8 * w + 8 ≤ l.lmHi then (readWords v.mem (65536 * k + 8 * w) 1).headD 0 else 0 := by
  simp [Saved.coreWords, List.getD_eq_getElem?_getD, List.getElem?_append, h]

theorem coreWords_full {w : Nat} (h : w < 8192) :
    ((v.coreWords l k).getD (8192 + w / 64) 0).getLsbD (w % 64) = !v.empt.contains (8192 * k + w) := by
  have hw : w / 64 < 128 := by omega
  have hsum : 8192 * k + 64 * (w / 64) + w % 64 = 8192 * k + w := by omega
  have hword : (v.coreWords l k).getD (8192 + w / 64) 0 = BitVec.ofNat 64 (((List.range 64).map fun b =>
      if v.empt.contains (8192 * k + 64 * (w / 64) + b) then 0 else 2 ^ b).sum) := by
    simp [Saved.coreWords, List.getD_eq_getElem?_getD, List.getElem?_append, hw]
  obtain ⟨hbit, -⟩ := testBit_sum_bits (fun b => v.empt.contains (8192 * k + 64 * (w / 64) + b)) 64 (w % 64)
  rw [hword, BitVec.getLsbD_ofNat, hbit, hsum]
  simp [Nat.mod_lt]

theorem length_words (r : OnceRec) : r.words.length = 12 := by simp [OnceRec.words]

/-- The words of a slot's record in a square image. -/
def onceWords (rs : List OnceRec) (i : Nat) : List Word := (rs[i]?.map OnceRec.words).getD (List.replicate 12 0)

theorem length_onceWords (rs : List OnceRec) (i : Nat) : (onceWords rs i).length = 12 := by
  cases h : rs[i]? <;> simp [onceWords, h, length_words]

theorem image_eq (x : Square) :
    x.image = (x.once.toList.take 15).flatMap fun rs => (List.range 16).flatMap (onceWords rs) := by
  unfold Square.image onceWords
  congr 1
  funext rs
  congr 1
  funext i
  cases rs[i]? <;> rfl

theorem length_slotWords (rs : List OnceRec) : ((List.range 16).flatMap (onceWords rs)).length = 192 := by
  rw [length_flatMap_const (n := 12) _ fun i _ => length_onceWords rs i]
  simp

theorem length_squareWords : (v.squareWords q).length = 2880 := by
  rw [Saved.squareWords, image_eq, length_flatMap_const (n := 192) _ fun rs _ => length_slotWords rs]
  simp

theorem squareWords_record {x : Square} {n i w : Nat} {r : OnceRec} (hx : tget v.squares q = some x) (hn : n < 15)
    (hi : i < 16) (hr : x.once[n][i]? = some r) (hw : w < 12) :
    (v.squareWords q).getD (192 * n + 12 * i + w) 0 = r.words.getD w 0 := by
  have hslot : (x.once.toList.take 15)[n]? = some x.once[n] := by simp [hn]
  have hrec : ((List.range 16).flatMap (onceWords x.once[n]))[12 * i + w]? = r.words[w]? := by
    rw [getElem?_flatMap_const (n := 12) (fun i _ => length_onceWords _ i) (x := i) (by simp [hi]) hw, onceWords, hr]
    rfl
  rw [Saved.squareWords, hx, Option.getD_some, image_eq, List.getD_eq_getElem?_getD, Nat.add_assoc,
    getElem?_flatMap_const (n := 192) (fun rs _ => length_slotWords rs) hslot (by omega), hrec, List.getD_eq_getElem?_getD]

end

/-! ### A launch record that is in order (R42 to R45, R272) -/

theorem readWords_eq (m : List Host.Cell) (k n : Nat) :
    readWords m k n = (List.range n).map fun i => BitVec.ofNat 64 (readLE m (k + 8 * i) 8) := by
  induction n generalizing k with
  | zero => rfl
  | succ n ih =>
    rw [readWords, ih, List.range_succ_eq_map, List.map_cons, List.map_map]
    refine congrArg₂ List.cons (by rw [Nat.mul_zero, Nat.add_zero]) (List.map_congr_left fun i _ => ?_)
    simp only [Function.comp_apply, Nat.succ_eq_add_one]
    rw [show k + 8 + 8 * i = k + 8 * (i + 1) by omega]

/-- The record at an address. -/
def State.recordAt (s : State) (at_ : Nat) : List Word := (List.range 24).map fun i => s.loadWord (at_ + 8 * i)

/-- A request whose record, tumblers and root are in order. -/
structure Orderly (s : State) (c : Cmd) (a : LaunchArgs) : Prop where
  slots : a.slotMap.length = 15
  weights : a.weights.length = 16
  aligned : a.record.toNat % 8 = 0
  inHbm : a.record.toNat + 192 ≤ hbmEnd
  readable : ∀ i < 24, s.bankOpen (a.record.toNat + 8 * i) ∧ s.sound (a.record.toNat + 8 * i) 8
  record : recordOk (launchOf (s.recordAt a.record.toNat) c.sc) (s.recordAt a.record.toNat)
  tumblers : s.tumblersFree (launchOf (s.recordAt a.record.toNat) c.sc).tumblers
  root : s.rooted (launchOf (s.recordAt a.record.toNat) c.sc).asid
  rootOpen : s.bankOpen (s.rootTable.toNat + 8 * (launchOf (s.recordAt a.record.toNat) c.sc).asid.toNat)
  rootSound : s.sound (s.rootTable.toNat + 8 * (launchOf (s.recordAt a.record.toNat) c.sc).asid.toNat) 8

/-- The launch of a record on the wards of a grant. -/
def Launch.grantedTo (l : Launch) (a : LaunchArgs) (clock : Nat) (wards : List Nat) : Launch :=
  { l with wards := wards, shape := a.shape, slotMap := a.slotMap, weights := a.weights, endWord := a.endWord, start := clock }

/-- The load of a launch whose record is in order, on what is granted. -/
def State.load? (s : State) (c : Cmd) (a : LaunchArgs) (l : Launch) : Option (List Nat) → State
  | none => s.complete c 1
  | some wards =>
    if !levelsOk (l.grantedTo a s.clock wards) l.levels then s.complete c 1
    else (s.startLaunch s.nextLid (l.grantedTo a s.clock wards)).complete c 0 s.nextLid

theorem corrected_fold {s : State} {k : Nat} (ns : List Nat) (h : ∀ i ∈ ns, s.sound (k + 8 * i) 8) :
    ns.foldl (fun u i => u.corrected (k + 8 * i) 8 0) s = s := by
  induction ns with
  | nil => rfl
  | cons i ns ih =>
    rw [List.foldl_cons, corrected_of_sound (h i (by simp))]
    exact ih fun j hj => h j (List.mem_cons_of_mem _ hj)

theorem Orderly.step {s : State} {c : Cmd} {a : LaunchArgs} (h : Orderly s c a) :
    submitStep c a s = s.load? c a (launchOf (s.recordAt a.record.toNat) c.sc) (s.grantAll a.shape) := by
  obtain ⟨slots, weights, aligned, inHbm, readable, record, tumblers, root, rootOpen, rootSound⟩ := h
  have hopen : ((List.range 24).all fun i => s.bankOpen (a.record.toNat + 8 * i)) = true :=
    List.all_eq_true.2 fun i hi => (readable i (List.mem_range.1 hi)).1
  have hbad : ((List.range 24).find? fun i => s.isBad (a.record.toNat + 8 * i) 8) = none :=
    List.find?_eq_none.2 fun i hi => by simp [isBad_of_sound (readable i (List.mem_range.1 hi)).2]
  have hphys : physOk (s.rootTable.toNat + 8 * (launchOf (s.recordAt a.record.toNat) c.sc).asid.toNat) = true := by
    simp only [State.rooted, Bool.and_eq_true] at root
    exact root.1.1
  have hwords : readWords s.mem a.record.toNat 24 = s.recordAt a.record.toNat := readWords_eq ..
  unfold submitStep
  simp only [hbad, hwords, corrected_fold _ fun i hi => (readable i (List.mem_range.1 hi)).2, corrected_of_sound rootSound,
    hopen, record, tumblers, hphys, rootOpen, isBad_of_sound rootSound, root]
  rw [if_neg (by simp [slots, weights]), if_neg (by simp [aligned]; omega), if_neg (by simp), if_neg (by simp), if_neg (by simp),
    if_neg (by simp), if_neg (by simp)]
  cases s.grantAll a.shape <;> rfl

theorem Orderly.exec_eq {s : State} {c : Cmd} {a : LaunchArgs} (h : Orderly s c a) (hc : s.hears c) :
    exec (.submitLaunch c a) s
      = .next (s.load? c a (launchOf (s.recordAt a.record.toNat) c.sc) (s.grantAll a.shape)) := by
  have hx : exec (.submitLaunch c a) s = .next (s.command c (submitStep c a)) := rfl
  rw [hx, State.command_of_hears hc, h.step]

/-! ### Tumblers and squares of a grant -/

theorem tumbler_modTumbler_self (s : State) (t : Nat) (f : Tumbler → Tumbler) : (s.modTumbler t f).tumbler t = f (s.tumbler t) := by
  simp [State.modTumbler, State.tumbler]

theorem tumbler_modTumbler_ne (s : State) {t k : Nat} (f : Tumbler → Tumbler) (h : k ≠ t) :
    (s.modTumbler t f).tumbler k = s.tumbler k := by
  simp only [State.modTumbler, State.tumbler, tget_tput_ne _ _ h]

theorem square_modSquare_self (s : State) (q : Nat) (f : Square → Square) : (s.modSquare q f).square q = f (s.square q) := by
  simp [State.modSquare, State.square]

theorem square_modSquare_ne (s : State) {q k : Nat} (f : Square → Square) (h : k ≠ q) :
    (s.modSquare q f).square k = s.square k := by
  simp only [State.modSquare, State.square, tget_tput_ne _ _ h]

/-- A change of tumblers that keeps whose they are keeps it through a fold. -/
theorem owner_foldl {α : Type} {f : State → α → State} {t lid : Nat} {xs : List α}
    (hf : ∀ u, ∀ x ∈ xs, (u.tumbler t).owner = some lid → ((f u x).tumbler t).owner = some lid) {s : State}
    (h : (s.tumbler t).owner = some lid) : ((xs.foldl f s).tumbler t).owner = some lid :=
  List.foldlRecOn xs f h fun u hu x hx => hf u x hx hu

theorem giveTumblers_frame (s : State) (lid : Nat) (m : BitVec 32) : ∃ ts, s.giveTumblers lid m = { s with tumblers := ts } := by
  unfold State.giveTumblers
  generalize List.range 32 = ns
  refine List.foldlRecOn ns _ (motive := fun u : State => ∃ ts, u = { s with tumblers := ts }) ⟨s.tumblers, rfl⟩ ?_
  rintro u ⟨ts, rfl⟩ t -
  split
  · exact ⟨_, rfl⟩
  · exact ⟨ts, rfl⟩

theorem giveTumblers_owner (s : State) (lid : Nat) {m : BitVec 32} {t : Nat} (ht : t < 32) (hm : m.getLsbD t) :
    ((s.giveTumblers lid m).tumbler t).owner = some lid := by
  have hsplit : List.range 32 = List.range t ++ t :: (List.range (31 - t)).map (t + 1 + ·) := by
    rw [show 32 = t + (31 - t + 1) by omega, List.range_add, List.range_succ_eq_map]
    simp [Function.comp_def, Nat.add_assoc, Nat.add_comm 1]
  unfold State.giveTumblers
  rw [hsplit, List.foldl_append, List.foldl_cons]
  refine owner_foldl (fun u k _ hu => ?_) ?_
  · split
    · by_cases hk : k = t
      · subst hk
        rw [tumbler_modTumbler_self]
      · rw [tumbler_modTumbler_ne _ _ (Ne.symm hk), hu]
    · exact hu
  · rw [if_pos hm, tumbler_modTumbler_self]

/-- The squares of a launch get their entries written. -/
def State.takeSquares (s : State) (l : Launch) (qs : List Nat) : State :=
  qs.foldl (fun s q => s.modSquare q (grantedSquare (s.writingFor l) l)) s

theorem takeSquares_frame (s : State) (l : Launch) (qs : List Nat) : ∃ ss, s.takeSquares l qs = { s with squares := ss } := by
  unfold State.takeSquares
  refine List.foldlRecOn qs _ (motive := fun u : State => ∃ ss, u = { s with squares := ss }) ⟨s.squares, rfl⟩ ?_
  rintro u ⟨ss, rfl⟩ q -
  exact ⟨_, rfl⟩

theorem takeSquares_service (s : State) (l : Launch) (qs : List Nat) (q : Nat)
    (h : q ∈ qs ∨ (s.square q).service = some (s.writingFor l)) :
    ((s.takeSquares l qs).square q).service = some (s.writingFor l) := by
  induction qs generalizing s with
  | nil => exact h.resolve_left (by simp)
  | cons p qs ih =>
    refine ih (s.modSquare p (grantedSquare (s.writingFor l) l)) ?_
    by_cases hp : q = p
    · subst hp
      exact .inr (by rw [square_modSquare_self]; rfl)
    · rw [square_modSquare_ne _ _ hp]
      exact h.imp_left fun hq => (List.mem_cons.1 hq).resolve_left hp

/-! ### Local memory of a grant (R304) -/

/-- A core's local memory is zero and full. -/
def State.localBlank (s : State) (c : Nat) : Prop := ∀ j < 65536, readByte s.mem (localKey c j) = 0 ∧ s.isFull (localKey c j)

theorem readByte_dropCells (m : List Host.Cell) (k n a : Nat) :
    readByte (dropCells m k n) a = if a < k ∨ k + n ≤ a then readByte m a else 0 := by
  induction m with
  | nil => simp [readByte, dropCells, tget]
  | cons p m ih =>
    obtain ⟨i, x⟩ := p
    simp only [readByte, dropCells, List.filter_cons, tget] at ih ⊢
    by_cases hi : i = a
    · subst hi
      by_cases hout : i < k ∨ k + n ≤ i
      · simp [hout, tget]
      · simpa [hout] using ih
    · split
      · simp only [tget, if_neg hi]
        exact ih
      · simpa [hi] using ih

theorem clearLocal_blank (s : State) (c : Nat) : (s.clearLocal c).localBlank c := by
  intro j hj
  have hkey : localKey c 0 + j = localKey c j := rfl
  refine ⟨?_, ?_⟩
  · rw [State.clearLocal, readByte_dropCells, if_neg (by simp [localKey]; omega)]
  · simp [State.isFull, State.clearLocal, localKey, localBase]
    omega

theorem clearLocal_keeps {s : State} {c d : Nat} (h : s.localBlank c) : (s.clearLocal d).localBlank c := by
  intro j hj
  obtain ⟨hzero, hfull⟩ := h j hj
  refine ⟨?_, ?_⟩
  · rw [State.clearLocal, readByte_dropCells]
    split
    · exact hzero
    · rfl
  · simp only [State.isFull, Bool.not_eq_true', List.contains_eq_mem, decide_eq_false_iff_not] at hfull ⊢
    exact fun hm => hfull (List.mem_filter.1 hm).1

theorem clearLocal_hbm (s : State) (c : Nat) {a : Nat} (h : a < localBase) :
    readByte (s.clearLocal c).mem a = readByte s.mem a := by
  rw [State.clearLocal, readByte_dropCells, if_pos (.inl (by simp only [localKey]; omega))]

/-- The cores of a launch are granted anew. -/
def State.takeCores (s : State) (l : Launch) (cs : List Nat) : State :=
  cs.foldl (fun s c => (s.clearLocal c).setCore c (grantedCore l)) s

theorem takeCores_frame (s : State) (l : Launch) (cs : List Nat) : ∃ m e b f k, s.takeCores l cs =
    { s with mem := m, empt := e, bad := b, soft := f, cores := k } := by
  unfold State.takeCores
  refine List.foldlRecOn cs _ (motive := fun u : State => ∃ m e b f k, u =
    { s with mem := m, empt := e, bad := b, soft := f, cores := k }) ⟨s.mem, s.empt, s.bad, s.soft, s.cores, rfl⟩ ?_
  rintro u ⟨m, e, b, f, k, rfl⟩ c -
  exact ⟨_, _, _, _, _, rfl⟩

theorem takeCores_blank (s : State) (l : Launch) (cs : List Nat) (c : Nat) (h : c ∈ cs ∨ s.localBlank c) :
    (s.takeCores l cs).localBlank c := by
  induction cs generalizing s with
  | nil => exact h.resolve_left (by simp)
  | cons d cs ih =>
    refine ih ((s.clearLocal d).setCore d (grantedCore l)) ?_
    by_cases hd : c = d
    · subst hd
      exact .inr (clearLocal_blank s c)
    · exact h.imp (fun hc => (List.mem_cons.1 hc).resolve_left hd) clearLocal_keeps

theorem takeCores_hbm (s : State) (l : Launch) (cs : List Nat) {a : Nat} (h : a < localBase) :
    readByte (s.takeCores l cs).mem a = readByte s.mem a := by
  unfold State.takeCores
  exact List.foldlRecOn cs _ (motive := fun u : State => readByte u.mem a = readByte s.mem a) rfl fun u hu c _ =>
    (clearLocal_hbm u c h).trans hu

/-! ### Level-0 threads (R48) -/

/-- Threads have only been added, under the numbers from the next one on. -/
structure Grown (s u : State) : Prop where
  next : s.nextTid ≤ u.nextTid
  old : ∀ tid < s.nextTid, tget u.threads tid = tget s.threads tid

/-- A thread that stands as t has been added since s. -/
def State.added (u s : State) (t : Thread) : Prop := ∃ tid, s.nextTid ≤ tid ∧ tid < u.nextTid ∧ tget u.threads tid = some t

theorem Grown.refl (s : State) : Grown s s := ⟨Nat.le_refl _, fun _ _ => rfl⟩

theorem Grown.trans {s u v : State} (h : Grown s u) (g : Grown u v) : Grown s v :=
  ⟨h.next.trans g.next, fun tid ht => (g.old tid (Nat.lt_of_lt_of_le ht h.next)).trans (h.old tid ht)⟩

theorem Grown.foldl {α : Type} {f : State → α → State} (hf : ∀ u x, Grown u (f u x)) (xs : List α) (s : State) :
    Grown s (xs.foldl f s) :=
  List.foldlRecOn xs f (Grown.refl s) fun u hu x _ => hu.trans (hf u x)

theorem State.added.keep {s u v : State} {t : Thread} (h : u.added s t) (g : Grown u v) : v.added s t := by
  obtain ⟨tid, hs, hu, ht⟩ := h
  exact ⟨tid, hs, Nat.lt_of_lt_of_le hu g.next, (g.old tid hu).trans ht⟩

theorem State.added.since {s u v : State} {t : Thread} (h : v.added u t) (g : Grown s u) : v.added s t := by
  obtain ⟨tid, hu, hv, ht⟩ := h
  exact ⟨tid, g.next.trans hu, hv, ht⟩

theorem added_foldl {α : Type} {f : State → α → State} {t : Thread} {x : α} {xs : List α} (hf : ∀ u x, Grown u (f u x))
    (hx : x ∈ xs) (ht : ∀ u : State, (f u x).added u t) (s : State) : (xs.foldl f s).added s t := by
  obtain ⟨as, bs, rfl⟩ := List.append_of_mem hx
  rw [List.foldl_append, List.foldl_cons]
  exact ((ht _).keep (Grown.foldl hf bs _)).since (Grown.foldl hf as s)

/-- One level-0 thread starts. -/
def State.startUnit (s : State) (lid : Nat) (l : Launch) (c n : Nat) : State :=
  ({ s with threads := tput s.threads s.nextTid (launchThread lid l c n), nextTid := s.nextTid + 1 } : State).modSlot (l.coreOf c) n
    fun x => { x.seat s.nextTid with level := (launchThread lid l c n).level }

theorem startThreads_eq (s : State) (lid : Nat) (l : Launch) (c : Nat) :
    s.startThreads lid l c = (List.range ((l.levels.head?.map Level.count).getD 0)).foldl (fun u n => u.startUnit lid l c n) s := rfl

theorem startUnit_grown (s : State) (lid : Nat) (l : Launch) (c n : Nat) : Grown s (s.startUnit lid l c n) :=
  ⟨Nat.le_succ _, fun _ h => tget_tput_ne _ _ (Nat.ne_of_lt h)⟩

theorem startUnit_added (s : State) (lid : Nat) (l : Launch) (c n : Nat) :
    (s.startUnit lid l c n).added s (launchThread lid l c n) :=
  ⟨s.nextTid, Nat.le_refl _, Nat.lt_succ_self _, tget_tput_self ..⟩

theorem startThreads_grown (s : State) (lid : Nat) (l : Launch) (c : Nat) : Grown s (s.startThreads lid l c) := by
  rw [startThreads_eq]
  exact Grown.foldl (fun u n => startUnit_grown u lid l c n) _ s

theorem startThreads_added (s : State) (lid : Nat) {l : Launch} (c : Nat) {n : Nat} {v : Level} (hv : l.levels.head? = some v)
    (hn : n < v.count) : (s.startThreads lid l c).added s (launchThread lid l c n) := by
  rw [startThreads_eq, hv]
  exact added_foldl (fun u n => startUnit_grown u lid l c n) (List.mem_range.2 hn) (fun u => startUnit_added u lid l c n) s

theorem startThreads_frame (s : State) (lid : Nat) (l : Launch) (c : Nat) :
    ∃ th n k, s.startThreads lid l c = { s with threads := th, nextTid := n, cores := k } := by
  rw [startThreads_eq]
  generalize List.range ((l.levels.head?.map Level.count).getD 0) = ns
  refine List.foldlRecOn ns _ (motive := fun u : State => ∃ th n k, u = { s with threads := th, nextTid := n, cores := k })
    ⟨s.threads, s.nextTid, s.cores, rfl⟩ ?_
  rintro u ⟨th, n, k, rfl⟩ m -
  exact ⟨_, _, _, rfl⟩

/-! ### A district is made ready (R272, R304) -/

/-- The launch stands among the launches and has its tumblers. -/
def State.grantsTo (s : State) (lid : Nat) (l : Launch) : State :=
  { s.giveTumblers lid l.tumblers with
    launches := tput (s.giveTumblers lid l.tumblers).launches lid l, writing := (s.giveTumblers lid l.tumblers).writing + 1 }

theorem prepare_eq (s : State) (lid : Nat) (l : Launch) :
    s.prepare lid l = ((s.grantsTo lid l).takeSquares l l.allSquares).takeCores l l.allCores := rfl

theorem grantsTo_frame (s : State) (lid : Nat) (l : Launch) : ∃ ts, s.grantsTo lid l =
    { s with tumblers := ts, launches := tput s.launches lid l, writing := s.writing + 1 } := by
  obtain ⟨ts, h⟩ := giveTumblers_frame s lid l.tumblers
  exact ⟨ts, by rw [State.grantsTo, h]⟩

/-- What making a district ready leaves alone. -/
structure Prepared (s u : State) (lid : Nat) (l : Launch) : Prop where
  frame : u = { s with launches := tput s.launches lid l, writing := s.writing + 1, tumblers := u.tumblers
                       squares := u.squares, mem := u.mem, empt := u.empt, bad := u.bad, soft := u.soft, cores := u.cores }
  blank : ∀ c ∈ l.allCores, u.localBlank c
  hbm : ∀ a < localBase, readByte u.mem a = readByte s.mem a
  squares : ∀ q ∈ l.allSquares, (u.square q).service = some { num := s.writing + 1, streets := s.streets, wards := l.wards }
  tumblers : ∀ t < 32, l.tumblers.getLsbD t → (u.tumbler t).owner = some lid

theorem prepare_prepared (s : State) (lid : Nat) (l : Launch) : Prepared s (s.prepare lid l) lid l := by
  obtain ⟨ts, hg⟩ := grantsTo_frame s lid l
  obtain ⟨ss, hss⟩ := takeSquares_frame (s.grantsTo lid l) l l.allSquares
  obtain ⟨m, e, b, f, k, hc⟩ := takeCores_frame ((s.grantsTo lid l).takeSquares l l.allSquares) l l.allCores
  have hmem : ((s.grantsTo lid l).takeSquares l l.allSquares).mem = s.mem := by rw [hss, hg]
  have hsquares : (s.prepare lid l).squares = ((s.grantsTo lid l).takeSquares l l.allSquares).squares := by rw [prepare_eq, hc]
  have htumblers : (s.prepare lid l).tumblers = (s.giveTumblers lid l.tumblers).tumblers := by
    rw [prepare_eq, hc, hss]
    rfl
  have hwriting : (s.grantsTo lid l).writingFor l = { num := s.writing + 1, streets := s.streets, wards := l.wards } := by
    rw [hg]
    rfl
  refine ⟨by rw [prepare_eq, hc, hss, hg], fun c hcore => takeCores_blank _ l _ c (.inl hcore), fun a ha => ?_, fun q hq => ?_,
    fun t ht hm => ?_⟩
  · rw [prepare_eq, takeCores_hbm _ l _ ha, hmem]
  · rw [State.square, hsquares]
    exact hwriting ▸ takeSquares_service _ l _ q (.inl hq)
  · rw [State.tumbler, htumblers]
    exact giveTumblers_owner s lid ht hm

theorem coreOf_mem_allCores {l : Launch} {k : Nat} (h : k < l.cores) : l.coreOf k ∈ l.allCores := by
  have hward : k / 64 < l.wards.length := by simp only [Launch.cores] at h; omega
  simp only [Launch.allCores, Launch.coreOf, List.mem_flatMap, List.mem_map, List.mem_range]
  exact ⟨l.wards.getD (k / 64) 0, by simp [List.getD_eq_getElem?_getD, hward], k % 64, by omega, rfl⟩

/-! ### The load -/

theorem startThreads_fold_frame (s : State) (lid : Nat) (l : Launch) (ks : List Nat) :
    ∃ th n k, ks.foldl (fun u c => u.startThreads lid l c) s = { s with threads := th, nextTid := n, cores := k } := by
  refine List.foldlRecOn ks _ (motive := fun u : State => ∃ th n k, u = { s with threads := th, nextTid := n, cores := k })
    ⟨s.threads, s.nextTid, s.cores, rfl⟩ ?_
  rintro u ⟨th, n, k, rfl⟩ c -
  obtain ⟨th', n', k', h⟩ := startThreads_frame { s with threads := th, nextTid := n, cores := k } lid l c
  exact ⟨th', n', k', h⟩

theorem startLaunch_added (s : State) (lid : Nat) {l : Launch} {k n : Nat} {v : Level} (hk : k < l.cores)
    (hv : l.levels.head? = some v) (hn : n < v.count) : (s.startLaunch lid l).added s (launchThread lid l k n) := by
  have hprep := (prepare_prepared s lid l).frame
  have hfold : ((List.range l.cores).foldl (fun u c => u.startThreads lid l c) (s.prepare lid l)).added (s.prepare lid l)
      (launchThread lid l k n) :=
    added_foldl (fun u c => startThreads_grown u lid l c) (List.mem_range.2 hk) (fun u => startThreads_added u lid k hv hn) _
  obtain ⟨tid, hlo, hhi, ht⟩ := hfold
  rw [hprep] at hlo
  exact ⟨tid, hlo, hhi, ht⟩

/-- What the load of a launch makes of the machine. -/
structure Loaded (s u : State) (lid : Nat) (l : Launch) : Prop where
  frame : u = { s with launches := tput s.launches lid l, nextLid := lid + 1, writing := s.writing + 1
                       mem := u.mem, empt := u.empt, bad := u.bad, soft := u.soft, tumblers := u.tumblers
                       squares := u.squares, cores := u.cores, threads := u.threads, nextTid := u.nextTid }
  blank : ∀ k < l.cores, u.localBlank (l.coreOf k)
  hbm : ∀ a < localBase, readByte u.mem a = readByte s.mem a
  squares : ∀ q ∈ l.allSquares, (u.square q).service = some { num := s.writing + 1, streets := s.streets, wards := l.wards }
  tumblers : ∀ t < 32, l.tumblers.getLsbD t → (u.tumbler t).owner = some lid
  threads : ∀ k < l.cores, ∀ v, l.levels.head? = some v → ∀ n < v.count, u.added s (launchThread lid l k n)

theorem startLaunch_loaded (s : State) (lid : Nat) (l : Launch) : Loaded s (s.startLaunch lid l) lid l := by
  obtain ⟨frame, blank, hbm, squares, tumblers⟩ := prepare_prepared s lid l
  obtain ⟨th, n, k, hfold⟩ := startThreads_fold_frame (s.prepare lid l) lid l (List.range l.cores)
  have hstart : s.startLaunch lid l = { s.prepare lid l with threads := th, nextTid := n, cores := k, nextLid := lid + 1 } := by
    rw [State.startLaunch, hfold]
  refine ⟨?_, fun c hc => ?_, fun a ha => ?_, fun q hq => ?_, fun t ht hm => ?_,
    fun k hk v hv n hn => startLaunch_added s lid hk hv hn⟩
  · rw [hstart, frame]
  · rw [hstart]
    exact blank _ (coreOf_mem_allCores hc)
  · rw [hstart]
    exact hbm a ha
  · rw [hstart]
    exact squares q hq
  · rw [hstart]
    exact tumblers t ht hm

/-! ### A launch closes (R284) -/

theorem foldl_max_spec {α : Type} (g : α → Nat) (xs : List α) (m : Nat) :
    m ≤ xs.foldl (fun m x => max m (g x)) m ∧ (∀ x ∈ xs, g x ≤ xs.foldl (fun m x => max m (g x)) m)
      ∧ (xs.foldl (fun m x => max m (g x)) m = m ∨ ∃ x ∈ xs, g x = xs.foldl (fun m x => max m (g x)) m) := by
  induction xs generalizing m with
  | nil => simp
  | cons y ys ih =>
    obtain ⟨hm, hall, hhit⟩ := ih (max m (g y))
    rw [List.foldl_cons]
    refine ⟨by omega, fun x hx => ?_, ?_⟩
    · rcases List.mem_cons.1 hx with rfl | hx
      · omega
      · exact hall x hx
    · rcases hhit with hhit | ⟨x, hx, hhit⟩
      · rcases Nat.le_total (g y) m with h | h
        · exact .inl (by omega)
        · exact .inr ⟨y, by simp, by omega⟩
      · exact .inr ⟨x, List.mem_cons_of_mem _ hx, hhit⟩

/-- Only bounds on the `mrot` commands of cores have been set. -/
structure Capped (s u : State) : Prop where
  frame : u = { s with cores := u.cores }
  core : ∀ k, u.core k = { s.core k with mrotMax := (u.core k).mrotMax }

theorem Capped.refl (s : State) : Capped s s := ⟨rfl, fun _ => rfl⟩

theorem Capped.cap {s u : State} (h : Capped s u) (c most : Nat) :
    Capped s (u.modCore c fun x => { x with mrotMax := some most }) := by
  refine ⟨by rw [h.frame]; rfl, fun k => ?_⟩
  by_cases hk : k = c
  · subst hk
    rw [State.core_modCore_self, h.core]
  · rw [State.core_modCore_ne _ _ hk]
    exact h.core k

/-- The cores of a ward. -/
def wardCores (w : Nat) : List Nat := (List.range 64).map fun n => w * 64 + n

theorem mem_wardCores {w k : Nat} : k ∈ wardCores w ↔ k / 64 = w := by
  simp only [wardCores, List.mem_map, List.mem_range]
  exact ⟨fun ⟨n, hn, hk⟩ => by omega, fun hk => ⟨k % 64, by omega, by omega⟩⟩

/-- The largest count of taken `mrot` commands in a ward. -/
def State.wardMost (s : State) (w : Nat) : Nat := (wardCores w).foldl (fun m c => max m (s.core c).mrotCount) 0

theorem wardMost_spec (s : State) (w : Nat) : (∀ n < 64, (s.core (w * 64 + n)).mrotCount ≤ s.wardMost w)
    ∧ ∃ n < 64, (s.core (w * 64 + n)).mrotCount = s.wardMost w := by
  obtain ⟨-, hall, hhit⟩ := foldl_max_spec (fun c => (s.core c).mrotCount) (wardCores w) 0
  have hle : ∀ n < 64, (s.core (w * 64 + n)).mrotCount ≤ s.wardMost w := fun n hn =>
    hall _ (mem_wardCores.2 (by omega))
  refine ⟨hle, ?_⟩
  rcases hhit with hzero | ⟨k, hk, hhit⟩
  · have h0 := hle 0 (by omega)
    have hz : s.wardMost w = 0 := hzero
    exact ⟨0, by omega, by omega⟩
  · have hk' := mem_wardCores.1 hk
    exact ⟨k % 64, by omega, by rw [show w * 64 + k % 64 = k by omega]; exact hhit⟩

theorem Capped.wardMost {s u : State} (h : Capped s u) (w : Nat) : u.wardMost w = s.wardMost w := by
  have hcount : (fun (m c : Nat) => max m (u.core c).mrotCount) = fun m c => max m (s.core c).mrotCount := by
    funext m c
    rw [h.core c]
  rw [State.wardMost, State.wardMost, hcount]

/-- The cores of some list get a bound. -/
def State.capAll (s : State) (most : Nat) (cs : List Nat) : State :=
  cs.foldl (fun s c => s.modCore c fun x => { x with mrotMax := some most }) s

theorem Capped.capAll {s u : State} (h : Capped s u) (most : Nat) (cs : List Nat) : Capped s (u.capAll most cs) := by
  unfold State.capAll
  exact List.foldlRecOn cs _ (motive := fun v : State => Capped s v) h fun v hv c _ => hv.cap c most

theorem capAll_mrotMax (s : State) (most : Nat) (cs : List Nat) (k : Nat) :
    ((s.capAll most cs).core k).mrotMax = if k ∈ cs then some most else (s.core k).mrotMax := by
  induction cs generalizing s with
  | nil => simp [State.capAll]
  | cons c cs ih =>
    refine (ih (s.modCore c fun x => { x with mrotMax := some most })).trans ?_
    by_cases hk : k = c
    · subst hk
      simp [State.core_modCore_self]
    · simp [State.core_modCore_ne _ _ hk, hk]

theorem closeWards_eq (s : State) (l : Launch) :
    s.closeWards l = l.wards.foldl (fun u w => u.capAll (u.wardMost w) (wardCores w)) s := by
  simp only [State.closeWards, State.capAll, State.wardMost, wardCores]

/-- Each ward's cores stop at the largest count among them. -/
def State.stopsAlike (u s : State) (w : Nat) : Prop := ∀ n < 64, (u.core (w * 64 + n)).mrotMax = some (s.wardMost w)

theorem closeFold_spec (s : State) (ws : List Nat) (u : State) (h : Capped s u) :
    Capped s (ws.foldl (fun u w => u.capAll (u.wardMost w) (wardCores w)) u)
      ∧ ∀ w, (w ∈ ws ∨ u.stopsAlike s w) → (ws.foldl (fun u w => u.capAll (u.wardMost w) (wardCores w)) u).stopsAlike s w := by
  induction ws generalizing u with
  | nil => exact ⟨h, fun w hw => hw.resolve_left (by simp)⟩
  | cons v ws ih =>
    rw [List.foldl_cons]
    obtain ⟨hcap, hall⟩ := ih _ (h.capAll (u.wardMost v) (wardCores v))
    refine ⟨hcap, fun w hw => hall w ?_⟩
    by_cases hv : w = v
    · subst hv
      refine .inr fun n hn => ?_
      rw [capAll_mrotMax, if_pos (mem_wardCores.2 (by omega)), h.wardMost]
    · refine hw.imp (fun hm => (List.mem_cons.1 hm).resolve_left hv) fun hs n hn => ?_
      rw [capAll_mrotMax, if_neg fun hm => hv (by have := mem_wardCores.1 hm; omega)]
      exact hs n hn

theorem closeWards_capped (s : State) (l : Launch) : Capped s (s.closeWards l) :=
  closeWards_eq s l ▸ (closeFold_spec s l.wards s (Capped.refl s)).1

theorem closeWards_stops (s : State) {l : Launch} {w : Nat} (hw : w ∈ l.wards) : (s.closeWards l).stopsAlike s w :=
  closeWards_eq s l ▸ (closeFold_spec s l.wards s (Capped.refl s)).2 w (.inl hw)

/-! ### Held records are refused -/

theorem refuse_frame (s : State) (id : Nat) (m : Msg) :
    ∃ n q th b, s.refuse id m = { s with net := n, sq := q, threads := th, mem := b } := by
  unfold State.refuse
  extract_lets s1 s2 s3 asid
  obtain ⟨b, hb⟩ := report_frame s3 (dieOf m.dst)
    { cause := 0x43, core := s3.coreLabel m.dst, detail := BitVec.ofNat 64 m.score, asid := asid }
  rw [hb]
  cases hm : m.tid with
  | none => exact ⟨_, _, _, _, by simp only [s3, hm]; rfl⟩
  | some t => exact ⟨_, _, _, _, by simp only [s3, hm]; rfl⟩

theorem refuseHeld_frame (s : State) (c : Nat) :
    ∃ n q th b k, s.refuseHeld c = { s with net := n, sq := q, threads := th, mem := b, cores := k } := by
  unfold State.refuseHeld
  split
  · exact ⟨s.net, s.sq, s.threads, s.mem, s.cores, rfl⟩
  · extract_lets u
    have hu : ∃ n q th b, u = { s with net := n, sq := q, threads := th, mem := b } := by
      refine List.foldlRecOn (s.core c).held _ (motive := fun u : State => ∃ n q th b, u =
        { s with net := n, sq := q, threads := th, mem := b }) ⟨s.net, s.sq, s.threads, s.mem, rfl⟩ ?_
      rintro v ⟨n, q, th, b, hv⟩ h -
      split
      · obtain ⟨n', q', th', b', hr⟩ := refuse_frame v h.1 _
        rw [hr, hv]
        exact ⟨_, _, _, _, rfl⟩
      · exact ⟨n, q, th, b, hv⟩
    obtain ⟨n, q, th, b, hu⟩ := hu
    rw [hu]
    exact ⟨_, _, _, _, _, rfl⟩

/-- Records held toward the cores of a launch are refused. -/
def State.refuseAll (s : State) (l : Launch) : State := l.allCores.foldl (fun u k => u.refuseHeld k) s

theorem refuseAll_frame (s : State) (l : Launch) :
    ∃ n q th b k, s.refuseAll l = { s with net := n, sq := q, threads := th, mem := b, cores := k } := by
  unfold State.refuseAll
  refine List.foldlRecOn l.allCores _ (motive := fun u : State => ∃ n q th b k, u =
    { s with net := n, sq := q, threads := th, mem := b, cores := k }) ⟨s.net, s.sq, s.threads, s.mem, s.cores, rfl⟩ ?_
  rintro v ⟨n, q, th, b, k, hv⟩ c -
  obtain ⟨n', q', th', b', k', hr⟩ := refuseHeld_frame v c
  rw [hr, hv]
  exact ⟨_, _, _, _, _, rfl⟩

theorem launches_refuseAll (s : State) (l : Launch) : (s.refuseAll l).launches = s.launches := by
  obtain ⟨_, _, _, _, _, h⟩ := refuseAll_frame s l
  rw [h]

/-! ### The command that suspends (R284) -/

section
variable {s : State} {c : Cmd} {lid : Nat} {l : Launch} (hc : s.hears c)
include hc

theorem suspendLaunch_exec : exec (.suspendLaunch c lid) s = .next (suspendStep c lid s) := by
  have hx : exec (.suspendLaunch c lid) s = .next (s.command c (suspendStep c lid)) := rfl
  rw [hx, State.command_of_hears hc]

theorem suspendLaunch_unknown (hl : tget s.launches lid = none) :
    exec (.suspendLaunch c lid) s = .next ((s.forget (.suspendLaunch c lid)).complete c 1) := by
  rw [suspendLaunch_exec hc, suspendStep, State.launch?, hl]

theorem resumeLaunch_unknown (hl : tget s.launches lid = none) : exec (.resumeLaunch c lid) s = .next (s.complete c 1) := by
  have hx : exec (.resumeLaunch c lid) s = .next (s.command c (resumeStep c lid)) := rfl
  rw [hx, State.command_of_hears hc, resumeStep, State.launch?, hl]

theorem killLaunch_unknown (hl : tget s.launches lid = none) : exec (.killLaunch c lid) s = .next (s.complete c 1) := by
  have hx : exec (.killLaunch c lid) s = .next (s.command c (killLaunchStep c lid)) := rfl
  rw [hx, State.command_of_hears hc, killLaunchStep, State.launch?, hl]

/-- The state once a launch has begun to close. -/
def closingState (s : State) (c : Cmd) (lid : Nat) (l : Launch) : State :=
  { s.closeWards l with
    launches := tput s.launches lid { l with closing := true }, pending := s.pending ++ [.suspendLaunch c lid] }

omit hc in
theorem closing_cores (s : State) (c : Cmd) (lid : Nat) (l : Launch) (k : Nat) :
    (closingState s c lid l).core k = (s.closeWards l).core k := State.core_congr rfl k

theorem suspendLaunch_closes (hl : tget s.launches lid = some l) (hi : .suspendLaunch c lid ∉ s.pending)
    (hs : l.suspended = false) (hclosing : l.closing = false) :
    exec (.suspendLaunch c lid) s = .next (closingState s c lid l) := by
  have hframe := (closeWards_capped s l).frame
  have hlaunches : (s.closeWards l).launches = s.launches := by rw [hframe]
  have hpending : (s.closeWards l).pending = s.pending := by rw [hframe]
  rw [suspendLaunch_exec hc, suspendStep, State.launch?, hl]
  simp only [List.contains_eq_mem, hi, hs, hclosing, decide_false, Bool.false_eq_true, if_false, Bool.or_self]
  rw [State.modLaunch_of _ _ (hlaunches ▸ hl), hlaunches, hpending]
  rfl

theorem suspendLaunch_refused (hl : tget s.launches lid = some l) (hi : .suspendLaunch c lid ∉ s.pending)
    (h : l.suspended ∨ l.closing) : exec (.suspendLaunch c lid) s = .next (s.complete c 1) := by
  have h' : (l.suspended || l.closing) = true := by simpa using h
  rw [suspendLaunch_exec hc, suspendStep, State.launch?, hl]
  simp only [List.contains_eq_mem, hi, h', decide_false, Bool.false_eq_true, if_false, if_true]

theorem suspendLaunch_goesOn (hl : tget s.launches lid = some l) (hi : .suspendLaunch c lid ∈ s.pending) :
    exec (.suspendLaunch c lid) s = .next (if (s.refuseAll l).suspendable lid l then
      (((s.refuseAll l).forget (.suspendLaunch c lid)).suspendNow lid l).complete c 0 else s.refuseAll l) := by
  rw [suspendLaunch_exec hc, suspendStep, State.launch?, hl]
  simp only [List.contains_eq_mem, hi, decide_true, if_true]
  rfl

end

/-- What a suspension leaves of a launch. -/
structure Suspended (s u : State) (lid : Nat) (l : Launch) (v : Saved) : Prop where
  launch : tget u.launches lid = some { l with suspended := true, closing := false, saved := some v }
  cores : ∀ k, l.owns k → tget u.cores k = none
  others : ∀ j, j ≠ lid → tget u.launches j = tget s.launches j
  tumblers : ∀ p ∈ u.tumblers, p.2.owner ≠ some lid

theorem tget_filter_removed {α : Type} {m : Tbl α} {k : Nat} {f : Nat × α → Bool} (h : ∀ x, f (k, x) = false) :
    tget (m.filter f) k = none := by
  rw [tget_eq_none_iff]
  rintro ⟨j, x⟩ hp rfl
  have hf := (List.mem_filter.1 hp).2
  rw [h x] at hf
  cases hf

theorem owner_released {m : Tbl Tumbler} {lid : Nat} :
    ∀ p ∈ m.map (fun p => if p.2.owner == some lid then (p.1, { p.2 with owner := none }) else p), p.2.owner ≠ some lid := by
  intro p hp
  obtain ⟨q, -, rfl⟩ := List.mem_map.1 hp
  split
  · simp
  · next h => simpa using h

theorem suspendNow_suspended (s : State) (lid : Nat) (l : Launch) : Suspended s (s.suspendNow lid l) lid l (s.savedOf l) := by
  have hlaunches : (s.suspendNow lid l).launches
      = tput s.launches lid { l with suspended := true, closing := false, saved := some (s.savedOf l) } :=
    congrArg (tput · lid _) (launches_refuseAll s l)
  refine ⟨by rw [hlaunches, tget_tput_self], fun k hk => tget_filter_removed fun x => by simp [hk], fun j hj => ?_, owner_released⟩
  rw [hlaunches, tget_tput_ne _ _ hj]

theorem savedOf_forget (s : State) (i : Instr) (l : Launch) : (s.forget i).savedOf l = s.savedOf l := rfl

/-! ### Wards of a grant are distinct (R40, R272) -/

theorem rectangle_nodup (die x y : Nat) {w : Nat} (h : Nat) (hx : x + w ≤ 8) : (rectangle die x y w h).Nodup := by
  unfold rectangle
  rw [List.nodup_flatMap]
  refine ⟨fun j _ => (List.nodup_range).map fun a b hab => by simpa using hab, ?_⟩
  refine List.Pairwise.imp_of_mem (fun {j k} _ _ hjk => ?_) (List.nodup_range (n := h))
  rw [Function.onFun, List.disjoint_left]
  intro a ha hb
  simp only [List.mem_map, List.mem_range] at ha hb
  obtain ⟨i, hi, rfl⟩ := ha
  obtain ⟨i', hi', he⟩ := hb
  omega

theorem grantOn_spec {s : State} {taken ws : List Nat} {die w h : Nat} (hg : s.grantOn taken die w h = some ws) :
    ws.Nodup ∧ ∀ n ∈ ws, n ∉ taken := by
  unfold State.grantOn at hg
  split at hg
  · cases hg
  · extract_lets places at hg
    obtain ⟨p, hp, rfl⟩ := Option.map_eq_some_iff.1 hg
    have hfree := List.find?_some hp
    have hplace := List.mem_of_find?_eq_some hp
    simp only [places, List.mem_flatMap, List.mem_map, List.mem_range] at hplace
    obtain ⟨y, hy, x, hx, rfl⟩ := hplace
    refine ⟨rectangle_nodup _ _ _ _ (by dsimp only; omega), fun n hn => ?_⟩
    have hn' := List.all_eq_true.1 hfree n hn
    simp only [Bool.and_eq_true, Bool.not_eq_true', List.contains_eq_mem, decide_eq_false_iff_not] at hn'
    exact hn'.2

theorem grantFrom_nodup {s : State} {taken ws : List Nat} {shape : List (Nat × Nat × Nat)} (ht : taken.Nodup)
    (hg : s.grantFrom taken shape = some ws) : ws.Nodup := by
  induction shape generalizing taken with
  | nil =>
    cases hg
    exact ht
  | cons p r ih =>
    unfold State.grantFrom at hg
    split at hg
    · next us hu =>
      obtain ⟨hus, hfresh⟩ := grantOn_spec hu
      exact ih (List.nodup_append'.2 ⟨ht, hus, List.disjoint_left.2 fun a ha hb => hfresh a hb ha⟩) hg
    · cases hg

theorem grantAll_nodup {s : State} {ws : List Nat} {shape : List (Nat × Nat × Nat)} (hg : s.grantAll shape = some ws) :
    ws.Nodup := by
  unfold State.grantAll at hg
  split at hg
  · next us hu =>
    split at hg
    · cases hg
    · cases hg
      exact grantFrom_nodup List.nodup_nil hu
  · cases hg

theorem coreOf_inj {l : Launch} (hw : l.wards.Nodup) {j k : Nat} (hj : j < l.cores) (hk : k < l.cores)
    (h : l.coreOf j = l.coreOf k) : j = k := by
  simp only [Launch.cores] at hj hk
  have hj' : j / 64 < l.wards.length := by omega
  have hk' : k / 64 < l.wards.length := by omega
  simp only [Launch.coreOf, List.getD_eq_getElem?_getD, List.getElem?_eq_getElem hj', List.getElem?_eq_getElem hk',
    Option.getD_some] at h
  have hward : l.wards[j / 64] = l.wards[k / 64] := by omega
  have hidx : j / 64 = k / 64 := hw.getElem_inj_iff.1 hward
  omega

/-! ### What comes back (R284, R285) -/

/-- The images of cores are put on the new cores. -/
def State.restoreCores (s : State) (l : Launch) (ps : Tbl Core) : State :=
  ps.foldl (fun s p => s.setCore (l.coreOf p.1) (coreImage (grantedCore l) p.2 l.coreOf)) s

theorem restoreCores_frame (s : State) (l : Launch) (ps : Tbl Core) : ∃ k, s.restoreCores l ps = { s with cores := k } := by
  unfold State.restoreCores
  refine List.foldlRecOn ps _ (motive := fun u : State => ∃ k, u = { s with cores := k }) ⟨s.cores, rfl⟩ ?_
  rintro u ⟨k, rfl⟩ p -
  exact ⟨_, rfl⟩

theorem restoreCores_core (s : State) (l : Launch) (ps : Tbl Core) (p : Nat × Core)
    (hone : ∀ q ∈ ps, l.coreOf q.1 = l.coreOf p.1 → q = p)
    (h : p ∈ ps ∨ s.core (l.coreOf p.1) = coreImage (grantedCore l) p.2 l.coreOf) :
    (s.restoreCores l ps).core (l.coreOf p.1) = coreImage (grantedCore l) p.2 l.coreOf := by
  induction ps generalizing s with
  | nil => exact h.resolve_left (by simp)
  | cons q ps ih =>
    refine ih (s.setCore (l.coreOf q.1) (coreImage (grantedCore l) q.2 l.coreOf))
      (fun r hr => hone r (List.mem_cons_of_mem _ hr)) ?_
    by_cases hq : l.coreOf q.1 = l.coreOf p.1
    · obtain rfl := hone q (by simp) hq
      exact .inr (State.core_setCore_self ..)
    · refine h.imp (fun hp => (List.mem_cons.1 hp).resolve_left fun he => hq (by rw [he])) fun hp => ?_
      rw [State.core_setCore_ne _ _ (Ne.symm hq), hp]

/-- The once records of squares are put back. -/
def State.restoreSquares (s : State) (l : Launch) (qs : Tbl Square) : State :=
  qs.foldl (fun s p => s.modSquare (l.squareOf p.1) fun q => { q with once := p.2.once }) s

theorem restoreSquares_frame (s : State) (l : Launch) (qs : Tbl Square) :
    ∃ ss, s.restoreSquares l qs = { s with squares := ss } := by
  unfold State.restoreSquares
  refine List.foldlRecOn qs _ (motive := fun u : State => ∃ ss, u = { s with squares := ss }) ⟨s.squares, rfl⟩ ?_
  rintro u ⟨ss, rfl⟩ p -
  exact ⟨_, rfl⟩

/-- The contents of tumblers are put back. -/
def State.restoreTumblers (s : State) (ts : List (Nat × Word × BitVec 672 × BitVec 2048)) : State :=
  ts.foldl (fun s p => s.modTumbler p.1 fun x => { x with base := p.2.1, bits := p.2.2.1, counters := p.2.2.2 }) s

theorem restoreTumblers_frame (s : State) (ts : List (Nat × Word × BitVec 672 × BitVec 2048)) :
    ∃ xs, s.restoreTumblers ts = { s with tumblers := xs } := by
  unfold State.restoreTumblers
  refine List.foldlRecOn ts _ (motive := fun u : State => ∃ xs, u = { s with tumblers := xs }) ⟨s.tumblers, rfl⟩ ?_
  rintro u ⟨xs, rfl⟩ p -
  exact ⟨_, rfl⟩

theorem restoreTumblers_owner {s : State} (ts : List (Nat × Word × BitVec 672 × BitVec 2048)) {t lid : Nat}
    (h : (s.tumbler t).owner = some lid) : ((s.restoreTumblers ts).tumbler t).owner = some lid := by
  refine owner_foldl (fun u p _ hu => ?_) h
  by_cases hp : t = p.1
  · subst hp
    rw [tumbler_modTumbler_self]
    exact hu
  · rw [tumbler_modTumbler_ne _ _ hp, hu]

/-- Local memory and its full/empty bits come back. -/
def State.restoreMemory (s : State) (l : Launch) (v : Saved) : State := { s with
  mem := v.mem.foldl (fun m p => writeByte m (localKey (l.coreOf (p.1 / 65536)) (p.1 % 65536)) p.2) s.mem
  empt := v.empt.foldl (fun e u => sadd e (localKey (l.coreOf (u / 8192)) 0 / 8 + u % 8192)) s.empt }

theorem restoreSaved_eq (s : State) (l : Launch) (v : Saved) : s.restoreSaved l v =
    (((s.restoreCores l v.cores).restoreSquares l v.squares).restoreMemory l v).restoreTumblers v.tumblers := rfl

theorem restoreSaved_frame (s : State) (l : Launch) (v : Saved) : ∃ xs ss m e,
    s.restoreSaved l v = { s.restoreCores l v.cores with tumblers := xs, squares := ss, mem := m, empt := e } := by
  obtain ⟨ss, hs⟩ := restoreSquares_frame (s.restoreCores l v.cores) l v.squares
  obtain ⟨xs, ht⟩ := restoreTumblers_frame (((s.restoreCores l v.cores).restoreSquares l v.squares).restoreMemory l v) v.tumblers
  rw [restoreSaved_eq, ht, State.restoreMemory, hs]
  exact ⟨_, _, _, _, rfl⟩

/-- The launch is back on its wards; its slots have not taken anything yet. -/
def State.rejoin (s : State) (lid : Nat) (l : Launch) (v : Saved) : State :=
  { (s.prepare lid l).restoreSaved l v with
    threads := ((s.prepare lid l).restoreSaved l v).threads.map fun (p : Nat × Thread) =>
      if p.2.launch = lid then (p.1, p.2.rejoined l) else p }

theorem tget_mapSome {α : Type} (m : Tbl α) (c : α → Bool) (g : α → α) (k : Nat) :
    tget (m.map fun p => if c p.2 then (p.1, g p.2) else p) k = (tget m k).map fun x => if c x then g x else x := by
  induction m with
  | nil => rfl
  | cons p m ih =>
    obtain ⟨i, x⟩ := p
    rw [List.map_cons]
    by_cases hi : i = k <;> cases hc : c x <;> simp [tget, hi, hc, ih]

section
variable (s : State) (lid : Nat) (l : Launch) (v : Saved)

theorem rejoin_frame : ∃ xs ss m e th, s.rejoin lid l v
    = { (s.prepare lid l).restoreCores l v.cores with tumblers := xs, squares := ss, mem := m, empt := e, threads := th } := by
  obtain ⟨xs, ss, m, e, h⟩ := restoreSaved_frame (s.prepare lid l) l v
  rw [State.rejoin, h]
  exact ⟨_, _, _, _, _, rfl⟩

theorem rejoin_launches : (s.rejoin lid l v).launches = tput s.launches lid l := by
  obtain ⟨_, _, _, _, _, h⟩ := rejoin_frame s lid l v
  obtain ⟨_, hr⟩ := restoreCores_frame (s.prepare lid l) l v.cores
  rw [h, hr, (prepare_prepared s lid l).frame]

theorem rejoin_core (k : Nat) : (s.rejoin lid l v).core k = ((s.prepare lid l).restoreCores l v.cores).core k := by
  obtain ⟨_, _, _, _, _, h⟩ := rejoin_frame s lid l v
  rw [h]
  exact State.core_congr rfl k

theorem rejoin_thread {tid : Nat} {t : Thread} (ht : tget s.threads tid = some t) :
    tget (s.rejoin lid l v).threads tid = some (if t.launch = lid then t.rejoined l else t) := by
  have hthreads : ((s.prepare lid l).restoreSaved l v).threads = s.threads := by
    obtain ⟨_, _, _, _, h⟩ := restoreSaved_frame (s.prepare lid l) l v
    obtain ⟨_, hr⟩ := restoreCores_frame (s.prepare lid l) l v.cores
    rw [h, hr, (prepare_prepared s lid l).frame]
  have hmap := tget_mapSome s.threads (fun t => decide (t.launch = lid)) (fun t => t.rejoined l) tid
  simp only [decide_eq_true_eq] at hmap
  rw [State.rejoin, hthreads, hmap, ht, Option.map_some]

theorem rejoin_owner {t : Nat} (ht : t < 32) (hm : l.tumblers.getLsbD t) :
    ((s.rejoin lid l v).tumbler t).owner = some lid := by
  have hgiven := (prepare_prepared s lid l).tumblers t ht hm
  obtain ⟨ss, hs⟩ := restoreSquares_frame ((s.prepare lid l).restoreCores l v.cores) l v.squares
  obtain ⟨k, hr⟩ := restoreCores_frame (s.prepare lid l) l v.cores
  have hbefore : ((((s.prepare lid l).restoreCores l v.cores).restoreSquares l v.squares).restoreMemory l v).tumblers
      = (s.prepare lid l).tumblers := by rw [State.restoreMemory, hs, hr]
  have hrestored := restoreTumblers_owner (s := (((s.prepare lid l).restoreCores l v.cores).restoreSquares l
    v.squares).restoreMemory l v) v.tumblers (t := t) (lid := lid) (by rw [State.tumbler, hbefore]; exact hgiven)
  rw [← restoreSaved_eq] at hrestored
  exact hrestored

variable {s lid l v}

theorem rejoin_image {k : Nat} {x : Core} (hw : l.wards.Nodup) (hnodup : (v.cores.map Prod.fst).Nodup)
    (hcores : ∀ p ∈ v.cores, p.1 < l.cores) (hx : (k, x) ∈ v.cores) :
    (s.rejoin lid l v).core (l.coreOf k) = coreImage (grantedCore l) x l.coreOf := by
  rw [rejoin_core]
  refine restoreCores_core _ l v.cores (k, x) (fun q hq he => ?_) (.inl hx)
  exact List.inj_on_of_nodup_map hnodup hq hx (coreOf_inj hw (hcores q hq) (hcores _ hx) he)

end

theorem resumeLaunch_resumes {s : State} {c : Cmd} {lid : Nat} {l : Launch} {v : Saved} {wards : List Nat} (hc : s.hears c)
    (hl : tget s.launches lid = some l) (hv : l.saved = some v) (hg : s.grantAll l.shape = some wards) (hs : l.suspended)
    (ht : s.tumblersFree l.tumblers) :
    exec (.resumeLaunch c lid) s = .next ((((s.rejoin lid { l with wards := wards, suspended := false, saved := none } v).refill
      { l with wards := wards, suspended := false, saved := none }).openHostBars).complete c 0) := by
  have hx : exec (.resumeLaunch c lid) s = .next (s.command c (resumeStep c lid)) := rfl
  rw [hx, State.command_of_hears hc, resumeStep, State.launch?, hl]
  simp only [hv, hg, hs, ht, Bool.not_true, Bool.or_self, Bool.false_eq_true, if_false]
  rfl

/-- What the image of a core brings back. -/
theorem coreImage_parts (b x : Core) (f : Nat → Nat) : let y := coreImage b x f
    y.accs = x.accs ∧ y.afull = x.afull ∧ y.qs = x.qs ∧ y.lanes = x.lanes ∧ y.ring = x.ring
      ∧ y.curA = x.curA ∧ y.curB = x.curB ∧ y.mrotCount = x.mrotCount
      ∧ (∀ d, ∀ h : d < 4, y.ports[d] = x.ports[d] ++ x.flying[d])
      ∧ ∀ r ∈ y.runq, r.ready ∧ ∃ q ∈ x.runq, r.tid = q.tid := by
  refine ⟨rfl, rfl, rfl, rfl, rfl, rfl, rfl, rfl, fun d h => by simp [coreImage], fun r hr => ?_⟩
  obtain ⟨q, hq, rfl⟩ := List.mem_map.1 hr
  exact ⟨rfl, q, hq, rfl⟩

/-! ### The end of a launch leaves the host's memory alone, but for the end word (R321, R338) -/

/-- The host's memory is as it was. -/
def SameHost (s u : State) : Prop := u.hostMem = s.hostMem

namespace SameHost
variable {s u v : State}

theorem frame (h : SameHost s u) (hv : v.hostMem = u.hostMem) : SameHost s v := hv.trans h

theorem slotWork (h : SameHost s u) (w : SlotWork u v) : SameHost s v := by
  refine h.frame ?_
  rw [w.unchanged]

theorem foldl {α : Type} {f : State → α → State} (hf : ∀ w x, SameHost s w → SameHost s (f w x)) (l : List α)
    (h : SameHost s u) : SameHost s (l.foldl f u) := List.foldlRecOn l f h fun w hw x _ => hf w x hw

theorem postAccess (h : SameHost s u) (a : Access) : SameHost s (u.postAccess a) := h.slotWork (SlotWork.refl.postAccess a)

theorem dropAmos (h : SameHost s u) (tid : Nat) : SameHost s (u.dropAmos tid) := by
  unfold State.dropAmos
  extract_lets mine gone s1
  refine foldl (fun w p hw => ?_) _ (h.frame rfl)
  split
  · split
    · exact hw.slotWork (SlotWork.refl.freeSlot _ _)
    · exact hw.slotWork (SlotWork.refl.cutRing _ _)
    · exact hw.frame rfl
  · exact hw

theorem undoOnce (h : SameHost s u) (t : Thread) : SameHost s (u.undoOnce t) := by
  unfold State.undoOnce
  extract_lets unit pos
  split
  · exact h
  · exact h.frame rfl

theorem leaveWaits (h : SameHost s u) (tid : Nat) : SameHost s (u.leaveWaits tid) := by
  unfold State.leaveWaits
  split
  · exact h
  · extract_lets s1 s2 mine refused s3 s4 s5 s6 s7
    have h2 : SameHost s s2 := by
      simp only [s2]
      split
      · exact (h.dropAmos _).slotWork (SlotWork.refl.placeHome _ _)
      · exact h.dropAmos _
    have h7 : SameHost s s7 := by
      simp only [s7]
      split
      · exact h2.frame rfl
      · exact h2.frame rfl
    split
    · extract_lets s8 s9
      have h8 : SameHost s s8 := by
        refine foldl (fun w p hw => ?_) _ h7
        exact hw.frame rfl
      have h9 : SameHost s s9 := by
        simp only [s9]
        split
        · exact h8.undoOnce _
        · exact h8
      exact h9.frame rfl
    · exact h7.frame rfl

theorem clearFrameOf (h : SameHost s u) (tid k : Nat) : SameHost s (u.clearFrameOf tid k) := by
  unfold State.clearFrameOf
  split
  · exact h
  · exact h.frame rfl

theorem releaseHeld (h : SameHost s u) (c tid : Nat) : SameHost s (u.releaseHeld c tid) := by
  unfold State.releaseHeld
  extract_lets x held
  refine foldl (fun w b hw => ?_) _ h
  split
  · split
    · exact hw
    · exact (hw.postAccess _).frame rfl
  · exact hw

theorem refuseHeld (h : SameHost s u) (c : Nat) : SameHost s (u.refuseHeld c) := by
  obtain ⟨_, _, _, _, _, hr⟩ := refuseHeld_frame u c
  exact h.frame (by rw [hr])

theorem releaseSaved (h : SameHost s u) (l : Launch) : SameHost s (u.releaseSaved l) := by
  unfold State.releaseSaved
  extract_lets recs
  refine foldl (fun w b hw => ?_) _ h
  split
  · split
    · exact hw
    · exact hw.postAccess _
  · split
    · exact hw
    · exact hw.postAccess _
  · exact hw

theorem endTraffic (h : SameHost s u) (lid : Nat) (l : Launch) : SameHost s (u.endTraffic lid l) := by
  unfold State.endTraffic
  split
  · exact h.releaseSaved _
  · extract_lets s1 gone dead
    have h1 : SameHost s s1 := foldl (fun w c hw => (foldl (fun v r hv => hv.releaseHeld _ _) _ hw).refuseHeld _) _ h
    exact h1.frame rfl

end SameHost

/-- What a launch that has ended leaves. -/
structure Ended (s u : State) (lid how : Nat) (l : Launch) : Prop where
  launch : tget u.launches lid = none
  threads : ∀ p ∈ u.threads, p.2.launch ≠ lid
  tumblers : ∀ p ∈ u.tumblers, p.2.owner ≠ some lid
  cores : ∀ k, l.owns k → tget u.cores k = none
  host : u.hostMem = if l.endWord = 0 then s.hostMem
    else (s.toHost l.endWord (wordBytes (BitVec.ofNat 64 (lid * 2 ^ 32 + how)))).hostMem

theorem endLaunch_ended {s : State} {lid : Nat} {l : Launch} (hl : tget s.launches lid = some l) (how : Nat) :
    Ended s (s.endLaunch lid how) lid how l := by
  unfold State.endLaunch
  split
  · next hnone => cases hl.symm.trans hnone
  next l' hl' =>
  obtain rfl : l = l' := Option.some.inj (hl.symm.trans hl')
  extract_lets mine s1 s2 s3 s4 s5 s6
  have h1 : SameHost s s1 := by
    refine SameHost.foldl (fun w p hw => ?_) mine rfl
    dsimp only
    split
    · exact (hw.leaveWaits _).clearFrameOf _ _
    · exact hw.leaveWaits _
  have h3 : SameHost s s3 := (h1.endTraffic lid l).frame rfl
  have h4 : SameHost s s4 ∧ s4.threads = s3.threads ∧ ∀ k, l.owns k → tget s4.cores k = none := by
    simp only [s4]
    split
    · next hsus => exact ⟨h3, rfl, fun k hk => by simp [Launch.owns, hsus] at hk⟩
    · exact ⟨h3.frame rfl, rfl, fun k hk => tget_filter_removed fun x => by simp [hk]⟩
  obtain ⟨h4, hthreads, hcores⟩ := h4
  have hgone : ∀ p ∈ s6.threads, p.2.launch ≠ lid := by
    intro p hp
    have hp3 : p ∈ s3.threads := hthreads ▸ hp
    simpa using (List.mem_filter.1 hp3).2
  have h6 : Ended s s6 lid how { l with endWord := 0 } := ⟨tget_tdel_self _ _, hgone, owner_released, hcores, h4⟩
  split
  · next h0 => exact ⟨h6.launch, h6.threads, h6.tumblers, h6.cores, by rw [if_pos h0]; exact h4⟩
  · next h0 =>
    refine ⟨h6.launch, h6.threads, h6.tumblers, h6.cores, ?_⟩
    have hhost : s6.hostMem = s.hostMem := h4
    rw [if_neg h0]
    simp only [State.toHost, hhost]

theorem killLaunch_kills {s : State} {c : Cmd} {lid : Nat} {l : Launch} (hc : s.hears c) (hl : tget s.launches lid = some l) :
    exec (.killLaunch c lid) s = .next ((s.endLaunch lid 2).complete c 0) := by
  have hx : exec (.killLaunch c lid) s = .next (s.command c (killLaunchStep c lid)) := rfl
  rw [hx, State.command_of_hears hc, killLaunchStep, State.launch?, hl]

theorem load_refused {s : State} (c : Cmd) (a : LaunchArgs) {l : Launch} {wards : List Nat}
    (h : levelsOk (l.grantedTo a s.clock wards) l.levels = false) : s.load? c a l (some wards) = s.complete c 1 := by
  simp [State.load?, h]

theorem load_starts {s : State} (c : Cmd) (a : LaunchArgs) {l : Launch} {wards : List Nat}
    (h : levelsOk (l.grantedTo a s.clock wards) l.levels = true) : s.load? c a l (some wards)
      = (s.startLaunch s.nextLid (l.grantedTo a s.clock wards)).complete c 0 s.nextLid := by
  simp [State.load?, h]

/-- Settles O58, clause by clause: the load of a launch, the images of a suspension, and the commands that suspend, resume and
kill it. -/
theorem launchesAreLoadedSuspendedAndKilled : Obligations.LaunchesAreLoadedSuspendedAndKilled := by
  unfold Obligations.LaunchesAreLoadedSuspendedAndKilled
  intro s c hc
  refine ⟨fun a => ?_, fun v l k q n i x r => ?_, fun lid hl => ?_, fun lid l hl => ?_⟩
  · intro at_ hslots hweights haligned hin hread ws l root hrecord htumblers hroot hopen hsound
    have h : Orderly s c a := ⟨hslots, hweights, haligned, hin, hread, hrecord, htumblers, hroot, hopen, hsound⟩
    refine ⟨fun hnone => ?_, fun wards hgrant => ⟨fun hlevels => ?_, fun hlevels => ?_⟩⟩
    · rw [h.exec_eq hc, hnone]
      rfl
    · rw [h.exec_eq hc, hgrant, load_refused (l := launchOf (s.recordAt a.record.toNat) c.sc) c a hlevels]
    · obtain ⟨frame, blank, hbm, squares, tumblers, threads⟩ :=
        startLaunch_loaded s s.nextLid ((launchOf (s.recordAt a.record.toNat) c.sc).grantedTo a s.clock wards)
      refine ⟨s.startLaunch s.nextLid ((launchOf (s.recordAt a.record.toNat) c.sc).grantedTo a s.clock wards), ?_, frame, blank,
        hbm, squares, tumblers, threads⟩
      rw [h.exec_eq hc, hgrant, load_starts (l := launchOf (s.recordAt a.record.toNat) c.sc) c a hlevels]
  · exact ⟨length_coreWords v l k, fun w hw => coreWords_memory v l k hw, fun w hw => coreWords_full v l k hw,
      length_squareWords v q, fun hx hn hi hr w hw => squareWords_record v q hx hn hi hr hw⟩
  · exact ⟨suspendLaunch_unknown hc hl, resumeLaunch_unknown hc hl, killLaunch_unknown hc hl⟩
  · intro i
    refine ⟨fun hi hs hclosing => ?_, suspendLaunch_refused hc hl, ?_, fun v wards hv hg hs ht => ?_, ?_⟩
    · refine ⟨closingState s c lid l, suspendLaunch_closes hc hl hi hs hclosing, ?_, fun k => ?_, fun w hw => ?_⟩
      · rw [closingState, (closeWards_capped s l).frame]
      · rw [closing_cores]
        exact (closeWards_capped s l).core k
      · obtain ⟨hle, hhit⟩ := wardMost_spec s w
        exact ⟨s.wardMost w, fun n hn => ⟨by rw [closing_cores]; exact closeWards_stops s hw n hn, hle n hn⟩, hhit⟩
    · intro r hi
      refine ⟨fun hno => ?_, fun hyes => ?_⟩
      · rw [suspendLaunch_goesOn hc hl hi, if_neg]
        · rfl
        · exact Bool.eq_false_iff.1 hno
      · obtain ⟨launch, cores, others, tumblers⟩ := suspendNow_suspended ((s.refuseAll l).forget i) lid l
        refine ⟨((s.refuseAll l).forget i).suspendNow lid l, ?_, launch, cores, fun j hj => ?_, tumblers⟩
        · rw [suspendLaunch_goesOn hc hl hi, if_pos]
          exact hyes
        · exact (others j hj).trans (congrArg (tget · j) (launches_refuseAll s l))
    · intro l'
      refine ⟨s.rejoin lid l' v, resumeLaunch_resumes hc hl hv hg hs ht, ?_, fun t ht hm => rejoin_owner s lid l' v ht hm,
        fun tid t htid => rejoin_thread s lid l' v htid, fun k x hnodup hcores hx => ?_⟩
      · rw [rejoin_launches, tget_tput_self]
      · rw [rejoin_image (l := l') (grantAll_nodup hg) hnodup hcores hx]
        exact coreImage_parts _ _ _
    · obtain ⟨launch, threads, tumblers, cores, host⟩ := endLaunch_ended hl 2
      exact ⟨s.endLaunch lid 2, killLaunch_kills hc hl, launch, threads, tumblers, cores, host⟩

end Sys2Proof.Machine
end

section
/-!
PROOFS. Replies and acknowledgements (O20): a thread that is put back as it stands, destinations that take a reply's values, the replies of harts and of post, and acknowledgements.
-/

namespace Sys2Proof.Machine

/-! ### A thread put back as it is

A table of threads whose numbers do not rise may change when a thread is put back as it stands: the thread moves in front of
a greater number. What slots, rings and ports do reads threads by their numbers alone, so the move can wait. -/

/-- Thread `tid` is put back as it stands. -/
def State.again (s : State) (tid : Nat) : State := s.modThread tid id

section
variable (s : State) (tid : Nat)

theorem again_of_some {t : Thread} (h : tget s.threads tid = some t) :
    s.again tid = { s with threads := tput s.threads tid t } := s.modThread_of id h

theorem again_of_none (h : tget s.threads tid = none) : s.again tid = s := by
  simp only [State.again, State.modThread, tmod, h]

@[simp] theorem thread_again (j : Nat) : (s.again tid).thread? j = s.thread? j := by
  cases h : tget s.threads tid with
  | none => rw [again_of_none s tid h]
  | some t =>
    rw [again_of_some s tid h]
    exact tget_tput_same h j

theorem again_modThread (j : Nat) (f : Thread → Thread) : (s.again tid).modThread j f = (s.modThread j f).again tid := by
  have hj : tget (s.again tid).threads j = tget s.threads j := thread_again s tid j
  cases hs : tget s.threads tid with
  | none =>
    have hm : tget (s.modThread j f).threads tid = none := tget_tmod_none j f hs
    rw [again_of_none s tid hs, again_of_none _ tid hm]
  | some t =>
    cases hjt : tget s.threads j with
    | none =>
      have h1 : (s.again tid).modThread j f = s.again tid := by
        simp only [State.modThread, tmod, hj, hjt]
      have h2 : s.modThread j f = s := by simp only [State.modThread, tmod, hjt]
      rw [h1, h2]
    | some x =>
      rw [State.modThread_of _ f (hj.trans hjt), State.modThread_of s f hjt, again_of_some s tid hs]
      by_cases he : j = tid
      · subst he
        rw [again_of_some _ j (tget_tput_self ..), tput_tput, tput_tput]
      · rw [again_of_some (t := t) _ tid (by rw [tget_tput_ne _ _ (Ne.symm he)]; exact hs), tput_comm _ _ _ (Ne.symm he)]

theorem again_start (t : Thread) :
    ({ s.again tid with threads := tput (s.again tid).threads s.nextTid t, nextTid := s.nextTid + 1 } : State)
      = ({ s with threads := tput s.threads s.nextTid t, nextTid := s.nextTid + 1 } : State).again tid := by
  by_cases he : s.nextTid = tid
  · subst he
    rw [again_of_some (t := t) { s with threads := tput s.threads s.nextTid t, nextTid := s.nextTid + 1 } _
      (tget_tput_self ..), tput_tput]
    cases hs : tget s.threads s.nextTid with
    | none => rw [again_of_none s _ hs]
    | some x => rw [again_of_some s _ hs, tput_tput]
  · cases hs : tget s.threads tid with
    | none =>
      rw [again_of_none s tid hs, again_of_none _ tid (by rw [tget_tput_ne _ _ (Ne.symm he)]; exact hs)]
    | some x =>
      rw [again_of_some s tid hs, again_of_some (t := x) _ tid (by rw [tget_tput_ne _ _ (Ne.symm he)]; exact hs),
        tput_comm _ _ _ (Ne.symm he)]

end

theorem again_foldl {α : Type} {f : State → α → State} {tid : Nat} (hf : ∀ s x, f (s.again tid) x = (f s x).again tid) (xs : List α)
    (s : State) : xs.foldl f (s.again tid) = (xs.foldl f s).again tid := by
  induction xs generalizing s with
  | nil => rfl
  | cons x xs ih => rw [List.foldl_cons, List.foldl_cons, hf, ih]

section
variable (s : State) (tid : Nat)

theorem again_modCore (c : Nat) (f : Core → Core) : (s.again tid).modCore c f = (s.modCore c f).again tid := rfl
theorem again_modSlot (c n : Nat) (f : Slot → Slot) : (s.again tid).modSlot c n f = (s.modSlot c n f).again tid := rfl

theorem again_pushPort (c : Nat) (q : BitVec 3) (w : Word) : (s.again tid).pushPort c q w = (s.pushPort c q w).again tid := by
  unfold State.pushPort
  split <;> rfl

theorem again_pay (j : Nat) : (s.again tid).pay j = (s.pay j).again tid := by
  unfold State.pay
  rw [thread_again]
  split
  · rfl
  · split
    · rw [again_foldl (fun u p => again_pushPort u tid _ _ _), again_modThread]
    · rfl

theorem again_signal (c : Nat) : (s.again tid).signal c = (s.signal c).again tid := by
  refine again_foldl (fun u n => ?_) _ s
  rw [show (u.again tid).slot c n = u.slot c n from rfl]
  split
  · rfl
  · rw [thread_again]
    split
    · split
      · rw [again_modThread, again_modSlot]
      · rfl
    · rfl

theorem again_place (j c n : Nat) : (s.again tid).place j c n = (s.place j c n).again tid := by
  rw [State.place, again_modSlot, again_modThread, State.place]

theorem again_startHandler (lid c n : Nat) (w : Word) (ws : List Word) (x : Word) :
    (s.again tid).startHandler lid c n w ws x = (s.startHandler lid c n w ws x).again tid :=
  congrArg (fun u : State => u.modSlot c n fun y => y.seat (u.nextTid - 1)) (again_start s tid _)

theorem again_startEntry (lid : Nat) (l : Launch) (c n : Nat) (ws : List Word) :
    (s.again tid).startEntry lid l c n ws = (s.startEntry lid l c n ws).again tid :=
  congrArg (fun u : State => u.modSlot c n fun y => y.seat (u.nextTid - 1)) (again_start s tid _)

theorem again_restartIn (c n : Nat) (r : FrameReq) (w f p : Word) (sus : Option Nat) :
    (s.again tid).restartIn c n r w f p sus = (s.restartIn c n r w f p sus).again tid := by
  unfold State.restartIn
  cases sus with
  | none => exact again_startEntry ..
  | some j =>
    dsimp only
    rw [thread_again, again_place, again_modThread]
    split <;> rfl

theorem again_routing (j c : Nat) : (s.again tid).routing j c = s.routing j c := by
  unfold State.routing
  rw [thread_again]
  rfl

theorem again_sendTo (id : Nat) (l : Launch) (core home cls : Nat) :
    (s.again tid).sendTo id l core home cls = (s.sendTo id l core home cls).again tid := by
  unfold State.sendTo
  split <;> rfl

theorem again_postAccess (a : Access) : (s.again tid).postAccess a = (s.postAccess a).again tid := by
  rw [postAccess_eq, postAccess_eq, again_routing]
  exact congrArg (fun u : State => { u with sq := tput s.sq s.nextId a.entry }) (again_sendTo (s.inject _) tid _ _ _ _ _)

theorem again_resend (c n : Nat) (b : Body) : (s.again tid).resend c n b = (s.resend c n b).again tid := by
  unfold State.resend
  split
  · dsimp only
    split
    · rw [State.sendLoad, again_routing]
      exact again_sendTo (s.inject _) tid _ _ _ _ _
    · exact again_postAccess s tid _
  · rw [State.sendAmo, again_routing]
    exact again_sendTo (s.inject _) tid _ _ _ _ _
  · rfl

/-- A state with other bytes in memory. -/
def State.withMem (s : State) (m : List Host.Cell) : State := { s with mem := m }

theorem again_withMem (m : List Host.Cell) : (s.again tid).withMem m = (s.withMem m).again tid := rfl

/-- The bytes of memory once a report has been made. -/
def reportBytes (m : List Host.Cell) (base : Nat) (r : List Word) : List Host.Cell :=
  if 4096 ≤ (if (BitVec.ofNat 64 (readLE m base 8)).toNat < (BitVec.ofNat 64 (readLE m (base + 8) 8)).toNat then 0
      else (BitVec.ofNat 64 (readLE m base 8)).toNat - (BitVec.ofNat 64 (readLE m (base + 8) 8)).toNat) then
    writeLE m (base + 16) 8 (BitVec.ofNat 64 (readLE m (base + 16) 8) + 1).toNat
  else writeLE (writeWords m (base + 64 + 64 * ((BitVec.ofNat 64 (readLE m base 8)).toNat % 4096)) r) base 8
    (BitVec.ofNat 64 (readLE m base 8) + 1).toNat

theorem report_eq (die : Nat) (r : Report) :
    s.report die r = s.withMem (reportBytes s.mem (s.ringAddr.toList.getD (die % 4) 0) (r.toWords s.clockWord)) := by
  unfold reportBytes
  rw [apply_ite s.withMem]
  simp only [State.report, State.storeWord, State.store, State.loadWord, State.withMem]
  congr 1

theorem again_report (die : Nat) (r : Report) : (s.again tid).report die r = (s.report die r).again tid := by
  rw [report_eq, report_eq, ← again_withMem]
  rfl

theorem again_coreLabel (c : Nat) : (s.again tid).coreLabel c = s.coreLabel c := rfl

theorem again_count (die row what : Nat) (d : Word) (core : Nat) (asid : BitVec 12) :
    (s.again tid).count die row what d core asid = (s.count die row what d core asid).again tid := by
  unfold State.count
  dsimp only
  rw [apply_ite (fun u : State => u.again tid), ← again_report]
  rfl

theorem again_heat (k : Nat) (asid : BitVec 12) : (s.again tid).heat k asid = (s.heat k asid).again tid := by
  unfold State.heat
  dsimp only
  rw [apply_ite (fun u : State => u.again tid), ← again_report]
  rfl

/-- What follows the report of a corrected error. -/
def State.counted (s : State) (key : Nat) (asid : BitVec 12) : State :=
  if s.patched.contains (key / 32 * 32) then s
  else if key < localBase then
    (s.count (dieOfKey key) 1 (Config.rowOf key) (BitVec.ofNat 64 (Config.rowOf key)) (channelOf key) asid).heat key asid
  else s.count (dieOfKey key) 2 (homeOf key) (BitVec.ofNat 64 key) (s.coreLabel (homeOf key)) asid

/-- A unit has no corrected error any more. -/
def State.unsoft (s : State) (u : Nat) : State := { s with soft := sdel s.soft u }

theorem fixUnit_eq (u : Nat) (asid : BitVec 12) : s.fixUnit u asid = if !s.soft.contains u then s else
    ((s.unsoft u).report (dieOfKey (8 * u)) {
      cause := 0x40, core := (s.unsoft u).coreLabel (homeOf (8 * u)), qual := if 8 * u < localBase then 1 else 2
      detail := BitVec.ofNat 64 (8 * u), asid := asid }).counted (8 * u) asid := by
  simp only [State.fixUnit, State.counted, State.unsoft]
  congr 1

theorem again_counted (key : Nat) (asid : BitVec 12) : (s.again tid).counted key asid = (s.counted key asid).again tid := by
  unfold State.counted
  rw [show (s.again tid).patched = s.patched from rfl]
  split
  · rfl
  · split
    · rw [again_count, again_heat]
    · rw [again_coreLabel, again_count]

theorem again_unsoft (u : Nat) : (s.again tid).unsoft u = (s.unsoft u).again tid := rfl

theorem again_fixUnit (u : Nat) (asid : BitVec 12) : (s.again tid).fixUnit u asid = (s.fixUnit u asid).again tid := by
  rw [fixUnit_eq, fixUnit_eq, again_unsoft, again_coreLabel, again_report, again_counted,
    apply_ite (fun v : State => v.again tid)]
  congr 1

theorem again_corrected (k n : Nat) (asid : BitVec 12) : (s.again tid).corrected k n asid = (s.corrected k n asid).again tid := by
  unfold State.corrected
  exact again_foldl (f := fun u k => u.fixUnit k asid) (fun u k => again_fixUnit u tid k asid) _ s

end

/-! ### What a free slot takes, case by case -/

/-- The launch of a core lets handlers take any slot. -/
def State.anyslotOn (s : State) (c : Nat) : Bool := match s.launchOn c with | some (_, l) => l.anyslot | none => false

/-- The message at the head of the ring starts its handler in a free slot (R53). -/
def State.handlerTaken (s : State) (c n : Nat) (r : RingRec) : State :=
  let k := s.ringKey c r.off
  let h := s.ringWord k
  let npay := bits h 12 4
  let sender := BitVec.ofNat 64 (bits h 16 13 * 2 ^ 16 + npay * 2 ^ 12 + bits h 8 4 * 2 ^ 8 + bits h 4 4)
  let s' := ((s.corrected k r.len (s.asidOn c)).signal c).modCore c fun x => x.ringPop (s.ringSize c)
  s'.startHandler r.launch c n (s.ringWord (k + 8)) ((List.range (min npay 6)).map fun i => s.ringWord (k + 16 + 8 * i)) sender

/-- The thread at the head of the ring takes a free slot (R57). -/
def State.migrantTaken (s : State) (c n t : Nat) : State :=
  ((((s.signal c).modCore c fun x => x.ringPop (s.ringSize c)).place t c n).pay t).modThread t Thread.landed

/-- The trip at the head of the ring takes a free slot of the core. -/
def State.tripTaken (s : State) (c n t id : Nat) : State :=
  let s := (s.signal c).modCore c fun x => (x.ringPop (s.ringSize c)).modSlot n fun y => { y with tid := some t }
  match s.packet? id with
  | some (.amo a) => { s with net := tput s.net id (.amo { a with path := .slot c n }) }
  | _ => s

/-- The record at the head of the ring as a free slot takes it (R53, R56, R57). -/
def State.headTaken (s : State) (c n : Nat) (r : RingRec) : Option State :=
  if r.kind = 1 && ((n = 15 && !s.porterWaiting c && !s.porterKept c) || (n < 15 && s.anyslotOn c)) then
    some (s.handlerTaken c n r)
  else if r.kind = 2 && n < 15 then
    match r.tid, r.amo with
    | some t, none => some (s.migrantTaken c n t)
    | some t, some id => some (s.tripTaken c n t id)
    | none, _ => none
  else none

/-- What the ring gives a free slot. -/
def State.ringTaken (s : State) (c n : Nat) : Option State :=
  match (s.core c).ring with
  | r :: _ => s.headTaken c n r
  | [] => none

/-- The context that may take a free slot. -/
def State.contextOf (s : State) (c n : Nat) : Option RunRec :=
  if n = 15 && s.porterWaiting c then none
  else (s.core c).nextContext n fun t => match s.thread? t with | some th => th.gang | none => false

/-- A free slot takes the head of the ring, or a context, or goes to the task unit. -/
def State.takeWaiting (s : State) (c n : Nat) : State :=
  match (if n = 15 && (s.contextOf c n).isSome then none else s.ringTaken c n), s.contextOf c n with
  | some s', _ => s'
  | none, some r => s.resume c n r
  | none, none => if n = 15 then s else s.toTaskUnit c n

/-- A restart takes a free slot. -/
def State.takeRestart (s : State) (c n : Nat) (rest : List (FrameReq × FrameAns)) (r : FrameReq) (w f p : Word)
    (sus : Option Nat) : State :=
  let u := (s.modCore c fun x => { x with restarts := rest }).restartIn c n r w f p sus
  if (u.slot c n).isFree then u.toTaskUnit c n else u

/-- A free slot of a compute core takes a restart before anything else. -/
def State.takeCompute (s : State) (c n : Nat) : State :=
  match if n < 15 then (s.core c).restarts else [] with
  | (r, .restart w f p sus) :: rest => s.takeRestart c n rest r w f p sus
  | _ => s.takeWaiting c n

/-- A trip in the ring of a channel core takes a free slot. -/
def State.takeTrip (s : State) (c n : Nat) (r : RingRec) (id : Nat) : State :=
  let s := (s.signal c).modCore c fun x => (x.ringPop 16384).modSlot n fun y => { y with tid := r.tid }
  match s.packet? id with
  | some (.amo a) => { s with net := tput s.net id (.amo { a with path := .slot c n }) }
  | _ => s

/-- A free slot of a channel core. -/
def State.takeChannel (s : State) (c n : Nat) : State :=
  match (s.core c).ring with
  | r :: _ =>
    match r.amo with
    | some id => if n < 12 then s.takeTrip c n r id else s
    | none => s
  | [] => s

theorem takeOne_eq (s : State) (c n : Nat) : s.takeOne c n =
    if !((s.core c).slot n).isFree || s.closingOn c then s
    else if c ≥ channelBase then s.takeChannel c n else s.takeCompute c n := by
  unfold State.takeOne
  extract_lets x anyslot size fromRing gang context
  have hring : fromRing = s.ringTaken c n := by
    simp only [fromRing, x, size, State.ringTaken]
    cases (s.core c).ring with
    | nil => rfl
    | cons r rs =>
      unfold State.headTaken
      dsimp only
      refine if_congr Iff.rfl rfl (if_congr Iff.rfl ?_ rfl)
      cases r.tid with
      | none => rfl
      | some t =>
        cases r.amo with
        | none => rfl
        | some id =>
          unfold State.tripTaken
          generalize s.signal c = u
          dsimp only
          generalize (u.modCore c fun x => (x.ringPop (s.ringSize c)).modSlot n fun y => { y with tid := some t }) = v
          cases v.packet? id with
          | none => rfl
          | some b => cases b <;> rfl
  have hcontext : context = s.contextOf c n := rfl
  have hx : x = s.core c := rfl
  clear_value fromRing context x
  subst hring hcontext hx
  refine if_congr Iff.rfl rfl (if_congr Iff.rfl ?_ ?_)
  · unfold State.takeChannel
    cases (s.core c).ring with
    | nil => rfl
    | cons r rs =>
      dsimp only
      cases r.amo with
      | none => rfl
      | some id =>
        unfold State.takeTrip
        generalize s.signal c = u
        rfl
  · unfold State.takeCompute State.takeRestart State.takeWaiting
    generalize (if n < 15 then (s.core c).restarts else []) = rs
    generalize s.ringTaken c n = q
    generalize s.contextOf c n = k
    rcases rs with _ | ⟨⟨r, a⟩, rest⟩
    · rfl
    · cases a <;> rfl

section
variable (s : State) (tid : Nat)

theorem again_resume (c n : Nat) (r : RunRec) : (s.again tid).resume c n r = (s.resume c n r).again tid := by
  unfold State.resume
  dsimp only
  rw [again_modCore, again_place, again_modThread]
  refine again_foldl (fun u h => ?_) _ { ((s.modCore c fun x => { x with runq := x.runq.filter fun q => q.tid != r.tid }).place
    r.tid c n).modThread r.tid fun t => { t with homeCore := c, homeSlot := n } with
      sq := s.sq.map fun p => if p.2.tid = r.tid then (p.1, { p.2 with core := c, slot := n }) else p }
  have hid : (u.again tid).nextId = u.nextId := rfl
  have hsent : ((u.again tid).resend c n h.2).renumber c h.1 u.nextId
      = ((u.resend c n h.2).renumber c h.1 u.nextId).again tid := by
    rw [again_resend]
    rfl
  rw [hid, hsent]
  generalize (u.resend c n h.2).renumber c h.1 u.nextId = v
  split
  · split
    · exact again_modThread ..
    · rfl
  · exact again_modThread ..
  · exact again_modThread ..
  · exact again_modThread ..
  · rfl

theorem again_porterKept (c : Nat) : (s.again tid).porterKept c = s.porterKept c := by
  simp only [State.porterKept, thread_again]
  rfl

theorem again_contextOf (c n : Nat) : (s.again tid).contextOf c n = s.contextOf c n := by
  simp only [State.contextOf, thread_again]
  rfl

theorem again_takeTrip (c n : Nat) (r : RingRec) (id : Nat) : (s.again tid).takeTrip c n r id = (s.takeTrip c n r id).again tid := by
  unfold State.takeTrip
  rw [again_signal]
  generalize s.signal c = u
  dsimp only
  rw [again_modCore]
  generalize (u.modCore c fun x => (x.ringPop 16384).modSlot n fun y => { y with tid := r.tid }) = v
  rw [show (v.again tid).packet? id = v.packet? id from rfl]
  split <;> rfl

theorem again_takeChannel (c n : Nat) : (s.again tid).takeChannel c n = (s.takeChannel c n).again tid := by
  unfold State.takeChannel
  rw [show (s.again tid).core c = s.core c from rfl]
  split
  · split
    · split
      · exact again_takeTrip ..
      · rfl
    · rfl
  · rfl

theorem ringKey_again (c off : Nat) : (s.again tid).ringKey c off = s.ringKey c off := rfl
theorem ringWord_again (k : Nat) : (s.again tid).ringWord k = s.ringWord k := rfl
theorem ringSize_again (c : Nat) : (s.again tid).ringSize c = s.ringSize c := rfl
theorem asidOn_again (c : Nat) : (s.again tid).asidOn c = s.asidOn c := rfl

theorem again_handlerTaken (c n : Nat) (r : RingRec) :
    (s.again tid).handlerTaken c n r = (s.handlerTaken c n r).again tid := by
  unfold State.handlerTaken
  simp only [ringKey_again, ringWord_again, ringSize_again, asidOn_again, again_corrected, again_signal]
  generalize (s.corrected (s.ringKey c r.off) r.len (s.asidOn c)).signal c = u
  rw [again_modCore, again_startHandler]

theorem again_migrantTaken (c n t : Nat) : (s.again tid).migrantTaken c n t = (s.migrantTaken c n t).again tid := by
  unfold State.migrantTaken
  rw [again_signal, ringSize_again]
  generalize s.signal c = u
  rw [again_modCore, again_place, again_pay, again_modThread]

theorem again_tripTaken (c n t id : Nat) : (s.again tid).tripTaken c n t id = (s.tripTaken c n t id).again tid := by
  unfold State.tripTaken
  rw [again_signal, ringSize_again]
  generalize s.signal c = u
  dsimp only
  rw [again_modCore]
  generalize (u.modCore c fun x => (x.ringPop (s.ringSize c)).modSlot n fun y => { y with tid := some t }) = v
  rw [show (v.again tid).packet? id = v.packet? id from rfl]
  split <;> rfl

theorem again_headTaken (c n : Nat) (r : RingRec) : (s.again tid).headTaken c n r = (s.headTaken c n r).map (State.again · tid) := by
  unfold State.headTaken
  rw [again_porterKept, again_handlerTaken, show (s.again tid).porterWaiting c = s.porterWaiting c from rfl,
    show (s.again tid).anyslotOn c = s.anyslotOn c from rfl]
  split
  · rfl
  · split
    · cases r.tid with
      | none => rfl
      | some t =>
        cases r.amo with
        | none => exact congrArg some (again_migrantTaken ..)
        | some id => exact congrArg some (again_tripTaken ..)
    · rfl

theorem again_ringTaken (c n : Nat) : (s.again tid).ringTaken c n = (s.ringTaken c n).map (State.again · tid) := by
  unfold State.ringTaken
  rw [show (s.again tid).core c = s.core c from rfl]
  split
  · exact again_headTaken ..
  · rfl

theorem again_takeWaiting (c n : Nat) : (s.again tid).takeWaiting c n = (s.takeWaiting c n).again tid := by
  unfold State.takeWaiting
  rw [again_contextOf, again_ringTaken]
  generalize s.ringTaken c n = q
  generalize s.contextOf c n = k
  by_cases h15 : (n = 15 && k.isSome) = true
  · rw [if_pos h15, if_pos h15]
    cases k with
    | none => simp at h15
    | some r => exact again_resume ..
  · rw [if_neg h15, if_neg h15]
    cases q with
    | some u => rfl
    | none =>
      cases k with
      | some r => exact again_resume ..
      | none =>
        dsimp only [Option.map_none]
        split <;> rfl

theorem again_takeRestart (c n : Nat) (rest : List (FrameReq × FrameAns)) (r : FrameReq) (w f p : Word) (sus : Option Nat) :
    (s.again tid).takeRestart c n rest r w f p sus = (s.takeRestart c n rest r w f p sus).again tid := by
  unfold State.takeRestart
  rw [again_modCore, again_restartIn]
  generalize ((s.modCore c fun x => { x with restarts := rest }).restartIn c n r w f p sus) = u
  dsimp only
  rw [show (u.again tid).slot c n = u.slot c n from rfl]
  split <;> rfl

theorem again_takeCompute (c n : Nat) : (s.again tid).takeCompute c n = (s.takeCompute c n).again tid := by
  unfold State.takeCompute
  rw [show (s.again tid).core c = s.core c from rfl]
  split
  · exact again_takeRestart ..
  · exact again_takeWaiting ..

theorem again_takeOne (c n : Nat) : (s.again tid).takeOne c n = (s.takeOne c n).again tid := by
  rw [takeOne_eq, takeOne_eq, show (s.again tid).core c = s.core c from rfl,
    show (s.again tid).closingOn c = s.closingOn c from rfl, again_takeChannel, again_takeCompute]
  split
  · rfl
  · split <;> rfl

end

section
variable (s : State) (tid : Nat)

theorem again_headSlot (c : Nat) : (s.again tid).headSlot c = s.headSlot c := by
  unfold State.headSlot
  rw [again_porterKept]
  rfl

theorem again_drainRing (k c : Nat) : State.drainRing k c (s.again tid) = (State.drainRing k c s).again tid := by
  induction k generalizing s with
  | zero => rfl
  | succ k ih =>
    unfold State.drainRing
    rw [again_headSlot]
    split
    · rfl
    · next n _ =>
      dsimp only
      rw [again_takeOne, ih]
      generalize s.takeOne c n = u
      rw [show ((u.again tid).core c).ring = (u.core c).ring from rfl, show ((s.again tid).core c).ring = (s.core c).ring from rfl]
      split <;> rfl

theorem again_takeWork (c n : Nat) : (s.again tid).takeWork c n = (s.takeWork c n).again tid := by
  unfold State.takeWork
  rw [again_takeOne, again_drainRing]
  split <;> rfl

theorem again_freeSlot (c n : Nat) : (s.again tid).freeSlot c n = (s.freeSlot c n).again tid := by
  unfold State.freeSlot
  rw [again_modSlot, again_takeWork]

/-- The records of a ring whose thread is gone are skip records. -/
def Core.ringCut (x : Core) (size : Nat) (gone : RingRec → Bool) : Core :=
  ({ x with ring := x.ring.map fun (r : RingRec) =>
      if gone r then { r with kind := 3, amo := none, tid := none } else r } : Core).ringStrip size

theorem cutRing_eq (s : State) (c : Nat) (g : RingRec → Bool) : s.cutRing c g =
    if ((s.modCore c fun x => x.ringCut (s.ringSize c) g).core c).ring.isEmpty then s.modCore c fun x => x.ringCut (s.ringSize c) g
    else (List.range 16).foldl (fun s n => s.takeWork c n) (s.modCore c fun x => x.ringCut (s.ringSize c) g) := rfl

theorem again_cutRing (c : Nat) (g : RingRec → Bool) : (s.again tid).cutRing c g = (s.cutRing c g).again tid := by
  rw [cutRing_eq, cutRing_eq, ringSize_again, again_modCore]
  generalize s.modCore c (fun x => x.ringCut (s.ringSize c) g) = u
  rw [show ((u.again tid).core c).ring = (u.core c).ring from rfl,
    again_foldl (fun v n => again_takeWork v tid c n)]
  split <;> rfl

/-- The place that a dropped trip had taken is free. -/
def State.dropTrip (s : State) (p : Nat × Body) : State :=
  match p.2 with
  | .amo a => match a.path with
    | .slot c n => s.freeSlot c n
    | .ring c => s.cutRing c fun r => r.amo == some p.1
    | _ => { s with cores := s.cores.map fun x => (x.1, { x.2 with held := x.2.held.filter fun h => h.1 != p.1 }) }
  | _ => s

theorem again_dropTrip (p : Nat × Body) : (s.again tid).dropTrip p = (s.dropTrip p).again tid := by
  unfold State.dropTrip
  split
  · split
    · exact again_freeSlot ..
    · exact again_cutRing ..
    · rfl
  · rfl

/-- A trip of the `amo` of a thread. -/
def tripOf (j : Nat) (p : Nat × Body) : Bool :=
  match p.2 with
  | .amo a => a.tid == j && a.path.trip
  | _ => false

theorem dropAmos_eq (s : State) (j : Nat) : s.dropAmos j =
    (s.net.filter (tripOf j) ++ s.waits.filter (tripOf j)).foldl State.dropTrip
      { s with net := s.net.filter fun p => !tripOf j p, waits := s.waits.filter fun p => !tripOf j p } := rfl

theorem again_dropAmos (j : Nat) : (s.again tid).dropAmos j = (s.dropAmos j).again tid := by
  rw [dropAmos_eq, dropAmos_eq, ← again_foldl fun u p => again_dropTrip u tid p]
  rfl

/-- A change of the thread sees no difference where it was put back before. -/
theorem modThread_again (f : Thread → Thread) : (s.again tid).modThread tid f = s.modThread tid f := by
  cases h : tget s.threads tid with
  | none => rw [again_of_none s tid h]
  | some t =>
    have h2 : tget (s.again tid).threads tid = some t := (thread_again s tid tid).trans h
    rw [State.modThread_of _ f h2, State.modThread_of s f h, again_of_some s tid h, tput_tput]

theorem again_undoOnce (t : Thread) : (s.again tid).undoOnce t = (s.undoOnce t).again tid := by
  unfold State.undoOnce
  cases t.bundle with
  | none => rfl
  | some b =>
    dsimp only
    rw [apply_ite (State.again · tid)]
    rfl

/-- What a bundle has popped goes back to its ports, and its step of a `once` unit is undone. -/
def State.returnPops (s : State) (t : Thread) (u : Undo) : State :=
  let s := (if t.onCore then u.pops else []).foldl (fun (s : State) (p : BitVec 3 × Word) =>
    s.modCore t.homeCore fun c => c.setPort p.1 (p.2 :: c.portWords p.1)) s
  if t.onCore then s.undoOnce t else s

theorem again_returnPops (t : Thread) (u : Undo) : (s.again tid).returnPops t u = (s.returnPops t u).again tid := by
  unfold State.returnPops
  dsimp only
  rw [again_foldl fun _ _ => rfl]
  split
  · exact again_undoOnce ..
  · rfl

/-- A load or an `amo` of a thread, wherever it waits. -/
def waitOf (j : Nat) (b : Body) : Bool :=
  match b with
  | .access a | .refusedAccess a => a.tid == j && (match a.kind with | .load _ => true | _ => false)
  | .amo a | .refusedAmo a => a.tid == j
  | _ => false

/-- A request of a thread that was refused, or a pattern of it that has not left its core. -/
def refusedOf (j : Nat) (b : Body) : Bool :=
  match b with
  | .refusedAccess _ | .refusedAmo _ => waitOf j b
  | .refusedFrame r => r.tid == j
  | .heap (.pattern _ _ _ _ (some w)) => w.1 == j
  | _ => false

/-- What waits for a thread is gone from the network, the waiting tables, the heaps, the barriers and its core. -/
def State.unwait (s : State) (j : Nat) (t : Thread) : State :=
  let s : State := { s with
    net := s.net.filter fun p => !refusedOf j p.2
    waits := s.waits.filter fun p => !waitOf j p.2
    heaps := s.heaps.map fun (p : Nat × Heap) => (p.1, { p.2 with waiting := p.2.waiting.filter fun w => w.1 != j }) }
  let s := s.modLaunch t.launch fun l => { l with
    bars := l.bars.map fun b => { b with arrived := b.arrived.filter fun x => x != j } }
  if t.onCore then s.modCore t.homeCore fun c => c.abandon j else s

theorem again_unwait (j : Nat) (t : Thread) : (s.again tid).unwait j t = (s.unwait j t).again tid := by
  unfold State.unwait
  dsimp only
  rw [apply_ite (State.again · tid)]
  rfl

/-- The bundle of a thread was one of a gang's units. -/
def Thread.gangUnit (t : Thread) : Bool :=
  match t.bundle with | some b => b.instrs.contains .once && t.gang | none => false

theorem leaveWaits_of_undo {t : Thread} {u : Undo} {c n : Nat} (ht : tget s.threads tid = some t) (hp : t.place = .slot c n)
    (hu : t.undo = some u) : s.leaveWaits tid = (((s.dropAmos tid).unwait tid t).returnPops t u).modThread tid fun x =>
      { x.undone u with wait := none, outst := none, occ := if t.gangUnit then x.occ - 1 else x.occ } := by
  unfold State.leaveWaits
  simp only [State.thread?, ht, hp, hu]
  rfl

theorem leaveWaits_of_none {t : Thread} {c n : Nat} (ht : tget s.threads tid = some t) (hp : t.place = .slot c n)
    (hu : t.undo = none) : s.leaveWaits tid = ((s.dropAmos tid).unwait tid t).modThread tid fun x =>
      { x with wait := none, outst := none } := by
  unfold State.leaveWaits
  simp only [State.thread?, ht, hp, hu]
  rfl

/-- A thread that is put back as it stands leaves its waits as it does where it stands. -/
theorem again_leaveWaits {t : Thread} {c n : Nat} (ht : tget s.threads tid = some t) (hp : t.place = .slot c n) :
    (s.again tid).leaveWaits tid = s.leaveWaits tid := by
  have ha : tget (s.again tid).threads tid = some t := (thread_again s tid tid).trans ht
  cases hu : t.undo with
  | none =>
    rw [leaveWaits_of_none _ _ ha hp hu, leaveWaits_of_none _ _ ht hp hu, again_dropAmos, again_unwait, modThread_again]
  | some u =>
    rw [leaveWaits_of_undo _ _ ha hp hu, leaveWaits_of_undo _ _ ht hp hu, again_dropAmos, again_unwait, again_returnPops,
      modThread_again]

/-- A fault is raised alike at a thread that was put back as it stands. -/
theorem again_raise {t : Thread} {c n : Nat} (ht : tget s.threads tid = some t) (hp : t.place = .slot c n) (f : Flt) :
    (s.again tid).raise tid f = s.raise tid f := by
  have hth : s.thread? tid = some t := ht
  unfold State.raise
  rw [thread_again, hth]
  dsimp only
  rw [again_leaveWaits s tid ht hp]

end

/-! ### Destinations -/

/-- A value for destination d would be a double fill. -/
def Regs.taken (r : Regs) (d : Nat) : Bool := r.fullDst d && d != 0

theorem gfull_setG (r : Regs) (n : BitVec 5) (v : Word) (d : Nat) (h : d ≠ n.toNat) :
    (r.setG n v).gfull.getLsbD d = r.gfull.getLsbD d := by
  unfold Regs.setG
  split
  · rfl
  · by_cases hd : d < 32
    · have : (1#32 <<< n.toNat).getLsbD d = false := by
        rw [BitVec.getLsbD_shiftLeft]
        simp only [BitVec.getLsbD_one]
        rcases Nat.lt_or_ge d n.toNat with hl | hg
        · simp [hl]
        · have : d - n.toNat ≠ 0 := by omega
          simp [this]
      rw [BitVec.getLsbD_or, this, Bool.or_false]
    · rw [BitVec.getLsbD_of_ge _ _ (by omega), BitVec.getLsbD_of_ge _ _ (by omega)]

theorem vfull_setV (r : Regs) (n : BitVec 3) (v : Vec) (d : Nat) (h : d ≠ n.toNat) :
    (r.setV n v).vfull.getLsbD d = r.vfull.getLsbD d := by
  unfold Regs.setV
  by_cases hd : d < 8
  · have : (1#8 <<< n.toNat).getLsbD d = false := by
      rw [BitVec.getLsbD_shiftLeft]
      simp only [BitVec.getLsbD_one]
      rcases Nat.lt_or_ge d n.toNat with hl | hg
      · simp [hl]
      · have : d - n.toNat ≠ 0 := by omega
        simp [this]
    rw [BitVec.getLsbD_or, this, Bool.or_false]
  · rw [BitVec.getLsbD_of_ge _ _ (by omega), BitVec.getLsbD_of_ge _ _ (by omega)]

/-- A value that is stored leaves the other destinations as full as they were. -/
theorem taken_setDst (r : Regs) {d e : Nat} (hd : d < 40) (he : e < 40) (hne : d ≠ e) (v : Vec) :
    (r.setDst e v).taken d = r.taken d := by
  unfold Regs.taken Regs.fullDst Regs.setDst
  by_cases h1 : e < 32
  · rw [if_pos h1]
    split
    · have hn : d ≠ (BitVec.ofNat 5 e).toNat := by
        rw [BitVec.toNat_ofNat, Nat.mod_eq_of_lt (by omega)]
        exact hne
      rw [Regs.fullG, Regs.fullG, gfull_setG _ _ _ _ hn]
    · unfold Regs.setG
      split <;> rfl
  · rw [if_neg h1]
    split
    · rfl
    · have hn : d - 32 ≠ (BitVec.ofNat 3 (e - 32)).toNat := by
        rw [BitVec.toNat_ofNat, Nat.mod_eq_of_lt (by omega)]
        omega
      rw [Regs.fullV, Regs.fullV, vfull_setV _ _ _ _ hn]

/-! ### The thread that a reply lets go on -/

theorem fill_open {t : Thread} {d : Nat} (h : t.regs.taken d = false) (v : Vec) :
    t.fill d v = { t with regs := t.regs.setDst d v } := by
  unfold Thread.fill
  rw [show (t.regs.fullDst d && d != 0) = false from h]
  rfl

theorem fill_taken {t : Thread} {d : Nat} (h : t.regs.taken d = true) (v : Vec) :
    t.fill d v = { t with due := t.due ++ [.fault { cause := 0x1F, pc := (t.bundle.map BundleInfo.pc).getD 0
                                                    detail := BitVec.ofNat 64 d }] } := by
  unfold Thread.fill
  exact if_pos h

/-- The registers with values in destinations. -/
def Regs.filled (r : Regs) (xs : List (Nat × Vec)) : Regs := xs.foldl (fun r p => r.setDst p.1 p.2) r

/-- Destinations that are empty, each named once, take their values. -/
theorem fill_all {dsts : List Nat} (vs : List Vec) {t : Thread} (hn : dsts.Nodup) (ho : ∀ d ∈ dsts, d < 40 ∧ t.regs.taken d = false) :
    (dsts.zip vs).foldl (fun t p => t.fill p.1 p.2) t = { t with regs := t.regs.filled (dsts.zip vs) } := by
  induction dsts generalizing t vs with
  | nil => rfl
  | cons d dsts ih =>
    cases vs with
    | nil => rfl
    | cons v vs =>
      obtain ⟨hd, hn⟩ := List.nodup_cons.mp hn
      obtain ⟨hlt, hopen⟩ := ho d List.mem_cons_self
      rw [List.zip_cons_cons, List.foldl_cons, fill_open hopen, ih vs hn]
      · rfl
      · intro e he
        obtain ⟨hel, heo⟩ := ho e (List.mem_cons_of_mem _ he)
        exact ⟨hel, (taken_setDst _ hel hlt (by rintro rfl; exact hd he) _).trans heo⟩

/-- The thread goes on: it waits for nothing and keeps nothing to give back. -/
def Thread.goesOn (t : Thread) : Thread := { t with wait := none, outst := none, undo := none, retries := 0 }

theorem receive_open {t : Thread} {dsts : List Nat} (vs : List Vec) (hn : dsts.Nodup)
    (ho : ∀ d ∈ dsts, d < 40 ∧ t.regs.taken d = false) :
    t.receive dsts vs = { t.goesOn with regs := t.regs.filled (dsts.zip vs) } := by
  unfold Thread.receive
  rw [fill_all vs hn ho]
  rfl

theorem receive_taken {t : Thread} {d : Nat} (h : t.regs.taken d = true) (v : Vec) :
    t.receive [d] [v] = { t.goesOn with
      due := t.due ++ [.fault { cause := 0x1F, pc := (t.bundle.map BundleInfo.pc).getD 0, detail := BitVec.ofNat 64 d }] } := by
  unfold Thread.receive
  rw [List.zip_cons_cons, List.foldl_cons, fill_taken h]
  rfl

/-! ### What the bundle owes its ports -/

/-- The thread with the words that its bundle owed to its ports pushed. -/
def Thread.paid (t : Thread) : Thread := { t with undo := t.undo.map fun u => { u with pushes := [] } }

theorem paid_of_none {t : Thread} (h : t.undo = none) : t.paid = t := by
  unfold Thread.paid
  rw [h, Option.map_none, ← h]

theorem paid_of_owed_nil {t : Thread} (h : t.owed = []) : t.paid = t := by
  cases hu : t.undo with
  | none => exact paid_of_none hu
  | some u =>
    have hp : u.pushes = [] := by
      rw [Thread.owed, hu] at h
      exact h
    obtain ⟨regs, flags, pops, pushes, order⟩ := u
    cases hp
    unfold Thread.paid
    rw [hu, Option.map_some, ← hu]

section
variable {s : State} {tid : Nat} {t : Thread} (h : tget s.threads tid = some t)
include h

theorem pay_of_none (hu : t.undo = none) : s.pay tid = s := by
  have hth : s.thread? tid = some t := h
  unfold State.pay
  rw [hth]
  dsimp only
  rw [hu]

theorem pay_of_undo {u : Undo} (hu : t.undo = some u) : s.pay tid = (s.pushAll t.homeCore u.pushes).modThread tid Thread.paid := by
  have hth : s.thread? tid = some t := h
  unfold State.pay
  rw [hth]
  dsimp only
  rw [hu]
  rfl

theorem pay_modThread (f : Thread → Thread) :
    (s.pay tid).modThread tid f = { s.pushAll t.homeCore t.owed with threads := tput s.threads tid (f t.paid) } := by
  cases hu : t.undo with
  | none =>
    rw [pay_of_none h hu, paid_of_none hu, Thread.owed, hu]
    exact s.modThread_of f h
  | some u =>
    obtain ⟨x, hx⟩ := pushAll_frame s t.homeCore u.pushes
    have h1 : tget ({ s with cores := x } : State).threads tid = some t := h
    rw [pay_of_undo h hu, Thread.owed, hu]
    dsimp only
    rw [hx, State.modThread_of _ Thread.paid h1, State.modThread_of _ f (t := t.paid) (tget_tput_self ..), tput_tput]

/-- A bundle that owes nothing pays nothing. -/
theorem pay_of_owed_nil (ho : t.owed = []) : s.pay tid = s ∨ s.pay tid = s.again tid := by
  cases hu : t.undo with
  | none => exact .inl (pay_of_none h hu)
  | some u =>
    have hp : u.pushes = [] := by
      rw [Thread.owed, hu] at ho
      exact ho
    rw [pay_of_undo h hu, hp, again_of_some s tid h, ← paid_of_owed_nil ho]
    refine .inr ((s.modThread_of _ h).trans ?_)
    rw [paid_of_owed_nil ho]

theorem core_pay (ho : t.owed = []) (c : Nat) : (s.pay tid).core c = s.core c := by
  rcases pay_of_owed_nil h ho with h1 | h1 <;> rw [h1]
  rfl

end

theorem pushAll_nil (s : State) (c : Nat) : s.pushAll c [] = s := rfl

theorem pay_raise {s : State} {tid : Nat} {t : Thread} {c n : Nat} (h : tget s.threads tid = some t) (hp : t.place = .slot c n)
    (ho : t.owed = []) (f : Flt) : (s.pay tid).raise tid f = s.raise tid f := by
  rcases pay_of_owed_nil h ho with h1 | h1 <;> rw [h1]
  exact again_raise s tid h hp f

/-! ### What a reply does -/

/-- The hart that fills the destinations of a thread's bundle. -/
def Thread.hart (t : Thread) : Option Nat := t.bundle.bind fun b => b.instrs.findSome? hartOf

/-- The predicate and the lane of the `post` among instructions. -/
def postOf (i : Instr) : Option (BitVec 3 × BitVec 2) := match i with | .post p _ k => some (p, k) | _ => none

/-- The values of a reply go to the destinations of a thread, by a hart or not. -/
def State.givenBy (s : State) (tid core : Nat) (hart : Option Nat) (dsts : List Nat) (vs : List Vec) : State :=
  match hart with
  | some q => s.hartFill tid core q dsts vs
  | none => s.modThread tid fun t => t.receive dsts vs

theorem postOf_none {is : List Instr} (h : ∀ p a k, Instr.post p a k ∉ is) : is.findSome? postOf = none := by
  rw [List.findSome?_eq_none_iff]
  intro i hi
  unfold postOf
  split
  · exact absurd hi (h _ _ _)
  · rfl

theorem postReplyOnce_alone {t : Thread} (h : t.unitOf = none) (s : State) (xs : List (Nat × Vec)) :
    s.postReplyOnce t xs = s := by
  unfold State.postReplyOnce
  rw [h]

section
variable {s : State} {id tid : Nat} {back : Option (Nat × Word)} {ans : Answer} {t : Thread} {dsts : List Nat} {c n : Nat}
  (hn : tget s.net id = some (.reply tid back ans)) (hm : s.mayReturn id)
  (ht : tget s.threads tid = some t) (ho : t.outst = some (id, dsts)) (hp : t.place = .slot c n)
include hn hm ht ho hp

theorem loadReply_fault {cause qual : Nat} {detail : Word} (ha : ans = .fault cause qual detail) : exec (.loadReply id) s =
    .next ((s.dropPacket id).raise tid { cause := cause, qual := qual, half := bundleHalf t.bundle
                                         pc := (t.bundle.map BundleInfo.pc).getD 0, detail := detail, bundle := t.bundle }) := by
  subst ha
  have hth : (s.dropPacket id).thread? tid = some t := ht
  have hpk : s.packet? id = some (.reply tid back (.fault cause qual detail)) := hn
  rw [show exec (.loadReply id) s = .next (loadReplyStep id s) from rfl]
  unfold loadReplyStep
  simp only [hpk, hm, Bool.not_true, Bool.false_eq_true, if_false, hth, ho, bne_self_eq_false, hp]

theorem loadReply_vals {vs : List Vec} (ha : ans = .vals vs) (hu : t.unitOf = none)
    (hb : ∀ b, t.bundle = some b → ∀ p a k, Instr.post p a k ∉ b.instrs) : exec (.loadReply id) s =
    .next (((s.dropPacket id).pay tid).givenBy tid ((back.map Prod.fst).getD channelBase) t.hart dsts vs) := by
  subst ha
  have hth : (s.dropPacket id).thread? tid = some t := ht
  have hpk : s.packet? id = some (.reply tid back (.vals vs)) := hn
  rw [show exec (.loadReply id) s = .next (loadReplyStep id s) from rfl]
  unfold loadReplyStep
  simp only [hpk, hm, Bool.not_true, Bool.false_eq_true, if_false, hth, ho, bne_self_eq_false, hp]
  cases hbu : t.bundle with
  | none =>
    unfold Thread.hart
    rw [hbu]
    rfl
  | some b =>
    unfold Thread.hart
    rw [hbu]
    dsimp only
    split
    · next p k hx => exact absurd ((postOf_none (hb b hbu)).symm.trans hx) (Option.some_ne_none _).symm
    · rw [postReplyOnce_alone hu]
      rfl

theorem loadReply_post {b : BundleInfo} {p : BitVec 3} {a : Reg} {k : BitVec 2} {v : Vec} (ha : ans = .vals [v])
    (hb : t.bundle = some b) (hi : b.instrs = [.post p a k]) : exec (.loadReply id) s =
    .next (((s.dropPacket id).pay tid).postReply tid t p k v) := by
  subst ha
  have hth : (s.dropPacket id).thread? tid = some t := ht
  have hpk : s.packet? id = some (.reply tid back (.vals [v])) := hn
  rw [show exec (.loadReply id) s = .next (loadReplyStep id s) from rfl]
  unfold loadReplyStep
  simp only [hpk, hm, Bool.not_true, Bool.false_eq_true, if_false, hth, ho, bne_self_eq_false, hp, hb, hi]
  rfl

end

/-- A reply that nobody waits for is discarded. -/
theorem loadReply_nobody {s : State} {id tid : Nat} {back : Option (Nat × Word)} {ans : Answer}
    (hn : tget s.net id = some (.reply tid back ans)) (hm : s.mayReturn id)
    (h : ∀ t, tget s.threads tid = some t → ∀ dsts, t.outst ≠ some (id, dsts)) :
    exec (.loadReply id) s = .next (s.dropPacket id) := by
  have hpk : s.packet? id = some (.reply tid back ans) := hn
  have hth : (s.dropPacket id).thread? tid = tget s.threads tid := rfl
  rw [show exec (.loadReply id) s = .next (loadReplyStep id s) from rfl]
  unfold loadReplyStep
  simp only [hpk, hm, Bool.not_true, Bool.false_eq_true, if_false, hth]
  cases ht : tget s.threads tid with
  | none => rfl
  | some t =>
    cases ho : t.outst with
    | none => simp only [ho]
    | some x =>
      obtain ⟨m, dsts⟩ := x
      have hne : m ≠ id := fun e => h t ht dsts (by rw [ho, e])
      simp only [ho, bne_iff_ne, ne_eq, hne, not_false_eq_true, if_true]

/-! ### Values given by a hart or not -/

/-- What a double fill by a hart is reported as. -/
def State.doubleFill (s : State) (core qual d : Nat) (t : Thread) : Report :=
  { cause := 0x44, qual := qual, core := s.coreLabel core, detail := BitVec.ofNat 64 d, asid := (s.launchOf t).asid }

/-- Double fills of a hart are reported. -/
def State.reported (s : State) (core qual : Nat) (t : Thread) (ds : List Nat) : State :=
  ds.foldl (fun s d => s.report (dieOf core) (s.doubleFill core qual d t)) s

theorem hartFill_of_some {s : State} {tid : Nat} {t : Thread} (h : s.thread? tid = some t) (core qual : Nat) (dsts : List Nat)
    (vs : List Vec) : s.hartFill tid core qual dsts vs
      = (s.reported core qual t (dsts.filter t.regs.taken)).modThread tid fun x =>
          x.receive (((dsts.zip vs).filter fun p => !t.regs.taken p.1).map Prod.fst)
            (((dsts.zip vs).filter fun p => !t.regs.taken p.1).map Prod.snd) := by
  unfold State.hartFill
  rw [h]
  rfl

/-- A hart's values fill the destinations that are empty as any reply does. -/
theorem hartFill_open {s : State} {tid : Nat} {t : Thread} (h : s.thread? tid = some t) (core qual : Nat) {dsts : List Nat}
    (vs : List Vec) (ho : ∀ d ∈ dsts, t.regs.taken d = false) :
    s.hartFill tid core qual dsts vs = s.modThread tid fun t => t.receive dsts vs := by
  have h1 : dsts.filter t.regs.taken = [] := List.filter_eq_nil_iff.2 fun d hd => by rw [ho d hd]; exact Bool.false_ne_true
  have h2 : (dsts.zip vs).filter (fun p => !t.regs.taken p.1) = dsts.zip vs := List.filter_eq_self.2 fun p hp => by
    rw [ho p.1 (List.of_mem_zip hp).1]
    rfl
  rw [hartFill_of_some h, h1, h2]
  refine congrArg (s.modThread tid) (funext fun x => ?_)
  unfold Thread.receive
  rw [← List.zip_of_prod rfl rfl]

/-- A value of a hart for a full register is reported, and its thread goes on without it. -/
theorem hartFill_taken {s : State} {tid : Nat} {t : Thread} (h : s.thread? tid = some t) (core qual : Nat) {d : Nat} (v : Vec)
    (hd : t.regs.taken d = true) : s.hartFill tid core qual [d] [v] = (s.report (dieOf core) (s.doubleFill core qual d t)).modThread tid Thread.goesOn := by
  rw [hartFill_of_some h, List.filter_cons_of_pos hd, List.zip_cons_cons, List.filter_cons_of_neg (by rw [hd]; exact Bool.false_ne_true)]
  unfold State.reported Thread.receive
  dsimp only [List.filter_nil, List.foldl_cons, List.foldl_nil]
  congr 1

/-! ### The values of a reply, once what the bundle owes is paid -/

section
variable {s : State} {tid : Nat} {t : Thread} (h : tget s.threads tid = some t)
include h

theorem thread_pay : (s.pay tid).thread? tid = some t.paid := by
  cases hu : t.undo with
  | none =>
    rw [pay_of_none h hu, paid_of_none hu]
    exact h
  | some u =>
    obtain ⟨x, hx⟩ := pushAll_frame s t.homeCore u.pushes
    have h1 : tget ({ s with cores := x } : State).threads tid = some t := h
    rw [pay_of_undo h hu, hx, State.modThread_of _ Thread.paid h1]
    exact tget_tput_self ..

/-- Destinations that are empty, each named once, take their values, with a hart or without. -/
theorem pay_givenBy_open (core : Nat) (hart : Option Nat) {dsts : List Nat} (vs : List Vec) (hn : dsts.Nodup)
    (ho : ∀ d ∈ dsts, d < 40 ∧ t.regs.taken d = false) : (s.pay tid).givenBy tid core hart dsts vs
      = { s.pushAll t.homeCore t.owed with
          threads := tput s.threads tid { t.goesOn with regs := t.regs.filled (dsts.zip vs) } } := by
  have hr : (s.pay tid).givenBy tid core hart dsts vs = (s.pay tid).modThread tid fun x => x.receive dsts vs := by
    cases hart with
    | none => rfl
    | some q => exact hartFill_open (thread_pay h) _ _ _ fun d hd => (ho d hd).2
  rw [hr, pay_modThread h, receive_open (t := t.paid) vs hn ho]
  rfl

theorem pay_givenBy_taken (core : Nat) {d : Nat} (v : Vec) (ho : t.owed = []) (hd : t.regs.taken d = true) :
    (s.pay tid).givenBy tid core none [d] [v] = { s with threads := tput s.threads tid { t.goesOn with
      due := t.due ++ [.fault { cause := 0x1F, pc := (t.bundle.map BundleInfo.pc).getD 0, detail := BitVec.ofNat 64 d }] } } := by
  refine (pay_modThread h fun x => x.receive [d] [v]).trans ?_
  rw [ho, receive_taken (t := t.paid) hd]
  rfl

/-- A value of a hart for a full register is reported, and the thread goes on without it. -/
theorem pay_hartFill_taken (core qual : Nat) {d : Nat} (v : Vec) (ho : t.owed = []) (hd : t.regs.taken d = true) :
    (s.pay tid).hartFill tid core qual [d] [v] = { s.report (dieOf core) (s.doubleFill core qual d t) with
      threads := tput s.threads tid t.goesOn } := by
  have hr : (s.report (dieOf core) (s.doubleFill core qual d t)).modThread tid Thread.goesOn
      = { s.report (dieOf core) (s.doubleFill core qual d t) with threads := tput s.threads tid t.goesOn } := by
    obtain ⟨m, hm⟩ := report_frame s (dieOf core) (s.doubleFill core qual d t)
    rw [hm]
    exact State.modThread_of _ _ h
  have ht : (s.pay tid).thread? tid = some t := (thread_pay h).trans (congrArg some (paid_of_owed_nil ho))
  rw [hartFill_taken ht _ _ _ hd, ← hr]
  rcases pay_of_owed_nil h ho with h1 | h1
  · rw [h1]
  · rw [h1, again_report, modThread_again]
    rfl

end

/-! ### The reply of `post` -/

/-- The four words of a task entry. -/
def entryWords (v : Vec) : List Word := (List.range 4).map fun i => v.extractLsb' (64 * i) 64

/-- The first word of a task entry names no code. -/
def badEntry (v : Vec) : Prop := v.extractLsb' 0 64 = 0 ∨ (v.extractLsb' 0 64).toNat % 8 ≠ 0

/-- The thread goes on with a predicate written. -/
def Thread.answered (p : BitVec 3) (b : Bool) (t : Thread) : Thread := { t.receive [] [] with regs := t.regs.setP p b }

section
variable {s : State} {t : Thread} {c n : Nat} (hp : t.place = .slot c n) (tid : Nat) (p : BitVec 3) {k : BitVec 2} (v : Vec)
include hp

theorem coreNow_slot : t.coreNow = c := by
  unfold Thread.coreNow
  rw [hp]

theorem postReply_full (hc : ((s.core c).lane k.toNat).count = 32) :
    s.postReply tid t p k v = s.modThread tid (Thread.answered p false) := by
  unfold State.postReply
  rw [coreNow_slot hp]
  exact if_pos hc

theorem postReply_bad (hc : ((s.core c).lane k.toNat).count ≠ 32) (hb : badEntry v) :
    s.postReply tid t p k v = s.raise tid { cause := 0x21, qual := 3, half := .lone, pc := (t.bundle.map BundleInfo.pc).getD 0
                                            detail := v.extractLsb' 0 64, bundle := t.bundle } := by
  unfold State.postReply
  rw [coreNow_slot hp]
  refine (if_neg hc).trans (if_pos ?_)
  change (decide (v.extractLsb' 0 64 = 0) || (v.extractLsb' 0 64).toNat % 8 != 0) = true
  rw [Bool.or_eq_true, decide_eq_true_eq, bne_iff_ne]
  exact hb

theorem postReply_good (hc : ((s.core c).lane k.toNat).count ≠ 32) (hb : ¬ badEntry v) :
    s.postReply tid t p k v = (s.modThread tid (Thread.answered p true)).pushLane c k.toNat (entryWords v) none := by
  unfold State.postReply
  rw [coreNow_slot hp]
  refine (if_neg hc).trans (if_neg ?_)
  change ¬ (decide (v.extractLsb' 0 64 = 0) || (v.extractLsb' 0 64).toNat % 8 != 0) = true
  rw [Bool.or_eq_true, decide_eq_true_eq, bne_iff_ne]
  exact hb

end

/-- The entry of a `post` is pushed on a lane with room, and its thread goes on with true. -/
theorem postReply_pushed {s : State} {tid : Nat} {t : Thread} {c n : Nat} (h : tget s.threads tid = some t)
    (hp : t.place = .slot c n) (ho : t.owed = []) {lid : Nat} {l : Launch} (hl : s.launchOn c = some (lid, l)) (hcalm : s.calmAt c)
    (p : BitVec 3) {k : BitVec 2} {v : Vec} (hc : ((s.core c).lane k.toNat).count ≠ 32) (hb : ¬ badEntry v) :
    ∃ u, (s.pay tid).postReply tid t p k v = u
      ∧ u = { s with mem := u.mem, empt := u.empt, threads := u.threads, cores := u.cores }
      ∧ u.mem = writeWords s.mem (laneKey c l k.toNat ((s.core c).lane k.toNat)) (entryWords v)
      ∧ u.empt = (s.fillWords (laneKey c l k.toNat ((s.core c).lane k.toNat)) 32).empt
      ∧ (u.core c).lanes = (s.core c).lanes.set k.toNat (((s.core c).lane k.toNat).push []) k.isLt
      ∧ tget u.threads tid = some { t.goesOn with regs := t.regs.setP p true } := by
  have hx : (s.pay tid).postReply tid t p k v = ({ s with threads := tput s.threads tid (t.answered p true) } : State).lanePushed
      c l k (entryWords v) [] := by
    rw [postReply_good hp tid p v (by rw [core_pay h ho]; exact hc) hb, pay_modThread h, ho, pushAll_nil, paid_of_owed_nil ho]
    exact pushLane_calm (s := { s with threads := tput s.threads tid (t.answered p true) }) hl hcalm k (entryWords v) none
  generalize hw : ({ s with threads := tput s.threads tid (t.answered p true) } : State) = w at hx
  have hwc : w.core c = s.core c := by rw [← hw]; rfl
  obtain ⟨x, y, hf⟩ := lanePushed_frame w c l k (entryWords v) []
  refine ⟨_, hx, ?_, ?_, ?_, ?_, ?_⟩
  · rw [hf, ← hw]
  · rw [hf, hwc, ← hw]
  · rw [hf, hwc]
    exact empt_fillWords_congr (u := w) (s := s) (by rw [← hw]) _ _
  · rw [(lanePushed_lanes w c l k (entryWords v) []).here, hwc]
  · obtain ⟨z, hz⟩ := wakeTasks_frame (w.laneWritten c l k (entryWords v) []) c
    have hj : tget ((w.laneWritten c l k (entryWords v) []).wakeTasks c).threads tid = some (t.answered p true) := by
      rw [hz, ← hw]
      exact tget_tput_self ..
    obtain ⟨r, hr, hcase⟩ := threads_signal c hj
    rcases hcase with rfl | ⟨-, q, hq⟩
    · exact hr
    · exact absurd hq (Option.some_ne_none _).symm

/-! ### Acknowledgements -/

/-- An entry that no lane waits for changes no lane. -/
theorem laneAcked_unawaited {s : State} {c id : Nat} (h : ∀ y ∈ (s.core c).lanes.toList, ∀ p ∈ y.pend, p.2 ≠ id) (b : Bool) :
    s.laneAcked c id b = s := by
  have hk : ∀ k, ((s.core c).lane k).pend.find? (fun p => p.2 == id) = none := by
    intro k
    rw [List.find?_eq_none]
    intro p hp
    rw [beq_iff_eq]
    rcases Nat.lt_or_ge k (s.core c).lanes.toList.length with hlt | hge
    · rw [Core.lane, List.getD_eq_getElem _ _ hlt] at hp
      exact h _ (List.getElem_mem hlt) p hp
    · rw [Core.lane, List.getD_eq_default _ _ hge] at hp
      exact absurd hp List.not_mem_nil
  unfold State.laneAcked
  split
  · rfl
  · refine List.foldlRecOn (List.range 4) _ (motive := fun u => u = s) rfl ?_
    rintro u rfl k -
    have := hk k
    unfold Core.lane at this
    dsimp only
    rw [this]

theorem awaits_iff (t : Thread) (e home : Nat) : t.awaits e home = true ↔
    t.wait = some (.cond (.acked e)) ∨ t.wait = some (.cond .released) ∨ t.wait = some (.cond (.releasedHome home))
      ∨ t.wait = some .drain := by
  unfold Thread.awaits
  split <;> simp_all

section
variable {s : State} {id e : Nat} {x : SqEntry} (hm : s.mayReturn id) (hx : tget s.sq e = some x)
  (hl : ∀ y ∈ (s.core x.core).lanes.toList, ∀ p ∈ y.pend, p.2 ≠ e)
include hm hx hl

theorem storeAck_done (hn : tget s.net id = some (.ack e none)) :
    exec (.storeAck id) s = .next { s with net := tdel s.net id, sq := tdel s.sq e } := by
  have hpk : s.packet? id = some (.ack e none) := hn
  have hq : tget (s.dropPacket id).sq e = some x := hx
  rw [show exec (.storeAck id) s = .next (storeAckStep id s) from rfl]
  unfold storeAckStep
  simp only [hpk, hm, Bool.not_true, Bool.false_eq_true, if_false, hq]
  rw [laneAcked_unawaited (s := s.dropPacket id) hl]
  rfl

theorem storeAck_failed {cause qual : Nat} (hn : tget s.net id = some (.ack e (some (cause, qual)))) {t : Thread}
    (ht : tget s.threads x.tid = some t) : exec (.storeAck id) s = .next { s with
      net := tdel s.net id, sq := tput s.sq e { x with state := .failed cause qual (t.awaits e x.home) } } := by
  have hpk : s.packet? id = some (.ack e (some (cause, qual))) := hn
  have hq : tget (s.dropPacket id).sq e = some x := hx
  have hth : (s.dropPacket id).thread? x.tid = some t := ht
  rw [show exec (.storeAck id) s = .next (storeAckStep id s) from rfl]
  unfold storeAckStep
  simp only [hpk, hm, Bool.not_true, Bool.false_eq_true, if_false, hq]
  rw [laneAcked_unawaited (s := s.dropPacket id) hl, hth]
  rfl

end

/-- Settles O20: what the bundle owes is paid before the reply reaches its destinations, its hart or its `post`; a bundle that
owes nothing is put back as it stands, which changes no later step. -/
theorem repliesAndAcknowledgementsReachTheirThread : Obligations.RepliesAndAcknowledgementsReachTheirThread := by
  unfold Obligations.RepliesAndAcknowledgementsReachTheirThread
  refine ⟨fun s id tid back ans hn hm => ⟨fun t dsts c n ht ho hp => ?_, loadReply_nobody hn hm⟩,
    fun s id e err x hn hm hx hl => ⟨?_, ?_⟩⟩
  · intro rest on owed paid
    have htr : tget (s.dropPacket id).threads tid = some t := ht
    refine ⟨fun vs ha hu hb hnd hd => ?_, fun b d v hds hd0 hfull ha hbu hu how hb => ?_, ?_, ?_⟩
    · have hopen : ∀ d ∈ dsts, d < 40 ∧ t.regs.taken d = false := fun d h => by
        obtain ⟨hlt, h0 | hf⟩ := hd d h
        · exact ⟨hlt, by rw [Regs.taken, h0, bne_self_eq_false, Bool.and_false]⟩
        · exact ⟨hlt, by rw [Regs.taken, hf, Bool.false_and]⟩
      rw [loadReply_vals hn hm ht ho hp ha hu hb]
      exact congrArg Host.Outcome.next (pay_givenBy_open htr _ _ vs hnd hopen)
    · have htaken : t.regs.taken d = true := by
        rw [Regs.taken, hfull, Bool.true_and, bne_iff_ne]
        exact hd0
      have hno : ∀ y, t.bundle = some y → ∀ p a k, Instr.post p a k ∉ y.instrs := by
        rintro y hy
        cases hbu.symm.trans hy
        exact hb
      subst hds
      have hart : t.hart = b.instrs.findSome? hartOf := by rw [Thread.hart, hbu, Option.bind_some]
      refine ⟨fun hh => ?_, fun q hq => ?_⟩
      · rw [loadReply_vals hn hm ht ho hp ha hu hno, hart, List.findSome?_eq_none_iff.2 hh]
        refine congrArg Host.Outcome.next ((pay_givenBy_taken htr _ v how htaken).trans ?_)
        rw [hbu]
        rfl
      · rw [loadReply_vals hn hm ht ho hp ha hu hno, hart, hq]
        exact congrArg Host.Outcome.next (pay_hartFill_taken htr _ q v how htaken)
    · intro b p a k v lid l hbu hi ha hu how hlaunch hc hw hr y word bad key
      have hcalm : (s.dropPacket id).calmAt c := ⟨hw, hr⟩
      have hcore : ((s.dropPacket id).pay tid).core c = s.core c := core_pay htr how c
      rw [loadReply_post hn hm ht ho hp ha hbu hi]
      refine ⟨fun h32 => ?_, fun h32 hb => ?_, fun h32 hb => ?_⟩
      · rw [postReply_full hp tid p v (by rw [hcore]; exact h32)]
        refine congrArg Host.Outcome.next ((pay_modThread htr _).trans ?_)
        rw [show t.owed = [] from how, paid_of_owed_nil how]
        rfl
      · rw [postReply_bad hp tid p v (by rw [hcore]; exact h32) hb, pay_raise htr hp how, hbu]
        rfl
      · obtain ⟨u, hu, hf, hmem, hempt, hlanes, hth⟩ := postReply_pushed htr hp how hlaunch hcalm p h32 hb
        rw [hu]
        refine ⟨u, rfl, hf, hmem, ?_, ?_, hth⟩
        · exact hempt.trans (empt_fillWords_congr rfl _ _)
        · exact hlanes.trans (by rw [Lane.push, List.append_nil]; rfl)
    · exact fun cause qual detail ha => loadReply_fault hn hm ht ho hp ha
  · rintro rfl
    exact storeAck_done hm hx hl hn
  · rintro cause qual t rfl ht
    rw [storeAck_failed hm hx hl hn ht]
    simp only [← awaits_iff, Bool.decide_eq_true]

end Sys2Proof.Machine
end

section
/-!
PROOFS. Integer arithmetic (O6): integers read in a type, brought to a width and extended (R64, R119), and the instructions
that use them.
-/

namespace Sys2Proof.Machine

/-! ### Integers in a width (R64) -/

/-- The range of integers of w bits. -/
def intLow (signed : Bool) (w : Nat) : Int := if signed then -2 ^ (w - 1) else 0
def intHigh (signed : Bool) (w : Nat) : Int := if signed then 2 ^ (w - 1) - 1 else 2 ^ w - 1

/-- An exact integer clamped to the range of w bits. -/
def intClamp (signed : Bool) (w : Nat) (e : Int) : Int := max (intLow signed w) (min e (intHigh signed w))

theorem intLow_le_intHigh (signed : Bool) (w : Nat) : intLow signed w ≤ intHigh signed w := by
  have h (k : Nat) : (0 : Int) < 2 ^ k := by positivity
  cases signed
  · have := h w
    simp only [intLow, intHigh]
    grind
  · have := h (w - 1)
    simp only [intLow, intHigh]
    grind

theorem readInt_eq (signed : Bool) {w : Nat} (hw : 0 < w) (n : Nat) :
    readInt signed w n = if signed then (BitVec.ofNat w n).toInt else ((BitVec.ofNat w n).toNat : Int) := by
  obtain ⟨v, rfl⟩ : ∃ v, w = v + 1 := ⟨w - 1, by omega⟩
  cases signed with
  | false => simp [readInt]
  | true =>
    simp only [readInt, BitVec.toInt_eq_toNat_cond, BitVec.toNat_ofNat, Bool.true_and, decide_eq_true_eq, if_true,
      Nat.add_sub_cancel, Nat.pow_succ 2 v]
    have hp : (2 : Int) ^ (v + 1) = (2 ^ v * 2 : Nat) := by push_cast; ring
    rw [hp]
    split_ifs <;> omega

theorem wrapInt_eq (w : Nat) (e : Int) : wrapInt w e = (BitVec.ofInt w e).toNat := by
  simp [wrapInt, BitVec.toNat_ofInt]

theorem extend_wrapInt (signed : Bool) {w : Nat} (hw : 0 < w) (e : Int) :
    extend signed w (wrapInt w e) = if signed then (BitVec.ofInt w e).signExtend 64 else (BitVec.ofInt w e).setWidth 64 := by
  rw [extend, wrapInt_eq, readInt_eq signed hw, BitVec.ofNat_toNat, BitVec.setWidth_eq]
  cases signed with
  | false =>
    rw [if_neg Bool.false_ne_true, if_neg Bool.false_ne_true, BitVec.ofInt_natCast, BitVec.ofNat_toNat]
  | true => rfl

/-- Narrowing wraps or clamps, and raises `sv` where it clamps (R64). -/
theorem narrow_eq (signed sat : Bool) (w : Nat) (e : Int) : narrow signed sat w e =
    (wrapInt w (if sat then intClamp signed w e else e), if sat && intClamp signed w e != e then sv else 0) := by
  have hr := intLow_le_intHigh signed w
  cases sat with
  | false => rfl
  | true =>
    rw [narrow, if_neg (by simp)]
    change (if e < intLow signed w then (wrapInt w (intLow signed w), sv)
      else if intHigh signed w < e then (wrapInt w (intHigh signed w), sv) else (wrapInt w e, 0)) = _
    have low (h : e < intLow signed w) : intClamp signed w e = intLow signed w := by rw [intClamp]; omega
    have high (h : intHigh signed w < e) : intClamp signed w e = intHigh signed w := by rw [intClamp]; omega
    have mid (h : ¬ e < intLow signed w) (h' : ¬ intHigh signed w < e) : intClamp signed w e = e := by rw [intClamp]; omega
    by_cases h : e < intLow signed w
    · simp [h, low h, (ne_of_lt h).symm]
    · by_cases h' : intHigh signed w < e
      · simp [h, h', high h', ne_of_lt h']
      · simp [h, h', mid h h']

/-! ### The types of the register instructions (R119) -/

theorem typeWidth_pos (w32 : Bool) : 0 < typeWidth w32 := by cases w32 <;> decide

theorem readOp_eq (uns w32 : Bool) (x : Word) : readOp uns w32 x = typed uns w32 x := by
  rw [readOp, readInt_eq _ (typeWidth_pos w32)]
  cases uns <;> cases w32 <;> simp [typed, typeWidth]

theorem extend_type (uns w32 : Bool) (e : Int) :
    extend (!uns) (typeWidth w32) (wrapInt (typeWidth w32) e) = ofTyped uns w32 e := by
  rw [extend_wrapInt _ (typeWidth_pos w32)]
  cases uns <;> cases w32 <;> simp [ofTyped, typeWidth]

theorem intClamp_type (uns w32 : Bool) (e : Int) : intClamp (!uns) (typeWidth w32) e = clamped uns w32 e := by
  cases uns <;> cases w32 <;> rfl

theorem typedResult_eq (sat uns w32 : Bool) (e : Int) : typedResult sat uns w32 e =
    (ofTyped uns w32 (if sat then clamped uns w32 e else e), if sat && clamped uns w32 e != e then 32 else 0) := by
  simp only [typedResult, narrow_eq, intClamp_type, extend_type]
  rfl

theorem mulhOp_eq (uns w32 : Bool) (x y : Word) :
    mulhOp uns w32 x y = ofTyped uns w32 ((typed uns w32 x * typed uns w32 y) / 2 ^ (if w32 then 32 else 64)) := by
  rw [mulhOp, extend_type, readOp_eq, readOp_eq, Int.fdiv_eq_ediv_of_nonneg _ (by positivity)]
  cases w32 <;> rfl

theorem divOp_eq (uns w32 : Bool) (x y : Word) : divOp uns w32 x y =
    if typed uns w32 y = 0 then (ofTyped uns w32 0, 8)
    else (ofTyped uns w32 ((typed uns w32 x).tdiv (typed uns w32 y)), 0) := by
  simp only [divOp, readOp_eq, extend_type]
  split
  · cases uns <;> cases w32 <;> rfl
  · rfl

theorem remOp_eq (uns w32 : Bool) (x y : Word) : remOp uns w32 x y =
    if typed uns w32 y = 0 then (ofTyped uns w32 (typed uns w32 x), 8)
    else (ofTyped uns w32 (typed uns w32 x - typed uns w32 y * (typed uns w32 x).tdiv (typed uns w32 y)), 0) := by
  simp only [remOp, readOp_eq, extend_type]
  rfl

/-! ### Instructions that write one result -/

section
variable {s : State} {p : Part} {i : Instr} {d : Reg}

/-- An instruction that writes a result of its operands and raises its flags. -/
theorem exec_result (hi : s.issues p i) {eff : State → State} (he : exec i s = issue p i eff s) {r : Word × FlagBits}
    (hr : eff (s.inWith i (s.meIn i) [] (s.me.pc + 8)) = (s.inWith i (s.meIn i) [] (s.me.pc + 8)).result d r) :
    ∃ c, exec i s = .next (s.wrote i d r.1 r.2 c) := by
  obtain ⟨c, hc⟩ := finish_wrote hi d r.1 r.2
  exact ⟨c, by rw [he, issue_alone hi, hr, State.result, hc]⟩

/-- One that raises no flag. -/
theorem exec_binary (hi : s.issues p i) {a b : Reg} {f : Word → Word → Word}
    (he : exec i s = issue p i (binEffect d a b f) s) :
    ∃ c, exec i s = .next (s.wrote i d (f (s.value a) (s.value b)) 0 c) :=
  exec_result (r := (f (s.value a) (s.value b), 0)) hi he (by rw [binEffect, src_open, src_open]; rfl)

theorem exec_div {a b : Reg} {uns w32 : Bool} (hi : s.issues .a (.div d a b uns w32)) :
    ∃ c, exec (.div d a b uns w32) s = .next (s.wrote (.div d a b uns w32) d
      (divOp uns w32 (s.value a) (s.value b)).1 (divOp uns w32 (s.value a) (s.value b)).2 c) :=
  exec_result hi rfl (by rw [divEffect, src_open, src_open])

theorem exec_rem {a b : Reg} {uns w32 : Bool} (hi : s.issues .a (.rem d a b uns w32)) :
    ∃ c, exec (.rem d a b uns w32) s = .next (s.wrote (.rem d a b uns w32) d
      (remOp uns w32 (s.value a) (s.value b)).1 (remOp uns w32 (s.value a) (s.value b)).2 c) :=
  exec_result hi rfl (by rw [remEffect, src_open, src_open])

end

/-- Settles O6: the exact result of the operands as the type reads them, narrowed and extended. -/
theorem integerArithmeticFollowsItsType : Obligations.IntegerArithmeticFollowsItsType := by
  refine ⟨?_, ?_⟩
  · rintro s d a b sat uns w32 i e h hi
    suffices h' : ∃ eff, exec i s = issue .a i eff s ∧ eff (s.inWith i (s.meIn i) [] (s.me.pc + 8))
        = (s.inWith i (s.meIn i) [] (s.me.pc + 8)).result d (typedResult sat uns w32 e) by
      obtain ⟨eff, he, hr⟩ := h'
      rw [typedResult_eq] at hr
      exact exec_result hi he hr
    rcases h with ⟨rfl, rfl⟩ | ⟨rfl, rfl⟩ | ⟨rfl, rfl⟩
    · exact ⟨_, rfl, by simp only [addEffect, addOp, src_open, readOp_eq]⟩
    · exact ⟨_, rfl, by simp only [subEffect, subOp, src_open, readOp_eq]⟩
    · exact ⟨_, rfl, by simp only [mulEffect, mulOp, src_open, readOp_eq]⟩
  · rintro s d a b uns w32 i e fl h hi
    rcases h with ⟨rfl, rfl, rfl⟩ | ⟨rfl, rfl, rfl⟩ | ⟨rfl, rfl, rfl⟩ | ⟨rfl, hy, rfl, rfl⟩ | ⟨rfl, hy, rfl, rfl⟩
      | ⟨rfl, hy, rfl, rfl⟩ | ⟨rfl, hy, rfl, rfl⟩
    · rw [← extend_type, ← readOp_eq, ← readOp_eq]
      exact exec_binary (f := minOp uns w32) hi rfl
    · rw [← extend_type, ← readOp_eq, ← readOp_eq]
      exact exec_binary (f := maxOp uns w32) hi rfl
    · rw [← mulhOp_eq]
      exact exec_binary (f := mulhOp uns w32) hi rfl
    · simpa only [divOp_eq, if_neg hy] using exec_div hi
    · simpa only [divOp_eq, if_pos hy] using exec_div hi
    · simpa only [remOp_eq, if_neg hy] using exec_rem hi
    · simpa only [remOp_eq, if_pos hy] using exec_rem hi

end Sys2Proof.Machine
end

section
/-!
PROOFS. Traps (O24): one that becomes due, its delivery at a boundary (R215), the fault of a handler that meets one (R323), and
the return (R217).
-/

namespace Sys2Proof.Machine

/-! ### A trap that is due (R216) -/

theorem trap_due {s : State} {n : BitVec 16} (hi : s.issues .lone (.trap n)) :
    ∃ c, exec (.trap n) s = .next (s.afterAlone (.trap n) []
      ({ s.me with due := s.me.due ++ [Due.trap (.software n) s.me.pc s.clock] }.stepped (.trap n) (s.me.pc + 8)) c) := by
  have he : exec (.trap n) s = issue .lone (.trap n) (fun s => s.modMe fun t =>
    { t with due := t.due ++ [.trap (.software n) s.ctx.pc s.clock] }) s := rfl
  rw [he, issue_alone hi, modMe_inWith, finish_inWith]
  · exact ⟨_, by simp only [State.meIn, bankSought_of_unused (show usesBank (.trap n) = false from rfl)]; rfl⟩
  · exact issues_pending hi
  · rfl
  · rfl

/-! ### Its delivery (R215, R323) -/

/-- The word of a trap's message. -/
theorem trapWord_software (n : BitVec 16) : trapWord (.software n) = (n.setWidth 64 <<< 16) ||| 1 := by
  apply BitVec.eq_of_toNat_eq
  have hn := n.isLt
  rw [BitVec.toNat_or, BitVec.toNat_shiftLeft, BitVec.toNat_setWidth, Nat.mod_eq_of_lt (by omega), Nat.shiftLeft_eq,
    Nat.mod_eq_of_lt (by omega), Nat.mul_comm, show (1 : BitVec 64).toNat = 1 from rfl,
    ← Nat.two_pow_add_eq_or_of_lt (by norm_num), trapWord, BitVec.toNat_ofNat, Nat.mod_eq_of_lt (by omega), Nat.mul_comm]

theorem trapWord_float (fl : BitVec 6) : trapWord (.float fl) = (fl.setWidth 64 <<< 8) ||| 3 := by
  apply BitVec.eq_of_toNat_eq
  have hn := fl.isLt
  rw [BitVec.toNat_or, BitVec.toNat_shiftLeft, BitVec.toNat_setWidth, Nat.mod_eq_of_lt (by omega), Nat.shiftLeft_eq,
    Nat.mod_eq_of_lt (by omega), Nat.mul_comm, show (3 : BitVec 64).toNat = 3 from rfl,
    ← Nat.two_pow_add_eq_or_of_lt (by norm_num), trapWord, BitVec.toNat_ofNat, Nat.mod_eq_of_lt (by omega), Nat.mul_comm]

/-- A trap that is due alone is the next one. -/
theorem nextTrap_single (k : TrapKind) (pc : Word) (o : Nat) : nextTrap [.trap k pc o] = some (k, pc, []) := by
  cases k with
  | software n => rfl
  | float fl => simp [nextTrap]
  | quantum => rfl

theorem chargeFailed_none {s : State} {tid : Nat} {t : Thread} (ht : tget s.threads tid = some t)
    (hq : s.sqOf t.slotNow.1 t.slotNow.2 = []) (b : Option BundleInfo) : s.chargeFailed tid b = s := by
  have hf : s.failedSq t.slotNow.1 t.slotNow.2 = [] := by rw [State.failedSq, hq]; rfl
  have ht' : s.thread? tid = some t := ht
  simp only [State.chargeFailed, State.takeErrs, ht', hf, State.containAll]
  simp

section
variable {s : State} {tid : Nat} {t : Thread} {k : TrapKind} {pc : Word} {o : Nat}

/-- At its boundary a thread at home, with its stores acknowledged, takes a trap that is due alone. -/
theorem trapTake_delivers (ht : tget s.threads tid = some t) (hp : t.place = .slot t.homeCore t.homeSlot)
    (hd : t.due = [.trap k pc o]) (htr : t.trapped = none) (ha : s.awake tid t = true)
    (hq : s.sqOf t.homeCore t.homeSlot = []) :
    exec (.trapTake tid) s = .next ((s.modThread tid fun t => { t with due := [], wait := none }).deliver tid k pc) := by
  have hn : t.slotNow = (t.homeCore, t.homeSlot) := by rw [Thread.slotNow, hp]
  have haw : t.away = false := by simp [Thread.away, hp]
  have ht' : s.thread? tid = some t := ht
  have hdr : s.drained t.homeCore t.homeSlot = true := by rw [State.drained, hq]; rfl
  have hw : t.wait = none ∨ ∃ c, t.wait = some (.cond c) := by
    unfold State.awake at ha
    cases hwt : t.wait with
    | none => exact .inl rfl
    | some w => cases w <;> simp_all
  have hkill : t.due.contains .kill = false := by rw [hd]; rfl
  have hstep : trapTakeStep tid s = (s.modThread tid fun t => { t with due := [], wait := none }).takeTrap tid k pc := by
    simp only [trapTakeStep, ht', hn, hp, hd]
    rw [hd] at hkill
    rcases hw with h | ⟨c, h⟩ <;>
      simp only [h, hkill, nextFault, State.trapDue, hd, nextTrap_single, htr, ha, haw, hdr] <;> rfl
  have hput : (s.modThread tid fun t => { t with due := [], wait := none })
      = { s with threads := tput s.threads tid { t with due := [], wait := none } } := State.modThread_of s _ ht
  have hq' : (s.modThread tid fun t => { t with due := [], wait := none }).chargeFailed tid none
      = s.modThread tid fun t => { t with due := [], wait := none } :=
    chargeFailed_none (t := { t with due := [], wait := none }) (by rw [hput]; exact tget_tput_self ..)
      (by rw [show Thread.slotNow { t with due := [], wait := none } = t.slotNow from rfl, hn]; exact hq) none
  have hth : (s.modThread tid fun t => { t with due := [], wait := none }).thread? tid
      = some { t with due := [], wait := none } := by rw [hput]; exact tget_tput_self ..
  change Host.Outcome.next (trapTakeStep tid s) = _
  rw [hstep]
  simp only [State.takeTrap, hq', hth, hp]

/-- The launch's own code is told by a message of the core to itself. -/
theorem deliver_message (ht : tget s.threads tid = some t) (hp : t.place = .slot t.homeCore t.homeSlot) (hh : t.hand = false) :
    s.deliver tid k pc = ({ s with
      threads := tput s.threads tid { t with trapped := some t.pc, wait := none, retries := 0 } } : State).inject (.msg {
        src := t.homeCore, dst := t.homeCore, route := (0, 0), score := (s.launchOf t).coreIdx t.homeCore,
        sslot := t.homeSlot, npay := 3, tag := 15, handler := (s.launchOf t).entry, payload := [trapWord k, pc, t.pc],
        launch := t.launch, tid := none }) := by
  have ht' : s.thread? tid = some t := ht
  have hn : t.slotNow = (t.homeCore, t.homeSlot) := by rw [Thread.slotNow, hp]
  simp only [State.deliver, ht', hh, hn, Bool.false_eq_true, if_false, State.modThread_of s _ ht]

/-- A handler takes a fault instead. -/
theorem deliver_hand (ht : tget s.threads tid = some t) (hh : t.hand = true) : ∃ b h,
    s.deliver tid k pc = s.contain tid { cause := 0x29, half := h, pc := pc, detail := trapWord k, bundle := b } := by
  have ht' : s.thread? tid = some t := ht
  cases k <;> exact ⟨_, _, by simp only [State.deliver, ht', hh, if_true]; rfl⟩

end

/-! ### The return (R217) -/

theorem trappedIn_of {s : State} {w : Word} {tid : Nat} {t : Thread} (hw : w.toNat < 16)
    (hs : (s.slot s.ctx.core w.toNat).tid = some tid) (ht : tget s.threads tid = some t) (ha : t.away = false)
    (htr : t.trapped.isSome = true) : s.trappedIn w = some tid := by
  have hlow : bits w 0 4 = w.toNat := by simp [bits]; omega
  have hhigh : bits w 4 60 = 0 := by simp [bits]; omega
  have ht' : s.thread? tid = some t := ht
  simp [State.trappedIn, hlow, hhigh, hs, ht', ha, htr]

theorem ported_threads (s : State) (th : Tbl Thread) (i : Instr) (ps : List (BitVec 3 × Word)) :
    ({ s with threads := th } : State).ported i ps = { s.ported i ps with threads := th, ctx := s.ctx } :=
  ports_with s th s.ctx rfl (s.pops i) ps

theorem tret_returns {s : State} {a : Reg} {tid : Nat} {t : Thread} {resume : Word} (hi : s.issues .lone (.tret a))
    (hw : (s.value a).toNat < 16) (hs : (s.slot s.ctx.core (s.value a).toNat).tid = some tid) (hne : tid ≠ s.ctx.tid)
    (ht : tget s.threads tid = some t) (ha : t.away = false) (htr : t.trapped = some resume) :
    ∃ c, exec (.tret a) s = .next (({ s with threads := tput s.threads tid { t with
      trapped := none, pc := resume, wait := none } } : State).afterAlone (.tret a) []
        (s.me.stepped (.tret a) (s.me.pc + 8)) c) := by
  have he : exec (.tret a) s = issue .lone (.tret a) (tretEffect a) s := rfl
  have ht' : tget (s.inWith (.tret a) (s.meIn (.tret a)) [] (s.me.pc + 8)).threads tid = some t :=
    (tget_tput_ne _ _ hne).trans ht
  have hin : (s.inWith (.tret a) (s.meIn (.tret a)) [] (s.me.pc + 8)).trappedIn (s.value a) = some tid :=
    trappedIn_of hw hs ht' ha (by rw [htr]; rfl)
  have hm : ({ s with threads := tput s.threads tid { t with trapped := none, pc := resume, wait := none } } : State).me
      = s.me := by
    simp only [State.me, State.me?, State.thread?, tget_tput_ne _ _ hne.symm]
  have heff : tretEffect a (s.inWith (.tret a) (s.meIn (.tret a)) [] (s.me.pc + 8)) = ({ s with
      threads := tput s.threads tid { t with trapped := none, pc := resume, wait := none } } : State).inWith (.tret a)
        (s.meIn (.tret a)) [] (s.me.pc + 8) := by
    rw [tretEffect, src_open, hin]
    simp only [State.modThread_of _ _ ht', Thread.resumeTrap, htr]
    simp only [State.inWith, State.ctxIn, hm, tput_comm _ _ _ hne]
  obtain ⟨c, hc⟩ := finish_other (i := .tret a) hm (issues_pending hi) rfl
  exact ⟨c, by rw [he, issue_alone hi, heff, hc]⟩

/-- Settles O24: the trap is noted at its bundle, its delivery is `State.deliver` at the boundary, and `tret` resumes the thread
in the slot it names. -/
theorem trapsAreDeliveredAndReturnedFrom : Obligations.TrapsAreDeliveredAndReturnedFrom := by
  refine ⟨fun s n hi => trap_due hi, ?_, ?_⟩
  · intro s tid t k pc o w ht hp hd htr ha _ hq hw
    have hword : w = trapWord k := by
      cases k with
      | software n => exact hw.trans (trapWord_software n).symm
      | float fl => exact hw.trans (trapWord_float fl).symm
      | quantum => exact hw
    subst hword
    have htake := trapTake_delivers ht hp hd htr ha hq
    rw [State.modThread_of s _ ht] at htake
    have hself : tget (tput s.threads tid { t with due := [], wait := none }) tid = some { t with due := [], wait := none } :=
      tget_tput_self ..
    refine ⟨fun hh => ?_, fun hh => ?_⟩
    · rw [htake, deliver_message (s := { s with threads := _ }) hself hp hh]
      simp only [tput_tput]
      rfl
    · obtain ⟨b, h, hc⟩ := deliver_hand (s := { s with threads := tput s.threads tid { t with due := [], wait := none } })
        (k := k) (pc := pc) hself hh
      exact ⟨b, h, by rw [htake, hc]⟩
  · intro s a tid t resume hi hw hs hne ht ha htr
    obtain ⟨c, hc⟩ := tret_returns hi hw hs hne ht ha htr
    refine ⟨_, hc, ?_, ?_, ?_, ?_⟩
    · simp only [State.afterAlone, ported_threads]
    · exact (tget_tput_ne _ _ hne).trans (tget_tput_self ..)
    · exact tget_tput_self ..
    · exact fun j hj hj' => (tget_tput_ne _ _ hj').trans (tget_tput_ne _ _ hj)

end Sys2Proof.Machine
end

section
/-!
PROOFS. Steps of the engines (O50): a window of the core's own local memory, read atom by atom, the start and the completion of
vector commands, the slices of `mrot`, and the load of a decode bank.
-/

namespace Sys2Proof.Machine

/-! ### A run of bytes in the core's own local memory (R51, R52) -/

/-- n bytes from an address stand in the launch's window of the core's own local memory, without an error in their atoms. -/
structure OwnRun (s : State) (l : Launch) (c : Nat) (a : Word) (n : Nat) : Prop where
  loc : isLocal a
  own : namedCore l c a = c
  inside : outOfRange l a n = false
  top : l.lmHi ≤ 65536
  sound : ∀ j, 32 * j < n → s.sound (localKeyOf l c a + 32 * j) 32

theorem bits_div (w : Word) (i k : Nat) : bits w i k = w.toNat / 2 ^ i % 2 ^ k := by
  simp [bits, Nat.shiftRight_eq_div_pow]

theorem isLocal_iff (w : Word) : isLocal w ↔ w.toNat / 2 ^ 63 % 2 = 1 := by
  simp [isLocal, BitVec.getLsbD, Nat.testBit_eq_decide_div_mod_eq]

theorem outOfRange_false {l : Launch} {a : Word} {n : Nat} : outOfRange l a n = false ↔ bits a 29 34 = 0
    ∧ (bits a 16 13 = 0x1FFF ∨ bits a 16 13 < l.cores) ∧ l.lmLo ≤ bits a 0 16 ∧ bits a 0 16 + n ≤ l.lmHi := by
  simp only [outOfRange, Bool.or_eq_false_iff, bne_eq_false_iff_eq, Bool.not_eq_false', Bool.or_eq_true, decide_eq_true_eq,
    decide_eq_false_iff_not, not_lt, and_assoc]

/-- An address that moves within the 65,536 bytes of its core's memory keeps all but its offset. -/
theorem own_offset {a : Word} {d : Nat} (h : bits a 0 16 + d < 65536) :
    bits (a + BitVec.ofNat 64 d) 0 16 = bits a 0 16 + d ∧ bits (a + BitVec.ofNat 64 d) 16 13 = bits a 16 13
      ∧ bits (a + BitVec.ofNat 64 d) 29 34 = bits a 29 34 ∧ (isLocal (a + BitVec.ofNat 64 d) ↔ isLocal a) := by
  have ha := a.isLt
  simp only [bits_div, isLocal_iff] at h ⊢
  have hn : (a + BitVec.ofNat 64 d).toNat = a.toNat + d := by
    rw [BitVec.toNat_add, BitVec.toNat_ofNat]
    omega
  rw [hn]
  omega

section
variable {s : State} {l : Launch} {c : Nat} {a : Word} {n : Nat}

/-- A part of such a run that begins at one of its atoms. -/
theorem OwnRun.part (h : OwnRun s l c a n) {j m : Nat} (hm : 0 < m) (hj : 32 * j + m ≤ n) :
    OwnRun s l c (a + BitVec.ofNat 64 (32 * j)) m
      ∧ localKeyOf l c (a + BitVec.ofNat 64 (32 * j)) = localKeyOf l c a + 32 * j := by
  obtain ⟨hloc, hown, hin, htop, hs⟩ := h
  obtain ⟨h1, h2, h3, h4⟩ := outOfRange_false.1 hin
  obtain ⟨e1, e2, e3, e4⟩ := own_offset (a := a) (d := 32 * j) (by omega)
  have hname : namedCore l c (a + BitVec.ofNat 64 (32 * j)) = namedCore l c a := by simp only [namedCore, e2]
  have hkey : localKeyOf l c (a + BitVec.ofNat 64 (32 * j)) = localKeyOf l c a + 32 * j := by
    simp only [localKeyOf, hname, e1, localKey, Nat.add_assoc]
  refine ⟨⟨e4.2 hloc, hname.trans hown, outOfRange_false.2 ⟨by omega, by omega, by omega, by omega⟩, htop,
    fun i hi => ?_⟩, hkey⟩
  rw [hkey, Nat.add_assoc, ← Nat.mul_add]
  exact hs (j + i) (by omega)

/-- An atom of such a run: where it stands, and that it is in range and without an error. -/
theorem OwnRun.atom (h : OwnRun s l c a n) {j : Nat} (hj : 32 * j + 32 ≤ n) :
    OwnRun s l c (a + BitVec.ofNat 64 (32 * j)) 32
      ∧ localKeyOf l c (a + BitVec.ofNat 64 (32 * j)) = localKeyOf l c a + 32 * j := h.part (by omega) hj

/-- Its home is the core itself. -/
theorem OwnRun.home (h : OwnRun s l c a n) : homeOf (localKeyOf l c a) = c ∧ localBase ≤ localKeyOf l c a := by
  have hb : bits a 0 16 < 65536 := by rw [bits_div]; omega
  have hk : localBase ≤ localKeyOf l c a := by simp only [localKeyOf, localKey]; omega
  refine ⟨?_, hk⟩
  rw [homeOf, if_neg (by omega), localKeyOf, h.own, localKey]
  omega

/-- An engine reaches it at once. -/
theorem OwnRun.reached (h : OwnRun s l c a n) (p : Perm) (w : Option EngineWalk) :
    s.engineReach l c a n p w = .key (localKeyOf l c a) := by
  obtain ⟨hh, hk⟩ := h.home
  refine engineReach_key h.loc h.inside ?_ (.inl hh) ?_ ?_
  · rw [hh, State.engineRoute, if_pos rfl]
  · have : ¬ localKeyOf l c a < localBase := by omega
    simp [State.bankOpen, this]
  · rw [hh]
    simp [State.engineHeld]

end

/-! ### Little-endian numbers in parts -/

theorem readLE_add (m : List Host.Cell) (k i j : Nat) :
    readLE m k (i + j) = readLE m k i + 256 ^ i * readLE m (k + i) j := by
  induction i generalizing k with
  | zero => simp [readLE]
  | succ i ih =>
    rw [Nat.add_right_comm, readLE, ih, readLE, show k + 1 + i = k + (i + 1) by omega, Nat.pow_succ]
    ring

/-- The bytes of a run, read atom by atom. -/
theorem tableAtoms_own {s : State} {l : Launch} {c : Nat} {a : Word} (tid : Nat) (w : Option EngineWalk) (n i : Nat)
    (h : OwnRun s l c a (32 * (i + n))) :
    s.tableAtoms l c tid w n (a + BitVec.ofNat 64 (32 * i)) = (s, .done (readLE s.mem (localKeyOf l c a + 32 * i) (32 * n))) := by
  induction n generalizing i with
  | zero => rfl
  | succ n ih =>
    obtain ⟨hatom, hkey⟩ := h.atom (j := i) (by omega)
    have hsound := hatom.sound 0 (by omega)
    have hnext : a + BitVec.ofNat 64 (32 * i) + 32 = a + BitVec.ofNat 64 (32 * (i + 1)) := by
      rw [BitVec.add_assoc, Nat.mul_add, BitVec.ofNat_add]
      rfl
    have hrest := ih (i + 1) (by rwa [show i + 1 + n = i + (n + 1) by omega])
    rw [Nat.mul_zero, Nat.add_zero] at hsound
    rw [State.tableAtoms, hatom.reached]
    simp only [isBad_of_sound hsound, corrected_of_sound hsound, hnext, hrest, Bool.false_eq_true, if_false]
    rw [TableRead.cons, hkey, show 32 * (n + 1) = 32 + 32 * n by ring, readLE_add, State.load,
      show 32 * (i + 1) = 32 * i + 32 by ring, Nat.add_assoc]
    rfl

/-! ### Vector commands (R157, R171) -/

theorem vecStart_starts {s : State} {c : Nat} {x : VecCmd} {rest : List VecCmd} (hq : (s.core c).vecQ = x :: rest)
    (hi : x.issued < s.clock) (hf : (s.core c).vecFree ≤ s.clock) :
    exec (.vectorCommandStart c) s = .next (s.modCore c fun y =>
      { y with vecQ := rest, vecFree := s.clock + x.busy, vecRun := y.vecRun ++ [(s.clock + x.busy + 3, x)] }) := by
  change Host.Outcome.next (vecStartStep c s) = _
  rw [vecStartStep, hq]
  exact congrArg _ (if_neg (by simp; omega))

theorem vecStart_waits {s : State} {c : Nat} {x : VecCmd} {rest : List VecCmd} (hq : (s.core c).vecQ = x :: rest)
    (h : s.clock ≤ x.issued ∨ s.clock < (s.core c).vecFree) : exec (.vectorCommandStart c) s = .next s := by
  change Host.Outcome.next (vecStartStep c s) = _
  rw [vecStartStep, hq]
  exact congrArg _ (if_pos (by simp; omega))

/-- A thread to which the flags of an engine's command have come (R70, R71). -/
def Thread.raised (t : Thread) (fl : BitVec 6) (pc : Word) (order : Nat) : Thread :=
  { t with fexc := t.fexc ||| fl, due := t.due ++ if fl &&& t.ftrap = 0 then [] else [.trap (.float fl) pc order] }

theorem engineFlags_put (s : State) (th : Tbl Thread) (tid : Nat) {t : Thread} (hu : t.undo = none) (fl : FlagBits) (pc : Word)
    (order : Nat) : ({ s with threads := tput th tid t } : State).engineFlags tid fl pc order
      = { s with threads := tput th tid (t.raised fl pc order) } := by
  by_cases h0 : fl = 0
  · subst h0
    simp [State.engineFlags, Thread.raised]
  · rw [State.engineFlags, if_neg h0]
    simp only [State.modThread, tmod_tput, raiseIn, Thread.raised]
    split <;> simp [hu]

theorem fillFor_open {s : State} {tid : Nat} {t : Thread} (ht : tget s.threads tid = some t) {d : Nat}
    (hd : t.regs.fullDst d = false) (v : Vec) (w : Nat) (pc : Word) :
    s.fillFor tid d v w pc = { s with threads := tput s.threads tid { t with regs := t.regs.setDst d v } } := by
  have ht' : s.thread? tid = some t := ht
  simp only [State.fillFor, ht', hd, Bool.false_eq_true, if_false, State.modThread_of s _ ht]

theorem vecComplete_waits {s : State} {c at_ : Nat} {x : VecCmd} {rest : List (Nat × VecCmd)}
    (hq : (s.core c).vecRun = (at_, x) :: rest) (h : s.clock < at_) : exec (.vectorComplete c) s = .next s := by
  change Host.Outcome.next (vecCompleteStep c s) = _
  rw [vecCompleteStep, hq]
  exact congrArg _ (if_pos h)

theorem vecComplete_fills {s : State} {c at_ : Nat} {x : VecCmd} {rest : List (Nat × VecCmd)} {t : Thread} {d : Nat} {v : Vec}
    (hq : (s.core c).vecRun = (at_, x) :: rest) (h : at_ ≤ s.clock) (ht : tget s.threads x.tid = some t)
    (hx : x.dsts = [(d, v)]) (hd : t.regs.fullDst d = false) (hunit : x.unit = none) (hu : t.undo = none) :
    exec (.vectorComplete c) s = .next { s.modCore c fun y => { y with vecRun := rest } with
      threads := tput s.threads x.tid ({ t with regs := t.regs.setDst d v }.raised x.flags x.pc x.order) } := by
  have ht' : tget (s.modCore c fun y => { y with vecRun := rest }).threads x.tid = some t := ht
  have ht'' : (s.modCore c fun y => { y with vecRun := rest }).thread? x.tid = some t := ht
  change Host.Outcome.next (vecCompleteStep c s) = _
  rw [vecCompleteStep, hq]
  refine congrArg _ ((if_neg (by omega)).trans ?_)
  simp only [ht'', hx, List.foldl_cons, List.foldl_nil, fillFor_open ht' hd, hunit]
  exact engineFlags_put (s.modCore c fun y => { y with vecRun := rest }) s.threads x.tid
    (t := { t with regs := t.regs.setDst d v }) hu _ _ _

/-! ### Slices of `mrot` (R178) -/

theorem findSome_of_only {α β : Type} {f : α → Option β} {l : List α} {x : α} {b : β} (hx : x ∈ l) (hb : f x = some b)
    (ho : ∀ y ∈ l, y ≠ x → f y = none) : l.findSome? f = some b := by
  induction l with
  | nil => simp at hx
  | cons y l ih =>
    rw [List.findSome?_cons]
    by_cases hy : y = x
    · rw [hy, hb]
    · rw [ho y (List.mem_cons_self ..) hy]
      exact ih (List.mem_of_ne_of_mem (Ne.symm hy) hx) fun z hz => ho z (List.mem_cons_of_mem _ hz)

theorem neighbour_of_sender {s : State} {c dir o : Nat} (h : o ∈ s.sendersTo c dir) : s.neighbour o dir = c := by
  simpa using (List.mem_filter.1 h).2

theorem sending_of {s : State} {src : Nat} {isB : Bool} {x : MatCmd} {rest : List MatCmd} {a b : Bool}
    (hq : (s.core src).matQ = x :: rest) (hp : x.phase = .exchange a b) (hs : if isB then b = true else a = true)
    (ht : x.start.getD s.clock + 6 ≤ s.clock) : s.sending src isB = some x := by
  rw [State.sending, hq]
  cases isB <;> simp_all

theorem slice_arrives {s : State} {c src : Nat} {isB : Bool} {x : MatCmd} (hsrc : src ∈ s.sendersTo c (if isB then 0 else 3))
    (hin : (if isB then (s.core c).incB else (s.core c).incA) = none) (hl : s.laneFailed src (if isB then 0 else 3) = false)
    (hother : ∀ o ∈ s.sendersTo c (if isB then 0 else 3), o ≠ src →
      s.laneFailed o (if isB then 0 else 3) = true ∨ s.sending o isB = none)
    (hx : s.sending src isB = some x) : exec (.mrotSliceArrive c isB) s =
      .next ((s.modCore c fun z => if isB then { z with incB := some (s.core src).curB }
          else { z with incA := some (s.core src).curA }).modCore src fun z => z.modMat x.num fun m => { m with
            phase := match m.phase with
              | .exchange a b => if isB then .exchange a false else .exchange false b
              | p => p }) := by
  have hfrom : s.sliceFrom c isB = some (src, x) := by
    refine findSome_of_only hsrc (by simp [hl, hx]) fun o ho hne => ?_
    rcases hother o ho hne with h | h
    · rw [h]; rfl
    · rw [h]; simp
  change Host.Outcome.next (sliceStep c isB s) = _
  simp only [sliceStep, hin, hfrom]
  rfl

/-! ### The load of a decode bank (R172) -/

/-- What the load of a bank leaves in it. -/
def loadedBank (table : BitVec 8192) (asid : BitVec 12) (f : Word) : Bank :=
  { table := table, tag := some (asid, f), encodable := tableEncodable table, loading := none, walk := none }

theorem bankLoad_loads {s : State} {c tid lid : Nat} {bank : Bool} {asid : BitVec 12} {f : Word} {l : Launch}
    (hk : (if bank then 1 else 0) < 2) (hload : ((s.core c).banks[if bank then 1 else 0]).loading = some (tid, asid, f))
    (hon : s.launchOn c = some (lid, l)) (hl : tget s.launches lid = some l) (hrun : OwnRun s l c f 1024) :
    let table := BitVec.ofNat 8192 (readLE s.mem (localKeyOf l c f) 1024)
    exec (.bankLoad c bank) s = .next { s.modCore c fun y => { y with
        banks := y.banks.set (if bank then 1 else 0) (loadedBank table asid f) hk } with
      launches := tput s.launches lid { l with tables := if table ∈ l.tables then l.tables else l.tables ++ [table] } } := by
  intro table
  have hb : (s.core c).banks.toList.getD (if bank then 1 else 0) Bank.empty = (s.core c).banks[if bank then 1 else 0] := by
    simp [List.getD, hk]
  have hread := tableAtoms_own tid ((s.core c).banks[if bank then 1 else 0]).walk 32 0 hrun
  rw [Nat.mul_zero, Nat.add_zero, BitVec.add_zero] at hread
  change Host.Outcome.next (bankStep c bank s) = _
  simp only [bankStep, hb, hload, hon, hread, hk, dif_pos]
  congr 1
  rw [State.modLaunch_of _ _ (show tget (State.modCore s c _).launches lid = some l from hl)]
  have htables : (if table ∈ l.tables then l else { l with tables := l.tables ++ [table] })
      = { l with tables := if table ∈ l.tables then l.tables else l.tables ++ [table] } := by split <;> rfl
  rw [← htables]
  simp only [List.contains_eq_mem, decide_eq_true_eq]
  rfl

/-- Settles O50: the head of each queue, its latch or its bank, and what the step makes of it. -/
theorem engineStepsFollowTheirOrder : Obligations.EngineStepsFollowTheirOrder := by
  refine ⟨fun s c x rest hq => ⟨vecStart_starts hq, vecStart_waits hq⟩, ?_, ?_, ?_⟩
  · exact fun s c at_ x rest t hq => ⟨vecComplete_waits hq, fun d v h ht hx hd hunit hu =>
      vecComplete_fills hq h ht hx hd hunit hu⟩
  · intro s c isB x rest a b dir
    refine ⟨fun o ho => neighbour_of_sender ho, ?_⟩
    intro src hsrc y _ hin hl hother hq hp hs ht
    exact slice_arrives hsrc hin hl hother (sending_of hq hp hs ht)
  · intro s c bank tid lid asid f l k hload hon hl _ hloc hown hin htop _ hsound table loaded
    have hk : k < 2 := by simp only [k]; split <;> omega
    have hrun : OwnRun s l c f 1024 := ⟨hloc, hown, hin, htop, fun j hj => hsound j (by omega)⟩
    refine ⟨_, bankLoad_loads hk (hload hk) hon hl hrun, rfl, fun h => ?_, tget_tput_self ..⟩
    exact congrArg (Option.getD · Core.clear) (tget_tput_self s.cores c _)

end Sys2Proof.Machine
end

section
/-!
PROOFS. Exact numbers and `Round` (R63, R65, R66): what an encoding stands for, what a rounded integer is, and that `Fmt.round`
gives the encoding of `Round` with its flags, also where the number is known by a sticky bit only.
-/

namespace Sys2Proof.Machine

/-! ### Powers of two and magnitudes -/

theorem two_zpow_pos (e : Int) : (0 : Rat) < 2 ^ e := zpow_pos (by norm_num) e

theorem two_zpow_le {a b : Int} : (2 : Rat) ^ a ≤ 2 ^ b ↔ a ≤ b := zpow_le_zpow_iff_right₀ (by norm_num)

theorem two_zpow_lt {a b : Int} : (2 : Rat) ^ a < 2 ^ b ↔ a < b := zpow_lt_zpow_iff_right₀ (by norm_num)

theorem two_zpow_add (a b : Int) : (2 : Rat) ^ (a + b) = 2 ^ a * 2 ^ b := zpow_add₀ (by norm_num) a b

theorem two_zpow_toNat {e : Int} (h : 0 ≤ e) : (2 : Rat) ^ e.toNat = 2 ^ e := by
  rw [← zpow_natCast, Int.toNat_of_nonneg h]

/-- A number brought to a lower exponent is an integer of that exponent. -/
theorem scale_down (m : Nat) {e g : Int} (h : g ≤ e) : (m : Rat) * 2 ^ e = ((m * 2 ^ (e - g).toNat : Nat) : Rat) * 2 ^ g := by
  rw [Nat.cast_mul, Nat.cast_pow, Nat.cast_ofNat, two_zpow_toNat (by omega), mul_assoc, ← two_zpow_add]
  congr 2
  omega

theorem mul_zpow_le {a b : Rat} (e : Int) : a * 2 ^ e ≤ b * 2 ^ e ↔ a ≤ b := mul_le_mul_iff_of_pos_right (two_zpow_pos e)

theorem mul_zpow_lt {a b : Rat} (e : Int) : a * 2 ^ e < b * 2 ^ e ↔ a < b := mul_lt_mul_iff_of_pos_right (two_zpow_pos e)

/-- The leading bit of a magnitude. -/
theorem zpow_log2_le {m : Nat} (h : m ≠ 0) (e : Int) : (2 : Rat) ^ ((Nat.log2 m : Int) + e) ≤ m * 2 ^ e := by
  rw [two_zpow_add, mul_zpow_le, zpow_natCast]
  exact_mod_cast Nat.log2_self_le h

theorem lt_zpow_log2 (m : Nat) (e : Int) : (m : Rat) * 2 ^ e < 2 ^ ((Nat.log2 m : Int) + 1 + e) := by
  rw [two_zpow_add, mul_zpow_lt, ← Nat.cast_succ, zpow_natCast]
  exact_mod_cast Nat.lt_log2_self

theorem log2_add_lt {m : Nat} (h : m ≠ 0) {e b : Int} : (Nat.log2 m : Int) + e < b ↔ (m : Rat) * 2 ^ e < 2 ^ b := by
  constructor
  · intro hb
    exact (lt_zpow_log2 m e).trans_le (two_zpow_le.2 (by omega))
  · intro hb
    exact two_zpow_lt.1 ((zpow_log2_le h e).trans_lt hb)

/-! ### `RoundInt` (R65) -/

theorem integerOf_congr {mode : Rm} {neg : Bool} {le lt le' lt' : Rat → Prop} {k : Nat}
    (hle : ∀ n : Nat, le n ↔ le' n) (hlt : ∀ n : Nat, lt n ↔ lt' n)
    (hhalf : ∀ n : Nat, (le (n + 1 / 2) ↔ le' (n + 1 / 2)) ∧ (lt (n + 1 / 2) ↔ lt' (n + 1 / 2)))
    (h : integerOf mode neg le lt k) : integerOf mode neg le' lt' k := by
  obtain ⟨n, h1, h2, h3⟩ := h
  refine ⟨n, (hle n).1 h1, fun h => h2 ?_, ?_⟩
  · have := hle (n + 1)
    push_cast at this
    exact this.2 h
  · cases mode <;> simp only [← hlt, ← (hhalf n).1, ← (hhalf n).2] <;> exact h3

/-- The rounded integer is one of the two next to the number. -/
theorem integerOf_bounds {mode : Rm} {neg : Bool} {le lt : Rat → Prop} {k : Nat} (h : integerOf mode neg le lt k) :
    ∃ n : Nat, le n ∧ ¬ le (n + 1) ∧ n ≤ k ∧ k ≤ n + 1 := by
  obtain ⟨n, h1, h2, h3⟩ := h
  have h4 : k = n + 1 ∨ k = n := (Classical.em _).imp h3.1 h3.2
  exact ⟨n, h1, h2, by omega⟩

/-- The integer part and the remainder of a magnitude give its rounded integer. -/
theorem integerOf_div (mode : Rm) (neg : Bool) (m full : Nat) (hf : 0 < full) :
    integerOf mode neg (fun t => t ≤ (m : Rat) / full) (fun t => t < (m : Rat) / full)
      (if roundUp mode neg (m / full) (m % full) full then m / full + 1 else m / full) := by
  have hd : (m : Rat) = full * (m / full : Nat) + (m % full : Nat) := by exact_mod_cast (Nat.div_add_mod m full).symm
  have hr : ((m % full : Nat) : Rat) < full := by exact_mod_cast Nat.mod_lt m hf
  have hq : (0 : Rat) < full := by exact_mod_cast hf
  have hrem : (m % full ≠ 0) ↔ (0 : Rat) < (m % full : Nat) := by rw [← Nat.pos_iff_ne_zero]; exact Nat.cast_pos.symm
  have hhalf : full < 2 * (m % full) ↔ (full : Rat) < 2 * (m % full : Nat) := by exact_mod_cast Iff.rfl
  have heq : full = 2 * (m % full) ↔ (full : Rat) = 2 * (m % full : Nat) := by exact_mod_cast Iff.rfl
  generalize hk : m / full = k at *
  generalize hl : m % full = r at *
  have hlt (t : Rat) : t < (m : Rat) / full ↔ t * full < full * k + r := by rw [lt_div_iff₀ hq, hd]
  have hle (t : Rat) : t ≤ (m : Rat) / full ↔ t * full ≤ full * k + r := by rw [le_div_iff₀ hq, hd]
  refine ⟨k, (hle k).2 (by nlinarith [r.cast_nonneg (α := Rat)]), fun h => ?_, ?_⟩
  · have := (hle _).1 h
    nlinarith
  · have hint : (k : Rat) * full < full * k + r ↔ r ≠ 0 := by rw [hrem]; constructor <;> intro h <;> linarith
    cases mode <;> simp only [hlt, hle, hint]
    case rn =>
      have h1 : (k + 1 / 2 : Rat) * full < full * k + r ↔ full < 2 * r := by
        rw [hhalf]; constructor <;> intro h <;> linarith
      have h2 : (k + 1 / 2 : Rat) * full ≤ full * k + r ↔ full < 2 * r ∨ full = 2 * r := by
        rw [hhalf, heq, ← le_iff_lt_or_eq]; constructor <;> intro h <;> linarith
      rw [h1, h2]
      simp only [roundUp, Bool.or_eq_true, decide_eq_true_eq, Bool.and_eq_true]
      split_ifs <;> grind
    all_goals simp only [roundUp]; cases neg <;> simp

/-- `roundInt` is `RoundInt`. -/
theorem integerOf_roundInt (mode : Rm) (neg : Bool) (m : Nat) (e : Int) :
    integerOf mode neg (fun t => t ≤ (m : Rat) * 2 ^ e) (fun t => t < (m : Rat) * 2 ^ e) (roundInt mode neg m e).1 := by
  unfold roundInt
  split
  · next h =>
    have := integerOf_div mode neg (m * 2 ^ e.toNat) 1 one_pos
    simp only [Nat.div_one, Nat.mod_one, Nat.cast_one, div_one, Nat.cast_mul, Nat.cast_pow, Nat.cast_ofNat,
      two_zpow_toNat h] at this
    convert this using 1
    cases mode <;> simp [roundUp]
  · next h =>
    have := integerOf_div mode neg m (2 ^ (-e).toNat) (by positivity)
    rw [Nat.cast_pow, Nat.cast_ofNat, two_zpow_toNat (by omega), zpow_neg, div_inv_eq_mul] at this
    exact this

/-- It is inexact where the rounded integer is not the number itself. -/
theorem roundInt_inexact (mode : Rm) (neg : Bool) (m : Nat) (e : Int) :
    (roundInt mode neg m e).2 = false ↔ ((roundInt mode neg m e).1 : Rat) = m * 2 ^ e := by
  unfold roundInt
  split
  · next h => simp [two_zpow_toNat h]
  · next h =>
    have hp : 0 < 2 ^ (-e).toNat := by positivity
    have hx : (m : Rat) * 2 ^ e = m / (2 ^ (-e).toNat : Nat) := by
      rw [Nat.cast_pow, Nat.cast_ofNat, two_zpow_toNat (by omega), zpow_neg, div_inv_eq_mul]
    rw [hx, eq_div_iff (by positivity)]
    generalize 2 ^ (-e).toNat = full at hp
    have hd := Nat.div_add_mod m full
    have hm := Nat.mod_lt m hp
    norm_cast
    by_cases h0 : m % full = 0
    · have : roundUp mode neg (m / full) 0 full = false := by cases mode <;> simp [roundUp]; omega
      simp only [h0, this]
      simp [Nat.div_mul_cancel (Nat.dvd_of_mod_eq_zero h0)]
    · simp only [bne_eq_false_iff_eq, h0, false_iff]
      intro h
      apply h0
      rw [← h]
      exact Nat.mul_mod_left _ _

end Sys2Proof.Machine
end

section
/-!
PROOFS. Encodings and rounding (R62, R63, R66): `Fmt.round` gives the encoding of a number rounded once, and a value that its
format represents rounds to itself.
-/

namespace Sys2Proof.Machine

/-! ### Encodings (R62, R63) -/

/-- A format with normal values, a quiet bit and a fraction that a cut quotient or root covers. -/
structure Fmt.Ok (f : Fmt) : Prop where
  eb : 2 ≤ f.eb
  fb : 1 ≤ f.fb
  short : f.fb ≤ 62

theorem fmtOf_ok (ty : FloatTy) : (fmtOf ty).Ok := by cases ty <;> exact ⟨by decide, by decide, by decide⟩
theorem fp32_ok : fp32.Ok := fmtOf_ok .f32

/-- The encoding of a sign, an exponent field and a fraction. -/
def Fmt.code (f : Fmt) (neg : Bool) (E F : Nat) : Nat := f.signBit neg + E * 2 ^ f.fb + F

section
variable {f : Fmt}

theorem Fmt.Ok.two_bias (hf : f.Ok) : 2 ^ f.eb = 2 * f.bias + 2 := by
  obtain ⟨e, he⟩ : ∃ e, f.eb = e + 1 := ⟨f.eb - 1, by have := hf.eb; omega⟩
  have : 1 ≤ 2 ^ e := Nat.one_le_two_pow
  rw [Fmt.bias, he, Nat.pow_succ]
  simp only [Nat.add_sub_cancel]
  omega

theorem Fmt.Ok.bias_pos (hf : f.Ok) : 1 ≤ f.bias := by
  have : 2 ^ 2 ≤ 2 ^ f.eb := Nat.pow_le_pow_right (by norm_num) hf.eb
  have := hf.two_bias
  omega

theorem Fmt.emin_eq (f : Fmt) : f.emin = 1 - (f.bias : Int) := rfl

theorem Fmt.code_fraction {E F : Nat} (neg : Bool) (hF : F < 2 ^ f.fb) : f.code neg E F % 2 ^ f.fb = F := by
  have : 2 ^ f.fb ∣ f.signBit neg + E * 2 ^ f.fb := by
    refine Dvd.dvd.add ?_ (Dvd.intro_left _ rfl)
    cases neg
    · simp [Fmt.signBit]
    · exact Nat.pow_dvd_pow 2 (by omega)
  rw [Fmt.code, Nat.add_mod, Nat.mod_eq_zero_of_dvd this, zero_add, Nat.mod_mod, Nat.mod_eq_of_lt hF]

theorem Fmt.code_high {E F : Nat} (neg : Bool) (hF : F < 2 ^ f.fb) :
    f.code neg E F / 2 ^ f.fb = (if neg then 2 ^ f.eb else 0) + E := by
  have hs : f.signBit neg = (if neg then 2 ^ f.eb else 0) * 2 ^ f.fb := by
    cases neg <;> simp [Fmt.signBit, Nat.pow_add]
  rw [Fmt.code, hs, ← Nat.add_mul, Nat.add_comm, Nat.add_mul_div_right _ _ (by positivity), Nat.div_eq_of_lt hF, zero_add]

theorem Fmt.code_sign {E F : Nat} (neg : Bool) (hE : E < 2 ^ f.eb) (hF : F < 2 ^ f.fb) :
    (f.code neg E F / 2 ^ (f.eb + f.fb) % 2 = 1) ↔ neg = true := by
  rw [Nat.add_comm, Nat.pow_add, ← Nat.div_div_eq_div_mul, Fmt.code_high neg hF]
  cases neg
  · simp [Nat.div_eq_of_lt hE]
  · simp [Nat.add_div_left E (show 0 < 2 ^ f.eb by positivity), Nat.div_eq_of_lt hE]

theorem Fmt.code_exp {E F : Nat} (neg : Bool) (hE : E < 2 ^ f.eb) (hF : F < 2 ^ f.fb) :
    f.code neg E F / 2 ^ f.fb % 2 ^ f.eb = E := by
  rw [Fmt.code_high neg hF]
  cases neg <;> simp [Nat.mod_eq_of_lt hE]

theorem Fmt.code_lt {E F : Nat} (neg : Bool) (hE : E < 2 ^ f.eb) (hF : F < 2 ^ f.fb) : f.code neg E F < 2 ^ f.width := by
  have h1 : (E + 1) * 2 ^ f.fb ≤ 2 ^ f.eb * 2 ^ f.fb := Nat.mul_le_mul_right _ hE
  have h2 : f.signBit neg ≤ 2 ^ f.eb * 2 ^ f.fb := by cases neg <;> simp [Fmt.signBit, Nat.pow_add]
  have h3 : 2 ^ f.width = 2 * (2 ^ f.eb * 2 ^ f.fb) := by simp only [Fmt.width, Nat.pow_add]; ring
  rw [Fmt.code]
  linarith

theorem Fmt.eq_code {n : Nat} (hn : n < 2 ^ f.width) : ∃ neg E F, E < 2 ^ f.eb ∧ F < 2 ^ f.fb ∧ n = f.code neg E F := by
  refine ⟨decide (2 ^ f.eb ≤ n / 2 ^ f.fb), n / 2 ^ f.fb % 2 ^ f.eb, n % 2 ^ f.fb, Nat.mod_lt _ (by positivity),
    Nat.mod_lt _ (by positivity), ?_⟩
  have hq : n / 2 ^ f.fb < 2 * 2 ^ f.eb := by
    rw [Nat.div_lt_iff_lt_mul (by positivity)]
    calc n < 2 ^ f.width := hn
      _ = _ := by simp only [Fmt.width, Nat.pow_add, Nat.pow_one]
  have hs : f.signBit (decide (2 ^ f.eb ≤ n / 2 ^ f.fb)) + n / 2 ^ f.fb % 2 ^ f.eb * 2 ^ f.fb = n / 2 ^ f.fb * 2 ^ f.fb := by
    by_cases h : 2 ^ f.eb ≤ n / 2 ^ f.fb
    · have : n / 2 ^ f.fb % 2 ^ f.eb = n / 2 ^ f.fb - 2 ^ f.eb := by
        rw [Nat.mod_eq_sub_mod h, Nat.mod_eq_of_lt (by omega)]
      simp only [Fmt.signBit, h, decide_true, if_true, this, Nat.pow_add, ← Nat.add_mul, Nat.add_sub_cancel' h]
    · simp [Fmt.signBit, h, Nat.mod_eq_of_lt (Nat.not_le.1 h)]
  rw [Fmt.code, hs, Nat.div_add_mod']

/-- What an encoding stands for, by its fields (R63). -/
theorem Fmt.decode_code {E F : Nat} (neg : Bool) (hE : E < 2 ^ f.eb) (hF : F < 2 ^ f.fb) : f.decode (f.code neg E F) =
    if E = 2 ^ f.eb - 1 then if F = 0 then .inf neg else .nan (F < 2 ^ (f.fb - 1))
    else if E = 0 then .fin neg F (f.emin - f.fb) else .fin neg (F + 2 ^ f.fb) ((E : Int) - f.bias - f.fb) := by
  have hs : decide (f.code neg E F / 2 ^ (f.eb + f.fb) % 2 = 1) = neg := by
    rw [Bool.eq_iff_iff, decide_eq_true_iff]
    exact Fmt.code_sign neg hE hF
  simp only [Fmt.decode, Fmt.code_exp neg hE hF, Fmt.code_fraction neg hF, hs]

theorem Fmt.decode_subnormal (hf : f.Ok) {F : Nat} (neg : Bool) (hF : F < 2 ^ f.fb) :
    f.decode (f.code neg 0 F) = .fin neg F (f.emin - f.fb) := by
  have := hf.two_bias
  rw [Fmt.decode_code neg (by positivity) hF, if_neg (by omega), if_pos rfl]

theorem Fmt.decode_normal (hf : f.Ok) {E F : Nat} (neg : Bool) (h0 : E ≠ 0) (hE : E ≤ 2 * f.bias) (hF : F < 2 ^ f.fb) :
    f.decode (f.code neg E F) = .fin neg (F + 2 ^ f.fb) ((E : Int) - f.bias - f.fb) := by
  have := hf.two_bias
  rw [Fmt.decode_code neg (by omega) hF, if_neg (by omega), if_neg h0]

/-- The encodings of finite values. -/
theorem Fmt.finite_code (hf : f.Ok) {n : Nat} (hn : n < 2 ^ f.width) {neg : Bool} {m : Nat} {e : Int}
    (h : f.decode n = .fin neg m e) :
    (∃ F < 2 ^ f.fb, n = f.code neg 0 F ∧ m = F ∧ e = f.emin - f.fb)
    ∨ ∃ E F, E ≠ 0 ∧ E ≤ 2 * f.bias ∧ F < 2 ^ f.fb ∧ n = f.code neg E F
        ∧ m = F + 2 ^ f.fb ∧ e = (E : Int) - f.bias - f.fb := by
  obtain ⟨s, E, F, hE, hF, rfl⟩ := Fmt.eq_code hn
  have hb := hf.two_bias
  rw [Fmt.decode_code s hE hF] at h
  split_ifs at h with h1 h2 h3
  · subst h3
    injection h with hs hm he
    subst hs
    exact .inl ⟨F, hF, rfl, hm.symm, he.symm⟩
  · injection h with hs hm he
    subst hs
    exact .inr ⟨E, F, h3, by omega, hF, rfl, hm.symm, he.symm⟩

theorem Fmt.maxFinite_eq (hf : f.Ok) (neg : Bool) : f.maxFinite neg = f.code neg (2 * f.bias) (2 ^ f.fb - 1) := by
  have h1 : 1 ≤ 2 ^ f.fb := Nat.one_le_two_pow
  rw [Fmt.maxFinite, Fmt.code, hf.two_bias, show 2 * f.bias + 2 - 1 = 2 * f.bias + 1 by omega, Nat.add_mul]
  omega

/-- The greatest finite magnitude. -/
theorem Fmt.mag_maxFinite (hf : f.Ok) :
    (f.decode (f.maxFinite false)).mag = 2 ^ ((f.bias : Int) + 1) - 2 ^ ((f.bias : Int) - f.fb) := by
  have h1 : 1 ≤ 2 ^ f.fb := Nat.one_le_two_pow
  have hb := hf.bias_pos
  rw [Fmt.maxFinite_eq hf, Fmt.decode_normal hf false (by omega) le_rfl (by omega), FVal.mag,
    show ((2 * f.bias : Nat) : Int) - f.bias - f.fb = (f.bias : Int) - f.fb by push_cast; ring]
  have : ((2 ^ f.fb - 1 + 2 ^ f.fb : Nat) : Rat) = 2 ^ ((f.fb : Int) + 1) - 1 := by
    rw [Nat.cast_add, Nat.cast_sub h1, two_zpow_add, zpow_natCast]
    push_cast
    ring
  rw [this, sub_mul, one_mul, ← two_zpow_add]
  congr 2
  ring

/-! ### `Round` (R65, R66) -/

/-- A representable value is rounded to itself, exactly. -/
theorem Fmt.round_decode (hf : f.Ok) (rm : Rm) {n : Nat} (hn : n < 2 ^ f.width) {neg : Bool} {m : Nat} {e : Int}
    (h : f.decode n = .fin neg m e) : f.round rm neg m e = (n, 0) := by
  have hb := hf.bias_pos
  have hm := f.emin_eq
  obtain ⟨F, hF, rfl, rfl, rfl⟩ | ⟨E, F, h0, hE, hF, rfl, rfl, rfl⟩ := Fmt.finite_code hf hn h
  · unfold Fmt.round
    split_ifs with hz
    · simp [hz, Fmt.zero, Fmt.code]
    · have hl : Nat.log2 m < f.fb := (Nat.log2_lt hz).2 hF
      have hee : max ((Nat.log2 m : Int) + (f.emin - f.fb)) f.emin = f.emin := by omega
      simp only [hee, sub_self, roundInt, le_refl, if_true, Int.toNat_zero, Nat.pow_zero, Nat.mul_one, hF]
      rw [if_neg (by simp; omega)]
      simp [Fmt.code]
  · have hl : Nat.log2 (F + 2 ^ f.fb) = f.fb := by
      rw [Nat.log2_eq_iff (by positivity)]
      exact ⟨by omega, by rw [Nat.pow_succ]; omega⟩
    have hee : max ((f.fb : Int) + ((E : Int) - f.bias - f.fb)) f.emin = (E : Int) - f.bias := by omega
    unfold Fmt.round
    rw [if_neg (by positivity)]
    simp only [hl, hee, sub_self, roundInt, le_refl, if_true, Int.toNat_zero, Nat.pow_zero, Nat.mul_one]
    rw [if_neg (by simp; omega), if_neg (by omega), if_neg (by rw [Nat.pow_succ]; omega)]
    simp [Fmt.code]

/-- The exponent of the value that `Round` rounds in. -/
def Fmt.expOf (f : Fmt) (m : Nat) (e : Int) : Int := max ((Nat.log2 m : Int) + e) f.emin

/-- The flags of a rounding to the integer k of units of the last place. -/
def Fmt.roundFlags (f : Fmt) (inexact : Bool) (k : Nat) : FlagBits :=
  (if inexact then nx else 0) ||| (if inexact && decide ((k : Int) < 2 ^ f.fb) then uf else 0)

/-- `Round` of a number that is not zero, by its rounded integer. -/
theorem Fmt.round_eq {m : Nat} (hm : m ≠ 0) (rm : Rm) (neg : Bool) (e : Int) {qe : Int} {k : Nat} {x : Bool}
    (hq : qe = f.expOf m e - f.fb) (hk : roundInt rm neg m (e - qe) = (k, x)) :
    f.round rm neg m e =
      if k ≠ 0 ∧ (2 : Rat) ^ ((f.bias : Int) + 1) ≤ k * 2 ^ qe then (f.overflow rm neg, off ||| nx)
      else if k < 2 ^ f.fb then (f.signBit neg + k, f.roundFlags x k)
      else if k = 2 ^ (f.fb + 1) then
        (f.signBit neg + (qe + 1 + f.fb + f.bias).toNat * 2 ^ f.fb + (k / 2 - 2 ^ f.fb), f.roundFlags x k)
      else (f.signBit neg + (qe + f.fb + f.bias).toNat * 2 ^ f.fb + (k - 2 ^ f.fb), f.roundFlags x k) := by
  rw [Fmt.round, if_neg hm]
  subst hq
  simp only [show max ((Nat.log2 m : Int) + e) f.emin = f.expOf m e from rfl, hk]
  have hc : (decide ((f.bias : Int) < (Nat.log2 k : Int) + (f.expOf m e - f.fb)) && k != 0) = true ↔
      k ≠ 0 ∧ (2 : Rat) ^ ((f.bias : Int) + 1) ≤ k * 2 ^ (f.expOf m e - f.fb) := by
    rw [Bool.and_eq_true, decide_eq_true_eq, bne_iff_ne, and_comm]
    refine and_congr_right fun h0 => ?_
    rw [← not_lt (a := (k : Rat) * _), ← log2_add_lt h0]
    omega
  by_cases h : k ≠ 0 ∧ (2 : Rat) ^ ((f.bias : Int) + 1) ≤ k * 2 ^ (f.expOf m e - f.fb)
  · rw [if_pos h, if_pos (hc.2 h)]
  · rw [if_neg h, if_neg (fun h' => h (hc.1 h'))]
    by_cases h1 : k < 2 ^ f.fb
    · rw [if_pos h1, if_pos h1]
      rfl
    · rw [if_neg h1, if_neg h1]
      by_cases h2 : k = 2 ^ (f.fb + 1)
      · simp only [if_pos h2]
        rfl
      · simp only [if_neg h2]
        rfl

/-- Where `Round` does not overflow it gives the encoding of its rounded value. -/
theorem Fmt.round_finite (hf : f.Ok) {m : Nat} (hm : m ≠ 0) (rm : Rm) (neg : Bool) (e : Int) {qe : Int} {k : Nat} {x : Bool}
    (hq : qe = f.expOf m e - f.fb) (hk : roundInt rm neg m (e - qe) = (k, x)) (hle : k ≤ 2 ^ (f.fb + 1))
    (hlow : k < 2 ^ f.fb → qe = f.emin - f.fb) (hy : (k : Rat) * 2 ^ qe < 2 ^ ((f.bias : Int) + 1)) :
    ∃ n, f.round rm neg m e = (n, f.roundFlags x k) ∧ n < 2 ^ f.width
      ∧ ∃ m' e', f.decode n = .fin neg m' e' ∧ (m' : Rat) * 2 ^ e' = k * 2 ^ qe := by
  have hmin : f.emin ≤ f.expOf m e := le_max_right _ _
  have hemin := f.emin_eq
  have htwo := hf.two_bias
  have hpow : 2 ^ (f.fb + 1) = 2 * 2 ^ f.fb := by rw [Nat.pow_succ, Nat.mul_comm]
  have top (hb : 2 ^ f.fb ≤ k) : qe + f.fb ≤ f.bias := by
    have h : (2 : Rat) ^ ((f.fb : Int) + qe) ≤ k * 2 ^ qe := by
      rw [two_zpow_add, mul_zpow_le, zpow_natCast]
      exact_mod_cast hb
    have := two_zpow_lt.1 (h.trans_lt hy)
    omega
  rw [Fmt.round_eq hm rm neg e hq hk, if_neg (fun h => absurd h.2 (not_le.2 hy))]
  split_ifs with h1 h2
  · refine ⟨f.code neg 0 k, by simp [Fmt.code], Fmt.code_lt neg (by positivity) h1, k, _,
      Fmt.decode_subnormal hf neg h1, by rw [hlow h1]⟩
  · have hqe := top (by omega)
    have hne : qe + 1 + f.fb ≤ f.bias := by
      have h : (k : Rat) * 2 ^ qe = 2 ^ ((f.fb : Int) + 1 + qe) := by
        rw [h2, two_zpow_add, Nat.cast_pow, Nat.cast_ofNat, ← zpow_natCast]
        rfl
      have := two_zpow_lt.1 (h ▸ hy)
      omega
    obtain ⟨E, hE⟩ : ∃ E : Nat, (E : Int) = qe + 1 + f.fb + f.bias := ⟨(qe + 1 + f.fb + f.bias).toNat, by omega⟩
    refine ⟨f.code neg E 0, ?_, Fmt.code_lt neg (by omega) (by positivity), 0 + 2 ^ f.fb, (E : Int) - f.bias - f.fb,
      Fmt.decode_normal hf neg (by omega) (by omega) (by positivity), ?_⟩
    · rw [← hE, Int.toNat_natCast, h2, hpow, Nat.mul_div_cancel_left _ two_pos, Nat.sub_self, Fmt.code]
    · rw [h2, show (E : Int) - f.bias - f.fb = 1 + qe by omega, two_zpow_add, ← mul_assoc]
      push_cast
      rw [pow_succ]
      ring
  · have hqe := top (by omega)
    obtain ⟨E, hE⟩ : ∃ E : Nat, (E : Int) = qe + f.fb + f.bias := ⟨(qe + f.fb + f.bias).toNat, by omega⟩
    refine ⟨f.code neg E (k - 2 ^ f.fb), ?_, Fmt.code_lt neg (by omega) (by omega), k - 2 ^ f.fb + 2 ^ f.fb,
      (E : Int) - f.bias - f.fb, Fmt.decode_normal hf neg (by omega) (by omega) (by omega), ?_⟩
    · rw [← hE, Int.toNat_natCast, Fmt.code]
    · rw [show (E : Int) - f.bias - f.fb = qe by omega, Nat.sub_add_cancel (by omega)]

/-- A rounded magnitude exceeds the greatest finite one exactly where it reaches the next power of two. -/
theorem Fmt.greatest_lt_iff (hf : f.Ok) {k : Nat} {qe : Int} (hle : k ≤ 2 ^ (f.fb + 1)) :
    (f.decode (f.maxFinite false)).mag < k * 2 ^ qe ↔ (2 : Rat) ^ ((f.bias : Int) + 1) ≤ k * 2 ^ qe := by
  rw [Fmt.mag_maxFinite hf]
  constructor
  · intro h
    by_contra hlt
    rw [not_le] at hlt
    by_cases hq : (f.bias : Int) - f.fb ≤ qe
    · rw [scale_down k hq] at h hlt
      rw [show (f.bias : Int) + 1 = (f.fb + 1 : Nat) + ((f.bias : Int) - f.fb) by push_cast; ring, two_zpow_add,
        zpow_natCast] at h hlt
      rw [← sub_one_mul, mul_zpow_lt, sub_lt_iff_lt_add] at h
      rw [mul_zpow_lt] at hlt
      norm_cast at h hlt
      omega
    · have h1 : (k : Rat) * 2 ^ qe ≤ 2 ^ (f.bias : Int) := by
        calc (k : Rat) * 2 ^ qe ≤ (2 ^ (f.fb + 1) : Nat) * 2 ^ qe := by
              rw [mul_zpow_le]; exact_mod_cast hle
          _ = 2 ^ (((f.fb + 1 : Nat) : Int) + qe) := by rw [two_zpow_add, zpow_natCast, Nat.cast_pow, Nat.cast_ofNat]
          _ ≤ _ := two_zpow_le.2 (by push_cast; omega)
      have h2 : (2 : Rat) ^ ((f.bias : Int) - f.fb) ≤ 2 ^ (f.bias : Int) := two_zpow_le.2 (by omega)
      rw [two_zpow_add, zpow_one] at h
      linarith
  · exact fun h => lt_of_lt_of_le (by linarith [two_zpow_pos ((f.bias : Int) - f.fb)]) h

theorem Fmt.roundFlags_eq (inexact : Bool) (k : Nat) : f.roundFlags inexact k =
    (if inexact = true then 1 else 0) ||| if (inexact && decide (k < 2 ^ f.fb)) = true then 2 else 0 := by
  have : decide ((k : Int) < 2 ^ f.fb) = decide (k < 2 ^ f.fb) := decide_eq_decide.2 (by norm_cast)
  rw [Fmt.roundFlags, this]
  rfl

/-- `Fmt.round` is `Round` (R65). -/
theorem Fmt.round_roundsTo (hf : f.Ok) {m : Nat} (hm : m ≠ 0) (rm : Rm) (neg : Bool) (e : Int) :
    f.roundsTo rm neg (m * 2 ^ e) (f.round rm neg m e) := by
  obtain ⟨qe, hq⟩ : ∃ qe, qe = f.expOf m e - f.fb := ⟨_, rfl⟩
  obtain ⟨k, x, hk⟩ : ∃ k x, roundInt rm neg m (e - qe) = (k, x) := ⟨_, _, rfl⟩
  have hmin : f.emin ≤ f.expOf m e := le_max_right _ _
  have hint := integerOf_roundInt rm neg m (e - qe)
  have hexact := roundInt_inexact rm neg m (e - qe)
  rw [hk] at hint hexact
  -- the number in units of the last place
  have hx : (m : Rat) * 2 ^ e = m * 2 ^ (e - qe) * 2 ^ qe := by
    rw [mul_assoc, ← two_zpow_add, sub_add_cancel]
  have hlt : (m : Rat) * 2 ^ e < 2 ^ (f.expOf m e + 1) :=
    (lt_zpow_log2 m e).trans_le (two_zpow_le.2 (by have := le_max_left ((Nat.log2 m : Int) + e) f.emin; rw [Fmt.expOf]; omega))
  have hge : f.expOf m e = f.emin ∨ (2 : Rat) ^ f.expOf m e ≤ m * 2 ^ e := by
    rcases max_choice ((Nat.log2 m : Int) + e) f.emin with h | h
    · exact .inr (by rw [Fmt.expOf, h]; exact zpow_log2_le hm e)
    · exact .inl h
  obtain ⟨n, hn, hn1, hnk, hkn⟩ := integerOf_bounds hint
  have hnlt : n < 2 ^ (f.fb + 1) := by
    have h : (n : Rat) < 2 ^ (((f.fb + 1 : Nat)) : Int) := by
      refine lt_of_le_of_lt hn ?_
      rw [← mul_zpow_lt qe, ← hx, ← two_zpow_add]
      exact hlt.trans_le (two_zpow_le.2 (by push_cast; omega))
    rw [zpow_natCast] at h
    exact_mod_cast h
  have hle : k ≤ 2 ^ (f.fb + 1) := by omega
  have hlow (h : k < 2 ^ f.fb) : qe = f.emin - f.fb := by
    rcases hge with h' | h'
    · rw [hq, h']
    · exfalso
      rw [not_le] at hn1
      have h1 : (2 : Rat) ^ (f.fb : Int) ≤ m * 2 ^ (e - qe) := by
        rw [← mul_zpow_le qe, ← hx, ← two_zpow_add]
        exact (two_zpow_le.2 (by omega)).trans h'
      have h2 := h1.trans_lt hn1
      rw [zpow_natCast] at h2
      norm_cast at h2
      omega
  refine ⟨f.expOf m e, k, hmin, hge, not_le.2 hlt, ?_⟩
  rw [← hq]
  refine ⟨integerOf_congr (fun n => ?_) (fun n => ?_) (fun n => ⟨?_, ?_⟩) hint, ?_, ?_⟩
  · exact hx ▸ (mul_zpow_le qe).symm
  · exact hx ▸ (mul_zpow_lt qe).symm
  · exact hx ▸ (mul_zpow_le qe).symm
  · exact hx ▸ (mul_zpow_lt qe).symm
  · intro h
    have h' := (Fmt.greatest_lt_iff hf hle).1 h
    have hk0 : k ≠ 0 := by
      rintro rfl
      rw [Nat.cast_zero, zero_mul] at h'
      exact absurd h' (not_le.2 (two_zpow_pos _))
    rw [Fmt.round_eq hm rm neg e hq hk, if_pos ⟨hk0, h'⟩]
    rfl
  · intro h
    have hy : (k : Rat) * 2 ^ qe < 2 ^ ((f.bias : Int) + 1) := by
      rw [← not_le, ← Fmt.greatest_lt_iff hf hle]
      exact not_lt.2 h
    obtain ⟨n, hr, hn, hd⟩ := Fmt.round_finite hf hm rm neg e hq hk hle hlow hy
    rw [hr]
    have hx' : x = true ↔ ¬ ((k : Rat) * 2 ^ qe ≤ m * 2 ^ e ∧ ¬ (k : Rat) * 2 ^ qe < m * 2 ^ e) := by
      rw [← Bool.not_eq_false, hexact, not_lt, hx, ← le_antisymm_iff, mul_eq_mul_right_iff,
        or_iff_left (two_zpow_pos qe).ne']
    refine ⟨hd, hn, x, x && decide (k < 2 ^ f.fb), hx', ?_, Fmt.roundFlags_eq x k⟩
    rw [Bool.and_eq_true, decide_eq_true_eq, hx']
    refine and_congr_right fun _ => ?_
    constructor
    · intro hs
      rw [hlow hs, show f.emin = f.fb + (f.emin - f.fb) by ring, two_zpow_add, add_sub_cancel_left, mul_zpow_lt,
        zpow_natCast]
      exact_mod_cast hs
    · intro hs
      have : (k : Rat) * 2 ^ qe < 2 ^ (f.fb : Int) * 2 ^ qe := by
        rw [← two_zpow_add]
        exact hs.trans_le (two_zpow_le.2 (by omega))
      rw [mul_zpow_lt, zpow_natCast] at this
      exact_mod_cast this

end

end Sys2Proof.Machine
end

section
/-!
PROOFS. The IEEE operations (R67): exact results rounded once, and what NaNs, infinities and zeros give.
-/

namespace Sys2Proof.Machine

/-! ### Values -/

theorem FVal.exists_of_isFin {x : FVal} (h : x.isFin) : ∃ n m e, x = .fin n m e := by
  cases x with
  | fin n m e => exact ⟨n, m, e, rfl⟩
  | nan b => simp [FVal.isFin] at h
  | inf n => simp [FVal.isFin] at h

theorem FVal.exists_of_isNan {x : FVal} (h : x.isNan) : ∃ b, x = .nan b := by
  cases x with
  | nan b => exact ⟨b, rfl⟩
  | fin n m e => simp [FVal.isNan] at h
  | inf n => simp [FVal.isNan] at h

theorem FVal.exists_of_isInf {x : FVal} (h : x.isInf) : ∃ n, x = .inf n := by
  cases x with
  | inf n => exact ⟨n, rfl⟩
  | fin n m e => simp [FVal.isInf] at h
  | nan b => simp [FVal.isInf] at h

@[simp] theorem FVal.neg_fin (n : Bool) (m : Nat) (e : Int) : (FVal.fin n m e).neg = n := rfl
@[simp] theorem FVal.mag_fin (n : Bool) (m : Nat) (e : Int) : (FVal.fin n m e).mag = m * 2 ^ e := rfl
@[simp] theorem FVal.neg_inf (n : Bool) : (FVal.inf n).neg = n := rfl
@[simp] theorem FVal.isNan_fin (n : Bool) (m : Nat) (e : Int) : (FVal.fin n m e).isNan = false := rfl
@[simp] theorem FVal.isSnan_fin (n : Bool) (m : Nat) (e : Int) : (FVal.fin n m e).isSnan = false := rfl
@[simp] theorem FVal.isNan_inf (n : Bool) : (FVal.inf n).isNan = false := rfl
@[simp] theorem FVal.isSnan_inf (n : Bool) : (FVal.inf n).isSnan = false := rfl
@[simp] theorem FVal.isNan_nan (b : Bool) : (FVal.nan b).isNan = true := rfl
@[simp] theorem FVal.isSnan_nan (b : Bool) : (FVal.nan b).isSnan = b := rfl

theorem FVal.rat_fin (n : Bool) (m : Nat) (e : Int) : (FVal.fin n m e).rat = (if n then -(m : Rat) else m) * 2 ^ e := by
  cases n <;> simp [FVal.rat]

theorem FVal.rat_eq_zero {n : Bool} {m : Nat} {e : Int} : (FVal.fin n m e).rat = 0 ↔ m = 0 := by
  rw [FVal.rat_fin, mul_eq_zero, or_iff_left (two_zpow_pos e).ne']
  cases n <;> simp

theorem FVal.mag_pos {m : Nat} (h : m ≠ 0) (e : Int) : (0 : Rat) < m * 2 ^ e :=
  mul_pos (by exact_mod_cast Nat.pos_of_ne_zero h) (two_zpow_pos e)

@[simp] theorem FVal.rat_negate (x : FVal) : x.negate.rat = -x.rat := by
  cases x with
  | fin n m e => cases n <;> simp [FVal.negate, FVal.rat]
  | nan b => simp [FVal.negate, FVal.rat, FVal.mag]
  | inf n => cases n <;> simp [FVal.negate, FVal.rat, FVal.mag]

theorem snanFlag_fin {xs : List FVal} (h : ∀ x ∈ xs, x.isSnan = false) : snanFlag xs = 0 := by
  rw [snanFlag, if_neg (by simpa using h)]

/-! ### One rounding of an exact result -/

section
variable {f : Fmt} (hf : f.Ok) (rm : Rm)
include hf

theorem Fmt.yields_round (n : Bool) (m : Nat) (e : Int) : f.yields rm (FVal.fin n m e).rat n (f.round rm n m e) := by
  by_cases hm : m = 0
  · subst hm
    simp [Fmt.yields, FVal.rat, Fmt.round]
  · have hpos := FVal.mag_pos hm e
    have hr := Fmt.round_roundsTo hf hm rm n e
    refine ⟨fun h => absurd (FVal.rat_eq_zero.1 h) hm, fun h => ?_, fun h => ?_⟩
    · cases n with
      | false => simpa [FVal.rat] using hr
      | true => simp [FVal.rat] at h; linarith
    · cases n with
      | true => simpa [FVal.rat] using hr
      | false => simp [FVal.rat] at h; linarith

/-- An exact sum, as a signed integer and an exponent, rounded once. -/
theorem Fmt.yields_roundSum (v : Int) (e : Int) (zneg : Bool) : f.yields rm (v * 2 ^ e) zneg (f.roundSum rm (v, e) zneg) := by
  by_cases hv : v = 0
  · subst hv
    simp [Fmt.yields, Fmt.roundSum]
  · have habs : v.natAbs ≠ 0 := by omega
    have hcast : ((v.natAbs : Nat) : Rat) = |(v : Rat)| := by rw [Nat.cast_natAbs, Int.cast_abs]
    rw [Fmt.roundSum, if_neg hv]
    have hp := two_zpow_pos e
    rcases lt_or_gt_of_ne hv with h | h
    · have hq : (v : Rat) < 0 := by exact_mod_cast h
      have hr := Fmt.round_roundsTo hf habs rm true e
      rw [hcast, abs_of_neg hq, neg_mul] at hr
      have : (v : Rat) * 2 ^ e < 0 := mul_neg_of_neg_of_pos hq hp
      refine ⟨fun h0 => by linarith, fun h0 => by linarith, fun _ => ?_⟩
      simpa [h] using hr
    · have hq : (0 : Rat) < v := by exact_mod_cast h
      have hr := Fmt.round_roundsTo hf habs rm false e
      rw [hcast, abs_of_pos hq] at hr
      have : 0 < (v : Rat) * 2 ^ e := mul_pos hq hp
      refine ⟨fun h0 => by linarith, fun _ => ?_, fun h0 => by linarith⟩
      simpa [not_lt.2 h.le] using hr

end

/-- The exact sum is one. -/
theorem addExact_rat (s1 : Bool) (m1 : Nat) (e1 : Int) (s2 : Bool) (m2 : Nat) (e2 : Int) :
    ((addExact s1 m1 e1 s2 m2 e2).1 : Rat) * 2 ^ (addExact s1 m1 e1 s2 m2 e2).2
      = (FVal.fin s1 m1 e1).rat + (FVal.fin s2 m2 e2).rat := by
  have h1 := scale_down m1 (min_le_left e1 e2)
  have h2 := scale_down m2 (min_le_right e1 e2)
  simp only [addExact]
  generalize m1 * 2 ^ (e1 - min e1 e2).toNat = a at h1 ⊢
  generalize m2 * 2 ^ (e2 - min e1 e2).toNat = b at h2 ⊢
  have hx (n : Bool) (k : Nat) : ((if n = true then -(k : Int) else k : Int) : Rat) = if n then -(k : Rat) else k := by
    cases n <;> simp
  rw [Int.cast_add, hx, hx, add_mul, FVal.rat_fin, FVal.rat_fin]
  congr 1
  · cases s1 <;> simp [h1]
  · cases s2 <;> simp [h2]

/-- Values in order (R67). -/
theorem fcmp_fin {x y : FVal} (hx : x.isFin) (hy : y.isFin) :
    fcmp x y = if x.rat < y.rat then .lt else if x.rat = y.rat then .eq else .gt := by
  obtain ⟨s1, m1, e1, rfl⟩ := FVal.exists_of_isFin hx
  obtain ⟨s2, m2, e2, rfl⟩ := FVal.exists_of_isFin hy
  have h := addExact_rat s1 m1 e1 (!s2) m2 e2
  rw [show (FVal.fin (!s2) m2 e2) = (FVal.fin s2 m2 e2).negate from rfl, FVal.rat_negate, ← sub_eq_add_neg] at h
  have hp := two_zpow_pos (addExact s1 m1 e1 (!s2) m2 e2).2
  have hlt : (addExact s1 m1 e1 (!s2) m2 e2).1 < 0 ↔ (FVal.fin s1 m1 e1).rat < (FVal.fin s2 m2 e2).rat := by
    rw [← sub_neg (b := (FVal.fin s2 m2 e2).rat), ← h, ← not_le, ← not_le, mul_nonneg_iff_of_pos_right hp]
    norm_cast
  have heq : (addExact s1 m1 e1 (!s2) m2 e2).1 = 0 ↔ (FVal.fin s1 m1 e1).rat = (FVal.fin s2 m2 e2).rat := by
    rw [← sub_eq_zero (b := (FVal.fin s2 m2 e2).rat), ← h, mul_eq_zero, or_iff_left hp.ne']
    norm_cast
  simp only [fcmp, hlt, heq]

/-! ### Numbers known by a sticky bit -/

section
variable {f : Fmt}

/-- `Round` sees a number only where it compares with multiples of a unit that is fine enough. -/
theorem Fmt.rounds_congr {rm : Rm} {neg : Bool} {le lt : Rat → Prop} {x : Rat} {r : Nat × BitVec 6} {g : Int}
    (h : f.roundsTo rm neg x r) (hg : (2 : Rat) ^ (g + f.fb + 1) ≤ x)
    (hle : ∀ j : Nat, (j : Rat) * 2 ^ g ≤ x ↔ le (j * 2 ^ g)) (hlt : ∀ j : Nat, (j : Rat) * 2 ^ g < x ↔ lt (j * 2 ^ g)) :
    f.rounds rm neg le lt r := by
  obtain ⟨e, k, h1, h2, h3, hint, hover, hfin⟩ := h
  have he : g + f.fb + 1 ≤ e := by
    have := two_zpow_lt.1 (hg.trans_lt (not_le.1 h3))
    omega
  -- the points of comparison are such multiples
  have grid (n : Nat) {q : Int} (hq : g ≤ q) : ∃ j : Nat, (n : Rat) * 2 ^ q = j * 2 ^ g := ⟨_, scale_down n hq⟩
  have le' (n : Nat) {q : Int} (hq : g ≤ q) : (n : Rat) * 2 ^ q ≤ x ↔ le (n * 2 ^ q) := by
    obtain ⟨j, hj⟩ := grid n hq
    rw [hj, hle]
  have lt' (n : Nat) {q : Int} (hq : g ≤ q) : (n : Rat) * 2 ^ q < x ↔ lt (n * 2 ^ q) := by
    obtain ⟨j, hj⟩ := grid n hq
    rw [hj, hlt]
  have pow (q : Int) : (2 : Rat) ^ q = ((1 : Nat) : Rat) * 2 ^ q := by rw [Nat.cast_one, one_mul]
  have half (n : Nat) : ((n : Rat) + 1 / 2) * 2 ^ (e - f.fb) = ((2 * n + 1 : Nat) : Rat) * 2 ^ (e - f.fb - 1) := by
    rw [sub_eq_add_neg (e - (f.fb : Int)) 1, two_zpow_add, zpow_neg, zpow_one]
    push_cast
    ring
  have hy := le' k (show g ≤ e - f.fb by omega)
  have hy' := lt' k (show g ≤ e - f.fb by omega)
  refine ⟨e, k, h1, h2.imp_right fun h => ?_, fun h => h3 ?_, integerOf_congr (fun n => ?_) (fun n => ?_) (fun n => ⟨?_, ?_⟩) hint,
    hover, ?_⟩
  · rw [pow] at h ⊢
    exact (le' 1 (by omega)).1 h
  · rw [pow] at h ⊢
    exact (le' 1 (by omega)).2 h
  · exact le' n (by omega)
  · exact lt' n (by omega)
  · rw [half]
    exact le' _ (by omega)
  · rw [half]
    exact lt' _ (by omega)
  · rw [← hy, ← hy']
    exact hfin

/-- A root or a quotient that is cut to at least 63 bits and a sticky bit is rounded as it is itself. -/
theorem Fmt.rounds_sticky (hf : f.Ok) {rm : Rm} {neg : Bool} {le lt : Rat → Prop} {n : Nat} {g : Int} {more : Bool}
    (hn : 2 ^ 63 ≤ n) (hle : ∀ j : Nat, j ≤ n ↔ le (j * 2 ^ g))
    (hlt : ∀ j : Nat, 2 * j < 2 * n + (if more then 1 else 0) ↔ lt (j * 2 ^ g)) :
    f.rounds rm neg le lt (f.round rm neg (sticky n g more).1 (sticky n g more).2) := by
  have h0 : (sticky n g more).1 ≠ 0 := by
    rw [sticky]
    omega
  have hfb := hf.short
  have hunit (j : Nat) : (j : Rat) * 2 ^ g = ((2 * j : Nat) : Rat) * 2 ^ (g - 1) := by
    rw [sub_eq_add_neg, two_zpow_add, zpow_neg, zpow_one]
    push_cast
    ring
  refine Fmt.rounds_congr (g := g) (Fmt.round_roundsTo hf h0 rm neg _) ?_ (fun j => ?_) fun j => ?_
  · have h2 : ((2 ^ 64 : Nat) : Rat) ≤ ((sticky n g more).1 : Nat) := by
      rw [sticky]
      exact_mod_cast (by omega : 2 ^ 64 ≤ 2 * n + _)
    calc (2 : Rat) ^ (g + f.fb + 1) ≤ 2 ^ (((64 : Nat) : Int) + (g - 1)) := two_zpow_le.2 (by push_cast; omega)
      _ = ((2 ^ 64 : Nat) : Rat) * 2 ^ (g - 1) := by rw [two_zpow_add, zpow_natCast, Nat.cast_pow, Nat.cast_ofNat]
      _ ≤ _ := (mul_zpow_le _).2 h2
  · rw [← hle, hunit, sticky, mul_zpow_le, Nat.cast_le]
    split <;> omega
  · rw [← hlt, hunit, sticky, mul_zpow_lt, Nat.cast_lt]

end

/-! ### Quotients -/

theorem divMag_large {m1 m2 : Nat} (h1 : m1 ≠ 0) (h2 : m2 ≠ 0) : 2 ^ 63 ≤ m1 * 2 ^ (64 + Nat.log2 m2) / m2 := by
  rw [Nat.le_div_iff_mul_le (Nat.pos_of_ne_zero h2)]
  have hlog : m2 < 2 ^ (Nat.log2 m2 + 1) := Nat.lt_log2_self
  calc 2 ^ 63 * m2 ≤ 2 ^ 63 * 2 ^ (Nat.log2 m2 + 1) := Nat.mul_le_mul_left _ hlog.le
    _ = 1 * 2 ^ (64 + Nat.log2 m2) := by rw [← Nat.pow_add]; ring_nf
    _ ≤ _ := Nat.mul_le_mul_right _ (Nat.pos_of_ne_zero h1)

theorem divMag_rounds {f : Fmt} (hf : f.Ok) (rm : Rm) (neg : Bool) {m1 m2 : Nat} (h1 : m1 ≠ 0) (h2 : m2 ≠ 0)
    (e1 e2 : Int) : f.roundsTo rm neg (m1 * 2 ^ e1 / (m2 * 2 ^ e2))
      (f.round rm neg (divMag m1 e1 m2 e2).1 (divMag m1 e1 m2 e2).2) := by
  have hpos : 0 < m2 := Nat.pos_of_ne_zero h2
  have hx : (m1 : Rat) * 2 ^ e1 / (m2 * 2 ^ e2)
      = (m1 * 2 ^ (64 + Nat.log2 m2) : Nat) / m2 * 2 ^ (e1 - e2 - (64 + Nat.log2 m2 : Nat)) := by
    rw [sub_eq_add_neg (e1 - e2), two_zpow_add, sub_eq_add_neg e1 e2, two_zpow_add, zpow_neg, zpow_neg, zpow_natCast,
      Nat.cast_mul, Nat.cast_pow, Nat.cast_ofNat]
    have := (two_zpow_pos e2).ne'
    have : (m2 : Rat) ≠ 0 := by exact_mod_cast h2
    field_simp
  have hm2 : (0 : Rat) < m2 := by exact_mod_cast hpos
  generalize hN : m1 * 2 ^ (64 + Nat.log2 m2) = N at hx
  have hlarge := divMag_large h1 h2
  have hd := Nat.div_add_mod N m2
  have hm := Nat.mod_lt N hpos
  rw [divMag]
  simp only [hN] at hlarge ⊢
  refine Fmt.rounds_sticky hf hlarge (fun j => ?_) fun j => ?_
  · rw [hx, mul_zpow_le, le_div_iff₀ hm2, Nat.le_div_iff_mul_le hpos]
    norm_cast
  · rw [hx, mul_zpow_lt, lt_div_iff₀ hm2]
    norm_cast
    have hj : j ≤ N / m2 ↔ j * m2 ≤ N := Nat.le_div_iff_mul_le hpos
    by_cases h0 : N % m2 = 0
    · have hN' : N = N / m2 * m2 := by rw [Nat.mul_comm]; omega
      rw [h0, hN', Nat.mul_lt_mul_right hpos]
      simp [Nat.mul_div_cancel _ hpos]
    · have : N ≠ j * m2 := fun h => h0 (by rw [h]; exact Nat.mul_mod_left ..)
      simp only [bne_iff_ne, ne_eq, h0, not_false_eq_true, if_true]
      omega

/-! ### Square roots -/

/-- The root found bit by bit. -/
theorem isqrtBits_spec (n k r : Nat) (h : r * r ≤ n) (h' : n < (r + 2 ^ k) * (r + 2 ^ k)) :
    isqrtBits n k r * isqrtBits n k r ≤ n ∧ n < (isqrtBits n k r + 1) * (isqrtBits n k r + 1) := by
  induction k generalizing r with
  | zero => exact ⟨h, by simpa [isqrtBits] using h'⟩
  | succ k ih =>
    rw [isqrtBits]
    by_cases hc : (r + 2 ^ k) * (r + 2 ^ k) ≤ n
    · simp only [if_pos hc]
      exact ih _ hc (by rwa [Nat.add_assoc, ← Nat.two_mul, ← Nat.pow_succ'])
    · simp only [if_neg hc]
      exact ih _ h (Nat.not_le.1 hc)

theorem isqrt_spec (n : Nat) : isqrt n * isqrt n ≤ n ∧ n < (isqrt n + 1) * (isqrt n + 1) := by
  refine isqrtBits_spec n _ 0 (by simp) ?_
  rw [Nat.zero_add, ← Nat.pow_add]
  exact Nat.lt_log2_self.trans_le (Nat.pow_le_pow_right two_pos (by omega))

theorem le_isqrt {n j : Nat} : j ≤ isqrt n ↔ j * j ≤ n := by
  obtain ⟨h1, h2⟩ := isqrt_spec n
  constructor
  · exact fun h => (Nat.mul_le_mul h h).trans h1
  · intro h
    by_contra hc
    have : isqrt n + 1 ≤ j := by omega
    have := Nat.mul_le_mul this this
    omega

theorem sqrtMag_rounds {f : Fmt} (hf : f.Ok) (rm : Rm) {m : Nat} (hm : m ≠ 0) (e : Int) :
    f.rounds rm false (fun t => t * t ≤ m * 2 ^ e) (fun t => t * t < m * 2 ^ e)
      (f.round rm false (sqrtMag m e).1 (sqrtMag m e).2) := by
  obtain ⟨k, hk, hk128⟩ : ∃ k : Nat, k = (if e % 2 = 0 then 128 else 129) ∧ 128 ≤ k := ⟨_, rfl, by split <;> omega⟩
  obtain ⟨g, hg⟩ : ∃ g : Int, e = 2 * g + k := ⟨(e - k) / 2, by split at hk <;> omega⟩
  have hx : (m : Rat) * 2 ^ e = (m * 2 ^ k : Nat) * (2 ^ g * 2 ^ g) := by
    rw [hg, two_zpow_add, two_mul, two_zpow_add, zpow_natCast, Nat.cast_mul, Nat.cast_pow, Nat.cast_ofNat]
    ring
  have hp : (0 : Rat) < 2 ^ g * 2 ^ g := mul_pos (two_zpow_pos g) (two_zpow_pos g)
  have hsq (j : Nat) : (j : Rat) * 2 ^ g * (j * 2 ^ g) = (j * j : Nat) * (2 ^ g * 2 ^ g) := by push_cast; ring
  have hlarge : 2 ^ 63 ≤ isqrt (m * 2 ^ k) := by
    rw [le_isqrt, ← Nat.pow_add]
    calc 2 ^ (63 + 63) ≤ 1 * 2 ^ k := by rw [Nat.one_mul]; exact Nat.pow_le_pow_right two_pos (by omega)
      _ ≤ _ := Nat.mul_le_mul_right _ (Nat.pos_of_ne_zero hm)
  have hs : sqrtMag m e = sticky (isqrt (m * 2 ^ k)) g (isqrt (m * 2 ^ k) * isqrt (m * 2 ^ k) != m * 2 ^ k) := by
    rw [sqrtMag, ← hk, show (e - k) / 2 = g by omega]
  rw [hs]
  refine Fmt.rounds_sticky hf hlarge (fun j => ?_) fun j => ?_
  · rw [hsq, hx, mul_le_mul_iff_of_pos_right hp, Nat.cast_le, le_isqrt]
  · rw [hsq, hx, mul_lt_mul_iff_of_pos_right hp, Nat.cast_lt]
    obtain ⟨h1, h2⟩ := isqrt_spec (m * 2 ^ k)
    have hle : j ≤ isqrt (m * 2 ^ k) ↔ j * j ≤ m * 2 ^ k := le_isqrt
    generalize isqrt (m * 2 ^ k) = r at *
    generalize m * 2 ^ k = N at *
    by_cases hr : r * r = N
    · subst hr
      simp only [bne_self_eq_false, Bool.false_eq_true, if_false, Nat.add_zero, Nat.mul_self_lt_mul_self_iff]
      omega
    · simp only [bne_iff_ne, ne_eq, hr, not_false_eq_true, if_true]
      constructor
      · intro h
        have hjr : j ≤ r := by omega
        exact lt_of_le_of_lt (Nat.mul_le_mul hjr hjr) (by omega)
      · intro h
        have := hle.2 h.le
        omega

end Sys2Proof.Machine
end

section
/-!
PROOFS. What each IEEE operation of the model yields (R67, R69): finite operands, then NaNs and infinities.
-/

namespace Sys2Proof.Machine

/-! ### The operations on values -/

@[simp] theorem FVal.isNan_negate (x : FVal) : x.negate.isNan = x.isNan := by cases x <;> rfl
@[simp] theorem FVal.isFin_negate (x : FVal) : x.negate.isFin = x.isFin := by cases x <;> rfl

theorem FVal.neg_negate {x : FVal} (h : x.isFin) : x.negate.neg = !x.neg := by
  obtain ⟨n, m, e, rfl⟩ := FVal.exists_of_isFin h
  rfl

theorem FVal.isSnan_of_isFin {x : FVal} (h : x.isFin) : x.isSnan = false := by
  obtain ⟨n, m, e, rfl⟩ := FVal.exists_of_isFin h
  rfl

theorem FVal.isNan_of_isFin {x : FVal} (h : x.isFin) : x.isNan = false := by
  obtain ⟨n, m, e, rfl⟩ := FVal.exists_of_isFin h
  rfl

@[simp] theorem flags_or_zero (p : Nat × FlagBits) : (p.1, p.2 ||| 0) = p := by simp

@[simp] theorem zero_or_flags (n : Nat) (fl : FlagBits) : (n, 0 ||| fl) = (n, fl) := by simp

/-- The exact product of finite values. -/
theorem mulVal_fin {x y : FVal} (hx : x.isFin) (hy : y.isFin) :
    ∃ m e, mulVal x y = some (.fin (x.neg != y.neg) m e) ∧ (FVal.fin (x.neg != y.neg) m e).rat = x.rat * y.rat := by
  obtain ⟨s1, m1, e1, rfl⟩ := FVal.exists_of_isFin hx
  obtain ⟨s2, m2, e2, rfl⟩ := FVal.exists_of_isFin hy
  refine ⟨m1 * m2, e1 + e2, rfl, ?_⟩
  simp only [FVal.neg_fin, FVal.rat_fin, two_zpow_add, Nat.cast_mul]
  cases s1 <;> cases s2 <;> simp <;> ring

theorem mulVal_nan {x y : FVal} (h : x.isNan ∨ y.isNan) : mulVal x y = some (.nan false) := by
  rcases h with h | h <;> obtain ⟨b, rfl⟩ := FVal.exists_of_isNan h
  · rfl
  · cases x <;> rfl

theorem Fmt.addVal_nan (f : Fmt) (rm : Rm) {x y : FVal} (h : x.isNan ∨ y.isNan) : f.addVal rm x y = (f.qnan, 0) := by
  rcases h with h | h <;> obtain ⟨b, rfl⟩ := FVal.exists_of_isNan h
  · rfl
  · cases x <;> rfl

section
variable {f : Fmt} (hf : f.Ok) (rm : Rm) {a b c : Nat}

/-- Operands of which none is a signalling NaN add no flag. -/
theorem Fmt.add_quiet (hx : (f.decode a).isSnan = false) (hy : (f.decode b).isSnan = false) :
    f.add rm a b = f.addVal rm (f.decode a) (f.decode b) := by
  simp only [Fmt.add, snanFlag_fin (xs := [f.decode a, f.decode b]) (by simp [hx, hy]), flags_or_zero]

theorem Fmt.sub_quiet (hx : (f.decode a).isSnan = false) (hy : (f.decode b).isSnan = false) :
    f.sub rm a b = f.addVal rm (f.decode a) (f.decode b).negate := by
  simp only [Fmt.sub, snanFlag_fin (xs := [f.decode a, f.decode b]) (by simp [hx, hy]), flags_or_zero]

theorem Fmt.mul_quiet (hx : (f.decode a).isSnan = false) (hy : (f.decode b).isSnan = false) :
    f.mul rm a b = (mulVal (f.decode a) (f.decode b)).elim (f.qnan, nv) (f.roundVal rm) := by
  simp only [Fmt.mul, snanFlag_fin (xs := [f.decode a, f.decode b]) (by simp [hx, hy]), flags_or_zero]
  cases mulVal (f.decode a) (f.decode b) <;> rfl

/-! ### Finite operands -/

section
include hf

theorem Fmt.addVal_fin {x y : FVal} (hx : x.isFin) (hy : y.isFin) :
    f.yields rm (x.rat + y.rat) (if x.neg = y.neg then x.neg else decide (rm = .rd)) (f.addVal rm x y) := by
  obtain ⟨s1, m1, e1, rfl⟩ := FVal.exists_of_isFin hx
  obtain ⟨s2, m2, e2, rfl⟩ := FVal.exists_of_isFin hy
  rw [← addExact_rat]
  have hsign : (if s1 = s2 then s1 else decide (rm = .rd)) = if s1 == s2 then s1 else rm == .rd := by
    simp only [beq_iff_eq]
    rfl
  rw [FVal.neg_fin, FVal.neg_fin, hsign]
  exact Fmt.yields_roundSum hf rm _ _ _

theorem Fmt.add_fin (hx : (f.decode a).isFin) (hy : (f.decode b).isFin) :
    f.yields rm ((f.decode a).rat + (f.decode b).rat)
      (if (f.decode a).neg = (f.decode b).neg then (f.decode a).neg else decide (rm = .rd)) (f.add rm a b) := by
  rw [Fmt.add_quiet rm (FVal.isSnan_of_isFin hx) (FVal.isSnan_of_isFin hy)]
  exact Fmt.addVal_fin hf rm hx hy

theorem Fmt.sub_fin (hx : (f.decode a).isFin) (hy : (f.decode b).isFin) :
    f.yields rm ((f.decode a).rat - (f.decode b).rat)
      (if (f.decode a).neg = !(f.decode b).neg then (f.decode a).neg else decide (rm = .rd)) (f.sub rm a b) := by
  have := Fmt.addVal_fin hf rm hx (y := (f.decode b).negate) (by rwa [FVal.isFin_negate])
  rw [FVal.rat_negate, FVal.neg_negate hy, ← sub_eq_add_neg] at this
  rwa [Fmt.sub_quiet rm (FVal.isSnan_of_isFin hx) (FVal.isSnan_of_isFin hy)]

theorem Fmt.mul_fin (hx : (f.decode a).isFin) (hy : (f.decode b).isFin) :
    f.yields rm ((f.decode a).rat * (f.decode b).rat) ((f.decode a).neg != (f.decode b).neg) (f.mul rm a b) := by
  obtain ⟨m, e, hm, hr⟩ := mulVal_fin hx hy
  have := Fmt.yields_round hf rm ((f.decode a).neg != (f.decode b).neg) m e
  rw [hr] at this
  rwa [Fmt.mul_quiet rm (FVal.isSnan_of_isFin hx) (FVal.isSnan_of_isFin hy), hm, Option.elim_some]

theorem Fmt.fma_fin (hx : (f.decode a).isFin) (hy : (f.decode b).isFin) (hz : (f.decode c).isFin) :
    f.yields rm ((f.decode a).rat * (f.decode b).rat + (f.decode c).rat)
      (if ((f.decode a).neg != (f.decode b).neg) = (f.decode c).neg then (f.decode c).neg else decide (rm = .rd))
      (f.fma rm a b c) := by
  have hq : snanFlag [f.decode a, f.decode b, f.decode c] = 0 :=
    snanFlag_fin (by simp [FVal.isSnan_of_isFin, hx, hy, hz])
  obtain ⟨m, e, hm, hr⟩ := mulVal_fin hx hy
  have := Fmt.addVal_fin hf rm (x := .fin ((f.decode a).neg != (f.decode b).neg) m e) rfl hz
  have hsign : (if ((f.decode a).neg != (f.decode b).neg) = (f.decode c).neg then ((f.decode a).neg != (f.decode b).neg)
      else decide (rm = .rd)) = if ((f.decode a).neg != (f.decode b).neg) = (f.decode c).neg then (f.decode c).neg
      else decide (rm = .rd) := ite_congr rfl (fun h => h) fun _ => rfl
  rw [hr, FVal.neg_fin, hsign] at this
  simpa only [Fmt.fma, hm, hq, flags_or_zero] using this

theorem Fmt.div_fin (hx : (f.decode a).isFin) (hy : (f.decode b).isFin) (h0 : (f.decode b).rat ≠ 0) :
    f.yields rm ((f.decode a).rat / (f.decode b).rat) ((f.decode a).neg != (f.decode b).neg) (f.div rm a b) := by
  obtain ⟨s1, m1, e1, hx⟩ := FVal.exists_of_isFin hx
  obtain ⟨s2, m2, e2, hy⟩ := FVal.exists_of_isFin hy
  rw [hy] at h0
  rw [hx, hy]
  have h2 : m2 ≠ 0 := fun h => h0 (FVal.rat_eq_zero.2 h)
  simp only [Fmt.div, hx, hy, if_neg h2]
  by_cases h1 : m1 = 0
  · subst h1
    simp [Fmt.yields, FVal.rat]
  · rw [if_neg h1]
    have hr := divMag_rounds hf rm (s1 != s2) h1 h2 e1 e2
    have hpos : (0 : Rat) < m1 * 2 ^ e1 / (m2 * 2 ^ e2) := div_pos (FVal.mag_pos h1 e1) (FVal.mag_pos h2 e2)
    have hq : (FVal.fin s1 m1 e1).rat / (FVal.fin s2 m2 e2).rat
        = (if s1 != s2 then -1 else 1) * (m1 * 2 ^ e1 / (m2 * 2 ^ e2)) := by
      cases s1 <;> cases s2 <;> simp [FVal.rat, div_neg, neg_div]
    rw [hq, FVal.neg_fin, FVal.neg_fin]
    generalize (m1 : Rat) * 2 ^ e1 / (m2 * 2 ^ e2) = q at *
    cases hs : s1 != s2 <;> rw [hs] at hr <;> simp only [Bool.false_eq_true, if_false, if_true, one_mul, neg_one_mul]
    · exact ⟨fun h => absurd h hpos.ne', fun _ => hr, fun h => absurd h (not_lt.2 hpos.le)⟩
    · exact ⟨fun h => absurd h (neg_ne_zero.2 hpos.ne'), fun h => absurd h (by linarith), fun _ => by rwa [neg_neg]⟩

theorem Fmt.sqrt_fin (hx : (f.decode a).isFin) (h0 : 0 < (f.decode a).rat) :
    f.rounds rm false (fun t => t * t ≤ (f.decode a).rat) (fun t => t * t < (f.decode a).rat) (f.sqrt rm a) := by
  obtain ⟨n, m, e, hx⟩ := FVal.exists_of_isFin hx
  rw [hx] at h0 ⊢
  have hm : m ≠ 0 := fun h => h0.ne' (FVal.rat_eq_zero.2 h)
  have hn : n = false := by
    by_contra h
    rw [Bool.not_eq_false] at h
    have := FVal.mag_pos hm e
    rw [h] at h0
    simp [FVal.rat] at h0
    linarith
  subst hn
  have hr : (FVal.fin false m e).rat = m * 2 ^ e := rfl
  rw [hr]
  simpa only [Fmt.sqrt, hx, if_neg hm, Bool.false_eq_true, if_false] using sqrtMag_rounds hf rm hm e

end

theorem Fmt.div_zero (hx : (f.decode a).isFin) (hy : (f.decode b).isFin) (h0 : (f.decode b).rat = 0) :
    f.div rm a b = if (f.decode a).rat = 0 then (f.qnan, 16) else (f.inf ((f.decode a).neg != (f.decode b).neg), 8) := by
  obtain ⟨s1, m1, e1, hx⟩ := FVal.exists_of_isFin hx
  obtain ⟨s2, m2, e2, hy⟩ := FVal.exists_of_isFin hy
  rw [hy] at h0
  simp only [Fmt.div, hx, hy, if_pos (FVal.rat_eq_zero.1 h0), FVal.rat_eq_zero, FVal.neg_fin]
  rfl

theorem Fmt.sqrt_zero (hx : (f.decode a).isFin) (h0 : (f.decode a).rat = 0) :
    f.sqrt rm a = (f.zero (f.decode a).neg, 0) := by
  obtain ⟨n, m, e, hx⟩ := FVal.exists_of_isFin hx
  rw [hx] at h0
  simp only [Fmt.sqrt, hx, if_pos (FVal.rat_eq_zero.1 h0), FVal.neg_fin]

theorem Fmt.sqrt_neg (hx : (f.decode a).isFin) (h0 : (f.decode a).rat < 0) : f.sqrt rm a = (f.qnan, 16) := by
  obtain ⟨n, m, e, hx⟩ := FVal.exists_of_isFin hx
  rw [hx] at h0
  have hm : m ≠ 0 := fun h => h0.ne (FVal.rat_eq_zero.2 h)
  cases n with
  | true =>
    simp only [Fmt.sqrt, hx, if_neg hm]
    rfl
  | false =>
    have : (FVal.fin false m e).rat = m * 2 ^ e := rfl
    have := FVal.mag_pos hm e
    linarith

theorem Fmt.minmax_fin (hx : (f.decode a).isFin) (hy : (f.decode b).isFin) (greater : Bool) : f.minmax greater a b =
    (if (if (f.decode a).rat = (f.decode b).rat then (f.decode a).neg && !(f.decode b).neg
      else decide ((f.decode a).rat < (f.decode b).rat)) = greater then b else a, 0) := by
  simp only [Fmt.minmax, FVal.isSnan_of_isFin hx, FVal.isSnan_of_isFin hy, FVal.isNan_of_isFin hx, FVal.isNan_of_isFin hy,
    fcmp_fin hx hy, Bool.or_self, Bool.false_eq_true, if_false]
  rcases lt_trichotomy (f.decode a).rat (f.decode b).rat with h | h | h
  · cases greater <;> simp [h, h.ne]
  · cases greater <;> cases (f.decode a).neg <;> cases (f.decode b).neg <;> simp [h]
  · cases greater <;> simp [not_lt.2 h.le, h.ne']

theorem Fmt.compare_fin (hx : (f.decode a).isFin) (hy : (f.decode b).isFin) :
    f.compare .eq a b = (decide ((f.decode a).rat = (f.decode b).rat), 0)
    ∧ f.compare .lt a b = (decide ((f.decode a).rat < (f.decode b).rat), 0)
    ∧ f.compare .le a b = (decide ((f.decode a).rat ≤ (f.decode b).rat), 0) ∧ f.compare .un a b = (false, 0) := by
  have hq : snanFlag [f.decode a, f.decode b] = 0 := snanFlag_fin (by simp [FVal.isSnan_of_isFin, hx, hy])
  simp only [Fmt.compare, FVal.isNan_of_isFin hx, FVal.isNan_of_isFin hy, fcmp_fin hx hy, hq]
  rcases lt_trichotomy (f.decode a).rat (f.decode b).rat with h | h | h
  · simp [h, h.ne, h.le]
  · simp [h]
  · simp [not_lt.2 h.le, h.ne', not_le.2 h]

/-! ### NaNs -/

theorem Fmt.add_nan (h : (f.decode a).isNan ∨ (f.decode b).isNan) :
    f.add rm a b = (f.qnan, snanFlag [f.decode a, f.decode b]) := by
  simp only [Fmt.add, Fmt.addVal_nan f rm h, zero_or_flags]

theorem Fmt.sub_nan (h : (f.decode a).isNan ∨ (f.decode b).isNan) :
    f.sub rm a b = (f.qnan, snanFlag [f.decode a, f.decode b]) := by
  have h' : (f.decode a).isNan ∨ (f.decode b).negate.isNan := by rwa [FVal.isNan_negate]
  simp only [Fmt.sub, Fmt.addVal_nan f rm h', zero_or_flags]

theorem Fmt.mul_nan (h : (f.decode a).isNan ∨ (f.decode b).isNan) :
    f.mul rm a b = (f.qnan, snanFlag [f.decode a, f.decode b]) := by
  simp only [Fmt.mul, mulVal_nan h, Fmt.roundVal, zero_or_flags]

theorem Fmt.fma_nan (h : (f.decode a).isNan ∨ (f.decode b).isNan) :
    f.fma rm a b c = (f.qnan, snanFlag [f.decode a, f.decode b, f.decode c]) := by
  simp only [Fmt.fma, mulVal_nan h, Fmt.addVal_nan f rm (.inl (FVal.isNan_nan false)), zero_or_flags]

theorem Fmt.div_nan (h : (f.decode a).isNan ∨ (f.decode b).isNan) :
    f.div rm a b = (f.qnan, snanFlag [f.decode a, f.decode b]) := by
  simp only [Fmt.div]
  rcases h with h | h <;> obtain ⟨n, h⟩ := FVal.exists_of_isNan h <;> rw [h]
  cases f.decode a <;> rfl

theorem Fmt.sqrt_nan (h : (f.decode a).isNan) : f.sqrt rm a = (f.qnan, snanFlag [f.decode a]) := by
  obtain ⟨n, h⟩ := FVal.exists_of_isNan h
  simp only [Fmt.sqrt, h]
  cases n <;> rfl

theorem Fmt.minmax_nan (h : (f.decode a).isNan ∨ (f.decode b).isNan) (greater : Bool) : f.minmax greater a b =
    if (f.decode a).isSnan ∨ (f.decode b).isSnan then (f.qnan, 16)
    else if (f.decode a).isNan ∧ (f.decode b).isNan then (f.qnan, 0) else if (f.decode a).isNan then (b, 0) else (a, 0) := by
  simp only [Fmt.minmax, Bool.or_eq_true]
  by_cases hs : (f.decode a).isSnan = true ∨ (f.decode b).isSnan = true
  · simp only [if_pos hs]
    rfl
  · simp only [if_neg hs]
    cases hx : (f.decode a).isNan <;> cases hy : (f.decode b).isNan <;> simp_all

theorem Fmt.compare_nan (h : (f.decode a).isNan ∨ (f.decode b).isNan) :
    f.compare .eq a b = (false, snanFlag [f.decode a, f.decode b])
    ∧ f.compare .un a b = (true, snanFlag [f.decode a, f.decode b])
    ∧ f.compare .lt a b = (false, 16) ∧ f.compare .le a b = (false, 16) := by
  have hn : ((f.decode a).isNan || (f.decode b).isNan) = true := by simpa using h
  simp only [Fmt.compare, hn, Bool.not_true, Bool.false_and, if_true]
  exact ⟨trivial, trivial, rfl, rfl⟩

/-! ### Infinities -/

theorem Fmt.inf_inf {p q : Bool} (hx : f.decode a = .inf p) (hy : f.decode b = .inf q) :
    f.add rm a b = (if p = q then (f.inf p, 0) else (f.qnan, 16)) ∧ f.mul rm a b = (f.inf (p != q), 0)
    ∧ f.sub rm a b = (if p = q then (f.qnan, 16) else (f.inf p, 0)) ∧ f.div rm a b = (f.qnan, 16) := by
  have hx' : (f.decode a).isSnan = false := by rw [hx]; rfl
  have hy' : (f.decode b).isSnan = false := by rw [hy]; rfl
  rw [Fmt.add_quiet rm hx' hy', Fmt.mul_quiet rm hx' hy', Fmt.sub_quiet rm hx' hy', Fmt.div, hx, hy]
  cases p <;> cases q <;> exact ⟨rfl, rfl, rfl, rfl⟩

theorem Fmt.inf_fin {p : Bool} (hx : f.decode a = .inf p) (hy : (f.decode b).isFin) :
    f.add rm a b = (f.inf p, 0) ∧ f.sub rm a b = (f.inf p, 0) ∧ f.div rm a b = (f.inf (p != (f.decode b).neg), 0)
    ∧ f.mul rm a b = (if (f.decode b).rat = 0 then (f.qnan, 16) else (f.inf (p != (f.decode b).neg), 0))
    ∧ ((f.decode b).rat = 0 → f.fma rm a b c = (f.qnan, 16)) := by
  have hx' : (f.decode a).isSnan = false := by rw [hx]; rfl
  rw [Fmt.add_quiet rm hx' (FVal.isSnan_of_isFin hy), Fmt.mul_quiet rm hx' (FVal.isSnan_of_isFin hy),
    Fmt.sub_quiet rm hx' (FVal.isSnan_of_isFin hy), Fmt.div, Fmt.fma]
  obtain ⟨n, m, e, hy⟩ := FVal.exists_of_isFin hy
  simp only [hx, hy, FVal.rat_eq_zero, mulVal]
  refine ⟨rfl, rfl, rfl, ?_, fun h => by rw [if_pos h]; rfl⟩
  by_cases hm : m = 0
  · simp only [if_pos hm]
    rfl
  · simp only [if_neg hm]
    rfl

theorem Fmt.fin_inf {p : Bool} (hx : (f.decode a).isFin) (hy : f.decode b = .inf p) :
    f.add rm a b = (f.inf p, 0) ∧ f.sub rm a b = (f.inf (!p), 0) ∧ f.div rm a b = (f.zero ((f.decode a).neg != p), 0)
    ∧ f.mul rm a b = (if (f.decode a).rat = 0 then (f.qnan, 16) else (f.inf ((f.decode a).neg != p), 0)) := by
  have hy' : (f.decode b).isSnan = false := by rw [hy]; rfl
  rw [Fmt.add_quiet rm (FVal.isSnan_of_isFin hx) hy', Fmt.mul_quiet rm (FVal.isSnan_of_isFin hx) hy',
    Fmt.sub_quiet rm (FVal.isSnan_of_isFin hx) hy', Fmt.div]
  obtain ⟨n, m, e, hx⟩ := FVal.exists_of_isFin hx
  simp only [hx, hy, FVal.rat_eq_zero, mulVal]
  refine ⟨rfl, rfl, rfl, ?_⟩
  by_cases hm : m = 0
  · simp only [if_pos hm]
    rfl
  · simp only [if_neg hm]
    rfl

theorem Fmt.sqrt_inf {p : Bool} (hx : f.decode a = .inf p) :
    f.sqrt rm a = if p then (f.qnan, 16) else (f.inf false, 0) := by
  simp only [Fmt.sqrt, hx]
  rfl

/-- What stands for a magnitude too great (R66). -/
theorem Fmt.overflow_eq (neg : Bool) : f.overflow rm neg =
    if rm = .rn ∨ rm = .rd ∧ neg = true ∨ rm = .ru ∧ neg = false then f.inf neg else f.maxFinite neg := by
  cases rm <;> cases neg <;> rfl

end

end Sys2Proof.Machine
end

section
/-!
PROOFS. Vector commands: what queues one, the elements of a register of results, and the float operations (O48).
-/

namespace Sys2Proof.Machine

/-! ### The queue (R157) -/

/-- The core once a command of a lone bundle has entered the queue. -/
def State.vecWaiting (s : State) (busy : Nat) (dsts : List (Nat × Vec)) (fl : FlagBits) : State :=
  s.modCore s.ctx.core fun x => { x with
    vecQ := x.vecQ ++ [{ tid := s.ctx.tid, pc := s.me.pc, order := s.clock, issued := s.clock, busy := busy, flags := fl,
                         dsts := dsts.filter fun d => d.1 != 0, unit := none }] }

theorem queueVec_inWith {s : State} {i : Instr} (h : s.issues .lone i) (busy : Nat) (dsts : List (Nat × Vec)) (fl : FlagBits) :
    (s.inWith i (s.meIn i) [] (s.me.pc + 8)).queueVec busy dsts fl
      = (s.vecWaiting busy dsts fl).inWith i
          { s.meIn i with regs := (dsts.filter fun d => d.1 != 0).foldl (fun r d => r.emptyDst d.1) s.me.regs } [] (s.me.pc + 8) := by
  obtain ⟨-, -, hu, -⟩ := atBundle_parts (issues_bundle h)
  have hunit : (s.inWith i (s.meIn i) [] (s.me.pc + 8)).ctx.unit = none := Option.isNone_iff_eq_none.1 hu
  simp only [State.queueVec, hunit]
  exact modMe_inWith (s.vecWaiting busy dsts fl) i (s.meIn i) [] (s.me.pc + 8) _

/-- An instruction whose effect is to queue a vector command. -/
theorem exec_queued {s : State} {i : Instr} (h : s.issues .lone i) {eff : State → State} {busy : Nat} {dsts : List (Nat × Vec)}
    {fl : FlagBits} (hi : exec i s = issue .lone i eff s)
    (he : eff (s.inWith i (s.meIn i) [] (s.me.pc + 8)) = (s.inWith i (s.meIn i) [] (s.me.pc + 8)).queueVec busy dsts fl) :
    ∃ c, exec i s = .next (s.vecQueued i busy dsts fl c) := by
  have hf := finish_inWith (s.vecWaiting busy dsts fl) i
    { s.meIn i with regs := (dsts.filter fun d => d.1 != 0).foldl (fun r d => r.emptyDst d.1) s.me.regs } [] (s.me.pc + 8)
    (k := false) (issues_pending h) rfl rfl
  rw [hi, issue_alone h, he, queueVec_inWith h, hf]
  exact ⟨_, rfl⟩

theorem exec_vecV {s : State} {i : Instr} (h : s.issues .lone i) {eff : State → State} {busy : Nat} {d : BitVec 3} {r : Vec × FlagBits}
    (hi : exec i s = issue .lone i eff s)
    (he : eff (s.inWith i (s.meIn i) [] (s.me.pc + 8)) = (s.inWith i (s.meIn i) [] (s.me.pc + 8)).vecV busy d r) :
    ∃ c, exec i s = .next (s.vecQueued i busy [(32 + d.toNat, r.1)] r.2 c) := exec_queued h hi he

theorem exec_vecG {s : State} {i : Instr} (h : s.issues .lone i) {eff : State → State} {busy : Nat} {d : Reg} {r : Word × FlagBits}
    (hi : exec i s = issue .lone i eff s)
    (he : eff (s.inWith i (s.meIn i) [] (s.me.pc + 8)) = (s.inWith i (s.meIn i) [] (s.me.pc + 8)).vecG busy d r) :
    ∃ c, exec i s = .next (s.vecQueued i busy [((gNum d).toNat, r.1.setWidth 256)] r.2 c) := exec_queued h hi he

theorem table_inWith (s : State) (i : Instr) : (s.inWith i (s.meIn i) [] (s.me.pc + 8)).table = s.tableFor i := by
  unfold State.table
  rw [State.me_inWith]
  rfl

/-! ### Elements (R161) -/

theorem elem_eq (w : Nat) (v : Vec) (k : Nat) : elem w v k = (element w v k).toNat := rfl

theorem packElems_testBit {w : Nat} {xs : List Nat} {k j : Nat} (hk : k < xs.length) (hj : j < w) :
    (packElems w xs).testBit (w * k + j) = xs[k].testBit j := by
  induction xs generalizing k with
  | nil => exact absurd hk (Nat.not_lt_zero _)
  | cons x r ih =>
    rw [packElems, Nat.add_comm, Nat.testBit_two_pow_mul_add _ (Nat.mod_lt _ (by positivity))]
    cases k with
    | zero => simp [hj]
    | succ k =>
      rw [if_neg (by rw [Nat.mul_succ]; omega), show w * (k + 1) + j - w = w * k + j by rw [Nat.mul_succ]; omega]
      exact ih (Nat.lt_of_succ_lt_succ hk)

/-- Fields side by side: each reads as it was written. -/
theorem extract_pack {N w : Nat} {xs : List Nat} (hN : w * xs.length ≤ N) {k : Nat} (hk : k < xs.length) :
    (BitVec.ofNat N (packElems w xs)).extractLsb' (w * k) w = BitVec.ofNat w xs[k] := by
  refine BitVec.eq_of_getLsbD_eq fun j hj => ?_
  have hlt : w * k + j < N := by
    have := Nat.mul_le_mul_left w (Nat.succ_le_of_lt hk)
    rw [Nat.mul_succ] at this
    omega
  simp only [BitVec.getLsbD_extractLsb', BitVec.getLsbD_ofNat, hj, hlt, decide_true, Bool.true_and, packElems_testBit hk hj]

theorem element_gather {w n : Nat} (r : Nat → Nat × FlagBits) (hn : w * n ≤ 256) {k : Nat} (hk : k < n) :
    element w (gather w ((List.range n).map r)).1 k = BitVec.ofNat w (r k).1 := by
  have := extract_pack (N := 256) (w := w) (xs := ((List.range n).map r).map Prod.fst) (by simpa using hn) (k := k) (by simpa using hk)
  simpa [element, gather] using this

theorem width_mul_div (w : Nat) : w * (256 / w) ≤ 256 := Nat.mul_div_le 256 w

theorem each1_eq (w : Nat) (f : Nat → Nat × FlagBits) (a : Vec) :
    each1 w f a = gather w ((List.range (256 / w)).map fun k => f (elem w a k)) := by
  rw [each1, elems, List.map_map]
  rfl

/-! ### Float operations (O48) -/

/-- A command whose results are computed element by element. -/
theorem exec_elementwise {s : State} {i : Instr} (h : s.issues .lone i) {eff : State → State} {busy w : Nat} {d : BitVec 3}
    {r : Nat → Nat × FlagBits} (hi : exec i s = issue .lone i eff s)
    (he : eff (s.inWith i (s.meIn i) [] (s.me.pc + 8))
      = (s.inWith i (s.meIn i) [] (s.me.pc + 8)).vecV busy d (gather w ((List.range (256 / w)).map r))) :
    ∃ v c, exec i s = .next (s.vecQueued i busy [(32 + d.toNat, v)]
        (((List.range (256 / w)).map r).foldl (fun fl p => fl ||| p.2) 0) c)
      ∧ ∀ k < 256 / w, element w v k = BitVec.ofNat w (r k).1 := by
  obtain ⟨c, hc⟩ := exec_vecV h hi he
  exact ⟨_, c, hc, fun k hk => element_gather r (width_mul_div w) hk⟩

/-- One whose operation has one operand. -/
theorem exec_each1 {s : State} {i : Instr} (h : s.issues .lone i) {eff : State → State} {busy w : Nat} {d a : BitVec 3}
    {f : Nat → Nat × FlagBits} (hi : exec i s = issue .lone i eff s)
    (he : eff (s.inWith i (s.meIn i) [] (s.me.pc + 8))
      = (s.inWith i (s.meIn i) [] (s.me.pc + 8)).vecV busy d (each1 w f (s.me.regs.getV a))) :
    ∃ v c, exec i s = .next (s.vecQueued i busy [(32 + d.toNat, v)]
        (((List.range (256 / w)).map fun k => f (element w (s.me.regs.getV a) k).toNat).foldl (fun fl p => fl ||| p.2) 0) c)
      ∧ ∀ k < 256 / w, element w v k = BitVec.ofNat w (f (element w (s.me.regs.getV a) k).toNat).1 :=
  exec_elementwise h hi (he.trans (by rw [each1_eq]; rfl))

theorem two_pow_bits (ty : FloatTy) : 2 ^ ty.bits = 2 ^ (fmtOf ty).width := by cases ty <;> rfl

/-- Settles O48: commands by `exec_elementwise`, an encoding by `Fmt.round_decode`, the operations by their lemmas. -/
theorem vectorFloatsRoundEachElement : Obligations.VectorFloatsRoundEachElement := by
  unfold Obligations.VectorFloatsRoundEachElement
  refine ⟨?_, fun ty rm n m neg e hn hd => Fmt.round_decode (fmtOf_ok ty) rm (hn.trans_eq (two_pow_bits ty)) hd, ?_⟩
  · rintro s ty rm d a b e i busy r
      (⟨rfl, rfl, rfl⟩ | ⟨rfl, rfl, rfl⟩ | ⟨rfl, rfl, rfl⟩ | ⟨rfl, rfl, rfl⟩ | ⟨rfl, rfl, rfl⟩
        | ⟨rfl, rfl, rfl⟩ | ⟨rfl, rfl, rfl⟩ | ⟨rfl, rfl, rfl⟩ | ⟨rfl, rfl, rfl⟩ | ⟨rfl, rfl, rfl⟩
        | ⟨rfl, rfl, rfl⟩ | ⟨rfl, rfl, rfl⟩ | ⟨rfl, rfl, rfl⟩ | ⟨rfl, rfl, rfl⟩ | ⟨rfl, rfl, rfl, rfl⟩
        | ⟨rfl, rfl, rfl, rfl⟩ | ⟨rfl, rfl, rfl, rfl⟩) h
    iterate 7
      · exact exec_elementwise h rfl rfl
    iterate 3
      · exact exec_each1 h rfl rfl
    iterate 4
      · exact exec_elementwise h rfl rfl
    iterate 3
      · exact exec_each1 h rfl rfl
  · intro ty rm a b c f x y z raised
    have hf : f.Ok := fmtOf_ok ty
    refine ⟨fun neg m e hm => Fmt.round_roundsTo hf hm rm neg e, Fmt.overflow_eq rm, fun hx hy => ?_, fun hx => ?_,
      Fmt.sqrt_nan rm, fun h => ?_, fun p q => Fmt.inf_inf rm, fun p => Fmt.inf_fin rm, fun p => Fmt.fin_inf rm,
      fun p => Fmt.sqrt_inf rm⟩
    · exact ⟨Fmt.add_fin hf rm hx hy, Fmt.sub_fin hf rm hx hy, Fmt.mul_fin hf rm hx hy, Fmt.fma_fin hf rm hx hy,
        Fmt.div_fin hf rm hx hy, Fmt.div_zero rm hx hy, Fmt.minmax_fin hx hy, Fmt.compare_fin hx hy⟩
    · exact ⟨Fmt.sqrt_zero rm hx, Fmt.sqrt_neg rm hx, Fmt.sqrt_fin hf rm hx⟩
    · exact ⟨Fmt.add_nan rm h, Fmt.sub_nan rm h, Fmt.mul_nan rm h, Fmt.div_nan rm h, Fmt.fma_nan rm h, Fmt.minmax_nan h,
        Fmt.compare_nan h⟩

end Sys2Proof.Machine
end

section
/-!
PROOFS. Conversions (R68): an exact value rounded, wrapped or clamped once.
-/

namespace Sys2Proof.Machine

theorem intBits_pos (ty : IntTy) : 0 < ty.bits := by cases ty <;> decide

theorem readInt_elem (ty : IntTy) (n : Nat) : readInt ty.signed ty.bits n = elemInt ty (BitVec.ofNat ty.bits n) :=
  readInt_eq ty.signed (intBits_pos ty) n

theorem narrow_elem (ty : IntTy) (sat : Bool) (e : Int) : narrow ty.signed sat ty.bits e =
    ((BitVec.ofInt ty.bits (if sat then elemClamp ty e else e)).toNat, if sat ∧ elemClamp ty e ≠ e then 32 else 0) := by
  rw [narrow_eq, wrapInt_eq]
  change (_, if (sat && elemClamp ty e != e) = true then (32 : FlagBits) else 0) = _
  simp only [Bool.and_eq_true, bne_iff_ne]
  rfl

theorem cvtFF_fin {f g : Fmt} (hg : g.Ok) (rm : Rm) {a : Nat} (h : (f.decode a).isFin) :
    g.yields rm (f.decode a).rat (f.decode a).neg (cvtFF g f rm a) := by
  obtain ⟨n, m, e, h⟩ := FVal.exists_of_isFin h
  have hq : snanFlag [FVal.fin n m e] = 0 := rfl
  simp only [cvtFF, h, hq, flags_or_zero]
  exact Fmt.yields_round hg rm n m e

theorem cvtFF_inf (f g : Fmt) (rm : Rm) {a : Nat} {n : Bool} (h : f.decode a = .inf n) : cvtFF g f rm a = (g.inf n, 0) := by
  have hq : snanFlag [FVal.inf n] = 0 := rfl
  simp only [cvtFF, h, hq, flags_or_zero]
  rfl

theorem cvtFF_nan (f g : Fmt) (rm : Rm) {a : Nat} (h : (f.decode a).isNan) :
    cvtFF g f rm a = (g.qnan, if (f.decode a).isSnan then 16 else 0) := by
  obtain ⟨b, h⟩ := FVal.exists_of_isNan h
  simp only [cvtFF, h, Fmt.roundVal, zero_or_flags]
  cases b <;> rfl

theorem cvtIF_yields {g : Fmt} (hg : g.Ok) (rm : Rm) (x : Int) : g.yields rm x false (cvtIF g rm x) := by
  have h := Fmt.yields_roundSum hg rm x 0 false
  rw [zpow_zero, mul_one] at h
  by_cases hx : x = 0
  · subst hx
    exact h
  · rwa [Fmt.roundSum, if_neg hx] at h

/-- A number brought into the range of a type, with the flag that says so. -/
theorem clampWith_eq (signed : Bool) (w : Nat) (v : Int) (fl : FlagBits) :
    (if v < intLow signed w then (wrapInt w (intLow signed w), nv)
      else if intHigh signed w < v then (wrapInt w (intHigh signed w), nv) else (wrapInt w v, fl))
      = (wrapInt w (intClamp signed w v), if intClamp signed w v ≠ v then 16 else fl) := by
  have hr := intLow_le_intHigh signed w
  rcases lt_or_ge v (intLow signed w) with h | h
  · have hc : intClamp signed w v = intLow signed w := by rw [intClamp]; omega
    rw [if_pos h, hc, if_pos h.ne']
    rfl
  · rcases lt_or_ge (intHigh signed w) v with h' | h'
    · have hc : intClamp signed w v = intHigh signed w := by rw [intClamp]; omega
      rw [if_neg h.not_gt, if_pos h', hc, if_pos h'.ne]
      rfl
    · have hc : intClamp signed w v = v := by rw [intClamp]; omega
      rw [if_neg h.not_gt, if_neg h'.not_gt, hc, if_neg (not_not.2 rfl)]

theorem cvtFI_fin (f : Fmt) (rm : Rm) (ty : IntTy) {a : Nat} (h : (f.decode a).isFin) :
    ∃ k : Nat, integerOf rm (f.decode a).neg (fun t => t ≤ (f.decode a).mag) (fun t => t < (f.decode a).mag) k
      ∧ (let n : Int := if (f.decode a).neg then -(k : Int) else k
         cvtFI f rm ty.signed ty.bits a = ((BitVec.ofInt ty.bits (elemClamp ty n)).toNat,
           if elemClamp ty n ≠ n then 16 else if (k : Rat) = (f.decode a).mag then 0 else 1)) := by
  obtain ⟨n, m, e, h⟩ := FVal.exists_of_isFin h
  refine ⟨(roundInt rm n m e).1, ?_, ?_⟩
  · rw [h]
    exact integerOf_roundInt rm n m e
  · have hx : (if (roundInt rm n m e).2 then nx else 0) = if ((roundInt rm n m e).1 : Rat) = m * 2 ^ e then (0 : FlagBits) else 1 := by
      cases hi : (roundInt rm n m e).2
      · rw [if_pos ((roundInt_inexact rm n m e).1 hi)]
        rfl
      · rw [if_neg fun hq => Bool.false_ne_true (((roundInt_inexact rm n m e).2 hq).symm.trans hi)]
        rfl
    simp only [cvtFI, h, FVal.neg_fin, FVal.mag_fin, ← wrapInt_eq, ← hx]
    exact clampWith_eq ty.signed ty.bits _ _

theorem cvtFI_inf (f : Fmt) (rm : Rm) (ty : IntTy) {a : Nat} {n : Bool} (h : f.decode a = .inf n) :
    cvtFI f rm ty.signed ty.bits a = ((BitVec.ofInt ty.bits (if n then elemLow ty else elemHigh ty)).toNat, 16) := by
  simp only [cvtFI, h, wrapInt_eq]
  rfl

theorem cvtFI_nan (f : Fmt) (rm : Rm) (ty : IntTy) {a : Nat} (h : (f.decode a).isNan) : cvtFI f rm ty.signed ty.bits a = (0, 16) := by
  obtain ⟨b, h⟩ := FVal.exists_of_isNan h
  simp only [cvtFI, h]
  rfl

end Sys2Proof.Machine
end

section
/-!
PROOFS. The table-coded format C8: comparison of magnitudes, `DecodeC8` (R74), `AutoScale` (R77), `EncodeC8` (R78).
-/

namespace Sys2Proof.Machine

/-! ### Magnitudes -/

/-- The number that a magnitude and an exponent stand for. -/
def magVal (p : Nat × Int) : Rat := p.1 * 2 ^ p.2

theorem magVal_nonneg (p : Nat × Int) : 0 ≤ magVal p := mul_nonneg (Nat.cast_nonneg _) (two_zpow_pos _).le

theorem magVal_zero (e : Int) : magVal (0, e) = 0 := by simp [magVal]

theorem magVal_shift (m : Nat) (e d : Int) : magVal (m, e + d) = magVal (m, e) * 2 ^ d := by
  rw [magVal, magVal, two_zpow_add, mul_assoc]

theorem magLe_iff (m1 : Nat) (e1 : Int) (m2 : Nat) (e2 : Int) : magLe m1 e1 m2 e2 = true ↔ magVal (m1, e1) ≤ magVal (m2, e2) := by
  simp only [magLe, decide_eq_true_eq, magVal]
  rw [scale_down m1 (min_le_left e1 e2), scale_down m2 (min_le_right e1 e2), mul_zpow_le, Nat.cast_le]

theorem magLe_false (m1 : Nat) (e1 : Int) (m2 : Nat) (e2 : Int) : magLe m1 e1 m2 e2 = false ↔ magVal (m2, e2) < magVal (m1, e1) := by
  rw [← not_le, ← magLe_iff, Bool.not_eq_true]

theorem magVal_distance (m1 : Nat) (e1 : Int) (m2 : Nat) (e2 : Int) :
    magVal (distance m1 e1 m2 e2) = apart (magVal (m1, e1)) (magVal (m2, e2)) := by
  have h : ((addExact false m1 e1 true m2 e2).1 : Rat) * 2 ^ (addExact false m1 e1 true m2 e2).2
      = magVal (m1, e1) - magVal (m2, e2) := by
    rw [addExact_rat, FVal.rat_fin, FVal.rat_fin, sub_eq_add_neg, if_neg (by simp), if_pos rfl, neg_mul]
    rfl
  have hv : magVal (distance m1 e1 m2 e2) = |magVal (m1, e1) - magVal (m2, e2)| := by
    rw [← h, abs_mul, abs_of_pos (two_zpow_pos _)]
    simp only [magVal, distance]
    rw [Nat.cast_natAbs, Int.cast_abs]
  rw [hv, apart]
  split
  · next hlt => rw [abs_of_neg (sub_neg.2 hlt), neg_sub]
  · next hge => exact abs_of_nonneg (sub_nonneg.2 (not_lt.1 hge))

/-! ### The greatest of some values -/

/-- The greater of a magnitude and a finite value. -/
def raiseMax (acc : Nat × Int) (v : FVal) : Nat × Int :=
  match v with
  | .fin _ m e => if magLe acc.1 acc.2 m e then (m, e) else acc
  | _ => acc

theorem raiseMax_cases (acc : Nat × Int) (v : FVal) :
    magVal acc ≤ magVal (raiseMax acc v) ∧ (v.isFin → v.mag ≤ magVal (raiseMax acc v))
      ∧ (raiseMax acc v = acc ∨ v.isFin ∧ v.mag = magVal (raiseMax acc v)) := by
  cases v with
  | nan b => exact ⟨le_rfl, nofun, .inl rfl⟩
  | inf n => exact ⟨le_rfl, nofun, .inl rfl⟩
  | fin n m e =>
    cases h : magLe acc.1 acc.2 m e with
    | true =>
      rw [raiseMax, if_pos h]
      exact ⟨(magLe_iff ..).1 h, fun _ => le_rfl, .inr ⟨rfl, rfl⟩⟩
    | false =>
      rw [raiseMax, if_neg (by simp [h])]
      exact ⟨le_rfl, fun _ => ((magLe_false ..).1 h).le, .inl rfl⟩

theorem foldl_raiseMax (vs : List FVal) (acc : Nat × Int) :
    magVal acc ≤ magVal (vs.foldl raiseMax acc) ∧ (∀ v ∈ vs, v.isFin → v.mag ≤ magVal (vs.foldl raiseMax acc))
      ∧ (vs.foldl raiseMax acc = acc ∨ ∃ v ∈ vs, v.isFin ∧ v.mag = magVal (vs.foldl raiseMax acc)) := by
  induction vs generalizing acc with
  | nil => exact ⟨le_rfl, nofun, .inl rfl⟩
  | cons v vs ih =>
    obtain ⟨h1, h2, h3⟩ := raiseMax_cases acc v
    obtain ⟨i1, i2, i3⟩ := ih (raiseMax acc v)
    rw [List.foldl_cons]
    refine ⟨h1.trans i1, ?_, ?_⟩
    · rintro u (_ | ⟨_, hu⟩) hf
      · exact (h2 hf).trans i1
      · exact i2 u hu hf
    · rcases i3 with i3 | ⟨u, hu, hf⟩
      · rw [i3]
        exact h3.imp id fun hv => ⟨v, List.mem_cons_self, hv⟩
      · exact .inr ⟨u, List.mem_cons_of_mem _ hu, hf⟩

theorem tableMax_eq (t : BitVec 8192) : tableMax t = ((List.range 128).map (entryVal t)).foldl raiseMax (0, 0) := by
  rw [List.foldl_map]
  rfl

section
variable {t : BitVec 8192}

theorem mag_le_tableMax {k : Nat} (hk : k < 128) (hf : (entryVal t k).isFin) : (entryVal t k).mag ≤ magVal (tableMax t) := by
  rw [tableMax_eq]
  exact (foldl_raiseMax _ _).2.1 _ (List.mem_map.2 ⟨k, List.mem_range.2 hk, rfl⟩) hf

theorem tableMax_attained (h : ∃ k < 128, (entryVal t k).isFin) :
    ∃ k < 128, (entryVal t k).isFin ∧ (entryVal t k).mag = magVal (tableMax t) := by
  obtain ⟨k, hk, hf⟩ := h
  have hle := mag_le_tableMax hk hf
  rw [tableMax_eq] at hle ⊢
  rcases (foldl_raiseMax ((List.range 128).map (entryVal t)) (0, 0)).2.2 with h0 | ⟨v, hv, hvf, hm⟩
  · rw [h0, magVal_zero] at hle ⊢
    obtain ⟨n, m, e, he⟩ := FVal.exists_of_isFin hf
    exact ⟨k, hk, hf, le_antisymm hle (by rw [he]; exact magVal_nonneg (m, e))⟩
  · obtain ⟨j, hj, rfl⟩ := List.mem_map.1 hv
    exact ⟨j, List.mem_range.1 hj, hvf, hm⟩

/-! ### Decoding (R74) -/

section
variable {rm : Rm} {c sc : Nat}

theorem decodeC8_nan (h : sc = 255 ∨ (entryVal t c).isNan) : decodeC8 fp32 rm t c sc = (fp32.qnan, 0) := by
  rw [decodeC8]
  split
  · rfl
  · next h0 =>
    obtain ⟨b, hb⟩ := FVal.exists_of_isNan (h.resolve_left h0)
    rw [c8Val, hb, Fmt.roundVal]

theorem decodeC8_inf {n : Bool} (h0 : sc ≠ 255) (h : entryVal t c = .inf n) : decodeC8 fp32 rm t c sc = (fp32.inf n, 0) := by
  rw [decodeC8, if_neg h0, c8Val, h, Fmt.roundVal]

theorem decodeC8_fin (h0 : sc ≠ 255) (h : (entryVal t c).isFin) :
    fp32.yields rm ((entryVal t c).rat * 2 ^ ((sc : Int) - 127)) (entryVal t c).neg (decodeC8 fp32 rm t c sc) := by
  obtain ⟨n, m, e, h⟩ := FVal.exists_of_isFin h
  have hr := Fmt.yields_round fp32_ok rm n m (e + sc - 127)
  rw [FVal.rat_fin, add_sub_assoc, two_zpow_add, ← mul_assoc, ← FVal.rat_fin] at hr
  rw [decodeC8, if_neg h0, c8Val, h, Fmt.roundVal, add_sub_assoc]
  exact hr

end

/-! ### The least scale (R77) -/

theorem leastScale_spec (m : Nat) (e : Int) (mx : Nat × Int) {n i : Nat} (hi : i + n = 255) :
    leastScale m e mx n i ≤ 254
      ∧ (leastScale m e mx n i < 254 → magVal (m, e) * 2 ^ (127 - (leastScale m e mx n i : Int)) ≤ magVal mx)
      ∧ ∀ k, i ≤ k → k < leastScale m e mx n i → magVal mx < magVal (m, e) * 2 ^ (127 - (k : Int)) := by
  induction n generalizing i with
  | zero => exact ⟨le_rfl, fun h => absurd h (lt_irrefl _), fun k h h' => absurd h' (by simp only [leastScale]; omega)⟩
  | succ n ih =>
    have hs : magVal (m, e + 127 - (i : Int)) = magVal (m, e) * 2 ^ (127 - (i : Int)) := by rw [add_sub_assoc, magVal_shift]
    cases h : magLe m (e + 127 - i) mx.1 mx.2 with
    | true =>
      rw [leastScale, if_pos h]
      exact ⟨by omega, fun _ => hs ▸ (magLe_iff ..).1 h, fun k h h' => absurd h' (by omega)⟩
    | false =>
      rw [leastScale, if_neg (by simp [h])]
      obtain ⟨h1, h2, h3⟩ := ih (i := i + 1) (by omega)
      refine ⟨h1, h2, fun k hk hlt => ?_⟩
      rcases Nat.eq_or_lt_of_le hk with rfl | hk
      · exact hs ▸ (magLe_false ..).1 h
      · exact h3 k hk hlt

section
variable {xs : List Nat}

theorem autoScale_nan (h : ∃ y ∈ xs, (fp32.decode y).isNan) : autoScale t xs = 255 := by
  rw [autoScale, if_pos (by simpa using h)]

theorem autoScale_inf (hn : ∀ y ∈ xs, (fp32.decode y).isNan = false) (h : ∃ y ∈ xs, (fp32.decode y).isInf) :
    autoScale t xs = 254 := by
  rw [autoScale, if_neg (by simpa using hn), if_pos (by simpa using h)]

theorem autoScale_fin (h : ∀ y ∈ xs, (fp32.decode y).isFin) : autoScale t xs =
    leastScale ((xs.map fp32.decode).foldl raiseMax (0, 0)).1 ((xs.map fp32.decode).foldl raiseMax (0, 0)).2 (tableMax t) 255 0 := by
  have hn : ∀ y ∈ xs, (fp32.decode y).isNan = false := fun y hy => FVal.isNan_of_isFin (h y hy)
  have hi : ∀ y ∈ xs, (fp32.decode y).isInf = false := fun y hy => by
    obtain ⟨n, m, e, he⟩ := FVal.exists_of_isFin (h y hy)
    rw [he]
    rfl
  rw [autoScale, if_neg (by simpa using hn), if_neg (by simpa using hi)]
  rfl

theorem autoScale_least (h : ∀ y ∈ xs, (fp32.decode y).isFin) :
    autoScale t xs ≤ 254
      ∧ (autoScale t xs < 254 → ∀ y ∈ xs, (fp32.decode y).mag * 2 ^ (127 - (autoScale t xs : Int)) ≤ magVal (tableMax t))
      ∧ ∀ k < autoScale t xs, ∃ y ∈ xs, magVal (tableMax t) < (fp32.decode y).mag * 2 ^ (127 - (k : Int)) := by
  obtain ⟨-, hall, hsome⟩ := foldl_raiseMax (xs.map fp32.decode) (0, 0)
  rw [autoScale_fin h]
  obtain ⟨h1, h2, h3⟩ := leastScale_spec ((xs.map fp32.decode).foldl raiseMax (0, 0)).1
    ((xs.map fp32.decode).foldl raiseMax (0, 0)).2 (tableMax t) (n := 255) (i := 0) rfl
  refine ⟨h1, fun hlt y hy => ?_, fun k hk => ?_⟩
  · exact ((mul_zpow_le _).2 (hall _ (List.mem_map_of_mem hy) (h y hy))).trans (h2 hlt)
  · have hlt := h3 k (Nat.zero_le _) hk
    rcases hsome with h0 | ⟨v, hv, -, hm⟩
    · rw [h0, magVal_zero, zero_mul] at hlt
      exact absurd (magVal_nonneg _) hlt.not_ge
    · obtain ⟨y, hy, rfl⟩ := List.mem_map.1 hv
      exact ⟨y, hy, hm ▸ hlt⟩

end

end

end Sys2Proof.Machine
end

section
/-!
PROOFS. `EncodeC8` (R78): the nearest finite entry, the least even code first; the clamp; infinities.
-/

namespace Sys2Proof.Machine

/-! ### The choice among codes -/

/-- Of the codes below n with a property: k is the least of the even ones, or of all where none is even. -/
def leastEven (n : Nat) (P : Nat → Prop) (k : Nat) : Prop :=
  k < n ∧ P k ∧ ∀ j < n, P j → k ≤ j ∧ k % 2 = j % 2 ∨ k % 2 < j % 2

theorem evenFirst_some {cs : List Nat} {c : Nat} (h : (cs.find? fun c => c % 2 = 0) = some c) : evenFirst cs = c := by
  rw [evenFirst, h]

theorem evenFirst_none {cs : List Nat} (h : (cs.find? fun c => c % 2 = 0) = none) : evenFirst cs = cs.headD 0 := by
  rw [evenFirst, h]

theorem evenFirst_filter {n : Nat} {p : Nat → Bool} {P : Nat → Prop} (hp : ∀ k < n, p k = true ↔ P k) (h : ∃ k < n, P k) :
    leastEven n P (evenFirst ((List.range n).filter p)) := by
  cases hf : ((List.range n).filter p).find? fun c => c % 2 = 0 with
  | some c =>
    rw [evenFirst_some hf]
    rw [List.find?_filter] at hf
    obtain ⟨hc, hm, hlow⟩ := List.find?_range_eq_some.1 hf
    simp only [Bool.decide_and, Bool.decide_eq_true, Bool.and_eq_true, decide_eq_true_eq] at hc
    have hcn := List.mem_range.1 hm
    refine ⟨hcn, (hp c hcn).1 hc.1, fun j hj hpj => ?_⟩
    by_cases hjc : c ≤ j
    · omega
    · have hj2 := hlow j (by omega)
      simp only [(hp j hj).2 hpj, true_and, decide_eq_true_eq, Bool.not_eq_true', decide_eq_false_iff_not] at hj2
      omega
  | none =>
    rw [evenFirst_none hf]
    have hodd (j : Nat) (hj : j < n) (hpj : P j) : j % 2 = 1 := by
      have := List.find?_eq_none.1 hf j (List.mem_filter.2 ⟨List.mem_range.2 hj, (hp j hj).2 hpj⟩)
      simp only [decide_eq_true_eq] at this
      omega
    obtain ⟨c, hc⟩ : ∃ c, (List.range n).find? p = some c := by
      obtain ⟨k, hk, hpk⟩ := h
      exact Option.isSome_iff_exists.1 (List.find?_isSome.2 ⟨k, List.mem_range.2 hk, (hp k hk).2 hpk⟩)
    rw [List.headD_eq_head?_getD, List.head?_filter, hc, Option.getD_some]
    obtain ⟨hpc, hm, hlow⟩ := List.find?_range_eq_some.1 hc
    have hcn := List.mem_range.1 hm
    refine ⟨hcn, (hp c hcn).1 hpc, fun j hj hpj => .inl ⟨?_, by rw [hodd j hj hpj, hodd c hcn ((hp c hcn).1 hpc)]⟩⟩
    by_contra hjc
    simpa [(hp j hj).2 hpj] using hlow j (by omega)

/-! ### The nearest entry -/

/-- The lesser of a least distance and a further one. -/
def lowerMin (acc : Option (Nat × Int)) (p : Nat × (Nat × Int)) : Option (Nat × Int) :=
  match acc with
  | none => some p.2
  | some b => if magLe b.1 b.2 p.2.1 p.2.2 then some b else some p.2

theorem lowerMin_some (b : Nat × Int) (p : Nat × (Nat × Int)) : ∃ d, lowerMin (some b) p = some d
    ∧ magVal d ≤ magVal b ∧ magVal d ≤ magVal p.2 ∧ (d = b ∨ d = p.2) := by
  cases h : magLe b.1 b.2 p.2.1 p.2.2 with
  | true => exact ⟨b, if_pos h, le_rfl, (magLe_iff ..).1 h, .inl rfl⟩
  | false => exact ⟨p.2, if_neg (by simp [h]), ((magLe_false ..).1 h).le, le_rfl, .inr rfl⟩

theorem foldl_lowerMin (l : List (Nat × (Nat × Int))) (b : Nat × Int) : ∃ d, l.foldl lowerMin (some b) = some d
    ∧ magVal d ≤ magVal b ∧ (∀ p ∈ l, magVal d ≤ magVal p.2) ∧ (d = b ∨ ∃ p ∈ l, p.2 = d) := by
  induction l generalizing b with
  | nil => exact ⟨b, rfl, le_rfl, nofun, .inl rfl⟩
  | cons p l ih =>
    obtain ⟨d, hd, h1, h2, h3⟩ := lowerMin_some b p
    obtain ⟨e, he, i1, i2, i3⟩ := ih d
    refine ⟨e, by rw [List.foldl_cons, hd, he], i1.trans h1, ?_, ?_⟩
    · rintro q (_ | ⟨_, hq⟩)
      · exact i1.trans h2
      · exact i2 q hq
    · rcases i3 with rfl | ⟨q, hq, hqe⟩
      · exact h3.imp id fun h => ⟨p, List.mem_cons_self, h.symm⟩
      · exact .inr ⟨q, List.mem_cons_of_mem _ hq, hqe⟩

theorem least_distance {l : List (Nat × (Nat × Int))} (h : l ≠ []) : ∃ d, l.foldl lowerMin none = some d
    ∧ (∃ p ∈ l, p.2 = d) ∧ ∀ p ∈ l, magVal d ≤ magVal p.2 := by
  cases l with
  | nil => exact absurd rfl h
  | cons p l =>
    obtain ⟨d, hd, h1, h2, h3⟩ := foldl_lowerMin l p.2
    refine ⟨d, hd, ?_, ?_⟩
    · rcases h3 with rfl | ⟨q, hq, hqd⟩
      · exact ⟨p, List.mem_cons_self, rfl⟩
      · exact ⟨q, List.mem_cons_of_mem _ hq, hqd⟩
    · rintro q (_ | ⟨_, hq⟩)
      · exact h1
      · exact h2 q hq

/-- The distance of the finite value of code c from m·2^e. -/
def entryDistance (t : BitVec 8192) (m : Nat) (e : Int) (c : Nat) : Option (Nat × Int) :=
  match entryVal t c with
  | .fin _ m' e' => some (distance m' e' m e)
  | _ => none

/-- The codes with finite values, and their distances. -/
def distances (t : BitVec 8192) (m : Nat) (e : Int) : List (Nat × (Nat × Int)) :=
  (List.range 128).filterMap fun c =>
    match entryVal t c with
    | .fin _ m' e' => some (c, distance m' e' m e)
    | _ => none

section
variable {t : BitVec 8192} {m : Nat} {e : Int}

theorem distances_eq : distances t m e = (List.range 128).filterMap fun c => (entryDistance t m e c).map fun d => (c, d) := by
  refine List.filterMap_congr fun c _ => ?_
  rw [entryDistance]
  cases entryVal t c <;> rfl

theorem entryDistance_some {c : Nat} (h : (entryVal t c).isFin) :
    ∃ d, entryDistance t m e c = some d ∧ magVal d = apart (entryVal t c).mag (magVal (m, e)) := by
  obtain ⟨n, m', e', h⟩ := FVal.exists_of_isFin h
  exact ⟨distance m' e' m e, by rw [entryDistance, h], by rw [magVal_distance, h]; rfl⟩

theorem isFin_of_entryDistance {c : Nat} {d : Nat × Int} (h : entryDistance t m e c = some d) : (entryVal t c).isFin := by
  rw [entryDistance] at h
  cases hc : entryVal t c with
  | fin n m' e' => rfl
  | nan b => simp [hc] at h
  | inf n => simp [hc] at h

theorem mem_distances {c : Nat} {d : Nat × Int} : (c, d) ∈ distances t m e ↔ c < 128 ∧ entryDistance t m e c = some d := by
  rw [distances_eq]
  simp [List.mem_filterMap]

/-- Codes kept by what is said of their distances. -/
theorem codes_of_distances (q : Nat × Int → Bool) : ((distances t m e).filter fun p => q p.2).map (fun p => p.1)
    = (List.range 128).filter fun c => (entryDistance t m e c).any q := by
  rw [distances_eq]
  generalize List.range 128 = l
  induction l with
  | nil => rfl
  | cons c l ih =>
    cases h : entryDistance t m e c with
    | none => simpa [h] using ih
    | some d =>
      cases hq : q d with
      | true => simpa [h, hq] using ih
      | false => simpa [h, hq] using ih

/-! ### The encoding -/

/-- The sign bit of a code. -/
def codeSign (v : FVal) : Nat := if v.neg then 128 else 0

/-- The code that a magnitude beyond the table is clamped to. -/
def clampCode (t : BitVec 8192) : Nat :=
  evenFirst ((List.range 128).filter fun c =>
    match entryVal t c with
    | .fin _ m e => magLe m e (tableMax t).1 (tableMax t).2 && magLe (tableMax t).1 (tableMax t).2 m e
    | _ => false)

theorem clampCode_least (h : ∃ k < 128, (entryVal t k).isFin) :
    leastEven 128 (fun j => (entryVal t j).isFin ∧ (entryVal t j).mag = magVal (tableMax t)) (clampCode t) := by
  refine evenFirst_filter (fun k _ => ?_) (tableMax_attained h)
  cases entryVal t k with
  | fin n m e =>
    simp only [Bool.and_eq_true, magLe_iff]
    exact ⟨fun h => ⟨rfl, le_antisymm h.1 h.2⟩, fun h => ⟨h.2.le, h.2.ge⟩⟩
  | nan b => simp [FVal.isFin]
  | inf n => simp [FVal.isFin]

variable {x sc : Nat}

theorem encodeC8_nan (h : sc = 255 ∨ (fp32.decode x).isNan) : encodeC8 t x sc = (0, if (fp32.decode x).isSnan then 16 else 0) := by
  simp only [encodeC8]
  rw [if_pos (by simpa using h)]
  rfl

theorem encodeC8_beyond (h0 : sc ≠ 255) {n : Bool} (hx : fp32.decode x = .fin n m e)
    (hlt : magVal (tableMax t) < magVal (m, e) * 2 ^ (127 - (sc : Int))) :
    encodeC8 t x sc = (clampCode t + codeSign (fp32.decode x), 5) := by
  rw [← magVal_shift, ← add_sub_assoc, ← magLe_false] at hlt
  simp only [encodeC8, hx]
  rw [if_neg (by simpa using h0), if_pos (by rw [hlt]; rfl)]
  rfl

theorem encodeC8_within (h0 : sc ≠ 255) {n : Bool} (hx : fp32.decode x = .fin n m e)
    (hle : magVal (m, e) * 2 ^ (127 - (sc : Int)) ≤ magVal (tableMax t)) {b : Nat × Int}
    (hb : (distances t m (e + 127 - sc)).foldl lowerMin none = some b) :
    encodeC8 t x sc = (evenFirst ((List.range 128).filter fun c =>
        (entryDistance t m (e + 127 - sc) c).any fun d => magLe d.1 d.2 b.1 b.2) + codeSign (fp32.decode x),
      if b.1 = 0 then 0 else 1) := by
  rw [← magVal_shift, ← add_sub_assoc, ← magLe_iff] at hle
  simp only [encodeC8, hx]
  rw [if_neg (by simpa using h0), if_neg (by rw [hle]; simp), ← codes_of_distances fun d => magLe d.1 d.2 b.1 b.2]
  change (match (distances t m (e + 127 - sc)).foldl lowerMin none with
    | none => _
    | some b => _) = _
  rw [hb]
  rfl

theorem encodeC8_inf (h0 : sc ≠ 255) {n : Bool} (hx : fp32.decode x = .inf n) :
    encodeC8 t x sc = (((List.range 128).find? fun c => (entryVal t c).isInf).elim
      (clampCode t + codeSign (fp32.decode x), 5) fun c => (c + codeSign (fp32.decode x), 0)) := by
  simp only [encodeC8, hx]
  rw [if_neg (by simpa using h0)]
  cases (List.range 128).find? fun c => (entryVal t c).isInf <;> rfl

/-! ### The obligation's cases -/

theorem encodable_finite (h : tableEncodable t) : ∃ k < 128, (entryVal t k).isFin := by
  simp only [tableEncodable, Bool.and_eq_true] at h
  obtain ⟨-, hany⟩ := h
  obtain ⟨k, hk, hf⟩ := List.any_eq_true.1 hany
  refine ⟨k, List.mem_range.1 hk, ?_⟩
  cases hv : entryVal t k with
  | fin n m e => rfl
  | nan b => simp [hv] at hf
  | inf n => simp [hv, FVal.isInf] at hf

theorem apart_eq_zero {x y : Rat} : apart x y = 0 ↔ x = y := by
  unfold apart
  split
  · next h => exact ⟨fun h0 => absurd h0 (sub_pos.2 h).ne', fun h0 => absurd h0 h.ne⟩
  · exact sub_eq_zero

theorem magVal_eq_zero {p : Nat × Int} : magVal p = 0 ↔ p.1 = 0 := by
  rw [magVal, mul_eq_zero, or_iff_left (two_zpow_pos _).ne', Nat.cast_eq_zero]

/-- A finite entry whose value is nearest y. -/
def nearest (t : BitVec 8192) (y : Rat) (j : Nat) : Prop :=
  (entryVal t j).isFin ∧ ∀ i < 128, (entryVal t i).isFin → apart (entryVal t j).mag y ≤ apart (entryVal t i).mag y

theorem least_apart (h : ∃ k < 128, (entryVal t k).isFin) : ∃ d i, (distances t m e).foldl lowerMin none = some d
    ∧ i < 128 ∧ (entryVal t i).isFin ∧ magVal d = apart (entryVal t i).mag (magVal (m, e))
    ∧ ∀ j < 128, (entryVal t j).isFin → magVal d ≤ apart (entryVal t j).mag (magVal (m, e)) := by
  have hne : distances t m e ≠ [] := by
    obtain ⟨k, hk, hf⟩ := h
    obtain ⟨d, hd, -⟩ := entryDistance_some (m := m) (e := e) hf
    exact List.ne_nil_of_mem (mem_distances.2 ⟨hk, hd⟩)
  obtain ⟨b, hb, ⟨⟨i, d⟩, hi, rfl⟩, hmin⟩ := least_distance hne
  obtain ⟨hi, hid⟩ := mem_distances.1 hi
  have hif := isFin_of_entryDistance hid
  refine ⟨d, i, hb, hi, hif, ?_, fun j hj hjf => ?_⟩
  · obtain ⟨d', hd', hv⟩ := entryDistance_some (m := m) (e := e) hif
    rw [← hv, Option.some.inj (hid.symm.trans hd')]
  · obtain ⟨d', hd', hv⟩ := entryDistance_some (m := m) (e := e) hjf
    exact hv ▸ hmin _ (mem_distances.2 ⟨hj, hd'⟩)

/-- The codes whose distance is at most the least one are the nearest. -/
theorem kept_iff_nearest {d : Nat × Int} {i : Nat} (hi : i < 128) (hif : (entryVal t i).isFin)
    (hd : magVal d = apart (entryVal t i).mag (magVal (m, e)))
    (hmin : ∀ j < 128, (entryVal t j).isFin → magVal d ≤ apart (entryVal t j).mag (magVal (m, e))) (j : Nat) :
    (entryDistance t m e j).any (fun d' => magLe d'.1 d'.2 d.1 d.2) = true ↔ nearest t (magVal (m, e)) j := by
  constructor
  · intro hany
    obtain ⟨d', hd', hle⟩ := (Option.any_eq_true _ _).1 hany
    have hjf := isFin_of_entryDistance hd'
    obtain ⟨d'', hd'', hv⟩ := entryDistance_some (m := m) (e := e) hjf
    cases hd'.symm.trans hd''
    exact ⟨hjf, fun i' hi' hf' => hv ▸ ((magLe_iff ..).1 hle).trans (hmin i' hi' hf')⟩
  · rintro ⟨hjf, hnear⟩
    obtain ⟨d', hd', hv⟩ := entryDistance_some (m := m) (e := e) hjf
    rw [hd']
    exact (magLe_iff ..).2 ((hv.trans_le (hnear i hi hif)).trans hd.ge)

theorem encodeC8_nearest (h : tableEncodable t) (h0 : sc ≠ 255) (hf : (fp32.decode x).isFin)
    (hle : (fp32.decode x).mag * 2 ^ (127 - (sc : Int)) ≤ magVal (tableMax t)) :
    ∃ k, leastEven 128 (nearest t ((fp32.decode x).mag * 2 ^ (127 - (sc : Int)))) k
      ∧ encodeC8 t x sc = (k + codeSign (fp32.decode x),
          if (entryVal t k).mag = (fp32.decode x).mag * 2 ^ (127 - (sc : Int)) then 0 else 1) := by
  obtain ⟨n, m, e, hx⟩ := FVal.exists_of_isFin hf
  have hy : (fp32.decode x).mag * 2 ^ (127 - (sc : Int)) = magVal (m, e + 127 - sc) := by
    rw [add_sub_assoc, magVal_shift, hx]
    rfl
  obtain ⟨d, i, hfold, hi, hif, hd, hmin⟩ := least_apart (m := m) (e := e + 127 - sc) (encodable_finite h)
  rw [hy]
  have hk := evenFirst_filter (fun j _ => kept_iff_nearest hi hif hd hmin j)
    ⟨i, hi, hif, fun j hj hjf => hd ▸ hmin j hj hjf⟩
  refine ⟨_, hk, ?_⟩
  obtain ⟨hk128, ⟨hkf, hnear⟩, -⟩ := hk
  rw [encodeC8_within h0 hx (by rwa [hx] at hle) hfold]
  congr 2
  rw [eq_iff_iff, ← magVal_eq_zero, hd, ← le_antisymm (hnear i hi hif) (hd ▸ hmin _ hk128 hkf), apart_eq_zero]

theorem encodeC8_clamped (h : tableEncodable t) (h0 : sc ≠ 255)
    (hx : (fp32.decode x).isFin ∧ magVal (tableMax t) < (fp32.decode x).mag * 2 ^ (127 - (sc : Int))
      ∨ (fp32.decode x).isInf ∧ ∀ j < 128, (entryVal t j).isInf = false) :
    ∃ k, leastEven 128 (fun j => (entryVal t j).isFin ∧ (entryVal t j).mag = magVal (tableMax t)) k
      ∧ encodeC8 t x sc = (k + codeSign (fp32.decode x), 5) := by
  refine ⟨clampCode t, clampCode_least (encodable_finite h), ?_⟩
  rcases hx with ⟨hf, hlt⟩ | ⟨hi, hnone⟩
  · obtain ⟨n, m, e, hx⟩ := FVal.exists_of_isFin hf
    exact encodeC8_beyond h0 hx (by rwa [hx] at hlt)
  · obtain ⟨n, hx⟩ := FVal.exists_of_isInf hi
    have hfind : ((List.range 128).find? fun c => (entryVal t c).isInf) = none :=
      List.find?_eq_none.2 fun c hc => by simp [hnone c (List.mem_range.1 hc)]
    rw [encodeC8_inf h0 hx, hfind, Option.elim_none]

theorem encodeC8_infinite (h0 : sc ≠ 255) (hi : (fp32.decode x).isInf) (he : ∃ j < 128, (entryVal t j).isInf) :
    ∃ k, (k < 128 ∧ (entryVal t k).isInf ∧ ∀ j < k, (entryVal t j).isInf = false)
      ∧ encodeC8 t x sc = (k + codeSign (fp32.decode x), 0) := by
  obtain ⟨n, hx⟩ := FVal.exists_of_isInf hi
  obtain ⟨j, hj, hji⟩ := he
  obtain ⟨k, hk⟩ := Option.isSome_iff_exists.1 (List.find?_isSome (p := fun c => (entryVal t c).isInf).2
    ⟨j, List.mem_range.2 hj, hji⟩)
  obtain ⟨hki, hm, hlow⟩ := List.find?_range_eq_some.1 hk
  refine ⟨k, ⟨List.mem_range.1 hm, hki, fun i hik => by simpa using hlow i hik⟩, ?_⟩
  rw [encodeC8_inf h0 hx, hk, Option.elim_some]

end

end Sys2Proof.Machine
end

section
/-!
PROOFS. Elements replaced one by one, flags of several results, and reductions.
-/

namespace Sys2Proof.Machine

/-! ### One element replaced -/

theorem index_fits {w i : Nat} (h : i < 256 / w) : w * i + w ≤ 256 := by
  have := Nat.mul_le_mul_left w (Nat.succ_le_of_lt h)
  rw [Nat.mul_succ] at this
  exact this.trans (width_mul_div w)

theorem getLsbD_setElem {w i : Nat} (hi : w * i + w ≤ 256) (v : Vec) (x : Nat) {b : Nat} (hb : b < 256) :
    (setElem w v i x).getLsbD b = if w * i ≤ b ∧ b < w * i + w then x.testBit (b - w * i) else v.getLsbD b := by
  simp only [setElem, BitVec.getLsbD_or, BitVec.getLsbD_and, BitVec.getLsbD_not, BitVec.getLsbD_shiftLeft, BitVec.getLsbD_ofNat,
    Nat.testBit_two_pow_sub_one, Nat.testBit_mod_two_pow, hb, decide_true, Bool.true_and]
  by_cases h1 : b < w * i
  · rw [if_neg (by omega)]
    simp [h1]
  · by_cases h2 : b - w * i < w
    · rw [if_pos (by omega)]
      simp [h1, h2, show b - w * i < 256 by omega]
    · rw [if_neg (by omega)]
      simp [h2]

theorem element_setElem {w i : Nat} (hi : i < 256 / w) (v : Vec) (x : Nat) {j : Nat} (hj : j < 256 / w) :
    element w (setElem w v i x) j = if j = i then BitVec.ofNat w x else element w v j := by
  refine BitVec.eq_of_getLsbD_eq fun b hb => ?_
  have hj' := index_fits hj
  have hbit : (element w (setElem w v i x) j).getLsbD b = (setElem w v i x).getLsbD (w * j + b) := by
    rw [element, BitVec.getLsbD_extractLsb', decide_eq_true hb, Bool.true_and]
  rw [hbit, getLsbD_setElem (index_fits hi) v x (by omega)]
  by_cases h : j = i
  · subst h
    rw [if_pos (by omega), if_pos rfl, Nat.add_sub_cancel_left, BitVec.getLsbD_ofNat, decide_eq_true hb, Bool.true_and]
  · have hw : w * j + w ≤ w * i ∨ w * i + w ≤ w * j := by
      rcases Nat.lt_or_gt_of_ne h with h | h
      · exact .inl (Nat.mul_succ w j ▸ Nat.mul_le_mul_left w (Nat.succ_le_of_lt h))
      · exact .inr (Nat.mul_succ w i ▸ Nat.mul_le_mul_left w (Nat.succ_le_of_lt h))
    rw [if_neg (by omega), if_neg h, element, BitVec.getLsbD_extractLsb', decide_eq_true hb, Bool.true_and]

/-! ### Several elements replaced -/

section
variable {α : Type} {w : Nat} (into : α → Nat) (x : α → Nat) {l : List α}

theorem element_foldl_other (hin : ∀ i ∈ l, into i < 256 / w) (v : Vec) {j : Nat} (hj : j < 256 / w) (h : ∀ i ∈ l, j ≠ into i) :
    element w (l.foldl (fun v i => setElem w v (into i) (x i)) v) j = element w v j := by
  induction l generalizing v with
  | nil => rfl
  | cons i l ih =>
    rw [List.foldl_cons, ih (fun k hk => hin k (List.mem_cons_of_mem _ hk)) _ fun k hk => h k (List.mem_cons_of_mem _ hk),
      element_setElem (hin i List.mem_cons_self) _ _ hj, if_neg (h i List.mem_cons_self)]

theorem element_foldl_self (hin : ∀ i ∈ l, into i < 256 / w) (hinj : ∀ i ∈ l, ∀ k ∈ l, into i = into k → i = k)
    (v : Vec) {k : α}
    (hk : k ∈ l) : element w (l.foldl (fun v i => setElem w v (into i) (x i)) v) (into k) = BitVec.ofNat w (x k) := by
  induction l generalizing v with
  | nil => exact absurd hk List.not_mem_nil
  | cons i l ih =>
    have hin' : ∀ j ∈ l, into j < 256 / w := fun j hj => hin j (List.mem_cons_of_mem _ hj)
    rw [List.foldl_cons]
    by_cases hkl : k ∈ l
    · exact ih hin' (fun a ha b hb => hinj a (List.mem_cons_of_mem _ ha) b (List.mem_cons_of_mem _ hb)) _ hkl
    · have hki : k = i := (List.mem_cons.1 hk).resolve_right hkl
      subst hki
      have hne : ∀ j ∈ l, into k ≠ into j := fun j hj he => hkl (hinj k hk j (List.mem_cons_of_mem _ hj) he ▸ hj)
      rw [element_foldl_other into x hin' _ (hin k hk) hne, element_setElem (hin k hk) _ _ (hin k hk), if_pos rfl]

end

/-! ### Flags -/

theorem flagBits_or_zero (fl : FlagBits) : fl ||| 0 = fl := BitVec.or_zero
theorem zero_or_flagBits (fl : FlagBits) : 0 ||| fl = fl := BitVec.zero_or

theorem foldl_flags {α : Type} (g : α → FlagBits) (l : List α) (fl : FlagBits) :
    l.foldl (fun f x => f ||| g x) fl = fl ||| l.foldl (fun f x => f ||| g x) 0 := by
  induction l generalizing fl with
  | nil => exact (flagBits_or_zero fl).symm
  | cons x l ih => rw [List.foldl_cons, List.foldl_cons, ih, ih (0 ||| g x), zero_or_flagBits, BitVec.or_assoc]

theorem flagsOf_append (xs ys : List (Nat × FlagBits)) : flagsOf (xs ++ ys) = flagsOf xs ||| flagsOf ys := by
  rw [flagsOf, List.foldl_append, foldl_flags]
  rfl

theorem flagsOf_quiet {xs : List (Nat × FlagBits)} (h : ∀ p ∈ xs, p.2 = 0) : flagsOf xs = 0 := by
  induction xs with
  | nil => rfl
  | cons x xs ih =>
    rw [flagsOf, List.foldl_cons, h x List.mem_cons_self, flagBits_or_zero]
    exact ih fun p hp => h p (List.mem_cons_of_mem _ hp)

/-! ### Reductions (R168) -/

/-- f gives one of its two arguments, which R puts last, and no flag. -/
def selects (f : Nat → Nat → Nat × FlagBits) (Q : Nat → Prop) (R : Nat → Nat → Prop) : Prop :=
  ∀ x y, Q x → Q y → ∃ z, f x y = (z, 0) ∧ (z = x ∨ z = y) ∧ R x z ∧ R y z

section
variable {f : Nat → Nat → Nat × FlagBits}

theorem length_pairUp {n : Nat} {xs : List Nat} (h : xs.length = 2 * n) : (pairUp f xs).length = n := by
  induction n generalizing xs with
  | zero => rw [List.length_eq_zero_iff.1 h]; rfl
  | succ n ih =>
    obtain ⟨x, r, rfl⟩ := List.exists_cons_of_length_pos (l := xs) (by omega)
    obtain ⟨y, r, rfl⟩ := List.exists_cons_of_length_pos (l := r) (by simp at h; omega)
    rw [pairUp, List.length_cons, ih (by simp at h; omega)]

variable {Q : Nat → Prop} {R : Nat → Nat → Prop} (hf : selects f Q R)
include hf

theorem pairUp_selects {n : Nat} {xs : List Nat} (h : xs.length = 2 * n) (hQ : ∀ x ∈ xs, Q x) :
    (∀ p ∈ pairUp f xs, p.2 = 0 ∧ p.1 ∈ xs) ∧ ∀ x ∈ xs, ∃ p ∈ pairUp f xs, R x p.1 := by
  induction n generalizing xs with
  | zero =>
    rw [List.length_eq_zero_iff.1 h]
    exact ⟨nofun, nofun⟩
  | succ n ih =>
    obtain ⟨x, r, rfl⟩ := List.exists_cons_of_length_pos (l := xs) (by omega)
    obtain ⟨y, r, rfl⟩ := List.exists_cons_of_length_pos (l := r) (by simp at h; omega)
    obtain ⟨z, hz, hmem, hx, hy⟩ := hf x y (hQ x (by simp)) (hQ y (by simp))
    obtain ⟨i1, i2⟩ := ih (xs := r) (by simp at h; omega) fun u hu => hQ u (by simp [hu])
    rw [pairUp, hz]
    refine ⟨?_, ?_⟩
    · rintro p (_ | ⟨_, hp⟩)
      · exact ⟨rfl, by simpa using hmem.imp id .inl⟩
      · exact ⟨(i1 p hp).1, by simp [(i1 p hp).2]⟩
    · intro u hu
      rcases List.mem_cons.1 hu with rfl | hu
      · exact ⟨_, List.mem_cons_self, hx⟩
      · rcases List.mem_cons.1 hu with rfl | hu
        · exact ⟨_, List.mem_cons_self, hy⟩
        · obtain ⟨p, hp, hr⟩ := i2 u hu
          exact ⟨p, List.mem_cons_of_mem _ hp, hr⟩

/-- A reduction by selection gives the element that R puts last. -/
theorem reduce_selects (hrefl : ∀ x, R x x) (htrans : ∀ x y z, R x y → R y z → R x z) {n j : Nat} (hj : j ≤ n) {xs : List Nat}
    (hlen : xs.length = 2 ^ j) (hQ : ∀ x ∈ xs, Q x) : ∃ z ∈ xs, reduce f n xs 0 = (z, 0) ∧ ∀ x ∈ xs, R x z := by
  induction n generalizing j xs with
  | zero =>
    obtain rfl : j = 0 := Nat.le_zero.1 hj
    obtain ⟨x, rfl⟩ := List.length_eq_one_iff.1 hlen
    exact ⟨x, by simp, rfl, by simpa using hrefl x⟩
  | succ n ih =>
    cases j with
    | zero =>
      obtain ⟨x, rfl⟩ := List.length_eq_one_iff.1 hlen
      exact ⟨x, by simp, rfl, by simpa using hrefl x⟩
    | succ j =>
      have hlen' : xs.length = 2 * 2 ^ j := by rw [hlen, Nat.pow_succ, Nat.mul_comm]
      obtain ⟨h1, h2⟩ := pairUp_selects hf hlen' hQ
      have hys := length_pairUp (f := f) hlen'
      have hne : (pairUp f xs).isEmpty = false := by
        rw [List.isEmpty_eq_false_iff, ← List.length_pos_iff, hys]
        positivity
      obtain ⟨z, hz, hr, hall⟩ := ih (j := j) (by omega) (xs := (pairUp f xs).map Prod.fst) (by rw [List.length_map, hys])
        fun x hx => by
          obtain ⟨p, hp, rfl⟩ := List.mem_map.1 hx
          exact hQ _ (h1 p hp).2
      obtain ⟨p, hp, rfl⟩ := List.mem_map.1 hz
      refine ⟨p.1, (h1 p hp).2, ?_, fun x hx => ?_⟩
      · simp only [reduce, hne, Bool.false_eq_true, if_false, flagsOf_quiet fun p hp => (h1 p hp).1, flagBits_or_zero]
        exact hr
      · obtain ⟨q, hq, hxq⟩ := h2 x hx
        exact htrans _ _ _ hxq (hall _ (List.mem_map_of_mem hq))

end

end Sys2Proof.Machine
end

section
/-!
PROOFS. Permutes, moves, reductions, conversions and block-scaled codes of the vector engine (O49).
-/

namespace Sys2Proof.Machine

/-! ### What a command leaves -/

/-- i queues a command that fills a `v` register with a value of which P holds. -/
def State.fills (s : State) (i : Instr) (busy : Nat) (d : BitVec 3) (fl : FlagBits) (P : Vec → Prop) : Prop :=
  ∃ v c, exec i s = .next (s.vecQueued i busy [(32 + d.toNat, v)] fl c) ∧ P v

/-- i queues a command that fills a `g` register with w. -/
def State.gives (s : State) (i : Instr) (busy : Nat) (d : Reg) (fl : FlagBits) (w : Word) : Prop :=
  ∃ c, exec i s = .next (s.vecQueued i busy [((gNum d).toNat, w.setWidth 256)] fl c)

section
variable {s : State} {i : Instr} {eff : State → State} {busy : Nat}

theorem fills_of {d : BitVec 3} {r : Vec × FlagBits} {fl : FlagBits} {P : Vec → Prop} (h : s.issues .lone i)
    (hi : exec i s = issue .lone i eff s)
    (he : eff (s.inWith i (s.meIn i) [] (s.me.pc + 8)) = (s.inWith i (s.meIn i) [] (s.me.pc + 8)).vecV busy d r)
    (hfl : r.2 = fl) (hP : P r.1) : s.fills i busy d fl P := by
  obtain ⟨c, hc⟩ := exec_vecV h hi he
  exact ⟨r.1, c, hfl ▸ hc, hP⟩

theorem gives_of {d : Reg} {r : Word × FlagBits} {fl : FlagBits} {w : Word} (h : s.issues .lone i)
    (hi : exec i s = issue .lone i eff s)
    (he : eff (s.inWith i (s.meIn i) [] (s.me.pc + 8)) = (s.inWith i (s.meIn i) [] (s.me.pc + 8)).vecG busy d r)
    (hfl : r.2 = fl) (hw : r.1 = w) : s.gives i busy d fl w := by
  obtain ⟨c, hc⟩ := exec_vecG h hi he
  exact ⟨c, hfl ▸ hw ▸ hc⟩

end

theorem gather_quiet {α : Type} {w : Nat} (l : List α) (g : α → Nat) : (gather w (l.map fun k => (g k, 0))).2 = 0 :=
  flagsOf_quiet (by simp)

theorem ofNat_self {w : Nat} (x : BitVec w) : BitVec.ofNat w x.toNat = x := by rw [BitVec.ofNat_toNat, BitVec.setWidth_eq]

/-- The low bits of a word, as an element. -/
theorem ofNat_low (w : Nat) (x : Word) : BitVec.ofNat w (x.toNat % 2 ^ w) = x.setWidth w := by
  apply BitVec.eq_of_toNat_eq
  simp

section
variable {s : State}

/-! ### Permutes, selections and moves (R169) -/

theorem vperm_fills {d a b : BitVec 3} (h : s.issues .lone (.vperm d a b)) :
    s.fills (.vperm d a b) 1 d 0 fun v => ∀ k < 32, element 8 v k =
      if (element 8 (s.me.regs.getV b) k).toNat < 128
      then element 8 (s.me.regs.getV a) ((element 8 (s.me.regs.getV b) k).toNat % 32) else 0 := by
  refine fills_of h rfl ((congrArg _ (each1_eq ..)).trans rfl) (gather_quiet _ _) fun k hk => ?_
  rw [element_gather _ (width_mul_div 8) hk]
  change BitVec.ofNat 8 (if (element 8 (s.me.regs.getV b) k).toNat < 128
    then (element 8 (s.me.regs.getV a) ((element 8 (s.me.regs.getV b) k).toNat % 32)).toNat else 0) = _
  split
  · exact ofNat_self _
  · rfl

theorem vbcast_fills {ty : NumTy} {d : BitVec 3} {a : Reg} (h : s.issues .lone (.vbcast ty d a)) :
    s.fills (.vbcast ty d a) 1 d 0 fun v => ∀ k < 256 / ty.bits, element ty.bits v k = (s.value a).setWidth ty.bits := by
  refine fills_of h rfl ((congrArg _ (each1_eq ..)).trans rfl) (gather_quiet _ _) fun k hk => ?_
  rw [element_gather _ (width_mul_div _) hk, ofNat_low, src_open]

theorem vins_fills {ty : NumTy} {d : BitVec 3} {a : Reg} {n : BitVec 5} (h : s.issues .lone (.vins ty d a n))
    (hn : n.toNat < 256 / ty.bits) :
    s.fills (.vins ty d a n) 1 d 0 fun v => ∀ k < 256 / ty.bits,
      element ty.bits v k = if k = n.toNat then (s.value a).setWidth ty.bits else element ty.bits (s.me.regs.getV d) k := by
  refine fills_of h rfl rfl rfl fun k hk => ?_
  rw [element_setElem hn _ _ hk, src_open, srcV_inWith, BitVec.ofNat_toNat]

/-- An element of an integer type extended to a word. -/
theorem extend_elem (t : IntTy) (n : Nat) : extend t.signed t.bits n =
    if t.signed then (BitVec.ofNat t.bits n).signExtend 64 else (BitVec.ofNat t.bits n).setWidth 64 := by
  rw [extend, readInt_eq _ (intBits_pos t)]
  split
  · rfl
  · rw [BitVec.ofInt_natCast, BitVec.ofNat_toNat]

theorem vext_int_gives {t : IntTy} {d : Reg} {a : BitVec 3} {n : BitVec 5} (h : s.issues .lone (.vext (.int t) d a n)) :
    s.gives (.vext (.int t) d a n) 1 d 0 (if t.signed then (element t.bits (s.me.regs.getV a) n.toNat).signExtend 64
      else (element t.bits (s.me.regs.getV a) n.toNat).setWidth 64) := by
  refine gives_of h rfl rfl rfl ?_
  change extend t.signed t.bits (element t.bits (s.me.regs.getV a) n.toNat).toNat = _
  rw [extend_elem, ofNat_self]

theorem vext_flt_gives {t : FloatTy} {d : Reg} {a : BitVec 3} {n : BitVec 5} (h : s.issues .lone (.vext (.flt t) d a n)) :
    s.gives (.vext (.flt t) d a n) 1 d 0 ((element t.bits (s.me.regs.getV a) n.toNat).setWidth 64) := by
  refine gives_of h rfl rfl rfl ?_
  change BitVec.ofNat 64 ((element t.bits (s.me.regs.getV a) n.toNat).toNat % 2 ^ t.bits) = _
  rw [Nat.mod_eq_of_lt (BitVec.isLt _), BitVec.ofNat_toNat]

/-! ### Reductions (R168) -/

theorem foldl_add_eq_sum {α : Type} (g : α → Int) (l : List α) (x : Int) : l.foldl (fun acc y => acc + g y) x = x + (l.map g).sum := by
  induction l generalizing x with
  | nil => simp
  | cons y l ih => rw [List.foldl_cons, ih, List.map_cons, List.sum_cons, add_assoc]

theorem readInt_element (t : IntTy) (v : Vec) (k : Nat) : readInt t.signed t.bits (elem t.bits v k) = elemInt t (element t.bits v k) := by
  rw [readInt_elem, elem_eq, ofNat_self]

theorem vsum_int_gives {t : IntTy} {rm : Rm} {sat : Bool} {d : Reg} {a : BitVec 3} (h : s.issues .lone (.vsum (.int t) rm sat d a)) :
    let e := ((List.range (256 / t.bits)).map fun k => elemInt t (element t.bits (s.me.regs.getV a) k)).sum
    let r := BitVec.ofInt t.bits (if sat then elemClamp t e else e)
    s.gives (.vsum (.int t) rm sat d a) 3 d (if sat ∧ elemClamp t e ≠ e then 32 else 0)
      (if t.signed then r.signExtend 64 else r.setWidth 64) := by
  intro e r
  have hsum : (elems t.bits (s.me.regs.getV a)).foldl (fun acc x => acc + readInt t.signed t.bits x) 0 = e := by
    rw [foldl_add_eq_sum, zero_add, elems, List.map_map]
    exact congrArg List.sum (List.map_congr_left fun k _ => readInt_element t _ k)
  have hr : vsumResult (.int t) rm sat (s.me.regs.getV a) = (r.toNat, if sat ∧ elemClamp t e ≠ e then 32 else 0) := by
    rw [vsumResult, hsum, narrow_elem]
  refine gives_of h rfl rfl (congrArg Prod.snd hr) ?_
  change extElem (.int t) (vsumResult (.int t) rm sat (s.me.regs.getV a)).1 = _
  rw [hr, extElem, extend_elem, ofNat_self r]

theorem elemInt_bounds (t : IntTy) (x : BitVec t.bits) : BitVec.ofInt t.bits (elemInt t x) = x := by
  unfold elemInt
  split
  · exact BitVec.ofInt_toInt
  · rw [BitVec.ofInt_natCast, ofNat_self]

/-- Of two elements: the second is at least as great, or as small. -/
def surpassed (greater : Bool) (t : IntTy) (x y : Nat) : Prop :=
  if greater then readInt t.signed t.bits x ≤ readInt t.signed t.bits y else readInt t.signed t.bits y ≤ readInt t.signed t.bits x

theorem wrapInt_readInt (t : IntTy) {x : Nat} (hx : x < 2 ^ t.bits) : wrapInt t.bits (readInt t.signed t.bits x) = x := by
  rw [wrapInt_eq, readInt_elem, elemInt_bounds, BitVec.toNat_ofNat, Nat.mod_eq_of_lt hx]

theorem intResult_selects (greater : Bool) (t : IntTy) :
    selects (intResult t false fun x y => if greater then max x y else min x y) (· < 2 ^ t.bits) (surpassed greater t) := by
  intro x y hx hy
  have hval (e : Int) : narrow t.signed false t.bits e = (wrapInt t.bits e, 0) := rfl
  simp only [intResult, hval, surpassed]
  cases greater with
  | true =>
    rcases le_total (readInt t.signed t.bits x) (readInt t.signed t.bits y) with h | h
    · exact ⟨y, by rw [if_pos rfl, max_eq_right h, wrapInt_readInt t hy], .inr rfl, h, le_rfl⟩
    · exact ⟨x, by rw [if_pos rfl, max_eq_left h, wrapInt_readInt t hx], .inl rfl, le_rfl, h⟩
  | false =>
    rcases le_total (readInt t.signed t.bits x) (readInt t.signed t.bits y) with h | h
    · exact ⟨x, by rw [if_neg (by simp), min_eq_left h, wrapInt_readInt t hx], .inl rfl, le_rfl, h⟩
    · exact ⟨y, by rw [if_neg (by simp), min_eq_right h, wrapInt_readInt t hy], .inr rfl, h, le_rfl⟩

theorem length_elems (t : IntTy) : ∃ j ≤ 5, 256 / t.bits = 2 ^ j := by
  cases t
  case i8 | n8 => exact ⟨5, by decide, rfl⟩
  case i16 | n16 => exact ⟨4, by decide, rfl⟩
  case i32 | n32 => exact ⟨3, by decide, rfl⟩
  case i64 | n64 => exact ⟨2, by decide, rfl⟩

/-- The greatest, or least, element of a register of integers. -/
theorem vrResult_int (greater : Bool) (t : IntTy) (v : Vec) : ∃ n < 256 / t.bits,
    (∀ k < 256 / t.bits, if greater then elemInt t (element t.bits v k) ≤ elemInt t (element t.bits v n)
      else elemInt t (element t.bits v n) ≤ elemInt t (element t.bits v k))
    ∧ vrResult greater (.int t) v = (elem t.bits v n, 0) := by
  obtain ⟨j, hj, hlen⟩ := length_elems t
  have hrefl (x : Nat) : surpassed greater t x x := by cases greater <;> exact le_rfl
  have htrans (x y z : Nat) : surpassed greater t x y → surpassed greater t y z → surpassed greater t x z := by
    cases greater
    · exact fun h h' => h'.trans h
    · exact fun h h' => h.trans h'
  obtain ⟨z, hz, hr, hall⟩ := reduce_selects (intResult_selects greater t) hrefl htrans hj (xs := elems t.bits v)
    (by rw [elems, List.length_map, List.length_range, hlen])
    fun x hx => by
      obtain ⟨k, -, rfl⟩ := List.mem_map.1 hx
      exact BitVec.isLt _
  obtain ⟨n, hn, rfl⟩ := List.mem_map.1 hz
  refine ⟨n, List.mem_range.1 hn, fun k hk => ?_, hr⟩
  have := hall _ (List.mem_map_of_mem (List.mem_range.2 hk))
  simpa only [surpassed, readInt_element] using this

theorem vr_int_gives {t : IntTy} {d : Reg} {a : BitVec 3} {greater : Bool} {i : Instr} (h : s.issues .lone i)
    (hi : i = .vrmax (.int t) d a ∧ greater ∨ i = .vrmin (.int t) d a ∧ greater = false) :
    ∃ n < 256 / t.bits, (∀ k < 256 / t.bits,
        if greater then elemInt t (element t.bits (s.me.regs.getV a) k) ≤ elemInt t (element t.bits (s.me.regs.getV a) n)
        else elemInt t (element t.bits (s.me.regs.getV a) n) ≤ elemInt t (element t.bits (s.me.regs.getV a) k))
      ∧ s.gives i 3 d 0 (BitVec.ofInt 64 (elemInt t (element t.bits (s.me.regs.getV a) n))) := by
  obtain ⟨n, hn, hall, hr⟩ := vrResult_int greater t (s.me.regs.getV a)
  have hw : extElem (.int t) (vrResult greater (.int t) (s.me.regs.getV a)).1
      = BitVec.ofInt 64 (elemInt t (element t.bits (s.me.regs.getV a) n)) := by
    rw [hr, extElem, extend, readInt_element]
  refine ⟨n, hn, hall, ?_⟩
  rcases hi with ⟨rfl, rfl⟩ | ⟨rfl, rfl⟩
  · exact gives_of h rfl rfl (congrArg Prod.snd hr) hw
  · exact gives_of h rfl rfl (congrArg Prod.snd hr) hw

/-! ### Conversions (R164) -/

/-- A fold that writes elements and gathers flags. -/
theorem foldl_elements {w : Nat} (into : Nat → Nat) (r : Nat → Nat × FlagBits) (l : List Nat) (v : Vec) (fl : FlagBits) :
    l.foldl (fun (acc : Vec × FlagBits) k => (setElem w acc.1 (into k) (r k).1, acc.2 ||| (r k).2)) (v, fl)
      = (l.foldl (fun v k => setElem w v (into k) (r k).1) v, (l.map r).foldl (fun fl p => fl ||| p.2) fl) := by
  induction l generalizing v fl with
  | nil => rfl
  | cons k l ih => exact ih _ _

theorem vcvt_fills {dt st : NumTy} {rm : Rm} {sat : Bool} {d a p : BitVec 3} (h : s.issues .lone (.vcvt dt st rm sat d a p)) :
    let n := 256 / max dt.bits st.bits
    let from_ (k : Nat) : Nat := if st.bits < dt.bits then p.toNat * n + k else k
    let into (k : Nat) : Nat := if dt.bits < st.bits then p.toNat * n + k else k
    let r (k : Nat) : Nat × BitVec 6 := convert dt st rm sat (element st.bits (s.me.regs.getV a) (from_ k)).toNat
    (p.toNat + 1) * n ≤ 256 / min dt.bits st.bits →
    s.fills (.vcvt dt st rm sat d a p) 1 d (((List.range n).map r).foldl (fun fl p => fl ||| p.2) 0) fun v =>
      (∀ k < n, element dt.bits v (into k) = BitVec.ofNat dt.bits (r k).1)
        ∧ ∀ j < 256 / dt.bits, (∀ k < n, j ≠ into k) → element dt.bits v j = element dt.bits (s.me.regs.getV d) j := by
  intro n from_ into r hp
  have hin (k : Nat) (hk : k ∈ List.range n) : into k < 256 / dt.bits := by
    have hk := List.mem_range.1 hk
    simp only [into]
    split
    · next hlt =>
      rw [min_eq_left hlt.le, Nat.add_mul, Nat.one_mul] at hp
      omega
    · next hge => rwa [← max_eq_left (not_lt.1 hge)]
  have hinj (i : Nat) (_ : i ∈ List.range n) (k : Nat) (_ : k ∈ List.range n) (he : into i = into k) : i = k := by
    simp only [into] at he
    split at he <;> omega
  have hr : vcvtResult dt st rm sat (s.me.regs.getV d) (s.me.regs.getV a) p.toNat = _ :=
    foldl_elements (w := dt.bits) into r (List.range n) (s.me.regs.getV d) 0
  refine fills_of h rfl rfl (congrArg Prod.snd hr) ?_
  change (∀ k < n, element dt.bits (vcvtResult dt st rm sat (s.me.regs.getV d) (s.me.regs.getV a) p.toNat).1 _ = _) ∧ ∀ j < _, _ →
    element dt.bits (vcvtResult dt st rm sat (s.me.regs.getV d) (s.me.regs.getV a) p.toNat).1 j = _
  rw [hr]
  exact ⟨fun k hk => element_foldl_self into (fun k => (r k).1) hin hinj _ (List.mem_range.2 hk),
    fun j hj hne => element_foldl_other into (fun k => (r k).1) hin _ hj fun k hk => hne k (List.mem_range.1 hk)⟩

/-! ### Block-scaled codes (R165 to R167) -/

theorem vdec_fills {dt : FloatTy} {rm : Rm} {d a b : BitVec 3} {t p : BitVec 2} (h : s.issues .lone (.vdec dt rm d a b t p)) :
    let n := 256 / dt.bits
    let r (k : Nat) : Nat × BitVec 6 := decodeC8 (fmtOf dt) rm (s.tableFor (.vdec dt rm d a b t p))
      (element 8 (s.me.regs.getV a) (n * p.toNat + k)).toNat
      (element 8 (s.me.regs.getV b) (8 * t.toNat + (if dt = .f32 then 2 else 4) * p.toNat + k / 4)).toNat
    s.fills (.vdec dt rm d a b t p) 2 d (((List.range n).map r).foldl (fun fl p => fl ||| p.2) 0) fun v =>
      ∀ k < n, element dt.bits v k = BitVec.ofNat dt.bits (r k).1 := by
  intro n r
  refine fills_of (r := gather dt.bits ((List.range n).map r)) h rfl ?_ rfl fun k hk => element_gather r (width_mul_div _) hk
  rw [vdecEffect, table_inWith]
  rfl

theorem vscl_fills {rm : Rm} {d a b : BitVec 3} {t p : BitVec 2} (h : s.issues .lone (.vscl rm d a b t p)) :
    let r (k : Nat) : Nat × BitVec 6 := scaled rm (element 32 (s.me.regs.getV a) k).toNat
      (element 8 (s.me.regs.getV b) (8 * t.toNat + 2 * p.toNat + k / 4)).toNat
    s.fills (.vscl rm d a b t p) 2 d (((List.range 8).map r).foldl (fun fl p => fl ||| p.2) 0) fun v =>
      ∀ k < 8, element 32 v k = BitVec.ofNat 32 (r k).1 := by
  intro r
  exact fills_of (r := gather 32 ((List.range 8).map r)) h rfl rfl rfl fun k hk => element_gather r (by norm_num) hk

theorem scaleByte_lt (t p : BitVec 2) {blk : Nat} (h : blk < 2) : 8 * t.toNat + 2 * p.toNat + blk < 256 / 8 := by
  have := t.isLt
  have := p.isLt
  omega

theorem vsauto_fills {d a : BitVec 3} {t p : BitVec 2} (h : s.issues .lone (.vsauto d a t p)) :
    let sb (blk : Nat) : Nat := 8 * t.toNat + 2 * p.toNat + blk
    s.fills (.vsauto d a t p) 2 d 0 fun v =>
      (∀ blk < 2, element 8 v (sb blk) = BitVec.ofNat 8 (autoScale (s.tableFor (.vsauto d a t p))
          ((List.range 4).map fun k => (element 32 (s.me.regs.getV a) (4 * blk + k)).toNat)))
        ∧ ∀ j < 32, j ≠ sb 0 → j ≠ sb 1 → element 8 v j = element 8 (s.me.regs.getV d) j := by
  intro sb
  let x (blk : Nat) : Nat := autoScale (s.tableFor (.vsauto d a t p))
    ((List.range 4).map fun k => (element 32 (s.me.regs.getV a) (4 * blk + k)).toNat)
  have hin (blk : Nat) (hb : blk ∈ List.range 2) : sb blk < 256 / 8 := scaleByte_lt t p (List.mem_range.1 hb)
  refine fills_of (r := ((List.range 2).foldl (fun v blk => setElem 8 v (sb blk) (x blk)) (s.me.regs.getV d), 0)) h rfl ?_ rfl
    ⟨fun blk hb => ?_, fun j hj h0 h1 => ?_⟩
  · rw [vsautoEffect, table_inWith]
    rfl
  · exact element_foldl_self sb x hin (fun i _ k _ he => Nat.add_left_cancel he) _ (List.mem_range.2 hb)
  · refine element_foldl_other sb x hin _ hj fun blk hb => ?_
    have hb := List.mem_range.1 hb
    interval_cases blk
    · exact h0
    · exact h1

end

end Sys2Proof.Machine
end

section
/-!
PROOFS. `venc` (R166), and what the vector engine's moves, reductions, conversions and codes leave, together (O49).
-/

namespace Sys2Proof.Machine

/-! ### venc (R166) -/

/-- The elements of a block. -/
def encBlock (a : Vec) (blk : Nat) : List Nat := (List.range 4).map fun k => elem 32 a (4 * blk + k)

/-- The scale byte of a block, where the old one is `old`. -/
def encScale (auto : Bool) (tab : BitVec 8192) (a : Vec) (blk old : Nat) : Nat :=
  if (encBlock a blk).any (fun y => (fp32.decode y).isNan) then 255 else if auto then autoScale tab (encBlock a blk) else old

section
variable (auto : Bool) (tab : BitVec 8192) (old a b : Vec) (t p : Nat)

/-- The scale byte of a block, its old one from b. -/
def encScaleOf (blk : Nat) : Nat := encScale auto tab a blk (elem 8 b (8 * t + 2 * p + blk))

/-- The code of element k, and its flags. -/
def encCode (k : Nat) : Nat × FlagBits := encodeC8 tab (elem 32 a k) (encScaleOf auto tab a b t p (k / 4))

/-- What one block adds. -/
def encStep (acc : Vec × Vec × FlagBits) (blk : Nat) : Vec × Vec × FlagBits :=
  let sc := encScale auto tab a blk (elem 8 acc.2.1 (8 * t + 2 * p + blk))
  let codes := (encBlock a blk).map fun x => encodeC8 tab x sc
  (((List.range 4).zip codes).foldl (fun v c => setElem 8 v (8 * p + 4 * blk + c.1) c.2.1) acc.1,
    setElem 8 acc.2.1 (8 * t + 2 * p + blk) sc, acc.2.2 ||| flagsOf codes)

theorem vencResult_eq : vencResult auto tab old a b t p =
    encStep auto tab a t p (encStep auto tab a t p (old, b, 0) 0) 1 := rfl

theorem encStep_eq (acc : Vec × Vec × FlagBits) (blk : Nat)
    (h : elem 8 acc.2.1 (8 * t + 2 * p + blk) = elem 8 b (8 * t + 2 * p + blk)) :
    encStep auto tab a t p acc blk =
      ((List.range 4).foldl (fun v k => setElem 8 v (8 * p + (4 * blk + k)) (encCode auto tab a b t p (4 * blk + k)).1) acc.1,
        setElem 8 acc.2.1 (8 * t + 2 * p + blk) (encScaleOf auto tab a b t p blk),
        acc.2.2 ||| flagsOf ((List.range 4).map fun k => encCode auto tab a b t p (4 * blk + k))) := by
  have hcode (k : Nat) (hk : k < 4) :
      encCode auto tab a b t p (4 * blk + k) = encodeC8 tab (elem 32 a (4 * blk + k)) (encScaleOf auto tab a b t p blk) := by
    rw [encCode, show (4 * blk + k) / 4 = blk by omega]
  have hcodes : (encBlock a blk).map (fun x => encodeC8 tab x (encScaleOf auto tab a b t p blk))
      = (List.range 4).map fun k => encCode auto tab a b t p (4 * blk + k) := by
    rw [encBlock, List.map_map]
    exact List.map_congr_left fun k hk => (hcode k (List.mem_range.1 hk)).symm
  simp only [encStep, h]
  change (((List.range 4).zip ((encBlock a blk).map fun x => encodeC8 tab x (encScaleOf auto tab a b t p blk))).foldl _ _,
    _, acc.2.2 ||| flagsOf ((encBlock a blk).map fun x => encodeC8 tab x (encScaleOf auto tab a b t p blk))) = _
  rw [hcodes]
  simp only [Nat.add_assoc (8 * p)]
  rfl

/-- The two blocks together. -/
theorem vencResult_blocks (hfit : 8 * t + 2 * p + 1 < 256 / 8) : vencResult auto tab old a b t p =
    ((List.range 8).foldl (fun v k => setElem 8 v (8 * p + k) (encCode auto tab a b t p k).1) old,
      (List.range 2).foldl (fun v blk => setElem 8 v (8 * t + 2 * p + blk) (encScaleOf auto tab a b t p blk)) b,
      ((List.range 8).map fun k => (encCode auto tab a b t p k).2).foldl (fun x y => x ||| y) 0) := by
  have hnext : elem 8 (setElem 8 b (8 * t + 2 * p + 0) (encScaleOf auto tab a b t p 0)) (8 * t + 2 * p + 1)
      = elem 8 b (8 * t + 2 * p + 1) := by
    rw [elem_eq, elem_eq, element_setElem (by omega) _ _ hfit, if_neg (by omega)]
  have hflags : (0 ||| flagsOf ((List.range 4).map fun k => encCode auto tab a b t p (4 * 0 + k)))
        ||| flagsOf ((List.range 4).map fun k => encCode auto tab a b t p (4 * 1 + k))
      = ((List.range 8).map fun k => (encCode auto tab a b t p k).2).foldl (fun x y => x ||| y) 0 := by
    rw [zero_or_flagBits, ← flagsOf_append]
    rfl
  rw [vencResult_eq, encStep_eq (b := b) (acc := (old, b, 0)) (h := rfl), encStep_eq (b := b) (h := hnext), hflags]
  rfl

end

theorem venc_leaves {s : State} {auto : Bool} {d a b : BitVec 3} {t p : BitVec 2} (h : s.issues .lone (.venc auto d a b t p)) :
    let i : Instr := .venc auto d a b t p
    let byte (v : Vec) (k : Nat) : BitVec 8 := element 8 v k
    let x (k : Nat) : Nat := (element 32 (s.me.regs.getV a) k).toNat
    let sb (blk : Nat) : Nat := 8 * t.toNat + 2 * p.toNat + blk
    let xs (blk : Nat) : List Nat := [x (4 * blk), x (4 * blk + 1), x (4 * blk + 2), x (4 * blk + 3)]
    let sc (blk : Nat) : Nat := if (xs blk).any (fun y => (fp32.decode y).isNan) then 255
      else if auto then autoScale (s.tableFor i) (xs blk) else (byte (s.me.regs.getV b) (sb blk)).toNat
    ∃ v u fl c, exec i s = .next (s.vecQueued i 2 [(32 + d.toNat, v), (32 + b.toNat, u)] fl c)
      ∧ (∀ k < 8, byte v (8 * p.toNat + k) = BitVec.ofNat 8 (encodeC8 (s.tableFor i) (x k) (sc (k / 4))).1)
      ∧ (∀ j < 32, (j < 8 * p.toNat ∨ 8 * p.toNat + 8 ≤ j) → byte v j = byte (s.me.regs.getV d) j)
      ∧ (∀ blk < 2, byte u (sb blk) = BitVec.ofNat 8 (sc blk))
      ∧ (∀ j < 32, j ≠ sb 0 → j ≠ sb 1 → byte u j = byte (s.me.regs.getV b) j)
      ∧ fl = ((List.range 8).map fun k => (encodeC8 (s.tableFor i) (x k) (sc (k / 4))).2).foldl (fun x y => x ||| y) 0 := by
  intro i byte x sb xs sc
  have hp := p.isLt
  have hfit := scaleByte_lt t p (blk := 1) (by norm_num)
  let code (k : Nat) : Nat × FlagBits := encodeC8 (s.tableFor i) (x k) (sc (k / 4))
  have hr : vencResult auto (s.tableFor i) (s.me.regs.getV d) (s.me.regs.getV a) (s.me.regs.getV b) t.toNat p.toNat =
      ((List.range 8).foldl (fun v k => setElem 8 v (8 * p.toNat + k) (code k).1) (s.me.regs.getV d),
        (List.range 2).foldl (fun v blk => setElem 8 v (sb blk) (sc blk)) (s.me.regs.getV b),
        ((List.range 8).map fun k => (code k).2).foldl (fun x y => x ||| y) 0) :=
    vencResult_blocks auto (s.tableFor i) _ _ _ _ _ hfit
  have he : vencEffect auto d a b t p (s.inWith i (s.meIn i) [] (s.me.pc + 8)) = (s.inWith i (s.meIn i) [] (s.me.pc + 8)).queueVec 2
      [(32 + d.toNat, (List.range 8).foldl (fun v k => setElem 8 v (8 * p.toNat + k) (code k).1) (s.me.regs.getV d)),
        (32 + b.toNat, (List.range 2).foldl (fun v blk => setElem 8 v (sb blk) (sc blk)) (s.me.regs.getV b))]
      (((List.range 8).map fun k => (code k).2).foldl (fun x y => x ||| y) 0) := by
    rw [vencEffect, table_inWith, srcV_inWith, srcV_inWith, srcV_inWith, hr]
  have hin (k : Nat) (hk : k ∈ List.range 8) : 8 * p.toNat + k < 256 / 8 := by
    have := List.mem_range.1 hk
    omega
  have hin' (blk : Nat) (hb : blk ∈ List.range 2) : sb blk < 256 / 8 := scaleByte_lt t p (List.mem_range.1 hb)
  obtain ⟨c, hc⟩ := exec_queued h rfl he
  refine ⟨_, _, _, c, hc, fun k hk => ?_, fun j hj hout => ?_, fun blk hb => ?_, fun j hj h0 h1 => ?_, rfl⟩
  · exact element_foldl_self (8 * p.toNat + ·) (fun k => (code k).1) hin (fun i _ k _ he => Nat.add_left_cancel he) _
      (List.mem_range.2 hk)
  · refine element_foldl_other (8 * p.toNat + ·) (fun k => (code k).1) hin _ hj fun k hk => ?_
    have := List.mem_range.1 hk
    change j ≠ 8 * p.toNat + k
    omega
  · exact element_foldl_self sb sc hin' (fun i _ k _ he => Nat.add_left_cancel he) _ (List.mem_range.2 hb)
  · refine element_foldl_other sb sc hin' _ hj fun blk hb => ?_
    have hb := List.mem_range.1 hb
    interval_cases blk
    · exact h0
    · exact h1

/-! ### The obligation -/

/-- A conversion's result is the exact value rounded, wrapped or clamped once. -/
theorem convert_rounds (mode : Rm) (sat : Bool) (dt st : FloatTy) (ity jty : IntTy) (a : Nat) :
    let v := (fmtOf st).decode a
    let g := fmtOf dt
    (v.isFin → g.yields mode v.rat v.neg (convert (.flt dt) (.flt st) mode sat a))
    ∧ (∀ n, v = .inf n → convert (.flt dt) (.flt st) mode sat a = (g.inf n, 0))
    ∧ (v.isNan → convert (.flt dt) (.flt st) mode sat a = (g.qnan, if v.isSnan then 16 else 0))
    ∧ (a < 2 ^ ity.bits → g.yields mode (elemInt ity (BitVec.ofNat _ a)) false (convert (.flt dt) (.int ity) mode sat a))
    ∧ (v.isNan → convert (.int ity) (.flt st) mode sat a = (0, 16))
    ∧ (∀ n, v = .inf n → convert (.int ity) (.flt st) mode sat a =
        ((BitVec.ofInt ity.bits (if n then elemLow ity else elemHigh ity)).toNat, 16))
    ∧ (v.isFin → ∃ k : Nat, integerOf mode v.neg (fun t => t ≤ v.mag) (fun t => t < v.mag) k
      ∧ (let n : Int := if v.neg then -(k : Int) else k
         convert (.int ity) (.flt st) mode sat a =
          ((BitVec.ofInt ity.bits (elemClamp ity n)).toNat,
           if elemClamp ity n ≠ n then 16 else if (k : Rat) = v.mag then 0 else 1)))
    ∧ (a < 2 ^ jty.bits → let n := elemInt jty (BitVec.ofNat _ a)
      convert (.int ity) (.int jty) mode sat a =
        ((BitVec.ofInt ity.bits (if sat then elemClamp ity n else n)).toNat, if sat ∧ elemClamp ity n ≠ n then 32 else 0)) := by
  intro v g
  refine ⟨cvtFF_fin (fmtOf_ok dt) mode, fun n => cvtFF_inf _ _ mode, cvtFF_nan _ _ mode, fun _ => ?_, cvtFI_nan _ mode ity,
    fun n => cvtFI_inf _ mode ity, cvtFI_fin _ mode ity, fun _ => ?_⟩
  · rw [← readInt_elem]
    exact cvtIF_yields (fmtOf_ok dt) mode _
  · change narrow ity.signed sat ity.bits (readInt jty.signed jty.bits a) = _
    rw [readInt_elem]
    exact narrow_elem ity sat _

/-- The encoding of a number that is not a NaN, by its place among the table's values. -/
theorem encodeC8_cases {t : BitVec 8192} {sc x : Nat} (h : tableEncodable t) (h0 : sc ≠ 255) :
    let v := fp32.decode x
    let y : Rat := v.mag * 2 ^ (127 - (sc : Int))
    ∃ k,
      (v.isFin → y ≤ magVal (tableMax t) → leastEven 128 (nearest t y) k
        ∧ encodeC8 t x sc = (k + codeSign v, if (entryVal t k).mag = y then 0 else 1))
      ∧ (v.isFin ∧ magVal (tableMax t) < y ∨ v.isInf ∧ (∀ j < 128, (entryVal t j).isInf = false) →
        leastEven 128 (fun j => (entryVal t j).isFin ∧ (entryVal t j).mag = magVal (tableMax t)) k
          ∧ encodeC8 t x sc = (k + codeSign v, 5))
      ∧ (v.isInf → (∃ j < 128, (entryVal t j).isInf) →
        (k < 128 ∧ (entryVal t k).isInf ∧ ∀ j < k, (entryVal t j).isInf = false) ∧ encodeC8 t x sc = (k + codeSign v, 0)) := by
  intro v y
  cases hv : v with
  | nan b => exact ⟨0, nofun, nofun, nofun⟩
  | fin n m e =>
    have hf : v.isFin := by rw [hv]; rfl
    rw [← hv]
    rcases le_or_gt y (magVal (tableMax t)) with hy | hy
    · obtain ⟨k, hk⟩ := encodeC8_nearest h h0 hf hy
      refine ⟨k, fun _ _ => hk, ?_, fun hi => absurd hi (by rw [hv]; nofun)⟩
      rintro (⟨-, hlt⟩ | ⟨hi, -⟩)
      · exact absurd hy hlt.not_ge
      · exact absurd hi (by rw [hv]; nofun)
    · obtain ⟨k, hk⟩ := encodeC8_clamped h h0 (.inl ⟨hf, hy⟩)
      exact ⟨k, fun _ hle => absurd hle hy.not_ge, fun _ => hk, fun hi => absurd hi (by rw [hv]; nofun)⟩
  | inf n =>
    have hi : v.isInf := by rw [hv]; rfl
    have hf : ¬ v.isFin := by rw [hv]; nofun
    rw [← hv]
    by_cases he : ∃ j < 128, (entryVal t j).isInf
    · obtain ⟨k, hk⟩ := encodeC8_infinite h0 hi he
      refine ⟨k, fun hf' => absurd hf' hf, ?_, fun _ _ => hk⟩
      rintro (⟨hf', -⟩ | ⟨-, hn⟩)
      · exact absurd hf' hf
      · obtain ⟨j, hj, hji⟩ := he
        rw [hn j hj] at hji
        exact absurd hji Bool.false_ne_true
    · have hn : ∀ j < 128, (entryVal t j).isInf = false := fun j hj => by
        by_contra hc
        exact he ⟨j, hj, Bool.not_eq_false _ ▸ hc⟩
      obtain ⟨k, hk⟩ := encodeC8_clamped h h0 (.inr ⟨hi, hn⟩)
      exact ⟨k, fun hf' => absurd hf' hf, fun _ => hk, fun _ he' => absurd he' he⟩

/-- Settles O49: a lemma for each instruction, conversions by `convert_rounds`, codes by the lemmas on `C8`. -/
theorem vectorElementsAreMovedReducedAndConverted : Obligations.VectorElementsAreMovedReducedAndConverted := by
  unfold Obligations.VectorElementsAreMovedReducedAndConverted
  intro s i h vec byte fills gives flags
  refine ⟨?_, ?_, ?_, ?_, ?_, ?_, ?_, ?_, ?_, ?_, ?_, ?_, ?_, ?_, ?_, ?_,
    fun mode sat dt st ity jty a _ => convert_rounds mode sat dt st ity jty a, ?_⟩
  · rintro d a b rfl
    exact vperm_fills h
  · rintro ty d a rfl
    exact vbcast_fills h
  · rintro ty d a n rfl hn
    exact vins_fills h hn
  · rintro d a b c rfl
    exact fills_of h rfl rfl rfl rfl
  · rintro d a rfl
    exact fills_of h rfl rfl rfl rfl
  · rintro t d a n rfl
    exact vext_int_gives h
  · rintro t d a n rfl
    exact vext_flt_gives h
  · rintro t rm sat d a rfl
    exact vsum_int_gives h
  · rintro t rm sat d a rfl
    exact gives_of h rfl rfl rfl rfl
  · exact fun t d a greater hi => vr_int_gives h hi
  · rintro t d a greater (⟨rfl, rfl⟩ | ⟨rfl, rfl⟩)
    · exact gives_of h rfl rfl rfl rfl
    · exact gives_of h rfl rfl rfl rfl
  · rintro dt st rm sat d a p rfl
    exact vcvt_fills h
  · rintro dt rm d a b t p rfl
    exact vdec_fills h
  · rintro auto d a b t p rfl
    exact venc_leaves h
  · rintro rm d a b t p rfl
    exact vscl_fills h
  · rintro d a t p rfl
    exact vsauto_fills h
  · intro t rm c sc x xs _ _
    exact ⟨decodeC8_nan, fun n => decodeC8_inf, decodeC8_fin, fun k => mag_le_tableMax, tableMax_attained, autoScale_nan,
      autoScale_inf, autoScale_least, encodeC8_nan, encodeC8_cases⟩

end Sys2Proof.Machine
end

section
/-!
PROOFS. Operands of the matrix engine in local memory (R175): a run of bytes read, and written, atom by atom.
-/

namespace Sys2Proof.Machine

/-! ### Numbers cut from little-endian bytes -/

theorem readLE_below (m : List Host.Cell) (k n : Nat) : readLE m k n < 256 ^ n := by
  induction n generalizing k with
  | zero => simp [readLE]
  | succ n ih =>
    have h1 := (readByte m k).isLt
    have h2 := ih (k + 1)
    rw [readLE, Nat.pow_succ]
    omega

theorem readLE_part (m : List Host.Cell) (k : Nat) {n j l : Nat} (h : j + l ≤ n) :
    readLE m k n / 256 ^ j % 256 ^ l = readLE m (k + j) l := by
  obtain ⟨r, rfl⟩ := Nat.exists_eq_add_of_le h
  have h1 := readLE_below m k j
  have h2 := readLE_below m (k + j) l
  rw [readLE_add, readLE_add, Nat.pow_add, Nat.mul_assoc, Nat.add_assoc, ← Nat.mul_add, Nat.add_mul_div_left _ _ (by positivity),
    Nat.div_eq_of_lt h1,
    Nat.zero_add, Nat.add_mul_mod_self_left, Nat.mod_eq_of_lt h2]

/-- A field of a bit vector that holds bytes of memory. -/
theorem extract_readLE (m : List Host.Cell) (k : Nat) {N n j l : Nat} (hN : 8 * n ≤ N) (h : j + l ≤ n) :
    (BitVec.ofNat N (readLE m k n)).extractLsb' (8 * j) (8 * l) = BitVec.ofNat (8 * l) (readLE m (k + j) l) := by
  apply BitVec.eq_of_toNat_eq
  have hlt : readLE m k n < 2 ^ N := (readLE_below m k n).trans_le (by
    rw [show 256 = 2 ^ 8 by norm_num, ← Nat.pow_mul]
    exact Nat.pow_le_pow_right two_pos hN)
  have h256 (i : Nat) : 2 ^ (8 * i) = 256 ^ i := by rw [Nat.pow_mul]
  rw [BitVec.extractLsb'_toNat, BitVec.toNat_ofNat, Nat.mod_eq_of_lt hlt, Nat.shiftRight_eq_div_pow, h256, h256, readLE_part m k h,
    BitVec.toNat_ofNat, h256, Nat.mod_eq_of_lt (readLE_below _ _ _)]

theorem extract_byte (m : List Host.Cell) (k : Nat) {N n j : Nat} (hN : 8 * n ≤ N) (h : j < n) :
    (BitVec.ofNat N (readLE m k n)).extractLsb' (8 * j) 8 = readByte m (k + j) := by
  refine (extract_readLE m k (j := j) (l := 1) hN h).trans (BitVec.eq_of_toNat_eq ?_)
  simp [readLE]

/-! ### Atoms in range and without an error -/

/-- An atom that the matrix engine reads or writes without more ado. -/
def atomOk (s : State) (l : Launch) (c : Nat) (x : Word) : Prop := matOor l c x = false ∧ s.sound (localKeyOf l c x) 32

section
variable {s : State} {l : Launch} {c : Nat} {a : Word} {n : Nat}

theorem OwnRun.atomOk (h : OwnRun s l c a 32) : atomOk s l c a := by
  obtain ⟨hloc, hown, hin, -, hs⟩ := h
  refine ⟨?_, by simpa using hs 0 (by omega)⟩
  simp [matOor, hloc, hown, hin]

theorem matBad_none {as_ : List Word} (h : ∀ x ∈ as_, atomOk s l c x) : s.matBad l c as_ = none := by
  refine List.find?_eq_none.2 fun x hx => ?_
  simp [isBad_of_sound (h x hx).2]

theorem matTouch_self {as_ : List Word} (tid : Nat) (h : ∀ x ∈ as_, atomOk s l c x) : s.matTouch l c tid as_ = s := by
  unfold State.matTouch
  induction as_ with
  | nil => rfl
  | cons x r ih =>
    obtain ⟨ho, hs⟩ := h x List.mem_cons_self
    rw [List.foldl_cons, ho, corrected_of_sound hs]
    exact ih fun y hy => h y (List.mem_cons_of_mem _ hy)

/-- The atoms of a run of i to i + m. -/
def runAtoms (a : Word) (i m : Nat) : List Word := (List.range' i m).map fun k => a + BitVec.ofNat 64 (32 * k)

theorem matAtoms_eq (a : Word) (m : Nat) : matAtoms a (32 * m) = runAtoms a 0 m := by
  rw [matAtoms, runAtoms, Nat.mul_div_cancel_left m (by norm_num), List.range_eq_range']

theorem runAtoms_ok {i m : Nat} (h : OwnRun s l c a (32 * (i + m))) : ∀ x ∈ runAtoms a i m, atomOk s l c x := by
  intro x hx
  obtain ⟨k, hk, rfl⟩ := List.mem_map.1 hx
  have hk := List.mem_range'_1.1 hk
  exact (h.atom (j := k) (by omega)).1.atomOk

theorem matRead_run {i m : Nat} (h : OwnRun s l c a (32 * (i + m))) :
    s.matRead l c (runAtoms a i m) = readLE s.mem (localKeyOf l c a + 32 * i) (32 * m) := by
  induction m generalizing i with
  | zero => rfl
  | succ m ih =>
    obtain ⟨hatom, hkey⟩ := h.atom (j := i) (by omega)
    have hrest := ih (i := i + 1) (by rwa [show i + 1 + m = i + (m + 1) by omega])
    have hcons : runAtoms a i (m + 1) = (a + BitVec.ofNat 64 (32 * i)) :: runAtoms a (i + 1) m := rfl
    rw [State.matRead] at hrest ⊢
    rw [hcons, List.foldr_cons, hrest, hatom.atomOk.1, hkey, show 32 * (m + 1) = 32 + 32 * m by ring, readLE_add, State.load,
      show 32 * (i + 1) = 32 * i + 32 by ring, Nat.add_assoc]
    rfl

theorem matRead_own {m : Nat} (h : OwnRun s l c a (32 * m)) :
    s.matRead l c (matAtoms a (32 * m)) = readLE s.mem (localKeyOf l c a) (32 * m) := by
  rw [matAtoms_eq, matRead_run (by rwa [Nat.zero_add])]
  rfl

theorem matAtoms_ok {m : Nat} (h : OwnRun s l c a (32 * m)) : ∀ x ∈ matAtoms a (32 * m), atomOk s l c x := by
  rw [matAtoms_eq]
  exact runAtoms_ok (by rwa [Nat.zero_add])

/-! ### Slices (R175) -/

theorem matSize_eq (f : MatFmt) : matSize f = 32 * (matSize f / 32) := by cases f <;> rfl

theorem matSize_pos (f : MatFmt) : 0 < matSize f := by cases f <;> decide

theorem matSize_le (f : MatFmt) : 8 * matSize f ≤ 1280 := by cases f <;> decide

/-- Slice k of a run of slices. -/
theorem OwnRun.slice {f : MatFmt} {k m : Nat} (h : OwnRun s l c a (matSize f * m)) (hk : k < m) :
    OwnRun s l c (a + BitVec.ofNat 64 (matSize f * k)) (matSize f)
      ∧ localKeyOf l c (a + BitVec.ofNat 64 (matSize f * k)) = localKeyOf l c a + matSize f * k := by
  have he : matSize f * k = 32 * (matSize f / 32 * k) := by rw [← Nat.mul_assoc, ← matSize_eq]
  have hle : matSize f * k + matSize f ≤ matSize f * m := by
    rw [← Nat.mul_succ]
    exact Nat.mul_le_mul_left _ hk
  rw [he] at hle ⊢
  exact h.part (matSize_pos f) hle

theorem slice_eq {f : MatFmt} {k m : Nat} (h : OwnRun s l c a (matSize f * m)) (hk : k < m) :
    s.slice l c f a k = BitVec.ofNat 1280 (readLE s.mem (localKeyOf l c a + matSize f * k) (matSize f)) := by
  obtain ⟨hs, hkey⟩ := h.slice hk
  rw [State.slice, matSize_eq f] at *
  rw [matRead_own hs, hkey]

theorem slice_ok {f : MatFmt} {k m : Nat} (h : OwnRun s l c a (matSize f * m)) (hk : k < m) :
    ∀ x ∈ matAtoms (a + BitVec.ofNat 64 (matSize f * k)) (matSize f), atomOk s l c x := by
  have hs := (h.slice hk).1
  rw [matSize_eq f] at hs ⊢
  exact matAtoms_ok hs

theorem slice_byte {f : MatFmt} {k m j : Nat} (h : OwnRun s l c a (matSize f * m)) (hk : k < m) (hj : j < matSize f) :
    (s.slice l c f a k).extractLsb' (8 * j) 8 = readByte s.mem (localKeyOf l c a + matSize f * k + j) := by
  rw [slice_eq h hk, extract_byte _ _ (matSize_le f) hj]

/-! ### Writing (R180) -/

/-- Memory after atoms have been written one behind the other. -/
def writeAtoms (m : List Host.Cell) (k : Nat) : List Nat → List Host.Cell
  | [] => m
  | x :: r => writeAtoms (writeLE m k 32 x) (k + 32) r

theorem readByte_writeAtoms_out (m : List Host.Cell) (k : Nat) (xs : List Nat) {j : Nat} (h : j < k ∨ k + 32 * xs.length ≤ j) :
    readByte (writeAtoms m k xs) j = readByte m j := by
  induction xs generalizing m k with
  | nil => rfl
  | cons x r ih =>
    rw [List.length_cons] at h
    rw [writeAtoms, ih _ _ (by omega), readByte_writeLE_out _ _ _ _ _ (by omega)]

theorem readLE_writeAtoms_before (m : List Host.Cell) {k : Nat} (xs : List Nat) {j n : Nat} (h : j + n ≤ k) :
    readLE (writeAtoms m k xs) j n = readLE m j n :=
  readLE_congr j n fun i _ hi => readByte_writeAtoms_out m k xs (.inl (by omega))

/-- Bytes of one of the atoms written. -/
theorem readLE_writeAtoms (m : List Host.Cell) (k : Nat) (xs : List Nat) {i off n : Nat} (hi : i < xs.length) (h : off + n ≤ 32) :
    readLE (writeAtoms m k xs) (k + 32 * i + off) n = xs[i] / 256 ^ off % 256 ^ n := by
  induction xs generalizing m k i with
  | nil => exact absurd hi (Nat.not_lt_zero _)
  | cons x r ih =>
    cases i with
    | zero =>
      have hd : 256 ^ n ∣ 256 ^ (32 - off) := pow_dvd_pow _ (by omega)
      rw [writeAtoms, show k + 32 * 0 + off = k + off by omega, readLE_writeAtoms_before _ _ (by omega), ← readLE_part _ k h,
        readLE_writeLE_self, List.getElem_cons_zero, ← Nat.add_sub_cancel' (show off ≤ 32 by omega), Nat.pow_add,
        Nat.mod_mul_right_div_self, Nat.mod_mod_of_dvd _ hd]
    | succ i =>
      rw [writeAtoms, show k + 32 * (i + 1) + off = k + 32 + 32 * i + off by ring, ih _ _ (Nat.lt_of_succ_lt_succ hi)]
      rfl

theorem matWrite_run (tid i : Nat) (xs : List Nat) (m : List Host.Cell) (h : OwnRun s l c a (32 * (i + xs.length))) :
    ((List.range' i xs.length).zip xs).foldl (fun (s : State) (p : Nat × Nat) =>
        let x := a + BitVec.ofNat 64 (32 * p.1)
        if matOor l c x then s.modThread tid fun t => t.note x
        else
          let key := localKeyOf l c x
          (s.healed key 32).store key 32 p.2) ({ s with mem := m } : State)
      = { s with mem := writeAtoms m (localKeyOf l c a + 32 * i) xs } := by
  induction xs generalizing i m with
  | nil => rfl
  | cons x r ih =>
    rw [List.length_cons] at h
    obtain ⟨hatom, hkey⟩ := h.atom (j := i) (by omega)
    obtain ⟨hin, hs⟩ := hatom.atomOk
    have hs' : ({ s with mem := m } : State).sound (localKeyOf l c (a + BitVec.ofNat 64 (32 * i))) 32 := hs
    rw [List.length_cons, List.range'_succ, List.zip_cons_cons, List.foldl_cons]
    simp only [hin, Bool.false_eq_true, if_false, healed_of_sound hs']
    have := ih (i + 1) (writeLE m (localKeyOf l c a + 32 * i) 32 x) (by rwa [show i + 1 + r.length = i + (r.length + 1) by omega])
    rw [hkey]
    exact this

theorem matWrite_own (tid : Nat) {xs : List Nat} (h : OwnRun s l c a (32 * xs.length)) :
    s.matWrite l c tid a xs = { s with mem := writeAtoms s.mem (localKeyOf l c a) xs } := by
  rw [State.matWrite, List.range_eq_range']
  exact matWrite_run tid 0 xs s.mem (by rwa [Nat.zero_add])

end

end Sys2Proof.Machine
end

section
/-!
PROOFS. Steps of the matrix engine (O52): the completion of a command, the product step of an `mrot`, the end of its exchange.
-/

namespace Sys2Proof.Machine

/-! ### A command leaves the queue (R182) -/

section
variable {s : State} {c : Nat} {x : MatCmd} {rest : List MatCmd} {last st : Nat} {t : Thread}

/-- The thread of a command goes on, with its flags. -/
def Thread.released (t : Thread) (x : MatCmd) (fl : FlagBits) : Thread := t.goesOn.raised fl x.pc x.order

theorem unitOf_alone (h : t.gang = false) : t.unitOf = none := by
  unfold Thread.unitOf
  cases t.bundle with
  | none => rfl
  | some b => simp [h]

theorem matLeave_plain (ht : tget s.threads x.tid = some t) (hw : t.wait = some (.matrix x.num)) (hl : x.last = some last)
    (fl : FlagBits) : s.matLeave c x fl none = { s.modCore c fun y => y.removeMat x.num (last + 1) with
      threads := tput s.threads x.tid (t.released x fl) } := by
  have ht' : (s.modCore c fun y => y.removeMat x.num (last + 1)).thread? x.tid = some t := ht
  have hr : t.receive [] [] = t.goesOn := rfl
  simp only [State.matLeave, hl, Option.getD_some, ht', hw, bne_self_eq_false, Bool.false_eq_true, if_false,
    State.modThread_of _ (fun t : Thread => t.receive [] []) (show tget _ x.tid = some t from ht'), hr]
  exact engineFlags_put (s.modCore c fun y => y.removeMat x.num (last + 1)) _ x.tid (t := t.goesOn) rfl fl x.pc x.order

theorem matLeave_vector (ht : tget s.threads x.tid = some t) (hw : t.wait = some (.matrix x.num)) (hg : t.gang = false)
    (hl : x.last = some last) (fl : FlagBits) {d : Nat} (hd : t.regs.fullDst (32 + d) = false) (v : Vec) :
    s.matLeave c x fl (some (d, v)) = { s.modCore c fun y => y.removeMat x.num (last + 1) with
      threads := tput s.threads x.tid ({ t with regs := t.regs.setDst (32 + d) v }.released x fl) } := by
  have ht' : (s.modCore c fun y => y.removeMat x.num (last + 1)).thread? x.tid = some t := ht
  have hr (t : Thread) : t.receive [] [] = t.goesOn := rfl
  simp only [State.matLeave, hl, Option.getD_some, ht', hw, bne_self_eq_false, Bool.false_eq_true, if_false,
    fillFor_open (show tget _ x.tid = some t from ht') hd, State.modThread, tmod_tput, hr, postReplyOnce_alone (unitOf_alone hg)]
  exact engineFlags_put (s.modCore c fun y => y.removeMat x.num (last + 1)) _ x.tid
    (t := ({ t with regs := t.regs.setDst (32 + d) v } : Thread).goesOn) rfl fl x.pc x.order

/-! ### The step of the head command -/

section
variable (hq : (s.core c).matQ = x :: rest)
include hq

theorem matrix_completes (hp : x.phase = .queued) (hop : x.op.isRot = false) (hl : x.last = some last) (h : last + 4 ≤ s.clock)
    (ht : tget s.threads x.tid = some t) (hok : s.matBad (s.launchOf t) c x.op.reads = none) :
    exec (.matrixComplete c) s = .next ((s.matEffect (s.launchOf t) c x).1.matLeave c x
      (s.matEffect (s.launchOf t) c x).2.1 (s.matEffect (s.launchOf t) c x).2.2) := by
  have hlf : s.launchFor x.tid = s.launchOf t := by
    have ht' : s.thread? x.tid = some t := ht
    simp only [State.launchFor, ht']
  change Host.Outcome.next (matrixStep c s) = _
  rw [matrixStep, hq]
  simp only [hp, hl]
  cases hx : x.op with
  | rot d src f sat => simp [hx, MatOp.isRot] at hop
  | _ =>
    rw [hx] at hok
    simp only [hlf, hok, if_neg (show ¬ s.clock < last + 4 by omega)]

theorem rot_steps {d : Nat} {src : Option (Word × Word)} {f : MatFmt} {sat : Bool} (hp : x.phase = .queued)
    (hop : x.op = .rot d src f sat) (hs : x.start = some st) (h : st < s.clock) :
    exec (.matrixComplete c) s = .next (s.rotStep c x d src f sat) := by
  change Host.Outcome.next (matrixStep c s) = _
  rw [matrixStep, hq]
  simp only [hp, hop, hs, if_neg (show ¬ s.clock < st + 1 by omega)]

theorem rot_waits {d : Nat} {src : Option (Word × Word)} {f : MatFmt} {sat : Bool} (hp : x.phase = .queued)
    (hop : x.op = .rot d src f sat) (hs : x.start = some st) (h : s.clock ≤ st) : exec (.matrixComplete c) s = .next s := by
  change Host.Outcome.next (matrixStep c s) = _
  rw [matrixStep, hq]
  simp only [hp, hop, hs, if_pos (show s.clock < st + 1 by omega)]

theorem exchange_ends {a b : BitVec 1280} (hp : x.phase = .exchange false false) (ha : (s.core c).incA = some a)
    (hb : (s.core c).incB = some b) : exec (.matrixComplete c) s = .next (s.modCore c fun y =>
      ({ y with curA := a, curB := b, incA := none, incB := none } : Core).modMat x.num fun m =>
        { m with phase := .ending, last := some s.clock }) := by
  change Host.Outcome.next (matrixStep c s) = _
  rw [matrixStep, hq]
  simp only [hp, State.rotEnd, ha, hb]

theorem ending_waits (hp : x.phase = .ending) (hl : x.last = some last) (h : s.clock < last + 4) :
    exec (.matrixComplete c) s = .next s := by
  change Host.Outcome.next (matrixStep c s) = _
  rw [matrixStep, hq]
  simp only [hp, hl, if_pos h]

theorem ending_completes (hp : x.phase = .ending) (hl : x.last = some last) (h : last + 4 ≤ s.clock)
    (ht : tget s.threads x.tid = some t) (hw : t.wait = some (.matrix x.num)) :
    exec (.matrixComplete c) s = .next { s.modCore c fun y => y.removeMat x.num (last + 1) with
      threads := tput s.threads x.tid (t.released x x.flags) } := by
  change Host.Outcome.next (matrixStep c s) = _
  rw [matrixStep, hq]
  simp only [hp, hl, if_neg (show ¬ s.clock < last + 4 by omega), matLeave_plain ht hw hl]

end

end

end Sys2Proof.Machine
end

section
/-!
PROOFS. What each command of the matrix engine leaves when it completes (O52, R177 to R180).
-/

namespace Sys2Proof.Machine

/-! ### Elements as `mmov` delivers them (R180) -/

theorem mmovElem_eq (ty : FloatTy) (rm : Rm) (y : Nat) :
    mmovElem ty rm y = if ty = .f32 then (y, 0) else convert (.flt ty) (.flt .f32) rm false y := by cases ty <;> rfl

theorem packElems_part {w : Nat} {xs : List Nat} {j : Nat} (hj : j < xs.length) :
    packElems w xs / 2 ^ (w * j) % 2 ^ w = xs[j] % 2 ^ w := by
  refine Nat.eq_of_testBit_eq fun b => ?_
  simp only [Nat.testBit_mod_two_pow, Nat.testBit_div_two_pow]
  by_cases hb : b < w
  · rw [Nat.add_comm, packElems_testBit hj hb]
  · simp [hb]

/-- Bytes of an element, and elements of an atom. -/
theorem floatBits_split (ty : FloatTy) : ∃ b, ty.bits = 8 * b ∧ 256 / ty.bits * b = 32
    ∧ 64 / (256 / ty.bits) * (256 / ty.bits) = 64 := by
  cases ty
  · exact ⟨2, rfl, rfl, rfl⟩
  · exact ⟨2, rfl, rfl, rfl⟩
  · exact ⟨4, rfl, rfl, rfl⟩

theorem length_mmovAtoms (ty : FloatTy) (rm : Rm) (acc : BitVec 2048) : 32 * (mmovAtoms ty rm acc).length = 8 * ty.bits := by
  cases ty <;> rfl

theorem store_elem (m : List Host.Cell) (key : Nat) (ty : FloatTy) (rm : Rm) (acc : BitVec 2048) {k : Nat} (hk : k < 64) :
    readLE (writeAtoms m key (mmovAtoms ty rm acc)) (key + k * ty.bits / 8) (ty.bits / 8)
      = (mmovElem ty rm (accElem acc k)).1 % 2 ^ ty.bits := by
  obtain ⟨b, hb, hper, htot⟩ := floatBits_split ty
  have hpos : 0 < 256 / ty.bits := Nat.pos_of_ne_zero fun h => by rw [h] at hper; omega
  have hlow := Nat.mod_lt k hpos
  have hi : k / (256 / ty.bits) < (mmovAtoms ty rm acc).length := by
    rw [mmovAtoms, List.length_map, List.length_range]
    exact Nat.div_lt_of_lt_mul (by rw [Nat.mul_comm, htot]; exact hk)
  have hat : key + k * ty.bits / 8 = key + 32 * (k / (256 / ty.bits)) + k % (256 / ty.bits) * b := by
    have h1 : k * ty.bits / 8 = k * b := by rw [hb, Nat.mul_left_comm, Nat.mul_div_cancel_left _ (by norm_num)]
    have h2 : k * b = (256 / ty.bits * b) * (k / (256 / ty.bits)) + k % (256 / ty.bits) * b := by
      conv_lhs => rw [← Nat.div_add_mod k (256 / ty.bits)]
      ring
    rw [h1, h2, hper, Nat.add_assoc]
  have hoff : k % (256 / ty.bits) * b + b ≤ 32 := by
    rw [← hper, ← Nat.succ_mul]
    exact Nat.mul_le_mul_right b hlow
  have hlen : k % (256 / ty.bits)
      < ((mmovElems ty rm acc (256 / ty.bits * (k / (256 / ty.bits))) (256 / ty.bits)).map Prod.fst).length := by
    rw [List.length_map, mmovElems, List.length_map, List.length_range]
    exact hlow
  have hpow (j : Nat) : 256 ^ (j * b) = 2 ^ (ty.bits * j) := by
    rw [hb, show 256 = 2 ^ 8 by norm_num, ← Nat.pow_mul]
    ring_nf
  have hone : 256 ^ b = 2 ^ ty.bits := by simpa using hpow 1
  rw [hat, show ty.bits / 8 = b by omega, readLE_writeAtoms _ _ _ hi hoff, hpow, hone]
  simp only [mmovAtoms, List.getElem_map, List.getElem_range]
  rw [packElems_part hlen]
  simp only [mmovElems, List.getElem_map, List.getElem_range, Nat.div_add_mod]

/-! ### Commands other than `mrot` -/

/-- The machine once a command has left the queue and its thread goes on. -/
def State.matDone (s : State) (c : Nat) (x : MatCmd) (last : Nat) (t : Thread) (fl : FlagBits) : State :=
  { s.modCore c fun y => y.removeMat x.num (last + 1) with threads := tput s.threads x.tid (t.released x fl) }

theorem mma_reads {s : State} {c : Nat} {x : MatCmd} {t : Thread} {d n : Nat} {a b : Word} {f : MatFmt} {sat : Bool}
    (hop : x.op = .mma d a b f sat n) (ha : OwnRun s (s.launchOf t) c a (matSize f * n))
    (hb : OwnRun s (s.launchOf t) c b (matSize f * n)) : ∀ y ∈ x.op.reads, atomOk s (s.launchOf t) c y := by
  intro y hy
  rw [hop] at hy
  obtain ⟨k, hk, hy⟩ := List.mem_flatMap.1 hy
  rcases List.mem_append.1 hy with hy | hy
  · exact slice_ok ha (List.mem_range.1 hk) y hy
  · exact slice_ok hb (List.mem_range.1 hk) y hy

section
variable {s : State} {c : Nat} {x : MatCmd} {rest : List MatCmd} {last : Nat} {t : Thread} (hq : (s.core c).matQ = x :: rest)
  (hp : x.phase = .queued) (hl : x.last = some last) (h : last + 4 ≤ s.clock) (ht : tget s.threads x.tid = some t)
  (hw : t.wait = some (.matrix x.num))
include hq hp hl h ht hw

/-- A command that leaves no `v` value, whose operands carry no error. -/
theorem matrix_done (hop : x.op.isRot = false) (hok : ∀ y ∈ x.op.reads, atomOk s (s.launchOf t) c y) {u : State} {fl : FlagBits}
    (he : s.matEffect (s.launchOf t) c x = (u, fl, none)) (hu : u.threads = s.threads) :
    exec (.matrixComplete c) s = .next (u.matDone c x last t fl) := by
  rw [matrix_completes hq hp hop hl h ht (matBad_none hok), he]
  exact congrArg _ (matLeave_plain (by rw [hu]; exact ht) hw hl fl)

theorem mzero_completes {d : Nat} (hop : x.op = .zero d) :
    exec (.matrixComplete c) s = .next ((s.modCore c fun y => y.setAcc d 0).matDone c x last t 0) := by
  refine matrix_done hq hp hl h ht hw (by rw [hop]; rfl) (by rw [hop]; nofun) ?_ rfl
  simp only [State.matEffect, hop]
  rfl

theorem mma_completes {d n : Nat} {a b : Word} {f : MatFmt} {sat : Bool} (hop : x.op = .mma d a b f sat n)
    (ha : OwnRun s (s.launchOf t) c a (matSize f * n)) (hb : OwnRun s (s.launchOf t) c b (matSize f * n)) :
    let steps := s.mmaSteps (s.launchOf t) c f sat ((s.core c).tableOf x.bank) a b n 0 ((s.core c).acc d, 0)
    exec (.matrixComplete c) s = .next ((s.modCore c fun y => { y.setAcc d steps.1 with
      curA := s.slice (s.launchOf t) c f a (n - 1), curB := s.slice (s.launchOf t) c f b (n - 1) }).matDone c x last t steps.2) := by
  intro steps
  have hok := mma_reads hop ha hb
  refine matrix_done hq hp hl h ht hw (by rw [hop]; rfl) hok ?_ rfl
  simp only [State.matEffect, matTouch_self x.tid hok]
  rw [hop]

theorem load_completes {d : Nat} {a : Word} (hop : x.op = .load d a) (ha : OwnRun s (s.launchOf t) c a 256) :
    exec (.matrixComplete c) s = .next ((s.modCore c fun y => y.setAcc d
      (BitVec.ofNat 2048 (readLE s.mem (localKeyOf (s.launchOf t) c a) 256))).matDone c x last t 0) := by
  have hok : ∀ y ∈ x.op.reads, atomOk s (s.launchOf t) c y := by
    rw [hop]
    exact matAtoms_ok (m := 8) ha
  refine matrix_done hq hp hl h ht hw (by rw [hop]; rfl) hok ?_ rfl
  simp only [State.matEffect, matTouch_self x.tid hok]
  rw [hop]
  simp only [matRead_own (m := 8) ha]

theorem store_completes {a : Word} {n : Nat} {ty : FloatTy} {rm : Rm} (hop : x.op = .store a n ty rm)
    (ha : OwnRun s (s.launchOf t) c a (8 * ty.bits)) :
    exec (.matrixComplete c) s = .next (({ s with
      mem := writeAtoms s.mem (localKeyOf (s.launchOf t) c a) (mmovAtoms ty rm ((s.core c).acc n)) } : State).matDone c x last t
        (flagsOf (mmovElems ty rm ((s.core c).acc n) 0 64))) := by
  have hok : ∀ y ∈ x.op.reads, atomOk s (s.launchOf t) c y := by
    rw [hop]
    nofun
  rw [← length_mmovAtoms ty rm ((s.core c).acc n)] at ha
  refine matrix_done hq hp hl h ht hw (by rw [hop]; rfl) hok ?_ rfl
  simp only [State.matEffect, matTouch_self x.tid hok]
  rw [hop]
  simp only [matWrite_own x.tid ha]

theorem toV_completes {d n row : Nat} {ty : FloatTy} {rm : Rm} (hop : x.op = .toV d n row ty rm) (hg : t.gang = false)
    (hd : t.regs.fullDst (32 + d) = false) :
    let r := (List.range (256 / ty.bits)).map fun k => mmovElem ty rm (accElem ((s.core c).acc n) (8 * row + k))
    exec (.matrixComplete c) s = .next { s.modCore c fun y => y.removeMat x.num (last + 1) with
      threads := tput s.threads x.tid ({ t with regs := t.regs.setDst (32 + d) (gather ty.bits r).1 }.released x (flagsOf r)) } := by
  intro r
  have hok : ∀ y ∈ x.op.reads, atomOk s (s.launchOf t) c y := by
    rw [hop]
    nofun
  have he : s.matEffect (s.launchOf t) c x = (s, flagsOf r, some (d, (gather ty.bits r).1)) := by
    simp only [State.matEffect, matTouch_self x.tid hok]
    rw [hop]
    rfl
  rw [matrix_completes hq hp (by rw [hop]; rfl) hl h ht (matBad_none hok), he]
  exact congrArg _ (matLeave_vector ht hw hg hl _ hd _)

end

/-! ### The product step of an `mrot` (R178) -/

theorem rotStep_latches {s : State} {c d : Nat} {x : MatCmd} {f : MatFmt} {sat : Bool} (hop : x.op = .rot d none f sat) :
    let r := productStep f sat ((s.core c).tableOf x.bank) ((s.core c).acc d) (s.core c).curA (s.core c).curB
    s.rotStep c x d none f sat = s.modCore c fun y => (y.setAcc d r.1).modMat x.num fun m =>
      { m with phase := .exchange true true, flags := r.2 } := by
  intro r
  have hkept (v : BitVec 2048) : ({ (s.core c).setAcc d v with curA := (s.core c).curA, curB := (s.core c).curB } : Core)
      = (s.core c).setAcc d v := by
    unfold Core.setAcc
    split <;> rfl
  simp only [State.rotStep, hop]
  change s.setCore c (({ (s.core c).setAcc d r.1 with curA := (s.core c).curA, curB := (s.core c).curB } : Core).modMat _ _) = _
  rw [hkept]
  rfl

theorem rotStep_memory {s : State} {c d : Nat} {x : MatCmd} {a b : Word} {f : MatFmt} {sat : Bool} {t : Thread}
    (hop : x.op = .rot d (some (a, b)) f sat) (ht : tget s.threads x.tid = some t)
    (ha : OwnRun s (s.launchOf t) c a (matSize f)) (hb : OwnRun s (s.launchOf t) c b (matSize f)) :
    let sa := s.slice (s.launchOf t) c f a 0
    let sb := s.slice (s.launchOf t) c f b 0
    let r := productStep f sat ((s.core c).tableOf x.bank) ((s.core c).acc d) sa sb
    s.rotStep c x d (some (a, b)) f sat = s.modCore c fun y => ({ y.setAcc d r.1 with curA := sa, curB := sb } : Core).modMat
      x.num fun m => { m with phase := .exchange true true, flags := r.2 } := by
  intro sa sb r
  have hlf : s.launchFor x.tid = s.launchOf t := by
    have ht' : s.thread? x.tid = some t := ht
    simp only [State.launchFor, ht']
  have hok : ∀ y ∈ x.op.reads, atomOk s (s.launchOf t) c y := by
    rw [hop]
    intro y hy
    rw [matSize_eq] at ha hb
    rcases List.mem_append.1 hy with hy | hy
    · rw [matSize_eq] at hy
      exact matAtoms_ok ha y hy
    · rw [matSize_eq] at hy
      exact matAtoms_ok hb y hy
  simp only [State.rotStep, hlf, matBad_none hok, matTouch_self x.tid hok]
  rfl

end Sys2Proof.Machine
end

section
/-!
PROOFS. The product step of the matrix engine (R80, R177): sums of integers, and groups of floats, element by element.
-/

namespace Sys2Proof.Machine

/-! ### The elements of a result -/

theorem acc_elem (r : Nat → Nat × FlagBits) {i j : Nat} (hi : i < 8) (hj : j < 8) :
    (accOf (((List.range 64).map r).map Prod.fst)).extractLsb' (32 * (8 * i + j)) 32 = BitVec.ofNat 32 (r (8 * i + j)).1 := by
  rw [accOf, extract_pack (by simp) (by simp; omega)]
  simp

/-- Element (i, j) as number 8i + j. -/
theorem exists_elem {p : Nat → Prop} : (∃ n < 64, p n) ↔ ∃ i < 8, ∃ j < 8, p (8 * i + j) := by
  constructor
  · rintro ⟨n, hn, h⟩
    exact ⟨n / 8, by omega, n % 8, by omega, by rwa [Nat.div_add_mod]⟩
  · rintro ⟨i, hi, j, hj, h⟩
    exact ⟨8 * i + j, by omega, h⟩

/-- A row and a column, number by number. -/
theorem getD_map_range {α : Type} (g : Nat → List α) {n i : Nat} (hi : i < n) : ((List.range n).map g).getD i [] = g i := by
  simp [hi]

theorem foldl_flags_bit {α : Type} (g : α → FlagBits) (l : List α) (fl : FlagBits) (b : Nat) :
    (l.foldl (fun f x => f ||| g x) fl).getLsbD b = true ↔ fl.getLsbD b = true ∨ ∃ x ∈ l, (g x).getLsbD b = true := by
  induction l generalizing fl with
  | nil => simp
  | cons x l ih =>
    rw [List.foldl_cons, ih, BitVec.getLsbD_or, Bool.or_eq_true, or_assoc]
    simp

theorem flagsOf_bit (r : Nat → Nat × FlagBits) (b : Nat) :
    (flagsOf ((List.range 64).map r)).getLsbD b = true ↔ ∃ i < 8, ∃ j < 8, (r (8 * i + j)).2.getLsbD b = true := by
  rw [← exists_elem (p := fun n => (r n).2.getLsbD b = true), flagsOf, foldl_flags_bit]
  simp

/-! ### Integers -/

/-- A row of slice a times a column of slice b, and the element they are added to. -/
def intSum (ty : IntTy) (acc : BitVec 2048) (a b : BitVec 1280) (i j : Nat) : Int :=
  elemInt .i32 (acc.extractLsb' (32 * (8 * i + j)) 32)
    + ((List.range 16).map fun k =>
        (if ty = .i8 then (a.extractLsb' (8 * (16 * i + k)) 8).toInt * (b.extractLsb' (8 * (16 * j + k)) 8).toInt
          else ((a.extractLsb' (8 * (16 * i + k)) 8).toNat : Int) * (b.extractLsb' (8 * (16 * j + k)) 8).toNat)).sum

/-- The result of an element: its exact sum, wrapped or clamped. -/
def intElem (ty : IntTy) (sat : Bool) (acc : BitVec 2048) (a b : BitVec 1280) (n : Nat) : Nat × FlagBits :=
  narrow true sat 32 (intSum ty acc a b (n / 8) (n % 8))

section
variable {f : MatFmt} {ty : IntTy} (hf : f = .i8 ∧ ty = .i8 ∨ f = .n8 ∧ ty = .n8)
include hf

theorem sliceInt_mul (a b : BitVec 1280) (i j k : Nat) : sliceInt f a i k * sliceInt f b j k =
    if ty = .i8 then (a.extractLsb' (8 * (16 * i + k)) 8).toInt * (b.extractLsb' (8 * (16 * j + k)) 8).toInt
    else ((a.extractLsb' (8 * (16 * i + k)) 8).toNat : Int) * (b.extractLsb' (8 * (16 * j + k)) 8).toNat := by
  simp only [sliceInt, sliceByte, readInt_eq _ (show 0 < 8 by norm_num), ofNat_self]
  rcases hf with ⟨rfl, rfl⟩ | ⟨rfl, rfl⟩
  · rfl
  · rfl

theorem productStep_int (sat : Bool) (t : BitVec 8192) (acc : BitVec 2048) (a b : BitVec 1280) :
    productStep f sat t acc a b = (accOf (((List.range 64).map (intElem ty sat acc a b)).map Prod.fst),
      flagsOf ((List.range 64).map (intElem ty sat acc a b))) := by
  have hrs : ((List.range 64).map fun n =>
      narrow true sat 32 ((((((List.range 8).map fun i => sliceInts f a i).getD (n / 8) []).zip
        (((List.range 8).map fun j => sliceInts f b j).getD (n % 8) [])).map fun p => p.1 * p.2).foldl (fun x y => x + y)
          (readInt true 32 (accElem acc n)))) = (List.range 64).map (intElem ty sat acc a b) := by
    refine List.map_congr_left fun n hn => ?_
    have hn := List.mem_range.1 hn
    have hK : matK f = 16 := by rcases hf with ⟨rfl, -⟩ | ⟨rfl, -⟩ <;> rfl
    have hacc : readInt true 32 (accElem acc n) = elemInt .i32 (acc.extractLsb' (32 * (8 * (n / 8) + n % 8)) 32) := by
      rw [Nat.div_add_mod]
      exact (readInt_elem .i32 _).trans (by rw [accElem]; exact congrArg _ (ofNat_self _))
    rw [getD_map_range _ (show n / 8 < 8 by omega), getD_map_range _ (show n % 8 < 8 by omega), sliceInts, sliceInts, List.zip_map',
      List.map_map, foldl_add_eq_sum (fun y : Int => y), List.map_id', hacc, hK, intElem, intSum]
    exact congrArg (fun l : List Int => narrow true sat 32 (_ + l.sum)) (List.map_congr_left fun k _ => sliceInt_mul hf a b _ _ k)
  rw [← hrs]
  rcases hf with ⟨rfl, -⟩ | ⟨rfl, -⟩
  · rfl
  · rfl

end

theorem intElem_eq (ty : IntTy) (sat : Bool) (acc : BitVec 2048) (a b : BitVec 1280) {i j : Nat} (hj : j < 8) :
    intElem ty sat acc a b (8 * i + j) =
      ((BitVec.ofInt 32 (if sat then elemClamp .i32 (intSum ty acc a b i j) else intSum ty acc a b i j)).toNat,
        if sat ∧ elemClamp .i32 (intSum ty acc a b i j) ≠ intSum ty acc a b i j then 32 else 0) := by
  have hi : (8 * i + j) / 8 = i := by omega
  have hj : (8 * i + j) % 8 = j := by omega
  rw [intElem, hi, hj]
  exact narrow_elem .i32 sat _

/-- Flags that are all nothing or one flag. -/
theorem flagsOf_one {xs : List (Nat × FlagBits)} {fl : FlagBits} (h : ∀ p ∈ xs, p.2 = 0 ∨ p.2 = fl) (hx : ∃ p ∈ xs, p.2 = fl) :
    flagsOf xs = fl := by
  refine BitVec.eq_of_getLsbD_eq fun b _ => Bool.eq_iff_iff.2 ?_
  rw [flagsOf, foldl_flags_bit]
  constructor
  · rintro (h0 | ⟨p, hp, hb⟩)
    · simp at h0
    · rcases h p hp with h' | h'
      · simp [h'] at hb
      · rwa [h'] at hb
  · intro hb
    obtain ⟨p, hp, rfl⟩ := hx
    exact .inr ⟨p, hp, hb⟩

theorem productStep_sums {f : MatFmt} {ty : IntTy} (hf : f = .i8 ∧ ty = .i8 ∨ f = .n8 ∧ ty = .n8) (sat : Bool) (t : BitVec 8192)
    (acc : BitVec 2048) (a b : BitVec 1280) :
    let r := productStep f sat t acc a b
    let sum := intSum ty acc a b
    (∀ i < 8, ∀ j < 8, r.1.extractLsb' (32 * (8 * i + j)) 32 =
        BitVec.ofInt 32 (if sat then elemClamp .i32 (sum i j) else sum i j))
      ∧ ((∃ i < 8, ∃ j < 8, elemClamp .i32 (sum i j) ≠ sum i j) → r.2 = if sat then 32 else 0)
      ∧ ((∀ i < 8, ∀ j < 8, elemClamp .i32 (sum i j) = sum i j) → r.2 = 0) := by
  intro r sum
  have hflag (n : Nat) : (intElem ty sat acc a b n).2
      = if sat ∧ elemClamp .i32 (sum (n / 8) (n % 8)) ≠ sum (n / 8) (n % 8) then 32 else 0 := by
    rw [← Nat.div_add_mod n 8, intElem_eq ty sat acc a b (Nat.mod_lt _ (by norm_num)), Nat.div_add_mod]
  simp only [r, productStep_int hf]
  refine ⟨fun i hi j hj => ?_, ?_, fun hall => flagsOf_quiet fun p hp => ?_⟩
  · rw [acc_elem _ hi hj, intElem_eq ty sat acc a b hj, ofNat_self]
  · rintro ⟨i, hi, j, hj, hne⟩
    refine flagsOf_one (fun p hp => ?_) ⟨intElem ty sat acc a b (8 * i + j), List.mem_map_of_mem (List.mem_range.2 (by omega)), ?_⟩
    · obtain ⟨n, -, rfl⟩ := List.mem_map.1 hp
      rw [hflag]
      cases sat
      · simp
      · rw [if_pos rfl]
        split
        · exact .inr rfl
        · exact .inl rfl
    · rw [intElem_eq ty sat acc a b hj]
      cases sat
      · simp
      · exact if_pos ⟨rfl, hne⟩
  · obtain ⟨n, hn, rfl⟩ := List.mem_map.1 hp
    have hn := List.mem_range.1 hn
    rw [hflag, if_neg fun h => h.2 (hall _ (by omega) _ (by omega))]

/-! ### Floats -/

/-- Element k of a row of a slice, as the sums of a float step take it. -/
def floatSum (f : MatFmt) (t : BitVec 8192) (acc : BitVec 2048) (a b : BitVec 1280) (i j : Nat) : Nat × FlagBits :=
  groupSum (acc.extractLsb' (32 * (8 * i + j)) 32).toNat
    ((List.range (matK f)).map fun k => ((sliceVal f t a i k).1, (sliceVal f t b j k).1))

/-- The flags that decoding two slices records. -/
def decodeFlags (f : MatFmt) (t : BitVec 8192) (a b : BitVec 1280) : FlagBits :=
  (((List.range 8).map fun i => sliceRow f t a i) ++ ((List.range 8).map fun j => sliceRow f t b j)).foldl
    (fun x r => r.foldl (fun x y => x ||| y.2) x) 0

section
variable {f : MatFmt} (hi : f ≠ .i8) (hn : f ≠ .n8) (sat : Bool) (t : BitVec 8192) (acc : BitVec 2048) (a b : BitVec 1280)

include hi hn in
theorem productStep_float : productStep f sat t acc a b =
    (accOf (((List.range 64).map fun n => floatSum f t acc a b (n / 8) (n % 8)).map Prod.fst),
      flagsOf ((List.range 64).map fun n => floatSum f t acc a b (n / 8) (n % 8)) ||| decodeFlags f t a b) := by
  have hrs : ((List.range 64).map fun n => groupSum (accElem acc n)
      (((((List.range 8).map fun i => sliceRow f t a i).getD (n / 8) []).zip
        (((List.range 8).map fun j => sliceRow f t b j).getD (n % 8) [])).map fun p => (p.1.1, p.2.1)))
      = (List.range 64).map fun n => floatSum f t acc a b (n / 8) (n % 8) := by
    refine List.map_congr_left fun n hn => ?_
    have hn := List.mem_range.1 hn
    rw [getD_map_range _ (show n / 8 < 8 by omega), getD_map_range _ (show n % 8 < 8 by omega), sliceRow, sliceRow, List.zip_map',
      List.map_map, floatSum, Nat.div_add_mod]
    rfl
  rw [← hrs]
  cases f
  case i8 => exact absurd rfl hi
  case n8 => exact absurd rfl hn
  case f16 | bf16 | c8 => rfl

theorem decodeFlags_bit (n : Nat) : (decodeFlags f t a b).getLsbD n = true ↔
    ∃ i < 8, ∃ k < matK f, (sliceVal f t a i k).2.getLsbD n = true ∨ (sliceVal f t b i k).2.getLsbD n = true := by
  have hfold : decodeFlags f t a b = (((List.range 8).map fun i => sliceRow f t a i)
      ++ ((List.range 8).map fun j => sliceRow f t b j)).foldl
        (fun x (r : List (FVal × FlagBits)) => x ||| r.foldl (fun x y => x ||| y.2) 0) 0 := by
    refine congrArg (fun g => List.foldl g 0 _) (funext fun x => funext fun r => ?_)
    exact foldl_flags (fun y : FVal × FlagBits => y.2) r x
  have hmem (x : BitVec 1280) (i : Nat) :
      ((sliceRow f t x i).foldl (fun (x : FlagBits) (y : FVal × FlagBits) => x ||| y.2) 0).getLsbD n = true
      ↔ ∃ k < matK f, (sliceVal f t x i k).2.getLsbD n = true := by
    rw [foldl_flags_bit]
    simp [sliceRow]
  rw [hfold, foldl_flags_bit]
  simp only [List.mem_append, List.mem_map, List.mem_range]
  constructor
  · rintro (h0 | ⟨r, ⟨i, hi, rfl⟩ | ⟨i, hi, rfl⟩, hr⟩)
    · simp at h0
    · obtain ⟨k, hk, h⟩ := (hmem a i).1 hr
      exact ⟨i, hi, k, hk, .inl h⟩
    · obtain ⟨k, hk, h⟩ := (hmem b i).1 hr
      exact ⟨i, hi, k, hk, .inr h⟩
  · rintro ⟨i, hi, k, hk, h | h⟩
    · exact .inr ⟨_, .inl ⟨i, hi, rfl⟩, (hmem a i).2 ⟨k, hk, h⟩⟩
    · exact .inr ⟨_, .inr ⟨i, hi, rfl⟩, (hmem b i).2 ⟨k, hk, h⟩⟩

include hi hn in
theorem productStep_bit (n : Nat) : (productStep f sat t acc a b).2.getLsbD n = true ↔
    (∃ i < 8, ∃ j < 8, (floatSum f t acc a b i j).2.getLsbD n = true)
      ∨ ∃ i < 8, ∃ k < matK f, (sliceVal f t a i k).2.getLsbD n = true ∨ (sliceVal f t b i k).2.getLsbD n = true := by
  have hat {i j : Nat} (hj : j < 8) : (8 * i + j) / 8 = i ∧ (8 * i + j) % 8 = j := by omega
  rw [productStep_float hi hn, BitVec.getLsbD_or, Bool.or_eq_true, decodeFlags_bit, flagsOf_bit]
  refine or_congr_left ⟨?_, ?_⟩
  · rintro ⟨i, hi, j, hj, h⟩
    rw [(hat hj).1, (hat hj).2] at h
    exact ⟨i, hi, j, hj, h⟩
  · rintro ⟨i, hi, j, hj, h⟩
    refine ⟨i, hi, j, hj, ?_⟩
    rwa [(hat hj).1, (hat hj).2]

include hi hn in
theorem productStep_elem {i j : Nat} (h8 : i < 8) (hj : j < 8) :
    (productStep f sat t acc a b).1.extractLsb' (32 * (8 * i + j)) 32 = BitVec.ofNat 32 (floatSum f t acc a b i j).1 := by
  rw [productStep_float hi hn, acc_elem _ h8 hj, show (8 * i + j) / 8 = i by omega, show (8 * i + j) % 8 = j by omega]

/-- Decoding records a flag only of C8 elements, and only the overflow. -/
theorem sliceVal_bit (x : BitVec 1280) (i k n : Nat) : (sliceVal f t x i k).2.getLsbD n = true ↔
    n = 2 ∧ f = .c8 ∧ (decodeC8 fp32 .rn t (sliceByte x (16 * i + k)) (sliceByte x (128 + 4 * i + k / 4))).2.getLsbD 2 = true := by
  have hoff (fl : FlagBits) : (fl &&& off).getLsbD n = true ↔ n = 2 ∧ fl.getLsbD 2 = true := by
    rw [BitVec.getLsbD_and, Bool.and_eq_true, show off = BitVec.twoPow 6 2 from rfl, BitVec.getLsbD_twoPow]
    constructor
    · rintro ⟨h, h'⟩
      simp at h'
      exact ⟨h'.symm, h'.symm ▸ h⟩
    · rintro ⟨rfl, h⟩
      exact ⟨h, rfl⟩
  cases f
  case c8 => simpa [sliceVal] using hoff _
  case f16 | bf16 | i8 | n8 => simp [sliceVal]

end

end Sys2Proof.Machine
end

section
/-!
PROOFS. `GroupSum` (R81): NaNs and infinities among its terms, and the sum of finite terms in a window of 28 bits.
-/

namespace Sys2Proof.Machine

/-! ### Terms -/

/-- The product of a pair, a NaN where there is none. -/
def pairProduct (p : FVal × FVal) : FVal := (mulVal p.1 p.2).getD (.nan false)

/-- The terms of a group sum. -/
def groupTerms (acc : Nat) (ps : List (FVal × FVal)) : List FVal := fp32.decode acc :: ps.map pairProduct

/-- The infinity of each sign. -/
def FVal.posInf (t : FVal) : Bool := match t with | .inf s => !s | _ => false
def FVal.negInf (t : FVal) : Bool := match t with | .inf s => s | _ => false

theorem FVal.posInf_iff {t : FVal} : t.posInf = true ↔ t = .inf false := by cases t <;> simp [FVal.posInf]
theorem FVal.negInf_iff {t : FVal} : t.negInf = true ↔ t = .inf true := by cases t <;> simp [FVal.negInf]

/-- A product of zero and infinity. -/
def zeroByInf (p : FVal × FVal) : Prop := p.1.isInf ∧ p.2.isFin ∧ p.2.mag = 0 ∨ p.2.isInf ∧ p.1.isFin ∧ p.1.mag = 0

theorem mulVal_eq_none {p : FVal × FVal} :
    mulVal p.1 p.2 = none ↔ p.1.isNan = false ∧ p.2.isNan = false ∧ zeroByInf p := by
  obtain ⟨x, y⟩ := p
  simp only [zeroByInf]
  cases x with
  | nan a => simp [mulVal]
  | inf a =>
    cases y with
    | nan b => simp [mulVal]
    | inf b => simp [mulVal, FVal.isFin]
    | fin n m e =>
      by_cases hm : m = 0
      · simp [mulVal, FVal.isFin, FVal.isInf, hm]
      · have := (FVal.mag_pos hm e).ne'
        simp [mulVal, FVal.isFin, FVal.isInf, hm, this]
  | fin n m e =>
    cases y with
    | nan b => simp [mulVal]
    | inf b =>
      by_cases hm : m = 0
      · simp [mulVal, FVal.isFin, FVal.isInf, hm]
      · have := (FVal.mag_pos hm e).ne'
        simp [mulVal, FVal.isFin, FVal.isInf, hm, this]
    | fin n' m' e' => simp [mulVal, FVal.isInf]

theorem mulVal_isNan {x y v : FVal} (h : mulVal x y = some v) : v.isNan = true ↔ x.isNan ∨ y.isNan := by
  cases x with
  | nan a => simp [mulVal] at h; simp [← h]
  | inf a =>
    cases y with
    | nan b => simp [mulVal] at h; simp [← h]
    | inf b => simp [mulVal] at h; simp [← h]
    | fin n m e => simp [mulVal] at h; simp [← h.2]
  | fin n m e =>
    cases y with
    | nan b => simp [mulVal] at h; simp [← h]
    | inf b => simp [mulVal] at h; simp [← h.2]
    | fin n' m' e' => simp [mulVal] at h; simp [← h]

theorem mulVal_eq_inf {x y : FVal} {n : Bool} : mulVal x y = some (.inf n) ↔
    (x.isInf ∨ y.isInf) ∧ x.isNan = false ∧ y.isNan = false ∧ mulVal x y ≠ none ∧ (x.neg != y.neg) = n := by
  cases x with
  | nan a => simp [mulVal]
  | inf a =>
    cases y with
    | nan b => simp [mulVal]
    | inf b => simp [mulVal, FVal.isInf]
    | fin n' m e => simp [mulVal, FVal.isInf]
  | fin n' m e =>
    cases y with
    | nan b => simp [mulVal]
    | inf b => simp [mulVal, FVal.isInf]
    | fin n'' m' e' => simp [mulVal, FVal.isInf]

theorem pairProduct_nan {p : FVal × FVal} : (pairProduct p).isNan = true ↔ p.1.isNan ∨ p.2.isNan ∨ mulVal p.1 p.2 = none := by
  rw [pairProduct]
  cases h : mulVal p.1 p.2 with
  | none => simp
  | some v => simp [mulVal_isNan h]

theorem pairProduct_inf {p : FVal × FVal} {n : Bool} : pairProduct p = .inf n ↔ mulVal p.1 p.2 = some (.inf n) := by
  rw [pairProduct]
  cases mulVal p.1 p.2 <;> simp

/-- The sum of finite terms. -/
def finiteSum (ts : List FVal) : Nat × FlagBits :=
  match topBit ts with
  | none => (fp32.zero (ts.all FVal.neg), 0)
  | some top =>
    let q := top - 27
    let s := ts.foldl (fun (x : Int) t => match t with | .fin n m e => x + truncZ n m e q | _ => x) 0
    if s = 0 then (fp32.zero false, 0)
    else
      let r := fp32.round .rn (s < 0) s.natAbs q
      (r.1, r.2 &&& off)

/-- Infinities of both signs. -/
def bothInf (ts : List FVal) : Bool := ts.any (FVal.posInf) && ts.any (FVal.negInf)

/-- A group sum whose NaN is not quiet. -/
def groupInvalid (acc : Nat) (ps : List (FVal × FVal)) : Bool :=
  ((fp32.decode acc).isSnan || ps.any fun p => p.1.isSnan || p.2.isSnan) || (ps.any fun p => (mulVal p.1 p.2).isNone)
    || bothInf (groupTerms acc ps)

theorem groupSum_eq (acc : Nat) (ps : List (FVal × FVal)) : groupSum acc ps =
    if (groupTerms acc ps).any FVal.isNan || bothInf (groupTerms acc ps) then (fp32.qnan, if groupInvalid acc ps then nv else 0)
    else if (groupTerms acc ps).any (FVal.posInf) then (fp32.inf false, 0)
    else if (groupTerms acc ps).any (FVal.negInf) then (fp32.inf true, 0)
    else finiteSum (groupTerms acc ps) := by
  have ht : fp32.decode acc :: (ps.map fun p => mulVal p.1 p.2).map (fun p => p.getD (.nan false)) = groupTerms acc ps := by
    rw [List.map_map]
    rfl
  have hz : (ps.map fun p => mulVal p.1 p.2).any Option.isNone = ps.any fun p => (mulVal p.1 p.2).isNone := by
    rw [List.any_map]
    rfl
  unfold groupSum
  simp only [ht, hz]
  rfl

/-! ### NaNs and infinities -/

/-- A pair whose product is an infinity of a sign. -/
def infiniteAs (n : Bool) (p : FVal × FVal) : Prop :=
  (p.1.isInf ∨ p.2.isInf) ∧ p.1.isNan = false ∧ p.2.isNan = false ∧ ¬ zeroByInf p ∧ (p.1.neg != p.2.neg) = n

/-- A term that is an infinity of a sign. -/
def someInfinite (x : FVal) (ps : List (FVal × FVal)) (n : Bool) : Prop := x = .inf n ∨ ∃ p ∈ ps, infiniteAs n p

/-- What makes a group sum invalid. -/
def invalidSum (x : FVal) (ps : List (FVal × FVal)) : Prop :=
  x.isSnan ∨ (∃ p ∈ ps, p.1.isSnan ∨ p.2.isSnan ∨ p.1.isNan = false ∧ p.2.isNan = false ∧ zeroByInf p)
    ∨ someInfinite x ps true ∧ someInfinite x ps false

/-- A group sum that is not a number. -/
def noNumberSum (x : FVal) (ps : List (FVal × FVal)) : Prop := x.isNan ∨ (∃ p ∈ ps, p.1.isNan ∨ p.2.isNan) ∨ invalidSum x ps

theorem FVal.isNan_of_isSnan {x : FVal} (h : x.isSnan = true) : x.isNan = true := by
  cases x with
  | nan b => rfl
  | inf n => exact h
  | fin n m e => exact h

theorem infiniteAs_iff {n : Bool} {p : FVal × FVal} : infiniteAs n p ↔ pairProduct p = .inf n := by
  rw [pairProduct_inf, mulVal_eq_inf, ne_eq, mulVal_eq_none]
  constructor
  · rintro ⟨h1, h2, h3, h4, h5⟩
    exact ⟨h1, h2, h3, fun h => h4 h.2.2, h5⟩
  · rintro ⟨h1, h2, h3, h4, h5⟩
    exact ⟨h1, h2, h3, fun h => h4 ⟨h2, h3, h⟩, h5⟩

section
variable {acc : Nat} {ps : List (FVal × FVal)}

theorem any_posInf : (groupTerms acc ps).any FVal.posInf = true ↔ someInfinite (fp32.decode acc) ps false := by
  simp [groupTerms, someInfinite, FVal.posInf_iff, infiniteAs_iff]

theorem any_negInf : (groupTerms acc ps).any FVal.negInf = true ↔ someInfinite (fp32.decode acc) ps true := by
  simp [groupTerms, someInfinite, FVal.negInf_iff, infiniteAs_iff]

theorem bothInf_iff : bothInf (groupTerms acc ps) = true
    ↔ someInfinite (fp32.decode acc) ps true ∧ someInfinite (fp32.decode acc) ps false := by
  rw [bothInf, Bool.and_eq_true, any_posInf, any_negInf, and_comm]

theorem groupInvalid_iff : groupInvalid acc ps = true ↔ invalidSum (fp32.decode acc) ps := by
  simp only [groupInvalid, invalidSum, Bool.or_eq_true, bothInf_iff, List.any_eq_true, Option.isNone_iff_eq_none, mulVal_eq_none]
  constructor
  · rintro (((h | ⟨p, hp, h⟩) | ⟨p, hp, h⟩) | h)
    · exact .inl h
    · exact .inr (.inl ⟨p, hp, h.imp id .inl⟩)
    · exact .inr (.inl ⟨p, hp, .inr (.inr h)⟩)
    · exact .inr (.inr h)
  · rintro (h | ⟨p, hp, h | h | h⟩ | h)
    · exact .inl (.inl (.inl h))
    · exact .inl (.inl (.inr ⟨p, hp, .inl h⟩))
    · exact .inl (.inl (.inr ⟨p, hp, .inr h⟩))
    · exact .inl (.inr ⟨p, hp, h⟩)
    · exact .inr h

theorem noNumberSum_iff : ((groupTerms acc ps).any FVal.isNan || bothInf (groupTerms acc ps)) = true
    ↔ noNumberSum (fp32.decode acc) ps := by
  have hany : (groupTerms acc ps).any FVal.isNan = true
      ↔ (fp32.decode acc).isNan ∨ ∃ p ∈ ps, p.1.isNan ∨ p.2.isNan ∨ mulVal p.1 p.2 = none := by
    simp [groupTerms, pairProduct_nan]
  rw [Bool.or_eq_true, hany, bothInf_iff, noNumberSum, invalidSum]
  constructor
  · rintro ((h | ⟨p, hp, h | h | h⟩) | h)
    · exact .inl h
    · exact .inr (.inl ⟨p, hp, .inl h⟩)
    · exact .inr (.inl ⟨p, hp, .inr h⟩)
    · exact .inr (.inr (.inr (.inl ⟨p, hp, .inr (.inr (mulVal_eq_none.1 h))⟩)))
    · exact .inr (.inr (.inr (.inr h)))
  · rintro (h | ⟨p, hp, h⟩ | h | ⟨p, hp, h | h | h⟩ | h)
    · exact .inl (.inl h)
    · exact .inl (.inr ⟨p, hp, h.imp id .inl⟩)
    · exact .inl (.inl (FVal.isNan_of_isSnan h))
    · exact .inl (.inr ⟨p, hp, .inl (FVal.isNan_of_isSnan h)⟩)
    · exact .inl (.inr ⟨p, hp, .inr (.inl (FVal.isNan_of_isSnan h))⟩)
    · exact .inl (.inr ⟨p, hp, .inr (.inr (mulVal_eq_none.2 h))⟩)
    · exact .inr h

theorem groupSum_invalid (h : invalidSum (fp32.decode acc) ps) : groupSum acc ps = (0x7FC00000, 16) := by
  rw [groupSum_eq, if_pos (noNumberSum_iff.2 (.inr (.inr h))), if_pos (groupInvalid_iff.2 h)]
  rfl

theorem groupSum_nan (h : noNumberSum (fp32.decode acc) ps) (hv : ¬ invalidSum (fp32.decode acc) ps) :
    groupSum acc ps = (0x7FC00000, 0) := by
  rw [groupSum_eq, if_pos (noNumberSum_iff.2 h), if_neg (mt groupInvalid_iff.1 hv)]
  rfl

theorem groupSum_inf {n : Bool} (h : ¬ noNumberSum (fp32.decode acc) ps) (hs : someInfinite (fp32.decode acc) ps n) :
    groupSum acc ps = (fp32.inf n, 0) := by
  rw [groupSum_eq, if_neg (mt noNumberSum_iff.1 h)]
  cases n with
  | false => rw [if_pos (any_posInf.2 hs)]
  | true =>
    have hp : ¬ someInfinite (fp32.decode acc) ps false := fun hf => h (.inr (.inr (.inr (.inr ⟨hs, hf⟩))))
    rw [if_neg (mt any_posInf.1 hp), if_pos (any_negInf.2 hs)]

end

/-! ### Finite terms -/

theorem apart_zero (y : Rat) : apart y 0 = |y| := by
  unfold apart
  split
  · next h => rw [abs_of_neg h, zero_sub]
  · next h => rw [abs_of_nonneg (not_lt.1 h), sub_zero]

theorem FVal.abs_rat {x : FVal} (h : x.isFin) : |x.rat| = x.mag := by
  obtain ⟨n, m, e, rfl⟩ := FVal.exists_of_isFin h
  have hm : (0 : Rat) ≤ m * 2 ^ e := mul_nonneg (Nat.cast_nonneg _) (two_zpow_pos _).le
  cases n
  · exact abs_of_nonneg hm
  · rw [FVal.rat_fin, if_pos rfl, neg_mul, abs_neg, abs_of_nonneg hm, FVal.mag_fin]

/-- The greater of the leading places so far and a term's. -/
def raiseTop (acc : Option Int) (t : FVal) : Option Int :=
  match t with
  | .fin _ m e =>
    if m = 0 then acc
    else
      let x : Int := (Nat.log2 m : Int) + e
      match acc with
      | none => some x
      | some y => some (max x y)
  | _ => acc

theorem topBit_eq (ts : List FVal) : topBit ts = ts.foldl raiseTop none := rfl

theorem raiseTop_zero (acc : Option Int) {v : FVal} (hf : v.isFin) (h : v.rat = 0) : raiseTop acc v = acc := by
  obtain ⟨n, m, e, rfl⟩ := FVal.exists_of_isFin hf
  exact if_pos (FVal.rat_eq_zero.1 h)

/-- The place of a term's leading bit. -/
theorem raiseTop_place {v : FVal} (hf : v.isFin) (h : v.rat ≠ 0) : ∃ p : Int, (2 : Rat) ^ p ≤ v.mag ∧ v.mag < 2 ^ (p + 1)
    ∧ ∀ acc, raiseTop acc v = some (acc.elim p (max p)) := by
  obtain ⟨n, m, e, rfl⟩ := FVal.exists_of_isFin hf
  have hm : m ≠ 0 := fun hm => h (FVal.rat_eq_zero.2 hm)
  refine ⟨(Nat.log2 m : Int) + e, zpow_log2_le hm e, ?_, fun acc => ?_⟩
  · rw [show (Nat.log2 m : Int) + e + 1 = (Nat.log2 m : Int) + 1 + e by ring]
    exact lt_zpow_log2 m e
  · rw [raiseTop, if_neg hm]
    cases acc <;> rfl

theorem foldl_raiseTop {e : Int} {ts : List FVal} (hf : ∀ v ∈ ts, v.isFin) (hlt : ∀ v ∈ ts, v.mag < 2 ^ (e + 1)) (acc : Option Int)
    (hacc : ∀ y, acc = some y → y ≤ e) (h : acc = some e ∨ ∃ v ∈ ts, (2 : Rat) ^ e ≤ v.mag) :
    ts.foldl raiseTop acc = some e := by
  induction ts generalizing acc with
  | nil => simpa using h
  | cons v ts ih =>
    have hv := hf v List.mem_cons_self
    have ih' := ih (fun u hu => hf u (List.mem_cons_of_mem _ hu)) fun u hu => hlt u (List.mem_cons_of_mem _ hu)
    rw [List.foldl_cons]
    by_cases h0 : v.rat = 0
    · have hmag : v.mag = 0 := by rw [← FVal.abs_rat hv, h0, abs_zero]
      rw [raiseTop_zero acc hv h0]
      refine ih' acc hacc (h.imp id ?_)
      rintro ⟨u, hu, hle⟩
      rcases List.mem_cons.1 hu with rfl | hu
      · exact absurd (hmag ▸ hle) (two_zpow_pos e).not_ge
      · exact ⟨u, hu, hle⟩
    · obtain ⟨p, hp, hp', hr⟩ := raiseTop_place hv h0
      have hpe : p ≤ e := by
        have := two_zpow_lt.1 (hp.trans_lt (hlt v List.mem_cons_self))
        omega
      have hle : acc.elim p (max p) ≤ e := by
        cases acc with
        | none => exact hpe
        | some y => exact max_le hpe (hacc y rfl)
      rw [hr]
      refine ih' _ (fun y hy => Option.some.inj hy ▸ hle) ?_
      rcases h with rfl | ⟨u, hu, hle'⟩
      · exact .inl (congrArg some (max_eq_right hpe))
      · rcases List.mem_cons.1 hu with rfl | hu
        · have hep : e ≤ p := by
            have := two_zpow_lt.1 (hle'.trans_lt hp')
            omega
          refine .inl (congrArg some (le_antisymm hle ?_))
          cases acc with
          | none => exact hep
          | some y => exact hep.trans (le_max_left _ _)
        · exact .inr ⟨u, hu, hle'⟩

theorem topBit_some {e : Int} {ts : List FVal} (hf : ∀ v ∈ ts, v.isFin) (h : ∃ v ∈ ts, (2 : Rat) ^ e ≤ v.mag)
    (hlt : ∀ v ∈ ts, v.mag < 2 ^ (e + 1)) : topBit ts = some e := foldl_raiseTop hf hlt none nofun (.inr h)

theorem topBit_none {ts : List FVal} (hf : ∀ v ∈ ts, v.isFin) (h : ∀ v ∈ ts, v.rat = 0) : topBit ts = none := by
  rw [topBit_eq]
  induction ts with
  | nil => rfl
  | cons v ts ih =>
    rw [List.foldl_cons, raiseTop_zero none (hf v List.mem_cons_self) (h v List.mem_cons_self)]
    exact ih (fun u hu => hf u (List.mem_cons_of_mem _ hu)) fun u hu => h u (List.mem_cons_of_mem _ hu)

/-! ### The window -/

/-- A number cut toward zero to a multiple of q. -/
def cutTo (q y : Rat) : Rat := if y < 0 then -(((-y) / q).floor * q) else (y / q).floor * q

/-- A term cut, in units of 2^q. -/
def cutTerm (q : Int) (t : FVal) : Int :=
  match t with
  | .fin n m e => truncZ n m e q
  | _ => 0

theorem floor_mag (m : Nat) (e q : Int) :
    ((m : Rat) * 2 ^ e / 2 ^ q).floor = ((if q ≤ e then m * 2 ^ (e - q).toNat else m / 2 ^ (q - e).toNat : Nat) : Int) := by
  change ⌊(m : Rat) * 2 ^ e / 2 ^ q⌋ = _
  split
  · next h =>
    rw [scale_down m h, mul_div_assoc, div_self (two_zpow_pos q).ne', mul_one, Int.floor_natCast]
  · next h =>
    have hd : (m : Rat) * 2 ^ e / 2 ^ q = (m : Rat) / ((2 ^ (q - e).toNat : Nat) : Rat) := by
      rw [Nat.cast_pow, Nat.cast_ofNat, two_zpow_toNat (by omega), div_eq_div_iff (two_zpow_pos q).ne' (two_zpow_pos _).ne',
        mul_assoc, ← two_zpow_add]
      congr 2
      omega
    rw [hd, Rat.floor_natCast_div_natCast, Int.natCast_div]

theorem cutTerm_eq (q : Int) {t : FVal} (h : t.isFin) : (cutTerm q t : Rat) * 2 ^ q = cutTo (2 ^ q) t.rat := by
  obtain ⟨n, m, e, rfl⟩ := FVal.exists_of_isFin h
  have hm : (0 : Rat) ≤ m * 2 ^ e := mul_nonneg (Nat.cast_nonneg _) (two_zpow_pos _).le
  rw [cutTerm, truncZ, ← floor_mag, cutTo, FVal.rat_fin]
  cases n with
  | false => simp only [Bool.false_eq_true, if_false, if_neg hm.not_gt]
  | true =>
    rw [if_pos rfl, if_pos rfl, neg_mul, neg_neg]
    by_cases h0 : -((m : Rat) * 2 ^ e) < 0
    · rw [if_pos h0, Int.cast_neg, neg_mul]
    · have hz : (m : Rat) * 2 ^ e = 0 := le_antisymm (by linarith) hm
      have hfloor : (0 : Rat).floor = 0 := rfl
      rw [if_neg h0, hz, neg_zero, zero_div, hfloor, neg_zero]

/-- The sum of the terms cut. -/
def cutSum (q : Int) (ts : List FVal) : Int := (ts.map (cutTerm q)).sum

theorem cutSum_eq (q : Int) {ts : List FVal} (hf : ∀ t ∈ ts, t.isFin) :
    (cutSum q ts : Rat) * 2 ^ q = ((ts.map FVal.rat).map (cutTo (2 ^ q))).sum := by
  induction ts with
  | nil => simp [cutSum]
  | cons t ts ih =>
    have ih := ih fun u hu => hf u (List.mem_cons_of_mem _ hu)
    simp only [cutSum, List.map_cons, List.sum_cons, Int.cast_add, add_mul] at ih ⊢
    rw [ih, cutTerm_eq q (hf t List.mem_cons_self)]

theorem finiteSum_none {ts : List FVal} (h : topBit ts = none) : finiteSum ts = (fp32.zero (ts.all FVal.neg), 0) := by
  rw [finiteSum, h]

theorem finiteSum_some {ts : List FVal} {top : Int} (h : topBit ts = some top) : finiteSum ts =
    if cutSum (top - 27) ts = 0 then (fp32.zero false, 0)
    else ((fp32.round .rn (cutSum (top - 27) ts < 0) (cutSum (top - 27) ts).natAbs (top - 27)).1,
      (fp32.round .rn (cutSum (top - 27) ts < 0) (cutSum (top - 27) ts).natAbs (top - 27)).2 &&& 4) := by
  have hs : ts.foldl (fun (x : Int) t => match t with | .fin n m e => x + truncZ n m e (top - 27) | _ => x) 0
      = cutSum (top - 27) ts := by
    have hstep : (fun (x : Int) (t : FVal) => match t with | .fin n m e => x + truncZ n m e (top - 27) | _ => x)
        = fun x t => x + cutTerm (top - 27) t := by
      funext x t
      cases t with
      | fin n m e => rfl
      | nan b => exact (add_zero x).symm
      | inf n => exact (add_zero x).symm
    rw [hstep, foldl_add_eq_sum, zero_add, cutSum]
  rw [finiteSum, h, ← hs]
  rfl

theorem finiteSum_rounds {ts : List FVal} (hf : ∀ t ∈ ts, t.isFin) {e : Int} (h : ∃ v ∈ ts, (2 : Rat) ^ e ≤ v.mag)
    (hlt : ∀ v ∈ ts, v.mag < 2 ^ (e + 1)) :
    let sum := ((ts.map FVal.rat).map (cutTo (2 ^ (e - 27)))).sum
    (sum = 0 → finiteSum ts = (fp32.zero false, 0))
      ∧ (sum ≠ 0 → ∃ r, fp32.roundsTo .rn (decide (sum < 0)) (apart sum 0) r ∧ finiteSum ts = (r.1, r.2 &&& 4)) := by
  intro sum
  have hsum : sum = (cutSum (e - 27) ts : Rat) * 2 ^ (e - 27) := (cutSum_eq _ hf).symm
  have h0 : sum = 0 ↔ cutSum (e - 27) ts = 0 := by
    rw [hsum, mul_eq_zero, or_iff_left (two_zpow_pos _).ne', Int.cast_eq_zero]
  rw [finiteSum_some (topBit_some hf h hlt)]
  refine ⟨fun hz => if_pos (h0.1 hz), fun hne => ⟨_, ?_, if_neg (mt h0.2 hne)⟩⟩
  have hneg : decide (sum < 0) = decide (cutSum (e - 27) ts < 0) := by
    have hlow := mul_zpow_lt (a := (cutSum (e - 27) ts : Rat)) (b := 0) (e - 27)
    rw [zero_mul] at hlow
    exact decide_eq_decide.2 (by rw [hsum, hlow, Int.cast_lt_zero])
  have hmag : apart sum 0 = ((cutSum (e - 27) ts).natAbs : Rat) * 2 ^ (e - 27) := by
    rw [apart_zero, hsum, abs_mul, abs_of_pos (two_zpow_pos _), Nat.cast_natAbs, Int.cast_abs]
  rw [hneg, hmag]
  exact Fmt.round_roundsTo fp32_ok (Int.natAbs_ne_zero.2 (mt h0.2 hne)) .rn _ _

/-- A group sum of finite terms. -/
theorem groupSum_finite {acc : Nat} {ps : List (FVal × FVal)} (hx : (fp32.decode acc).isFin) (hp : ∀ p ∈ ps, p.1.isFin ∧ p.2.isFin) :
    groupSum acc ps = finiteSum (groupTerms acc ps) ∧ (∀ t ∈ groupTerms acc ps, t.isFin)
      ∧ (groupTerms acc ps).map FVal.rat = (fp32.decode acc).rat :: ps.map (fun p => p.1.rat * p.2.rat)
      ∧ (groupTerms acc ps).all FVal.neg = ((fp32.decode acc).neg && ps.all fun p => p.1.neg != p.2.neg) := by
  have hprod (p : FVal × FVal) (h : p ∈ ps) : (pairProduct p).isFin ∧ (pairProduct p).rat = p.1.rat * p.2.rat
      ∧ (pairProduct p).neg = (p.1.neg != p.2.neg) := by
    obtain ⟨m, e, hm, hr⟩ := mulVal_fin (hp p h).1 (hp p h).2
    rw [pairProduct, hm]
    exact ⟨rfl, hr, rfl⟩
  have hfin : ∀ t ∈ groupTerms acc ps, t.isFin := by
    intro t ht
    rcases List.mem_cons.1 ht with rfl | ht
    · exact hx
    · obtain ⟨p, h, rfl⟩ := List.mem_map.1 ht
      exact (hprod p h).1
  have hnot (g : FVal → Bool) (hg : ∀ t : FVal, t.isFin → g t = false) : (groupTerms acc ps).any g = false := by
    simpa using fun t ht => hg t (hfin t ht)
  have hfree (t : FVal) (ht : t.isFin) : t.isNan = false ∧ t.posInf = false ∧ t.negInf = false := by
    obtain ⟨n, m, e, rfl⟩ := FVal.exists_of_isFin ht
    exact ⟨rfl, rfl, rfl⟩
  have h1 := hnot FVal.isNan fun t ht => (hfree t ht).1
  have h2 := hnot FVal.posInf fun t ht => (hfree t ht).2.1
  have h3 := hnot FVal.negInf fun t ht => (hfree t ht).2.2
  refine ⟨?_, hfin, ?_, ?_⟩
  · rw [groupSum_eq, bothInf, h1, h2, h3]
    rfl
  · rw [groupTerms, List.map_cons, List.map_map]
    exact congrArg _ (List.map_congr_left fun p h => (hprod p h).2.1)
  · rw [groupTerms, List.all_cons, List.all_map]
    refine congrArg _ ?_
    rw [Bool.eq_iff_iff, List.all_eq_true, List.all_eq_true]
    exact forall₂_congr fun p h => by rw [Function.comp_apply, (hprod p h).2.2]

/-- The flags of a group sum: an invalid one, or an overflow (R81). -/
theorem groupSum_flags (acc : Nat) (ps : List (FVal × FVal)) {n : Nat} (h2 : n ≠ 2) (h4 : n ≠ 4) :
    (groupSum acc ps).2.getLsbD n = false := by
  have hnv : nv.getLsbD n = false := by
    rw [show nv = BitVec.twoPow 6 4 from rfl, BitVec.getLsbD_twoPow]
    simp [h4.symm]
  have hoff : off.getLsbD n = false := by
    rw [show off = BitVec.twoPow 6 2 from rfl, BitVec.getLsbD_twoPow]
    simp [h2.symm]
  have hzero : (0 : FlagBits).getLsbD n = false := BitVec.getLsbD_zero
  have hfinite (ts : List FVal) : (finiteSum ts).2.getLsbD n = false := by
    cases h : topBit ts with
    | none =>
      rw [finiteSum_none h]
      exact hzero
    | some top =>
      rw [finiteSum_some h]
      split
      · exact hzero
      · change (_ &&& off).getLsbD n = false
        rw [BitVec.getLsbD_and, hoff, Bool.and_false]
  rw [groupSum_eq]
  split_ifs
  · exact hnv
  · exact hzero
  · exact hzero
  · exact hzero
  · exact hfinite _

end Sys2Proof.Machine
end

section
/-!
PROOFS. The matrix commands together (O52).
-/

namespace Sys2Proof.Machine

/-- An operand in the launch's window of its core's own local memory, without an error. -/
theorem ownRun_of_here {s : State} {l : Launch} {c n : Nat} {a : Word} (hhi : l.lmHi ≤ 65536)
    (h : isLocal a ∧ namedCore l c a = c ∧ outOfRange l a n = false ∧ a.toNat % 32 = 0
      ∧ ∀ j, 32 * j < n → s.sound (localKeyOf l c a + 32 * j) 32) : OwnRun s l c a n := by
  obtain ⟨h1, h2, h3, -, h5⟩ := h
  exact ⟨h1, h2, h3, hhi, h5⟩

theorem modCore_matDone (s : State) (c : Nat) (x : MatCmd) (last : Nat) (t : Thread) (fl : FlagBits) (f : Core → Core) :
    (s.modCore c f).matDone c x last t fl
      = (({ s with threads := tput s.threads x.tid (t.released x fl) } : State).modCore c f).modCore c
          fun y => y.removeMat x.num (last + 1) := rfl

/-- The decoding of an element, and its flags, of slices of C8 codes. -/
def sliceCode (t : BitVec 8192) (x : BitVec 1280) (i k : Nat) : Nat × FlagBits :=
  decodeC8 fp32 .rn t (sliceByte x (16 * i + k)) (sliceByte x (128 + 4 * i + k / 4))

theorem decoded_bit (f : MatFmt) (t : BitVec 8192) (a b : BitVec 1280) (n : Nat) :
    (∃ i < 8, ∃ k < matK f, (sliceVal f t a i k).2.getLsbD n = true ∨ (sliceVal f t b i k).2.getLsbD n = true)
      ↔ n = 2 ∧ f = .c8 ∧ ∃ i < 8, ∃ k < 16,
          (sliceCode t a i k).2.getLsbD 2 = true ∨ (sliceCode t b i k).2.getLsbD 2 = true := by
  constructor
  · rintro ⟨i, hi, k, hk, h | h⟩
    · obtain ⟨hn, rfl, hc⟩ := (sliceVal_bit ..).1 h
      exact ⟨hn, rfl, i, hi, k, hk, .inl hc⟩
    · obtain ⟨hn, rfl, hc⟩ := (sliceVal_bit ..).1 h
      exact ⟨hn, rfl, i, hi, k, hk, .inr hc⟩
  · rintro ⟨hn, rfl, i, hi, k, hk, h⟩
    exact ⟨i, hi, k, hk, h.imp (fun h => (sliceVal_bit ..).2 ⟨hn, rfl, h⟩) fun h => (sliceVal_bit ..).2 ⟨hn, rfl, h⟩⟩

/-- Group sums of finite terms, by the numbers they stand for. -/
theorem groupSum_window {acc : Nat} {ps : List (FVal × FVal)} (hx : (fp32.decode acc).isFin) (hp : ∀ p ∈ ps, p.1.isFin ∧ p.2.isFin) :
    let ts := (fp32.decode acc).rat :: ps.map fun p => p.1.rat * p.2.rat
    ((∀ y ∈ ts, y = 0) →
        groupSum acc ps = (fp32.zero ((fp32.decode acc).neg && ps.all fun p => p.1.neg != p.2.neg), 0))
      ∧ ∀ e : Int, (∃ y ∈ ts, 2 ^ e ≤ apart y 0) → (∀ y ∈ ts, apart y 0 < 2 ^ (e + 1)) →
        let sum := (ts.map (cutTo (2 ^ (e - 27)))).sum
        (sum = 0 → groupSum acc ps = (fp32.zero false, 0))
          ∧ (sum ≠ 0 → ∃ r, fp32.roundsTo .rn (decide (sum < 0)) (apart sum 0) r ∧ groupSum acc ps = (r.1, r.2 &&& 4)) := by
  intro ts
  obtain ⟨hsum, hfin, hts, hneg⟩ := groupSum_finite hx hp
  have hmag (t : FVal) (ht : t ∈ groupTerms acc ps) : apart t.rat 0 = t.mag := by rw [apart_zero, FVal.abs_rat (hfin t ht)]
  have hts' : ts = (groupTerms acc ps).map FVal.rat := hts.symm
  rw [hsum, ← hneg, hts']
  refine ⟨fun h => finiteSum_none (topBit_none hfin fun t ht => h _ (List.mem_map_of_mem ht)), fun e hex hall => ?_⟩
  refine finiteSum_rounds hfin ?_ fun t ht => ?_
  · obtain ⟨y, hy, hle⟩ := hex
    obtain ⟨t, ht, rfl⟩ := List.mem_map.1 hy
    exact ⟨t, ht, hmag t ht ▸ hle⟩
  · exact hmag t ht ▸ hall _ (List.mem_map_of_mem ht)

/-- Bits 0, 1, 3 and 5 of flags. -/
theorem and_0x2B_eq_zero {fl : FlagBits} (h : ∀ n, n ≠ 2 → n ≠ 4 → fl.getLsbD n = false) : fl &&& 0x2B = 0 := by
  refine BitVec.eq_of_getLsbD_eq fun n hn => ?_
  rw [BitVec.getLsbD_and]
  by_cases h2 : n = 2
  · subst h2
    rw [show (0x2B : FlagBits).getLsbD 2 = false from rfl, Bool.and_false]
    rfl
  · by_cases h4 : n = 4
    · subst h4
      rw [show (0x2B : FlagBits).getLsbD 4 = false from rfl, Bool.and_false]
      rfl
    · rw [h n h2 h4, Bool.false_and]
      exact BitVec.getLsbD_zero.symm

/-- Settles O52: the commands by `matrix_done`, the product step element by element, group sums by `groupSum_window`. -/
theorem matrixCommandsComplete : Obligations.MatrixCommandsComplete := by
  unfold Obligations.MatrixCommandsComplete
  refine ⟨?_, ?_, ?_, ?_, ?_, ?_, ?_⟩
  · intro s c x rest last t hq hp hl h ht hw hg _ l hhi here on leaves acc s' elem moved flags
    have hflags {n row : Nat} {ty : FloatTy} {rm : Rm} (count : Nat) :
        flags count (fun k => moved ty rm (elem n (row + k))) = flagsOf (mmovElems ty rm ((s.core c).acc n) row count) := by
      refine congrArg flagsOf (List.map_congr_left fun k _ => ?_)
      exact (mmovElem_eq ty rm _).symm
    refine ⟨fun d hop => ?_, fun d a b f sat n hop _ ha hb => ?_, fun f sat tab a b n k y => ⟨rfl, rfl, fun ha j hj => ?_⟩,
      fun d a hop ha => ?_, fun a n ty rm hop ha => ?_, fun d n row ty rm hop _ _ hd => ?_⟩
    · have hacc : x.op.writesAcc.getD 0 = d := by rw [hop]; rfl
      rw [mzero_completes hq hp hl h ht hw hop, modCore_matDone, ← hacc]
      rfl
    · have hacc : x.op.writesAcc.getD 0 = d := by rw [hop]; rfl
      rw [mma_completes hq hp hl h ht hw hop (ownRun_of_here hhi ha) (ownRun_of_here hhi hb), modCore_matDone]
      simp only [leaves, acc, hacc, State.modCore_modCore]
      rfl
    · exact slice_byte (ownRun_of_here hhi ha) (Nat.lt_succ_self k) hj
    · have hacc : x.op.writesAcc.getD 0 = d := by rw [hop]; rfl
      refine ⟨BitVec.ofNat 2048 (readLE s.mem (localKeyOf l c a) 256), ?_, fun k hk => ?_⟩
      · rw [load_completes hq hp hl h ht hw hop (ownRun_of_here hhi ha), modCore_matDone, ← hacc]
        rfl
      · have := extract_readLE s.mem (localKeyOf l c a) (N := 2048) (n := 256) (j := 32 * k) (l := 32) (by norm_num) (by omega)
        rwa [← Nat.mul_assoc] at this
    · intro r
      refine ⟨writeAtoms s.mem (localKeyOf l c a) (mmovAtoms ty rm ((s.core c).acc n)), ?_, fun k hk => ?_, fun j hj => ?_⟩
      · have hr : flags 64 r = flagsOf (mmovElems ty rm ((s.core c).acc n) 0 64) := by
          rw [← hflags]
          simp only [Nat.zero_add]
          rfl
        rw [store_completes hq hp hl h ht hw hop (ownRun_of_here hhi ha), hr]
        rfl
      · rw [store_elem _ _ _ _ _ hk, mmovElem_eq]
        rfl
      · rw [readByte_writeAtoms_out _ _ _ (by rwa [length_mmovAtoms])]
    · intro r
      have hr : flags (256 / ty.bits) r = flagsOf (mmovElems ty rm ((s.core c).acc n) (8 * row) (256 / ty.bits)) := hflags _
      refine ⟨(gather ty.bits (mmovElems ty rm ((s.core c).acc n) (8 * row) (256 / ty.bits))).1, ?_, fun k hk => ?_⟩
      · rw [toV_completes hq hp hl h ht hw hop hg hd, hr]
        rfl
      · rw [mmovElems, element_gather _ (width_mul_div _) hk, mmovElem_eq]
        rfl
  · intro s c x rest d st f sat hq hop hs
    refine ⟨fun hp h => ?_, fun h hp => rot_waits hq hp hop hs h, fun a b hp ha hb => exchange_ends hq hp ha hb⟩
    rw [rot_steps hq hp hop hs h, rotStep_latches hop]
  · intro s c x rest d st a b f sat t hq hop hs hp h ht _ l here hhi ha hb sa sb r
    rw [rot_steps hq hp hop hs h, rotStep_memory hop ht (ownRun_of_here hhi ha) (ownRun_of_here hhi hb)]
  · exact fun s c x rest last t hq hp hl ht hw => ⟨ending_waits hq hp hl, fun h => ending_completes hq hp hl h ht hw⟩
  · exact fun t acc a b sat f ty hf => productStep_sums hf sat t acc a b
  · intro t acc a b sat f hi hn code val sum r
    have hsum (i j : Nat) : sum i j = floatSum f t acc a b i j := by
      cases f
      case i8 => exact absurd rfl hi
      case n8 => exact absurd rfl hn
      case f16 | bf16 | c8 => rfl
    have hbit (n : Nat) : r.2.getLsbD n = true ↔ (∃ i < 8, ∃ j < 8, (floatSum f t acc a b i j).2.getLsbD n = true)
        ∨ n = 2 ∧ f = .c8 ∧ ∃ i < 8, ∃ k < 16, (code a i k).2.getLsbD 2 = true ∨ (code b i k).2.getLsbD 2 = true :=
      (productStep_bit hi hn sat t acc a b n).trans (or_congr_right (decoded_bit f t a b n))
    simp only [hsum]
    refine ⟨fun i h8 j hj => productStep_elem hi hn sat t acc a b h8 hj, ?_, ?_, and_0x2B_eq_zero fun n h2 h4 => ?_⟩
    · exact (hbit 4).trans (or_iff_left (by simp))
    · exact (hbit 2).trans (or_congr_right (and_iff_right rfl))
    · rw [Bool.eq_false_iff, ne_eq, hbit]
      rintro (⟨i, -, j, -, h⟩ | ⟨h, -⟩)
      · rw [floatSum, groupSum_flags _ _ h2 h4] at h
        exact absurd h Bool.false_ne_true
      · exact h2 h
  · intro acc ps x zeroInf infOf someInf invalid noNumber
    exact ⟨groupSum_invalid, groupSum_nan, fun n => groupSum_inf, groupSum_window⟩

end Sys2Proof.Machine
end

section
/-!
PROOFS. The encoding (O1, O2): what the encoder writes is read back, in each half and in the whole bundle, and the words
that the opcode maps leave out are refused (R87, R94 to R101).
-/

namespace Sys2Proof.Laws.EncodeDecode

open Sys2Proof Sys2Proof.Laws.Encode

/-! ### The code of every instruction is read back -/

theorem decodeCode_encode (i : Instr) : Statement i := by
  cases i with
  | nop => exact nop | br => exact br _ _ _ | bra => exact bra _ | callLabel => exact callLabel _ _
  | jmp => exact jmp _ | callReg => exact callReg _ _ | ret => exact ret _ | brt => exact brt _ _
  | brq => exact brq _ _ _ | ld => exact ld _ _ _ _ _ | ldIdx => exact ldIdx _ _ _ _ _ _ | st => exact st _ _ _ _ _
  | stIdx => exact stIdx _ _ _ _ _ _ | feClr => exact feClr _ _ | amo => exact amo _ _ _ _ _ _
  | red => exact red _ _ _ _ _ | fenceFar => exact fenceFar _ | bar => exact bar _ | rget => exact rget _ _ _
  | rput => exact rput _ _ _ | mig => exact mig _ | add => exact add _ _ _ _ _ _ | sub => exact sub _ _ _ _ _ _
  | andR => exact andR _ _ _ | orR => exact orR _ _ _ | xorR => exact xorR _ _ _ | andn => exact andn _ _ _
  | shl => exact shl _ _ _ | shr => exact shr _ _ _ | sar => exact sar _ _ _ | minR => exact minR _ _ _ _ _
  | maxR => exact maxR _ _ _ _ _ | mul => exact mul _ _ _ _ _ _ | mulh => exact mulh _ _ _ _ _
  | div => exact div _ _ _ _ _ | rem => exact rem _ _ _ _ _ | cmp => exact cmp _ _ _ _ _
  | cmpImm => exact cmpImm _ _ _ _ _ | sel => exact sel _ _ _ _ _ | extN64 => exact extN64 _ _ _
  | extI64 => exact extI64 _ _ _ | ins => exact ins _ _ _ | clz => exact clz _ _ | ctz => exact ctz _ _
  | popc => exact popc _ _ | addImm => exact addImm _ _ _ | mov => exact mov _ _ _ | andImm => exact andImm _ _ _
  | orImm => exact orImm _ _ _ | xorImm => exact xorImm _ _ _ | shlImm => exact shlImm _ _ _
  | shrImm => exact shrImm _ _ _ | sarImm => exact sarImm _ _ _ | mulImm => exact mulImm _ _ _ | li => exact li _ _ _
  | trap => exact trap _ | tret => exact tret _ | sysr => exact sysr _ _ | sysw => exact sysw _ _
  | sysrFexc => exact sysrFexc _ | syswItin => exact syswItin _ | spill => exact spill _ _ | fill => exact fill _ _
  | tlbinv => exact tlbinv _ _ | idle => exact idle _ | send => exact send _ _ _ _ _ | spawn => exact spawn _ _ _ _
  | sync => exact sync _ | syncEnd => exact syncEnd _ | post => exact post _ _ _ | steal => exact steal _
  | tnum => exact tnum _ _ | tnset => exact tnset _ _ | tndrain => exact tndrain _ | tnsave => exact tnsave _ _
  | tnload => exact tnload _ _ | stow => exact stow _ | unstow => exact unstow _ | eins => exact eins _ _ _
  | efind => exact efind _ _ _ | emrg => exact emrg _ _ _ _ | eeq => exact eeq _ _ _ _ | esettle => exact esettle _
  | ematch => exact ematch _ _ _ | ecost => exact ecost _ _ _ _ | enode => exact enode _ _ _
  | eclass => exact eclass _ _ _ | mma => exact mma _ _ _ _ _ _ | mrot => exact mrot _ _ _
  | mrotMem => exact mrotMem _ _ _ _ _ | mzero => exact mzero _ | mmovF32ToV => exact mmovF32ToV _ _ _
  | mmovBf16ToV => exact mmovBf16ToV _ _ _ _ | mmovF16ToV => exact mmovF16ToV _ _ _ _
  | mmovF32Store => exact mmovF32Store _ _ | mmovBf16Store => exact mmovBf16Store _ _ _
  | mmovF16Store => exact mmovF16Store _ _ _ | mmovF32Load => exact mmovF32Load _ _ | mtab => exact mtab _
  | cpy => exact cpy _ _ | cwait => exact cwait _ | cany => exact cany _ _ | cfirst => exact cfirst _ _
  | vaddF => exact vaddF _ _ _ _ _ | vsubF => exact vsubF _ _ _ _ _ | vmulF => exact vmulF _ _ _ _ _
  | vdiv => exact vdiv _ _ _ _ _ | vfma => exact vfma _ _ _ _ _ _ | vminF => exact vminF _ _ _ _
  | vmaxF => exact vmaxF _ _ _ _ | vsqrt => exact vsqrt _ _ _ _ | vneg => exact vneg _ _ _ | vabs => exact vabs _ _ _
  | vcmpEq => exact vcmpEq _ _ _ _ | vcmpLt => exact vcmpLt _ _ _ _ | vcmpLe => exact vcmpLe _ _ _ _
  | vcmpUn => exact vcmpUn _ _ _ _ | vaddI => exact vaddI _ _ _ _ _ | vsubI => exact vsubI _ _ _ _ _
  | vmulI => exact vmulI _ _ _ _ _ | vminI => exact vminI _ _ _ _ | vmaxI => exact vmaxI _ _ _ _
  | vand => exact vand _ _ _ _ | vor => exact vor _ _ _ _ | vxor => exact vxor _ _ _ _ | vshl => exact vshl _ _ _ _
  | vshr => exact vshr _ _ _ _ | vsar => exact vsar _ _ _ _ | vcvt => exact vcvt _ _ _ _ _ _ _
  | vdec => exact vdec _ _ _ _ _ _ _ | venc => exact venc _ _ _ _ _ _ | vscl => exact vscl _ _ _ _ _ _
  | vsauto => exact vsauto _ _ _ _ | vsum => exact vsum _ _ _ _ _ | vrmax => exact vrmax _ _ _
  | vrmin => exact vrmin _ _ _ | vperm => exact vperm _ _ _ | vbcast => exact vbcast _ _ _
  | vext => exact vext _ _ _ _ | vins => exact vins _ _ _ _ | vsel => exact vsel _ _ _ _ | vmov => exact vmov _ _
  | vrcp => exact vrcp _ _ | vrsqrt => exact vrsqrt _ _ | vexp2 => exact vexp2 _ _ | fence => exact fence
  | fenceR => exact fenceR | fenceOwn => exact fenceOwn | done => exact done | home => exact home
  | once => exact once | _ => exact of_none rfl
/-! ### Bit 31 of a code's first word tells a lone bundle from two halves (R87) -/

/-- The first word of a lone bundle has bit 31 set, a C-slot word has it clear. -/
def marked : Code → Prop
  | .c w => fld w 31 1 = 0
  | .a _ => True
  | .lone w _ => fld w 31 1 = 1

theorem marked_codeExt (op d a b : BitVec 6) (fn : BitVec 7) (e : Half32) : marked (codeExt op d a b fn e) :=
  fmtReg_31_1 _ _ _ _ _ _

/-- The words of an instruction's code, where it has one, are marked so. -/
def Marked (i : Instr) : Prop := ∀ c, encode i = some c → marked c

theorem Marked.of {i : Instr} {c : Code} (h : encode i = some c) (m : marked c) : Marked i := fun _ e => by
  rw [h] at e
  cases e
  exact m

theorem Marked.of_none {i : Instr} (h : encode i = none) : Marked i := fun _ e => by simp [h] at e

theorem marked_encode (i : Instr) : Marked i := by
  cases i with
  | br | brq => exact .of rfl (fmtBrc_31_1 _ _ _ _)
  | bra => exact .of rfl (fmtFar_31_1 _ _)
  | callLabel => exact .of rfl (fmtLink_31_1 _ _ _)
  | ld | st | feClr => exact .of rfl (fmtMem_31_1 _ _ _ _ _)
  | ldIdx | stIdx => exact .of rfl (fmtIdx_31_1 _ _ _ _ _ _)
  | jmp | callReg | ret | brt | amo | red | fenceFar | bar | rget | rput | mig | fence | fenceR | fenceOwn | done
  | home => exact .of rfl (fmtReg_31_1 _ _ _ _ _ _)
  | nop => exact .of (c := .c 0) rfl rfl
  | add | sub | andR | orR | xorR | andn | shl | shr | sar | minR | maxR | mul | mulh | div | rem | cmp | cmpImm
  | sel | extN64 | extI64 | ins | clz | ctz | popc | addImm | mov | andImm | orImm | xorImm | shlImm | shrImm
  | sarImm | mulImm => exact .of rfl trivial
  | once => exact .of (c := .lone 0x80000000 0) rfl rfl
  | li => exact .of rfl (fmtLong_31_1 _ _ _ _)
  | trap | tret | sysr | sysw | sysrFexc | syswItin | spill | fill | tlbinv | idle | send | spawn | sync | syncEnd
  | post | steal | tnum | tnset | tndrain | tnsave | tnload | stow | unstow | eins | efind | emrg | eeq | esettle
  | ematch | ecost | enode | eclass | mma | mrot | mrotMem | mzero | mmovF32ToV | mmovBf16ToV | mmovF16ToV
  | mmovF32Store | mmovBf16Store | mmovF16Store | mmovF32Load | mtab | cpy | cwait | cany | cfirst | vaddF | vsubF
  | vmulF | vdiv | vfma | vminF | vmaxF | vsqrt | vneg | vabs | vcmpEq | vcmpLt | vcmpLe | vcmpUn | vaddI | vsubI
  | vmulI | vminI | vmaxI | vand | vor | vxor | vshl | vshr | vsar | vcvt | vdec | venc | vscl | vsauto | vsum
  | vrmax | vrmin | vperm | vbcast | vext | vins | vsel | vmov | vrcp | vrsqrt | vexp2
    => exact .of rfl (marked_codeExt _ _ _ _ _ _)
  | _ => exact .of_none rfl

/-! ### The two words of a bundle (R87) -/

theorem fst_append (w1 w0 : Half32) : fld (w1 ++ w0 : Word) 0 32 = w0 := fld_eq fun i hi => by
  rw [BitVec.getLsbD_append, Nat.zero_add, if_pos hi]

theorem snd_append (w1 w0 : Half32) : fld (w1 ++ w0 : Word) 32 32 = w1 := fld_eq fun i _ => by
  rw [BitVec.getLsbD_append, if_neg (by omega), Nat.add_sub_cancel_left]

theorem top_append (w1 w0 : Half32) : fld (w1 ++ w0 : Word) 31 1 = fld w0 31 1 := fld_eq fun i hi => by
  rw [BitVec.getLsbD_append, if_pos (by omega), getLsbD_fld]
  simp [hi]

theorem fld_top (w : Half32) : fld w 31 1 = if w.getLsbD 31 then 1 else 0 := by
  refine fld_eq fun i hi => ?_
  obtain rfl : i = 0 := by omega
  cases w.getLsbD 31 <;> rfl

theorem decodeBundle_lone {w0 : Half32} (w1 : Half32) (h : fld w0 31 1 = 1) :
    decodeBundle (w1 ++ w0) = (inPart .lone (decodeLone w0 w1)).map .lone := by
  simp only [decodeBundle, top_append, fst_append, snd_append, h, if_pos]
  cases decodeLone w0 w1 <;> rfl

theorem decodeBundle_short {w0 : Half32} (w1 : Half32) (h : fld w0 31 1 = 0) :
    decodeBundle (w1 ++ w0) = (inPart .c (decodeC w0)).bind fun c => (inPart .a (decodeA w1)).map (.short c) := by
  simp only [decodeBundle, top_append, fst_append, snd_append, h]
  cases decodeC w0 <;> cases decodeA w1 <;> rfl

/-! ### Reserved opcodes (R98 to R101) -/

/-- The width of a memory form is part of its opcode. -/
theorem width_op (w : Half32) : fld w 25 3 = fld (fld w 25 6) 0 3 :=
  fld_eq fun i hi => by simp [show i < 6 by omega, hi]

theorem decodeC_reserved {w : Half32} {op : BitVec 6} (hw : fld w 25 6 = op)
    (h : op.toNat ∈ [6, 7, 23, 30, 31, 37, 38, 39] ∨ 40 ≤ op.toNat) : decodeC w = .error .opcode := by
  have listed : ∀ op : BitVec 6, op.toNat ∈ [6, 7, 23, 30, 31, 37, 38, 39] ∨ 40 ≤ op.toNat →
      op ≠ 0x00 ∧ op ≠ 0x01 ∧ op ≠ 0x02 ∧ op ≠ 0x03 ∧ op ≠ 0x04 ∧ op ≠ 0x05 ∧ op ≠ 0x0D ∧ op ≠ 0x0E ∧ op ≠ 0x0F
        ∧ op ≠ 0x15 ∧ op ≠ 0x16 ∧ op ≠ 0x1D ∧ fld op 3 3 ≠ 1
        ∧ (Width.ofCode (fld op 0 3) = none ∨ fld op 3 3 ≠ 2 ∧ fld op 3 3 ≠ 3 ∧ fld op 3 3 ≠ 4) := by decide
  obtain ⟨h0, h1, h2, h3, h4, h5, hD, hE, hF, h15, h16, h1D, hload, hwidth | ⟨hst, hldx, hstx⟩⟩ := listed op h
  · have hmem (load : Bool) : decodeMem load w = .error .opcode := by
      simp only [decodeMem, width_op, hw, hwidth, orBad]
      rfl
    have hidx (load : Bool) : decodeIdx load w = .error .opcode := by
      simp only [decodeIdx, width_op, hw, hwidth, orBad]
      rfl
    simp only [decodeC, hw, h0, h1, h2, h3, h4, h5, hD, hE, hF, h15, h16, h1D, hload, if_false, hmem, hidx, ite_self]
  · simp only [decodeC, hw, h0, h1, h2, h3, h4, h5, hD, hE, hF, h15, h16, h1D, hload, hst, hldx, hstx, if_false]

theorem decodeA_marked {w : Half32} (h : fld w 31 1 = 1) : decodeA w = .error .field := by rw [decodeA, if_pos h]

theorem decodeA_reserved {w : Half32} {op : BitVec 6} (hw : fld w 25 6 = op) (h0 : fld w 31 1 = 0)
    (h : op.toNat = 6 ∨ op.toNat = 7 ∨ 20 ≤ op.toNat) : decodeA w = .error .opcode := by
  have listed : ∀ op : BitVec 6, op.toNat = 6 ∨ op.toNat = 7 ∨ 20 ≤ op.toNat →
      op ≠ 0x00 ∧ op ≠ 0x01 ∧ op ≠ 0x02 ∧ op ≠ 0x03 ∧ op ≠ 0x04 ∧ op ≠ 0x05 ∧ fld op 3 3 ≠ 1 ∧ fld op 2 4 ≠ 4 := by
    decide
  obtain ⟨h00, h1, h2, h3, h4, h5, himm, hcmp⟩ := listed op h
  have h31 : fld w 31 1 ≠ 1 := by rw [h0]; decide
  simp only [decodeA, hw, h31, h00, h1, h2, h3, h4, h5, himm, hcmp, if_false]

theorem decodeLone_reserved {w : Half32} {op : BitVec 6} (e : Half32) (hw : fld w 25 6 = op)
    (h : op.toNat ∈ [7, 17, 18, 19, 20, 21, 22, 23, 29, 30, 31, 36, 37, 38, 39, 47] ∨ 48 ≤ op.toNat) :
    decodeLone w e = .error .opcode := by
  have listed : ∀ op : BitVec 6,
      op.toNat ∈ [7, 17, 18, 19, 20, 21, 22, 23, 29, 30, 31, 36, 37, 38, 39, 47] ∨ 48 ≤ op.toNat →
      op ≠ 0x00 ∧ op ≠ 0x01 ∧ op ≠ 0x02 ∧ op ≠ 0x03 ∧ op ≠ 0x04 ∧ op ≠ 0x05 ∧ op ≠ 0x06
        ∧ (decide (fld op 3 3 = 1) || decide (op = 0x10)) = false
        ∧ (decide (op = 0x18) || decide (op = 0x19) || decide (op = 0x1A)) = false
        ∧ op ≠ 0x1B ∧ op ≠ 0x1C ∧ fld op 2 4 ≠ 8
        ∧ op ≠ 0x28 ∧ op ≠ 0x29 ∧ op ≠ 0x2A ∧ op ≠ 0x2B ∧ op ≠ 0x2C ∧ op ≠ 0x2D ∧ op ≠ 0x2E := by decide
  obtain ⟨h0, h1, h2, h3, h4, h5, h6, hheap, hmat, h1B, h1C, hcopy, h28, h29, h2A, h2B, h2C, h2D, h2E⟩ := listed op h
  simp only [decodeLone, hw, h0, h1, h2, h3, h4, h5, h6, hheap, hmat, h1B, h1C, hcopy, h28, h29, h2A, h2B, h2C, h2D, h2E,
    Bool.false_eq_true, if_false]

theorem regField_reserved : ∀ x : BitVec 6, 48 ≤ x.toNat → regField x = .error .register := by
  have reserved : ∀ x : BitVec 6, 48 ≤ x.toNat → fld x 5 1 ≠ 0 ∧ fld x 3 3 ≠ 4 ∧ fld x 3 3 ≠ 5 := by decide
  intro x hx
  obtain ⟨hg, hq, hs⟩ := reserved x hx
  simp only [regField, hg, hq, hs, if_false]

/-! ### What the halves of a bundle say of the whole -/

theorem decodeBundle_of_lone {i : Instr} {w0 w1 : Half32} (w : wellFormed i) (h : encode i = some (.lone w0 w1)) :
    decodeBundle (w1 ++ w0) = .ok (.lone i) := by
  have hd : decodeLone w0 w1 = .ok i := decodeCode_encode i _ w h
  rw [decodeBundle_lone w1 (marked_encode i _ h), hd]
  rfl

theorem decodeBundle_of_halves {c a : Instr} {wc wa : Half32} (hc : wellFormed c) (hec : encode c = some (.c wc))
    (ha : decodeA wa = .ok a) : decodeBundle (wa ++ wc) = .ok (.short c a) := by
  have hd : decodeC wc = .ok c := decodeCode_encode c _ hc hec
  rw [decodeBundle_short wa (marked_encode c _ hec), hd, ha]
  rfl

theorem decodeA_of_half {a : Instr} {wa : Half32} (ha : wellFormed a) (h : encode a = some (.a wa) ∨ a = .nop ∧ wa = 0) :
    decodeA wa = .ok a := by
  rcases h with h | ⟨rfl, rfl⟩
  · exact decodeCode_encode a _ ha h
  · rfl

theorem decodeBundle_c_refused {w0 : Half32} {r : Illegal} (w1 : Half32) (h0 : w0.getLsbD 31 = false)
    (h : decodeC w0 = .error r) : decodeBundle (w1 ++ w0) = .error (r, .c) := by
  rw [decodeBundle_short w1 (by rw [fld_top, h0]; rfl), h]
  rfl

theorem decodeBundle_a_refused {w0 w1 : Half32} {r : Illegal} (h0 : w0.getLsbD 31 = false) {c : Instr}
    (hc : decodeC w0 = .ok c) (h : decodeA w1 = .error r) : decodeBundle (w1 ++ w0) = .error (r, .a) := by
  rw [decodeBundle_short w1 (by rw [fld_top, h0]; rfl), hc, h]
  rfl

/-- A bundle that decodes to two halves has bit 31 clear, and its first word decodes to the first of them. -/
theorem decodeBundle_short_inv {w0 w1 : Half32} {c a : Instr} (h : decodeBundle (w1 ++ w0) = .ok (.short c a)) :
    w0.getLsbD 31 = false ∧ decodeC w0 = .ok c := by
  cases h0 : w0.getLsbD 31 with
  | true =>
    rw [decodeBundle_lone w1 (by rw [fld_top, h0]; rfl)] at h
    cases hd : decodeLone w0 w1 <;> rw [hd] at h <;> cases h
  | false =>
    rw [decodeBundle_short w1 (by rw [fld_top, h0]; rfl)] at h
    cases hd : decodeC w0 with
    | error r => rw [hd] at h; cases h
    | ok x =>
      cases ha : decodeA w1 <;> rw [hd, ha] at h <;> cases h
      exact ⟨rfl, rfl⟩

/-- Settles O1: every code is read back, by the cases of the instruction; the reserved opcodes are those for which each
decoder's chain of majors comes to its end. -/
theorem encodedBundlesDecodeAndReservedWordsDoNot : Obligations.EncodedBundlesDecodeAndReservedWordsDoNot := by
  unfold Obligations.EncodedBundlesDecodeAndReservedWordsDoNot
  refine ⟨fun i w0 w1 w h => decodeBundle_of_lone w h,
    fun c a wc wa hc ha hec hea => decodeBundle_of_halves hc hec (decodeA_of_half ha hea),
    fun w0 w1 => ⟨fun h0 h => decodeBundle_c_refused w1 h0 (decodeC_reserved rfl h), fun c hc => ?_, fun h0 h => ?_,
      regField_reserved⟩⟩
  · obtain ⟨h0, hd⟩ := decodeBundle_short_inv hc
    refine ⟨fun h => ?_, fun h31 h => ?_⟩
    · exact decodeBundle_a_refused h0 hd (decodeA_marked (by rw [fld_top, if_pos h]))
    · exact decodeBundle_a_refused h0 hd (decodeA_reserved rfl (by rw [fld_top, h31]; rfl) h)
  · rw [decodeBundle_lone w1 (by rw [fld_top, if_pos h0]), decodeLone_reserved w1 rfl h]
    rfl

/-- Settles O2: the decoder run on each of the bundles. -/
theorem bundlesWrittenInTheSpecDecode : Obligations.BundlesWrittenInTheSpecDecode := by
  unfold Obligations.BundlesWrittenInTheSpecDecode
  decide

end Sys2Proof.Laws.EncodeDecode
end

section
/-!
PROOFS. A bundle with a word for a queue (O10), where a thread does not stand at its place in the table of threads.
-/

namespace Sys2Proof.Machine

/-- The tests' thread, which owes five words to queue 0, behind a thread of a higher number in the table of threads; its
slot is the queue's producer. -/
def outOfOrder : State :=
  let word : BitVec 3 × Word := (0, 0)
  let owes : Thread := { Tests.bench.me with
    undo := some { regs := Regs.fresh, flags := 0, pops := [], pushes := List.replicate 5 word, order := 0 } }
  { Tests.bench with
    threads := [(2, { Thread.blank with launch := 1 }), (1, owes)]
    launches := tput Tests.bench.launches 1 { Tests.bench.myLaunch with qmap := 1 } }

/-- A word for queue 0. -/
def pushesZero : Instr := .li (.q 0) .zero 0

theorem outOfOrder_room : outOfOrder.atBundle ∧ ∀ o ∈ operands pushesZero, outOfOrder.available o := by decide

theorem outOfOrder_parks : outOfOrder.issues .lone pushesZero = false := by decide

/-- Refutes O10: the statement has no premise that a thread stands once in the table of threads, or that the table is in rising
order. Where it is not, opening the bundle enters its thread a second time, so the words that the thread owes to a queue are
counted twice, and a bundle that pushes to the queue parks although the queue had room for its word. -/
theorem not_availableOperandsIssueAndTrapsComeInOrder : ¬ Obligations.AvailableOperandsIssueAndTrapsComeInOrder := by
  unfold Obligations.AvailableOperandsIssueAndTrapsComeInOrder
  rintro ⟨-, available, -⟩
  have issued := available outOfOrder .lone pushesZero none rfl outOfOrder_room.1 outOfOrder_room.2 (by simp)
  rw [outOfOrder_parks] at issued
  cases issued

end Sys2Proof.Machine
end

section
/-!
PROOFS. The instructions that act on registers, predicates and the program counter alone (O11, O12, O7, O9): each is the issue of
its bundle, and its effect is one write or one transfer.
-/

namespace Sys2Proof.Machine

open Sys2Proof.Laws.EncodeDecode Sys2Proof.Laws.Encode

/-! ### `nop` (R102) -/

/-- A bundle that looks for no bank is posed as it is opened. -/
theorem opening_of_unused {s : State} {p : Part} {i : Instr} (hb : s.atBundle = true) (hu : usesBank i = false) :
    s.opening p i = s.posed i := by
  obtain ⟨hme, -, hunit, -⟩ := atBundle_parts hb
  rw [State.opening, State.opened_alone hme hunit, State.bindNow]
  simp only [List.any_cons, hu, List.any_nil, Bool.or_self, Bool.false_and, Bool.false_eq_true, if_false]
  rw [State.posed, State.meIn, bankSought_of_unused hu]

/-- Nothing stops the bundle of a `nop`. -/
theorem nop_issues {s : State} (hb : s.atBundle = true) : s.issues .c .nop = true := by
  have hc : (s.posed .nop).issueChecks [(.c, .nop)] = none := by
    simp [State.issueChecks, firstStop_eq_none, doubleWrite, overHalves_alone, inHalf_eq_none, State.illegalOperand, operands,
      State.unbound, State.notAtHome, homeOnlyInstr, State.noTumbler, tumblerOf]
  have hf : (s.posed .nop).firstStopOf [(.c, .nop)] = none := by
    rw [State.firstStopOf, hc]
    rfl
  rw [State.issues, hb, opening_of_unused hb rfl, hf]
  rfl

theorem exec_nop {s : State} (hi : s.issues .c .nop = true) : ∃ c, exec .nop s = .next (s.wentTo .nop (s.me.pc + 8) c) := by
  obtain ⟨c, hc⟩ := finish_went hi (s.me.pc + 8)
  exact ⟨c, by rw [show exec .nop s = issue .c .nop id s from rfl, issue_alone hi, id, hc]⟩

/-- A word of major 0 with its other bits clear is the zero word. -/
theorem eq_zero_of_fields {w : Half32} (hm : w.extractLsb' 25 7 = 0) (h : fld w 0 25 = 0) : w = 0 := by
  have low : w.toNat % 2 ^ 25 = 0 := by simpa [fld, BitVec.toNat_eq] using h
  have high : w.toNat >>> 25 % 2 ^ 7 = 0 := by simpa [BitVec.toNat_eq] using hm
  have := w.isLt
  apply BitVec.eq_of_toNat_eq
  rw [Nat.shiftRight_eq_div_pow] at high
  change w.toNat = 0
  omega

/-- Major 0 is reserved in both slots but for the zero word. -/
theorem major0_reserved {w : Half32} (hm : w.extractLsb' 25 7 = 0) (hw : w ≠ 0) :
    w.getLsbD 31 = false ∧ decodeC w = .error .field ∧ decodeA w = .error .field := by
  have hlow : fld w 0 25 ≠ 0 := fun h => hw (eq_zero_of_fields hm h)
  have bit (i : Nat) (hi : i < 7) : w.getLsbD (25 + i) = false := by
    have h := congrArg (BitVec.getLsbD · i) hm
    simpa [hi] using h
  have hop : fld w 25 6 = 0x00 := fld_eq fun i hi => by
    rw [bit i (by omega)]
    simp
  have h31 : w.getLsbD 31 = false := bit 6 (by omega)
  have hn : need (decide (fld w 0 25 = 0)) Illegal.field = .error .field := by
    rw [decide_eq_false hlow]
    rfl
  refine ⟨h31, ?_, ?_⟩
  · simp only [decodeC, hop, if_pos, hn]
    rfl
  · simp only [decodeA, fld_top, h31, hop, if_pos, hn]
    rfl

/-- A turn takes one issue of its slot. -/
theorem slot_takeTurn (s : State) (c tid : Nat) {n : Nat} (h : n < 16) :
    (s.takeTurn c n tid).slot c n = { s.slot c n with issued := s.clock + 1 } := by
  change Core.slot (State.core (s.modCore c fun x => ({ x with last := n } : Core).modSlot n fun y =>
    { y with issued := s.clock + 1 }) c) n = _
  rw [State.core_modCore_self, Core.slot_modSlot _ _ h]
  rfl

/-- Settles O11: the zero word in both decoders, and the issue of a bundle without operands. -/
theorem nopIsTheZeroWordAndDoesNothing : Obligations.NopIsTheZeroWordAndDoesNothing := by
  unfold Obligations.NopIsTheZeroWordAndDoesNothing
  have zeroA : decodeA 0 = .ok .nop := rfl
  refine ⟨rfl, rfl, fun c w hc he => decodeBundle_of_halves hc he zeroA,
    fun a w ha he => decodeBundle_of_halves (c := .nop) (wc := 0) (by decide) rfl (decodeCode_encode a _ ha he),
    fun w w' hm hw => ?_, fun s hb => ⟨rfl, exec_nop (nop_issues hb)⟩, fun s c n tid hn => slot_takeTurn s c tid hn⟩
  obtain ⟨h31, hc, ha⟩ := major0_reserved hm hw
  exact ⟨⟨_, decodeBundle_c_refused w' h31 hc⟩, ⟨_, decodeBundle_a_refused (c := .nop) (by decide) rfl ha⟩⟩

/-! ### Transfers (R116 to R118) -/

theorem finish_goto {s : State} {p : Part} {i : Instr} (h : s.issues p i) (a : Word) :
    ∃ c, ((s.inWith i (s.meIn i) [] (s.me.pc + 8)).goto a).finish = s.wentTo i a c := by
  rw [goto_inWith, finish_inWith]
  · exact ⟨_, rfl⟩
  · exact issues_pending h
  · rfl
  · rfl

section
variable {s : State} {i : Instr} {a : Word}

/-- An instruction that only goes somewhere. -/
theorem exec_goto (hi : s.issues .c i) {eff : State → State} (he : exec i s = issue .c i eff s)
    (ha : eff (s.inWith i (s.meIn i) [] (s.me.pc + 8)) = (s.inWith i (s.meIn i) [] (s.me.pc + 8)).goto a) :
    ∃ c, exec i s = .next (s.wentTo i a c) := by
  obtain ⟨c, hc⟩ := finish_goto hi a
  exact ⟨c, by rw [he, issue_alone hi, ha, hc]⟩

/-- One that goes to a where b holds, and on to the next bundle where not. -/
theorem exec_branch (hi : s.issues .c i) {eff : State → State} (he : exec i s = issue .c i eff s) {b : Bool}
    (ha : eff (s.inWith i (s.meIn i) [] (s.me.pc + 8))
      = if b then (s.inWith i (s.meIn i) [] (s.me.pc + 8)).goto a else s.inWith i (s.meIn i) [] (s.me.pc + 8)) :
    ∃ c, exec i s = .next (s.wentTo i (if b then a else s.me.pc + 8) c) := by
  cases b with
  | true => exact exec_goto hi he ha
  | false =>
    obtain ⟨c, hc⟩ := finish_went hi (s.me.pc + 8)
    exact ⟨c, by rw [he, issue_alone hi, ha]; exact congrArg _ hc⟩

/-- A call links the address of the next bundle. -/
theorem exec_call (hi : s.issues .c i) {eff : State → State} (he : exec i s = issue .c i eff s) {d : Reg}
    (ha : eff (s.inWith i (s.meIn i) [] (s.me.pc + 8))
      = ((s.inWith i (s.meIn i) [] (s.me.pc + 8)).setDst d (s.me.pc + 8)).goto a) :
    ∃ c, exec i s = .next (s.wroteTo i d (s.me.pc + 8) 0 a c) := by
  obtain ⟨c, hc⟩ := finish_wroteTo hi d (s.me.pc + 8) a 0
  exact ⟨c, by rw [he, issue_alone hi, ha]; exact congrArg _ hc⟩

end

/-- The target of a branch, from the address of the issuing bundle (R95). -/
theorem branchTarget_inWith (s : State) (i : Instr) (t : Thread) (ps : List (BitVec 3 × Word)) (a : Word) {k : Bool} {w : Nat}
    (o : BitVec w) : (s.inWith i t ps a k).branchTarget w o = s.me.pc + 8 * o.signExtend 64 := by
  rw [State.branchTarget, BitVec.mul_comm]
  rfl

/-- The low four bits of a word. -/
theorem word_and_15 (w : Word) : (w.extractLsb' 0 4).setWidth 64 = w &&& 15 := by
  apply BitVec.eq_of_toNat_eq
  simp only [BitVec.toNat_setWidth, BitVec.extractLsb'_toNat, BitVec.toNat_and, Nat.shiftRight_zero]
  rw [show (15 : Word).toNat = 2 ^ 4 - 1 from rfl, Nat.and_two_pow_sub_one_eq_mod]
  omega

/-- Settles O12: each transfer's effect is one write of the target, behind the link where it makes one. -/
theorem transfersGoToTheirTarget : Obligations.TransfersGoToTheirTarget := by
  unfold Obligations.TransfersGoToTheirTarget
  intro s d a b inv p o21 o25 o19 i dest
  refine ⟨?_, ?_⟩
  · dsimp only
    rintro (⟨rfl, rfl⟩ | ⟨rfl, rfl⟩ | ⟨rfl, rfl⟩ | ⟨rfl, rfl⟩ | ⟨rfl, rfl⟩ | ⟨rfl, rfl⟩ | ⟨rfl, rfl⟩) hi
    · exact exec_nop hi
    · have h := exec_branch (b := s.me.regs.getP p != inv) (a := s.me.pc + 8 * o21.signExtend 64) hi rfl
        (by rw [brEffect, pred_inWith, branchTarget_inWith])
      simpa only [bne_iff_ne] using h
    · exact exec_goto hi rfl (by rw [braEffect, branchTarget_inWith])
    · have h := exec_branch (b := (s.value (.q p) != 0) != inv) (a := s.me.pc + 8 * o21.signExtend 64) hi rfl
        (by rw [brqEffect, src_open, branchTarget_inWith])
      have taken : ((s.value (.q p) != 0) != inv) = true ↔ (s.value (.q p) ≠ 0) ≠ (inv = true) := by
        rw [bne_iff_ne, ne_eq, ne_eq, Bool.eq_iff_iff, bne_iff_ne, eq_iff_iff]
      simpa only [taken] using h
    · exact exec_goto hi rfl (by rw [jmpEffect, src_open])
    · exact exec_goto hi rfl (by rw [jmpEffect, src_open])
    · exact exec_goto hi rfl (by rw [brtEffect, src_open, src_open, word_and_15, BitVec.mul_comm])
  · rintro (⟨rfl, rfl⟩ | ⟨rfl, rfl⟩) hi
    · exact exec_call hi rfl (by rw [callLabelEffect, branchTarget_inWith]; rfl)
    · exact exec_call hi rfl (by rw [callRegEffect, src_open]; rfl)

/-! ### Word operations and immediates (R97, R103, R119, R121) -/

/-- A count of 64 or more shifts every bit out. -/
theorem shlOp_eq (x y : Word) : shlOp x y = x <<< y.toNat := by
  rw [shlOp]
  split
  · rfl
  · next h => exact (BitVec.shiftLeft_eq_zero (by omega)).symm

theorem shrOp_eq (x y : Word) : shrOp x y = x >>> y.toNat := by
  rw [shrOp]
  split
  · rfl
  · next h => exact (BitVec.ushiftRight_eq_zero (by omega)).symm

theorem sarOp_eq (x y : Word) : sarOp x y = x.sshiftRight y.toNat := by
  rw [sarOp]
  split
  · rfl
  · next h =>
    refine BitVec.eq_of_getLsbD_eq fun j hj => ?_
    rw [BitVec.getLsbD_sshiftRight, if_neg (show ¬ y.toNat + j < 64 by omega), decide_eq_false (by omega : ¬ 64 ≤ j)]
    cases x.msb with
    | true => rw [if_pos rfl, BitVec.getLsbD_allOnes, decide_eq_true hj]; rfl
    | false => simp

theorem liValue_localSpace (w : BitVec 48) : liValue .localSpace w = 0x8000000000000000 ||| w.setWidth 64 := by
  apply BitVec.eq_of_toNat_eq
  have hw := w.isLt
  rw [liValue, BitVec.toNat_append, BitVec.toNat_or, BitVec.toNat_setWidth, Nat.mod_eq_of_lt (by omega)]
  rfl

/-- One that writes a function of one source. -/
theorem exec_unary {s : State} {p : Part} {i : Instr} {d a : Reg} (hi : s.issues p i) {f : Word → Word}
    (he : exec i s = issue p i (unEffect d a f) s) : ∃ c, exec i s = .next (s.wrote i d (f (s.value a)) 0 c) :=
  exec_result (r := (f (s.value a), 0)) hi he (by rw [unEffect, src_open]; rfl)

theorem exec_li {s : State} {d : Reg} {hx : LiTop} {w : BitVec 48} (hi : s.issues .lone (.li d hx w)) :
    ∃ c, exec (.li d hx w) s = .next (s.wrote (.li d hx w) d (liValue hx w) 0 c) :=
  exec_result (r := (liValue hx w, 0)) hi rfl rfl

/-- Settles O7: a binary, a unary or a constant result. -/
theorem wordOperationsAndImmediates : Obligations.WordOperationsAndImmediates := by
  unfold Obligations.WordOperationsAndImmediates
  refine ⟨?_, ?_⟩
  · rintro s d a b i v (⟨rfl, rfl⟩ | ⟨rfl, rfl⟩ | ⟨rfl, rfl⟩ | ⟨rfl, rfl⟩ | ⟨rfl, rfl⟩ | ⟨rfl, rfl⟩ | ⟨rfl, rfl⟩) hi
    · exact exec_binary hi rfl
    · exact exec_binary hi rfl
    · exact exec_binary hi rfl
    · exact exec_binary (f := fun x y => x &&& ~~~y) hi rfl
    · rw [← shlOp_eq]
      exact exec_binary hi rfl
    · rw [← shrOp_eq]
      exact exec_binary hi rfl
    · rw [← sarOp_eq]
      exact exec_binary hi rfl
  · rintro s d a m k w i p v (⟨rfl, ⟨rfl, rfl⟩ | ⟨rfl, rfl⟩ | ⟨rfl, rfl⟩ | ⟨rfl, rfl⟩ | ⟨rfl, rfl⟩ | ⟨rfl, rfl⟩ | ⟨rfl, rfl⟩
      | ⟨rfl, rfl⟩ | ⟨rfl, rfl⟩⟩ | ⟨rfl, ⟨rfl, rfl⟩ | ⟨rfl, rfl⟩ | ⟨rfl, rfl⟩⟩) hi
    · exact exec_unary (f := fun x => x + m.signExtend 64) hi rfl
    · exact exec_unary (f := fun x => x + m.signExtend 64) hi rfl
    · exact exec_unary (f := fun x => x &&& m.signExtend 64) hi rfl
    · exact exec_unary (f := fun x => x ||| m.signExtend 64) hi rfl
    · exact exec_unary (f := fun x => x ^^^ m.signExtend 64) hi rfl
    · exact exec_unary (f := fun x => x * m.signExtend 64) hi rfl
    · exact exec_unary (f := fun x => x <<< k.toNat) hi rfl
    · exact exec_unary (f := fun x => x >>> k.toNat) hi rfl
    · exact exec_unary (f := fun x => x.sshiftRight k.toNat) hi rfl
    · exact exec_li hi
    · exact exec_li hi
    · rw [← liValue_localSpace]
      exact exec_li hi

/-! ### Compare and select (R91, R122, R123) -/

/-- A relation's value, from its condition's meaning. -/
theorem relation_eq {cc : Sys2Proof.Cond} {r : Bool} {x y : Int}
    (h : cc = .eq ∧ (r = true ↔ x = y) ∨ cc = .ne ∧ (r = true ↔ x ≠ y) ∨ cc = .lt ∧ (r = true ↔ x < y)
      ∨ cc = .le ∧ (r = true ↔ x ≤ y) ∨ cc = .gt ∧ (r = true ↔ x > y) ∨ cc = .ge ∧ (r = true ↔ x ≥ y)) :
    relation cc x y = r := by
  rw [Bool.eq_iff_iff]
  rcases h with ⟨rfl, h⟩ | ⟨rfl, h⟩ | ⟨rfl, h⟩ | ⟨rfl, h⟩ | ⟨rfl, h⟩ | ⟨rfl, h⟩ <;> rw [h, relation, decide_eq_true_iff]

theorem cmpRead_typed {uns w32 : Bool} {ty : CmpTy}
    (h : (uns, w32, ty) ∈ [(false, false, CmpTy.i64), (true, false, .n64), (false, true, .i32), (true, true, .n32)]) (x : Word) :
    cmpRead ty x = typed uns w32 x := by
  rw [← readOp_eq]
  simp only [List.mem_cons, Prod.mk.injEq, List.not_mem_nil, or_false] at h
  rcases h with ⟨rfl, rfl, rfl⟩ | ⟨rfl, rfl, rfl⟩ | ⟨rfl, rfl, rfl⟩ | ⟨rfl, rfl, rfl⟩ <;> rfl

/-- An instruction that judges a predicate. -/
theorem exec_judge {s : State} {i : Instr} (hi : s.issues .a i) {eff : State → State} (he : exec i s = issue .a i eff s)
    {n : BitVec 3} {b : Bool}
    (hr : eff (s.inWith i (s.meIn i) [] (s.me.pc + 8)) = (s.inWith i (s.meIn i) [] (s.me.pc + 8)).setPred n b) :
    ∃ c, exec i s = .next (s.judged i n b c) := by
  obtain ⟨c, hc⟩ := finish_judged hi n b
  exact ⟨c, by rw [he, issue_alone hi, hr, hc]⟩

/-- Settles O9: the relation of the two values as the type reads them. -/
theorem compareWritesPredicateAndSelectReadsIt : Obligations.CompareWritesPredicateAndSelectReadsIt := by
  unfold Obligations.CompareWritesPredicateAndSelectReadsIt
  intro s d a b m p inv uns w32 r cc ty hty
  have judged {x y : Word} (h : relation cc (typed uns w32 x) (typed uns w32 y) = r) : cmpOp cc ty x y = r := by
    rw [cmpOp, cmpRead_typed hty, cmpRead_typed hty, h]
  refine ⟨⟨fun h hi => ?_, fun h hi => ?_⟩, fun hi => ?_, by rw [Regs.setP, if_pos rfl]⟩
  · exact exec_judge hi rfl (by rw [cmpEffect, src_open, src_open, judged (relation_eq h)])
  · exact exec_judge hi rfl (by rw [cmpImmEffect, src_open, judged (relation_eq h)])
  · have h := exec_result (d := d) (r := (if s.me.regs.getP p != inv then s.value a else s.value b, 0)) hi rfl
      (by rw [selEffect, pred_inWith, src_open, src_open]; rfl)
    simpa only [bne_iff_ne] using h

end Sys2Proof.Machine
end

section
/-!
PROOFS. Faults (O25): an illegal bundle raises its fault, which needs no drain, and the innermost level that absorbs it acts
(R93, R323 to R325).
-/

namespace Sys2Proof.Machine

/-! ### The level that absorbs a fault (R325) -/

theorem absorber_cons (tries n : Nat) (v : Level) (r : List (Nat × Level)) :
    (v.absorbs tries → absorber tries ((n, v) :: r) = some (n, v))
    ∧ (¬ v.absorbs tries → absorber tries ((n, v) :: r) = absorber tries r) := by
  have hc : (v.policy = 0 || (v.policy = 1 && tries < v.retries) || v.policy = 2) = true ↔ v.absorbs tries := by
    simp [Level.absorbs, or_assoc]
  exact ⟨fun h => by rw [absorber, if_pos (hc.2 h)], fun h => by rw [absorber, if_neg (fun x => h (hc.1 x))]⟩

/-- Of numbered levels the first that absorbs. -/
theorem absorber_first {tries : Nat} {ls : List Level} {n : Nat} {v : Level} (hn : ls[n]? = some v) (hv : v.absorbs tries)
    (hf : ∀ (m : Nat) (w : Level), m < n → ls[m]? = some w → ¬ w.absorbs tries) (k : Nat) :
    absorber tries ((List.range' k ls.length).zip ls) = some (k + n, v) := by
  induction ls generalizing n k with
  | nil => cases hn
  | cons x ls ih =>
    rw [List.length_cons, List.range'_succ, List.zip_cons_cons]
    cases n with
    | zero =>
      obtain rfl : x = v := Option.some.inj hn
      exact (absorber_cons tries k x _).1 hv
    | succ n =>
      rw [(absorber_cons tries k x _).2 (hf 0 x n.succ_pos rfl)]
      have h := ih (n := n) hn (fun m w hm hw => hf (m + 1) w (by omega) hw) (k + 1)
      rw [h, Nat.add_right_comm, Nat.add_assoc]

theorem absorber_none {tries : Nat} {ls : List Level} (hf : ∀ (m : Nat) (w : Level), ls[m]? = some w → ¬ w.absorbs tries) (k : Nat) :
    absorber tries ((List.range' k ls.length).zip ls) = none := by
  induction ls generalizing k with
  | nil => rfl
  | cons x ls ih =>
    rw [List.length_cons, List.range'_succ, List.zip_cons_cons, (absorber_cons tries k x _).2 (hf 0 x rfl)]
    exact ih (fun m w hw => hf (m + 1) w hw) (k + 1)

/-- A thread of the level units is offered every level. -/
theorem offered_all {l : Launch} {t : Thread} {f : Flt} (hu : t.units.isSome) (hl : f.level = none) :
    offered l t f = (List.range' 0 l.levels.length).zip l.levels := by
  obtain ⟨x, hx⟩ := Option.isSome_iff_exists.1 hu
  simp only [offered, hx, hl, List.range_eq_range']

/-! ### A fault that needs no drain (R323) -/

section
variable {s : State} {tid : Nat} {t : Thread}

/-- A thread without trips drops none. -/
theorem dropAmos_none (h : ∀ p ∈ s.net ++ s.waits, tripOf tid p = false) : s.dropAmos tid = s := by
  have hn : s.net.filter (tripOf tid) = [] := List.filter_eq_nil_iff.2 fun p hp => by simp [h p (List.mem_append_left _ hp)]
  have hw : s.waits.filter (tripOf tid) = [] := List.filter_eq_nil_iff.2 fun p hp => by simp [h p (List.mem_append_right _ hp)]
  have kn : s.net.filter (fun p => !tripOf tid p) = s.net :=
    List.filter_eq_self.2 fun p hp => by simp [h p (List.mem_append_left _ hp)]
  have kw : s.waits.filter (fun p => !tripOf tid p) = s.waits :=
    List.filter_eq_self.2 fun p hp => by simp [h p (List.mem_append_right _ hp)]
  rw [dropAmos_eq, hn, hw, kn, kw]
  rfl

theorem tripOf_of_unencumbered (h : s.unencumbered tid t = true) (p : Nat × Body) (hp : p ∈ s.net ++ s.waits) :
    tripOf tid p = false := by
  have hp := List.all_eq_true.1 ((Bool.and_eq_true _ _).mp h).2 p hp
  obtain ⟨n, b⟩ := p
  cases b with
  | amo a =>
    have ha : a.tid ≠ tid := by simpa using hp
    simp [tripOf, ha]
  | _ => rfl

/-- A thread with nothing under way leaves its waits: its own record changes no further than that it waits no more. -/
theorem leaveWaits_unencumbered (ht : tget s.threads tid = some t) (h : s.unencumbered tid t = true) :
    s.leaveWaits tid = (s.unwait tid t).modThread tid fun x => { x with wait := none, outst := none } := by
  have hd := dropAmos_none (tripOf_of_unencumbered h)
  simp only [State.unencumbered, Bool.and_eq_true, Option.isNone_iff_eq_none] at h
  obtain ⟨⟨⟨hu, ho⟩, -⟩, -⟩ := h
  unfold State.leaveWaits
  simp only [State.thread?, ht, hd, ho, hu]
  cases t.place <;> rfl

/-- Leaving waits concerns no other thread, and no store queue. -/
theorem unwait_parts (s : State) (j : Nat) (t : Thread) : (s.unwait j t).threads = s.threads ∧ (s.unwait j t).sq = s.sq := by
  unfold State.unwait
  dsimp only
  split <;> exact ⟨rfl, rfl⟩

/-- A fault that needs no drain is contained where its thread has left its waits. -/
theorem raise_unencumbered (ht : tget s.threads tid = some t) (h : s.unencumbered tid t = true) (f : Flt) :
    s.raise tid f = (s.leaveWaits tid).contain tid f
    ∧ (s.leaveWaits tid).threads = tput s.threads tid { t with wait := none, outst := none } := by
  have hl := leaveWaits_unencumbered ht h
  obtain ⟨hth, hsq⟩ := unwait_parts s tid t
  have hth' : (s.leaveWaits tid).threads = tput s.threads tid { t with wait := none, outst := none } := by
    rw [hl, State.modThread_of _ _ (by rw [hth]; exact ht), hth]
  refine ⟨?_, hth'⟩
  have hq : (s.leaveWaits tid).sqOf t.slotNow.1 t.slotNow.2 = [] := by
    simp only [State.unencumbered, Bool.and_eq_true, List.isEmpty_iff] at h
    rw [hl]
    exact (congrArg (List.filter _) hsq).trans h.1.2
  have hdrained : (s.leaveWaits tid).drained t.slotNow.1 t.slotNow.2 = true := by rw [State.drained, hq]; rfl
  have hfailed : (s.leaveWaits tid).failedSq t.slotNow.1 t.slotNow.2 = [] := by rw [State.failedSq, hq]; rfl
  have hraise : s.raise tid f = (s.leaveWaits tid).takeFault tid f := by
    rw [State.raise, show s.thread? tid = some t from ht]
    exact if_pos hdrained
  rw [hraise]
  generalize s.leaveWaits tid = u at hth' hfailed
  have hme : u.thread? tid = some { t with wait := none, outst := none } := by rw [State.thread?, hth', tget_tput_self]
  have herr : u.takeErrs tid f.bundle = (u, []) := by
    rw [State.takeErrs, hme]
    change ({ u with sq := u.sq.filter fun p => !((u.failedSq t.slotNow.1 t.slotNow.2).any fun e => e.1 == p.1) },
      (u.failedSq t.slotNow.1 t.slotNow.2).filterMap _) = _
    rw [hfailed]
    simp
  have hsame : u.modThread tid (fun x => { x with retries := t.retries }) = u := by
    rw [State.modThread_of _ _ hme, hth', tput_tput, ← hth']
  rw [State.takeFault, herr, State.containAll, hme]
  exact congrArg (·.contain tid f) hsame

/-! ### What each policy makes of it (R325) -/

/-- A change of a thread is its record's. -/
theorem modThread_const {u : State} {x : Thread} (h : tget u.threads tid = some x) (f : Thread → Thread) :
    u.modThread tid f = u.modThread tid fun _ => f x := by
  rw [State.modThread_of _ _ h, State.modThread_of _ _ h]

theorem thread_report (u : State) (die : Nat) (r : Report) : (u.report die r).threads = u.threads := by
  obtain ⟨m, hm⟩ := report_frame u die r
  rw [hm]

end

/-- A fault that no register waits for leaves a thread as it is. -/
theorem zeroed_nil (t : Thread) : t.zeroed [] = t := by
  simp [Thread.zeroed]

/-- Only a record found bad, or an uncorrectable atom, is a fault of something read. -/
theorem readNotes_of_cause (s : State) {f : Flt} (h19 : f.cause ≠ 0x19) (h26 : f.cause ≠ 0x26) : s.readNotes f = s := by
  unfold State.readNotes
  have hmet : (if f.cause = 0x19 && f.qual = 1 then s.uncorrected (s.keyOf f.detail .rd) s.myLaunch.asid else s) = s := by
    simp [h19]
  refine List.foldl_fixed' (fun i => ?_) _
  split
  · rw [if_neg h26]
    exact hmet
  · exact hmet
  · exact hmet
  · rfl

theorem partsOf_snd (is : List Instr) : (partsOf is).map Prod.snd = is := by
  unfold partsOf
  split
  · rfl
  · rw [List.map_map]
    exact List.map_id' _

/-- The bundle of instructions at a thread's program counter. -/
def Thread.bundleOf (t : Thread) (is : List Instr) : BundleInfo := { pc := t.pc, instrs := is, next := t.pc + 8 }

/-- The fault of an illegal bundle at its thread (R93, R322). -/
def Thread.illegalFault (t : Thread) (is : List Instr) (r : Illegal) (h : Part) : Flt :=
  { cause := 0x10, qual := illegalCode r, half := h, pc := t.pc, bundle := some (t.bundleOf is) }

/-- Opening a bundle notes it on its thread. -/
theorem opened_parts {s : State} {t : Thread} (ht : s.me? = some t) (hu : s.ctx.unit = none) (is : List Instr) :
    s.opened (partsOf is) = { s with
      threads := tput s.threads s.ctx.tid { t with bundle := some (t.bundleOf is) }
      ctx := { s.ctx with
        pc := t.pc, target := t.pc + 8, instrs := is, pre := t.regs, flags := t.fexc, pushes := [], taken := false } } := by
  have hme : s.me = t := by rw [State.me, ht]; rfl
  have ht' : tget s.threads s.ctx.tid = some t := ht
  simp [State.opened, partsOf_snd, hu, hme, State.modMe, State.modThread, tmod_some _ ht', Thread.bundleOf]

/-- An illegal bundle stops with its fault, named at its own bundle. -/
theorem exec_illegalBundle {s : State} {t : Thread} (ht : s.me? = some t) (hu : s.ctx.unit = none) (r : Illegal) (h : Part) :
    exec (.illegalBundle r h) s
      = .next ((s.opened (partsOf s.ctx.instrs)).raise s.ctx.tid (t.illegalFault s.ctx.instrs r h)) := by
  have hexec : exec (.illegalBundle r h) s = .next ((s.opened (partsOf s.ctx.instrs)).stopWith
      (.fault { cause := 0x10, qual := illegalCode r, half := h })) := by
    rw [show exec (.illegalBundle r h) s = execIllegalBundle r h s from rfl, execIllegalBundle, ht]
    rfl
  have hme : (s.opened (partsOf s.ctx.instrs)).me = { t with bundle := some (t.bundleOf s.ctx.instrs) } := by
    rw [opened_parts ht hu]
    exact State.me_put s _ _ _ rfl
  have hctx : (s.opened (partsOf s.ctx.instrs)).ctx.pc = t.pc ∧ (s.opened (partsOf s.ctx.instrs)).ctx.tid = s.ctx.tid := by
    rw [opened_parts ht hu]
    exact ⟨rfl, rfl⟩
  rw [hexec, State.stopWith, readNotes_of_cause _ (show (0x10 : Nat) ≠ 0x19 by decide) (show (0x10 : Nat) ≠ 0x26 by decide)]
  simp only [hme, hctx]
  rfl

/-- The fault of an illegal bundle is contained at its thread, which then waits for nothing. -/
theorem exec_illegalBundle_unencumbered {s : State} {t : Thread} (ht : s.me? = some t)
    (he : s.unencumbered s.ctx.tid t = true) (hu : s.ctx.unit = none) (r : Illegal) (h : Part) :
    exec (.illegalBundle r h) s = .next (((s.opened (partsOf s.ctx.instrs)).leaveWaits s.ctx.tid).contain s.ctx.tid
      (t.illegalFault s.ctx.instrs r h))
    ∧ tget ((s.opened (partsOf s.ctx.instrs)).leaveWaits s.ctx.tid).threads s.ctx.tid
      = some { t with bundle := some (t.bundleOf s.ctx.instrs), wait := none } := by
  have hout : t.outst = none := by
    simp only [State.unencumbered, Bool.and_eq_true, Option.isNone_iff_eq_none] at he
    exact he.1.1.2
  have hget : tget (s.opened (partsOf s.ctx.instrs)).threads s.ctx.tid
      = some { t with bundle := some (t.bundleOf s.ctx.instrs) } := by rw [opened_parts ht hu, tget_tput_self]
  have hfree : (s.opened (partsOf s.ctx.instrs)).unencumbered s.ctx.tid
      { t with bundle := some (t.bundleOf s.ctx.instrs) } = true := by
    rw [opened_parts ht hu]
    exact he
  obtain ⟨hraise, hthreads⟩ := raise_unencumbered hget hfree (t.illegalFault s.ctx.instrs r h)
  rw [exec_illegalBundle ht hu, hraise]
  refine ⟨rfl, ?_⟩
  rw [hthreads, tget_tput_self, ← hout]

section
variable {u : State} {tid : Nat} {x : Thread} {f : Flt} {b : BundleInfo}

/-- Ignored: the bundle of the fault is a no-op. -/
theorem contain_ignored (hx : tget u.threads tid = some x) {n : Nat} {v : Level}
    (ha : absorber x.retries (offered (u.launchOf x) x f) = some (n, v)) (hv : v.policy = 0) (hc : f.cause ≠ 0x20)
    (hz : f.zero = []) (hb : f.bundle = some b) (hg : x.gang = false ∨ .once ∉ b.instrs) :
    u.contain tid f = (u.report (dieOf x.coreNow) (faultReport (u.launchOf x) x f 0 n)).modThread tid fun _ => x.noop b := by
  have hskip (y : State) : y.skipUnit tid x f = y := by
    rw [State.skipUnit, hb]
    refine if_neg ?_
    rcases hg with hg | hg
    · simp [hg]
    · simp [hg]
  rw [State.contain, show u.thread? tid = some x from hx]
  simp only [ha, if_pos hv, if_neg hc, hskip]
  rw [modThread_const (by rw [thread_report]; exact hx), Thread.ignored, hb, hz]
  simp only [zeroed_nil]

/-- Retried: the bundle issues again, and is counted. -/
theorem contain_retried (hx : tget u.threads tid = some x) {n : Nat} {v : Level}
    (ha : absorber x.retries (offered (u.launchOf x) x f) = some (n, v)) (hv : v.policy = 1) (hz : f.zero = [])
    (hb : f.bundle = some b) :
    u.contain tid f = (u.report (dieOf x.coreNow) (faultReport (u.launchOf x) x f 1 n)).modThread tid fun _ =>
      { x with pc := b.pc, wait := none, retries := x.retries + 1 } := by
  have h0 : v.policy ≠ 0 := by omega
  rw [State.contain, show u.thread? tid = some x from hx]
  simp only [ha, if_neg h0, if_pos hv]
  rw [modThread_const (by rw [thread_report]; exact hx), Thread.retried, hb, hz]
  simp only [zeroed_nil]

/-- Kill self: the level's unit ends. -/
theorem contain_killed (hx : tget u.threads tid = some x) {n : Nat} {v : Level}
    (ha : absorber x.retries (offered (u.launchOf x) x f) = some (n, v)) (hv : v.policy = 2) :
    u.contain tid f = ((u.report (dieOf x.coreNow) (faultReport (u.launchOf x) x f 2 n)).killThread tid).endUnit x.launch
      (u.launchOf x) v (faultUnit (u.launchOf x) x v) := by
  have h0 : v.policy ≠ 0 := by omega
  have h1 : v.policy ≠ 1 := by omega
  rw [State.contain, show u.thread? tid = some x from hx]
  simp only [ha, if_neg h0, if_neg h1]

/-- Absorbed by no level: the launch ends. -/
theorem contain_ends (hx : tget u.threads tid = some x) (ha : absorber x.retries (offered (u.launchOf x) x f) = none) :
    u.contain tid f = (u.report (dieOf x.coreNow)
      (faultReport (u.launchOf x) x f 3 ((u.launchOf x).levels.length - 1))).endLaunch x.launch 1 := by
  rw [State.contain, show u.thread? tid = some x from hx]
  simp only [ha]

end

/-- Settles O25: the fault is contained at once, by the policy of the first level that absorbs it. -/
theorem faultsGoToTheInnermostAbsorbingLevel : Obligations.FaultsGoToTheInnermostAbsorbingLevel := by
  unfold Obligations.FaultsGoToTheInnermostAbsorbingLevel
  intro s r h t ht hunits hfree hu is s1 b me l code f report
  obtain ⟨hexec, hme⟩ : exec (.illegalBundle r h) s = .next (s1.contain s.ctx.tid (t.illegalFault is r h))
      ∧ tget s1.threads s.ctx.tid = some me := exec_illegalBundle_unencumbered ht hfree hu r h
  have hcode : illegalCode r = code := by cases r <;> rfl
  have hoff : offered l me f = (List.range' 0 l.levels.length).zip l.levels := offered_all hunits rfl
  have first (n : Nat) (v : Level) (hf : l.firstAbsorbing t.retries n v) :
      absorber me.retries (offered (s1.launchOf me) me f) = some (n, v) := by
    obtain ⟨hn, hv, hmin⟩ := hf
    exact hoff ▸ (absorber_first hn hv hmin 0).trans (by rw [Nat.zero_add])
  have contained : exec (.illegalBundle r h) s = .next (s1.contain s.ctx.tid f) := by
    rw [hexec, Thread.illegalFault, hcode]
    rfl
  clear_value code
  have hc : f.cause ≠ 0x20 := show (0x10 : Nat) ≠ 0x20 by decide
  refine ⟨fun n v hf => ⟨fun hv hg => ?_, fun hv => ?_, fun hv => ?_⟩, fun hnone => ?_⟩
  · rw [contained, contain_ignored hme (first n v hf) hv hc rfl rfl hg]
    rfl
  · rw [contained, contain_retried hme (first n v hf) hv rfl rfl]
    rfl
  · rw [contained, contain_killed hme (first n v hf) hv]
    rfl
  · have hnone' : absorber me.retries (offered (s1.launchOf me) me f) = none := hoff ▸ absorber_none hnone 0
    rw [contained, contain_ends hme hnone']
    rfl

end Sys2Proof.Machine
end

section
/-!
PROOFS. Commands on device memory, root entries, translations and patches (O55): a command that is heard is its step, a word
without errors is read and written as it is, and a change of every square or Hamper keeps all else.
-/

namespace Sys2Proof.Machine

/-! ### Commands that are heard -/

section
variable {s : State} {c : Cmd} (h : s.hears c)
include h

theorem exec_write (dev host len : Nat) (w4 : Word) :
    exec (.writeDeviceMemory c dev host len w4) s = .next (writeDeviceStep c dev host len w4 s) :=
  congrArg Host.Outcome.next (State.command_of_hears h _)

theorem exec_read (dev host len : Nat) (w4 : Word) :
    exec (.readDeviceMemory c dev host len w4) s = .next (readDeviceStep c dev host len w4 s).openHostBars :=
  congrArg Host.Outcome.next (State.command_of_hears h _)

theorem exec_rootEntry (asid : BitVec 12) (e : Word) : exec (.writeRootEntry c asid e) s = .next (rootEntryStep c asid e s) :=
  congrArg Host.Outcome.next (State.command_of_hears h _)

theorem exec_invalidate (asid : BitVec 12) (page ctl : Word) :
    exec (.invalidateTranslations c asid page ctl) s = .next (invalidateStep c asid page ctl s) :=
  congrArg Host.Outcome.next (State.command_of_hears h _)

theorem exec_patch (stack atom : Nat) : exec (.installPatch c stack atom) s = .next (patchStep c stack atom s) :=
  congrArg Host.Outcome.next (State.command_of_hears h _)

end

/-! ### Which arguments are given (R339) -/

theorem deviceOk_iff {dev len : Nat} : deviceOk dev len = true ↔ dev % 8 = 0 ∧ len % 8 = 0 ∧ 8 ≤ len ∧ dev + len ≤ hbmEnd := by
  simp [deviceOk, and_assoc]

/-- The values of `femode` that are given for a write, and for a read. -/
theorem femode_write (w : Word) : (bits w 2 62 != 0 || decide (w = 3)) = decide (3 ≤ w.toNat) := by
  have h3 : w = 3 ↔ w.toNat = 3 := by rw [← BitVec.toNat_inj]; rfl
  have hw := w.isLt
  have hb : bits w 2 62 = w.toNat / 4 := by rw [bits_div]; omega
  rw [Bool.eq_iff_iff, Bool.or_eq_true, bne_iff_ne, hb, decide_eq_true_iff, decide_eq_true_iff, h3]
  omega

theorem femode_read (w : Word) : (bits w 2 62 != 0 || decide (2 ≤ w.toNat)) = decide (2 ≤ w.toNat) := by
  have hw := w.isLt
  have hb : bits w 2 62 = w.toNat / 4 := by rw [bits_div]; omega
  rw [Bool.eq_iff_iff, Bool.or_eq_true, bne_iff_ne, hb, decide_eq_true_iff]
  omega

section
variable {s : State} {c : Cmd} {dev host len : Nat} {w4 : Word}

theorem writeDeviceStep_refused (h : deviceOk dev len = false ∨ 3 ≤ w4.toNat) :
    writeDeviceStep c dev host len w4 s = s.complete c 2 := by
  rw [writeDeviceStep, if_pos]
  rw [Bool.or_assoc, femode_write]
  rcases h with h | h <;> simp [h]

theorem readDeviceStep_refused (h : deviceOk dev len = false ∨ 2 ≤ w4.toNat) :
    readDeviceStep c dev host len w4 s = s.complete c 2 := by
  rw [readDeviceStep, if_pos]
  rw [Bool.or_assoc, femode_read]
  rcases h with h | h <;> simp [h]

theorem writeDeviceStep_waits (h : deviceOk dev len = true) (hw : w4.toNat < 3) (ho : s.rangeOpen dev len = false) :
    writeDeviceStep c dev host len w4 s = s.postpone (.writeDeviceMemory c dev host len w4) := by
  rw [writeDeviceStep, if_neg, if_pos (by simp [ho])]
  rw [Bool.or_assoc, femode_write]
  simp [h, hw]

theorem readDeviceStep_waits (h : deviceOk dev len = true) (hw : w4.toNat < 2) (ho : s.rangeOpen dev len = false) :
    readDeviceStep c dev host len w4 s = s.postpone (.readDeviceMemory c dev host len w4) := by
  rw [readDeviceStep, if_neg, if_pos (by simp [ho])]
  rw [Bool.or_assoc, femode_read]
  simp [h, hw]

/-- A write that is heard, valid and not held: its words are written one after the other. -/
theorem writeDeviceStep_open (h : deviceOk dev len = true) (hw : w4.toNat < 3) (ho : s.rangeOpen dev len = true) :
    writeDeviceStep c dev host len w4 s = match s.hostWrite dev host (len / 8) w4.toNat (len / 8) 0 with
      | (t, none) => t.complete c 0
      | (t, some n) => t.complete c 1 n := by
  rw [writeDeviceStep, if_neg, if_neg (by simp [ho])]
  · cases s.hostWrite dev host (len / 8) w4.toNat (len / 8) 0 with
    | mk t x => cases x <;> rfl
  · rw [Bool.or_assoc, femode_write]
    simp [h, hw]

end

/-! ### A write of one word or one atom -/

/-- The little-endian number of n bytes. -/
def bytesNum (f : Nat → Byte) (n : Nat) : Nat := (List.range n).foldr (fun j acc => (f j).toNat + 256 * acc) 0

theorem bytesNum_succ (f : Nat → Byte) (n : Nat) : bytesNum f (n + 1) = (f 0).toNat + 256 * bytesNum (fun j => f (j + 1)) n := by
  rw [bytesNum, List.range_succ_eq_map, List.foldr_cons, List.foldr_map]
  rfl

theorem bytesNum_byte (f : Nat → Byte) {n j : Nat} (h : j < n) : BitVec.ofNat 8 (bytesNum f n / 256 ^ j) = f j := by
  induction n generalizing f j with
  | zero => omega
  | succ n ih =>
    have h0 := (f 0).isLt
    rw [bytesNum_succ]
    cases j with
    | zero =>
      apply BitVec.eq_of_toNat_eq
      rw [pow_zero, Nat.div_one, BitVec.toNat_ofNat]
      omega
    | succ j =>
      rw [pow_succ', ← Nat.div_div_eq_div_mul, show ((f 0).toNat + 256 * bytesNum (fun j => f (j + 1)) n) / 256
        = bytesNum (fun j => f (j + 1)) n by omega]
      exact ih (fun j => f (j + 1)) (by omega)

theorem readByte_writeLE_bytesNum (m : List Host.Cell) (k n : Nat) (f : Nat → Byte) (a : Nat) :
    readByte (writeLE m k n (bytesNum f n)) a = if k ≤ a ∧ a < k + n then f (a - k) else readByte m a := by
  split
  · next h =>
    obtain ⟨j, rfl⟩ := Nat.exists_eq_add_of_le h.1
    rw [readByte_writeLE_in _ _ _ _ _ (by omega), bytesNum_byte f (by omega), Nat.add_sub_cancel_left]
  · exact readByte_writeLE_out _ _ _ _ _ (by omega)

section
variable {s : State} {dev host : Nat}

/-- One word: refused where its unit is bad. -/
theorem hostWrite_word_bad (femode : Nat) (hb : s.isBad dev 8 = true) :
    s.hostWrite dev host 1 femode 1 0 = (s.uncorrected dev, some 0) := by
  simp [State.hostWrite, hb]

/-- Else its eight bytes are stored, under `femode`. -/
theorem hostWrite_word (femode : Nat) (hb : s.isBad dev 8 = false) :
    s.hostWrite dev host 1 femode 1 0 = (s.hostStore dev 8 (bytesNum (fun j => s.hostByte (host + j)) 8) femode, none) := by
  simp [State.hostWrite, hb, bytesNum]

/-- A whole atom is stored as one. -/
theorem hostWrite_atom (femode : Nat) (h : dev % 32 = 0) :
    s.hostWrite dev host 4 femode 4 0 = (s.hostStore dev 32 (bytesNum (fun j => s.hostByte (host + j)) 32) femode, none) := by
  simp [State.hostWrite, h, bytesNum]

/-- The store of a sound word that nobody waits for. -/
theorem hostStore_word {v femode : Nat} (hs : s.sound dev 8 = true) (hu : s.unwatched dev) :
    s.hostStore dev 8 v femode = { s with
      mem := writeLE s.mem dev 8 v
      empt := if femode = 0 then sdel s.empt (dev / 8) else if femode = 1 then sadd s.empt (dev / 8) else s.empt } := by
  have hword : wordsOf dev 8 = [dev / 8 * 8] := rfl
  have hdiv : dev / 8 * 8 / 8 = dev / 8 := by omega
  simp only [State.hostStore, show (8 : Nat) ≠ 32 by decide, if_false, corrected_of_sound hs]
  split
  · rw [serveAll_calm (by rw [fillWords_frame]; exact hu), State.fillWords, hword]
    simp only [List.foldl_cons, List.foldl_nil, State.setFull, hdiv]
    rfl
  · split
    · rw [serveAll_calm (by rw [emptyWords_frame]; exact hu), State.emptyWords, hword]
      simp only [List.foldl_cons, List.foldl_nil, State.setEmpty, hdiv]
      rfl
    · rfl

end

/-! ### A read of sound words -/

theorem hostRead_sound {s : State} {dev : Nat} (n i : Nat) (h : ∀ j, i ≤ j → j < i + n → s.sound (dev + 8 * j) 8 = true) :
    s.hostRead dev n i = (s, (List.range' i n).map (fun j => (s.loadWord (dev + 8 * j), s.isFull (dev + 8 * j))), false) := by
  induction n generalizing i with
  | zero => rfl
  | succ n ih =>
    have hi := h i (Nat.le_refl i) (by omega)
    have hr := ih (i + 1) fun j h1 h2 => h j (by omega) (by omega)
    simp only [State.hostRead, isBad_of_sound hi, Bool.false_eq_true, if_false, corrected_of_sound hi, hr]
    rfl

/-- The number whose bits are those of a predicate. -/
def bitsNum (f : Nat → Bool) (n : Nat) : Nat := (List.range n).foldr (fun i acc => (if f i then 2 ^ i else 0) + acc) 0

theorem foldr_double (f : Nat → Bool) (l : List Nat) :
    l.foldr (fun i acc => (if f (i + 1) then 2 ^ (i + 1) else 0) + acc) 0
      = 2 * l.foldr (fun i acc => (if f (i + 1) then 2 ^ i else 0) + acc) 0 := by
  induction l with
  | nil => rfl
  | cons i l ih =>
    rw [List.foldr_cons, List.foldr_cons, ih, pow_succ]
    split <;> omega

theorem bitsNum_succ (f : Nat → Bool) (n : Nat) :
    bitsNum f (n + 1) = (if f 0 then 1 else 0) + 2 * bitsNum (fun i => f (i + 1)) n := by
  rw [bitsNum, List.range_succ_eq_map, List.foldr_cons, List.foldr_map, bitsNum, ← foldr_double]
  rfl

theorem testBit_bitsNum (f : Nat → Bool) {n i : Nat} (h : i < n) : (bitsNum f n).testBit i = f i := by
  induction n generalizing f i with
  | zero => omega
  | succ n ih =>
    rw [bitsNum_succ]
    cases i with
    | zero =>
      rw [Nat.testBit_zero]
      cases f 0 <;> simp
    | succ i =>
      rw [Nat.testBit_succ, show ((if f 0 then 1 else 0) + 2 * bitsNum (fun i => f (i + 1)) n) / 2
        = bitsNum (fun i => f (i + 1)) n by split <;> omega]
      exact ih (fun i => f (i + 1)) (by omega)

/-- Bit n of the full/empty bytes is the bit of word n (R339). -/
theorem feBytes_bit {fs : List Bool} {i : Nat} {b : Bool} (h : fs[i]? = some b) :
    ∃ x, (feBytes fs)[i / 8]? = some x ∧ x.getLsbD (i % 8) = b := by
  have hi : i < fs.length := (List.getElem?_eq_some_iff.1 h).1
  refine ⟨BitVec.ofNat 8 (bitsNum (fun j => fs.getD (8 * (i / 8) + j) false) 8), ?_, ?_⟩
  · rw [feBytes, List.getElem?_map, List.getElem?_range (by omega)]
    rfl
  · rw [BitVec.getLsbD_ofNat, testBit_bitsNum _ (by omega), show 8 * (i / 8) + i % 8 = i by omega, List.getD_eq_getElem?_getD, h]
    simp [show i % 8 < 8 by omega]

/-- The bytes of words that are read are those of memory. -/
theorem getElem?_wordBytes_read (s : State) (dev : Nat) {n j : Nat} (h : j < 8 * n) :
    (((List.range' 0 n).map fun i => s.loadWord (dev + 8 * i)).flatMap wordBytes)[j]? = some (readByte s.mem (dev + j)) := by
  have hk : ((List.range' 0 n).map fun i => s.loadWord (dev + 8 * i))[j / 8]? = some (s.loadWord (dev + 8 * (j / 8))) := by
    rw [List.getElem?_map, List.getElem?_range' (by omega)]
    simp
  have hb := getElem?_flatMap_wordBytes hk (show j % 8 < 8 by omega)
  rw [show 8 * (j / 8) + j % 8 = j by omega] at hb
  rw [hb, State.loadWord, extract_byte _ _ (by omega) (by omega), show dev + 8 * (j / 8) + j % 8 = dev + j by omega]

section
variable {s : State} {c : Cmd} {dev host len : Nat} {w4 : Word}

/-- A read of sound words. -/
theorem readDeviceStep_sound (h : deviceOk dev len = true) (hw : w4.toNat < 2) (ho : s.rangeOpen dev len = true)
    (hs : ∀ i, 8 * i < len → s.sound (dev + 8 * i) 8 = true) :
    let t := s.toHost host (((List.range' 0 (len / 8)).map fun i => s.loadWord (dev + 8 * i)).flatMap wordBytes)
    readDeviceStep c dev host len w4 s = (if w4 = 1 then
      t.toHost (host + len) (feBytes ((List.range' 0 (len / 8)).map fun i => s.isFull (dev + 8 * i))) else t).complete c 0 := by
  have hr := hostRead_sound (s := s) (dev := dev) (len / 8) 0 fun j _ hj => hs j (by omega)
  rw [readDeviceStep, if_neg, if_neg (by simp [ho]), hr]
  · simp only [List.map_map, Bool.false_eq_true, if_false, List.flatMap_map]
    rfl
  · rw [Bool.or_assoc, femode_read]
    simp [h, hw]

/-- What such a read leaves in host memory, before its completion word. -/
theorem readDevice_reads (hl : len % 8 = 0) :
    let t := s.toHost host (((List.range' 0 (len / 8)).map fun i => s.loadWord (dev + 8 * i)).flatMap wordBytes)
    let u := if w4 = 1 then
      t.toHost (host + len) (feBytes ((List.range' 0 (len / 8)).map fun i => s.isFull (dev + 8 * i))) else t
    u = { s with hostMem := u.hostMem }
    ∧ (∀ j < len, u.hostByte (host + j) = readByte s.mem (dev + j))
    ∧ (w4 = 0 → s.hostKept u host len)
    ∧ (w4 = 1 → ∀ i, 8 * i < len → (u.hostByte (host + len + i / 8)).getLsbD (i % 8) = s.isFull (dev + 8 * i)) := by
  intro t u
  have hlen : (((List.range' 0 (len / 8)).map fun i => s.loadWord (dev + 8 * i)).flatMap wordBytes).length = len := by
    rw [length_flatMap_wordBytes, List.length_map, List.length_range']
    omega
  have hbyte (j : Nat) (hj : j < len) : t.hostByte (host + j) = readByte s.mem (dev + j) :=
    s.hostByte_toHost_at host (getElem?_wordBytes_read s dev (by omega))
  by_cases hw : w4 = 1
  · have hu : u = t.toHost (host + len) (feBytes ((List.range' 0 (len / 8)).map fun i => s.isFull (dev + 8 * i))) := if_pos hw
    refine ⟨by rw [hu]; rfl, fun j hj => ?_, fun h0 => ?_, fun _ i hi => ?_⟩
    · rw [hu, State.hostByte_toHost_out _ _ (.inl (by omega)), hbyte j hj]
    · rw [hw] at h0
      exact absurd h0 (by decide)
    · have hget : ((List.range' 0 (len / 8)).map fun i => s.isFull (dev + 8 * i))[i]? = some (s.isFull (dev + 8 * i)) := by
        rw [List.getElem?_map, List.getElem?_range' (by omega)]
        simp
      obtain ⟨x, hx, hbit⟩ := feBytes_bit hget
      rw [hu, State.hostByte_toHost_at _ _ hx, hbit]
  · have hu : u = t := if_neg hw
    exact ⟨by rw [hu]; rfl, fun j hj => by rw [hu, hbyte j hj], fun _ => by rw [hu]; exact s.hostKept_toHost host hlen,
      fun h1 => absurd h1 hw⟩

end

/-! ### Root entries and patches (R305, R331) -/

/-- A field whose bits are zero. -/
theorem bits_zero {w : Word} {i k : Nat} (h : w.extractLsb' i k = 0) : (bits w i k != 0) = false := by
  rw [bits, h]
  rfl

theorem rootEntryStep_sound {s : State} {c : Cmd} {asid : BitVec 12} {e : Word}
    (hlow : e.extractLsb' 1 11 = 0) (hhigh : e.extractLsb' 48 16 = 0) (hp : physOk (s.rootTable.toNat + 8 * asid.toNat) = true)
    (hb : s.bankOpen (s.rootTable.toNat + 8 * asid.toNat) = true) (hs : s.sound (s.rootTable.toNat + 8 * asid.toNat) 8 = true) :
    rootEntryStep c asid e s = (s.storeWord (s.rootTable.toNat + 8 * asid.toNat) e).complete c 0 := by
  simp only [rootEntryStep, bits_zero hlow, bits_zero hhigh, hp, hb, isBad_of_sound hs, corrected_of_sound hs, Bool.or_self,
    Bool.not_true, Bool.false_eq_true, if_false]

section
variable {s : State} {c : Cmd} {stack atom : Nat}

/-- The arguments of an installation that may be carried out. -/
theorem patchArgs_valid (h1 : stack < 8) (h2 : atom % 32 = 0) (h3 : atom < hbmEnd) (h4 : stackOf atom = stack) :
    ¬ (decide (8 ≤ stack) || atom % 32 != 0 || decide (hbmEnd ≤ atom) || stackOf atom != stack) = true := by
  simp [h2, h4]
  omega

theorem patchStep_refused (h1 : stack < 8) (h2 : atom % 32 = 0) (h3 : atom < hbmEnd) (h4 : stackOf atom = stack)
    (h : 2048 ≤ (s.patched.filter fun a => stackOf a == stack).length ∨ atom ∈ s.patched) :
    patchStep c stack atom s = s.complete c 1 := by
  rw [patchStep, if_neg (patchArgs_valid h1 h2 h3 h4), if_pos (by simpa using h)]

/-- There is room for the entry, and its bank is free: the atom is read, and moves where it is sound. -/
theorem patchStep_room (h1 : stack < 8) (h2 : atom % 32 = 0) (h3 : atom < hbmEnd) (h4 : stackOf atom = stack)
    (hf : ¬ 2048 ≤ (s.patched.filter fun a => stackOf a == stack).length) (hp : atom ∉ s.patched) (hb : s.bankOpen atom = true) :
    (s.isBad atom 32 = true → patchStep c stack atom s = (s.uncorrected atom).complete c 1)
    ∧ (s.sound atom 32 = true →
        patchStep c stack atom s = ({ s with patched := sadd s.patched atom } : State).complete c 0) := by
  have hn : ¬ (decide (2048 ≤ (s.patched.filter fun a => stackOf a == stack).length) || s.patched.contains atom) = true := by
    simpa using ⟨Nat.not_le.1 hf, hp⟩
  rw [patchStep, if_neg (patchArgs_valid h1 h2 h3 h4), if_neg hn, if_neg (by simp [hb])]
  exact ⟨fun hbad => if_pos hbad, fun hs => by rw [isBad_of_sound hs, corrected_of_sound hs]; rfl⟩

end

/-! ### Translations are invalidated (R311) -/

/-- A change of several squares, each change its own idempotent. -/
theorem squares_foldl (f : Square → Square) (hf : ∀ x, f (f x) = f x) (qs : List Nat) (s : State) :
    (∃ t, qs.foldl (fun s q => s.modSquare q f) s = { s with squares := t })
    ∧ ∀ k, (qs.foldl (fun s q => s.modSquare q f) s).square k = if k ∈ qs then f (s.square k) else s.square k := by
  induction qs generalizing s with
  | nil => exact ⟨⟨s.squares, rfl⟩, fun k => by simp⟩
  | cons q qs ih =>
    obtain ⟨⟨t, ht⟩, hk⟩ := ih (s.modSquare q f)
    refine ⟨⟨t, ht⟩, fun k => ?_⟩
    rw [List.foldl_cons, hk]
    rcases eq_or_ne k q with rfl | hne
    · rw [square_modSquare_self, hf]
      simp
    · rw [square_modSquare_ne _ _ hne]
      simp [hne]

/-- A square that is not listed is clear. -/
theorem square_unlisted {s : State} {q : Nat} (h : q ∉ s.squares.map Prod.fst) : s.square q = Square.clear := by
  have hn : tget s.squares q = none := tget_eq_none_iff.2 fun p hp hq => h (List.mem_map.2 ⟨p, hp, hq⟩)
  rw [State.square, hn]
  rfl

theorem modHamper_at (s : State) (k : Nat) (f : Hamper → Hamper) {j : Nat} (h : j < 4) :
    (s.modHamper k f).hampers[j] = if j = k then f s.hampers[j] else s.hampers[j] := by
  rw [State.modHamper]
  split
  · rcases eq_or_ne j k with rfl | hne
    · rw [if_pos rfl]
      exact Vector.getElem_set_self _
    · rw [if_neg hne]
      exact Vector.getElem_set_ne (by assumption) h (Ne.symm hne)
  · rw [if_neg (by omega)]

/-- A change of several Hampers, each change its own idempotent. -/
theorem hampers_foldl (f : Hamper → Hamper) (hf : ∀ x, f (f x) = f x) (ks : List Nat) (s : State) :
    (∃ t, ks.foldl (fun s k => s.modHamper k f) s = { s with hampers := t })
    ∧ ∀ j, ∀ h : j < 4, (ks.foldl (fun s k => s.modHamper k f) s).hampers[j] = if j ∈ ks then f s.hampers[j] else s.hampers[j] := by
  induction ks generalizing s with
  | nil => exact ⟨⟨s.hampers, rfl⟩, fun j _ => by simp⟩
  | cons k ks ih =>
    obtain ⟨⟨t, ht⟩, hj⟩ := ih (s.modHamper k f)
    refine ⟨⟨t, ?_⟩, fun j h => ?_⟩
    · rw [List.foldl_cons, ht, State.modHamper]
      split <;> rfl
    · simp only [List.foldl_cons, hj j h, modHamper_at s k f h]
      by_cases hk : j = k <;> simp [hk, hf]

theorem mem_dropTrans {ts : List Trans} {asid : BitVec 12} {all big : Bool} {va : Nat} {t : Trans} :
    t ∈ dropTrans ts asid all big va ↔ t ∈ ts ∧ ¬ (t.asid = asid ∧ (all = true ∨ t.big = big
      ∧ if big then t.page / 512 = va / 2 ^ 25 else t.page = va / 65536)) := by
  rw [dropTrans, List.mem_filter, Bool.not_eq_true', ← Bool.not_eq_true]
  cases big <;> simp only [Bool.and_eq_true, Bool.or_eq_true, beq_iff_eq, if_true, Bool.false_eq_true, if_false]

theorem mem_dropWalks {ws : List ((BitVec 12 × Nat) × (Nat × Nat))} {asid : BitVec 12} {all big : Bool} {va : Nat}
    {w : (BitVec 12 × Nat) × (Nat × Nat)} :
    w ∈ dropWalks ws asid all big va ↔ w ∈ ws ∧ ¬ (w.1.1 = asid ∧ (all = true
      ∨ if big then w.1.2 / 512 = va / 2 ^ 25 else w.1.2 = va / 65536)) := by
  rw [dropWalks, List.mem_filter, Bool.not_eq_true', ← Bool.not_eq_true]
  cases big <;> simp only [Bool.and_eq_true, Bool.or_eq_true, beq_iff_eq, if_true, Bool.false_eq_true, if_false]

/-- A square without the translations and walks that an invalidation covers. -/
def Square.without (asid : BitVec 12) (all big : Bool) (va : Nat) (x : Square) : Square :=
  { x with trans := dropTrans x.trans asid all big va, walkAt := dropWalks x.walkAt asid all big va }

def Hamper.without (asid : BitVec 12) (all big : Bool) (va : Nat) (x : Hamper) : Hamper :=
  { x with trans := dropTrans x.trans asid all big va }

theorem Square.without_without (asid : BitVec 12) (all big : Bool) (va : Nat) (x : Square) :
    (x.without asid all big va).without asid all big va = x.without asid all big va := by
  simp [Square.without, dropTrans, dropWalks]

theorem Hamper.without_without (asid : BitVec 12) (all big : Bool) (va : Nat) (x : Hamper) :
    (x.without asid all big va).without asid all big va = x.without asid all big va := by
  simp [Hamper.without, dropTrans]

/-- What an invalidation leaves, before its completion word. -/
def State.invalidated (s : State) (asid : BitVec 12) (all big : Bool) (va : Nat) : State :=
  (List.range 4).foldl (fun s k => s.modHamper k (Hamper.without asid all big va))
    ((s.squares.map Prod.fst).foldl (fun s q => s.modSquare q (Square.without asid all big va)) s)

section
variable (s : State) (asid : BitVec 12) (all big : Bool) (va : Nat)

/-- Every square's unit, and every Hamper's, drops what is covered; all else is as it was. -/
theorem invalidated_parts :
    (∃ q h, s.invalidated asid all big va = { s with squares := q, hampers := h })
    ∧ (∀ q, (s.invalidated asid all big va).square q = (s.square q).without asid all big va)
    ∧ ∀ k, ∀ h : k < 4, (s.invalidated asid all big va).hampers[k] = s.hampers[k].without asid all big va := by
  obtain ⟨⟨q, hq⟩, hsq⟩ := squares_foldl (Square.without asid all big va) (Square.without_without asid all big va)
    (s.squares.map Prod.fst) s
  obtain ⟨⟨h, hh⟩, hham⟩ := hampers_foldl (Hamper.without asid all big va) (Hamper.without_without asid all big va)
    (List.range 4) ((s.squares.map Prod.fst).foldl (fun s q => s.modSquare q (Square.without asid all big va)) s)
  refine ⟨⟨q, h, by rw [State.invalidated, hh, hq]⟩, fun k => ?_, fun k hk => ?_⟩
  · rw [State.invalidated, hh]
    refine (hsq k).trans ?_
    split
    · rfl
    · next hk =>
      rw [square_unlisted hk]
      rfl
  · refine (hham k hk).trans ?_
    rw [if_pos (List.mem_range.2 hk)]
    simp only [hq]

theorem invalidateStep_valid {c : Cmd} {page ctl : Word} (h1 : ctl.toNat % 4 ≤ 1) (h2 : ctl.extractLsb' 2 2 = 0)
    (h3 : ctl.extractLsb' 6 58 = 0) :
    invalidateStep c asid page ctl s = (s.invalidated asid (ctl.getLsbD 5) (ctl.getLsbD 4) page.toNat).complete c 0 := by
  have hc : tlbControl ctl = some (ctl.getLsbD 0, ctl.getLsbD 4, ctl.getLsbD 5) := by
    have b0 : bits ctl 0 2 ≤ 1 := by rw [bits_div]; simpa using h1
    have b2 : bits ctl 2 2 = 0 := by rw [bits, h2]; rfl
    have b6 : bits ctl 6 58 = 0 := by rw [bits, h3]; rfl
    rw [tlbControl, if_pos]
    rw [b2, b6, decide_eq_true b0]
    rfl
  rw [invalidateStep, hc]
  rfl

end

/-! ### The clauses of O55 -/

section
variable {s : State} {c : Cmd} (hc : s.hears c)
include hc

/-- One word is written under its `femode`, one that is refused is not. -/
theorem write_word {dev host : Nat} {w4 : Word} (hd : dev % 8 = 0) (he : dev + 8 ≤ hbmEnd) (ho : s.rangeOpen dev 8 = true)
    (hw : w4.toNat < 3) :
    (s.isBad dev 8 = true → exec (.writeDeviceMemory c dev host 8 w4) s = .next ((s.uncorrected dev).complete c 1 0))
    ∧ (s.sound dev 8 = true → s.unwatched dev → ∃ m, exec (.writeDeviceMemory c dev host 8 w4) s =
        .next (({ s with mem := m, empt := if w4 = 0 then sdel s.empt (dev / 8) else if w4 = 1 then sadd s.empt (dev / 8)
                                           else s.empt } : State).complete c 0)
        ∧ ∀ a, readByte m a = if dev ≤ a ∧ a < dev + 8 then s.hostByte (host + (a - dev)) else readByte s.mem a) := by
  have hok : deviceOk dev 8 = true := deviceOk_iff.2 ⟨hd, rfl, Nat.le_refl 8, he⟩
  have h0 : w4.toNat = 0 ↔ w4 = 0 := by rw [← BitVec.toNat_inj]; rfl
  have h1 : w4.toNat = 1 ↔ w4 = 1 := by rw [← BitVec.toNat_inj]; rfl
  rw [exec_write hc, writeDeviceStep_open hok hw ho]
  refine ⟨fun hb => by rw [hostWrite_word_bad _ hb], fun hs hu =>
    ⟨writeLE s.mem dev 8 (bytesNum (fun j => s.hostByte (host + j)) 8), ?_, readByte_writeLE_bytesNum s.mem dev 8 _⟩⟩
  rw [hostWrite_word _ (isBad_of_sound hs), hostStore_word hs hu]
  simp only [h0, h1]

/-- A whole atom is written with fresh ECC. -/
theorem write_atom {dev host : Nat} (hd : dev % 32 = 0) (he : dev + 32 ≤ hbmEnd) (ho : s.rangeOpen dev 32 = true) :
    ∃ m, exec (.writeDeviceMemory c dev host 32 2) s = .next (({ s.healed dev 32 with mem := m } : State).complete c 0)
      ∧ ∀ a, readByte m a = if dev ≤ a ∧ a < dev + 32 then s.hostByte (host + (a - dev)) else readByte s.mem a := by
  have hok : deviceOk dev 32 = true := deviceOk_iff.2 ⟨by omega, rfl, by omega, he⟩
  rw [exec_write hc, writeDeviceStep_open hok (by decide) ho]
  refine ⟨writeLE s.mem dev 32 (bytesNum (fun j => s.hostByte (host + j)) 32), ?_, readByte_writeLE_bytesNum s.mem dev 32 _⟩
  rw [hostWrite_atom _ hd]
  rfl

theorem invalidates (asid : BitVec 12) (page ctl : Word) (h1 : ctl.toNat % 4 ≤ 1) (h2 : ctl.extractLsb' 2 2 = 0)
    (h3 : ctl.extractLsb' 6 58 = 0) :
    exec (.invalidateTranslations c asid page ctl) s
      = .next ((s.invalidated asid (ctl.getLsbD 5) (ctl.getLsbD 4) page.toNat).complete c 0) := by
  rw [exec_invalidate hc, invalidateStep_valid s asid h1 h2 h3]

end

/-- Settles O55: each command is its step, which its arguments choose. -/
theorem deviceMemoryCommandsReachTheirWords : Obligations.DeviceMemoryCommandsReachTheirWords := by
  unfold Obligations.DeviceMemoryCommandsReachTheirWords
  intro s c hc
  refine ⟨fun dev host len w4 h => ?_, fun dev host len w4 h8 hl hn he ho => ?_, fun dev host w4 h8 he ho => ?_,
    fun dev host hd he ho => write_atom hc hd he ho, fun dev host len w4 h8 hl hn he hw ho hs => ?_,
    fun asid e => fun hlow hhigh hp hb hs => ?_, fun asid page ctl h1 h2 h3 => ?_, fun stack atom h1 h2 h3 h4 hb => ?_⟩
  · have hok : deviceOk dev len = false := by
      rw [← Bool.not_eq_true, deviceOk_iff]
      omega
    rw [exec_write hc, exec_read hc, writeDeviceStep_refused (.inl hok), readDeviceStep_refused (.inl hok)]
    exact ⟨rfl, rfl⟩
  · have hok : deviceOk dev len = true := deviceOk_iff.2 ⟨h8, hl, hn, he⟩
    rw [exec_write hc, exec_read hc]
    exact ⟨fun hw => by rw [writeDeviceStep_waits hok hw ho]; rfl, fun hw => by rw [readDeviceStep_waits hok hw ho]; rfl⟩
  · refine ⟨fun hw => ?_, fun hw => ?_, fun hw => (write_word hc h8 he ho hw).1, fun hw => (write_word hc h8 he ho hw).2⟩
    · rw [exec_write hc, writeDeviceStep_refused (.inr hw)]
    · rw [exec_read hc, readDeviceStep_refused (.inr hw)]
  · have hok : deviceOk dev len = true := deviceOk_iff.2 ⟨h8, hl, hn, he⟩
    refine ⟨_, ?_, readDevice_reads hl⟩
    rw [exec_read hc, readDeviceStep_sound hok hw ho hs]
  · rw [exec_rootEntry hc, rootEntryStep_sound hlow hhigh hp hb hs]
  · obtain ⟨⟨q, h, hu⟩, hsq, hham⟩ := invalidated_parts s asid (ctl.getLsbD 5) (ctl.getLsbD 4) page.toNat
    refine ⟨_, invalidates hc asid page ctl h1 h2 h3, by rw [hu], fun k => ?_, fun k hk => ?_⟩
    · rw [hsq]
      exact ⟨rfl, fun t => mem_dropTrans, fun w => mem_dropWalks⟩
    · rw [hham k hk]
      exact ⟨rfl, fun t => mem_dropTrans⟩
  · rw [exec_patch hc]
    refine ⟨fun h => by rw [patchStep_refused h1 h2 h3 h4 h], fun hf hp hbad => ?_, fun hf hp hs => ?_⟩
    · rw [(patchStep_room h1 h2 h3 h4 hf hp hb).1 hbad]
    · rw [(patchStep_room h1 h2 h3 h4 hf hp hb).2 hs]

end Sys2Proof.Machine
end

section
/-!
PROOFS. What a fault of a thread makes of the tumblers (for O30): the end of a launch frees them, and nothing else that a fault
leads to changes one.
-/

namespace Sys2Proof.Machine

theorem SlotWork.tumblers_eq {u v : State} (w : SlotWork u v) : v.tumblers = u.tumblers := by rw [w.unchanged]

/-- A fold of what changes no tumbler changes none. -/
theorem tumblers_foldl {α : Type} {f : State → α → State} (hf : ∀ u x, (f u x).tumblers = u.tumblers) (l : List α) (s : State) :
    (l.foldl f s).tumblers = s.tumblers :=
  List.foldlRecOn l f (motive := fun u : State => u.tumblers = s.tumblers) rfl fun u hu x _ => (hf u x).trans hu

section
variable (s : State)

@[simp] theorem tumblers_postAccess (a : Access) : (s.postAccess a).tumblers = s.tumblers :=
  (SlotWork.refl.postAccess a).tumblers_eq

@[simp] theorem tumblers_report (die : Nat) (r : Report) : (s.report die r).tumblers = s.tumblers := by
  obtain ⟨m, h⟩ := report_frame s die r
  rw [h]

@[simp] theorem tumblers_dropAmos (tid : Nat) : (s.dropAmos tid).tumblers = s.tumblers := by
  rw [dropAmos_eq]
  refine tumblers_foldl (fun u p => ?_) _ _
  unfold State.dropTrip
  split
  · split
    · exact (SlotWork.refl.freeSlot _ _).tumblers_eq
    · exact (SlotWork.refl.cutRing _ _).tumblers_eq
    · rfl
  · rfl

@[simp] theorem tumblers_undoOnce (t : Thread) : (s.undoOnce t).tumblers = s.tumblers := by
  unfold State.undoOnce
  extract_lets unit pos
  split
  · rfl
  · rfl

@[simp] theorem tumblers_leaveWaits (tid : Nat) : (s.leaveWaits tid).tumblers = s.tumblers := by
  unfold State.leaveWaits
  split
  · rfl
  · extract_lets s1 s2 mine refused s3 s4 s5 s6 s7
    have h2 : s2.tumblers = s.tumblers := by
      simp only [s2]
      split
      · exact (SlotWork.refl.placeHome _ _).tumblers_eq.trans (tumblers_dropAmos s tid)
      · exact tumblers_dropAmos s tid
    have h7 : s7.tumblers = s.tumblers := by
      simp only [s7]
      split
      · exact h2
      · exact h2
    split
    · extract_lets s8 s9
      have h8 : s8.tumblers = s.tumblers := by
        refine (tumblers_foldl (fun u p => ?_) _ _).trans h7
        rfl
      have h9 : s9.tumblers = s.tumblers := by
        simp only [s9]
        split
        · exact (tumblers_undoOnce _ _).trans h8
        · exact h8
      exact h9
    · exact h7

@[simp] theorem tumblers_orphanOnce (ms : List (Nat × Thread)) (r : OnceRec) : (s.orphanOnce ms r).tumblers = s.tumblers := by
  refine tumblers_foldl (fun u p => ?_) _ _
  dsimp only
  split <;> rfl

@[simp] theorem tumblers_retireOnce (l q n : Nat) : (s.retireOnce l q n).tumblers = s.tumblers := rfl

@[simp] theorem tumblers_leaveOnce (tid : Nat) (t : Thread) : (s.leaveOnce tid t).tumblers = s.tumblers := by
  unfold State.leaveOnce
  split
  · rfl
  · refine (tumblers_foldl (fun u r => ?_) _ _).trans rfl
    split
    · exact tumblers_orphanOnce _ _ _
    · rfl

@[simp] theorem tumblers_clearFrameOf (tid k : Nat) : (s.clearFrameOf tid k).tumblers = s.tumblers := by
  unfold State.clearFrameOf
  split <;> rfl

@[simp] theorem tumblers_releaseHeld (c tid : Nat) : (s.releaseHeld c tid).tumblers = s.tumblers := by
  unfold State.releaseHeld
  dsimp only
  refine tumblers_foldl (fun u b => ?_) _ _
  split
  · split
    · rfl
    · exact tumblers_postAccess _ _
  · rfl

@[simp] theorem tumblers_refuseHeld (c : Nat) : (s.refuseHeld c).tumblers = s.tumblers := by
  obtain ⟨_, _, _, _, _, h⟩ := refuseHeld_frame s c
  rw [h]

@[simp] theorem tumblers_releaseSaved (l : Launch) : (s.releaseSaved l).tumblers = s.tumblers := by
  unfold State.releaseSaved
  dsimp only
  refine tumblers_foldl (fun u b => ?_) _ _
  split
  · split
    · rfl
    · exact tumblers_postAccess _ _
  · split
    · rfl
    · exact tumblers_postAccess _ _
  · rfl

@[simp] theorem tumblers_endTraffic (lid : Nat) (l : Launch) : (s.endTraffic lid l).tumblers = s.tumblers := by
  unfold State.endTraffic
  split
  · exact tumblers_releaseSaved s l
  · extract_lets s1 gone dead
    have h1 : s1.tumblers = s.tumblers := by
      refine tumblers_foldl (fun u c => ?_) _ _
      rw [tumblers_refuseHeld]
      refine tumblers_foldl (fun v r => ?_) _ _
      exact tumblers_releaseHeld _ _ _
    exact h1

@[simp] theorem tumblers_openBars (lid : Nat) : (s.openBars lid).tumblers = s.tumblers := by
  unfold State.openBars
  split
  · rfl
  · split
    · rfl
    · extract_lets complete opened s1
      refine (tumblers_foldl (fun u b => ?_) opened s1).trans rfl
      refine (tumblers_foldl (fun v t => ?_) _ _).trans ?_
      · rfl
      · exact tumblers_foldl (fun v t => (SlotWork.refl.pay t).tumblers_eq) _ _

@[simp] theorem tumblers_reachOnce (tid : Nat) (t : Thread) : (s.reachOnce tid t).tumblers = s.tumblers := rfl

@[simp] theorem tumblers_postOnce (t : Thread) (occ : BitVec 32) (unit : Word) (vals : List (Nat × Vec)) :
    (s.postOnce t occ unit vals).tumblers = s.tumblers := by
  unfold State.postOnce
  dsimp only
  split
  · rfl
  · rw [tumblers_retireOnce]
    refine (tumblers_foldl (fun u m => ?_) _ _).trans rfl
    refine tumblers_foldl (fun v x => ?_) _ _
    rfl

theorem tumblers_onceRecord (t : Thread) (unit : Word) (dsts : List Nat) :
    (s.onceRecord t unit dsts).1.tumblers = s.tumblers := by
  unfold State.onceRecord
  dsimp only
  split
  · rfl
  · split <;> rfl

@[simp] theorem tumblers_skipOnce (tid : Nat) (t : Thread) (b : BundleInfo) : (s.skipOnce tid t b).tumblers = s.tumblers := by
  have hr := tumblers_onceRecord s t b.pc (b.instrs.flatMap regDsts)
  unfold State.skipOnce
  dsimp only
  split
  · next h => rw [h] at hr; exact hr
  · next h =>
    rw [h] at hr
    split
    · exact hr
    · split
      · exact (tumblers_postOnce _ _ _ _ _).trans hr
      · rw [tumblers_retireOnce]
        exact (tumblers_orphanOnce _ _ _).trans hr

@[simp] theorem tumblers_skipUnit (tid : Nat) (t : Thread) (f : Flt) : (s.skipUnit tid t f).tumblers = s.tumblers := by
  unfold State.skipUnit
  split
  · split
    · exact tumblers_skipOnce _ _ _ _
    · rfl
  · rfl

/-- The end of a launch frees its tumblers, and changes them no further. -/
theorem tumblers_endLaunch (lid how : Nat) : (s.endLaunch lid how).tumblers = s.tumblers
    ∨ (s.endLaunch lid how).tumblers = s.tumblers.map fun p =>
      if p.2.owner == some lid then (p.1, { p.2 with owner := none }) else p := by
  unfold State.endLaunch
  split
  · exact .inl rfl
  · next l _ =>
    extract_lets mine s1 s2 s3 s4 s5 s6
    have h2 : s2.tumblers = s.tumblers := by
      simp only [s2, tumblers_endTraffic]
      refine tumblers_foldl (fun u p => ?_) _ _
      dsimp only
      split
      · rw [tumblers_clearFrameOf, tumblers_leaveWaits]
      · exact tumblers_leaveWaits _ _
    have h4 : s4.tumblers = s.tumblers := by
      simp only [s4]
      split
      · exact h2
      · exact h2
    have h6 : s6.tumblers = s.tumblers.map fun p =>
      if p.2.owner == some lid then (p.1, { p.2 with owner := none }) else p := by rw [← h4]
    right
    split
    · exact h6
    · exact h6

end

/-- No drain of a tumbler waits for a walk. -/
def State.walkless (s : State) : Prop := ∀ p ∈ s.tumblers, ∀ o ∈ p.2.ops, o.walk = none

namespace State.walkless
variable {s u : State}

theorem of_eq (h : s.walkless) (he : u.tumblers = s.tumblers) : u.walkless := by
  unfold State.walkless
  rw [he]
  exact h

theorem modThread (h : s.walkless) (tid : Nat) (f : Thread → Thread) : (s.modThread tid f).walkless := h

theorem endLaunch (h : s.walkless) (lid how : Nat) : (s.endLaunch lid how).walkless := by
  rcases tumblers_endLaunch s lid how with he | he
  · exact h.of_eq he
  · intro p hp
    rw [he] at hp
    obtain ⟨x, hx, rfl⟩ := List.mem_map.1 hp
    split
    · exact h x hx
    · exact h x hx

theorem foldl {α : Type} {f : State → α → State} (hf : ∀ w x, State.walkless w → (f w x).walkless) (l : List α)
    (h : s.walkless) : (l.foldl f s).walkless := List.foldlRecOn l f h fun w hw x _ => hf w x hw

theorem checkEnd (h : s.walkless) (lid : Nat) : (s.checkEnd lid).walkless := by
  unfold State.checkEnd
  split
  · exact h
  · split
    · exact h.endLaunch _ _
    · exact h

theorem endThread (h : s.walkless) (tid : Nat) : (s.endThread tid).walkless := by
  unfold State.endThread
  split
  · exact h
  · extract_lets s1 t s2 s3 s4 s5 s6 s7 s8 s9
    have h3 : s3.tumblers = s.tumblers := by
      simp only [s3]
      split
      · rw [tumblers_clearFrameOf, tumblers_leaveOnce, tumblers_leaveWaits]
      · rw [tumblers_leaveOnce, tumblers_leaveWaits]
    have h6 : s6.tumblers = s.tumblers := (tumblers_releaseHeld s3 _ _).trans h3
    have h7 : s7.tumblers = s.tumblers := by
      simp only [s7]
      split
      · exact (SlotWork.refl.freeSlot _ _).tumblers_eq.trans h6
      · exact (SlotWork.refl.cutRing _ _).tumblers_eq.trans h6
      · exact h6
      · exact h6
    have h9 : s9.tumblers = s.tumblers :=
      (tumblers_openBars s8 _).trans ((SlotWork.refl.freeEverywhere _).tumblers_eq.trans h7)
    exact (h.of_eq h9).checkEnd _

theorem killDue (h : s.walkless) (tid : Nat) : (s.killDue tid).walkless := by
  unfold State.killDue
  split
  · exact h
  · split
    · refine endThread ?_ _
      split
      · exact h
      · exact h
    · exact h.endThread _

theorem killThread (h : s.walkless) (tid : Nat) : (s.killThread tid).walkless := by
  unfold State.killThread
  split
  · exact h
  · split
    · split
      · exact h.killDue _
      · exact h
    · exact h.endThread _

theorem contain (h : s.walkless) (tid : Nat) (f : Flt) : (s.contain tid f).walkless := by
  unfold State.contain
  split
  · exact h
  · extract_lets l
    have hr (die : Nat) (r : Report) : (s.report die r).walkless := h.of_eq (tumblers_report _ _ _)
    split
    · split
      · extract_lets s1 s2
        have h1 : s1.walkless := hr _ _
        clear_value s1
        have h2 : s2.tumblers = s1.tumblers := by
          simp only [s2]
          split <;> rfl
        exact h1.of_eq ((tumblers_skipUnit _ _ _ _).trans h2)
      · split
        · exact (hr _ _).modThread _ _
        · exact foldl (fun _ _ hw => hw.killThread _) _ ((hr _ _).killThread _)
    · exact (hr _ _).endLaunch _ _

theorem containAll (h : s.walkless) (tid : Nat) (fs : List Flt) : (s.containAll tid fs).walkless :=
  foldl (fun _ _ hw => (hw.modThread _ _).contain _ _) fs h

theorem takeErrs (h : s.walkless) (tid : Nat) (b : Option BundleInfo) : (s.takeErrs tid b).1.walkless := by
  unfold State.takeErrs
  split
  · exact h
  · exact h

theorem raise (h : s.walkless) (tid : Nat) (f : Flt) : (s.raise tid f).walkless := by
  unfold State.raise
  split
  · exact h
  · have hl : (s.leaveWaits tid).walkless := h.of_eq (tumblers_leaveWaits s tid)
    dsimp only
    split
    · exact (hl.takeErrs _ _).containAll _ _
    · exact hl.modThread _ _

end State.walkless

end Sys2Proof.Machine
end

section
/-!
PROOFS. Page walks and cache lines (O30): the entry that a walk reads and what it gives (R305 to R310), the fault that a walk ends
in at the thread that waits for it, and the line that arrives for the threads that wait for it (R109, R110).
-/

namespace Sys2Proof.Machine

/-! ### The entry of a walk (R305 to R307) -/

/-- A field of zero bits is zero as a number. -/
theorem field_zero {w : Word} {i k : Nat} (h : w.extractLsb' i k = 0) : w.toNat / 2 ^ i % 2 ^ k = 0 := by
  rw [← bits_div, bits, h]
  rfl

theorem walkKey_eq (asid : BitVec 12) {page : Nat} (hp : page < 2 ^ 32) (n table : Nat) :
    walkKey asid (page * 65536) n table = table + 8 * if n = 5 then asid.toNat else if n = 4 then page / 2 ^ 25 % 128
      else if n = 3 then page / 2 ^ 18 % 128 else if n = 2 then page / 2 ^ 9 % 512 else page % 512 := by
  have hv : (BitVec.ofNat 64 (page * 65536)).toNat = page * 65536 := by
    rw [BitVec.toNat_ofNat]
    omega
  simp only [walkKey, bits_div, hv]
  have h4 : page * 65536 / 2 ^ 41 % 2 ^ 7 = page / 2 ^ 25 % 128 := by omega
  have h3 : page * 65536 / 2 ^ 34 % 2 ^ 7 = page / 2 ^ 18 % 128 := by omega
  have h2 : page * 65536 / 2 ^ 25 % 2 ^ 9 = page / 2 ^ 9 % 512 := by omega
  have h1 : page * 65536 / 2 ^ 16 % 2 ^ 9 = page % 512 := by omega
  rw [h4, h3, h2, h1]

section
variable {asid : BitVec 12} {va n : Nat} {e : Word}

/-- A valid root entry points at the table of level 0. -/
theorem walkRoot_down (hv : e.getLsbD 0 = true) (h1 : e.extractLsb' 1 4 = 0) (h5 : e.extractLsb' 5 7 = 0)
    (h48 : e.extractLsb' 48 16 = 0) (hf : (e.extractLsb' 12 36).toNat * 4096 < hbmEnd) :
    walkRoot va e = .down ((e.extractLsb' 12 36).toNat * 4096) := by
  have hlow : bits e 1 11 = 0 := by
    have := field_zero h1
    have := field_zero h5
    rw [bits_div]
    omega
  have h48' : bits e 48 16 = 0 := by rw [bits, h48]; rfl
  have hphys : physOk (bits e 12 36 * 4096) = true := decide_eq_true hf
  simp only [walkRoot, hv, hlow, h48', hphys]
  rfl

/-- Without its valid bit an entry is a fault, of either kind. -/
theorem walkEntry_invalid (hv : e.getLsbD 0 = false) :
    walkRoot va e = .fault { cause := 0x17, qual := 2, detail := BitVec.ofNat 64 va }
    ∧ walkLevel asid va n e = .fault { cause := 0x17, qual := 2, detail := BitVec.ofNat 64 va } := by
  simp only [walkRoot, walkLevel, hv]
  exact ⟨rfl, rfl⟩

variable (hv : e.getLsbD 0 = true) (h5 : e.extractLsb' 5 7 = 0) (h48 : e.extractLsb' 48 16 = 0)
  (hf : (e.extractLsb' 12 36).toNat * 4096 < hbmEnd)
include hv h5 h48 hf

/-- A valid entry without a reserved bit is a leaf or points on. -/
theorem walkLevel_valid (hl : e.getLsbD 1 = true ∨ e.extractLsb' 1 4 = 0) :
    walkLevel asid va n e = if e.getLsbD 1 then
        if n = 1 && bits e 12 4 = 0 then .leaf (leafOf asid va e false)
        else if n = 2 && bits e 12 13 = 0 then .leaf (leafOf asid va e true)
        else .fault { cause := 0x17, qual := 4, detail := BitVec.ofNat 64 va }
      else if n ≤ 1 then .fault { cause := 0x17, qual := 4, detail := BitVec.ofNat 64 va }
      else .down ((e.extractLsb' 12 36).toNat * 4096) := by
  have h5' : bits e 5 7 = 0 := by rw [bits, h5]; rfl
  have h48' : bits e 48 16 = 0 := by rw [bits, h48]; rfl
  have hphys : physOk (bits e 12 36 * 4096) = true := decide_eq_true hf
  have hleaf : (!e.getLsbD 1 && bits e 2 3 != 0) = false := by
    rcases hl with hl | hl
    · simp [hl]
    · have h1 := field_zero hl
      have : bits e 2 3 = 0 := by rw [bits_div]; omega
      simp [this]
  simp only [walkLevel, hv, h5', h48', hphys, hleaf]
  rfl

theorem walkLevel_down (h1 : e.extractLsb' 1 4 = 0) (hn : 2 ≤ n) :
    walkLevel asid va n e = .down ((e.extractLsb' 12 36).toNat * 4096) := by
  have hb : e.getLsbD 1 = false := by
    have h := congrArg (BitVec.getLsbD · 0) h1
    simpa using h
  rw [walkLevel_valid hv h5 h48 hf (.inr h1), hb, if_neg (by decide), if_neg (by omega)]

theorem walkLevel_leaf (hl : e.getLsbD 1 = true)
    (h : n = 1 ∧ e.extractLsb' 12 4 = 0 ∨ n = 2 ∧ e.extractLsb' 12 13 = 0) :
    walkLevel asid va n e = .leaf (leafOf asid va e (n == 2)) := by
  rw [walkLevel_valid hv h5 h48 hf (.inl hl), hl, if_pos rfl]
  rcases h with ⟨rfl, h⟩ | ⟨rfl, h⟩
  · have hb : bits e 12 4 = 0 := by rw [bits, h]; rfl
    simp [hb]
  · have hb : bits e 12 13 = 0 := by rw [bits, h]; rfl
    simp [hb]

end

/-! ### A walk's step -/

section
variable {s : State} {q n table : Nat} {asid : BitVec 12} {page : Nat} (hrun : (asid, page) ∈ (s.square q).walks.take 64)
  (hat : (((s.square q).walkAt.find? fun v => v.1 == (asid, page)).map Prod.snd).getD (5, s.rootTable.toNat) = (n, table))
  (hk : walkKey asid (page * 65536) n table < hbmEnd)
include hrun hat hk

omit hrun in
/-- A bank that an alert holds makes the walk wait. -/
theorem exec_pageWalk_held (hb : s.bankOpen (walkKey asid (page * 65536) n table) = false) :
    exec (.pageWalk q asid page) s = .next s := by
  have hx : exec (.pageWalk q asid page) s = .next (pageWalkStep q asid page s) := rfl
  have hp : physOk (walkKey asid (page * 65536) n table) = true := decide_eq_true hk
  rw [hx, pageWalkStep, hat]
  simp only [hp, hb, Bool.not_false, Bool.and_true, Bool.or_true, if_true]

/-- Else it reads a sound entry, and does what that gives. -/
theorem exec_pageWalk (hb : s.bankOpen (walkKey asid (page * 65536) n table) = true)
    (hs : s.sound (walkKey asid (page * 65536) n table) 8 = true) : exec (.pageWalk q asid page) s = .next (
      match if n = 5 then walkRoot (page * 65536) (s.loadWord (walkKey asid (page * 65536) n table))
        else walkLevel asid (page * 65536) n (s.loadWord (walkKey asid (page * 65536) n table)) with
      | .down next => s.modSquare q fun x => { x with
          walkAt := ((asid, page), (n - 1, next)) :: x.walkAt.filter fun v => v.1 != (asid, page) }
      | .leaf t => { s.modSquare q fun x => { x.endWalk (asid, page) with trans := addTrans s.free x.trans t } with
          free := s.free + 1 }
      | .fault f => (s.modSquare q fun x => x.endWalk (asid, page)).walkEnds q asid page f) := by
  have hx : exec (.pageWalk q asid page) s = .next (pageWalkStep q asid page s) := rfl
  have hp : physOk (walkKey asid (page * 65536) n table) = true := decide_eq_true hk
  have hc : ((s.square q).walks.take 64).contains (asid, page) = true := List.contains_iff_mem.2 hrun
  have hr : s.readEntries asid [walkKey asid (page * 65536) n table] = s := by
    simp [State.readEntries, isBad_of_sound hs, corrected_of_sound hs]
  have hw : walkEntry s asid (page * 65536) n table =
      if n = 5 then walkRoot (page * 65536) (s.loadWord (walkKey asid (page * 65536) n table))
      else walkLevel asid (page * 65536) n (s.loadWord (walkKey asid (page * 65536) n table)) := by
    simp only [walkEntry, hp, isBad_of_sound hs, Bool.not_true, Bool.false_eq_true, if_false]
  rw [hx, pageWalkStep, hat]
  simp only [hc, hp, hb, hr, hw, Bool.not_true, Bool.and_false, Bool.or_self, Bool.false_eq_true, if_false, if_true] <;>
    rfl

end

/-- What is left of a list once room for one more entry is made. -/
theorem addTrans_cons (free : Nat) (ts : List Trans) (t : Trans) : ∃ rest, addTrans free ts t = t :: rest
    ∧ (ts.length < 512 → rest = ts) ∧ (512 ≤ ts.length → ∃ k, rest = ts.eraseIdx k) := by
  rw [addTrans]
  split
  · exact ⟨ts, rfl, fun _ => rfl, fun h => by omega⟩
  · exact ⟨_, rfl, fun h => by omega, fun _ => ⟨_, rfl⟩⟩

theorem addLine_cons (free : Nat) (ls : List Line) (x : Line) : ∃ rest, addLine free ls x = x :: rest
    ∧ (ls.length < 1024 → rest = ls) ∧ (1024 ≤ ls.length → ∃ k, rest = ls.eraseIdx k) := by
  rw [addLine]
  split
  · exact ⟨ls, rfl, fun _ => rfl, fun h => by omega⟩
  · exact ⟨_, rfl, fun h => by omega, fun _ => ⟨_, rfl⟩⟩

theorem modSquare_congr {s : State} {q : Nat} {f g : Square → Square} (h : f (s.square q) = g (s.square q)) :
    s.modSquare q f = s.modSquare q g := by
  rw [State.modSquare, State.modSquare, h]

/-- The leaf of a walk for a 64 KiB page. -/
theorem leafOf_page (asid : BitVec 12) (page n : Nat) (e : Word) :
    leafOf asid (page * 65536) e (n == 2) =
      { asid := asid, page := if n = 2 then page / 512 * 512 else page, big := n == 2,
        frame := (e.extractLsb' 12 36).toNat * 4096 / 65536, x := e.getLsbD 4, w := e.getLsbD 3, rd := e.getLsbD 2 } := by
  have hbig : page * 65536 / 2 ^ 25 = page / 512 := by omega
  have hsmall : page * 65536 / 65536 = page := by omega
  simp only [leafOf, hbig, hsmall, beq_iff_eq]

/-! ### The threads that wait on a condition -/

theorem tget_of_mem {α : Type} {l : Tbl α} {k : Nat} {x : α} (hn : (l.map Prod.fst).Nodup) (h : (k, x) ∈ l) :
    tget l k = some x := by
  induction l with
  | nil => cases h
  | cons p l ih =>
    obtain ⟨j, y⟩ := p
    rw [List.map_cons, List.nodup_cons] at hn
    rcases List.mem_cons.1 h with h | h
    · cases h
      simp [tget]
    · have hne : j ≠ k := fun he => hn.1 (List.mem_map.2 ⟨_, h, he.symm⟩)
      rw [tget, if_neg hne]
      exact ih hn.2 h

theorem mem_of_tget {α : Type} {l : Tbl α} {k : Nat} {x : α} (h : tget l k = some x) : (k, x) ∈ l := by
  induction l with
  | nil => cases h
  | cons p l ih =>
    obtain ⟨j, y⟩ := p
    rw [tget] at h
    split at h
    · next he =>
      subst he
      cases h
      exact List.mem_cons_self ..
    · exact List.mem_cons_of_mem _ (ih h)

/-- A thread is among those that park on a condition just where it stands there so. -/
theorem mem_parkedOn {s : State} {q : Nat} {asid : BitVec 12} {f : Cond → Option Nat} {tid a : Nat} :
    (tid, a) ∈ s.parkedOn q asid f ↔ ∃ t c, (tid, t) ∈ s.threads ∧ t.wait = some (.cond c) ∧ squareOf t.coreNow = q
      ∧ (s.launchOf t).asid = asid ∧ f c = some a := by
  rw [State.parkedOn, List.mem_filterMap]
  constructor
  · rintro ⟨⟨k, t⟩, hp, h⟩
    split at h
    · next c hw =>
      split at h
      · next hc =>
        simp only [decide_eq_true_eq, Bool.and_eq_true] at hc
        obtain ⟨b, hb, he⟩ := Option.map_eq_some_iff.1 h
        cases he
        exact ⟨t, c, hp, hw, hc.1, hc.2, hb⟩
      · cases h
    · cases h
  · rintro ⟨t, c, hp, hw, h1, h2, hf⟩
    exact ⟨(tid, t), hp, by simp [hw, h1, h2, hf]⟩

theorem tget_tmod {α : Type} (l : Tbl α) (k j : Nat) (f : α → α) :
    tget (tmod l k f) j = if j = k then (tget l j).map f else tget l j := by
  cases hk : tget l k with
  | none =>
    have hsame : tmod l k f = l := by rw [tmod, hk]
    rw [hsame]
    split
    · next he => rw [he, hk]; rfl
    · rfl
  | some t =>
    rw [tmod_some f hk]
    split
    · next he => rw [he, tget_tput_self, hk]; rfl
    · next he => exact tget_tput_ne _ _ he

/-- An idempotent change of several threads. -/
theorem threads_foldl (f : Thread → Thread) (hf : ∀ t, f (f t) = f t) (ps : List (Nat × Nat)) (s : State) :
    (∃ th, ps.foldl (fun s p => s.modThread p.1 f) s = { s with threads := th })
    ∧ ∀ j, tget (ps.foldl (fun s p => s.modThread p.1 f) s).threads j
      = if j ∈ ps.map Prod.fst then (tget s.threads j).map f else tget s.threads j := by
  induction ps generalizing s with
  | nil => exact ⟨⟨s.threads, rfl⟩, fun j => by simp⟩
  | cons p ps ih =>
    obtain ⟨⟨th, ht⟩, hj⟩ := ih (s.modThread p.1 f)
    refine ⟨⟨th, ht⟩, fun j => ?_⟩
    have hmod : tget (s.modThread p.1 f).threads j = if j = p.1 then (tget s.threads j).map f else tget s.threads j :=
      tget_tmod s.threads p.1 j f
    rw [List.foldl_cons, hj, hmod]
    by_cases h1 : j = p.1
    · subst h1
      cases tget s.threads p.1 <;> simp [hf]
    · simp only [h1, if_false, List.map_cons, List.mem_cons, false_or]

/-! ### A cache line arrives (R109, R110) -/

/-- The threads that wait for a line. -/
def State.lineWaiters (s : State) (q : Nat) (asid : BitVec 12) (line : Nat) : List (Nat × Nat) :=
  s.parkedOn q asid fun c => match c with
    | .line a => if a / 64 = line then some a else none
    | _ => none

/-- They fetch again. -/
def State.refetch (s : State) (ps : List (Nat × Nat)) : State :=
  ps.foldl (fun s p => s.modThread p.1 fun t => { t with wait := none }) s

/-- A thread waits for a line of a square's cache. -/
def State.waitsLine (s : State) (q : Nat) (asid : BitVec 12) (line : Nat) (t : Thread) : Prop :=
  squareOf t.coreNow = q ∧ (s.launchOf t).asid = asid ∧ ∃ a, t.wait = some (.cond (.line a)) ∧ a / 64 = line

section
variable {s : State} {q line : Nat} {asid : BitVec 12}

theorem mem_lineWaiters {tid : Nat} : tid ∈ (s.lineWaiters q asid line).map Prod.fst
    ↔ ∃ t, (tid, t) ∈ s.threads ∧ s.waitsLine q asid line t := by
  rw [List.mem_map]
  constructor
  · rintro ⟨⟨k, a⟩, hp, rfl⟩
    obtain ⟨t, c, hm, hw, h1, h2, hf⟩ := mem_parkedOn.1 hp
    split at hf
    · next b =>
      split at hf
      · next hb => exact ⟨t, hm, h1, h2, b, hw, hb⟩
      · cases hf
    · cases hf
  · rintro ⟨t, hm, h1, h2, a, hw, ha⟩
    exact ⟨(tid, a), mem_parkedOn.2 ⟨t, _, hm, hw, h1, h2, if_pos ha⟩, rfl⟩

/-- What becomes of the threads: those that wait for the line wait no more, the others are as they were. -/
theorem refetch_parts (hn : (s.threads.map Prod.fst).Nodup) {u : State} (hu : u.threads = s.threads) :
    (∃ th, u.refetch (s.lineWaiters q asid line) = { u with threads := th })
    ∧ (∀ tid t, tget s.threads tid = some t → s.waitsLine q asid line t →
        tget (u.refetch (s.lineWaiters q asid line)).threads tid = some { t with wait := none })
    ∧ ∀ tid, (∀ t, tget s.threads tid = some t → ¬ s.waitsLine q asid line t) →
        tget (u.refetch (s.lineWaiters q asid line)).threads tid = tget s.threads tid := by
  obtain ⟨hth, hget⟩ := threads_foldl (fun t => { t with wait := none }) (fun _ => rfl) (s.lineWaiters q asid line) u
  rw [hu] at hget
  refine ⟨hth, fun tid t ht hw => ?_, fun tid hno => ?_⟩
  · rw [State.refetch, hget, if_pos (mem_lineWaiters.2 ⟨t, mem_of_tget ht, hw⟩), ht]
    rfl
  · rw [State.refetch, hget, if_neg]
    rintro hm
    obtain ⟨t, ht, hw⟩ := mem_lineWaiters.1 hm
    exact hno t (tget_of_mem hn ht) hw

theorem lineWaiters_waited (h : ∃ p ∈ s.threads, s.waitsLine q asid line p.2) :
    (s.lineWaiters q asid line).isEmpty = false := by
  obtain ⟨⟨tid, t⟩, hp, hw⟩ := h
  have hm := mem_lineWaiters.2 ⟨t, hp, hw⟩
  rw [List.isEmpty_eq_false_iff]
  intro he
  rw [he] at hm
  cases hm

/-- The step of a line. -/
theorem exec_icacheFill : exec (.icacheFill q asid line) s = .next (
    if (s.lineWaiters q asid line).isEmpty then s
    else match lookIn (s.square q).trans asid (BitVec.ofNat 64 (64 * line)) .x with
    | .hit k =>
      if !s.bankOpen k || !s.bankOpen (k + 32) then s
      else if s.isBad k 32 || s.isBad (k + 32) 32 then s.refetch (s.lineWaiters q asid line)
      else
        let s1 := (s.corrected k 32 asid).corrected (k + 32) 32 asid
        let x : Line := { asid := asid, addr := 64 * line, data := BitVec.ofNat 512 (s1.load k 64) }
        let s2 := s1.modSquare q fun y => { y with lines := addLine s1.free y.lines x }
        ({ s2 with free := s2.free + 1 } : State).refetch (s.lineWaiters q asid line)
    | _ => s.refetch (s.lineWaiters q asid line)) := rfl

variable (h : ∃ p ∈ s.threads, s.waitsLine q asid line p.2)
include h

theorem exec_icacheFill_again (hl : (∀ k, lookIn (s.square q).trans asid (BitVec.ofNat 64 (64 * line)) .x ≠ .hit k)
      ∨ ∃ k, lookIn (s.square q).trans asid (BitVec.ofNat 64 (64 * line)) .x = .hit k ∧ s.bankOpen k = true
        ∧ s.bankOpen (k + 32) = true ∧ (s.isBad k 32 = true ∨ s.isBad (k + 32) 32 = true)) :
    exec (.icacheFill q asid line) s = .next (s.refetch (s.lineWaiters q asid line)) := by
  rw [exec_icacheFill, lineWaiters_waited h, if_neg (by decide)]
  rcases hl with hl | ⟨k, hl, h1, h2, hb⟩
  · split
    · next k hk => exact absurd hk (hl k)
    · rfl
  · simp only [hl, h1, h2]
    rw [if_neg (by decide), if_pos (by simpa using hb)]

theorem exec_icacheFill_hit {k : Nat} (hl : lookIn (s.square q).trans asid (BitVec.ofNat 64 (64 * line)) .x = .hit k)
    (h1 : s.bankOpen k = true) (h2 : s.bankOpen (k + 32) = true) (h3 : s.sound k 32 = true) (h4 : s.sound (k + 32) 32 = true) :
    exec (.icacheFill q asid line) s = .next (({ s.modSquare q fun y => { y with
      lines := addLine s.free y.lines { asid := asid, addr := 64 * line, data := BitVec.ofNat 512 (readLE s.mem k 64) } } with
        free := s.free + 1 } : State).refetch (s.lineWaiters q asid line)) := by
  rw [exec_icacheFill, lineWaiters_waited h, if_neg (by decide)]
  simp only [hl, h1, h2, isBad_of_sound h3, isBad_of_sound h4, corrected_of_sound h3, corrected_of_sound h4]
  rfl

end

/-! ### A walk that ends in a fault (R310) -/

/-- The address that a thread gave a walk of a page, and the one whose bundle it fetches there. -/
def walkAddr (page : Nat) (c : Cond) : Option Nat :=
  match c with
  | .walk a => if a / 65536 = page then some a else none
  | _ => none

def fetchAddr (page : Nat) (c : Cond) : Option Nat :=
  match c with
  | .fetchWalk a => if a / 65536 = page then some a else none
  | _ => none

theorem walkEnds_eq (s : State) (q : Nat) (asid : BitVec 12) (page : Nat) (f : XFault) : s.walkEnds q asid page f =
    let s1 := (s.parkedOn q asid (walkAddr page)).foldl (fun s p => s.walkFault f p.1 p.2 false) s
    let s2 := (s.parkedOn q asid (fetchAddr page)).foldl (fun s p => s.walkFault f p.1 p.2 true) s1
    let s3 := (s.coresOf q asid).foldl (fun (s : State) c => s.modCore c fun x => x.walkFailed page f) s2
    { s3 with tumblers := s3.tumblers.map fun (p : Nat × Tumbler) =>
        if p.2.ops.isEmpty then p else (p.1, p.2.walkFailed (s.coresOf q asid) page f) } := rfl

/-- The one entry of a table that a partial map keeps. -/
theorem filterMap_single {α β : Type} {l : Tbl α} {k : Nat} {x : α} {y : β} {g : Nat × α → Option β}
    (hn : (l.map Prod.fst).Nodup) (hm : (k, x) ∈ l) (hg : g (k, x) = some y) (ho : ∀ p ∈ l, p.1 ≠ k → g p = none) :
    l.filterMap g = [y] := by
  induction l with
  | nil => cases hm
  | cons p l ih =>
    rw [List.map_cons, List.nodup_cons] at hn
    rcases List.mem_cons.1 hm with rfl | hm
    · have hrest : l.filterMap g = [] := List.filterMap_eq_nil_iff.2 fun p hp =>
        ho p (List.mem_cons_of_mem _ hp) fun he => hn.1 (List.mem_map.2 ⟨p, hp, he⟩)
      rw [List.filterMap_cons, hg, hrest]
    · have hne : p.1 ≠ k := fun he => hn.1 (List.mem_map.2 ⟨_, hm, he.symm⟩)
      rw [List.filterMap_cons, ho p (List.mem_cons_self ..) hne]
      exact ih hn.2 hm fun p hp => ho p (List.mem_cons_of_mem _ hp)

section
variable {s : State} {q : Nat} {asid : BitVec 12} {f : Cond → Option Nat}

theorem parkedOn_single {tid a : Nat} {t : Thread} {c : Cond} (hn : (s.threads.map Prod.fst).Nodup) (hm : (tid, t) ∈ s.threads)
    (hw : t.wait = some (.cond c)) (hq : squareOf t.coreNow = q) (ha : (s.launchOf t).asid = asid) (hf : f c = some a)
    (ho : ∀ p ∈ s.threads, p.1 ≠ tid → ∀ c, p.2.wait = some (.cond c) → f c = none) : s.parkedOn q asid f = [(tid, a)] := by
  refine filterMap_single hn hm (by simp [hw, hq, ha, hf]) fun p hp hne => ?_
  split
  · next c hc => simp [ho p hp hne c hc]
  · rfl

theorem parkedOn_none (ho : ∀ p ∈ s.threads, ∀ c, p.2.wait = some (.cond c) → f c = none) : s.parkedOn q asid f = [] := by
  refine List.filterMap_eq_nil_iff.2 fun p hp => ?_
  split
  · next c hc => simp [ho p hp c hc]
  · rfl

end

/-- A tumbler without a walk sees no end of one. -/
theorem walkFailed_walkless {x : Tumbler} (h : ∀ o ∈ x.ops, o.walk = none) (cores : List Nat) (page : Nat) (f : XFault) :
    x.walkFailed cores page f = x := by
  have hops : x.ops.map (fun o => { o with walk := o.walk.map fun w =>
      if (w.page == page) && (cores.contains o.core) then { w with fault := some (f.cause, f.qual) } else w }) = x.ops := by
    refine (List.map_congr_left fun o ho => ?_).trans (List.map_id _)
    rw [h o ho, Option.map_none, ← h o ho]
    rfl
  rw [Tumbler.walkFailed, hops]

theorem modCore_foldl {α : Type} (s : State) (xs : List α) (k : α → Nat) (f : α → Core → Core) :
    ∃ cs, xs.foldl (fun (s : State) x => s.modCore (k x) (f x)) s = { s with cores := cs } := by
  refine List.foldlRecOn xs _ (motive := fun u : State => ∃ cs, u = { s with cores := cs }) ⟨s.cores, rfl⟩ ?_
  rintro u ⟨cs, rfl⟩ x -
  exact ⟨_, rfl⟩

section
variable {s : State} {q page tid a : Nat} {asid : BitVec 12} {t : Thread}

/-- The fault of a walk that one thread waits for is raised there; engines note it, and no tumbler does. -/
theorem walkEnds_single {f : XFault} (hn : (s.threads.map Prod.fst).Nodup) (hm : (tid, t) ∈ s.threads)
    (hw : t.wait = some (.cond (.walk a))) (hp : a / 65536 = page) (hq : squareOf t.coreNow = q)
    (ha : (s.launchOf t).asid = asid) (hd : t.floatDue = false) (hc : f.cause ≠ 0x19)
    (ho : ∀ p ∈ s.threads, p.1 ≠ tid → ∀ b, p.2.wait ≠ some (.cond (.walk b)) ∧ p.2.wait ≠ some (.cond (.fetchWalk b)))
    (hwalk : s.walkless) : ∃ cs, s.walkEnds q asid page f = { s.raise tid
      { cause := f.cause, qual := f.qual, half := bundleHalf t.bundle, pc := (t.bundle.map BundleInfo.pc).getD t.pc,
        detail := BitVec.ofNat 64 a, bundle := t.bundle } with cores := cs } := by
  have hdata : s.parkedOn q asid (walkAddr page) = [(tid, a)] := by
    refine parkedOn_single hn hm hw hq ha (if_pos hp) fun p hp hne c hc => ?_
    cases c with
    | walk b => exact absurd hc (ho p hp hne b).1
    | _ => rfl
  have hcode : s.parkedOn q asid (fetchAddr page) = [] := by
    refine parkedOn_none fun p hp c hc => ?_
    cases c with
    | fetchWalk b =>
      by_cases hne : p.1 = tid
      · have hsame : p.2 = t := by
          have h1 := tget_of_mem hn hp
          rw [hne, tget_of_mem hn hm] at h1
          exact (Option.some.inj h1).symm
        rw [hsame, hw] at hc
        cases hc
      · exact absurd hc (ho p hp hne b).2
    | _ => rfl
  have hfault : s.walkFault f tid a false = s.raise tid
      { cause := f.cause, qual := f.qual, half := bundleHalf t.bundle, pc := (t.bundle.map BundleInfo.pc).getD t.pc,
        detail := BitVec.ofNat 64 a, bundle := t.bundle } := by
    rw [State.walkFault, show s.thread? tid = some t from tget_of_mem hn hm]
    simp only [hd, hc, if_false, Bool.false_eq_true]
  rw [walkEnds_eq, hdata, hcode]
  simp only [List.foldl_cons, List.foldl_nil, hfault]
  generalize hv : s.raise tid _ = v
  have hvw : v.walkless := hv ▸ hwalk.raise _ _
  obtain ⟨cs, hcs⟩ := modCore_foldl v (s.coresOf q asid) id fun _ x => x.walkFailed page f
  have htumblers : v.tumblers.map (fun (p : Nat × Tumbler) =>
      if p.2.ops.isEmpty then p else (p.1, p.2.walkFailed (s.coresOf q asid) page f)) = v.tumblers := by
    refine (List.map_congr_left fun p hp => ?_).trans (List.map_id _)
    rw [walkFailed_walkless (hvw p hp)]
    exact ite_self _
  refine ⟨cs, ?_⟩
  simp only [id] at hcs
  rw [hcs, htumblers]

end

/-- Settles O30: the step of a walk by what its entry gives, and the step of a line by what its look-up gives. -/
theorem pageWalksAndCacheLinesArrive : Obligations.PageWalksAndCacheLinesArrive := by
  unfold Obligations.PageWalksAndCacheLinesArrive
  refine ⟨?_, ?_, ?_⟩
  · intro s q asid page n table e hrun hp w frame hat k hk
    have hkey : walkKey asid (page * 65536) n table = k := walkKey_eq asid hp n table
    have hk' : walkKey asid (page * 65536) n table < hbmEnd := hkey ▸ hk
    refine ⟨fun hb => exec_pageWalk_held hat hk' (hkey ▸ hb), fun hb hs he hv h48 h5 hf => ?_⟩
    have hstep := exec_pageWalk hrun hat hk' (hkey ▸ hb) (hkey ▸ hs)
    rw [hkey, ← he] at hstep
    refine ⟨fun h => ?_, fun hl h => ?_⟩
    · rw [hstep]
      rcases h with ⟨rfl, h1⟩ | ⟨h2, h4, h1⟩
      · rw [if_pos rfl, walkRoot_down hv h1 h5 h48 hf]
      · rw [if_neg (by omega), walkLevel_down hv h5 h48 hf h1 h2]
    · obtain ⟨rest, hrest, hroom, hfull⟩ := addTrans_cons s.free (s.square q).trans (leafOf asid (page * 65536) e (n == 2))
      refine ⟨rest, ?_, hroom, hfull⟩
      rw [hstep, if_neg (by omega), walkLevel_leaf hv h5 h48 hf hl h]
      have hsquare : s.modSquare q (fun x => { x.endWalk w with
            trans := addTrans s.free x.trans (leafOf asid (page * 65536) e (n == 2)) })
          = s.modSquare q fun y => { y with
              walks := y.walks.filter (fun v => v != w), walkAt := y.walkAt.filter (fun v => v.1 != w)
              trans := leafOf asid (page * 65536) e (n == 2) :: rest } := by
        refine modSquare_congr ?_
        rw [hrest]
        rfl
      rw [leafOf_page] at hsquare
      simp only [leafOf_page]
      rw [hsquare]
  · intro s q asid page tid a n table t hrun hat k hk hb hs hv hn hm hw hp hq ha hd ho hwalk s1
    have hstep := exec_pageWalk hrun hat hk hb hs
    obtain ⟨hroot, hlevel⟩ := walkEntry_invalid (asid := asid) (va := page * 65536) (n := n) hv
    have hfault : (if n = 5 then walkRoot (page * 65536) (s.loadWord k) else walkLevel asid (page * 65536) n (s.loadWord k))
        = .fault { cause := 0x17, qual := 2, detail := BitVec.ofNat 64 (page * 65536) } := by
      rw [hroot, hlevel, ite_self]
    obtain ⟨cs, hcs⟩ := walkEnds_single (s := s1) (q := q) (asid := asid) (page := page)
      (f := { cause := 0x17, qual := 2, detail := BitVec.ofNat 64 (page * 65536) }) hn hm hw hp hq ha hd
      (show (0x17 : Nat) ≠ 0x19 by decide) ho hwalk
    rw [hfault] at hstep
    have hends : exec (.pageWalk q asid page) s = .next (s1.walkEnds q asid page
        { cause := 0x17, qual := 2, detail := BitVec.ofNat 64 (page * 65536) }) := hstep
    rw [hcs] at hends
    exact ⟨_, hends, rfl⟩
  · intro s q asid line hn waits hwaits again look
    refine ⟨fun k hl h1 h2 h3 h4 => ?_, fun hl => ?_⟩
    · obtain ⟨rest, hrest, hroom, hfull⟩ := addLine_cons s.free (s.square q).lines
        { asid := asid, addr := 64 * line, data := BitVec.ofNat 512 (readLE s.mem k 64) }
      have hstep := exec_icacheFill_hit hwaits hl h1 h2 h3 h4
      have hsquare : s.modSquare q (fun y => { y with
            lines := addLine s.free y.lines { asid := asid, addr := 64 * line, data := BitVec.ofNat 512 (readLE s.mem k 64) } })
          = s.modSquare q fun y => { y with
            lines := { asid := asid, addr := 64 * line, data := BitVec.ofNat 512 (readLE s.mem k 64) } :: rest } :=
        modSquare_congr (by rw [hrest])
      rw [hsquare] at hstep
      obtain ⟨⟨th, hth⟩, hagain⟩ := refetch_parts (q := q) (line := line) (asid := asid) hn (u := { s.modSquare q fun y => { y with
        lines := { asid := asid, addr := 64 * line, data := BitVec.ofNat 512 (readLE s.mem k 64) } :: rest } with
          free := s.free + 1 }) rfl
      exact ⟨_, rest, hstep, hagain, by rw [hth], hroom, hfull⟩
    · obtain ⟨⟨th, hth⟩, hagain⟩ := refetch_parts (q := q) (line := line) (asid := asid) hn rfl
      exact ⟨_, exec_icacheFill_again hwaits hl, hagain, by rw [hth]⟩

end Sys2Proof.Machine
end

section
/-!
PROOFS. The `once` prefix (O31): the bundle is opened behind it, the record of the occurrence is made or met, and the member is
elected or goes on (R104, R224, R225); a post of a unit fills what its occurrence has emptied (R237, R238).
-/

namespace Sys2Proof.Machine

/-! ### Once records -/

section
variable {s : State} {q n : Nat}

theorem onceRecs_setOnce (rs : List OnceRec) (h : n < 16) : (s.setOnce q n rs).onceRecs q n = rs := by
  rw [State.onceRecs, State.setOnce, square_modSquare_self]
  simp [h]

/-- Squares are put in place of those of s. -/
def State.withSquares (s : State) (qs : Tbl Square) : State := { s with squares := qs }

/-- Records concern squares alone. -/
theorem setOnce_eq (rs : List OnceRec) : s.setOnce q n rs = s.withSquares (s.setOnce q n rs).squares := rfl

end

theorem posInSquare_lt (core : Nat) : posInSquare core < 16 := by
  unfold posInSquare
  omega

/-- An entry of a table whose one key is set is that entry, or stands there whatever is set. -/
theorem mem_tput_other {α : Type} {l : Tbl α} {k : Nat} {x y : α} {p : Nat × α} (h : p ∈ tput l k x) :
    p = (k, x) ∨ p ∈ tput l k y := by
  induction l with
  | nil => exact .inl (List.mem_singleton.1 h)
  | cons e l ih =>
    obtain ⟨j, z⟩ := e
    simp only [tput] at h ⊢
    split at h
    · next hlt =>
      rw [if_pos hlt]
      exact (List.mem_cons.1 h).imp_right (List.mem_cons_of_mem _)
    · next hlt =>
      rw [if_neg hlt]
      split at h
      · next he =>
        rw [if_pos he]
        exact (List.mem_cons.1 h).imp_right (List.mem_cons_of_mem _)
      · next he =>
        rw [if_neg he]
        rcases List.mem_cons.1 h with h | h
        · exact .inr (h ▸ List.mem_cons_self ..)
        · exact (ih h).imp_right (List.mem_cons_of_mem _)

/-! ### The unit is opened (R104) -/

/-- The thread whose unit at u governs the instructions is. -/
def Thread.governing (t : Thread) (u : Word) (is : List Instr) : Thread :=
  { t with bundle := some { pc := u, instrs := .once :: is, next := u + 16 } }

section
variable {s : State} {u : Word} {occ : BitVec 32} {is : List Instr}

theorem opened_unit (hme : s.me?.isSome) (hu : s.ctx.unit = some (u, occ)) (hpc : s.ctx.pc = u) (is : List Instr) :
    s.opened (partsOf is) = { s with
      threads := tput s.threads s.ctx.tid (s.me.governing u is)
      ctx := { s.ctx with
        pc := u, target := u + 16, instrs := .once :: is, pre := s.me.regs, flags := s.me.fexc, pushes := [], taken := false } } := by
  have ht := State.me_of hme
  have ht' : tget s.threads s.ctx.tid = some s.me := ht
  simp [State.opened, partsOf_snd, hu, hpc, State.modMe, State.modThread, tmod_some _ ht', Thread.governing]

end

theorem partsOf_any (is : List Instr) (f : Instr → Bool) : (partsOf is).any (fun p => f p.2) = is.any f := by
  have h : ((partsOf is).map Prod.snd).any f = is.any f := by rw [partsOf_snd]
  rwa [List.any_map] at h

/-- Nothing stops the governed bundle: its effects follow, and a member of a gang counts the occurrence. -/
theorem govern_passes {s : State} {is : List Instr} (hb : is.any usesBank = false)
    (h : firstStop [overHalves (partsOf is) s.bindStop, overHalves (partsOf is) s.readiness,
      overHalves (partsOf is) s.engineRoom, overHalves (partsOf is) s.badOperand, overHalves (partsOf is) s.late] = none) :
    s.govern (partsOf is) = { (if s.me.gang then s.reachOnce s.ctx.tid s.me else s) with
      ctx := { s.ctx with phase := .checked, governed := true } } := by
  have hbind : s.bindNow (partsOf is) = s := by
    rw [State.bindNow, partsOf_any, hb]
    simp
  rw [State.govern, hbind]
  simp only [h]
  cases s.me.gang <;> rfl

/-- What a member makes of the record of its occurrence. -/
def State.atRecord (w : State) (r : OnceRec) (is : List Instr) : State :=
  if r.unit != w.ctx.pc then w.stopWith (.fault { cause := 0x27, half := .lone, detail := r.unit })
  else if !r.posted && !r.hasElect (w.gangOf w.me.launch (squareOf w.me.homeCore) w.me.homeSlot) then
    w.stopWith (.fault { cause := 0x28, half := .lone, detail := w.ctx.pc })
  else if r.elect != posInSquare w.me.homeCore then w.member r (is.flatMap regDsts)
  else w.govern (partsOf is)

section
variable {s : State} (hme : s.me?.isSome) (hc : firstStop [doubleWrite (partsOf s.ctx.instrs),
  (s.opened (partsOf s.ctx.instrs)).issueChecks ((.lone, .once) :: partsOf s.ctx.instrs)] = none)
include hme hc

/-- Outside a gang the bundle is governed on its thread. -/
theorem exec_once_alone (hg : (s.opened (partsOf s.ctx.instrs)).me.gang = false) :
    exec .once s = .next ((s.opened (partsOf s.ctx.instrs)).govern (partsOf s.ctx.instrs)) := by
  rw [show exec .once s = execOnce s from rfl, execOnce, State.me_of hme, onceStep]
  simp only [hc, hg]
  rfl

/-- In a gang its record decides. -/
theorem exec_once_record (hg : (s.opened (partsOf s.ctx.instrs)).me.gang = true) {w : State} {r : OnceRec}
    (hr : (s.opened (partsOf s.ctx.instrs)).onceRecord (s.opened (partsOf s.ctx.instrs)).me
      (s.opened (partsOf s.ctx.instrs)).ctx.pc (s.ctx.instrs.flatMap regDsts) = (w, some r))
    (hw : w.me = (s.opened (partsOf s.ctx.instrs)).me) :
    exec .once s = .next (w.atRecord r s.ctx.instrs) := by
  rw [show exec .once s = execOnce s from rfl, execOnce, State.me_of hme, onceStep, State.atRecord, hw]
  simp only [hc, hg, hr]
  rfl

end

/-! ### The record of an occurrence (R224) -/

section
variable {s : State} {t : Thread} {u : Word} {ds : List Nat}

theorem onceRecord_found {r : OnceRec}
    (h : ((s.onceRecs (squareOf t.homeCore) t.homeSlot).find? fun r => r.occ == t.occ) = some r) :
    s.onceRecord t u ds = (s, some r) := by
  rw [State.onceRecord]
  simp only [h]

theorem onceRecord_new (h : ((s.onceRecs (squareOf t.homeCore) t.homeSlot).find? fun r => r.occ == t.occ) = none)
    (hroom : ((s.onceRecs (squareOf t.homeCore) t.homeSlot).filter fun r =>
      r.isOpen (s.gangOf t.launch (squareOf t.homeCore) t.homeSlot)).length < 16) :
    s.onceRecord t u ds = (s.setOnce (squareOf t.homeCore) t.homeSlot (s.onceRecs (squareOf t.homeCore) t.homeSlot
        ++ [newOnce t u ds (s.gangOf t.launch (squareOf t.homeCore) t.homeSlot)]),
      some (newOnce t u ds (s.gangOf t.launch (squareOf t.homeCore) t.homeSlot))) := by
  rw [State.onceRecord]
  simp only [h, if_neg (Nat.not_le.2 hroom)]

end

/-! ### A member that is not elected -/

/-- A value that a record holds, put into registers. -/
def Regs.takeHeld (g : Regs) (p : Nat × Option Vec) : Regs :=
  match p.2 with
  | some v => g.setDst p.1 v
  | none => g

/-- A member's registers at a unit: emptied, and filled with the values that its record holds. -/
def Thread.joined (t : Thread) (r : OnceRec) (ds : List Nat) : Thread :=
  { t with
    regs := (r.dsts.zip r.vals).foldl Regs.takeHeld (ds.foldl Regs.emptyDst t.regs)
    badRegs := t.badRegs.filter fun d => !ds.contains d
    awaited := t.awaited ++ ((r.dsts.zip r.vals).filter fun p => p.2.isNone).map fun p => (p.1, t.occ)
    occ := t.occ + 1 }

/-- The records as a member has reached its occurrence. -/
def reachedBy (t : Thread) (rs : List OnceRec) : List OnceRec :=
  rs.map fun r => if r.occ = t.occ then { r with reached := r.reached ||| (1#16 <<< posInSquare t.homeCore) } else r

/-- A member reaches its occurrence: its record says so, and it counts it. -/
theorem reachOnce_of {s : State} {tid : Nat} {x : Thread} (h : tget s.threads tid = some x) (t : Thread) : s.reachOnce tid t =
    { s.setOnce (squareOf t.homeCore) t.homeSlot (reachedBy t (s.onceRecs (squareOf t.homeCore) t.homeSlot)) with
      threads := tput s.threads tid { x with occ := x.occ + 1 } } :=
  State.modThread_of (s.setOnce (squareOf t.homeCore) t.homeSlot
    (reachedBy t (s.onceRecs (squareOf t.homeCore) t.homeSlot))) (fun t => { t with occ := t.occ + 1 }) h

/-- A bundle of the prefix alone ends: nothing is popped or pushed. -/
theorem finish_once {s : State} {t : Thread} (ht : tget s.threads s.ctx.tid = some t) (hi : s.ctx.instrs = [.once])
    (hp : s.ctx.pushes = []) (hpend : t.pending = false) :
    s.finish = { s with threads := tput s.threads s.ctx.tid { t with
      pc := s.ctx.target, lastPc := s.ctx.pc, retries := 0 } } := by
  have hme : s.me = t := by rw [State.me, State.me?, State.thread?, ht]; rfl
  have hpop : s.popped = [] := by rw [State.popped, hi]; rfl
  have hfilter : t.badRegs.filter (fun d => !((Instr.once :: []).flatMap regDsts).contains d) = t.badRegs :=
    List.filter_eq_self.2 fun _ _ => rfl
  have hpend' : ({ t with badRegs := t.badRegs } : Thread).pending = false := hpend
  rw [State.finish]
  simp only [hpop, hme, hpend, hp, hi, List.foldl_nil, Bool.false_eq_true, if_false, State.modMe]
  rw [State.modThread_of _ _ ht]
  simp only [hfilter, hpend', Bool.false_eq_true, if_false]

/-- A value that a record holds fills its destination of the issuing thread. -/
def State.fillHeld (s : State) (p : Nat × Option Vec) : State :=
  match p.2 with
  | some v => s.modMe fun t => { t with regs := t.regs.setDst p.1 v }
  | none => s

theorem foldl_fillHeld (u : State) (th : Tbl Thread) (x : Thread) (held : List (Nat × Option Vec)) :
    held.foldl State.fillHeld { u with threads := tput th u.ctx.tid x }
      = { u with threads := tput th u.ctx.tid { x with regs := held.foldl Regs.takeHeld x.regs } } := by
  induction held generalizing x with
  | nil => rfl
  | cons p held ih =>
    rw [List.foldl_cons, List.foldl_cons]
    obtain ⟨d, v⟩ := p
    cases v with
    | none => exact ih x
    | some v =>
      have hstep : State.fillHeld { u with threads := tput th u.ctx.tid x } (d, some v)
          = { u with threads := tput th u.ctx.tid { x with regs := x.regs.setDst d v } } := by
        simp only [State.fillHeld, State.modMe, State.modThread, tmod_tput]
      rw [hstep]
      exact ih { x with regs := x.regs.setDst d v }

section
variable {w : State} {t : Thread} {r : OnceRec} {ds : List Nat}

/-- A member that is not elected, before the occurrence's records are looked at again. -/
def State.joins (w : State) (t : Thread) (r : OnceRec) (ds : List Nat) : State :=
  { w.setOnce (squareOf t.homeCore) t.homeSlot (reachedBy t (w.onceRecs (squareOf t.homeCore) t.homeSlot)) with
    threads := tput w.threads w.ctx.tid { t.joined r ds with pc := w.ctx.target, lastPc := w.ctx.pc, retries := 0 }
    ctx := { w.ctx with instrs := [.once], phase := .checked } }

theorem member_joins (ht : tget w.threads w.ctx.tid = some t) (hpend : t.pending = false) (hpush : w.ctx.pushes = [])
    (hfull : ∀ d ∈ ds, t.regs.fullDst d = true) :
    w.member r ds = (w.joins t r ds).retireOnce t.launch (squareOf t.homeCore) t.homeSlot := by
  have hme : w.me = t := by rw [State.me, State.me?, State.thread?, ht]; rfl
  have hfind : ds.find? (fun d => !t.regs.fullDst d) = none := List.find?_eq_none.2 fun d hd => by simp [hfull d hd]
  have hmember : w.member r ds =
      let e := w.modMe (fun x => { x with
        regs := ds.foldl Regs.emptyDst x.regs, badRegs := x.badRegs.filter (fun d => !ds.contains d),
        awaited := x.awaited ++ ((r.dsts.zip r.vals).filter fun p => p.2.isNone).map fun p => (p.1, x.occ) })
      let f := (r.dsts.zip r.vals).foldl State.fillHeld (e.reachOnce e.ctx.tid t)
      ({ f with ctx := { f.ctx with instrs := [.once], phase := .checked } } : State).finish.retireOnce t.launch
        (squareOf t.homeCore) t.homeSlot := by
    rw [State.member, hme]
    simp only [hfind]
    rfl
  have hemptied : w.modMe (fun x => { x with
      regs := ds.foldl Regs.emptyDst x.regs, badRegs := x.badRegs.filter (fun d => !ds.contains d),
      awaited := x.awaited ++ ((r.dsts.zip r.vals).filter fun p => p.2.isNone).map fun p => (p.1, x.occ) })
    = { w with threads := tput w.threads w.ctx.tid { t with
      regs := ds.foldl Regs.emptyDst t.regs, badRegs := t.badRegs.filter (fun d => !ds.contains d),
      awaited := t.awaited ++ ((r.dsts.zip r.vals).filter fun p => p.2.isNone).map fun p => (p.1, t.occ) } } :=
    State.modThread_of _ _ ht
  have hreach (x : Thread) : ({ w with threads := tput w.threads w.ctx.tid x } : State).reachOnce w.ctx.tid t
      = { w.setOnce (squareOf t.homeCore) t.homeSlot (reachedBy t (w.onceRecs (squareOf t.homeCore) t.homeSlot)) with
          threads := tput w.threads w.ctx.tid { x with occ := x.occ + 1 } } := by
    rw [reachOnce_of (x := x) (tget_tput_self _ _ _), tput_tput]
    rfl
  have hfill (x : Thread) := foldl_fillHeld
    (w.setOnce (squareOf t.homeCore) t.homeSlot (reachedBy t (w.onceRecs (squareOf t.homeCore) t.homeSlot))) w.threads x
    (r.dsts.zip r.vals)
  rw [hmember, hemptied]
  dsimp only
  rw [hreach]
  refine congrArg (State.retireOnce · t.launch (squareOf t.homeCore) t.homeSlot) ?_
  have hf := hfill { t.joined r ds with
    regs := ds.foldl Regs.emptyDst t.regs }
  refine (congrArg (fun f : State => State.finish { f with ctx := { f.ctx with instrs := [.once], phase := .checked } }) hf).trans ?_
  have hfinish := finish_once (t := t.joined r ds)
    (s := { w.setOnce (squareOf t.homeCore) t.homeSlot (reachedBy t (w.onceRecs (squareOf t.homeCore) t.homeSlot)) with
      threads := tput w.threads w.ctx.tid (t.joined r ds), ctx := { w.ctx with instrs := [.once], phase := .checked } })
    (tget_tput_self _ _ _) rfl hpush hpend
  refine Eq.trans hfinish ?_
  simp only [tput_tput]
  rfl

end

/-- The thread of a member that went on behind its unit at u. -/
theorem joined_stepped (t : Thread) (u : Word) (is : List Instr) (r : OnceRec) :
    ({ (t.governing u is).joined r (is.flatMap regDsts) with pc := u + 16, lastPc := u, retries := 0 } : Thread)
      = { (t.stepped .once (u + 16)) with
          bundle := some { pc := u, instrs := .once :: is, next := u + 16 }, lastPc := u, occ := t.occ + 1
          regs := (r.dsts.zip r.vals).foldl Regs.takeHeld ((is.flatMap regDsts).foldl Regs.emptyDst t.regs)
          awaited := t.awaited ++ ((r.dsts.zip r.vals).filter fun p => p.2.isNone).map fun p => (p.1, t.occ)
          badRegs := t.badRegs.filter fun d => !((Instr.once :: is).flatMap regDsts).contains d } := rfl

/-- A record without values fills nothing, and all its destinations are awaited. -/
theorem held_none (ds : List Nat) (g : Regs) (occ : BitVec 32) :
    (ds.zip (ds.map fun _ => (none : Option Vec))).foldl Regs.takeHeld g = g
    ∧ ((ds.zip (ds.map fun _ => (none : Option Vec))).filter fun p => p.2.isNone).map (fun p => (p.1, occ))
      = ds.map fun d => (d, occ) := by
  induction ds with
  | nil => exact ⟨rfl, rfl⟩
  | cons d ds ih =>
    rw [List.map_cons, List.zip_cons_cons, List.foldl_cons, List.map_cons]
    refine ⟨ih.1, ?_⟩
    rw [List.filter_cons_of_pos (by rfl), List.map_cons, ih.2]

/-- The thread of the first member, where another is elected. -/
theorem joined_new (t : Thread) (u : Word) (is : List Instr) (gang : List (Nat × Thread)) :
    ({ (t.governing u is).joined (newOnce t u (is.flatMap regDsts) gang) (is.flatMap regDsts) with
      pc := u + 16, lastPc := u, retries := 0 } : Thread)
      = { (t.stepped .once (u + 16)) with
          bundle := some { pc := u, instrs := .once :: is, next := u + 16 }, lastPc := u, occ := t.occ + 1
          regs := (is.flatMap regDsts).foldl Regs.emptyDst t.regs
          awaited := t.awaited ++ (is.flatMap regDsts).map fun d => (d, t.occ)
          badRegs := t.badRegs.filter fun d => !((Instr.once :: is).flatMap regDsts).contains d } := by
  rw [joined_stepped]
  simp only [newOnce, (held_none _ _ t.occ).1, (held_none _ t.regs t.occ).2]

/-- An unposted record whose elected member lives is kept. -/
theorem retireOnce_keeps {s : State} {l q n : Nat} {r : OnceRec} (hn : n < 16) (hr : r ∈ s.onceRecs q n)
    (hp : r.posted = false) (he : r.hasElect (s.gangOf l q n) = true) : r ∈ (s.retireOnce l q n).onceRecs q n := by
  rw [State.retireOnce, onceRecs_setOnce _ hn]
  exact List.mem_filter.2 ⟨hr, by simp [hp, he]⟩

/-- A gang keeps a member at another place when one of its threads changes. -/
theorem hasElect_tput {s : State} {th : Tbl Thread} {tid : Nat} {x y : Thread} {r : OnceRec} {l q n : Nat}
    (hx : s.threads = tput th tid x) (hpos : posInSquare x.homeCore ≠ r.elect)
    (h : r.hasElect (s.gangOf l q n) = true) {u : State} (hu : u.threads = tput th tid y) :
    r.hasElect (u.gangOf l q n) = true := by
  obtain ⟨p, hp, he⟩ := List.any_eq_true.1 h
  obtain ⟨hm, hg⟩ := List.mem_filter.1 hp
  refine List.any_eq_true.2 ⟨p, List.mem_filter.2 ⟨?_, hg⟩, he⟩
  rw [hu]
  rcases mem_tput_other (y := y) (hx ▸ hm) with rfl | hmem
  · exact absurd (by simpa using he) hpos
  · exact hmem

theorem getLsbD_reached (b : BitVec 16) (core : Nat) : (b ||| (1#16 <<< posInSquare core)).getLsbD (posInSquare core) = true := by
  have h := posInSquare_lt core
  simp [h]

/-! ### The clauses of O31 -/

/-- The unit at u is about to issue on its thread, and passes its own checks. -/
structure AtUnit (s : State) (u : Word) (occ : BitVec 32) : Prop where
  me : s.me?.isSome
  pending : s.me.pending = false
  unit : s.ctx.unit = some (u, occ)
  pc : s.ctx.pc = u
  checks : firstStop [doubleWrite (partsOf s.ctx.instrs),
    (s.opened (partsOf s.ctx.instrs)).issueChecks ((.lone, .once) :: partsOf s.ctx.instrs)] = none

/-- The state in which the unit's own checks have passed. -/
def State.unitOpen (s : State) : State := s.opened (partsOf s.ctx.instrs)

namespace AtUnit
variable {s : State} {u : Word} {occ : BitVec 32} (h : AtUnit s u occ)
include h

theorem opened_eq : s.unitOpen = { s with
      threads := tput s.threads s.ctx.tid (s.me.governing u s.ctx.instrs)
      ctx := { s.ctx with
        pc := u, target := u + 16, instrs := .once :: s.ctx.instrs, pre := s.me.regs, flags := s.me.fexc, pushes := [],
        taken := false } } := opened_unit h.me h.unit h.pc s.ctx.instrs

theorem me_eq : s.unitOpen.me = s.me.governing u s.ctx.instrs := by
  rw [h.opened_eq]
  exact State.me_put s _ _ _ rfl

theorem thread_eq : tget s.unitOpen.threads s.unitOpen.ctx.tid = some (s.me.governing u s.ctx.instrs) := by
  rw [h.opened_eq]
  exact tget_tput_self _ _ _

theorem recs_eq (q n : Nat) : s.unitOpen.onceRecs q n = s.onceRecs q n := by
  rw [h.opened_eq]
  rfl

theorem ctx_eq : s.unitOpen.ctx.pc = u ∧ s.unitOpen.ctx.target = u + 16 ∧ s.unitOpen.ctx.pushes = []
    ∧ s.unitOpen.ctx.tid = s.ctx.tid ∧ s.unitOpen.ctx.governed = s.ctx.governed := by
  rw [h.opened_eq]
  exact ⟨rfl, rfl, rfl, rfl, rfl⟩

/-- Outside a gang the bundle is governed on its thread. -/
theorem alone (hb : s.ctx.instrs.any usesBank = false) (hg : s.me.gang = false)
    (hs : firstStop [overHalves (partsOf s.ctx.instrs) s.unitOpen.bindStop, overHalves (partsOf s.ctx.instrs) s.unitOpen.readiness,
      overHalves (partsOf s.ctx.instrs) s.unitOpen.engineRoom, overHalves (partsOf s.ctx.instrs) s.unitOpen.badOperand,
      overHalves (partsOf s.ctx.instrs) s.unitOpen.late] = none) :
    exec .once s = .next { s.unitOpen with ctx := { s.unitOpen.ctx with phase := .checked, governed := true } } := by
  have hgang : s.unitOpen.me.gang = false := by rw [h.me_eq]; exact hg
  rw [exec_once_alone h.me h.checks hgang, ← State.unitOpen, govern_passes hb hs, hgang]
  rfl

/-- A member that meets a record of its occurrence. -/
theorem meets_found (hg : s.me.gang = true) {r : OnceRec}
    (hr : ((s.onceRecs (squareOf s.me.homeCore) s.me.homeSlot).find? fun r => r.occ == s.me.occ) = some r) :
    exec .once s = .next (s.unitOpen.atRecord r s.ctx.instrs) := by
  refine exec_once_record h.me h.checks (by rw [← State.unitOpen, h.me_eq]; exact hg) ?_ rfl
  rw [← State.unitOpen, h.me_eq]
  exact onceRecord_found (by rw [h.recs_eq]; exact hr)

/-- The first member to come makes the record. -/
theorem meets_new (hg : s.me.gang = true)
    (hr : ((s.onceRecs (squareOf s.me.homeCore) s.me.homeSlot).find? fun r => r.occ == s.me.occ) = none)
    (hroom : ((s.onceRecs (squareOf s.me.homeCore) s.me.homeSlot).filter fun r =>
      r.isOpen (s.unitOpen.gangOf s.me.launch (squareOf s.me.homeCore) s.me.homeSlot)).length < 16) :
    let r := newOnce s.me u (s.ctx.instrs.flatMap regDsts)
      (s.unitOpen.gangOf s.me.launch (squareOf s.me.homeCore) s.me.homeSlot)
    exec .once s = .next ((s.unitOpen.setOnce (squareOf s.me.homeCore) s.me.homeSlot
      (s.onceRecs (squareOf s.me.homeCore) s.me.homeSlot ++ [r])).atRecord r s.ctx.instrs) := by
  intro r
  refine exec_once_record h.me h.checks (by rw [← State.unitOpen, h.me_eq]; exact hg) ?_ rfl
  rw [← State.unitOpen, h.me_eq, h.ctx_eq.1, ← h.recs_eq]
  exact onceRecord_new (t := s.me.governing u s.ctx.instrs) (by rw [h.recs_eq]; exact hr) (by rw [h.recs_eq]; exact hroom)

/-- A fault of the unit is raised at its prefix. -/
theorem stops (cause : Nat) (d : Word) (h19 : cause ≠ 0x19) (h26 : cause ≠ 0x26) :
    s.unitOpen.stopWith (.fault { cause := cause, half := .lone, detail := d }) = s.unitOpen.raise s.ctx.tid
      { cause := cause, half := .lone, pc := u, detail := d, bundle := s.unitOpen.me.bundle } := by
  obtain ⟨hpc, -, -, htid, -⟩ := h.ctx_eq
  rw [State.stopWith, readNotes_of_cause _ h19 h26]
  simp only [hpc, htid]

/-- A member that is not elected joins the occurrence, in a state that differs from the opened one in records at most. -/
theorem member_eq (qs : Tbl Square) {r : OnceRec} (hfull : ∀ d ∈ s.ctx.instrs.flatMap regDsts, s.me.regs.fullDst d = true) :
    (s.unitOpen.withSquares qs).member r (s.ctx.instrs.flatMap regDsts)
      = ((s.unitOpen.withSquares qs).joins (s.me.governing u s.ctx.instrs) r
          (s.ctx.instrs.flatMap regDsts)).retireOnce s.me.launch (squareOf s.me.homeCore) s.me.homeSlot :=
  member_joins (t := s.me.governing u s.ctx.instrs) h.thread_eq h.pending h.ctx_eq.2.2.1 hfull

/-- It goes on behind its unit; beside its own record, only records have changed. -/
theorem member_parts (qs : Tbl Square) (r : OnceRec) :
    let t := ((s.unitOpen.withSquares qs).joins (s.me.governing u s.ctx.instrs) r
      (s.ctx.instrs.flatMap regDsts)).retireOnce s.me.launch (squareOf s.me.homeCore) s.me.homeSlot
    t.ctx.governed = s.ctx.governed ∧ t = { s with threads := t.threads, squares := t.squares, ctx := t.ctx }
    ∧ t.threads = tput s.threads s.ctx.tid { (s.me.governing u s.ctx.instrs).joined r (s.ctx.instrs.flatMap regDsts) with
        pc := u + 16, lastPc := u, retries := 0 } := by
  rw [h.opened_eq]
  refine ⟨rfl, rfl, ?_⟩
  exact tput_tput _ _ _ _

end AtUnit

/-! ### What a record decides -/

section
variable {w : State} {r : OnceRec} {is : List Instr}

theorem atRecord_mismatch (h : r.unit ≠ w.ctx.pc) :
    w.atRecord r is = w.stopWith (.fault { cause := 0x27, half := .lone, detail := r.unit }) := by
  rw [State.atRecord, if_pos (by simpa using h)]

variable (hu : r.unit = w.ctx.pc)
include hu

theorem atRecord_orphan (hp : r.posted = false)
    (he : r.hasElect (w.gangOf w.me.launch (squareOf w.me.homeCore) w.me.homeSlot) = false) :
    w.atRecord r is = w.stopWith (.fault { cause := 0x28, half := .lone, detail := w.ctx.pc }) := by
  rw [State.atRecord, if_neg (by simpa using hu), if_pos (by simp [hp, he])]

variable (he : r.posted = true ∨ r.hasElect (w.gangOf w.me.launch (squareOf w.me.homeCore) w.me.homeSlot) = true)
include he

theorem atRecord_member (hpos : r.elect ≠ posInSquare w.me.homeCore) : w.atRecord r is = w.member r (is.flatMap regDsts) := by
  rw [State.atRecord, if_neg (by simpa using hu), if_neg (by rcases he with he | he <;> simp [he]), if_pos (by simpa using hpos)]

theorem atRecord_elected (hpos : r.elect = posInSquare w.me.homeCore) : w.atRecord r is = w.govern (partsOf is) := by
  rw [State.atRecord, if_neg (by simpa using hu), if_neg (by rcases he with he | he <;> simp [he]), if_neg (by simpa using hpos)]

end

namespace AtUnit
variable {s : State} {u : Word} {occ : BitVec 32} (h : AtUnit s u occ)
include h

/-- The first member, where another is elected: it joins, and the record keeps that it has been there. -/
theorem first_joins (hg : s.me.gang = true) (hn : s.me.homeSlot < 15)
    (hr : ((s.onceRecs (squareOf s.me.homeCore) s.me.homeSlot).find? fun r => r.occ == s.me.occ) = none)
    (hroom : ((s.onceRecs (squareOf s.me.homeCore) s.me.homeSlot).filter fun r =>
      r.isOpen (s.unitOpen.gangOf s.me.launch (squareOf s.me.homeCore) s.me.homeSlot)).length < 16)
    (hfull : ∀ d ∈ s.ctx.instrs.flatMap regDsts, s.me.regs.fullDst d = true) :
    let gang := s.unitOpen.gangOf s.me.launch (squareOf s.me.homeCore) s.me.homeSlot
    let r := newOnce s.me u (s.ctx.instrs.flatMap regDsts) gang
    r.elect ≠ posInSquare s.me.homeCore → r.hasElect gang = true →
    ∃ t, exec .once s = .next t ∧ t.ctx.governed = s.ctx.governed
      ∧ t = { s with threads := t.threads, squares := t.squares, ctx := t.ctx }
      ∧ t.threads = tput s.threads s.ctx.tid { (s.me.governing u s.ctx.instrs).joined r (s.ctx.instrs.flatMap regDsts) with
          pc := u + 16, lastPc := u, retries := 0 }
      ∧ { r with reached := r.reached ||| (1#16 <<< posInSquare s.me.homeCore) }
          ∈ t.onceRecs (squareOf s.me.homeCore) s.me.homeSlot := by
  intro gang r hpos helect
  have hn' : s.me.homeSlot < 16 := by omega
  let rs := s.onceRecs (squareOf s.me.homeCore) s.me.homeSlot ++ [r]
  let qs := (s.unitOpen.setOnce (squareOf s.me.homeCore) s.me.homeSlot rs).squares
  have hme : (s.unitOpen.withSquares qs).me = s.me.governing u s.ctx.instrs := h.me_eq
  have hexec : exec .once s = .next ((s.unitOpen.withSquares qs).atRecord r s.ctx.instrs) := h.meets_new hg hr hroom
  rw [atRecord_member h.ctx_eq.1.symm (.inr (by rw [hme]; exact helect)) (by rw [hme]; exact hpos), h.member_eq qs hfull] at hexec
  obtain ⟨hgov, hframe, hthreads⟩ := h.member_parts qs r
  refine ⟨_, hexec, hgov, hframe, hthreads, retireOnce_keeps hn' ?_ rfl ?_⟩
  · have hrecs : (s.unitOpen.withSquares qs).onceRecs (squareOf s.me.homeCore) s.me.homeSlot = rs := onceRecs_setOnce rs hn'
    have hreached := onceRecs_setOnce (s := s.unitOpen.withSquares qs) (q := squareOf s.me.homeCore)
      (reachedBy (s.me.governing u s.ctx.instrs) rs) hn'
    rw [← hrecs] at hreached
    refine hreached ▸ List.mem_map.2 ⟨r, ?_, if_pos rfl⟩
    rw [hrecs]
    exact List.mem_append_right _ (List.mem_singleton_self r)
  · exact hasElect_tput (s := s.unitOpen) (th := s.threads) (tid := s.ctx.tid) (x := s.me.governing u s.ctx.instrs) (r := r)
      (by rw [h.opened_eq]) (Ne.symm hpos) helect hthreads

/-- The first member, elected itself: its bundle is governed, and it counts the occurrence. -/
theorem first_governs (hg : s.me.gang = true)
    (hr : ((s.onceRecs (squareOf s.me.homeCore) s.me.homeSlot).find? fun r => r.occ == s.me.occ) = none)
    (hroom : ((s.onceRecs (squareOf s.me.homeCore) s.me.homeSlot).filter fun r =>
      r.isOpen (s.unitOpen.gangOf s.me.launch (squareOf s.me.homeCore) s.me.homeSlot)).length < 16)
    (hb : s.ctx.instrs.any usesBank = false) :
    let gang := s.unitOpen.gangOf s.me.launch (squareOf s.me.homeCore) s.me.homeSlot
    let r := newOnce s.me u (s.ctx.instrs.flatMap regDsts) gang
    let w := s.unitOpen.setOnce (squareOf s.me.homeCore) s.me.homeSlot
      (s.onceRecs (squareOf s.me.homeCore) s.me.homeSlot ++ [r])
    r.elect = posInSquare s.me.homeCore → r.hasElect gang = true →
    firstStop [overHalves (partsOf s.ctx.instrs) w.bindStop, overHalves (partsOf s.ctx.instrs) w.readiness,
      overHalves (partsOf s.ctx.instrs) w.engineRoom, overHalves (partsOf s.ctx.instrs) w.badOperand,
      overHalves (partsOf s.ctx.instrs) w.late] = none →
    ∃ t, exec .once s = .next t ∧ t.ctx = { s.unitOpen.ctx with phase := .checked, governed := true }
      ∧ t = { s with threads := t.threads, squares := t.squares, ctx := t.ctx }
      ∧ tget t.threads s.ctx.tid = some { s.unitOpen.me with occ := s.me.occ + 1 } := by
  intro gang r w hpos helect hstop
  have hme : w.me = s.me.governing u s.ctx.instrs := h.me_eq
  have hget : tget w.threads w.ctx.tid = some (s.me.governing u s.ctx.instrs) := h.thread_eq
  have hexec : exec .once s = .next (w.atRecord r s.ctx.instrs) := h.meets_new hg hr hroom
  have hgang : w.me.gang = true := by rw [hme]; exact hg
  rw [atRecord_elected h.ctx_eq.1.symm (.inr (by rw [hme]; exact helect)) (by rw [hme]; exact hpos), govern_passes hb hstop,
    if_pos hgang, reachOnce_of hget] at hexec
  refine ⟨_, hexec, rfl, ?_, ?_⟩
  · have hframe : w = (s.unitOpen.withSquares w.squares) := rfl
    rw [hframe, h.opened_eq]
    rfl
  · rw [h.me_eq]
    have htid : w.ctx.tid = s.ctx.tid := h.ctx_eq.2.2.2.1
    rw [htid]
    exact tget_tput_self _ _ _

/-- A member that meets the record of its unit goes on behind it, with the values that the record holds. -/
theorem found_joins (hg : s.me.gang = true) {r : OnceRec}
    (hr : ((s.onceRecs (squareOf s.me.homeCore) s.me.homeSlot).find? fun r => r.occ == s.me.occ) = some r) (hunit : r.unit = u)
    (he : r.posted = true ∨ r.hasElect (s.unitOpen.gangOf s.me.launch (squareOf s.me.homeCore) s.me.homeSlot) = true)
    (hpos : r.elect ≠ posInSquare s.me.homeCore) (hfull : ∀ d ∈ s.ctx.instrs.flatMap regDsts, s.me.regs.fullDst d = true) :
    ∃ t, exec .once s = .next t ∧ t.ctx.governed = s.ctx.governed
      ∧ t = { s with threads := t.threads, squares := t.squares, ctx := t.ctx }
      ∧ t.threads = tput s.threads s.ctx.tid { (s.me.governing u s.ctx.instrs).joined r (s.ctx.instrs.flatMap regDsts) with
          pc := u + 16, lastPc := u, retries := 0 } := by
  have hexec := h.meets_found hg hr
  have hsame : s.unitOpen = s.unitOpen.withSquares s.unitOpen.squares := rfl
  rw [atRecord_member (by rw [hunit, h.ctx_eq.1]) (by rw [h.me_eq]; exact he) (by rw [h.me_eq]; exact hpos), hsame,
    h.member_eq _ hfull] at hexec
  exact ⟨_, hexec, h.member_parts _ r⟩

end AtUnit

/-! ### A post (R224, R237, R238) -/

section
variable {s : State} {id q n pos dst tid : Nat} {occ : BitVec 32} {unit : Word} {v : Vec} {t : Thread}

/-- The threads of a slot's gang, by their place in the square. -/
def State.memberAt (s : State) (q n pos : Nat) : Option (Nat × Thread) :=
  s.threads.find? fun p => p.2.gang && p.2.homeSlot == n && squareOf p.2.homeCore == q && posInSquare p.2.homeCore == pos

/-- A post reaches the member at its place. -/
theorem exec_oncePost (hp : tget s.net id = some (.post q n pos occ unit dst v)) (hm : s.memberAt q n pos = some (tid, t)) :
    exec (.oncePost id) s = .next ((s.dropPacket id).postFill tid dst occ v
      (((((s.onceRecs q n).find? fun r => r.occ == occ).bind fun r => s.memberAt q n r.elect).map Prod.fst).getD 0) unit) := by
  have hx : exec (.oncePost id) s = .next (oncePostStep id s) := rfl
  have hp' : s.packet? id = some (.post q n pos occ unit dst v) := hp
  have hm' : (s.dropPacket id).memberAt q n pos = some (tid, t) := hm
  simp only [State.memberAt] at hm'
  rw [hx, oncePostStep, hp']
  simp only [hm']
  cases hr : (s.onceRecs q n).find? fun r => r.occ == occ with
  | none =>
    have hr' : (((s.dropPacket id).square q).once.toList.getD n []).find? (fun r => r.occ == occ) = none := hr
    simp only [hr']
    rfl
  | some r =>
    have hr' : (((s.dropPacket id).square q).once.toList.getD n []).find? (fun r => r.occ == occ) = some r := hr
    simp only [hr']
    rfl

/-- A member that awaits nothing of the occurrence takes nothing. -/
theorem postFill_unawaited (ht : tget s.threads tid = some t) (ha : (dst, occ) ∉ t.awaited) (w : Nat) :
    s.postFill tid dst occ v w unit = s := by
  rw [State.postFill, show s.thread? tid = some t from ht]
  exact if_neg (by simpa using ha)

/-- One that does: its destination is filled. -/
theorem postFill_open (ht : tget s.threads tid = some t) (ha : (dst, occ) ∈ t.awaited) (hd : t.regs.fullDst dst = false) (w : Nat) :
    s.postFill tid dst occ v w unit = { s with threads := tput s.threads tid { t with
      regs := t.regs.setDst dst v, awaited := t.awaited.filter fun x => x != (dst, occ) } } := by
  rw [State.postFill, show s.thread? tid = some t from ht]
  simp only [List.contains_iff_mem.2 ha, if_true, fillFor_open ht hd]
  rw [State.modThread_of _ _ (tget_tput_self _ _ _), tput_tput]

/-- A destination that is full keeps its value, and the writer is charged. -/
theorem postFill_taken (ht : tget s.threads tid = some t) (ha : (dst, occ) ∈ t.awaited) (hd : t.regs.fullDst dst = true)
    {wid : Nat} {w : Thread} (hw : tget s.threads wid = some w) (hne : wid ≠ tid) :
    s.postFill tid dst occ v wid unit = { s with
      threads := tput (tput s.threads wid { w with
        due := w.due ++ [.fault { cause := 0x1F, pc := unit, detail := BitVec.ofNat 64 dst }] }) tid
          { t with awaited := t.awaited.filter fun x => x != (dst, occ) } } := by
  have hth : s.thread? tid = some t := ht
  have hfill : s.fillFor tid dst v wid unit = { s with threads := tput s.threads wid { w with
      due := w.due ++ [.fault { cause := 0x1F, pc := unit, detail := BitVec.ofNat 64 dst }] } } := by
    rw [State.fillFor, hth]
    simp only [hd, if_true]
    exact State.modThread_of _ _ hw
  rw [State.postFill, hth]
  simp only [List.contains_iff_mem.2 ha, if_true, hfill]
  exact State.modThread_of _ _ (by rw [tget_tput_ne _ _ (Ne.symm hne)]; exact ht)

end

/-- Settles O31: the record decides what a member does, and the register what a post does. -/
theorem onceElectsAndPosts : Obligations.OnceElectsAndPosts := by
  unfold Obligations.OnceElectsAndPosts
  refine ⟨?_, ?_⟩
  · intro s u occ hme hpend hphase hunit hpc is s1 q pos n recs gang lowest hb hchecks
    have h : AtUnit s u occ := ⟨hme, hpend, hunit, hpc, hchecks⟩
    refine ⟨fun hg hs => h.alone hb hg hs, fun hg hn hr hroom hpos helect hfull => ?_,
      fun hg hn hr hroom hpos helect => ?_, fun r hg hn hr => ?_⟩
    · obtain ⟨t, hexec, hgov, hframe, hthreads, hmem⟩ := h.first_joins hg hn hr hroom hfull hpos helect
      refine ⟨t, _, hexec, hgov, hframe, ?_, hmem, rfl, rfl, rfl, getLsbD_reached _ _, rfl, fun v hv => ?_⟩
      · rw [hthreads, tget_tput_self, joined_new]
      · obtain ⟨d, -, hd⟩ := List.mem_map.1 hv
        exact hd.symm
    · have hlives : gang.any (fun p => posInSquare p.2.homeCore == lowest) = true := by
        rw [hpos]
        exact helect
      exact h.first_governs hg hr hroom hb hpos hlives
    · refine ⟨fun hne => ?_, fun hu hp he => ?_, fun hu he hpos hds hfull => ?_⟩
      · have hexec := h.meets_found hg hr
        rw [atRecord_mismatch (by rw [h.ctx_eq.1]; exact hne), h.stops _ _ (by decide) (by decide)] at hexec
        exact hexec
      · have hexec := h.meets_found hg hr
        rw [atRecord_orphan (by rw [h.ctx_eq.1]; exact hu) hp (by rw [h.me_eq]; exact he), h.stops _ _ (by decide) (by decide),
          h.ctx_eq.1] at hexec
        exact hexec
      · obtain ⟨t, hexec, hgov, hframe, hthreads⟩ := h.found_joins hg hr hu he hpos hfull
        refine ⟨t, hexec, hgov, hframe, ?_⟩
        rw [hthreads, tget_tput_self, joined_stepped, hds]
        rfl
  · intro s id q n pos dst tid occ unit v t hp hm ht taken
    have ht' : tget (s.dropPacket id).threads tid = some t := ht
    have hexec := exec_oncePost hp hm
    refine ⟨fun ha => ?_, fun ha hd => ?_, fun r wid w ha hne hd hr hw hwt => ?_⟩
    · rw [hexec, postFill_unawaited ht' ha]
      rfl
    · rw [hexec, postFill_open ht' ha hd]
      rfl
    · have hwt' : tget (s.dropPacket id).threads wid = some w := hwt
      rw [hr, Option.bind_some, show s.memberAt q n r.elect = some (wid, w) from hw] at hexec
      rw [hexec]
      exact congrArg _ (postFill_taken ht' ha hd hwt' hne)

end Sys2Proof.Machine
end
